-- ==== Sys2Proof/Word.lean ====
section
/-!
DEFINITION. The words of Feuri (R8, R9, R20): bytes, 16-, 32- and 64-bit words, 128-bit masks, 96-bit instruction words, the lanes of
a vector register, and association lists in one canonical form (keys strictly rising, no entry equal to the default).
-/
namespace Sys2Proof

abbrev Byte := BitVec 8
abbrev Half := BitVec 16
abbrev Word := BitVec 32
abbrev DWord := BitVec 64
/-- 128 bits, bit l for lane l (R79). -/
abbrev Mask := BitVec 128
/-- One instruction word (R13). -/
abbrev Word96 := BitVec 96

/-- The crew width CW (R5). -/
def cw : Nat := 128

/-- The 128 lanes of a vector register (R20). -/
abbrev Lanes := Vector Word 128

def Lanes.zero : Lanes := Vector.replicate 128 0

/-- Lane `l` of `v`; the lane number is taken modulo CW. -/
def Lanes.get (v : Lanes) (l : Nat) : Word := Vector.get v ⟨l % 128, Nat.mod_lt _ (by decide)⟩

def Lanes.ofFn (f : Nat → Word) : Lanes := Vector.ofFn fun l => f l.val

/-- A sparse table: keys strictly rising. -/
abbrev SMap (α : Type) := List (Nat × α)

namespace SMap
variable {α : Type}

/-- The entry of key `k`, if listed. -/
def find? : SMap α → Nat → Option α
  | [], _ => none
  | (j, x) :: t, k => if j = k then some x else find? t k

/-- Removes the entry of key `k`. -/
def erase : SMap α → Nat → SMap α
  | [], _ => []
  | (j, x) :: t, k => if j = k then erase t k else (j, x) :: erase t k

/-- Sets the entry of key `k`, in key order. -/
def insert : SMap α → Nat → α → SMap α
  | [], k, y => [(k, y)]
  | (j, x) :: t, k, y =>
    if k < j then (k, y) :: (j, x) :: t
    else if k = j then (k, y) :: t
    else (j, x) :: insert t k y

/-- The value of key `k`, where an unlisted key holds `d`. -/
def getD (m : SMap α) (k : Nat) (d : α) : α := (m.find? k).getD d

/-- Sets key `k` in a table whose unlisted keys hold `d`: writing `d` removes the entry. -/
def setD [DecidableEq α] (m : SMap α) (k : Nat) (d y : α) : SMap α :=
  if y = d then m.erase k else m.insert k y

/-- Changes the value of a listed key; an unlisted key is left alone. -/
def modify (m : SMap α) (k : Nat) (f : α → α) : SMap α :=
  match m.find? k with
  | none => m
  | some x => m.insert k (f x)

/-- The keys strictly rise from above `lo`. -/
def risesFrom : Nat → SMap α → Bool
  | _, [] => true
  | lo, (j, _) :: t => decide (lo ≤ j) && risesFrom (j + 1) t

/-- The canonical form: keys strictly rising. -/
def rises (m : SMap α) : Bool := risesFrom 0 m

/-- The canonical form of a table with default `d`. -/
def wf [DecidableEq α] (d : α) (m : SMap α) : Bool := m.rises && m.all fun e => decide (e.2 ≠ d)

/-- The keys, in order. -/
def keys (m : SMap α) : List Nat := m.map Prod.fst

/-- The least key from 0 that is not listed: a fresh name. -/
def fresh (m : SMap α) : Nat := m.foldl (fun n e => max n (e.1 + 1)) 0

end SMap

/-- The value read from `n` bytes, least significant first (R9). -/
def ofBytes : List Byte → Nat
  | [] => 0
  | b :: t => b.toNat + 256 * ofBytes t

/-- The `n` low bytes of `x`, least significant first (R9). -/
def toBytes : Nat → Nat → List Byte
  | 0, _ => []
  | n + 1, x => BitVec.ofNat 8 x :: toBytes n (x / 256)

/-- Bits `hi` to `lo` of a number, as R11's `x[hi:lo]`. -/
def bits (x hi lo : Nat) : Nat := x / 2 ^ lo % 2 ^ (hi + 1 - lo)

/-- The number `x`, of `w` bits, read as two's complement. -/
def signed (w x : Nat) : Int := if 2 * (x % 2 ^ w) < 2 ^ w then (x % 2 ^ w : Nat) else (x % 2 ^ w : Nat) - (2 ^ w : Nat)

/-- The `w`-bit pattern of an exact integer. -/
def wrap (w : Nat) (x : Int) : Nat := (x % (2 ^ w : Nat)).toNat

/-- R11's `sat`. -/
def sat (x lo hi : Int) : Int := if x < lo then lo else if hi < x then hi else x

/-- R11's `ceil` of a quotient. -/
def ceilDiv (a b : Nat) : Nat := (a + b - 1) / b

/-- R11's `wrap32`. -/
def wrap32 (x : Nat) : Nat := x % 2 ^ 32

end Sys2Proof
end

