-- ==== Sys2Proof/Config.lean ====
section
/-!
DEFINITION. What an implementation fixes and the spec does not: the free values of the model. Each is an opaque constant, so nothing in
Lean can evaluate it; a statement about one holds whatever it is (log 1, 2, 3).
-/
namespace Sys2Proof.Config

/-- Which of several steps that could be next is taken, as a function of the count of steps taken (log 3). -/
opaque pick : Nat → Nat

/-- Whether the unit that a crew's next instruction needs accepts it (the third condition of R85, a matter of timing), as a function of the
count of steps taken and the crew (log 3). -/
opaque unitReady : Nat → Nat → Bool

/-- How many timebase counts beyond one a step takes, as a function of the count of steps taken (R4, R20; log 1). -/
opaque elapsed : Nat → Nat

/-- The free value number `n`: State.free counts the values taken (log 2). -/
opaque freeNat : Nat → Nat

/-- The bank of its stack, and the row of that bank, in which a physical address lies (R347; log 29). -/
opaque bankRow : Nat → Nat × Nat

/-- The rows of a bank (R347; log 29). -/
opaque bankRows : Nat → Nat

/-- The CRC-16 of a flit whose CRC field is zero; the spec does not give its polynomial (R356; log 2). -/
opaque crc16 : Nat → Nat

/-- The fields of a command's completion event that carry its sequence number and result: DATA, TAG and LOC by number (R353; log 2). -/
opaque completionField : Nat → Nat → Nat → Nat

/-- The special functions of R68 where their result is only bounded, on the FP32 pattern of the operand (log 2). -/
opaque vrcp : Word → Word
opaque vrsq : Word → Word
opaque vex2 : Word → Word
opaque vlg2 : Word → Word
opaque vsin : Word → Word
opaque vcos : Word → Word
opaque vtanh : Word → Word

end Sys2Proof.Config
end

