-- ==== Sys2Proof/Syntax.lean ====
section
/-!
DEFINITION. The instructions and steps of Feuri: one constructor of Instr for each row of spec/opcode_table.json. The instruction rows
carry the hints of the word (Hdr) and their operands; the event rows carry the object they are about.
-/
namespace Sys2Proof

/-- A register a register field can name (R20). The mask em has no field value. -/
inductive Reg where
  | v (k : Fin 320)
  | s (k : Fin 128)
  | m (k : Fin 16)
  | zero | lid | cid | gid | cvid | cwid | clk
deriving DecidableEq, Repr

/-- The types of R26, in code order. -/
inductive Ty where
  | i32 | i64 | n32 | n64 | f32 | f16 | bf16 | bf16x2
deriving DecidableEq, Repr

/-- The condition codes of R27, in code order. -/
inductive CC where
  | eq | ne | lt | le | gt | ge | num | nan | equ | neu | ltu | leu | gtu | geu
deriving DecidableEq, Repr

/-- The rounding modes of R15, in code order. -/
inductive Rnd where
  | rn | rz | ru | rd | ra
deriving DecidableEq, Repr

/-- The guard of R23. -/
structure Guard where
  neg : Bool
  reg : BitVec 6
  bit : BitVec 5
deriving DecidableEq, Repr

/-- The fields every instruction carries beside its operands (R13, R23, R24). -/
structure Hdr where
  yield : Bool
  wait  : BitVec 7
  tag   : BitVec 3
  look  : BitVec 4
  guard : Option Guard
deriving DecidableEq, Repr

/-! ### Operand shapes -/

structure Src where
  a : Reg
deriving DecidableEq, Repr

structure Dst where
  d : Reg
deriving DecidableEq, Repr

structure DA where
  d : Reg
  a : Reg
deriving DecidableEq, Repr

structure DAB where
  d : Reg
  a : Reg
  b : Reg
deriving DecidableEq, Repr

/-- A typed instruction of two sources (R97, R108, R119). -/
structure Bin where
  ty : Ty
  d : Reg
  a : Reg
  b : Reg
deriving DecidableEq, Repr

structure Un where
  ty : Ty
  d : Reg
  a : Reg
deriving DecidableEq, Repr

structure Tern where
  ty : Ty
  d : Reg
  a : Reg
  b : Reg
  c : Reg
deriving DecidableEq, Repr

structure Cmp where
  cc : CC
  ty : Ty
  d : Reg
  a : Reg
  b : Reg
deriving DecidableEq, Repr

/-- SMOVI (R101): `sx` is the .I64 form. -/
structure MovImm where
  sx : Bool
  d : Reg
  imm : Word
deriving DecidableEq, Repr

structure DImm where
  d : Reg
  imm : Word
deriving DecidableEq, Repr

/-- SLEA (R100). -/
structure Lea where
  d : Reg
  a : Reg
  b : Reg
  sh : BitVec 3
deriving DecidableEq, Repr

/-- A form of one immediate (R19, R315). -/
structure Imm where
  imm : Word
deriving DecidableEq, Repr

/-- BRU (R102). -/
structure BrUni where
  cc : CC
  ty : Ty
  a : Reg
  imm : Word
deriving DecidableEq, Repr

/-- BRV (R94). -/
structure BrVec where
  a : Reg
  tgt : Half
  rc : Half
deriving DecidableEq, Repr

/-- MSAVE (R103); no source register names em. -/
structure MSave where
  d : Reg
  a : Option Reg
deriving DecidableEq, Repr

/-- MREST (R103); no destination register names em. -/
structure MRest where
  d : Option Reg
  a : Reg
deriving DecidableEq, Repr

/-- A floating instruction of two sources (R110). -/
structure FBin where
  ty : Ty
  rnd : Rnd
  sat : Bool
  na : Bool
  nb : Bool
  d : Reg
  a : Reg
  b : Reg
deriving DecidableEq, Repr

structure FTern where
  ty : Ty
  rnd : Rnd
  sat : Bool
  na : Bool
  nb : Bool
  d : Reg
  a : Reg
  b : Reg
  c : Reg
deriving DecidableEq, Repr

/-- A floating instruction of one source (R110, R112, R113). -/
structure FUn where
  ty : Ty
  na : Bool
  d : Reg
  a : Reg
deriving DecidableEq, Repr

structure FCmp where
  cc : CC
  ty : Ty
  na : Bool
  nb : Bool
  d : Reg
  a : Reg
  b : Reg
deriving DecidableEq, Repr

/-- VCVT (R114); `b` is used by .BF16X2.F32 alone. -/
structure Cvt where
  dst : Ty
  src : Ty
  rnd : Rnd
  sat : Bool
  d : Reg
  a : Reg
  b : Option Reg
deriving DecidableEq, Repr

/-- The variants of VPACK and VUNPK (R115), in code order. -/
inductive PackTy where
  | i16 | n16 | i8 | n8 | i4 | n4
deriving DecidableEq, Repr

structure Pack where
  ty : PackTy
  d : Reg
  a : Reg
  b : Option Reg
  pos : BitVec 3
deriving DecidableEq, Repr

structure Unpk where
  ty : PackTy
  d : Reg
  a : Reg
  pos : BitVec 3
deriving DecidableEq, Repr

/-- VSHFL, VSHFLX and VROT (R116). -/
structure Shfl where
  ty : Ty
  rel : Bool
  d : Reg
  a : Reg
  b : Reg
deriving DecidableEq, Repr

/-- The operations of VRED and VSCAN (R117), in code order. -/
inductive RedOp where
  | add | min | max | and | or | xor
deriving DecidableEq, Repr

structure Red where
  ty : Ty
  rnd : Rnd
  op : RedOp
  d : Reg
  a : Reg
deriving DecidableEq, Repr

structure Scan where
  ty : Ty
  rnd : Rnd
  op : RedOp
  excl : Bool
  d : Reg
  a : Reg
deriving DecidableEq, Repr

/-- The variants of XHASH32 (R122), in code order; `abs` has a third source. -/
inductive HashVar where
  | k32 | k64 | abs (c : Reg) | fin
deriving DecidableEq, Repr

structure Hash32 where
  var : HashVar
  d : Reg
  a : Reg
  b : Reg
deriving DecidableEq, Repr

/-- XHASH64 (R122): `wide` is .K64. -/
structure Hash64 where
  wide : Bool
  d : Reg
  a : Reg
  b : Reg
deriving DecidableEq, Repr

/-- The variants of XPART (R123): `bits` is the number of bits of p less one. -/
inductive PartVar where
  | mul (b : Reg)
  | radix (shift : BitVec 5) (bits : BitVec 4)
  | id
deriving DecidableEq, Repr

structure Part where
  var : PartVar
  d : Reg
  a : Reg
deriving DecidableEq, Repr

/-- XSTRCMP (R125). -/
structure StrCmp where
  ci : Bool
  d : Reg
  a : Reg
  b : Reg
  c : Reg
deriving DecidableEq, Repr

/-- The variants of XSTRFND (R126), in code order. -/
inductive FindVar where
  | eq | rng | last
deriving DecidableEq, Repr

structure StrFnd where
  var : FindVar
  d : Reg
  a : Reg
  b : Reg
  c : Reg
deriving DecidableEq, Repr

/-- XSTRLEN (R126): .UTF8 has a second source, .NUL none. -/
structure StrLen where
  d : Reg
  a : Reg
  utf8 : Option Reg
deriving DecidableEq, Repr

/-- XQNT and XDQNT (R127, R128). -/
structure Qnt where
  fmt : BitVec 5
  scf : BitVec 2
  bl : BitVec 2
  d : Reg
  a : Reg
deriving DecidableEq, Repr

/-- XRNG (R132): `uf` is .UF. -/
structure Rng where
  uf : Bool
  d : Reg
  a : Reg
  b : Reg
  c : Reg
deriving DecidableEq, Repr

/-- The access widths of LDS to STSC (R26, R159, R162), in code order. -/
inductive MemTy where
  | i32 | i64 | n32 | n64 | i8 | n8 | i16 | n16 | b128
deriving DecidableEq, Repr

/-- The ordering, cache and bound modifiers of the memory layout (R16). -/
structure MemMods where
  scope : BitVec 3
  ord : BitVec 2
  ch : BitVec 2
  bnd : Option (BitVec 6)
deriving DecidableEq, Repr

/-- A load or store of the shared window or L1 scratch (`scr`), or of global memory (R160, R169). `r` is D of a load, C of a store. -/
structure MemVec where
  ty : MemTy
  sh : BitVec 2
  scr : Bool
  r : Reg
  a : Reg
  b : Reg
  mm : MemMods
deriving DecidableEq, Repr

/-- LDX, STX, LDSC and STSC (R160): `space` is 0 global, 1 window, 2 scratch. `r` is D of a load, C of a store. -/
structure MemPtr where
  ty : MemTy
  space : BitVec 2
  r : Reg
  a : Reg
  b : Reg
  mm : MemMods
deriving DecidableEq, Repr

/-- TLDM and TSTM (R171). -/
structure TileCopy where
  cor : Bool
  d : Reg
  a : Reg
  b : Reg
  mm : MemMods
deriving DecidableEq, Repr

/-- TSTP (R173). -/
structure TilePut where
  a : Reg
  b : Reg
  c : Reg
  mm : MemMods
deriving DecidableEq, Repr

/-- PREF (R174). -/
structure Pref where
  l2 : Bool
  sh : BitVec 2
  a : Reg
  b : Reg
  mm : MemMods
deriving DecidableEq, Repr

/-- FENCE (R177). -/
structure Fence where
  scope : BitVec 3
  ord : BitVec 2
deriving DecidableEq, Repr

/-- The operations of ATOM and SATOM (R159), in code order. -/
inductive AtomOp where
  | add | min | max | and | or | xor | exch | cas
deriving DecidableEq, Repr

/-- ATOM (R179): `win` is the shared window. -/
structure Atom where
  ty : Ty
  op : AtomOp
  sh : BitVec 2
  win : Bool
  d : Reg
  a : Reg
  b : Reg
  c : Reg
  mm : MemMods
deriving DecidableEq, Repr

/-- The widths of ATOM.CAS (R180), in code order. -/
inductive CasTy where
  | b32 | b64 | b128
deriving DecidableEq, Repr

structure AtomCas where
  ty : CasTy
  sh : BitVec 2
  win : Bool
  d : Reg
  a : Reg
  b : Reg
  c : Reg
  mm : MemMods
deriving DecidableEq, Repr

/-- ATOM.FADD (R181). -/
structure AtomF where
  sh : BitVec 2
  win : Bool
  d : Reg
  a : Reg
  b : Reg
  c : Reg
  mm : MemMods
deriving DecidableEq, Repr

/-- ATOM.FXADD (R182): `by8` scales the offset by 8. -/
structure AtomFx where
  p : BitVec 6
  by8 : Bool
  win : Bool
  d : Reg
  a : Reg
  b : Reg
  c : Reg
  mm : MemMods
deriving DecidableEq, Repr

/-- ATOM.FMAXR (R183): .upd has an operand, .rst none. -/
structure AtomMax where
  upd : Option Reg
  sh : BitVec 2
  win : Bool
  d : Reg
  a : Reg
  b : Reg
  mm : MemMods
deriving DecidableEq, Repr

/-- The types of SATOM (R184), in code order. -/
inductive SatomTy where
  | i32 | i64 | n32 | n64 | b128
deriving DecidableEq, Repr

structure Satom where
  ty : SatomTy
  op : AtomOp
  win : Bool
  d : Reg
  a : Reg
  b : Reg
  c : Reg
  mm : MemMods
deriving DecidableEq, Repr

/-- BARI (R254); `d` is a scalar source. -/
structure BarInit where
  kind : BitVec 2
  auto : Bool
  d : Reg
  a : Reg
  name : BitVec 11
  count : BitVec 21
deriving DecidableEq, Repr

/-- BARA, BARAW (R254). -/
structure BarCount where
  d : Reg
  a : Reg
  name : BitVec 11
  count : BitVec 21
deriving DecidableEq, Repr

/-- BARW, BART (R254). -/
structure BarPh where
  ph : Bool
  d : Reg
  a : Reg
  name : BitVec 11
deriving DecidableEq, Repr

/-- BARX, BARQ (R254). -/
structure BarName where
  d : Reg
  a : Reg
  name : BitVec 11
deriving DecidableEq, Repr

/-- The operations of CLB (R254), in code order. -/
inductive ClbOp where
  | arr | wait | aw | test
deriving DecidableEq, Repr

structure Clb where
  op : ClbOp
  ph : Bool
  core : BitVec 2
  d : Reg
  a : Reg
  name : BitVec 11
  count : BitVec 21
deriving DecidableEq, Repr

/-- ARMODE.reef (R192). -/
structure Reef where
  pb : BitVec 5
  a : Reg
  b : Reg
deriving DecidableEq, Repr

/-- ARQ.slot (R193). -/
structure ArqSlot where
  clr : Bool
  d : Reg
  a : Reg
deriving DecidableEq, Repr

/-- MMA, MMAG and MMAD (R228). -/
structure Mat where
  d : Reg
  a : Reg
  b : Reg
  f : Reg
deriving DecidableEq, Repr

/-- TDECL (R217). -/
structure TileDecl where
  init : Bool
  rcmp : Bool
  d : Reg
  a : Reg
  b : Reg
deriving DecidableEq, Repr

/-- BNDSET (R217, R223). -/
structure BndSet where
  kind : BitVec 2
  act : BitVec 2
  a : Reg
  b : Reg
  c : Reg
deriving DecidableEq, Repr

/-- The variants of TRET (R315), in code order. -/
inductive TretVar where
  | retry | skip | jump (a : Reg)
deriving DecidableEq, Repr

/-- The status registers of R316. -/
inductive SReg where
  | cwid | cpos | clmap0 | clmap1 | clmap2 | larg | ctag | fpst | mbusy0 | mbusy1 | mxst
  | tpc | tcause | tlanes0 | tlanes1 | taddr | tem0 | tem1 | tsd | pdrem
  | ckcor | ckrep | ckfail | rccor | smcor | tmrep | tmwin
deriving DecidableEq, Repr

structure GetSr where
  d : Reg
  reg : SReg
deriving DecidableEq, Repr

structure SetSr where
  reg : SReg
  a : Reg
deriving DecidableEq, Repr

/-- ERRINJ (R329). -/
structure ErrInj where
  a : Reg
  b : Reg
deriving DecidableEq, Repr

/-! ### What an event row is about -/

/-- Where an uncorrectable error was found (R323). -/
inductive ErrSite where
  | regLine (crew line : Nat)
  | holdSlot (crew tag : Nat)
  | stackEntry (crew entry : Nat)
  | arrayData (core arr byte : Nat)
  | barrier (core n : Nat)
  | tileEntry (core i : Nat)
  | boundCopy (core tag : Nat)
  | rangeLock (core i : Nat)
  | chainCtx (core i : Nat)
  | staging (core : Nat)
  | clusterDir (cluster tag : Nat)
  | dieDir (die tag : Nat)
  | packageDir (tag : Nat)
  | queueEntry (tag q : Nat)
  | launchEntry (launch : Nat)
  | l1Line (core line : Nat)
  | l2Line (line : Nat)
  | dram (sector : Nat)
deriving DecidableEq, Repr

/-- What a refresh slot carries (R345, R347, R348): a scrub visit names its sectors that were corrected or found uncorrectable. -/
inductive RefreshWork where
  | refresh
  | scrub (row : Nat) (corrected uncorrectable : List Nat)
  | swap (row : Nat)
deriving DecidableEq, Repr

/-- The AtomicOps a host port completes (R354). -/
inductive HostOp where
  | fetchAdd | swap | cas
deriving DecidableEq, Repr

/-- The steps of Feuri: the rows of the opcode table, in its order. -/
inductive Instr where
  | sadd (h : Hdr) (o : Bin)
  | ssub (h : Hdr) (o : Bin)
  | smul (h : Hdr) (o : Bin)
  | smulh (h : Hdr) (o : Bin)
  | sdiv (h : Hdr) (o : Bin)
  | srem (h : Hdr) (o : Bin)
  | sand (h : Hdr) (o : Bin)
  | sor (h : Hdr) (o : Bin)
  | sxor (h : Hdr) (o : Bin)
  | sshl (h : Hdr) (o : Bin)
  | sshr (h : Hdr) (o : Bin)
  | ssra (h : Hdr) (o : Bin)
  | smin (h : Hdr) (o : Bin)
  | smax (h : Hdr) (o : Bin)
  | scmp (h : Hdr) (o : Cmp)
  | ssel (h : Hdr) (o : Tern)
  | smov (h : Hdr) (o : Un)
  | smovi (h : Hdr) (o : MovImm)
  | smovh (h : Hdr) (o : DImm)
  | sclz (h : Hdr) (o : Un)
  | spopc (h : Hdr) (o : Un)
  | sbfx (h : Hdr) (o : Bin)
  | sbfi (h : Hdr) (o : Bin)
  | slea (h : Hdr) (o : Lea)
  | bra (h : Hdr) (o : Imm)
  | bru (h : Hdr) (o : BrUni)
  | brx (h : Hdr) (o : Src)
  | brv (h : Hdr) (o : BrVec)
  | join (h : Hdr)
  | call (h : Hdr) (o : Imm)
  | ret (h : Hdr)
  | exit (h : Hdr)
  | yld (h : Hdr)
  | nop (h : Hdr)
  | waitc (h : Hdr)
  | mand (h : Hdr) (o : DAB)
  | mor (h : Hdr) (o : DAB)
  | mxor (h : Hdr) (o : DAB)
  | mandn (h : Hdr) (o : DAB)
  | mnot (h : Hdr) (o : DA)
  | mmov (h : Hdr) (o : DA)
  | mpopc (h : Hdr) (o : DA)
  | mffs (h : Hdr) (o : DA)
  | msetem (h : Hdr) (o : Src)
  | mgetem (h : Hdr) (o : Dst)
  | msave (h : Hdr) (o : MSave)
  | mrest (h : Hdr) (o : MRest)
  | vadd (h : Hdr) (o : Bin)
  | vsub (h : Hdr) (o : Bin)
  | vmul (h : Hdr) (o : Bin)
  | vmulh (h : Hdr) (o : Bin)
  | vmad (h : Hdr) (o : Tern)
  | vmin (h : Hdr) (o : Bin)
  | vmax (h : Hdr) (o : Bin)
  | vand (h : Hdr) (o : Bin)
  | vor (h : Hdr) (o : Bin)
  | vxor (h : Hdr) (o : Bin)
  | vshl (h : Hdr) (o : Bin)
  | vshr (h : Hdr) (o : Bin)
  | vsra (h : Hdr) (o : Bin)
  | vabs (h : Hdr) (o : Un)
  | vneg (h : Hdr) (o : Un)
  | vclz (h : Hdr) (o : Un)
  | vpopc (h : Hdr) (o : Un)
  | vaddsat (h : Hdr) (o : Bin)
  | vsubsat (h : Hdr) (o : Bin)
  | vsel (h : Hdr) (o : Tern)
  | vmov (h : Hdr) (o : Un)
  | vbcast (h : Hdr) (o : Bin)
  | vbfx (h : Hdr) (o : Bin)
  | vcmp (h : Hdr) (o : Cmp)
  | vfadd (h : Hdr) (o : FBin)
  | vfsub (h : Hdr) (o : FBin)
  | vfmul (h : Hdr) (o : FBin)
  | vfma (h : Hdr) (o : FTern)
  | vfmin (h : Hdr) (o : FBin)
  | vfmax (h : Hdr) (o : FBin)
  | vfabs (h : Hdr) (o : FUn)
  | vfneg (h : Hdr) (o : FUn)
  | vfcmp (h : Hdr) (o : FCmp)
  | vfclass (h : Hdr) (o : FUn)
  | vrcp (h : Hdr) (o : FUn)
  | vrsq (h : Hdr) (o : FUn)
  | vsqrt (h : Hdr) (o : FUn)
  | vex2 (h : Hdr) (o : FUn)
  | vlg2 (h : Hdr) (o : FUn)
  | vsin (h : Hdr) (o : FUn)
  | vcos (h : Hdr) (o : FUn)
  | vtanh (h : Hdr) (o : FUn)
  | vcvt (h : Hdr) (o : Cvt)
  | vpack (h : Hdr) (o : Pack)
  | vunpk (h : Hdr) (o : Unpk)
  | vshfl (h : Hdr) (o : Shfl)
  | vshflx (h : Hdr) (o : Shfl)
  | vrot (h : Hdr) (o : Shfl)
  | vred (h : Hdr) (o : Red)
  | vscan (h : Hdr) (o : Scan)
  | vextr (h : Hdr) (o : Bin)
  | vins (h : Hdr) (o : Bin)
  | xhash32 (h : Hdr) (o : Hash32)
  | xhash64 (h : Hdr) (o : Hash64)
  | xpart (h : Hdr) (o : Part)
  | xstrcmp (h : Hdr) (o : StrCmp)
  | xstrfnd (h : Hdr) (o : StrFnd)
  | xstrlen (h : Hdr) (o : StrLen)
  | xqnt (h : Hdr) (o : Qnt)
  | xdqnt (h : Hdr) (o : Qnt)
  | xcbdec (h : Hdr) (o : DA)
  | xbdipk (h : Hdr) (o : DA)
  | xbdiup (h : Hdr) (o : DA)
  | xrng (h : Hdr) (o : Rng)
  | transformResult (op : Nat)
  | lds (h : Hdr) (o : MemVec)
  | sts (h : Hdr) (o : MemVec)
  | ldg (h : Hdr) (o : MemVec)
  | stg (h : Hdr) (o : MemVec)
  | ldx (h : Hdr) (o : MemPtr)
  | stx (h : Hdr) (o : MemPtr)
  | ldsc (h : Hdr) (o : MemPtr)
  | stsc (h : Hdr) (o : MemPtr)
  | tldm (h : Hdr) (o : TileCopy)
  | tstm (h : Hdr) (o : TileCopy)
  | tstp (h : Hdr) (o : TilePut)
  | pref (h : Hdr) (o : Pref)
  | cways (h : Hdr) (o : Src)
  | fence (h : Hdr) (o : Fence)
  | atom (h : Hdr) (o : Atom)
  | atomCas (h : Hdr) (o : AtomCas)
  | atomFadd (h : Hdr) (o : AtomF)
  | atomFxadd (h : Hdr) (o : AtomFx)
  | atomFmaxr (h : Hdr) (o : AtomMax)
  | satom (h : Hdr) (o : Satom)
  | lineFill (core : Nat) (line : Nat)
  | loadDataArrive (op : Nat)
  | storeQueueLeave (crew : Nat)
  | atomicPerform (crew : Nat)
  | atomicResultReturn (crew : Nat)
  | drainDemand (core : Nat) (op : Nat)
  | acquireDrainDone (op : Nat)
  | rangeLockActivate (core : Nat) (lock : Nat)
  | cwaysConverted (op : Nat)
  | bari (h : Hdr) (o : BarInit)
  | bara (h : Hdr) (o : BarCount)
  | barw (h : Hdr) (o : BarPh)
  | baraw (h : Hdr) (o : BarCount)
  | bart (h : Hdr) (o : BarPh)
  | barx (h : Hdr) (o : BarName)
  | barq (h : Hdr) (o : BarName)
  | clb (h : Hdr) (o : Clb)
  | armodeReef (h : Hdr) (o : Reef)
  | armodeUnreef (h : Hdr) (o : Src)
  | arqState (h : Hdr) (o : DA)
  | arqSlot (h : Hdr) (o : ArqSlot)
  | arqHeld (h : Hdr) (o : Dst)
  | arraySettled (core : Nat) (arr : Nat) (pass : Bool)
  | arrayUnreefed (core : Nat) (arr : Nat)
  | arrayCleared (core : Nat) (arr : Nat)
  | mma (h : Hdr) (o : Mat)
  | mmag (h : Hdr) (o : Mat)
  | mmad (h : Hdr) (o : Mat)
  | metadataReadDone (op : Nat)
  | mmagLatchFull (op : Nat)
  | matrixSlotTake (op : Nat)
  | matrixResult (op : Nat) (replays : Nat)
  | tdecl (h : Hdr) (o : TileDecl)
  | tfree (h : Hdr) (o : Src)
  | tchk (h : Hdr) (o : DA)
  | tfix (h : Hdr) (o : DA)
  | bndset (h : Hdr) (o : BndSet)
  | bndclr (h : Hdr) (o : DA)
  | chain (h : Hdr) (o : DAB)
  | chainStart (op : Nat)
  | chq (h : Hdr) (o : DA)
  | chstop (h : Hdr) (o : DA)
  | launch (h : Hdr) (o : DAB)
  | trap (h : Hdr) (o : Imm)
  | tret (h : Hdr) (o : TretVar)
  | getsr (h : Hdr) (o : GetSr)
  | setsr (h : Hdr) (o : SetSr)
  | preen (h : Hdr) (o : Dst)
  | predis (h : Hdr) (o : Dst)
  | errinjCell (h : Hdr) (o : ErrInj)
  | errinjPass (h : Hdr) (o : ErrInj)
  | errinjRcl (h : Hdr) (o : ErrInj)
  | regcacheFill (crew : Nat)
  | instructionFetchWalk (crew : Nat)
  | crewPromotion (core : Nat) (sched : Nat)
  | forcedDemotion (core : Nat) (sched : Nat)
  | preemption (crew : Nat)
  | kill (crew : Nat)
  | crewDrained (crew : Nat)
  | groupFree (group : Nat)
  | predisBudgetExpiry (crew : Nat)
  | handlerWatchdog (crew : Nat)
  | ladleEnd (core : Nat) (ctx : Nat)
  | linearCopy (core : Nat) (ctx : Nat)
  | tileCopy (core : Nat) (ctx : Nat)
  | gather (core : Nat) (ctx : Nat)
  | scatter (core : Nat) (ctx : Nat)
  | planePack (core : Nat) (ctx : Nat)
  | fillRec (core : Nat) (ctx : Nat)
  | decodeRec (core : Nat) (ctx : Nat)
  | nearStackReduce (core : Nat) (ctx : Nat)
  | waitBarrier (core : Nat) (ctx : Nat)
  | signalBarrier (core : Nat) (ctx : Nat)
  | loopRec (core : Nat) (ctx : Nat)
  | conditional (core : Nat) (ctx : Nat)
  | jump (core : Nat) (ctx : Nat)
  | ladlePass (core : Nat) (ctx : Nat)
  | ladleWriteAck (core : Nat) (ctx : Nat)
  | stackAdderDone (core : Nat) (ctx : Nat)
  | uncorrectableError (e : ErrSite) (clean : Bool) (tagOk : Bool)
  | pageWalk (walk : Nat)
  | freplyRetry (seq : Nat)
  | freplyDecline (seq : Nat)
  | frheadWrite (v : Nat)
  | migrationRecallDone (mig : Nat)
  | migrationCopyDone (mig : Nat)
  | migrationUnlock (mig : Nat)
  | trackerEpoch (die : Nat)
  | mlheadWrite (die : Nat) (v : Nat)
  | refreshSlot (bank : Nat) (work : RefreshWork)
  | refreshWindow (bank : Nat)
  | doorbell (tag : Nat) (q : Nat) (t : Nat)
  | queueSuspend (tag : Nat) (q : Nat)
  | queueResume (tag : Nat) (q : Nat)
  | queueDisable (tag : Nat) (q : Nat)
  | queueLaunchRequest (op : Nat)
  | launchTakeUp
  | launchRecordCheck (launch : Nat)
  | dependenceRead (launch : Nat)
  | convoyPlacement (die : Nat)
  | convoyStart (convoy : Nat)
  | launchTimeLimit (launch : Nat)
  | completionRelease (launch : Nat)
  | completionStatusWrite (launch : Nat)
  | completionWordWrite (launch : Nat)
  | completionInterrupt (launch : Nat)
  | contextSaveStart (tag : Nat)
  | contextSaved (tag : Nat)
  | contextRestoreStart (tag : Nat)
  | contextRestored (tag : Nat)
  | contextDead (tag : Nat)
  | infieldTestStart (die : Nat)
  | infieldCopyDone (die : Nat)
  | infieldTestDone (die : Nat) (pass : Bool)
  | timingWindow (core : Nat)
  | powerOverCap (die : Nat)
  | install (tag : Nat) (pa : Nat)
  | suspend (tag : Nat)
  | resume (tag : Nat)
  | killCommand (tag : Nat)
  | uninstall (tag : Nat)
  | partitionAdd (tag : Nat) (cluster : Nat)
  | partitionRemove (tag : Nat) (cluster : Nat)
  | invalidateRange (tag : Nat) (lo : Nat) (hi : Nat)
  | invalidateShapes (tag : Nat)
  | migrate (tag : Nat) (va : Nat) (pa : Nat)
  | framePoolRefill (die : Nat) (tier : Nat) (ring : Nat) (count : Nat)
  | setTrackerThreshold (v : Nat) (die : Nat)
  | setTestPeriod (v : Nat)
  | setScrubPeriod (v : Nat) (stack : Nat)
  | setPowerCap (v : Nat)
  | returnArray (core : Nat) (arr : Nat)
  | linkctlEnable (link : Nat)
  | linkctlRetrain (link : Nat)
  | linkctlSpare (link : Nat) (lane : Nat)
  | linkctlDisable (link : Nat)
  | dieClockStep (die : Nat) (clock : Nat) (supply : Nat)
  | cletikWindowEntry (port : Nat) (entry : Nat) (base : Nat) (size : Nat)
  | queueInstall (tag : Nat) (q : Nat)
  | malformedCommand
  | evheadWrite (v : Nat)
  | mstatDesignate (port : Nat)
  | mstatEvovfClear
  | mstatAtomicSizes (port : Nat) (sizes : Nat)
  | linkStatusRead (link : Nat)
  | eyewordRead
  | registerWrite (port : Nat) (offset : Nat) (v : Nat)
  | packageReset
  | functionLevelReset (port : Nat)
  | linkTrained (link : Nat) (width : Nat)
  | linkLaneFailure (link : Nat)
  | linkTrainTimeout (link : Nat)
  | linkRetrained (link : Nat) (spares : Nat)
  | linkRetrainFailure (link : Nat)
  | marginAlarm (link : Nat) (lane : Nat) (margin : Nat)
  | replayThreshold (link : Nat)
  | flitReceive (port : Nat) (flit : Nat) (crc : Bool)
  | cletikRequest (port : Nat) (write : Bool) (addr : Nat) (n : Nat) (data : Nat)
  | hostMemoryAccess (port : Nat) (write : Bool) (addr : Nat) (n : Nat) (data : Nat)
  | hostAtomicop (port : Nat) (op : HostOp) (addr : Nat) (n : Nat) (data : Nat)
  | cxlSnoop (port : Nat) (addr : Nat) (write : Bool)
  | notAnInstruction (w : Word96)
  | launchKill (launch : Nat)
  | releaseDrainDone (op : Nat)
  | tileCopyDone (op : Nat)
  | tileInstructionDone (op : Nat)
  | boundUpdateDone (op : Nat)
  | clusterBarrierArrival (op : Nat)
  | barrierStatusReturn (op : Nat)
  | launchAnswerReturn (op : Nat)
  | bringUpStepDone
deriving DecidableEq, Repr

end Sys2Proof
end

