-- ==== Sys2Proof/Machine/Flags.lean ====
section
/-!
DEFINITION. Floating arithmetic and the flags of FPST (R62 to R69): exact values, one rounding to the destination format, and the flags that
the rounding raises. Operands and results are bit patterns, as numbers.
-/
namespace Sys2Proof.Machine

/-! ### Flags (R65) -/

def flNX : Nat := 1
def flUF : Nat := 2
def flOF : Nat := 4
def flDZ : Nat := 8
def flNV : Nat := 16
def flQSAT : Nat := 1024

/-- A result pattern and the flags it raises. -/
structure FRes where
  bits : Nat
  fl : Nat := 0
deriving DecidableEq, Repr

/-! ### Formats (R62) -/

/-- A binary interchange format: exponent and fraction bits. -/
structure FFmt where
  eb : Nat
  mb : Nat
deriving DecidableEq, Repr

def fmtF32 : FFmt := ⟨8, 23⟩
def fmtF16 : FFmt := ⟨5, 10⟩
def fmtBF16 : FFmt := ⟨8, 7⟩

namespace FFmt
def bias (f : FFmt) : Nat := 2 ^ (f.eb - 1) - 1
def inf (f : FFmt) : Nat := (2 ^ f.eb - 1) * 2 ^ f.mb
/-- The canonical NaN (R64). -/
def nan (f : FFmt) : Nat := f.inf + 2 ^ (f.mb - 1)
def sign (f : FFmt) : Nat := 2 ^ (f.eb + f.mb)
def signed (f : FFmt) (neg : Bool) (x : Nat) : Nat := if neg then f.sign + x else x
/-- The least exponent of a normal value. -/
def emin (f : FFmt) : Int := 1 - (f.bias : Int)
def one (f : FFmt) : Nat := f.bias * 2 ^ f.mb
end FFmt

/-- The value of a pattern: a NaN, an infinity, or (−1)^neg · mag · 2^exp. -/
inductive FNum where
  | nan (signalling : Bool)
  | inf (neg : Bool)
  | fin (neg : Bool) (mag : Nat) (exp : Int)
deriving DecidableEq, Repr

namespace FNum

def isNan : FNum → Bool
  | .nan _ => true
  | _ => false

/-- R64: a NaN whose most significant fraction bit is 0. -/
def isSig : FNum → Bool
  | .nan b => b
  | _ => false

def isZero : FNum → Bool
  | .fin _ m _ => m == 0
  | _ => false

def neg : FNum → FNum
  | .nan b => .nan b
  | .inf n => .inf (!n)
  | .fin n m e => .fin (!n) m e

end FNum

/-- The value of a pattern of a format. -/
def FFmt.read (f : FFmt) (x : Nat) : FNum :=
  let s := x.testBit (f.eb + f.mb)
  let e := x / 2 ^ f.mb % 2 ^ f.eb
  let m := x % 2 ^ f.mb
  if e = 2 ^ f.eb - 1 then
    if m = 0 then .inf s else .nan (!m.testBit (f.mb - 1))
  else if e = 0 then .fin s m (f.emin - f.mb)
  else .fin s (2 ^ f.mb + m) ((e : Int) - f.bias - f.mb)

/-! ### Rounding (R63) -/

/-- Whether the quotient `q` with remainder `r` of a division by `b` takes the next larger magnitude. -/
def roundsUp (rnd : Rnd) (neg : Bool) (q r b : Nat) : Bool :=
  r != 0 && match rnd with
    | .rn => decide (b < 2 * r) || (decide (2 * r = b) && q % 2 == 1)
    | .rz => false
    | .ru => !neg
    | .rd => neg
    | .ra => true

/-- num / den · 2^k rounded to an integer magnitude, and whether it was inexact. -/
def roundScaled (rnd : Rnd) (neg : Bool) (num den : Nat) (k : Int) : Nat × Bool :=
  let a := if k ≥ 0 then num * 2 ^ k.toNat else num
  let b := if k ≥ 0 then den else den * 2 ^ (-k).toNat
  let q := a / b
  let r := a % b
  (if roundsUp rnd neg q r b then q + 1 else q, r != 0)

/-- floor(log2 (num / den)). -/
def floorLog2 (num den : Nat) : Int :=
  let k : Int := (Nat.log2 num : Int) - (Nat.log2 den : Int)
  let below := if k ≥ 0 then decide (num < den * 2 ^ k.toNat) else decide (num * 2 ^ (-k).toNat < den)
  if below then k - 1 else k

/-- What an overflow gives (R63). -/
def FFmt.overflow (f : FFmt) (rnd : Rnd) (neg : Bool) : Nat :=
  f.signed neg (match rnd with
    | .rn | .ra => f.inf
    | .rz => f.inf - 1
    | .ru => if neg then f.inf - 1 else f.inf
    | .rd => if neg then f.inf else f.inf - 1)

/-- One rounding of (−1)^neg · num / den · 2^exp to a format, with OF, UF and NX. -/
def FFmt.round (f : FFmt) (rnd : Rnd) (neg : Bool) (num den : Nat) (exp : Int) : FRes :=
  if num = 0 then ⟨f.signed neg 0, 0⟩
  else
    let e := floorLog2 num den + exp
    let q := max e f.emin - f.mb
    let (m, inexact) := roundScaled rnd neg num den (exp - q)
    let nx := if inexact then flNX else 0
    let big := decide (m ≥ 2 ^ f.mb)
    -- a carry out of the fraction raises the exponent field by itself
    let field : Int := if big then (q + f.mb + f.bias) * 2 ^ f.mb + ((m : Int) - 2 ^ f.mb) else m
    if field ≥ f.inf then ⟨f.overflow rnd neg, flOF ||| flNX⟩
    else
      let tiny := decide (e < f.emin) && decide ((roundScaled rnd neg num den (exp - (e - f.mb))).1 < 2 ^ (f.mb + (f.emin - e).toNat))
      ⟨f.signed neg field.toNat, nx ||| (if tiny && inexact then flUF else 0)⟩

/-- One rounding of an exact value; a NaN gives the canonical NaN. -/
def FFmt.give (f : FFmt) (rnd : Rnd) : FNum → FRes
  | .nan b => ⟨f.nan, if b then flNV else 0⟩
  | .inf n => ⟨f.signed n f.inf, 0⟩
  | .fin n m e => f.round rnd n m 1 e

/-! ### Operations (R63, R64, R110) -/

/-- The exact sum of two finite values, with the sign R63 fixes for a zero result. -/
def exactSum (rnd : Rnd) (n₁ : Bool) (m₁ : Nat) (e₁ : Int) (n₂ : Bool) (m₂ : Nat) (e₂ : Int) : FNum :=
  let e := min e₁ e₂
  let a : Int := (m₁ * 2 ^ (e₁ - e).toNat : Nat)
  let b : Int := (m₂ * 2 ^ (e₂ - e).toNat : Nat)
  let t := (if n₁ then -a else a) + (if n₂ then -b else b)
  if t = 0 then
    if m₁ = 0 ∧ m₂ = 0 ∧ n₁ = n₂ then .fin n₁ 0 e else .fin (rnd == .rd) 0 e
  else .fin (decide (t < 0)) t.natAbs e

def fadd (f : FFmt) (rnd : Rnd) (x y : FNum) : FRes :=
  match x, y with
  | .nan b, y => ⟨f.nan, if b || y.isSig then flNV else 0⟩
  | _, .nan b => ⟨f.nan, if b then flNV else 0⟩
  | .inf n, .inf n' => if n = n' then ⟨f.signed n f.inf, 0⟩ else ⟨f.nan, flNV⟩
  | .inf n, .fin .. => ⟨f.signed n f.inf, 0⟩
  | .fin .., .inf n => ⟨f.signed n f.inf, 0⟩
  | .fin n₁ m₁ e₁, .fin n₂ m₂ e₂ => f.give rnd (exactSum rnd n₁ m₁ e₁ n₂ m₂ e₂)

/-- The exact product; none for 0 × ∞. -/
def exactMul (x y : FNum) : Option FNum :=
  match x, y with
  | .nan b, y => some (.nan (b || y.isSig))
  | _, .nan b => some (.nan b)
  | .inf n, y =>
    if y.isZero then none
    else match y with
      | .inf n' => some (.inf (n != n'))
      | .fin n' _ _ => some (.inf (n != n'))
      | .nan b => some (.nan b)
  | .fin n m _, .inf n' => if m = 0 then none else some (.inf (n != n'))
  | .fin n m e, .fin n' m' e' => some (.fin (n != n') (m * m') (e + e'))

def fmul (f : FFmt) (rnd : Rnd) (x y : FNum) : FRes :=
  match exactMul x y with
  | none => ⟨f.nan, flNV⟩
  | some p => f.give rnd p

/-- R64: 0 × ∞ is invalid whatever the addend. -/
def ffma (f : FFmt) (rnd : Rnd) (x y z : FNum) : FRes :=
  match exactMul x y with
  | none => ⟨f.nan, flNV⟩
  | some p => fadd f rnd p z

/-- The value of a pattern as an ordered key: −0 orders below +0. -/
def FFmt.key (f : FFmt) (x : Nat) : Int :=
  if x.testBit (f.eb + f.mb) then -((x % f.sign : Nat) : Int) - 1 else (x % f.sign : Nat)

/-- minimumNumber and maximumNumber (R64). -/
def fminmax (f : FFmt) (isMax : Bool) (a b : Nat) : FRes :=
  let x := f.read a
  let y := f.read b
  let fl := if x.isSig || y.isSig then flNV else 0
  if x.isNan && y.isNan then ⟨f.nan, fl⟩
  else if x.isNan then ⟨b, fl⟩
  else if y.isNan then ⟨a, fl⟩
  else ⟨if isMax == decide (f.key a ≤ f.key b) then b else a, fl⟩

/-- VFABS and VFNEG. -/
def fsign (f : FFmt) (isNeg : Bool) (a : Nat) : FRes :=
  let x := f.read a
  if x.isNan then ⟨f.nan, if x.isSig then flNV else 0⟩
  else ⟨if isNeg then a ^^^ f.sign else a % f.sign, 0⟩

/-- −1, 0 or 1, and none when unordered. -/
def fcompare (f : FFmt) (a b : Nat) : Option Int :=
  if (f.read a).isNan || (f.read b).isNan then none
  else
    let k (x : Nat) : Int := if x.testBit (f.eb + f.mb) then -((x % f.sign : Nat) : Int) else (x % f.sign : Nat)
    some (if k a < k b then -1 else if k a = k b then 0 else 1)

/-- R27 on an ordering. -/
def ccHolds (cc : CC) (o : Option Int) : Bool :=
  match cc, o with
  | .eq, some c | .equ, some c => c == 0
  | .ne, some c | .neu, some c => c != 0
  | .lt, some c | .ltu, some c => decide (c < 0)
  | .le, some c | .leu, some c => decide (c ≤ 0)
  | .gt, some c | .gtu, some c => decide (c > 0)
  | .ge, some c | .geu, some c => decide (c ≥ 0)
  | .num, o => o.isSome
  | .nan, o => o.isNone
  | .equ, none | .neu, none | .ltu, none | .leu, none | .gtu, none | .geu, none => true
  | .eq, none | .ne, none | .lt, none | .le, none | .gt, none | .ge, none => false

/-- R27 on integers. -/
def ccHoldsInt (cc : CC) (a b : Int) : Bool := ccHolds cc (some (if a < b then -1 else if a = b then 0 else 1))

/-- The class word of R112. -/
def fclass (f : FFmt) (a : Nat) : Nat :=
  match f.read a with
  | .nan true => 256
  | .nan false => 512
  | .inf true => 1
  | .inf false => 128
  | .fin n m e =>
    if m = 0 then (if n then 8 else 16)
    else if decide (m < 2 ^ f.mb) && decide (e = f.emin - f.mb) then (if n then 4 else 32)
    else (if n then 2 else 64)

/-- R110: SAT clamps to +0 to 1.0, NaN to +0. -/
def fsat (f : FFmt) (x : Nat) : Nat :=
  if (f.read x).isNan || x.testBit (f.eb + f.mb) then 0 else if x > f.one then f.one else x

/-! ### Conversions (R67) -/

/-- A floating value to an integer in lo to hi. -/
def fToInt (rnd : Rnd) (lo hi : Int) : FNum → Int × Nat
  | .nan _ => (0, flNV)
  | .inf n => (if n then lo else hi, flNV)
  | .fin n m e =>
    let (q, inexact) := roundScaled rnd n m 1 e
    let v : Int := if n then -(q : Int) else q
    if v < lo then (lo, flNV) else if hi < v then (hi, flNV) else (v, if inexact then flNX else 0)

/-- An integer to a floating format. -/
def intToF (f : FFmt) (rnd : Rnd) (x : Int) : FRes := f.round rnd (decide (x < 0)) x.natAbs 1 0

/-- rne32 of an exact value (R58). -/
def rne32 (x : FNum) : FRes := fmtF32.give .rn x

/-- The correctly rounded root of a positive value (R68, VSQRT). -/
def fsqrtPos (f : FFmt) (m : Nat) (e : Int) : FRes :=
  let odd := decide (e % 2 ≠ 0)
  let m := if odd then 2 * m else m
  let e := if odd then e - 1 else e
  let n := m * 2 ^ 64
  let r := Nat.sqrt n
  f.round .rn false (2 * r + (if r * r = n then 0 else 1)) 1 (e / 2 - 33)

/-! ### Fixed-point addition (R70, R71) -/

def fxMark : Nat := 2 ^ 63

/-- R70: the conversion of an FP32 operand with `p` fractional bits, as a 64-bit pattern. -/
def fxConvert (p x : Nat) : Nat :=
  match fmtF32.read x with
  | .nan _ | .inf _ => fxMark
  | .fin n m e =>
    let t := (roundScaled .rn n m 1 (e + p)).1
    if t > 2 ^ 63 - 1 then fxMark else if n then (2 ^ 64 - t) % 2 ^ 64 else t

/-- R71. -/
def fxAdd (w f : Nat) : Nat :=
  if w = fxMark ∨ f = fxMark then fxMark
  else
    let t := signed 64 w + signed 64 f
    if t > 2 ^ 63 - 1 ∨ t < -(2 ^ 63 - 1) then fxMark else wrap 64 t

end Sys2Proof.Machine
end

