-- ==== Sys2Proof/WellFormed.lean ====
section
/-!
DEFINITION. What an instruction must satisfy before any register is read: the class and the alignment of every operand (R21, R22),
the limits of the hints (R24) and the values its modifiers accept. Only what R28 settles from the word alone (reasons 1 to 7) is here;
what depends on the crew (reasons 8 to 11) is checked at issue.
-/
namespace Sys2Proof

/-- The operand classes of R21 and R96. -/
inductive Cls where
  | vsrc   -- vector source: a vector or scalar register, zero, lid
  | vdst   -- vector destination: a vector register, zero
  | vreg   -- a vector register: groups that are read as a whole
  | ssrc   -- scalar source: a scalar register, zero, a scalar special
  | sdst   -- scalar destination: a scalar register, zero
  | sgrp   -- a group of scalar registers as a source, or zero
  | sreg   -- a scalar register: the format block
  | mask   -- a mask register, zero
  | unif   -- the uniform position of R96
  | red    -- the destination of VRED (R117)
deriving DecidableEq, Repr

/-- A register operand: its class, and how many registers it takes when it names a vector or a scalar register (R22). -/
structure Operand where
  cls : Cls
  reg : Reg
  vn : Nat := 1
  sn : Nat := 1
deriving DecidableEq, Repr

def Cls.accepts : Cls → Reg → Bool
  | .vsrc, .v _ | .vsrc, .s _ | .vsrc, .zero | .vsrc, .lid => true
  | .vdst, .v _ | .vdst, .zero => true
  | .vreg, .v _ => true
  | .ssrc, .s _ | .ssrc, .zero | .ssrc, .cid | .ssrc, .gid | .ssrc, .cvid | .ssrc, .cwid | .ssrc, .clk => true
  | .sdst, .s _ | .sdst, .zero => true
  | .sgrp, .s _ | .sgrp, .zero => true
  | .sreg, .s _ => true
  | .mask, .m _ | .mask, .zero => true
  | .unif, .m _ => false
  | .unif, _ => true
  | .red, .v _ | .red, .s _ | .red, .zero => true
  | _, _ => false

/-- R22: a group starts at a multiple of its size. -/
def Operand.aligned (o : Operand) : Bool :=
  match o.reg with
  | .v k => k.val % o.vn == 0
  | .s k => k.val % o.sn == 0
  | _ => true

def Operand.classOk (o : Operand) : Bool := o.cls.accepts o.reg

/-- The vector registers an operand occupies. -/
def Operand.vregs (o : Operand) : List Nat :=
  match o.reg with
  | .v k => List.range' k.val o.vn
  | _ => []

/-- The scalar registers an operand occupies. -/
def Operand.sregs (o : Operand) : List Nat :=
  match o.reg with
  | .s k => List.range' k.val o.sn
  | _ => []

/-- Registers of one lane of a type: a pair for the 64-bit types (R22). -/
def Ty.regs : Ty → Nat
  | .i64 | .n64 => 2
  | _ => 1

def Ty.isInt : Ty → Bool
  | .i32 | .i64 | .n32 | .n64 => true
  | _ => false

def Ty.isFloat : Ty → Bool
  | .f32 | .f16 | .bf16 | .bf16x2 => true
  | _ => false

/-- Registers of one lane of an access (R162): vector, scalar. -/
def MemTy.vregs : MemTy → Nat
  | .i64 | .n64 => 2
  | .b128 => 4
  | _ => 1

def MemTy.sregs : MemTy → Nat
  | .b128 => 2
  | _ => 1

/-- The bytes of an access (R162). -/
def MemTy.bytes : MemTy → Nat
  | .i8 | .n8 => 1
  | .i16 | .n16 => 2
  | .i32 | .n32 => 4
  | .i64 | .n64 => 8
  | .b128 => 16

def CasTy.bytes : CasTy → Nat
  | .b32 => 4
  | .b64 => 8
  | .b128 => 16

def CC.isInt : CC → Bool
  | .eq | .ne | .lt | .le | .gt | .ge => true
  | _ => false

/-! ### Operands, destinations first (R13, and the forms of each instruction) -/

/-- The register operands an instruction writes and those it reads. -/
structure Operands where
  dst : List Operand := []
  src : List Operand := []
deriving DecidableEq, Repr

def vS (r : Reg) (n : Nat := 1) : Operand := { cls := .vsrc, reg := r, vn := n }
def vD (r : Reg) (n : Nat := 1) : Operand := { cls := .vdst, reg := r, vn := n }
def vR (r : Reg) (n : Nat) : Operand := { cls := .vreg, reg := r, vn := n }
def sS (r : Reg) : Operand := { cls := .ssrc, reg := r }
def sD (r : Reg) (n : Nat := 1) : Operand := { cls := .sdst, reg := r, sn := n }
def sG (r : Reg) (n : Nat) : Operand := { cls := .sgrp, reg := r, sn := n }
def mK (r : Reg) : Operand := { cls := .mask, reg := r }

/-- A scalar source of `n` registers. -/
def sN (r : Reg) (n : Nat) : Operand := if n = 1 then sS r else sG r n

def SatomTy.regs : SatomTy → Nat
  | .b128 => 2
  | _ => 1

/-- The operands of every instruction; an event row has none. DESIGN CHOICE, where a description names a pair or a group of vector registers
that is addressed as a whole (A of LDX and STX, C of ATOM.CAS, A of XDQNT and XBDIUP, the strings, the accumulator of a matrix instruction):
only a vector register is accepted there (log 62). DEDUCED: B of a 64-bit VBFX, VSHFL, VSHFLX or VROT is a pair as R105 has it (log 12). -/
def Instr.operands : Instr → Operands
  | .sadd _ o | .ssub _ o | .smul _ o | .smulh _ o | .sdiv _ o | .srem _ o | .sand _ o | .sor _ o | .sxor _ o | .sshl _ o
  | .sshr _ o | .ssra _ o | .smin _ o | .smax _ o | .sbfx _ o | .sbfi _ o => ⟨[sD o.d], [sS o.a, sS o.b]⟩
  | .scmp _ o => ⟨[sD o.d], [sS o.a, sS o.b]⟩
  | .ssel _ o => ⟨[sD o.d], [sS o.a, sS o.b, sS o.c]⟩
  | .smov _ o | .sclz _ o | .spopc _ o => ⟨[sD o.d], [sS o.a]⟩
  | .smovi _ o => ⟨[sD o.d], []⟩
  | .smovh _ o => ⟨[sD o.d], []⟩
  | .slea _ o => ⟨[sD o.d], [sS o.a, sS o.b]⟩
  | .bru _ o => ⟨[], [{ cls := .unif, reg := o.a, vn := o.ty.regs }]⟩
  | .brx _ o => ⟨[], [{ cls := .unif, reg := o.a, vn := 2 }]⟩
  | .brv _ o => ⟨[], [mK o.a]⟩
  | .mand _ o | .mor _ o | .mxor _ o | .mandn _ o => ⟨[mK o.d], [mK o.a, mK o.b]⟩
  | .mnot _ o | .mmov _ o => ⟨[mK o.d], [mK o.a]⟩
  | .mpopc _ o | .mffs _ o => ⟨[sD o.d], [mK o.a]⟩
  | .msetem _ o => ⟨[], [mK o.a]⟩
  | .mgetem _ o => ⟨[mK o.d], []⟩
  | .msave _ o => ⟨[sD o.d 2], o.a.toList.map mK⟩
  | .mrest _ o => ⟨o.d.toList.map mK, [sG o.a 2]⟩
  | .vadd _ o | .vsub _ o | .vmul _ o | .vmulh _ o | .vmin _ o | .vmax _ o | .vand _ o | .vor _ o | .vxor _ o | .vshl _ o
  | .vshr _ o | .vsra _ o | .vaddsat _ o | .vsubsat _ o => ⟨[vD o.d o.ty.regs], [vS o.a o.ty.regs, vS o.b o.ty.regs]⟩
  | .vmad _ o => ⟨[vD o.d o.ty.regs], [vS o.a o.ty.regs, vS o.b o.ty.regs, vS o.c o.ty.regs]⟩
  | .vsel _ o => ⟨[vD o.d o.ty.regs], [vS o.a o.ty.regs, vS o.b o.ty.regs, mK o.c]⟩
  | .vabs _ o | .vneg _ o | .vclz _ o | .vpopc _ o | .vmov _ o => ⟨[vD o.d o.ty.regs], [vS o.a o.ty.regs]⟩
  | .vbcast _ o => ⟨[vD o.d o.ty.regs], [vS o.a o.ty.regs, sS o.b]⟩
  | .vbfx _ o => ⟨[vD o.d o.ty.regs], [vS o.a o.ty.regs, vS o.b o.ty.regs]⟩
  | .vcmp _ o => ⟨[mK o.d], [vS o.a o.ty.regs, vS o.b o.ty.regs]⟩
  | .vfadd _ o | .vfsub _ o | .vfmul _ o | .vfmin _ o | .vfmax _ o => ⟨[vD o.d], [vS o.a, vS o.b]⟩
  | .vfma _ o => ⟨[vD o.d], [vS o.a, vS o.b, vS o.c]⟩
  | .vfcmp _ o => ⟨[mK o.d], [vS o.a, vS o.b]⟩
  | .vfabs _ o | .vfneg _ o | .vfclass _ o | .vrcp _ o | .vrsq _ o | .vsqrt _ o | .vex2 _ o | .vlg2 _ o | .vsin _ o | .vcos _ o
  | .vtanh _ o => ⟨[vD o.d], [vS o.a]⟩
  | .vcvt _ o => ⟨[vD o.d o.dst.regs], vS o.a o.src.regs :: o.b.toList.map (fun r => vS r)⟩
  | .vpack _ o => ⟨[vD o.d], vS o.a :: o.b.toList.map (fun r => vS r)⟩
  | .vunpk _ o => ⟨[vD o.d], [vS o.a]⟩
  | .vshfl _ o | .vshflx _ o | .vrot _ o => ⟨[vD o.d o.ty.regs], [vS o.a o.ty.regs, vS o.b o.ty.regs]⟩
  | .vred _ o => ⟨[{ cls := .red, reg := o.d, vn := o.ty.regs }], [vS o.a o.ty.regs]⟩
  | .vscan _ o => ⟨[vD o.d o.ty.regs], [vS o.a o.ty.regs]⟩
  | .vextr _ o => ⟨[sD o.d], [vS o.a o.ty.regs, sS o.b]⟩
  | .vins _ o => ⟨[vD o.d o.ty.regs], [sS o.a, sS o.b]⟩
  | .xhash32 _ o =>
    match o.var with
    | .k32 | .fin => ⟨[vD o.d], [vS o.a, vS o.b]⟩
    | .k64 => ⟨[vD o.d], [vS o.a 2, vS o.b]⟩
    | .abs c => ⟨[vD o.d], [vR o.a 4, vS o.b, vS c]⟩
  | .xhash64 _ o => ⟨[vD o.d 2], [vS o.a (if o.wide then 2 else 1), vS o.b 2]⟩
  | .xpart _ o =>
    match o.var with
    | .mul b => ⟨[vD o.d 2], [vS o.a, vS b]⟩
    | .radix _ _ | .id => ⟨[vD o.d 2], [vS o.a]⟩
  | .xstrcmp _ o => ⟨[vD o.d], [vR o.a 4, vR o.b 4, vS o.c]⟩
  | .xstrfnd _ o => ⟨[vD o.d], [vR o.a 4, vS o.b, vS o.c]⟩
  | .xstrlen _ o => ⟨[vD o.d], vR o.a 4 :: o.utf8.toList.map (fun r => vS r)⟩
  | .xqnt _ o => ⟨[vD o.d 2], [vS o.a]⟩
  | .xdqnt _ o => ⟨[vD o.d], [vR o.a 2]⟩
  | .xcbdec _ o | .xbdipk _ o => ⟨[vD o.d 2], [vS o.a]⟩
  | .xbdiup _ o => ⟨[vD o.d], [vR o.a 2]⟩
  | .xrng _ o => ⟨[vD o.d], [vS o.a, sS o.b, vS o.c]⟩
  | .lds _ o | .ldg _ o => ⟨[vD o.r o.ty.vregs], [sS o.a, vS o.b]⟩
  | .sts _ o | .stg _ o => ⟨[], [sS o.a, vS o.b, vS o.r o.ty.vregs]⟩
  | .ldx _ o => ⟨[vD o.r o.ty.vregs], [vR o.a 2, sS o.b]⟩
  | .stx _ o => ⟨[], [vR o.a 2, sS o.b, vS o.r o.ty.vregs]⟩
  | .ldsc _ o => ⟨[sD o.r o.ty.sregs], [sS o.a, sS o.b]⟩
  | .stsc _ o => ⟨[], [sS o.a, sS o.b, sN o.r o.ty.sregs]⟩
  | .tldm _ o | .tstm _ o => ⟨[sD o.d], [sS o.a, sS o.b]⟩
  | .tstp _ o => ⟨[], [sS o.a, vS o.b, vS o.c]⟩
  | .pref _ o => ⟨[], [sS o.a, vS o.b]⟩
  | .cways _ o => ⟨[], [sS o.a]⟩
  | .atom _ o => ⟨[vD o.d o.ty.regs], [sS o.a, vS o.b, vS o.c o.ty.regs]⟩
  | .atomCas _ o => ⟨[vD o.d (o.ty.bytes / 4)], [sS o.a, vS o.b, vR o.c (o.ty.bytes / 2)]⟩
  | .atomFadd _ o => ⟨[vD o.d], [sS o.a, vS o.b, vS o.c]⟩
  | .atomFxadd _ o => ⟨[vD o.d 2], [sS o.a, vS o.b, vS o.c]⟩
  | .atomFmaxr _ o => ⟨[vD o.d], sS o.a :: vS o.b :: o.upd.toList.map (fun r => vS r)⟩
  | .satom _ o => ⟨[sD o.d o.ty.regs], [sS o.a, sS o.b, sN o.c (if o.op = .cas then 2 * o.ty.regs else o.ty.regs)]⟩
  | .bari _ o => ⟨[], [sS o.d, sS o.a]⟩
  | .bara _ o | .baraw _ o => ⟨[sD o.d], [sS o.a]⟩
  | .barw _ o | .bart _ o => ⟨[sD o.d], [sS o.a]⟩
  | .barx _ o | .barq _ o => ⟨[sD o.d], [sS o.a]⟩
  | .clb _ o => ⟨[sD o.d], [sS o.a]⟩
  | .armodeReef _ o => ⟨[], [sS o.a, sS o.b]⟩
  | .armodeUnreef _ o => ⟨[], [sS o.a]⟩
  | .arqState _ o => ⟨[sD o.d], [sS o.a]⟩
  | .arqSlot _ o => ⟨[sD o.d], [sS o.a]⟩
  | .arqHeld _ o => ⟨[sD o.d], []⟩
  | .mma _ o | .mmag _ o | .mmad _ o => ⟨[vR o.d 8], [vR o.a 1, sS o.b, { cls := .sreg, reg := o.f, sn := 4 }]⟩
  | .tdecl _ o => ⟨[sD o.d], [sS o.a, sS o.b]⟩
  | .tfree _ o => ⟨[], [sS o.a]⟩
  | .tchk _ o | .tfix _ o | .bndclr _ o => ⟨[sD o.d], [sS o.a]⟩
  | .bndset _ o => ⟨[], [sS o.a, sS o.b, sS o.c]⟩
  | .chain _ o | .launch _ o => ⟨[sD o.d], [sS o.a, sS o.b]⟩
  | .chq _ o | .chstop _ o => ⟨[sD o.d], [sS o.a]⟩
  | .tret _ (.jump a) => ⟨[], [sS a]⟩
  | .getsr _ o => ⟨[sD o.d], []⟩
  | .setsr _ o => ⟨[], [sS o.a]⟩
  | .preen _ o | .predis _ o => ⟨[sD o.d], []⟩
  | .errinjCell _ o | .errinjPass _ o | .errinjRcl _ o => ⟨[], [sS o.a, sS o.b]⟩
  | _ => {}

/-- The hints of an instruction; an event row has none. -/
def Instr.hdr : Instr → Hdr
  | .sadd h _ | .ssub h _ | .smul h _ | .smulh h _ | .sdiv h _ | .srem h _ | .sand h _ | .sor h _ | .sxor h _ | .sshl h _
  | .sshr h _ | .ssra h _ | .smin h _ | .smax h _ | .scmp h _ | .ssel h _ | .smov h _ | .smovi h _ | .smovh h _ | .sclz h _
  | .spopc h _ | .sbfx h _ | .sbfi h _ | .slea h _ | .bra h _ | .bru h _ | .brx h _ | .brv h _ | .join h | .call h _
  | .ret h | .exit h | .yld h | .nop h | .waitc h | .mand h _ | .mor h _ | .mxor h _ | .mandn h _ | .mnot h _ | .mmov h _
  | .mpopc h _ | .mffs h _ | .msetem h _ | .mgetem h _ | .msave h _ | .mrest h _ | .vadd h _ | .vsub h _ | .vmul h _
  | .vmulh h _ | .vmad h _ | .vmin h _ | .vmax h _ | .vand h _ | .vor h _ | .vxor h _ | .vshl h _ | .vshr h _ | .vsra h _
  | .vabs h _ | .vneg h _ | .vclz h _ | .vpopc h _ | .vaddsat h _ | .vsubsat h _ | .vsel h _ | .vmov h _ | .vbcast h _
  | .vbfx h _ | .vcmp h _ | .vfadd h _ | .vfsub h _ | .vfmul h _ | .vfma h _ | .vfmin h _ | .vfmax h _ | .vfabs h _
  | .vfneg h _ | .vfcmp h _ | .vfclass h _ | .vrcp h _ | .vrsq h _ | .vsqrt h _ | .vex2 h _ | .vlg2 h _ | .vsin h _
  | .vcos h _ | .vtanh h _ | .vcvt h _ | .vpack h _ | .vunpk h _ | .vshfl h _ | .vshflx h _ | .vrot h _ | .vred h _
  | .vscan h _ | .vextr h _ | .vins h _ | .xhash32 h _ | .xhash64 h _ | .xpart h _ | .xstrcmp h _ | .xstrfnd h _
  | .xstrlen h _ | .xqnt h _ | .xdqnt h _ | .xcbdec h _ | .xbdipk h _ | .xbdiup h _ | .xrng h _ | .lds h _ | .sts h _
  | .ldg h _ | .stg h _ | .ldx h _ | .stx h _ | .ldsc h _ | .stsc h _ | .tldm h _ | .tstm h _ | .tstp h _ | .pref h _
  | .cways h _ | .fence h _ | .atom h _ | .atomCas h _ | .atomFadd h _ | .atomFxadd h _ | .atomFmaxr h _ | .satom h _
  | .bari h _ | .bara h _ | .barw h _ | .baraw h _ | .bart h _ | .barx h _ | .barq h _ | .clb h _ | .armodeReef h _
  | .armodeUnreef h _ | .arqState h _ | .arqSlot h _ | .arqHeld h _ | .mma h _ | .mmag h _ | .mmad h _ | .tdecl h _
  | .tfree h _ | .tchk h _ | .tfix h _ | .bndset h _ | .bndclr h _ | .chain h _ | .chq h _ | .chstop h _ | .launch h _
  | .trap h _ | .tret h _ | .getsr h _ | .setsr h _ | .preen h _ | .predis h _ | .errinjCell h _ | .errinjPass h _
  | .errinjRcl h _ => h
  | _ => ⟨false, 0, 0, 0, none⟩

/-! ### Modifiers -/

/-- R24: LOOK is 0 when TAG is 0. -/
def Hdr.lookOk (h : Hdr) : Bool := h.tag != 0 || h.look == 0

/-- R24: the instructions that may carry no tag. -/
def Instr.noTag : Instr → Bool
  | .bra .. | .bru .. | .brx .. | .brv .. | .join .. | .call .. | .ret .. | .exit .. | .yld .. | .nop .. | .waitc .. | .trap ..
  | .tret .. => true
  | _ => false

/-- Which values of ORD an access takes (R161). -/
inductive OrdKind where
  | load | store | atomic | none

def OrdKind.ok : OrdKind → BitVec 2 → Bool
  | .load, o => o == 0 || o == 1
  | .store, o => o == 0 || o == 2
  | .atomic, _ => true
  | .none, o => o == 0

/-- R16, R160, R161: `glob` says that the access may be in the global space, where CH is accepted. DESIGN CHOICE: TLDM, TSTM and TSTP accept
CH whatever the space of the tile they name, which the word does not tell (log 63). -/
def MemMods.ok (k : OrdKind) (glob bnd : Bool) (m : MemMods) : Bool :=
  k.ok m.ord && decide (m.scope.toNat ≤ 5) && (m.ord != 0 || (match k with | .atomic => true | _ => m.scope == 0)) &&
    m.ch != 3 && (glob || m.ch == 0) && (bnd || m.bnd.isNone)

/-- R166: a bound check needs .I32 or .N32; reason 2. -/
def bndTyOk (ty : MemTy) (m : MemMods) : Bool := m.bnd.isNone || ty == .i32 || ty == .n32

/-- R114: the pairs of types VCVT accepts. -/
def cvtPairOk (d s : Ty) : Bool :=
  if d = .bf16x2 then s == .f32 else s != .bf16x2 && d != s

/-- The reserved matrix format codes (R45, R28 reason 9). -/
def fmtReserved (c : Nat) : Bool := c == 0 || decide (0x1D ≤ c)

/-- R184: the operations SATOM accepts with .B128. -/
def satomOk (ty : SatomTy) (op : AtomOp) : Bool := ty != .b128 || op == .exch || op == .cas

/-- R316: the registers SETSR may name. -/
def SReg.writable : SReg → Bool
  | .fpst | .mbusy0 | .mbusy1 | .tem0 | .tem1 | .ckcor | .ckrep | .ckfail | .rccor | .smcor | .tmrep => true
  | _ => false

/-- R316: the registers only a system-level context may write. -/
def SReg.privileged : SReg → Bool
  | .ckcor | .ckrep | .ckfail | .rccor | .smcor | .tmrep => true
  | _ => false

/-- The values of VAR, RND and CC an instruction accepts (R28, reason 2). -/
def Instr.acceptOk : Instr → Bool
  | .sadd _ o | .ssub _ o | .smul _ o | .smulh _ o | .sdiv _ o | .srem _ o | .sand _ o | .sor _ o | .sxor _ o | .sshl _ o
  | .sshr _ o | .ssra _ o | .smin _ o | .smax _ o | .sbfx _ o | .sbfi _ o
  | .vadd _ o | .vsub _ o | .vmul _ o | .vmulh _ o | .vmin _ o | .vmax _ o | .vand _ o | .vor _ o | .vxor _ o | .vshl _ o
  | .vshr _ o | .vsra _ o | .vaddsat _ o | .vsubsat _ o | .vbcast _ o | .vbfx _ o => o.ty.isInt
  | .smov _ o | .sclz _ o | .spopc _ o | .vabs _ o | .vneg _ o | .vclz _ o | .vpopc _ o | .vmov _ o => o.ty.isInt
  | .ssel _ o | .vmad _ o | .vsel _ o => o.ty.isInt
  | .scmp _ o | .vcmp _ o => o.ty.isInt && o.cc.isInt
  | .bru _ o => o.ty.isInt && o.cc.isInt
  | .vfadd _ o | .vfsub _ o | .vfmul _ o => o.ty.isFloat
  | .vfmin _ o | .vfmax _ o => o.ty.isFloat && o.rnd == .rn
  | .vfma _ o => o.ty.isFloat
  | .vfabs _ o | .vfneg _ o => o.ty.isFloat
  | .vfclass _ o => o.ty.isFloat && o.ty != .bf16x2
  | .vfcmp _ o => o.ty.isFloat
  | .vrcp _ o | .vrsq _ o | .vsqrt _ o | .vex2 _ o | .vlg2 _ o | .vsin _ o | .vcos _ o | .vtanh _ o => o.ty == .f32
  | .vcvt _ o => cvtPairOk o.dst o.src && (!(o.dst.isInt && o.src.isInt) || o.rnd == .rn)
  | .vshfl _ o | .vshflx _ o | .vrot _ o => o.ty == .i32 || o.ty == .i64
  | .vred _ o => (o.ty.isInt && o.rnd == .rn) || o.ty == .f32
  | .vscan _ o => (o.ty.isInt && o.rnd == .rn) || o.ty == .f32
  | .vextr _ o | .vins _ o => o.ty == .i32 || o.ty == .i64
  | .sts _ o | .stg _ o => bndTyOk o.ty o.mm
  | .stx _ o | .stsc _ o => bndTyOk o.ty o.mm
  | .atom _ o => o.ty.isInt
  | .satom _ o => satomOk o.ty o.op
  | _ => true

/-- The values of every other modifier an instruction accepts (R28, reason 3). DESIGN CHOICE: TLDM, TSTM and TSTP take any CH, whatever space their
tile lies in: R160 wants CH 0 for the window, and R171 and R173 do not speak of CH (log 63). -/
def Instr.cleanOk : Instr → Bool
  | .vfmin _ o | .vfmax _ o => !o.sat
  | .vcvt _ o => (!o.sat || (o.dst.isInt && o.src.isInt)) && (o.b.isSome == (o.dst == .bf16x2))
  | .vpack _ o =>
    match o.ty with
    | .i16 | .n16 => o.b.isSome && o.pos == 0
    | .i8 | .n8 => o.b.isNone && decide (o.pos.toNat < 4)
    | .i4 | .n4 => o.b.isNone
  | .vunpk _ o =>
    match o.ty with
    | .i16 | .n16 => decide (o.pos.toNat < 2)
    | .i8 | .n8 => decide (o.pos.toNat < 4)
    | .i4 | .n4 => true
  | .vred _ o => o.ty != .f32 || o.op == .add || o.op == .min || o.op == .max
  | .vscan _ o => o.ty != .f32 || o.op == .add || o.op == .min || o.op == .max
  | .xqnt _ o | .xdqnt _ o => !fmtReserved o.fmt.toNat && o.fmt != 0x1B && o.scf != 3
  | .lds _ o => o.mm.ok .load false false
  | .ldg _ o => !o.scr && o.mm.ok .load true false
  | .sts _ o => o.mm.ok .store false true
  | .stg _ o => !o.scr && o.mm.ok .store true true
  | .ldx _ o | .ldsc _ o => o.space != 3 && o.mm.ok .load (o.space == 0) false
  | .stx _ o | .stsc _ o => o.space != 3 && o.mm.ok .store (o.space == 0) true
  | .tldm _ o | .tstm _ o => o.mm.ok .none true false
  | .tstp _ o => o.mm.ok .none true false
  | .pref _ o => o.mm.ok .load true false
  | .fence _ o => decide (o.scope.toNat ≤ 5)
  | .atom _ o => o.op != .cas && o.mm.ok .atomic (!o.win) false
  | .atomCas _ o => o.mm.ok .atomic (!o.win) false
  | .atomFadd _ o => o.mm.ok .atomic (!o.win) false
  | .atomFxadd _ o => o.mm.ok .atomic (!o.win) false
  | .atomFmaxr _ o => o.mm.ok .atomic (!o.win) false
  | .satom _ o => o.mm.ok .atomic (!o.win) false
  | .bari _ o => !(o.kind == 2 && o.auto) && (o.d == .zero || o.count == 0)
  | .clb _ o => (!o.ph || o.op == .wait || o.op == .test) && (o.op == .arr || o.op == .aw || o.count == 0)
  | .armodeReef _ o => o.pb != 0
  | .bndset _ o => o.kind != 0 && o.act != 3
  | .setsr _ o => o.reg.writable
  | _ => true

/-- R28, reasons 5 to 7: classes, hints, alignment. -/
def Instr.shapeReason (i : Instr) : Option Nat :=
  let ops := i.operands.dst ++ i.operands.src
  if !(ops.all Operand.classOk) then some 5
  else if !(i.hdr.lookOk && (!i.noTag || i.hdr.tag == 0)) then some 6
  else if !(ops.all Operand.aligned) then some 7
  else none

/-- The lowest reason of R28 that the word of an instruction gives by itself. -/
def Instr.staticReason (i : Instr) : Option Nat :=
  if !i.acceptOk then some 2 else if !i.cleanOk then some 3 else i.shapeReason

/-- No check of R28 on the word alone fails. -/
def Instr.wellFormed (i : Instr) : Bool := i.staticReason.isNone

end Sys2Proof
end

