-- ==== Sys2Proof/Machine/Formats.lean ====
section
/-!
DEFINITION. Element formats, blocks and metadata (R45 to R58), the quantising rule (R59 to R61), the coordinate generator and dropout
(R72, R73), and checksums of rows and columns (R74).
-/
namespace Sys2Proof.Machine

/-! ### Element formats (R45 to R51) -/

/-- The width of a format's code (R45). -/
def fmtWidth : Nat → Nat
  | 0x01 | 0x1C => 1
  | 0x02 | 0x03 | 0x04 | 0x05 => 2
  | 0x06 | 0x07 => 3
  | 0x08 | 0x09 | 0x0A | 0x0B | 0x0C | 0x0D => 4
  | 0x0E | 0x0F | 0x10 | 0x11 => 6
  | 0x12 | 0x13 | 0x14 | 0x15 | 0x16 | 0x17 => 8
  | 0x18 => 12
  | 0x19 | 0x1A | 0x1B => 16
  | _ => 0

/-- P(f), the planes of a format (R45). -/
def fmtPlanes : Nat → Nat
  | 0x01 | 0x02 | 0x03 | 0x04 => 2
  | 0x05 | 0x06 => 3
  | 0x07 => 5
  | 0x08 | 0x09 => 4
  | 0x0A => 5
  | 0x0B => 4
  | 0x0C | 0x0D => 5
  | 0x0E => 6
  | 0x0F => 7
  | 0x10 | 0x11 => 10
  | 0x12 | 0x13 => 8
  | 0x14 => 19
  | 0x15 => 33
  | 0x16 => 12
  | 0x17 => 19
  | 0x18 => 12
  | 0x19 => 16
  | 0x1A => 41
  | 0x1B => 3
  | 0x1C => 1
  | _ => 0

/-- emax of a format (R45). -/
def fmtEmax : Nat → Int
  | 0x04 | 0x06 => 1
  | 0x08 | 0x0A | 0x0F => 2
  | 0x09 => 3
  | 0x0C => -1
  | 0x0E | 0x10 | 0x16 => 4
  | 0x12 => 6
  | 0x13 => 7
  | 0x14 => 8
  | 0x15 | 0x1A => 15
  | 0x18 => 10
  | 0x19 => 14
  | _ => 0

/-- The members of a SEL family, by selector; any other format is a family of itself (R57, R59). -/
def fmtMembers : Nat → List Nat
  | 0x0D => [0x08, 0x0A, 0x0C]
  | 0x11 => [0x0E, 0x0F, 0x10]
  | 0x17 => [0x12, 0x16, 0x14]
  | f => [f]

def fmtIsSel (f : Nat) : Bool := f == 0x0D || f == 0x11 || f == 0x17

/-- The member a block decodes under. -/
def fmtMember (f sel : Nat) : Nat := (fmtMembers f).getD sel f

/-- How a member's codes stand for integers. -/
inductive ElemKind where
  | int (w : Nat)
  | nat (w : Nat)
  | bin
  | trit
  | flt (eb mb bias : Nat) (topNan : Bool) (ieee : Bool)   -- R49; `topNan`: the top code is NaN; `ieee`: the top exponent is not finite
  | level (ls : List Int)
  | none
deriving DecidableEq, Repr

def elemKind : Nat → ElemKind
  | 0x01 => .bin
  | 0x02 => .trit
  | 0x03 => .int 2
  | 0x04 => .nat 2
  | 0x05 => .level [-3, -1, 1, 3]
  | 0x06 => .int 3
  | 0x07 => .level [-8, -5, -3, -1, 1, 3, 5, 8]
  | 0x08 => .int 4
  | 0x09 => .nat 4
  | 0x0A => .flt 2 1 1 false false
  | 0x0B => .flt 1 2 1 false false
  | 0x0C => .level [-16, -12, -9, -7, -5, -3, -2, -1, 0, 1, 2, 3, 5, 7, 9, 12]
  | 0x0E => .int 6
  | 0x0F => .flt 2 3 1 false false
  | 0x10 => .flt 3 2 3 false false
  | 0x12 => .int 8
  | 0x13 => .nat 8
  | 0x14 => .flt 4 3 7 true false
  | 0x15 => .flt 5 2 15 false true
  | 0x16 => .flt 3 4 3 false false
  | 0x18 => .int 12
  | 0x19 => .int 16
  | 0x1A => .flt 5 10 15 false true
  | 0x1C => .nat 1
  | _ => .none

/-- log2 of the decode unit u (R45). -/
def unitLog (f : Nat) : Int :=
  match elemKind f with
  | .flt _ mb b _ _ => 1 - (b : Int) - mb
  | .level ls => if ls.length = 4 then -1 else if ls.length = 8 then -3 else -4
  | _ => 0

/-- What a code decodes to. -/
inductive Elem where
  | int (x : Int)
  | odd                                    -- the TRIT code 0b10 (R48)
  | inf (neg : Bool)
  | nan
deriving DecidableEq, Repr

/-- The decoded value of a code of a member (R48, R49, R51). -/
def decodeElem (f code : Nat) : Elem :=
  match elemKind f with
  | .int w => .int (signed w code)
  | .nat w => .int (code % 2 ^ w : Nat)
  | .bin => .int (if code % 2 = 0 then -1 else 1)
  | .trit =>
    match code % 4 with
    | 0 => .int 0
    | 1 => .int 1
    | 2 => .odd
    | _ => .int (-1)
  | .flt eb mb _ topNan ieee =>
    let s := code.testBit (eb + mb)
    let e := code / 2 ^ mb % 2 ^ eb
    let m := code % 2 ^ mb
    if topNan ∧ e = 2 ^ eb - 1 ∧ m = 2 ^ mb - 1 then .nan
    else if ieee ∧ e = 2 ^ eb - 1 then (if m = 0 then .inf s else .nan)
    else
      let mag : Nat := if e = 0 then m else (2 ^ mb + m) * 2 ^ (e - 1)
      .int (if s then -(mag : Int) else mag)
  | .level ls => .int (ls.getD (code % ls.length) 0)
  | .none => .int 0

/-- The integer the array works on: an odd TRIT code counts as 0. -/
def Elem.toInt : Elem → Int
  | .int x => x
  | _ => 0

def Elem.finite : Elem → Bool
  | .inf _ | .nan => false
  | _ => true

/-- The eight weights of a CB2L index (R52). -/
def cb2l (x : Nat) : List Int :=
  (List.range 8).map fun k =>
    let b := (x.testBit (8 + k)).toNat
    let mag : Nat := if x.testBit 0 then 2 * b else 1 + 2 * b
    let sgn := if k < 7 then x.testBit (1 + k) else (List.range 7).foldl (fun s j => s ^^ x.testBit (1 + j)) false
    if sgn then -(mag : Int) else mag

/-! ### Metadata words (R54 to R56) -/

def metaScale (w : Nat) : Nat := w % 256
def metaSel (w : Nat) : Nat := bits w 9 8

def parity (w n : Nat) : Bool := (List.range n).foldl (fun s j => s ^^ w.testBit j) false

/-- Whether blocks of an operand carry a metadata word (R55). -/
def hasMeta (fmt scf : Nat) : Bool := fmtIsSel fmt || scf != 0

/-- R56. -/
def metaFaulty (fmt scf w : Nat) : Bool :=
  parity w 11 || metaSel w == 3 || (metaSel w != 0 && !fmtIsSel fmt) || bits w 15 11 != 0 || (scf == 0 && metaScale w != 0)

/-- The value of a scale byte as mag · 2^exp; none for a NaN (R54). -/
def scaleOf (scf s : Nat) : Option (Nat × Int) :=
  match scf with
  | 0 => some (1, 0)
  | 1 => if s = 0xFF then none else some (1, (s : Int) - 127)
  | _ => if s ≥ 0x7F then none else some ((decodeElem 0x14 s).toInt.toNat, -9)

/-- The metadata word with its parity (R55). -/
def withParity (w : Nat) : Nat := w + (if parity w 10 then 1024 else 0)

/-! ### The quantising rule (R59, R60) -/

/-- The exponents a scale format can hold. -/
def scaleRange : Nat → Int × Int
  | 0 => (0, 0)
  | 1 => (-127, 127)
  | _ => (-9, 8)

/-- The code of 2^e under a scale format. -/
def scaleCode (scf : Nat) (e : Int) : Nat :=
  match scf with
  | 0 => 0
  | 1 => (e + 127).toNat
  | _ => if e ≥ -6 then ((e + 7) * 8).toNat else if e = -7 then 4 else if e = -8 then 2 else 1

/-- The nearest of ascending levels to n/d, ties to the even index; levels and the answer by index. -/
def nearestLevel (n : Int) (d : Nat) : Nat → List Int → Nat
  | k, a :: b :: t =>
    if 2 * n < (a + b) * d ∨ (2 * n = (a + b) * d ∧ k % 2 = 0) then k else nearestLevel n d (k + 1) (b :: t)
  | k, _ => k

/-- R60 on (−1)^neg · mag · 2^k units of u: the code, and whether it saturated. -/
def roundToMember (mb : Nat) (neg : Bool) (mag : Nat) (k : Int) : Nat × Bool :=
  let num : Nat := if k ≥ 0 then mag * 2 ^ k.toNat else mag
  let den : Nat := if k ≥ 0 then 1 else 2 ^ (-k).toNat
  let x : Int := if neg then -(num : Int) else num
  let toInt (lo hi : Int) : Int × Bool :=
    if x < lo * den then (lo, true) else if hi * den < x then (hi, true)
    else let q := (roundScaled .rn neg num den 0).1; (if neg then -(q : Int) else q, false)
  let levels (ls : List Int) : Nat × Bool :=
    if x < ls.headD 0 * den then (0, true)
    else if ls.getLastD 0 * den < x then (ls.length - 1, true)
    else (nearestLevel x den 0 ls, false)
  match elemKind mb with
  | .int w => let (v, s) := toInt (-(2 ^ (w - 1) : Nat)) (2 ^ (w - 1) - 1 : Nat); (wrap w v, s)
  | .nat w => let (v, s) := toInt 0 (2 ^ w - 1 : Nat); (wrap w v, s)
  | .trit => let (v, s) := toInt (-1) 1; (wrap 2 v, s)
  | .bin => levels [-1, 1]
  | .level ls => levels ls
  | .flt eb m _ topNan ieee =>
    let top : Nat := if topNan then 2 ^ (eb + m) - 2 else if ieee then 2 ^ (eb + m) - 2 ^ m - 1 else 2 ^ (eb + m) - 1
    let max := (decodeElem mb top).toInt
    if x < -max * den then (2 ^ (eb + m) + top, true)
    else if max * den < x then (top, true)
    else if num = 0 then (0, false)
    else
      let e := floorLog2 num den
      let q := if e ≤ m then 0 else e - m
      let r := (roundScaled .rn neg num den (-q)).1
      let code := if r < 2 ^ m then r else q.toNat * 2 ^ m + r
      (if neg && code != 0 then 2 ^ (eb + m) + code else code, false)
  | .none => (0, false)

/-- One element: its code, whether it saturated, and its squared error, rounded as R59 says. -/
def quantElem (mb : Nat) (e : Int) (x : Nat) : Nat × Bool × Nat :=
  let v := fmtF32.read x
  let (code, s) : Nat × Bool := match v with
    | .fin n m k => roundToMember mb n m (k - e - unitLog mb)
    | .inf n =>
      match elemKind mb with
      | .nat _ => if n then (0, true) else roundToMember mb n 1 1000
      | _ => roundToMember mb n 1 1000
    | .nan _ => (0, false)
  let i := (decodeElem mb code).toInt
  let y := rne32 (.fin (decide (i < 0)) i.natAbs (unitLog mb + e))
  let d := fadd fmtF32 .rn v (fmtF32.read y.bits).neg
  (code, s, (fmul fmtF32 .rn (fmtF32.read d.bits) (fmtF32.read d.bits)).bits)

/-- One member's attempt: exponent, codes, whether any saturated, error sum. -/
structure QuantTry where
  e : Int
  codes : List Nat
  sat : Bool
  sum : Nat

def quantMember (mb scf : Nat) (xs : List Nat) (amax : Nat) : QuantTry :=
  let (elo, ehi) := scaleRange scf
  let e : Int :=
    if scf = 0 ∨ amax = 0 then 0
    else match fmtF32.read amax with
      | .fin _ m k => Sys2Proof.sat (floorLog2 m 1 + k - fmtEmax mb) elo ehi
      | _ => Sys2Proof.sat (ehi - fmtEmax mb) elo ehi
  let qs := xs.map (quantElem mb e)
  ⟨e, qs.map (·.1), qs.any (·.2.1), qs.foldl (fun t q => (fadd fmtF32 .rn (fmtF32.read t) (fmtF32.read q.2.2)).bits) 0⟩

/-- R59: a sum greater than another; false when either is NaN. -/
def sumGreater (a b : Nat) : Bool :=
  match fcompare fmtF32 a b with
  | some c => decide (c > 0)
  | none => false

/-- The quantising rule on a block: codes, metadata word, flags (R59). -/
def quantBlock (fmt scf : Nat) (xs : List Nat) : List Nat × Nat × Nat :=
  if xs.any fun x => (fmtF32.read x).isNan then
    (xs.map fun _ => 0, withParity (match scf with | 0 => 0 | 1 => 0xFF | _ => 0x7F), flNV)
  else
    let amax := xs.foldl (fun a x => max a (x % 2 ^ 31)) 0
    let tries := (fmtMembers fmt).map fun mb => quantMember mb scf xs amax
    let best := (List.range tries.length).find? fun j =>
      match tries[j]? with
      | some t => tries.all fun u => !(sumGreater t.sum u.sum)
      | none => false
    let j := best.getD 0
    match tries[j]? with
    | some t => (t.codes, withParity (j * 256 + scaleCode scf t.e), if t.sat then flQSAT else 0)
    | none => ([], 0, 0)

/-! ### Dequantising (R61, R128) -/

/-- A narrow element as FP32. `free` is the value of a code to which the spec gives none, an FP16 code that is not finite; whether one that is a NaN
raises NV, R128 does not say either (log 2). -/
def dequant (fmt scf word code free : Nat) : FRes :=
  let mb := fmtMember fmt (metaSel word)
  let el := decodeElem mb code
  let fl := match el with
    | .nan => if mb ≠ 0x1A ∨ free.testBit 32 then flNV else 0
    | .odd => flNV
    | _ => 0
  match scaleOf scf (metaScale word) with
  | none => ⟨fmtF32.nan, fl⟩
  | some (m, k) =>
    match el with
    | .nan => ⟨if mb = 0x1A then free % 2 ^ 32 else fmtF32.nan, fl⟩
    | .inf n => ⟨if mb = 0x1A then free % 2 ^ 32 else fmtF32.signed n fmtF32.inf, fl⟩
    | .odd => ⟨0, fl⟩
    | .int i =>
      if i = 0 ∨ m = 0 then ⟨0, fl⟩
      else rne32 (.fin (decide (i < 0)) (i.natAbs * m) (unitLog mb + k))

/-! ### The exact value of a pair of blocks (R58) -/

/-- v of R58: one rounding of S · uA · uB · sA · sB; a NaN scale gives the canonical NaN. -/
def blockValue (S : Int) (ua ub : Int) (sa sb : Option (Nat × Int)) : Nat :=
  match sa, sb with
  | some (ma, ka), some (mb, kb) =>
    if S = 0 ∨ ma = 0 ∨ mb = 0 then 0
    else (rne32 (.fin (decide (S < 0)) (S.natAbs * ma * mb) (ua + ub + ka + kb))).bits
  | _, _ => fmtF32.nan

/-! ### The coordinate generator and dropout (R72, R73) -/

def rngRound (khi x : Nat) : Nat :=
  let x := x ^^^ (x / 2 ^ 15)
  let x := wrap32 (x * 0xD1B54A33)
  let x := x ^^^ (x / 2 ^ 13)
  x ^^^ khi

/-- The coordinate generator. -/
def coordGen (key row col : Nat) : Nat :=
  let khi := key / 2 ^ 32 % 2 ^ 32
  let x := wrap32 ((key % 2 ^ 32) ^^^ wrap32 (row * 0xA3B195C5) ^^^ wrap32 (col * 0x6C8E9CF7))
  rngRound khi (rngRound khi (rngRound khi (rngRound khi x)))

/-- Dropout of an FP32 element; a NaN or an infinity is its own quotient. -/
def dropout (key row col keep y : Nat) : Nat :=
  if keep = 0 then y
  else if coordGen key row col < keep * 65536 then
    match fmtF32.read y with
    | .fin n m e => (fmtF32.round .rn n (m * 65536) keep e).bits
    | .inf n => fmtF32.signed n fmtF32.inf
    | .nan _ => fmtF32.nan
  else 0

/-! ### Packed codes and checksums (R47, R74) -/

/-- Element `i` of a packed run of `w`-bit codes, the run given as a number (R47). -/
def packedCode (w run i : Nat) : Nat := run / 2 ^ (w * i) % 2 ^ w

/-- The code `c` replacing element `i` of a packed run. -/
def packCode (w run i c : Nat) : Nat := run - packedCode w run i * 2 ^ (w * i) + c % 2 ^ w * 2 ^ (w * i)

/-- The codes of a tile's rows: the sums modulo 2^32 of its rows, then of its columns (R74). -/
def codeChecksums (rows : List (List Nat)) (cols : Nat) : List Nat :=
  rows.map (fun r => wrap32 r.sum) ++ (List.range cols).map fun j => wrap32 (rows.map fun r => r.getD j 0).sum

end Sys2Proof.Machine
end

