-- ==== Sys2Proof/Machine/State.lean ====
section
/-!
DEFINITION. The state of one Feuri package, as plain data: every piece of state the spec names, and the few fields of the model's own
(`cur`, `turn`, `due`, `tick`, `free`, `nextId`), each marked. A table whose unlisted entries are free, idle or zero lists the others only.
-/
namespace Sys2Proof.Machine

/-! ### Traps and results -/

/-- A trap raised: cause, lanes and address of R313. -/
structure Trap where
  cause : Nat
  lanes : Mask
  addr : DWord
deriving DecidableEq, Repr

/-- A write of a register, held until it commits (R88). `bank` says that the instruction was issued in the handler (R314). -/
inductive RegWrite where
  | s (k : Fin 128) (bank : Bool) (x : DWord)
  | v (k : Fin 320) (bank : Bool) (lanes : Mask) (x : Lanes)
deriving DecidableEq, Repr

/-- What a matrix instruction leaves for its commit beside D (R239 to R241): MXST, a fault found after issue, and DTILE with the state it takes. -/
structure MatEnd where
  mxst : DWord
  fault : Option Trap
  dtile : Option (Nat × Nat)
deriving DecidableEq, Repr

/-- The states of a tile entry (R215); a FREE entry is not listed. -/
inductive TileState where
  | valid | stale | suspect | bad
deriving DecidableEq, Repr

/-- A result held for commit: register writes, FPST flags, and the rest of a matrix instruction. `tile` names a register tile whose own
instruction this is (R216), with the state it takes and the corrections to count. -/
structure Held where
  regs : List RegWrite := []
  fp : Word := 0
  mat : Option MatEnd := none
  tile : Option (Nat × Option (TileState × Nat)) := none
deriving DecidableEq, Repr

/-- Why a crew or context is killed (R325's KIND), with the cause and location it logs. -/
structure KillWhy where
  kind : Nat
  cause : Nat := 0
  loc : Nat := 0
deriving DecidableEq, Repr

/-! ### The crew (R76, R77, R82, R84) -/

/-- The states of R76; a FREE slot has no crew. -/
inductive CrewState where
  | starting | ready | active | waiting | suspended | draining
deriving DecidableEq, Repr

/-- What a crew waits for (R76, R85). -/
inductive Wait where
  | none
  | control                                -- the control line
  | lines (ls : List Nat)                  -- register-cache lines, as line numbers of the image
  | ops (l : List Nat)                     -- operations in flight
  | walks (l : List Nat)                   -- translation walks
  | queueSpace                             -- a place in the crew's store queue
  | transform                              -- a transform request of the scheduler
  | array (core arr : Nat)                 -- an array that is SETTLING
  | lockSpace (core : Nat)                 -- a range-lock entry
deriving DecidableEq, Repr

/-- An entry of the divergence stack (R92). -/
structure DivEntry where
  mask : Mask
  rpc : DWord
  pch : DWord
  call : Bool
  phase : Bool
deriving DecidableEq, Repr

/-- A tag in use (R84, R88, R91). `op` is the operation still in flight; none when the result is held. -/
structure TagRec where
  op : Option Nat
  look : Nat
  held : Held
  dst : List (Bool × Nat)     -- destination registers: (vector, number)
  deferred : Bool := false
deriving DecidableEq, Repr

/-- How a mapping reaches memory (R333's MT, and regions of R330). -/
inductive MapKind where
  | device | coherent | noncoherent | peer
deriving DecidableEq, Repr

/-- Where one byte of an access lands. -/
inductive Place where
  | glob (pa va : Nat) (map : MapKind)     -- physical and virtual address, and the mapping
  | win (core arr off : Nat)               -- byte of an array
  | scr (core addr : Nat)                  -- byte of the L1 scratch
deriving DecidableEq, Repr

/-- One lane's access: lane, first byte, and where each byte lands. -/
structure LaneAcc where
  lane : Nat
  ea : Nat
  at_ : List Place
deriving DecidableEq, Repr

/-- What an atomic does at its location (R179 to R184). -/
inductive RmwOp where
  | int (op : AtomOp) (sgn : Bool)
  | cas
  | fadd
  | fxadd (p : Nat)
  | fmax
  | frst
deriving DecidableEq, Repr

/-- How an atomic's old values return: in lanes, or in a scalar extended by its type (R162, R179, R184). -/
inductive AtomRet where
  | lanes (w : Nat)
  | scalar (w : Nat) (sgn : Bool)
deriving DecidableEq, Repr

/-- The access of an atomic: lanes with their operand, the operation, its order, and the address of the instruction (R186). -/
structure AtomAcc where
  op : RmwOp
  width : Nat
  lanes : List (LaneAcc × Nat)
  ord : Nat
  scope : Nat
  pc : DWord
  drained : Bool := false                  -- its eager release part is complete (R153)
  done : Bool := false                     -- performed at its home
  old : List (Nat × Nat) := []             -- old values, by lane
  bad : List Nat := []                     -- lanes whose request failed (R186)
  dropped : List Nat := []                 -- lanes that an array dropped (R157)
deriving DecidableEq, Repr

/-- One element of a TSTP (R173): its lane, the bytes it lies in, its first bit and width there, its new code, and its two checksum words. -/
structure PutEl where
  lane : Nat
  at_ : List Place
  bit : Nat
  width : Nat
  code : Nat
  rowAt : List Place
  colAt : List Place
deriving DecidableEq, Repr

/-- A TSTP in the store queue (R173). -/
structure PutAcc where
  els : List PutEl
  done : Bool := false
deriving DecidableEq, Repr

/-- What an entry of the store queue does when it leaves (R140, R165). -/
inductive SqKind where
  | store (bytes : List (Nat × Place × Byte)) (ord scope ch : Nat)  -- (lane, place, value) in lane order; the hint CH (R16)
  | atomic (a : AtomAcc)
  | put (p : PutAcc)
  | tile (bytes : List (Place × Byte)) (ch : Nat)  -- what TSTM, TDECL, TCHK or TFIX writes, once the instruction is complete
deriving DecidableEq, Repr

/-- An entry of the store queue; `op` is the operation its leaving completes. -/
structure SqEntry where
  kind : SqKind
  op : Nat
deriving DecidableEq, Repr

/-- Where a crew stands (R284, R292). -/
structure Seat where
  core : Nat
  sched : Nat
  slot : Nat
  cid : Nat
  gid : Nat
  cvid : Nat
  group : Nat
  launch : Nat
  tag : Nat
  image : Nat
  nv : Nat
  ns : Nat
deriving DecidableEq, Repr

/-- The trap registers (R312, R316). -/
structure TrapRegs where
  tpc : DWord
  tcause : Byte
  tlanes : Mask
  taddr : DWord
  tem : Mask
  tsd : Nat
deriving DecidableEq, Repr

/-- The registers of a crew: its own and those of its handler (R82, R314). -/
structure RegFile where
  v : Vector Lanes 320
  s : Vector DWord 128
  m : Vector Mask 16
  bv : Vector Lanes 32
  bs : Vector DWord 16
deriving DecidableEq, Repr

/-- The control of a crew (R84), and its status registers (R65, R157, R241, R317). -/
structure Control where
  pc : DWord
  em : Mask
  nest : Vector (BitVec 8) 128
  stack : SMap DivEntry                    -- entries by index; those at and beyond the depth are dead but keep their contents
  sdepth : Nat                             -- SDEPTH
  fpst : Word
  mbusy : Mask
  mxst : DWord
  hmode : Bool
  pdrem : Option Nat                       -- the timebase count at which the PREDIS budget ends
  pdpc : DWord
deriving DecidableEq, Repr

/-- What has been asked of a crew and not yet taken (R76, R90, R317, R318, R360). -/
structure Requests where
  pre : Bool := false                      -- pre-emption
  kill : Option KillWhy := none
  relaunch : Bool := true                  -- the kill is relaunchable (R288)
  budget : Bool := false                   -- the PREDIS budget has run out
  trap : Option (Trap × DWord) := none     -- a trap that waits for tags to complete, with its TPC
  discard : Option Nat := none             -- lowest address of a discarded store
  declined : Option (Mask × Nat) := none   -- lanes on declined pages and their lowest address (R338)
deriving DecidableEq, Repr

/-- Times of the scheduler's rules (R85, R86, R322), in timebase counts. -/
structure Stamps where
  issued : Nat := 0
  promoted : Nat := 0
  sincePromo : Bool := false               -- has issued since its promotion
  handler : Nat := 0                       -- when it entered its handler
  suspended : Nat := 0                     -- when it was suspended
deriving DecidableEq, Repr

/-- What the head of a store queue has done (R158, R383): the arrays that answered under R157 when its passes began, and the cores at which its
parts have landed. -/
structure QueuePass where
  busy : List (Nat × Nat)
  gone : List Nat
deriving DecidableEq, Repr

structure Crew where
  seat : Seat
  state : CrewState
  wait : Wait
  rf : RegFile
  ctl : Control
  tr : TrapRegs
  tags : SMap TagRec                       -- tags 1 to 7; entry 0 is a TAG 0 long-latency instruction (R89)
  sq : List SqEntry                        -- oldest first
  pass : Option QueuePass                  -- the passes and parts of the queue's head, once they have begun
  req : Requests
  stamps : Stamps
deriving DecidableEq, Repr

/-! ### The core (R1, R3) -/

/-- A line of the register cache (R82): `flip` lists the bits an ERRINJ has inverted (R329). -/
structure RcLine where
  sched : Nat
  crew : Nat
  line : Nat
  dirty : Bool
  evict : Bool
  flip : List Nat
deriving DecidableEq, Repr

/-- A scheduler's sets (R76, R86): crews by name; `headAt` is when the head of the queue reached the head. -/
structure Sched where
  active : List Nat
  queue : List Nat
  headAt : Nat
deriving DecidableEq, Repr

/-- The states of R189. -/
inductive ArrState where
  | unheld | storage | reefing | settling | compute | unreefing | clearing | offline
deriving DecidableEq, Repr

/-- A delta latch (R207): the rows of element codes and the metadata words last applied. -/
structure Latch where
  slot : Nat
  cid : Nat
  rows : List (List Nat)
  words : List Nat
  fmt : Nat
  klen : Nat
  mrows : Nat
  bl : Nat
  dcount : Nat
  used : Nat                               -- when last used
deriving DecidableEq, Repr

/-- What the array remembers of a slot (R195). -/
structure SlotRec where
  op : Option Nat                          -- the matrix instruction that holds it
  disc : Bool
  samp : Bool
  full : Bool
  owner : Nat
deriving DecidableEq, Repr

/-- An array (R187 to R211). Cells are bytes of the storage view. -/
structure Arr where
  state : ArrState
  group : Option Nat
  tag : Nat
  comp : Bool                              -- reserved for compute
  pb : Nat
  bar : Option Nat                         -- the bound reef barrier, physical
  op : Option Nat                          -- the ARMODE whose tag completes next
  cells : SMap Byte
  flips : List Nat                         -- cells an ERRINJ inverted, as 2048 · row + bit-column (R329)
  latches : List Latch
  slots : SMap SlotRec
  terep : Nat
  pass : Option (Nat × Nat × Nat × Nat)    -- armed PASS: row, bit-column, m, q (R329)
  odd : SMap (List Nat)                    -- by slot: rows of its TRIT weights that hold an odd code (R48, R241; log 26)
deriving DecidableEq, Repr

/-- The states of R250. -/
inductive BarState where
  | idle | armed | complete | abandoned | error
deriving DecidableEq, Repr

/-- A barrier (R246): `ranges` and `lastRanges` are the destination lines of the records counted in the phase under way and in phases that are
complete (R252). -/
structure Bar where
  state : BarState
  kind : Nat
  auto : Bool
  init : Nat
  pend : Nat
  phase : Nat
  err : Bool
  ecode : Nat
  arr : Option Nat                         -- the bound array
  rel : List Nat                           -- release set of a cluster barrier: cores of the current phase (R257)
  lastRel : List Nat                       -- cores of completed phases that no acquire has drained yet (R152)
  waits : List (Nat × Nat)                 -- waiting operations and their expected phase
  ranges : List Nat                        -- lines counted in the current phase
  lastRanges : List Nat
deriving DecidableEq, Repr

/-- A tile-table entry (R212 to R215). -/
structure Tile where
  state : TileState
  group : Nat
  crew : Option Nat                        -- a register tile's crew
  tag : Nat
  rows : Nat
  cols : Nat
  fmt : Nat
  space : Nat
  base : Nat
  csum : Nat
  pitch : Nat
  ben : Bool
  bidx : Nat
  recomp : Bool
  ncor : Nat
deriving DecidableEq, Repr

/-- A line of the L1 (R139, R140, R150): bytes present, those dirty, whether it has been filled, when, and the object it belongs to; its
sectors that are poisoned (R346), whether it has the lowest retention (CH 1, R16), and of its dirty bytes who wrote them (crew and address). -/
structure L1Line where
  bytes : SMap Byte
  dirty : List Nat
  filled : Bool
  at_ : Nat
  obj : Nat
  tag : Nat
  poison : List Nat
  low : Bool
  wrote : SMap (Nat × Nat)
deriving DecidableEq, Repr

/-- Who registered a range lock (R155). -/
inductive LockOwner where
  | chain (ctx : Nat)
  | gather (op : Nat)
deriving DecidableEq, Repr

/-- A range-lock entry (R155): bytes `lo` to `hi`, in the window or global. -/
structure Lock where
  owner : LockOwner
  tag : Nat
  win : Bool
  lo : Nat
  hi : Nat
  dst : Bool
  live : Bool
deriving DecidableEq, Repr

/-- The states of a chain context; R278's codes 1 to 4. -/
inductive ChainState where
  | running | waiting | parked | stopping
deriving DecidableEq, Repr

/-- A loop level of a chain (R271): first record, records of the body, iterations, iteration. -/
structure LoopLevel where
  first : Nat
  body : Nat
  n : Nat
  i : Nat
deriving DecidableEq, Repr

/-- A write of a record that is not yet acknowledged (R265): each byte with the bits written, where it stands in the record's destination,
and the bytes it counts. -/
structure LadleWrite where
  bytes : List (Place × Byte × Byte)
  pos : Nat
  count : Nat
deriving DecidableEq, Repr

/-- The record in hand. -/
structure RecWork where
  kind : Nat
  words : List Nat                         -- its eight double words
  iter : Nat                               -- the innermost loop's iteration (R264)
  bar : Option Nat                         -- the byte barrier, physical
  total : Nat                              -- bytes it declares
  stage : Nat := 0
  sent : Nat := 0                          -- bytes of it passed on
  done : Nat := 0                          -- bytes acknowledged and counted
  flight : List LadleWrite := []           -- writes under way
  fail : Option Nat := none                -- ECODE of a failure, reported when the writes under way are acknowledged
  late : Bool := false                     -- an array answered under R157
  idx : List Nat := []                     -- the index list
  rows : List (List Nat) := []             -- rows the stack adder has read
  buf : List Byte := []                    -- the staging buffer, a tile copy's bytes or the sums
  src : Nat := 0                           -- stream bytes consumed (RSRC), or the row of a plane-pack
  fix : Option (Nat × Nat × Nat) := none   -- the element a plane-pack corrects
  status : Nat := 0                        -- the X3 word of a tile copy
  tile : Option TileState := none          -- the state a tile copy leaves
deriving DecidableEq, Repr

/-- A wait record (R270): the barrier, the phase expected, and once released the STATE it saw and the cores to drain. -/
structure ChainWait where
  bar : Nat
  phase : Nat
  got : Option Nat
  drains : List Nat
deriving DecidableEq, Repr

/-- A ladle context (R259, R275 to R279). -/
structure ChainCtx where
  state : ChainState
  group : Nat
  tag : Nat
  addr : Nat                               -- window address of the current record
  cbar : Option Nat                        -- completion barrier, physical
  loops : List LoopLevel
  work : Option RecWork
  stop : Option Nat                        -- ECODE of a stop in progress
  wait : Option ChainWait
  paused : Bool                            -- paused for a swap or a test
  stopOps : List Nat                       -- CHSTOPs that wait for it to end
deriving DecidableEq, Repr

/-- A translation-buffer entry (R335). -/
structure TlbEntry where
  tag : Nat
  va : Nat
  size : Nat
  entry : DWord                            -- the leaf (R333)
deriving DecidableEq, Repr

/-- The counters of a core (R241, R316, R328). -/
structure Counters where
  ckcor : Nat := 0
  ckrep : Nat := 0
  ckfail : Nat := 0
  rccor : Nat := 0
  smcor : Nat := 0
  tmrep : Nat := 0
  tmwin : Nat := 0
  cur : Nat := 0                           -- replays of the window under way
  since : Nat := 0                         -- when that window began
deriving DecidableEq, Repr

/-- The L1 scratch (R175, R176): ways held, ways being converted, owner group, bytes. -/
structure Scratch where
  ways : Nat
  target : Nat
  owner : Option Nat
  bytes : SMap Byte
deriving DecidableEq, Repr

structure Core where
  scheds : SMap Sched
  rc : List RcLine                         -- least recently used first
  arrays : SMap Arr
  bars : SMap Bar
  tiles : SMap Tile
  l1 : SMap L1Line
  fills : List Nat                         -- lines on their way
  scratch : Scratch
  locks : SMap Lock
  chains : SMap ChainCtx
  gens : SMap Nat                          -- GEN of each ladle context
  staging : Option Nat                     -- the context that holds the staging buffer
  tlb : List TlbEntry
  ctr : Counters
  refetch : List Nat                       -- lines whose packet came with a reserved code and was requested again (R344)
deriving DecidableEq, Repr

/-! ### Operations in flight (R88, R89, R164) -/

/-- A load on its way (R164, R169): the bytes captured so far and the lines still missing. -/
structure LoadOp where
  ty : MemTy
  scalar : Bool
  dst : Option Reg
  accs : List LaneAcc
  got : List (Nat × Nat × Byte)            -- lane, byte, value
  lines : List Nat                         -- L1 lines still missing
  acq : Option Nat                         -- the scope of an acquire
  done : Bool                              -- an acquire's home has returned its value (R152)
  busy : List (Nat × Nat)                  -- arrays that answered under R157 when it issued
  bad : List Nat                           -- lanes whose data is poisoned (R346)
  pc : DWord                               -- the address of the instruction
  ch : Nat                                 -- the hint CH (R16)
  watch : Bool                             -- its crew issues nothing until its data arrive (R313; log 14)
  parts : List Nat                         -- parts still to return: a core of the window, or a memory (R383)
  zero : List (Nat × Nat × Nat)            -- lanes that an array of a part has answered with zeros, with that array (R157)
deriving DecidableEq, Repr

/-- A matrix instruction in flight (R228 to R243). -/
structure MatOp where
  which : Nat                              -- 0 MMA, 1 MMAG, 2 MMAD
  core : Nat
  arr : Nat
  slot : Nat
  fb : Nat                                 -- the format block
  pc : DWord
  d : Nat
  rows : List (List Nat)                   -- codes of A
  metaA : List Nat
  metaB : List Nat
  acc : List Lanes                         -- the eight accumulator registers
  res : List Word                          -- the residual tile
  gaddr : List Nat                         -- row addresses of a gather
  flags : Nat                              -- MXST bits known at issue: SIN, RCMP, GZ
  stage : Nat                              -- 0 metadata, 1 gather, 2 waits for its slot, 3 holds its slot
  bad : Option Nat                         -- a gathered row that holds a code that is not finite
deriving DecidableEq, Repr

/-- A barrier: its core, its physical number, and the name it was called by. -/
structure BarRef where
  core : Nat
  phys : Nat
  name : Nat
deriving DecidableEq, Repr

/-- What becomes of a tile entry when a tile instruction completes: it takes a state and counts corrections, or is freed. -/
inductive TileSet where
  | take (i : Nat) (st : TileState) (ncor : Nat)
  | free (i : Nat)
deriving DecidableEq, Repr

/-- What a tile instruction leaves for its completion: its result, the entries it names, what becomes of one, whether it corrected, and
whether it is complete only when its writes have left the queue (R218). -/
structure TileEnd where
  held : Held
  names : List Nat
  set : Option TileSet
  corrected : Bool
  drains : Bool := false
deriving DecidableEq, Repr

/-- What an operation is. -/
inductive OpKind where
  | transform (h : Held)
  | load (l : LoadOp)
  | queued (dst : Option Reg) (ret : AtomRet)  -- a store, atomic or TSTP: its store-queue entry completes it
  | fence (ord scope : Nat) (after : List Nat) (released : Bool) (drained : List Nat)
  | cways (core n0 n1 group : Nat)
  | barWait (b : BarRef) (dst : Option Reg) (acq : Bool) (status : Option Nat) (drains inv : List Nat)
  | barArrive (b : BarRef) (count : Nat) (dst : Option Reg) (wait : Bool) (after : List Nat)
  | armode (core arr : Nat)
  | matrix (m : MatOp)
  | tileCopy (t : TileEnd)
  | tileInstr (t : TileEnd)
  | bound (tag entry : Nat) (h : Held)
  | chainStart (addr : Nat) (cbar : Option Nat) (ctx : Option Nat) (dst : Reg) (after : List Nat)
  | chainStop (h : Held)
  | launch (q : Nat) (at_ : List Place) (got : Option (List Byte)) (dst : Reg) (after : List Nat) (answer : Option Nat) (pc : DWord)
deriving DecidableEq, Repr

/-- An operation in flight: its crew, its tag, what it is. -/
structure Op where
  crew : Nat
  tag : Nat
  bank : Bool
  em : Mask
  kind : OpKind
deriving DecidableEq, Repr

/-! ### Groups, convoys, launches, queues (10, 11, 12) -/

/-- The states of R288; a FREE group is not listed. -/
inductive GroupState where
  | resident | broken | doomed | closing
deriving DecidableEq, Repr

structure Group where
  state : GroupState
  convoy : Nat
  launch : Nat
  tag : Nat
  gid : Nat
  core : Nat
  arr0 : Nat
  nsto : Nat
  ncomp : Nat
  bar0 : Nat
  nbar : Nat
  crews : List Nat
  slots : List (Nat × Nat)                 -- by cid: scheduler and slot (R284, R287)
  images : List Nat                        -- by cid: register image (R292)
  relaunch : Bool                          -- every break so far is relaunchable
  broke : Bool                             -- was BROKEN or DOOMED
deriving DecidableEq, Repr

structure Convoy where
  launch : Nat
  tag : Nat
  cvid : Nat
  cluster : Nat
  x : Nat
  groups : List Nat                        -- by gid
  attempt : Nat
  started : Bool                           -- images zero-filled, crews STARTING
  skip : List Nat                          -- 64 KiB pages of its images that system software declined
  freed : List Nat                         -- gids whose group is FREE again
  failed : Bool                            -- some group was BROKEN or DOOMED
  relaunch : Bool
deriving DecidableEq, Repr

/-- A launch record (R291). -/
structure LaunchRec where
  entry : Nat
  arg : DWord
  rarea : Nat
  compaddr : Nat
  compval : Nat
  daddr : List (Nat × Nat)                 -- enabled dependences: address, value
  nconv : Nat
  rslots : Nat
  tlim : Nat
  shared : Nat
  nv : Nat
  ns : Nat
  crews : Nat
  groups : Nat
  arrays : Nat
  nbar : Nat
  idem : Bool
  ser : Bool
  sysf : Bool
  inte : Bool
  intv : Nat
deriving DecidableEq, Repr

/-- The states of R294. -/
inductive LaunchState where
  | queued | waiting | dispatching | running | killing | ending | done
deriving DecidableEq, Repr

structure Launch where
  state : LaunchState
  tag : Nat
  q : Nat
  seq : Nat
  info : LaunchRec
  out : Nat
  rcode : Nat
  nfail : Nat
  nrl : Nat
  next : Nat                               -- convoys placed for the first time
  again : List Nat                         -- cvids to place again
  live : Nat                               -- convoys placed and not ended
  lastCluster : Nat
  images : List Nat                        -- register images in use
  started : Nat                            -- timebase count at DISPATCHING
  paused : Nat                             -- counts spent swapped out
  cores : List Nat                         -- cores that ran a crew
  step : Nat                               -- completion steps performed (R298)
deriving DecidableEq, Repr

/-- The states of a queue (R301). -/
inductive QState where
  | disabled | active | suspended | error
deriving DecidableEq, Repr

structure Queue where
  state : QState
  closing : Bool                           -- control 3 seen; EN reads 0
  device : Bool
  logn : Nat
  depth : Nat
  base : Nat
  tail : Nat
  taken : Nat
  head : Nat
  eseq : Nat
  rcode : Nat
  ecode : Nat
  done : List Nat                          -- records DONE ahead of HEAD
deriving DecidableEq, Repr

/-! ### Contexts (13) -/

/-- The states of R310; a FREE entry is not listed. -/
inductive CtxState where
  | live | suspending | saving | swapped | restoring | killing | dead
deriving DecidableEq, Repr

/-- A bound entry (R222); a cleared entry has kind 0. -/
structure Bound where
  kind : Nat
  act : Nat
  lo : Word
  hi : Word
  hit : Bool
deriving DecidableEq, Repr

/-- A shape record that is tracked (R149). -/
structure Shape where
  index : Nat
  tile : Bool
  base : Nat
  length : Nat
  pitch : Nat
  rows : Nat
  rowBytes : Nat
deriving DecidableEq, Repr

/-- What a swap keeps of one core (R319). -/
structure SavedCore where
  core : Nat
  arrays : SMap Arr
  bars : SMap Bar
  tiles : SMap Tile
  scratch : Option Scratch
  chains : SMap ChainCtx
  gens : SMap Nat                          -- GEN of the contexts of those chains
  locks : SMap Lock
  staging : Option Nat
  rc : List RcLine                         -- dirty lines
deriving DecidableEq, Repr

/-- A context descriptor (R309). -/
structure Desc where
  shadow : Nat
  hport : Nat
  system : Bool
  cls : Nat
  loga : Nat
  swapa : Nat
  tvec : DWord
  wdog : Nat
  nshape : Nat
  shtab : Nat
  qtab : Nat
  troot : Nat
deriving DecidableEq, Repr

structure Context where
  state : CtxState
  desc : Desc
  members : List Nat                       -- clusters that are MEMBER (R311)
  retiring : List Nat                      -- clusters that are RETIRING
  bounds : SMap Bound
  updates : List (Nat × Nat × Bound)       -- bound updates under way: operation, entry, new value (R224)
  shapes : List Shape
  logSeq : Nat
  why : Option KillWhy                     -- why it is being killed
  saved : List SavedCore
  savedAt : Nat                            -- when its cores halted
  out : Bool                               -- its resources are released to others: from SWAPPED until they are its own again
deriving DecidableEq, Repr

/-! ### Pages and memory reliability (14) -/

/-- Who asked for a walk (R337). -/
inductive Walker where
  | crew (c : Nat) (lanes : Mask)
  | fetch (c : Nat)
  | chain (core ctx : Nat)
  | queue (launch : Nat)                   -- a ring, dependence or completion access
  | ring (op : Nat)                        -- the ring slot of a LAUNCH
  | image (convoy : Nat)                   -- the zero-fill of register images
  | line (c n : Nat)                       -- the write-back of line `n` of a crew's image
deriving DecidableEq, Repr

/-- A walk under way, or a walker that waits on a fault record. -/
structure Walk where
  who : Walker
  tag : Nat
  va : Nat
  write : Bool
  core : Nat
  fault : Option Nat                       -- SEQ of the record it waits on
  full : Bool                              -- waits for a free slot of the fault ring
deriving DecidableEq, Repr

/-- An outstanding fault record (R337). -/
structure FaultRec where
  tag : Nat
  va : Nat
deriving DecidableEq, Repr

/-- Whose write the directory holds for a migrating page (R340): the head of a crew's store queue, a chain's write, or bytes that one of the
package's own units has written. -/
inductive HeldWriter where
  | crew (c : Nat)
  | chain (core ctx : Nat)
  | unit (l : List (Nat × Byte))
deriving DecidableEq, Repr

/-- A migration (R340). -/
structure Migration where
  tag : Nat
  va : Nat
  size : Nat
  old : Nat
  new : Nat
  kind : Nat                               -- log kind: 0 promoted, 1 demoted, 5 by command
  stage : Nat
  die : Nat
  cmd : Bool
  order : List HeldWriter                  -- the writes that are held, as they reached the directory
deriving DecidableEq, Repr

/-- A die's tracker and its frame pools (R342, R343). -/
structure Tracker where
  counts : SMap Nat                        -- L2 misses by LPDDR6 page frame (64 KiB)
  touched : List Nat                       -- touched HBM4E frames
  past : List Nat                          -- frames touched in the epoch that ended last
  todo : List Nat                          -- candidates still to take this epoch
  left : Nat                               -- promotions this epoch may still start
  since : Nat                              -- when the epoch began
  hbm : List Nat                           -- free frames
  lpddr : List Nat
  threshold : Nat
  tail : Nat
  head : Nat
deriving DecidableEq, Repr

/-- A DRAM stack's reliability state (R346 to R348). -/
structure Dram where
  symbols : Nat                            -- corrected symbols
  list : List (Nat × Nat)                  -- correction list: row, when last corrected
  period : Nat
  visits : SMap Nat                        -- scrub visits of the period under way, by row
  start : Nat                              -- when that period began
deriving DecidableEq, Repr

/-- A DRAM bank (R347): activations of each row in this window, and the indirection table. -/
structure Bank where
  acts : SMap Nat
  map : SMap Nat
  since : Nat                              -- when the refresh window began
deriving DecidableEq, Repr

/-! ### Links and management (15) -/

/-- The states of R350. -/
inductive LinkState where
  | down | training | up | degraded | retrain
deriving DecidableEq, Repr

/-- An eye word (R351). -/
structure Eye where
  thr : Nat
  minh : Nat
  h : Nat
  v : Nat
deriving DecidableEq, Repr

/-- A packet for a port: its virtual channel, the KIND and payload of each flit, and of a write the crew that made it and its address. -/
structure PortPacket where
  vc : Nat
  flits : List Nat
  owner : Option (Nat × Nat)
deriving DecidableEq, Repr

/-- A flit that is not yet acknowledged: its sequence number, its bits, and of a header the write it stands for. -/
structure SentFlit where
  seq : Nat
  bits : Nat
  owner : Option (Nat × Nat)
deriving DecidableEq, Repr

/-- A link (R349 to R351, R355 to R358). -/
structure Link where
  state : LinkState
  replay : Nat
  lost : Nat
  spused : Nat
  width : Nat
  auto : Bool
  eyes : SMap Eye
  seq : Nat                                -- next flit sequence number expected (R356)
  txSeq : Nat
  buffer : List SentFlit                   -- replay buffer, oldest first
  windows : SMap (Nat × Nat)               -- Cletik window entries: base, size
  credits : SMap Nat                       -- credits its sender uses here, by virtual channel
  mapped : List Nat                        -- data lanes a spare stands for
  want : List Nat                          -- lanes to be spared when it trains again
  cxl : Bool                               -- a host port that runs CXL
  queue : List PortPacket                  -- packets that wait for credit
  used : SMap Nat                          -- credits used at the other side, by virtual channel
  sent : Nat                               -- flits of the replay buffer that have gone out
deriving DecidableEq, Repr

/-- An event record (R353). -/
structure Event where
  data : Nat
  kind : Nat
  tag : Nat
  loc : Nat
deriving DecidableEq, Repr

/-- The command under way (R353). -/
structure Cmd where
  seq : Nat
  code : Nat
  tag : Nat
  ops : List Nat                           -- accesses an invalidation waits for
  fills : List (Nat × Nat)                 -- lines on their way that it waits for: core and line
deriving DecidableEq, Repr

/-- The registers of the management page (R352). -/
structure Manage where
  ready : Bool
  fault : Bool
  step : Nat
  atom0 : Nat
  atom1 : Nat
  owner : Option Nat                       -- the designated port
  evovf : Bool
  cmdbase : Nat
  cmdtail : Nat
  cmdhead : Nat
  evbase : Nat
  evtail : Nat
  evvec : Nat
  evhead : Nat
  frbase : Nat
  frtail : Nat
  frhead : Nat
  tmthr : Nat
  evdrop : Nat
  eyesel : Nat
  mlbase : Nat
  kept : List Event                        -- events kept while the ring is full
  cmd : Option Cmd
  held : Option Event                      -- a completion that can neither be written nor kept
  msix : List (Nat × Nat)                  -- interrupts signalled: port, vector; newest first
  testPeriod : Nat
  scrubPeriod : SMap Nat
  powerCap : Nat
  answer : Nat                             -- what the last read of the page returned
deriving DecidableEq, Repr

/-- A non-leaf entry in the walker cache of a die (R335): the table entry read at a level, and the range it covers. -/
structure WalkEntry where
  tag : Nat
  level : Nat
  va : Nat
  entry : Nat
deriving DecidableEq, Repr

/-- A die (R3, R326, R335, R363). -/
structure Die where
  clmap : SMap Nat                         -- built position of an active cluster, where not its own number
  spare : Option Nat                       -- built position of the spare cluster
  test : Option (Nat × Nat × Nat)          -- the cluster under test, the stage (0 quiesce, 1 copy done), the built position
  tested : Nat                             -- when the last test began
  next : Nat                               -- the cluster to test next
  retired : List Nat
  clock : Nat
  supply : Nat
  served : Nat                             -- the queue its dispatch slot served last (R306)
  placed : SMap Nat                        -- by tag: the dispatch slot it last used (R296)
  lag : Nat                                -- how far its own cycles are behind the package timebase (R363), in sevenths of a count
  wcache : List WalkEntry                  -- the walker cache: at most 4,096, newest first
deriving DecidableEq, Repr

/-! ### The package -/

/-- An entry of a directory (R150): an object and its holders at that level. A directory lists the most recently used first. -/
structure DirEntry where
  obj : Nat
  holders : List Nat
deriving DecidableEq, Repr

/-- Home memory and its coherence state (05). -/
structure Memory where
  cells : List Host.Cell                   -- bytes by physical address; unlisted reads 0
  poison : List Nat                        -- poisoned 32-byte sectors
  writers : SMap (List (Nat × Nat))        -- by object: core and when it last wrote (R150, R152)
  relSets : SMap (List Nat)                -- by variable: releasing cores (R151)
  dirs : SMap (List DirEntry)              -- the directories (R150): cluster k at k, die d at 288 + d, the package at 300
deriving DecidableEq, Repr

structure State where
  cur : Nat                                -- the model's own: the crew an instruction row is run by
  turn : Option Nat                        -- the model's own: a crew already chosen to issue next
  due : List Instr                         -- the model's own: steps of outside parties that stand due
  tick : Nat                               -- the model's own: steps taken
  free : Nat                               -- the model's own: free values taken
  nextId : Nat                             -- the model's own: the next name of a crew, group, operation ...
  now : Nat                                -- the package timebase (R20)
  mem : Memory
  crews : SMap Crew
  cores : SMap Core
  ops : SMap Op
  groups : SMap Group
  convoys : SMap Convoy
  launches : SMap Launch
  queues : SMap Queue
  lastQueue : Nat
  ctxs : SMap Context
  walks : SMap Walk
  faults : SMap FaultRec
  migs : SMap Migration
  trackers : SMap Tracker
  drams : SMap Dram
  banks : SMap Bank
  links : SMap Link
  mg : Manage
  dies : SMap Die
deriving DecidableEq, Repr

/-! ### Reset -/

def Sched.idle : Sched := ⟨[], [], 0⟩

/-- An array no group holds (R189). -/
def Arr.unheld : Arr := ⟨.unheld, none, 0, false, 0, none, none, [], [], [], [], 0, none, []⟩

/-- A barrier as a group receives it (R246). -/
def Bar.idle : Bar := ⟨.idle, 0, false, 0, 0, 0, false, 0, none, [], [], [], [], []⟩

def SlotRec.free : SlotRec := ⟨none, false, false, false, 0⟩

def Core.empty : Core := ⟨[], [], [], [], [], [], [], ⟨0, 0, none, []⟩, [], [], [], none, [], {}, []⟩

def Tracker.empty : Tracker := ⟨[], [], [], [], 0, 0, [], [], 0, 0, 0⟩

def Dram.empty : Dram := ⟨0, [], 0, [], 0⟩

def Bank.empty : Bank := ⟨[], [], 0⟩

def Link.down : Link := ⟨.down, 0, 0, 0, 0, false, [], 0, 0, [], [], [], [], [], false, [], [], 0⟩

def Bound.cleared : Bound := ⟨0, 0, 0, 0, false⟩

/-- The management page after package reset (R352): neither port designated; the power cap 9,600 W (R364). -/
def Manage.reset : Manage where
  ready := false
  fault := false
  step := 0
  atom0 := 0
  atom1 := 0
  owner := none
  evovf := false
  cmdbase := 0
  cmdtail := 0
  cmdhead := 0
  evbase := 0
  evtail := 0
  evvec := 0
  evhead := 0
  frbase := 0
  frtail := 0
  frhead := 0
  tmthr := 0
  evdrop := 0
  eyesel := 0
  mlbase := 0
  kept := []
  cmd := none
  held := none
  msix := []
  testPeriod := 0
  scrubPeriod := []
  powerCap := 9600
  answer := 0

/-- A die after reset: built position 24 is the spare (log 5). -/
def Die.reset : Die := ⟨[], some 24, none, 0, 0, [], 0, 0, 0, [], 0, []⟩

/-- The package right after reset (R361): no context, no crew; memory lists nothing. -/
def State.reset : State where
  cur := 0
  turn := none
  due := []
  tick := 0
  free := 0
  nextId := 0
  now := 0
  mem := ⟨[], [], [], [], []⟩
  crews := []
  cores := []
  ops := []
  groups := []
  convoys := []
  launches := []
  queues := []
  lastQueue := 0
  ctxs := []
  walks := []
  faults := []
  migs := []
  trackers := []
  drams := []
  banks := []
  links := []
  mg := Manage.reset
  dies := []

/-! ### Stops -/

/-- Why a step can stop with a fault. -/
inductive Fault where
  /-- Raised by a step of the management interface whose ring or table address names a physical address that R330 does not populate:
  the spec says only that the address does not exist. Safe: the model stops. -/
  | unpopulated (pa : Nat)
deriving DecidableEq, Repr

/-- Why a step can be refused. -/
inductive Refusal where
  /-- An arm of exec that has no meaning yet. Safe: the model stops. -/
  | notModelled (mnemonic : String)
deriving DecidableEq, Repr

end Sys2Proof.Machine
end

