-- ==== Sys2Proof/Machine/Access.lean ====
section
/-!
DEFINITION. Reading and writing the parts of the state: crews, cores and their tables, the register file with its banked half (R82, R314),
bytes of memory (R9, R330), free values and the event ring (R353). Every other file goes through these.
-/
namespace Sys2Proof.Machine

/-! ### Tables -/

namespace State

def crew? (s : State) (c : Nat) : Option Crew := s.crews.find? c

def setCrew (s : State) (c : Nat) (x : Crew) : State := { s with crews := s.crews.insert c x }

def updCrew (s : State) (c : Nat) (f : Crew → Crew) : State :=
  match s.crew? c with
  | none => s
  | some x => s.setCrew c (f x)

def core (s : State) (g : Nat) : Core := s.cores.getD g Core.empty

def updCore (s : State) (g : Nat) (f : Core → Core) : State := { s with cores := s.cores.insert g (f (s.core g)) }

def sched (s : State) (g t : Nat) : Sched := (s.core g).scheds.getD t Sched.idle

def updSched (s : State) (g t : Nat) (f : Sched → Sched) : State :=
  s.updCore g fun k => { k with scheds := k.scheds.insert t (f (k.scheds.getD t Sched.idle)) }

def arr (s : State) (g a : Nat) : Arr := (s.core g).arrays.getD a Arr.unheld

def updArr (s : State) (g a : Nat) (f : Arr → Arr) : State :=
  s.updCore g fun k => { k with arrays := k.arrays.setD a Arr.unheld (f (k.arrays.getD a Arr.unheld)) }

def bar (s : State) (g b : Nat) : Bar := (s.core g).bars.getD b Bar.idle

def updBar (s : State) (g b : Nat) (f : Bar → Bar) : State :=
  s.updCore g fun k => { k with bars := k.bars.setD b Bar.idle (f (k.bars.getD b Bar.idle)) }

def tile? (s : State) (g i : Nat) : Option Tile := (s.core g).tiles.find? i

def updTile (s : State) (g i : Nat) (f : Tile → Tile) : State := s.updCore g fun k => { k with tiles := k.tiles.modify i f }

def chain? (s : State) (g i : Nat) : Option ChainCtx := (s.core g).chains.find? i

def updChain (s : State) (g i : Nat) (f : ChainCtx → ChainCtx) : State := s.updCore g fun k => { k with chains := k.chains.modify i f }

def updCtr (s : State) (g : Nat) (f : Counters → Counters) : State := s.updCore g fun k => { k with ctr := f k.ctr }

def op? (s : State) (o : Nat) : Option Op := s.ops.find? o

def setOp (s : State) (o : Nat) (x : Op) : State := { s with ops := s.ops.insert o x }

def dropOp (s : State) (o : Nat) : State := { s with ops := s.ops.erase o }

def group? (s : State) (g : Nat) : Option Group := s.groups.find? g

def updGroup (s : State) (g : Nat) (f : Group → Group) : State := { s with groups := s.groups.modify g f }

def convoy? (s : State) (g : Nat) : Option Convoy := s.convoys.find? g

def updConvoy (s : State) (g : Nat) (f : Convoy → Convoy) : State := { s with convoys := s.convoys.modify g f }

def launch? (s : State) (g : Nat) : Option Launch := s.launches.find? g

def updLaunch (s : State) (g : Nat) (f : Launch → Launch) : State := { s with launches := s.launches.modify g f }

def ctx? (s : State) (t : Nat) : Option Context := s.ctxs.find? t

def updCtx (s : State) (t : Nat) (f : Context → Context) : State := { s with ctxs := s.ctxs.modify t f }

def queue? (s : State) (t q : Nat) : Option Queue := s.queues.find? (256 * t + q)

def updQueue (s : State) (t q : Nat) (f : Queue → Queue) : State := { s with queues := s.queues.modify (256 * t + q) f }

def tracker (s : State) (d : Nat) : Tracker := s.trackers.getD d Tracker.empty

def updTracker (s : State) (d : Nat) (f : Tracker → Tracker) : State := { s with trackers := s.trackers.insert d (f (s.tracker d)) }

def dram (s : State) (d : Nat) : Dram := s.drams.getD d Dram.empty

def updDram (s : State) (d : Nat) (f : Dram → Dram) : State := { s with drams := s.drams.insert d (f (s.dram d)) }

def bank (s : State) (b : Nat) : Bank := s.banks.getD b Bank.empty

def updBank (s : State) (b : Nat) (f : Bank → Bank) : State := { s with banks := s.banks.insert b (f (s.bank b)) }

def link (s : State) (n : Nat) : Link := s.links.getD n Link.down

def updLink (s : State) (n : Nat) (f : Link → Link) : State := { s with links := s.links.insert n (f (s.link n)) }

def die (s : State) (d : Nat) : Die := s.dies.getD d Die.reset

def updDie (s : State) (d : Nat) (f : Die → Die) : State := { s with dies := s.dies.insert d (f (s.die d)) }

/-- The cycles a die has counted (R363): its core clock runs at 7, 6 or 5 sevenths of the package timebase. -/
def cycle (s : State) (d : Nat) : Nat := s.now - ((s.die d).lag + 6) / 7

/-- The cycles of the die of a core. -/
def coreCycle (s : State) (g : Nat) : Nat := s.cycle (g / 96)

def updMg (s : State) (f : Manage → Manage) : State := { s with mg := f s.mg }

/-- A fresh name. -/
def fresh (s : State) : Nat × State := (s.nextId, { s with nextId := s.nextId + 1 })

/-- A free value (log 2): the next one of Config.freeNat. -/
def freeValue (s : State) : Nat × State := (Config.freeNat s.free, { s with free := s.free + 1 })

end State

/-- The die, the active cluster of the die and the core of the cluster, of a global core number (R3). -/
def dieOf (g : Nat) : Nat := g / 96
def clusterOf (g : Nat) : Nat := g / 4
def coreInCluster (g : Nat) : Nat := g % 4

/-- A saturating 32-bit count (R316). -/
def sat32 (n : Nat) : Nat := min n (2 ^ 32 - 1)

/-! ### Memory (R9, R330) -/

/-- What an unlisted byte reads as: DRAM is zeroed at bring-up (R361 step 5); host and peer memory by choice (log 4). -/
def unlistedByte : Byte := 0

namespace Memory

def read (m : Memory) (pa : Nat) : Byte := SMap.getD m.cells pa unlistedByte

def write (m : Memory) (pa : Nat) (b : Byte) : Memory := { m with cells := SMap.setD m.cells pa unlistedByte b }

def readN (m : Memory) (pa n : Nat) : List Byte := (List.range n).map fun i => m.read (pa + i)

def writeN (m : Memory) (pa : Nat) : List Byte → Memory
  | [] => m
  | b :: t => writeN (m.write pa b) (pa + 1) t

/-- The little-endian value of `n` bytes (R9). -/
def readLE (m : Memory) (pa n : Nat) : Nat := ofBytes (m.readN pa n)

def writeLE (m : Memory) (pa n x : Nat) : Memory := m.writeN pa (toBytes n x)

/-- The canonical form: addresses strictly rising, no entry equal to what an unlisted address reads as. -/
def wf (m : Memory) : Bool := SMap.wf unlistedByte m.cells

/-- R346: a sector is poisoned until a write replaces all of its 32 bytes. -/
def poisoned (m : Memory) (pa : Nat) : Bool := m.poison.contains (pa / 32)

def addPoison (m : Memory) (pa : Nat) : Memory := if m.poisoned pa then m else { m with poison := (pa / 32) :: m.poison }

def clearPoison (m : Memory) (sector : Nat) : Memory := { m with poison := m.poison.filter (· ≠ sector) }

end Memory

/-- A write of bytes at physical addresses; a sector all of whose bytes are written is no longer poisoned (R346). -/
def writePhys (s : State) (l : List (Nat × Byte)) : State :=
  let m := l.foldl (fun m e => m.write e.1 e.2) s.mem
  let full := s.mem.poison.filter fun k => (List.range 32).all fun i => l.any fun e => e.1 == 32 * k + i
  { s with mem := full.foldl (fun m k => m.clearPoison k) m }

/-! ### Registers (R20, R82, R314) -/

/-- Whether register fields name the banked lines: the crew is in its handler (R314). -/
def Crew.bank (c : Crew) : Bool := c.ctl.hmode

def RegFile.vget (r : RegFile) (bank : Bool) (k : Fin 320) : Lanes :=
  if h : bank ∧ k.val < 32 then r.bv.get ⟨k.val, h.2⟩ else r.v.get k

def RegFile.sget (r : RegFile) (bank : Bool) (k : Fin 128) : DWord :=
  if h : bank ∧ k.val < 16 then r.bs.get ⟨k.val, h.2⟩ else r.s.get k

def RegFile.vset (r : RegFile) (bank : Bool) (k : Fin 320) (x : Lanes) : RegFile :=
  if h : bank ∧ k.val < 32 then { r with bv := r.bv.set k.val x h.2 } else { r with v := r.v.set k.val x }

def RegFile.sset (r : RegFile) (bank : Bool) (k : Fin 128) (x : DWord) : RegFile :=
  if h : bank ∧ k.val < 16 then { r with bs := r.bs.set k.val x h.2 } else { r with s := r.s.set k.val x }

/-- Vector register number `k`; a number beyond the file reads zero. -/
def Crew.vreg (c : Crew) (k : Nat) : Lanes := if h : k < 320 then c.rf.vget c.bank ⟨k, h⟩ else Lanes.zero

/-- Scalar register number `k`; a number beyond the file reads zero. -/
def Crew.sreg (c : Crew) (k : Nat) : DWord := if h : k < 128 then c.rf.sget c.bank ⟨k, h⟩ else 0

/-- The lanes `new` where `em` is set and `old` elsewhere (R105). -/
def mergeLanes (em : Mask) (old new : Lanes) : Lanes := Lanes.ofFn fun l => if em.getLsbD l then new.get l else old.get l

/-- A committed write of a register (R88). -/
def RegFile.put (r : RegFile) : RegWrite → RegFile
  | .s k b x => r.sset b k x
  | .v k b em x => r.vset b k (mergeLanes em (r.vget b k) x)

def Crew.put (c : Crew) (w : RegWrite) : Crew := { c with rf := c.rf.put w }

def Crew.mask (c : Crew) : Reg → Mask
  | .m k => c.rf.m.get k
  | _ => 0

/-- A mask destination; zero discards (R20). -/
def Crew.setMask (c : Crew) (d : Reg) (x : Mask) : Crew :=
  match d with
  | .m k => { c with rf := { c.rf with m := c.rf.m.set k.val x } }
  | _ => c

/-- The active lanes, ascending (R11). -/
def activeLanes (em : Mask) : List Nat := (List.range 128).filter fun l => em.getLsbD l

/-- The mask of a list of lanes. -/
def lanesMask (l : List Nat) : Mask := l.foldl (fun m i => m ||| BitVec.ofNat 128 (2 ^ i)) 0

/-! ### Physical addresses (R330) -/

/-- PA[51:48] (R330). -/
def region (pa : Nat) : Nat := bits pa 51 48

/-- Whether `size` bytes from `pa` lie in populated memory (R330). -/
def populated (pa size : Nat) : Bool :=
  match region pa with
  | 0 => decide (bits pa 47 41 = 0) && decide (bits pa 40 36 ≤ 23) && decide (bits pa 35 0 + size ≤ 36000000000)
  | 1 => decide (bits pa 47 40 = 0) && decide (bits pa 39 0 + size ≤ 1024000000000)
  | 2 | 3 | 4 => decide (bits pa 47 0 + size ≤ 2 ^ 48) && decide (pa < 2 ^ 52)
  | _ => false

/-! ### The event ring (R352, R353) -/

def Event.word (e : Event) : Nat := e.data % 2 ^ 64 * 2 ^ 64 + e.kind % 2 ^ 16 * 2 ^ 48 + e.tag % 2 ^ 8 * 2 ^ 40 + e.loc % 2 ^ 40

/-- Writes an event in the next slot, and signals EVVEC at the designated port. A ring at an address without memory takes nothing. -/
def putEvent (s : State) (e : Event) : State :=
  let n := s.mg.evtail + 1
  let a := s.mg.evbase + 16 * (n % 4096)
  let s := if populated a 16 then writePhys s ((toBytes 16 e.word).mapIdx fun i b => (a + i, b)) else s
  s.updMg fun m => { m with evtail := n, msix := (m.owner.getD 0, m.evvec % 2 ^ 11) :: m.msix }

/-- The ring is full when EVTAIL − EVHEAD = 4,096. -/
def ringFull (s : State) : Bool := decide (s.mg.evtail - s.mg.evhead ≥ 4096)

/-- An event: written, kept while the ring is full, or dropped and counted (R353). -/
def emit (s : State) (e : Event) : State :=
  if s.mg.kept.isEmpty && !ringFull s then putEvent s e
  else if s.mg.kept.length < 256 then s.updMg fun m => { m with kept := m.kept ++ [e] }
  else if e.kind = 0 then s.updMg fun m => { m with held := some e }
  else s.updMg fun m => { m with evdrop := min (m.evdrop + 1) (2 ^ 64 - 1), evovf := true }

/-- Kept events are written as slots free. -/
def flushEvents : Nat → State → State
  | 0, s => s
  | n + 1, s =>
    match s.mg.kept with
    | [] => s
    | e :: t => if ringFull s then s else flushEvents n (putEvent (s.updMg fun m => { m with kept := t }) e)

end Sys2Proof.Machine
end

