-- ==== Sys2Proof/Machine/Translate.lean ====
section
/-!
DEFINITION. Homes of physical addresses (R331), the translation tables (R332, R333), rights (R334) and the translation buffer of a
core (R335).
-/
namespace Sys2Proof.Machine

/-- The home die of a line (R331). -/
def homeDie (pa : Nat) : Nat :=
  match region pa with
  | 0 => bits pa 40 36 / 2
  | 1 => bits pa 39 12 % 12
  | 2 => 0
  | 3 => 11
  | _ => if bits pa 47 44 < 8 then 0 else 11

/-- The active cluster whose slice homes a line (R331). -/
def homeCluster (pa : Nat) : Nat := bits pa 47 7 % 24

/-- R133: bits 63 to 57 all equal bit 56. -/
def canonical (va : Nat) : Bool := decide (va / 2 ^ 56 % 2 ^ 8 = 0) || decide (va / 2 ^ 56 % 2 ^ 8 = 255)

/-! ### Paths and links (R139, R349, R360) -/

/-- The die links a request crosses: along the row, then along the column. -/
def dieLinks (a b : Nat) : List Nat :=
  let c := b % 4
  (List.range' (min (a % 4) c) (max (a % 4) c - min (a % 4) c)).map (fun j => 3 * (a / 4) + j) ++
    (List.range' (min (a / 4) (b / 4)) (max (a / 4) (b / 4) - min (a / 4) (b / 4))).map fun r => 9 + 2 * c + r

/-- The link behind a physical address: its PHY or port. -/
def endLink (pa : Nat) : Nat :=
  match region pa with
  | 0 => 32 + bits pa 40 36
  | 1 => 64 + homeDie pa
  | 2 => 96
  | 3 => 97
  | _ => 80 + bits pa 47 44

/-- The links of the path from a core to a physical address. -/
def pathLinks (g pa : Nat) : List Nat := dieLinks (dieOf g) (homeDie pa) ++ [endLink pa]

/-- A request made now completes with an error (R360). -/
def pathDown (s : State) (g pa : Nat) : Bool := (pathLinks g pa).any fun n => (s.link n).state == .down

/-- A link of the path trains: the request is held (R350). -/
def pathHeld (s : State) (g pa : Nat) : Bool :=
  (pathLinks g pa).any fun n => (s.link n).state == .training || (s.link n).state == .retrain

/-! ### Pages that migrate (R154, R340) -/

/-- The old frame of a migration. -/
def Migration.inOld (m : Migration) (pa : Nat) : Bool := decide (m.old ≤ pa) && decide (pa < m.old + m.size)

/-- The directory holds writes to the frame of a byte. -/
def lockedPa (s : State) (pa : Nat) : Bool := s.migs.any fun e => e.2.inOld pa

/-- Until the lock bit clears, an address that the swapped leaf already names in the new frame means the old one: reads are served there, and
writes are held under that name. -/
def oldFrame (s : State) (pa : Nat) : Nat :=
  match List.find? (fun (e : Nat × Migration) => e.2.stage == 2 && decide (e.2.new ≤ pa) && decide (pa < e.2.new + e.2.size)) s.migs with
  | some e => e.2.old + (pa - e.2.new)
  | none => pa

/-- A write of one of the package's own units: a byte of a page that migrates is held with the page. -/
def frameWrite (s : State) (l : List (Nat × Byte)) : State :=
  let held := l.filter fun e => lockedPa s e.1
  let s := writePhys s (l.filter fun e => !lockedPa s e.1)
  if held.isEmpty then s
  else { s with migs := s.migs.map fun (e : Nat × Migration) =>
    (e.1, if held.any fun b => e.2.inOld b.1 then { e.2 with order := e.2.order ++ [.unit (held.filter fun b => e.2.inOld b.1)] } else e.2) }

/-- The byte that a held write of the package's own units has for an address. -/
def HeldWriter.byte? (pa : Nat) : HeldWriter → Option Byte
  | .unit l => (l.find? fun b => b.1 == pa).map (·.2)
  | _ => none

/-- A byte as those units read it: the value they wrote while its page migrates, else memory's. -/
def frameByte (s : State) (pa : Nat) : Byte :=
  (List.findSome? (fun (e : Nat × Migration) => e.2.order.reverse.findSome? (·.byte? pa)) s.migs).getD (s.mem.read pa)

/-! ### Table entries (R333) -/

def pteV (e : Nat) : Bool := e.testBit 0
def pteLeaf (e : Nat) : Bool := e.testBit 1
def pteRD (e : Nat) : Bool := e.testBit 3
def pteW (e : Nat) : Bool := e.testBit 4
def pteX (e : Nat) : Bool := e.testBit 5
def ptePin (e : Nat) : Bool := e.testBit 6
def pteMig (e : Nat) : Bool := e.testBit 7
def pteMT (e : Nat) : Nat := bits e 9 8
def pteA (e : Nat) : Bool := e.testBit 10
def pteD (e : Nat) : Bool := e.testBit 11
def pteAddr (e : Nat) : Nat := bits e 51 12 * 4096

/-- The bytes one entry of a level covers (R332). -/
def levelSize : Nat → Nat
  | 0 => 2 ^ 16
  | 1 => 2 ^ 21
  | 2 => 2 ^ 30
  | 3 => 2 ^ 39
  | _ => 2 ^ 48

/-- The index of a level's table (R332). -/
def levelIndex (va : Nat) : Nat → Nat
  | 0 => bits va 20 16
  | 1 => bits va 29 21
  | 2 => bits va 38 30
  | 3 => bits va 47 39
  | _ => bits va 56 48

/-- R333: MT matches the region of the frame. -/
def mtOk (e : Nat) : Bool :=
  match pteMT e, region (pteAddr e) with
  | 0, 0 | 0, 1 | 0, 4 => true
  | 1, 2 | 1, 3 | 2, 2 | 2, 3 => true
  | _, _ => false

/-- A walk error of an entry read at a level (R333): none, kind 1 or kind 2. -/
def entryError (level e : Nat) : Option Nat :=
  let size := levelSize level
  if bits e 63 52 ≠ 0 ∨ e.testBit 2 then some 1
  else if pteLeaf e then
    if level ≥ 3 ∨ pteAddr e % size ≠ 0 ∨ (pteMig e ∧ ptePin e) ∨ (pteX e ∧ pteW e) then some 1
    else if !populated (pteAddr e) size then some 2
    else if !mtOk e then some 1
    else none
  else if level = 0 ∨ bits e 11 2 ≠ 0 then some 1
  else if !populated (pteAddr e) 4096 then some 2
  else none

/-- How a walk ends: a leaf with its level and the physical address of its entry, or a fault of a kind at a level (R337). -/
inductive WalkEnd where
  | leaf (entry level ptr : Nat)
  | fault (kind level : Nat)
deriving DecidableEq, Repr

/-- The walk from a table at `table`, level `level` (R332). -/
def walkFrom (m : Memory) (va : Nat) : Nat → Nat → WalkEnd
  | level, table =>
    let ptr := table + 8 * levelIndex va level
    let e := m.readLE ptr 8
    if !pteV e then .fault 0 level
    else match entryError level e with
      | some k => .fault k level
      | none =>
        if pteLeaf e then .leaf e level ptr
        else match level with
          | 0 => .fault 1 0
          | l + 1 => walkFrom m va l (pteAddr e)

def walk (m : Memory) (troot va : Nat) : WalkEnd := walkFrom m va 4 troot

/-- The walker sets A, and D on a write (R333). -/
def setAD (e : Nat) (write : Bool) : Nat := e ||| 2 ^ 10 ||| (if write then 2 ^ 11 else 0)

/-! ### The translation buffer (R335) -/

/-- The entry of the buffer that covers `va`; a write through an entry whose D is clear walks again (R333). -/
def tlbFind (k : Core) (tag va : Nat) (write : Bool) : Option TlbEntry :=
  k.tlb.find? fun t => t.tag == tag && decide (t.va ≤ va % 2 ^ 57) && decide (va % 2 ^ 57 < t.va + t.size) &&
    (!write || pteD t.entry.toNat || !pteW t.entry.toNat)

/-- The physical address an entry gives. -/
def TlbEntry.pa (t : TlbEntry) (va : Nat) : Nat := pteAddr t.entry.toNat + (va % 2 ^ 57 - t.va)

/-- The kind of a mapping (R330, R333). -/
def entryMap (e : Nat) : MapKind :=
  match pteMT e with
  | 1 => .coherent
  | 2 => .noncoherent
  | _ => if region (pteAddr e) = 4 then .peer else .device

/-- Adds an entry to a core's buffer; beyond 1,024 the oldest leaves. -/
def addTlb (s : State) (g : Nat) (t : TlbEntry) : State :=
  s.updCore g fun k => { k with tlb := (t :: k.tlb).take 1024 }

/-- The rights an access needs (R334). -/
inductive Right where
  | read | write | exec
deriving DecidableEq, Repr

def Right.ok : Right → Nat → Bool
  | .read, e => pteRD e
  | .write, e => pteW e
  | .exec, e => pteX e

/-- The translation of one address (R163 steps 3, 5 and 6). -/
inductive Xlat where
  | nonCanonical
  | miss
  | denied
  | ok (pa : Nat) (map : MapKind)
deriving DecidableEq, Repr

def translate (s : State) (g tag va : Nat) (r : Right) : Xlat :=
  if !canonical va then .nonCanonical
  else match tlbFind (s.core g) tag va (r == .write) with
    | none => .miss
    | some t => if r.ok t.entry.toNat then .ok (oldFrame s (t.pa va)) (entryMap t.entry.toNat) else .denied

/-- The translation of an address through the tables themselves, for an engine that does not use a core's buffer: the walk is made at once. -/
def translateNow (s : State) (tag va : Nat) (r : Right) : Option (Nat × MapKind) :=
  match s.ctx? tag with
  | none => none
  | some c =>
    if !canonical va then none
    else match walk s.mem c.desc.troot va with
      | .fault .. => none
      | .leaf e l _ => if r.ok e then some (oldFrame s (pteAddr e + va % levelSize l), entryMap e) else none

/-- The tables do not map an address: its walk ends in a page fault (R337). -/
def unmapped (s : State) (tag va : Nat) : Bool :=
  match s.ctx? tag with
  | none => false
  | some c => canonical va && match walk s.mem c.desc.troot va with
    | .fault .. => true
    | .leaf .. => false

/-- A translation walk begins (R335). -/
def startWalk (s : State) (who : Walker) (tag va : Nat) (write : Bool) (g : Nat) : Nat × State :=
  let (w, s) := s.fresh
  (w, { s with walks := s.walks.insert w ⟨who, tag, va, write, g, none, false⟩ })

/-- The walk of such an engine sets A, and D on a write, in the leaf it used (R333). -/
def markWalk (s : State) (tag va : Nat) (write : Bool) : State :=
  match s.ctx? tag with
  | none => s
  | some c =>
    match walk s.mem c.desc.troot va with
    | .leaf e _ ptr => writePhys s ((toBytes 8 (setAD e write)).mapIdx fun i b => (ptr + i, b))
    | .fault .. => s

/-! ### The directory objects (R149, R150) -/

/-- Whether a tracked object covers a byte. -/
def Shape.covers (h : Shape) (va : Nat) : Bool :=
  if h.tile then
    decide (h.base ≤ va) && decide ((va - h.base) / h.pitch < h.rows) && decide ((va - h.base) % h.pitch < h.rowBytes)
  else decide (h.base ≤ va) && decide (va < h.base + h.length)

/-- The object of an address: a tracked one, or the implicit object of its 64 KiB page (R149). -/
def objectOf (s : State) (tag va : Nat) : Nat :=
  let v := va % 2 ^ 57
  match (s.ctx? tag).bind fun c => c.shapes.find? fun h => h.covers v with
  | some h => 2 ^ 60 * (2 * tag + 1) + h.index
  | none => 2 ^ 60 * (2 * tag) + v / 65536

end Sys2Proof.Machine
end

