-- ==== Sys2Proof/Machine/Dram.lean ====
section
/-!
DEFINITION. What a read of DRAM leaves behind in the state: corrected symbols and the correction list (R346, R348), the activations of a bank's
rows (R347), the tracker's counts (R342), and what a request at the home of a line marks.
-/
namespace Sys2Proof.Machine

/-! ### Stacks, banks and rows (log 29) -/

/-- The stack of a physical address: an HBM4E stack, or the LPDDR6 of a die after those. -/
def stackOf (pa : Nat) : Nat := if region pa = 0 then bits pa 40 36 else 24 + homeDie pa

/-- The die of a stack. -/
def stackDie (d : Nat) : Nat := if d < 24 then d / 2 else d - 24

/-- The stack of a bank: banks are numbered by the model, 65,536 to a stack. -/
def bankStack (bank : Nat) : Nat := bank / 65536

def bankOf (pa : Nat) : Nat := 65536 * stackOf pa + (Config.bankRow pa).1 % 65536

def rowOf (pa : Nat) : Nat := (Config.bankRow pa).2

/-- A row's name in its stack's correction list. -/
def rowName (bank row : Nat) : Nat := bank % 65536 * 2 ^ 32 + row % 2 ^ 32

/-! ### The correction list (R346, R348) -/

/-- The rows of a list that have had a correction in the last 16 periods; with no period set none leaves. -/
def listedRows (k : Dram) (now : Nat) : List (Nat × Nat) :=
  k.list.filter fun e => k.period == 0 || decide (now < e.2 + 16 * (1750000 * k.period))

/-- A row enters the list; when the list is full, the entry whose last correction is oldest goes. -/
def enterRow (l : List (Nat × Nat)) (row now : Nat) : List (Nat × Nat) :=
  let l := l.filter fun e => e.1 ≠ row
  let l := if l.length < 1024 then l
    else match l.foldl (fun (best : Option (Nat × Nat)) e => match best with
      | none => some e
      | some b => if e.2 < b.2 then some e else best) none with
      | some b => l.filter fun e => e.1 ≠ b.1
      | none => l
  (row, now) :: l

/-- Symbols corrected in a row: they are counted for the stack, and the row is listed. -/
def Dram.correct (k : Dram) (row now n : Nat) : Dram :=
  { k with symbols := k.symbols + n, list := if n = 0 then listedRows k now else enterRow (listedRows k now) row now }

/-! ### Activations (R347) -/

def Bank.activate (b : Bank) (row : Nat) : Bank := { b with acts := b.acts.insert row (b.acts.getD row 0 + 1) }

/-- A row is due to be swapped: it has reached 2,048 activations, and is one of the 32 rows the bank has activated most. -/
def Bank.due (b : Bank) (row : Nat) : Bool :=
  let n := b.acts.getD row 0
  decide (2048 ≤ n) && decide ((b.acts.filter fun e => decide (n < e.2)).length < 32)

/-! ### Requests at the home (R342) -/

/-- What a request at the home of a line leaves behind. It marks an HBM4E frame touched. Where it misses in L2 it counts for its LPDDR6 page,
whose die is that of its first frame, and reads DRAM, which may activate a row and correct a symbol. Whether it does so is not the spec's to
say (log 2). -/
def noteHome (s : State) (pa : Nat) : State :=
  if 2 ≤ region pa then s
  else
    let (f, s) := s.freeValue
    let miss := f.testBit 0
    let page := pa / 65536
    let d := homeDie (65536 * page)
    let t := s.tracker d
    let t :=
      if region pa = 0 then { t with touched := if t.touched.contains page then t.touched else page :: t.touched }
      else { t with counts :=
        if miss && (decide (t.counts.length < 4096) || (t.counts.find? page).isSome) then t.counts.insert page (t.counts.getD page 0 + 1)
        else t.counts }
    let k := s.dram (stackOf pa)
    let b := s.bank (bankOf pa)
    { s with
      trackers := s.trackers.insert d t
      drams := if miss && f.testBit 1 then
          s.drams.insert (stackOf pa) (k.correct (rowName (bankOf pa) (rowOf pa)) s.now 1)
        else s.drams
      banks := if miss && f.testBit 2 then s.banks.insert (bankOf pa) (b.activate (rowOf pa)) else s.banks }

end Sys2Proof.Machine
end

