-- ==== Sys2Proof/Machine/Flit.lean ====
section
/-!
DEFINITION. Cletik packets (R356, R357): their flits, the send queue that waits for credit, the replay buffer.
-/
namespace Sys2Proof.Machine

/-- A link carries requests. -/
def Link.open (k : Link) : Bool := k.state == .up || k.state == .degraded

/-- Flits of a packet that carries `n` bytes. -/
def packetFlits (n : Nat) : Nat := 1 + ceilDiv n 60

/-- A flit: KIND, VC, SEQ, and the CRC over the rest. -/
def flitBits (kind vc seq payload : Nat) : Nat :=
  let x := payload % 2 ^ 480 * 2 ^ 32 + seq % 2 ^ 10 * 2 ^ 6 + vc % 4 * 2 ^ 4 + kind % 16
  x + Config.crc16 x % 2 ^ 16 * 2 ^ 16

/-- The flits of a packet without their place in the sequence, each as its KIND and, above it, its payload: a header whose layout the spec does not
give (log 2), then 60 bytes each. -/
def packetBody (header : Nat) (l : List Byte) : List Nat :=
  (1 + 16 * (header % 2 ^ 480)) :: (List.range (ceilDiv l.length 60)).map fun j => 2 + 16 * ofBytes ((l.drop (60 * j)).take 60)

/-- The other side has credit for a packet, which a response does not need, and the replay buffer has room. -/
def Link.fits (k : Link) (p : PortPacket) : Bool :=
  (p.vc == 1 || decide (k.used.getD p.vc 0 + p.flits.length ≤ 128)) && decide (k.buffer.length + p.flits.length ≤ 1024)

/-- A packet goes to the replay buffer, its flits numbered. -/
def Link.push (k : Link) (p : PortPacket) : Link :=
  { k with
    buffer := k.buffer ++ p.flits.mapIdx fun j x =>
      ⟨(k.txSeq + j) % 1024, flitBits (x % 16) p.vc (k.txSeq + j) (x / 16), if j = 0 then p.owner else none⟩
    txSeq := (k.txSeq + p.flits.length) % 1024
    used := k.used.insert p.vc (k.used.getD p.vc 0 + p.flits.length) }

/-- Packets that hold credit for all of their flits are sent; those of one channel keep their order. -/
def Link.pump (k : Link) : Link :=
  if !k.open then k
  else
    let (k', rest) := k.queue.foldl (fun (x : Link × List PortPacket) p =>
      if (x.2.any fun q => q.vc == p.vc) || !x.1.fits p then (x.1, x.2 ++ [p]) else (x.1.push p, x.2)) (k, [])
    { k' with queue := rest }

/-- A packet is handed to a port. -/
def sendPacket (s : State) (link vc : Nat) (owner : Option (Nat × Nat)) (l : List Byte) : State :=
  let (f, s) := s.freeValue
  s.updLink link fun k => Link.pump { k with queue := k.queue ++ [⟨vc, packetBody f l, owner⟩] }

/-- The port of a byte in a peer's memory. -/
def peerPort (pa : Nat) : Option Nat := if region pa = 4 then some (endLink pa) else none

/-- Every packet handed to the port of a byte has gone: the next request to that peer may follow. -/
def portFree (s : State) (pa : Nat) : Bool :=
  match peerPort pa with
  | some n => (s.link n).queue.isEmpty
  | none => true

/-- A request to a peer device: one packet with the bytes it carries; `owner` names the crew and address of a write. -/
def peerRequest (s : State) (vc pa : Nat) (owner : Option (Nat × Nat)) (l : List Byte) : State :=
  match peerPort pa with
  | some n => sendPacket s n vc owner l
  | none => s

end Sys2Proof.Machine
end

