-- ==== Sys2Proof/Machine/Packet.lean ====
section
/-!
DEFINITION. Base-delta-immediate blocks (R130, R131) and the packets in which lines cross the die mesh and the die links (R344).
-/
namespace Sys2Proof.Machine

/-- The base and delta widths of the delta codes, in bytes. -/
def bdiWidths : Nat → Option (Nat × Nat)
  | 3 => some (8, 1)
  | 4 => some (8, 2)
  | 5 => some (8, 4)
  | 6 => some (4, 1)
  | 7 => some (4, 2)
  | 8 => some (2, 1)
  | 9 => some (8, 3)
  | 10 => some (4, 3)
  | _ => none

/-- The size of a code's compressed bytes. -/
def bdiSize (c : Nat) : Nat :=
  match c with
  | 0 => 128
  | 1 => 0
  | 2 => 8
  | c =>
    match bdiWidths c with
    | some (bw, dw) => bw + 128 / bw * dw
    | none => 128

/-- Element `i` of `bw` bytes of a block, the block given as a number. -/
def bdiElem (x bw i : Nat) : Nat := x / 2 ^ (8 * bw * i) % 2 ^ (8 * bw)

/-- d[i] as a signed value. -/
def bdiDelta (x bw i : Nat) : Int := signed (8 * bw) (bdiElem x bw i + 2 ^ (8 * bw) - bdiElem x bw 0)

/-- Whether a code's condition holds. -/
def bdiOk (x c : Nat) : Bool :=
  match c with
  | 0 => true
  | 1 => x == 0
  | 2 => (List.range 16).all fun i => bdiElem x 8 i == bdiElem x 8 0
  | c =>
    match bdiWidths c with
    | some (bw, dw) => (List.range (128 / bw)).all fun i =>
        decide (-(2 ^ (8 * dw - 1) : Nat) ≤ bdiDelta x bw i) && decide (bdiDelta x bw i < (2 ^ (8 * dw - 1) : Nat))
    | none => false

/-- The compressed bytes of a code, as a number. -/
def bdiPack (x c : Nat) : Nat :=
  match c with
  | 0 => x
  | 1 => 0
  | 2 => bdiElem x 8 0
  | c =>
    match bdiWidths c with
    | some (bw, dw) => (List.range (128 / bw)).foldl (fun t i => t + wrap (8 * dw) (bdiDelta x bw i) * 2 ^ (8 * (bw + i * dw))) (bdiElem x bw 0)
    | none => 0

/-- The code of smallest size among those that hold. -/
def bdiBest (x : Nat) : Nat := ([1, 2, 3, 6, 4, 9, 8, 7, 5, 10, 0].find? (bdiOk x)).getD 0

/-- The 128 bytes a code and its compressed bytes stand for. -/
def bdiExpand (c x : Nat) : Nat :=
  match c with
  | 0 => x
  | 1 => 0
  | 2 => (List.range 16).foldl (fun t i => t + bdiElem x 8 0 * 2 ^ (64 * i)) 0
  | c =>
    match bdiWidths c with
    | some (bw, dw) => (List.range (128 / bw)).foldl (fun t i =>
        t + wrap (8 * bw) (bdiElem x bw 0 + signed (8 * dw) (x / 2 ^ (8 * (bw + i * dw)) % 2 ^ (8 * dw))) * 2 ^ (8 * bw * i)) 0
    | none => 0

/-! ### Line packets (R344) -/

/-- The request of a core for a line crosses the die mesh or a die link: its home slice is another cluster's. -/
def crossesMesh (g pa : Nat) : Bool := dieOf g != homeDie pa || clusterOf g % 24 != homeCluster pa

/-- Flits of a line's packet: the header, and 16 bytes each. -/
def lineFlits (code : Nat) : Nat := 1 + ceilDiv (bdiSize code) 16

/-- The packet a line is sent in: its code and its compressed bytes. -/
def linePacket (x : Nat) : Nat × Nat := (bdiBest x, bdiPack x (bdiBest x))

/-- The code of a packet as it is received: the one sent, or a reserved one. Whether and how a packet is spoilt is no party's choice (log 2). -/
def receivedCode (x f : Nat) : Nat := if f % 2 = 0 then (linePacket x).1 else 11 + f / 2 % 5

/-- A code that no packet has. -/
def reservedCode (c : Nat) : Bool := decide (11 ≤ c)

end Sys2Proof.Machine
end

