-- ==== Sys2Proof/Machine/Cache.lean ====
section
/-!
DEFINITION. The L1 of a core and its coherence (R139, R140, R150 to R153): bytes written under a mask, fills, drains, invalidations and the
directories. The L2 holds no value the home does not; it is time only (log 1).
-/
namespace Sys2Proof.Machine

/-- The 128-byte line of a physical address. -/
def lineOf (pa : Nat) : Nat := pa / 128

/-- An empty line of an object. -/
def L1Line.fresh (obj tag now : Nat) (low : Bool) : L1Line := ⟨[], [], false, now, obj, tag, [], low, []⟩

/-- The lines the L1 holds outside the scratch ways (R175): 128 lines a way. -/
def Core.l1Cap (k : Core) : Nat := 128 * (16 - max k.scratch.ways k.scratch.target)

/-- A sector of the line all of whose bytes the core has written. -/
def sectorDirty (dirty : List Nat) (k : Nat) : Bool := (List.range 32).all fun i => dirty.contains (32 * k + i)

/-- A line with a poisoned sector is delivered poisoned (R346). -/
def Memory.badLine (m : Memory) (n : Nat) : Bool := (List.range 4).any fun i => m.poisoned (128 * n + 32 * i)

/-! ### The directories (R150) -/

/-- The entries of a directory. -/
def dirCap (key : Nat) : Nat := if key < 288 then 1024 else if key < 300 then 16384 else 65536

/-- The directories above a core, with the holder that each records for it. -/
def dirPath (g : Nat) : List (Nat × Nat) := [(clusterOf g, g), (288 + dieOf g, clusterOf g), (300, dieOf g)]

/-- Whether a core lies below a directory. -/
def dirBelow (key g : Nat) : Bool := (dirPath g).any fun e => e.1 == key

def Memory.dir (m : Memory) (key : Nat) : List DirEntry := m.dirs.getD key []

/-- The package directory tracks an object. -/
def Memory.tracked (m : Memory) (obj : Nat) : Bool := (m.dir 300).any fun e => e.obj == obj

/-- The holders a directory records of an object. -/
def Memory.holders (m : Memory) (key obj : Nat) : List Nat := (((m.dir key).find? fun e => e.obj == obj).map (·.holders)).getD []

/-- An object is used by a holder: its entry is the most recent. -/
def Memory.touchDir (m : Memory) (key obj holder : Nat) : Memory :=
  let e : DirEntry := ⟨obj, holder :: (m.holders key obj).filter (· ≠ holder)⟩
  { m with dirs := m.dirs.insert key (e :: (m.dir key).filter fun x => x.obj != obj) }

/-- A holder has no line of an object left; an entry without a holder is free, and then so is what records who has written the object. -/
def leaveDirs (m : Memory) (obj : Nat) : List (Nat × Nat) → Memory
  | [] => { m with writers := m.writers.erase obj }
  | (key, holder) :: t =>
    match (m.holders key obj).filter (· ≠ holder) with
    | [] => leaveDirs { m with dirs := m.dirs.insert key ((m.dir key).filter fun e => e.obj != obj) } obj t
    | l => { m with dirs := m.dirs.insert key ((m.dir key).map fun e => if e.obj = obj then { e with holders := l } else e) }

/-- A core has written an object: its directory entry records when. -/
def noteWriter (m : Memory) (obj g now : Nat) : Memory :=
  { m with writers :=
    if m.tracked obj then m.writers.insert obj ((g, now) :: (m.writers.getD obj []).filter fun e => e.1 ≠ g) else m.writers }

/-! ### Requests that are lost (R351, R360) -/

/-- The link on which a request from a core is lost: the first of its path that is DOWN, else the last. -/
def lostLink (s : State) (g pa : Nat) : Nat := ((pathLinks g pa).find? fun n => (s.link n).state == .down).getD (endLink pa)

/-- A request that completes with an error is counted in LOST. -/
def countLost (s : State) (g pa : Nat) : State := s.updLink (lostLink s g pa) fun k => { k with lost := min (k.lost + 1) 65535 }

/-- A crew remembers the lowest address of its stores that were discarded. -/
def noteDiscard (s : State) (c va : Nat) : State :=
  s.updCrew c fun x => { x with req := { x.req with discard := some (min va (x.req.discard.getD va)) } }

/-! ### Lines leave -/

/-- A dirty line whose path is DOWN: what its crews wrote is discarded, counted as one request (R360). -/
def loseLine (s : State) (g n : Nat) (l : L1Line) : State :=
  let s := (l.dirty.filterMap l.wrote.find?).foldl (fun s e => noteDiscard s e.1 e.2) (countLost s g (128 * n))
  s.updCore g fun k => { k with l1 := k.l1.modify n fun x =>
    { x with bytes := x.bytes.filter fun e => !l.dirty.contains e.1, dirty := [], wrote := [], filled := false } }

/-- A dirty line of a core waits for a link that trains: no drain of the core ends before (R350). -/
def drainHeld (s : State) (g : Nat) : Bool := (s.core g).l1.any fun e => !e.2.dirty.isEmpty && pathHeld s g (128 * e.1)

/-- Writes the dirty bytes of a line back to its home (R150, R152). A packet that comes twice with a reserved code delivers the line poisoned
(R344). -/
def writeBack (s : State) (g n : Nat) : State :=
  match (s.core g).l1.find? n with
  | none => s
  | some l =>
    if l.dirty.isEmpty then s
    else if pathDown s g (128 * n) then loseLine s g n l
    else
      let cross := crossesMesh g (128 * n)
      let (f, s) := if cross then s.freeValue else (0, s)
      let s' := writePhys (noteHome s (128 * n)) (((List.range 128).filter l.dirty.contains).map fun i => (128 * n + i, l.bytes.getD i 0))
      let m := { s'.mem with
        poison := if cross && f % 4 == 3 then (((List.range 4).map (4 * n + ·)) ++ s'.mem.poison).eraseDups else s'.mem.poison }
      { s' with mem := noteWriter m l.obj g s.tick }.updCore g fun k =>
        { k with l1 := k.l1.modify n fun x => { x with dirty := [], wrote := [] } }

/-- The directories no longer record a core that holds no line of an object. -/
def untrack (s : State) (g obj : Nat) : State :=
  if (s.core g).l1.any fun e => e.2.obj == obj then s else { s with mem := leaveDirs s.mem obj (dirPath g) }

/-- Removes a line, its dirty bytes written back first. -/
def evictLine (s : State) (g n : Nat) : State :=
  match (s.core g).l1.find? n with
  | none => s
  | some l => untrack ((writeBack s g n).updCore g fun k => { k with l1 := k.l1.erase n }) g l.obj

/-- Every line that is dirty in a core's L1 is written back (R152 step 1). -/
def drainCore (s : State) (g : Nat) : State := ((s.core g).l1.keys).foldl (fun s n => writeBack s g n) s

/-- Invalidates lines of a core's L1; bytes it has itself written are written back first. -/
def invalidateLines (s : State) (g : Nat) (ns : List Nat) : State := ns.foldl (fun s n => evictLine s g n) s

/-- The lines of objects whose directory entry records a writer other than the core itself since the line was filled (R152 step 3). -/
def staleLines (s : State) (g : Nat) : List Nat :=
  SMap.keys ((s.core g).l1.filter fun e => (s.mem.writers.getD e.2.obj []).any fun w => w.1 ≠ g && decide (e.2.at_ ≤ w.2))

def invalidateStale (s : State) (g : Nat) : State := invalidateLines s g (staleLines s g)

/-- Every line of a range, in every L1, written back and invalidated (R336, R340). -/
def recallLines (s : State) (ns : Nat → Bool) : State :=
  s.cores.keys.foldl (fun s g => invalidateLines s g ((s.core g).l1.keys.filter ns)) s

/-- The lines of an object leave every L1 below a directory, dirty bytes going home. -/
def recallObject (s : State) (key obj : Nat) : State :=
  (s.cores.keys.filter (dirBelow key)).foldl (fun s g =>
    invalidateLines s g (SMap.keys ((s.core g).l1.filter fun e => e.2.obj == obj))) s

/-- A directory with no free entry recalls the object used least recently (R150). -/
def dirRoom (s : State) (key obj : Nat) : State :=
  if (s.mem.dir key).length < dirCap key || ((s.mem.dir key).any fun e => e.obj == obj) then s
  else match (s.mem.dir key).getLast? with
    | some e =>
      let s := recallObject s key e.obj
      { s with mem := { s.mem with dirs := s.mem.dirs.insert key ((s.mem.dir key).filter fun x => x.obj != e.obj) } }
    | none => s

/-- A core takes a line of an object: every directory above it tracks the object. -/
def trackObject (s : State) (g obj : Nat) : State :=
  (dirPath g).foldl (fun s e =>
    let s := dirRoom s e.1 obj
    { s with mem := s.mem.touchDir e.1 obj e.2 }) s

/-! ### Lines come -/

/-- The lines of which one may leave for another: those of lowest retention first (CH 1, R16), of those none that waits for a link. -/
def victims (s : State) (g : Nat) : List Nat :=
  let l1 := (s.core g).l1
  let l := match SMap.keys (l1.filter fun e => e.2.low) with
    | [] => l1.keys
    | l => l
  match l.filter fun n => !pathHeld s g (128 * n) with
  | [] => l
  | l => l

/-- Makes room for a line: when the L1 is full one line leaves; which one the spec does not say (log 2). -/
def makeRoom (s : State) (g : Nat) : State :=
  let k := s.core g
  if k.l1.length < k.l1Cap then s
  else
    let (x, s) := s.freeValue
    match (victims s g)[x % (victims s g).length]? with
    | none => s
    | some n => evictLine s g n

/-- A line is allocated, with no byte present. -/
def allocLine (s : State) (g n tag obj : Nat) (low : Bool) : State :=
  (trackObject (makeRoom s g) g obj).updCore g fun k => { k with l1 := k.l1.insert n (L1Line.fresh obj tag s.tick low) }

/-- Writes one byte into the L1 under the byte mask; an absent line is allocated without being fetched (R140). A sector whose 32 bytes are all
written is no longer poisoned (R346). `who` is the crew that wrote it, and its address. -/
def l1WriteByte (s : State) (g tag obj : Nat) (low : Bool) (who : Nat × Nat) (pa : Nat) (b : Byte) : State :=
  let n := lineOf pa
  let s := if ((s.core g).l1.find? n).isSome then s else allocLine s g n tag obj low
  { s with mem := noteWriter s.mem obj g s.tick }.updCore g fun k =>
    { k with l1 := k.l1.modify n fun l =>
      let dirty := if l.dirty.contains (pa % 128) then l.dirty else pa % 128 :: l.dirty
      { l with
        bytes := l.bytes.insert (pa % 128) b
        dirty := dirty
        poison := l.poison.filter (!sectorDirty dirty ·)
        wrote := l.wrote.insert (pa % 128) who } }

/-- A byte of the L1, if present. -/
def l1Byte? (s : State) (g pa : Nat) : Option Byte := ((s.core g).l1.find? (lineOf pa)).bind fun l => l.bytes.find? (pa % 128)

/-- The line comes from its home; bytes the core has written itself stay (R140, R150). A line whose packet was spoilt twice comes poisoned
(R344). -/
def fillLine (s : State) (g n tag obj : Nat) (low spoilt : Bool) : State :=
  let s := noteHome s (128 * n)
  let home := s.mem.readN (128 * n) 128
  let bad := if spoilt then List.range 4 else (List.range 4).filter fun i => s.mem.poisoned (128 * n + 32 * i)
  let s := if ((s.core g).l1.find? n).isSome then s else allocLine s g n tag obj low
  s.updCore g fun k => { k with l1 := k.l1.modify n fun l =>
    { l with
      bytes := ((List.range 128).zip home).map fun e => (e.1, if l.dirty.contains e.1 then l.bytes.getD e.1 0 else e.2)
      filled := true
      at_ := s.tick
      poison := (bad.filter fun k => !sectorDirty l.dirty k) ++ l.poison.filter fun k => !bad.contains k } }

/-! ### Stores of the package's own units (R325, R360) -/

/-- The writer that the directory records for the queue unit and the log: no core. -/
def unitWriter : Nat := 1152

/-- A write at the home, by a unit at core `g`; one that its path, or the other side of a host or peer path, refuses is discarded and counted,
and answered so. -/
def unitStore (s : State) (g tag va pa : Nat) (l : List Byte) : State × Bool :=
  let (f, s) := if region pa ≤ 1 then (0, s) else s.freeValue
  if pathDown s g pa || f.testBit 0 then (countLost s g pa, false)
  else
    let s := peerRequest s 0 pa none l
    let s := frameWrite (noteHome (markWalk s tag va true) pa) (l.mapIdx fun i b => (pa + i, b))
    ({ s with mem := noteWriter s.mem (objectOf s tag va) unitWriter s.tick }, true)

/-- The bytes a party that reads at the home sees, with the core's own dirty bytes over them. -/
def homeByte (s : State) (g pa : Nat) : Byte :=
  match (s.core g).l1.find? (lineOf pa) with
  | some l => if l.dirty.contains (pa % 128) then l.bytes.getD (pa % 128) 0 else s.mem.read pa
  | none => s.mem.read pa

end Sys2Proof.Machine
end

