-- ==== Sys2Proof/Machine/Image.lean ====
section
/-!
DEFINITION. The register image of a crew in memory (R82, R84, R92, R292): the bytes of its lines, writing a line back and fetching one.
-/
namespace Sys2Proof.Machine

/-- Bytes of an image (R82). -/
def imageBytes (nv : Nat) : Nat := 512 * nv + 55296

/-- The virtual address of a line of the crew's image (R292, R325). -/
def imageLineVa (s : State) (t : Seat) (line : Nat) : Nat :=
  match s.launch? t.launch with
  | none => 0
  | some l => l.info.rarea + t.image * imageBytes t.nv + 512 * line

/-- Adjacent fields of given widths, the first lowest. -/
def packFields : List (Nat × Nat) → Nat
  | [] => 0
  | (w, x) :: t => x % 2 ^ w + 2 ^ w * packFields t

/-- The register field of a register (R20): vector k is k, scalar k is 320 + k. -/
def regField (r : Bool × Nat) : Nat := if r.1 then r.2 else 320 + r.2

/-- The control line (R84). DESIGN CHOICE: LOOKC and TDEST of a tag that is not outstanding, and TDEST[14:13], for which the spec gives no
contents, are 0 (log 34). -/
def controlWord (x : Crew) : Nat :=
  let tag (k : Nat) : Option TagRec := x.tags.find? k
  let look (k : Nat) : Nat := ((tag k).map (·.look)).getD 0
  let dest (k : Nat) : Nat := match tag k with
    | some t => t.op.isNone.toNat * 2 ^ 15 + t.dst.length % 16 * 2 ^ 9 + ((t.dst.head?).map regField).getD 0
    | none => 0
  packFields (
    ((List.range 16).map fun k => (128, (x.rf.m.toList.getD k 0).toNat)) ++ [(128, x.ctl.em.toNat)] ++
    (x.ctl.nest.toList.map fun n => (8, n.toNat)) ++
    [(64, x.ctl.pc.toNat), (32, x.ctl.fpst.toNat), (16, x.ctl.sdepth), (8, 0), (1, x.ctl.hmode.toNat), (7, 0)] ++
    ((List.range' 1 7).map fun k => (4, look k)) ++ [(4, 0)] ++ (List.range' 1 7).map fun k => (16, dest k))

/-- An entry of the divergence stack (R92). -/
def DivEntry.word (e : DivEntry) : Nat :=
  packFields [(1, e.phase.toNat), (1, e.call.toNat), (62, e.pch.toNat), (64, e.rpc.toNat), (128, e.mask.toNat)]

def lanesBytes (v : Lanes) : List Byte := v.toList.flatMap fun w => toBytes 4 w.toNat

def bytesLanes (l : List Byte) : Lanes := Lanes.ofFn fun j => BitVec.ofNat 32 (ofBytes ((l.drop (4 * j)).take 4))

/-- The lines of the hold slot of a tag whose result is held: one for each of its registers (R82; log 34). -/
def holdLines (x : Crew) (k : Nat) : List Nat :=
  match x.tags.find? k with
  | some t => if t.op.isSome ∨ k = 0 then [] else (List.range (min 8 t.held.regs.length)).map (x.seat.nv + 52 + 8 * (k - 1) + ·)
  | none => []

/-- The register write that a line of a hold slot stands for: line `j` of the slot of tag `k` is the write number `j` of the result. -/
def heldWrite (x : Crew) (n : Nat) : Option RegWrite :=
  let j := n - (x.seat.nv + 52)
  if n < x.seat.nv + 52 then none else (x.tags.find? (j / 8 + 1)).bind fun t => t.held.regs[j % 8]?

/-- A held write takes its value from a line. -/
def RegWrite.withLine (l : List Byte) : RegWrite → RegWrite
  | .s k b _ => .s k b (BitVec.ofNat 64 (ofBytes (l.take 8)))
  | .v k b m _ => .v k b m (bytesLanes l)

/-- The bytes of a line as the crew holds it. A hold slot's layout is not stated (log 34). -/
def lineBytes (x : Crew) (n : Nat) : Option (List Byte) :=
  let nv := x.seat.nv
  if h : n < nv ∧ n < 320 then some (lanesBytes (x.rf.v.get ⟨n, h.2⟩))
  else if n < nv + 2 then some ((((x.rf.s.toList).drop (64 * (n - nv))).take 64).flatMap fun d => toBytes 8 d.toNat)
  else if n = nv + 2 then some (toBytes 512 (controlWord x))
  else if n < nv + 19 then
    some ((List.range 16).flatMap fun j => toBytes 32 (((x.ctl.stack.find? (16 * (n - nv - 3) + j)).map DivEntry.word).getD 0))
  else if h : n < nv + 51 ∧ nv + 19 ≤ n then some (lanesBytes (x.rf.bv.get ⟨n - (nv + 19), by omega⟩))
  else if n = nv + 51 then some ((x.rf.bs.toList.flatMap fun d => toBytes 8 d.toNat) ++ List.replicate 384 0)
  else (heldWrite x n).map fun w => match w with
    | .s _ _ d => toBytes 8 d.toNat ++ List.replicate 504 0
    | .v _ _ _ v => lanesBytes v

/-- A register line takes bytes; the control line and the stack are the hardware's own while the crew has its slot. -/
def putLine (x : Crew) (n : Nat) (l : List Byte) : Crew :=
  let nv := x.seat.nv
  let dword (j : Nat) : DWord := BitVec.ofNat 64 (ofBytes ((l.drop (8 * j)).take 8))
  if h : n < nv ∧ n < 320 then { x with rf := { x.rf with v := x.rf.v.set n (bytesLanes l) h.2 } }
  else if n < nv + 2 then
    { x with rf := { x.rf with s := x.rf.s.mapIdx fun j d => if j / 64 = n - nv then dword (j % 64) else d } }
  else if h : n < nv + 51 ∧ nv + 19 ≤ n then
    { x with rf := { x.rf with bv := x.rf.bv.set (n - (nv + 19)) (bytesLanes l) (by omega) } }
  else if n = nv + 51 then { x with rf := { x.rf with bs := x.rf.bs.mapIdx fun j _ => dword j } }
  else if n ≥ nv + 52 then
    { x with tags := x.tags.modify ((n - (nv + 52)) / 8 + 1) fun t =>
      { t with held := { t.held with regs := t.held.regs.mapIdx fun j w => if j = (n - (nv + 52)) % 8 then w.withLine l else w } } }
  else x

/-- A write of a line to a page that is not mapped waits for its walk (R337). -/
def lineWalk (s : State) (c n : Nat) : Bool := s.walks.any fun (e : Nat × Walk) => e.2.who == .line c n

/-- Writes a line of the crew to its image. -/
def saveLine (s : State) (c n : Nat) : State :=
  match s.crew? c with
  | none => s
  | some x =>
    let va := imageLineVa s x.seat n
    match lineBytes x n, translateNow s x.seat.tag va .write with
    | some l, some (pa, _) => frameWrite (markWalk s x.seat.tag va true) (l.mapIdx fun i b => (pa + i, b))
    | some _, none => if unmapped s x.seat.tag va && !lineWalk s c n then (startWalk s (.line c n) x.seat.tag va true x.seat.core).2 else s
    | none, _ => s

/-- Fetches a line of the crew from its image. -/
def loadLine (s : State) (c n : Nat) : State :=
  match s.crew? c with
  | none => s
  | some x =>
    match translateNow s x.seat.tag (imageLineVa s x.seat n) .read with
    | some (pa, _) =>
      (markWalk s x.seat.tag (imageLineVa s x.seat n) false).updCrew c fun x => putLine x n ((List.range 512).map fun i => frameByte s (pa + i))
    | none => s

/-- The result held under a tag is written to the crew's hold slot (R83, R91). -/
def saveHold (s : State) (c k : Nat) : State :=
  match s.crew? c with
  | none => s
  | some x => (holdLines x k).foldl (fun s n => saveLine s c n) s

/-- Where an entry of the divergence stack stands in the image (R82). -/
def stackVa (s : State) (t : Seat) (n : Nat) : Nat := imageLineVa s t (t.nv + 3) + 32 * n

/-- An entry leaves the top of the stack that hardware holds: it is spilled to the image (R92). -/
def spillEntry (s : State) (c n : Nat) : State :=
  match s.crew? c with
  | none => s
  | some x =>
    let va := stackVa s x.seat n
    match x.ctl.stack.find? n, translateNow s x.seat.tag va .write with
    | some e, some (pa, _) => frameWrite (markWalk s x.seat.tag va true) ((toBytes 32 e.word).mapIdx fun i b => (pa + i, b))
    | some _, none => saveLine s c (x.seat.nv + 3 + n / 16)
    | none, _ => s

/-- An entry of the stack from its word (R92). -/
def DivEntry.ofWord (x : Nat) : DivEntry where
  mask := BitVec.ofNat 128 (x / 2 ^ 128)
  rpc := BitVec.ofNat 64 (x / 2 ^ 64)
  pch := BitVec.ofNat 64 (x / 4 % 2 ^ 62)
  call := x.testBit 1
  phase := x.testBit 0

/-- A spilled entry is fetched back as the stack shrinks (R92); the page of one that is no longer mapped leaves it as hardware last held it
(log 34). -/
def fetchEntry (s : State) (c n : Nat) : State :=
  match s.crew? c with
  | none => s
  | some x =>
    let va := stackVa s x.seat n
    match translateNow s x.seat.tag va .read with
    | some (pa, _) =>
      let e := DivEntry.ofWord (ofBytes ((List.range 32).map fun i => frameByte s (pa + i)))
      (markWalk s x.seat.tag va false).updCrew c fun x => { x with ctl := { x.ctl with stack := x.ctl.stack.insert n e } }
    | none => s

/-- The part of the stack in the image follows a change of its depth by one from `n` (R92): entries 0 to SDEPTH - 33 stand there. -/
def stackGrew (s : State) (c n : Nat) : State := if n < 32 then s else spillEntry s c (n - 32)

def stackShrank (s : State) (c n : Nat) : State := if n < 33 then s else fetchEntry s c (n - 33)

/-- Pre-emption and trap entry write the control line and the top 32 entries of the stack to the image (R83, R90). -/
def saveControl (s : State) (c : Nat) : State :=
  match s.crew? c with
  | none => s
  | some x =>
    let nv := x.seat.nv
    let top := ((List.range x.ctl.sdepth).drop (x.ctl.sdepth - 32)).map fun e => nv + 3 + e / 16
    ((nv + 2) :: top.eraseDups).foldl (fun s n => saveLine s c n) s

/-- The line of the image that holds a vector register. -/
def vLine (t : Seat) (bank : Bool) (k : Nat) : Nat := if bank ∧ k < 32 then t.nv + 19 + k else k

/-- The line of the image that holds a scalar register. -/
def sLine (t : Seat) (bank : Bool) (k : Nat) : Nat := if bank ∧ k < 16 then t.nv + 51 else t.nv + k / 64

def hasLine (k : Core) (c n : Nat) : Bool := k.rc.any fun l => l.crew == c && l.line == n

/-- Lines written by a commit become dirty; a line that has left the register cache is written to the image. -/
def dirtyLineNos (s : State) (c : Nat) (ns : List Nat) : State :=
  match s.crew? c with
  | none => s
  | some x =>
    let g := x.seat.core
    let (here, gone) := ns.partition fun n => hasLine (s.core g) c n
    let s := gone.foldl (fun s n => saveLine s c n) s
    if here.isEmpty then s
    else s.updCore g fun k => { k with rc := k.rc.map fun r => if r.crew = c ∧ here.contains r.line then { r with dirty := true } else r }

/-- The lines of a list of register writes. -/
def writeLines (t : Seat) (l : List RegWrite) : List Nat :=
  (l.map fun w => match w with
    | .v k b _ _ => vLine t b k.val
    | .s k b _ => sLine t b k.val).eraseDups

/-- A committed write makes its line dirty. -/
def dirtyLines (s : State) (c : Nat) (l : List RegWrite) : State :=
  match s.crew? c with
  | none => s
  | some x => dirtyLineNos s c (writeLines x.seat l)

end Sys2Proof.Machine
end

