-- ==== Sys2Proof/Machine/BarOps.lean ====
section
/-!
DEFINITION. Operations in flight and barriers: completing an operation (R88, R89), the states of a barrier (R250) with what they do to a
bound array (R189), the release of waiters (R251, R252) and the words a barrier reports (R248, R255).
-/
namespace Sys2Proof.Machine

/-! ### Results -/

/-- A 64-bit result for a scalar destination; zero discards it. -/
def heldScalar (bank : Bool) (d : Reg) (x : DWord) : Held :=
  match d with
  | .s k => { regs := [.s k bank x] }
  | _ => {}

/-- The same for a destination that a form may lack. -/
def heldScalar? (bank : Bool) (d : Option Reg) (x : DWord) : Held :=
  match d with
  | some r => heldScalar bank r x
  | none => {}

/-- A result that completes while its crew is SUSPENDED, or under a tag that is deferred, waits in the hold slot of its tag (R83, R91). -/
def holdResult (s : State) (c k : Nat) : State :=
  match s.crew? c with
  | none => s
  | some x => if x.state = .suspended ∨ (x.tags.find? k).any (·.deferred) then saveHold s c k else s

/-- An operation completes: its result is held under its tag until it commits (R88); a crew that is DRAINING discards it (R78). -/
def finishOp (s : State) (o : Nat) (h : Held) : State :=
  match s.op? o with
  | none => s
  | some op =>
    holdResult ((s.dropOp o).updCrew op.crew fun c =>
      if c.state = .draining then { c with tags := c.tags.erase op.tag }
      else { c with tags := c.tags.modify op.tag fun t => if t.op = some o then { t with op := none, held := h } else t }) op.crew op.tag

/-- Whether an operation is still in flight. -/
def opLive (s : State) (o : Nat) : Bool := (s.op? o).isSome

/-! ### Barrier words -/

def BarState.code : BarState → Nat
  | .idle => 0 | .armed => 1 | .complete => 2 | .abandoned => 3 | .error => 4

/-- The status word (R248). -/
def statusWord (b : Bar) (name : Nat) : Nat :=
  b.phase % 2 ^ 16 * 2 ^ 48 + b.pend % 2 ^ 28 * 2 ^ 20 + b.ecode % 16 * 2 ^ 16 + b.state.code * 2 ^ 13 + b.kind % 4 * 2 ^ 11 +
    name % 2 ^ 11

/-- The status word with a state and an error code of its own: a wait ended by BARX or by a kill (R250, R258). -/
def endedWord (b : Bar) (name state ecode : Nat) : Nat :=
  b.phase % 2 ^ 16 * 2 ^ 48 + b.pend % 2 ^ 28 * 2 ^ 20 + ecode * 2 ^ 16 + state * 2 ^ 13 + b.kind % 4 * 2 ^ 11 + name % 2 ^ 11

/-- The configuration word (R255). -/
def configWord (b : Bar) (name : Nat) : Nat :=
  b.phase % 2 ^ 16 * 2 ^ 48 + b.init % 2 ^ 28 * 2 ^ 20 + b.auto.toNat * 2 ^ 19 + b.arr.isSome.toNat * 2 ^ 18 +
    b.arr.getD 0 % 32 * 2 ^ 13 + b.kind % 4 * 2 ^ 11 + name % 2 ^ 11

/-! ### Waiters -/

/-- R251: a wait that expects phase `p` is released. -/
def Bar.releases (b : Bar) (p : Nat) : Bool := b.state != .armed || b.phase % 2 ^ 16 != p % 2 ^ 16

/-- A waiting operation receives its status word; a completed wait acquires (R252, R257): the drains of a cluster barrier's release set,
and the lines of the records that completed the phase. -/
def releaseWait (s : State) (o status : Nat) (b : Bar) : State :=
  match s.op? o with
  | some ⟨c, t, k, em, .barWait r dst acq _ _ _⟩ =>
    s.setOp o ⟨c, t, k, em, .barWait r dst (acq || b.kind == 3) (some status) (if b.kind = 3 then (b.rel ++ b.lastRel).eraseDups else []) b.lastRanges⟩
  | _ => s

/-- The wait records of a core's chains on a barrier that `go` releases: each sees a STATE, and for a cluster barrier has cores to drain. -/
def wakeChains (s : State) (g n state : Nat) (b : Bar) (go : Nat → Bool) : State :=
  let see (w : ChainWait) : ChainWait :=
    if w.bar = n ∧ w.got.isNone ∧ go w.phase then
      { w with got := some state, drains := if b.kind = 3 then (b.rel ++ b.lastRel).eraseDups else [] }
    else w
  if (s.core g).chains.isEmpty then s
  else s.updCore g fun k => { k with chains := k.chains.map fun e => (e.1, { e.2 with wait := e.2.wait.map see }) }

/-- Releases every waiter whose wait R251 ends; each receives the status as it stands. -/
def wakeWaiters (s : State) (g n : Nat) : State :=
  let b := s.bar g n
  let s := wakeChains s g n b.state.code b b.releases
  let (go, stay) := b.waits.partition fun w => b.releases w.2
  let s := s.updBar g n fun b => { b with waits := stay }
  go.foldl (fun s w =>
    match s.op? w.1 with
    | some ⟨_, _, _, _, .barWait r _ _ _ _ _⟩ => releaseWait s w.1 (statusWord b r.name) b
    | _ => s) s

/-- Releases every waiter with STATE 3 and an error code (R250 BARX). -/
def dismissWaiters (s : State) (g n ecode : Nat) : State :=
  let b := s.bar g n
  let s := wakeChains (s.updBar g n fun b => { b with waits := [] }) g n 3 b fun _ => true
  b.waits.foldl (fun s w =>
    match s.op? w.1 with
    | some ⟨_, _, _, _, .barWait r _ _ _ _ _⟩ => releaseWait s w.1 (endedWord b r.name 3 ecode) b
    | _ => s) s

/-! ### The bound array (R189) -/

/-- The reef barrier completes: the array enters SETTLING and the binding is dropped. -/
def reefDone (s : State) (g a : Nat) : State := s.updArr g a fun x => { x with state := .settling, bar := none }

/-- The binding is dropped and the array returns to STORAGE; the ARMODE tag completes. -/
def reefDropped (s : State) (g a : Nat) : State :=
  let o := (s.arr g a).op
  let s := s.updArr g a fun x => { x with state := .storage, bar := none, op := none, pb := 0 }
  match o with
  | none => s
  | some o => finishOp s o {}

/-- What the end of a phase does to the array bound to a reef barrier. -/
def barArray (s : State) (g n : Nat) (ok : Bool) : State :=
  match (s.bar g n).arr with
  | none => s
  | some a => (if ok then reefDone s g a else reefDropped s g a).updBar g n fun b => { b with arr := none }

/-! ### Transitions (R250) -/

/-- A phase ends: the release set is cleared (R257), and its cores stay due to an acquire that finds the phase complete (R148, R152). The lines
counted in it join those of earlier phases, which a wait for an older phase acquires too (R252). -/
def Bar.nextPhase (b : Bar) : Bar :=
  { b with
    phase := (b.phase + 1) % 2 ^ 16
    lastRanges := (b.ranges ++ b.lastRanges).eraseDups
    ranges := []
    lastRel := (b.rel ++ b.lastRel).eraseDups
    rel := [] }

/-- An arrival of count `c`. -/
def arrive (s : State) (g n c : Nat) : State :=
  let b := s.bar g n
  if c = 0 then s
  else match b.state with
    | .armed =>
      if c < b.pend then s.updBar g n fun b => { b with pend := b.pend - c }
      else
        let more := decide (b.pend < c)
        let ok := !more && !b.err
        let s := s.updBar g n fun b =>
          let b := b.nextPhase
          if ok && b.auto then { b with pend := b.init }
          else if ok then { b with state := .complete, pend := 0 }
          else { b with state := .error, pend := 0, ecode := if more && b.ecode = 0 then 6 else b.ecode }
        wakeWaiters (barArray s g n ok) g n
    | .idle | .complete => s.updBar g n fun b => { b with state := .error, ecode := if b.ecode = 0 then 6 else b.ecode }
    | .abandoned | .error => s

/-- A record that counts on an ARMED barrier fails or stops (R265). -/
def barError (s : State) (g n ecode : Nat) : State :=
  if (s.bar g n).state = .armed then
    s.updBar g n fun b => { b with err := true, ecode := if b.ecode = 0 then ecode else b.ecode }
  else s

/-- BARI on a barrier that is not ARMED. -/
def barInit (s : State) (g n kind : Nat) (auto : Bool) (c : Nat) : State :=
  s.updBar g n fun b =>
    let b := { b with kind := kind, auto := auto, ranges := [], lastRanges := (b.ranges ++ b.lastRanges).eraseDups }
    if c ≠ 0 then { b with state := .armed, init := c, pend := c, err := false, ecode := 0 }
    else if auto then { b.nextPhase with state := .error, init := 0, pend := 0, ecode := if b.ecode = 0 then 6 else b.ecode }
    else { b.nextPhase with state := .complete, init := 0, pend := 0 }

/-- Kill under R258: an ARMED barrier becomes ABANDONED. -/
def abandon (s : State) (g n : Nat) : State :=
  if (s.bar g n).state = .armed then
    let s := s.updBar g n fun b => { b with state := .abandoned, ecode := if b.ecode = 0 then 9 else b.ecode }
    wakeWaiters (barArray s g n false) g n
  else s

/-- BARX. -/
def retire (s : State) (g n : Nat) : State :=
  if (s.bar g n).state = .idle then s
  else
    let s := dismissWaiters s g n 10
    (barArray s g n false).updBar g n fun b => { b with state := .idle }

end Sys2Proof.Machine
end

