-- ==== Sys2Proof/Machine/Ops.lean ====
section
/-!
DEFINITION. What every instruction shares: the scheduler's sets (R76, R86), kills and their log (R258, R288, R321, R325), the scoreboard
(R88 to R91), taking a trap and returning from one (R90, R312, R315), and the order of tests at issue (R28, R29, R318).
-/
namespace Sys2Proof.Machine

/-! ### The sets of a scheduler (R76, R86) -/

/-- The crew leaves the active set and the promotion queue. -/
def leaveSets (s : State) (c : Nat) : State :=
  match s.crew? c with
  | none => s
  | some x => s.updSched x.seat.core x.seat.sched fun d =>
      { d with
        active := d.active.filter (· ≠ c)
        queue := d.queue.filter (· ≠ c)
        headAt := if d.queue.head? = some c then s.coreCycle x.seat.core else d.headAt }

/-- READY: the crew stands at the tail of the promotion queue. -/
def toReady (s : State) (c : Nat) : State :=
  match s.crew? c with
  | none => s
  | some x =>
    ((leaveSets s c).updCrew c fun x => { x with state := .ready, wait := .none }).updSched x.seat.core x.seat.sched fun d =>
      { d with queue := d.queue ++ [c], headAt := if d.queue.isEmpty then s.coreCycle x.seat.core else d.headAt }

/-- Crews by scheduler and slot: the order in which those of one step enter their promotion queues (R76). -/
def bySlot (s : State) (l : List Nat) : List Nat :=
  let key (c : Nat) : Nat := ((s.crew? c).map fun x => 128 * x.seat.core + 32 * x.seat.sched + x.seat.slot).getD 0
  l.mergeSort fun a b => decide (key a ≤ key b)

/-- WAITING: the crew leaves the active set at once. -/
def toWaiting (s : State) (c : Nat) (w : Wait) : State :=
  (leaveSets s c).updCrew c fun x => { x with state := .waiting, wait := w }

/-- The crew waits for the walks of the pages its instruction misses. -/
def toWalks (s : State) (c : Nat) (l : List (Nat × Mask)) (write : Bool) : State :=
  match s.crew? c with
  | none => s
  | some x =>
    let (ws, s) := l.foldl (fun (ws, s) e =>
      let (w, s) := startWalk s (.crew c e.2) x.seat.tag e.1 write x.seat.core
      (ws ++ [w], s)) (([] : List Nat), s)
    toWaiting s c (.walks ws)

/-- DRAINING: the crew issues nothing more; results that are held are discarded (R78). -/
def toDraining (s : State) (c : Nat) : State :=
  (leaveSets s c).updCrew c fun x =>
    { x with state := .draining, wait := .none, tags := x.tags.filter fun t => t.2.op.isSome }

/-! ### The log and kills (R258, R288, R321, R325) -/

/-- CPOS (R316). -/
def Seat.cpos (t : Seat) : Nat :=
  t.core % 4 + t.core / 4 % 24 * 2 ^ 2 + t.core / 96 * 2 ^ 7 + t.sched % 4 * 2 ^ 11 + t.slot % 32 * 2 ^ 13

/-- The core that CPOS names. -/
def posCore (pos : Nat) : Nat := bits pos 1 0 + 4 * bits pos 6 2 + 96 * bits pos 10 7

/-- One log entry of a context, a store at SYSTEM scope, and its kill report (R325, R353). -/
def writeLog (s : State) (tag : Nat) (why : KillWhy) (pos : Nat) : State :=
  match s.ctx? tag with
  | none => s
  | some x =>
    let low := why.kind % 256 * 2 ^ 56 + why.cause % 256 * 2 ^ 48 + tag % 256 * 2 ^ 40 + pos % 2 ^ 18 * 2 ^ 22 + x.logSeq % 2 ^ 22
    let va := x.desc.loga + 16 * (x.logSeq % 64)
    let (s, ok) := match translateNow s tag va .write with
      | some (pa, _) => unitStore s (posCore pos) tag va pa (toBytes 16 (why.loc % 2 ^ 64 * 2 ^ 64 + low))
      | none => (s, false)
    emit (s.updCtx tag fun x => { x with logSeq := x.logSeq + 1 }) ⟨low, 1, tag, if ok then 0 else 1⟩

/-- Whether a context's resources are released to others (R310). -/
def swappedOut (s : State) (tag : Nat) : Bool := (s.ctx? tag).any (·.out)

/-- The barriers a group holds, by physical number, that are not as reset leaves them. -/
def groupBars (s : State) (g : Group) : List Nat :=
  if swappedOut s g.tag then []
  else (s.core g.core).bars.keys.filter fun n => decide (g.bar0 ≤ n) && decide (n < g.bar0 + g.nbar)

/-- R258: a crew of the group has been killed. -/
def abandonGroup (s : State) (gi : Nat) : State :=
  match s.group? gi with
  | none => s
  | some g =>
    let s := (groupBars s g).foldl (fun s n => abandon s g.core n) s
    match s.convoy? g.convoy with
    | none => s
    | some v => v.groups.foldl (fun s hi =>
        match s.group? hi with
        | none => s
        | some h => (groupBars s h).foldl (fun s n => if (s.bar h.core n).kind = 3 then abandon s h.core n else s) s) s

/-- The chains a group started stop at their next pass boundary (R279). -/
def stopChains (s : State) (gi ecode : Nat) : State :=
  match s.group? gi with
  | none => s
  | some g => (s.core g.core).chains.foldl (fun s e =>
      if e.2.group = gi then s.updChain g.core e.1 fun k => { k with stop := k.stop <|> some ecode, state := .stopping } else s) s

/-- The crew's own outstanding barrier instructions complete with STATE 3 and ECODE 9 (R258). -/
def endBarrierOps (s : State) (c : Nat) : State :=
  s.ops.foldl (fun s e =>
    if e.2.crew ≠ c then s
    else match e.2.kind with
      | .barWait r dst _ _ _ _ =>
        let b := s.bar r.core r.phys
        let s := s.updBar r.core r.phys fun b => { b with waits := b.waits.filter fun w => w.1 ≠ e.1 }
        finishOp s e.1 (heldScalar? e.2.bank dst (BitVec.ofNat 64 (endedWord b r.name 3 9)))
      | .barArrive r _ dst _ _ =>
        finishOp s e.1 (heldScalar? e.2.bank dst (BitVec.ofNat 64 (endedWord (s.bar r.core r.phys) r.name 3 9)))
      | _ => s) s

/-- A kill (R321): EXIT at the crew's next issue slot. A WAITING crew is released and takes it next; one that has issued nothing, or that is
SUSPENDED, drains at once (R76). `log` is false for a crew that goes with its context. -/
def killCrew (s : State) (c : Nat) (why : KillWhy) (relaunch log : Bool) : State :=
  match s.crew? c with
  | none => s
  | some x =>
    if x.req.kill.isSome || x.state = .draining then s
    else
      let s := if log then writeLog s x.seat.tag why x.seat.cpos else s
      let s := s.updCrew c fun x => { x with req := { x.req with kill := some why, relaunch := relaunch } }
      let s := endBarrierOps s c
      let s := abandonGroup s x.seat.group
      let s := stopChains s x.seat.group 9
      let s := s.updGroup x.seat.group fun g =>
        { g with
          state := if g.state = .resident then .broken else g.state
          broke := true
          relaunch := g.relaunch && relaunch }
      match x.state with
      | .starting | .suspended => toDraining s c
      | .waiting => toReady s c
      | _ => s

/-- Groups become DOOMED (R288). -/
def doomGroups (s : State) (p : Group → Bool) : State :=
  let doom (g : Group) : Group := if p g && g.state != .closing then { g with state := .doomed, broke := true, relaunch := false } else g
  { s with groups := s.groups.map fun (e : Nat × Group) => (e.1, doom e.2) }

/-- Operations of crews of a swapped context whose array or ladle context it no longer holds complete with nothing. -/
def endSwappedOps (s : State) (mine : Crew → Bool) : State :=
  s.ops.foldl (fun s e =>
    match e.2.kind with
    | .armode .. | .chainStart .. | .chainStop .. => if (s.crew? e.2.crew).any mine then finishOp s e.1 {} else s
    | _ => s) s

/-- A context goes to KILLING (R310): EXIT for every crew, its chains stopped, its saved state discarded; it logs once, when it is DEAD. A RESTORING
context is not killed: R310 lists no such event. -/
def killContext (s : State) (tag : Nat) (why : KillWhy) : State :=
  match s.ctx? tag with
  | none => s
  | some x =>
    if x.state = .killing ∨ x.state = .dead ∨ x.state = .restoring then s
    else
      let s := s.updCtx tag fun x => { x with state := .killing, why := some why, saved := [] }
      let s := doomGroups s fun g => g.tag == tag
      let s := s.groups.foldl (fun s e => if e.2.tag = tag then stopChains s e.1 9 else s) s
      let s := if x.out then endSwappedOps s fun x => x.seat.tag == tag else s
      (bySlot s ((s.crews.filter fun e => e.2.seat.tag == tag).map (·.1))).foldl (fun s c => killCrew s c why false false) s

/-! ### Commit (R88, R216, R239, R240) -/

/-- The registers of a register tile's two runs (R212, R213). -/
def Tile.runRegs (t : Tile) : List Nat :=
  List.range' t.base (ceilDiv (t.rows * t.pitch) 512) ++ List.range' t.csum (ceilDiv (t.rows + t.cols) 128)

/-- R216: writes of vector registers make the crew's register tiles STALE, but for the tile that is exempt. -/
def staleTiles (s : State) (c : Nat) (regs : List Nat) (exempt : Option Nat) : State :=
  match s.crew? c with
  | none => s
  | some x => s.updCore x.seat.core fun k =>
      { k with tiles := k.tiles.map fun e =>
        if e.2.space = 2 ∧ e.2.crew = some c ∧ exempt ≠ some e.1 ∧ (e.2.state = .valid ∨ e.2.state = .suspect) ∧
            (e.2.runRegs.any fun r => regs.contains r) then (e.1, { e.2 with state := .stale }) else e }

/-- The crew's own vector registers that a list of writes names. -/
def ownVregs (l : List RegWrite) : List Nat :=
  l.filterMap fun w => match w with
    | .v k b _ _ => if b && decide (k.val < 32) then none else some k.val
    | .s .. => none

/-- The row and column checksums of the FP32 accumulator that starts at register `d` (R74, R240). -/
def accChecksums (c : Crew) (d : Nat) : List Nat :=
  let e (m n : Nat) : Nat := (((if h : d + m / 2 < 320 then c.rf.v.get ⟨d + m / 2, h⟩ else Lanes.zero).get (64 * (m % 2) + n))).toNat
  (List.range 16).map (fun m => wrap32 ((List.range 64).map (e m)).sum) ++
    (List.range 64).map (fun n => wrap32 ((List.range 16).map fun m => e m n).sum)

/-- Rewrites a register tile's checksum run. -/
def putRegChecksums (c : Crew) (csum : Nat) (l : List Nat) : Crew :=
  (List.range (ceilDiv l.length 128)).foldl (fun c j =>
    if h : csum + j < 320 then
      let old := c.rf.v.get ⟨csum + j, h⟩
      let new := Lanes.ofFn fun i => match l[128 * j + i]? with
        | some x => BitVec.ofNat 32 x
        | none => old.get i
      { c with rf := { c.rf with v := c.rf.v.set (csum + j) new } }
    else c) c

def TileState.ofCode : Nat → TileState
  | 1 => .valid | 2 => .stale | 3 => .suspect | _ => .bad

/-- DTILE at commit (R240): its checksum run is rewritten from the accumulator, and it takes its state. -/
def commitDtile (s : State) (c i code : Nat) : State :=
  match s.crew? c with
  | none => s
  | some x =>
    match s.tile? x.seat.core i with
    | none => s
    | some t =>
      let s := s.updCrew c fun x => putRegChecksums x t.csum (accChecksums x t.base)
      let s := dirtyLineNos s c (List.range' t.csum (ceilDiv (t.rows + t.cols) 128))
      s.updTile x.seat.core i fun t => { t with state := TileState.ofCode code }

/-- A tile entry takes a state, and counts corrections (R221). -/
def takeTileState (s : State) (g i : Nat) (st : TileState) (ncor : Nat) : State :=
  s.updTile g i fun t => { t with state := st, ncor := min 255 (t.ncor + ncor) }

/-- Commits one tag: its result is written, its flags are ored in, and a matrix instruction's end takes effect. A fault found after issue
(R239) leaves D and DTILE unwritten and is answered. -/
def commitTag (s : State) (c k : Nat) : State × Option Trap :=
  match s.crew? c with
  | none => (s, none)
  | some x =>
    match x.tags.find? k with
    | none => (s, none)
    | some t =>
      let s := s.updCrew c fun x => { x with tags := x.tags.erase k }
      let s := match t.held.mat with
        | some m => s.updCrew c fun x => { x with ctl := { x.ctl with mxst := m.mxst } }
        | none => s
      match t.held.mat.bind (·.fault) with
      | some f => (s, some f)
      | none =>
        let s := s.updCrew c fun x =>
          { t.held.regs.foldl Crew.put x with ctl := { x.ctl with fpst := x.ctl.fpst ||| t.held.fp } }
        let s := dirtyLines s c t.held.regs
        let dt := t.held.mat.bind (·.dtile)
        let s := staleTiles s c (ownVregs t.held.regs) (dt.map (·.1) <|> t.held.tile.map (·.1))
        match dt with
        | some (i, code) => (commitDtile s c i code, none)
        | none =>
          match t.held.tile with
          | some (i, some (st, n)) => (takeTileState s x.seat.core i st n, none)
          | _ => (s, none)

/-- Commits tags in ascending order; the first fault found is answered. -/
def commitTags (s : State) (c : Nat) : List Nat → State × Option Trap
  | [] => (s, none)
  | k :: t =>
    let (s, f) := commitTag s c k
    let (s, f') := commitTags s c t
    (s, f <|> f')

/-! ### Taking a trap (R90, R91, R312) -/

/-- R91: an operation whose tag is deferred at trap entry. -/
def defers (s : State) (o : Nat) : Bool :=
  match s.op? o with
  | some ⟨_, _, _, _, .barWait _ _ _ status _ _⟩ => status.isNone
  | some ⟨_, _, _, _, .barArrive _ _ _ wait _⟩ => wait
  | some ⟨_, _, _, _, .armode g a⟩ => (s.arr g a).state == .reefing
  | _ => false

/-- The tags trap entry must commit, and of those the operations still in flight. -/
def entryTags (s : State) (x : Crew) : List Nat × List Nat :=
  let ts := x.tags.filter fun t => !(t.2.op.any (defers s))
  (SMap.keys ts, ts.filterMap fun t => t.2.op)

/-- The context's trap handler; 0 for none. -/
def tvec (s : State) (tag : Nat) : DWord := ((s.ctx? tag).map (·.desc.tvec)).getD 0

/-- What a trap leaves in the trap registers (R312). -/
def Crew.trapped (x : Crew) (t : Trap) (pc : DWord) : Crew :=
  { x with tr := ⟨pc, BitVec.ofNat 8 t.cause, t.lanes, t.addr, x.ctl.em, x.ctl.sdepth⟩ }

/-- Trap entry, once every tag it must commit is complete (R90, R312): the failed result of a matrix instruction among them is discarded, and
this cause keeps the trap (R239). -/
def enterHandler (s : State) (c : Nat) (t : Trap) (pc : DWord) : State :=
  match s.crew? c with
  | none => s
  | some x =>
    let (s, _) := commitTags s c (entryTags s x).1
    let s := saveControl s c
    s.updCrew c fun y =>
      { y with
        tags := y.tags.map fun e => (e.1, { e.2 with deferred := true })
        req := { y.req with trap := none }
        stamps := { y.stamps with handler := s.coreCycle x.seat.core }
        tr := (y.trapped t pc).tr
        ctl := { y.ctl with hmode := true, em := BitVec.allOnes 128, pc := tvec s x.seat.tag } }

/-- TAKING A TRAP (R312), raised by the instruction at `pc`. With TVEC 0 the trap registers take the trap and the crew is killed; in a handler
it is killed and they keep the first trap's (log 66). Otherwise trap entry follows once every tag that R91 does not defer is complete. -/
def takeTrap (s : State) (c : Nat) (t : Trap) (pc : DWord) : State :=
  match s.crew? c with
  | none => s
  | some x =>
    if x.ctl.hmode then killCrew s c ⟨3, t.cause, pc.toNat⟩ false true
    else if tvec s x.seat.tag = 0 then killCrew (s.updCrew c fun x => x.trapped t pc) c ⟨4, t.cause, pc.toNat⟩ false true
    else
      match (entryTags s x).2 with
      | [] => enterHandler s c t pc
      | l => toWaiting (s.updCrew c fun x => { x with req := { x.req with trap := some (t, pc) } }) c (.ops l)

/-- THE RETURN FROM A TRAP (R315): SDEPTH and em as they were at entry, the crew's own registers again, deferred tags back under R88. Where the
crew goes on past the instruction that trapped, that instruction counts toward their LOOK as an instruction of the crew (log 68). -/
def returnFromTrap (x : Crew) (target : DWord) : Crew :=
  let past : Nat := if target = x.tr.tpc then 0 else 1
  { x with
    tags := x.tags.map fun e => (e.1, { e.2 with deferred := false, look := if e.2.deferred then e.2.look - past else e.2.look })
    ctl := { x.ctl with hmode := false, em := x.tr.tem, sdepth := x.tr.tsd, pc := target } }

/-! ### The boundary between instructions (R83, R318) -/

/-- Pre-emption takes effect: the top of the stack, the control line and the results that are held are written to the image, and every line of
the crew becomes evictable (R83). -/
def suspendCrew (s : State) (c : Nat) : State :=
  match s.crew? c with
  | none => s
  | some x =>
    let s := (SMap.keys x.tags).foldl (fun s k => saveHold s c k) (saveControl s c)
    ((leaveSets s c).updCrew c fun x =>
      { x with state := .suspended, req := { x.req with pre := false }, stamps := { x.stamps with suspended := s.coreCycle x.seat.core } }).updCore
        x.seat.core
        fun k => { k with rc := k.rc.map fun l => if l.crew = c then { l with evict := true } else l }

/-- The PREDIS budget has run out (R317). -/
def Crew.overdue (x : Crew) (now : Nat) : Bool := x.req.budget || x.ctl.pdrem.any fun e => decide (e ≤ now)

/-- The cycle of the crew's die. -/
def Crew.cycle (x : Crew) (s : State) : Nat := s.coreCycle x.seat.core

/-- The events of one boundary that come before the instruction (R318): a kill, a pre-emption that is not held off, a trap that waited for
its tags, the end of a PREDIS budget (R317). -/
def boundary (s : State) (c : Nat) : Option State :=
  match s.crew? c with
  | none => none
  | some x =>
    if x.req.kill.isSome then some (toDraining s c)
    else if x.req.pre && x.ctl.pdrem.isNone && !x.req.budget then some (suspendCrew s c)
    else match x.tags.find? 0 with
      | some ⟨some o, _, _, _, false⟩ => some (toWaiting s c (.ops [o]))
      | _ =>
        match x.req.trap with
        | some (t, pc) => some (takeTrap (s.updCrew c fun x => { x with req := { x.req with trap := none } }) c t pc)
        | none =>
          if let some (lanes, va) := x.req.declined then
            some (takeTrap (s.updCrew c fun x => { x with req := { x.req with declined := none } }) c ⟨0x03, lanes, BitVec.ofNat 64 va⟩ x.ctl.pc)
          else if x.overdue (x.cycle s) then
            some (takeTrap (s.updCrew c fun x => { x with req := { x.req with budget := false }, ctl := { x.ctl with pdrem := none } }) c
              ⟨0x10, x.ctl.em, x.ctl.pdpc⟩ x.ctl.pc)
          else none

/-! ### Register-cache lines (R82) -/

/-- The control line. -/
def controlLine (t : Seat) : Nat := t.nv + 2

/-- The lines operands need. -/
def operandLines (t : Seat) (bank : Bool) (l : List Operand) : List Nat :=
  ((l.flatMap fun o => o.vregs.map (vLine t bank) ++ o.sregs.map (sLine t bank))).eraseDups

/-- A use of lines makes them the most recent; a written line is dirty. A clean line whose checksum fails is fetched again and counted. -/
def touchLines (s : State) (g c : Nat) (used dirty : List Nat) : State :=
  let mine (l : RcLine) : Bool := l.crew == c && used.contains l.line
  let k := s.core g
  let hit := k.rc.filter mine
  let again := (hit.filter fun l => !l.flip.isEmpty && !l.dirty).map (·.line)
  let s := again.foldl (fun s n => loadLine s c n) s
  let hit := hit.map fun l =>
    { l with flip := if l.dirty then l.flip else [], dirty := l.dirty || dirty.contains l.line, evict := false }
  let s := s.updCore g fun k => { k with rc := k.rc.filter (fun l => !mine l) ++ hit }
  if again.isEmpty then s else s.updCtr g fun n => { n with rccor := sat32 (n.rccor + again.length) }

/-- The used lines that are dirty and fail their checksum (R82, R323). -/
def badLines (k : Core) (c : Nat) (used : List Nat) : List Nat :=
  (k.rc.filter fun l => l.crew == c && used.contains l.line && l.dirty && !l.flip.isEmpty).map (·.line)

/-! ### Issue (R28, R29) -/

/-- What an instruction has at issue. -/
structure Iss where
  c : Nat
  x : Crew
  h : Hdr
  pc : DWord
  dst : List (Bool × Nat)
deriving DecidableEq, Repr

namespace Iss
def g (i : Iss) : Nat := i.x.seat.core
def tag (i : Iss) : Nat := i.x.seat.tag
def em (i : Iss) : Mask := i.x.ctl.em
def bank (i : Iss) : Bool := i.x.ctl.hmode
end Iss

/-- What an instruction comes to: done, a trap before any effect (R12), or a wait with nothing issued: for an event, or for the walks of pages
that are not in the translation buffer, each by its lowest address and its lanes (R163 step 5). `trapAfter` is a trap with one change of its
own: R360's, which forgets the discarded stores, and R234's, which makes a tile BAD. -/
inductive Effect where
  | done (s : State)
  | trap (t : Trap)
  | wait (w : Wait)
  | walks (l : List (Nat × Mask)) (write : Bool)
  | trapAfter (f : State → State) (t : Trap)

/-- Memory, atomic, barrier, chain and launch instructions: they wait for an earlier FENCE or acquire of the crew (R145, R177). -/
def Instr.ordered : Instr → Bool
  | .lds .. | .sts .. | .ldg .. | .stg .. | .ldx .. | .stx .. | .ldsc .. | .stsc .. | .tldm .. | .tstm .. | .tstp .. | .pref ..
  | .cways .. | .fence .. | .atom .. | .atomCas .. | .atomFadd .. | .atomFxadd .. | .atomFmaxr .. | .satom .. | .bari .. | .bara ..
  | .barw .. | .baraw .. | .bart .. | .barx .. | .barq .. | .clb .. | .chain .. | .chq .. | .chstop .. | .launch .. => true
  | _ => false

/-- The operations of a crew that later memory instructions wait for. -/
def orderingOps (s : State) (c : Nat) : List Nat :=
  (s.ops.filter fun e => e.2.crew == c &&
    match e.2.kind with
    | .fence .. => true
    | .load l => l.acq.isSome
    | _ => false).map (·.1) ++
  ((s.crew? c).map fun x => x.sq.filterMap fun q =>
    match q.kind with
    | .atomic a => if a.ord = 1 ∨ a.ord = 3 then some q.op else none
    | _ => none).getD []

/-- The tags an instruction waits for and commits before it reads anything (R88), those that are deferred apart (R91). -/
def waitTags (x : Crew) (i : Instr) (dst : List (Bool × Nat)) : List Nat :=
  let h := i.hdr
  let all := match i with
    | .waitc _ => true
    | .tret _ _ => true
    | _ => false
  SMap.keys (x.tags.filter fun e => !e.2.deferred &&
    (all || e.1 == 0 || h.wait.getLsbD (e.1 - 1) || e.2.look == 0 || (h.tag.toNat == e.1) || e.2.dst.any fun r => dst.contains r))

/-- The registers an instruction's destinations occupy. -/
def dstRegs (i : Instr) : List (Bool × Nat) :=
  i.operands.dst.flatMap fun o => o.vregs.map (fun k => (true, k)) ++ o.sregs.map fun k => (false, k)

/-- R28 reason 8: every register an operand occupies lies below the counts of `.regs`. -/
def withinRegs (t : Seat) (i : Instr) : Bool :=
  (i.operands.dst ++ i.operands.src).all fun o => o.vregs.all (fun k => decide (k < t.nv)) && o.sregs.all fun k => decide (k < t.ns)

/-- A destination that a handler instruction names is one of the banked registers (R314), which no deferred instruction writes. -/
def banked (x : Crew) (r : Bool × Nat) : Bool := x.bank && decide (r.2 < if r.1 then 32 else 16)

/-- R28 reason 11: a handler instruction and the tags deferred at trap entry. -/
def clearOfDeferred (x : Crew) (i : Instr) (dst : List (Bool × Nat)) : Bool :=
  x.tags.all fun e => !e.2.deferred || (e.1 != i.hdr.tag.toNat && !(e.2.dst.any fun r => dst.contains r && !banked x r))

/-- The lowest reason of R28 that the crew's state gives; `own` gives the instruction's own reasons (3, 9, 10). -/
def dynReason (x : Crew) (i : Instr) (dst : List (Bool × Nat)) (own : Option Nat) : Option Nat :=
  if own = some 3 then some 3
  else if !withinRegs x.seat i then some 8
  else if own.isSome then own
  else if !clearOfDeferred x i dst then some 11
  else none

/-- The guard (R23). -/
def guardHolds (x : Crew) (h : Hdr) : Bool :=
  match h.guard with
  | none => true
  | some u => (x.sreg u.reg.toNat).getLsbD u.bit.toNat != u.neg

/-- The instruction issues: every outstanding tag that is not deferred counts it (R88), and the crew has issued (R85). -/
def countIssue (now : Nat) (x : Crew) : Crew :=
  { x with
    tags := x.tags.map fun e => (e.1, if e.2.deferred then e.2 else { e.2 with look := e.2.look - 1 })
    stamps := { x.stamps with issued := now, sincePromo := true } }

/-- The tag is allocated: to a result already held, or to an operation in flight. -/
def allocTag (x : Crew) (k : Nat) (r : TagRec) : Crew := { x with tags := x.tags.insert k r }

/-- After issue with YIELD the crew leaves the active set (R76). -/
def afterYield (s : State) (c : Nat) (y : Bool) : State :=
  match s.crew? c with
  | some x => if y && x.state = .active then toReady s c else s
  | none => s

/-- The register a guard reads, as a source (R23). -/
def guardSource (h : Hdr) : List Operand :=
  match h.guard with
  | none => []
  | some u => [sS (.s ⟨u.reg.toNat, Nat.lt_trans u.reg.isLt (by decide)⟩)]

/-- The register-cache lines an instruction needs. -/
def lineNeed (x : Crew) (i : Instr) : List Nat :=
  operandLines x.seat x.bank (i.operands.dst ++ i.operands.src ++ guardSource i.hdr)

/-- The state with the lines of an instruction used. -/
def useLines (s : State) (c : Nat) (x : Crew) (i : Instr) : State :=
  touchLines s x.seat.core c (lineNeed x i) (operandLines x.seat x.bank i.operands.dst)

/-- The state the effect of an instruction starts from: the pc at the next instruction, every outstanding tag counted. -/
def advance (s : State) (c : Nat) : State :=
  s.updCrew c fun x => { countIssue (x.cycle s) x with ctl := { x.ctl with pc := x.ctl.pc + 12 } }

/-- An instruction whose guard does not hold: its tag is complete at once (R23). -/
def skipGuarded (s : State) (c : Nat) (h : Hdr) : State :=
  s.updCrew c fun x => if h.tag = 0 then x else allocTag x h.tag.toNat ⟨none, h.look.toNat, {}, [], false⟩

/-- ISSUE of an instruction by the crew State.cur, in the order of R29 and R318. `own` gives the instruction's own reasons of R28, `eff` its
effect once the guard holds, with the pc already at the next instruction. -/
def issue (i : Instr) (own : Iss → Option Nat) (eff : Iss → State → Effect) (s : State) : State :=
  let c := s.cur
  match s.crew? c with
  | none => s
  | some x0 =>
    if x0.state ≠ .active then s
    else match boundary s c with
      | some s' => s'
      | none =>
        let dst := dstRegs i
        let ws := waitTags x0 i dst
        match (x0.tags.filter fun e => ws.contains e.1).filterMap fun e => e.2.op with
        | o :: os => toWaiting s c (.ops (o :: os))
        | [] =>
          match commitTags s c ws with
          | (s1, some f) => takeTrap s1 c f x0.ctl.pc
          | (s1, none) =>
            match s1.crew? c with
            | none => s1
            | some x =>
              let iss : Iss := ⟨c, x, i.hdr, x.ctl.pc, dst⟩
              match dynReason x i dst (own iss) with
              | some r => takeTrap s1 c ⟨0x01, x.ctl.em, BitVec.ofNat 64 r⟩ x.ctl.pc
              | none =>
                if (lineNeed x i).any fun n => !hasLine (s1.core x.seat.core) c n then toWaiting s1 c (.lines (lineNeed x i))
                else match badLines (s1.core x.seat.core) c (lineNeed x i) with
                  | n :: _ => killCrew s1 c ⟨0, 0, imageLineVa s1 x.seat n⟩ true true
                  | [] =>
                    let s2 := useLines s1 c x i
                    let s3 := advance s2 c
                    if !guardHolds x i.hdr then afterYield (skipGuarded s3 c i.hdr) c i.hdr.yield
                    else if Instr.ordered i && !(orderingOps s2 c).isEmpty then toWaiting s2 c (.ops (orderingOps s2 c))
                    else match eff iss s3 with
                      | .done s4 => afterYield s4 c i.hdr.yield
                      | .trap t => takeTrap s2 c t x.ctl.pc
                      | .wait w => toWaiting s2 c w
                      | .walks l wr => toWalks s2 c l wr
                      | .trapAfter f t => takeTrap (f s2) c t x.ctl.pc

/-- An instruction with no reasons of its own. -/
def noReason (_ : Iss) : Option Nat := none

/-! ### How a result returns -/

/-- A short-latency result (R89): written when produced, or held under its tag. -/
def giveShort (i : Iss) (s : State) (h : Held) : State :=
  if i.h.tag = 0 then
    staleTiles (s.updCrew i.c fun x => { h.regs.foldl Crew.put x with ctl := { x.ctl with fpst := x.ctl.fpst ||| h.fp } }) i.c
      (ownVregs h.regs) none
  else s.updCrew i.c fun x => allocTag x i.h.tag.toNat ⟨none, i.h.look.toNat, h, i.dst, false⟩

/-- The tag of an instruction whose effect has been produced at once: a mask, em or control (R89). -/
def giveTag (i : Iss) (s : State) : State :=
  if i.h.tag = 0 then s else s.updCrew i.c fun x => allocTag x i.h.tag.toNat ⟨none, i.h.look.toNat, {}, [], false⟩

/-- A long-latency instruction: an operation in flight under the tag; with TAG 0 it serialises the crew (R89). -/
def giveOp (i : Iss) (s : State) (k : OpKind) : State :=
  let (o, s) := s.fresh
  (s.setOp o ⟨i.c, i.h.tag.toNat, i.bank, i.em, k⟩).updCrew i.c fun x =>
    allocTag x i.h.tag.toNat ⟨some o, i.h.look.toNat, {}, i.dst, false⟩

/-- A memory instruction that takes a place in the crew's store queue (R165): its entry, and the operation its leaving completes. -/
def giveEntry (i : Iss) (s : State) (dst : Option Reg) (ret : AtomRet) (k : SqKind) : State :=
  let o := s.nextId
  (giveOp i s (.queued dst ret)).updCrew i.c fun x => { x with sq := x.sq ++ [⟨k, o⟩] }

/-- A scalar result. -/
def scalarHeld (i : Iss) (d : Reg) (x : DWord) : Held := heldScalar i.bank d x

/-- A vector result of one register for each of `l`, from the register of `d` on, in the lanes of `em`; with no lane nothing is written. -/
def lanesHeld (bank : Bool) (em : Mask) (d : Reg) (l : List Lanes) : Held :=
  match d with
  | .v k =>
    if em = 0 then {}
    else { regs := (l.mapIdx fun j x => (k.val + j, x)).filterMap fun e =>
      if h : e.1 < 320 then some (.v ⟨e.1, h⟩ bank em e.2) else none }
  | _ => {}

/-- A vector result under em. -/
def vectorsHeld (i : Iss) (d : Reg) (l : List Lanes) : Held := lanesHeld i.bank i.em d l

/-- A result of `n` scalar registers. -/
def scalarsHeld (i : Iss) (d : Reg) (l : List DWord) : Held :=
  match d with
  | .s k => { regs := (l.mapIdx fun j x => (k.val + j, x)).filterMap fun e =>
      if h : e.1 < 128 then some (.s ⟨e.1, h⟩ i.bank e.2) else none }
  | _ => {}

end Sys2Proof.Machine
end

