-- ==== Sys2Proof/Machine/Operands.lean ====
section
/-!
DEFINITION. Operand forms: the values of scalar, vector and uniform sources (R20 to R22, R96, R105), results written by type (R97, R105), and
the end of a floating instruction with its flags (R66, R107).
-/
namespace Sys2Proof.Machine

/-! ### Types (R26) -/

def tyWidth : Ty → Nat
  | .i64 | .n64 => 64
  | .f16 | .bf16 => 16
  | _ => 32

def tySigned : Ty → Bool
  | .i32 | .i64 => true
  | _ => false

/-- The value of a pattern under an integer type. -/
def tyVal (ty : Ty) (x : Nat) : Int :=
  if tySigned ty then signed (tyWidth ty) x else (x % 2 ^ tyWidth ty : Nat)

/-- The range of an integer type. -/
def tyLo (ty : Ty) : Int := if tySigned ty then -(2 ^ (tyWidth ty - 1) : Nat) else 0
def tyHi (ty : Ty) : Int := if tySigned ty then (2 ^ (tyWidth ty - 1) - 1 : Nat) else (2 ^ tyWidth ty - 1 : Nat)

def tyFmt : Ty → FFmt
  | .f16 => fmtF16
  | .bf16 | .bf16x2 => fmtBF16
  | _ => fmtF32

/-! ### Sources -/

/-- A scalar source, all 64 bits. -/
def Iss.scalar (i : Iss) (s : State) : Reg → DWord
  | .s k => i.x.rf.sget i.bank k
  | .cid => BitVec.ofNat 64 i.x.seat.cid
  | .gid => BitVec.ofNat 64 i.x.seat.gid
  | .cvid => BitVec.ofNat 64 i.x.seat.cvid
  | .cwid => BitVec.ofNat 64 cw
  | .clk => BitVec.ofNat 64 s.now
  | _ => 0

def Iss.scalarN (i : Iss) (s : State) (r : Reg) : Nat := (i.scalar s r).toNat

/-- The scalar `j` places after a source's register; a source that is no register reads zero there. -/
def Iss.scalarAt (i : Iss) (s : State) (r : Reg) (j : Nat) : DWord :=
  match r with
  | .s k => if j = 0 then i.scalar s r else i.x.sreg (k.val + j)
  | _ => if j = 0 then i.scalar s r else 0

/-- 32 bits of lane `l` of the register `j` places after a vector source; a scalar is broadcast, `j` counting its 32-bit halves. -/
def Iss.lane32 (i : Iss) (r : Reg) (j l : Nat) : Nat :=
  match r with
  | .v k => ((if j = 0 then i.x.rf.vget i.bank k else i.x.vreg (k.val + j)).get l).toNat
  | .s k => bits (i.x.rf.sget i.bank k).toNat (32 * j + 31) (32 * j)
  | .lid => if j = 0 then l else 0
  | _ => 0

/-- Lane `l` of a vector source at a width (R21, R22, R105). -/
def Iss.lane (i : Iss) (w : Nat) (r : Reg) (l : Nat) : Nat :=
  if w = 64 then i.lane32 r 0 l + 2 ^ 32 * i.lane32 r 1 l else i.lane32 r 0 l % 2 ^ w

/-- Lane `l` as a value of an integer type. -/
def Iss.laneVal (i : Iss) (ty : Ty) (r : Reg) (l : Nat) : Int := tyVal ty (i.lane (tyWidth ty) r l)

/-! ### Results -/

/-- R97: a result modulo 2^w, extended by the type, for a scalar destination. -/
def extendTy (ty : Ty) (r : Int) : DWord := BitVec.ofInt 64 (tyVal ty (wrap (tyWidth ty) r))

def scalarResult (i : Iss) (s : State) (ty : Ty) (d : Reg) (r : Int) : Effect :=
  .done (giveShort i s (scalarHeld i d (extendTy ty r)))

/-- A 64-bit scalar result, not extended. -/
def scalarPlain (i : Iss) (s : State) (d : Reg) (r : Nat) : Effect := .done (giveShort i s (scalarHeld i d (BitVec.ofNat 64 r)))

/-- The lanes of a result at a width, by lane: one register, or the pair of a 64-bit type. -/
def laneRegs (w : Nat) (f : Nat → Nat) : List Lanes :=
  if w = 64 then
    let x := (Vector.ofFn fun l : Fin 128 => f l.val : Vector Nat 128)
    [Vector.map (fun n => BitVec.ofNat 32 n) x, Vector.map (fun n => BitVec.ofNat 32 (n / 2 ^ 32)) x]
  else [Lanes.ofFn fun l => BitVec.ofNat 32 (f l)]

def vectorResult (i : Iss) (s : State) (w : Nat) (d : Reg) (f : Nat → Nat) : Effect :=
  .done (giveShort i s (vectorsHeld i d (laneRegs w f)))

/-- R105, R108: a result modulo 2^w in each active lane. -/
def vectorInt (i : Iss) (s : State) (ty : Ty) (d : Reg) (f : Nat → Int) : Effect :=
  vectorResult i s (tyWidth ty) d fun l => wrap (tyWidth ty) (f l)

/-- The mask register a compare leaves: with no lane active it performs no pass and writes nothing (R80). -/
def putCompare (i : Iss) (s : State) (d : Reg) (m : Mask) : State := if i.em = 0 then s else s.updCrew i.c fun x => x.setMask d m

/-- A mask destination is committed when produced (R89). -/
def maskResult (i : Iss) (s : State) (d : Reg) (m : Mask) : Effect := .done (giveTag i (s.updCrew i.c fun x => x.setMask d m))

/-- The mask of a compare is committed when produced (R89, R109). -/
def compareResult (i : Iss) (s : State) (d : Reg) (m : Mask) : Effect := .done (giveTag i (putCompare i s d m))

/-- R109: the active lanes where `f` holds. -/
def compareMask (em : Mask) (f : Nat → Bool) : Mask := lanesMask ((activeLanes em).filter f)

/-! ### The end of a floating instruction (R66, R107) -/

/-- The or of the flags of the active lanes, or the trap that an enabled flag raises. -/
def floatFlags (i : Iss) (fl : Nat → Nat) : Except Trap Nat :=
  let en := bits i.x.ctl.fpst.toNat 9 5
  let ls := activeLanes i.em
  let bad := ls.filter fun l => fl l &&& en != 0
  if bad.isEmpty then .ok (ls.foldl (fun t l => t ||| fl l) 0)
  else .error ⟨0x11, lanesMask bad, BitVec.ofNat 64 (bad.foldl (fun t l => t ||| (fl l &&& en)) 0)⟩

/-- A floating result in vector registers. -/
def vectorFloat (i : Iss) (s : State) (w : Nat) (d : Reg) (f : Nat → FRes) : Effect :=
  let r := (Vector.ofFn fun l : Fin 128 => if i.em.getLsbD l.val then f l.val else ⟨0, 0⟩ : Vector FRes 128)
  let at_ (l : Nat) : FRes := r.get ⟨l % 128, Nat.mod_lt _ (by decide)⟩
  match floatFlags i fun l => (at_ l).fl with
  | .error t => .trap t
  | .ok fl => .done (giveShort i s { vectorsHeld i d (laneRegs w fun l => (at_ l).bits) with fp := BitVec.ofNat 32 fl })

/-- A floating compare: the mask is committed when produced, the flags when the tag's result commits (R89, R107). -/
def maskFloat (i : Iss) (s : State) (d : Reg) (f : Nat → Bool × Nat) : Effect :=
  match floatFlags i fun l => (f l).2 with
  | .error t => .trap t
  | .ok fl => .done (giveShort i (putCompare i s d (compareMask i.em fun l => (f l).1)) { fp := BitVec.ofNat 32 fl })

/-- The two halves of a .BF16X2 lane, or the one value of any other type. -/
def byHalves (ty : Ty) (x : Nat → FRes) : FRes :=
  if ty = .bf16x2 then
    let a := x 0
    let b := x 1
    ⟨a.bits + 2 ^ 16 * b.bits, a.fl ||| b.fl⟩
  else x 0

/-- The pattern of half `j` of a lane under a floating type. -/
def floatLane (i : Iss) (ty : Ty) (r : Reg) (l j : Nat) : Nat :=
  if ty = .bf16x2 then bits (i.lane32 r 0 l) (16 * j + 15) (16 * j) else i.lane (tyWidth ty) r l

/-- A source with its sign changed exactly where NA or NB says so (R110). -/
def negIf (f : FFmt) (neg : Bool) (x : Nat) : Nat := if neg then x ^^^ f.sign else x

/-! ### Uniform positions (R96) -/

/-- The value of a uniform position at a width: none when no lane is active and the source is a vector. -/
def uniformSource (i : Iss) (s : State) (w : Nat) (r : Reg) : Except Trap (Option Nat) :=
  match r with
  | .v _ | .lid =>
    match activeLanes i.em with
    | [] => .ok none
    | l0 :: ls =>
      let x := i.lane w r l0
      let bad := ls.filter fun l => i.lane w r l != x
      if bad.isEmpty then .ok (some x) else .error ⟨0x07, lanesMask bad, 0⟩
  | _ => .ok (some (i.scalarN s r % 2 ^ w))

end Sys2Proof.Machine
end

