-- ==== Sys2Proof/Machine/Memory.lean ====
section
/-!
DEFINITION. What every memory access shares: passes and modes (R136, R158), the shared window and the scratch (R134, R135, R175), the checks of
R163, range locks (R155, R156), the bytes a load takes (R140) and the bytes a store or atomic puts (R140, R147, R157, R168).
-/
namespace Sys2Proof.Machine

/-! ### Places -/

/-- The same byte, however it was addressed. -/
def Place.same : Place → Place → Bool
  | .glob p _ _, .glob q _ _ => p == q
  | .win c a o, .win c' a' o' => c == c' && a == a' && o == o'
  | .scr c a, .scr c' a' => c == c' && a == a'
  | _, _ => false

/-- Whether the L1 may hold the byte (R153, R339). -/
def MapKind.cached : MapKind → Bool
  | .device | .coherent => true
  | .noncoherent | .peer => false

/-- A byte in a peer device's memory. -/
def Place.isPeer : Place → Bool
  | .glob _ _ .peer => true
  | _ => false

/-- Every packet for the port of a byte has gone. -/
def Place.free (s : State) : Place → Bool
  | .glob pa _ _ => portFree s pa
  | _ => true

/-- A lane's request to a peer device (R356, R357); `who` is the crew of a store. -/
def peerAsk (s : State) (vc : Nat) (who : Option Nat) (at_ : List Place) (l : List Byte) : State :=
  match at_.head? with
  | some (.glob pa va .peer) => peerRequest s vc pa (who.map fun c => (c, va)) l
  | _ => s

/-- The lines of the L1 that places lie in. -/
def placeLines (ps : List Place) : List Nat :=
  (ps.filterMap fun p => match p with
    | .glob pa _ map => if map.cached then some (lineOf pa) else none
    | _ => none).eraseDups

/-- The homes of the lines of an access that goes past the L1 note it (R342). -/
def noteLines (s : State) (ps : List Place) : State := (placeLines ps).foldl (fun s n => noteHome s (128 * n)) s

/-- R157: the array answers storage accesses with zeros. -/
def ArrState.busy : ArrState → Bool
  | .settling | .compute | .unreefing | .offline => true
  | _ => false

/-- A cell of an array in the storage view (R187). -/
def Arr.byte (a : Arr) (o : Nat) : Byte := SMap.getD a.cells o 0

/-- The 16-byte word a flipped cell lies in (R188). -/
def flipWord (f : Nat) : Nat := f / 128

/-- A byte written: its word takes a new code, so an injected error in it is gone (log 24). -/
def Arr.putByte (a : Arr) (o : Nat) (b : Byte) : Arr :=
  { a with cells := SMap.setD a.cells o 0 b, flips := a.flips.filter fun f => flipWord f != o / 16 }

/-- R188: a word of an array is read in storage mode. One inverted bit is corrected and counted; two make it uncorrectable, which kills the
array's context (R323). -/
def readWord (s : State) (c a w : Nat) : State :=
  let r := s.arr c a
  match r.flips.filter fun f => flipWord f == w with
  | [] => s
  | [_] =>
    (s.updArr c a fun r => { r with flips := r.flips.filter fun f => flipWord f != w }).updCtr c fun k => { k with smcor := sat32 (k.smcor + 1) }
  | _ => killContext s r.tag ⟨1, 0, 2 ^ 56 + c⟩

/-- The words that places reach in arrays that serve storage accesses. -/
def readBanks (s : State) (ps : List Place) : State :=
  let ws := (ps.filterMap fun p => match p with
    | .win c a o => if (s.arr c a).flips.isEmpty || (s.arr c a).state.busy then none else some (c, a, o / 16)
    | _ => none).eraseDups
  ws.foldl (fun s w => readWord s w.1 w.2.1 w.2.2) s

/-! ### Passes and modes (R136, R158, R383) -/

/-- The part of an access that a byte belongs to: a core of the window, or a memory outside the L1. Bytes that the L1 or the scratch serves
belong to none. -/
def Place.part : Place → Option Nat
  | .win c _ _ => some c
  | .glob pa _ map => if map.cached then none else some (2048 + endLink pa)
  | .scr .. => none

/-- The parts in which an access is made. -/
def partsOf (ps : List Place) : List Nat := (ps.filterMap Place.part).eraseDups

/-- The window addresses, within their core's own window, of places. -/
def windowBytes (ps : List Place) : List Nat :=
  ps.filterMap fun p => match p with
    | .win _ a o => some (a * 0x40000 + o)
    | _ => none

/-- The distinct 16-byte lines of window addresses. -/
def windowLines (l : List Nat) : List Nat := (l.map (· / 16)).eraseDups

/-- The passes of an access (R136). -/
def passCount (l : List Nat) : Nat :=
  if l.foldl max 0 < l.foldl min (l.headD 0) + 512 then 1
  else ((List.range 16).map fun b => ceilDiv ((windowLines l).filter fun w => w % 16 == b).length 2).foldl max 1

/-- The arrays of a list of places that answer under R157 now. -/
def busyArrays (s : State) (ps : List Place) : List (Nat × Nat) :=
  (ps.filterMap fun p => match p with
    | .win c a _ => if (s.arr c a).state.busy then some (c, a) else none
    | _ => none).eraseDups

/-- A place's array has changed its mode since an access began, at which the arrays `before` were busy. -/
def modeMoved (s : State) (before : List (Nat × Nat)) : Place → Bool
  | .win c a _ => before.contains (c, a) != (s.arr c a).state.busy
  | _ => false

/-- Whether the array of a place of the access `ps` answers it under R157 (R158). Every pass takes the mode that holds when it reaches the
bank: an access of one pass takes one mode, and of several passes each 16-byte line takes its own. Where the mode has changed since the access
began the bits of `f` decide (log 2). -/
def answersZero (s : State) (before : List (Nat × Nat)) (f : Nat) (ps : List Place) : Place → Bool
  | .win c a o =>
    if !modeMoved s before (.win c a o) then (s.arr c a).state.busy
    else
      let mine := windowBytes (ps.filter fun p => p.part == some c)
      if passCount mine = 1 then f.testBit 0 else f.testBit (1 + (windowLines mine).idxOf ((a * 0x40000 + o) / 16))
  | _ => false

/-- The free value of an access whose modes have moved. -/
def modeBits (s : State) (before : List (Nat × Nat)) (ps : List Place) : Nat × State :=
  if ps.any (modeMoved s before) then s.freeValue else (0, s)

/-- Little-endian bytes of an array. -/
def Arr.readN (a : Arr) (o n : Nat) : List Byte := (List.range n).map fun j => a.byte (o + j)

/-! ### The window and the scratch (R134, R135, R175) -/

def Group.holds (g : Group) (a : Nat) : Bool := decide (g.arr0 ≤ a) && decide (a < g.arr0 + g.nsto + g.ncomp)

/-- What a window address is: a place, no place the crew may reach, or a peer that has gone. -/
inductive WinEnd where
  | at_ (p : Place)
  | denied
  | absent
deriving DecidableEq, Repr

/-- A window address as a crew of group `gi` on core `g` reaches it. -/
def windowAt (s : State) (gi g ea : Nat) : WinEnd :=
  match s.group? gi with
  | none => .denied
  | some gr =>
    let own (o : Nat) : WinEnd := if o < 0x600000 ∧ gr.holds (o / 0x40000) then .at_ (.win g (o / 0x40000) (o % 0x40000)) else .denied
    if ea < 0x10000000 then own ea
    else if ea ≥ 0x14000000 then .denied
    else
      let k := (ea - 0x10000000) / 0x1000000
      let o := ea % 0x1000000
      if o ≥ 0x600000 then .denied
      else if k = coreInCluster g then own o
      else match s.convoy? gr.convoy with
        | none => .denied
        | some v =>
          let h := k ^^^ v.x
          match v.groups[h]? with
          | none => .denied
          | some hi =>
            match s.group? hi with
            | none => .absent
            | some t =>
              if v.freed.contains h ∨ t.state = .closing then .absent
              else if t.holds (o / 0x40000) then .at_ (.win (4 * clusterOf g + k) (o / 0x40000) (o % 0x40000))
              else .denied

/-- Bytes of the scratch a group may reach. -/
def scratchSize (s : State) (gi g : Nat) : Nat :=
  if (s.core g).scratch.owner = some gi then 16384 * (s.core g).scratch.ways else 0

/-! ### Range locks (R155, R156) -/

/-- The tables and addresses under which a byte is compared: its core's table, the window or global. -/
def Lock.covers (k : Lock) (tag : Nat) (p : Place) : Bool :=
  match p with
  | .glob _ va _ => !k.win && k.tag == tag && decide (k.lo ≤ va) && decide (va ≤ k.hi)
  | .win _ a o => k.win && decide (k.lo ≤ a * 0x40000 + o) && decide (a * 0x40000 + o ≤ k.hi)
  | .scr .. => false

/-- R156: a write into any range, or a read of a destination, on the core where the byte lands. -/
def lockedByte (s : State) (g tag : Nat) (write : Bool) (p : Place) : Bool :=
  let n := match p with
    | .win c _ _ => c
    | _ => g
  (s.core n).locks.any fun e => e.2.live && (write || e.2.dst) && e.2.covers tag p

/-! ### The checks of R163 -/

/-- One piece of an access: its lane, first address and length; it lies within one aligned run of 16 bytes. -/
structure Piece where
  lane : Nat
  ea : Nat
  len : Nat
deriving DecidableEq, Repr

/-- An access to check: space 0 global, 1 window, 2 scratch; `atomic` fails step 7 for a place. -/
structure Req where
  space : Nat
  align : Nat
  write : Bool
  pieces : List Piece
  atomic : Place → Bool := fun _ => false

/-- The step of R163 (2 to 8) that a piece fails, 0 for none, and where its bytes land. -/
def pieceEnd (s : State) (x : Crew) (r : Req) (p : Piece) : Nat × List Place :=
  let g := x.seat.core
  let tag := x.seat.tag
  let last (ps : List Place) : Nat × List Place :=
    if ps.any r.atomic then (7, ps)
    else if ps.any (lockedByte s g tag r.write) then (8, ps)
    else (0, ps)
  if p.ea % r.align ≠ 0 then (2, [])
  else if r.space = 1 then
    match windowAt s x.seat.group g p.ea with
    | .denied => (3, [])
    | .absent => (4, [])
    | .at_ (.win c a o) => last ((List.range p.len).map fun j => .win c a (o + j))
    | .at_ _ => (3, [])
  else if r.space = 2 then
    if p.ea + p.len ≤ scratchSize s x.seat.group g then last ((List.range p.len).map fun j => .scr g (p.ea + j)) else (3, [])
  else
    match translate s g tag p.ea (if r.write then .write else .read) with
    | .nonCanonical => (3, [])
    | .miss => (5, [])
    | .denied => (6, [])
    | .ok pa map => last ((List.range p.len).map fun j => .glob (pa + j) (p.ea + j) map)

/-- The pages of pieces that miss: lowest address and lanes of each 64 KiB. -/
def missPages (ps : List Piece) : List (Nat × Mask) :=
  ((ps.map fun p => p.ea / 65536).eraseDups).map fun g =>
    let l := ps.filter fun p => p.ea / 65536 == g
    (l.foldl (fun m p => min m p.ea) (l.headD ⟨0, 0, 0⟩).ea, lanesMask (l.map (·.lane)))

/-- The trap cause of a step. -/
def stepCause : Nat → Nat
  | 2 => 0x02
  | 4 => 0x06
  | 7 => 0x0E
  | 8 => 0x05
  | _ => 0x04

/-- The lanes of an access that fail a step of R163. -/
def lanesAt (s : State) (x : Crew) (r : Req) (step : Nat) : List Nat :=
  ((r.pieces.filter fun p => (pieceEnd s x r p).1 == step).map (·.lane)).eraseDups

/-- Steps 2 to 8 of R163 over every piece: the first step that fails decides. -/
def checkAccess (s : State) (x : Crew) (r : Req) : Except Effect (List LaneAcc) :=
  let ends := r.pieces.map fun p => (p, pieceEnd s x r p)
  match (ends.filter fun e => e.2.1 != 0).map (·.2.1) with
  | [] => .ok (ends.map fun e => ⟨e.1.lane, e.1.ea, e.2.2⟩)
  | k :: ks =>
    let step := ks.foldl min k
    let ps := (ends.filter fun e => e.2.1 == step).map (·.1)
    if step = 5 then .error (.walks (missPages ps) r.write)
    else .error (.trap ⟨stepCause step, lanesMask (ps.map (·.lane)),
      BitVec.ofNat 64 (ps.foldl (fun m p => min m p.ea) (ps.headD ⟨0, 0, 0⟩).ea)⟩)

/-! ### The store queue (R140, R165) -/

/-- The places an entry writes. -/
def SqKind.places : SqKind → List Place
  | .store b _ _ _ => b.map fun e => e.2.1
  | .atomic a => a.lanes.flatMap fun l => l.1.at_
  | .put p => p.els.flatMap fun e => e.at_ ++ e.rowAt ++ e.colAt
  | .tile b _ => b.map (·.1)

/-- The value an entry holds for a byte: of the highest-numbered lane (R141). -/
def SqKind.byte? : SqKind → Place → Option Byte
  | .store b _ _ _, p => (b.reverse.find? fun e => e.2.1.same p).map fun e => e.2.2
  | .tile b _, p => (b.reverse.find? fun e => e.1.same p).map (·.2)
  | _, _ => none

/-- The youngest value a crew's own queue holds for a byte. -/
def queueByte? (x : Crew) (p : Place) : Option Byte := x.sq.reverse.findSome? fun q => q.kind.byte? p

/-- The atomics and TSTPs of a queue that write one of the places: a load waits for them (R165). -/
def queueBlocks (x : Crew) (ps : List Place) : List Nat :=
  x.sq.filterMap fun q =>
    match q.kind with
    | .atomic _ | .put _ => if q.kind.places.any fun a => ps.any a.same then some q.op else none
    | _ => none

/-- The queue holds 32 entries. -/
def queueFull (x : Crew) : Bool := decide (x.sq.length ≥ 32)

/-- Whether what an operation stands for is still to come: in flight, or in the store queue. -/
def opPending (s : State) (c o : Nat) : Bool := opLive s o || (s.crew? c).any fun x => x.sq.any fun q => q.op == o

/-- The loads of a crew in flight. -/
def loadsOf (s : State) (c : Nat) : List Nat :=
  SMap.keys (s.ops.filter fun e => e.2.crew == c && match e.2.kind with
    | .load _ => true
    | _ => false)

/-- Everything a release of the crew follows: its queue and its earlier loads (R146). -/
def earlierOps (s : State) (c : Nat) : List Nat :=
  loadsOf s c ++ ((s.crew? c).map fun x => x.sq.map (·.op)).getD []

/-! ### Bytes -/

/-- The byte at its home: the bank, the scratch, or memory with the core's own dirty bytes over it. -/
def placeByte (s : State) (g : Nat) : Place → Byte
  | .glob pa _ map => if map.cached then homeByte s g pa else s.mem.read pa
  | .win c a o => (s.arr c a).byte o
  | .scr c o => SMap.getD (s.core c).scratch.bytes o 0

/-- The byte as the core sees it: an array that answers under R157 gives zero; a cached byte comes from the L1 when it is there. -/
def seenByte (s : State) (g : Nat) (p : Place) : Byte :=
  match p with
  | .glob pa _ map => if map.cached then (l1Byte? s g pa).getD (s.mem.read pa) else s.mem.read pa
  | .win c a o => if (s.arr c a).state.busy then 0 else (s.arr c a).byte o
  | .scr .. => placeByte s g p

/-- A byte as a crew reads it at this moment: the youngest of its own queue, else as its core sees it (R140). -/
def readByte (s : State) (x : Crew) (p : Place) : Byte := (queueByte? x p).getD (seenByte s x.seat.core p)

/-- Whether a byte is delivered poisoned: a line that holds a poisoned sector is poisoned (R346, R360). -/
def placeBad (s : State) (g : Nat) : Place → Bool
  | .glob pa _ map =>
    let away := s.mem.badLine (lineOf pa) || pathDown s g pa
    if map.cached then
      match (s.core g).l1.find? (lineOf pa) with
      | some l => if (l.bytes.find? (pa % 128)).isSome then !l.poison.isEmpty else away
      | none => away
    else away
  | _ => false

/-- A byte that a load may take when it issues: local banks, the scratch, and what the L1 holds. -/
def readyByte? (s : State) (g : Nat) : Place → Option Byte
  | .glob pa _ map => if map.cached then l1Byte? s g pa else none
  | .win c a o => if c = g then some ((s.arr c a).byte o) else none
  | .scr c o => some (SMap.getD (s.core c).scratch.bytes o 0)

/-- The (lane, byte) positions of accesses, with their places. -/
def slotsOf (accs : List LaneAcc) : List (Nat × Nat × Place) := accs.flatMap fun a => a.at_.mapIdx fun j p => (a.lane, j, p)

def LoadOp.has (l : LoadOp) (lane j : Nat) : Bool := l.got.any fun e => e.1 == lane && e.2.1 == j

/-- The value of a position of a load. -/
def LoadOp.get (l : LoadOp) (lane j : Nat) : Byte := ((l.got.find? fun e => e.1 == lane && e.2.1 == j).map fun e => e.2.2).getD 0

/-- The positions of a load that it has not taken. -/
def LoadOp.open (l : LoadOp) : List (Nat × Nat × Place) := (slotsOf l.accs).filter fun k => !l.has k.1 k.2.1

/-- The unit that byte `j` of a lane's access lies in: what is single-copy atomic, the access or a 64-bit half of one of 128 bits (R141). -/
def LaneAcc.unit (a : LaneAcc) (j : Nat) : List Place := (a.at_.drop (j / 8 * 8)).take 8

/-- The positions of a load not yet taken in the units that reach into the places `ps`. -/
def LoadOp.unitsAt (l : LoadOp) (ps : List Place) : List (Nat × Nat × Place) :=
  l.accs.flatMap fun a => ((a.at_.mapIdx fun j p => (a.lane, j, p)).filter fun k =>
    !l.has k.1 k.2.1 && (a.unit k.2.1).any fun p => ps.any p.same)

/-- An earlier load of the crew has still to take a byte: a later one does not take it first (R144). -/
def takenLater (s : State) (c op : Nat) (p : Place) : Bool :=
  s.ops.any fun e => e.2.crew == c && decide (e.1 < op) && match e.2.kind with
    | .load l => l.open.any fun k => k.2.2.same p
    | _ => false

/-- A write of a crew of the core that lands in parts has landed in some only: to its core it is one instruction, seen as a whole (R140, R383). -/
def halfLanded (s : State) (g : Nat) (p : Place) : Bool :=
  s.crews.any fun e => e.2.seat.core == g && e.2.pass.any (fun k => !k.gone.isEmpty) && (e.2.sq.head?).any fun q => q.kind.places.any p.same

/-- A load cannot take a byte yet. -/
def heldBack (s : State) (c op g : Nat) (p : Place) : Bool := takenLater s c op p || halfLanded s g p

/-- A load's place in its core's order is its issue (R140): before the core writes a byte, its loads in flight that have still to take that
byte take what is there, with the rest of its unit; so does a LAUNCH whose release is done (R300). An acquire takes its value from its home when
every drain is done (R152). -/
def captureBefore (s : State) (g : Nat) (ps : List Place) : State :=
  let mine (o : Op) : Bool := (s.crew? o.crew).any fun x => x.seat.core == g
  let serve (o : Op) : Op :=
    match o.kind with
    | .load l =>
      if !mine o || l.acq.any (· ≥ 2) then o
      else { o with kind := .load { l with
        got := l.got ++ (l.unitsAt ps).map fun k => (k.1, k.2.1, placeByte s g k.2.2) } }
    | .launch q at_ none d after w pc =>
      if !mine o || after.any (opPending s o.crew) || !(at_.any fun p => ps.any p.same) then o
      else { o with kind := .launch q at_ (some (at_.map (seenByte s g))) d after w pc }
    | _ => o
  { s with ops := s.ops.map fun (e : Nat × Op) => (e.1, serve e.2) }

/-! ### Tiles in memory (R168, R212) -/

/-- The width of an element of a tile's format (R212). -/
def tileWidth : Nat → Nat
  | 0x20 => 32
  | 0x21 | 0x22 => 16
  | 0x07 => 3
  | f => if f = 0x1B then 16 else fmtWidth f

/-- Whether an offset from a tile's base lies in an element of it. -/
def Tile.inElements (t : Tile) (o : Nat) : Bool :=
  decide (t.pitch ≠ 0) && decide (o / t.pitch < t.rows) && decide (o % t.pitch < ceilDiv (t.cols * tileWidth t.fmt) 8)

/-- A tile's window base as an offset in its core's own window. -/
def localWindow (a : Nat) : Nat := if a ≥ 0x10000000 then a % 0x1000000 else a

/-- Whether a byte lies in a memory tile's element area, as its core names it. -/
def Tile.covers (t : Tile) (g tag : Nat) : Place → Bool
  | .glob _ va _ => t.space == 0 && t.tag == tag && decide (t.base ≤ va) && t.inElements (va - t.base)
  | .win c a o => t.space == 1 && c == g && decide (localWindow t.base ≤ a * 0x40000 + o) && t.inElements (a * 0x40000 + o - localWindow t.base)
  | .scr .. => false

/-- Writes of a core make the memory tiles they reach STALE. -/
def staleMemTiles (s : State) (g tag : Nat) (ps : List Place) : State :=
  s.updCore g fun k => { k with tiles := k.tiles.map fun e =>
    if (e.2.state = .valid ∨ e.2.state = .suspect) ∧ ps.any (e.2.covers g tag) then (e.1, { e.2 with state := .stale }) else e }

/-! ### Writes -/

/-- Sets lanes of a crew's MBUSY (R157). -/
def setBusy (s : State) (c : Nat) (m : Mask) : State := s.updCrew c fun x => { x with ctl := { x.ctl with mbusy := x.ctl.mbusy ||| m } }

/-- A byte written at its home; the core's own L1 keeps no older value of it (R147, R151). -/
def homeWrite (s : State) (g tag pa va : Nat) (b : Byte) : State :=
  let s := writePhys s [(pa, b)]
  { s with mem := noteWriter s.mem (objectOf s tag va) g s.tick }.updCore g fun k =>
    { k with l1 := k.l1.modify (lineOf pa) fun l =>
      { l with
        bytes := if (l.bytes.find? (pa % 128)).isSome then l.bytes.insert (pa % 128) b else l.bytes
        dirty := l.dirty.filter (· ≠ pa % 128) } }

/-- Whether a byte is written at its home: of a mapping that is not cached, of a release or an atomic, and of a line that the hint keeps out of
the L1 (CH 2, R16). -/
def goesHome (s : State) (g : Nat) (home : Bool) (ch : Nat) : Place → Bool
  | .glob pa _ map => !map.cached || home || (ch == 2 && ((s.core g).l1.find? (lineOf pa)).isNone)
  | _ => false

/-- One byte of a crew's store becomes visible to its core (R140). -/
def landByte (s : State) (c g tag : Nat) (home : Bool) (ch : Nat) (p : Place) (b : Byte) : State :=
  match p with
  | .glob pa va map =>
    if goesHome s g home ch (.glob pa va map) then homeWrite s g tag pa va b
    else l1WriteByte s g tag (objectOf s tag va) (ch == 1) (c, va) pa b
  | .win c a o => s.updArr c a fun r => r.putByte o b
  | .scr c o => s.updCore c fun k => { k with scratch := { k.scratch with bytes := SMap.setD k.scratch.bytes o 0 b } }

/-- Which of the bytes that land an array drops. `before` are the arrays that were busy when the passes began, none for passes that begin and end
now. -/
def landMode (s : State) (before : Option (List (Nat × Nat))) (ps : List Place) : (Place → Bool) × State :=
  let before := before.getD (busyArrays s ps)
  let (f, s) := modeBits s before ps
  (answersZero s before f ps, s)

/-- The bytes of a crew's store become visible, in lane order; MBUSY names the lanes an array dropped, and tiles written in become STALE. -/
def landStore (s : State) (c : Nat) (home : Bool) (ch : Nat) (before : Option (List (Nat × Nat))) (bytes : List (Nat × Place × Byte)) : State :=
  match s.crew? c with
  | none => s
  | some x =>
    let g := x.seat.core
    let tag := x.seat.tag
    let ps := bytes.map fun e => e.2.1
    let (drops, s) := landMode (if home then noteLines s ps else s) before ps
    let (out, land) := bytes.partition fun e => drops e.2.1
    let s := land.foldl (fun s e => landByte s c g tag home ch e.2.1 e.2.2) s
    staleMemTiles (setBusy s c (lanesMask (out.map (·.1)))) g tag (land.map fun e => e.2.1)

/-! ### Scopes (R142, R151 to R153) -/

/-- The cores of a scope instance. -/
def inScope (scope g h : Nat) : Bool :=
  match scope with
  | 0 | 1 => g == h
  | 2 => clusterOf g == clusterOf h
  | 3 => dieOf g == dieOf h
  | _ => true

/-- The synchronisation variable a place belongs to: a line of memory, or of a bank. -/
def varKey : Place → Nat
  | .glob pa _ _ => lineOf pa
  | .win c a o => 2 ^ 60 + (c * 32 + a) * 2048 + o / 128
  | .scr c o => 2 ^ 61 + c * 2 ^ 20 + o / 128

/-- Whether a release at a scope is performed eagerly: DEVICE and SYSTEM, and a variable homed on another die (R153). -/
def eagerRelease (g scope : Nat) (ps : List Place) : Bool :=
  decide (scope ≥ 4) || (decide (scope ≥ 2) && ps.any fun p => match p with
    | .glob pa _ _ => homeDie pa != dieOf g
    | _ => false)

/-- The cores in the release sets of variables. -/
def releasers (s : State) (ps : List Place) : List Nat := (((ps.map varKey).eraseDups).flatMap fun k => s.mem.relSets.getD k []).eraseDups

/-- A lazy release adds the core to the variable's release set (R151). -/
def addReleaser (s : State) (g : Nat) (ps : List Place) : State :=
  let sets := ((ps.map varKey).eraseDups).foldl (fun m k => m.insert k (g :: (m.getD k []).filter (· ≠ g))) s.mem.relSets
  { s with mem := { s.mem with relSets := sets } }

/-- A drained core leaves the release sets of variables (R152). -/
def clearReleaser (s : State) (g : Nat) (ps : List Place) : State :=
  let sets := ((ps.map varKey).eraseDups).foldl (fun m k =>
    match (m.getD k []).filter (· ≠ g) with
    | [] => m.erase k
    | l => m.insert k l) s.mem.relSets
  { s with mem := { s.mem with relSets := sets } }

/-- A migration holds writes to the frame of a byte (R154, R340). -/
def writeHeld (s : State) : Place → Bool
  | .glob pa _ _ => lockedPa s pa
  | _ => false

/-- A writer that the lock of a page holds is listed with the page, in the order in which writers reach the directory. -/
def holdWriter (s : State) (w : HeldWriter) (ps : List Place) : State :=
  if ps.any (writeHeld s) then
    { s with migs := s.migs.map fun (e : Nat × Migration) =>
      let here := ps.any fun p => match p with
        | .glob pa _ _ => e.2.inOld pa
        | _ => false
      (e.1, if here && !e.2.order.contains w then { e.2 with order := e.2.order ++ [w] } else e.2) }
  else s

/-! ### Fences (R146, R177) -/

/-- What a fence waits for before its drains: the store queue and the earlier loads. At CREW scope there is nothing beyond R140, but a full
fence waits for the queue to empty. -/
def fenceAfter (s : State) (c ord scope : Nat) : List Nat :=
  (if ord = 0 ∨ (scope ≥ 1 ∧ ord ≥ 2) then ((s.crew? c).map fun x => x.sq.map (·.op)).getD [] else []) ++
    (if scope ≥ 1 then loadsOf s c else [])

/-- What a release at SYSTEM scope waits for before anything else: every earlier store of its crew (R153, R360). -/
def sysWait (i : Iss) (s : State) (ord scope : Nat) : Option Effect :=
  if scope = 5 ∧ ord ≠ 1 then
    match s.crew? i.c with
    | none => none
    | some x => if x.sq.isEmpty then none else some (.wait (.ops (x.sq.map (·.op))))
  else none

/-- R360: a release or full fence at SYSTEM scope first sees every earlier store leave, and raises DATA_ERROR for one that was discarded. -/
def sysRelease (i : Iss) (s : State) (ord scope : Nat) : Option Effect :=
  if scope = 5 ∧ ord ≠ 1 then
    match s.crew? i.c with
    | none => none
    | some x =>
      if !x.sq.isEmpty then some (.wait (.ops (x.sq.map (·.op))))
      else x.req.discard.map fun a => .trapAfter (fun s => s.updCrew i.c fun x => { x with req := { x.req with discard := none } }) ⟨0x0F, i.em, BitVec.ofNat 64 a⟩
  else none

/-- A memory instruction without a lane makes no access; its ORD acts as a fence of the same kind and scope (R161). -/
def noLanes (i : Iss) (s : State) (ord scope : Nat) : Effect :=
  if ord = 0 then .done (giveTag i s)
  else match sysRelease i s ord scope with
    | some e => e
    | none =>
      let (o, s) := s.fresh
      .done (giveTag i (s.setOp o ⟨i.c, 8, i.bank, i.em, .fence ord scope (fenceAfter s i.c ord scope) false []⟩))

/-! ### Bound entries (R166, R222, R224) -/

/-- The order of a kind's values; a NaN is in no order. -/
def boundLe (kind a b : Nat) : Bool :=
  match kind with
  | 1 => match fcompare fmtF32 a b with
    | some o => decide (o ≤ 0)
    | none => false
  | 2 => decide (signed 32 a ≤ signed 32 b)
  | _ => decide (a ≤ b)

def Bound.outside (b : Bound) (v : Nat) : Bool := b.kind != 0 && !(boundLe b.kind b.lo.toNat v && boundLe b.kind v b.hi.toNat)

/-- A range in which no value lies (R222). -/
def Bound.empty (b : Bound) : Bool := !boundLe b.kind b.lo.toNat b.hi.toNat

/-- Whether a value outside the range violates the maximum; any other, a NaN included, violates the minimum. -/
def Bound.high (b : Bound) (v : Nat) : Bool := !boundLe b.kind v b.hi.toNat && boundLe b.kind b.hi.toNat v

/-- What a clamp stores for a 32-bit value. -/
def Bound.clamp (b : Bound) (v : Nat) : Nat := if b.empty then v else if b.high v then b.hi.toNat else b.lo.toNat

/-- A context's bound entry as a check sees it: while an update is under way, the old entry or the new (R224). -/
def boundNow (s : State) (tag e : Nat) : Bound × State :=
  match s.ctx? tag with
  | none => (Bound.cleared, s)
  | some x =>
    let old := x.bounds.getD e Bound.cleared
    match x.updates.find? fun u => u.2.1 == e with
    | none => (old, s)
    | some u =>
      let (f, s) := s.freeValue
      (if f % 2 = 0 then old else u.2.2, s)

/-- Sets the hit flag of the entry a check used: the old one, or the new one of an update under way. -/
def setHit (s : State) (tag e : Nat) (b : Bound) : State :=
  let mark (y : Bound) : Bound := if { y with hit := b.hit } = b then { y with hit := true } else y
  s.updCtx tag fun x =>
    { x with
      bounds := x.bounds.modify e mark
      updates := x.updates.map fun u => if u.2.1 = e then (u.1, u.2.1, mark u.2.2) else u }

/-! ### Late traps -/

/-- A trap that is precise although it is found when data return: its crew has issued nothing since, and what the issue has counted is taken
back (R313). -/
def raiseAtLoad (s : State) (c : Nat) (t : Trap) (pc : DWord) : State :=
  match s.crew? c with
  | none => s
  | some x =>
    if x.state = .draining then s
    else
      let s := s.updCrew c fun x =>
        { x with
          tags := x.tags.map fun e => (e.1, if e.2.deferred then e.2 else { e.2 with look := e.2.look + 1 })
          req := { x.req with trap := some (t, pc) } }
      if x.state = .waiting then toReady s c else s

/-- A trap found after issue: the crew takes it at its next boundary, ahead of its next instruction. -/
def raiseLate (s : State) (c : Nat) (t : Trap) (pc : DWord) : State :=
  match s.crew? c with
  | none => s
  | some x =>
    if x.state = .draining then s
    else
      let s := s.updCrew c fun x => { x with req := { x.req with trap := some (t, pc) } }
      if x.state = .waiting then toReady s c else s

end Sys2Proof.Machine
end

