-- ==== Sys2Proof/Machine/Scalar.lean ====
section
/-!
DEFINITION. The scalar instructions (R97 to R101).
-/
namespace Sys2Proof.Machine

/-! ### Integer operations of one width -/

/-- Leading zeros of a `w`-bit pattern. -/
def clz (w x : Nat) : Nat := if x % 2 ^ w = 0 then w else w - 1 - Nat.log2 (x % 2 ^ w)

/-- Ones in a `w`-bit pattern. -/
def popc (w x : Nat) : Nat := ((List.range w).filter fun j => x.testBit j).length

/-- Bitwise operations on `w`-bit patterns. -/
def bitwiseOn (w : Nat) (f : Nat → Nat → Nat) (a b : Int) : Int := (f (wrap w a) (wrap w b) : Nat)

def shiftLeft (w : Nat) (a : Int) (n : Nat) : Int := if n ≥ w then 0 else a * 2 ^ n

/-- The pattern shifted right, filled with zeros. -/
def shiftRight (w : Nat) (a : Int) (n : Nat) : Int := if n ≥ w then 0 else (wrap w a / 2 ^ n : Nat)

/-- The pattern shifted right, filled with its sign bit. -/
def shiftArith (w : Nat) (a : Int) (n : Nat) : Int :=
  let x := signed w (wrap w a)
  if n ≥ w then (if x < 0 then -1 else 0) else x / 2 ^ n

/-- SBFX and VBFX (R99). -/
def fieldExtract (w : Nat) (sgn : Bool) (a : Int) (control : Nat) : Int :=
  let pos := bits control 5 0
  let len := min (bits control 14 8) w
  let f := wrap w a / 2 ^ pos % 2 ^ len
  if sgn && len != 0 then signed len f else f

/-- SBFI (R99): bits at and above `w` are dropped when the result is taken modulo 2^w. -/
def fieldInsert (w : Nat) (old a : Int) (control : Nat) : Int :=
  let pos := bits control 5 0
  let len := min (bits control 14 8) w
  let d := wrap w old
  let field := d / 2 ^ pos % 2 ^ len
  (d - field * 2 ^ pos + wrap len a * 2 ^ pos : Nat)

/-! ### The common form (R97) -/

/-- An instruction whose one effect on the machine is `eff`, issued in the order of R29. -/
def run (i : Instr) (eff : Iss → State → Effect) (s : State) : Host.Outcome State Fault Refusal := .next (issue i noReason eff s)

/-- Two values of the type to one. -/
def scalarBin (i : Instr) (o : Bin) (f : Int → Int → Int) : State → Host.Outcome State Fault Refusal :=
  run i fun x s => scalarResult x s o.ty o.d (f (tyVal o.ty (x.scalarN s o.a)) (tyVal o.ty (x.scalarN s o.b)))

/-- A value of the type and the 64-bit unsigned content of B. -/
def scalarShift (i : Instr) (o : Bin) (f : Nat → Int → Nat → Int) : State → Host.Outcome State Fault Refusal :=
  run i fun x s => scalarResult x s o.ty o.d (f (tyWidth o.ty) (tyVal o.ty (x.scalarN s o.a)) (x.scalarN s o.b))

def scalarUn (i : Instr) (o : Un) (f : Nat → Int → Int) : State → Host.Outcome State Fault Refusal :=
  run i fun x s => scalarResult x s o.ty o.d (f (tyWidth o.ty) (tyVal o.ty (x.scalarN s o.a)))

/-! ### Meanings (R98 to R101) -/

def execSadd (h : Hdr) (o : Bin) (s : State) : Host.Outcome State Fault Refusal := scalarBin (.sadd h o) o (fun a b => a + b) s

def execSsub (h : Hdr) (o : Bin) (s : State) : Host.Outcome State Fault Refusal := scalarBin (.ssub h o) o (fun a b => a - b) s

def execSmul (h : Hdr) (o : Bin) (s : State) : Host.Outcome State Fault Refusal := scalarBin (.smul h o) o (fun a b => a * b) s

def execSmulh (h : Hdr) (o : Bin) (s : State) : Host.Outcome State Fault Refusal :=
  scalarBin (.smulh h o) o (fun a b => a * b / 2 ^ tyWidth o.ty) s

/-- Truncated toward zero; 0 when b = 0. -/
def execSdiv (h : Hdr) (o : Bin) (s : State) : Host.Outcome State Fault Refusal := scalarBin (.sdiv h o) o Int.tdiv s

/-- a when b = 0. -/
def execSrem (h : Hdr) (o : Bin) (s : State) : Host.Outcome State Fault Refusal := scalarBin (.srem h o) o Int.tmod s

def execSand (h : Hdr) (o : Bin) (s : State) : Host.Outcome State Fault Refusal :=
  scalarBin (.sand h o) o (bitwiseOn (tyWidth o.ty) Nat.land) s

def execSor (h : Hdr) (o : Bin) (s : State) : Host.Outcome State Fault Refusal :=
  scalarBin (.sor h o) o (bitwiseOn (tyWidth o.ty) Nat.lor) s

def execSxor (h : Hdr) (o : Bin) (s : State) : Host.Outcome State Fault Refusal :=
  scalarBin (.sxor h o) o (bitwiseOn (tyWidth o.ty) Nat.xor) s

def execSshl (h : Hdr) (o : Bin) (s : State) : Host.Outcome State Fault Refusal := scalarShift (.sshl h o) o shiftLeft s

def execSshr (h : Hdr) (o : Bin) (s : State) : Host.Outcome State Fault Refusal := scalarShift (.sshr h o) o shiftRight s

def execSsra (h : Hdr) (o : Bin) (s : State) : Host.Outcome State Fault Refusal := scalarShift (.ssra h o) o shiftArith s

def execSmin (h : Hdr) (o : Bin) (s : State) : Host.Outcome State Fault Refusal := scalarBin (.smin h o) o min s

def execSmax (h : Hdr) (o : Bin) (s : State) : Host.Outcome State Fault Refusal := scalarBin (.smax h o) o max s

def execScmp (h : Hdr) (o : Cmp) (s : State) : Host.Outcome State Fault Refusal :=
  run (.scmp h o) (fun x s =>
    scalarPlain x s o.d (ccHoldsInt o.cc (tyVal o.ty (x.scalarN s o.a)) (tyVal o.ty (x.scalarN s o.b))).toNat) s

/-- The test uses all 64 bits of C. -/
def execSsel (h : Hdr) (o : Tern) (s : State) : Host.Outcome State Fault Refusal :=
  run (.ssel h o) (fun x s => scalarResult x s o.ty o.d (tyVal o.ty (x.scalarN s (if x.scalar s o.c ≠ 0 then o.a else o.b)))) s

def execSmov (h : Hdr) (o : Un) (s : State) : Host.Outcome State Fault Refusal := scalarUn (.smov h o) o (fun _ a => a) s

def execSclz (h : Hdr) (o : Un) (s : State) : Host.Outcome State Fault Refusal :=
  run (.sclz h o) (fun x s => scalarPlain x s o.d (clz (tyWidth o.ty) (x.scalarN s o.a))) s

def execSpopc (h : Hdr) (o : Un) (s : State) : Host.Outcome State Fault Refusal :=
  run (.spopc h o) (fun x s => scalarPlain x s o.d (popc (tyWidth o.ty) (x.scalarN s o.a))) s

def execSbfx (h : Hdr) (o : Bin) (s : State) : Host.Outcome State Fault Refusal :=
  scalarShift (.sbfx h o) o (fun w a n => fieldExtract w (tySigned o.ty) a n) s

/-- s[D] is also a source. -/
def execSbfi (h : Hdr) (o : Bin) (s : State) : Host.Outcome State Fault Refusal :=
  run (.sbfi h o) (fun x s =>
    scalarResult x s o.ty o.d (fieldInsert (tyWidth o.ty) (tyVal o.ty (x.scalarN s o.d)) (tyVal o.ty (x.scalarN s o.a)) (x.scalarN s o.b))) s

def execSlea (h : Hdr) (o : Lea) (s : State) : Host.Outcome State Fault Refusal :=
  run (.slea h o) (fun x s => scalarPlain x s o.d (x.scalarN s o.a + x.scalarN s o.b * 2 ^ o.sh.toNat)) s

/-- Sign-extended for .I64, zero-extended for .N64. -/
def execSmovi (h : Hdr) (o : MovImm) (s : State) : Host.Outcome State Fault Refusal :=
  run (.smovi h o) (fun x s => .done (giveShort x s (scalarHeld x o.d (if o.sx then o.imm.signExtend 64 else o.imm.setWidth 64)))) s

/-- s[D] is also a source. -/
def execSmovh (h : Hdr) (o : DImm) (s : State) : Host.Outcome State Fault Refusal :=
  run (.smovh h o) (fun x s => scalarPlain x s o.d (o.imm.toNat * 2 ^ 32 + x.scalarN s o.d % 2 ^ 32)) s

end Sys2Proof.Machine
end

