-- ==== Sys2Proof/Machine/Barrier.lean ====
section
/-!
DEFINITION. The barrier instructions (R252 to R257) and the two steps that finish them.
-/
namespace Sys2Proof.Machine

/-! ### Names and checks (R253, R283) -/

/-- The name an instruction gives. -/
def barName (i : Iss) (s : State) (a : Reg) (name : BitVec 11) : Nat := (i.scalarN s a % 2048 + name.toNat) % 2048

/-- PROTECTION with a barrier's name and a reason. -/
def barDenied (i : Iss) (name reason : Nat) : Effect := .trap ⟨0x04, i.em, BitVec.ofNat 64 (name + reason * 2 ^ 12)⟩

/-- The barrier of a group's name. -/
def groupBar (g : Group) (name : Nat) : Option BarRef := if name < g.nbar then some ⟨g.core, g.bar0 + name, name⟩ else none

/-- The barrier of an instruction on its own core (R253 check 3). -/
def ownBar (i : Iss) (s : State) (a : Reg) (nm : BitVec 11) : Except Effect BarRef :=
  let name := barName i s a nm
  match (s.group? i.x.seat.group).bind fun g => groupBar g name with
  | some b => .ok b
  | none => .error (barDenied i name 0)

/-- The barrier of a CLB (R253 checks 1 to 4). -/
def clbBar (i : Iss) (s : State) (o : Clb) : Except Effect BarRef :=
  let name := barName i s o.a o.name
  let k := o.core.toNat
  let check (g : Group) : Except Effect BarRef :=
    match groupBar g name with
    | none => .error (barDenied i name 0)
    | some b =>
      let x := s.bar b.core b.phys
      if x.state ≠ .idle ∧ x.kind ≠ 3 then .error (barDenied i name 2) else .ok b
  match s.group? i.x.seat.group with
  | none => .error (barDenied i name 0)
  | some own =>
    if k = coreInCluster i.g then check own
    else match s.convoy? own.convoy with
      | none => .error (barDenied i name 4)
      | some v =>
        let gid := k ^^^ v.x
        let gone : Effect := .trap ⟨0x06, i.em, BitVec.ofNat 64 (name + k * 2 ^ 16)⟩
        match v.groups[gid]? with
        | none => .error (barDenied i name 4)
        | some hi =>
          match s.group? hi with
          | none => .error gone
          | some h => if v.freed.contains gid ∨ h.state = .closing then .error gone else check h

/-! ### Effects at the barrier -/

/-- A status that returns later and acquires nothing. -/
def giveStatus (i : Iss) (s : State) (b : BarRef) (d : Option Reg) (word : Nat) : Effect :=
  .done (giveOp i s (.barWait b d false (some word) [] []))

/-- The expected phase of a wait or a test (R254). -/
def expectedPhase (i : Iss) (s : State) (ph : Bool) (a : Reg) (x : Bar) : Nat := if ph then bits (i.scalarN s a) 63 48 else x.phase

/-- An operation begins to wait on a barrier, and is released at once when R251 says so. -/
def beginWait (s : State) (op : Nat) (b : BarRef) (p : Nat) : State :=
  let s := s.updBar b.core b.phys fun x => { x with waits := x.waits ++ [(op, p)] }
  wakeWaiters s b.core b.phys

/-- BARW and CLB.wait. -/
def waitForm (i : Iss) (s : State) (b : BarRef) (d : Reg) (p : Nat) : Effect :=
  let op := s.nextId
  .done (beginWait (giveOp i s (.barWait b (some d) false none [] [])) op b p)

/-- BART and CLB.test: the status at once; a test that R251 would release is a completed wait. -/
def testForm (i : Iss) (s : State) (b : BarRef) (d : Reg) (p : Nat) : Effect :=
  let x := s.bar b.core b.phys
  if x.releases p then waitForm i s b d p else giveStatus i s b (some d) (statusWord x b.name)

/-- An arrival takes effect: the status before it, the arriving core in the release set of a cluster barrier (R257), and for a wait its
beginning, with the phase in which it arrived. -/
def arriveNow (s : State) (op : Nat) : State :=
  match s.op? op with
  | some ⟨c, t, k, em, .barArrive b count dst wait _⟩ =>
    let x := s.bar b.core b.phys
    let g := ((s.crew? c).map (·.seat.core)).getD 0
    let s := if x.kind = 3 ∧ x.state = .armed ∧ count ≠ 0 then
      s.updBar b.core b.phys fun x => { x with rel := g :: x.rel.filter (· ≠ g) } else s
    let s := s.setOp op ⟨c, t, k, em, .barWait b dst false (if wait then none else some (statusWord x b.name)) [] []⟩
    let s := arrive s b.core b.phys count
    if wait then beginWait s op b x.phase else s
  | _ => s

/-- BARA, BARAW, CLB.arr and CLB.aw: the arrival follows the crew's queue and loads (R146, R247); one aimed at another core takes effect there
later (R256). -/
def arriveForm (i : Iss) (s : State) (b : BarRef) (d : Reg) (count : Nat) (wait : Bool) : Effect :=
  let after := earlierOps s i.c
  let op := s.nextId
  let s := giveOp i s (.barArrive b count (some d) wait after)
  .done (if after.isEmpty ∧ b.core = i.g then arriveNow s op else s)

/-! ### Meanings (R254) -/

def execBari (h : Hdr) (o : BarInit) (s : State) : Host.Outcome State Fault Refusal :=
  run (.bari h o) (fun i s =>
    match ownBar i s o.a o.name with
    | .error e => e
    | .ok b =>
      let c := if o.d = .zero then o.count.toNat else i.scalarN s o.d % 2 ^ 32
      if (s.bar b.core b.phys).state = .armed then barDenied i b.name 1
      else if c ≥ 2 ^ 28 then barDenied i b.name 3
      else
        let s := barInit s b.core b.phys o.kind.toNat o.auto c
        giveStatus i s b none 0) s

def execBara (h : Hdr) (o : BarCount) (s : State) : Host.Outcome State Fault Refusal :=
  run (.bara h o) (fun i s =>
    match ownBar i s o.a o.name with
    | .error e => e
    | .ok b => arriveForm i s b o.d o.count.toNat false) s

def execBarw (h : Hdr) (o : BarPh) (s : State) : Host.Outcome State Fault Refusal :=
  run (.barw h o) (fun i s =>
    match ownBar i s o.a o.name with
    | .error e => e
    | .ok b => waitForm i s b o.d (expectedPhase i s o.ph o.a (s.bar b.core b.phys))) s

def execBaraw (h : Hdr) (o : BarCount) (s : State) : Host.Outcome State Fault Refusal :=
  run (.baraw h o) (fun i s =>
    match ownBar i s o.a o.name with
    | .error e => e
    | .ok b => arriveForm i s b o.d o.count.toNat true) s

def execBart (h : Hdr) (o : BarPh) (s : State) : Host.Outcome State Fault Refusal :=
  run (.bart h o) (fun i s =>
    match ownBar i s o.a o.name with
    | .error e => e
    | .ok b => testForm i s b o.d (expectedPhase i s o.ph o.a (s.bar b.core b.phys))) s

def execBarx (h : Hdr) (o : BarName) (s : State) : Host.Outcome State Fault Refusal :=
  run (.barx h o) (fun i s =>
    match ownBar i s o.a o.name with
    | .error e => e
    | .ok b => giveStatus i (retire s b.core b.phys) b (some o.d) (statusWord (s.bar b.core b.phys) b.name)) s

def execBarq (h : Hdr) (o : BarName) (s : State) : Host.Outcome State Fault Refusal :=
  run (.barq h o) (fun i s =>
    match ownBar i s o.a o.name with
    | .error e => e
    | .ok b => giveStatus i s b (some o.d) (configWord (s.bar b.core b.phys) b.name)) s

def execClb (h : Hdr) (o : Clb) (s : State) : Host.Outcome State Fault Refusal :=
  run (.clb h o) (fun i s =>
    match clbBar i s o with
    | .error e => e
    | .ok b =>
      let p := expectedPhase i s o.ph o.a (s.bar b.core b.phys)
      match o.op with
      | .arr => arriveForm i s b o.d o.count.toNat false
      | .aw => arriveForm i s b o.d o.count.toNat true
      | .wait => waitForm i s b o.d p
      | .test => testForm i s b o.d p) s

/-! ### Their steps (R256) -/

/-- CLUSTER_BARRIER_ARRIVAL: an arrival whose release part is complete takes effect; for a CLB, at the barrier's core. -/
def execClusterBarrierArrival (op : Nat) (s : State) : Host.Outcome State Fault Refusal :=
  .next (
    match s.op? op with
    | some ⟨c, _, _, _, .barArrive _ _ _ _ after⟩ => if after.any (opPending s c) then s else arriveNow s op
    | _ => s)

/-- BARRIER_STATUS_RETURN: the status returns. A completed wait has acquired: the drains it demanded are done, and the waiting core's stale
lines go (R252, R257). -/
def execBarrierStatusReturn (op : Nat) (s : State) : Host.Outcome State Fault Refusal :=
  .next (
    match s.op? op with
    | some ⟨c, _, k, _, .barWait _ dst acq (some word) [] inv⟩ =>
      let g := ((s.crew? c).map (·.seat.core)).getD 0
      let s := invalidateLines s g inv
      let s := if acq then invalidateStale s g else s
      finishOp s op (heldScalar? k dst (BitVec.ofNat 64 word))
    | _ => s)

end Sys2Proof.Machine
end

