-- ==== Sys2Proof/Machine/ArrayMode.lean ====
section
/-!
DEFINITION. ARMODE and ARQ (R189 to R196), the pitch and the slots of the plane layout (R197), and the steps by which an array settles, returns
to storage and is cleared.
-/
namespace Sys2Proof.Machine

/-! ### Slots (R197) -/

def slotPitch (pb : Nat) : Nat := if pb % 2 = 1 then 65 * pb + 7 else 65 * pb + 8

def slotCount (pb : Nat) : Nat := if pb = 0 then 0 else 2048 / slotPitch pb

def Arr.slot (a : Arr) (n : Nat) : SlotRec := SMap.getD a.slots n SlotRec.free

/-- A slot holds a matrix instruction. -/
def Arr.anyBusy (a : Arr) : Bool := a.slots.any fun e => e.2.op.isSome

/-! ### Checks and traps (R192, R193, R196) -/

/-- The crew's group holds the array. -/
def arrayHeld (i : Iss) (s : State) (a : Nat) : Bool := decide (a ≤ 23) && (s.group? i.x.seat.group).any fun g => g.holds a

def arrayMode (lanes : Mask) (a reason : Nat) : Effect := .trap ⟨0x0D, lanes, BitVec.ofNat 64 (a + reason * 2 ^ 8)⟩

def arrayDenied (i : Iss) (a : Nat) : Effect := .trap ⟨0x04, i.em, BitVec.ofNat 64 a⟩

/-- ARMODE.reef: the array is bound to an ARMED reef barrier. -/
def execArmodeReef (h : Hdr) (o : Reef) (s : State) : Host.Outcome State Fault Refusal :=
  run (.armodeReef h o) (fun i s =>
    let a := i.scalarN s o.a % 32
    let name := i.scalarN s o.b % 2048
    let r := s.arr i.g a
    if !arrayHeld i s a || !r.comp then arrayDenied i a
    else match (s.group? i.x.seat.group).bind fun g => groupBar g name with
      | none => .trap ⟨0x04, i.em, BitVec.ofNat 64 (name + 2 ^ 16)⟩
      | some b =>
        let x := s.bar b.core b.phys
        if r.state = .offline then arrayMode i.em a 7
        else if r.state ≠ .storage then arrayMode i.em a 2
        else if x.kind ≠ 2 ∨ x.state ≠ .armed ∨ x.arr.isSome then arrayMode i.em a 4
        else
          let op := s.nextId
          let s := giveOp i s (.armode i.g a)
          .done ((s.updArr i.g a fun r => { r with state := .reefing, pb := o.pb.toNat, bar := some b.phys, op := some op }).updBar b.core b.phys
            fun x => { x with arr := some a })) s

/-- ARMODE.unreef. -/
def execArmodeUnreef (h : Hdr) (o : Src) (s : State) : Host.Outcome State Fault Refusal :=
  run (.armodeUnreef h o) (fun i s =>
    let a := i.scalarN s o.a % 32
    let r := s.arr i.g a
    if !arrayHeld i s a || !r.comp then arrayDenied i a
    else match r.state with
      | .settling => .wait (.array i.g a)
      | .unreefing => arrayMode i.em a 3
      | .offline => arrayMode i.em a 7
      | .compute =>
        let op := s.nextId
        .done ((giveOp i s (.armode i.g a)).updArr i.g a fun r => { r with state := .unreefing, op := some op, pass := none })
      | .reefing =>
        let s := match r.bar with
          | some n => s.updBar i.g n fun x => { x with arr := none }
          | none => s
        .done (giveTag i (reefDropped s i.g a))
      | _ => .done (giveTag i s)) s

/-! ### ARQ (R193 to R195) -/

def ArrState.code : ArrState → Nat
  | .reefing => 1 | .settling => 2 | .compute => 3 | .unreefing => 4 | .offline => 5 | _ => 0

/-- The state word (R194). -/
def Arr.stateWord (a : Arr) : Nat :=
  let pb := if a.state = .storage then 0 else a.pb
  ((List.range 28).map fun j => if (a.slot j).op.isSome then 2 ^ (36 + j) else 0).sum + min a.terep 65535 * 2 ^ 16 + pb % 32 * 2 ^ 11 +
    slotCount pb % 64 * 2 ^ 5 + a.state.code

/-- The latch bound to a slot for a crew (R207). -/
def Arr.latch? (a : Arr) (slot cid : Nat) : Option Latch := a.latches.find? fun l => l.slot == slot && l.cid == cid

/-- The slot word (R195). -/
def Arr.slotWord (a : Arr) (n cid : Nat) : Nat :=
  let r := a.slot n
  let l := a.latch? n cid
  ((l.map (·.dcount)).getD 0) % 2 ^ 32 * 2 ^ 16 + l.isSome.toNat * 2 ^ 12 + r.owner % 16 * 2 ^ 8 + r.disc.toNat * 2 ^ 3 + r.samp.toNat * 2 ^ 2 +
    r.full.toNat * 2 + r.op.isSome.toNat

def execArqState (h : Hdr) (o : DA) (s : State) : Host.Outcome State Fault Refusal :=
  run (.arqState h o) (fun i s =>
    let a := i.scalarN s o.a % 32
    if !arrayHeld i s a then arrayDenied i a else scalarPlain i s o.d (s.arr i.g a).stateWord) s

/-- ARQ.slot; .clr clears DISC after the read. -/
def execArqSlot (h : Hdr) (o : ArqSlot) (s : State) : Host.Outcome State Fault Refusal :=
  run (.arqSlot h o) (fun i s =>
    let x := i.scalarN s o.a
    let a := x % 32
    let n := bits x 12 8
    let r := s.arr i.g a
    if !arrayHeld i s a then arrayDenied i a
    else if (r.state ≠ .settling ∧ r.state ≠ .compute ∧ r.state ≠ .unreefing) ∨ slotCount r.pb ≤ n then scalarPlain i s o.d 0
    else
      let s' := if o.clr then s.updArr i.g a fun r => { r with slots := SMap.setD r.slots n SlotRec.free { r.slot n with disc := false } } else s
      scalarPlain i s' o.d (r.slotWord n i.x.seat.cid)) s

def execArqHeld (h : Hdr) (o : Dst) (s : State) : Host.Outcome State Fault Refusal :=
  run (.arqHeld h o) (fun i s =>
    let held := (List.range 24).filter (arrayHeld i s)
    scalarPlain i s o.d ((held.map fun a => if (s.arr i.g a).comp then 2 ^ (24 + a) else 2 ^ a).sum)) s

/-! ### The array's own steps (R189) -/

/-- The tag of an array's ARMODE completes. -/
def endArmode (s : State) (g a : Nat) : State :=
  match (s.arr g a).op with
  | some o => finishOp (s.updArr g a fun r => { r with op := none }) o {}
  | none => s

/-- An event of an array: its DATA and LOC are not stated (log 2). -/
def reportArray (s : State) (kind tag : Nat) : State :=
  let (d, s) := s.freeValue
  let (l, s) := s.freeValue
  emit s ⟨d, kind, tag, l⟩

/-- ARRAY_SETTLED: COMPUTE, or OFFLINE with a report to system software. -/
def execArraySettled (core arr : Nat) (pass : Bool) (s : State) : Host.Outcome State Fault Refusal :=
  .next (
    let r := s.arr core arr
    if r.state ≠ .settling then s
    else
      let s := endArmode (s.updArr core arr fun r => { r with state := if pass then .compute else .offline }) core arr
      if pass then s else reportArray s 2 r.tag)

/-- Matrix instructions that have still to end on an array. -/
def matrixOn (s : State) (g a : Nat) : Bool :=
  s.ops.any fun e => match e.2.kind with
    | .matrix m => m.core == g && m.arr == a
    | _ => false

/-- The group that held the array has gone. -/
def arrayOrphan (s : State) (r : Arr) : Bool :=
  match r.group.bind s.group? with
  | none => true
  | some g => g.state == .closing

/-- ARRAY_UNREEFED: after the last slot is free, STORAGE, or CLEARING when the group has gone; the delta latches are invalidated. -/
def execArrayUnreefed (core arr : Nat) (s : State) : Host.Outcome State Fault Refusal :=
  .next (
    let r := s.arr core arr
    if r.state ≠ .unreefing ∨ r.anyBusy ∨ matrixOn s core arr then s
    else endArmode (s.updArr core arr fun x =>
      { x with state := if arrayOrphan s r then .clearing else .storage, pb := 0, latches := [] }) core arr)

/-- ARRAY_CLEARED: every byte zero, the tag and the counters of R195 cleared. -/
def execArrayCleared (core arr : Nat) (s : State) : Host.Outcome State Fault Refusal :=
  .next (if (s.arr core arr).state = .clearing then s.updArr core arr fun _ => Arr.unheld else s)

end Sys2Proof.Machine
end

