-- ==== Sys2Proof/Machine/LoadStore.lean ====
section
/-!
DEFINITION. Loads, stores and prefetch (R159 to R170, R174).
-/
namespace Sys2Proof.Machine

/-! ### Addresses and data (R160, R162) -/

/-- The sum of an address, as its space wraps it. -/
def addrWrap (space : Nat) (x : Int) : Nat := if space = 0 then wrap 64 x else wrap 32 x

/-- Base and scaled vector offset, by active lane. -/
def vecAddrs (i : Iss) (s : State) (space : Nat) (a b : Reg) (sh : Nat) : List (Nat × Nat) :=
  (activeLanes i.em).map fun l => (l, addrWrap space ((i.scalarN s a : Int) + signed 32 (i.lane32 b 0 l) * 2 ^ sh))

/-- A pointer per lane and a scalar offset. -/
def ptrAddrs (i : Iss) (s : State) (space : Nat) (a b : Reg) : List (Nat × Nat) :=
  (activeLanes i.em).map fun l => (l, addrWrap space ((i.lane 64 a l : Int) + signed 64 (i.scalarN s b)))

/-- The one address of a scalar form, as lane 0. -/
def scalarAddr (i : Iss) (s : State) (space : Nat) (a b : Reg) : List (Nat × Nat) :=
  [(0, addrWrap space ((i.scalarN s a : Int) + signed 64 (i.scalarN s b)))]

/-- Lane `l` of a source of `w` bytes in vector registers. -/
def laneData (i : Iss) (w : Nat) (r : Reg) (l : Nat) : Nat :=
  ((List.range (max 1 (w / 4))).foldl (fun n j => n + i.lane32 r j l * 2 ^ (32 * j)) 0) % 2 ^ (8 * w)

/-- A source of `w` bytes in scalar registers. -/
def scalarData (i : Iss) (s : State) (w : Nat) (r : Reg) : Nat :=
  ((i.scalarAt s r 0).toNat + (if w = 16 then (i.scalarAt s r 1).toNat * 2 ^ 64 else 0)) % 2 ^ (8 * w)

def memSigned : MemTy → Bool
  | .i8 | .i16 | .i32 | .i64 => true
  | _ => false

/-- The vector registers of a loaded value, by lane. -/
def loadRegs (ty : MemTy) (f : Nat → Nat) : List Lanes :=
  let w := ty.bytes
  let ext (l : Nat) : Nat := if w < 4 ∧ memSigned ty then wrap 32 (signed (8 * w) (f l)) else f l
  (List.range (max 1 (w / 4))).map fun j => Lanes.ofFn fun l => BitVec.ofNat 32 (ext l / 2 ^ (32 * j))

/-- A loaded value in scalar registers: extended to 64 bits by the type, or a pair. -/
def loadScalars (ty : MemTy) (x : Nat) : List DWord :=
  let w := ty.bytes
  if w = 16 then [BitVec.ofNat 64 x, BitVec.ofNat 64 (x / 2 ^ 64)]
  else [if memSigned ty then BitVec.ofInt 64 (signed (8 * w) x) else BitVec.ofNat 64 x]

/-- Writes of `n` scalar registers from `d` on. -/
def heldScalars (bank : Bool) (d : Reg) (l : List DWord) : Held :=
  match d with
  | .s k => { regs := (l.mapIdx fun j x => (k.val + j, x)).filterMap fun e =>
      if h : e.1 < 128 then some (.s ⟨e.1, h⟩ bank e.2) else none }
  | _ => {}

/-! ### Loads (R140, R164, R169) -/

/-- The bytes a load takes when it issues: those of the crew's own queue, and the units of which every byte is at hand (R140, R141). -/
def takeAtIssue (own here : Place → Option Byte) (accs : List LaneAcc) : List (Nat × Nat × Byte) :=
  accs.flatMap fun a => (a.at_.mapIdx fun j p => (j, p)).filterMap fun k =>
    (own k.2 <|> (if (a.unit k.1).all fun p => (own p <|> here p).isSome then here k.2 else none)).map fun b => (a.lane, k.1, b)

/-- A load with something still to come under a tag: whether its crew issues nothing before the data arrive. Poison that arrives with them then
raises DATA_ERROR precisely (R313); a load that its crew has passed by takes its data as they are (log 14). -/
def watchLoad (i : Iss) (s : State) (open_ : Bool) : Bool × State :=
  if i.h.tag = 0 then (true, s)
  else if open_ then
    let (f, s) := s.freeValue
    (f.testBit 0, s)
  else (false, s)

/-- A load issues: it takes the youngest bytes of the crew's own queue and what its core holds, but for bytes that an earlier load of the crew has
still to take (R144), and asks for the lines it misses; each lane's load of a peer's memory is one request (R357). An acquire at CLUSTER scope or wider takes its value from its home (R152). -/
def startLoad (i : Iss) (s : State) (ty : MemTy) (scalar : Bool) (d : Reg) (mm : MemMods) (accs : List LaneAcc) : Effect :=
  let ks := slotsOf accs
  match queueBlocks i.x (ks.map fun k => k.2.2) with
  | o :: os => .wait (.ops (o :: os))
  | [] =>
    let hosted := ks.any fun k => match k.2.2 with
      | .glob _ _ map => !map.cached
      | _ => false
    let (f, s) := if hosted then s.freeValue else (0, s)
    let refused (k : Nat × Nat × Place) : Bool := match k.2.2 with
      | .glob _ _ map => !map.cached && f.testBit k.1
      | _ => false
    let bad := (ks.filter fun k => (queueByte? i.x k.2.2).isNone && (placeBad s i.g k.2.2 || refused k)).map (·.1)
    if !bad.isEmpty then
      let ls := accs.filter fun a => bad.contains a.lane
      .trap ⟨0x0F, lanesMask bad.eraseDups, BitVec.ofNat 64 (ls.foldl (fun m a => min m a.ea) (ls.headD ⟨0, 0, []⟩).ea)⟩
    else
      let acq := if mm.ord = 1 then some mm.scope.toNat else none
      let home := acq.any (· ≥ 2)
      let here (p : Place) : Option Byte := if home || heldBack s i.c s.nextId i.g p then none else readyByte? s i.g p
      let got := takeAtIssue (queueByte? i.x) here accs
      let lines := if home then [] else (ks.filterMap fun k =>
        match k.2.2 with
        | .glob pa _ map => if map.cached && !(got.any fun e => e.1 == k.1 && e.2.1 == k.2.1) then some (lineOf pa) else none
        | _ => none).eraseDups
      let ps := ks.map fun k => k.2.2
      let s := s.updCore i.g fun k => { k with fills := k.fills ++ lines.filter fun n => !k.fills.contains n }
      let s := readBanks s (ps.filter fun p => (readyByte? s i.g p).isSome)
      let asked := accs.filter fun a => a.at_.any fun p => (queueByte? i.x p).isNone && p.isPeer
      let s := asked.foldl (fun s a => peerAsk s 0 none a.at_ []) s
      let (watch, s) := watchLoad i s (got.length != ks.length)
      let o := s.nextId
      let s := giveOp i s (.load
        ⟨ty, scalar, some d, accs, got, lines, acq, false, busyArrays s ps, [], i.pc, mm.ch.toNat, watch, partsOf ps, []⟩)
      .done (if watch && i.h.tag != 0 then toWaiting s i.c (.ops [o]) else s)

/-- A load of vector lanes or of a scalar: the checks, then the load. -/
def loadForm (i : Iss) (s : State) (space : Nat) (ty : MemTy) (scalar : Bool) (d : Reg) (mm : MemMods) (l : List (Nat × Nat)) : Effect :=
  match l with
  | [] => noLanes i s mm.ord.toNat mm.scope.toNat
  | _ =>
    match checkAccess s i.x { space := space, align := ty.bytes, write := false, pieces := l.map fun e => ⟨e.1, e.2, ty.bytes⟩ } with
    | .error e => e
    | .ok accs => startLoad i s ty scalar d mm accs

/-! ### Stores (R140, R166) -/

/-- The bound check of a store: the values to store, or the lanes a trap action stops. -/
def boundStore (s : State) (tag : Nat) (bnd : Option (BitVec 6)) (l : List (Nat × Nat)) : Except (List Nat) (List (Nat × Nat)) × State :=
  match bnd with
  | none => (.ok l, s)
  | some e =>
    let (b, s) := boundNow s tag e.toNat
    let bad := (l.filter fun v => b.outside v.2).map (·.1)
    if bad.isEmpty then (.ok l, s)
    else if b.act = 2 then (.error bad, s)
    else
      let s := setHit s tag e.toNat b
      (.ok (if b.act = 1 then l.map fun v => (v.1, if b.outside v.2 then b.clamp v.2 else v.2) else l), s)

/-- A store: the checks, then an entry of the store queue. -/
def storeForm (i : Iss) (s : State) (space : Nat) (ty : MemTy) (mm : MemMods) (l : List (Nat × Nat)) (data : Nat → Nat) : Effect :=
  match l with
  | [] => noLanes i s mm.ord.toNat mm.scope.toNat
  | _ =>
    if queueFull i.x then .wait .queueSpace
    else
      match checkAccess s i.x { space := space, align := ty.bytes, write := true, pieces := l.map fun e => ⟨e.1, e.2, ty.bytes⟩ } with
      | .error e => e
      | .ok accs =>
        match boundStore s i.tag mm.bnd (l.map fun e => (e.1, data e.1)) with
        | (.error bad, _) =>
          let ls := accs.filter fun a => bad.contains a.lane
          .trap ⟨0x0C, lanesMask bad, BitVec.ofNat 64 (ls.foldl (fun m a => min m a.ea) (ls.headD ⟨0, 0, []⟩).ea)⟩
        | (.ok vals, s) =>
          match if mm.ord = 2 then sysRelease i s 2 mm.scope.toNat else none with
          | some e => e
          | none =>
            let bytes := accs.flatMap fun a =>
              let v := ((vals.find? fun e => e.1 == a.lane).map (·.2)).getD 0
              (a.at_.zip (toBytes ty.bytes v)).map fun e => (a.lane, e.1, e.2)
            .done (giveEntry i s none (.lanes 0) (.store bytes mm.ord.toNat mm.scope.toNat mm.ch.toNat))

/-! ### Meanings -/

def execLds (h : Hdr) (o : MemVec) (s : State) : Host.Outcome State Fault Refusal :=
  run (.lds h o) (fun i s =>
    let sp := if o.scr then 2 else 1
    loadForm i s sp o.ty false o.r o.mm (vecAddrs i s sp o.a o.b o.sh.toNat)) s

def execSts (h : Hdr) (o : MemVec) (s : State) : Host.Outcome State Fault Refusal :=
  run (.sts h o) (fun i s =>
    let sp := if o.scr then 2 else 1
    storeForm i s sp o.ty o.mm (vecAddrs i s sp o.a o.b o.sh.toNat) (laneData i o.ty.bytes o.r)) s

def execLdg (h : Hdr) (o : MemVec) (s : State) : Host.Outcome State Fault Refusal :=
  run (.ldg h o) (fun i s => loadForm i s 0 o.ty false o.r o.mm (vecAddrs i s 0 o.a o.b o.sh.toNat)) s

def execStg (h : Hdr) (o : MemVec) (s : State) : Host.Outcome State Fault Refusal :=
  run (.stg h o) (fun i s => storeForm i s 0 o.ty o.mm (vecAddrs i s 0 o.a o.b o.sh.toNat) (laneData i o.ty.bytes o.r)) s

def execLdx (h : Hdr) (o : MemPtr) (s : State) : Host.Outcome State Fault Refusal :=
  run (.ldx h o) (fun i s => loadForm i s o.space.toNat o.ty false o.r o.mm (ptrAddrs i s o.space.toNat o.a o.b)) s

def execStx (h : Hdr) (o : MemPtr) (s : State) : Host.Outcome State Fault Refusal :=
  run (.stx h o) (fun i s =>
    storeForm i s o.space.toNat o.ty o.mm (ptrAddrs i s o.space.toNat o.a o.b) (laneData i o.ty.bytes o.r)) s

def execLdsc (h : Hdr) (o : MemPtr) (s : State) : Host.Outcome State Fault Refusal :=
  run (.ldsc h o) (fun i s => loadForm i s o.space.toNat o.ty true o.r o.mm (scalarAddr i s o.space.toNat o.a o.b)) s

def execStsc (h : Hdr) (o : MemPtr) (s : State) : Host.Outcome State Fault Refusal :=
  run (.stsc h o) (fun i s =>
    storeForm i s o.space.toNat o.ty o.mm (scalarAddr i s o.space.toNat o.a o.b) (fun _ => scalarData i s o.ty.bytes o.r)) s

/-! ### Prefetch (R174) -/

/-- The walk of a prefetch: no fault is served for it, and a page that cannot be read drops its lanes. -/
def prefetchPage (s : State) (g tag va : Nat) : State :=
  match tlbFind (s.core g) tag va false, s.ctx? tag with
  | none, some x =>
    match walk s.mem x.desc.troot (va % 2 ^ 57) with
    | .leaf e l ptr =>
      let e' := setAD e false
      addTlb { s with mem := s.mem.writeLE ptr 8 e' } g
        ⟨tag, va % 2 ^ 57 - va % levelSize l, levelSize l, BitVec.ofNat 64 e'⟩
    | .fault .. => s
  | _, _ => s

/-- The byte a prefetch address names, when no check of R163 drops it. -/
def prefetchPlace (s : State) (i : Iss) (va : Nat) : Option (Nat × Place) :=
  match translate s i.g i.tag va .read with
  | .ok pa map => if map.cached && !lockedByte s i.g i.tag false (.glob pa va map) then some (lineOf pa, .glob pa va map) else none
  | _ => none

/-- One place for each line of a prefetch. -/
def lineHeads : List (Nat × Place) → List (Nat × Place)
  | [] => []
  | e :: t => e :: (lineHeads t).filter fun x => x.1 != e.1

/-- PREF: each line is asked for at its home, and without .l2 comes to the L1. What the L2 then holds is time only (log 1). -/
def execPref (h : Hdr) (o : Pref) (s : State) : Host.Outcome State Fault Refusal :=
  run (.pref h o) (fun i s =>
    match vecAddrs i s 0 o.a o.b o.sh.toNat with
    | [] => noLanes i s o.mm.ord.toNat o.mm.scope.toNat
    | l =>
      let vas := (l.map (·.2)).filter canonical
      let s := vas.foldl (fun s va => prefetchPage s i.g i.tag va) s
      let heads := (lineHeads (vas.filterMap (prefetchPlace s i))).filter fun e => !(((s.core i.g).l1.find? e.1).any (·.filled))
      let acq := if o.mm.ord = 1 then some o.mm.scope.toNat else none
      if o.l2 then
        .done (giveOp i (heads.foldl (fun s e => noteHome s (128 * e.1)) s)
          (.load ⟨.n8, false, none, [], [], [], acq, false, [], [], i.pc, o.mm.ch.toNat, false, [], []⟩))
      else
        let lines := heads.map (·.1)
        let s := s.updCore i.g fun k => { k with fills := k.fills ++ lines.filter fun n => !k.fills.contains n }
        .done (giveOp i s (.load
          ⟨.n8, false, none, heads.map fun e => ⟨0, 128 * e.1, [e.2]⟩, [], lines, acq, false, [], [], i.pc, o.mm.ch.toNat, false, [], []⟩))) s

end Sys2Proof.Machine
end

