-- ==== Sys2Proof/Machine/Atomic.lean ====
section
/-!
DEFINITION. Atomics (R178 to R186): the checks, the entry of the store queue, and what each does at its location.
-/
namespace Sys2Proof.Machine

/-! ### The operation at a location -/

/-- R183: the greater magnitude, with sign 0; a NaN on either side gives the canonical NaN. -/
def maxMag (w c : Nat) : Nat :=
  if (fmtF32.read w).isNan || (fmtF32.read c).isNan then fmtF32.nan else max (w % fmtF32.sign) (c % fmtF32.sign)

/-- The new value of a location of `w` bits. An operand of a CAS holds the compare value and, above it, the new one. -/
def RmwOp.new (op : RmwOp) (w old c : Nat) : Nat :=
  match op with
  | .int .add _ => (old + c) % 2 ^ w
  | .int .min sgn => if (if sgn then decide (signed w old ≤ signed w c) else decide (old ≤ c)) then old else c
  | .int .max sgn => if (if sgn then decide (signed w old ≤ signed w c) else decide (old ≤ c)) then c else old
  | .int .and _ => old &&& c
  | .int .or _ => old ||| c
  | .int .xor _ => old ^^^ c
  | .int .exch _ => c
  | .int .cas _ | .cas => if old = c % 2 ^ w then c / 2 ^ w % 2 ^ w else old
  | .fadd => (Sys2Proof.Machine.fadd fmtF32 .rn (fmtF32.read old) (fmtF32.read c)).bits
  | .fxadd p => fxAdd old (fxConvert p c)
  | .fmax => maxMag old c
  | .frst => 0

/-! ### Support of the root complex (R185, R354) -/

/-- The AtomicOp completer sizes recorded for the port of a physical address. -/
def atomicSizes (s : State) (pa : Nat) : Nat := if region pa = 3 then s.mg.atom1 else s.mg.atom0

/-- Whether an operation of `w` bits can be sent as an AtomicOp. -/
def hostAtomicOk (bits : Nat) (op : RmwOp) (w : Nat) : Bool :=
  let size := if w = 32 then bits.testBit 0 else if w = 64 then bits.testBit 1 else bits.testBit 2
  match op with
  | .int .add _ | .int .exch _ => (w == 32 || w == 64) && size && bits.testBit 3
  | .int .cas _ | .cas => size
  | _ => false

/-! ### Issue -/

/-- The places of a non-coherent mapping: their requests may be answered with an error (R186). -/
def hostPlaces (accs : List LaneAcc) : Bool :=
  accs.any fun a => a.at_.any fun p => match p with
    | .glob _ _ map => map == .noncoherent || map == .peer
    | _ => false

/-- The lines of the L1 that an atomic's locations lie in. -/
def atomLines (accs : List LaneAcc) : List Nat :=
  (accs.flatMap fun a => a.at_.filterMap fun p => match p with
    | .glob pa _ map => if map.cached then some (lineOf pa) else none
    | _ => none).eraseDups

/-- An atomic: the checks, then an entry of the store queue. Its line leaves the issuing core's L1. A crew whose atomic goes to a host or a
peer device waits at it for every completion (R186). An atomic that is a release at SYSTEM scope first sees every earlier store of its crew
performed (R375). -/
def atomicForm (i : Iss) (s : State) (win : Bool) (op : RmwOp) (w : Nat) (d : Reg) (ret : AtomRet) (mm : MemMods) (l : List (Nat × Nat))
    (data : Nat → Nat) : Effect :=
  match l with
  | [] => noLanes i s mm.ord.toNat mm.scope.toNat
  | _ =>
    if queueFull i.x then .wait .queueSpace
    else
      let no (p : Place) : Bool := match p with
        | .glob pa _ map => map == .noncoherent && !hostAtomicOk (atomicSizes s pa) op w
        | _ => false
      let req : Req :=
        { space := if win then 1 else 0, align := w / 8, write := true, pieces := l.map fun e => ⟨e.1, e.2, w / 8⟩, atomic := no }
      match if mm.ord.toNat ≥ 2 then sysWait i s 2 mm.scope.toNat else none, checkAccess s i.x req with
      | some e, _ | none, .error e => e
      | none, .ok accs =>
        match if mm.ord.toNat ≥ 2 then sysRelease i s 2 mm.scope.toNat else none with
        | some e => e
        | none =>
          let s := invalidateLines s i.g (atomLines accs)
          let o := s.nextId
          let s := giveEntry i s (some d) ret (.atomic
            { op := op, width := w, lanes := accs.map fun a => (a, data a.lane), ord := mm.ord.toNat, scope := mm.scope.toNat, pc := i.pc })
          .done (if hostPlaces accs then toWaiting s i.c (.ops [o]) else s)

/-! ### Meanings -/

def execAtom (h : Hdr) (o : Atom) (s : State) : Host.Outcome State Fault Refusal :=
  run (.atom h o) (fun i s =>
    let w := tyWidth o.ty
    atomicForm i s o.win (.int o.op (tySigned o.ty)) w o.d (.lanes w) o.mm (vecAddrs i s (if o.win then 1 else 0) o.a o.b o.sh.toNat)
      (laneData i (w / 8) o.c)) s

def execAtomCas (h : Hdr) (o : AtomCas) (s : State) : Host.Outcome State Fault Refusal :=
  run (.atomCas h o) (fun i s =>
    let w := 8 * o.ty.bytes
    atomicForm i s o.win .cas w o.d (.lanes w) o.mm (vecAddrs i s (if o.win then 1 else 0) o.a o.b o.sh.toNat)
      (laneData i (w / 4) o.c)) s

def execAtomFadd (h : Hdr) (o : AtomF) (s : State) : Host.Outcome State Fault Refusal :=
  run (.atomFadd h o) (fun i s =>
    atomicForm i s o.win .fadd 32 o.d (.lanes 32) o.mm (vecAddrs i s (if o.win then 1 else 0) o.a o.b o.sh.toNat) (laneData i 4 o.c)) s

def execAtomFxadd (h : Hdr) (o : AtomFx) (s : State) : Host.Outcome State Fault Refusal :=
  run (.atomFxadd h o) (fun i s =>
    atomicForm i s o.win (.fxadd o.p.toNat) 64 o.d (.lanes 64) o.mm
      (vecAddrs i s (if o.win then 1 else 0) o.a o.b (if o.by8 then 3 else 0)) (laneData i 4 o.c)) s

def execAtomFmaxr (h : Hdr) (o : AtomMax) (s : State) : Host.Outcome State Fault Refusal :=
  run (.atomFmaxr h o) (fun i s =>
    let addrs := vecAddrs i s (if o.win then 1 else 0) o.a o.b o.sh.toNat
    match o.upd with
    | some c => atomicForm i s o.win .fmax 32 o.d (.lanes 32) o.mm addrs (laneData i 4 c)
    | none => atomicForm i s o.win .frst 32 o.d (.lanes 32) o.mm addrs (fun _ => 0)) s

/-- The width and signedness of a type of SATOM. -/
def satomTy : SatomTy → Nat × Bool
  | .i32 => (32, true)
  | .n32 => (32, false)
  | .i64 => (64, true)
  | .n64 => (64, false)
  | .b128 => (128, false)

/-- The operand of SATOM (R184): `n` scalars, each giving up to 64 bits. -/
def satomData (i : Iss) (s : State) (w n : Nat) (r : Reg) : Nat :=
  let step := min w 64
  (List.range n).foldl (fun x j => x + (i.scalarAt s r j).toNat % 2 ^ step * 2 ^ (step * j)) 0

def execSatom (h : Hdr) (o : Satom) (s : State) : Host.Outcome State Fault Refusal :=
  run (.satom h o) (fun i s =>
    let (w, sgn) := satomTy o.ty
    let n := o.ty.regs * (if o.op = .cas then 2 else 1)
    atomicForm i s o.win (.int o.op sgn) w o.d (.scalar w sgn) o.mm (scalarAddr i s (if o.win then 1 else 0) o.a o.b)
      (fun _ => satomData i s w n o.c)) s

end Sys2Proof.Machine
end

