-- ==== Sys2Proof/Machine/Tile.lean ====
section
/-!
DEFINITION. Tiles (R212 to R221): where a tile's bytes lie, reading and writing it, its checksums and their disagreements, TDECL, TFREE, TCHK
and TFIX; and the instructions of the bound entries (R222 to R224).
-/
namespace Sys2Proof.Machine

/-! ### The bytes of a tile (R212, R213) -/

def Tile.width (t : Tile) : Nat := tileWidth t.fmt

def Tile.rowBytes (t : Tile) : Nat := ceilDiv (t.cols * t.width) 8

/-- A run of bytes that starts on a multiple of 16, in pieces; a scalar form is lane 0. -/
def runPieces (ea n : Nat) : List Piece := (List.range (ceilDiv n 16)).map fun j => ⟨0, (ea + 16 * j) % 2 ^ 64, min 16 (n - 16 * j)⟩

def Tile.elemPieces (t : Tile) : List Piece := (List.range t.rows).flatMap fun r => runPieces (t.base + t.pitch * r) t.rowBytes

def Tile.sumPieces (t : Tile) : List Piece := runPieces t.csum (4 * (t.rows + t.cols))

/-- Byte `o` of the crew's own vector registers, counted from the first (R212). -/
def regByte (x : Crew) (o : Nat) : Byte :=
  if h : o / 512 < 320 then BitVec.ofNat 8 (((x.rf.v.get ⟨o / 512, h⟩).get (o % 512 / 4)).toNat / 2 ^ (8 * (o % 4))) else 0

/-- The offsets, from v0, of a register tile's elements and of its checksum area. -/
def Tile.elemOffsets (t : Tile) : List Nat :=
  (List.range t.rows).flatMap fun r => (List.range t.rowBytes).map fun j => 512 * t.base + t.pitch * r + j

def Tile.sumOffsets (t : Tile) : List Nat := (List.range (4 * (t.rows + t.cols))).map fun j => 512 * t.csum + j

/-- Bytes put into the crew's own vector registers, as writes of the lanes they lie in. -/
def regWrites (x : Crew) (l : List (Nat × Byte)) : List RegWrite :=
  ((l.map (·.1 / 512)).eraseDups).filterMap fun r =>
    if h : r < 320 then
      let mine := l.filter fun e => e.1 / 512 == r
      let old := x.rf.v.get ⟨r, h⟩
      let lane (k : Nat) : Word := BitVec.ofNat 32 (ofBytes ((List.range 4).map fun j =>
        ((mine.reverse.find? fun e => e.1 % 512 == 4 * k + j).map (·.2)).getD (BitVec.ofNat 8 ((old.get k).toNat / 2 ^ (8 * j)))))
      some (.v ⟨r, h⟩ false (lanesMask ((mine.map fun e => e.1 % 512 / 4).eraseDups)) (Lanes.ofFn lane))
    else none

/-- The codes of a tile, row by row, from the bytes of its elements (R47). -/
def Tile.codes (t : Tile) (bytes : List Byte) : List (List Nat) :=
  (List.range t.rows).map fun r =>
    let run := ofBytes ((bytes.drop (t.rowBytes * r)).take t.rowBytes)
    (List.range t.cols).map (packedCode t.width run)

/-- Little-endian words of 32 bits. -/
def bytesWords (n : Nat) (bytes : List Byte) : List Nat := (List.range n).map fun j => ofBytes ((bytes.drop (4 * j)).take 4)

/-- The bytes of a tile's elements with new codes; bits of a row's last byte beyond its codes stay. -/
def Tile.elemBytes (t : Tile) (rows : List (List Nat)) (old : List Byte) : List Byte :=
  rows.mapIdx (fun r row =>
    let was := ofBytes ((old.drop (t.rowBytes * r)).take t.rowBytes)
    let run := row.foldr (fun c n => c % 2 ^ t.width + 2 ^ t.width * n) 0
    toBytes t.rowBytes (was - was % 2 ^ (t.width * t.cols) + run)) |>.flatten

/-! ### Reading at issue -/

/-- What a read of a tile gives. -/
structure TileRead where
  bytes : List Byte
  codes : List (List Nat)
  sums : List Nat
  busy : Bool
deriving DecidableEq, Repr

/-- Bytes a long-latency instruction reads at issue, in the order of its accesses; `busy` tells that an array answered with zeros, which sets
MBUSY (R157). It waits for the atomics and TSTPs of the crew's queue that write them (R165). Poisoned data, or a request that a host or a
peer refuses, raises DATA_ERROR (R346, R360). -/
def readAccess (i : Iss) (s : State) (accs : List LaneAcc) : Except Effect (List Byte × Bool × State) :=
  let ps := accs.flatMap (·.at_)
  match queueBlocks i.x ps with
  | o :: os => .error (.wait (.ops (o :: os)))
  | [] =>
    let uncached (p : Place) : Bool := match p with
      | .glob _ _ map => !map.cached
      | _ => false
    let (f, s) := if ps.any uncached then s.freeValue else (0, s)
    let bad (p : Place) : Bool := (queueByte? i.x p).isNone && (placeBad s i.g p || (uncached p && f.testBit 0))
    match accs.filter fun a => a.at_.any bad with
    | a :: as => .error (.trap ⟨0x0F, lanesMask ((a :: as).map (·.lane)).eraseDups, BitVec.ofNat 64 (as.foldl (fun m b => min m b.ea) a.ea)⟩)
    | [] =>
      let busy := ps.any fun p => match p with
        | .win c a _ => (s.arr c a).state.busy
        | _ => false
      .ok (ps.map (readByte s i.x), busy, readBanks (if busy then setBusy s i.c 1 else s) ps)

/-- Reads a tile whole: a register tile from the crew's registers, a memory tile through its accesses. -/
def readTile (i : Iss) (s : State) (t : Tile) (accs : List LaneAcc) : Except Effect (TileRead × State) :=
  let give (bytes sums : List Byte) (busy : Bool) : TileRead := ⟨bytes, t.codes bytes, bytesWords (t.rows + t.cols) sums, busy⟩
  if t.space = 2 then .ok (give (t.elemOffsets.map (regByte i.x)) (t.sumOffsets.map (regByte i.x)) false, s)
  else
    match readAccess i s accs with
    | .error e => .error e
    | .ok (bytes, busy, s) => .ok (give (bytes.take (t.rows * t.rowBytes)) (bytes.drop (t.rows * t.rowBytes)) busy, s)

/-- The checks of a memory tile's elements and checksum area, as one access (R171, R220). -/
def checkTile (i : Iss) (s : State) (t : Tile) (write : Bool) : Except Effect (List LaneAcc) :=
  if t.space = 2 then .ok []
  else checkAccess s i.x { space := t.space, align := 1, write := write, pieces := t.elemPieces ++ t.sumPieces }

/-! ### The tile table (R214) -/

/-- The entry as the issuing crew sees it: an entry it does not own is FREE. -/
def ownedTile (i : Iss) (s : State) (n : Nat) : Option Tile :=
  (s.tile? i.g n).filter fun t => t.group == i.x.seat.group && (t.space != 2 || t.crew == some i.c)

/-- The operations and ladle records of a core that name an entry (R219). -/
def tileUsers (s : State) (g n : Nat) : List Nat :=
  SMap.keys (s.ops.filter fun e => match e.2.kind with
    | .tileCopy t => (s.crew? e.2.crew).any (fun x => x.seat.core == g) && t.names.contains n
    | _ => false)

/-- The tiles a record names: those of a tile copy, and a plane-pack's source tile (R262). -/
def recordTiles (w : RecWork) : List Nat :=
  let f := w.words.getD 6 0 / 2 ^ 32
  if w.kind = 3 then [bits f 7 0, bits f 15 8] else if w.kind = 6 ∧ f.testBit 22 then [bits f 30 23] else []

/-- A ladle record in hand on the core names the entry (R219). -/
def tileInRecord (s : State) (g n : Nat) : Bool := (s.core g).chains.any fun e => e.2.work.any fun w => (recordTiles w).contains n

/-- Before an instruction writes registers its operands do not name, outstanding tags whose destinations overlap them are waited for and
committed (R88, event 5); then its registers are read. -/
def overlapCommit (i : Iss) (s : State) (regs : List Nat) : Except Effect (Iss × State) :=
  match s.crew? i.c with
  | none => .ok (i, s)
  | some x =>
    let ts := x.tags.filter fun e => !e.2.deferred && e.2.dst.any fun r => r.1 && regs.contains r.2
    match ts.filterMap fun e => e.2.op with
    | o :: os => .error (.wait (.ops (o :: os)))
    | [] =>
      match commitTags s i.c (SMap.keys ts) with
      | (_, some f) => .error (.trap f)
      | (s, none) =>
        match s.crew? i.c with
        | none => .ok (i, s)
        | some x => .ok ({ i with x := { i.x with rf := x.rf }, dst := i.dst ++ regs.map fun r => (true, r) }, s)

/-! ### Checksums and their disagreements (R74, R171, R220) -/

/-- The rows and columns that disagree, each with its recomputed value minus the stored one modulo 2^32, and the crossing element with its
corrected code, when that code would restore both. -/
structure TileDiff where
  rows : List (Nat × Nat)
  cols : List (Nat × Nat)
  found : Option (Nat × Nat × Nat)
deriving DecidableEq, Repr

def codeAt (rows : List (List Nat)) (r c : Nat) : Nat := (rows.getD r []).getD c 0

def Tile.sumsOf (t : Tile) (rows : List (List Nat)) : List Nat := codeChecksums rows t.cols

def tileDiff (t : Tile) (rows : List (List Nat)) (stored : List Nat) : TileDiff :=
  let rec_ := t.sumsOf rows
  let d (k : Nat) : Nat := wrap32 (rec_.getD k 0 + 2 ^ 32 - stored.getD k 0)
  let rd := ((List.range t.rows).map fun r => (r, d r)).filter fun e => e.2 != 0
  let cd := ((List.range t.cols).map fun c => (c, d (t.rows + c))).filter fun e => e.2 != 0
  let found := match rd, cd with
    | [(r, x)], [(c, y)] =>
      let old := codeAt rows r c
      let new := (old + 2 ^ 32 - x) % 2 ^ t.width
      if x = y ∧ wrap32 (rec_.getD r 0 + 2 ^ 32 + new - old) = stored.getD r 0 ∧
          wrap32 (rec_.getD (t.rows + c) 0 + 2 ^ 32 + new - old) = stored.getD (t.rows + c) 0 then some (r, c, new)
      else none
    | _, _ => none
  ⟨rd, cd, found⟩

/-- NCOL, NROW, COL and ROW of a status word (R172, R221). -/
def TileDiff.word (d : TileDiff) : Nat :=
  d.cols.length * 2 ^ 53 + d.rows.length * 2 ^ 45 + (match d.found with
    | some (r, c, _) => c * 2 ^ 35 + r * 2 ^ 28
    | none => 0)

def putCode (rows : List (List Nat)) (e : Nat × Nat × Nat) : List (List Nat) :=
  rows.mapIdx fun r row => if r = e.1 then row.set e.2.1 e.2.2 else row

/-- R221's STATE. -/
def TileState.code : TileState → Nat
  | .valid => 1 | .stale => 2 | .suspect => 3 | .bad => 4

/-! ### Completion -/

/-- The writes of a memory tile go to the store queue at issue and leave after the instruction is complete (R140, R165); a register tile's are
held for commit. `bytes` are the places and values of a memory tile. -/
def giveTile (i : Iss) (s : State) (copy : Bool) (t : TileEnd) (bytes : List (Place × Byte)) (ch : Nat := 0) : Effect :=
  let o := s.nextId
  let s := giveOp i s (if copy then .tileCopy t else .tileInstr t)
  .done (if bytes.isEmpty then s else s.updCrew i.c fun x => { x with sq := x.sq ++ [⟨.tile bytes ch, o⟩] })

/-- The end of a tile operation: its entry changes, a correction is counted, and its result is held. -/
def endTile (s : State) (op : Nat) (o : Op) (t : TileEnd) : State :=
  match s.crew? o.crew with
  | none => s
  | some x =>
    let g := x.seat.core
    let s := if t.corrected then s.updCtr g fun k => { k with ckcor := sat32 (k.ckcor + 1) } else s
    let s := match t.set with
      | some (.take i st n) => takeTileState s g i st n
      | some (.free i) => s.updCore g fun k => { k with tiles := k.tiles.erase i }
      | none => s
    finishOp s op t.held

/-! ### TDECL (R217, R218) -/

/-- The entry a descriptor record fills (R213). -/
def tileOfRecord (d : Nat) (x : Seat) (c : Nat) (rcmp : Bool) : Tile where
  state := .valid
  group := x.group
  crew := if bits d 31 30 = 2 then some c else none
  tag := x.tag
  rows := bits d 23 16
  cols := bits d 10 0
  fmt := bits d 29 24
  space := bits d 31 30
  base := bits d 127 64
  csum := bits d 191 128
  pitch := bits d 223 192
  ben := d.testBit 32
  bidx := bits d 38 33
  recomp := rcmp
  ncor := 0

/-- R213: BASE, CSUM and PITCH within their limits. -/
def Tile.placeOk (t : Tile) : Bool :=
  if t.space = 2 then
    decide (t.pitch ≥ t.rowBytes) && decide (t.base ≤ 319) && decide (t.csum ≤ 319) &&
      ([16, 32, 64, 128, 256].contains t.pitch || decide (t.pitch % 512 = 0))
  else decide (t.pitch ≥ t.rowBytes) && decide (t.pitch % 16 = 0) && decide (t.base % 16 = 0) && decide (t.csum % 16 = 0)

/-- R218 code 6: the runs of a register tile. -/
def Tile.runsOk (t : Tile) (x : Seat) (c : Nat) (k : Core) : Bool :=
  let el := List.range' t.base (ceilDiv (t.rows * t.pitch) 512)
  let cs := List.range' t.csum (ceilDiv (t.rows + t.cols) 128)
  (el ++ cs).all (fun r => decide (r < x.nv)) && !(el.any fun r => cs.contains r) &&
    !(k.tiles.any fun e => e.2.space == 2 && e.2.crew == some c && e.2.runRegs.any fun r => (el ++ cs).contains r)

/-- R218 code 7: a window area lies in the arrays the group holds. -/
def windowHeld (s : State) (x : Seat) (ps : List Piece) : Bool :=
  ps.all fun p => match windowAt s x.group x.core p.ea with
    | .at_ (.win c _ _) => c == x.core
    | _ => false

/-- The lowest status code of R218 whose condition holds. -/
def declCode (i : Iss) (s : State) (n d : Nat) (t : Tile) : Nat :=
  if (s.tile? i.g n).isSome then 1
  else if bits d 511 224 ≠ 0 ∨ bits d 63 39 ≠ 0 ∨ bits d 15 11 ≠ 0 ∨ (t.bidx ≠ 0 ∧ !t.ben) then 2
  else if t.width = 0 ∨ t.space = 3 then 3
  else if t.rows = 0 ∨ 128 < t.rows ∨ t.cols = 0 ∨ 1024 < t.cols then 4
  else if !t.placeOk then 5
  else if t.space = 2 ∧ !t.runsOk i.x.seat i.c (s.core i.g) then 6
  else if t.space = 1 ∧ !windowHeld s i.x.seat (t.elemPieces ++ t.sumPieces) then 7
  else 0

/-- TDECL. The entry is filled at issue (log 20); with INIT the checksums computed from the elements are written. -/
def execTdecl (h : Hdr) (o : TileDecl) (s : State) : Host.Outcome State Fault Refusal :=
  run (.tdecl h o) (fun i s =>
    let da := i.scalarN s o.a
    if da % 64 ≠ 0 then .trap ⟨0x02, 1, BitVec.ofNat 64 da⟩
    else
      match checkAccess s i.x { space := 0, align := 1, write := false, pieces := runPieces da 64 } with
      | .error e => e
      | .ok accs =>
        match readAccess i s accs with
        | .error e => e
        | .ok (bytes, _, s) =>
          let d := ofBytes bytes
          let n := i.scalarN s o.b % 256
          let t := tileOfRecord d i.x.seat i.c o.rcmp
          let code := declCode i s n d t
          let put (s : State) : State := s.updCore i.g fun k => { k with tiles := k.tiles.insert n t }
          let held (code : Nat) : Held := scalarHeld i o.d (BitVec.ofNat 64 code)
          if code ≠ 0 then giveTile i s false ⟨held code, [], none, false, false⟩ []
          else if !o.init then giveTile i (put s) false ⟨held 0, [], none, false, false⟩ []
          else
            match overlapCommit i s (if t.space = 2 then List.range' t.csum (ceilDiv (t.rows + t.cols) 128) else []) with
            | .error e => e
            | .ok (i, s) =>
              let req (w : Bool) (ps : List Piece) : Req := { space := t.space, align := 1, write := w, pieces := ps }
              if t.space = 2 then
                let rows := t.codes (t.elemOffsets.map (regByte i.x))
                let bytes := (t.sumsOf rows).flatMap (toBytes 4)
                giveTile i (put s) false
                  ⟨{ held 0 with regs := (held 0).regs ++ regWrites i.x (t.sumOffsets.zip bytes), tile := some (n, none) }, [], none, false, false⟩ []
              else if queueFull i.x then .wait .queueSpace
              else
                match checkAccess s i.x (req false t.elemPieces), checkAccess s i.x (req true t.sumPieces) with
                | .error e, _ => e
                | _, .error e => e
                | .ok el, .ok cs =>
                  match readAccess i s el with
                  | .error e => e
                  | .ok (bytes, _, s) =>
                    let sums := (t.sumsOf (t.codes bytes)).flatMap (toBytes 4)
                    giveTile i (put s) false ⟨held 0, [], none, false, true⟩ ((cs.flatMap (·.at_)).zip sums)) s

/-! ### TFREE (R219) -/

/-- The outstanding matrix instructions of a crew that name an entry as DTILE: their tags. -/
def dtileTags (s : State) (c n : Nat) : List (Nat × Option Nat) :=
  match s.crew? c with
  | none => []
  | some x => x.tags.filterMap fun e =>
      let fb : Option Nat := match e.2.op.bind s.op? with
        | some o => match o.kind with
          | .matrix m => some m.fb
          | _ => none
        | none => none
      if fb.any (fun f => f.testBit 53 && bits f 61 54 == n) || ((e.2.held.mat.bind (·.dtile)).map (·.1) == some n) then some (e.1, e.2.op) else none

/-- TFREE: matrix instructions that name the entry as DTILE are committed first. -/
def execTfree (h : Hdr) (o : Src) (s : State) : Host.Outcome State Fault Refusal :=
  run (.tfree h o) (fun i s =>
    let n := i.scalarN s o.a % 256
    match ownedTile i s n with
    | none => giveTile i s false ⟨{}, [], none, false, false⟩ []
    | some _ =>
      let ts := dtileTags s i.c n
      match ts.filterMap (·.2) with
      | o :: os => .wait (.ops (o :: os))
      | [] =>
        match commitTags s i.c (ts.map (·.1)) with
        | (_, some f) => .trap f
        | (s, none) => giveTile i s false ⟨{}, [n], some (.free n), false, false⟩ []) s

/-! ### TCHK and TFIX (R220, R221) -/

/-- What TCHK or TFIX finds and does: OUT, the codes, the checksums and the state it leaves, the status word; and what it writes, the bytes of the
corrected element by offset and the checksum words by number. -/
structure CheckEnd where
  out : Nat
  rows : List (List Nat)
  sums : List Nat
  state : TileState
  word : Nat
  elems : List Nat
  words : List Nat
deriving DecidableEq, Repr

/-- The bytes that an element of a tile lies in. -/
def Tile.elemSpan (t : Tile) (r c : Nat) : List Nat :=
  let bit := c * t.width
  List.range' (r * t.rowBytes + bit / 8) (ceilDiv (bit % 8 + t.width) 8)

/-- NCOL and NROW alone: COL and ROW are those of a located element when OUT is 1 or 2 (R221). -/
def TileDiff.counts (d : TileDiff) : Nat := { d with found := none }.word

def checkEnd (t : Tile) (rows : List (List Nat)) (stored : List Nat) (fix : Bool) : CheckEnd :=
  let word (out : Nat) (st : TileState) (d : Nat) (n : Nat) : Nat :=
    d + min 255 (t.ncor + n) * 2 ^ 20 + t.recomp.toNat * 2 ^ 7 + st.code * 2 ^ 4 + out
  let d := tileDiff t rows stored
  if t.state = .stale then ⟨5, rows, t.sumsOf rows, .valid, word 5 .valid d.counts 0, [], List.range (t.rows + t.cols)⟩
  else if d.rows.isEmpty ∧ d.cols.isEmpty then ⟨0, rows, stored, .valid, word 0 .valid 0 0, [], []⟩
  else
    match d.found with
    | some e =>
      if fix then ⟨1, putCode rows e, stored, .valid, word 1 .valid d.word 1, t.elemSpan e.1 e.2.1, []⟩
      else ⟨2, rows, stored, .suspect, word 2 .suspect d.word 0, [], []⟩
    | none =>
      if d.rows.length + d.cols.length = 1 then
        ⟨3, rows, t.sumsOf rows, .valid, word 3 .valid d.word 0, [], d.rows.map (·.1) ++ d.cols.map fun c => t.rows + c.1⟩
      else ⟨4, rows, stored, .bad, word 4 .bad d.word 0, [], []⟩

/-- The bytes at a list of offsets, each with its offset. -/
def bytesAt (l : List Nat) (bytes : List Byte) : List (Nat × Byte) := l.map fun j => (j, bytes.getD j 0)

/-- The bytes of the checksum words that an outcome rewrites, by offset in the checksum area. -/
def CheckEnd.sumWrites (e : CheckEnd) : List (Nat × Byte) :=
  bytesAt (e.words.flatMap fun k => (List.range 4).map fun j => 4 * k + j) (e.sums.flatMap (toBytes 4))

/-- The bytes of the element that an outcome corrects, by offset in the elements, which hold the bytes `old`. -/
def CheckEnd.elemWrites (e : CheckEnd) (t : Tile) (old : List Byte) : List (Nat × Byte) := bytesAt e.elems (t.elemBytes e.rows old)

/-- TCHK and TFIX. -/
def checkForm (i : Iss) (s : State) (o : DA) (fix : Bool) : Effect :=
  let n := i.scalarN s o.a % 256
  match ownedTile i s n with
  | none => giveTile i s false ⟨scalarHeld i o.d 0, [], none, false, false⟩ []
  | some t =>
    match checkTile i s t false with
    | .error e => e
    | .ok accs =>
      match overlapCommit i s (if t.space = 2 then t.runRegs else []) with
      | .error e => e
      | .ok (i, s) =>
        match readTile i s t accs with
        | .error e => e
        | .ok (r, s) =>
          let e := checkEnd t r.codes r.sums fix
          let elems := e.elemWrites t r.bytes
          let sums := e.sumWrites
          let held := scalarHeld i o.d (BitVec.ofNat 64 e.word)
          let cor := e.out == 1
          if t.space = 2 then
            let eo := t.elemOffsets
            let so := t.sumOffsets
            let l := elems.map (fun b => (eo.getD b.1 0, b.2)) ++ sums.map fun b => (so.getD b.1 0, b.2)
            giveTile i s false
              ⟨{ held with regs := held.regs ++ regWrites i.x l, tile := some (n, some (e.state, cor.toNat)) }, [], none, cor, false⟩ []
          else
            let places := accs.flatMap (·.at_)
            let adds := accs.flatMap fun a => (List.range a.at_.length).map fun j => a.ea + j
            let l := elems ++ sums.map fun b => (t.rows * t.rowBytes + b.1, b.2)
            let addr := l.map fun b => adds.getD b.1 0
            let miss := addr.filter fun a => t.space == 0 && (tlbFind (s.core i.g) i.tag a true).isNone
            let bad := addr.any fun a => t.space == 0 && match tlbFind (s.core i.g) i.tag a false with
              | some k => !pteW k.entry.toNat
              | none => false
            match addr with
            | [] => giveTile i s false ⟨held, [], some (.take n e.state cor.toNat), cor, false⟩ []
            | a :: as =>
              if bad then .trap ⟨0x04, i.em, BitVec.ofNat 64 (as.foldl min a)⟩
              else if !miss.isEmpty then .walks (missPages (miss.map fun a => ⟨0, a, 1⟩)) true
              else if queueFull i.x then .wait .queueSpace
              else
                giveTile i s false ⟨held, [], some (.take n e.state cor.toNat), cor, false⟩
                  (l.filterMap fun b => places[b.1]?.map fun p => (p, b.2))

def execTchk (h : Hdr) (o : DA) (s : State) : Host.Outcome State Fault Refusal := run (.tchk h o) (fun i s => checkForm i s o false) s

def execTfix (h : Hdr) (o : DA) (s : State) : Host.Outcome State Fault Refusal := run (.tfix h o) (fun i s => checkForm i s o true) s

/-! ### Bound entries (R222 to R224) -/

/-- BNDSET: the entry is updated in every core's copy by the time the instruction completes. -/
def execBndset (h : Hdr) (o : BndSet) (s : State) : Host.Outcome State Fault Refusal :=
  run (.bndset h o) (fun i s =>
    let n := i.scalarN s o.a % 64
    let b : Bound := ⟨o.kind.toNat, o.act.toNat, BitVec.ofNat 32 (i.scalarN s o.b), BitVec.ofNat 32 (i.scalarN s o.c), false⟩
    let op := s.nextId
    .done (giveOp i (s.updCtx i.tag fun x => { x with updates := x.updates ++ [(op, n, b)] }) (.bound i.tag n {}))) s

/-- The hit flags of a context's entries: a flag set in the copy of any core is seen, in the old entry or in the new one of an update under way.
Of an entry whose update is under way, the flag of the old entry is seen or not, as the new one is taken (bits of `f`; log 2). -/
def hitFlags (x : Context) (f : Nat) : Nat :=
  let hit (j : Nat) : Bool :=
    match x.updates.filter fun u => u.2.1 == j with
    | [] => (x.bounds.getD j Bound.cleared).hit
    | l => (l.any fun u => u.2.2.hit) || ((x.bounds.getD j Bound.cleared).hit && f.testBit j)
  (((List.range 64).filter hit).map fun j => 2 ^ j).sum

/-- BNDCLR: the flags as they stand before it, then the named entries are cleared. -/
def execBndclr (h : Hdr) (o : DA) (s : State) : Host.Outcome State Fault Refusal :=
  run (.bndclr h o) (fun i s =>
    let m := i.scalar s o.a
    let (f, s) : Nat × State := if (s.ctx? i.tag).any fun x => !x.updates.isEmpty then s.freeValue else (0, s)
    let flags := ((s.ctx? i.tag).map fun x => hitFlags x f).getD 0
    let op := s.nextId
    let l := ((List.range 64).filter fun j => m.getLsbD j).map fun j => (op, j, Bound.cleared)
    .done (giveOp i (s.updCtx i.tag fun x => { x with updates := x.updates ++ l }) (.bound i.tag 64 (scalarHeld i o.d (BitVec.ofNat 64 flags))))) s

/-! ### Completions -/

/-- TILE_COPY_DONE. -/
def execTileCopyDone (op : Nat) (s : State) : Host.Outcome State Fault Refusal :=
  .next (
    match s.op? op with
    | some o =>
      match o.kind with
      | .tileCopy t => endTile s op o t
      | _ => s
    | none => s)

/-- TILE_INSTRUCTION_DONE: a TFREE waits until nothing on the core names its entry (R219). -/
def execTileInstructionDone (op : Nat) (s : State) : Host.Outcome State Fault Refusal :=
  .next (
    match s.op? op with
    | some o =>
      match o.kind with
      | .tileInstr t =>
        let g := ((s.crew? o.crew).map (·.seat.core)).getD 0
        let busy (n : Nat) : Bool := !(tileUsers s g n).isEmpty || tileInRecord s g n
        let undrained := t.drains && (s.crew? o.crew).any fun x => x.sq.any fun q => q.op == op
        if t.names.any busy || undrained then s else endTile s op o t
      | _ => s
    | none => s)

/-- BOUND_UPDATE_DONE: every copy has been updated (R224). -/
def execBoundUpdateDone (op : Nat) (s : State) : Host.Outcome State Fault Refusal :=
  .next (
    match s.op? op with
    | some ⟨_, _, _, _, .bound tag _ h⟩ =>
      finishOp (s.updCtx tag fun x =>
        let mine := x.updates.filter fun u => u.1 == op
        { x with
          bounds := mine.foldl (fun m u => SMap.setD m u.2.1 Bound.cleared u.2.2) x.bounds
          updates := x.updates.filter fun u => u.1 != op }) op h
    | _ => s)

end Sys2Proof.Machine
end

