-- ==== Sys2Proof/Machine/Matrix.lean ====
section
/-!
DEFINITION. MMA, MMAG and MMAD (R198 to R211, R225 to R245): the format block, the checks at issue, the passes and their block sums, the
algebraic checks, delta mode, the drain and MXST; and the steps of a matrix instruction.
-/
namespace Sys2Proof.Machine

/-! ### The format block (R225, R226) -/

namespace Fb
def fmtA (b : Nat) : Nat := bits b 4 0
def fmtB (b : Nat) : Nat := bits b 9 5
def blk (b : Nat) : Nat := 16 * 2 ^ bits b 11 10
def scfA (b : Nat) : Nat := bits b 13 12
def scfB (b : Nat) : Nat := bits b 15 14
def rep (b : Nat) : Nat := 2 ^ bits b 18 16
def chk (b : Nat) : Nat := bits b 20 19
def failm (b : Nat) : Bool := b.testBit 21
def acc (b : Nat) : Bool := b.testBit 22
def res (b : Nat) : Bool := b.testBit 23
def drop (b : Nat) : Bool := b.testBit 24
def bnde (b : Nat) : Bool := b.testBit 25
def bidx (b : Nat) : Nat := bits b 31 26
def klen (b : Nat) : Nat := bits b 42 32
def mrows (b : Nat) : Nat := bits b 47 43
def sper (b : Nat) : Nat := bits b 51 48
def repl (b : Nat) : Bool := b.testBit 52
def dte (b : Nat) : Bool := b.testBit 53
def dtile (b : Nat) : Nat := bits b 61 54
def saddrA (b : Nat) : Nat := bits b 95 64
def saddrB (b : Nat) : Nat := bits b 127 96
def keep (b : Nat) : Nat := bits b 143 128
def theta (b : Nat) : Nat := bits b 151 144
def rtile (b : Nat) : Nat := bits b 159 152
def drow (b : Nat) : Nat := bits b 175 160
def dcol (b : Nat) : Nat := bits b 191 176
def key (b : Nat) : Nat := bits b 255 192
/-- The blocks along K. -/
def nb (b : Nat) : Nat := ceilDiv (klen b) (blk b)
/-- Codes in a row of A: eight elements to an index of CB2L. -/
def codes (b : Nat) : Nat := if fmtA b = 0x1B then klen b / 8 else klen b
/-- Bits of a row of A. -/
def rowBits (b : Nat) : Nat := codes b * fmtWidth (fmtA b)
/-- Registers a row of A occupies (R229). -/
def rowRegs (b : Nat) : Nat := ceilDiv (rowBits b) 4096
def metaA (b : Nat) : Bool := hasMeta (fmtA b) (scfA b)
def metaB (b : Nat) : Bool := hasMeta (fmtB b) (scfB b)

/-- R226: a format block that fails issue. `which` is 0 MMA, 1 MMAG, 2 MMAD. -/
def bad (which b : Nat) : Bool :=
  fmtWidth (fmtA b) == 0 || fmtWidth (fmtB b) == 0 || fmtB b == 0x15 || fmtB b == 0x1A || scfA b == 3 || scfB b == 3 ||
    decide (bits b 18 16 > 4) || chk b == 3 || klen b == 0 || decide (klen b > 1024) ||
    ((fmtA b == 0x1B || fmtB b == 0x1B) && klen b % 8 != 0) || mrows b == 0 || decide (mrows b > 16) || bits b 63 62 != 0 ||
    (bidx b != 0 && !bnde b) || (rtile b != 0 && !res b) || (dtile b != 0 && !dte b) ||
    (if which = 2 then !acc b || res b || drop b else theta b != 0 || sper b != 0 || repl b)
end Fb

/-- A format's planes carry a sign plane unless it is a natural format (R45). -/
def fmtSigned (f : Nat) : Bool :=
  match elemKind f with
  | .nat _ => false
  | _ => true

/-! ### The operands -/

/-- The 256 bits of the format block. -/
def formatBlock (i : Iss) (s : State) (f : Reg) : Nat :=
  (List.range 4).foldl (fun n j => n + (i.scalarAt s f j).toNat * 2 ^ (64 * j)) 0

/-- Row `m` of A from registers, as codes (R229). -/
def rowCodes (i : Iss) (b a m : Nat) : List Nat :=
  let run := (List.range (128 * Fb.rowRegs b)).foldr (fun l n =>
    (((i.x.vreg (a + m * Fb.rowRegs b + l / 128)).get (l % 128))).toNat + 2 ^ 32 * n) 0
  (List.range (Fb.codes b)).map (packedCode (fmtWidth (Fb.fmtA b)) run)

/-- The addresses of an operand's metadata words: `rows` rows or columns of nb blocks (R231). -/
def metaAddrs (has : Bool) (base rows nb : Nat) : List Nat :=
  if has then (List.range (rows * nb)).map fun j => wrap32 (base + 2 * j) else []

/-- The selector of a word: the member the block decodes under. -/
def blockMember (fmt : Nat) (has : Bool) (w : Nat) : Nat := if has then fmtMember fmt (metaSel w) else fmtMember fmt 0

/-- The decoded elements of a row of A (R48 to R52), block by block under its member. -/
def decodeRow (b : Nat) (ws : List Nat) (m : Nat) (codes : List Nat) : List Elem :=
  if Fb.fmtA b = 0x1B then codes.flatMap fun x => (cb2l x).map .int
  else codes.mapIdx fun k c => decodeElem (blockMember (Fb.fmtA b) (Fb.metaA b) (ws.getD (m * Fb.nb b + k / Fb.blk b) 0)) c

/-! ### The cells of a slot (R187, R197, R198) -/

/-- A cell, with an injected inversion. -/
def Arr.cell (a : Arr) (row col : Nat) : Bool :=
  (a.byte (256 * row + col / 8)).getLsbD (col % 8) != a.flips.contains (2048 * row + col)

/-- `n` planes of a row from bit-column `col` on. -/
def Arr.planes (a : Arr) (row col n : Nat) : Nat :=
  (List.range n).foldl (fun x p => if a.cell row (col + p) then x + 2 ^ p else x) 0

/-- Weight (k, n) of a slot. -/
def Arr.weight (a : Arr) (slot pb : Nat) (sgn : Bool) (k n : Nat) : Int :=
  let x := a.planes k (slot * slotPitch pb + n * pb) pb
  if sgn then Sys2Proof.signed pb x else x

/-- The riser column of row k. -/
def Arr.riser (a : Arr) (slot pb k : Nat) : Int := Sys2Proof.signed (pb + 7) (a.planes k (slot * slotPitch pb + 64 * pb) (pb + 7))

/-! ### Block sums (R199 to R203) -/

/-- The error bound e(G, REP) of R202. -/
def countBound (g rep : Nat) : Nat :=
  if g = 64 then (if rep ≤ 2 then 1 else 0)
  else if g = 128 then (if rep = 1 then 2 else if rep ≤ 4 then 1 else 0)
  else 0

/-- One pass set: 16 rows of integers, the planes each block is driven with, and the operands they meet. -/
structure Pass where
  rows : List (List Int)
  planes : List Nat                        -- by block; 0 for a block that is not converted
  sgnA : Bool
deriving DecidableEq, Repr

/-- Residue modulo 2^P in the format's signedness (R199). -/
def residue (p : Nat) (sgn : Bool) (x : Int) : Int := if sgn then Sys2Proof.signed p (wrap p x) else wrap p x

/-- The checksum row of block `j`'s planes. -/
def Pass.checkRow (p : Pass) (j k : Nat) : Int :=
  residue (p.planes.getD j 0) p.sgnA ((p.rows.map fun r => r.getD k 0).sum)

def dot (lo hi : Nat) (a b : Nat → Int) : Int := (List.range' lo (hi - lo)).foldl (fun t k => t + a k * b k) 0

/-- The sums of a pass set over a slot: S(m, n, j), Q(m, j) and C(n, j). -/
structure Sums where
  S : Nat → Nat → Nat → Int
  Q : Nat → Nat → Int
  C : Nat → Nat → Int

def exactSums (a : Arr) (slot pb : Nat) (sgnB : Bool) (blk klen : Nat) (p : Pass) : Sums :=
  let span (j : Nat) : Nat × Nat := (blk * j, min klen (blk * (j + 1)))
  { S := fun m n j => dot (span j).1 (span j).2 (fun k => (p.rows.getD m []).getD k 0) fun k => a.weight slot pb sgnB k n
    Q := fun m j => dot (span j).1 (span j).2 (fun k => (p.rows.getD m []).getD k 0) fun k => a.riser slot pb k
    C := fun n j => dot (span j).1 (span j).2 (p.checkRow j) fun k => a.weight slot pb sgnB k n }

/-- R202, R203: in an approximate class each sum carries an error within its bound, a free value (log 2). -/
def freeError (at_ bound : Nat) : Int := (Config.freeNat at_ % (2 * bound + 1) : Nat) - (bound : Int)

def approxSums (x : Sums) (free e pb nb : Nat) (p : Pass) : Sums :=
  if e = 0 then x
  else
    let bound (j : Nat) : Nat := e * (2 ^ p.planes.getD j 0 - 1)
    { x with
      S := fun m n j => x.S m n j + freeError (free + (m * 64 + n) * nb + j) (bound j * (2 ^ pb - 1))
      Q := fun m j => x.Q m j + freeError (free + 1024 * nb + m * nb + j) (bound j * (2 ^ (pb + 7) - 1)) }

/-- Whether a pass set applies input row `m` and plane `q` in some block. -/
def Pass.applies (p : Pass) (chk m q : Nat) : Bool := p.planes.any (fun n => decide (q < n)) && (m != 16 || chk != 0)

/-- R329 PASS: the product of one cell is inverted in one pass; the averaged count changes by what rounding leaves of it. -/
def injectPass (x : Sums) (a : Arr) (slot pb : Nat) (sgnB : Bool) (blk klen rep : Nat) (p : Pass) (inj : Nat × Nat × Nat × Nat) : Sums :=
  let (row, col, m, q) := inj
  let base := slot * slotPitch pb
  let c := col - base
  let j := row / blk
  let pj := p.planes.getD j 0
  if col < base ∨ 65 * pb + 7 ≤ c ∨ klen ≤ row ∨ pj ≤ q then x
  else
    let input (k : Nat) : Bool := (wrap pj (if m = 16 then p.checkRow j k else (p.rows.getD m []).getD k 0)).testBit q
    let d : Int := if a.cell row col && input row then -1 else 1
    let count : Int := ((List.range' (blk * j) (min klen (blk * (j + 1)) - blk * j)).filter fun k => a.cell k col && input k).length
    let sum : Int := rep * count + d
    let r := sum % rep
    let up := decide (2 * r > rep) || (decide (2 * r = rep) && decide ((sum / rep) % 2 = 1))
    let dd := sum / rep + (if up then 1 else 0) - count
    let sa : Int := if p.sgnA ∧ q + 1 = pj then -1 else 1
    if c < 64 * pb then
      let n := c / pb
      let t := sa * (if sgnB ∧ c % pb + 1 = pb then -1 else 1) * dd * 2 ^ (q + c % pb)
      if m = 16 then { x with C := fun n' j' => x.C n' j' + (if n' = n ∧ j' = j then t else 0) }
      else { x with S := fun m' n' j' => x.S m' n' j' + (if m' = m ∧ n' = n ∧ j' = j then t else 0) }
    else
      let pl := c - 64 * pb
      let t := sa * (if pl = pb + 6 then -1 else 1) * dd * 2 ^ (q + pl)
      { x with Q := fun m' j' => x.Q m' j' + (if m' = m ∧ j' = j then t else 0) }

/-! ### The algebraic checks (R236 to R238) -/

/-- What a pass set's check finds: a disagreement, the corrections, and a column disagreement alone. -/
structure CheckFound where
  bad : Bool
  fixes : List (Nat × Nat × Nat × Int)
  colx : Bool
deriving DecidableEq, Repr

def checkBlock (x : Sums) (chk e pb : Nat) (p : Pass) (j : Nat) : CheckFound :=
  let pj := p.planes.getD j 0
  let rd := ((List.range 16).map fun m => (m, x.Q m j - ((List.range 64).map fun n => x.S m n j).sum)).filter fun d =>
    if e = 0 then d.2 != 0 else decide (d.2.natAbs > e * (2 ^ pj - 1) * (64 * (2 ^ pb - 1) + 2 ^ (pb + 7) - 1))
  let cd := if e ≠ 0 then [] else
    ((List.range 64).map fun n => (n, wrap pj (x.C n j - ((List.range 16).map fun m => x.S m n j).sum))).filter fun d => d.2 != 0
  match rd, cd with
  | [], [] => ⟨false, [], false⟩
  | [], _ => ⟨false, [], true⟩
  | [(m, d)], [(n, c)] => if e = 0 ∧ wrap pj d = c ∧ chk = 2 then ⟨false, [(m, n, j, d)], false⟩ else ⟨true, [], false⟩
  | _, _ => ⟨true, [], false⟩

def checkSums (x : Sums) (chk e pb nb : Nat) (skip : List Nat) (p : Pass) : CheckFound :=
  if chk = 0 then ⟨false, [], false⟩
  else
    let l := ((List.range nb).filter fun j => !skip.contains j && p.planes.getD j 0 != 0).map (checkBlock x chk e pb p)
    ⟨l.any (·.bad), l.flatMap (·.fixes), l.any (·.colx)⟩

/-- The sums with their corrections, before any scale (R237). -/
def Sums.fixed (x : Sums) (l : List (Nat × Nat × Nat × Int)) : Sums :=
  { x with S := fun m n j => x.S m n j + ((l.filter fun f => f.1 == m && f.2.1 == n && f.2.2.1 == j).map (·.2.2.2)).sum }

/-! ### Runs and replays (R239) -/

/-- What a run of pass sets comes to: the sums of each set, what its check found, and the replays. -/
structure RunEnd where
  sums : List Sums
  found : CheckFound
  replays : Nat
  failed : Bool

/-- What a run works on. -/
structure RunIn where
  arr : Arr
  slot : Nat
  fb : Nat
  skip : List Nat
  sets : List Pass
deriving DecidableEq, Repr

/-- One attempt over every pass set. `inj` is the armed PASS, which the first set that applies it consumes. -/
def attempt (r : RunIn) (free : Nat) (inj : Option (Nat × Nat × Nat × Nat)) : List Sums × CheckFound :=
  let b := r.fb
  let pb := r.arr.pb
  let sgnB := fmtSigned (Fb.fmtB b)
  let e := countBound (Fb.blk b) (Fb.rep b)
  let first := inj.bind fun x => r.sets.findIdx? fun p => p.applies (Fb.chk b) x.2.2.1 x.2.2.2
  let l := r.sets.mapIdx fun n p =>
    let x := exactSums r.arr r.slot pb sgnB (Fb.blk b) (Fb.klen b) p
    let x := approxSums x (free + n * 1040 * Fb.nb b) e pb (Fb.nb b) p
    let x := match inj with
      | some i => if first = some n then injectPass x r.arr r.slot pb sgnB (Fb.blk b) (Fb.klen b) (Fb.rep b) p i else x
      | none => x
    (x, checkSums x (Fb.chk b) e pb (Fb.nb b) r.skip p)
  (l.map fun y => if l.any (fun z => z.2.bad) then y.1 else y.1.fixed y.2.fixes,
    ⟨l.any (·.2.bad), l.flatMap (·.2.fixes), l.any (·.2.colx)⟩)

/-- At most two replays; an injected inversion does not recur. -/
def attempts (r : RunIn) (free step : Nat) : Nat → Nat → Option (Nat × Nat × Nat × Nat) → RunEnd
  | 0, n, inj =>
    let (x, f) := attempt r (free + n * step) inj
    ⟨x, f, n, f.bad⟩
  | k + 1, n, inj =>
    let (x, f) := attempt r (free + n * step) inj
    if f.bad then attempts r free step k (n + 1) none else ⟨x, f, n, false⟩

/-! ### Values (R58, R235, R240) -/

/-- Scales and units of a word's block. -/
def wordScale (fmt scf : Nat) (has : Bool) (w : Nat) : Option (Nat × Int) :=
  (if has then scaleOf scf (metaScale w) else some (1, 0)).map fun x => (x.1, x.2 + unitLog (blockMember fmt has w))

/-- The value of block `j` of element (m, n), with its flags. -/
def blockSumValue (b : Nat) (wa wb : List Nat) (x : Int) (m n j : Nat) : FRes :=
  match wordScale (Fb.fmtA b) (Fb.scfA b) (Fb.metaA b) (wa.getD (m * Fb.nb b + j) 0),
        wordScale (Fb.fmtB b) (Fb.scfB b) (Fb.metaB b) (wb.getD (n * Fb.nb b + j) 0) with
  | some (ma, ka), some (mb, kb) =>
    if x = 0 ∨ ma = 0 ∨ mb = 0 then ⟨0, 0⟩ else rne32 (.fin (decide (x < 0)) (x.natAbs * ma * mb) (ka + kb))
  | _, _ => ⟨fmtF32.nan, 0⟩

/-- y accumulated over the blocks in K order (R235). -/
def accumulate (b : Nat) (wa wb : List Nat) (x : Sums) (y0 m n : Nat) : FRes :=
  (List.range (Fb.nb b)).foldl (fun y j =>
    let v := blockSumValue b wa wb (x.S m n j) m n j
    let r := fadd fmtF32 .rn (fmtF32.read y.bits) (fmtF32.read v.bits)
    ⟨r.bits, y.fl ||| v.fl ||| r.fl⟩) ⟨y0, 0⟩

/-- −0, from which an overwriting sum starts. -/
def negZero : Nat := fmtF32.sign

/-- Element (m, n) of the accumulator as it was read. -/
def accAt (acc : List Lanes) (m n : Nat) : Nat := ((acc.getD (m / 2) Lanes.zero).get (64 * (m % 2) + n)).toNat

/-- The drain before the bound check (R240). -/
def drainValue (b : Nat) (res : List Word) (m n : Nat) (y : FRes) : FRes :=
  let y : FRes := if Fb.res b then
      let r := fadd fmtF32 .rn (fmtF32.read y.bits) (fmtF32.read (res.getD (64 * m + n) 0).toNat)
      ⟨r.bits, y.fl ||| r.fl⟩
    else y
  if Fb.drop b ∧ Fb.keep b ≠ 0 then
    if coordGen (Fb.key b) (16 * Fb.drow b + m) (64 * Fb.dcol b + n) < Fb.keep b * 65536 then
      match fmtF32.read y.bits with
      | .fin ng k e =>
        let r := fmtF32.round .rn ng (k * 65536) (Fb.keep b) e
        ⟨r.bits, y.fl ||| r.fl⟩
      | .inf _ => y
      | .nan _ => ⟨fmtF32.nan, y.fl⟩
    else ⟨0, y.fl⟩
  else y

/-! ### Delta mode (R207 to R211) -/

/-- The fewest two's-complement planes that hold a value; 0 holds only 0. -/
def planesFor (x : Int) : Nat :=
  if x = 0 then 0 else if x > 0 then Nat.log2 x.toNat + 2 else if x = -1 then 1 else Nat.log2 (-x - 1).toNat + 2

/-- The delta of a row against the latch, after the threshold (R208, R210). -/
def deltaRow (theta : Nat) (new old : List Int) : List Int :=
  new.mapIdx fun k x => let d := x - old.getD k 0; if d.natAbs ≤ theta then 0 else d

/-- The planes of each block of a delta pass. -/
def deltaPlanes (blk nb : Nat) (rows : List (List Int)) : List Nat :=
  (List.range nb).map fun j => (rows.flatMap fun r => ((r.drop (blk * j)).take blk).map planesFor).foldl max 0

/-- The codes the latch holds after a delta pass: applied elements take their new code. -/
def latchCodes (delta : List (List Int)) (new old : List (List Nat)) : List (List Nat) :=
  new.mapIdx fun m row => row.mapIdx fun k c => if (delta.getD m []).getD k 0 = 0 then codeAt old m k else c

/-- FP32 values as multiples of 2^−149; none for an infinity or a NaN. -/
def f32Int (x : Nat) : Option Int :=
  match fmtF32.read x with
  | .fin n m e => some ((if n then -1 else 1) * (m * 2 ^ (e + 149).toNat : Nat))
  | _ => none

/-- R211: two results of one element differ by more than 2^−16 of `top`, the greatest magnitude of the row (none: unbounded). -/
def differs (full delta : Nat) (top : Option Nat) : Bool :=
  let fn := (fmtF32.read full).isNan
  let dn := (fmtF32.read delta).isNan
  if fn && dn then false
  else if fn != dn then true
  else match top with
    | none => false
    | some t =>
      match f32Int full, f32Int delta with
      | some x, some y => decide ((x - y).natAbs * 65536 > t)
      | none, none => full != delta
      | _, _ => true

/-- The greatest magnitude of a row of full results. -/
def rowTop (row : List Nat) : Option Nat :=
  row.foldl (fun t x =>
    if (fmtF32.read x).isNan then t
    else match t, f32Int x with
      | some a, some v => some (max a v.natAbs)
      | _, _ => none) (some 0)

def discrepant (full delta : List (List Nat)) : Bool :=
  (full.zip delta).any fun r => (r.1.zip r.2).any fun e => differs e.1 e.2 (rowTop r.1)

/-! ### Issue (R228 to R234) -/

/-- R226, and R28 reason 8 for the rows of A. -/
def matrixReason (which : Nat) (o : Mat) (i : Iss) : Option Nat :=
  let b := (List.range 4).foldl (fun n j => n + (match o.f with
    | .s k => i.x.sreg (k.val + j)
    | _ => 0).toNat * 2 ^ (64 * j)) 0
  if Fb.bad which b then some 9
  else match o.a with
    | .v k => if which ≠ 1 ∧ i.x.seat.nv < k.val + Fb.mrows b * Fb.rowRegs b then some 8 else none
    | _ => none

/-- A local window address in an array the group holds, as the matrix operand path reaches it. -/
def operandPlace (i : Iss) (s : State) (ea : Nat) : Option (Nat × Nat) :=
  if ea < 0x600000 ∧ (s.group? i.x.seat.group).any (fun g => g.holds (ea / 0x40000)) then some (ea / 0x40000, ea % 0x40000) else none

/-- A trap of a matrix instruction: every lane. -/
def matTrap (cause addr : Nat) : Effect := .trap ⟨cause, BitVec.allOnes 128, BitVec.ofNat 64 addr⟩

def leastOf (l : List Nat) : Nat := l.foldl min (l.headD 0)

/-- The declared tile that A is (R229). -/
def declaredA (i : Iss) (s : State) (b a : Nat) : Option (Nat × Tile) :=
  List.find? (fun (e : Nat × Tile) => e.2.space == 2 && e.2.crew == some i.c && e.2.base == a && e.2.fmt == Fb.fmtA b &&
    e.2.rows == Fb.mrows b && e.2.cols == Fb.codes b && e.2.pitch == 512 * Fb.rowRegs b) (s.core i.g).tiles

/-- The lowest DATA_ERROR of R233 that holds. -/
def matrixDataError (b d : Nat) (elems : List (List Elem)) (at_ : Option (Nat × Tile)) (rt dt : Option Tile) : Option Nat :=
  let fp32 (t : Option Tile) : Bool := t.any fun t => t.fmt == 0x20 && t.rows == 16 && t.cols == 64
  match elems.findIdx? fun r => r.any fun e => !e.finite with
  | some m => some m
  | none =>
    if Fb.res b ∧ !fp32 rt then some (4096 + Fb.rtile b)
    else if Fb.dte b ∧ !(fp32 dt && dt.any fun t => t.space == 2 && t.base == d) then some (4096 + Fb.dtile b)
    else if Fb.chk b = 0 then none
    else
      let used := (at_.toList) ++ (if Fb.res b then (rt.map fun t => (Fb.rtile b, t)).toList else [])
      match used.find? fun e => e.2.state == .stale && !e.2.recomp with
      | some e => some (2 * 4096 + e.1)
      | none => (used.find? fun e => e.2.state == .bad).map fun e => 3 * 4096 + e.1

/-- The checks of R232 that come before the data: em, the array, the addresses of metadata and gathered rows. `rows` are the 16-byte pieces of
the gathered rows, `heads` their addresses. -/
def matrixChecks (i : Iss) (s : State) (b an slot : Nat) (metas rows heads : List Nat) : Option Effect :=
  let r := s.arr i.g an
  let outside := (metas ++ rows).filter fun a => (operandPlace i s a).isNone
  let wordArr (a : Nat) : Nat := ((operandPlace i s a).map (·.1)).getD 0
  let away := metas.filter fun a => (s.arr i.g (wordArr a)).state != .storage && (s.arr i.g (wordArr a)).state != .reefing
  let odd := (metas.filter fun a => a % 2 != 0) ++ heads.filter fun a => a % 16 != 0
  let locked := metas.filter fun a => (List.range 2).any fun j =>
    lockedByte s i.g i.tag false (.win i.g ((a + j) / 0x40000) ((a + j) % 0x40000))
  if i.em ≠ BitVec.allOnes 128 then some (.trap ⟨0x09, ~~~i.em, 0⟩)
  else if !arrayHeld i s an || !r.comp then some (matTrap 0x04 an)
  else if !outside.isEmpty then some (matTrap 0x04 (leastOf outside))
  else if r.state = .offline then some (arrayMode (BitVec.allOnes 128) an 7)
  else if r.state ≠ .compute ∧ r.state ≠ .settling then some (arrayMode (BitVec.allOnes 128) an 1)
  else if fmtPlanes (Fb.fmtB b) ≠ r.pb then some (arrayMode (BitVec.allOnes 128) an 5)
  else if slotCount r.pb ≤ slot then some (arrayMode (BitVec.allOnes 128) an 6)
  else if !away.isEmpty then some (arrayMode (BitVec.allOnes 128) (wordArr (leastOf away)) 8)
  else if !odd.isEmpty then some (matTrap 0x02 (leastOf odd))
  else if !locked.isEmpty then some (matTrap 0x05 (leastOf locked))
  else none

/-- A metadata word as the operand path reads it. -/
def metaWord (i : Iss) (s : State) (a : Nat) : Nat :=
  match operandPlace i s a with
  | some (n, o) => ofBytes ((s.arr i.g n).readN o 2)
  | none => 0

/-- A STALE tile with RECOMP 1 is recomputed and becomes VALID (R234): a register tile at once, a memory tile through the store queue. `accs`
are the accesses of its checksum area. -/
def recompute (i : Iss) (s : State) (n : Nat) (t : Tile) (r : TileRead) (accs : List LaneAcc) : State × List (Place × Byte) :=
  let sums := t.sumsOf r.codes
  let s := s.updTile i.g n fun t => { t with state := .valid }
  if t.space = 2 then (s.updCrew i.c fun x => putRegChecksums x t.csum sums, [])
  else (s, (accs.flatMap (·.at_)).zip (sums.flatMap (toBytes 4)))

/-- Whether the slot can be taken: the array computes, the slot is free, and no instruction issued earlier waits for it (R205). -/
def slotOpen (s : State) (op : Nat) (m : MatOp) : Bool :=
  let r := s.arr m.core m.arr
  (r.state == .compute || r.state == .unreefing) && (r.slot m.slot).op.isNone &&
    !(s.ops.any fun e => decide (e.1 < op) && match e.2.kind with
      | .matrix k => k.core == m.core && k.arr == m.arr && k.slot == m.slot && k.stage == 2
      | _ => false)

/-- The instruction takes its slot. -/
def takeSlot (s : State) (op : Nat) (o : Op) (m : MatOp) : State :=
  let cid := ((s.crew? o.crew).map (·.seat.cid)).getD 0
  (s.setOp op { o with kind := .matrix { m with stage := 3 } }).updArr m.core m.arr fun r =>
    { r with slots := SMap.setD r.slots m.slot SlotRec.free { r.slot m.slot with op := some op, owner := cid } }

/-- A crew that waits at one operation goes on. -/
def releaseAt (s : State) (c op : Nat) : State :=
  match s.crew? c with
  | some x => if x.state = .waiting ∧ x.wait = .ops [op] then toReady s c else s
  | none => s

/-- The instruction reaches stage 2: it takes its slot when it can, and its crew goes on; else the crew waits at it, or, when an MMAG found its
slot free before it gathered, it waits in the background (log 25). -/
def reachSlot (s : State) (op : Nat) : State :=
  match s.op? op with
  | some o =>
    match o.kind with
    | .matrix m =>
      let m := { m with stage := 2 }
      let s := s.setOp op { o with kind := .matrix m }
      if slotOpen s op m then releaseAt (takeSlot s op o m) o.crew op else s
    | _ => s
  | none => s

/-- The ranges a gather holds while it reads (R155). -/
def lockRows (s : State) (g op tag : Nat) (rows : List Nat) (len : Nat) : State :=
  rows.foldl (fun s a =>
    let (n, s) := s.fresh
    s.updCore g fun k => { k with locks := k.locks.insert n ⟨.gather op, tag, true, a, a + len - 1, false, false⟩ }) s

/-- MMA (0), MMAG (1) and MMAD (2) at issue. -/
def matrixForm (which : Nat) (i : Iss) (s : State) (o : Mat) : Effect :=
  let b := formatBlock i s o.f
  let d := match o.d with
    | .v k => k.val
    | _ => 0
  let a := match o.a with
    | .v k => k.val
    | _ => 0
  let bw := i.scalarN s o.b
  let an := bw % 32
  let slot := bits bw 12 8
  let mr := Fb.mrows b
  let mA := metaAddrs (Fb.metaA b) (Fb.saddrA b) mr (Fb.nb b)
  let mB := metaAddrs (Fb.metaB b) (Fb.saddrB b) 64 (Fb.nb b)
  let heads := if which = 1 then (List.range mr).map fun m => i.lane32 o.a 0 m else []
  let rowLen := ceilDiv (Fb.rowBits b) 8
  let rows := heads.flatMap fun h => (List.range (ceilDiv (rowLen + h % 16) 16)).map fun j => if j = 0 then h else h - h % 16 + 16 * j
  match matrixChecks i s b an slot (mA ++ mB) rows heads with
  | some e => e
  | none =>
    let wA := mA.map (metaWord i s)
    let wB := mB.map (metaWord i s)
    let codes := if which = 1 then [] else (List.range mr).map (rowCodes i b a)
    let elems := codes.mapIdx fun m r => decodeRow b wA m r
    let at_ := if which = 1 then none else declaredA i s b a
    let rt := if Fb.res b then ownedTile i s (Fb.rtile b) else none
    let dt := if Fb.dte b then ownedTile i s (Fb.dtile b) else none
    let faulty := ((mA.zip wA).filter fun e => metaFaulty (Fb.fmtA b) (Fb.scfA b) e.2).map (·.1)
    let faultyB := ((mB.zip wB).filter fun e => metaFaulty (Fb.fmtB b) (Fb.scfB b) e.2).map (·.1)
    match matrixDataError b d elems at_ rt dt with
    | some x => matTrap 0x0F x
    | none =>
      if !(faulty ++ faultyB).isEmpty then
        let t : Trap := ⟨0x0A, BitVec.allOnes 128, BitVec.ofNat 64 (leastOf (faulty ++ faultyB))⟩
        match at_ with
        | some (n, _) => if faulty.isEmpty then .trap t else .trapAfter (fun s => s.updTile i.g n fun t => { t with state := .bad }) t
        | none => .trap t
      else if (s.arr i.g an).state = .settling then .wait (.array i.g an)
      else
        let stale (t : Tile) : Bool := Fb.chk b != 0 && t.state == .stale
        let ask (w : Bool) (f : Tile → Bool) (ps : Tile → List Piece) : Except Effect (List LaneAcc) := match rt with
          | some t => if t.space != 2 && f t then checkAccess s i.x { space := t.space, align := 1, write := w, pieces := ps t } else .ok []
          | none => .ok []
        match ask false (fun _ => true) Tile.elemPieces, ask true stale Tile.sumPieces with
        | .error e, _ => e
        | _, .error e => e
        | .ok raccs, .ok saccs =>
          let rread : Except Effect (TileRead × State) := match rt with
            | some t => readTile i s t raccs
            | none => .ok (⟨[], [], [], false⟩, s)
          match rread with
          | .error e => e
          | .ok (rr, s) =>
            let locks := (s.core i.g).locks.length
            if rt.any (fun t => t.space != 2 && stale t) ∧ queueFull i.x then .wait .queueSpace
            else if 64 < locks + heads.length then .wait (.lockSpace i.g)
            else
              let sin := (at_.any (fun t => Fb.chk b != 0 && t.2.state == .suspect)) || rt.any fun t => Fb.chk b != 0 && t.state == .suspect
              let rcmp := (at_.any fun t => stale t.2) || rt.any stale
              let s := match at_ with
                | some (n, t) =>
                  if stale t then
                    match readTile i s t [] with
                    | .ok (r, s) => (recompute i s n t r []).1
                    | .error _ => s
                  else s
                | none => s
              let (s, writes) := match rt with
                | some t => if stale t then recompute i s (Fb.rtile b) t rr saccs else (s, [])
                | none => (s, [])
              let s := readBanks s ((mA ++ mB).map fun x => .win i.g (x / 0x40000) (x % 0x40000))
              let m : MatOp :=
                { which := which, core := i.g, arr := an, slot := slot, fb := b, pc := i.pc, d := d, rows := codes, metaA := wA, metaB := wB
                  acc := (List.range 8).map fun j => i.x.vreg (d + j)
                  res := rr.codes.flatten.map fun x => BitVec.ofNat 32 x
                  gaddr := heads
                  flags := (if sin then 2 ^ 41 else 0) + (if rcmp then 2 ^ 40 else 0)
                  stage := 0
                  bad := none }
              let op := s.nextId
              let s := giveOp i s (.matrix m)
              let s := if writes.isEmpty then s else s.updCrew i.c fun x => { x with sq := x.sq ++ [⟨.tile writes 0, op⟩] }
              let s := lockRows s i.g op i.tag heads rowLen
              -- with metadata the crew waits for its reads; without, an MMAG gathers and the others go to their slot
              if !(mA ++ mB).isEmpty then .done (toWaiting s i.c (.ops [op]))
              else if which = 1 then
                let s := s.setOp op ⟨i.c, i.h.tag.toNat, i.bank, i.em, .matrix { m with stage := 1 }⟩
                .done (if slotOpen s op m then s else toWaiting s i.c (.ops [op]))
              else
                let s := reachSlot s op
                .done (match s.op? op with
                  | some ⟨_, _, _, _, .matrix k⟩ => if k.stage = 2 then toWaiting s i.c (.ops [op]) else s
                  | _ => s)

/-- A matrix instruction: issue with the reasons of its format block. -/
def runMatrix (which : Nat) (i : Instr) (o : Mat) (s : State) : Host.Outcome State Fault Refusal :=
  .next (issue i (matrixReason which o) (fun i s => matrixForm which i s o) s)

def execMma (h : Hdr) (o : Mat) (s : State) : Host.Outcome State Fault Refusal := runMatrix 0 (.mma h o) o s

def execMmag (h : Hdr) (o : Mat) (s : State) : Host.Outcome State Fault Refusal := runMatrix 1 (.mmag h o) o s

def execMmad (h : Hdr) (o : Mat) (s : State) : Host.Outcome State Fault Refusal := runMatrix 2 (.mmad h o) o s

/-! ### The result -/

/-- The 16 rows of integers a pass drives; rows at and beyond MROWS carry 0. -/
def inputRows (elems : List (List Elem)) (klen : Nat) : List (List Int) :=
  (List.range 16).map fun m => match elems[m]? with
    | some r => r.map Elem.toInt
    | none => List.replicate klen 0

/-- The pass set of a full pass. -/
def fullPass (b : Nat) (rows : List (List Int)) : Pass :=
  ⟨rows, List.replicate (Fb.nb b) (fmtPlanes (Fb.fmtA b)), fmtSigned (Fb.fmtA b)⟩

/-- What kind of pass the instruction runs: full, or a delta against a latch, sampled or not (R209, R211). -/
inductive PassKind where
  | full
  | delta (d : List (List Int)) (planes : List Nat) (sampled : Bool)
deriving DecidableEq, Repr

def passKind (b : Nat) (which : Nat) (wa : List Nat) (rows : List (List Int)) (latch : Option Latch) : PassKind :=
  match latch with
  | some l =>
    if which ≠ 2 ∨ l.fmt ≠ Fb.fmtA b ∨ l.klen ≠ Fb.klen b ∨ l.mrows ≠ Fb.mrows b ∨ l.bl ≠ Fb.blk b ∨ fmtWidth (Fb.fmtA b) > 8 ∨
        l.words ≠ wa then .full
    else
      let old := inputRows (l.rows.mapIdx fun m r => decodeRow b l.words m r) (Fb.klen b)
      let d := rows.mapIdx fun m r => deltaRow (Fb.theta b) r (old.getD m [])
      let pl := deltaPlanes (Fb.blk b) (Fb.nb b) d
      if pl.sum ≥ fmtPlanes (Fb.fmtA b) * Fb.nb b then .full
      else .delta d pl (decide (Fb.sper b ≠ 0) && decide (l.dcount + 1 = 2 ^ Fb.sper b))
  | none => .full

/-- The latch after a full pass: of the two, the one bound to the slot and crew, or the one least recently used (R207). -/
def bindLatch (ls : List Latch) (l : Latch) : List Latch :=
  let other := ls.filter fun x => x.slot != l.slot || x.cid != l.cid
  if other.length < ls.length ∨ ls.length < 2 then other ++ [l]
  else match other with
    | [x, y] => if x.used ≤ y.used then [y, l] else [x, l]
    | _ => other ++ [l]

/-- The bound check of a drained value (R166): what is stored, whether BNDF is set, whether it traps. -/
def drainBound (b : Option Bound) (y : Nat) : Nat × Bool × Bool :=
  match b with
  | none => (y, false, false)
  | some e =>
    if !e.outside y then (y, false, false)
    else if e.act = 2 then (y, false, true)
    else (if e.act = 1 then e.clamp y else y, true, false)

/-- The rows of a slot's weights that an instruction applies hold an odd TRIT code (R241). -/
def weightsOdd (b : Nat) (r : Arr) (slot : Nat) : Bool := Fb.fmtB b == 2 && (r.odd.getD slot []).any fun k => decide (k < Fb.klen b)

/-- MATRIX_RESULT: the passes, their checks, replays and drain end. `replays` is the number of timing-error replays (R206). TADDR of a code that
is not finite in a gathered row is the instruction's address: R239 says so of a fault found after issue, where R50 and R233 give the row (log 25). -/
def execMatrixResult (op replays : Nat) (s : State) : Host.Outcome State Fault Refusal :=
  .next (
    match s.op? op with
    | some o =>
      match o.kind with
      | .matrix m =>
        if m.stage ≠ 3 then s
        else
          let b := m.fb
          let r := s.arr m.core m.arr
          let tag := ((s.crew? o.crew).map (·.seat.tag)).getD 0
          let cid := ((s.crew? o.crew).map (·.seat.cid)).getD 0
          let pcl := m.pc.toNat % 2 ^ 32
          let freeSlot (s : State) (full samp disc : Bool) : State := s.updArr m.core m.arr fun r =>
            let k := r.slot m.slot
            { r with
              terep := min 65535 (r.terep + replays)
              slots := SMap.setD r.slots m.slot SlotRec.free { k with
                op := none
                owner := cid
                full := if m.which = 2 then full else k.full
                samp := if m.which = 2 then samp else k.samp
                disc := k.disc || disc } }
          let s := s.updCtr m.core fun k =>
            { k with tmrep := sat32 (k.tmrep + replays), cur := sat32 (k.cur + replays) }
          match m.bad with
          | some _ =>
            finishOp (freeSlot s false false false) op
              { mat := some ⟨BitVec.ofNat 64 (m.flags + pcl), some ⟨0x0F, BitVec.allOnes 128, m.pc⟩, none⟩ }
          | none =>
            let elems := m.rows.mapIdx fun j c => decodeRow b m.metaA j c
            let rows := inputRows elems (Fb.klen b)
            let kind := passKind b m.which m.metaA rows (r.latch? m.slot cid)
            let sets := match kind with
              | .full => [fullPass b rows]
              | .delta d pl sampled =>
                let p : Pass := ⟨d, pl, true⟩
                if sampled then [p, fullPass b rows] else [p]
            let nanA := (List.range (Fb.nb b)).filter fun j =>
              (Fb.metaA b && (List.range (Fb.mrows b)).any fun k => (scaleOf (Fb.scfA b) (metaScale (m.metaA.getD (k * Fb.nb b + j) 0))).isNone) ||
                (Fb.metaB b && (List.range 64).any fun k => (scaleOf (Fb.scfB b) (metaScale (m.metaB.getD (k * Fb.nb b + j) 0))).isNone)
            let skip := if Fb.chk b = 0 then [] else nanA
            let step := 2 * 1040 * Fb.nb b
            let run := attempts ⟨r, m.slot, b, skip, sets⟩ s.free step (if Fb.chk b = 0 then 0 else 2) 0 r.pass
            let s := { s with free := s.free + 3 * step }
            let used := r.pass.any fun x => sets.any fun p => p.applies (Fb.chk b) x.2.2.1 x.2.2.2
            let drained := !run.failed || Fb.failm b
            -- accumulation
            let first := (run.sums.head?).getD ⟨fun _ _ _ => 0, fun _ _ => 0, fun _ _ => 0⟩
            let table (f : Nat → Nat → FRes) : List (List FRes) := (List.range (Fb.mrows b)).map fun k => (List.range 64).map (f k)
            let ys := table fun k n => accumulate b m.metaA m.metaB first (if Fb.acc b then accAt m.acc k n else negZero) k n
            let sampled := run.sums.length == 2
            let fulls : List (List FRes) := match run.sums[1]? with
              | some x => table fun k n => accumulate b m.metaA m.metaB x negZero k n
              | none => []
            let disc := sampled && drained && discrepant (fulls.map fun r => r.map (·.bits)) (ys.map fun r => r.map (·.bits))
            let ys := if disc && Fb.repl b then fulls else ys
            -- the drain
            let (bd, s) : Option Bound × State := if Fb.bnde b && drained then
                let (e, s) := boundNow s tag (Fb.bidx b)
                (some e, s)
              else (none, s)
            let zs := ys.mapIdx fun k r => r.mapIdx fun n y =>
              let z := drainValue b m.res k n y
              (drainBound bd z.bits, z.fl)
            let bndf := zs.any fun r => r.any fun z => z.1.2.1
            let trapped := (zs.mapIdx fun k r => (r.mapIdx fun n z => (256 * k + n, z.1.2.2)).filter fun e => e.2).flatten.map (·.1)
            let s := match bd with
              | some e => if bndf then setHit s tag (Fb.bidx b) e else s
              | none => s
            let ncor := if run.failed then 0 else run.found.fixes.length
            let flag (c : Bool) (n : Nat) : Nat := if c then 2 ^ n else 0
            let isFull := m.which == 2 && kind == .full
            let odd := elems.any (fun r => r.any fun e => e == .odd) || weightsOdd b r m.slot
            let nv := drained && zs.any fun r => r.any fun z => (fmtF32.read z.1.1).isNan
            let of := drained && zs.any fun r => r.any fun z => z.2 &&& flOF != 0
            let mxst := min ncor 65535 * 2 ^ 48 + run.replays * 2 ^ 46 + flag isFull 45 + flag sampled 44 + flag disc 43 + flag run.failed 42 +
              m.flags + flag odd 39 + flag (!skip.isEmpty) 38 + flag nv 37 + flag of 36 + flag bndf 35 + flag run.found.colx 33 +
              flag (countBound (Fb.blk b) (Fb.rep b) != 0) 32 + pcl
            let fault : Option Trap :=
              if run.failed && !Fb.failm b then some ⟨0x0B, BitVec.allOnes 128, m.pc⟩
              else match trapped with
                | [] => none
                | x :: _ => some ⟨0x0C, BitVec.allOnes 128, BitVec.ofNat 64 x⟩
            let regs := (List.range 8).filterMap fun j =>
              if h : m.d + j < 320 then
                let lanes := (List.range 128).filter fun l => decide (2 * j + l / 64 < Fb.mrows b)
                if lanes.isEmpty then none
                else some (RegWrite.v ⟨m.d + j, h⟩ o.bank (lanesMask lanes) (Lanes.ofFn fun l =>
                  BitVec.ofNat 32 (((((zs[2 * j + l / 64]?).bind fun r => r[l % 64]?).map fun z => z.1.1)).getD 0)))
              else none
            let dtile := if Fb.dte b then some (Fb.dtile b, if run.failed then 3 else 1) else none
            -- latch, counters, slot
            let codes := match kind with
              | .delta d _ _ =>
                if disc && Fb.repl b then m.rows
                else latchCodes d m.rows (((r.latch? m.slot cid).map (·.rows)).getD [])
              | .full => m.rows
            let count := match kind with
              | .delta _ _ _ => if sampled then 0 else ((r.latch? m.slot cid).map (·.dcount)).getD 0 + 1
              | .full => 0
            let l : Latch := ⟨m.slot, cid, codes, m.metaA, Fb.fmtA b, Fb.klen b, Fb.mrows b, Fb.blk b, count, s.tick⟩
            let s := s.updArr m.core m.arr fun r =>
              { r with
                latches := if fmtWidth (Fb.fmtA b) ≤ 8 ∧ r.state = .compute then bindLatch r.latches l else r.latches
                pass := if used then none else r.pass }
            let s := s.updCtr m.core fun k =>
              { k with
                ckcor := sat32 (k.ckcor + ncor)
                ckrep := sat32 (k.ckrep + run.replays)
                ckfail := sat32 (k.ckfail + run.failed.toNat) }
            finishOp (freeSlot s isFull sampled disc) op
              { regs := if fault.isSome then [] else regs
                mat := some ⟨BitVec.ofNat 64 mxst, fault, if fault.isSome then none else dtile⟩ }
      | _ => s
    | none => s)

/-! ### The other steps -/

/-- METADATA_READ_DONE: an MMAG goes on in the background, its crew waiting while its slot is busy (R205); the others go to their slot. -/
def execMetadataReadDone (op : Nat) (s : State) : Host.Outcome State Fault Refusal :=
  .next (
    match s.op? op with
    | some o =>
      match o.kind with
      | .matrix m =>
        if m.stage ≠ 0 then s
        else if m.which = 1 then
          let s := s.setOp op { o with kind := .matrix { m with stage := 1 } }
          if slotOpen s op m then releaseAt s o.crew op else s
        else reachSlot s op
      | _ => s
    | none => s)

/-- MMAG_LATCH_FULL: the rows are read, their range locks go, and the instruction goes to its slot. A row whose array serves no storage access
reads zeros and sets its bit of MBUSY and GZ; a code that is not finite is reported at commit (R230, R239). -/
def execMmagLatchFull (op : Nat) (s : State) : Host.Outcome State Fault Refusal :=
  .next (
    match s.op? op with
    | some o =>
      match o.kind with
      | .matrix m =>
        let own (k : Lock) : Bool := k.owner == .gather op
        if m.stage ≠ 1 ∨ m.which ≠ 1 ∨ (s.core m.core).locks.any (fun e => own e.2 && !e.2.live) then s
        else
          let b := m.fb
          let len := ceilDiv (Fb.rowBits b) 8
          let served (st : ArrState) : Bool := st == .storage || st == .reefing
          let places (h : Nat) : List (Nat × Nat) := (List.range len).map fun j => ((h + j) / 0x40000, (h + j) % 0x40000)
          let busy (h : Nat) : Bool := (places h).any fun p => !served (s.arr m.core p.1).state
          let row (h : Nat) : List Nat :=
            let run := if busy h then 0 else ofBytes ((places h).map fun p => (s.arr m.core p.1).byte p.2)
            (List.range (Fb.codes b)).map (packedCode (fmtWidth (Fb.fmtA b)) run)
          let rows := m.gaddr.map row
          let zero := (m.gaddr.mapIdx fun j h => (j, busy h)).filter fun e => e.2
          let bad := (rows.mapIdx fun j c => decodeRow b m.metaA j c).findIdx? fun r => r.any fun e => !e.finite
          let s := readBanks s (m.gaddr.flatMap fun h => (places h).map fun p => .win m.core p.1 p.2)
          let s := s.updCore m.core fun k => { k with locks := k.locks.filter fun e => !own e.2 }
          let s := setBusy s o.crew (lanesMask (zero.map (·.1)))
          reachSlot (s.setOp op { o with kind := .matrix { m with
            rows := rows
            bad := bad
            flags := m.flags + (if zero.isEmpty then 0 else 2 ^ 34) } }) op
      | _ => s
    | none => s)

/-- MATRIX_SLOT_TAKE: a waiting instruction takes its slot, in issue order; the crew of an MMAG that still gathers goes on once the slot is free. -/
def execMatrixSlotTake (op : Nat) (s : State) : Host.Outcome State Fault Refusal :=
  .next (
    match s.op? op with
    | some o =>
      match o.kind with
      | .matrix m =>
        if !slotOpen s op m then s
        else if m.stage = 2 then releaseAt (takeSlot s op o m) o.crew op
        else if m.stage = 1 then releaseAt s o.crew op
        else s
      | _ => s
    | none => s)

end Sys2Proof.Machine
end

