-- ==== Sys2Proof/Machine/MemEvents.lean ====
section
/-!
DEFINITION. The steps memory takes by itself: fills, the arrival of loads, the store queue, atomics at their homes, drains, range locks and the
conversion of ways (R140, R150 to R158, R164, R165, R169, R176 to R178, R186, R344, R383).
-/
namespace Sys2Proof.Machine

/-! ### Fills and loads -/

/-- The load that an operation is, if it waits for a line of a core. -/
def fillWaiter (s : State) (g line : Nat) (o : Op) : Option LoadOp :=
  match o.kind with
  | .load l => if l.lines.contains line && (s.crew? o.crew).any (fun x => x.seat.core == g) then some l else none
  | _ => none

/-- The positions of a load that a line serves. -/
def LoadOp.inLine (l : LoadOp) (line : Nat) : List (Nat × Nat × Place) :=
  l.open.filter fun k => match k.2.2 with
    | .glob pa _ map => map.cached && lineOf pa == line
    | _ => false

/-- A line is delivered to the loads of its core that wait for it. It takes a place in the L1 unless every one of them hints against it (CH 2,
R16) and the line is not there; it has the lowest retention when all of them say so (CH 1). -/
def deliverLine (s : State) (g line : Nat) (spoilt : Bool) : State :=
  let who := s.ops.filterMap fun e => (fillWaiter s g line e.2).map fun l => (e.2, l)
  let tag := (who.head?.bind fun w => (s.crew? w.1.crew).map (·.seat.tag)).getD 0
  let obj := (who.findSome? fun w => w.2.accs.findSome? fun a => a.at_.findSome? fun p => match p with
    | .glob pa va _ => if lineOf pa = line then some (objectOf s tag va) else none
    | _ => none).getD 0
  let down := pathDown s g (128 * line)
  let s :=
    if down then countLost s g (128 * line)
    else if ((s.core g).l1.find? line).isSome || who.any (fun w => w.2.ch != 2) then
      fillLine s g line tag obj (who.all fun w => w.2.ch == 1) spoilt
    else noteHome s (128 * line)
  let bad := down || match (s.core g).l1.find? line with
    | some l => !l.poison.isEmpty
    | none => spoilt || s.mem.badLine line
  let serve (o : Op) : Op := match fillWaiter s g line o with
    | none => o
    | some l =>
      let ks := l.inLine line
      { o with kind := .load { l with
        lines := l.lines.filter (· ≠ line)
        got := l.got ++ ks.map fun k => (k.1, k.2.1, seenByte s g k.2.2)
        bad := if bad then (l.bad ++ ks.map (·.1)).eraseDups else l.bad } }
  { s with ops := s.ops.map fun (e : Nat × Op) => (e.1, serve e.2) }

/-- LINE_FILL: the line comes from its home; one that cannot be read arrives poisoned (R360). A line whose path trains is held (R350). Where it
crosses the mesh or a die link its packet may come with a reserved code: the line is then requested once more, and a second such packet delivers
it poisoned (R344). -/
def execLineFill (g line : Nat) (s : State) : Host.Outcome State Fault Refusal :=
  .next (
    if !(s.core g).fills.contains line || pathHeld s g (128 * line) then s
    else
      let (f, s) := if crossesMesh g (128 * line) then s.freeValue else (0, s)
      let spoilt := reservedCode (receivedCode (ofBytes (s.mem.readN (128 * line) 128)) f)
      if spoilt && !(s.core g).refetch.contains line then s.updCore g fun k => { k with refetch := line :: k.refetch }
      else
        let s := s.updCore g fun k => { k with fills := k.fills.filter (· ≠ line), refetch := k.refetch.filter (· ≠ line) }
        if s.ops.any fun e => (fillWaiter s g line e.2).isSome then deliverLine s g line spoilt else s)

/-- The result of a load: zeros from an array that answered under R157, in the lanes it zeroed. A byte that the crew's own queue has given is
zero too: the spec does not say whether such a load reaches its array, and the model takes it that it does (log 13). -/
def loadHeld (op : Op) (l : LoadOp) : Held :=
  let value (a : LaneAcc) : Nat := ofBytes (a.at_.mapIdx fun j p =>
    match p with
    | .win c n _ => if l.zero.contains (a.lane, c, n) then 0 else l.get a.lane j
    | _ => l.get a.lane j)
  match l.dst with
  | none => {}
  | some d =>
    if l.scalar then heldScalars op.bank d (loadScalars l.ty (((l.accs.head?).map value).getD 0))
    else
      let vals := l.accs.map fun a => (a.lane, value a)
      lanesHeld op.bank (lanesMask (l.accs.map (·.lane))) d (loadRegs l.ty fun i => ((vals.find? fun e => e.1 == i).map (·.2)).getD 0)

/-- Some bytes of a load are read at their banks or homes: those not yet taken, and the arrays among them that answer with zeros (R157, R158). -/
def arriveBytes (s : State) (c g : Nat) (l : LoadOp) (mine : Place → Bool) : LoadOp × State :=
  let ks := l.open.filter fun k => mine k.2.2
  let all := l.accs.flatMap (·.at_)
  let (f, s) := modeBits (readBanks s (ks.map fun k => k.2.2)) l.busy (all.filter mine)
  let zero := l.accs.filterMap fun a => match a.at_.head? with
    | some (.win h n o) => if mine (.win h n o) && answersZero s l.busy f all (.win h n o) then some (a.lane, h, n) else none
    | _ => none
  ({ l with
      got := l.got ++ ks.map fun k => (k.1, k.2.1, placeByte s g k.2.2)
      bad := (l.bad ++ (ks.filter fun k => placeBad s g k.2.2).map (·.1)).eraseDups
      zero := l.zero ++ zero }, setBusy s c (lanesMask (zero.map (·.1))))

/-- The reads that a path which is DOWN refuses are counted, one for each lane (R360). -/
def countLostReads (s : State) (g : Nat) (ks : List (Nat × Nat × Place)) : State :=
  ((ks.map (·.1)).eraseDups.filterMap fun n => ks.find? fun k => k.1 == n).foldl (fun s k => match k.2.2 with
    | .glob pa _ _ => if pathDown s g pa then countLost s g pa else s
    | _ => s) s

/-- The bytes of a load that are still to be taken can be: no earlier access of R140 or R144 stands before them, their paths do not train, and
a request to a peer has gone. -/
def bytesCome (s : State) (c op g : Nat) (ks : List (Nat × Nat × Place)) : Bool :=
  ks.all fun k => !heldBack s c op g k.2.2 && k.2.2.free s && match k.2.2 with
    | .glob pa _ _ => !pathHeld s g pa
    | _ => true

/-- A load completes. A poisoned lane of one that its crew watches raises DATA_ERROR at the load; a load that the crew has passed by takes its
data as they are (log 14). -/
def endLoad (s : State) (op : Nat) (o : Op) (l : LoadOp) : State :=
  if l.bad.isEmpty || !l.watch then finishOp s op (loadHeld o l)
  else
    let ls := l.accs.filter fun a => l.bad.contains a.lane
    raiseAtLoad ((s.dropOp op).updCrew o.crew fun x => { x with tags := x.tags.erase o.tag }) o.crew
      ⟨0x0F, lanesMask l.bad, BitVec.ofNat 64 (ls.foldl (fun m a => min m a.ea) (ls.headD ⟨0, 0, []⟩).ea)⟩ l.pc

/-- The positions of a load that belong to a part and are still to be taken. -/
def LoadOp.ofPart (l : LoadOp) (n : Nat) : List (Nat × Nat × Place) := l.open.filter fun k => k.2.2.part == some n

/-- LOAD_DATA_ARRIVE: one part of a load returns its data, at a moment of its own (R383), read at its bank or home; which part, the spec does not
say (log 2). The load completes with its last. -/
def execLoadDataArrive (op : Nat) (s : State) : Host.Outcome State Fault Refusal :=
  .next (
    match s.op? op with
    | some o =>
      match o.kind, s.crew? o.crew with
      | .load l, some x =>
        let g := x.seat.core
        if !l.lines.isEmpty || (l.acq.any (· ≥ 2) && !l.done) then s
        else
          match l.parts.filter fun n => bytesCome s o.crew op g (l.ofPart n) with
          | [] =>
            if !l.parts.isEmpty || !bytesCome s o.crew op g l.open then s
            else
              let (l, s) := arriveBytes s o.crew g l fun p => p.part == none
              endLoad s op o l
          | n :: ns =>
            let (f, s) := if ns.isEmpty then (0, s) else s.freeValue
            let n := (n :: ns).getD (f % (ns.length + 1)) n
            let (l, s) := arriveBytes (countLostReads s g (l.ofPart n)) o.crew g l fun p => p.part == some n
            let l := { l with parts := l.parts.filter (· ≠ n) }
            if l.parts.isEmpty && l.open.isEmpty then endLoad s op o l else s.setOp op { o with kind := .load l }
      | _, _ => s
    | none => s)

/-! ### The store queue (R140, R165) -/

/-- The head entry leaves, and the operation it stands for completes. -/
def leaveQueue (s : State) (c : Nat) (h : Held) : State :=
  match s.crew? c with
  | none => s
  | some x =>
    match x.sq with
    | [] => s
    | q :: t => finishOp (s.updCrew c fun x => { x with sq := t, pass := none }) q.op h

/-- Earlier loads of the crew are still in flight: a release waits for them (R146). -/
def earlierLoads (s : State) (c op : Nat) : Bool := (loadsOf s c).any (· < op)

/-- A byte whose write cannot be performed now: its page migrates, its path trains, or a packet to its peer waits. -/
def writeWaits (s : State) (g : Nat) (home : Bool) (ch : Nat) (p : Place) : Bool :=
  writeHeld s p || (goesHome s g home ch p && match p with
    | .glob pa _ _ => pathHeld s g pa || !portFree s pa
    | _ => false)

/-- A write sent to its home that completes with an error (R360): its path is DOWN, or a host or peer refuses it, which is the other side's
choice (log 2). -/
def writeRefused (s : State) (g f : Nat) (home : Bool) (ch : Nat) (e : Nat × Place × Byte) : Bool :=
  match e.2.1 with
  | .glob pa va map => goesHome s g home ch (.glob pa va map) && (pathDown s g pa || (!map.cached && f.testBit e.1))
  | _ => false

/-- Refused writes are discarded; each lane's is one request that is counted, and the crew remembers the lowest address. -/
def discardWrites (s : State) (c g : Nat) (bad : List (Nat × Place × Byte)) : State :=
  ((bad.map (·.1)).eraseDups.filterMap fun n => bad.find? fun e => e.1 == n).foldl (fun s e =>
    match e.2.1 with
    | .glob pa va _ => noteDiscard (countLost s g pa) c va
    | _ => s) s

/-- Requests to a peer: one for each lane, with the bytes it writes. -/
def askPeer (s : State) (c vc : Nat) (bytes : List (Nat × Place × Byte)) : State :=
  let mine := bytes.filter fun e => e.2.1.isPeer
  ((mine.map (·.1)).eraseDups).foldl (fun s n =>
    let l := mine.filter fun e => e.1 == n
    peerAsk s vc (some c) (l.map fun e => e.2.1) (l.map fun e => e.2.2)) s

/-- A store reaches its place (R140, R151, R153). -/
def performStore (s : State) (c g : Nat) (home : Bool) (ch : Nat) (before : Option (List (Nat × Nat))) (bytes : List (Nat × Place × Byte)) :
    State :=
  let hosted := bytes.any fun e => match e.2.1 with
    | .glob _ _ map => !map.cached
    | _ => false
  let (f, s) := if hosted then s.freeValue else (0, s)
  let (bad, ok) := bytes.partition (writeRefused s g f home ch)
  landStore (askPeer (discardWrites s c g bad) c 0 ok) c home ch before ok

/-! ### Parts of a write (R158, R383) -/

/-- The cores of the window at which places lie. -/
def windowParts (ps : List Place) : List Nat := (ps.filterMap fun p => match p with
  | .win c _ _ => some c
  | _ => none).eraseDups

/-- The places of the part at a core; of an access outside the window there is one part. -/
def inPart (n : Option Nat) (p : Place) : Bool := n.isNone || p.part == n

/-- The passes of the part of some places at a core. -/
def partPasses (ps : List Place) (n : Option Nat) : Nat := passCount (windowBytes (ps.filter (inPart n)))

/-- A part of several passes begins before it ends: the modes of its arrays are kept from the moment its passes begin. -/
def mustBegin (x : Crew) (ps : List Place) : Bool := x.pass.isNone && (windowParts ps).any fun n => partPasses ps (some n) != 1

def beginPass (s : State) (c : Nat) (ps : List Place) : State := s.updCrew c fun x => { x with pass := some ⟨busyArrays s ps, []⟩ }

/-- The parts of the head of the queue that have still to land. -/
def partsLeft (x : Crew) (ps : List Place) : List Nat := (windowParts ps).filter fun n => !(x.pass.any fun k => k.gone.contains n)

/-- The part that lands next, one of those that are left (log 2); whether it is the last; before the first lands, loads in flight are served. -/
def nextPart (s : State) (x : Crew) (ps : List Place) : Option Nat × Bool × State :=
  let s := if x.pass.any fun k => !k.gone.isEmpty then s else captureBefore s x.seat.core ps
  match partsLeft x ps with
  | [] => (none, true, s)
  | [n] => (some n, true, s)
  | n :: ns =>
    let (f, s) := s.freeValue
    (some ((n :: ns).getD (f % (ns.length + 1)) n), false, s)

/-- The arrays that were busy when the passes of a part began, where it makes several. -/
def passBusy (x : Crew) (ps : List Place) (n : Option Nat) : Option (List (Nat × Nat)) :=
  if partPasses ps n = 1 then none else x.pass.map (·.busy)

/-- A part has landed, and more follow. -/
def partLanded (s : State) (c : Nat) (ps : List Place) (n : Option Nat) : State :=
  s.updCrew c fun x =>
    let k := x.pass.getD ⟨busyArrays s ps, []⟩
    { x with pass := some { k with gone := k.gone ++ n.toList } }

/-- A writer that waits is listed with the page whose lock holds it (R340). -/
def waitAtHead (s : State) (c : Nat) (ps : List Place) : State := holdWriter s (.crew c) ps

/-- STORE_QUEUE_LEAVE: a store that is no eager release, each of its parts in a step of its own, or the writes of a tile instruction that is
complete. -/
def execStoreQueueLeave (crew : Nat) (s : State) : Host.Outcome State Fault Refusal :=
  .next (
    match s.crew? crew with
    | none => s
    | some x =>
      let g := x.seat.core
      match x.sq with
      | ⟨.store bytes ord scope ch, op⟩ :: _ =>
        let ps := bytes.map fun e => e.2.1
        let lazy := decide (ord ≥ 2) && decide (scope ≥ 2)
        if ord ≥ 2 && (earlierLoads s crew op || eagerRelease g scope ps) then s
        else if ps.any (writeWaits s g lazy ch) then waitAtHead s crew ps
        else if mustBegin x ps then beginPass s crew ps
        else
          let (n, last, s) := nextPart s x ps
          let s := performStore s crew g lazy ch (passBusy x ps n) (bytes.filter fun e => inPart n e.2.1)
          if last then leaveQueue (if lazy then addReleaser s g ps else s) crew {} else partLanded s crew ps n
      | ⟨.tile bytes ch, op⟩ :: _ =>
        let ps := bytes.map (·.1)
        let early := match s.op? op with
          | some ⟨_, _, _, _, .tileInstr t⟩ => t.drains
          | some ⟨_, _, _, _, .matrix _⟩ => true
          | _ => false
        if opLive s op && !early then s
        else if ps.any (writeWaits s g false ch) then waitAtHead s crew ps
        else if mustBegin x ps then beginPass s crew ps
        else
          let (drops, s) := landMode (captureBefore s g ps) (x.pass.map (·.busy)) ps
          let (f, s) := if ps.any fun p => goesHome s g false ch p then s.freeValue else (0, s)
          let (out, land) := bytes.partition fun e => drops e.1
          let (bad, ok) := land.partition fun e => writeRefused s g f false ch (0, e.1, e.2)
          let s := discardWrites s crew g (bad.map fun e => (0, e.1, e.2))
          let s := askPeer s crew 0 (ok.map fun e => (0, e.1, e.2))
          let s := ok.foldl (fun s e => landByte s crew g x.seat.tag false ch e.1 e.2) s
          (setBusy s crew (if out.isEmpty then 0 else 1)).updCrew crew fun x => { x with sq := x.sq.tail, pass := none }
      | _ => s)

/-! ### Atomics and TSTP at their homes (R147, R165, R173, R178) -/

/-- One location of an atomic: its old value, and the state with the new one. -/
def performLane (s : State) (cr g tag : Nat) (a : AtomAcc) (l : LaneAcc) (c : Nat) : Nat × State :=
  let old := ofBytes (l.at_.map (placeByte s g))
  let bytes := l.at_.zip (toBytes (a.width / 8) (a.op.new a.width old c))
  (old, bytes.foldl (fun s e => landByte s cr g tag true 0 e.1 e.2) s)

/-- Whether a lane's request fails: its path is DOWN, or a host or peer answers with an error (R186, R360). -/
def laneRefused (s : State) (g f : Nat) (l : LaneAcc) : Bool :=
  match l.at_.head? with
  | some (.glob pa _ map) => pathDown s g pa || (!map.cached && f.testBit l.lane)
  | _ => false

/-- A lane's request that fails is counted. -/
def countRefused (s : State) (g : Nat) (at_ : List Place) : State :=
  match at_.head? with
  | some (.glob pa _ _) => countLost s g pa
  | _ => s

/-- The lanes of an atomic in one of its parts, in ascending order (R178, R383). -/
def performAtomic (s : State) (c g tag : Nat) (a : AtomAcc) (n : Option Nat) (before : Option (List (Nat × Nat))) : AtomAcc × State :=
  let mine := a.lanes.filter fun l => l.1.at_.all (inPart n)
  let accs := mine.map (·.1)
  let ps := accs.flatMap (·.at_)
  let s := readBanks (noteLines (invalidateLines s g (atomLines accs)) ps) ps
  let (drops, s) := landMode s before ps
  let (f, s) := if hostPlaces accs then s.freeValue else (0, s)
  mine.foldl (fun (a, s) l =>
    if (l.1.at_.head?).any drops then
      ({ a with old := a.old ++ [(l.1.lane, 0)], dropped := a.dropped ++ [l.1.lane] }, setBusy s c (lanesMask [l.1.lane]))
    else if laneRefused s g f l.1 then ({ a with bad := a.bad ++ [l.1.lane] }, countRefused s g l.1.at_)
    else
      let (old, s) := performLane (peerAsk s 2 none l.1.at_ (toBytes (a.width / 8) l.2)) c g tag a l.1 l.2
      ({ a with old := a.old ++ [(l.1.lane, old)] }, s)) (a, s)

/-- The code of an element in its bytes, and the bytes with a new code (R47). -/
def elCode (bit width : Nat) (bytes : List Byte) : Nat := ofBytes bytes / 2 ^ bit % 2 ^ width

def putElCode (bit width code : Nat) (bytes : List Byte) : List Byte :=
  let x := ofBytes bytes
  toBytes bytes.length (x - elCode bit width bytes * 2 ^ bit + code % 2 ^ width * 2 ^ bit)

def PutEl.places (e : PutEl) : List Place := e.at_ ++ e.rowAt ++ e.colAt

/-- One lane of a TSTP: the element and its two checksum words, together (R173). -/
def performPut (s : State) (c g tag : Nat) (e : PutEl) : State :=
  let write (s : State) (ps : List Place) (bs : List Byte) : State :=
    (ps.zip bs).foldl (fun s e => landByte s c g tag true 0 e.1 e.2) s
  let old := e.at_.map (placeByte s g)
  let delta (ps : List Place) : List Byte :=
    toBytes 4 (wrap32 (ofBytes (ps.map (placeByte s g)) + 2 ^ 32 + e.code - elCode e.bit e.width old))
  let row := delta e.rowAt
  let col := delta e.colAt
  write (write (write s e.at_ (putElCode e.bit e.width e.code old)) e.rowAt row) e.colAt col

/-- The lanes of a TSTP in one of its parts. A lane drops all three of its writes when an array of any of them answers under R157: the spec does
not say whether the others still land, and this is the model's choice (log 71). A request that is refused is a store that is discarded (R360). -/
def performPuts (s : State) (c g tag : Nat) (els : List PutEl) (before : Option (List (Nat × Nat))) : State :=
  let ps := els.flatMap PutEl.places
  let s := readBanks (noteLines (invalidateLines s g (placeLines ps)) ps) ps
  let (drops, s) := landMode s before ps
  let (f, s) := if ps.any fun p => goesHome s g false 0 p then s.freeValue else (0, s)
  els.foldl (fun s e =>
    if e.places.any drops then setBusy s c (lanesMask [e.lane])
    else
      match e.places.find? fun p => writeRefused s g f true 0 (e.lane, p, 0) with
      | some p => discardWrites s c g [(e.lane, p, 0)]
      | none => performPut (peerAsk s 2 (some c) e.at_ (toBytes 4 e.code)) c g tag e) s

/-- ATOMIC_PERFORM: the atomic or TSTP at the head of the queue is performed at its home, each of its parts in a step of its own (R383). A release
first follows the crew's earlier work; an acquire finds the release sets of its locations empty (R152). -/
def execAtomicPerform (crew : Nat) (s : State) : Host.Outcome State Fault Refusal :=
  .next (
    match s.crew? crew with
    | none => s
    | some x =>
      let g := x.seat.core
      match x.sq with
      | ⟨.atomic a, op⟩ :: t =>
        let ps := a.lanes.flatMap fun l => l.1.at_
        let rel := decide (a.ord ≥ 2)
        let acq := (a.ord = 1 ∨ a.ord = 3) ∧ a.scope ≥ 2
        if a.done || (rel && (earlierLoads s crew op || (eagerRelease g a.scope ps && !a.drained))) ||
            (decide acq && !(releasers s ps).isEmpty) then s
        else if ps.any (writeWaits s g true 0) then waitAtHead s crew ps
        else if mustBegin x ps then beginPass s crew ps
        else
          let (n, last, s) := nextPart s x ps
          let (a, s) := performAtomic s crew g x.seat.tag a n (passBusy x ps n)
          let lazy := rel && decide (a.scope ≥ 2) && !eagerRelease g a.scope ps
          let s := if last then (if lazy then addReleaser s g ps else s) else partLanded s crew ps n
          s.updCrew crew fun x => { x with sq := ⟨.atomic { a with done := last }, op⟩ :: t, pass := if last then none else x.pass }
      | ⟨.put p, op⟩ :: t =>
        let ps := p.els.flatMap PutEl.places
        if p.done then s
        else if ps.any (writeWaits s g true 0) then waitAtHead s crew ps
        else if mustBegin x ps then beginPass s crew ps
        else
          let (n, last, s) := nextPart s x ps
          let s := performPuts s crew g x.seat.tag (p.els.filter fun e => e.at_.all (inPart n)) (passBusy x ps n)
          let s := if last then s else partLanded s crew ps n
          s.updCrew crew fun x => { x with sq := ⟨.put { p with done := last }, op⟩ :: t, pass := if last then none else x.pass }
      | _ => s)

/-- The old values of an atomic as its destination takes them. -/
def atomHeld (bank : Bool) (d : Reg) (ret : AtomRet) (old : List (Nat × Nat)) : Held :=
  let at_ (l : Nat) : Nat := ((old.find? fun e => e.1 == l).map (·.2)).getD 0
  match ret with
  | .lanes w =>
    lanesHeld bank (lanesMask (old.map (·.1))) d
      ((List.range (max 1 (w / 32))).map fun j => Lanes.ofFn fun l => BitVec.ofNat 32 (at_ l / 2 ^ (32 * j)))
  | .scalar w sgn =>
    heldScalars bank d (if w = 128 then [BitVec.ofNat 64 (at_ 0), BitVec.ofNat 64 (at_ 0 / 2 ^ 64)]
      else [if sgn then BitVec.ofInt 64 (signed w (at_ 0)) else BitVec.ofNat 64 (at_ 0)])

/-- The places an atomic has written. -/
def AtomAcc.written (a : AtomAcc) : List Place :=
  (a.lanes.filter fun l => !a.dropped.contains l.1.lane && !a.bad.contains l.1.lane).flatMap fun l => l.1.at_

/-- ATOMIC_RESULT_RETURN: the result returns and the entry leaves; tiles written in become STALE (R168). An acquire then invalidates stale
objects (R152); a request that failed raises UNSUPPORTED_ATOMIC and writes no lane (R186). -/
def execAtomicResultReturn (crew : Nat) (s : State) : Host.Outcome State Fault Refusal :=
  .next (
    match s.crew? crew with
    | none => s
    | some x =>
      match x.sq with
      | ⟨.atomic a, op⟩ :: _ =>
        if !a.done then s
        else
          let s := staleMemTiles s x.seat.core x.seat.tag a.written
          let s := if (a.ord = 1 ∨ a.ord = 3) ∧ a.scope ≥ 2 then invalidateStale s x.seat.core else s
          if a.bad.isEmpty then
            leaveQueue s crew (match s.op? op with
              | some ⟨_, _, b, _, .queued (some d) ret⟩ => atomHeld b d ret a.old
              | _ => {})
          else
            let ls := a.lanes.filter fun l => a.bad.contains l.1.lane
            raiseLate (leaveQueue s crew {}) crew
              ⟨0x0E, lanesMask a.bad, BitVec.ofNat 64 (ls.foldl (fun m l => min m l.1.ea) (((ls.head?).map (·.1.ea)).getD 0))⟩ a.pc
      | ⟨.put p, _⟩ :: _ => if p.done then leaveQueue s crew {} else s
      | _ => s)

/-! ### Drains (R151 to R153, R177) -/

/-- The places whose release sets an operation acquires. -/
def acquirePlaces (s : State) (op : Nat) : List Place :=
  match s.op? op with
  | some o =>
    match o.kind with
    | .load l => if l.acq.any (· ≥ 2) && !l.done then l.open.map fun k => k.2.2 else []
    | .queued .. =>
      match (s.crew? o.crew).bind fun x => x.sq.head? with
      | some ⟨.atomic a, q⟩ =>
        if q = op ∧ !a.done ∧ (a.ord = 1 ∨ a.ord = 3) ∧ a.scope ≥ 2 then a.lanes.flatMap fun l => l.1.at_ else []
      | _ => []
    | _ => []
  | none => []

/-- The cores an acquire fence still has to drain: those of its instance that have written since their last drain (R177). -/
def fenceDrains (s : State) (g scope : Nat) (drained : List Nat) : List Nat :=
  SMap.keys (s.cores.filter fun e => inScope scope g e.1 && !drained.contains e.1 && e.2.l1.any fun l => !l.2.dirty.isEmpty)

/-- A fence's waits are over: its queue and loads are done, and its release part when it has one. -/
def fenceReady (s : State) (c ord scope : Nat) (after : List Nat) (released : Bool) : Bool :=
  !(after.any (opPending s c)) && (released || ord == 1 || decide (scope ≤ 1))

/-- DRAIN_DEMAND: the core writes back every line that is dirty in its L1 at the demand; a line that waits for a link holds it up (R350). -/
def execDrainDemand (core op : Nat) (s : State) : Host.Outcome State Fault Refusal :=
  .next (
    if drainHeld s core then s
    else match s.op? op with
    | none => s
    | some o =>
      match o.kind with
      | .fence ord scope after rel drained =>
        match s.crew? o.crew with
        | none => s
        | some x =>
          if fenceReady s o.crew ord scope after rel && (fenceDrains s x.seat.core scope drained).contains core then
            (drainCore s core).setOp op { o with kind := .fence ord scope after rel (core :: drained) }
          else s
      | .barWait b dst acq status drains inv =>
        if drains.contains core then
          ((drainCore s core).setOp op { o with kind := .barWait b dst acq status (drains.filter (· ≠ core)) inv }).updBar b.core b.phys
            fun x => { x with lastRel := x.lastRel.filter (· ≠ core) }
        else s
      | _ =>
        let ps := acquirePlaces s op
        if (releasers s ps).contains core then clearReleaser (drainCore s core) core ps else s)

/-- ACQUIRE_DRAIN_DONE: the homes of an acquire return its value once no core is left in their release sets, a part at a time (R383); with the
last, and when the acquire part of a fence ends, the core invalidates stale objects. -/
def execAcquireDrainDone (op : Nat) (s : State) : Host.Outcome State Fault Refusal :=
  .next (
    match s.op? op with
    | none => s
    | some o =>
      match o.kind, s.crew? o.crew with
      | .load l, some x =>
        let g := x.seat.core
        let ready (ks : List (Nat × Nat × Place)) : Bool := (releasers s (ks.map fun k => k.2.2)).isEmpty && bytesCome s o.crew op g ks
        if !(l.acq.any (· ≥ 2)) || l.done then s
        else
          match l.parts.filter fun n => ready (l.ofPart n) with
          | [] =>
            if !l.parts.isEmpty || !ready l.open then s
            else
              let (l, s) := arriveBytes (countLostReads s g l.open) o.crew g l fun p => p.part == none
              invalidateStale (s.setOp op { o with kind := .load { l with done := true } }) g
          | n :: ns =>
            let (f, s) := if ns.isEmpty then (0, s) else s.freeValue
            let n := (n :: ns).getD (f % (ns.length + 1)) n
            let (l, s) := arriveBytes (countLostReads s g (l.ofPart n)) o.crew g l fun p => p.part == some n
            s.setOp op { o with kind := .load { l with parts := l.parts.filter (· ≠ n) } }
      | .fence ord scope after rel drained, some x =>
        let g := x.seat.core
        let part := decide (ord ≠ 2) && (decide (scope ≥ 2) || ord == 1)
        if part && fenceReady s o.crew ord scope after rel && (decide (scope ≤ 1) || (fenceDrains s g scope drained).isEmpty) then
          finishOp (if scope ≥ 2 then invalidateStale s g else s) op {}
        else s
      | _, _ => s)

/-- Every packet to a peer has gone: a release at SYSTEM scope waits for it (R357). -/
def portsClear (s : State) : Bool := s.links.all fun e => e.2.queue.isEmpty

/-- The drains of an eager release cannot end: a line of the core waits for a link, or at SYSTEM scope a packet to a peer has still to go. -/
def eagerHeld (s : State) (g scope : Nat) : Bool := drainHeld s g || (scope == 5 && !portsClear s)

/-- RELEASE_DRAIN_DONE: an eager release at the head of its queue is performed, or the release part of a fence ends; a fence without more to
do completes. -/
def execReleaseDrainDone (op : Nat) (s : State) : Host.Outcome State Fault Refusal :=
  .next (
    match s.op? op with
    | none => s
    | some o =>
      match o.kind, s.crew? o.crew with
      | .fence ord scope after rel drained, some x =>
        if ord = 1 ∨ rel ∨ after.any (opPending s o.crew) then s
        else if scope ≤ 1 then finishOp s op {}
        else if eagerHeld s x.seat.core scope then s
        else
          let s := drainCore s x.seat.core
          if ord = 2 then finishOp s op {} else s.setOp op { o with kind := .fence ord scope after true drained }
      | .queued .., some x =>
        let g := x.seat.core
        match x.sq with
        | ⟨.store bytes ord scope ch, q⟩ :: _ =>
          let ps := bytes.map fun e => e.2.1
          if q ≠ op ∨ ord < 2 ∨ !eagerRelease g scope ps ∨ earlierLoads s o.crew op ∨ eagerHeld s g scope then s
          else if ps.any (writeWaits s g true ch) then waitAtHead s o.crew ps
          else if mustBegin x ps then beginPass s o.crew ps
          else
            let (n, last, s) := nextPart (drainCore s g) x ps
            let s := performStore s o.crew g true ch (passBusy x ps n) (bytes.filter fun e => inPart n e.2.1)
            if last then leaveQueue s o.crew {} else partLanded s o.crew ps n
        | ⟨.atomic a, q⟩ :: t =>
          if q ≠ op ∨ a.ord < 2 ∨ a.drained ∨ !eagerRelease g a.scope (a.lanes.flatMap fun l => l.1.at_) ∨ earlierLoads s o.crew op ∨
              eagerHeld s g a.scope then s
          else (drainCore s g).updCrew o.crew fun x => { x with sq := ⟨.atomic { a with drained := true }, q⟩ :: t }
        | _ => s
      | _, _ => s)

/-! ### Lines that leave by themselves (R139, R150) -/

/-- A line leaves the L1 for reasons of its own: the spec does not say which set of ways a line may stand in (log 2). -/
def displaceLine (g line : Nat) (s : State) : Host.Outcome State Fault Refusal :=
  .next (if pathHeld s g (128 * line) then s else evictLine s g line)

/-! ### Range locks and ways (R155, R176) -/

/-- A queue of the core holds a store that overlaps the range. -/
def lockWaits (s : State) (g : Nat) (k : Lock) : Bool :=
  s.crews.any fun e => e.2.seat.core == g && e.2.sq.any fun q => q.kind.places.any (k.covers e.2.seat.tag)

/-- RANGE_LOCK_ACTIVATE. -/
def execRangeLockActivate (core lock : Nat) (s : State) : Host.Outcome State Fault Refusal :=
  .next (
    match (s.core core).locks.find? lock with
    | some k =>
      if k.live || lockWaits s core k then s
      else s.updCore core fun x => { x with locks := x.locks.insert lock { k with live := true } }
    | none => s)

/-- An access to scratch bytes at or above a size is still under way: in a store queue of the core, or a load that has still to take them. -/
def scratchUsed (s : State) (g size : Nat) : Bool :=
  let high (p : Place) : Bool := match p with
    | .scr h a => h == g && decide (size ≤ a)
    | _ => false
  (s.crews.any fun e => e.2.seat.core == g && e.2.sq.any fun q => q.kind.places.any high) ||
    s.ops.any fun e => match e.2.kind with
      | .load l => l.open.any fun k => high k.2.2
      | _ => false

/-- CWAYS_CONVERTED: after the last fill the converted ways are zeroed and the scratch size changes; a lowering ends when the accesses already
issued to the released ways are done. -/
def execCwaysConverted (op : Nat) (s : State) : Host.Outcome State Fault Refusal :=
  .next (
    match s.op? op with
    | some ⟨_, _, _, _, .cways g n0 n1 _⟩ =>
      if scratchUsed s g (16384 * min n0 n1) then s
      else if n1 ≤ n0 then finishOp s op {}
      else if !(s.core g).fills.isEmpty then s
      else finishOp (s.updCore g fun k => { k with scratch := { k.scratch with
        ways := n1
        bytes := k.scratch.bytes.filter fun e => decide (e.1 < 16384 * n0) } }) op {}
    | _ => s)

end Sys2Proof.Machine
end

