-- ==== Sys2Proof/Machine/TileMem.lean ====
section
/-!
DEFINITION. The tile copies TLDM and TSTM, and TSTP (R166, R167, R171 to R173).
-/
namespace Sys2Proof.Machine

/-! ### Bound checks of element codes (R167) -/

/-- The value of an element's code as an FP32 pattern, without block scale; a NaN code gives the canonical NaN. -/
def codeValue (fmt code : Nat) : Nat :=
  match fmt with
  | 0x20 => code
  | 0x21 => (rne32 (fmtF16.read code)).bits
  | 0x22 => (rne32 (fmtBF16.read code)).bits
  | _ =>
    match decodeElem fmt code with
    | .int x => (rne32 (.fin (decide (x < 0)) x.natAbs (unitLog fmt))).bits
    | .odd => 0
    | .inf n => fmtF32.signed n fmtF32.inf
    | .nan => fmtF32.nan

/-- The formats whose elements a KIND 1 entry passes: their value depends on what these instructions do not read. -/
def boundPasses (kind fmt : Nat) : Bool := kind == 1 && (fmtIsSel fmt || fmt == 0x1B)

/-- Whether an element's code lies outside an entry's range. -/
def Bound.codeOutside (b : Bound) (fmt code : Nat) : Bool :=
  let w := tileWidth fmt
  if boundPasses b.kind fmt then false
  else b.outside (match b.kind with
    | 1 => codeValue fmt code
    | 2 => wrap 32 (signed w code)
    | _ => code)

/-- The code whose value lies inside the range nearest the violated limit; of codes that share it, the lowest (sign 0). -/
def nearestCode (b : Bound) (fmt : Nat) (high : Bool) : Option Nat :=
  (List.range (2 ^ tileWidth fmt)).foldl (fun best c =>
    let v := codeValue fmt c
    if !(boundLe 1 b.lo.toNat v && boundLe 1 v b.hi.toNat) then best
    else match best with
      | none => some c
      | some k =>
        let u := codeValue fmt k
        if (if high then boundLe 1 v u else boundLe 1 u v) then best else some c) none

/-- What the flag and clamp actions store for an element outside the range (R167). -/
def Bound.codeStored (b : Bound) (fmt code : Nat) : Nat :=
  let w := tileWidth fmt
  if b.act ≠ 1 ∨ b.empty then code
  else if b.kind = 1 then
    let high := b.high (codeValue fmt code)
    if fmt = 0x20 then (if high then b.hi.toNat else b.lo.toNat) else (nearestCode b fmt high).getD code
  else
    let lo : Int := if b.kind = 2 then signed 32 b.lo.toNat else b.lo.toNat
    let hi : Int := if b.kind = 2 then signed 32 b.hi.toNat else b.hi.toNat
    let cl : Int := if b.kind = 2 then -(2 ^ (w - 1) : Nat) else 0
    let ch : Int := if b.kind = 2 then (2 ^ (w - 1) : Nat) - 1 else (2 ^ w : Nat) - 1
    if max lo cl > min hi ch then code
    else if b.high (if b.kind = 2 then wrap 32 (signed w code) else code) then wrap w hi else wrap w lo

/-! ### Checked copies (R171, R172) -/

/-- What a copy finds: OUT, the data and the checksums it writes, the destination's state, and the status word. -/
structure CopyEnd where
  out : Nat
  rows : List (List Nat)
  sums : List Nat
  state : TileState
  word : Nat
deriving DecidableEq, Repr

def copyEnd (t : Tile) (r : TileRead) (cor : Bool) : CopyEnd :=
  if r.busy then ⟨7, r.codes, r.sums, .bad, 7⟩
  else match t.state with
    | .stale => ⟨5, r.codes, t.sumsOf r.codes, .valid, 5⟩
    | .suspect => ⟨6, r.codes, r.sums, .suspect, 6⟩
    | .bad => ⟨6, r.codes, r.sums, .bad, 6⟩
    | .valid =>
      let d := tileDiff t r.codes r.sums
      if d.rows.isEmpty ∧ d.cols.isEmpty then ⟨0, r.codes, t.sumsOf r.codes, .valid, 0⟩
      else match d.found with
        | some e =>
          if cor then ⟨1, putCode r.codes e, r.sums, .valid, d.word + 1⟩ else ⟨2, r.codes, r.sums, .suspect, d.word + 2⟩
        | none =>
          if d.rows.length + d.cols.length = 1 then ⟨3, r.codes, t.sumsOf r.codes, .valid, d.word + 3⟩
          else ⟨4, r.codes, r.sums, .bad, d.word + 4⟩

/-- R163 step 1: the source's entry, then the destination's, then their shapes. -/
def copyTiles (i : Iss) (s : State) (o : TileCopy) (store : Bool) : Except Effect (Nat × Tile × Tile) :=
  let di := i.scalarN s o.a % 256
  let si := i.scalarN s o.b % 256
  let no (n : Nat) : Except Effect (Nat × Tile × Tile) := .error (.trap ⟨0x0F, 1, BitVec.ofNat 64 n⟩)
  match ownedTile i s si, ownedTile i s di with
  | none, _ => no si
  | some src, dst =>
    if (src.space == 2) != store then no si
    else match dst with
      | none => no di
      | some dst =>
        if (dst.space == 2) == store then no di
        else if src.rows ≠ dst.rows ∨ src.cols ≠ dst.cols ∨ src.fmt ≠ dst.fmt then no di
        else .ok (di, src, dst)

/-- The places and values of a memory tile's elements and checksums, from its accesses. -/
def tileBytes (i : Iss) (s : State) (t : Tile) (accs : List LaneAcc) (rows : List (List Nat)) (sums : List Nat) : List (Place × Byte) :=
  let places := accs.flatMap (·.at_)
  let old := if t.cols * t.width % 8 = 0 then List.replicate (t.rows * t.rowBytes) 0
    else (places.take (t.rows * t.rowBytes)).map (readByte s i.x)
  places.zip (t.elemBytes rows old ++ sums.flatMap (toBytes 4))

/-- TLDM: memory to registers. -/
def execTldm (h : Hdr) (o : TileCopy) (s : State) : Host.Outcome State Fault Refusal :=
  run (.tldm h o) (fun i s =>
    match copyTiles i s o false with
    | .error e => e
    | .ok (di, src, dst) =>
      match checkTile i s src false with
      | .error e => e
      | .ok accs =>
        match overlapCommit i s dst.runRegs with
        | .error e => e
        | .ok (i, s) =>
          match readTile i s src accs with
          | .error e => e
          | .ok (r, s) =>
            let e := copyEnd src r o.cor
            let eo := dst.elemOffsets
            let l := eo.zip (dst.elemBytes e.rows (eo.map (regByte i.x))) ++ dst.sumOffsets.zip (e.sums.flatMap (toBytes 4))
            let held := scalarHeld i o.d (BitVec.ofNat 64 e.word)
            giveTile i s true
              ⟨{ held with regs := held.regs ++ regWrites i.x l, tile := some (di, some (e.state, 0)) },
                [i.scalarN s o.b % 256, di], none, e.out == 1, false⟩ []) s

/-- The bound check of a TSTM: the codes and checksums to store and BND, or the elements a trap action stops (R166, R167). -/
def copyBound (s : State) (tag : Nat) (t : Tile) (rows : List (List Nat)) (sums : List Nat) :
    Except (List Nat) (List (List Nat) × List Nat × Bool) × State :=
  if !t.ben then (.ok (rows, sums, false), s)
  else
    let (b, s) := boundNow s tag t.bidx
    let out := rows.mapIdx (fun r row => (row.mapIdx fun c x => (r, c, x)).filter fun e => b.codeOutside t.fmt e.2.2) |>.flatten
    if out.isEmpty then (.ok (rows, sums, false), s)
    else if b.act = 2 then (.error (out.map fun e => t.base + t.pitch * e.1 + e.2.1 * t.width / 8), s)
    else
      let (rows, sums) := out.foldl (fun (rows, sums) e =>
        let new := b.codeStored t.fmt e.2.2
        let add (k : Nat) (l : List Nat) : List Nat := l.set k (wrap32 (l.getD k 0 + 2 ^ 32 + new - e.2.2))
        (putCode rows (e.1, e.2.1, new), add (t.rows + e.2.1) (add e.1 sums))) (rows, sums)
      (.ok (rows, sums, true), setHit s tag t.bidx b)

/-- TSTM: registers to memory, through the store queue. -/
def execTstm (h : Hdr) (o : TileCopy) (s : State) : Host.Outcome State Fault Refusal :=
  run (.tstm h o) (fun i s =>
    match copyTiles i s o true with
    | .error e => e
    | .ok (di, src, dst) =>
      if queueFull i.x then .wait .queueSpace
      else match checkTile i s dst true with
        | .error e => e
        | .ok accs =>
          match readTile i s src [] with
          | .error e => e
          | .ok (r, s) =>
            let e := copyEnd src r o.cor
            match copyBound s i.tag dst e.rows e.sums with
            | (.error l, _) => .trap ⟨0x0C, 1, BitVec.ofNat 64 (l.foldl min (l.headD 0))⟩
            | (.ok (rows, sums, bnd), s) =>
              giveTile i s true
                ⟨scalarHeld i o.d (BitVec.ofNat 64 (e.word + (if bnd then 8 else 0))), [i.scalarN s o.b % 256, di],
                  some (.take di e.state 0), e.out == 1, false⟩ (tileBytes i s dst accs rows sums) o.mm.ch.toNat) s

/-! ### TSTP (R173) -/

/-- The pieces of one lane's element and of its two checksum words. A lane outside the tile fails step 3 of R163 with its coordinate word; where
others fail that step by their address, TADDR is the lowest coordinate word (log 69). -/
def putPieces (t : Tile) (l r c : Nat) : List Piece :=
  let bit := c * t.width
  ((List.range (ceilDiv (bit % 8 + t.width) 8)).map fun j => ⟨l, (t.base + t.pitch * r + bit / 8 + j) % 2 ^ 64, 1⟩) ++
    [⟨l, (t.csum + 4 * r) % 2 ^ 64, 4⟩, ⟨l, (t.csum + 4 * (t.rows + c)) % 2 ^ 64, 4⟩]

def execTstp (h : Hdr) (o : TilePut) (s : State) : Host.Outcome State Fault Refusal :=
  run (.tstp h o) (fun i s =>
    let ls := activeLanes i.em
    match ls with
    | [] => noLanes i s 0 0
    | _ =>
      let n := i.scalarN s o.a % 256
      match (ownedTile i s n).filter fun t => t.space != 2 with
      | none => .trap ⟨0x0F, i.em, BitVec.ofNat 64 n⟩
      | some t =>
        if queueFull i.x then .wait .queueSpace
        else
          let at_ (l : Nat) : Nat × Nat := (bits (i.lane32 o.b 0 l) 22 16, bits (i.lane32 o.b 0 l) 9 0)
          let outside (l : Nat) : Bool := decide (t.rows ≤ (at_ l).1) || decide (t.cols ≤ (at_ l).2)
          let req (ls : List Nat) : Req :=
            { space := t.space, align := 1, write := true, pieces := ls.flatMap fun l => putPieces t l (at_ l).1 (at_ l).2 }
          match ls.filter outside with
          | l :: rest =>
            .trap ⟨0x04, lanesMask (l :: rest ++ lanesAt s i.x (req (ls.filter fun k => !outside k)) 3),
              BitVec.ofNat 64 (rest.foldl (fun m k => min m (i.lane32 o.b 0 k)) (i.lane32 o.b 0 l))⟩
          | [] =>
            match checkAccess s i.x (req ls) with
            | .error e => e
            | .ok accs =>
              let (b, s) : Bound × State := if t.ben then boundNow s i.tag t.bidx else (Bound.cleared, s)
              let code (l : Nat) : Nat := i.lane32 o.c 0 l % 2 ^ t.width
              let out := ls.filter fun l => b.codeOutside t.fmt (code l)
              let ea (l : Nat) : Nat := t.base + t.pitch * (at_ l).1 + (at_ l).2 * t.width / 8
              match out with
              | l :: rest =>
                if b.act = 2 then .trap ⟨0x0C, lanesMask out, BitVec.ofNat 64 (rest.foldl (fun m k => min m (ea k)) (ea l))⟩
                else putEntry i (setHit s i.tag t.bidx b) t accs ls at_ fun l => if out.contains l then b.codeStored t.fmt (code l) else code l
              | [] => putEntry i s t accs ls at_ code) s
where
  /-- The entry of the store queue. -/
  putEntry (i : Iss) (s : State) (t : Tile) (accs : List LaneAcc) (ls : List Nat) (at_ : Nat → Nat × Nat) (code : Nat → Nat) : Effect :=
    .done (giveEntry i s none (.lanes 0) (.put { els := ls.map fun l =>
      let mine := (accs.filter fun a => a.lane == l).map (·.at_)
      let k := mine.length - 2
      { lane := l
        at_ := (mine.take k).flatten
        bit := (at_ l).2 * t.width % 8
        width := t.width
        code := code l
        rowAt := mine.getD k []
        colAt := mine.getD (k + 1) [] } }))

end Sys2Proof.Machine
end

