-- ==== Sys2Proof/Machine/Transform.lean ====
section
/-!
DEFINITION. The transform pipe (R120 to R132): sources are read at issue, and the result returns to the hold slot of the tag.
-/
namespace Sys2Proof.Machine

/-! ### Requests (R120) -/

/-- The transform requests a scheduler has in flight. -/
def transformsOf (s : State) (g t : Nat) : Nat :=
  (s.ops.filter fun e => match e.2.kind with
    | .transform _ => (s.crew? e.2.crew).any fun x => x.seat.core == g && x.seat.sched == t
    | _ => false).length

/-- A request with its result; a crew that would make the seventeenth waits. -/
def giveTransform (i : Iss) (s : State) (h : Held) : Effect :=
  if transformsOf s i.g i.x.seat.sched ≥ 16 then .wait .transform else .done (giveOp i s (.transform h))

/-- A result by lane in one register. -/
def transformLanes (i : Instr) (d : Reg) (f : Iss → State → Nat → Nat) : State → Host.Outcome State Fault Refusal :=
  run i fun x s => giveTransform x s (vectorsHeld x d (laneRegs 32 (f x s)))

/-- A result by lane in a pair. -/
def transformPair (i : Instr) (d : Reg) (f : Iss → State → Nat → Nat) : State → Host.Outcome State Fault Refusal :=
  run i fun x s => giveTransform x s (vectorsHeld x d (laneRegs 64 (f x s)))

/-- TRANSFORM_RESULT: the result of a request is held under its tag. -/
def execTransformResult (op : Nat) (s : State) : Host.Outcome State Fault Refusal :=
  .next (match s.op? op with
    | some ⟨_, _, _, _, .transform h⟩ => finishOp s op h
    | _ => s)

/-! ### Hashing (R122) -/

def hashAbsorb (h k : Nat) : Nat :=
  let k := wrap32 (k * 0x8F4E2B17)
  let k := k ^^^ (k / 2 ^ 16)
  let k := wrap32 (k * 0x5A93C6ED)
  let h := wrap32 ((h ^^^ k) * 0xB61D0F53)
  h ^^^ (h / 2 ^ 15)

def hashFin (h n : Nat) : Nat :=
  let h := h ^^^ n
  let h := wrap32 ((h ^^^ (h / 2 ^ 16)) * 0x7E259A8B)
  let h := wrap32 ((h ^^^ (h / 2 ^ 13)) * 0x8F4E2B17)
  h ^^^ (h / 2 ^ 16)

def hash32 (seed a : Nat) : Nat := hashFin (hashAbsorb seed a) 4

def hash64 (seed a : Nat) : Nat := hashFin (hashAbsorb (hashAbsorb seed (a % 2 ^ 32)) (a / 2 ^ 32 % 2 ^ 32)) 8

/-- Byte `j` of lane `l` of a chunk (R124). -/
def chunkByte (i : Iss) (r : Reg) (l j : Nat) : Nat := i.lane32 r (j / 4) l / 2 ^ (8 * (j % 4)) % 256

/-- .ABS: the words of the chunk, its bytes at and beyond len read as 0. -/
def hashChunk (byte : Nat → Nat) (len c : Nat) : Nat :=
  (List.range (ceilDiv len 4)).foldl (fun h j =>
    hashAbsorb h ((List.range 4).foldl (fun w b => w + (if 4 * j + b < len then byte (4 * j + b) else 0) * 2 ^ (8 * b)) 0)) c

def execXhash32 (h : Hdr) (o : Hash32) (s : State) : Host.Outcome State Fault Refusal :=
  transformLanes (.xhash32 h o) o.d (fun x _ l =>
    let b := x.lane 32 o.b l
    match o.var with
    | .k32 => hash32 b (x.lane 32 o.a l)
    | .k64 => hash64 b (x.lane 64 o.a l)
    | .abs c => hashChunk (chunkByte x o.a l) (min b 16) (x.lane 32 c l)
    | .fin => hashFin (x.lane 32 o.a l) b) s

def execXhash64 (h : Hdr) (o : Hash64) (s : State) : Host.Outcome State Fault Refusal :=
  transformPair (.xhash64 h o) o.d (fun x _ l =>
    let b := x.lane 64 o.b l
    let f (seed : Nat) : Nat := if o.wide then hash64 seed (x.lane 64 o.a l) else hash32 seed (x.lane 32 o.a l)
    f (b % 2 ^ 32) + 2 ^ 32 * f ((b / 2 ^ 32) ^^^ 0x4B1DE739)) s

/-! ### Partitioning (R123) -/

def partNumber (x : Iss) (o : Part) (l : Nat) : Nat :=
  let a := x.lane 32 o.a l
  match o.var with
  | .mul b => a * x.lane 32 b l / 2 ^ 32
  | .radix sh n => a / 2 ^ sh.toNat % 2 ^ (n.toNat + 1)
  | .id => a

def execXpart (h : Hdr) (o : Part) (s : State) : Host.Outcome State Fault Refusal :=
  transformPair (.xpart h o) o.d (fun x _ l =>
    let same := (activeLanes x.em).filter fun j => partNumber x o j == partNumber x o l
    partNumber x o l + 2 ^ 32 * ((same.filter (· < l)).length + same.length * 2 ^ 16)) s

/-! ### Strings (R124 to R126) -/

def foldCase (b : Nat) : Nat := if 0x41 ≤ b ∧ b ≤ 0x5A then b + 0x20 else b

/-- The state of R125 after comparing chunks. -/
def compareChunks (x y : Nat → Nat) (c : Nat) : Nat :=
  let st := bits c 17 16
  if st ≠ 0 then st
  else
    let lx := min (bits c 4 0) 16
    let ly := min (bits c 12 8) 16
    match (List.range (min lx ly)).find? fun j => x j != y j with
    | some j => if x j < y j then 1 else 2
    | none => if lx < ly then 1 else if ly < lx then 2 else if lx < 16 then 3 else 0

def execXstrcmp (h : Hdr) (o : StrCmp) (s : State) : Host.Outcome State Fault Refusal :=
  transformLanes (.xstrcmp h o) o.d (fun x _ l =>
    let byte (r : Reg) (j : Nat) : Nat := if o.ci then foldCase (chunkByte x r l j) else chunkByte x r l j
    compareChunks (byte o.a) (byte o.b) (x.lane 32 o.c l)) s

def execXstrfnd (h : Hdr) (o : StrFnd) (s : State) : Host.Outcome State Fault Refusal :=
  transformLanes (.xstrfnd h o) o.d (fun x _ l =>
    let b := x.lane 32 o.b l
    let lo := b % 256
    let hi := b / 256 % 256
    let js := List.range (min (x.lane 32 o.c l) 16)
    let byte := chunkByte x o.a l
    match o.var with
    | .eq => (js.find? fun j => byte j == lo).getD 16
    | .rng => (js.find? fun j => decide (lo ≤ byte j) && decide (byte j ≤ hi)).getD 16
    | .last => (js.reverse.find? fun j => byte j == lo).getD 16) s

def execXstrlen (h : Hdr) (o : StrLen) (s : State) : Host.Outcome State Fault Refusal :=
  transformLanes (.xstrlen h o) o.d (fun x _ l =>
    let byte := chunkByte x o.a l
    match o.utf8 with
    | none => ((List.range 16).find? fun j => byte j == 0).getD 16
    | some b => ((List.range (min (x.lane 32 b l) 16)).filter fun j => decide (byte j < 0x80) || decide (0xBF < byte j)).length) s

/-! ### Quantising and codebooks (R127 to R129) -/

/-- The length of a block (R53). -/
def blockLen (bl : BitVec 2) : Nat := 16 * 2 ^ bl.toNat

/-- An inactive lane enters its block as +0. -/
def execXqnt (h : Hdr) (o : Qnt) (s : State) : Host.Outcome State Fault Refusal :=
  run (.xqnt h o) (fun x s =>
    let n := blockLen o.bl
    let blocks := (List.range (128 / n)).map fun j =>
      quantBlock o.fmt.toNat o.scf.toNat ((List.range n).map fun k =>
        if x.em.getLsbD (n * j + k) then x.lane 32 o.a (n * j + k) else 0)
    let codes := Lanes.ofFn fun l => BitVec.ofNat 32 ((blocks.getD (l / n) ([], 0, 0)).1.getD (l % n) 0)
    let words := Lanes.ofFn fun l => if l % n = 0 then BitVec.ofNat 32 (blocks.getD (l / n) ([], 0, 0)).2.1 else 0
    giveTransform x s { vectorsHeld x o.d [codes, words] with
      fp := BitVec.ofNat 32 (blocks.foldl (fun t b => t ||| b.2.2) 0) }) s

/-- A faulty word of a block with an active lane raises SELECTOR_FAULT at issue (R128). The value of an FP16 code that is not finite, to
which the spec gives none, is free (log 2). -/
def execXdqnt (h : Hdr) (o : Qnt) (s : State) : Host.Outcome State Fault Refusal :=
  run (.xdqnt h o) (fun x s =>
    let n := blockLen o.bl
    let word (j : Nat) : Nat := x.lane32 o.a 1 (n * j) % 2 ^ 16
    let lanesOf (j : Nat) : List Nat := (activeLanes x.em).filter fun l => l / n == j
    let bad := (List.range (128 / n)).filter fun j => !(lanesOf j).isEmpty && metaFaulty o.fmt.toNat o.scf.toNat (word j)
    match bad with
    | j :: _ => .trap ⟨0x0A, lanesMask (bad.flatMap lanesOf), BitVec.ofNat 64 (n * j)⟩
    | [] =>
      let (free, s) := s.freeValue
      let res (l : Nat) : FRes :=
        dequant o.fmt.toNat o.scf.toNat (word (l / n)) (x.lane 32 o.a l % 2 ^ fmtWidth o.fmt.toNat) (free / 2 ^ (33 * l))
      giveTransform x s { vectorsHeld x o.d (laneRegs 32 fun l => (res l).bits) with
        fp := BitVec.ofNat 32 ((activeLanes x.em).foldl (fun t l => t ||| (res l).fl) 0) }) s

def execXcbdec (h : Hdr) (o : DA) (s : State) : Host.Outcome State Fault Refusal :=
  transformPair (.xcbdec h o) o.d (fun x _ l =>
    ofBytes ((cb2l (x.lane 32 o.a l % 2 ^ 16)).map fun w => BitVec.ofInt 8 w)) s

/-! ### Explicit compression (R130, R131) -/

/-- Block `b` of a vector source as a number. -/
def laneBlock (x : Iss) (a : Reg) (b : Nat) : Nat := (List.range 32).foldl (fun t l => t + x.lane 32 a (32 * b + l) * 2 ^ (32 * l)) 0

/-- The blocks whose word of em is all ones. -/
def fullBlocks (em : Mask) : List Nat := (List.range 4).filter fun b => bits em.toNat (32 * b + 31) (32 * b) == 2 ^ 32 - 1

def blocksMask (l : List Nat) : Mask := BitVec.ofNat 128 ((l.map fun b => (2 ^ 32 - 1) * 2 ^ (32 * b)).sum)

def execXbdipk (h : Hdr) (o : DA) (s : State) : Host.Outcome State Fault Refusal :=
  run (.xbdipk h o) (fun x s =>
    let full := fullBlocks x.em
    let packed := (List.range 4).map fun b =>
      if full.contains b then
        let v := laneBlock x o.a b
        let c := bdiBest v
        (bdiPack v c, c + 256 * bdiSize c)
      else (0, 0)
    let data := Lanes.ofFn fun l => BitVec.ofNat 32 ((packed.getD (l / 32) (0, 0)).1 / 2 ^ (32 * (l % 32)))
    let code := Lanes.ofFn fun l => if l % 32 = 0 then BitVec.ofNat 32 (packed.getD (l / 32) (0, 0)).2 else 0
    giveTransform x s (lanesHeld x.bank (blocksMask full) o.d [data, code])) s

/-- A reserved code of a processed block raises DATA_ERROR at issue (R131). -/
def execXbdiup (h : Hdr) (o : DA) (s : State) : Host.Outcome State Fault Refusal :=
  run (.xbdiup h o) (fun x s =>
    let full := fullBlocks x.em
    let code (b : Nat) : Nat := x.lane32 o.a 1 (32 * b) % 16
    let bad := full.filter fun b => decide (code b > 10)
    match bad with
    | b :: _ => .trap ⟨0x0F, blocksMask bad, BitVec.ofNat 64 b⟩
    | [] =>
      let out := (List.range 4).map fun b => if full.contains b then bdiExpand (code b) (laneBlock x o.a b) else 0
      giveTransform x s (lanesHeld x.bank (blocksMask full) o.d
        [Lanes.ofFn fun l => BitVec.ofNat 32 (out.getD (l / 32) 0 / 2 ^ (32 * (l % 32)))])) s

/-! ### The generator (R132) -/

def execXrng (h : Hdr) (o : Rng) (s : State) : Host.Outcome State Fault Refusal :=
  transformLanes (.xrng h o) o.d (fun x s l =>
    let v := coordGen (x.scalarN s o.b) (x.lane 32 o.a l) (x.lane 32 o.c l)
    if o.uf then (fmtF32.round .rn false (v / 256) 1 (-24)).bits else v) s

end Sys2Proof.Machine
end

