-- ==== Sys2Proof/Machine/LadleOps.lean ====
section
/-!
DEFINITION. The ladle's machinery (R259 to R276): records and their refusal, accesses, counting, the end of a record and of a chain, and the
passes of each data record.
-/
namespace Sys2Proof.Machine

/-! ### Records (R260 to R262) -/

namespace Rec
def kind (w : List Nat) : Nat := w.getD 0 0 % 16
def bar (w : List Nat) : Nat := bits (w.getD 0 0) 26 16
def cnt (w : List Nat) : Bool := (w.getD 0 0).testBit 27
def n (w : List Nat) : Nat := w.getD 3 0 % 2 ^ 32
def y (w : List Nat) : Nat := w.getD 3 0 / 2 ^ 32
def x2 (w : List Nat) : Nat := w.getD 5 0
def f (w : List Nat) : Nat := w.getD 6 0 / 2 ^ 32
def spaceA (w : List Nat) : Nat := bits (f w) 1 0
def spaceB (w : List Nat) : Nat := bits (f w) 3 2
/-- Bytes of a row of a gather or scatter. -/
def rowLen (w : List Nat) : Nat := bits (f w) 31 12
/-- Elements of a row of a reduce. -/
def elems (w : List Nat) : Nat := bits (f w) 24 12
/-- ADDRA and ADDRB in iteration `i` of the innermost loop (R264). -/
def a (w : List Nat) (i : Nat) : Nat := wrap 64 (w.getD 1 0 + i * signed 32 (w.getD 4 0))
def b (w : List Nat) (i : Nat) : Nat := wrap 64 (w.getD 2 0 + i * signed 32 (w.getD 4 0 / 2 ^ 32))
/-- The fields of a plane-pack (R262). -/
def fmt (w : List Nat) : Nat := bits (f w) 4 0
def scf (w : List Nat) : Nat := bits (f w) 6 5
def blk (w : List Nat) : Nat := 16 * 2 ^ bits (f w) 8 7
def arr (w : List Nat) : Nat := bits (f w) 13 9
def slot (w : List Nat) : Nat := bits (f w) 18 14
def packSpace (w : List Nat) : Nat := bits (f w) 20 19
def cor (w : List Nat) : Bool := (f w).testBit 21
def schk (w : List Nat) : Bool := (f w).testBit 22
def packTile (w : List Nat) : Nat := bits (f w) 30 23
def nb (w : List Nat) : Nat := ceilDiv (n w) (blk w)
/-- Codes of a weight column. -/
def codes (w : List Nat) : Nat := if fmt w = 0x1B then n w / 8 else n w
def pitch (w : List Nat) : Nat := slotPitch (fmtPlanes (fmt w))
end Rec

/-- The bits of double words 1 to 7 that a kind uses; X3 of a tile copy and a decode is the ladle's own (R261, R262). -/
def fieldMask (k : Nat) : List Nat :=
  let all := 2 ^ 64 - 1
  let lo := 2 ^ 32 - 1
  let hi := all - lo
  let f (x : Nat) : Nat := x * 2 ^ 32
  match k with
  | 2 => [all, all, lo, all, 0, f 0xF, 0]
  | 3 => [0, 0, 0, 0, 0, f 0x1FFFF, all]
  | 4 | 5 => [all, all, all, all, all, f 0xFFFFF00F, 0]
  | 6 => [all, lo, all, 0, 0, f 0x7FFFFFFF, 0]
  | 7 => [0, all, lo, hi, all, f 0xC, 0]
  | 8 => [all, all, all, 0, all, f 0xF, 2 ^ 45 - 1]
  | 9 => [all, all, all, all, all, f 0x1FFF0FF, 0]
  | 10 => [0, 0, 0, 0, 0, f 0xFFFF0FFF, 0]
  | 11 => [0, 0, lo, 0, 0, f 0x7FF, 0]
  | 12 => [0, 0, lo, 0, 0, f 0xF, 0]
  | 13 => [all, lo, 0, 0, lo, f 0xFFFF, 0]
  | 14 => [0, lo, 0, 0, 0, 0, 0]
  | _ => [0, 0, 0, 0, 0, 0, 0]

/-- The data records. -/
def dataKind (k : Nat) : Bool := decide (2 ≤ k) && decide (k ≤ 9)

/-- The barrier a chain's group holds under a name, physical. -/
def chainBar (s : State) (c : ChainCtx) (name : Nat) : Option Nat := ((s.group? c.group).bind fun g => groupBar g name).map (·.phys)

/-- A tile entry as a record may name it: a memory tile of the chain's group. -/
def recTile (s : State) (g : Nat) (c : ChainCtx) (n : Nat) : Option Tile :=
  (s.tile? g n).filter fun t => t.group == c.group && t.space != 2

/-- A kind's fields within their limits (R262, R263, R269). -/
def recLimits (s : State) (g : Nat) (c : ChainCtx) (w : List Nat) (i : Nat) : Bool :=
  let f := Rec.f w
  let held (name : Nat) : Bool := (chainBar s c name).isSome
  let spaces := decide (Rec.spaceA w ≤ 1) && decide (Rec.spaceB w ≤ 1)
  match Rec.kind w with
  | 1 => true
  | 2 => decide (1 ≤ Rec.n w) && spaces
  | 3 =>
    match recTile s g c (bits f 7 0), recTile s g c (bits f 15 8) with
    | some a, some b => a.rows == b.rows && a.cols == b.cols && a.fmt == b.fmt
    | _, _ => false
  | 4 | 5 => decide (1 ≤ Rec.rowLen w) && spaces && Rec.a w i % 4 == 0
  | 6 =>
    let fmt := Rec.fmt w
    fmtWidth fmt != 0 && fmt != 0x15 && fmt != 0x1A && Rec.scf w != 3 && decide (1 ≤ Rec.n w) && decide (Rec.n w ≤ 1024) &&
      (fmt != 0x1B || Rec.n w % 8 == 0) && decide (Rec.packSpace w ≤ 1) && (!hasMeta fmt (Rec.scf w) || w.getD 2 0 % 2 == 0) &&
      decide (Rec.slot w < slotCount (fmtPlanes fmt)) &&
      ((s.group? c.group).any fun gr => gr.holds (Rec.arr w) && (s.arr g (Rec.arr w)).comp) &&
      (!Rec.schk w || (recTile s g c (Rec.packTile w)).any fun t =>
        t.rows == 64 && t.cols == Rec.codes w && t.fmt == fmt && t.base == Rec.a w i && t.pitch == Rec.y w && t.space == Rec.packSpace w)
  | 7 => decide (Rec.spaceB w ≤ 1)
  | 8 => Rec.n w % 128 == 0 && Rec.x2 w % 64 == 0 && spaces
  | 9 =>
    let al := if f.testBit 0 then 8 else 4
    decide (1 ≤ Rec.elems w) && decide (Rec.elems w ≤ 4096) && !(f.testBit 0 && f.testBit 7) && Rec.a w i % 4 == 0 && Rec.x2 w % 4 == 0 &&
      Rec.y w % 4 == 0 && Rec.b w i % al == 0 && w.getD 4 0 / 2 ^ 32 % al == 0
  | 10 => held (f % 2048)
  | 11 => held (f % 2048) && decide (Rec.n w < 2 ^ 28)
  | 12 => decide (1 ≤ Rec.n w) && decide (1 ≤ f % 16)
  | 13 =>
    let m := bits f 4 2
    w.getD 2 0 % 64 == 0 && decide (m ≤ 4) && decide (Rec.spaceA w ≤ 1) &&
      (m != 4 || (w.getD 1 0 == 0 && Rec.spaceA w == 0 && decide (Rec.x2 w < 8) && held (bits f 15 5)))
  | 14 => w.getD 2 0 % 64 == 0
  | _ => false

/-- R263: the record is refused. -/
def recRefused (s : State) (g : Nat) (c : ChainCtx) (w : List Nat) (i : Nat) : Bool :=
  let c0 := w.getD 0 0
  bits c0 31 28 != 0 || bits c0 15 12 != 0 ||
    ((List.range 7).any fun j => (w.getD (j + 1) 0) &&& ((fieldMask (Rec.kind w)).getD j 0) != w.getD (j + 1) 0) ||
    (Rec.cnt w && (!dataKind (Rec.kind w) || (chainBar s c (Rec.bar w)).isNone)) || (!Rec.cnt w && Rec.bar w != 0) ||
    !recLimits s g c w i

/-- The bytes a data record declares (R262). A format or tile that does not exist declares none. -/
def recTotal (s : State) (g : Nat) (c : ChainCtx) (w : List Nat) : Nat :=
  match Rec.kind w with
  | 2 | 7 | 8 => Rec.n w
  | 3 => ((recTile s g c (bits (Rec.f w) 7 0)).map fun t => t.rows * t.rowBytes + 4 * (t.rows + t.cols)).getD 0
  | 4 | 5 => Rec.n w * Rec.rowLen w
  | 6 => if fmtWidth (Rec.fmt w) = 0 then 0 else 128 * Rec.pitch w
  | 9 => (if (Rec.f w).testBit 0 then 8 else 4) * Rec.elems w
  | _ => 0

/-! ### Accesses (R264) -/

/-- A byte of the arrays the chain's group holds. -/
def ownPlace (s : State) (g : Nat) (c : ChainCtx) (ea : Nat) : Option Place :=
  let o := ea % 2 ^ 32
  if o < 0x600000 ∧ (s.group? c.group).any (fun gr => gr.holds (o / 0x40000)) then some (.win g (o / 0x40000) (o % 0x40000)) else none

/-- Why a pass cannot be made: a page is not in the translation buffer, a link of a path trains or a packet to a peer waits, the record fails, or
its source data is lost. -/
inductive LadleStop where
  | walk (va : Nat) (write : Bool)
  | held
  | fail (ecode : Nat)
  | bank (arr word : Nat)                  -- an uncorrectable word of an array (R188)
deriving DecidableEq, Repr

/-- Where a byte of a record lies. -/
def ladlePlace (s : State) (g : Nat) (c : ChainCtx) (space ea : Nat) (write : Bool) : Except LadleStop Place :=
  if space = 1 then
    match ownPlace s g c ea with
    | some p => .ok p
    | none => .error (.fail 2)
  else
    let va := ea % 2 ^ 64
    match translate s g c.tag va (if write then .write else .read) with
    | .ok pa map => if pathHeld s g pa || !portFree s pa then .error .held else .ok (.glob pa va map)
    | .miss => .error (.walk va write)
    | _ => .error (.fail 2)

/-- Where bytes of a record lie: the first that cannot be reached decides. -/
def ladlePlaces (s : State) (g : Nat) (c : ChainCtx) (space : Nat) (write : Bool) : List Nat → Except LadleStop (List Place)
  | [] => .ok []
  | a :: t =>
    match ladlePlace s g c space a write with
    | .error e => .error e
    | .ok p =>
      match ladlePlaces s g c space write t with
      | .error e => .error e
      | .ok ps => .ok (p :: ps)

/-- The addresses of a run. -/
def run_ (a n : Nat) : List Nat := (List.range n).map (a + ·)

/-- Reads bytes whose places are known: zeros from an array that answers under R157, and ECODE 3 for data with an uncorrectable error, or that
a host or peer refuses (R264, R360). -/
def ladleTake (s : State) (g : Nat) (ps : List Place) : Except LadleStop (List Byte × Bool × State) :=
  let uncached (p : Place) : Bool := match p with
    | .glob _ _ map => !map.cached
    | _ => false
  let (f, s) := if ps.any uncached then s.freeValue else (0, s)
  let lost (p : Place) : Option LadleStop := match p with
    | .win c a o =>
      if !(s.arr c a).state.busy && decide (2 ≤ ((s.arr c a).flips.filter fun x => flipWord x == o / 16).length) then some (.bank a (o / 16))
      else none
    | p => if placeBad s g p || (uncached p && f.testBit 0) then some (.fail 3) else none
  match ps.findSome? lost with
  | some e => .error e
  | none =>
    let busy (p : Place) : Bool := match p with
      | .win c a _ => (s.arr c a).state.busy
      | _ => false
    .ok (ps.map fun p => if busy p then 0 else placeByte s g p, ps.any busy, peerAsk (noteLines (readBanks s ps) ps) 3 none ps [])

def ladleRead (s : State) (g : Nat) (c : ChainCtx) (space : Nat) (as : List Nat) : Except LadleStop (List Byte × Bool × State) :=
  match ladlePlaces s g c space false as with
  | .error e => .error e
  | .ok ps => ladleTake s g ps

/-! ### Counting and the record's words (R260, R265) -/

/-- Bytes counted on a byte barrier, with the lines they were written to (R252). -/
def countBytes (s : State) (g : Nat) (bar : Option Nat) (n : Nat) (lines : List Nat) : State :=
  match bar with
  | none => s
  | some b => arrive (s.updBar g b fun x => { x with ranges := (lines ++ x.ranges).eraseDups }) g b n

/-- The ladle writes eight bytes into the record; an array that serves no access drops them. -/
def putRecord (s : State) (g : Nat) (c : ChainCtx) (off x : Nat) : State :=
  match ownPlace s g c (c.addr + off) with
  | some (.win _ a o) =>
    if (s.arr g a).state.busy then s
    else
      let s := captureBefore s g ((List.range 8).map fun j => .win g a (o + j))
      s.updArr g a fun r => ((toBytes 8 x).mapIdx fun j b => (o + j, b)).foldl (fun r e => r.putByte e.1 e.2) r
  | _ => s

/-- The bytes of the record at hand. -/
def recordPlaces (s : State) (g : Nat) (c : ChainCtx) : List Place :=
  match ownPlace s g c c.addr with
  | some (.win _ a o) => (List.range 64).map fun j => .win g a (o + j)
  | _ => []

/-- A word of the record at hand is uncorrectable (R188). -/
def recordLost (s : State) (g : Nat) (c : ChainCtx) : Bool :=
  match ownPlace s g c c.addr with
  | some (.win _ a o) => !(s.arr g a).state.busy && (List.range 4).any fun j => decide (2 ≤ ((s.arr g a).flips.filter fun f => flipWord f == o / 16 + j).length)
  | _ => false

/-- The eight double words of the record at hand, from an array that serves accesses. -/
def recordWords (s : State) (g : Nat) (c : ChainCtx) : Option (List Nat) :=
  match ownPlace s g c c.addr with
  | some (.win _ a o) =>
    if (s.arr g a).state.busy then none
    else some ((List.range 8).map fun j => ofBytes ((List.range 8).map fun k => (s.arr g a).byte (o + 8 * j + k)))
  | _ => none

/-- STAT, ECODE and DONE, and X3 where the ladle writes it: the status word of a tile copy that was made (R267), or what a parked decode holds. -/
def putStat (s : State) (g : Nat) (c : ChainCtx) (stat ecode : Nat) : State :=
  match recordWords s g c with
  | none => s
  | some w =>
    let done := (c.work.map (·.done)).getD 0
    let keep := bits (w.getD 0 0) 31 12 * 2 ^ 12 + Rec.kind w
    let s := putRecord s g c 0 (done % 2 ^ 32 * 2 ^ 32 + keep + ecode % 16 * 2 ^ 8 + stat * 2 ^ 4)
    match c.work with
    | some k =>
      if k.kind = 3 ∧ k.tile.isSome then putRecord s g c 56 k.status
      else if k.kind = 8 ∧ stat = 4 then putRecord s g c 56 (k.buf.length % 2 ^ 13 * 2 ^ 32 + k.src % 2 ^ 32)
      else s
    | none => s

/-! ### The end of a record and of a chain (R259, R265, R270, R271, R277) -/

def dropLocks (s : State) (g n : Nat) : State :=
  s.updCore g fun k => { k with locks := k.locks.filter fun e => e.2.owner != .chain n }

/-- The chain ends: its context is free, CHSTOPs complete, and the completion barrier receives its arrival, with the error if any. -/
def endChain (s : State) (g n ecode : Nat) : State :=
  match s.chain? g n with
  | none => s
  | some c =>
    let s := (dropLocks s g n).updCore g fun k =>
      { k with chains := k.chains.erase n, staging := if k.staging = some n then none else k.staging }
    let s := { s with walks := s.walks.filter fun (e : Nat × Walk) => e.2.who != .chain g n || e.2.tag != c.tag }
    let s := c.stopOps.foldl (fun s o => match s.op? o with
      | some ⟨_, _, _, _, .chainStop h⟩ => finishOp s o h
      | _ => s) s
    match c.cbar with
    | none => s
    | some b => arrive (if ecode = 0 then s else barError s g b ecode) g b 1

/-- The destination of a tile copy takes the state the copy leaves, and a correction is counted (R171, R221). -/
def copyTakes (s : State) (g : Nat) (c : ChainCtx) : State :=
  match c.work with
  | some w =>
    match w.tile with
    | some st =>
      (takeTileState s g (bits (Rec.f w.words) 15 8) st 0).updCtr g fun k =>
        if w.status % 8 = 1 then { k with ckcor := sat32 (k.ckcor + 1) } else k
    | none => s
  | none => s

/-- A record fails (STAT 3) or is stopped (STAT 5): the rest of its declared count is counted, and the chain ends. -/
def endRecord (s : State) (g n stat ecode : Nat) : State :=
  match s.chain? g n with
  | none => s
  | some c =>
    let s := copyTakes (putStat s g c stat ecode) g c
    let s := match c.work with
      | some w =>
        match w.bar with
        | some b => countBytes (barError s g b ecode) g w.bar (w.total - w.done) []
        | none => s
      | none => s
    endChain s g n ecode

/-- The next record: a loop's body runs again, or the chain leaves it. -/
def nextRecord : List LoopLevel → Nat → Nat × List LoopLevel
  | [], a => (a % 2 ^ 32, [])
  | l :: t, a =>
    if a = l.first + 64 * l.body then
      if l.i + 1 < l.n then (l.first, { l with i := l.i + 1 } :: t) else nextRecord t a
    else (a % 2 ^ 32, l :: t)

/-- A record completes (STAT 2) and the chain goes on at `next`. -/
def completeRecord (s : State) (g n next : Nat) : State :=
  match s.chain? g n with
  | none => s
  | some c =>
    let s := (dropLocks (putStat s g c 2 0) g n).updCore g fun k => { k with staging := if k.staging = some n then none else k.staging }
    (copyTakes s g c).updChain g n fun c =>
      let (a, ls) := nextRecord c.loops next
      { c with addr := a, loops := ls, work := none, wait := none }

/-- A record whose writes are all acknowledged: it has failed, is stopped, or is complete (R265, R266). -/
def settle (s : State) (g n : Nat) : State :=
  match s.chain? g n with
  | none => s
  | some c =>
    match c.work with
    | none => s
    | some w =>
      if !w.flight.isEmpty then s
      else match w.fail, c.stop with
        | some e, _ => endRecord s g n 3 e
        | none, some e => endRecord s g n 5 e
        | none, none =>
          if dataKind w.kind && w.sent == w.total then
            if w.late then endRecord s g n 3 5 else completeRecord s g n (c.addr + 64)
          else s

def updWork (s : State) (g n : Nat) (f : RecWork → RecWork) : State := s.updChain g n fun c => { c with work := c.work.map f }

/-- A pass that cannot be made. A walk begins once the writes under way are acknowledged. -/
def stopPass (s : State) (g n : Nat) : LadleStop → State
  | .held => s
  | .fail e => settle (updWork s g n fun w => { w with fail := some e }) g n
  | .bank a k => settle (readWord (updWork s g n fun w => { w with fail := some 3 }) g a k) g n
  | .walk va write =>
    match s.chain? g n with
    | some c => if c.work.all fun w => w.flight.isEmpty then (startWalk s (.chain g n) c.tag va write g).2 else s
    | none => s

/-! ### Range locks (R155) -/

/-- A range: window or global, first and last byte, destination. -/
abbrev Range := Bool × Nat × Nat × Bool

def range (space a n : Nat) (dst : Bool) : List Range :=
  let a := if space = 1 then a % 2 ^ 32 else a
  if n = 0 then [] else [(space == 1, a, a + n - 1, dst)]

def tileRanges (t : Tile) (dst : Bool) : List Range :=
  range t.space t.base (t.pitch * (t.rows - 1) + t.rowBytes) dst ++ range t.space t.csum (4 * (t.rows + t.cols)) dst

/-- The ranges a data record registers at take-up; a gather's or scatter's table follows once its index list is read. -/
def recRanges (s : State) (g : Nat) (c : ChainCtx) (w : List Nat) (i : Nat) : List Range :=
  let a := Rec.a w i
  let b := Rec.b w i
  let n := Rec.n w
  match Rec.kind w with
  | 2 => range (Rec.spaceA w) a n false ++ range (Rec.spaceB w) b n true
  | 3 => ((recTile s g c (bits (Rec.f w) 7 0)).map (tileRanges · false)).getD [] ++
      ((recTile s g c (bits (Rec.f w) 15 8)).map (tileRanges · true)).getD []
  | 4 => range 1 a (4 * n) false ++ range (Rec.spaceB w) b (n * Rec.rowLen w) true
  | 5 => range 1 a (4 * n) false ++ range (Rec.spaceB w) b (n * Rec.rowLen w) false
  | 6 =>
    let o := 0x40000 * Rec.arr w + Rec.slot w * Rec.pitch w / 8
    range (Rec.packSpace w) a (63 * Rec.y w + ceilDiv (Rec.codes w * fmtWidth (Rec.fmt w)) 8) false ++
      (if hasMeta (Rec.fmt w) (Rec.scf w) then range 1 (w.getD 2 0) (128 * Rec.nb w) false else []) ++
      range 1 o (256 * 1023 + (Rec.slot w * Rec.pitch w % 8 + Rec.pitch w - 1) / 8 + 1) true
  | 7 => range (Rec.spaceB w) b n true
  | 8 => range (Rec.spaceA w) a (Rec.y w) false ++ range (Rec.spaceB w) b n true
  | 9 => range 1 a (4 * n) false ++ range 0 b (recTotal s g c w) true
  | _ => []

/-- Whether the table has room for more entries. -/
def lockRoom (s : State) (g : Nat) (l : List Range) : Bool := decide ((s.core g).locks.length + l.length ≤ 64)

def addLocks (s : State) (g n tag : Nat) (l : List Range) : State :=
  l.foldl (fun s r =>
    let (k, s) := s.fresh
    s.updCore g fun x => { x with locks := x.locks.insert k ⟨.chain n, tag, r.1, r.2.1, r.2.2.1, r.2.2.2, false⟩ }) s

/-- Every range the record registered is active. -/
def locksLive (s : State) (g n : Nat) : Bool := (s.core g).locks.all fun e => e.2.owner != .chain n || e.2.live

/-! ### Writes under way -/

/-- Whole bytes. -/
def wholeBytes (l : List (Place × Byte)) : List (Place × Byte × Byte) := l.map fun e => (e.1, e.2, 255)

/-- The line or pass a byte belongs to (R266). -/
def passKey : Place → Nat × Nat
  | .glob pa _ _ => (0, pa / 128)
  | .win _ a o => (1 + a, o / 512)
  | .scr _ o => (32, o / 512)

/-- Bytes in passes, in their order. -/
def passes : Nat → List (Place × Byte) → List LadleWrite
  | _, [] => []
  | pos, e :: t =>
    match passes (pos + 1) t with
    | f :: fs =>
      if (f.bytes.head?).any fun x => passKey x.1 == passKey e.1 then ⟨(e.1, e.2, 255) :: f.bytes, pos, f.count + 1⟩ :: fs
      else ⟨[(e.1, e.2, 255)], pos, 1⟩ :: f :: fs
    | [] => [⟨[(e.1, e.2, 255)], pos, 1⟩]

/-- A pass writes: the bytes are under way. -/
def sendWrite (s : State) (g n : Nat) (f : LadleWrite) (late : Bool) : State :=
  updWork s g n fun w => { w with flight := w.flight ++ [f], sent := w.sent + f.count, late := w.late || late }

/-! ### Linear copy, gather, scatter and fill (R262, R268) -/

/-- The next bytes of a record: skipped, or moved from a source (none for a fill) to a destination, at most so many. -/
inductive Move where
  | skip (n : Nat)
  | move (src : Option (Nat × Nat)) (dst : Nat × Nat) (n : Nat)
deriving DecidableEq, Repr

def nextMove (w : RecWork) : Move :=
  let d := w.words
  let a := Rec.a d w.iter
  let b := Rec.b d w.iter
  if w.kind = 2 then .move (some (Rec.spaceA d, a + w.sent)) (Rec.spaceB d, b + w.sent) (w.total - w.sent)
  else if w.kind = 7 then .move none (Rec.spaceB d, b + w.sent) (w.total - w.sent)
  else
    let len := Rec.rowLen d
    let off := w.sent % len
    let x := w.idx.getD (w.sent / len) 0
    let row := (Rec.spaceA d, Rec.x2 d + x * Rec.y d + off)
    let here := (Rec.spaceB d, b + w.sent)
    if x = 0xFFFFFFFF then .skip (len - off)
    else if w.kind = 4 then .move (some row) here (len - off)
    else .move (some here) row (len - off)

/-- Bytes up to the end of a pass or line. -/
def passRoom (space a : Nat) : Nat := if space = 1 then 512 - a % 512 else 128 - a % 128

def movePass (s : State) (g n : Nat) (c : ChainCtx) (w : RecWork) : State :=
  match nextMove w with
  | .skip k =>
    let s := countBytes s g w.bar k []
    settle (updWork s g n fun w => { w with sent := w.sent + k, done := w.done + k }) g n
  | .move src dst k =>
    let k := min (min k (passRoom dst.1 dst.2)) (match src with
      | some x => passRoom x.1 x.2
      | none => k)
    let from_ : Except LadleStop (List Byte × Bool × State) := match src with
      | some x => ladleRead s g c x.1 (run_ x.2 k)
      | none => .ok ((List.range k).map fun j => BitVec.ofNat 8 (Rec.x2 w.words / 2 ^ (8 * ((w.sent + j) % 8))), false, s)
    match from_ with
    | .error e => stopPass s g n e
    | .ok (bytes, late, s) =>
      match ladlePlaces s g c dst.1 true (run_ dst.2 k) with
      | .error e => stopPass s g n e
      | .ok ps => sendWrite s g n ⟨wholeBytes (ps.zip bytes), w.sent, k⟩ late

/-- Little-endian words of a byte list. -/
def words32 (n : Nat) (l : List Byte) : List Nat := bytesWords n l

/-- The table rows an index list names, as one range. -/
def tableRange (w : RecWork) (idx : List Nat) : List Range :=
  let d := w.words
  let as := (idx.filter (· ≠ 0xFFFFFFFF)).map fun x => Rec.x2 d + x * Rec.y d
  match as with
  | [] => []
  | a :: t =>
    let lo := t.foldl min a
    range (Rec.spaceA d) lo (t.foldl max a + Rec.rowLen d - lo) (w.kind == 5)

/-- The first pass of a gather or scatter reads the index list, and registers the rows it names. -/
def indexPass (s : State) (g n : Nat) (c : ChainCtx) (w : RecWork) : State :=
  let k := Rec.n w.words
  match ladleRead s g c 1 (run_ (Rec.a w.words w.iter) (4 * k)) with
  | .error e => stopPass s g n e
  | .ok (bytes, late, s') =>
    let idx := words32 k bytes
    let l := if w.kind = 9 then [] else tableRange w idx
    if !lockRoom s g l then s
    else updWork (addLocks s' g n c.tag l) g n fun w => { w with idx := idx, stage := 1, late := w.late || late }

/-! ### Tile copy (R267) -/

/-- The addresses of a memory tile's elements and checksum words. -/
def Tile.addresses (t : Tile) : List Nat :=
  ((List.range t.rows).flatMap fun r => run_ (t.base + t.pitch * r) t.rowBytes) ++ run_ t.csum (4 * (t.rows + t.cols))

def Tile.readOf (t : Tile) (bytes : List Byte) (busy : Bool) : TileRead :=
  let k := t.rows * t.rowBytes
  ⟨bytes.take k, t.codes (bytes.take k), bytesWords (t.rows + t.cols) (bytes.drop k), busy⟩

def tilePass (s : State) (g n : Nat) (c : ChainCtx) (w : RecWork) : State :=
  let f := Rec.f w.words
  match recTile s g c (bits f 7 0), recTile s g c (bits f 15 8) with
  | some src, some dst =>
    match ladleRead s g c src.space src.addresses with
    | .error e => stopPass s g n e
    | .ok (bytes, busy, s1) =>
      match ladlePlaces s1 g c dst.space true dst.addresses with
      | .error e => stopPass s g n e
      | .ok ps =>
        let e := copyEnd src (src.readOf bytes busy) (f.testBit 16)
        match copyBound s1 c.tag dst e.rows e.sums with
        | (.error _, s2) =>
          -- the ECODE of a record whose destination's bound entry traps is not stated (log 2)
          let (x, s2) := s2.freeValue
          stopPass s2 g n (.fail (x % 15 + 1))
        | (.ok (rows, sums, bnd), s2) =>
          let old := (ps.take (dst.rows * dst.rowBytes)).map (placeByte s2 g)
          let l := passes 0 (ps.zip (dst.elemBytes rows old ++ sums.flatMap (toBytes 4)))
          settle (updWork s2 g n fun w =>
            { w with
              flight := l
              sent := w.total
              late := w.late || busy
              status := e.word + (if bnd then 8 else 0)
              tile := some e.state }) g n
  | _, _ => stopPass s g n (.fail 4)

/-! ### Plane-pack (R269) -/

/-- SCHK: the source tile's state and checksums, before any byte is written. -/
def packCheck (s : State) (g n : Nat) (c : ChainCtx) (w : RecWork) : State :=
  match recTile s g c (Rec.packTile w.words) with
  | none => stopPass s g n (.fail 4)
  | some t =>
    if t.state = .stale ∨ t.state = .bad then stopPass s g n (.fail 3)
    else match ladleRead s g c t.space t.addresses with
      | .error e => stopPass s g n e
      | .ok (bytes, busy, s) =>
        let r := t.readOf bytes busy
        let d := tileDiff t r.codes r.sums
        let go (x : Option (Nat × Nat × Nat)) : State := updWork s g n fun w => { w with stage := 1, fix := x, late := w.late || busy }
        if d.rows.isEmpty ∧ d.cols.isEmpty then go none
        else match d.found with
          | some e => if Rec.cor w.words then go (some e) else stopPass s g n (.fail 3)
          | none => stopPass s g n (.fail 3)

/-- The planes of weight row `k`: the 64 elements' and the riser's (R198), and whether a TRIT code of it is odd (R48); or the ECODE with which the
row fails. -/
def packPlanes (d : List Nat) (k : Nat) (codes metas : List Nat) : Except Nat (Nat × Bool) :=
  let fmt := Rec.fmt d
  let has := hasMeta fmt (Rec.scf d)
  let pb := fmtPlanes fmt
  let elems := codes.mapIdx fun j x =>
    if fmt = 0x1B then Elem.int ((cb2l x).getD (k % 8) 0) else decodeElem (blockMember fmt has (metas.getD j 0)) x
  if elems.any fun e => !e.finite then .error 7
  else if has && metas.any (metaFaulty fmt (Rec.scf d)) then .error 11
  else
    let ints := elems.map Elem.toInt
    .ok ((ints.mapIdx fun j x => wrap pb x * 2 ^ (j * pb)).sum + wrap (pb + 7) ints.sum * 2 ^ (64 * pb), elems.any (· == .odd))

/-- Row `k` of the slot: the planes read and decoded; rows from K on are zero. -/
def packRow (s : State) (g : Nat) (c : ChainCtx) (w : RecWork) (k : Nat) : Except LadleStop (Except Nat (Nat × Bool) × Bool × State) :=
  let d := w.words
  if Rec.n d ≤ k then .ok (.ok (0, false), false, s)
  else
    let fmt := Rec.fmt d
    let wd := fmtWidth fmt
    let j := if fmt = 0x1B then k / 8 else k
    let len := ceilDiv (wd * j % 8 + wd) 8
    let as := (List.range 64).flatMap fun m => run_ (Rec.a d w.iter + m * Rec.y d + wd * j / 8) len
    match ladleRead s g c (Rec.packSpace d) as with
    | .error e => .error e
    | .ok (bytes, late, s) =>
      let code (m : Nat) : Nat :=
        match w.fix with
        | some (r, x, new) => if r = m ∧ x = j then new else raw m bytes len (wd * j % 8) wd
        | none => raw m bytes len (wd * j % 8) wd
      let codes := (List.range 64).map code
      if !hasMeta fmt (Rec.scf d) then .ok (packPlanes d k codes [], late, s)
      else
        let ms := (List.range 64).flatMap fun m => run_ (d.getD 2 0 + 2 * (m * Rec.nb d + k / Rec.blk d)) 2
        match ladleRead s g c 1 ms with
        | .error e => .error e
        | .ok (mb, late', s) =>
          .ok (packPlanes d k codes ((List.range 64).map fun m => ofBytes ((mb.drop (2 * m)).take 2)), late || late', s)
where
  /-- The code of column `m` in the bytes read for it. -/
  raw (m : Nat) (bytes : List Byte) (len bit wd : Nat) : Nat := ofBytes ((bytes.drop (m * len)).take len) / 2 ^ bit % 2 ^ wd

/-- The bytes of a row of a slot, with the bits that belong to it. -/
def rowWrite (g : Nat) (d : List Nat) (k planes : Nat) : List (Place × Byte × Byte) :=
  let p := Rec.pitch d
  let col := Rec.slot d * p
  (List.range (ceilDiv (col % 8 + p) 8)).map fun j =>
    (.win g (Rec.arr d) (256 * k + col / 8 + j), BitVec.ofNat 8 (planes * 2 ^ (col % 8) / 2 ^ (8 * j)),
      BitVec.ofNat 8 ((2 ^ p - 1) * 2 ^ (col % 8) / 2 ^ (8 * j)))

/-- The array remembers which rows of a slot hold an odd TRIT code (R241; log 26). -/
def noteOdd (s : State) (g : Nat) (d : List Nat) (k : Nat) (odd : Bool) : State :=
  s.updArr g (Rec.arr d) fun r =>
    let l := (r.odd.getD (Rec.slot d) []).filter (· ≠ k)
    if r.state.busy then r else { r with odd := SMap.setD r.odd (Rec.slot d) [] (if odd then k :: l else l) }

/-- One pass: two rows of the slot, 512 contiguous bytes of the array. -/
def packPass (s : State) (g n : Nat) (c : ChainCtx) (w : RecWork) : State :=
  let d := w.words
  let k := w.src
  let done (r : Nat) : Nat := r * Rec.pitch d / 8
  let send (s : State) (rows : Nat) (bytes : List (Place × Byte × Byte)) (late : Bool) (fail : Option Nat) : State :=
    let s := if rows = 0 then s else sendWrite s g n ⟨bytes, 0, done (k + rows) - done k⟩ late
    settle (updWork s g n fun w => { w with src := k + rows, fail := fail }) g n
  match packRow s g c w k with
  | .error e => stopPass s g n e
  | .ok (.error x, _, s) => send s 0 [] false (some x)
  | .ok (.ok r0, l0, s) =>
    match packRow s g c w (k + 1) with
    | .error e => stopPass s g n e
    | .ok (.error x, l1, s) => send (noteOdd s g d k r0.2) 1 (rowWrite g d k r0.1) (l0 || l1) (some x)
    | .ok (.ok r1, l1, s) =>
      send (noteOdd (noteOdd s g d k r0.2) g d (k + 1) r1.2) 2 (rowWrite g d k r0.1 ++ rowWrite g d (k + 1) r1.1) (l0 || l1) none

/-! ### Decode (R274, R275) -/

/-- Up to `fuel` blocks from stream byte `pos` on: the bytes, the stream consumed, whether a faulty block follows, whether an array answered
with zeros. -/
def expandBlocks (g : Nat) (c : ChainCtx) (d : List Nat) : Nat → State → Nat → Except LadleStop (List Byte × Nat × Bool × Bool × State)
  | 0, s, pos => .ok ([], pos, false, false, s)
  | k + 1, s, pos =>
    let a := Rec.a d 0
    if Rec.y d ≤ pos then .ok ([], pos, true, false, s)
    else match ladleRead s g c (Rec.spaceA d) [a + pos] with
      | .error e => .error e
      | .ok (hd, l0, s) =>
        let h := ofBytes hd
        let size := bdiSize (h % 16)
        if h % 16 > 10 ∨ h / 16 ≠ 0 ∨ Rec.y d < pos + 1 + size then .ok ([], pos, true, l0, s)
        else match ladleRead s g c (Rec.spaceA d) (run_ (a + pos + 1) size) with
          | .error e => .error e
          | .ok (bytes, l1, s) =>
            match expandBlocks g c d k s (pos + 1 + size) with
            | .error e => .error e
            | .ok (out, pos, bad, l2, s) => .ok (toBytes 128 (bdiExpand (h % 16) (ofBytes bytes)) ++ out, pos, bad, l0 || l1 || l2, s)

/-- A chunk is expanded into the staging buffer, or its next bytes are written out. `stage` 2 tells that a faulty block follows the buffer. -/
def decodePass (s : State) (g n : Nat) (c : ChainCtx) (w : RecWork) : State :=
  let d := w.words
  match w.buf with
  | [] =>
    if w.stage = 2 then stopPass s g n (.fail 1)
    else match expandBlocks g c d (min 32 ((w.total - w.sent) / 128)) s w.src with
      | .error e => stopPass s g n e
      | .ok (out, pos, bad, late, s) =>
        updWork s g n fun w => { w with buf := out, src := pos, stage := if bad then 2 else 1, late := w.late || late }
  | _ =>
    let a := Rec.b d w.iter + w.sent
    let k := min w.buf.length (passRoom (Rec.spaceB d) a)
    match ladlePlaces s g c (Rec.spaceB d) true (run_ a k) with
    | .error e => stopPass s g n e
    | .ok ps =>
      sendWrite (updWork s g n fun w => { w with buf := w.buf.drop k }) g n ⟨wholeBytes (ps.zip (w.buf.take k)), w.sent, k⟩ false

/-! ### Near-stack reduce (R272, R273) -/

/-- The stack adder that homes a place: its HBM4E stack, one more than its number; 0 elsewhere. -/
def adderOf : Place → Nat
  | .glob pa _ _ => if region pa = 0 then bits pa 40 36 + 1 else 0
  | _ => 0

/-- The stack adder reads the next indexed row at its home. -/
def reduceRow (s : State) (g n : Nat) (c : ChainCtx) (w : RecWork) : State :=
  let d := w.words
  let k := w.rows.length
  let give (s : State) (row : List Nat) (stack : Nat) : State := updWork s g n fun w =>
    { w with rows := w.rows ++ [row], src := stack, stage := if k + 1 = Rec.n d then 2 else 1 }
  if Rec.n d ≤ k then updWork s g n fun w => { w with stage := 2 }
  else
    let x := w.idx.getD k 0
    if x = 0xFFFFFFFF then give s [] w.src
    else match ladlePlaces s g c 0 false (run_ (Rec.x2 d + x * Rec.y d) (4 * Rec.elems d)) with
      | .error e => stopPass s g n e
      | .ok ps =>
        let st := if w.src = 0 then ((ps.head?).map adderOf).getD 0 else w.src
        if st = 0 ∨ ps.any (fun p => adderOf p != st) then stopPass s g n (.fail 12)
        else
          let pa (p : Place) : Nat := match p with
            | .glob pa _ _ => pa
            | _ => 0
          if ps.any fun p => s.mem.badLine (lineOf (pa p)) then stopPass s g n (.fail 3)
          else give (noteLines s ps) (words32 (Rec.elems d) (ps.map fun p => s.mem.read (pa p))) st

/-- Element `e` of the rows that are not skipped, in index order. -/
def reduceColumn (w : RecWork) (e : Nat) : List Nat := (w.rows.filter fun r => !r.isEmpty).map fun r => r.getD e 0

/-- The sum of MODE 0. -/
def reduceSum (old : Nat) (l : List Nat) : Nat :=
  l.foldl (fun y x => (fadd fmtF32 .rn (fmtF32.read y) (fmtF32.read x)).bits) old

/-- The stack adder's sums are finished and the destination writes are sent. In MODE 1 each write adds at its home. -/
def reduceDone (s : State) (g n : Nat) (c : ChainCtx) (w : RecWork) : State :=
  let d := w.words
  let f := Rec.f d
  let as := run_ (Rec.b d w.iter) w.total
  match ladlePlaces s g c 0 true as with
  | .error e => stopPass s g n e
  | .ok ps =>
    let old : Except LadleStop (List Byte × Bool × State) :=
      if !f.testBit 0 && f.testBit 7 then ladleRead s g c 0 as else .ok ([], false, s)
    match old with
    | .error e => stopPass s g n e
    | .ok (bytes, late, s) =>
      let was := words32 (Rec.elems d) bytes
      let out := if f.testBit 0 then List.replicate w.total 0
        else (List.range (Rec.elems d)).flatMap fun e => toBytes 4 (reduceSum (if f.testBit 7 then was.getD e 0 else negZero) (reduceColumn w e))
      updWork s g n fun w => { w with flight := passes 0 (ps.zip out), sent := w.total, stage := 3, late := w.late || late }

/-- MODE 1: the bytes of a write with every indexed element added, each as ATOM.FXADD (R70, R71). -/
def reduceAdd (s : State) (g : Nat) (w : RecWork) (f : LadleWrite) : List (Place × Byte × Byte) :=
  let ps := f.bytes.map (·.1)
  let p := bits (Rec.f w.words) 6 1
  (List.range (ps.length / 8)).flatMap fun q =>
    let mine := (ps.drop (8 * q)).take 8
    let new := (reduceColumn w (f.pos / 8 + q)).foldl (fun v x => RmwOp.new (.fxadd p) 64 v x) (ofBytes (mine.map (placeByte s g)))
    wholeBytes (mine.zip (toBytes 8 new))

/-! ### Passes and acknowledgements (R265, R266) -/

/-- A conditional's test (R270). The word read is an acquire at DIE scope. -/
def condStep (s : State) (g n : Nat) (c : ChainCtx) (w : RecWork) : State :=
  let d := w.words
  let f := Rec.f d
  let go (s : State) (t : Bool) (late : Bool) : State :=
    if late then endRecord s g n 3 5 else completeRecord s g n (if t then d.getD 2 0 % 2 ^ 32 else c.addr + 64)
  let m := bits f 4 2
  if m = 4 then go s (((chainBar s c (bits f 15 5)).map fun b => (s.bar g b).state.code) == some (Rec.x2 d % 8)) false
  else match ladlePlaces s g c (Rec.spaceA d) false (run_ (d.getD 1 0) 4) with
    | .error e => stopPass s g n e
    | .ok ps =>
      if (releasers s ps).any (drainHeld s) then s
      else
      let s := (releasers s ps).foldl (fun s k => clearReleaser (drainCore s k) k ps) s
      match ladleTake s g ps with
      | .error e => stopPass s g n e
      | .ok (bytes, late, s) =>
        let v := ofBytes bytes
        let x := Rec.x2 d % 2 ^ 32
        go s (match m with
          | 0 => v == x
          | 1 => v != x
          | 2 => decide (v < x)
          | _ => decide (x ≤ v)) late

/-- A wait record that has been released: an acquire for the chain, or ECODE 13 (R270). -/
def waitStep (s : State) (g n : Nat) (c : ChainCtx) : State :=
  match c.wait with
  | some ⟨b, _, some st, ds⟩ =>
    if st = 0 ∨ st = 3 ∨ st = 4 then endRecord s g n 3 13
    else if ds.any (drainHeld s) then s
    else
      let s := ds.foldl (fun s k => (drainCore s k).updBar g b fun x => { x with lastRel := x.lastRel.filter (· ≠ k) }) s
      completeRecord (s.updChain g n fun c => { c with state := .running }) g n (c.addr + 64)
  | _ => s

/-- A walk of the chain is under way, or waits for its reply. -/
def chainWalks (s : State) (g n tag : Nat) : Bool := s.walks.any fun (e : Nat × Walk) => e.2.who == .chain g n && e.2.tag == tag

/-- The record in hand as a chain takes it up. -/
def recordWork (s : State) (g : Nat) (c : ChainCtx) (d : List Nat) : RecWork :=
  { kind := Rec.kind d, words := d, iter := ((c.loops.head?).map (·.i)).getD 0, total := recTotal s g c d
    bar := if Rec.cnt d && dataKind (Rec.kind d) then chainBar s c (Rec.bar d) else none }

/-- One pass of a context: a record that cannot be read or has a reserved kind fails, a stop takes effect, on the record that comes next when none
is in hand (R279), or the record in hand goes on. -/
def ladlePass (s : State) (g n : Nat) : State :=
  match s.chain? g n with
  | none => s
  | some c =>
    match c.work with
    | none =>
      match c.stop with
      | some e => endRecord (s.updChain g n fun c => { c with work := (recordWords s g c).map (recordWork s g c) }) g n 5 e
      | none =>
        if c.paused then s
        else if recordLost s g c then readBanks s (recordPlaces s g c)
        else match recordWords s g c with
          | none => endRecord s g n 3 5
          | some w => if Rec.kind w = 0 ∨ Rec.kind w = 15 then endRecord s g n 3 4 else s
    | some w =>
      if w.fail.isSome || c.stop.isSome then settle s g n
      else if c.paused || chainWalks s g n c.tag || !locksLive s g n then s
      else match w.kind with
        | 2 | 7 => if w.sent < w.total then movePass s g n c w else s
        | 3 => if w.sent < w.total then tilePass s g n c w else s
        | 4 | 5 => if w.stage = 0 then indexPass s g n c w else if w.sent < w.total then movePass s g n c w else s
        | 6 => if w.stage = 0 then packCheck s g n c w else if w.src < 1024 then packPass s g n c w else s
        | 8 => if w.sent < w.total then decodePass s g n c w else s
        | 9 => if w.stage = 0 then indexPass s g n c w else if w.stage = 1 then reduceRow s g n c w else s
        | 10 => waitStep s g n c
        | 13 => condStep s g n c w
        | _ => s

/-- The writer under whose name the ladle's bytes stand: no crew. -/
def noCrew : Nat := 0

/-- One byte lands at its home under its bits. -/
def landBits (s : State) (g tag : Nat) (e : Place × Byte × Byte) : State :=
  let old := placeByte s g e.1
  landByte s noCrew g tag true 0 e.1 ((old &&& ~~~e.2.2) ||| (e.2.1 &&& e.2.2))

/-- The bytes of one write of a ladle land, or are refused and counted as one request (R360); answers whether an array dropped one. -/
def landWrite (s : State) (g tag f : Nat) (bytes : List (Place × Byte × Byte)) : State × Bool :=
  let (drops, s) := landMode s none (bytes.map (·.1))
  match bytes.find? fun e => writeRefused s g f true 0 (0, e.1, e.2.1) with
  | some e => (countRefused s g [e.1], false)
  | none =>
    let s := peerAsk s 3 none (bytes.map (·.1)) (bytes.map fun e => e.2.1)
    ((bytes.filter fun e => !drops e.1).foldl (fun s e => landBits s g tag e) s, bytes.any fun e => drops e.1)

/-- The oldest write under way is acknowledged at its bank or home and counted; bytes an array dropped are not. -/
def ladleAck (s : State) (g n : Nat) : State :=
  match s.chain? g n with
  | none => s
  | some c =>
    match c.work with
    | none => s
    | some w =>
      match w.flight with
      | [] => s
      | f :: t =>
        let ps := f.bytes.map (·.1)
        if ps.any (writeWaits s g true 0) then holdWriter s (.chain g n) ps
        else
          let s := captureBefore (noteLines s ps) g ps
          let uncached (p : Place) : Bool := match p with
            | .glob _ _ map => !map.cached
            | _ => false
          let (fr, s) := if ps.any uncached then s.freeValue else (0, s)
          let bytes := if w.kind = 9 ∧ (Rec.f w.words).testBit 0 then reduceAdd s g w f else f.bytes
          let (s, drop) := landWrite s g c.tag fr bytes
          let lines := (ps.filterMap fun p => match p with
            | .glob pa _ _ => some (lineOf pa)
            | _ => none).eraseDups
          let s := if w.kind = 3 ∨ drop then s else staleMemTiles s g c.tag ps
          let k := if drop then 0 else f.count
          let s := updWork s g n fun w => { w with flight := t, done := w.done + k, late := w.late || drop }
          settle (if drop then s else countBytes s g w.bar k lines) g n

/-! ### Take-up (R259, R263) -/

/-- A record of a kind is taken up, read as a word of an array is (R188): STAT 1; refused with ECODE 4, or its ranges are registered and `start` goes on with it. -/
def takeUp (s : State) (g n kind : Nat) (ok : State → ChainCtx → RecWork → Bool) (start : State → ChainCtx → RecWork → State) : State :=
  match s.chain? g n with
  | none => s
  | some c =>
    if c.work.isSome || c.stop.isSome || c.paused || c.state != .running then s
    else match recordWords s g c with
      | none => s
      | some d =>
        if Rec.kind d ≠ kind ∨ recordLost s g c then s
        else
          let w := recordWork s g c d
          let c' := { c with work := some w }
          let read (s : State) : State := readBanks s (recordPlaces s g c)
          if recRefused s g c d w.iter then
            endRecord ((putStat (read s) g c' 1 0).updChain g n fun _ => c') g n 3 4
          else
            let l := recRanges s g c d w.iter
            if !lockRoom s g l || !ok s c w then s
            else start (addLocks ((putStat (read s) g c' 1 0).updChain g n fun _ => c') g n c.tag l) c' w

/-- Every record but a decode is taken up at once. -/
def atOnce (_ : State) (_ : ChainCtx) (_ : RecWork) : Bool := true

/-- A data record with nothing to prepare. -/
def startData (g n stage : Nat) (s : State) (_ : ChainCtx) (_ : RecWork) : State :=
  settle (updWork s g n fun w => { w with stage := stage }) g n

/-! ### Page faults (R276, R338) -/

/-- The record parks. -/
def parkChain (s : State) (g n : Nat) : State :=
  match s.chain? g n with
  | none => s
  | some c => (putStat s g c 4 0).updChain g n fun c => { c with state := if c.state = .running then .parked else c.state }

/-- The fault has been serviced: the record resumes. -/
def resumeChain (s : State) (g n : Nat) : State :=
  s.updChain g n fun c => { c with state := if c.state = .parked then .running else c.state }

/-- The record fails with an error code found outside its passes. -/
def failChain (s : State) (g n ecode : Nat) : State :=
  settle (updWork (resumeChain s g n) g n fun w => { w with fail := some ecode }) g n

end Sys2Proof.Machine
end

