-- ==== Sys2Proof/Machine/Chain.lean ====
section
/-!
DEFINITION. CHAIN, CHQ and CHSTOP (R277 to R279), and the step that starts a chain.
-/
namespace Sys2Proof.Machine

/-- A ladle context that no chain holds and no CHAIN has taken. -/
def freeCtx (s : State) (g : Nat) : Option Nat :=
  let taken := s.ops.filterMap fun e => match e.2.kind with
    | .chainStart _ _ (some k) _ _ => if (s.crew? e.2.crew).any (fun x => x.seat.core == g) then some k else none
    | _ => none
  (List.range 8).find? fun k => !(s.core g).chains.any (fun e => e.1 == k) && !taken.contains k

/-- A handle (R277). -/
def handle (ctx gen : Nat) : Nat := gen % 2 ^ 16 * 8 + ctx % 8

/-- The chain a handle names for a group: its context. -/
def handleCtx (s : State) (g group h : Nat) : Option (Nat × ChainCtx) :=
  if h ≥ 2 ^ 19 ∨ (s.core g).gens.getD (h % 8) 0 ≠ h / 8 then none
  else match s.chain? g (h % 8) with
    | some c => if c.group = group then some (h % 8, c) else none
    | none => none

def ChainState.code : ChainState → Nat
  | .running => 1 | .waiting => 2 | .parked => 3 | .stopping => 4

/-- The chain status word (R278). -/
def chainWord (s : State) (g k : Nat) (c : ChainCtx) : Nat :=
  c.addr % 2 ^ 32 * 2 ^ 32 + (s.core g).gens.getD k 0 % 2 ^ 16 * 2 ^ 16 + ((c.work.bind (·.fail)).getD 0) % 16 * 2 ^ 8 + c.state.code

/-- CHAIN. With no free context the crew waits until the step CHAIN_START finds one. -/
def execChain (h : Hdr) (o : DAB) (s : State) : Host.Outcome State Fault Refusal :=
  run (.chain h o) (fun i s =>
    let head := i.scalarN s o.a % 2 ^ 32
    let x := i.scalarN s o.b
    let name := x % 2048
    match s.group? i.x.seat.group with
    | none => .trap ⟨0x04, i.em, BitVec.ofNat 64 head⟩
    | some gr =>
      let cbar := (groupBar gr name).map (·.phys)
      if head % 64 ≠ 0 then .trap ⟨0x02, i.em, BitVec.ofNat 64 head⟩
      else if 0x600000 ≤ head ∨ !gr.holds (head / 0x40000) then .trap ⟨0x04, i.em, BitVec.ofNat 64 head⟩
      else if x.testBit 11 ∧ cbar.isNone then .trap ⟨0x04, i.em, BitVec.ofNat 64 name⟩
      else
        let op := s.nextId
        let ctx := freeCtx s i.g
        let s := giveOp i s (.chainStart head (if x.testBit 11 then cbar else none) ctx o.d (earlierOps s i.c))
        .done (if ctx.isNone then toWaiting s i.c (.ops [op]) else s)) s

def execChq (h : Hdr) (o : DA) (s : State) : Host.Outcome State Fault Refusal :=
  run (.chq h o) (fun i s =>
    scalarPlain i s o.d (match handleCtx s i.g i.x.seat.group (i.scalarN s o.a) with
      | some (k, c) => chainWord s i.g k c
      | none => 0)) s

/-- CHSTOP: the chain stops at its next pass boundary, and the instruction completes when its context is free. -/
def execChstop (h : Hdr) (o : DA) (s : State) : Host.Outcome State Fault Refusal :=
  run (.chstop h o) (fun i s =>
    match handleCtx s i.g i.x.seat.group (i.scalarN s o.a) with
    | none => scalarPlain i s o.d 0
    | some (k, c) =>
      let op := s.nextId
      let s := giveOp i s (.chainStop (scalarHeld i o.d (BitVec.ofNat 64 (chainWord s i.g k c))))
      .done (s.updChain i.g k fun c =>
        { c with stop := c.stop <|> some 8, state := .stopping, stopOps := c.stopOps ++ [op] })) s

/-- A context's chains run on a core: it is LIVE, and the core's cluster does not quiesce for a test. -/
def chainsRun (s : State) (tag g : Nat) : Bool :=
  (s.ctx? tag).any (fun c => c.state == .live) && match (s.die (dieOf g)).test with
    | some (k, 0, _) => k != clusterOf g % 24
    | _ => true

/-- A context's chains are paused on a core, which they may still reach (R276). -/
def chainsPause (s : State) (tag g : Nat) : Bool :=
  !chainsRun s tag g && (s.ctx? tag).any fun c => c.state == .live || c.state == .suspending

/-- CHAIN_START: a waiting CHAIN takes a freed context; one that has a context starts its chain once its release is performed (R273). A crew
that is being killed starts none. -/
def execChainStart (op : Nat) (s : State) : Host.Outcome State Fault Refusal :=
  .next (
    match s.op? op with
    | some o =>
      match o.kind, s.crew? o.crew with
      | .chainStart addr cbar ctx d after, some x =>
        let g := x.seat.core
        if x.req.kill.isSome then finishOp s op {}
        else match ctx with
          | none =>
            match freeCtx s g with
            | none => s
            | some k => s.setOp op { o with kind := .chainStart addr cbar (some k) d after }
          | some k =>
            if after.any (opPending s o.crew) || !(chainsRun s x.seat.tag g || chainsPause s x.seat.tag g) then s
            else
              let gen := ((s.core g).gens.getD k 0 + 1) % 2 ^ 16
              let s := (drainCore s g).updCore g fun y =>
                { y with
                  gens := y.gens.insert k gen
                  chains := y.chains.insert k ⟨.running, x.seat.group, x.seat.tag, addr, cbar, [], none, none, none, chainsPause s x.seat.tag g, []⟩ }
              finishOp s op (heldScalar o.bank d (BitVec.ofNat 64 (handle k gen)))
      | _, _ => s
    | none => s)

end Sys2Proof.Machine
end

