-- ==== Sys2Proof/Machine/CmdOps.lean ====
section
/-!
DEFINITION. How a command of the management interface begins and completes (R353).
-/
namespace Sys2Proof.Machine

/-- A command begins when none is under way and none waits to report. -/
def beginCmd (s : State) (code tag : Nat) : Option State :=
  if s.mg.cmd.isSome || s.mg.held.isSome then none
  else some (s.updMg fun m => { m with cmd := some ⟨m.cmdhead + 1, code, tag, [], []⟩ })

/-- The completion event of a command: its sequence number and result stand where the spec does not say (log 2). -/
def completionEvent (seq res : Nat) : Event :=
  ⟨Config.completionField 0 seq res, 0, Config.completionField 1 seq res, Config.completionField 2 seq res⟩

/-- The command under way completes with a result (0 done, 1 refused, 2 malformed), unless its event can neither be written nor kept. -/
def finishCmd (s : State) (res : Nat) : State :=
  match s.mg.cmd with
  | none => s
  | some c =>
    let s := emit s (completionEvent c.seq res)
    if s.mg.held.isSome then s else s.updMg fun m => { m with cmdhead := c.seq, cmd := none }

/-- A command that waited for room for its event completes. -/
def releaseHeld (s : State) : State :=
  match s.mg.held, s.mg.cmd with
  | some e, some c =>
    if ringFull s && decide (256 ≤ s.mg.kept.length) then s
    else (emit (s.updMg fun m => { m with held := none }) e).updMg fun m => { m with cmdhead := c.seq, cmd := none }
  | _, _ => s

/-- A command whose work takes time is over, when it is the one under way. -/
def endCmd (s : State) (code tag res : Nat) : State :=
  if s.mg.cmd.any fun c => c.code == code && c.tag == tag then finishCmd s res else s

/-- The same where the spec does not state the result (log 2). -/
def endCmdFree (s : State) (code tag : Nat) : State :=
  if s.mg.cmd.any fun c => c.code == code && c.tag == tag then
    let (f, s) := s.freeValue
    finishCmd s (f % 2)
  else s

/-- A command that is done at once, with the result its work gives. -/
def quickCmd (code tag : Nat) (work : State → State × Nat) (s : State) : Host.Outcome State Fault Refusal :=
  .next (
    match beginCmd s code tag with
    | none => s
    | some s =>
      let (s, r) := work s
      finishCmd s r)

/-- A command that is over when a later step says so; `work` answers none when it is refused. -/
def longCmd (code tag : Nat) (work : State → Option State) (s : State) : Host.Outcome State Fault Refusal :=
  .next (
    match beginCmd s code tag with
    | none => s
    | some s =>
      match work s with
      | some s => s
      | none => finishCmd s 1)

end Sys2Proof.Machine
end

