-- ==== Sys2Proof/Machine/CrewEvents.lean ====
section
/-!
DEFINITION. The steps of a crew's life outside its instructions (R76 to R87, R317, R321, R322), and the life of its group and convoy (R288,
R289).
-/
namespace Sys2Proof.Machine

/-! ### The register cache (R82) -/

/-- The line displaced for another: evictable, then clean, then dirty, least recently used first; never one that is needed. -/
def rcVictim (k : Core) (sched c : Nat) (need : List Nat) : Option RcLine :=
  let l := k.rc.filter fun r => r.sched == sched && !(r.crew == c && need.contains r.line)
  List.find? (fun (r : RcLine) => r.evict) l <|> List.find? (fun (r : RcLine) => !r.dirty) l <|> l.head?

/-- A line leaves: a dirty one is written back; one that fails its checksum is lost (R323). -/
def evictRc (s : State) (g : Nat) (l : RcLine) : State :=
  let s :=
    if !l.dirty then s
    else if !l.flip.isEmpty then
      match s.crew? l.crew with
      | some x => killCrew s l.crew ⟨0, 0, imageLineVa s x.seat l.line⟩ true true
      | none => s
    else saveLine s l.crew l.line
  s.updCore g fun k => { k with rc := k.rc.filter fun r => !(r.crew == l.crew && r.line == l.line) }

/-- A line is fetched into its scheduler's share of 512. -/
def fillRc (s : State) (c n : Nat) (need : List Nat) : State :=
  match s.crew? c with
  | none => s
  | some x =>
    let g := x.seat.core
    let t := x.seat.sched
    if hasLine (s.core g) c n then s
    else
      let s := if ((s.core g).rc.filter fun r => r.sched == t).length < 512 then s
        else match rcVictim (s.core g) t c need with
          | some v => evictRc s g v
          | none => s
      (loadLine s c n).updCore g fun k => { k with rc := k.rc ++ [⟨t, c, n, false, false, []⟩] }

/-- A line that is absent can be fetched now: no write of it to the image waits for its page. -/
def lineReady (s : State) (g c n : Nat) : Bool := hasLine (s.core g) c n || !lineWalk s c n

/-- REGCACHE_FILL: the lines a crew waits for arrive, and it enters the promotion queue. A page of its image that is not mapped is walked, for the
control line in the name of the line itself. `ls` are all the lines of the instruction that waits: none of them is a victim. -/
def execRegcacheFill (crew : Nat) (s : State) : Host.Outcome State Fault Refusal :=
  .next (
    match s.crew? crew with
    | none => s
    | some x =>
      let g := x.seat.core
      let tag := x.seat.tag
      let control := controlLine x.seat
      let va (n : Nat) : Nat := imageLineVa s x.seat n
      match x.state, x.wait with
      | .starting, _ | .waiting, .control =>
        if !lineReady s g crew control then s
        else if unmapped s tag (va control) then (startWalk s (.line crew control) tag (va control) false g).2
        else toReady (fillRc s crew control [control]) crew
      | .waiting, .lines ls =>
        if ls.any fun n => !lineReady s g crew n then s
        else
          match ls.filter fun n => !hasLine (s.core g) crew n && unmapped s tag (va n) with
          | n :: _ => toWalks s crew [(va n, x.ctl.em)] false
          | [] => toReady (ls.foldl (fun s n => fillRc s crew n ls) s) crew
      | _, _ => s)

/-! ### Instruction fetch (R14, R382) -/

/-- What a fetch gives: a page that is not in the translation buffer, a trap, or the word. -/
inductive Fetch where
  | walk (va : Nat)
  | trap (t : Trap)
  | word (w : Word96)
deriving DecidableEq, Repr

/-- The instruction word at the crew's pc: its bytes may lie in two pages. TADDR of a word that only its second page stops is the address of the
piece on that page: R14 says no more than the fetched address (log 65). -/
def fetch (s : State) (x : Crew) : Fetch :=
  let pc := x.ctl.pc.toNat
  let at_ (va : Nat) : Xlat := translate s x.seat.core x.seat.tag va .exec
  let stop (cause va : Nat) : Fetch := .trap ⟨cause, x.ctl.em, BitVec.ofNat 64 va⟩
  let last := (pc + 8) % 2 ^ 64
  match at_ pc, at_ last with
  | .nonCanonical, _ | .denied, _ => stop 0x04 pc
  | .miss, _ => .walk pc
  | .ok .., .nonCanonical | .ok .., .denied => stop 0x04 last
  | .ok .., .miss => .walk last
  | .ok pa _, .ok pb _ =>
    let byte (j : Nat) : Nat := if (pc + j) / 65536 = pc / 65536 then pa + j else pb + j - 8
    let as := (List.range 12).map byte
    if as.any fun a => s.mem.badLine (lineOf a) || pathDown s x.seat.core a then stop 0x0F pc else .word (BitVec.ofNat 96 (ofBytes (as.map s.mem.read)))

/-- INSTRUCTION_FETCH_WALK: the page of the next instruction misses; the crew is WAITING while it is walked. -/
def execInstructionFetchWalk (crew : Nat) (s : State) : Host.Outcome State Fault Refusal :=
  .next (
    match s.crew? crew with
    | some x =>
      match x.state, fetch s x with
      | .active, .walk va =>
        let (w, s) := startWalk s (.fetch crew) x.seat.tag va false x.seat.core
        toWaiting s crew (.walks [w])
      | _, _ => s
    | none => s)

/-! ### Promotion and demotion (R86) -/

/-- Active slots of a scheduler (R1). -/
def activeSlots : Nat := 8

/-- CREW_PROMOTION: the head of the queue takes a free active slot. -/
def execCrewPromotion (core sched : Nat) (s : State) : Host.Outcome State Fault Refusal :=
  .next (
    let d := s.sched core sched
    match d.queue with
    | c :: t =>
      if d.active.length < activeSlots then
        (s.updSched core sched fun d => { d with queue := t, active := d.active ++ [c], headAt := s.coreCycle core }).updCrew c fun x =>
          { x with state := .active, stamps := { x.stamps with promoted := s.coreCycle core, sincePromo := false } }
      else s
    | [] => s)

/-- The class of a crew's context (R85). -/
def crewClass (s : State) (x : Crew) : Nat := ((s.ctx? x.seat.tag).map (·.desc.cls)).getD 0

/-- The victim of a demotion: of the active crews that have issued since their promotion, the highest class, then the one promoted longest
ago. -/
def demotionVictim (s : State) (core sched : Nat) : Option Nat :=
  ((s.sched core sched).active.filterMap fun c => (s.crew? c).bind fun x => if x.stamps.sincePromo then some (c, x) else none).foldl
    (fun (best : Option (Nat × Crew)) e =>
      match best with
      | none => some e
      | some b =>
        if crewClass s b.2 < crewClass s e.2 ∨ (crewClass s b.2 = crewClass s e.2 ∧ e.2.stamps.promoted < b.2.stamps.promoted) then some e
        else best) none |>.map (·.1)

/-- FORCED_DEMOTION: the head has waited 256 cycles with no active slot free. -/
def execForcedDemotion (core sched : Nat) (s : State) : Host.Outcome State Fault Refusal :=
  .next (
    let d := s.sched core sched
    if d.queue.isEmpty || decide (d.active.length < activeSlots) || decide (s.coreCycle core < d.headAt + 256) then s
    else match demotionVictim s core sched with
      | some c => toReady s c
      | none => s)

/-! ### Pre-emption, kills and time (R76, R83, R317, R321, R322) -/

/-- A pre-emption is pending for the crew and not held off. -/
def preemptible (x : Crew) : Bool :=
  x.req.pre && x.ctl.pdrem.isNone && !x.req.budget && x.req.kill.isNone &&
    match x.state with
    | .starting | .ready | .active | .waiting => true
    | _ => false

/-- PREEMPTION: the crew is SUSPENDED; a wait stays registered, the control-line fetch of a STARTING crew too. -/
def execPreemption (crew : Nat) (s : State) : Host.Outcome State Fault Refusal :=
  .next (
    match s.crew? crew with
    | some x =>
      if preemptible x then suspendCrew (if x.state = .starting then s.updCrew crew fun x => { x with wait := .control } else s) crew else s
    | none => s)

/-- KILL: the injected EXIT at the crew's issue slot. -/
def execKill (crew : Nat) (s : State) : Host.Outcome State Fault Refusal :=
  .next (
    match s.crew? crew with
    | some x => if x.req.kill.isSome && x.state == .active then toDraining s crew else s
    | none => s)

/-- PREDIS_BUDGET_EXPIRY: the budget has run out; the trap follows at the crew's next issue. -/
def execPredisBudgetExpiry (crew : Nat) (s : State) : Host.Outcome State Fault Refusal :=
  .next (
    match s.crew? crew with
    | some x =>
      if x.ctl.pdrem.any fun e => decide (e ≤ x.cycle s) then
        s.updCrew crew fun x => { x with ctl := { x.ctl with pdrem := none }, req := { x.req with budget := true } }
      else s
    | none => s)

/-- The watchdog of the crew's handler has run out; time SUSPENDED does not count. -/
def watchdogOver (s : State) (x : Crew) : Bool :=
  let w := ((s.ctx? x.seat.tag).map (·.desc.wdog)).getD 0
  x.ctl.hmode && w != 0 && x.state != .suspended && x.state != .draining && decide (x.stamps.handler + 1750 * w ≤ x.cycle s)

/-- HANDLER_WATCHDOG. -/
def execHandlerWatchdog (crew : Nat) (s : State) : Host.Outcome State Fault Refusal :=
  .next (
    match s.crew? crew with
    | some x => if watchdogOver s x then killCrew s crew ⟨5, 0, x.ctl.pc.toNat⟩ false true else s
    | none => s)

/-! ### The end of a crew, a group and a convoy (R78, R288, R289) -/

/-- Everything a DRAINING crew waits for is complete. -/
def crewDrained (s : State) (c : Nat) (x : Crew) : Bool :=
  x.state == .draining && x.sq.isEmpty && !(s.ops.any fun e => e.2.crew == c)

/-- CREW_DRAINED: lines and slot are released without write-back, the image is free again, and with the last live crew the group is CLOSING. -/
def execCrewDrained (crew : Nat) (s : State) : Host.Outcome State Fault Refusal :=
  .next (
    match s.crew? crew with
    | some x =>
      if !crewDrained s crew x then s
      else
        let s := s.updCore x.seat.core fun k =>
          { k with
            rc := k.rc.filter (·.crew ≠ crew)
            tiles := k.tiles.filter fun e => e.2.crew != some crew }
        let s := s.updLaunch x.seat.launch fun l => { l with images := l.images.filter (· ≠ x.seat.image) }
        let s := s.updGroup x.seat.group fun g =>
          let l := g.crews.filter (· ≠ crew)
          { g with crews := l, state := if l.isEmpty then .closing else g.state }
        let gone (w : Walker) : Bool := match w with
          | .crew c _ | .fetch c | .line c _ => c == crew
          | _ => false
        { s with crews := s.crews.erase crew, walks := s.walks.filter fun e => !gone e.2.who }
    | none => s)

/-- A byte of the arrays a group holds. -/
def Group.place (g : Group) : Place → Bool
  | .win c a _ => c == g.core && g.holds a
  | _ => false

/-- Accesses of other groups that passed issue against the group's arrays or barriers and are still to be performed. -/
def peersPending (s : State) (g : Group) : Bool :=
  (s.crews.any fun e => e.2.sq.any fun q => q.kind.places.any g.place) ||
    s.ops.any fun e => match e.2.kind with
      | .load l => l.accs.any fun a => a.at_.any g.place
      | .barArrive b _ _ _ _ => b.core == g.core && decide (g.bar0 ≤ b.phys) && decide (b.phys < g.bar0 + g.nbar)
      | _ => false

/-- An array whose group has gone (R189). -/
def Arr.released (a : Arr) : Arr :=
  match a.state with
  | .storage | .reefing => { a with state := .clearing, group := none, bar := none, op := none }
  | .settling | .compute => { a with state := .unreefing, group := none, op := none, pass := none }
  | .offline => { a with group := none, tag := 0, comp := false, bar := none, op := none }
  | _ => { a with group := none, op := none }

/-- What a swap keeps of a core without the resources of a group that has ended (R288, R319). -/
def SavedCore.without (k : SavedCore) (gi : Nat) (g : Group) : SavedCore :=
  if k.core ≠ g.core then k
  else
    let mine (n : Nat) : Bool := (k.chains.find? n).any fun c => c.group == gi
    { k with
      arrays := k.arrays.filter fun e => e.2.group != some gi
      bars := k.bars.filter fun e => !(decide (g.bar0 ≤ e.1) && decide (e.1 < g.bar0 + g.nbar))
      tiles := k.tiles.filter fun e => e.2.group != gi
      scratch := if k.scratch.any fun c => c.owner == some gi then none else k.scratch
      chains := k.chains.filter fun e => e.2.group != gi
      locks := k.locks.filter fun e => match e.2.owner with
        | .chain n => !mine n
        | .gather _ => true
      staging := if k.staging.any mine then none else k.staging }

/-- The group's resources are released; of a group whose context is swapped out, what the swap keeps of them goes. -/
def releaseGroup (s : State) (gi : Nat) (g : Group) : State :=
  let s := (groupBars s g).foldl (fun s n => wakeWaiters (s.updBar g.core n fun b => { b with state := .idle }) g.core n) s
  let s := s.updCtx g.tag fun c => { c with saved := c.saved.map fun k => k.without gi g }
  s.updCore g.core fun k =>
    { k with
      arrays := k.arrays.map fun e => if g.holds e.1 ∧ e.2.group = some gi then (e.1, e.2.released) else e
      bars := if swappedOut s g.tag then k.bars else k.bars.filter fun e => !(decide (g.bar0 ≤ e.1) && decide (e.1 < g.bar0 + g.nbar))
      scratch := if k.scratch.owner = some gi then ⟨0, 0, none, []⟩ else k.scratch
      tiles := k.tiles.filter fun e => e.2.group != gi }

/-- The launch after one of its convoys has ended (R294). -/
def launchAfter (l : Launch) : Launch :=
  match l.state with
  | .running => if l.live = 0 ∧ l.again.isEmpty then { l with state := .ending, out := if l.nfail = 0 then 0 else 1 } else l
  | .killing => if l.live = 0 then { l with state := .ending } else l
  | _ => l

/-- A convoy whose every group is FREE: completion, relaunch or failure (R289). -/
def endConvoy (s : State) (vi : Nat) (v : Convoy) : State :=
  let s := { s with convoys := s.convoys.erase vi }
  s.updLaunch v.launch fun l =>
    let l := { l with live := l.live - 1 }
    if !v.failed then launchAfter l
    else if v.relaunch ∧ l.info.idem ∧ v.attempt = 0 ∧ (l.state = .dispatching ∨ l.state = .running) then
      { l with again := (v.cvid :: l.again).mergeSort (· ≤ ·), nrl := min 65535 (l.nrl + 1), state := .dispatching }
    else launchAfter (if l.state = .dispatching ∨ l.state = .running then { l with nfail := l.nfail + 1 } else l)

/-- The last group of a context on a RETIRING cluster has gone: ABSENT (R311). -/
def retireCluster (s : State) (tag cluster : Nat) : State :=
  if s.groups.any fun e => e.2.tag == tag && clusterOf e.2.core == cluster then s
  else s.updCtx tag fun c => { c with retiring := c.retiring.filter (· ≠ cluster) }

/-- A CLOSING group has nothing outstanding. -/
def groupDone (s : State) (gi : Nat) (g : Group) : Bool :=
  g.state == .closing && !((s.core g.core).chains.any fun e => e.2.group == gi) && !peersPending s g

/-- GROUP_FREE: with the convoy's last group the convoy ends. -/
def execGroupFree (group : Nat) (s : State) : Host.Outcome State Fault Refusal :=
  .next (
    match s.group? group with
    | some g =>
      if !groupDone s group g then s
      else
        let s := releaseGroup s group g
        let s := retireCluster { s with groups := s.groups.erase group } g.tag (clusterOf g.core)
        let s := s.updConvoy g.convoy fun v =>
          { v with freed := g.gid :: v.freed, failed := v.failed || g.broke, relaunch := v.relaunch && g.relaunch }
        match s.convoy? g.convoy with
        | some v => if v.freed.length = v.groups.length then endConvoy s g.convoy v else s
        | none => s
    | none => s)

end Sys2Proof.Machine
end

