-- ==== Sys2Proof/Machine/Queue.lean ====
section
/-!
DEFINITION. The queue unit (R301 to R305): its own accesses, queue descriptors, doorbells and control writes, LAUNCH requests and take-up.
-/
namespace Sys2Proof.Machine

/-! ### The queue unit's accesses (R295, R298, R301, R305, R337) -/

/-- Where an access of the queue unit lands: a page to be walked, no right to it, or a place. -/
inductive UnitAt where
  | fault
  | denied
  | ok (pa : Nat) (map : MapKind)
deriving DecidableEq, Repr

def unitAt (s : State) (tag va : Nat) (r : Right) : UnitAt :=
  match s.ctx? tag with
  | none => .denied
  | some c =>
    if !canonical va then .denied
    else match walk s.mem c.desc.troot va with
      | .fault .. => .fault
      | .leaf e l _ => if r.ok e then .ok (oldFrame s (pteAddr e + va % levelSize l)) (entryMap e) else .denied

/-- A walk of this requester is under way, or waits for its reply. -/
def unitWalks (s : State) (w : Walker) : Bool := s.walks.any fun e => e.2.who == w

/-- The requester asks a walker. -/
def unitWalk (s : State) (w : Walker) (tag va : Nat) (write : Bool) : State :=
  if unitWalks s w then s else (startWalk s w tag va write 0).2

/-- A read at the home: none where it meets an uncorrectable error, or the other side of a host or peer path refuses it (R346, R360). -/
def unitRead (s : State) (tag va pa n : Nat) (map : MapKind) : Option (List Byte) × State :=
  let (f, s) := if map.cached then (0, s) else s.freeValue
  let s := markWalk s tag va false
  if pathDown s 0 pa || f.testBit 0 then (none, countLost s 0 pa)
  else
    let s := peerRequest (noteHome s pa) 0 pa none []
    if (List.range n).any fun i => s.mem.badLine (lineOf (pa + i)) then (none, s)
    else (some ((List.range n).map fun i => frameByte s (pa + i)), s)

/-- An access of the queue unit waits for a link that trains, or for a packet to the same peer (R350, R357). -/
def unitHeld (s : State) (pa : Nat) : Bool := pathHeld s 0 pa || !portFree s pa

/-- A write at the home; one that a path refuses is discarded and counted (R360), and one of a page that migrates is held with the page. -/
def unitWrite (s : State) (tag va pa : Nat) (l : List Byte) : State := (unitStore s 0 tag va pa l).1

/-! ### Queue descriptors (R301, R304) -/

def QState.code : QState → Nat
  | .disabled => 0 | .active => 1 | .suspended => 2 | .error => 3

/-- Feuri's own fields of a descriptor, from bit 368. -/
def Queue.word (x : Queue) : Nat :=
  packFields [(4, x.state.code), (4, x.ecode), (8, x.rcode), (32, x.eseq), (32, x.head), (32, x.taken), (32, x.tail)]

/-- Feuri writes its fields of the descriptor; EN reads 0 once control 3 has been seen. -/
def putQueue (s : State) (tag q : Nat) : State :=
  match s.queue? tag q, s.ctx? tag with
  | some x, some c =>
    let va := c.desc.qtab + 64 * q
    match unitAt s tag va .write with
    | .ok pa _ =>
      let s := unitWrite s tag (va + 46) (pa + 46) (toBytes 18 x.word)
      if x.closing then unitWrite s tag (va + 1) (pa + 1) [frameByte s (pa + 1) &&& 0xF7#8] else s
    | _ => s
  | _, _ => s

def setQueue (s : State) (tag q : Nat) (f : Queue → Queue) : State := putQueue (s.updQueue tag q f) tag q

/-- The queue takes ECODE and ESEQ and enters ERROR; only an ACTIVE queue does (R304). -/
def queueError (s : State) (tag q ecode rcode seq : Nat) : State :=
  if (s.queue? tag q).any fun x => x.state == .active then
    setQueue s tag q fun x => { x with state := .error, ecode := ecode, rcode := if ecode = 2 then rcode else x.rcode, eseq := seq }
  else s

/-- HEAD goes on over every record that is DONE. -/
def advanceHead : Nat → Nat → List Nat → Nat × List Nat
  | 0, h, l => (h, l)
  | n + 1, h, l => if l.contains (h + 1) then advanceHead n (h + 1) (l.filter (· ≠ h + 1)) else (h, l)

/-- A closing queue with no launch taken up and not DONE is DISABLED. -/
def Queue.settled (x : Queue) : Queue := if x.closing ∧ x.taken ≤ x.head then { x with state := .disabled } else x

/-- Record `seq` is DONE. -/
def recordDone (s : State) (tag q seq : Nat) : State :=
  setQueue s tag q fun x =>
    let (h, l) := advanceHead (x.done.length + 1) x.head (seq :: x.done)
    Queue.settled { x with head := h, done := l }

/-- Whether record `seq` is DONE. -/
def Queue.isDone (x : Queue) (seq : Nat) : Bool := decide (seq ≤ x.head) || x.done.contains seq

/-! ### Doorbells and control (R302, R304) -/

/-- A doorbell to a host-fed queue; sequence numbers compare modulo 2^32. -/
def doorbell (s : State) (tag q t : Nat) : State :=
  match s.queue? tag q with
  | none => s
  | some x =>
    let d := (t + (2 ^ 32 - x.tail % 2 ^ 32)) % 2 ^ 32
    if x.device ∨ x.closing ∨ (x.state ≠ .active ∧ x.state ≠ .suspended) ∨ d = 0 ∨ d ≥ 2 ^ 31 then s
    else if x.tail + d ≤ x.head + 2 ^ x.logn then setQueue s tag q fun x => { x with tail := x.tail + d }
    else setQueue s tag q fun x => { x with state := .error, ecode := 1, eseq := x.tail + 1 }

def execDoorbell (tag q t : Nat) (s : State) : Host.Outcome State Fault Refusal := .next (doorbell s tag q (t % 2 ^ 32))

/-- Control writes. -/
def queueControl (s : State) (tag q v : Nat) : State :=
  match s.queue? tag q with
  | none => s
  | some x =>
    if x.closing then s
    else match v, x.state with
      | 1, .active => setQueue s tag q fun x => { x with state := .suspended }
      | 2, .suspended => setQueue s tag q fun x => { x with state := .active }
      | 2, .error => setQueue s tag q fun x => { x with state := .active, ecode := 0 }
      | 3, .active | 3, .suspended | 3, .error =>
        setQueue s tag q fun x => Queue.settled { x with state := .suspended, closing := true, tail := x.taken }
      | _, _ => s

def execQueueSuspend (tag q : Nat) (s : State) : Host.Outcome State Fault Refusal := .next (queueControl s tag q 1)

def execQueueResume (tag q : Nat) (s : State) : Host.Outcome State Fault Refusal := .next (queueControl s tag q 2)

/-- Control 3: the queue is DISABLED once every launch taken up is DONE. -/
def execQueueDisable (tag q : Nat) (s : State) : Host.Outcome State Fault Refusal := .next (queueControl s tag q 3)

/-! ### LAUNCH at its queue (R300, R303) -/

/-- A result word. -/
def launchWord (seq res : Nat) : Nat := seq % 2 ^ 32 * 2 ^ 32 + res

/-- The context's work goes on: neither KILLING nor DEAD. -/
def ctxAlive (s : State) (tag : Nat) : Bool := (s.ctx? tag).any fun c => c.state != .killing && c.state != .dead

/-- The record a LAUNCH copies, as its crew reads it once its release is performed, and whether an error comes with it. -/
def launchRead (s : State) (g tag : Nat) (at_ : List Place) (got : Option (List Byte)) : List Byte × Bool × State :=
  match got with
  | some l => (l, false, s)
  | none =>
    let bad := at_.any (placeBad s g)
    let s := match at_.head? with
      | some (.glob pa va map) =>
        if map.cached && !bad && at_.any (fun p => (readyByte? s g p).isNone) then fillLine s g (lineOf pa) tag (objectOf s tag va) false false else s
      | _ => s
    (at_.map (seenByte s g), bad, peerAsk s 0 none at_ [])

/-- An earlier LAUNCH of the crew to the same queue has still to reach it. -/
def launchBehind (s : State) (crew q op : Nat) : Bool :=
  s.ops.any fun e => e.2.crew == crew && decide (e.1 < op) && match e.2.kind with
    | .launch q' _ _ _ _ none _ => q' == q
    | _ => false

/-- The record is enqueued as TAIL + 1 and written to its slot, when that can be written. -/
def acceptLaunch (s : State) (tag q : Nat) (slot : Option Nat) (va : Nat) (l : List Byte) : State :=
  let s := setQueue s tag q fun x => { x with tail := x.tail + 1 }
  match slot with
  | some pa => unitWrite s tag va pa l
  | none => s

/-- A request reaches its queue: accepted, or declined with a result of its own. `declined`: system software has declined the page of the
slot. -/
def launchRequest (s : State) (op : Nat) (declined : Bool) : State :=
  match s.op? op with
  | none => s
  | some o =>
    match o.kind, s.crew? o.crew with
    | .launch q at_ got dst after none pc, some x =>
      let g := x.seat.core
      let tag := x.seat.tag
      let held := at_.any fun p => match p with
        | .glob pa _ _ => pathHeld s g pa || !portFree s pa
        | _ => false
      if after.any (opPending s o.crew) || launchBehind s o.crew q op || held || at_.any (halfLanded s g) || drainHeld s g ||
          unitWalks s (.ring op) then s
      else
        let s := drainCore s g
        let (l, bad, s) := launchRead s g tag at_ got
        let answer (s : State) (w : Nat) : State :=
          s.setOp op { o with kind := .launch q at_ (some l) dst after (some w) pc }
        if bad then
          raiseLate (finishOp s op {}) o.crew ⟨0x0F, o.em, match at_.head? with
            | some (.glob _ va _) => BitVec.ofNat 64 va
            | _ => 0⟩ pc
        else match s.queue? tag q with
          | none => answer s (launchWord 0 2)
          | some y =>
            if !ctxAlive s tag || y.state != .active then answer s (launchWord 0 2)
            else if y.head + 2 ^ y.logn ≤ y.tail then answer s (launchWord 0 1)
            else
              let seq := y.tail + 1
              let va := y.base + 128 * (seq % 2 ^ y.logn)
              match unitAt s tag va .write with
              | .ok pa map =>
                if unitHeld s pa || writeHeld s (.glob pa va map) then s
                else answer (acceptLaunch s tag q (some pa) va l) (launchWord seq 0)
              | .fault =>
                if declined then answer (acceptLaunch s tag q none va l) (launchWord seq 0)
                else unitWalk (s.setOp op { o with kind := .launch q at_ (some l) dst after none pc }) (.ring op) tag va true
              | .denied => answer (acceptLaunch s tag q none va l) (launchWord seq 0)
    | _, _ => s

def execQueueLaunchRequest (op : Nat) (s : State) : Host.Outcome State Fault Refusal := .next (launchRequest s op false)

/-! ### Take-up (R291, R305) -/

/-- The fields of a launch record. -/
def parseLaunch (x : Nat) : LaunchRec where
  entry := bits x 63 0
  arg := BitVec.ofNat 64 (bits x 127 64)
  rarea := bits x 191 128
  compaddr := bits x 255 192
  compval := bits x 319 256
  daddr := (if x.testBit 761 then [(bits x 383 320, bits x 447 384)] else []) ++ (if x.testBit 762 then [(bits x 511 448, bits x 575 512)] else [])
  nconv := bits x 607 576
  rslots := bits x 639 608
  tlim := bits x 671 640
  shared := bits x 703 672
  nv := bits x 712 704
  ns := bits x 720 713
  crews := bits x 725 721
  groups := bits x 728 726
  arrays := bits x 733 729
  nbar := bits x 745 734
  idem := x.testBit 746
  ser := x.testBit 747
  sysf := x.testBit 748
  inte := x.testBit 749
  intv := bits x 760 750

/-- A launch as it is taken up. -/
def Launch.start (tag q seq : Nat) : Launch where
  state := .queued
  tag := tag
  q := q
  seq := seq
  info := parseLaunch 0
  out := 0
  rcode := 0
  nfail := 0
  nrl := 0
  next := 0
  again := []
  live := 0
  lastCluster := 287
  images := []
  started := 0
  paused := 0
  cores := []
  step := 0

/-- The order of R305: class, then the queues after the one served last, in ascending (tag, QNUM). -/
def queueOrder (s : State) (last key : Nat) : Nat × Nat × Nat :=
  (((s.ctx? (key / 256)).map (·.desc.cls)).getD 0, if key ≤ last then 1 else 0, key)

def orderLt (a b : Nat × Nat × Nat) : Bool :=
  decide (a.1 < b.1) || (a.1 == b.1 && (decide (a.2.1 < b.2.1) || (a.2.1 == b.2.1 && decide (a.2.2 < b.2.2))))

/-- Record TAKEN + 1 of a queue is ready for take-up. -/
def queueReady (s : State) (key : Nat) (x : Queue) : Bool :=
  x.state == .active && decide (x.taken < x.tail) && decide (x.taken - x.head < x.depth) && ctxAlive s (key / 256)

/-- The queue whose record is taken up next. -/
def nextQueue (s : State) : Option Nat :=
  (SMap.keys (s.queues.filter fun e => queueReady s e.1 e.2)).foldl (fun (best : Option Nat) k =>
    match best with
    | none => some k
    | some b => if orderLt (queueOrder s s.lastQueue k) (queueOrder s s.lastQueue b) then some k else best) none

/-- LAUNCH_TAKE_UP: the queue unit starts reading the record of the queue it serves next. -/
def execLaunchTakeUp (s : State) : Host.Outcome State Fault Refusal :=
  .next (
    match nextQueue s with
    | none => s
    | some k =>
      let tag := k / 256
      let q := k % 256
      let seq := ((s.queue? tag q).map (·.taken + 1)).getD 0
      let (l, s) := (setQueue s tag q fun x => { x with taken := x.taken + 1 }).fresh
      { s with lastQueue := k, launches := s.launches.insert l (Launch.start tag q seq) })

end Sys2Proof.Machine
end

