-- ==== Sys2Proof/Machine/Launch.lean ====
section
/-!
DEFINITION. LAUNCH (R300), the checks of a launch record (R293), dependences (R295), the placement and start of convoys (R280 to R287, R292,
R296, R306), the time limit (R297) and completion (R298, R299).
-/
namespace Sys2Proof.Machine

/-! ### LAUNCH (R300) -/

/-- The context holds the queue as device-fed. -/
def deviceFed (s : State) (tag q : Nat) : Bool := (s.queue? tag q).any fun x => x.device && x.state != .disabled

def execLaunch (h : Hdr) (o : DAB) (s : State) : Host.Outcome State Fault Refusal :=
  run (.launch h o) (fun i s =>
    let a := i.scalarN s o.a
    let q := i.scalarN s o.b % 256
    if a % 128 ≠ 0 then .trap ⟨0x02, i.em, BitVec.ofNat 64 a⟩
    else match translate s i.g i.tag a .read with
      | .nonCanonical | .denied => .trap ⟨0x04, i.em, BitVec.ofNat 64 a⟩
      | .miss => .walks [(a, i.em)] false
      | .ok pa map =>
        if !deviceFed s i.tag q then .trap ⟨0x04, i.em, BitVec.ofNat 64 q⟩
        else
          let at_ := (List.range 128).map fun j => Place.glob (pa + j) (a + j) map
          .done (giveOp i s (.launch q at_ none o.d (earlierOps s i.c) none i.pc))) s

/-- LAUNCH_ANSWER_RETURN: the result word completes the tag. -/
def execLaunchAnswerReturn (op : Nat) (s : State) : Host.Outcome State Fault Refusal :=
  .next (
    match s.op? op with
    | some o =>
      match o.kind with
      | .launch _ _ _ dst _ (some w) _ => finishOp s op (heldScalar o.bank dst (BitVec.ofNat 64 w))
      | _ => s
    | none => s)

/-! ### The record's checks (R293) -/

/-- H of R280. -/
def LaunchRec.arraysHeld (r : LaunchRec) : Nat := ceilDiv r.shared 262144 + r.arrays

/-- An address of a launch record, a multiple of `n` and canonical. -/
def goodAddr (a n : Nat) : Bool := decide (a % n = 0) && canonical a

/-- A completion word can be written. -/
def LaunchRec.hasWord (r : LaunchRec) : Bool := decide (r.compaddr ≠ 0) && goodAddr r.compaddr 16

/-- RCODE 1: a reserved field, INTV without INTE, or a dependence's address or value without its enable. -/
def badReserved (x : Nat) : Bool :=
  decide (bits x 1023 763 ≠ 0) || (!x.testBit 749 && decide (bits x 760 750 ≠ 0)) || (!x.testBit 761 && decide (bits x 447 320 ≠ 0)) ||
    (!x.testBit 762 && decide (bits x 575 448 ≠ 0))

/-- RCODE 2: a field breaks its limits (R37, R291). -/
def LaunchRec.badLimits (r : LaunchRec) : Bool :=
  !(decide (8 ≤ r.nv) && decide (r.nv ≤ 320) && decide (16 ≤ r.ns) && decide (r.ns ≤ 128) && decide (1 ≤ r.crews) && decide (r.crews ≤ 16) &&
    decide (1 ≤ r.groups) && decide (r.groups ≤ 4) && decide (r.shared ≤ 6291456) && decide (r.shared % 4096 = 0) && decide (r.arrays ≤ 24) &&
    decide (r.nbar ≤ 2048) && decide (r.nconv ≠ 0) && decide (r.crews * r.groups ≤ r.rslots))

/-- RCODE 4: ENTRY, RAREA, COMPADDR or a DADDR misaligned or not canonical. -/
def LaunchRec.badAddrs (r : LaunchRec) : Bool :=
  !(goodAddr r.entry 64 && goodAddr r.rarea 4096 && goodAddr r.compaddr 16 && r.daddr.all fun d => goodAddr d.1 8)

/-- RCODE 5: every cluster of the partition is ABSENT (R311). -/
def noPartition (s : State) (tag : Nat) : Bool := (s.ctx? tag).all fun c => c.members.isEmpty && c.retiring.isEmpty

/-- The RCODE of a record, the lowest that holds. -/
def launchRcode (s : State) (tag x : Nat) : Nat :=
  let r := parseLaunch x
  if badReserved x then 1
  else if r.badLimits then 2
  else if r.arraysHeld > 24 then 3
  else if r.badAddrs then 4
  else if noPartition s tag then 5
  else 0

/-- A launch reaches ENDING with an outcome. -/
def endLaunch (s : State) (l out rcode : Nat) : State := s.updLaunch l fun x => { x with state := .ending, out := out, rcode := rcode, step := 0 }

/-- A record is refused; without a completion word its queue takes the refusal (R304). -/
def refuseLaunch (s : State) (l : Nat) (x : Launch) (rcode : Nat) : State :=
  let s := endLaunch s l 4 rcode
  if x.info.hasWord then s else queueError s x.tag x.q 2 rcode x.seq

/-- A launch is DONE: it and its walks go, and its record is DONE in its queue. -/
def launchDone (s : State) (l : Nat) (x : Launch) : State :=
  recordDone { s with launches := s.launches.erase l, walks := s.walks.filter fun e => e.2.who != .queue l } x.tag x.q x.seq

/-- A ring read that failed or was declined (R304). -/
def ringFailed (s : State) (l : Nat) (x : Launch) : State := launchDone (queueError s x.tag x.q 3 0 x.seq) l x

/-- The previous record of the queue is DONE, when SER asks for it. -/
def serOk (s : State) (x : Launch) : Bool := !x.info.ser || (s.queue? x.tag x.q).any fun y => y.isDone (x.seq - 1)

def dispatching (s : State) (l : Nat) : State := s.updLaunch l fun x => { x with state := .dispatching, started := s.now }

/-- A record has arrived: refused, or accepted into WAITING, and straight into DISPATCHING when it waits for nothing (R305). -/
def checkRecord (s : State) (l : Nat) (x : Launch) (raw : List Byte) : State :=
  let w := ofBytes raw
  let x := { x with info := parseLaunch w }
  let s := s.updLaunch l fun _ => { x with state := .waiting }
  match launchRcode s x.tag w with
  | 0 => if x.info.daddr.isEmpty && serOk s x then dispatching s l else s
  | r => refuseLaunch s l x r

/-- A launch of the same queue, with an earlier record, for which `p` holds. -/
def earlierLaunch (s : State) (x : Launch) (p : LaunchState → Bool) : Bool :=
  s.launches.any fun e => e.2.tag == x.tag && e.2.q == x.q && decide (e.2.seq < x.seq) && p e.2.state

/-- LAUNCH_RECORD_CHECK: the record arrives, in ascending sequence (R306); a page fault pauses the take-up. -/
def execLaunchRecordCheck (launch : Nat) (s : State) : Host.Outcome State Fault Refusal :=
  .next (
    match s.launch? launch with
    | none => s
    | some x =>
      if x.state ≠ .queued || unitWalks s (.queue launch) || earlierLaunch s x (· == .queued) || !ctxAlive s x.tag then s
      else match s.queue? x.tag x.q with
        | none => s
        | some y =>
          let va := y.base + 128 * (x.seq % 2 ^ y.logn)
          match unitAt s x.tag va .read with
          | .fault => unitWalk s (.queue launch) x.tag va false
          | .denied => ringFailed s launch x
          | .ok pa map =>
            if unitHeld s pa then s
            else match unitRead s x.tag va pa 128 map with
              | (some raw, s) => checkRecord s launch x raw
              | (none, s) => ringFailed s launch x)

/-! ### Dependences (R295) -/

/-- What reading dependence words comes to: a page to be walked, a word that cannot be read, a path to wait for, or whether all are satisfied,
with where they lie. -/
inductive DepEnd where
  | walk (va : Nat)
  | fail
  | held
  | read (ok : Bool) (ps : List Place)

def readDeps (s : State) (tag : Nat) : List (Nat × Nat) → DepEnd × State
  | [] => (.read true [], s)
  | (a, v) :: t =>
    match unitAt s tag a .read with
    | .fault => (.walk a, s)
    | .denied => (.fail, s)
    | .ok pa map =>
      if unitHeld s pa then (.held, s)
      else match unitRead s tag a pa 8 map with
        | (none, s) => (.fail, s)
        | (some b, s) =>
          match readDeps s tag t with
          | (.read ok ps, s) => (.read (ok && decide (v ≤ ofBytes b)) (.glob pa a map :: ps), s)
          | r => r

/-- The drains an acquire of these words demands (R152). -/
def unitAcquire (s : State) (ps : List Place) : State :=
  (releasers s ps).foldl (fun s g => clearReleaser (drainCore s g) g ps) s

/-- DEPENDENCE_READ: the words are read; with every dependence satisfied, and the predecessor DONE under SER, the launch enters DISPATCHING. -/
def execDependenceRead (launch : Nat) (s : State) : Host.Outcome State Fault Refusal :=
  .next (
    match s.launch? launch with
    | none => s
    | some x =>
      if x.state ≠ .waiting || unitWalks s (.queue launch) || !ctxAlive s x.tag then s
      else match readDeps s x.tag x.info.daddr with
        | (.walk va, s) => unitWalk s (.queue launch) x.tag va false
        | (.fail, s) => refuseLaunch s launch x 6
        | (.held, s) => s
        | (.read ok ps, s) =>
          if !ok || !serOk s x || (releasers s ps).any (drainHeld s) then s else dispatching (unitAcquire s ps) launch)

/-! ### Fitting a group on a core (R281, R282, R284) -/

/-- What a group takes of a core. -/
structure GroupFit where
  arr0 : Nat
  bar0 : Nat
  slots : List (Nat × Nat)
deriving DecidableEq, Repr

/-- The groups that hold resources of a core. -/
def coreGroups (s : State) (g : Nat) : List Group :=
  (s.groups.filter fun e => e.2.core == g && !swappedOut s e.2.tag).map (·.2)

/-- The lowest run of `n` free arrays. -/
def arrayRun (s : State) (g n : Nat) : Option Nat :=
  if n = 0 then some 0
  else List.find? (fun b => (List.range n).all fun j => (s.arr g (b + j)).state == .unheld) (List.range (25 - n))

/-- The lowest run of `n` free barriers. -/
def barrierRun (s : State) (g n : Nat) : Option Nat :=
  if n = 0 then some 0
  else
    let held := (coreGroups s g).map fun x => (x.bar0, x.bar0 + x.nbar)
    let ok (b : Nat) : Bool := decide (b + n ≤ 2048) && held.all fun h => decide (b + n ≤ h.1) || decide (h.2 ≤ b)
    ((0 :: held.map (·.2)).filter ok).foldl (fun (best : Option Nat) b => match best with
      | none => some b
      | some a => some (min a b)) none

/-- The free slots of a scheduler, in order. -/
def freeSlots (s : State) (g t : Nat) : List Nat :=
  let used := (coreGroups s g).flatMap fun x => x.slots
  (List.range 32).filter fun k => !used.contains (t, k)

/-- The scheduler with the most free slots, the lowest on a tie. -/
def firstSched (s : State) (g : Nat) : Nat :=
  (List.range 4).foldl (fun b t => if (freeSlots s g b).length < (freeSlots s g t).length then t else b) 0

/-- The slots of `n` crews: crew c on scheduler (t + c) mod 4, in its lowest free slot. -/
def crewSlots (s : State) (g n : Nat) : Option (List (Nat × Nat)) :=
  let t := firstSched s g
  (List.range n).mapM fun c => ((freeSlots s g ((t + c) % 4))[c / 4]?).map fun k => ((t + c) % 4, k)

def fitCore (s : State) (g : Nat) (r : LaunchRec) : Option GroupFit := do
  let a ← arrayRun s g r.arraysHeld
  let b ← barrierRun s g r.nbar
  let l ← crewSlots s g r.crews
  pure ⟨a, b, l⟩

/-- The lowest x for which every group of a convoy fits the cluster (R285). -/
def fitCluster (s : State) (cl : Nat) (r : LaunchRec) : Option (Nat × List GroupFit) :=
  (List.range 4).findSome? fun x => ((List.range r.groups).mapM fun g => fitCore s (4 * cl + (g ^^^ x)) r).map fun l => (x, l)

/-! ### Placement (R285, R286, R292, R296, R306) -/

/-- A launch has convoys to place. -/
def Launch.pending (x : Launch) : Bool := !x.again.isEmpty || decide (x.next < x.info.nconv)

/-- The launch may place a convoy: no earlier launch of its queue still waits or dispatches. -/
def mayPlace (s : State) (x : Launch) : Bool :=
  x.state == .dispatching && x.pending && (s.ctx? x.tag).any (fun c => c.state == .live) &&
    decide (x.images.length + x.info.crews * x.info.groups ≤ x.info.rslots) &&
    !earlierLaunch s x fun st => match st with
      | .queued | .waiting | .dispatching => true
      | _ => false

/-- The dispatch slot of the present moment on a die: one every 32 cycles. -/
def dispatchSlot (s : State) (die : Nat) : Nat := s.cycle die / 32

/-- The context's dispatch slot on a die has still to be used (R296). -/
def slotOpenAt (s : State) (tag die : Nat) : Bool := (s.die die).placed.find? tag != some (dispatchSlot s die)

/-- The cluster quiesces for an in-field test (R326). -/
def quiescing (s : State) (cl : Nat) : Bool :=
  match (s.die (cl / 24)).test with
  | some (k, 0, _) => k == cl % 24
  | _ => false

/-- The first cluster on which the launch's next convoy fits, after that of its previous one. A cluster that quiesces for a test takes none. -/
def findCluster (s : State) (x : Launch) : Option (Nat × Nat × List GroupFit) :=
  let l := ((s.ctx? x.tag).map (·.members)).getD []
  let order := (List.range 288).map fun j => (x.lastCluster + 1 + j) % 288
  (order.filter fun cl => l.contains cl && !quiescing s cl).findSome? fun cl => (fitCluster s cl x.info).map fun f => (cl, f.1, f.2)

/-- The lowest-numbered free register images. -/
def freeImages (x : Launch) (n : Nat) : List Nat := ((List.range (x.images.length + n)).filter fun k => !x.images.contains k).take n

/-- One group of a convoy is reserved: its arrays are in STORAGE and zero, its barriers IDLE with PHASE 0. -/
def reserveGroup (s : State) (x : Launch) (l v gid g : Nat) (f : GroupFit) (imgs : List Nat) : Nat × State :=
  let (gi, s) := s.fresh
  let h := x.info.arraysHeld
  let st := ceilDiv x.info.shared 262144
  let gr : Group :=
    { state := .resident
      convoy := v
      launch := l
      tag := x.tag
      gid := gid
      core := g
      arr0 := f.arr0
      nsto := st
      ncomp := x.info.arrays
      bar0 := f.bar0
      nbar := x.info.nbar
      crews := []
      slots := f.slots
      images := imgs
      relaunch := true
      broke := false }
  let s := { s with groups := s.groups.insert gi gr }
  (gi, (List.range h).foldl (fun s j => s.updArr g (f.arr0 + j) fun _ =>
    { Arr.unheld with state := .storage, group := some gi, tag := x.tag, comp := decide (st ≤ j) }) s)

/-- A convoy is placed whole. -/
def placeConvoy (s : State) (l : Nat) (x : Launch) (cl xx : Nat) (fits : List GroupFit) : State :=
  let (cvid, again) : Nat × Bool := match x.again with
    | c :: _ => (c, true)
    | [] => (x.next, false)
  let n := x.info.crews
  let imgs := freeImages x (n * x.info.groups)
  let (v, s) := s.fresh
  let (gs, s) := (fits.zipIdx).foldl (fun (gs, s) e =>
    let (gi, s) := reserveGroup s x l v e.2 (4 * cl + (e.2 ^^^ xx)) e.1 ((imgs.drop (n * e.2)).take n)
    (gs ++ [gi], s)) (([] : List Nat), s)
  let cv : Convoy :=
    { launch := l
      tag := x.tag
      cvid := cvid
      cluster := cl
      x := xx
      groups := gs
      attempt := if again then 1 else 0
      started := false
      skip := []
      freed := []
      failed := false
      relaunch := true }
  let s := ({ s with convoys := s.convoys.insert v cv }).updDie (cl / 24) fun d =>
    { d with served := 256 * x.tag + x.q, placed := d.placed.insert x.tag (dispatchSlot s (cl / 24)) }
  s.updLaunch l fun y =>
    let y := { y with
      again := if again then y.again.tail else y.again
      next := if again then y.next else y.next + 1
      live := y.live + 1
      lastCluster := cl
      images := imgs ++ y.images
      cores := ((List.range x.info.groups).map (fun g => 4 * cl + (g ^^^ xx)) ++ y.cores).eraseDups }
    { y with state := if y.pending then y.state else .running }

/-- Insertion of a launch in the order of its queue. -/
def insertLaunch (s : State) (last : Nat) (e : Nat × Launch) : List (Nat × Launch) → List (Nat × Launch)
  | [] => [e]
  | h :: t =>
    let key (e : Nat × Launch) : Nat × Nat × Nat := queueOrder s last (256 * e.2.tag + e.2.q)
    if orderLt (key e) (key h) then e :: h :: t else h :: insertLaunch s last e t

/-- The launches that may place a convoy, in the order of R305 applied to their queues. -/
def placing (s : State) (die : Nat) : List (Nat × Launch) :=
  (s.launches.filter fun e => mayPlace s e.2).foldl (fun l e => insertLaunch s (s.die die).served e l) []

/-- CONVOY_PLACEMENT: the dispatch slot of a die: in that order each launch places its next convoy when the first cluster on which it fits lies
on this die and the slot is still its partition's to use. A launch whose first cluster lies on another die waits for that die's slot. -/
def execConvoyPlacement (die : Nat) (s : State) : Host.Outcome State Fault Refusal :=
  .next ((placing s die).foldl (fun s e =>
    match s.launch? e.1 with
    | none => s
    | some x =>
      match findCluster s x with
      | some (cl, xx, fits) => if cl / 24 = die ∧ slotOpenAt s x.tag die ∧ mayPlace s x then placeConvoy s e.1 x cl xx fits else s
      | none => s) s)

/-! ### The start of a convoy (R77, R286, R292) -/

/-- Bytes of memory become zero. -/
def zeroBytes (s : State) (pa n : Nat) : State :=
  { s with mem := { s.mem with
    cells := s.mem.cells.filter fun e => !(decide (pa ≤ e.1) && decide (e.1 < pa + n))
    poison := s.mem.poison.filter fun k => !(decide (pa ≤ 32 * k) && decide (32 * k + 32 ≤ pa + n)) } }

/-- The parts of a range of virtual addresses that lie in one 64 KiB page each: address and length. -/
def pageParts (va n : Nat) : List (Nat × Nat) :=
  if n = 0 then []
  else
    let p := va / 65536
    (List.range ((va + n - 1) / 65536 - p + 1)).map fun j =>
      let lo := max va (65536 * (p + j))
      (lo, min (va + n) (65536 * (p + j + 1)) - lo)

/-- The ranges of a convoy's register images, by core and page, without those declined. -/
def imageParts (s : State) (v : Convoy) : List (Nat × Nat × Nat) :=
  match s.launch? v.launch with
  | none => []
  | some l =>
    let n := imageBytes l.info.nv
    (v.groups.filterMap s.group?).flatMap fun g => g.images.flatMap fun k =>
      ((pageParts (l.info.rarea + k * n) n).filter fun p => !v.skip.contains (p.1 / 65536)).map fun p => (g.core, p)

/-- A page of an image waits: its path trains, or it migrates (R154, R350). -/
def partHeld (s : State) (tag : Nat) (p : Nat × Nat × Nat) : Bool :=
  match unitAt s tag p.2.1 .write with
  | .ok pa _ => pathHeld s p.1 pa || lockedPa s pa
  | _ => false

/-- A page of an image is zero-filled by its core; over a path that is DOWN each line is a write that is discarded (R360). -/
def zeroPart (s : State) (tag : Nat) (p : Nat × Nat × Nat) : State :=
  match unitAt s tag p.2.1 .write with
  | .ok pa _ =>
    let s := markWalk s tag p.2.1 true
    if pathDown s p.1 pa then (List.range (ceilDiv p.2.2 128)).foldl (fun s _ => countLost s p.1 pa) s else zeroBytes s pa p.2.2
  | _ => s

/-- A crew as it starts (R77). -/
def Crew.start (t : Seat) (entry : Nat) : Crew where
  seat := t
  state := .starting
  wait := .none
  rf := ⟨Vector.replicate 320 Lanes.zero, Vector.replicate 128 0, Vector.replicate 16 0, Vector.replicate 32 Lanes.zero, Vector.replicate 16 0⟩
  ctl := { pc := BitVec.ofNat 64 entry, em := BitVec.allOnes 128, nest := Vector.replicate 128 0, stack := [], sdepth := 0, fpst := 0, mbusy := 0,
           mxst := 0, hmode := false, pdrem := none, pdpc := 0 }
  tr := ⟨0, 0, 0, 0, 0, 0⟩
  tags := []
  sq := []
  pass := none
  req := {}
  stamps := {}

/-- The crews of a group enter STARTING. -/
def startGroup (s : State) (v : Convoy) (l : Launch) (gi : Nat) : State :=
  match s.group? gi with
  | none => s
  | some g =>
    let pre := (s.ctx? g.tag).any (fun c => c.state == .suspending) || quiescing s v.cluster
    let (cs, s) := ((g.slots.zip g.images).zipIdx).foldl (fun (cs, s) e =>
      let (c, s) := s.fresh
      let seat : Seat :=
        { core := g.core
          sched := e.1.1.1
          slot := e.1.1.2
          cid := e.2
          gid := g.gid
          cvid := v.cvid
          group := gi
          launch := g.launch
          tag := g.tag
          image := e.1.2
          nv := l.info.nv
          ns := l.info.ns }
      let x := Crew.start seat l.info.entry
      (cs ++ [c], s.setCrew c { x with req := { x.req with pre := pre }, stamps := { x.stamps with issued := s.coreCycle g.core } })) (([] : List Nat), s)
    s.updGroup gi fun g => { g with crews := cs }

/-- CONVOY_START: the images are zero-filled, and every crew of the convoy enters STARTING at once. Dispatch of a launch that waits for
another, by a dependence or by SER, is an acquire for its cores (R148, R294). A convoy whose groups are DOOMED by then starts no crew. -/
def execConvoyStart (convoy : Nat) (s : State) : Host.Outcome State Fault Refusal :=
  .next (
    match s.convoy? convoy with
    | none => s
    | some v =>
      match s.launch? v.launch with
      | none => s
      | some l =>
        if v.started || unitWalks s (.image convoy) then s
        else if v.groups.any fun gi => (s.group? gi).any fun g => g.state == .doomed then
          let s := v.groups.foldl (fun s gi => s.updGroup gi fun g => { g with state := .closing }) s
          let imgs := v.groups.flatMap fun gi => ((s.group? gi).map (·.images)).getD []
          (s.updConvoy convoy fun v => { v with started := true }).updLaunch v.launch fun l =>
            { l with images := l.images.filter fun k => !imgs.contains k }
        else
          let ps := imageParts s v
          match ps.find? fun p => unitAt s v.tag p.2.1 .write == .fault with
          | some p => unitWalk s (.image convoy) v.tag p.2.1 true
          | none =>
            if ps.any (partHeld s v.tag) then s
            else
              let s := ps.foldl (fun s p => zeroPart s v.tag p) s
              let s := if l.info.daddr.isEmpty && !l.info.ser then s
                else v.groups.foldl (fun s gi => ((s.group? gi).map fun g => invalidateStale s g.core).getD s) s
              v.groups.foldl (fun s gi => startGroup s v l gi) (s.updConvoy convoy fun v => { v with started := true }))

/-! ### Time limit and kills of a launch (R294, R297) -/

/-- A launch is killed: its groups are DOOMED and EXIT goes to every crew; what crews of a context that is swapped out wait for on resources they
no longer hold ends. -/
def killLaunch (s : State) (l kind out : Nat) : State :=
  match s.launch? l with
  | none => s
  | some x =>
    match x.state with
    | .waiting => if kind = 6 then endLaunch s l 3 0 else s
    | .dispatching | .running =>
      let s := doomGroups s fun g => g.launch == l
      let s := if swappedOut s x.tag then endSwappedOps s fun x => x.seat.launch == l else s
      let s := (bySlot s ((s.crews.filter fun e => e.2.seat.launch == l).map (·.1))).foldl (fun s c => killCrew s c ⟨kind, 0, 0⟩ false true) s
      s.updLaunch l fun y => { y with state := if y.live = 0 then .ending else .killing, out := out, again := [], step := 0 }
    | _ => s

/-- The time limit runs out by the count `now` of the timebase, of which the counts swapped out are no part. -/
def timeUp (s : State) (x : Launch) (now : Nat) : Bool :=
  decide (x.info.tlim ≠ 0) && (x.state == .dispatching || x.state == .running) &&
    (s.ctx? x.tag).any (fun c => c.state == .live || c.state == .suspending) && decide (x.started + x.paused + 1750 * x.info.tlim ≤ now)

def execLaunchTimeLimit (launch : Nat) (s : State) : Host.Outcome State Fault Refusal :=
  .next (
    match s.launch? launch with
    | some x => if timeUp s x s.now then killLaunch s launch 7 2 else s
    | none => s)

/-- The package goes on beyond the count `now`: every launch that has not left DISPATCHING and RUNNING by the count of its limit is killed
(R297). -/
def expireLimits (s : State) (now : Nat) : State :=
  (SMap.keys (s.launches.filter fun e => timeUp s e.2 now)).foldl (fun s l => killLaunch s l 7 2) s

def execLaunchKill (launch : Nat) (s : State) : Host.Outcome State Fault Refusal := .next (killLaunch s launch 6 3)

/-! ### Completion (R298, R299) -/

/-- The completion's scope is SYSTEM: a dependant runs elsewhere, or the completion word does. -/
def systemScope (s : State) (x : Launch) : Bool :=
  x.info.sysf || match unitAt s x.tag x.info.compaddr .write with
    | .ok _ map => decide (x.info.compaddr ≠ 0) && map != .device
    | _ => false

/-- COMPLETION_RELEASE: every core that ran a crew of the launch writes back its dirty lines; a line that waits for a link holds it up. At
SYSTEM scope the packets to every peer must have gone too (R153, R357). -/
def execCompletionRelease (launch : Nat) (s : State) : Host.Outcome State Fault Refusal :=
  .next (
    match s.launch? launch with
    | some x =>
      if x.state ≠ .ending ∨ x.step ≠ 0 ∨ !ctxAlive s x.tag ∨ x.cores.any (drainHeld s) ∨ (systemScope s x ∧ !portsClear s) then s
      else (x.cores.foldl (fun s g => drainCore s g) s).updLaunch launch fun x => { x with step := 1 }
    | none => s)

/-- The status double word (R299). -/
def Launch.statusWord (x : Launch) : Nat :=
  min x.nfail (2 ^ 32 - 1) * 2 ^ 32 + min x.nrl 65535 * 2 ^ 16 + x.rcode % 256 * 2 ^ 8 + x.out % 256

/-- One of the two completion writes. Both are skipped when the page is declined (R338) or may not be written. -/
def completionWrite (s : State) (l : Nat) (x : Launch) (step va : Nat) (b : List Byte) : State :=
  if x.state ≠ .ending || x.step ≠ step || !x.info.hasWord || unitWalks s (.queue l) || !ctxAlive s x.tag then s
  else match unitAt s x.tag va .write with
    | .fault => unitWalk s (.queue l) x.tag va true
    | .denied => s.updLaunch l fun x => { x with step := 3 }
    | .ok pa map =>
      if unitHeld s pa || writeHeld s (.glob pa va map) then s
      else (unitWrite s x.tag va pa b).updLaunch l fun x => { x with step := step + 1 }

def execCompletionStatusWrite (launch : Nat) (s : State) : Host.Outcome State Fault Refusal :=
  .next (
    match s.launch? launch with
    | some x => completionWrite s launch x 1 (x.info.compaddr + 8) (toBytes 8 x.statusWord)
    | none => s)

def execCompletionWordWrite (launch : Nat) (s : State) : Host.Outcome State Fault Refusal :=
  .next (
    match s.launch? launch with
    | some x => completionWrite s launch x 2 x.info.compaddr (toBytes 8 x.info.compval)
    | none => s)

/-- Every write of the completion is over. -/
def completionOver (x : Launch) : Bool := x.state == .ending && (x.step == 3 || (x.step == 1 && !x.info.hasWord))

/-- COMPLETION_INTERRUPT: INTV is signalled when INTE is 1, and the launch is DONE. A refusal without a completion word is reported through its
queue only (R293). -/
def execCompletionInterrupt (launch : Nat) (s : State) : Host.Outcome State Fault Refusal :=
  .next (
    match s.launch? launch with
    | some x =>
      if !completionOver x || !ctxAlive s x.tag then s
      else
        let port := ((s.ctx? x.tag).map (·.desc.hport)).getD 0
        let quiet := x.out == 4 && !x.info.hasWord
        let s := if x.info.inte && !quiet then s.updMg fun m => { m with msix := (port, x.info.intv) :: m.msix } else s
        launchDone s launch x
    | none => s)

end Sys2Proof.Machine
end

