-- ==== Sys2Proof/Decode.lean ====
section
/-!
DEFINITION. The instruction word of Feuri and its decoder (R13 to R28), with the encoder written from the same tables. A word is 96 bits,
stored as three little-endian 32-bit words (R14). Decoding answers the instruction, or the lowest reason of R28 that the word alone gives.
-/
namespace Sys2Proof

/-! ### The fields of a word (R13) -/

structure Fields where
  yield : BitVec 1
  wait  : BitVec 7
  tag   : BitVec 3
  look  : BitVec 4
  gen   : BitVec 1
  gneg  : BitVec 1
  greg  : BitVec 6
  gbit  : BitVec 5
  x     : BitVec 29
  b     : BitVec 9
  a     : BitVec 9
  d     : BitVec 9
  var   : BitVec 4
  op    : BitVec 8
deriving DecidableEq, Repr

/-- The word of the fields, most significant first (R13). -/
def Fields.word (f : Fields) : Word96 :=
  f.yield ++ f.wait ++ f.tag ++ f.look ++ f.gen ++ f.gneg ++ f.greg ++ f.gbit ++ f.x ++ f.b ++ f.a ++ f.d ++ f.var ++ f.op

/-- The fields of a word (R13). -/
def fieldsOf (w : Word96) : Fields where
  yield := w.extractLsb' 95 1
  wait  := w.extractLsb' 88 7
  tag   := w.extractLsb' 85 3
  look  := w.extractLsb' 81 4
  gen   := w.extractLsb' 80 1
  gneg  := w.extractLsb' 79 1
  greg  := w.extractLsb' 73 6
  gbit  := w.extractLsb' 68 5
  x     := w.extractLsb' 39 29
  b     := w.extractLsb' 30 9
  a     := w.extractLsb' 21 9
  d     := w.extractLsb' 12 9
  var   := w.extractLsb' 8 4
  op    := w.extractLsb' 0 8

namespace Fields
/-! The register layout (R15). -/
def c (f : Fields) : BitVec 9 := f.x.extractLsb' 20 9
def cc (f : Fields) : BitVec 4 := f.x.extractLsb' 16 4
def rnd (f : Fields) : BitVec 3 := f.x.extractLsb' 13 3
def sat (f : Fields) : BitVec 1 := f.x.extractLsb' 12 1
def na (f : Fields) : BitVec 1 := f.x.extractLsb' 11 1
def nb (f : Fields) : BitVec 1 := f.x.extractLsb' 10 1
def smod (f : Fields) : BitVec 10 := f.x.extractLsb' 0 10
/-! The memory layout (R16). -/
def scope (f : Fields) : BitVec 3 := f.x.extractLsb' 17 3
def ord (f : Fields) : BitVec 2 := f.x.extractLsb' 15 2
def ch (f : Fields) : BitVec 2 := f.x.extractLsb' 13 2
def ben (f : Fields) : BitVec 1 := f.x.extractLsb' 12 1
def bidx (f : Fields) : BitVec 6 := f.x.extractLsb' 6 6
def mmod (f : Fields) : BitVec 6 := f.x.extractLsb' 0 6
/-! The matrix layout (R17). -/
def matRsv (f : Fields) : BitVec 20 := f.x.extractLsb' 0 20
/-! The immediate layout (R18). -/
def mod (f : Fields) : BitVec 6 := f.x.extractLsb' 23 6
def imm (f : Fields) : Word := f.x.extractLsb' 0 23 ++ f.b
end Fields

/-- X of the register layout (R15). -/
def xG (c : BitVec 9) (cc : BitVec 4) (rnd : BitVec 3) (sat na nb : Bool) (smod : BitVec 10) : BitVec 29 :=
  c ++ cc ++ rnd ++ BitVec.ofBool sat ++ BitVec.ofBool na ++ BitVec.ofBool nb ++ smod

/-- X of the memory layout (R16). -/
def xM (c : BitVec 9) (m : MemMods) (mmod : BitVec 6) : BitVec 29 :=
  c ++ m.scope ++ m.ord ++ m.ch ++ BitVec.ofBool m.bnd.isSome ++ m.bnd.getD 0 ++ mmod

/-- X of the immediate layout (R18), less the low bits of the immediate that stand in B. -/
def xI (mod : BitVec 6) (imm : Word) : BitVec 29 := mod ++ imm.extractLsb' 9 23

/-! ### Codes -/

/-- The field value of a register (R20). -/
def Reg.field : Reg → BitVec 9
  | .v k => BitVec.ofNat 9 k.val
  | .s k => BitVec.ofNat 9 (320 + k.val)
  | .m k => BitVec.ofNat 9 (448 + k.val)
  | .zero => 464 | .lid => 465 | .cid => 466 | .gid => 467 | .cvid => 468 | .cwid => 469 | .clk => 470

/-- The register of a field value (R20); a reserved value is caught before its register is used. -/
def Reg.ofField (f : BitVec 9) : Reg :=
  if h : f.toNat < 320 then .v ⟨f.toNat, h⟩
  else if h : f.toNat - 320 < 128 then .s ⟨f.toNat - 320, h⟩
  else if h : f.toNat - 448 < 16 then .m ⟨f.toNat - 448, h⟩
  else match f.toNat with
    | 465 => .lid | 466 => .cid | 467 => .gid | 468 => .cvid | 469 => .cwid | 470 => .clk
    | _ => .zero

def Ty.code : Ty → Nat
  | .i32 => 0 | .i64 => 1 | .n32 => 2 | .n64 => 3 | .f32 => 4 | .f16 => 5 | .bf16 => 6 | .bf16x2 => 7

def Ty.ofCode : Nat → Ty
  | 1 => .i64 | 2 => .n32 | 3 => .n64 | 4 => .f32 | 5 => .f16 | 6 => .bf16 | 7 => .bf16x2 | _ => .i32

def CC.code : CC → Nat
  | .eq => 0 | .ne => 1 | .lt => 2 | .le => 3 | .gt => 4 | .ge => 5 | .num => 6 | .nan => 7
  | .equ => 8 | .neu => 9 | .ltu => 10 | .leu => 11 | .gtu => 12 | .geu => 13

def CC.ofCode : Nat → CC
  | 1 => .ne | 2 => .lt | 3 => .le | 4 => .gt | 5 => .ge | 6 => .num | 7 => .nan
  | 8 => .equ | 9 => .neu | 10 => .ltu | 11 => .leu | 12 => .gtu | 13 => .geu | _ => .eq

def Rnd.code : Rnd → Nat
  | .rn => 0 | .rz => 1 | .ru => 2 | .rd => 3 | .ra => 4

def Rnd.ofCode : Nat → Rnd
  | 1 => .rz | 2 => .ru | 3 => .rd | 4 => .ra | _ => .rn

def PackTy.code : PackTy → Nat
  | .i16 => 0 | .n16 => 1 | .i8 => 2 | .n8 => 3 | .i4 => 4 | .n4 => 5

def PackTy.ofCode : Nat → PackTy
  | 1 => .n16 | 2 => .i8 | 3 => .n8 | 4 => .i4 | 5 => .n4 | _ => .i16

def RedOp.code : RedOp → Nat
  | .add => 0 | .min => 1 | .max => 2 | .and => 3 | .or => 4 | .xor => 5

def RedOp.ofCode : Nat → RedOp
  | 1 => .min | 2 => .max | 3 => .and | 4 => .or | 5 => .xor | _ => .add

def FindVar.code : FindVar → Nat
  | .eq => 0 | .rng => 1 | .last => 2

def FindVar.ofCode : Nat → FindVar
  | 1 => .rng | 2 => .last | _ => .eq

def MemTy.code : MemTy → Nat
  | .i32 => 0 | .i64 => 1 | .n32 => 2 | .n64 => 3 | .i8 => 8 | .n8 => 9 | .i16 => 10 | .n16 => 11 | .b128 => 12

def MemTy.ofCode : Nat → MemTy
  | 1 => .i64 | 2 => .n32 | 3 => .n64 | 8 => .i8 | 9 => .n8 | 10 => .i16 | 11 => .n16 | 12 => .b128 | _ => .i32

def AtomOp.code : AtomOp → Nat
  | .add => 0 | .min => 1 | .max => 2 | .and => 3 | .or => 4 | .xor => 5 | .exch => 6 | .cas => 7

def AtomOp.ofCode : Nat → AtomOp
  | 1 => .min | 2 => .max | 3 => .and | 4 => .or | 5 => .xor | 6 => .exch | 7 => .cas | _ => .add

def CasTy.code : CasTy → Nat
  | .b32 => 0 | .b64 => 1 | .b128 => 2

def CasTy.ofCode : Nat → CasTy
  | 1 => .b64 | 2 => .b128 | _ => .b32

def SatomTy.code : SatomTy → Nat
  | .i32 => 0 | .i64 => 1 | .n32 => 2 | .n64 => 3 | .b128 => 4

def SatomTy.ofCode : Nat → SatomTy
  | 1 => .i64 | 2 => .n32 | 3 => .n64 | 4 => .b128 | _ => .i32

def ClbOp.code : ClbOp → Nat
  | .arr => 0 | .wait => 1 | .aw => 2 | .test => 3

def ClbOp.ofCode : Nat → ClbOp
  | 1 => .wait | 2 => .aw | 3 => .test | _ => .arr

/-- The numbers of the status registers (R316). -/
def SReg.num : SReg → Nat
  | .cwid => 0x00 | .cpos => 0x01 | .clmap0 => 0x02 | .clmap1 => 0x03 | .clmap2 => 0x04 | .larg => 0x05 | .ctag => 0x06
  | .fpst => 0x10 | .mbusy0 => 0x11 | .mbusy1 => 0x12 | .mxst => 0x13
  | .tpc => 0x20 | .tcause => 0x21 | .tlanes0 => 0x22 | .tlanes1 => 0x23 | .taddr => 0x24 | .tem0 => 0x25 | .tem1 => 0x26
  | .tsd => 0x27 | .pdrem => 0x30
  | .ckcor => 0x40 | .ckrep => 0x41 | .ckfail => 0x42 | .rccor => 0x43 | .smcor => 0x44 | .tmrep => 0x45 | .tmwin => 0x46

def SReg.ofNum : Nat → Option SReg
  | 0x00 => some .cwid | 0x01 => some .cpos | 0x02 => some .clmap0 | 0x03 => some .clmap1 | 0x04 => some .clmap2
  | 0x05 => some .larg | 0x06 => some .ctag
  | 0x10 => some .fpst | 0x11 => some .mbusy0 | 0x12 => some .mbusy1 | 0x13 => some .mxst
  | 0x20 => some .tpc | 0x21 => some .tcause | 0x22 => some .tlanes0 | 0x23 => some .tlanes1 | 0x24 => some .taddr
  | 0x25 => some .tem0 | 0x26 => some .tem1 | 0x27 => some .tsd | 0x30 => some .pdrem
  | 0x40 => some .ckcor | 0x41 => some .ckrep | 0x42 => some .ckfail | 0x43 => some .rccor | 0x44 => some .smcor
  | 0x45 => some .tmrep | 0x46 => some .tmwin
  | _ => none

/-! ### The opcode map (R25) -/

inductive Layout where
  | g | m | x | i
deriving DecidableEq, Repr

/-- What a word of one opcode may hold before its operands are read: how many codes VAR, RND and CC take, which of the other subfields
are used, and which register fields are operands. A subfield that is not used must be zero (R15, R28). -/
structure Form where
  lay : Layout
  varN : Nat := 1
  rndN : Nat := 1
  ccN : Nat := 1
  sat : Bool := false
  na : Bool := false
  nb : Bool := false
  /-- SMOD, MMOD or MOD is below this. -/
  modN : Nat := 1
  /-- SCOPE, ORD, CH and BEN are used (R16). -/
  mem : Bool := false
  /-- IMM32 is below this. -/
  immN : Nat := 1
  /-- The values of VAR, RND and CC taken together are accepted. -/
  accept : Bool := true
  /-- The other subfields taken together are accepted. -/
  clean : Bool := true
  d : Bool := false
  a : Bool := false
  b : Bool := false
  c : Bool := false

/-- D and A. -/
def fDA (lay : Layout) : Form := { lay := lay, d := true, a := true }
/-- D, A and B. -/
def fDAB (lay : Layout) : Form := { lay := lay, d := true, a := true, b := true }
/-- D, A, B and C. -/
def fDABC (lay : Layout) : Form := { lay := lay, d := true, a := true, b := true, c := true }

/-- VAR of LDS to STSC (R159). -/
def memVarOk (v : Nat) : Bool := decide (v < 4) || (decide (8 ≤ v) && decide (v ≤ 12))

def loadForm (f : Fields) (modN : Nat) : Form :=
  { fDAB .m with varN := 16, accept := memVarOk f.var.toNat, modN := modN, mem := true }

def storeForm (f : Fields) (modN : Nat) : Form :=
  { lay := .m, a := true, b := true, c := true, varN := 16, accept := memVarOk f.var.toNat, modN := modN, mem := true }

/-- The opcode map: first and last code, and the form of the words of those codes. -/
def forms (f : Fields) : List (Nat × Nat × Form) := [
  (0x01, 0x0E, { fDAB .g with varN := 4 }),
  (0x0F, 0x0F, { fDAB .g with varN := 4, ccN := 6 }),
  (0x10, 0x10, { fDABC .g with varN := 4 }),
  (0x11, 0x11, { fDA .g with varN := 4 }),
  (0x12, 0x12, { lay := .i, d := true, varN := 4, accept := (f.var == 1 || f.var == 3), immN := 2 ^ 32 }),
  (0x13, 0x13, { lay := .i, d := true, immN := 2 ^ 32 }),
  (0x14, 0x15, { fDA .g with varN := 4 }),
  (0x16, 0x17, { fDAB .g with varN := 4 }),
  (0x18, 0x18, { fDAB .g with modN := 8 }),
  (0x20, 0x20, { lay := .i, immN := 2 ^ 32 }),
  (0x21, 0x21, { lay := .i, a := true, varN := 4, modN := 64, immN := 2 ^ 32, accept := decide (f.mod.toNat % 16 < 6), clean := decide (f.mod.toNat < 16) }),
  (0x22, 0x22, { lay := .g, a := true }),
  (0x23, 0x23, { lay := .i, a := true, immN := 2 ^ 32 }),
  (0x24, 0x24, { lay := .g }),
  (0x25, 0x25, { lay := .i, immN := 2 ^ 32 }),
  (0x26, 0x2A, { lay := .g }),
  (0x30, 0x33, fDAB .g),
  (0x34, 0x37, fDA .g),
  (0x38, 0x38, { lay := .g, a := true }),
  (0x39, 0x39, { lay := .g, d := true }),
  (0x3A, 0x3A, { lay := .g, d := true, a := f.smod.toNat % 2 == 0, modN := 2 }),
  (0x3B, 0x3B, { lay := .g, d := f.smod.toNat % 2 == 0, a := true, modN := 2 }),
  (0x40, 0x43, { fDAB .g with varN := 4 }),
  (0x44, 0x44, { fDABC .g with varN := 4 }),
  (0x45, 0x4C, { fDAB .g with varN := 4 }),
  (0x4D, 0x50, { fDA .g with varN := 4 }),
  (0x51, 0x52, { fDAB .g with varN := 4 }),
  (0x53, 0x53, { fDABC .g with varN := 4 }),
  (0x54, 0x54, { fDA .g with varN := 4 }),
  (0x55, 0x56, { fDAB .g with varN := 4 }),
  (0x57, 0x57, { fDAB .g with varN := 4, ccN := 6 }),
  (0x58, 0x5A, { fDAB .g with varN := 8, rndN := 5, sat := true, na := true, nb := true }),
  (0x5B, 0x5B, { fDABC .g with varN := 8, rndN := 5, sat := true, na := true, nb := true }),
  (0x5C, 0x5D, { fDAB .g with varN := 8, na := true, nb := true }),
  (0x5E, 0x5F, { fDA .g with varN := 8, na := true }),
  (0x60, 0x60, { fDAB .g with varN := 8, ccN := 14, na := true, nb := true }),
  (0x61, 0x61, { fDA .g with varN := 8, na := true }),
  (0x62, 0x69, { fDA .g with varN := 8, na := true }),
  (0x6A, 0x6A, { fDA .g with varN := 8, rndN := 5, sat := true, modN := 16, accept := decide (f.smod.toNat % 16 < 8), b := f.var == 7 }),
  (0x6B, 0x6B, { fDA .g with varN := 6, modN := 8, b := decide (f.var.toNat < 2) }),
  (0x6C, 0x6C, { fDA .g with varN := 6, modN := 8 }),
  (0x70, 0x72, { fDAB .g with varN := 8, modN := 2 }),
  (0x73, 0x73, { fDA .g with varN := 8, rndN := 5, modN := 6 }),
  (0x74, 0x74, { fDA .g with varN := 8, rndN := 5, modN := 16, clean := decide (f.smod.toNat % 8 < 6) }),
  (0x75, 0x76, { fDAB .g with varN := 8 }),
  (0x78, 0x78, { fDAB .g with varN := 4, c := f.var == 2 }),
  (0x79, 0x79, { fDAB .g with varN := 2 }),
  (0x7A, 0x7A, { fDA .g with varN := 3, b := f.var == 0, modN := if f.var == 1 then 512 else 1 }),
  (0x7B, 0x7B, { fDABC .g with varN := 2 }),
  (0x7C, 0x7C, { fDABC .g with varN := 3 }),
  (0x7D, 0x7D, { fDA .g with varN := 2, b := f.var == 1 }),
  (0x7E, 0x7F, { fDA .g with modN := 512 }),
  (0x80, 0x82, fDA .g),
  (0x83, 0x83, { fDABC .g with varN := 2 }),
  (0x88, 0x88, loadForm f 8),
  (0x89, 0x89, storeForm f 8),
  (0x8A, 0x8A, loadForm f 4),
  (0x8B, 0x8B, storeForm f 4),
  (0x8C, 0x8C, loadForm f 4),
  (0x8D, 0x8D, storeForm f 4),
  (0x8E, 0x8E, loadForm f 4),
  (0x8F, 0x8F, storeForm f 4),
  (0x90, 0x91, { fDAB .m with modN := 2, mem := true }),
  (0x92, 0x92, { lay := .m, a := true, b := true, c := true, mem := true }),
  (0x93, 0x93, { lay := .m, a := true, b := true, modN := 8, mem := true }),
  (0x94, 0x94, { lay := .m, a := true }),
  (0x95, 0x95, { lay := .m, mem := true, clean := f.ch == 0 && f.ben == 0 }),
  (0x96, 0x96, { fDABC .m with varN := 4, modN := 64, mem := true }),
  (0x97, 0x97, { fDABC .m with varN := 3, modN := 8, mem := true }),
  (0x98, 0x98, { fDABC .m with modN := 8, mem := true }),
  (0x99, 0x99, { fDABC .m with varN := 4, modN := 64, mem := true }),
  (0x9A, 0x9A, { fDAB .m with varN := 2, modN := 8, mem := true, c := f.var == 0 }),
  (0x9B, 0x9B, { fDABC .m with varN := 5, modN := 16, mem := true }),
  (0xA0, 0xA0, { fDA .i with modN := 8, immN := 2 ^ 32, clean := decide (f.mod.toNat % 8 / 4 = 0) || f.mod.toNat % 4 != 2 }),
  (0xA1, 0xA1, { fDA .i with immN := 2 ^ 32 }),
  (0xA2, 0xA2, { fDA .i with modN := 2, immN := 2 ^ 11 }),
  (0xA3, 0xA3, { fDA .i with immN := 2 ^ 32 }),
  (0xA4, 0xA4, { fDA .i with modN := 2, immN := 2 ^ 11 }),
  (0xA5, 0xA6, { fDA .i with immN := 2 ^ 11 }),
  (0xA7, 0xA7, { fDA .i with modN := 64, immN := 2 ^ 32, clean := f.mod.toNat / 8 % 2 == 0 }),
  (0xA8, 0xA8, if f.smod.toNat % 2 = 1 then { lay := .g, a := true, b := true, modN := 64 } else { lay := .g, a := true }),
  (0xA9, 0xA9, match f.smod.toNat % 4 with
    | 0 => { fDA .g with modN := 4 }
    | 1 => { fDA .g with modN := 8 }
    | 2 => { lay := .g, d := true, modN := 4 }
    | _ => { lay := .g, clean := false }),
  (0xAA, 0xAC, fDABC .x),
  (0xAD, 0xAD, { fDAB .g with modN := 4 }),
  (0xAE, 0xAE, { lay := .g, a := true }),
  (0xAF, 0xB0, fDA .g),
  (0xB1, 0xB1, { lay := .g, a := true, b := true, c := true, modN := 16 }),
  (0xB2, 0xB2, fDA .g),
  (0xB8, 0xB8, fDAB .g),
  (0xB9, 0xBA, fDA .g),
  (0xBB, 0xBB, fDAB .g),
  (0xC0, 0xC0, { lay := .i, immN := 2 ^ 32 }),
  (0xC1, 0xC1, { lay := .g, varN := 3, a := f.var == 2 }),
  (0xC2, 0xC2, { lay := .g, d := true, modN := 1024, clean := (SReg.ofNum f.smod.toNat).isSome }),
  (0xC3, 0xC3, { lay := .g, a := true, modN := 1024, clean := (SReg.ofNum f.smod.toNat).isSome }),
  (0xC4, 0xC5, { lay := .g, d := true }),
  (0xC6, 0xC6, { lay := .g, a := true, b := true, modN := 3 })]

/-- The form of a word; none for a reserved opcode (R28, reason 1). -/
def Fields.form (f : Fields) : Option Form :=
  ((forms f).find? fun r => decide (r.1 ≤ f.op.toNat) && decide (f.op.toNat ≤ r.2.1)).map fun r => r.2.2

/-- R28 reason 2 on the raw fields. -/
def Form.acceptOk (m : Form) (f : Fields) : Bool :=
  decide (f.var.toNat < m.varN) && m.accept &&
    match m.lay with
    | .g => decide (f.rnd.toNat < m.rndN) && decide (f.cc.toNat < m.ccN)
    | _ => true

/-- R28 reason 3 on the raw fields: what is not used is zero. -/
def Form.cleanOk (m : Form) (f : Fields) : Bool :=
  m.clean && (m.d || f.d == 0) && (m.a || f.a == 0) && (f.gen == 1 || (f.gneg == 0 && f.greg == 0 && f.gbit == 0)) &&
    match m.lay with
    | .g => (m.b || f.b == 0) && (m.c || f.c == 0) && (m.sat || f.sat == 0) && (m.na || f.na == 0) && (m.nb || f.nb == 0) &&
        decide (f.smod.toNat < m.modN)
    | .m => (m.b || f.b == 0) && (m.c || f.c == 0) && decide (f.mmod.toNat < m.modN) && (f.ben == 1 || f.bidx == 0) &&
        (m.mem || (f.scope == 0 && f.ord == 0 && f.ch == 0 && f.ben == 0))
    | .x => (m.b || f.b == 0) && (m.c || f.c == 0) && f.matRsv == 0
    | .i => decide (f.mod.toNat < m.modN) && decide (f.imm.toNat < m.immN)

/-- R28 reason 4: a used register field holds a reserved value. -/
def Form.regsOk (m : Form) (f : Fields) : Bool :=
  let ok (used : Bool) (r : BitVec 9) : Bool := !used || decide (r.toNat < 471)
  ok m.d f.d && ok m.a f.a && ok m.b f.b && ok m.c f.c

/-! ### From fields to operands -/

namespace Fields
def hdr (f : Fields) : Hdr where
  yield := f.yield == 1
  wait := f.wait
  tag := f.tag
  look := f.look
  guard := if f.gen == 1 then some { neg := f.gneg == 1, reg := f.greg, bit := f.gbit } else none

def rd (f : Fields) : Reg := Reg.ofField f.d
def ra (f : Fields) : Reg := Reg.ofField f.a
def rb (f : Fields) : Reg := Reg.ofField f.b
def rc (f : Fields) : Reg := Reg.ofField f.c
def ty (f : Fields) : Ty := Ty.ofCode f.var.toNat
def rmode (f : Fields) : Rnd := Rnd.ofCode f.rnd.toNat
def cond (f : Fields) : CC := CC.ofCode f.cc.toNat

def mm (f : Fields) : MemMods where
  scope := f.scope
  ord := f.ord
  ch := f.ch
  bnd := if f.ben == 1 then some f.bidx else none

def un (f : Fields) : Un := ⟨f.ty, f.rd, f.ra⟩
def bin (f : Fields) : Bin := ⟨f.ty, f.rd, f.ra, f.rb⟩
def tern (f : Fields) : Tern := ⟨f.ty, f.rd, f.ra, f.rb, f.rc⟩
def cmp (f : Fields) : Cmp := ⟨f.cond, f.ty, f.rd, f.ra, f.rb⟩
def da (f : Fields) : DA := ⟨f.rd, f.ra⟩
def dab (f : Fields) : DAB := ⟨f.rd, f.ra, f.rb⟩
def fbin (f : Fields) : FBin := ⟨f.ty, f.rmode, f.sat == 1, f.na == 1, f.nb == 1, f.rd, f.ra, f.rb⟩
def ftern (f : Fields) : FTern := ⟨f.ty, f.rmode, f.sat == 1, f.na == 1, f.nb == 1, f.rd, f.ra, f.rb, f.rc⟩
def fun1 (f : Fields) : FUn := ⟨f.ty, f.na == 1, f.rd, f.ra⟩
def fcmp (f : Fields) : FCmp := ⟨f.cond, f.ty, f.na == 1, f.nb == 1, f.rd, f.ra, f.rb⟩
def cvt (f : Fields) : Cvt :=
  ⟨f.ty, Ty.ofCode (f.smod.toNat % 16), f.rmode, f.sat == 1, f.rd, f.ra, if f.var == 7 then some f.rb else none⟩
def pack (f : Fields) : Pack :=
  ⟨PackTy.ofCode f.var.toNat, f.rd, f.ra, if f.var.toNat < 2 then some f.rb else none, f.smod.extractLsb' 0 3⟩
def unpk (f : Fields) : Unpk := ⟨PackTy.ofCode f.var.toNat, f.rd, f.ra, f.smod.extractLsb' 0 3⟩
def shfl (f : Fields) : Shfl := ⟨f.ty, f.smod.getLsbD 0, f.rd, f.ra, f.rb⟩
def red (f : Fields) : Red := ⟨f.ty, f.rmode, RedOp.ofCode (f.smod.toNat % 8), f.rd, f.ra⟩
def scan (f : Fields) : Scan := ⟨f.ty, f.rmode, RedOp.ofCode (f.smod.toNat % 8), f.smod.getLsbD 3, f.rd, f.ra⟩
def hash32 (f : Fields) : Hash32 :=
  ⟨match f.var.toNat with | 0 => .k32 | 1 => .k64 | 2 => .abs f.rc | _ => .fin, f.rd, f.ra, f.rb⟩
def hash64 (f : Fields) : Hash64 := ⟨f.var == 1, f.rd, f.ra, f.rb⟩
def part (f : Fields) : Part :=
  ⟨match f.var.toNat with
    | 0 => .mul f.rb | 1 => .radix (f.smod.extractLsb' 0 5) (f.smod.extractLsb' 5 4) | _ => .id, f.rd, f.ra⟩
def strCmp (f : Fields) : StrCmp := ⟨f.var == 1, f.rd, f.ra, f.rb, f.rc⟩
def strFnd (f : Fields) : StrFnd := ⟨FindVar.ofCode f.var.toNat, f.rd, f.ra, f.rb, f.rc⟩
def strLen (f : Fields) : StrLen := ⟨f.rd, f.ra, if f.var == 1 then some f.rb else none⟩
def qnt (f : Fields) : Qnt := ⟨f.smod.extractLsb' 0 5, f.smod.extractLsb' 5 2, f.smod.extractLsb' 7 2, f.rd, f.ra⟩
def rng (f : Fields) : Rng := ⟨f.var == 1, f.rd, f.ra, f.rb, f.rc⟩
def memVec (f : Fields) (r : Reg) : MemVec :=
  ⟨MemTy.ofCode f.var.toNat, f.mmod.extractLsb' 0 2, f.mmod.getLsbD 2, r, f.ra, f.rb, f.mm⟩
def memPtr (f : Fields) (r : Reg) : MemPtr := ⟨MemTy.ofCode f.var.toNat, f.mmod.extractLsb' 0 2, r, f.ra, f.rb, f.mm⟩
def barName (f : Fields) : BitVec 11 := f.imm.extractLsb' 0 11
def barCount (f : Fields) : BitVec 21 := f.imm.extractLsb' 11 21
def barC (f : Fields) : BarCount := ⟨f.rd, f.ra, f.barName, f.barCount⟩
def barP (f : Fields) : BarPh := ⟨f.mod.getLsbD 0, f.rd, f.ra, f.barName⟩
def barN (f : Fields) : BarName := ⟨f.rd, f.ra, f.barName⟩
def mat (f : Fields) : Mat := ⟨f.rd, f.ra, f.rb, f.rc⟩
def sreg (f : Fields) : SReg := (SReg.ofNum f.smod.toNat).getD .cwid
end Fields

/-- The instruction of a word whose form has been checked (R25). -/
def Fields.instr (f : Fields) : Instr :=
  let h := f.hdr
  match f.op.toNat with
  | 0x01 => .sadd h f.bin
  | 0x02 => .ssub h f.bin
  | 0x03 => .smul h f.bin
  | 0x04 => .smulh h f.bin
  | 0x05 => .sdiv h f.bin
  | 0x06 => .srem h f.bin
  | 0x07 => .sand h f.bin
  | 0x08 => .sor h f.bin
  | 0x09 => .sxor h f.bin
  | 0x0A => .sshl h f.bin
  | 0x0B => .sshr h f.bin
  | 0x0C => .ssra h f.bin
  | 0x0D => .smin h f.bin
  | 0x0E => .smax h f.bin
  | 0x0F => .scmp h f.cmp
  | 0x10 => .ssel h f.tern
  | 0x11 => .smov h f.un
  | 0x12 => .smovi h ⟨f.var == 1, f.rd, f.imm⟩
  | 0x13 => .smovh h ⟨f.rd, f.imm⟩
  | 0x14 => .sclz h f.un
  | 0x15 => .spopc h f.un
  | 0x16 => .sbfx h f.bin
  | 0x17 => .sbfi h f.bin
  | 0x18 => .slea h ⟨f.rd, f.ra, f.rb, f.smod.extractLsb' 0 3⟩
  | 0x20 => .bra h ⟨f.imm⟩
  | 0x21 => .bru h ⟨CC.ofCode (f.mod.toNat % 16), f.ty, f.ra, f.imm⟩
  | 0x22 => .brx h ⟨f.ra⟩
  | 0x23 => .brv h ⟨f.ra, f.imm.extractLsb' 16 16, f.imm.extractLsb' 0 16⟩
  | 0x24 => .join h
  | 0x25 => .call h ⟨f.imm⟩
  | 0x26 => .ret h
  | 0x27 => .exit h
  | 0x28 => .yld h
  | 0x29 => .nop h
  | 0x2A => .waitc h
  | 0x30 => .mand h f.dab
  | 0x31 => .mor h f.dab
  | 0x32 => .mxor h f.dab
  | 0x33 => .mandn h f.dab
  | 0x34 => .mnot h f.da
  | 0x35 => .mmov h f.da
  | 0x36 => .mpopc h f.da
  | 0x37 => .mffs h f.da
  | 0x38 => .msetem h ⟨f.ra⟩
  | 0x39 => .mgetem h ⟨f.rd⟩
  | 0x3A => .msave h ⟨f.rd, if f.smod.getLsbD 0 then none else some f.ra⟩
  | 0x3B => .mrest h ⟨if f.smod.getLsbD 0 then none else some f.rd, f.ra⟩
  | 0x40 => .vadd h f.bin
  | 0x41 => .vsub h f.bin
  | 0x42 => .vmul h f.bin
  | 0x43 => .vmulh h f.bin
  | 0x44 => .vmad h f.tern
  | 0x45 => .vmin h f.bin
  | 0x46 => .vmax h f.bin
  | 0x47 => .vand h f.bin
  | 0x48 => .vor h f.bin
  | 0x49 => .vxor h f.bin
  | 0x4A => .vshl h f.bin
  | 0x4B => .vshr h f.bin
  | 0x4C => .vsra h f.bin
  | 0x4D => .vabs h f.un
  | 0x4E => .vneg h f.un
  | 0x4F => .vclz h f.un
  | 0x50 => .vpopc h f.un
  | 0x51 => .vaddsat h f.bin
  | 0x52 => .vsubsat h f.bin
  | 0x53 => .vsel h f.tern
  | 0x54 => .vmov h f.un
  | 0x55 => .vbcast h f.bin
  | 0x56 => .vbfx h f.bin
  | 0x57 => .vcmp h f.cmp
  | 0x58 => .vfadd h f.fbin
  | 0x59 => .vfsub h f.fbin
  | 0x5A => .vfmul h f.fbin
  | 0x5B => .vfma h f.ftern
  | 0x5C => .vfmin h f.fbin
  | 0x5D => .vfmax h f.fbin
  | 0x5E => .vfabs h f.fun1
  | 0x5F => .vfneg h f.fun1
  | 0x60 => .vfcmp h f.fcmp
  | 0x61 => .vfclass h f.fun1
  | 0x62 => .vrcp h f.fun1
  | 0x63 => .vrsq h f.fun1
  | 0x64 => .vsqrt h f.fun1
  | 0x65 => .vex2 h f.fun1
  | 0x66 => .vlg2 h f.fun1
  | 0x67 => .vsin h f.fun1
  | 0x68 => .vcos h f.fun1
  | 0x69 => .vtanh h f.fun1
  | 0x6A => .vcvt h f.cvt
  | 0x6B => .vpack h f.pack
  | 0x6C => .vunpk h f.unpk
  | 0x70 => .vshfl h f.shfl
  | 0x71 => .vshflx h f.shfl
  | 0x72 => .vrot h f.shfl
  | 0x73 => .vred h f.red
  | 0x74 => .vscan h f.scan
  | 0x75 => .vextr h f.bin
  | 0x76 => .vins h f.bin
  | 0x78 => .xhash32 h f.hash32
  | 0x79 => .xhash64 h f.hash64
  | 0x7A => .xpart h f.part
  | 0x7B => .xstrcmp h f.strCmp
  | 0x7C => .xstrfnd h f.strFnd
  | 0x7D => .xstrlen h f.strLen
  | 0x7E => .xqnt h f.qnt
  | 0x7F => .xdqnt h f.qnt
  | 0x80 => .xcbdec h f.da
  | 0x81 => .xbdipk h f.da
  | 0x82 => .xbdiup h f.da
  | 0x83 => .xrng h f.rng
  | 0x88 => .lds h (f.memVec f.rd)
  | 0x89 => .sts h (f.memVec f.rc)
  | 0x8A => .ldg h (f.memVec f.rd)
  | 0x8B => .stg h (f.memVec f.rc)
  | 0x8C => .ldx h (f.memPtr f.rd)
  | 0x8D => .stx h (f.memPtr f.rc)
  | 0x8E => .ldsc h (f.memPtr f.rd)
  | 0x8F => .stsc h (f.memPtr f.rc)
  | 0x90 => .tldm h ⟨f.mmod.getLsbD 0, f.rd, f.ra, f.rb, f.mm⟩
  | 0x91 => .tstm h ⟨f.mmod.getLsbD 0, f.rd, f.ra, f.rb, f.mm⟩
  | 0x92 => .tstp h ⟨f.ra, f.rb, f.rc, f.mm⟩
  | 0x93 => .pref h ⟨f.mmod.getLsbD 2, f.mmod.extractLsb' 0 2, f.ra, f.rb, f.mm⟩
  | 0x94 => .cways h ⟨f.ra⟩
  | 0x95 => .fence h ⟨f.scope, f.ord⟩
  | 0x96 => .atom h ⟨f.ty, AtomOp.ofCode (f.mmod.toNat % 8), f.mmod.extractLsb' 3 2, f.mmod.getLsbD 5, f.rd, f.ra, f.rb, f.rc, f.mm⟩
  | 0x97 => .atomCas h ⟨CasTy.ofCode f.var.toNat, f.mmod.extractLsb' 0 2, f.mmod.getLsbD 2, f.rd, f.ra, f.rb, f.rc, f.mm⟩
  | 0x98 => .atomFadd h ⟨f.mmod.extractLsb' 0 2, f.mmod.getLsbD 2, f.rd, f.ra, f.rb, f.rc, f.mm⟩
  | 0x99 => .atomFxadd h ⟨f.mmod, f.var.getLsbD 1, f.var.getLsbD 0, f.rd, f.ra, f.rb, f.rc, f.mm⟩
  | 0x9A => .atomFmaxr h ⟨if f.var == 0 then some f.rc else none, f.mmod.extractLsb' 0 2, f.mmod.getLsbD 2, f.rd, f.ra, f.rb, f.mm⟩
  | 0x9B => .satom h ⟨SatomTy.ofCode f.var.toNat, AtomOp.ofCode (f.mmod.toNat % 8), f.mmod.getLsbD 3, f.rd, f.ra, f.rb, f.rc, f.mm⟩
  | 0xA0 => .bari h ⟨f.mod.extractLsb' 0 2, f.mod.getLsbD 2, f.rd, f.ra, f.barName, f.barCount⟩
  | 0xA1 => .bara h f.barC
  | 0xA2 => .barw h f.barP
  | 0xA3 => .baraw h f.barC
  | 0xA4 => .bart h f.barP
  | 0xA5 => .barx h f.barN
  | 0xA6 => .barq h f.barN
  | 0xA7 => .clb h ⟨ClbOp.ofCode (f.mod.toNat % 4), f.mod.getLsbD 2, f.mod.extractLsb' 4 2, f.rd, f.ra, f.barName, f.barCount⟩
  | 0xA8 => if f.smod.getLsbD 0 then .armodeReef h ⟨f.smod.extractLsb' 1 5, f.ra, f.rb⟩ else .armodeUnreef h ⟨f.ra⟩
  | 0xA9 =>
    match f.smod.toNat % 4 with
    | 0 => .arqState h f.da
    | 1 => .arqSlot h ⟨f.smod.getLsbD 2, f.rd, f.ra⟩
    | _ => .arqHeld h ⟨f.rd⟩
  | 0xAA => .mma h f.mat
  | 0xAB => .mmag h f.mat
  | 0xAC => .mmad h f.mat
  | 0xAD => .tdecl h ⟨f.smod.getLsbD 0, f.smod.getLsbD 1, f.rd, f.ra, f.rb⟩
  | 0xAE => .tfree h ⟨f.ra⟩
  | 0xAF => .tchk h f.da
  | 0xB0 => .tfix h f.da
  | 0xB1 => .bndset h ⟨f.smod.extractLsb' 0 2, f.smod.extractLsb' 2 2, f.ra, f.rb, f.rc⟩
  | 0xB2 => .bndclr h f.da
  | 0xB8 => .chain h f.dab
  | 0xB9 => .chq h f.da
  | 0xBA => .chstop h f.da
  | 0xBB => .launch h f.dab
  | 0xC0 => .trap h ⟨f.imm⟩
  | 0xC1 => .tret h (match f.var.toNat with | 0 => .retry | 1 => .skip | _ => .jump f.ra)
  | 0xC2 => .getsr h ⟨f.rd, f.sreg⟩
  | 0xC3 => .setsr h ⟨f.sreg, f.ra⟩
  | 0xC4 => .preen h ⟨f.rd⟩
  | 0xC5 => .predis h ⟨f.rd⟩
  | 0xC6 =>
    match f.smod.toNat % 4 with
    | 0 => .errinjCell h ⟨f.ra, f.rb⟩
    | 1 => .errinjPass h ⟨f.ra, f.rb⟩
    | _ => .errinjRcl h ⟨f.ra, f.rb⟩
  | _ => .nop h

/-- Decoding a word (R28): the instruction, or the lowest reason the word alone gives. -/
def decodeWord (w : Word96) : Except Nat Instr :=
  let f := fieldsOf w
  match f.form with
  | none => .error 1
  | some m =>
    let i := f.instr
    if !(m.acceptOk f && i.acceptOk) then .error 2
    else if !(m.cleanOk f && i.cleanOk) then .error 3
    else if !m.regsOk f then .error 4
    else match i.shapeReason with
      | some r => .error r
      | none => .ok i

/-! ### The encoder (R13 to R18) -/

/-- The field value of an operand a form may leave out (R381). -/
def optField : Option Reg → BitVec 9
  | none => 0
  | some r => r.field

/-- The fields of a word with hints `h`. -/
def encFields (op : Nat) (h : Hdr) (var : Nat) (d a b : BitVec 9) (x : BitVec 29) : Fields where
  yield := BitVec.ofBool h.yield
  wait := h.wait
  tag := h.tag
  look := h.look
  gen := BitVec.ofBool h.guard.isSome
  gneg := BitVec.ofBool ((h.guard.map (·.neg)).getD false)
  greg := (h.guard.map (·.reg)).getD 0
  gbit := (h.guard.map (·.bit)).getD 0
  x := x
  b := b
  a := a
  d := d
  var := BitVec.ofNat 4 var
  op := BitVec.ofNat 8 op

/-- A word of the register or matrix layout. -/
def encG (op : Nat) (h : Hdr) (var : Nat) (d a b : BitVec 9) (x : BitVec 29) : Fields := encFields op h var d a b x

/-- A word of the memory layout. -/
def encM (op : Nat) (h : Hdr) (var : Nat) (d a b c : BitVec 9) (m : MemMods) (mmod : BitVec 6) : Fields :=
  encFields op h var d a b (xM c m mmod)

/-- A word of the immediate layout. -/
def encI (op : Nat) (h : Hdr) (var : Nat) (d a : BitVec 9) (mod : BitVec 6) (imm : Word) : Fields :=
  encFields op h var d a (imm.extractLsb' 0 9) (xI mod imm)

/-- The fields of an instruction; an event row has no word. -/
def Instr.fields : Instr → Option Fields
  | .sadd h o => some (encG 0x01 h o.ty.code o.d.field o.a.field o.b.field 0)
  | .ssub h o => some (encG 0x02 h o.ty.code o.d.field o.a.field o.b.field 0)
  | .smul h o => some (encG 0x03 h o.ty.code o.d.field o.a.field o.b.field 0)
  | .smulh h o => some (encG 0x04 h o.ty.code o.d.field o.a.field o.b.field 0)
  | .sdiv h o => some (encG 0x05 h o.ty.code o.d.field o.a.field o.b.field 0)
  | .srem h o => some (encG 0x06 h o.ty.code o.d.field o.a.field o.b.field 0)
  | .sand h o => some (encG 0x07 h o.ty.code o.d.field o.a.field o.b.field 0)
  | .sor h o => some (encG 0x08 h o.ty.code o.d.field o.a.field o.b.field 0)
  | .sxor h o => some (encG 0x09 h o.ty.code o.d.field o.a.field o.b.field 0)
  | .sshl h o => some (encG 0x0A h o.ty.code o.d.field o.a.field o.b.field 0)
  | .sshr h o => some (encG 0x0B h o.ty.code o.d.field o.a.field o.b.field 0)
  | .ssra h o => some (encG 0x0C h o.ty.code o.d.field o.a.field o.b.field 0)
  | .smin h o => some (encG 0x0D h o.ty.code o.d.field o.a.field o.b.field 0)
  | .smax h o => some (encG 0x0E h o.ty.code o.d.field o.a.field o.b.field 0)
  | .scmp h o => some (encG 0x0F h o.ty.code o.d.field o.a.field o.b.field (xG 0 (BitVec.ofNat 4 o.cc.code) 0 false false false 0))
  | .ssel h o => some (encG 0x10 h o.ty.code o.d.field o.a.field o.b.field (xG o.c.field 0 0 false false false 0))
  | .smov h o => some (encG 0x11 h o.ty.code o.d.field o.a.field 0 0)
  | .smovi h o => some (encI 0x12 h (if o.sx then 1 else 3) o.d.field 0 0 o.imm)
  | .smovh h o => some (encI 0x13 h 0 o.d.field 0 0 o.imm)
  | .sclz h o => some (encG 0x14 h o.ty.code o.d.field o.a.field 0 0)
  | .spopc h o => some (encG 0x15 h o.ty.code o.d.field o.a.field 0 0)
  | .sbfx h o => some (encG 0x16 h o.ty.code o.d.field o.a.field o.b.field 0)
  | .sbfi h o => some (encG 0x17 h o.ty.code o.d.field o.a.field o.b.field 0)
  | .slea h o => some (encG 0x18 h 0 o.d.field o.a.field o.b.field (xG 0 0 0 false false false (0#7 ++ o.sh)))
  | .bra h o => some (encI 0x20 h 0 0 0 0 o.imm)
  | .bru h o => some (encI 0x21 h o.ty.code 0 o.a.field (BitVec.ofNat 6 o.cc.code) o.imm)
  | .brx h o => some (encG 0x22 h 0 0 o.a.field 0 0)
  | .brv h o => some (encI 0x23 h 0 0 o.a.field 0 (o.tgt ++ o.rc))
  | .join h => some (encG 0x24 h 0 0 0 0 0)
  | .call h o => some (encI 0x25 h 0 0 0 0 o.imm)
  | .ret h => some (encG 0x26 h 0 0 0 0 0)
  | .exit h => some (encG 0x27 h 0 0 0 0 0)
  | .yld h => some (encG 0x28 h 0 0 0 0 0)
  | .nop h => some (encG 0x29 h 0 0 0 0 0)
  | .waitc h => some (encG 0x2A h 0 0 0 0 0)
  | .mand h o => some (encG 0x30 h 0 o.d.field o.a.field o.b.field 0)
  | .mor h o => some (encG 0x31 h 0 o.d.field o.a.field o.b.field 0)
  | .mxor h o => some (encG 0x32 h 0 o.d.field o.a.field o.b.field 0)
  | .mandn h o => some (encG 0x33 h 0 o.d.field o.a.field o.b.field 0)
  | .mnot h o => some (encG 0x34 h 0 o.d.field o.a.field 0 0)
  | .mmov h o => some (encG 0x35 h 0 o.d.field o.a.field 0 0)
  | .mpopc h o => some (encG 0x36 h 0 o.d.field o.a.field 0 0)
  | .mffs h o => some (encG 0x37 h 0 o.d.field o.a.field 0 0)
  | .msetem h o => some (encG 0x38 h 0 0 o.a.field 0 0)
  | .mgetem h o => some (encG 0x39 h 0 o.d.field 0 0 0)
  | .msave h o => some (encG 0x3A h 0 o.d.field (optField o.a) 0 (xG 0 0 0 false false false (if o.a.isNone then 1 else 0)))
  | .mrest h o => some (encG 0x3B h 0 (optField o.d) o.a.field 0 (xG 0 0 0 false false false (if o.d.isNone then 1 else 0)))
  | .vadd h o => some (encG 0x40 h o.ty.code o.d.field o.a.field o.b.field 0)
  | .vsub h o => some (encG 0x41 h o.ty.code o.d.field o.a.field o.b.field 0)
  | .vmul h o => some (encG 0x42 h o.ty.code o.d.field o.a.field o.b.field 0)
  | .vmulh h o => some (encG 0x43 h o.ty.code o.d.field o.a.field o.b.field 0)
  | .vmad h o => some (encG 0x44 h o.ty.code o.d.field o.a.field o.b.field (xG o.c.field 0 0 false false false 0))
  | .vmin h o => some (encG 0x45 h o.ty.code o.d.field o.a.field o.b.field 0)
  | .vmax h o => some (encG 0x46 h o.ty.code o.d.field o.a.field o.b.field 0)
  | .vand h o => some (encG 0x47 h o.ty.code o.d.field o.a.field o.b.field 0)
  | .vor h o => some (encG 0x48 h o.ty.code o.d.field o.a.field o.b.field 0)
  | .vxor h o => some (encG 0x49 h o.ty.code o.d.field o.a.field o.b.field 0)
  | .vshl h o => some (encG 0x4A h o.ty.code o.d.field o.a.field o.b.field 0)
  | .vshr h o => some (encG 0x4B h o.ty.code o.d.field o.a.field o.b.field 0)
  | .vsra h o => some (encG 0x4C h o.ty.code o.d.field o.a.field o.b.field 0)
  | .vabs h o => some (encG 0x4D h o.ty.code o.d.field o.a.field 0 0)
  | .vneg h o => some (encG 0x4E h o.ty.code o.d.field o.a.field 0 0)
  | .vclz h o => some (encG 0x4F h o.ty.code o.d.field o.a.field 0 0)
  | .vpopc h o => some (encG 0x50 h o.ty.code o.d.field o.a.field 0 0)
  | .vaddsat h o => some (encG 0x51 h o.ty.code o.d.field o.a.field o.b.field 0)
  | .vsubsat h o => some (encG 0x52 h o.ty.code o.d.field o.a.field o.b.field 0)
  | .vsel h o => some (encG 0x53 h o.ty.code o.d.field o.a.field o.b.field (xG o.c.field 0 0 false false false 0))
  | .vmov h o => some (encG 0x54 h o.ty.code o.d.field o.a.field 0 0)
  | .vbcast h o => some (encG 0x55 h o.ty.code o.d.field o.a.field o.b.field 0)
  | .vbfx h o => some (encG 0x56 h o.ty.code o.d.field o.a.field o.b.field 0)
  | .vcmp h o => some (encG 0x57 h o.ty.code o.d.field o.a.field o.b.field (xG 0 (BitVec.ofNat 4 o.cc.code) 0 false false false 0))
  | .vfadd h o => some (encG 0x58 h o.ty.code o.d.field o.a.field o.b.field (xG 0 0 (BitVec.ofNat 3 o.rnd.code) o.sat o.na o.nb 0))
  | .vfsub h o => some (encG 0x59 h o.ty.code o.d.field o.a.field o.b.field (xG 0 0 (BitVec.ofNat 3 o.rnd.code) o.sat o.na o.nb 0))
  | .vfmul h o => some (encG 0x5A h o.ty.code o.d.field o.a.field o.b.field (xG 0 0 (BitVec.ofNat 3 o.rnd.code) o.sat o.na o.nb 0))
  | .vfma h o => some (encG 0x5B h o.ty.code o.d.field o.a.field o.b.field (xG o.c.field 0 (BitVec.ofNat 3 o.rnd.code) o.sat o.na o.nb 0))
  | .vfmin h o => some (encG 0x5C h o.ty.code o.d.field o.a.field o.b.field (xG 0 0 (BitVec.ofNat 3 o.rnd.code) o.sat o.na o.nb 0))
  | .vfmax h o => some (encG 0x5D h o.ty.code o.d.field o.a.field o.b.field (xG 0 0 (BitVec.ofNat 3 o.rnd.code) o.sat o.na o.nb 0))
  | .vfabs h o => some (encG 0x5E h o.ty.code o.d.field o.a.field 0 (xG 0 0 0 false o.na false 0))
  | .vfneg h o => some (encG 0x5F h o.ty.code o.d.field o.a.field 0 (xG 0 0 0 false o.na false 0))
  | .vfcmp h o => some (encG 0x60 h o.ty.code o.d.field o.a.field o.b.field (xG 0 (BitVec.ofNat 4 o.cc.code) 0 false o.na o.nb 0))
  | .vfclass h o => some (encG 0x61 h o.ty.code o.d.field o.a.field 0 (xG 0 0 0 false o.na false 0))
  | .vrcp h o => some (encG 0x62 h o.ty.code o.d.field o.a.field 0 (xG 0 0 0 false o.na false 0))
  | .vrsq h o => some (encG 0x63 h o.ty.code o.d.field o.a.field 0 (xG 0 0 0 false o.na false 0))
  | .vsqrt h o => some (encG 0x64 h o.ty.code o.d.field o.a.field 0 (xG 0 0 0 false o.na false 0))
  | .vex2 h o => some (encG 0x65 h o.ty.code o.d.field o.a.field 0 (xG 0 0 0 false o.na false 0))
  | .vlg2 h o => some (encG 0x66 h o.ty.code o.d.field o.a.field 0 (xG 0 0 0 false o.na false 0))
  | .vsin h o => some (encG 0x67 h o.ty.code o.d.field o.a.field 0 (xG 0 0 0 false o.na false 0))
  | .vcos h o => some (encG 0x68 h o.ty.code o.d.field o.a.field 0 (xG 0 0 0 false o.na false 0))
  | .vtanh h o => some (encG 0x69 h o.ty.code o.d.field o.a.field 0 (xG 0 0 0 false o.na false 0))
  | .vcvt h o => some (encG 0x6A h o.dst.code o.d.field o.a.field (optField o.b) (xG 0 0 (BitVec.ofNat 3 o.rnd.code) o.sat false false (BitVec.ofNat 10 o.src.code)))
  | .vpack h o => some (encG 0x6B h o.ty.code o.d.field o.a.field (optField o.b) (xG 0 0 0 false false false (0#7 ++ o.pos)))
  | .vunpk h o => some (encG 0x6C h o.ty.code o.d.field o.a.field 0 (xG 0 0 0 false false false (0#7 ++ o.pos)))
  | .vshfl h o => some (encG 0x70 h o.ty.code o.d.field o.a.field o.b.field (xG 0 0 0 false false false (BitVec.ofNat 10 o.rel.toNat)))
  | .vshflx h o => some (encG 0x71 h o.ty.code o.d.field o.a.field o.b.field (xG 0 0 0 false false false (BitVec.ofNat 10 o.rel.toNat)))
  | .vrot h o => some (encG 0x72 h o.ty.code o.d.field o.a.field o.b.field (xG 0 0 0 false false false (BitVec.ofNat 10 o.rel.toNat)))
  | .vred h o => some (encG 0x73 h o.ty.code o.d.field o.a.field 0 (xG 0 0 (BitVec.ofNat 3 o.rnd.code) false false false (BitVec.ofNat 10 o.op.code)))
  | .vscan h o => some (encG 0x74 h o.ty.code o.d.field o.a.field 0 (xG 0 0 (BitVec.ofNat 3 o.rnd.code) false false false (BitVec.ofNat 10 (o.op.code + 8 * o.excl.toNat))))
  | .vextr h o => some (encG 0x75 h o.ty.code o.d.field o.a.field o.b.field 0)
  | .vins h o => some (encG 0x76 h o.ty.code o.d.field o.a.field o.b.field 0)
  | .xhash32 h o => some (encG 0x78 h (match o.var with | .k32 => 0 | .k64 => 1 | .abs _ => 2 | .fin => 3) o.d.field o.a.field o.b.field (xG (match o.var with | .abs c => c.field | _ => 0) 0 0 false false false 0))
  | .xhash64 h o => some (encG 0x79 h o.wide.toNat o.d.field o.a.field o.b.field 0)
  | .xpart h o => some <|
    match o.var with
    | .mul b => encG 0x7A h 0 o.d.field o.a.field b.field 0
    | .radix sh n => encG 0x7A h 1 o.d.field o.a.field 0 (xG 0 0 0 false false false (0#1 ++ n ++ sh))
    | .id => encG 0x7A h 2 o.d.field o.a.field 0 0
  | .xstrcmp h o => some (encG 0x7B h o.ci.toNat o.d.field o.a.field o.b.field (xG o.c.field 0 0 false false false 0))
  | .xstrfnd h o => some (encG 0x7C h o.var.code o.d.field o.a.field o.b.field (xG o.c.field 0 0 false false false 0))
  | .xstrlen h o => some (encG 0x7D h o.utf8.isSome.toNat o.d.field o.a.field (optField o.utf8) 0)
  | .xqnt h o => some (encG 0x7E h 0 o.d.field o.a.field 0 (xG 0 0 0 false false false (0#1 ++ o.bl ++ o.scf ++ o.fmt)))
  | .xdqnt h o => some (encG 0x7F h 0 o.d.field o.a.field 0 (xG 0 0 0 false false false (0#1 ++ o.bl ++ o.scf ++ o.fmt)))
  | .xcbdec h o => some (encG 0x80 h 0 o.d.field o.a.field 0 0)
  | .xbdipk h o => some (encG 0x81 h 0 o.d.field o.a.field 0 0)
  | .xbdiup h o => some (encG 0x82 h 0 o.d.field o.a.field 0 0)
  | .xrng h o => some (encG 0x83 h o.uf.toNat o.d.field o.a.field o.b.field (xG o.c.field 0 0 false false false 0))
  | .lds h o => some (encM 0x88 h o.ty.code o.r.field o.a.field o.b.field 0 o.mm (BitVec.ofBool false ++ 0#2 ++ BitVec.ofBool o.scr ++ o.sh))
  | .sts h o => some (encM 0x89 h o.ty.code 0 o.a.field o.b.field o.r.field o.mm (BitVec.ofBool false ++ 0#2 ++ BitVec.ofBool o.scr ++ o.sh))
  | .ldg h o => some (encM 0x8A h o.ty.code o.r.field o.a.field o.b.field 0 o.mm (BitVec.ofBool false ++ 0#2 ++ BitVec.ofBool o.scr ++ o.sh))
  | .stg h o => some (encM 0x8B h o.ty.code 0 o.a.field o.b.field o.r.field o.mm (BitVec.ofBool false ++ 0#2 ++ BitVec.ofBool o.scr ++ o.sh))
  | .ldx h o => some (encM 0x8C h o.ty.code o.r.field o.a.field o.b.field 0 o.mm (0#4 ++ o.space))
  | .stx h o => some (encM 0x8D h o.ty.code 0 o.a.field o.b.field o.r.field o.mm (0#4 ++ o.space))
  | .ldsc h o => some (encM 0x8E h o.ty.code o.r.field o.a.field o.b.field 0 o.mm (0#4 ++ o.space))
  | .stsc h o => some (encM 0x8F h o.ty.code 0 o.a.field o.b.field o.r.field o.mm (0#4 ++ o.space))
  | .tldm h o => some (encM 0x90 h 0 o.d.field o.a.field o.b.field 0 o.mm (BitVec.ofNat 6 o.cor.toNat))
  | .tstm h o => some (encM 0x91 h 0 o.d.field o.a.field o.b.field 0 o.mm (BitVec.ofNat 6 o.cor.toNat))
  | .tstp h o => some (encM 0x92 h 0 0 o.a.field o.b.field o.c.field o.mm 0)
  | .pref h o => some (encM 0x93 h 0 0 o.a.field o.b.field 0 o.mm (0#3 ++ BitVec.ofBool o.l2 ++ o.sh))
  | .cways h o => some (encM 0x94 h 0 0 o.a.field 0 0 ⟨0, 0, 0, none⟩ 0)
  | .fence h o => some (encM 0x95 h 0 0 0 0 0 ⟨o.scope, o.ord, 0, none⟩ 0)
  | .atom h o => some (encM 0x96 h o.ty.code o.d.field o.a.field o.b.field o.c.field o.mm (BitVec.ofBool o.win ++ o.sh ++ BitVec.ofNat 3 o.op.code))
  | .atomCas h o => some (encM 0x97 h o.ty.code o.d.field o.a.field o.b.field o.c.field o.mm (0#3 ++ BitVec.ofBool o.win ++ o.sh))
  | .atomFadd h o => some (encM 0x98 h 0 o.d.field o.a.field o.b.field o.c.field o.mm (0#3 ++ BitVec.ofBool o.win ++ o.sh))
  | .atomFxadd h o => some (encM 0x99 h (o.win.toNat + 2 * o.by8.toNat) o.d.field o.a.field o.b.field o.c.field o.mm o.p)
  | .atomFmaxr h o => some (encM 0x9A h o.upd.isNone.toNat o.d.field o.a.field o.b.field (optField o.upd) o.mm (0#3 ++ BitVec.ofBool o.win ++ o.sh))
  | .satom h o => some (encM 0x9B h o.ty.code o.d.field o.a.field o.b.field o.c.field o.mm (0#2 ++ BitVec.ofBool o.win ++ BitVec.ofNat 3 o.op.code))
  | .bari h o => some (encI 0xA0 h 0 o.d.field o.a.field (0#3 ++ BitVec.ofBool o.auto ++ o.kind) (o.count ++ o.name))
  | .bara h o => some (encI 0xA1 h 0 o.d.field o.a.field 0 (o.count ++ o.name))
  | .barw h o => some (encI 0xA2 h 0 o.d.field o.a.field (BitVec.ofNat 6 o.ph.toNat) (0#21 ++ o.name))
  | .baraw h o => some (encI 0xA3 h 0 o.d.field o.a.field 0 (o.count ++ o.name))
  | .bart h o => some (encI 0xA4 h 0 o.d.field o.a.field (BitVec.ofNat 6 o.ph.toNat) (0#21 ++ o.name))
  | .barx h o => some (encI 0xA5 h 0 o.d.field o.a.field 0 (0#21 ++ o.name))
  | .barq h o => some (encI 0xA6 h 0 o.d.field o.a.field 0 (0#21 ++ o.name))
  | .clb h o => some (encI 0xA7 h 0 o.d.field o.a.field (o.core ++ 0#1 ++ BitVec.ofBool o.ph ++ BitVec.ofNat 2 o.op.code) (o.count ++ o.name))
  | .armodeReef h o => some (encG 0xA8 h 0 0 o.a.field o.b.field (xG 0 0 0 false false false (0#4 ++ o.pb ++ 1#1)))
  | .armodeUnreef h o => some (encG 0xA8 h 0 0 o.a.field 0 0)
  | .arqState h o => some (encG 0xA9 h 0 o.d.field o.a.field 0 0)
  | .arqSlot h o => some (encG 0xA9 h 0 o.d.field o.a.field 0 (xG 0 0 0 false false false (0#7 ++ BitVec.ofBool o.clr ++ 1#2)))
  | .arqHeld h o => some (encG 0xA9 h 0 o.d.field 0 0 (xG 0 0 0 false false false 2))
  | .mma h o => some (encG 0xAA h 0 o.d.field o.a.field o.b.field (xG o.f.field 0 0 false false false 0))
  | .mmag h o => some (encG 0xAB h 0 o.d.field o.a.field o.b.field (xG o.f.field 0 0 false false false 0))
  | .mmad h o => some (encG 0xAC h 0 o.d.field o.a.field o.b.field (xG o.f.field 0 0 false false false 0))
  | .tdecl h o => some (encG 0xAD h 0 o.d.field o.a.field o.b.field (xG 0 0 0 false false false (0#8 ++ BitVec.ofBool o.rcmp ++ BitVec.ofBool o.init)))
  | .tfree h o => some (encG 0xAE h 0 0 o.a.field 0 0)
  | .tchk h o => some (encG 0xAF h 0 o.d.field o.a.field 0 0)
  | .tfix h o => some (encG 0xB0 h 0 o.d.field o.a.field 0 0)
  | .bndset h o => some (encG 0xB1 h 0 0 o.a.field o.b.field (xG o.c.field 0 0 false false false (0#6 ++ o.act ++ o.kind)))
  | .bndclr h o => some (encG 0xB2 h 0 o.d.field o.a.field 0 0)
  | .chain h o => some (encG 0xB8 h 0 o.d.field o.a.field o.b.field 0)
  | .chq h o => some (encG 0xB9 h 0 o.d.field o.a.field 0 0)
  | .chstop h o => some (encG 0xBA h 0 o.d.field o.a.field 0 0)
  | .launch h o => some (encG 0xBB h 0 o.d.field o.a.field o.b.field 0)
  | .trap h o => some (encI 0xC0 h 0 0 0 0 o.imm)
  | .tret h o => some <|
    match o with
    | .retry => encG 0xC1 h 0 0 0 0 0
    | .skip => encG 0xC1 h 1 0 0 0 0
    | .jump a => encG 0xC1 h 2 0 a.field 0 0
  | .getsr h o => some (encG 0xC2 h 0 o.d.field 0 0 (xG 0 0 0 false false false (BitVec.ofNat 10 o.reg.num)))
  | .setsr h o => some (encG 0xC3 h 0 0 o.a.field 0 (xG 0 0 0 false false false (BitVec.ofNat 10 o.reg.num)))
  | .preen h o => some (encG 0xC4 h 0 o.d.field 0 0 0)
  | .predis h o => some (encG 0xC5 h 0 o.d.field 0 0 0)
  | .errinjCell h o => some (encG 0xC6 h 0 0 o.a.field o.b.field (xG 0 0 0 false false false 0))
  | .errinjPass h o => some (encG 0xC6 h 0 0 o.a.field o.b.field (xG 0 0 0 false false false 1))
  | .errinjRcl h o => some (encG 0xC6 h 0 0 o.a.field o.b.field (xG 0 0 0 false false false 2))
  | _ => none

/-- The word of an instruction. -/
def encode (i : Instr) : Option Word96 := i.fields.map Fields.word

/-! ### Bytes -/

/-- The twelve bytes of a word at ascending addresses (R14). -/
def wordBytes (w : Word96) : List Byte := toBytes 12 w.toNat

/-- The word of twelve bytes (R14). -/
def bytesWord (l : List Byte) : Word96 := BitVec.ofNat 96 (ofBytes (l.take 12))

/-- Decoding the bytes at an instruction address: the instruction and the rest. -/
def decodeBytes (l : List Byte) : Except Nat (Instr × List Byte) :=
  if l.length < 12 then .error 1
  else match decodeWord (bytesWord l) with
    | .ok i => .ok (i, l.drop 12)
    | .error r => .error r

/-- The instruction the decoder reads from a word whose bits are `w`, in the numbering of the opcode table. -/
def decodeTableWord (nbits w : Nat) : Option Instr :=
  match decodeBytes (toBytes 12 (w % 2 ^ nbits)) with
  | .ok (i, _) => some i
  | .error _ => none

end Sys2Proof
end

