-- ==== Sys2Proof/Machine/Control.lean ====
section
/-!
DEFINITION. Divergence, uniform branches and the other control instructions (R92 to R96, R102).
-/
namespace Sys2Proof.Machine

/-- The control of the issuing crew changes. -/
def setControl (i : Iss) (s : State) (f : Control → Control) : State := s.updCrew i.c fun x => { x with ctl := f x.ctl }

/-- pc + 12 × n (R19). -/
def target (pc : DWord) (n : Int) : DWord := pc + BitVec.ofInt 64 (12 * n)

def jumpTo (i : Iss) (s : State) (pc : DWord) : Effect := .done (setControl i s fun k => { k with pc := pc })

/-- The top of the divergence stack. -/
def topEntry (k : Control) : Option DivEntry := if k.sdepth = 0 then none else k.stack.find? (k.sdepth - 1)

def pushEntry (k : Control) (e : DivEntry) : Control := { k with stack := k.stack.insert k.sdepth e, sdepth := k.sdepth + 1 }

/-- The nesting counters of the lanes of `m`, changed by `f`. -/
def mapNest (nest : Vector (BitVec 8) 128) (m : Mask) (f : BitVec 8 → BitVec 8) : Vector (BitVec 8) 128 :=
  nest.mapIdx fun l n => if m.getLsbD l then f n else n

def nestOf (k : Control) (l : Nat) : Nat := (k.nest.get ⟨l % 128, Nat.mod_lt _ (by decide)⟩).toNat

def execBra (h : Hdr) (o : Imm) (s : State) : Host.Outcome State Fault Refusal :=
  run (.bra h o) (fun i s => jumpTo i s (target i.pc o.imm.toInt)) s

def execBru (h : Hdr) (o : BrUni) (s : State) : Host.Outcome State Fault Refusal :=
  run (.bru h o) (fun i s =>
    match uniformSource i s (tyWidth o.ty) o.a with
    | .error t => .trap t
    | .ok none => .done s
    | .ok (some a) => if ccHoldsInt o.cc (tyVal o.ty a) 0 then jumpTo i s (target i.pc o.imm.toInt) else .done s) s

def execBrx (h : Hdr) (o : Src) (s : State) : Host.Outcome State Fault Refusal :=
  run (.brx h o) (fun i s =>
    match uniformSource i s 64 o.a with
    | .error t => .trap t
    | .ok none => .done s
    | .ok (some a) => if a % 4 ≠ 0 then .trap ⟨0x02, i.em, BitVec.ofNat 64 a⟩ else jumpTo i s (BitVec.ofNat 64 a)) s

/-- R94. -/
def execBrv (h : Hdr) (o : BrVec) (s : State) : Host.Outcome State Fault Refusal :=
  run (.brv h o) (fun i s =>
    let m := i.x.mask o.a
    let t := i.em &&& m
    let n := i.em &&& ~~~m
    if t = 0 then .done s
    else if n = 0 then jumpTo i s (target i.pc o.tgt.toInt)
    else
      let deep := (activeLanes i.em).filter fun l => nestOf i.x.ctl l == 255
      if !deep.isEmpty then .trap ⟨0x08, lanesMask deep, 0⟩
      else if i.x.ctl.sdepth = 256 then .trap ⟨0x08, i.em, 1⟩
      else .done (stackGrew (setControl i s fun k =>
        { pushEntry k ⟨n, target i.pc o.rc.toInt, (i.pc + 12) >>> 2, false, false⟩ with
          nest := mapNest k.nest i.em (· + 1)
          em := t
          pc := target i.pc o.tgt.toInt }) i.c i.x.ctl.sdepth)) s

/-- R95. -/
def execJoin (h : Hdr) (s : State) : Host.Outcome State Fault Refusal :=
  run (.join h) (fun i s =>
    match topEntry i.x.ctl with
    | none => .done s
    | some e =>
      if e.call || e.rpc != i.pc then .done s
      else if !e.phase then
        .done (setControl i s fun k =>
          { k with
            em := e.mask
            stack := k.stack.insert (k.sdepth - 1) { e with mask := i.em, phase := true }
            pc := e.pch <<< 2 })
      else
        .done (stackShrank (setControl i s fun k =>
          { k with
            em := i.em ||| e.mask
            nest := mapNest k.nest (i.em ||| e.mask) fun n => if n = 0 then 0 else n - 1
            sdepth := k.sdepth - 1 }) i.c i.x.ctl.sdepth)) s

def execCall (h : Hdr) (o : Imm) (s : State) : Host.Outcome State Fault Refusal :=
  run (.call h o) (fun i s =>
    if i.x.ctl.sdepth = 256 then .trap ⟨0x08, i.em, 1⟩
    else .done (stackGrew (setControl i s fun k =>
      { pushEntry k ⟨i.em, 0, (i.pc + 12) >>> 2, true, false⟩ with pc := target i.pc o.imm.toInt }) i.c i.x.ctl.sdepth)) s

def execRet (h : Hdr) (s : State) : Host.Outcome State Fault Refusal :=
  run (.ret h) (fun i s =>
    match topEntry i.x.ctl with
    | some ⟨_, _, pch, true, _⟩ =>
      .done (stackShrank (setControl i s fun k => { k with sdepth := k.sdepth - 1, pc := pch <<< 2 }) i.c i.x.ctl.sdepth)
    | _ => .trap ⟨0x08, i.em, 2⟩) s

/-- Every lane ends, those parked on the stack too (R95, R102). -/
def execExit (h : Hdr) (s : State) : Host.Outcome State Fault Refusal := run (.exit h) (fun i s => .done (toDraining s i.c)) s

/-- The crew leaves the active set (R76). -/
def execYld (h : Hdr) (s : State) : Host.Outcome State Fault Refusal := run (.yld h) (fun i s => .done (toReady s i.c)) s

def execNop (h : Hdr) (s : State) : Host.Outcome State Fault Refusal := run (.nop h) (fun _ s => .done s) s

/-- Every outstanding tag is waited for and committed before it issues (R88). -/
def execWaitc (h : Hdr) (s : State) : Host.Outcome State Fault Refusal := run (.waitc h) (fun _ s => .done s) s

end Sys2Proof.Machine
end

