-- ==== Sys2Proof/Machine/Trap.lean ====
section
/-!
DEFINITION. TRAP and TRET (R315), GETSR and SETSR (R316), PREEN and PREDIS (R317), ERRINJ (R329), and a word that is no instruction (R28).
-/
namespace Sys2Proof.Machine

/-! ### TRAP and TRET (R315) -/

def execTrap (h : Hdr) (o : Imm) (s : State) : Host.Outcome State Fault Refusal :=
  run (.trap h o) (fun i _ => .trap ⟨0x12, i.em, o.imm.setWidth 64⟩) s

/-- Where a TRET continues. -/
def tretTarget (i : Iss) (s : State) : TretVar → DWord
  | .retry => i.x.tr.tpc
  | .skip => i.x.tr.tpc + 12
  | .jump a => i.scalar s a &&& ~~~3#64

/-- The stack takes depth `t` after depth `d` (R92, R315): the entries that stand among the top 32 again are fetched back. -/
def stackCut (s : State) (c d t : Nat) : State :=
  (List.range' (t - 32) (min t (d - 32) - (t - 32))).foldl (fun s n => fetchEntry s c n) s

def execTret (h : Hdr) (o : TretVar) (s : State) : Host.Outcome State Fault Refusal :=
  run (.tret h o) (fun i s =>
    if !i.x.ctl.hmode then .trap ⟨0x04, i.em, 0⟩
    else .done (stackCut (s.updCrew i.c fun x => returnFromTrap x (tretTarget i s o)) i.c i.x.ctl.sdepth i.x.tr.tsd)) s

/-! ### Status registers (R316) -/

/-- A bit of a mask register's halves. -/
def maskHalf (m : Mask) (high : Bool) : Nat := if high then m.toNat / 2 ^ 64 else m.toNat % 2 ^ 64

/-- Built position of an active cluster of a die (R139). -/
def builtPosition (s : State) (d k : Nat) : Nat := (s.die d).clmap.getD k k

/-- What GETSR reads. -/
def readStatus (i : Iss) (s : State) (r : SReg) : Nat :=
  let x := i.x
  let t := x.seat
  let k := (s.core t.core).ctr
  let clmap (n : Nat) : Nat := packFields ((List.range 8).map fun j => (5, builtPosition s (dieOf t.core) (8 * n + j)))
  match r with
  | .cwid => 128
  | .cpos => t.cpos
  | .clmap0 => clmap 0
  | .clmap1 => clmap 1
  | .clmap2 => clmap 2
  | .larg => ((s.launch? t.launch).map (·.info.arg.toNat)).getD 0
  | .ctag => t.tag % 256 + (((s.ctx? t.tag).map fun c => c.desc.cls % 4 * 2 ^ 8 + c.desc.system.toNat * 2 ^ 10).getD 0)
  | .fpst => x.ctl.fpst.toNat
  | .mbusy0 => maskHalf x.ctl.mbusy false
  | .mbusy1 => maskHalf x.ctl.mbusy true
  | .mxst => x.ctl.mxst.toNat
  | .tpc => x.tr.tpc.toNat
  | .tcause => x.tr.tcause.toNat
  | .tlanes0 => maskHalf x.tr.tlanes false
  | .tlanes1 => maskHalf x.tr.tlanes true
  | .taddr => x.tr.taddr.toNat
  | .tem0 => maskHalf x.tr.tem false
  | .tem1 => maskHalf x.tr.tem true
  | .tsd => x.tr.tsd
  | .pdrem => (x.ctl.pdrem.map (· - x.cycle s)).getD 0
  | .ckcor => k.ckcor
  | .ckrep => k.ckrep
  | .ckfail => k.ckfail
  | .rccor => k.rccor
  | .smcor => k.smcor
  | .tmrep => k.tmrep
  | .tmwin => k.tmwin

def execGetsr (h : Hdr) (o : GetSr) (s : State) : Host.Outcome State Fault Refusal :=
  run (.getsr h o) (fun i s => scalarPlain i s o.d (readStatus i s o.reg)) s

/-- One half of a mask replaced. -/
def setHalf (m : Mask) (high : Bool) (x : Nat) : Mask :=
  BitVec.ofNat 128 (if high then x % 2 ^ 64 * 2 ^ 64 + m.toNat % 2 ^ 64 else m.toNat / 2 ^ 64 * 2 ^ 64 + x % 2 ^ 64)

/-- The counters of a core that a privileged SETSR writes. -/
def isCounter : SReg → Bool
  | .ckcor | .ckrep | .ckfail | .rccor | .smcor | .tmrep => true
  | _ => false

/-- What SETSR writes; a reserved bit of FPST is not written (R10, R65). -/
def writeStatus (i : Iss) (s : State) (r : SReg) (v : Nat) : State :=
  let ctl (f : Control → Control) : State := s.updCrew i.c fun x => { x with ctl := f x.ctl }
  let tem (high : Bool) : State := s.updCrew i.c fun x => { x with tr := { x.tr with tem := setHalf x.tr.tem high v } }
  let n := v % 2 ^ 32
  match r with
  | .fpst => ctl fun k => { k with fpst := BitVec.ofNat 32 (v % 2 ^ 11) }
  | .mbusy0 => ctl fun k => { k with mbusy := setHalf k.mbusy false v }
  | .mbusy1 => ctl fun k => { k with mbusy := setHalf k.mbusy true v }
  | .tem0 => tem false
  | .tem1 => tem true
  | .ckcor => s.updCtr i.g fun k => { k with ckcor := n }
  | .ckrep => s.updCtr i.g fun k => { k with ckrep := n }
  | .ckfail => s.updCtr i.g fun k => { k with ckfail := n }
  | .rccor => s.updCtr i.g fun k => { k with rccor := n }
  | .smcor => s.updCtr i.g fun k => { k with smcor := n }
  | .tmrep => s.updCtr i.g fun k => { k with tmrep := n }
  | _ => s

/-- The context is at system LEVEL (R309). -/
def isSystem (s : State) (i : Iss) : Bool := (s.ctx? i.tag).any fun c => c.desc.system

/-- A write of TEM outside a handler has reason 3, of a counter by a user context reason 10. -/
def setsrReason (s : State) (r : SReg) (i : Iss) : Option Nat :=
  if (r = .tem0 ∨ r = .tem1) ∧ !i.x.ctl.hmode then some 3
  else if isCounter r && !isSystem s i then some 10
  else none

/-- SETSR: the write takes effect at issue. -/
def execSetsr (h : Hdr) (o : SetSr) (s : State) : Host.Outcome State Fault Refusal :=
  .next (issue (.setsr h o) (setsrReason s o.reg) (fun i s => .done (giveTag i (writeStatus i s o.reg (i.scalarN s o.a)))) s)

/-! ### PREEN and PREDIS (R317) -/

def execPredis (h : Hdr) (o : Dst) (s : State) : Host.Outcome State Fault Refusal :=
  run (.predis h o) (fun i s =>
    let ok := i.x.ctl.pdrem.isNone && !i.x.req.pre
    let s := if ok then s.updCrew i.c fun x => { x with ctl := { x.ctl with pdrem := some (i.x.cycle s + 87500), pdpc := i.pc } } else s
    scalarPlain i s o.d ok.toNat) s

def execPreen (h : Hdr) (o : Dst) (s : State) : Host.Outcome State Fault Refusal :=
  run (.preen h o) (fun i s =>
    let was := i.x.ctl.pdrem.isSome
    scalarPlain i (s.updCrew i.c fun x => { x with ctl := { x.ctl with pdrem := none } }) o.d was.toNat) s

/-! ### ERRINJ (R329) -/

/-- ERRINJ is privileged: reason 10. -/
def userReason (s : State) (i : Iss) : Option Nat := if isSystem s i then none else some 10

/-- The array, row and bit-column that s[A] names. -/
def injectCell (x : Nat) : Nat × Nat × Nat := (x % 32, bits x 25 16, bits x 42 32)

def injectHeld (i : Iss) (s : State) (a : Nat) : Bool := decide (a ≤ 23) && (s.group? i.x.seat.group).any fun g => g.holds a

/-- CELL: the stored bit is inverted; inverted again it is as it was. -/
def execErrinjCell (h : Hdr) (o : ErrInj) (s : State) : Host.Outcome State Fault Refusal :=
  .next (issue (.errinjCell h o) (userReason s) (fun i s =>
    let (a, row, col) := injectCell (i.scalarN s o.a)
    if !injectHeld i s a then .trap ⟨0x04, i.em, BitVec.ofNat 64 a⟩
    else
      let f := 2048 * row + col
      .done (giveTag i (s.updArr i.g a fun r => { r with flips := if r.flips.contains f then r.flips.filter (· ≠ f) else f :: r.flips }))) s)

/-- PASS: one product of a later pass is armed to be inverted. -/
def execErrinjPass (h : Hdr) (o : ErrInj) (s : State) : Host.Outcome State Fault Refusal :=
  .next (issue (.errinjPass h o) (userReason s) (fun i s =>
    let (a, row, col) := injectCell (i.scalarN s o.a)
    let y := i.scalarN s o.b
    if !injectHeld i s a then .trap ⟨0x04, i.em, BitVec.ofNat 64 a⟩
    else .done (giveTag i (s.updArr i.g a fun r => { r with pass := some (row, col, y % 32, bits y 12 8) }))) s)

/-- The line of a register field within the crew's holdings. -/
def injectLine (i : Iss) (f : Nat) : Option Nat :=
  let t := i.x.seat
  if f < 320 then (if f < t.nv then some (vLine t i.bank f) else none)
  else if f - 320 < 128 ∧ f - 320 < t.ns then some (sLine t i.bank (f - 320))
  else none

/-- RCL: a bit of a register-cache line is inverted; a line that is absent is fetched first. -/
def execErrinjRcl (h : Hdr) (o : ErrInj) (s : State) : Host.Outcome State Fault Refusal :=
  .next (issue (.errinjRcl h o) (userReason s) (fun i s =>
    let x := i.scalarN s o.a
    let bit := bits x 27 16
    match injectLine i (x % 512) with
    | none => .trap ⟨0x04, i.em, BitVec.ofNat 64 (x % 512)⟩
    | some n =>
      if !hasLine (s.core i.g) i.c n then .wait (.lines (n :: lineNeed i.x (.errinjRcl h o)))
      else .done (giveTag i (s.updCore i.g fun k => { k with rc := k.rc.map fun l =>
        if l.crew = i.c ∧ l.line = n then { l with flip := if l.flip.contains bit then l.flip.filter (· ≠ bit) else bit :: l.flip } else l }))) s)

/-! ### A word that is no instruction (R28) -/

/-- The tags that a word waits for before its checks (R29): those of WAIT, and those whose LOOK is used up. -/
def wordTags (x : Crew) (w : Word96) : List Nat :=
  SMap.keys (x.tags.filter fun e => !e.2.deferred && (e.1 == 0 || (fieldsOf w).wait.getLsbD (e.1 - 1) || e.2.look == 0))

/-- The lowest reason of R28: SETSR of TEM outside a handler has reason 3 (R316), which may come before what the decoder finds. -/
def wordReason (x : Crew) (w : Word96) (r : Nat) : Nat :=
  match (fieldsOf w).instr with
  | .setsr _ o => if 3 < r ∧ (o.reg = .tem0 ∨ o.reg = .tem1) ∧ !x.ctl.hmode then 3 else r
  | _ => r

/-- The crew State.cur reaches a word that decodes to no instruction: after the waits of R29, ILLEGAL with the lowest reason. -/
def execNotAnInstruction (w : Word96) (s : State) : Host.Outcome State Fault Refusal :=
  .next (
    match s.crew? s.cur with
    | none => s
    | some x =>
      if x.state ≠ .active then s
      else match boundary s s.cur with
        | some s' => s'
        | none =>
          match decodeWord w with
          | .ok _ => s
          | .error r =>
            match (x.tags.filter fun e => (wordTags x w).contains e.1).filterMap fun e => e.2.op with
            | o :: os => toWaiting s s.cur (.ops (o :: os))
            | [] =>
              match commitTags s s.cur (wordTags x w) with
              | (s, some f) => takeTrap s s.cur f x.ctl.pc
              | (s, none) => takeTrap s s.cur ⟨0x01, x.ctl.em, BitVec.ofNat 64 (wordReason x w r)⟩ x.ctl.pc)

end Sys2Proof.Machine
end

