-- ==== Sys2Proof/Machine/ContextEvents.lean ====
section
/-!
DEFINITION. The steps of contexts (R310, R319, R323, R324), of the in-field test (R326, R327), of the timing margin (R328) and of the power cap
(R364).
-/
namespace Sys2Proof.Machine

/-! ### What a context has (R310, R319) -/

def crewsOf (s : State) (tag : Nat) : List (Nat × Crew) := s.crews.filter fun e => e.2.seat.tag == tag

def groupsOf (s : State) (tag : Nat) : List (Nat × Group) := s.groups.filter fun e => e.2.tag == tag

/-- The cores on which the context holds a group. -/
def coresOf (s : State) (tag : Nat) : List Nat := ((groupsOf s tag).map fun e => e.2.core).eraseDups

/-- The bytes a cluster saves (R319). -/
def swapBytes (s : State) (tag cl : Nat) : Nat :=
  let here := (coresOf s tag).filter fun g => clusterOf g == cl
  (here.map fun g =>
    let gs := (groupsOf s tag).filter fun e => e.2.core == g
    let a := (gs.map fun e => e.2.nsto + e.2.ncomp).sum
    let w := if (s.core g).scratch.owner.any fun o => gs.any fun e => e.1 == o then (s.core g).scratch.ways else 0
    let r := ((s.core g).rc.filter fun l => l.dirty && (s.crew? l.crew).any fun x => x.seat.tag == tag).length
    262144 * a + 16384 * w + 512 * r + 65536).sum

/-- The bytes of the clusters' parts that do not fit the shadow storage. -/
def excessBytes (s : State) (tag : Nat) (d : Desc) : Nat :=
  ((((coresOf s tag).map clusterOf).eraseDups).map fun cl => swapBytes s tag cl - 65536 * d.shadow).sum

/-- Some cluster's part does not fit the shadow storage. -/
def swapExcess (s : State) (tag : Nat) (d : Desc) : Bool := decide (0 < excessBytes s tag d)

/-- A matrix instruction of the crews for which `p` holds is in flight. -/
def matrixOps (s : State) (p : Crew → Bool) : Bool :=
  s.ops.any fun e => (s.crew? e.2.crew).any p && match e.2.kind with
    | .matrix _ => true
    | _ => false

/-- A chain stands still at a pass boundary. -/
def ChainCtx.still (c : ChainCtx) : Bool := c.paused && ((c.work.map (·.flight)).getD []).isEmpty

/-- Pre-emption is requested of crews, and their chains pause (R276, R317). -/
def quiesceCrews (s : State) (p : Crew → Bool) : State :=
  (s.crews.filter fun e => p e.2 && e.2.state != .suspended && e.2.state != .draining).foldl (fun s e =>
    s.updCrew e.1 fun x => { x with req := { x.req with pre := true } }) s

def pauseChains (s : State) (g : Nat) (p : ChainCtx → Bool) (v : Bool) : State :=
  if (s.core g).chains.isEmpty then s
  else s.updCore g fun k => { k with chains := k.chains.map fun (e : Nat × ChainCtx) => (e.1, if p e.2 then { e.2 with paused := v } else e.2) }

/-- A SUSPENDED crew resumes: WAITING while what it waits for is still to come, READY otherwise (R76). Time SUSPENDED does not count for its
handler's watchdog (R322). -/
def resumeCrew (s : State) (c : Nat) : State :=
  match s.crew? c with
  | none => s
  | some x =>
    if x.state ≠ .suspended then s
    else
      let s := s.updCrew c fun x => { x with stamps := { x.stamps with handler := x.stamps.handler + (x.cycle s - x.stamps.suspended) } }
      if x.wait = .none then toReady s c else s.updCrew c fun x => { x with state := .waiting }

/-! ### Swapping out (R310, R319) -/

/-- CONTEXT_SAVE_START: every crew SUSPENDED, no matrix instruction in flight, every chain at a pass boundary. -/
def execContextSaveStart (tag : Nat) (s : State) : Host.Outcome State Fault Refusal :=
  .next (
    match s.ctx? tag with
    | some x =>
      if x.state == .suspending && (crewsOf s tag).all (fun e => e.2.state == .suspended) && !matrixOps s (fun c => c.seat.tag == tag) &&
          (coresOf s tag).all (fun g => (s.core g).chains.all fun e => e.2.tag != tag || e.2.still) &&
          s.convoys.all (fun e => e.2.tag != tag || e.2.started) then
        s.updCtx tag fun x => { x with state := .saving, savedAt := s.now }
      else s
    | none => s)

/-- An operation that stays as it is while its context is swapped out: a wait, or a bound-entry broadcast. -/
def OpKind.stays : OpKind → Bool
  | .barWait _ _ _ status _ _ => status.isNone
  | .armode .. => true
  | .chainStart _ _ ctx _ _ => ctx.isNone
  | .chainStop _ | .bound .. => true
  | _ => false

/-- Everything of the context that was still in flight has ended. -/
def swapReady (s : State) (tag : Nat) : Bool :=
  (crewsOf s tag).all (fun e => e.2.sq.isEmpty) &&
    s.ops.all fun e => e.2.kind.stays || !(s.crew? e.2.crew).any fun x => x.seat.tag == tag

/-- What is saved of one core. Delta latches are not (R207). -/
def saveCore (s : State) (tag g : Nat) : SavedCore :=
  let k := s.core g
  let gs := (groupsOf s tag).filter fun e => e.2.core == g
  let mine (a : Nat) : Bool := gs.any fun e => e.2.holds a
  let bar (n : Nat) : Bool := gs.any fun e => decide (e.2.bar0 ≤ n) && decide (n < e.2.bar0 + e.2.nbar)
  let chains := k.chains.filter fun e => e.2.tag == tag
  { core := g
    arrays := (k.arrays.filter fun e => mine e.1).map fun (e : Nat × Arr) => (e.1, { e.2 with latches := [] })
    bars := k.bars.filter fun e => bar e.1
    tiles := k.tiles.filter fun e => gs.any fun x => x.1 == e.2.group
    scratch := if k.scratch.owner.any fun o => gs.any fun x => x.1 == o then some k.scratch else none
    chains := chains
    gens := k.gens.filter fun e => chains.any fun c => c.1 == e.1
    locks := k.locks.filter fun e => e.2.tag == tag
    staging := k.staging.filter fun n => chains.any fun c => c.1 == n
    rc := k.rc.filter fun l => l.dirty && (s.crew? l.crew).any fun x => x.seat.tag == tag }

/-- The core without what was saved of it. -/
def dropSaved (s : State) (tag : Nat) (v : SavedCore) : State :=
  s.updCore v.core fun k =>
    { k with
      arrays := k.arrays.map fun (e : Nat × Arr) => (e.1, if (v.arrays.find? e.1).isSome then e.2.released else e.2)
      bars := k.bars.filter fun e => (v.bars.find? e.1).isNone
      tiles := k.tiles.filter fun e => (v.tiles.find? e.1).isNone
      scratch := if v.scratch.isSome then ⟨0, 0, none, []⟩ else k.scratch
      chains := k.chains.filter fun e => e.2.tag != tag
      locks := k.locks.filter fun e => e.2.tag != tag
      staging := if v.staging.isSome then none else k.staging
      rc := k.rc.filter fun l => !(s.crew? l.crew).any fun x => x.seat.tag == tag }

/-- The staging buffer that a swap saves: its context's number, the record's X2, and the bytes it holds. -/
def SavedCore.stagingBytes (v : SavedCore) : Option (Nat × Nat × List Byte) :=
  v.staging.bind fun n => ((v.chains.find? n).bind (·.work)).bind fun w =>
    if w.kind ≠ 8 ∨ w.buf.isEmpty then none else some (n, w.words.getD 5 0, w.buf)

/-- A staging buffer that holds bytes is saved as 4,096 bytes at X2 of its record (R276); a page that cannot be written keeps what it has
(log 50). -/
def saveStaging (s : State) (tag : Nat) (v : SavedCore) : State :=
  match v.stagingBytes with
  | some (_, x2, buf) =>
    let l := (buf ++ List.replicate 4096 0).take 4096
    (pageParts x2 4096).foldl (fun s p =>
      match unitAt s tag p.1 .write with
      | .ok pa _ => unitWrite s tag p.1 pa ((l.drop (p.1 - x2)).take p.2)
      | _ => s) s
  | none => s

/-- The excess over the shadow storage goes to SWAPA; what the bytes are no rule says (log 50). -/
def saveExcess (s : State) (d : Desc) (n : Nat) : State :=
  if n = 0 ∨ d.swapa = 0 then s
  else
    let (f, s) := s.freeValue
    frameWrite s (((List.range n).filter fun i => populated (d.swapa + i) 1).map fun i => (d.swapa + i, BitVec.ofNat 8 (f / 2 ^ (8 * i))))

/-- CONTEXT_SAVED: SWAPPED, with its slots, arrays, barriers, scratch ways and tile entries released. -/
def execContextSaved (tag : Nat) (s : State) : Host.Outcome State Fault Refusal :=
  .next (
    match s.ctx? tag with
    | some x =>
      if x.state ≠ .saving || !swapReady s tag then s
      else
        let l := (coresOf s tag).map (saveCore s tag)
        let s := saveExcess s x.desc (excessBytes s tag x.desc)
        let s := l.foldl (fun s v => dropSaved (saveStaging s tag v) tag v) s
        endCmd (s.updCtx tag fun x => { x with state := .swapped, saved := l, out := true }) 2 tag 0
    | none => s)

/-! ### Swapping in (R287, R310, R319) -/

/-- Every resource that the saved state of a core names is free. -/
def coreFree (s : State) (tag : Nat) (v : SavedCore) : Bool :=
  let k := s.core v.core
  let gs := (groupsOf s tag).filter fun e => e.2.core == v.core
  let others := coreGroups s v.core
  !quiescing s (clusterOf v.core) && v.arrays.all (fun e => (s.arr v.core e.1).state == .unheld) &&
    gs.all (fun e => others.all fun o => e.2.nbar == 0 || o.nbar == 0 || decide (e.2.bar0 + e.2.nbar ≤ o.bar0) || decide (o.bar0 + o.nbar ≤ e.2.bar0)) &&
    gs.all (fun e => others.all fun o => e.2.slots.all fun t => !o.slots.contains t) &&
    v.tiles.all (fun e => (k.tiles.find? e.1).isNone) && (v.scratch.isNone || (k.scratch.owner.isNone && k.scratch.target == 0)) &&
    v.chains.all (fun e => (k.chains.find? e.1).isNone) && decide (k.locks.length + v.locks.length ≤ 64) &&
    (v.staging.isNone || k.staging.isNone)

/-- A dirty line returns to its scheduler's share. -/
def returnLine (s : State) (g : Nat) (r : RcLine) : State :=
  let s := if ((s.core g).rc.filter fun l => l.sched == r.sched).length < 512 then s
    else match rcVictim (s.core g) r.sched r.crew [] with
      | some v => evictRc s g v
      | none => s
  s.updCore g fun k => { k with rc := k.rc ++ [r] }

/-- The saved state of a core returns. -/
def restoreCore (s : State) (v : SavedCore) : State :=
  let s := s.updCore v.core fun k =>
    { k with
      arrays := v.arrays.foldl (fun m e => m.insert e.1 e.2) k.arrays
      bars := v.bars.foldl (fun m e => m.insert e.1 e.2) k.bars
      tiles := v.tiles.foldl (fun m e => m.insert e.1 e.2) k.tiles
      scratch := v.scratch.getD k.scratch
      chains := v.chains.foldl (fun m e => m.insert e.1 e.2) k.chains
      gens := v.gens.foldl (fun m e => m.insert e.1 e.2) k.gens
      locks := v.locks.foldl (fun m e => m.insert e.1 e.2) k.locks
      staging := v.staging <|> k.staging }
  let s := match v.scratch with
    | some _ => shrinkL1Now s v.core
    | none => s
  v.rc.foldl (fun s r => returnLine s v.core r) s
where
  /-- Lines leave the L1 until it fits the ways left to it. -/
  shrinkL1Now (s : State) (g : Nat) : State :=
    (List.range (s.core g).l1.length).foldl (fun s _ => if (s.core g).l1.length ≤ (s.core g).l1Cap then s else makeRoom s g) s

/-- A saved staging buffer is read back from X2 (R276); bytes that cannot be read fail the record with ECODE 3, and a page that is not mapped leaves
what the swap kept (log 50). -/
def restoreStaging (s : State) (tag : Nat) (v : SavedCore) : State :=
  match v.stagingBytes with
  | some (n, x2, buf) =>
    (pageParts x2 buf.length).foldl (fun s p =>
      match unitAt s tag p.1 .read with
      | .ok pa map =>
        match unitRead s tag p.1 pa p.2 map with
        | (some l, s) => updWork s v.core n fun w => { w with buf := w.buf.take (p.1 - x2) ++ l ++ w.buf.drop (p.1 - x2 + p.2) }
        | (none, s) => updWork s v.core n fun w => { w with fail := w.fail <|> some 3 }
      | _ => s) s
  | none => s

/-- A chain of a context that returns: parked while a walk of it waits for its reply, and no longer when its page has been served meanwhile. -/
def reparkChain (s : State) (g n : Nat) (c : ChainCtx) : State :=
  if s.walks.any fun e => e.2.who == .chain g n && e.2.tag == c.tag && (e.2.fault.isSome || e.2.full) then
    (if c.state = .running then parkChain s g n else s)
  else if chainWalks s g n c.tag then s
  else resumeChain s g n

/-- Chains of the context go on, but for those on a cluster that quiesces for a test. -/
def resumeChains (s : State) (tag : Nat) : State :=
  (coresOf s tag).foldl (fun s g =>
    let s := if quiescing s (clusterOf g) then s else pauseChains s g (fun c => c.tag == tag) false
    (s.core g).chains.foldl (fun s (e : Nat × ChainCtx) => if e.2.tag = tag then reparkChain s g e.1 e.2 else s) s) s

/-- CONTEXT_RESTORE_START: the resources named in the saved state are free, and become the context's own again. -/
def execContextRestoreStart (tag : Nat) (s : State) : Host.Outcome State Fault Refusal :=
  .next (
    match s.ctx? tag with
    | some x =>
      if x.state ≠ .restoring || !x.out || !x.saved.all (coreFree s tag) then s
      else (x.saved.foldl (fun s v => restoreStaging (restoreCore s v) tag v) s).updCtx tag fun x => { x with saved := [], out := false }
    | none => s)

/-- A time limit runs again: the counts since it was paused, or since the launch was dispatched, are no part of it (R297). -/
def unpauseLaunch (now savedAt : Nat) (l : Launch) : Launch :=
  if l.state = .dispatching ∨ l.state = .running then { l with paused := l.paused + (now - max savedAt l.started) } else l

/-- CONTEXT_RESTORED: LIVE; crews and chains resume, in the order of their slots (R76), and time limits run again. On a cluster that quiesces for a
test they are asked to stop again (R326). -/
def execContextRestored (tag : Nat) (s : State) : Host.Outcome State Fault Refusal :=
  .next (
    match s.ctx? tag with
    | some x =>
      if x.state ≠ .restoring || x.out then s
      else
        let s := s.updCtx tag fun x => { x with state := .live }
        let s := { s with launches := s.launches.map fun (e : Nat × Launch) =>
          (e.1, if e.2.tag = tag then unpauseLaunch s.now x.savedAt e.2 else e.2) }
        let s := (bySlot s ((crewsOf s tag).map (·.1))).foldl resumeCrew (resumeChains s tag)
        endCmd (quiesceCrews s fun x => x.seat.tag == tag && quiescing s (clusterOf x.seat.core)) 3 tag 0
    | none => s)

/-! ### The end of a killed context (R310, R324) -/

/-- A context that is KILLING has no group and no chain. -/
def ctxEmpty (s : State) (tag : Nat) : Bool :=
  (groupsOf s tag).isEmpty && s.cores.all fun e => e.2.chains.all fun c => c.2.tag != tag

/-- A line goes without a write-back. -/
def dropLine (s : State) (g n : Nat) : State := evictLine (s.updCore g fun k => { k with l1 := k.l1.modify n fun l => { l with dirty := [] } }) g n

/-- Dirty lines with the tag that are not poisoned are written back; the lines go (R324). -/
def flushTag (s : State) (tag : Nat) : State :=
  s.cores.keys.foldl (fun s g =>
    let ns := SMap.keys ((s.core g).l1.filter fun e => e.2.tag == tag)
    let bad (s : State) (n : Nat) : Bool := ((s.core g).l1.find? n).any fun l => !l.poison.isEmpty
    ns.foldl (fun s n => if bad s n then dropLine s g n else evictLine s g n) s) s

/-- CONTEXT_DEAD: launches are DONE, so HEAD reaches TAKEN; queues are DISABLED, and the log entry is written. -/
def execContextDead (tag : Nat) (s : State) : Host.Outcome State Fault Refusal :=
  .next (
    match s.ctx? tag with
    | some x =>
      if x.state ≠ .killing || !ctxEmpty s tag then s
      else
        let mine := SMap.keys (s.launches.filter fun e => e.2.tag == tag)
        let s := { s with
          launches := s.launches.filter fun e => e.2.tag != tag
          convoys := s.convoys.filter fun e => e.2.tag != tag
          walks := s.walks.filter fun e => match e.2.who with
            | .queue l => !mine.contains l
            | .image _ => e.2.tag != tag
            | _ => true }
        let qs := SMap.keys (s.queues.filter fun e => e.1 / 256 == tag && e.2.state != .disabled)
        let s := qs.foldl (fun s k => setQueue s tag (k % 256) fun q => { q with state := .disabled, head := q.taken, done := [] }) s
        let s := writeLog (flushTag s tag) tag (x.why.getD ⟨6, 0, 0⟩) 0
        let s := s.updCtx tag fun x => { x with state := .dead, saved := [], out := false }
        endCmdFree (endCmdFree (endCmd s 4 tag 0) 2 tag) 3 tag
    | none => s)

/-! ### Uncorrectable errors (R323, R325) -/

/-- The structure code of a site (R325), where there is one, and its instance. -/
def siteCode : ErrSite → Option (Nat × Nat)
  | .arrayData g _ _ => some (1, g)
  | .barrier g _ => some (2, g)
  | .tileEntry g _ => some (3, g)
  | .boundCopy g _ => some (4, g)
  | .rangeLock g _ => some (5, g)
  | .chainCtx g _ => some (6, g)
  | .staging g => some (7, g)
  | .clusterDir c _ => some (8, c)
  | .dieDir d _ => some (9, d)
  | .packageDir _ => some (10, 0)
  | .queueEntry _ _ => some (11, 0)
  | .launchEntry _ => some (12, 0)
  | _ => none

/-- The tag of the entry at a site. -/
def siteTag (s : State) : ErrSite → Option Nat
  | .arrayData g a _ => some (s.arr g a).tag
  | .barrier g n => ((coreGroups s g).find? fun x => decide (x.bar0 ≤ n) && decide (n < x.bar0 + x.nbar)).map (·.tag)
  | .tileEntry g i => (s.tile? g i).map (·.tag)
  | .boundCopy _ t | .clusterDir _ t | .dieDir _ t | .packageDir t | .queueEntry t _ => some t
  | .rangeLock g i => ((s.core g).locks.find? i).map (·.tag)
  | .chainCtx g i => (s.chain? g i).map (·.tag)
  | .staging g => ((s.core g).staging.bind (s.chain? g)).map (·.tag)
  | .launchEntry l => (s.launch? l).map (·.tag)
  | _ => none

/-- The contexts that hold an entry of a directory. -/
def dirTags (s : State) (key : Nat) : List Nat := (s.mem.dir key).map fun e => e.obj / 2 ^ 61

/-- The owner set of the instance at a site: the tags that hold an entry in it. Which contexts hold a line of an L2 slice no state says: `f` names
them (log 2). -/
def ownerSet (s : State) (f : Nat) (e : ErrSite) : List Nat :=
  let private_ (c : Nat) : List Nat := match s.crew? c with
    | some x => (s.crews.filter fun y => y.2.seat.core == x.seat.core && y.2.seat.sched == x.seat.sched && !swappedOut s y.2.seat.tag).map
        fun y => y.2.seat.tag
    | none => []
  let here (g : Nat) : List Nat := (coreGroups s g).map (·.tag)
  let l : List Nat := match e with
  | .regLine c _ | .holdSlot c _ | .stackEntry c _ => private_ c
  | .arrayData g _ _ => (s.core g).arrays.map fun (a : Nat × Arr) => a.2.tag
  | .barrier g _ => ((coreGroups s g).filter fun x => x.nbar != 0).map (·.tag)
  | .tileEntry g _ => (s.core g).tiles.map fun (t : Nat × Tile) => t.2.tag
  | .boundCopy g _ => (here g).filter fun t => (s.ctx? t).any fun c => !c.bounds.isEmpty
  | .rangeLock g _ => (s.core g).locks.map fun (k : Nat × Lock) => k.2.tag
  | .chainCtx g _ => (s.core g).chains.map fun (c : Nat × ChainCtx) => c.2.tag
  | .staging g => ((((s.core g).staging.bind (s.chain? g)).map (·.tag))).toList
  | .clusterDir c _ => dirTags s c
  | .dieDir d _ => dirTags s (288 + d)
  | .packageDir _ => dirTags s 300
  | .queueEntry _ _ | .launchEntry _ =>
    ((s.queues.filter fun q => q.2.state != .disabled).map fun (q : Nat × Queue) => q.1 / 256) ++ s.launches.map fun (l : Nat × Launch) => l.2.tag
  | .l1Line g _ => (s.core g).l1.map fun (l : Nat × L1Line) => l.2.tag
  | .l2Line _ => s.ctxs.keys.filter f.testBit
  | .dram _ => []
  l.eraseDups.filter (· ≠ 0)

/-- A clean copy is invalidated, and fetched again when it is next used. -/
def dropClean (s : State) : ErrSite → State
  | .regLine c n => match s.crew? c with
    | some x => s.updCore x.seat.core fun k => { k with rc := k.rc.filter fun r => !(r.crew == c && r.line == n && !r.dirty) }
    | none => s
  | .l1Line g n => if ((s.core g).l1.find? n).any fun l => l.dirty.isEmpty then evictLine s g n else s
  | _ => s

/-- A damaged dirty line of an L1 is poisoned and written back poisoned: each sector of it that holds dirty bytes. -/
def spoilLine (s : State) (g n : Nat) : State :=
  match (s.core g).l1.find? n with
  | none => s
  | some l =>
    let s' := evictLine s g n
    if pathDown s g (128 * n) then s'
    else { s' with mem := ((List.range 4).filter fun i => l.dirty.any fun b => b / 32 == i).foldl (fun m i => m.addPoison (128 * n + 32 * i)) s'.mem }

/-- The line of a crew's image that corresponds to a damaged private entry (R325). -/
def privateLine (x : Crew) : ErrSite → Option Nat
  | .regLine _ n => some n
  | .holdSlot _ t => some (x.seat.nv + 52 + 8 * (t - 1))
  | .stackEntry _ k => some (x.seat.nv + 3 + k / 16)
  | _ => none

/-- A crew-private structure: the crew only, relaunchable. -/
def killPrivate (s : State) (c : Nat) (e : ErrSite) : State :=
  match s.crew? c with
  | none => s
  | some x =>
    match privateLine x e with
    | some n => killCrew s c ⟨0, 0, imageLineVa s x.seat n⟩ true true
    | none => s

/-- UNCORRECTABLE_ERROR: at a clean copy nothing is killed; with a readable tag the error acts as the table of R323 states; with an unreadable
one every context of the owner set is killed. An entry of tag 0 is firmware's. -/
def execUncorrectableError (e : ErrSite) (clean tagOk : Bool) (s : State) : Host.Outcome State Fault Refusal :=
  .next (
    if clean then dropClean s e
    else if !tagOk then
      let (loc, s) : Nat × State := match siteCode e with
        | some (c, n) => (c * 2 ^ 56 + n, s)
        | none => s.freeValue
      let (f, s) := s.freeValue
      (ownerSet s f e).foldl (fun s t => killContext s t ⟨2, 0, loc⟩) s
    else match e with
      | .regLine c _ | .holdSlot c _ | .stackEntry c _ => killPrivate s c e
      | .l1Line g n => spoilLine s g n
      | .l2Line n => { s with mem := (List.range 4).foldl (fun m i => m.addPoison (128 * n + 32 * i)) s.mem }
      | .dram k => { s with mem := s.mem.addPoison (32 * k) }
      | _ =>
        match siteTag s e, siteCode e with
        | some 0, _ | none, _ | _, none => s
        | some t, some (c, n) => killContext s t ⟨1, 0, c * 2 ^ 56 + n⟩)

/-! ### In-field test (R326, R327) -/

/-- A crew that stands on a cluster. -/
def onCluster (cl : Nat) (x : Crew) : Bool := clusterOf x.seat.core == cl

/-- The cores of a cluster. -/
def clusterCores (cl : Nat) : List Nat := (List.range 4).map fun c => 4 * cl + c

/-- INFIELD_TEST_START: the period has run out; dispatch onto the next cluster stops, its crews are asked to pre-empt and its chains pause. -/
def execInfieldTestStart (die : Nat) (s : State) : Host.Outcome State Fault Refusal :=
  .next (
    let d := s.die die
    if s.mg.testPeriod = 0 ∨ d.test.isSome ∨ d.spare.isNone ∨ s.now < d.tested + 1750000 * s.mg.testPeriod ∨ 12 ≤ die then s
    else
      let k := d.next % 24
      let cl := 24 * die + k
      let s := s.updDie die fun d => { d with test := some (k, 0, builtPosition s die k), tested := s.now, next := (k + 1) % 24 }
      (clusterCores cl).foldl (fun s g => pauseChains s g (fun _ => true) true)
        (quiesceCrews s fun x => onCluster cl x && !swappedOut s x.seat.tag))

/-- What is on the cluster stands still, and no dirty line of it waits for a link. -/
def clusterStill (s : State) (cl : Nat) : Bool :=
  !(clusterCores cl).any (drainHeld s) &&
  s.crews.all (fun e => !onCluster cl e.2 || e.2.state == .suspended) && !matrixOps s (onCluster cl) &&
    (clusterCores cl).all (fun g => (s.core g).chains.all fun e => e.2.still) &&
    s.convoys.all fun e => e.2.cluster != cl || e.2.started

/-- A core moves to the spare cluster: R319's sum of it is copied, and the delta latches, on which results depend (R207, R327); its L1 lines go
home. -/
def moveCore (s : State) (g : Nat) : State :=
  (invalidateLines s g (s.core g).l1.keys).updCore g fun k => { k with rc := k.rc.filter (·.dirty) }

/-- INFIELD_COPY_DONE: the spare takes the cluster's number, CLMAP shows its position, and the crews resume on it. -/
def execInfieldCopyDone (die : Nat) (s : State) : Host.Outcome State Fault Refusal :=
  .next (
    let d := s.die die
    match d.test, d.spare with
    | some (k, 0, b), some sp =>
      let cl := 24 * die + k
      if !clusterStill s cl then s
      else
        let s := (clusterCores cl).foldl moveCore s
        let s := s.updDie die fun d => { d with clmap := d.clmap.insert k sp, spare := none, test := some (k, 1, b) }
        let live (t : Nat) : Bool := (s.ctx? t).any fun c => c.state == .live
        let s := (clusterCores cl).foldl (fun s g => pauseChains s g (fun c => live c.tag) false) s
        (bySlot s ((s.crews.filter fun e => onCluster cl e.2 && live e.2.seat.tag).map (·.1))).foldl resumeCrew s
    | _, _ => s)

/-- OFFLINE arrays return to service (R326): one that no group holds is UNHELD; one that a group still holds is in STORAGE again (log 40). -/
def returnArrays (s : State) (g : Nat) (p : Nat → Bool) : State :=
  s.updCore g fun k =>
    { k with arrays := (k.arrays.filter fun e => !(p e.1 && e.2.state == .offline && e.2.group.isNone)).map fun (e : Nat × Arr) =>
      (e.1, if p e.1 && e.2.state == .offline then { e.2 with state := .storage } else e.2) }

/-- INFIELD_TEST_DONE: a pass makes the tested cluster the spare, and OFFLINE arrays of its number return to service; a failure retires it. -/
def execInfieldTestDone (die : Nat) (pass : Bool) (s : State) : Host.Outcome State Fault Refusal :=
  .next (
    match (s.die die).test with
    | some (k, 1, b) =>
      if pass then
        let s := s.updDie die fun d => { d with spare := some b, test := none }
        (clusterCores (24 * die + k)).foldl (fun s g => returnArrays s g fun _ => true) s
      else s.updDie die fun d => { d with test := none, retired := b :: d.retired }
    | _ => s)

/-! ### Timing margin and power (R328, R364) -/

/-- An event of kind 3; where it names the die the spec does not say (log 2). -/
def timingAlarm (s : State) : State :=
  let (t, s) := s.freeValue
  reportArray s 3 t

/-- TIMING_WINDOW: a window of 1,750,000 cycles of the die has ended; an alarm follows when the die's greatest TMWIN exceeds the threshold. -/
def execTimingWindow (core : Nat) (s : State) : Host.Outcome State Fault Refusal :=
  .next (
    let k := (s.core core).ctr
    if s.coreCycle core < k.since + 1750000 then s
    else
      let s := s.updCtr core fun k => { k with tmwin := k.cur, cur := 0, since := s.coreCycle core }
      let most := ((s.cores.filter fun e => dieOf e.1 == dieOf core).map fun e => e.2.ctr.tmwin).foldl max 0
      if s.mg.tmthr < most then timingAlarm s else s)

/-- POWER_OVER_CAP: the measured power exceeds the cap; the die that draws most lowers its clock by one step. -/
def execPowerOverCap (die : Nat) (s : State) : Host.Outcome State Fault Refusal :=
  .next (if (s.die die).clock < 2 ∧ die < 12 then timingAlarm (s.updDie die fun d => { d with clock := d.clock + 1 }) else s)

end Sys2Proof.Machine
end

