-- ==== Sys2Proof/Machine/Link.lean ====
section
/-!
DEFINITION. Links (R349 to R351, R360) and what arrives over them: Cletik flits and requests (R356 to R358), host accesses, AtomicOps and snoops
(R354, R355).
-/
namespace Sys2Proof.Machine

/-! ### Links (R349, R350) -/

/-- Data and spare lanes of a link; none for a number that is no link. -/
def linkLanes (n : Nat) : Option (Nat × Nat) :=
  if n ≤ 16 then some (256, 8)
  else if 32 ≤ n ∧ n ≤ 55 then some (2048, 64)
  else if 64 ≤ n ∧ n ≤ 75 then some (192, 8)
  else if 80 ≤ n ∧ n ≤ 95 then some (16, 1)
  else if n = 96 ∨ n = 97 then some (16, 0)
  else none

def LinkState.code : LinkState → Nat
  | .down => 0 | .training => 1 | .up => 2 | .degraded => 3 | .retrain => 4

/-- A link event: the link in LOC[7:0], the event number in DATA; TAG and the rest of LOC are not stated (log 2). -/
def linkEvent (s : State) (n ev : Nat) : State :=
  let (t, s) := s.freeValue
  let (l, s) := s.freeValue
  emit s ⟨ev, 5, t, n % 256 + 256 * l⟩

/-- Link event 4 carries the lane number, which the spec gives no place: the model puts it above the link in LOC (log 74). -/
def laneEvent (s : State) (n lane : Nat) : State :=
  let (t, s) := s.freeValue
  emit s ⟨4, 5, t, n % 256 + 256 * lane⟩

/-- A transition of a link in one of the states given. -/
def linkStep (s : State) (n : Nat) (p : LinkState → Bool) (f : Link → Link) : State :=
  if (linkLanes n).isSome && p (s.link n).state then s.updLink n f else s

def isUp (st : LinkState) : Bool := st == .up || st == .degraded

/-- The flit is a header of a packet of its own: a request, not a response (R356). -/
def SentFlit.request (f : SentFlit) : Bool := f.bits % 16 == 1 && Sys2Proof.bits f.bits 5 4 != 1

/-- The requests that are held, or stand in the replay buffer. -/
def Link.pendingRequests (k : Link) : Nat := (k.buffer.filter (·.request)).length + (k.queue.filter fun p => p.vc != 1).length

/-- DOWN: what was held or stood in the replay buffer is lost, each request counted (R360). Both sides count flits and credit anew when the link
trains again (log 70). -/
def Link.fall (k : Link) : Link :=
  { k with state := .down, lost := min (k.lost + k.pendingRequests) 65535, buffer := [], queue := [], used := [], credits := [], sent := 0, seq := 0, txSeq := 0 }

/-- A link goes DOWN; the crews whose writes are lost remember their addresses. -/
def linkFall (s : State) (n : Nat) : State :=
  let k := s.link n
  (k.buffer.filterMap (·.owner) ++ k.queue.filterMap (·.owner)).foldl (fun s e => noteDiscard s e.1 e.2) (s.updLink n Link.fall)

def linkEnable (s : State) (n : Nat) : State := linkStep s n (· == .down) fun k => { k with state := .training }

def linkRetrain (s : State) (n : Nat) : State := linkStep s n isUp fun k => { k with state := .retrain }

/-- A lane is to be spared when the link trains again. -/
def spareLane (s : State) (n lane : Nat) : State :=
  if isUp (s.link n).state then
    linkRetrain (s.updLink n fun k => { k with want := if k.want.contains lane || k.mapped.contains lane then k.want else k.want ++ [lane] }) n
  else s

def linkDisable (s : State) (n : Nat) : State := if (linkLanes n).isSome then linkFall s n else s

/-- LINK_TRAINED: every data lane is trained. A host port may train at x16, x8 or x4, and is DEGRADED below x16; which event it then writes the
spec does not say (log 2). It runs PCIe alone or CXL, as the training chooses (R355). -/
def execLinkTrained (link width : Nat) (s : State) : Host.Outcome State Fault Refusal :=
  .next (
    match linkLanes link with
    | none => s
    | some (data, _) =>
      if (s.link link).state ≠ .training then s
      else
        let (f, s) := if 96 ≤ link then s.freeValue else (0, s)
        let s' := s.updLink link fun k => { k with width := width, cxl := f.testBit 1 }
        if width = data then linkEvent (s'.updLink link fun k => { k with state := .up }) link 1
        else if 96 ≤ link ∧ (width = 8 ∨ width = 4) then linkEvent (s'.updLink link fun k => { k with state := .degraded }) link (1 + f % 2)
        else s)

/-- LINK_LANE_FAILURE while training: a spare is mapped in for the lane that failed, which the step does not name (log 2), or with none free the
link is DOWN. -/
def execLinkLaneFailure (link : Nat) (s : State) : Host.Outcome State Fault Refusal :=
  .next (
    match linkLanes link with
    | none => s
    | some (data, spare) =>
      let k := s.link link
      if k.state ≠ .training then s
      else if k.spused < spare then
        let (f, s) := s.freeValue
        linkEvent (s.updLink link fun k =>
          { k with state := .degraded, spused := k.spused + 1, width := data, mapped := k.mapped ++ [f % data] }) link 2
      else linkEvent (linkFall s link) link 3)

/-- LINK_TRAIN_TIMEOUT. -/
def execLinkTrainTimeout (link : Nat) (s : State) : Host.Outcome State Fault Refusal :=
  .next (if (linkLanes link).isSome ∧ (s.link link).state = .training then linkEvent (linkFall s link) link 3 else s)

/-- The lanes a retraining spares: those that were to be spared, while spares are free, then others that it finds bad (log 2). -/
def spareMap (k : Link) (data free spares f : Nat) : List Nat :=
  let want := k.want.take (min free spares)
  want ++ (List.range (spares - want.length)).map fun i => f / data ^ i % data

/-- LINK_RETRAINED, with this many spares newly mapped, at least one for each lane to be spared while spares are free: the buffer is replayed and
held requests go on. -/
def execLinkRetrained (link spares : Nat) (s : State) : Host.Outcome State Fault Refusal :=
  .next (
    match linkLanes link with
    | none => s
    | some (data, spare) =>
      let k := s.link link
      if k.state ≠ .retrain ∨ spare < k.spused + spares ∨ spares < min k.want.length (spare - k.spused) then s
      else if spares = 0 then
        s.updLink link fun k => Link.pump { k with state := if k.spused = 0 then .up else .degraded, want := [], sent := 0 }
      else
        let (f, s) := s.freeValue
        let new := spareMap k data (spare - k.spused) spares f
        linkEvent (s.updLink link fun k =>
          Link.pump { k with state := .degraded, spused := k.spused + spares, mapped := k.mapped ++ new, want := [], sent := 0 }) link 2)

def execLinkRetrainFailure (link : Nat) (s : State) : Host.Outcome State Fault Refusal :=
  .next (if (linkLanes link).isSome ∧ (s.link link).state = .retrain then linkFall s link else s)

/-- The eye word of a lane that has not been measured (log 5). -/
def Eye.reset : Eye := ⟨0, 255, 255, 255⟩

/-- MARGIN_ALARM: a horizontal margin is measured, and a vertical one, which the step does not carry (log 2); below THR the link writes event 4,
and with AUTO set it retrains and spares the lane (R351). -/
def execMarginAlarm (link lane margin : Nat) (s : State) : Host.Outcome State Fault Refusal :=
  .next (
    match linkLanes link with
    | none => s
    | some (data, spare) =>
      if data + spare ≤ lane then s
      else
        let e := (s.link link).eyes.getD lane Eye.reset
        let h := margin % 256
        let (f, s) := s.freeValue
        let e := { e with h := h, minh := min e.minh h, v := f % 256 }
        let s := s.updLink link fun k => { k with eyes := k.eyes.insert lane e }
        if e.thr ≤ e.minh then s
        else
          let s := laneEvent s link lane
          if (s.link link).auto then spareLane s link lane else s)

/-- The link status word (R351). WIDTH has eight bits; what it shows of a link with more lanes than they can say is not stated (log 2). -/
def Link.word (k : Link) (f : Nat) : Nat :=
  packFields [(3, k.state.code), (1, k.auto.toNat), (12, 0), (8, if k.width < 256 then k.width else f), (8, k.spused), (16, k.lost), (16, k.replay)]

/-- The eye word (R351). -/
def Eye.word (e : Eye) : Nat := packFields [(8, e.v), (8, e.h), (8, e.minh), (8, e.thr)]

/-- REPLAY_THRESHOLD: 16 replays in 1,750 cycles. -/
def execReplayThreshold (link : Nat) (s : State) : Host.Outcome State Fault Refusal :=
  .next (linkStep s link isUp fun k => { k with state := .retrain, replay := min (k.replay + 16) 65535 })

/-! ### Writes from outside (R147, R355) -/

/-- The writer that the directory records for the host and for peers: no core. -/
def outsideWriter : Nat := 1153

/-- Bytes written at their home by a party outside the package: the directory entries of the objects whose lines the L1s hold record it. -/
def outsideWrite (s : State) (pa : Nat) (l : List Byte) : State :=
  let lines := (List.range l.length).map fun i => lineOf (pa + i)
  let objs := (s.cores.flatMap fun k => k.2.l1.filterMap fun e => if lines.contains e.1 then some e.2.obj else none).eraseDups
  let s := writePhys s (l.mapIdx fun i b => (pa + i, b))
  { s with mem := objs.foldl (fun m o => noteWriter m o outsideWriter s.tick) s.mem }

/-- A migration holds writes to bytes of the range. -/
def rangeHeld (s : State) (pa n : Nat) : Bool := s.migs.any fun e => decide (e.2.old < pa + n) && decide (pa < e.2.old + e.2.size)

/-! ### Cletik (R356 to R358) -/

/-- The next flit of the replay buffer goes out. -/
def sendFlit (link : Nat) (s : State) : Host.Outcome State Fault Refusal :=
  .next (
    let k := s.link link
    if k.open && decide (k.sent < k.buffer.length) then s.updLink link fun k => { k with sent := k.sent + 1 } else s)

/-- What a KIND 3 flit returns: credit on each channel, and acknowledgements of flits that have gone out. How much, its payload says, whose layout
the spec does not give: the bits of `f` (log 2). -/
def Link.returned (k : Link) (f : Nat) : Link :=
  let n := f % (k.sent + 1)
  Link.pump { k with
    buffer := k.buffer.drop n
    sent := k.sent - n
    used := k.used.map fun (e : Nat × Nat) => (e.1, e.2 - f / 2 ^ (16 * (e.1 + 1)) % (e.2 + 1)) }

/-- FLIT_RECEIVE: a flit with a bad CRC or a reserved KIND is dropped, and so is one out of sequence; the sender replays it. A header or data flit
takes credit; KIND 3 returns credit and acknowledges; KIND 4 asks for a replay of what is not acknowledged. -/
def execFlitReceive (port flit : Nat) (crc : Bool) (s : State) : Host.Outcome State Fault Refusal :=
  .next (
    let link := 80 + port
    let k := s.link link
    let kind := flit % 16
    let vc := bits flit 5 4
    if 16 ≤ port ∨ !k.open ∨ !crc ∨ 5 ≤ kind ∨ bits flit 15 6 ≠ k.seq then s
    else
      let s := s.updLink link fun k => { k with seq := (k.seq + 1) % 1024 }
      match kind with
      | 1 | 2 => s.updLink link fun k => { k with credits := k.credits.insert vc (min 128 (k.credits.getD vc 0 + 1)) }
      | 3 =>
        let (f, s) := s.freeValue
        s.updLink link fun k => k.returned f
      | 4 => s.updLink link fun k => { k with replay := min (k.replay + 1) 65535, sent := 0 }
      | _ => s)

/-- The physical address of a window offset of a port (R358); none at or beyond the entry's size. -/
def windowAddr (s : State) (port addr n : Nat) : Option Nat :=
  let (base, size) : Nat × Nat := (s.link (80 + port)).windows.getD (bits addr 43 40) (0, 0)
  let o := bits addr 39 0
  if addr < 2 ^ 44 ∧ o + n ≤ size ∧ populated (base + o) n ∧ region (base + o) ≤ 1 then some (base + o) else none

/-- CLETIK_REQUEST: a peer's read or write of this device's memory is performed at its home and answered by a packet of the response channel; the
credit of its flits returns. -/
def execCletikRequest (port : Nat) (write : Bool) (addr n data : Nat) (s : State) : Host.Outcome State Fault Refusal :=
  .next (
    let link := 80 + port
    if 16 ≤ port ∨ !(s.link link).open then s
    else
      let reply (s : State) (l : List Byte) : State :=
        let used := packetFlits (if write then n else 0)
        sendPacket (s.updLink link fun k => { k with credits := k.credits.insert 0 (k.credits.getD 0 0 - used) }) link 1 none l
      match windowAddr s port addr n with
      | none => reply s []
      | some pa =>
        if !write then reply (noteHome s pa) (s.mem.readN pa n)
        else if rangeHeld s pa n then s
        else reply (outsideWrite (noteHome s pa) pa (toBytes n data)) [])

/-! ### The host (R354, R355) -/

/-- The lines of a range leave every L1, dirty bytes going home: back-invalidation (R355). -/
def backInvalidate (s : State) (pa n : Nat) : State := recallLines s fun k => decide (pa / 128 ≤ k) && decide (k ≤ (pa + n - 1) / 128)

/-- A host port carries traffic. -/
def hostOpen (s : State) (port : Nat) : Bool := decide (port < 2) && (s.link (96 + port)).open

/-- HOST_MEMORY_ACCESS: the host reads or writes device memory through BAR4. An address of host or peer memory stands for its owner writing its
own memory. -/
def execHostMemoryAccess (port : Nat) (write : Bool) (addr n data : Nat) (s : State) : Host.Outcome State Fault Refusal :=
  .next (
    if !populated addr n || n == 0 || (write && rangeHeld s addr n) || (decide (region addr ≤ 1) && !hostOpen s port) then s
    else
      let s := backInvalidate s addr n
      let s := if region addr ≤ 1 then noteHome s addr else s
      if write then outsideWrite s addr (toBytes n data) else s)

/-- The new value of an AtomicOp on `w` bits. -/
def HostOp.apply (op : HostOp) (w old data : Nat) : Nat :=
  match op with
  | .fetchAdd => (old + data) % 2 ^ w
  | .swap => data % 2 ^ w
  | .cas => if old = data % 2 ^ w then data / 2 ^ w % 2 ^ w else old

/-- The sizes a port completes: 4 and 8 bytes, and 16 for CAS. -/
def HostOp.size (op : HostOp) (n : Nat) : Bool := n == 4 || n == 8 || (op == .cas && n == 16)

/-- HOST_ATOMICOP: performed at the home of device memory (R147). A CAS carries its compare value below its swap value. -/
def execHostAtomicop (port : Nat) (op : HostOp) (addr n data : Nat) (s : State) : Host.Outcome State Fault Refusal :=
  .next (
    if !HostOp.size op n || decide (addr % n ≠ 0) || !populated addr n || decide (1 < region addr) then s
    else if !hostOpen s port || rangeHeld s addr n then s
    else
      let s := backInvalidate (noteHome s addr) addr n
      outsideWrite s addr (toBytes n (HostOp.apply op (8 * n) (s.mem.readLE addr n) data)))

/-- The half of a line that a snoop names, in one L1: dirty bytes go home; a snoop to invalidate drops the half. -/
def snoopCore (s : State) (g addr : Nat) (write : Bool) : State :=
  let n := lineOf addr
  let lo := addr % 128 / 64 * 64
  let inHalf (i : Nat) : Bool := decide (lo ≤ i) && decide (i < lo + 64)
  match (s.core g).l1.find? n with
  | none => s
  | some l =>
    let d := l.dirty.filter inHalf
    let s := writePhys s (d.map fun i => (128 * n + i, l.bytes.getD i 0))
    s.updCore g fun k => { k with l1 := k.l1.modify n fun l =>
      { l with
        dirty := l.dirty.filter fun i => !inHalf i
        bytes := if write then l.bytes.filter fun e => !inHalf e.1 else l.bytes
        filled := l.filled && !write } }

/-- CXL_SNOOP: the host snoops one half of a Feuri line of its own memory, over a port that runs CXL (R355). -/
def execCxlSnoop (port addr : Nat) (write : Bool) (s : State) : Host.Outcome State Fault Refusal :=
  .next (
    if !(s.link (96 + port)).cxl || !hostOpen s port || decide (region addr ≠ 2 + port) then s
    else s.cores.keys.foldl (fun s g => snoopCore s g addr write) s)

/-! ### Requests that are held (R154, R350) -/

/-- A request of an outside party that is held: its link trains again, or it writes a page that migrates. It stands due until it no longer is. -/
def requestHeld (s : State) : Instr → Bool
  | .cletikRequest port write addr n _ =>
    (s.link (80 + port)).state == .retrain || (write && (windowAddr s port addr n).any fun pa => rangeHeld s pa n)
  | .hostMemoryAccess port write addr n _ => (decide (region addr ≤ 1) && (s.link (96 + port)).state == .retrain) || (write && rangeHeld s addr n)
  | .hostAtomicop port _ addr n _ => (s.link (96 + port)).state == .retrain || rangeHeld s addr n
  | .cxlSnoop port _ _ => (s.link (96 + port)).state == .retrain
  | .flitReceive port _ _ => (s.link (80 + port)).state == .retrain
  | _ => false

/-- The first step of an outside party that stands due and is not held, and the others. -/
def nextDue (s : State) : List Instr → Option (Instr × List Instr)
  | [] => none
  | i :: t => if requestHeld s i then (nextDue s t).map fun e => (e.1, i :: e.2) else some (i, t)

end Sys2Proof.Machine
end

