-- ==== Sys2Proof/Machine/Page.lean ====
section
/-!
DEFINITION. Walks and page faults (R335, R337, R338), migration (R340, R341), the hot-page tracker (R342, R343), and DRAM refresh, scrub and row
swaps (R345 to R348).
-/
namespace Sys2Proof.Machine

/-! ### Page faults (R337) -/

/-- SRC and POS of a record. -/
def walkerSource (s : State) : Walker → Nat × Nat
  | .crew c _ | .fetch c | .line c _ => (0, ((s.crew? c).map (·.seat.cpos)).getD 0)
  | .chain g _ => (1, g % 4 + g / 4 % 24 * 2 ^ 2 + g / 96 * 2 ^ 7)
  | .queue _ | .ring _ | .image _ => (2, 0)

/-- The fault record. -/
def faultWord (s : State) (w : Walk) (seq kind level : Nat) : Nat :=
  let (src, pos) := walkerSource s w.who
  packFields [(124, 0), (18, pos), (2, src), (1, w.write.toNat), (3, level), (4, kind), (8, w.tag), (32, seq), (64, w.va)]

/-- The chain that a walker serves is on its core: it may be swapped out, and another's stand in its place. -/
def chainHere (s : State) (g n tag : Nat) : Bool := (s.chain? g n).any (·.tag == tag)

/-- A waiting ladle record parks (R276). -/
def parkWalker (s : State) (tag : Nat) : Walker → State
  | .chain g n => if chainHere s g n tag then parkChain s g n else s
  | _ => s

/-- A walk that cannot be completed: it joins the outstanding record of its 64 KiB range, waits for a free slot of the ring, or writes a record
of its own. In each case a ladle record parks. -/
def pageFault (s : State) (n : Nat) (w : Walk) (kind level : Nat) : Host.Outcome State Fault Refusal :=
  let wait (s : State) (q : Nat) : State := parkWalker { s with walks := s.walks.insert n { w with fault := some q, full := false } } w.tag w.who
  match List.find? (fun (e : Nat × FaultRec) => e.2.tag == w.tag && e.2.va / 65536 == w.va / 65536) s.faults with
  | some e => .next (wait s e.1)
  | none =>
    if s.mg.frtail - s.mg.frhead ≥ 4096 then .next (parkWalker { s with walks := s.walks.insert n { w with full := true } } w.tag w.who)
    else
      let seq := s.mg.frtail + 1
      let a := s.mg.frbase + 32 * (seq % 4096)
      if !populated a 32 then .fault (.unpopulated a)
      else
        let s := writePhys s ((toBytes 32 (faultWord s w seq kind level)).mapIdx fun i b => (a + i, b))
        .next (wait { s.updMg (fun m => { m with frtail := seq }) with faults := s.faults.insert seq ⟨w.tag, w.va⟩ } seq)

/-! ### Walks (R335) -/

/-- The entry that a walker cache holds for an address at a level. -/
def cachedEntry (l : List WalkEntry) (tag level va : Nat) : Option Nat :=
  (l.find? fun e => e.tag == tag && e.level == level && e.va == va % 2 ^ 57 / levelSize level * levelSize level).map (·.entry)

/-- A walk from a table, through a walker cache: how it ends, and the non-leaf entries it used. -/
def walkVia (m : Memory) (l : List WalkEntry) (tag va : Nat) : Nat → Nat → WalkEnd × List WalkEntry
  | level, table =>
    let down (e : Nat) : WalkEnd × List WalkEntry := match level with
      | 0 => (.fault 1 0, [])
      | k + 1 =>
        let (r, us) := walkVia m l tag va k (pteAddr e)
        (r, ⟨tag, level, va % 2 ^ 57 / levelSize level * levelSize level, e⟩ :: us)
    match cachedEntry l tag level va with
    | some e => down e
    | none =>
      let ptr := table + 8 * levelIndex va level
      let e := m.readLE ptr 8
      if !pteV e then (.fault 0 level, [])
      else match entryError level e with
        | some k => (.fault k level, [])
        | none => if pteLeaf e then (.leaf e level ptr, []) else down e

/-- The cache holds the 4,096 entries used last. -/
def useEntries (l us : List WalkEntry) : List WalkEntry := (us ++ l.filter fun e => !us.contains e).take 4096

/-- The walks that a die's 32 walkers make now: those that wait for no reply and no slot of the fault ring, in the order of their misses, at most
8 of a core. -/
def dieWalks (s : State) (die : Nat) : List Nat :=
  let l := s.walks.filter fun e => dieOf e.2.core == die && e.2.fault.isNone && !e.2.full
  (SMap.keys (l.filter fun e => decide ((l.filter fun o => o.2.core == e.2.core && decide (o.1 < e.1)).length < 8))).take 32

/-- A walk has found its leaf: A and D are set, the core's buffer takes the entry, and the requester goes on. -/
def walkDone (s : State) (n : Nat) (w : Walk) (e level ptr : Nat) : State :=
  let e' := setAD e (w.write && pteW e)
  let s := writePhys { s with walks := s.walks.erase n } ((toBytes 8 e').mapIdx fun i b => (ptr + i, b))
  let size := levelSize level
  let entry : TlbEntry := ⟨w.tag, w.va % 2 ^ 57 / size * size, size, BitVec.ofNat 64 e'⟩
  match w.who with
  | .crew .. | .fetch _ => addTlb s w.core entry
  | .chain g k =>
    let s := addTlb s w.core entry
    if chainHere s g k w.tag then resumeChain s g k else s
  | .line c k => if w.write then saveLine s c k else s
  | .queue _ | .ring _ | .image _ => s

/-- PAGE_WALK: a walk completes or becomes a page fault. -/
def execPageWalk (walk : Nat) (s : State) : Host.Outcome State Fault Refusal :=
  match s.walks.find? walk with
  | none => .next s
  | some w =>
    if w.fault.isSome then .next s
    else match s.ctx? w.tag with
      | none => .next { s with walks := s.walks.erase walk }
      | some c =>
        let die := dieOf w.core
        match walkVia s.mem (s.die die).wcache w.tag w.va 4 c.desc.troot with
        | (end_, us) =>
          let s := if us.isEmpty then s else s.updDie die fun d => { d with wcache := useEntries d.wcache us }
          match end_ with
          | .leaf e level ptr => .next (walkDone s walk w e level ptr)
          | .fault kind level => pageFault s walk w kind level

/-! ### Replies (R338) -/

/-- The walks that wait on a record. -/
def waiters (s : State) (seq : Nat) : List (Nat × Walk) := s.walks.filter fun e => e.2.fault == some seq

/-- ACT 0: every waiter repeats its translation. -/
def freplyRetry (s : State) (seq : Nat) : State :=
  (waiters s seq).foldl (fun s e => { s with walks := s.walks.insert e.1 { e.2 with fault := none } }) { s with faults := s.faults.erase seq }

/-- Lanes of a crew stand on a declined page; it raises PAGE_FAULT when its other walks are over. -/
def declineCrew (s : State) (c : Nat) (lanes : Mask) (va : Nat) : State :=
  s.updCrew c fun x =>
    let (m, a) : Mask × Nat := x.req.declined.getD (0, va)
    { x with req := { x.req with declined := some (m ||| lanes, min a va) } }

/-- A queue-unit access is declined: a ring read, a dependence read, or a completion write. -/
def declineLaunch (s : State) (l : Nat) : State :=
  match s.launch? l with
  | none => s
  | some x =>
    match x.state with
    | .queued => ringFailed s l x
    | .waiting => refuseLaunch s l x 6
    | .ending => s.updLaunch l fun x => { x with step := 3 }
    | _ => s

/-- A record whose page is declined fails with ECODE 2; of a chain that is swapped out, when it returns. -/
def declineChain (s : State) (g n tag : Nat) : State :=
  if chainHere s g n tag then failChain s g n 2
  else
    let fail (c : ChainCtx) : ChainCtx := { c with state := if c.state = .parked then .running else c.state
                                                   work := c.work.map fun w => { w with fail := some 2 } }
    s.updCtx tag fun x => { x with saved := x.saved.map fun k => if k.core = g then { k with chains := k.chains.modify n fail } else k }

/-- ACT 1: every waiter gives up. -/
def freplyDecline (s : State) (seq : Nat) : State :=
  (waiters s seq).foldl (fun s e =>
    let s := { s with walks := s.walks.erase e.1 }
    match e.2.who with
    | .crew c lanes => declineCrew s c lanes e.2.va
    | .fetch c => declineCrew s c (((s.crew? c).map (·.ctl.em)).getD 0) e.2.va
    | .chain g n => declineChain s g n e.2.tag
    | .line c _ => declineCrew s c 0 e.2.va
    | .queue l => declineLaunch s l
    | .ring op => launchRequest s op true
    | .image v => s.updConvoy v fun v => { v with skip := e.2.va / 65536 :: v.skip }) { s with faults := s.faults.erase seq }

/-- A reply to a record that is not outstanding is ignored. -/
def execFreplyRetry (seq : Nat) (s : State) : Host.Outcome State Fault Refusal :=
  .next (if (s.faults.find? seq).isSome then freplyRetry s seq else s)

def execFreplyDecline (seq : Nat) (s : State) : Host.Outcome State Fault Refusal :=
  .next (if (s.faults.find? seq).isSome then freplyDecline s seq else s)

/-- FRHEAD: slots are free again, and the walks that waited for one go on. -/
def frheadWrite (s : State) (v : Nat) : State :=
  { s.updMg (fun m => { m with frhead := v }) with walks := s.walks.map fun (e : Nat × Walk) => (e.1, { e.2 with full := false }) }

def execFrheadWrite (v : Nat) (s : State) : Host.Outcome State Fault Refusal := .next (frheadWrite s v)

/-! ### Migration (R336, R340, R341, R343) -/

/-- An entry of a die's migration log. -/
def migLog (s : State) (die kind tag old new : Nat) : State :=
  let t := s.tracker die
  let a := s.mg.mlbase + 16384 * die + 16 * (t.tail % 1024)
  let w := packFields [(8, kind), (8, 0), (8, tag), (52, old), (52, new)]
  let s := if populated a 16 then writePhys s ((toBytes 16 w).mapIdx fun i b => (a + i, b)) else s
  s.updTracker die fun t => { t with tail := t.tail + 1 }

/-- The log of a die has room: MLTAIL - MLHEAD has not reached 1,024. -/
def logRoom (s : State) (die : Nat) : Bool :=
  let t := s.tracker die
  decide (t.tail - t.head < 1024)

/-- A page overlaps one that migrates. -/
def migrating (s : State) (old size : Nat) : Bool := s.migs.any fun e => decide (e.2.old < old + size) && decide (old < e.2.old + e.2.size)

/-- The lock bit of a page is set: from now on its writes are held. -/
def startMigration (s : State) (tag va size old new kind die : Nat) (cmd : Bool) : State :=
  let (n, s) := s.fresh
  { s with migs := s.migs.insert n ⟨tag, va, size, old, new, kind, 0, die, cmd, []⟩ }

/-- The translations of a range of a tag are dropped everywhere, from the buffers and the walker caches (R336). -/
def dropTlb (s : State) (tag lo hi : Nat) : State :=
  let out (t va size : Nat) : Bool := t == tag && decide (va ≤ hi) && decide (lo < va + size)
  { s with
    cores := s.cores.map fun (e : Nat × Core) => (e.1, { e.2 with tlb := e.2.tlb.filter fun t => !out t.tag t.va t.size })
    dies := s.dies.map fun (e : Nat × Die) => (e.1, { e.2 with wcache := e.2.wcache.filter fun w => !out w.tag w.va (levelSize w.level) }) }

/-- The cached lines of a frame leave every L1, dirty bytes going home. -/
def recallFrame (s : State) (pa size : Nat) : State := recallLines s fun n => decide (pa / 128 ≤ n) && decide (n < (pa + size) / 128)

/-- Every byte of a frame, poison included, is copied to another. -/
def copyFrame (s : State) (old new size : Nat) : State :=
  let inside (lo a : Nat) : Bool := decide (lo ≤ a) && decide (a < lo + size)
  let moved := (s.mem.cells.filter fun e => inside old e.1).map fun (e : Nat × Byte) => (e.1 - old + new, e.2)
  let rest := s.mem.cells.filter fun e => !inside new e.1
  let p := s.mem.poison.filter fun k => !inside new (32 * k)
  { s with mem := { s.mem with
    cells := moved.foldl (fun m e => SMap.insert m e.1 e.2) rest
    poison := p ++ (s.mem.poison.filter fun k => inside old (32 * k)).map fun k => (32 * k - old + new) / 32 } }

def execMigrationRecallDone (mig : Nat) (s : State) : Host.Outcome State Fault Refusal :=
  .next (
    match s.migs.find? mig with
    | some m =>
      if m.stage ≠ 0 then s else { recallFrame s m.old m.size with migs := s.migs.insert mig { m with stage := 1 } }
    | none => s)

/-- The leaf that still maps a migrating page to its old frame: its entry and where it stands. -/
def migLeaf (s : State) (m : Migration) : Option (Nat × Nat) :=
  match s.ctx? m.tag with
  | none => none
  | some c =>
    match walk s.mem c.desc.troot m.va with
    | .leaf e l ptr => if pteAddr e = m.old ∧ levelSize l = m.size then some (e, ptr) else none
    | .fault .. => none

/-- MIGRATION_COPY_DONE: the leaf's ADDR is swapped by compare-and-swap and its translations dropped, or the migration is abandoned (stage 3). -/
def execMigrationCopyDone (mig : Nat) (s : State) : Host.Outcome State Fault Refusal :=
  .next (
    match s.migs.find? mig with
    | some m =>
      if m.stage ≠ 1 then s
      else
        let s := copyFrame s m.old m.new m.size
        match migLeaf s m with
        | some (e, ptr) =>
          let s := writePhys s ((toBytes 8 (e - pteAddr e + m.new)).mapIdx fun i b => (ptr + i, b))
          let s := dropTlb s m.tag (m.va % 2 ^ 57) (m.va % 2 ^ 57 + m.size - 1)
          { s with migs := s.migs.insert mig { m with stage := 2 } }
        | none => { s with migs := s.migs.insert mig { m with stage := 3 } }
    | none => s)

/-- Where a byte of the old frame lies now. -/
def Migration.move (m : Migration) : Place → Place
  | .glob pa va map => .glob (if m.old ≤ pa ∧ pa < m.old + m.size then pa - m.old + m.new else pa) va map
  | p => p

def moveAccs (f : Place → Place) (l : List LaneAcc) : List LaneAcc := l.map fun a => { a with at_ := a.at_.map f }

/-- The places of a store-queue entry. -/
def SqKind.mapPlaces (f : Place → Place) : SqKind → SqKind
  | .store b o c ch => .store (b.map fun e => (e.1, f e.2.1, e.2.2)) o c ch
  | .atomic a => .atomic { a with lanes := a.lanes.map fun l => ({ l.1 with at_ := l.1.at_.map f }, l.2) }
  | .put p => .put { p with els := p.els.map fun e => { e with at_ := e.at_.map f, rowAt := e.rowAt.map f, colAt := e.colAt.map f } }
  | .tile b ch => .tile (b.map fun e => (f e.1, e.2)) ch

/-- The places of an operation in flight. -/
def OpKind.mapPlaces (f : Place → Place) : OpKind → OpKind
  | .load l => .load { l with accs := moveAccs f l.accs }
  | .launch q at_ got d after w pc => .launch q (at_.map f) got d after w pc
  | k => k

/-- The places of the writes a chain has under way. -/
def ChainCtx.mapPlaces (f : Place → Place) (c : ChainCtx) : ChainCtx :=
  { c with work := c.work.map fun w => { w with flight := w.flight.map fun l => { l with bytes := l.bytes.map fun b => (f b.1, b.2) } } }

/-- Accesses that were translated to the old frame go to the new one. -/
def redirect (s : State) (f : Place → Place) : State :=
  { s with
    crews := s.crews.map fun (e : Nat × Crew) => (e.1, { e.2 with sq := e.2.sq.map fun q => { q with kind := q.kind.mapPlaces f } })
    ops := s.ops.map fun (e : Nat × Op) => (e.1, { e.2 with kind := e.2.kind.mapPlaces f })
    cores := s.cores.map fun (e : Nat × Core) =>
      (e.1, { e.2 with chains := e.2.chains.map fun (c : Nat × ChainCtx) => (c.1, c.2.mapPlaces f) }) }

/-! ### The tracker (R342, R343) -/

/-- The leaves below a table: virtual address, level and entry. -/
def leavesFrom (m : Memory) : Nat → Nat → Nat → List (Nat × Nat × Nat)
  | level, table, va =>
    (List.range (if level = 0 then 32 else 512)).flatMap fun i =>
      let e := m.readLE (table + 8 * i) 8
      let v := va + i * levelSize level
      if !pteV e || (entryError level e).isSome then []
      else if pteLeaf e then [(v, level, e)]
      else match level with
        | 0 => []
        | l + 1 => leavesFrom m l (pteAddr e) v

/-- The 64 KiB leaves of every context: tag, virtual address, entry. -/
def pageLeaves (s : State) : List (Nat × Nat × Nat) :=
  s.ctxs.flatMap fun c => (leavesFrom s.mem 4 c.2.desc.troot 0).filterMap fun l => if l.2.1 = 0 then some (c.1, l.1, l.2.2) else none

/-- The leaf that maps a frame. -/
def frameLeaf (s : State) (pa : Nat) : Option (Nat × Nat × Nat) := (pageLeaves s).find? fun l => pteAddr l.2.2 == pa

/-- The page a die demotes: the untouched HBM4E page with MIG 1 of lowest physical address. -/
def demotionPage (s : State) (die : Nat) : Option (Nat × Nat × Nat) :=
  let t := s.tracker die
  let ok (l : Nat × Nat × Nat) : Bool :=
    let a := pteAddr l.2.2
    region a == 0 && homeDie a == die && pteMig l.2.2 && !t.past.contains (a / 65536) && !migrating s a 65536
  ((pageLeaves s).filter ok).foldl (fun (best : Option (Nat × Nat × Nat)) l =>
    match best with
    | none => some l
    | some b => if pteAddr l.2.2 < pteAddr b.2.2 then some l else best) none

/-- The tracker takes its candidates while it can: a skip is logged, a promotion or the demotion that must come first starts. -/
def trackerGo : Nat → State → Nat → State
  | 0, s, _ => s
  | n + 1, s, die =>
    let t := s.tracker die
    match t.todo with
    | [] => s
    | p :: rest =>
      if t.left = 0 || !logRoom s die || (s.migs.any fun e => e.2.die == die && e.2.kind == 1) then s
      else
        let next (s : State) : State := s.updTracker die fun t => { t with todo := rest }
        match frameLeaf s (65536 * p) with
        | none => trackerGo n (next s) die
        | some (tag, va, e) =>
          if migrating s (65536 * p) 65536 then trackerGo n (next s) die
          else if ptePin e then trackerGo n (migLog (next s) die 2 tag (65536 * p) 0) die
          else if !pteMig e then trackerGo n (migLog (next s) die 3 tag (65536 * p) 0) die
          else match t.hbm with
            | f :: fs =>
              let s := (next s).updTracker die fun t => { t with hbm := fs, left := t.left - 1 }
              trackerGo n (startMigration s tag va 65536 (65536 * p) f 0 die false) die
            | [] =>
              match t.lpddr, demotionPage s die with
              | g :: gs, some (tag', va', e') =>
                startMigration (s.updTracker die fun t => { t with lpddr := gs }) tag' va' 65536 (pteAddr e') g 1 die false
              | _, _ => s.updTracker die fun t => { t with todo := [] }

def trackerStep (s : State) (die : Nat) : State := trackerGo ((s.tracker die).todo.length + 1) s die

/-- The state after a step that does not stop. -/
def stepOr (a : State → Host.Outcome State Fault Refusal) (s : State) : State :=
  match a s with
  | .next t => t
  | _ => s

/-- A held write is performed: the head of a crew's queue, unless it waits for more than the lock, a chain's write, or bytes of a unit. -/
def performHeld (f : Place → Place) (s : State) : HeldWriter → State
  | .crew c =>
    match (s.crew? c).bind fun x => x.sq.head? with
    | some q => stepOr (execStoreQueueLeave c) (stepOr (execAtomicPerform c) (stepOr (execReleaseDrainDone q.op) s))
    | none => s
  | .chain g n => ladleAck s g n
  | .unit l => writePhys s (l.map fun b => (match f (.glob b.1 0 .device) with
    | .glob pa _ _ => pa
    | _ => b.1, b.2))

/-- MIGRATION_UNLOCK: held writes are performed in the order in which they reached the directory, into the new frame or, after an abandonment, the
old; the log takes its entry. The frame a demotion leaves joins the pool it was demoted for. -/
def execMigrationUnlock (mig : Nat) (s : State) : Host.Outcome State Fault Refusal :=
  .next (
    match s.migs.find? mig with
    | some m =>
      if m.stage < 2 then s
      else
        let s := { s with migs := s.migs.erase mig }
        let s :=
          if m.stage = 2 then
            let s := redirect (recallFrame s m.old m.size) m.move
            let s := migLog s m.die m.kind m.tag m.old m.new
            if m.kind = 1 then s.updTracker m.die fun t => { t with hbm := t.hbm ++ [m.old] } else s
          else
            let s := migLog s m.die 4 m.tag m.old m.new
            match m.kind with
            | 0 => s.updTracker m.die fun t => { t with hbm := t.hbm ++ [m.new] }
            | 1 => s.updTracker m.die fun t => { t with lpddr := t.lpddr ++ [m.new] }
            | _ => s
        let s := m.order.foldl (performHeld (if m.stage = 2 then m.move else id)) s
        let s := if m.cmd then (if m.stage = 2 then endCmd s 0x0A m.tag 0 else endCmdFree s 0x0A m.tag) else s
        trackerStep s m.die
    | none => s)

/-- Insertion of a page in descending count, ties in ascending address. -/
def insertPage (e : Nat × Nat) : List (Nat × Nat) → List (Nat × Nat)
  | [] => [e]
  | h :: t => if h.2 < e.2 then e :: h :: t else h :: insertPage e t

/-- TRACKER_EPOCH: the candidates of the epoch that ends are taken, and a new epoch begins. With no threshold set there is no candidate. -/
def execTrackerEpoch (die : Nat) (s : State) : Host.Outcome State Fault Refusal :=
  .next (
    let t := s.tracker die
    if s.cycle die < t.since + 1750000 then s
    else
      let l := if t.threshold = 0 then [] else (t.counts.filter fun e => decide (t.threshold ≤ e.2)).foldl (fun l e => insertPage e l) []
      trackerStep (s.updTracker die fun t =>
        { t with counts := [], touched := [], past := t.touched, todo := l.map (·.1), left := 64, since := s.cycle die }) die)

def mlheadWrite (s : State) (die v : Nat) : State := trackerStep (s.updTracker die fun t => { t with head := v }) die

def execMlheadWrite (die v : Nat) (s : State) : Host.Outcome State Fault Refusal := .next (if die < 12 then mlheadWrite s die v else s)

/-! ### DRAM (R345 to R348) -/

/-- The scrub period under way on a stack; with no period set there is none (log 29). -/
def Dram.atTime (k : Dram) (now : Nat) : Dram :=
  if k.period = 0 ∨ now < k.start + 1750000 * k.period then k
  else { k with visits := [], start := now - (now - k.start) % (1750000 * k.period) }

/-- A visit of a row is due: once in each period, sixteen times for a row of the correction list (R348). -/
def Dram.visitDue (k : Dram) (now row : Nat) : Bool :=
  k.period != 0 && decide (k.visits.getD row 0 < if (listedRows k now).any fun e => e.1 == row then 16 else 1)

/-- A scrub visit that is due: corrections are counted and the row listed; an uncorrectable sector is written back poisoned and reported. -/
def scrubVisit (s : State) (bank row : Nat) (corrected bad : List Nat) : State :=
  let d := bankStack bank
  let r := rowName bank row
  let k := (s.dram d).atTime s.now
  if !k.visitDue s.now r then s
  else
    let k := { k with visits := k.visits.insert r (k.visits.getD r 0 + 1) }
    let s := { s with drams := s.drams.insert d (k.correct r s.now corrected.length) }
    bad.foldl (fun s x =>
      let (t, s) := { s with mem := s.mem.addPoison (32 * x) }.freeValue
      reportArray s 4 t) s

/-- A row that has reached 2,048 activations is swapped with one of the bank's rows chosen at random, through the bank's indirection table; its
activations count anew. -/
def rowSwap (s : State) (bank row : Nat) : State :=
  if !(s.bank bank).due row then s
  else
    let (f, s) := s.freeValue
    let f := f % Config.bankRows bank
    s.updBank bank fun b =>
      let place (r : Nat) : Nat := b.map.getD r r
      { b with
        acts := b.acts.erase row
        map := (b.map.insert row (place f)).insert f (place row) }

/-- REFRESH_SLOT carries exactly one of a refresh, a scrub visit and a row swap. -/
def execRefreshSlot (bank : Nat) (work : RefreshWork) (s : State) : Host.Outcome State Fault Refusal :=
  .next (
    match work with
    | .refresh => s
    | .scrub row corrected bad => scrubVisit s bank row corrected bad
    | .swap row => rowSwap s bank row)

/-- REFRESH_WINDOW: after 56,000,000 cycles the bank's table of activations starts again. -/
def execRefreshWindow (bank : Nat) (s : State) : Host.Outcome State Fault Refusal :=
  .next (
    let now := s.cycle (stackDie (bankStack bank))
    if now < (s.bank bank).since + 56000000 then s else s.updBank bank fun b => { b with acts := [], since := now })

end Sys2Proof.Machine
end

