-- ==== Sys2Proof/Machine/Command.lean ====
section
/-!
DEFINITION. The commands of the management interface (R353): contexts (R309 to R311), shape records (R149), queues (R301), translation (R336),
migration (R340), control values, arrays, links, clocks and Cletik windows; and the record of the command ring that comes next.
-/
namespace Sys2Proof.Machine

/-! ### Shape records (R149) -/

/-- Bytes of a table in a context's memory, read through its tables; none where they cannot be read. -/
def tableRead (s : State) (tag va n : Nat) : Option (List Byte) × State :=
  match unitAt s tag va .read with
  | .ok pa map => unitRead s tag va pa n map
  | _ => (none, s)

/-- The shape of a record. -/
def parseShape (i x : Nat) : Shape where
  index := i
  tile := bits x 259 256 == 1
  base := bits x 56 0
  length := bits x 127 64
  pitch := bits x 255 192
  rows := bits x 191 160
  rowBytes := bits x 159 128

/-- The first byte beyond an object. -/
def Shape.top (h : Shape) : Nat := if h.tile then h.base + h.pitch * (h.rows - 1) + h.rowBytes else h.base + h.length

/-- Whether an object has a line in a range of addresses that begins a row of another. -/
def Shape.meets (h : Shape) (lo n : Nat) : Bool :=
  if h.tile then
    decide (lo < h.top) && decide (h.base < lo + n) &&
      (List.range h.rows).any fun r => decide (lo < h.base + r * h.pitch + h.rowBytes) && decide (h.base + r * h.pitch < lo + n)
  else decide (lo < h.base + h.length) && decide (h.base < lo + n)

/-- Two objects share a 128-byte line. -/
def Shape.shares (h k : Shape) : Bool :=
  if k.tile then (List.range k.rows).any fun r => h.meets (k.base + r * k.pitch) k.rowBytes else h.meets k.base k.length

/-- A reserved field, or a field the kind does not use, is not zero. -/
def badShapeFields (x : Nat) : Bool :=
  decide (bits x 503 281 ≠ 0) || decide (bits x 271 260 ≠ 0) || decide (1 < bits x 259 256) || decide (bits x 63 57 ≠ 0) ||
    (if bits x 259 256 = 0 then decide (bits x 255 128 ≠ 0) else decide (bits x 127 64 ≠ 0))

/-- A shape that is misaligned, empty or beyond 2^57. -/
def Shape.bad (h : Shape) : Bool :=
  decide (h.base % 128 ≠ 0) || decide (2 ^ 57 < h.top) ||
    if h.tile then
      decide (h.rows = 0) || decide (h.rowBytes = 0) || decide (h.rowBytes % 128 ≠ 0) || decide (h.pitch % 128 ≠ 0) || decide (h.pitch < h.rowBytes)
    else decide (h.length = 0) || decide (h.length % 128 ≠ 0)

/-- STAT of a record, the lowest that holds; `l` are the objects tracked before it. -/
def shapeStat (tag : Nat) (l : List Shape) (h : Shape) (x : Nat) : Nat :=
  if badShapeFields x then 1
  else if !h.bad && l.any h.shares then 2
  else if h.bad then 3
  else if bits x 279 272 ≠ tag then 4
  else 0

/-- One record of SHTAB: STAT is written, and a good one is tracked. A record with VALID 0 gets no STAT, and one that cannot be read is passed by:
the spec says neither, and this is the model's choice (log 73). -/
def loadShape (s : State) (tag shtab i : Nat) : State :=
  let va := shtab + 64 * i
  match tableRead s tag va 64 with
  | (none, s) => s
  | (some b, s) =>
    let x := ofBytes b
    if !x.testBit 280 then s
    else
      let h := parseShape i x
      let st := shapeStat tag (((s.ctx? tag).map (·.shapes)).getD []) h x
      let s := match unitAt s tag (va + 63) .write with
        | .ok pa _ => unitWrite s tag (va + 63) pa [BitVec.ofNat 8 st]
        | _ => s
      if st = 0 then s.updCtx tag fun c => { c with shapes := c.shapes ++ [h] } else s

/-- SHTAB is read and its records tracked. -/
def loadShapes (s : State) (tag : Nat) : State :=
  match s.ctx? tag with
  | none => s
  | some c => (List.range c.desc.nshape).foldl (fun s i => loadShape s tag c.desc.shtab i) (s.updCtx tag fun c => { c with shapes := [] })

/-! ### Queue descriptors (R301) -/

/-- A descriptor that R301 refuses. -/
def badQueue (tag q x : Nat) : Bool :=
  decide (bits x 7 0 ≠ q) || decide (bits x 10 8 ≠ 0) || decide (bits x 16 13 = 0) || decide (bits x 23 17 = 0) || decide (64 < bits x 23 17) ||
    decide (bits x 31 24 ≠ tag) || decide (bits x 63 32 ≠ 0) || decide (bits x 120 64 % 128 ≠ 0) || decide (bits x 367 121 ≠ 0)

/-- A queue as its descriptor gives it: ACTIVE with EN 1. BASE is a canonical address (R133). -/
def parseQueue (x : Nat) : Queue where
  state := if x.testBit 11 then .active else .disabled
  closing := false
  device := x.testBit 12
  logn := bits x 16 13
  depth := bits x 23 17
  base := bits x 120 64 + if x.testBit 120 then 2 ^ 64 - 2 ^ 57 else 0
  tail := 0
  taken := 0
  head := 0
  eseq := 0
  rcode := 0
  ecode := 0
  done := []

/-- A queue's descriptor is read: accepted, or refused with an event of kind 6. -/
def installQueue (s : State) (tag q x : Nat) : State × Bool :=
  if badQueue tag q x then
    let (l, s) := s.freeValue
    (emit s ⟨1, 6, tag, q % 256 + 256 * l⟩, false)
  else (putQueue { s with queues := s.queues.insert (256 * tag + q) (parseQueue x) } tag q, true)

def readQueue (s : State) (tag q : Nat) : Option Nat × State :=
  match s.ctx? tag with
  | none => (none, s)
  | some c =>
    match tableRead s tag (c.desc.qtab + 64 * q) 64 with
    | (some b, s) => (some (ofBytes b), s)
    | (none, s) => (none, s)

/-- QTAB is read at installation. -/
def loadQueues (s : State) (tag : Nat) : State :=
  (List.range 256).foldl (fun s q =>
    match readQueue s tag q with
    | (some x, s) => (installQueue s tag q x).1
    | (none, s) => s) s

/-- Command 0x11: a queue that is not DISABLED, or a descriptor that R301 refuses, gives result 1. -/
def queueInstall (s : State) (tag q : Nat) : State × Nat :=
  if !ctxAlive s tag || (s.queue? tag q).any (fun x => x.state != .disabled) then (s, 1)
  else match readQueue s tag q with
    | (none, s) => (s, 1)
    | (some x, s) =>
      let (s, ok) := installQueue s tag q x
      (s, if ok then 0 else 1)

/-! ### Contexts (R309 to R311) -/

/-- The fields of a context descriptor. -/
def parseDesc (x : Nat) : Desc where
  shadow := bits x 466 460
  hport := bits x 459 459
  system := x.testBit 458
  cls := bits x 457 456
  loga := bits x 447 384
  swapa := bits x 383 320
  tvec := BitVec.ofNat 64 (bits x 319 256)
  wdog := bits x 255 224
  nshape := bits x 223 192
  shtab := bits x 191 128
  qtab := bits x 127 64
  troot := bits x 63 0

/-- The clusters of PMASK. -/
def parseMembers (x : Nat) : List Nat := (List.range 288).filter fun k => x.testBit (736 + k)

/-- The shadow units that installed contexts reserve on a die. -/
def shadowUsed (s : State) (die : Nat) : Nat :=
  ((s.ctxs.filter fun e => (e.2.members ++ e.2.retiring).any fun cl => cl / 24 == die).map fun (e : Nat × Context) => e.2.desc.shadow).sum

/-- R309's reasons to refuse an installation. -/
def badDesc (s : State) (tag x : Nat) : Bool :=
  let d := parseDesc x
  decide (bits x 735 467 ≠ 0) || decide (bits x 455 448 = 0) || decide (bits x 455 448 ≠ tag) || (s.ctx? tag).isSome ||
    decide (d.loga % 1024 ≠ 0) || decide (d.swapa % 65536 ≠ 0) || decide (d.tvec.toNat % 64 ≠ 0) || decide (d.shtab % 64 ≠ 0) ||
    decide (d.qtab % 16384 ≠ 0) || decide (d.troot % 4096 ≠ 0) || decide (85 < d.shadow) || decide (65536 < d.nshape) ||
    (((parseMembers x).map (· / 24)).eraseDups).any fun die => decide (85 < d.shadow + shadowUsed s die)

/-- A context as it is created: LIVE, its bound entries cleared (R222). -/
def Context.start (x : Nat) : Context where
  state := .live
  desc := parseDesc x
  members := parseMembers x
  retiring := []
  bounds := []
  updates := []
  shapes := []
  logSeq := 0
  why := none
  saved := []
  savedAt := 0
  out := false

/-- INSTALL: the descriptor at a physical address. -/
def execInstall (tag pa : Nat) (s : State) : Host.Outcome State Fault Refusal :=
  quickCmd 0x01 tag (fun s =>
    if pa % 128 ≠ 0 ∨ !populated pa 128 ∨ 3 < region pa then (s, 2)
    else
      let x := s.mem.readLE pa 128
      if badDesc s tag x ∨ ((List.range 4).any fun i => s.mem.poisoned (pa + 32 * i)) then (s, 1)
      else (loadQueues (loadShapes { s with ctxs := s.ctxs.insert tag (Context.start x) } tag) tag, 0)) s

/-- SUSPEND: refused but in LIVE, and where the excess over the shadow storage has no SWAPA (R319). It is over when the context is SWAPPED. -/
def execSuspend (tag : Nat) (s : State) : Host.Outcome State Fault Refusal :=
  longCmd 0x02 tag (fun s =>
    match s.ctx? tag with
    | none => none
    | some c =>
      if c.state ≠ .live || (c.desc.swapa == 0 && swapExcess s tag c.desc) then none
      else
        let s := quiesceCrews (s.updCtx tag fun c => { c with state := .suspending }) fun x => x.seat.tag == tag
        some ((coresOf s tag).foldl (fun s g => pauseChains s g (fun c => c.tag == tag) true) s)) s

/-- RESUME: refused but in SWAPPED. It is over when the context is LIVE. -/
def execResume (tag : Nat) (s : State) : Host.Outcome State Fault Refusal :=
  longCmd 0x03 tag (fun s =>
    match s.ctx? tag with
    | none => none
    | some c => if c.state ≠ .swapped then none else some (s.updCtx tag fun c => { c with state := .restoring })) s

/-- KILL_COMMAND: refused but in LIVE to SWAPPED (R310). It is over when the context is DEAD. -/
def execKillCommand (tag : Nat) (s : State) : Host.Outcome State Fault Refusal :=
  longCmd 0x04 tag (fun s =>
    if ctxAlive s tag ∧ (s.ctx? tag).any (fun c => c.state != .restoring) then some (killContext s tag ⟨6, 0, 0⟩) else none) s

/-- Every remaining entry with the tag is freed. -/
def freeTag (s : State) (tag : Nat) : State :=
  { s with
    ctxs := s.ctxs.erase tag
    queues := s.queues.filter fun e => e.1 / 256 != tag
    walks := s.walks.filter fun e => e.2.tag != tag
    faults := s.faults.filter fun e => e.2.tag != tag
    dies := s.dies.map fun (e : Nat × Die) => (e.1, { e.2 with wcache := e.2.wcache.filter (·.tag ≠ tag) })
    mem := { s.mem with
      dirs := s.mem.dirs.map fun (e : Nat × List DirEntry) => (e.1, e.2.filter fun d => d.obj / 2 ^ 61 != tag)
      writers := s.mem.writers.filter fun e => e.1 / 2 ^ 61 != tag }
    cores := s.cores.map fun (e : Nat × Core) =>
      (e.1, { e.2 with tlb := e.2.tlb.filter (·.tag ≠ tag), l1 := e.2.l1.filter fun l => l.2.tag != tag, tiles := e.2.tiles.filter fun t => t.2.tag != tag,
                       locks := e.2.locks.filter fun k => k.2.tag != tag }) }

/-- UNINSTALL: a DEAD context is FREE. -/
def execUninstall (tag : Nat) (s : State) : Host.Outcome State Fault Refusal :=
  quickCmd 0x05 tag (fun s => if (s.ctx? tag).any (fun c => c.state == .dead) then (freeTag s tag, 0) else (s, 1)) s

/-- PARTITION_ADD: ABSENT or RETIRING becomes MEMBER. -/
def execPartitionAdd (tag cluster : Nat) (s : State) : Host.Outcome State Fault Refusal :=
  quickCmd 0x06 tag (fun s =>
    if 288 ≤ cluster then (s, 2)
    else if (s.ctx? tag).isNone then (s, 1)
    else (s.updCtx tag fun c =>
      { c with members := cluster :: c.members.filter (· ≠ cluster), retiring := c.retiring.filter (· ≠ cluster) }, 0)) s

/-- The context has a group on the cluster. -/
def groupsOn (s : State) (tag cluster : Nat) : Bool := (groupsOf s tag).any fun e => clusterOf e.2.core == cluster

/-- PARTITION_REMOVE: ABSENT, or RETIRING while groups are present; refused on a SWAPPED context whose saved state names the cluster. -/
def execPartitionRemove (tag cluster : Nat) (s : State) : Host.Outcome State Fault Refusal :=
  quickCmd 0x07 tag (fun s =>
    if 288 ≤ cluster then (s, 2)
    else match s.ctx? tag with
      | none => (s, 1)
      | some c =>
        if c.state = .swapped ∧ groupsOn s tag cluster then (s, 1)
        else if !c.members.contains cluster then (s, 0)
        else
          let keep := groupsOn s tag cluster
          (s.updCtx tag fun c =>
            { c with members := c.members.filter (· ≠ cluster), retiring := if keep then cluster :: c.retiring else c.retiring }, 0)) s

/-! ### Translation and migration (R336, R340) -/

/-- A place at a global address of a range. -/
def inRange (lo hi : Nat) : Place → Bool
  | .glob _ va _ => decide (lo ≤ va) && decide (va ≤ hi)
  | _ => false

/-- Accesses of a tag that were translated and are still to be performed: loads, and what the store queues hold. -/
def rangeOps (s : State) (tag lo hi : Nat) : List Nat :=
  SMap.keys (s.ops.filter fun e => (s.crew? e.2.crew).any (fun x => x.seat.tag == tag) && match e.2.kind with
    | .load l => l.accs.any fun a => a.at_.any (inRange lo hi)
    | .launch _ at_ none _ _ _ _ => at_.any (inRange lo hi)
    | _ => false) ++
  (crewsOf s tag).flatMap fun e => e.2.sq.filterMap fun q => if q.kind.places.any (inRange lo hi) then some q.op else none

/-- An access is still to be performed. -/
def accessAlive (s : State) (o : Nat) : Bool := opLive s o || s.crews.any fun e => e.2.sq.any fun q => q.op == o

/-- A ladle write of the tag to the range is under way. -/
def rangeFlight (s : State) (tag lo hi : Nat) : Bool :=
  s.cores.any fun k => k.2.chains.any fun c => c.2.tag == tag && ((c.2.work.map (·.flight)).getD []).any fun f => f.bytes.any fun b => inRange lo hi b.1

/-- Lines on their way to a core that were translated through an entry of the range: prefetches among them. -/
def rangeFills (s : State) (tag lo hi : Nat) : List (Nat × Nat) :=
  s.cores.flatMap fun (e : Nat × Core) =>
    let ts := e.2.tlb.filter fun t => t.tag == tag && decide (t.va ≤ hi) && decide (lo < t.va + t.size)
    (e.2.fills.filter fun n => ts.any fun t => decide (pteAddr t.entry.toNat ≤ 128 * n) && decide (128 * n < pteAddr t.entry.toNat + t.size)).map
      fun n => (e.1, n)

/-- The command is complete once every access it waits for has been performed. -/
def invalidateEnd (s : State) (tag lo hi : Nat) : State :=
  match s.mg.cmd with
  | some c =>
    if c.ops.any (accessAlive s) || rangeFlight s tag lo hi || (c.fills.any fun e => (s.core e.1).fills.contains e.2) then s else finishCmd s 0
  | none => s

/-- INVALIDATE_RANGE: the translations of a range (its first and last address) are dropped at once; while the command is under way the step
recurs until what was translated before has been performed. -/
def execInvalidateRange (tag lo hi : Nat) (s : State) : Host.Outcome State Fault Refusal :=
  .next (
    if s.mg.held.isSome then s
    else match s.mg.cmd with
      | some c => if c.code = 0x08 ∧ c.tag = tag then invalidateEnd s tag lo hi else s
      | none =>
        match beginCmd s 0x08 tag with
        | none => s
        | some s =>
          let l := rangeOps s tag lo hi
          let fs := rangeFills s tag (lo % 2 ^ 57) (hi % 2 ^ 57)
          let s := dropTlb s tag (lo % 2 ^ 57) (hi % 2 ^ 57)
          invalidateEnd (s.updMg fun m => { m with cmd := m.cmd.map fun c => { c with ops := l, fills := fs } }) tag lo hi)

/-- Every object of a tag is recalled: its lines leave every L1, dirty bytes going home (R150). -/
def recallTag (s : State) (tag : Nat) : State :=
  s.cores.keys.foldl (fun s g => invalidateLines s g (SMap.keys ((s.core g).l1.filter fun e => e.2.tag == tag))) s

/-- INVALIDATE_SHAPES: every object of the tag is recalled, and SHTAB read again. -/
def execInvalidateShapes (tag : Nat) (s : State) : Host.Outcome State Fault Refusal :=
  quickCmd 0x09 tag (fun s => if (s.ctx? tag).isNone then (s, 1) else (loadShapes (recallTag s tag) tag, 0)) s

/-- The page a migration command names, when it may move: its frame and size. -/
def migratable (s : State) (tag va : Nat) : Option (Nat × Nat) :=
  match s.ctx? tag with
  | none => none
  | some c =>
    if !canonical va then none
    else match walk s.mem c.desc.troot va with
      | .fault .. => none
      | .leaf e l _ => if l ≤ 1 ∧ !ptePin e ∧ region (pteAddr e) ≤ 1 ∧ !migrating s (pteAddr e) (levelSize l) then some (pteAddr e, levelSize l) else none

/-- MIGRATE: over when the migration is. -/
def execMigrate (tag va pa : Nat) (s : State) : Host.Outcome State Fault Refusal :=
  longCmd 0x0A tag (fun s =>
    match migratable s tag va with
    | none => none
    | some (old, size) =>
      if pa % size ≠ 0 ∨ !populated pa size ∨ 1 < region pa ∨ migrating s pa size ∨ !logRoom s (homeDie pa) then none
      else some (startMigration s tag (va / size * size) size old pa 5 (homeDie pa) true)) s

/-- FRAME_POOL_REFILL: `count` frame addresses of 8 bytes each join a die's pool; tier 0 is HBM4E, 1 LPDDR6. -/
def execFramePoolRefill (die tier ring count : Nat) (s : State) : Host.Outcome State Fault Refusal :=
  quickCmd 0x0B 0 (fun s =>
    if 12 ≤ die ∨ 1 < tier ∨ !populated ring (8 * count) then (s, 2)
    else
      let l := (List.range count).map fun i => s.mem.readLE (ring + 8 * i) 8
      (s.updTracker die fun t => if tier = 0 then { t with hbm := t.hbm ++ l } else { t with lpddr := t.lpddr ++ l }, 0)) s

/-! ### Control values (R326, R342, R348, R364) -/

/-- One of `n` objects, or all of them for 0xFF. -/
def selected (x n : Nat) : Option (List Nat) := if x = 255 then some (List.range n) else if x < n then some [x] else none

def execSetTrackerThreshold (v die : Nat) (s : State) : Host.Outcome State Fault Refusal :=
  quickCmd 0x0C 0 (fun s =>
    match selected die 12 with
    | some l => if v = 0 ∨ 2 ^ 32 ≤ v then (s, 2) else (l.foldl (fun s d => s.updTracker d fun t => { t with threshold := v }) s, 0)
    | none => (s, 2)) s

def execSetTestPeriod (v : Nat) (s : State) : Host.Outcome State Fault Refusal :=
  quickCmd 0x0C 0 (fun s => if v = 1 ∨ v = 2 ∨ v = 3 then (s, 2) else (s.updMg fun m => { m with testPeriod := v }, 0)) s

def execSetScrubPeriod (v stack : Nat) (s : State) : Host.Outcome State Fault Refusal :=
  quickCmd 0x0C 0 (fun s =>
    match selected stack 24 with
    | some l => if v = 0 ∨ 2 ^ 32 ≤ v then (s, 2) else
      ((l.foldl (fun s d => s.updDram d fun k => { k with period := v, visits := [], start := s.now }) s).updMg fun m =>
        { m with scrubPeriod := l.foldl (fun p d => p.insert d v) m.scrubPeriod }, 0)
    | none => (s, 2)) s

def execSetPowerCap (v : Nat) (s : State) : Host.Outcome State Fault Refusal :=
  quickCmd 0x0C 0 (fun s => if 9600 < v then (s, 2) else (s.updMg fun m => { m with powerCap := if v = 0 then 9600 else v }, 0)) s

/-! ### Arrays, links, clocks, windows and queues -/

/-- RETURN_ARRAY: an OFFLINE array returns to service (R326). -/
def execReturnArray (core arr : Nat) (s : State) : Host.Outcome State Fault Refusal :=
  quickCmd 0x0D 0 (fun s =>
    if 1152 ≤ core ∨ 24 ≤ arr then (s, 2)
    else if (s.arr core arr).state = .offline then (returnArrays s core (· == arr), 0)
    else (s, 1)) s

/-- LINKCTL on a link; a number that is no link is malformed. An event the table of R350 does not list for the state leaves the link as it is. -/
def linkCmd (link : Nat) (f : State → State) : State → Host.Outcome State Fault Refusal :=
  quickCmd 0x0E 0 fun s => if (linkLanes link).isNone then (s, 2) else (f s, 0)

def execLinkctlEnable (link : Nat) (s : State) : Host.Outcome State Fault Refusal := linkCmd link (fun s => linkEnable s link) s

def execLinkctlRetrain (link : Nat) (s : State) : Host.Outcome State Fault Refusal := linkCmd link (fun s => linkRetrain s link) s

/-- LINKCTL spare: the link retrains, and the lane is spared when a spare is free. -/
def execLinkctlSpare (link lane : Nat) (s : State) : Host.Outcome State Fault Refusal :=
  quickCmd 0x0E 0 (fun s =>
    match linkLanes link with
    | none => (s, 2)
    | some (data, spare) => if data + spare ≤ lane then (s, 2) else (spareLane s link lane, 0)) s

def execLinkctlDisable (link : Nat) (s : State) : Host.Outcome State Fault Refusal := linkCmd link (fun s => linkDisable s link) s

def execDieClockStep (die clock supply : Nat) (s : State) : Host.Outcome State Fault Refusal :=
  quickCmd 0x0F 0 (fun s =>
    if 12 ≤ die ∨ 3 ≤ clock ∨ 8 ≤ supply then (s, 2) else (s.updDie die fun d => { d with clock := clock, supply := supply }, 0)) s

def execCletikWindowEntry (port entry base size : Nat) (s : State) : Host.Outcome State Fault Refusal :=
  quickCmd 0x10 0 (fun s =>
    if 16 ≤ port ∨ 16 ≤ entry then (s, 2) else (s.updLink (80 + port) fun k => { k with windows := k.windows.insert entry (base, size) }, 0)) s

def execQueueInstall (tag q : Nat) (s : State) : Host.Outcome State Fault Refusal :=
  quickCmd 0x11 tag (fun s => if 256 ≤ q then (s, 2) else queueInstall s tag q) s

/-- A command that is none of R353's, or breaks its form. -/
def execMalformedCommand (s : State) : Host.Outcome State Fault Refusal := quickCmd 0 0 (fun s => (s, 2)) s

/-! ### The command ring (R352, R353) -/

/-- The meaning of the command a record asks for. -/
def commandRun (w : List Nat) (s : State) : Host.Outcome State Fault Refusal :=
  let a (i : Nat) : Nat := w.getD (i + 1) 0
  let tag := bits (w.getD 0 0) 15 8
  if bits (w.getD 0 0) 63 16 ≠ 0 then execMalformedCommand s
  else match w.getD 0 0 % 256 with
    | 0x01 => execInstall tag (a 0) s
    | 0x02 => execSuspend tag s
    | 0x03 => execResume tag s
    | 0x04 => execKillCommand tag s
    | 0x05 => execUninstall tag s
    | 0x06 => execPartitionAdd tag (a 0) s
    | 0x07 => execPartitionRemove tag (a 0) s
    | 0x08 => execInvalidateRange tag (a 0) (a 1) s
    | 0x09 => execInvalidateShapes tag s
    | 0x0A => execMigrate tag (a 0) (a 1) s
    | 0x0B => execFramePoolRefill (a 0) (a 1) (a 2) (a 3) s
    | 0x0C => match a 0 with
      | 0 => execSetTrackerThreshold (a 1) (a 2) s
      | 1 => execSetTestPeriod (a 1) s
      | 2 => execSetScrubPeriod (a 1) (a 2) s
      | 3 => execSetPowerCap (a 1) s
      | _ => execMalformedCommand s
    | 0x0D => execReturnArray (a 0) (a 1) s
    | 0x0E => match a 1 with
      | 0 => execLinkctlEnable (a 0) s
      | 1 => execLinkctlRetrain (a 0) s
      | 2 => execLinkctlSpare (a 0) (a 2) s
      | 3 => execLinkctlDisable (a 0) s
      | _ => execMalformedCommand s
    | 0x0F => if a 1 % 2 ^ 11 = a 1 ∧ bits (a 1) 7 2 = 0 then execDieClockStep (a 0) (a 1 % 4) (bits (a 1) 10 8) s else execMalformedCommand s
    | 0x10 => execCletikWindowEntry (a 0) (a 1) (a 2) (a 3) s
    | 0x11 => execQueueInstall tag (a 0) s
    | _ => execMalformedCommand s

/-- Where a command record stands. -/
def commandAddr (s : State) (seq : Nat) : Nat := s.mg.cmdbase + 64 * (seq % 256)

/-- The command step that is due: the next record of the ring, or the invalidation under way. -/
def commandDue (s : State) : Option (State → Host.Outcome State Fault Refusal) :=
  let at_ (seq : Nat) : Option (State → Host.Outcome State Fault Refusal) :=
    let a := commandAddr s seq
    if populated a 64 && !pathDown s 0 a && !pathHeld s 0 a && !s.mem.poisoned a && !s.mem.poisoned (a + 32) then
      some (commandRun ((List.range 8).map fun i => s.mem.readLE (a + 8 * i) 8))
    else none
  if s.mg.held.isSome then none
  else match s.mg.cmd with
    | some c => if c.code = 0x08 then at_ c.seq else none
    | none => if s.mg.cmdhead < s.mg.cmdtail then at_ (s.mg.cmdhead + 1) else none

end Sys2Proof.Machine
end

