-- ==== Sys2Proof/Machine/Convert.lean ====
section
/-!
DEFINITION. Conversions and packing (R114, R115).
-/
namespace Sys2Proof.Machine

/-- One conversion of a pattern between two types (R67, R114). -/
def convert (dst src : Ty) (rnd : Rnd) (sat : Bool) (x : Nat) : FRes :=
  if dst.isInt then
    if src.isInt then
      let v := tyVal src x
      ⟨wrap (tyWidth dst) (if sat then Sys2Proof.sat v (tyLo dst) (tyHi dst) else v), 0⟩
    else
      let r := fToInt rnd (tyLo dst) (tyHi dst) ((tyFmt src).read x)
      ⟨wrap (tyWidth dst) r.1, r.2⟩
  else if src.isInt then intToF (tyFmt dst) rnd (tyVal src x)
  else (tyFmt dst).give rnd ((tyFmt src).read x)

def execVcvt (h : Hdr) (o : Cvt) (s : State) : Host.Outcome State Fault Refusal :=
  run (.vcvt h o) (fun x s => vectorFloat x s (tyWidth o.dst) o.d fun l =>
    match o.b with
    | some b => byHalves o.dst fun j => convert .bf16 o.src o.rnd false (x.lane 32 (if j = 0 then o.a else b) l)
    | none => convert o.dst o.src o.rnd o.sat (x.lane (tyWidth o.src) o.a l)) s

/-- The field width of a variant (R115). -/
def packWidth : PackTy → Nat
  | .i16 | .n16 => 16
  | .i8 | .n8 => 8
  | .i4 | .n4 => 4

def packSigned : PackTy → Bool
  | .i16 | .i8 | .i4 => true
  | _ => false

/-- A signed 32-bit value saturated to a field, as its pattern. -/
def packField (t : PackTy) (x : Nat) : Nat :=
  let f := packWidth t
  let v := signed 32 x
  wrap f (if packSigned t then Sys2Proof.sat v (-(2 ^ (f - 1) : Nat)) (2 ^ (f - 1) - 1 : Nat) else Sys2Proof.sat v 0 (2 ^ f - 1 : Nat))

/-- In the inserting forms vD is also a source. -/
def execVpack (h : Hdr) (o : Pack) (s : State) : Host.Outcome State Fault Refusal :=
  run (.vpack h o) (fun x s => vectorResult x s 32 o.d fun l =>
    match o.b with
    | some b => packField o.ty (x.lane 32 o.a l) + 2 ^ 16 * packField o.ty (x.lane 32 b l)
    | none => packCode (packWidth o.ty) (x.lane 32 o.d l) o.pos.toNat (packField o.ty (x.lane 32 o.a l))) s
where
  /-- Field `i` of `w` bits replaced by `c`. -/
  packCode (w run i c : Nat) : Nat := run - run / 2 ^ (w * i) % 2 ^ w * 2 ^ (w * i) + c * 2 ^ (w * i)

def execVunpk (h : Hdr) (o : Unpk) (s : State) : Host.Outcome State Fault Refusal :=
  run (.vunpk h o) (fun x s => vectorResult x s 32 o.d fun l =>
    let f := packWidth o.ty
    let v := x.lane 32 o.a l / 2 ^ (f * o.pos.toNat) % 2 ^ f
    if packSigned o.ty then wrap 32 (signed f v) else v) s

end Sys2Proof.Machine
end

