-- ==== Sys2Proof/Machine/CrossLane.lean ====
section
/-!
DEFINITION. Cross-lane operations (R116 to R119): source lanes are read whether or not they are active.
-/
namespace Sys2Proof.Machine

/-- Lane l of D is lane `src l b` of A, with b lane l of B; REL changes nothing at CW = 128 (R116). -/
def shuffle (i : Instr) (o : Shfl) (src : Nat → Nat → Nat) : State → Host.Outcome State Fault Refusal :=
  run i fun x s => vectorResult x s (tyWidth o.ty) o.d fun l => x.lane (tyWidth o.ty) o.a (src l (x.lane (tyWidth o.ty) o.b l) % cw)

def execVshfl (h : Hdr) (o : Shfl) (s : State) : Host.Outcome State Fault Refusal := shuffle (.vshfl h o) o (fun _ b => b) s

def execVshflx (h : Hdr) (o : Shfl) (s : State) : Host.Outcome State Fault Refusal := shuffle (.vshflx h o) o (fun l b => l ^^^ (b % cw)) s

/-- b is read signed; modulo CW its two's complement pattern serves as well. -/
def execVrot (h : Hdr) (o : Shfl) (s : State) : Host.Outcome State Fault Refusal := shuffle (.vrot h o) o (fun l b => l + b) s

/-! ### Reductions and scans (R117, R118) -/

/-- One node: the operation on two patterns of a type, with its flags. -/
def redNode (ty : Ty) (rnd : Rnd) (op : RedOp) (a b : FRes) : FRes :=
  let w := tyWidth ty
  let fl := a.fl ||| b.fl
  if ty = .f32 then
    let r := match op with
      | .min => fminmax fmtF32 false a.bits b.bits
      | .max => fminmax fmtF32 true a.bits b.bits
      | _ => fadd fmtF32 rnd (fmtF32.read a.bits) (fmtF32.read b.bits)
    ⟨r.bits, fl ||| r.fl⟩
  else
    ⟨match op with
      | .add => (a.bits + b.bits) % 2 ^ w
      | .min => wrap w (min (tyVal ty a.bits) (tyVal ty b.bits))
      | .max => wrap w (max (tyVal ty a.bits) (tyVal ty b.bits))
      | .and => a.bits &&& b.bits
      | .or => a.bits ||| b.bits
      | .xor => a.bits ^^^ b.bits, fl⟩

/-- The identities of R117. -/
def redIdentity (ty : Ty) (op : RedOp) : Nat :=
  match op with
  | .add => if ty = .f32 then fmtF32.sign else 0
  | .min => if ty = .f32 then fmtF32.inf else wrap (tyWidth ty) (tyHi ty)
  | .max => if ty = .f32 then fmtF32.signed true fmtF32.inf else wrap (tyWidth ty) (tyLo ty)
  | .and => 2 ^ tyWidth ty - 1
  | .or | .xor => 0

/-- One level of the tree: neighbours are joined. -/
def redLevel (f : FRes → FRes → FRes) : List FRes → List FRes
  | a :: b :: t => f a b :: redLevel f t
  | l => l

/-- The fixed tree of R117: seven levels over 128 lanes. -/
def redTree (f : FRes → FRes → FRes) (l : List FRes) : FRes :=
  ((List.range 7).foldl (fun l _ => redLevel f l) l).headD ⟨0, 0⟩

/-- One step of R118 at distance `d`. -/
def scanLevel (f : FRes → FRes → FRes) (l : List FRes) (d : Nat) : List FRes :=
  l.take d ++ List.zipWith f l (l.drop d)

def scanAll (f : FRes → FRes → FRes) (l : List FRes) : List FRes := [1, 2, 4, 8, 16, 32, 64].foldl (scanLevel f) l

/-- The inputs: an inactive lane gives the identity. -/
def redInputs (x : Iss) (ty : Ty) (op : RedOp) (a : Reg) : List FRes :=
  (List.range 128).map fun l => ⟨if x.em.getLsbD l then x.lane (tyWidth ty) a l else redIdentity ty op, 0⟩

/-- VRED.F32 raises the flags of its nodes for every active lane, whose result each node enters (log 7). -/
def redFlags (x : Iss) (fl : Nat) : Except Trap Nat := floatFlags x fun _ => fl

def execVred (h : Hdr) (o : Red) (s : State) : Host.Outcome State Fault Refusal :=
  run (.vred h o) (fun x s =>
    let r := redTree (redNode o.ty o.rnd o.op) (redInputs x o.ty o.op o.a)
    match redFlags x r.fl with
    | .error t => .trap t
    | .ok fl =>
      let held : Held := match o.d with
        | .s _ => if x.em = 0 then {} else scalarHeld x o.d (BitVec.ofInt 64 (tyVal o.ty r.bits))
        | _ => vectorsHeld x o.d (laneRegs (tyWidth o.ty) fun _ => r.bits)
      .done (giveShort x s { held with fp := BitVec.ofNat 32 fl })) s

/-- A lane's flags are those of the nodes that feed what it receives; inactive lanes give none (R107, log 7). -/
def execVscan (h : Hdr) (o : Scan) (s : State) : Host.Outcome State Fault Refusal :=
  run (.vscan h o) (fun x s =>
    let l := scanAll (redNode o.ty o.rnd o.op) (redInputs x o.ty o.op o.a)
    let out := if o.excl then ⟨redIdentity o.ty o.op, 0⟩ :: l else l
    match floatFlags x fun j => (out.getD j ⟨0, 0⟩).fl with
    | .error t => .trap t
    | .ok fl =>
      .done (giveShort x s { vectorsHeld x o.d (laneRegs (tyWidth o.ty) fun j => (out.getD j ⟨0, 0⟩).bits) with
        fp := BitVec.ofNat 32 fl })) s

/-! ### One named lane (R119) -/

/-- The lane is taken whatever em holds; sign-extended from 32 bits under .I32. -/
def execVextr (h : Hdr) (o : Bin) (s : State) : Host.Outcome State Fault Refusal :=
  run (.vextr h o) (fun x s => scalarResult x s o.ty o.d (x.laneVal o.ty o.a (x.scalarN s o.b % cw))) s

/-- The lane is written whatever em holds; other lanes are unchanged. -/
def execVins (h : Hdr) (o : Bin) (s : State) : Host.Outcome State Fault Refusal :=
  run (.vins h o) (fun x s =>
    .done (giveShort x s (lanesHeld x.bank (lanesMask [x.scalarN s o.b % cw]) o.d (laneRegs (tyWidth o.ty) fun _ => x.scalarN s o.a)))) s

end Sys2Proof.Machine
end

