-- ==== Sys2Proof/Machine/Fences.lean ====
section
/-!
DEFINITION. FENCE and CWAYS (R146, R175 to R177).
-/
namespace Sys2Proof.Machine

def execFence (h : Hdr) (o : Fence) (s : State) : Host.Outcome State Fault Refusal :=
  run (.fence h o) (fun i s =>
    let ord := o.ord.toNat
    let scope := o.scope.toNat
    match sysRelease i s ord scope with
    | some e => e
    | none => .done (giveOp i s (.fence ord scope (fenceAfter s i.c ord scope) false []))) s

/-- Lines leave the L1 until it fits the ways left to it. -/
def shrinkL1 : Nat → State → Nat → State
  | 0, s, _ => s
  | n + 1, s, g => if (s.core g).l1.length ≤ (s.core g).l1Cap then s else shrinkL1 n (makeRoom s g) g

/-- CWAYS: raised, the ways close and are converted later; lowered, the scratch shrinks at issue. -/
def execCways (h : Hdr) (o : Src) (s : State) : Host.Outcome State Fault Refusal :=
  run (.cways h o) (fun i s =>
    let n := i.scalarN s o.a
    let k := s.core i.g
    let gi := i.x.seat.group
    if n > 12 then .trap ⟨0x04, i.em, BitVec.ofNat 64 n⟩
    else if k.scratch.owner.any (· ≠ gi) then .trap ⟨0x04, i.em, 0⟩
    else
      match SMap.keys (s.ops.filter fun e => match e.2.kind with
        | .cways c .. => c == i.g
        | _ => false) with
      | l@(_ :: _) => .wait (.ops l)
      | [] =>
        let n0 := k.scratch.ways
        let s := s.updCore i.g fun k => { k with scratch := { k.scratch with
          owner := if n = 0 then none else some gi
          target := n
          ways := min n n0 } }
        let s := shrinkL1 (s.core i.g).l1.length s i.g
        .done (giveOp i s (.cways i.g n0 n gi))) s

end Sys2Proof.Machine
end

