-- ==== Sys2Proof/Machine/Ladle.lean ====
section
/-!
DEFINITION. The steps of the ladle: taking up a record of each kind (R259 to R275), and its passes, acknowledgements and sums (R265, R266,
R272).
-/
namespace Sys2Proof.Machine

/-! ### Data records -/

def execLinearCopy (core ctx : Nat) (s : State) : Host.Outcome State Fault Refusal := .next (takeUp s core ctx 2 atOnce (startData core ctx 1))

def execTileCopy (core ctx : Nat) (s : State) : Host.Outcome State Fault Refusal := .next (takeUp s core ctx 3 atOnce (startData core ctx 1))

def execGather (core ctx : Nat) (s : State) : Host.Outcome State Fault Refusal := .next (takeUp s core ctx 4 atOnce (startData core ctx 0))

def execScatter (core ctx : Nat) (s : State) : Host.Outcome State Fault Refusal := .next (takeUp s core ctx 5 atOnce (startData core ctx 0))

/-- With SCHK the source tile is verified first (R269). -/
def execPlanePack (core ctx : Nat) (s : State) : Host.Outcome State Fault Refusal :=
  .next (takeUp s core ctx 6 atOnce fun s c w => startData core ctx (if Rec.schk w.words then 0 else 1) s c w)

def execFillRec (core ctx : Nat) (s : State) : Host.Outcome State Fault Refusal := .next (takeUp s core ctx 7 atOnce (startData core ctx 1))

/-- A decode waits at take-up while another record holds the staging buffer (R275). -/
def execDecodeRec (core ctx : Nat) (s : State) : Host.Outcome State Fault Refusal :=
  .next (takeUp s core ctx 8 (fun s _ _ => (s.core core).staging.all (· == ctx)) fun s c w =>
    startData core ctx 1 (s.updCore core fun k => { k with staging := some ctx }) c w)

def execNearStackReduce (core ctx : Nat) (s : State) : Host.Outcome State Fault Refusal :=
  .next (takeUp s core ctx 9 atOnce (startData core ctx 0))

/-! ### Control records (R270, R271) -/

/-- End: the completion arrival, and the context is free. -/
def execLadleEnd (core ctx : Nat) (s : State) : Host.Outcome State Fault Refusal :=
  .next (takeUp s core ctx 1 atOnce fun s c w => endChain (putStat s core { c with work := some w } 2 0) core ctx 0)

/-- Wait-barrier: the context waits under R251. -/
def execWaitBarrier (core ctx : Nat) (s : State) : Host.Outcome State Fault Refusal :=
  .next (takeUp s core ctx 10 atOnce fun s c w =>
    let f := Rec.f w.words
    match chainBar s c (f % 2048) with
    | none => s
    | some n =>
      let b := s.bar core n
      let p := if f.testBit 11 then bits f 31 16 else b.phase
      let s := s.updChain core ctx fun c => { c with state := .waiting, wait := some ⟨n, p, none, []⟩ }
      wakeChains s core n b.state.code b b.releases)

/-- Signal-barrier: an arrival of count N, a release of the chain's earlier records. -/
def execSignalBarrier (core ctx : Nat) (s : State) : Host.Outcome State Fault Refusal :=
  .next (takeUp s core ctx 11 atOnce fun s c w =>
    match chainBar s c (Rec.f w.words % 2048) with
    | none => s
    | some n =>
      let x := s.bar core n
      let k := Rec.n w.words
      let s := if x.kind = 3 ∧ x.state = .armed ∧ k ≠ 0 then s.updBar core n fun b => { b with rel := core :: b.rel.filter (· ≠ core) } else s
      completeRecord (arrive s core n k) core ctx (c.addr + 64))

/-- Loop: a fifth level, or a body that reaches beyond the outer one, is an error. -/
def execLoopRec (core ctx : Nat) (s : State) : Host.Outcome State Fault Refusal :=
  .next (takeUp s core ctx 12 atOnce fun s c w =>
    let body := Rec.f w.words % 16
    let first := c.addr + 64
    let beyond : Bool := match c.loops with
      | [] => false
      | l :: _ => decide (l.first + 64 * l.body < first + 64 * body)
    if c.loops.length = 4 ∨ beyond then endRecord s core ctx 3 14
    else completeRecord (s.updChain core ctx fun c => { c with loops := ⟨first, body, Rec.n w.words, 0⟩ :: c.loops }) core ctx first)

/-- Conditional: inside a body it is an error; a test that needs a page goes on in LADLE_PASS. -/
def execConditional (core ctx : Nat) (s : State) : Host.Outcome State Fault Refusal :=
  .next (takeUp s core ctx 13 atOnce fun s c w => if c.loops.isEmpty then condStep s core ctx c w else endRecord s core ctx 3 14)

/-- Jump: inside a body it is an error. -/
def execJump (core ctx : Nat) (s : State) : Host.Outcome State Fault Refusal :=
  .next (takeUp s core ctx 14 atOnce fun s c w =>
    if c.loops.isEmpty then completeRecord s core ctx (w.words.getD 2 0 % 2 ^ 32) else endRecord s core ctx 3 14)

/-! ### Passes -/

def execLadlePass (core ctx : Nat) (s : State) : Host.Outcome State Fault Refusal := .next (ladlePass s core ctx)

def execLadleWriteAck (core ctx : Nat) (s : State) : Host.Outcome State Fault Refusal := .next (ladleAck s core ctx)

/-- STACK_ADDER_DONE: every indexed row has been read. -/
def execStackAdderDone (core ctx : Nat) (s : State) : Host.Outcome State Fault Refusal :=
  .next (
    match s.chain? core ctx with
    | none => s
    | some c =>
      match c.work with
      | some w =>
        if w.kind ≠ 9 ∨ w.stage ≠ 2 ∨ w.fail.isSome ∨ c.stop.isSome ∨ c.paused ∨ chainWalks s core ctx c.tag then s
        else reduceDone s core ctx c w
      | none => s)

end Sys2Proof.Machine
end

