-- ==== Sys2Proof/Machine/Manage.lean ====
section
/-!
DEFINITION. The management page and its registers (R338, R351 to R354), doorbell pages (R302), package and function-level reset, and bring-up
(R361).
-/
namespace Sys2Proof.Machine

/-! ### Registers (R337, R338, R343, R351, R352) -/

/-- EVHEAD: slots free, kept events are written, and a command that waited to report completes. -/
def evheadWrite (s : State) (v : Nat) : State :=
  let s := s.updMg fun m => { m with evhead := v }
  releaseHeld (flushEvents s.mg.kept.length s)

def execEvheadWrite (v : Nat) (s : State) : Host.Outcome State Fault Refusal := .next (evheadWrite s v)

/-- MOWN: the first port to set it is designated. -/
def designate (s : State) (port : Nat) : State := if s.mg.owner.isNone ∧ port < 2 then s.updMg fun m => { m with owner := some port } else s

def execMstatDesignate (port : Nat) (s : State) : Host.Outcome State Fault Refusal := .next (designate s port)

def clearEvovf (s : State) : State := s.updMg fun m => { m with evovf := false }

def execMstatEvovfClear (s : State) : Host.Outcome State Fault Refusal := .next (clearEvovf s)

/-- The AtomicOp completer sizes of a port's root complex. -/
def setAtomicSizes (s : State) (port sizes : Nat) : State :=
  match port with
  | 0 => s.updMg fun m => { m with atom0 := sizes % 16 }
  | 1 => s.updMg fun m => { m with atom1 := sizes % 16 }
  | _ => s

def execMstatAtomicSizes (port sizes : Nat) (s : State) : Host.Outcome State Fault Refusal := .next (setAtomicSizes s port sizes)

/-- The lane that EYESEL selects. -/
def eyeSelected (s : State) : Option (Nat × Nat) :=
  let n := s.mg.eyesel % 256
  let l := bits s.mg.eyesel 27 16
  match linkLanes n with
  | some (data, spare) => if l < data + spare then some (n, l) else none
  | none => none

def updEye (s : State) (f : Eye → Eye) : State :=
  match eyeSelected s with
  | some (n, l) => s.updLink n fun k => { k with eyes := k.eyes.insert l (f (k.eyes.getD l Eye.reset)) }
  | none => s

/-- A read of an eye word: MINH begins again at the present margin. -/
def readEye (s : State) : Nat × State :=
  match eyeSelected s with
  | some (n, l) => (Eye.word ((s.link n).eyes.getD l Eye.reset), updEye s fun e => { e with minh := e.h })
  | none => (0, s)

/-- A read of a link's status word clears REPLAY. -/
def readLink (s : State) (n : Nat) : Nat × State :=
  if (linkLanes n).isNone then (0, s)
  else
    let (f, s) := if (s.link n).width < 256 then (0, s) else s.freeValue
    ((s.link n).word f, s.updLink n fun k => { k with replay := 0 })

/-- MSTAT as a port reads it. -/
def mstatWord (m : Manage) (port : Nat) : Nat :=
  packFields [(1, m.ready.toNat), (1, m.fault.toNat), (6, 0), (8, m.step), (4, m.atom0), (1, (m.owner == some port).toNat), (1, m.evovf.toNat), (2, 0),
    (4, m.atom1)]

/-- What a read of a 64-bit register of the management page gives. A register that is only written, and an offset without one, reads zero
(log 74). -/
def pageRead (s : State) (port offset : Nat) : Nat × State :=
  match offset with
  | 0x0000 => (mstatWord s.mg port, s)
  | 0x0018 => (s.mg.cmdhead, s)
  | 0x0028 => (s.mg.evtail, s)
  | 0x0048 => (s.mg.frtail % 2 ^ 32, s)
  | 0x0068 => (s.mg.evdrop, s)
  | 0x0078 => readEye s
  | _ =>
    if 0x0100 ≤ offset ∧ offset ≤ 0x0158 ∧ offset % 8 = 0 then ((s.tracker ((offset - 0x0100) / 8)).tail, s)
    else if 0x2000 ≤ offset ∧ offset % 64 = 0 then readLink s ((offset - 0x2000) / 64)
    else (0, s)

/-- A host read through a port, offsets as in REGISTER_WRITE: while a port is designated the other's BAR0 reads zero, and every read of a doorbell
page gives zero (R302, R352). -/
def registerRead (s : State) (port offset : Nat) : Nat × State :=
  if 0x10000 ≤ offset || s.mg.owner.any (· != port) then (0, s) else pageRead s port offset

/-- The read is answered. -/
def answerRead (r : Nat × State) : State := r.2.updMg fun m => { m with answer := r.1 }

/-- LINK_STATUS_READ: through the port that is designated, or either while none is. -/
def execLinkStatusRead (link : Nat) (s : State) : Host.Outcome State Fault Refusal :=
  .next (answerRead (registerRead s (s.mg.owner.getD 0) (0x2000 + 64 * link)))

/-- EYEWORD_READ. -/
def execEyewordRead (s : State) : Host.Outcome State Fault Refusal := .next (answerRead (registerRead s (s.mg.owner.getD 0) 0x0078))

/-- The full count that a 32-bit sequence number stands for, the last one being `last`. -/
def unwrapSeq (last v : Nat) : Nat := last - (last + (2 ^ 32 - v % 2 ^ 32)) % 2 ^ 32

/-- A write of FREPLY. -/
def freplyWrite (s : State) (v : Nat) : State :=
  let seq := unwrapSeq s.mg.frtail (bits v 63 32)
  if (s.faults.find? seq).isNone then s
  else match v % 4 with
    | 0 => freplyRetry s seq
    | 1 => freplyDecline s seq
    | _ => s

/-- A write of MSTAT. -/
def mstatWrite (s : State) (port v : Nat) : State :=
  let s := setAtomicSizes (setAtomicSizes s 0 (bits v 19 16)) 1 (bits v 27 24)
  let s := if v.testBit 20 then designate s port else s
  if v.testBit 21 then clearEvovf s else s

/-- A write of another register of the management page. -/
def pageWrite (s : State) (offset v : Nat) : State :=
  match offset with
  | 0x0008 => s.updMg fun m => { m with cmdbase := v }
  | 0x0010 => s.updMg fun m => { m with cmdtail := v }
  | 0x0020 => s.updMg fun m => { m with evbase := v }
  | 0x0030 => s.updMg fun m => { m with evvec := v }
  | 0x0038 => evheadWrite s v
  | 0x0040 => s.updMg fun m => { m with frbase := v }
  | 0x0050 => freplyWrite s v
  | 0x0058 => frheadWrite s (unwrapSeq s.mg.frtail v)
  | 0x0060 => s.updMg fun m => { m with tmthr := v }
  | 0x0070 => s.updMg fun m => { m with eyesel := v % 256 + bits v 27 16 * 2 ^ 16 }
  | 0x0078 => updEye s fun e => { e with thr := bits v 31 24 }
  | 0x0080 => s.updMg fun m => { m with mlbase := v }
  | _ =>
    if 0x0180 ≤ offset ∧ offset ≤ 0x01D8 ∧ offset % 8 = 0 then mlheadWrite s ((offset - 0x0180) / 8) v
    else if 0x2000 ≤ offset ∧ offset % 64 = 0 ∧ (linkLanes ((offset - 0x2000) / 64)).isSome then
      s.updLink ((offset - 0x2000) / 64) fun k => { k with auto := v.testBit 3 }
    else s

/-- A write of a doorbell page, at an offset in BAR2: through the port that serves the context (R302). One that is wider than 32 bits is
discarded. -/
def doorbellWrite (s : State) (port offset v : Nat) : State :=
  let tag := offset / 4096
  let q := offset % 4096 / 16
  if 2 ^ 32 ≤ v || !((s.ctx? tag).any fun c => c.desc.hport == port) then s
  else match offset % 16 with
    | 0 => doorbell s tag q v
    | 8 => queueControl s tag q v
    | _ => s

/-- REGISTER_WRITE: a host write through a port. Offsets below 0x1_0000 lie in BAR0, those above in BAR2. Only the designated port's BAR0 takes
writes; while none is designated both take writes of MSTAT. -/
def execRegisterWrite (port offset v : Nat) (s : State) : Host.Outcome State Fault Refusal :=
  .next (
    if 0x10000 ≤ offset then doorbellWrite s port (offset - 0x10000) v
    else match s.mg.owner with
      | none => if offset = 0 ∧ port < 2 then mstatWrite s port v else s
      | some p => if p ≠ port then s else if offset = 0 then mstatWrite s port v else pageWrite s offset v)

/-! ### Resets (R352, R354, R361) -/

/-- FUNCTION_LEVEL_RESET: every context that the port serves is killed, and a designation of the port ends. -/
def execFunctionLevelReset (port : Nat) (s : State) : Host.Outcome State Fault Refusal :=
  .next (
    let ts := SMap.keys (s.ctxs.filter fun e => e.2.desc.hport == port)
    let s := ts.foldl (fun s t => killContext s t ⟨6, 0, 0⟩) s
    if s.mg.owner = some port then s.updMg fun m => { m with owner := none } else s)

/-- PACKAGE_RESET: the package as State.reset; memory is written in bring-up, host and peer memory stay, and a link keeps its spare map and a die
its retired cluster. -/
def execPackageReset (s : State) : Host.Outcome State Fault Refusal :=
  .next { State.reset with
    due := s.due
    tick := s.tick
    free := s.free
    nextId := s.nextId
    mem := { State.reset.mem with cells := s.mem.cells, poison := s.mem.poison }
    links := s.links.map fun (e : Nat × Link) => (e.1, { Link.down with spused := e.2.spused, mapped := e.2.mapped })
    dies := (s.dies.filter fun e => !e.2.retired.isEmpty).map fun (e : Nat × Die) => (e.1, { Die.reset with retired := e.2.retired }) }

/-! ### Bring-up (R361) -/

/-- The links that a step trains. -/
def stepLinks : Nat → List Nat
  | 3 => List.range 17
  | 5 => List.range' 32 24 ++ List.range' 64 12
  | 6 => [96, 97]
  | 7 => List.range' 80 16
  | _ => []

/-- What a step begins with: its links train. -/
def beginStep (s : State) (n : Nat) : State := (stepLinks n).foldl linkEnable s

/-- Every DRAM sector is written zero. -/
def zeroDram (s : State) : State :=
  { s with mem := { s.mem with
    cells := s.mem.cells.filter fun e => decide (2 ≤ region e.1)
    poison := s.mem.poison.filter fun k => decide (2 ≤ region (32 * k)) } }

/-- The spare cluster of each die is chosen (log 2), or is the one that a failed test retired; the others take the numbers in order. -/
def chooseSpares (s : State) : State :=
  (List.range 12).foldl (fun s d =>
    let (f, s) := s.freeValue
    s.updDie d fun x =>
      let b := match x.retired with
        | r :: _ => r
        | [] => f % 25
      { x with
        spare := if x.retired.isEmpty then some b else none
        clmap := ((List.range 24).filter fun k => decide (b ≤ k)).map fun k => (k, k + 1) }) s

/-- What a step ends with. -/
def endStep (s : State) (n : Nat) : State :=
  match n with
  | 4 => chooseSpares s
  | 5 => zeroDram s
  | _ => s

/-- BRING_UP_STEP_DONE: the step under way is done once its links have ended their training, and the next begins. A link that failed in step 3 or
5 sets FAULT and bring-up stops. READY is set in step 8. -/
def execBringUpStepDone (s : State) : Host.Outcome State Fault Refusal :=
  .next (
    let n := s.mg.step
    let l := stepLinks n
    if s.mg.fault || decide (8 ≤ n) || l.any (fun k => (s.link k).state == .training) then s
    else if (n = 3 ∨ n = 5) ∧ (l.any fun k => (s.link k).state == .down) then s.updMg fun m => { m with fault := true }
    else beginStep ((endStep s n).updMg fun m => { m with step := n + 1, ready := decide (n = 7) }) (n + 1))

end Sys2Proof.Machine
end

