-- ==== Sys2Proof/Machine/MaskOps.lean ====
section
/-!
DEFINITION. The mask instructions (R103): they act on all 128 bits whatever em holds.
-/
namespace Sys2Proof.Machine

def maskBin (i : Instr) (o : DAB) (f : Mask → Mask → Mask) : State → Host.Outcome State Fault Refusal :=
  run i fun x s => maskResult x s o.d (f (x.x.mask o.a) (x.x.mask o.b))

def maskUn (i : Instr) (o : DA) (f : Mask → Mask) : State → Host.Outcome State Fault Refusal :=
  run i fun x s => maskResult x s o.d (f (x.x.mask o.a))

def setEm (i : Iss) (s : State) (m : Mask) : Effect := .done (giveTag i (setControl i s fun k => { k with em := m }))

def execMand (h : Hdr) (o : DAB) (s : State) : Host.Outcome State Fault Refusal := maskBin (.mand h o) o (fun a b => a &&& b) s

def execMor (h : Hdr) (o : DAB) (s : State) : Host.Outcome State Fault Refusal := maskBin (.mor h o) o (fun a b => a ||| b) s

def execMxor (h : Hdr) (o : DAB) (s : State) : Host.Outcome State Fault Refusal := maskBin (.mxor h o) o (fun a b => a ^^^ b) s

def execMandn (h : Hdr) (o : DAB) (s : State) : Host.Outcome State Fault Refusal := maskBin (.mandn h o) o (fun a b => a &&& ~~~b) s

def execMnot (h : Hdr) (o : DA) (s : State) : Host.Outcome State Fault Refusal := maskUn (.mnot h o) o (fun a => ~~~a) s

def execMmov (h : Hdr) (o : DA) (s : State) : Host.Outcome State Fault Refusal := maskUn (.mmov h o) o (fun a => a) s

def execMpopc (h : Hdr) (o : DA) (s : State) : Host.Outcome State Fault Refusal :=
  run (.mpopc h o) (fun x s => scalarPlain x s o.d (popc 128 (x.x.mask o.a).toNat)) s

/-- All ones when the mask is zero. -/
def execMffs (h : Hdr) (o : DA) (s : State) : Host.Outcome State Fault Refusal :=
  run (.mffs h o) (fun x s => scalarPlain x s o.d (((List.range 128).find? fun l => (x.x.mask o.a).getLsbD l).getD (2 ^ 64 - 1))) s

/-- The divergence stack is unchanged. -/
def execMsetem (h : Hdr) (o : Src) (s : State) : Host.Outcome State Fault Refusal :=
  run (.msetem h o) (fun x s => setEm x s (x.x.mask o.a)) s

def execMgetem (h : Hdr) (o : Dst) (s : State) : Host.Outcome State Fault Refusal :=
  run (.mgetem h o) (fun x s => maskResult x s o.d x.em) s

def execMsave (h : Hdr) (o : MSave) (s : State) : Host.Outcome State Fault Refusal :=
  run (.msave h o) (fun x s =>
    let m : Mask := match o.a with
      | some a => x.x.mask a
      | none => x.em
    .done (giveShort x s (scalarsHeld x o.d [m.setWidth 64, (m >>> 64).setWidth 64]))) s

def execMrest (h : Hdr) (o : MRest) (s : State) : Host.Outcome State Fault Refusal :=
  run (.mrest h o) (fun x s =>
    let m : Mask := (x.scalarAt s o.a 1) ++ (x.scalarAt s o.a 0)
    match o.d with
    | some d => maskResult x s d m
    | none => setEm x s m) s

end Sys2Proof.Machine
end

