-- ==== Sys2Proof/Machine/Special.lean ====
section
/-!
DEFINITION. The special functions of R68. Where the spec only bounds a result, the result is a free choice (Config) among the patterns within
the bound: the exact value is computed in fixed point with 240 fractional bits, far below the least bound, and the patterns within the bound
of it are counted (log 64).
-/
namespace Sys2Proof.Machine

/-- Fractional bits of the fixed-point values. -/
def fxF : Nat := 240
def fxUnit : Int := 2 ^ 240

/-- Σ (±1)^k z^(2k+1) / (2k+1): atanh for `alt` false, atan for `alt` true; `z` is the next power, `z2` its square, both fixed. -/
def oddSeries (alt : Bool) (z2 : Int) : Nat → Nat → Int → Int
  | 0, _, _ => 0
  | n + 1, k, z => z / (2 * k + 1) + oddSeries alt z2 n (k + 1) (if alt then -(z * z2 / fxUnit) else z * z2 / fxUnit)

def atanhFx (z : Int) : Int := oddSeries false (z * z / fxUnit) 80 0 z
def atanFx (z : Int) : Int := oddSeries true (z * z / fxUnit) 60 0 z

/-- ln 2 = 2 atanh(1/3); π = 16 atan(1/5) − 4 atan(1/239). -/
def ln2Fx : Int := 2 * atanhFx (fxUnit / 3)
def piFx : Int := 16 * atanFx (fxUnit / 5) - 4 * atanFx (fxUnit / 239)

/-- Σ of x^k/k! from term `k`, stepping by `d` with sign `sg`: exp for d = 1, cos and sin for d = 2. -/
def expSeries (d : Nat) (alt : Bool) (x : Int) : Nat → Nat → Int → Int
  | 0, _, _ => 0
  | n + 1, k, t =>
    let u := if d = 1 then t * x / fxUnit / (k + 1) else t * x / fxUnit * x / fxUnit / ((k + 1) * (k + 2))
    t + expSeries d alt x n (k + d) (if alt then -u else u)

def expFx (x : Int) : Int := expSeries 1 false x 70 0 fxUnit
def cosFx (x : Int) : Int := expSeries 2 true x 40 0 fxUnit
def sinFx (x : Int) : Int := expSeries 2 true x 40 1 x

/-- The pattern of an ordered key. -/
def unkey (k : Int) : Nat := if k < 0 then 2 ^ 31 + (-k - 1).toNat else k.toNat

/-- An enclosure of the exact value, in units of 2^k: it lies strictly between the ends, or is both. -/
structure Encl where
  lo : Int
  hi : Int
deriving DecidableEq, Repr

/-- Y, known up to `err` units. -/
def Encl.around (y : Int) (err : Nat) : Encl := ⟨y - err, y + err⟩

def Encl.neg (n : Bool) (y : Encl) : Encl := if n then ⟨-y.hi, -y.lo⟩ else y

/-- A free choice among the patterns within mult · 2^b of every value the enclosure leaves open, with the flags of R65 and R68: a pattern at
just that distance from an end is within the bound, since the exact value is no nearer to that end than the end itself. -/
def boundedPick (y : Encl) (k : Int) (mult : Nat) (b : Int) (w : Word) : FRes :=
  let rn := fmtF32.round .rn (decide (y.lo < 0)) y.lo.natAbs 1 k
  if rn.bits % 2 ^ 31 = fmtF32.inf then ⟨rn.bits, flOF ||| flNX⟩
  else
    let d : Int := if b ≥ k then mult * 2 ^ (b - k).toNat else 0
    let l := fmtF32.key (fmtF32.round .ru (decide (y.hi - d < 0)) (y.hi - d).natAbs 1 k).bits
    let h := fmtF32.key (fmtF32.round .rd (decide (y.lo + d < 0)) (y.lo + d).natAbs 1 k).bits
    let p := unkey (l + (w.toNat % (max 1 (h - l + 1)).toNat : Nat))
    ⟨p, flNX ||| (if p % 2 ^ 31 < 2 ^ 23 then flUF else 0)⟩

/-- A bound in units of the last place of the exact value (R68), which is less in magnitude than the end of the enclosure farther from 0. -/
def ulpPick (y : Encl) (k : Int) (mult : Nat) (w : Word) : FRes :=
  boundedPick y k mult (max (floorLog2 (min y.lo.natAbs y.hi.natAbs) 1 + k) (-126) - 23) w

/-- What a special function does with an operand that is no number. -/
def onNan (sig : Bool) : FRes := ⟨fmtF32.nan, if sig then flNV else 0⟩

def invalid : FRes := ⟨fmtF32.nan, flNV⟩

def isPow2 (m : Nat) : Bool := m != 0 && m == 2 ^ Nat.log2 m

def negInt (n : Bool) (x : Int) : Int := if n then -x else x

/-- 1/x: powers of two are exact when the result is normal. -/
def specRcp (free : Word → Word) (x : Nat) : FRes :=
  match fmtF32.read x with
  | .nan b => onNan b
  | .inf n => ⟨fmtF32.signed n 0, 0⟩
  | .fin n m e =>
    if m = 0 then ⟨fmtF32.signed n fmtF32.inf, flDZ⟩
    else
      let r := fmtF32.round .rn n 1 m (-e)
      if isPow2 m && decide (r.bits % 2 ^ 31 ≥ 2 ^ 23) && decide (r.bits % 2 ^ 31 < fmtF32.inf) then ⟨r.bits, 0⟩
      else
        let q : Nat := 2 ^ 240 / m
        ulpPick (Encl.neg n ⟨q, if isPow2 m then q else q + 1⟩) (-240 - e) 1 (free (BitVec.ofNat 32 x))

/-- 1/√x: powers of four are exact. -/
def specRsq (free : Word → Word) (x : Nat) : FRes :=
  match fmtF32.read x with
  | .nan b => onNan b
  | .inf n => if n then invalid else ⟨0, 0⟩
  | .fin n m e =>
    if m = 0 then ⟨fmtF32.signed n fmtF32.inf, flDZ⟩
    else if n then invalid
    else
      let k := (Nat.log2 m : Int) + e
      if isPow2 m && k % 2 == 0 then fmtF32.round .rn false 1 1 (-(k / 2))
      else
        let m := if e % 2 = 0 then m else 2 * m
        let e := if e % 2 = 0 then e else e - 1
        let q : Nat := Nat.sqrt (2 ^ 480 / m)
        ulpPick ⟨q, q + 1⟩ (-240 - e / 2) 2 (free (BitVec.ofNat 32 x))

/-- √x, correctly rounded. -/
def specSqrt (x : Nat) : FRes :=
  match fmtF32.read x with
  | .nan b => onNan b
  | .inf n => if n then invalid else ⟨fmtF32.inf, 0⟩
  | .fin n m e => if m = 0 then ⟨x, 0⟩ else if n then invalid else fsqrtPos fmtF32 m e

/-- 2^x: integers are exact when the result is representable. -/
def specEx2 (free : Word → Word) (x : Nat) : FRes :=
  match fmtF32.read x with
  | .nan b => onNan b
  | .inf n => ⟨if n then 0 else fmtF32.inf, 0⟩
  | .fin n m e =>
    if m = 0 then ⟨fmtF32.one, 0⟩
    else
      let big := decide ((Nat.log2 m : Int) + e ≥ 9)
      if big then (if n then boundedPick ⟨0, 1⟩ (-400) 2 (-149) (free (BitVec.ofNat 32 x)) else ⟨fmtF32.inf, flOF ||| flNX⟩)
      else
        let v : Int := negInt n (m * 2 ^ (e + 240).toNat : Nat)
        let i := v / fxUnit
        let f := v % fxUnit
        if f = 0 ∧ i ≥ -149 then fmtF32.round .rn false 1 1 i
        else ulpPick (Encl.around (expFx (f * ln2Fx / fxUnit)) (2 ^ 20)) (i - 240) 2 (free (BitVec.ofNat 32 x))

/-- log2 x: powers of two are exact. -/
def specLg2 (free : Word → Word) (x : Nat) : FRes :=
  match fmtF32.read x with
  | .nan b => onNan b
  | .inf n => if n then invalid else ⟨fmtF32.inf, 0⟩
  | .fin n m e =>
    if m = 0 then ⟨fmtF32.signed true fmtF32.inf, flDZ⟩
    else if n then invalid
    else
      let L := Nat.log2 m
      let k : Int := e + L
      if isPow2 m then intToF fmtF32 .rn k
      else
        let z : Int := (m - 2 ^ L : Nat) * fxUnit / (m + 2 ^ L : Nat)
        let Y := Encl.around (k * fxUnit + 2 * atanhFx z * fxUnit / ln2Fx) (2 ^ 20)
        if k = 0 ∨ k = -1 then boundedPick Y (-240) 1 (-22) (free (BitVec.ofNat 32 x))
        else ulpPick Y (-240) 2 (free (BitVec.ofNat 32 x))

/-- sin x and tanh x of a small positive x lie between x − x³ and x. -/
def cubed (x : Int) : Encl := ⟨x - x * x / fxUnit * x / fxUnit - 1, x⟩

/-- sin x and cos x of radians. -/
def specTrig (isCos : Bool) (free : Word → Word) (x : Nat) : FRes :=
  match fmtF32.read x with
  | .nan b => onNan b
  | .inf _ => invalid
  | .fin n m e =>
    if m = 0 then ⟨if isCos then fmtF32.one else x, 0⟩
    else
      let X : Int := (m * 2 ^ (e + 240).toNat : Nat)
      let Y : Encl :=
        if X < 2 ^ 180 then (if isCos then ⟨fxUnit - X * X / fxUnit - 1, fxUnit⟩ else Encl.neg n (cubed X))
        else
          let v : Int := negInt n X % (2 * piFx)
          Encl.around (if isCos then cosFx v else sinFx v) (2 ^ 140)
      boundedPick Y (-240) 1 (-21) (free (BitVec.ofNat 32 x))

/-- tanh x. -/
def specTanh (free : Word → Word) (x : Nat) : FRes :=
  match fmtF32.read x with
  | .nan b => onNan b
  | .inf n => ⟨fmtF32.signed n fmtF32.one, 0⟩
  | .fin n m e =>
    if m = 0 then ⟨x, 0⟩
    else
      let Y : Encl :=
        if (Nat.log2 m : Int) + e ≥ 6 then ⟨fxUnit - 1, fxUnit⟩
        else if (Nat.log2 m : Int) + e < -60 then cubed (m * 2 ^ (e + 240).toNat : Nat)
        else
          let t : Int := (m * 2 ^ (e + 241).toNat : Nat)
          let E := expFx (t % ln2Fx) * 2 ^ (t / ln2Fx).toNat
          Encl.around ((E - fxUnit) * fxUnit / (E + fxUnit)) (2 ^ 20)
      ulpPick (Encl.neg n Y) (-240) 2 (free (BitVec.ofNat 32 x))

end Sys2Proof.Machine
end

