-- ==== Sys2Proof/Machine/VectorFloat.lean ====
section
/-!
DEFINITION. The floating vector instructions (R110 to R113).
-/
namespace Sys2Proof.Machine

/-- One operation on the patterns of a and b, in each value of each active lane. -/
def floatBin (i : Instr) (o : FBin) (f : FFmt → Nat → Nat → FRes) : State → Host.Outcome State Fault Refusal :=
  run i fun x s => vectorFloat x s (tyWidth o.ty) o.d fun l => byHalves o.ty fun j =>
    let m := tyFmt o.ty
    let r := f m (negIf m o.na (floatLane x o.ty o.a l j)) (negIf m o.nb (floatLane x o.ty o.b l j))
    if o.sat then { r with bits := fsat m r.bits } else r

def floatUn (i : Instr) (o : FUn) (f : FFmt → Nat → FRes) : State → Host.Outcome State Fault Refusal :=
  run i fun x s => vectorFloat x s (tyWidth o.ty) o.d fun l => byHalves o.ty fun j =>
    f (tyFmt o.ty) (negIf (tyFmt o.ty) o.na (floatLane x o.ty o.a l j))

def execVfadd (h : Hdr) (o : FBin) (s : State) : Host.Outcome State Fault Refusal :=
  floatBin (.vfadd h o) o (fun f a b => fadd f o.rnd (f.read a) (f.read b)) s

def execVfsub (h : Hdr) (o : FBin) (s : State) : Host.Outcome State Fault Refusal :=
  floatBin (.vfsub h o) o (fun f a b => fadd f o.rnd (f.read a) (f.read b).neg) s

def execVfmul (h : Hdr) (o : FBin) (s : State) : Host.Outcome State Fault Refusal :=
  floatBin (.vfmul h o) o (fun f a b => fmul f o.rnd (f.read a) (f.read b)) s

def execVfma (h : Hdr) (o : FTern) (s : State) : Host.Outcome State Fault Refusal :=
  run (.vfma h o) (fun x s => vectorFloat x s (tyWidth o.ty) o.d fun l => byHalves o.ty fun j =>
    let m := tyFmt o.ty
    let r := ffma m o.rnd (m.read (negIf m o.na (floatLane x o.ty o.a l j))) (m.read (negIf m o.nb (floatLane x o.ty o.b l j)))
      (m.read (floatLane x o.ty o.c l j))
    if o.sat then { r with bits := fsat m r.bits } else r) s

def execVfmin (h : Hdr) (o : FBin) (s : State) : Host.Outcome State Fault Refusal :=
  floatBin (.vfmin h o) o (fun f a b => fminmax f false a b) s

def execVfmax (h : Hdr) (o : FBin) (s : State) : Host.Outcome State Fault Refusal :=
  floatBin (.vfmax h o) o (fun f a b => fminmax f true a b) s

def execVfabs (h : Hdr) (o : FUn) (s : State) : Host.Outcome State Fault Refusal := floatUn (.vfabs h o) o (fun f a => fsign f false a) s

def execVfneg (h : Hdr) (o : FUn) (s : State) : Host.Outcome State Fault Refusal := floatUn (.vfneg h o) o (fun f a => fsign f true a) s

/-- R111: under .BF16X2 a bit is 1 when cc holds for both halves. -/
def execVfcmp (h : Hdr) (o : FCmp) (s : State) : Host.Outcome State Fault Refusal :=
  run (.vfcmp h o) (fun x s => maskFloat x s o.d fun l =>
    let m := tyFmt o.ty
    let one (j : Nat) : Bool × Nat :=
      let a := negIf m o.na (floatLane x o.ty o.a l j)
      let b := negIf m o.nb (floatLane x o.ty o.b l j)
      (ccHolds o.cc (fcompare m a b), if (m.read a).isSig || (m.read b).isSig then flNV else 0)
    if o.ty = .bf16x2 then ((one 0).1 && (one 1).1, (one 0).2 ||| (one 1).2) else one 0) s

/-- The class word is 32 bits wide whatever the type (R112). -/
def execVfclass (h : Hdr) (o : FUn) (s : State) : Host.Outcome State Fault Refusal :=
  run (.vfclass h o) (fun x s => vectorResult x s 32 o.d fun l =>
    fclass (tyFmt o.ty) (negIf (tyFmt o.ty) o.na (floatLane x o.ty o.a l 0))) s

/-! ### Special functions (R113) -/

def execVrcp (h : Hdr) (o : FUn) (s : State) : Host.Outcome State Fault Refusal :=
  floatUn (.vrcp h o) o (fun _ a => specRcp Config.vrcp a) s

def execVrsq (h : Hdr) (o : FUn) (s : State) : Host.Outcome State Fault Refusal :=
  floatUn (.vrsq h o) o (fun _ a => specRsq Config.vrsq a) s

def execVsqrt (h : Hdr) (o : FUn) (s : State) : Host.Outcome State Fault Refusal := floatUn (.vsqrt h o) o (fun _ a => specSqrt a) s

def execVex2 (h : Hdr) (o : FUn) (s : State) : Host.Outcome State Fault Refusal :=
  floatUn (.vex2 h o) o (fun _ a => specEx2 Config.vex2 a) s

def execVlg2 (h : Hdr) (o : FUn) (s : State) : Host.Outcome State Fault Refusal :=
  floatUn (.vlg2 h o) o (fun _ a => specLg2 Config.vlg2 a) s

def execVsin (h : Hdr) (o : FUn) (s : State) : Host.Outcome State Fault Refusal :=
  floatUn (.vsin h o) o (fun _ a => specTrig false Config.vsin a) s

def execVcos (h : Hdr) (o : FUn) (s : State) : Host.Outcome State Fault Refusal :=
  floatUn (.vcos h o) o (fun _ a => specTrig true Config.vcos a) s

def execVtanh (h : Hdr) (o : FUn) (s : State) : Host.Outcome State Fault Refusal :=
  floatUn (.vtanh h o) o (fun _ a => specTanh Config.vtanh a) s

end Sys2Proof.Machine
end

