-- ==== Sys2Proof/Machine/VectorInt.lean ====
section
/-!
DEFINITION. The integer vector instructions (R105, R108, R109).
-/
namespace Sys2Proof.Machine

/-- Two values of the type to one, in each active lane. -/
def vectorBin (i : Instr) (o : Bin) (f : Int → Int → Int) : State → Host.Outcome State Fault Refusal :=
  run i fun x s => vectorInt x s o.ty o.d fun l => f (x.laneVal o.ty o.a l) (x.laneVal o.ty o.b l)

/-- A value of the type and lane l of B as an unsigned value of its width. -/
def vectorShift (i : Instr) (o : Bin) (f : Nat → Int → Nat → Int) : State → Host.Outcome State Fault Refusal :=
  run i fun x s => vectorInt x s o.ty o.d fun l =>
    f (tyWidth o.ty) (x.laneVal o.ty o.a l) (x.lane (tyWidth o.ty) o.b l)

def vectorUn (i : Instr) (o : Un) (f : Nat → Int → Int) : State → Host.Outcome State Fault Refusal :=
  run i fun x s => vectorInt x s o.ty o.d fun l => f (tyWidth o.ty) (x.laneVal o.ty o.a l)

def execVadd (h : Hdr) (o : Bin) (s : State) : Host.Outcome State Fault Refusal := vectorBin (.vadd h o) o (fun a b => a + b) s

def execVsub (h : Hdr) (o : Bin) (s : State) : Host.Outcome State Fault Refusal := vectorBin (.vsub h o) o (fun a b => a - b) s

def execVmul (h : Hdr) (o : Bin) (s : State) : Host.Outcome State Fault Refusal := vectorBin (.vmul h o) o (fun a b => a * b) s

def execVmulh (h : Hdr) (o : Bin) (s : State) : Host.Outcome State Fault Refusal :=
  vectorBin (.vmulh h o) o (fun a b => a * b / 2 ^ tyWidth o.ty) s

def execVmad (h : Hdr) (o : Tern) (s : State) : Host.Outcome State Fault Refusal :=
  run (.vmad h o) (fun x s => vectorInt x s o.ty o.d fun l =>
    x.laneVal o.ty o.a l * x.laneVal o.ty o.b l + x.laneVal o.ty o.c l) s

def execVmin (h : Hdr) (o : Bin) (s : State) : Host.Outcome State Fault Refusal := vectorBin (.vmin h o) o min s

def execVmax (h : Hdr) (o : Bin) (s : State) : Host.Outcome State Fault Refusal := vectorBin (.vmax h o) o max s

def execVand (h : Hdr) (o : Bin) (s : State) : Host.Outcome State Fault Refusal :=
  vectorBin (.vand h o) o (bitwiseOn (tyWidth o.ty) Nat.land) s

def execVor (h : Hdr) (o : Bin) (s : State) : Host.Outcome State Fault Refusal :=
  vectorBin (.vor h o) o (bitwiseOn (tyWidth o.ty) Nat.lor) s

def execVxor (h : Hdr) (o : Bin) (s : State) : Host.Outcome State Fault Refusal :=
  vectorBin (.vxor h o) o (bitwiseOn (tyWidth o.ty) Nat.xor) s

def execVshl (h : Hdr) (o : Bin) (s : State) : Host.Outcome State Fault Refusal := vectorShift (.vshl h o) o shiftLeft s

def execVshr (h : Hdr) (o : Bin) (s : State) : Host.Outcome State Fault Refusal := vectorShift (.vshr h o) o shiftRight s

def execVsra (h : Hdr) (o : Bin) (s : State) : Host.Outcome State Fault Refusal := vectorShift (.vsra h o) o shiftArith s

/-- −2^(w−1) gives itself, since the result is taken modulo 2^w. -/
def execVabs (h : Hdr) (o : Un) (s : State) : Host.Outcome State Fault Refusal := vectorUn (.vabs h o) o (fun _ a => a.natAbs) s

def execVneg (h : Hdr) (o : Un) (s : State) : Host.Outcome State Fault Refusal := vectorUn (.vneg h o) o (fun _ a => -a) s

def execVclz (h : Hdr) (o : Un) (s : State) : Host.Outcome State Fault Refusal :=
  vectorUn (.vclz h o) o (fun w a => clz w (wrap w a)) s

def execVpopc (h : Hdr) (o : Un) (s : State) : Host.Outcome State Fault Refusal :=
  vectorUn (.vpopc h o) o (fun w a => popc w (wrap w a)) s

def execVaddsat (h : Hdr) (o : Bin) (s : State) : Host.Outcome State Fault Refusal :=
  vectorBin (.vaddsat h o) o (fun a b => Sys2Proof.sat (a + b) (tyLo o.ty) (tyHi o.ty)) s

def execVsubsat (h : Hdr) (o : Bin) (s : State) : Host.Outcome State Fault Refusal :=
  vectorBin (.vsubsat h o) o (fun a b => Sys2Proof.sat (a - b) (tyLo o.ty) (tyHi o.ty)) s

/-- C names a mask. -/
def execVsel (h : Hdr) (o : Tern) (s : State) : Host.Outcome State Fault Refusal :=
  run (.vsel h o) (fun x s => vectorInt x s o.ty o.d fun l => x.laneVal o.ty (if (x.x.mask o.c).getLsbD l then o.a else o.b) l) s

def execVmov (h : Hdr) (o : Un) (s : State) : Host.Outcome State Fault Refusal := vectorUn (.vmov h o) o (fun _ a => a) s

/-- The source lane is read whether or not it is active. -/
def execVbcast (h : Hdr) (o : Bin) (s : State) : Host.Outcome State Fault Refusal :=
  run (.vbcast h o) (fun x s => vectorInt x s o.ty o.d fun _ => x.laneVal o.ty o.a (x.scalarN s o.b % cw)) s

/-- The control word comes from lane l of B. -/
def execVbfx (h : Hdr) (o : Bin) (s : State) : Host.Outcome State Fault Refusal :=
  run (.vbfx h o) (fun x s => vectorInt x s o.ty o.d fun l =>
    fieldExtract (tyWidth o.ty) (tySigned o.ty) (x.laneVal o.ty o.a l) (x.lane (tyWidth o.ty) o.b l)) s

def execVcmp (h : Hdr) (o : Cmp) (s : State) : Host.Outcome State Fault Refusal :=
  run (.vcmp h o) (fun x s =>
    compareResult x s o.d (compareMask x.em fun l => ccHoldsInt o.cc (x.laneVal o.ty o.a l) (x.laneVal o.ty o.b l))) s

end Sys2Proof.Machine
end

