-- ==== Sys2Proof/Machine/Dispatch.lean ====
section
/-!
DEFINITION. Every instruction and step of the opcode table, one arm each, with its meaning.
-/
namespace Sys2Proof.Machine

def exec (i : Instr) (s : State) : Host.Outcome State Fault Refusal :=
  match i with
  | .sadd h o => Sys2Proof.Machine.execSadd h o s
  | .ssub h o => Sys2Proof.Machine.execSsub h o s
  | .smul h o => Sys2Proof.Machine.execSmul h o s
  | .smulh h o => Sys2Proof.Machine.execSmulh h o s
  | .sdiv h o => Sys2Proof.Machine.execSdiv h o s
  | .srem h o => Sys2Proof.Machine.execSrem h o s
  | .sand h o => Sys2Proof.Machine.execSand h o s
  | .sor h o => Sys2Proof.Machine.execSor h o s
  | .sxor h o => Sys2Proof.Machine.execSxor h o s
  | .sshl h o => Sys2Proof.Machine.execSshl h o s
  | .sshr h o => Sys2Proof.Machine.execSshr h o s
  | .ssra h o => Sys2Proof.Machine.execSsra h o s
  | .smin h o => Sys2Proof.Machine.execSmin h o s
  | .smax h o => Sys2Proof.Machine.execSmax h o s
  | .scmp h o => Sys2Proof.Machine.execScmp h o s
  | .ssel h o => Sys2Proof.Machine.execSsel h o s
  | .smov h o => Sys2Proof.Machine.execSmov h o s
  | .smovi h o => Sys2Proof.Machine.execSmovi h o s
  | .smovh h o => Sys2Proof.Machine.execSmovh h o s
  | .sclz h o => Sys2Proof.Machine.execSclz h o s
  | .spopc h o => Sys2Proof.Machine.execSpopc h o s
  | .sbfx h o => Sys2Proof.Machine.execSbfx h o s
  | .sbfi h o => Sys2Proof.Machine.execSbfi h o s
  | .slea h o => Sys2Proof.Machine.execSlea h o s
  | .bra h o => Sys2Proof.Machine.execBra h o s
  | .bru h o => Sys2Proof.Machine.execBru h o s
  | .brx h o => Sys2Proof.Machine.execBrx h o s
  | .brv h o => Sys2Proof.Machine.execBrv h o s
  | .join h => Sys2Proof.Machine.execJoin h s
  | .call h o => Sys2Proof.Machine.execCall h o s
  | .ret h => Sys2Proof.Machine.execRet h s
  | .exit h => Sys2Proof.Machine.execExit h s
  | .yld h => Sys2Proof.Machine.execYld h s
  | .nop h => Sys2Proof.Machine.execNop h s
  | .waitc h => Sys2Proof.Machine.execWaitc h s
  | .mand h o => Sys2Proof.Machine.execMand h o s
  | .mor h o => Sys2Proof.Machine.execMor h o s
  | .mxor h o => Sys2Proof.Machine.execMxor h o s
  | .mandn h o => Sys2Proof.Machine.execMandn h o s
  | .mnot h o => Sys2Proof.Machine.execMnot h o s
  | .mmov h o => Sys2Proof.Machine.execMmov h o s
  | .mpopc h o => Sys2Proof.Machine.execMpopc h o s
  | .mffs h o => Sys2Proof.Machine.execMffs h o s
  | .msetem h o => Sys2Proof.Machine.execMsetem h o s
  | .mgetem h o => Sys2Proof.Machine.execMgetem h o s
  | .msave h o => Sys2Proof.Machine.execMsave h o s
  | .mrest h o => Sys2Proof.Machine.execMrest h o s
  | .vadd h o => Sys2Proof.Machine.execVadd h o s
  | .vsub h o => Sys2Proof.Machine.execVsub h o s
  | .vmul h o => Sys2Proof.Machine.execVmul h o s
  | .vmulh h o => Sys2Proof.Machine.execVmulh h o s
  | .vmad h o => Sys2Proof.Machine.execVmad h o s
  | .vmin h o => Sys2Proof.Machine.execVmin h o s
  | .vmax h o => Sys2Proof.Machine.execVmax h o s
  | .vand h o => Sys2Proof.Machine.execVand h o s
  | .vor h o => Sys2Proof.Machine.execVor h o s
  | .vxor h o => Sys2Proof.Machine.execVxor h o s
  | .vshl h o => Sys2Proof.Machine.execVshl h o s
  | .vshr h o => Sys2Proof.Machine.execVshr h o s
  | .vsra h o => Sys2Proof.Machine.execVsra h o s
  | .vabs h o => Sys2Proof.Machine.execVabs h o s
  | .vneg h o => Sys2Proof.Machine.execVneg h o s
  | .vclz h o => Sys2Proof.Machine.execVclz h o s
  | .vpopc h o => Sys2Proof.Machine.execVpopc h o s
  | .vaddsat h o => Sys2Proof.Machine.execVaddsat h o s
  | .vsubsat h o => Sys2Proof.Machine.execVsubsat h o s
  | .vsel h o => Sys2Proof.Machine.execVsel h o s
  | .vmov h o => Sys2Proof.Machine.execVmov h o s
  | .vbcast h o => Sys2Proof.Machine.execVbcast h o s
  | .vbfx h o => Sys2Proof.Machine.execVbfx h o s
  | .vcmp h o => Sys2Proof.Machine.execVcmp h o s
  | .vfadd h o => Sys2Proof.Machine.execVfadd h o s
  | .vfsub h o => Sys2Proof.Machine.execVfsub h o s
  | .vfmul h o => Sys2Proof.Machine.execVfmul h o s
  | .vfma h o => Sys2Proof.Machine.execVfma h o s
  | .vfmin h o => Sys2Proof.Machine.execVfmin h o s
  | .vfmax h o => Sys2Proof.Machine.execVfmax h o s
  | .vfabs h o => Sys2Proof.Machine.execVfabs h o s
  | .vfneg h o => Sys2Proof.Machine.execVfneg h o s
  | .vfcmp h o => Sys2Proof.Machine.execVfcmp h o s
  | .vfclass h o => Sys2Proof.Machine.execVfclass h o s
  | .vrcp h o => Sys2Proof.Machine.execVrcp h o s
  | .vrsq h o => Sys2Proof.Machine.execVrsq h o s
  | .vsqrt h o => Sys2Proof.Machine.execVsqrt h o s
  | .vex2 h o => Sys2Proof.Machine.execVex2 h o s
  | .vlg2 h o => Sys2Proof.Machine.execVlg2 h o s
  | .vsin h o => Sys2Proof.Machine.execVsin h o s
  | .vcos h o => Sys2Proof.Machine.execVcos h o s
  | .vtanh h o => Sys2Proof.Machine.execVtanh h o s
  | .vcvt h o => Sys2Proof.Machine.execVcvt h o s
  | .vpack h o => Sys2Proof.Machine.execVpack h o s
  | .vunpk h o => Sys2Proof.Machine.execVunpk h o s
  | .vshfl h o => Sys2Proof.Machine.execVshfl h o s
  | .vshflx h o => Sys2Proof.Machine.execVshflx h o s
  | .vrot h o => Sys2Proof.Machine.execVrot h o s
  | .vred h o => Sys2Proof.Machine.execVred h o s
  | .vscan h o => Sys2Proof.Machine.execVscan h o s
  | .vextr h o => Sys2Proof.Machine.execVextr h o s
  | .vins h o => Sys2Proof.Machine.execVins h o s
  | .xhash32 h o => Sys2Proof.Machine.execXhash32 h o s
  | .xhash64 h o => Sys2Proof.Machine.execXhash64 h o s
  | .xpart h o => Sys2Proof.Machine.execXpart h o s
  | .xstrcmp h o => Sys2Proof.Machine.execXstrcmp h o s
  | .xstrfnd h o => Sys2Proof.Machine.execXstrfnd h o s
  | .xstrlen h o => Sys2Proof.Machine.execXstrlen h o s
  | .xqnt h o => Sys2Proof.Machine.execXqnt h o s
  | .xdqnt h o => Sys2Proof.Machine.execXdqnt h o s
  | .xcbdec h o => Sys2Proof.Machine.execXcbdec h o s
  | .xbdipk h o => Sys2Proof.Machine.execXbdipk h o s
  | .xbdiup h o => Sys2Proof.Machine.execXbdiup h o s
  | .xrng h o => Sys2Proof.Machine.execXrng h o s
  | .transformResult op => Sys2Proof.Machine.execTransformResult op s
  | .lds h o => Sys2Proof.Machine.execLds h o s
  | .sts h o => Sys2Proof.Machine.execSts h o s
  | .ldg h o => Sys2Proof.Machine.execLdg h o s
  | .stg h o => Sys2Proof.Machine.execStg h o s
  | .ldx h o => Sys2Proof.Machine.execLdx h o s
  | .stx h o => Sys2Proof.Machine.execStx h o s
  | .ldsc h o => Sys2Proof.Machine.execLdsc h o s
  | .stsc h o => Sys2Proof.Machine.execStsc h o s
  | .tldm h o => Sys2Proof.Machine.execTldm h o s
  | .tstm h o => Sys2Proof.Machine.execTstm h o s
  | .tstp h o => Sys2Proof.Machine.execTstp h o s
  | .pref h o => Sys2Proof.Machine.execPref h o s
  | .cways h o => Sys2Proof.Machine.execCways h o s
  | .fence h o => Sys2Proof.Machine.execFence h o s
  | .atom h o => Sys2Proof.Machine.execAtom h o s
  | .atomCas h o => Sys2Proof.Machine.execAtomCas h o s
  | .atomFadd h o => Sys2Proof.Machine.execAtomFadd h o s
  | .atomFxadd h o => Sys2Proof.Machine.execAtomFxadd h o s
  | .atomFmaxr h o => Sys2Proof.Machine.execAtomFmaxr h o s
  | .satom h o => Sys2Proof.Machine.execSatom h o s
  | .lineFill core line => Sys2Proof.Machine.execLineFill core line s
  | .loadDataArrive op => Sys2Proof.Machine.execLoadDataArrive op s
  | .storeQueueLeave crew => Sys2Proof.Machine.execStoreQueueLeave crew s
  | .atomicPerform crew => Sys2Proof.Machine.execAtomicPerform crew s
  | .atomicResultReturn crew => Sys2Proof.Machine.execAtomicResultReturn crew s
  | .drainDemand core op => Sys2Proof.Machine.execDrainDemand core op s
  | .acquireDrainDone op => Sys2Proof.Machine.execAcquireDrainDone op s
  | .rangeLockActivate core lock => Sys2Proof.Machine.execRangeLockActivate core lock s
  | .cwaysConverted op => Sys2Proof.Machine.execCwaysConverted op s
  | .bari h o => Sys2Proof.Machine.execBari h o s
  | .bara h o => Sys2Proof.Machine.execBara h o s
  | .barw h o => Sys2Proof.Machine.execBarw h o s
  | .baraw h o => Sys2Proof.Machine.execBaraw h o s
  | .bart h o => Sys2Proof.Machine.execBart h o s
  | .barx h o => Sys2Proof.Machine.execBarx h o s
  | .barq h o => Sys2Proof.Machine.execBarq h o s
  | .clb h o => Sys2Proof.Machine.execClb h o s
  | .armodeReef h o => Sys2Proof.Machine.execArmodeReef h o s
  | .armodeUnreef h o => Sys2Proof.Machine.execArmodeUnreef h o s
  | .arqState h o => Sys2Proof.Machine.execArqState h o s
  | .arqSlot h o => Sys2Proof.Machine.execArqSlot h o s
  | .arqHeld h o => Sys2Proof.Machine.execArqHeld h o s
  | .arraySettled core arr pass => Sys2Proof.Machine.execArraySettled core arr pass s
  | .arrayUnreefed core arr => Sys2Proof.Machine.execArrayUnreefed core arr s
  | .arrayCleared core arr => Sys2Proof.Machine.execArrayCleared core arr s
  | .mma h o => Sys2Proof.Machine.execMma h o s
  | .mmag h o => Sys2Proof.Machine.execMmag h o s
  | .mmad h o => Sys2Proof.Machine.execMmad h o s
  | .metadataReadDone op => Sys2Proof.Machine.execMetadataReadDone op s
  | .mmagLatchFull op => Sys2Proof.Machine.execMmagLatchFull op s
  | .matrixSlotTake op => Sys2Proof.Machine.execMatrixSlotTake op s
  | .matrixResult op replays => Sys2Proof.Machine.execMatrixResult op replays s
  | .tdecl h o => Sys2Proof.Machine.execTdecl h o s
  | .tfree h o => Sys2Proof.Machine.execTfree h o s
  | .tchk h o => Sys2Proof.Machine.execTchk h o s
  | .tfix h o => Sys2Proof.Machine.execTfix h o s
  | .bndset h o => Sys2Proof.Machine.execBndset h o s
  | .bndclr h o => Sys2Proof.Machine.execBndclr h o s
  | .chain h o => Sys2Proof.Machine.execChain h o s
  | .chainStart op => Sys2Proof.Machine.execChainStart op s
  | .chq h o => Sys2Proof.Machine.execChq h o s
  | .chstop h o => Sys2Proof.Machine.execChstop h o s
  | .launch h o => Sys2Proof.Machine.execLaunch h o s
  | .trap h o => Sys2Proof.Machine.execTrap h o s
  | .tret h o => Sys2Proof.Machine.execTret h o s
  | .getsr h o => Sys2Proof.Machine.execGetsr h o s
  | .setsr h o => Sys2Proof.Machine.execSetsr h o s
  | .preen h o => Sys2Proof.Machine.execPreen h o s
  | .predis h o => Sys2Proof.Machine.execPredis h o s
  | .errinjCell h o => Sys2Proof.Machine.execErrinjCell h o s
  | .errinjPass h o => Sys2Proof.Machine.execErrinjPass h o s
  | .errinjRcl h o => Sys2Proof.Machine.execErrinjRcl h o s
  | .regcacheFill crew => Sys2Proof.Machine.execRegcacheFill crew s
  | .instructionFetchWalk crew => Sys2Proof.Machine.execInstructionFetchWalk crew s
  | .crewPromotion core sched => Sys2Proof.Machine.execCrewPromotion core sched s
  | .forcedDemotion core sched => Sys2Proof.Machine.execForcedDemotion core sched s
  | .preemption crew => Sys2Proof.Machine.execPreemption crew s
  | .kill crew => Sys2Proof.Machine.execKill crew s
  | .crewDrained crew => Sys2Proof.Machine.execCrewDrained crew s
  | .groupFree group => Sys2Proof.Machine.execGroupFree group s
  | .predisBudgetExpiry crew => Sys2Proof.Machine.execPredisBudgetExpiry crew s
  | .handlerWatchdog crew => Sys2Proof.Machine.execHandlerWatchdog crew s
  | .ladleEnd core ctx => Sys2Proof.Machine.execLadleEnd core ctx s
  | .linearCopy core ctx => Sys2Proof.Machine.execLinearCopy core ctx s
  | .tileCopy core ctx => Sys2Proof.Machine.execTileCopy core ctx s
  | .gather core ctx => Sys2Proof.Machine.execGather core ctx s
  | .scatter core ctx => Sys2Proof.Machine.execScatter core ctx s
  | .planePack core ctx => Sys2Proof.Machine.execPlanePack core ctx s
  | .fillRec core ctx => Sys2Proof.Machine.execFillRec core ctx s
  | .decodeRec core ctx => Sys2Proof.Machine.execDecodeRec core ctx s
  | .nearStackReduce core ctx => Sys2Proof.Machine.execNearStackReduce core ctx s
  | .waitBarrier core ctx => Sys2Proof.Machine.execWaitBarrier core ctx s
  | .signalBarrier core ctx => Sys2Proof.Machine.execSignalBarrier core ctx s
  | .loopRec core ctx => Sys2Proof.Machine.execLoopRec core ctx s
  | .conditional core ctx => Sys2Proof.Machine.execConditional core ctx s
  | .jump core ctx => Sys2Proof.Machine.execJump core ctx s
  | .ladlePass core ctx => Sys2Proof.Machine.execLadlePass core ctx s
  | .ladleWriteAck core ctx => Sys2Proof.Machine.execLadleWriteAck core ctx s
  | .stackAdderDone core ctx => Sys2Proof.Machine.execStackAdderDone core ctx s
  | .uncorrectableError e clean tagOk => Sys2Proof.Machine.execUncorrectableError e clean tagOk s
  | .pageWalk walk => Sys2Proof.Machine.execPageWalk walk s
  | .freplyRetry seq => Sys2Proof.Machine.execFreplyRetry seq s
  | .freplyDecline seq => Sys2Proof.Machine.execFreplyDecline seq s
  | .frheadWrite v => Sys2Proof.Machine.execFrheadWrite v s
  | .migrationRecallDone mig => Sys2Proof.Machine.execMigrationRecallDone mig s
  | .migrationCopyDone mig => Sys2Proof.Machine.execMigrationCopyDone mig s
  | .migrationUnlock mig => Sys2Proof.Machine.execMigrationUnlock mig s
  | .trackerEpoch die => Sys2Proof.Machine.execTrackerEpoch die s
  | .mlheadWrite die v => Sys2Proof.Machine.execMlheadWrite die v s
  | .refreshSlot bank work => Sys2Proof.Machine.execRefreshSlot bank work s
  | .refreshWindow bank => Sys2Proof.Machine.execRefreshWindow bank s
  | .doorbell tag q t => Sys2Proof.Machine.execDoorbell tag q t s
  | .queueSuspend tag q => Sys2Proof.Machine.execQueueSuspend tag q s
  | .queueResume tag q => Sys2Proof.Machine.execQueueResume tag q s
  | .queueDisable tag q => Sys2Proof.Machine.execQueueDisable tag q s
  | .queueLaunchRequest op => Sys2Proof.Machine.execQueueLaunchRequest op s
  | .launchTakeUp => Sys2Proof.Machine.execLaunchTakeUp s
  | .launchRecordCheck launch => Sys2Proof.Machine.execLaunchRecordCheck launch s
  | .dependenceRead launch => Sys2Proof.Machine.execDependenceRead launch s
  | .convoyPlacement die => Sys2Proof.Machine.execConvoyPlacement die s
  | .convoyStart convoy => Sys2Proof.Machine.execConvoyStart convoy s
  | .launchTimeLimit launch => Sys2Proof.Machine.execLaunchTimeLimit launch s
  | .completionRelease launch => Sys2Proof.Machine.execCompletionRelease launch s
  | .completionStatusWrite launch => Sys2Proof.Machine.execCompletionStatusWrite launch s
  | .completionWordWrite launch => Sys2Proof.Machine.execCompletionWordWrite launch s
  | .completionInterrupt launch => Sys2Proof.Machine.execCompletionInterrupt launch s
  | .contextSaveStart tag => Sys2Proof.Machine.execContextSaveStart tag s
  | .contextSaved tag => Sys2Proof.Machine.execContextSaved tag s
  | .contextRestoreStart tag => Sys2Proof.Machine.execContextRestoreStart tag s
  | .contextRestored tag => Sys2Proof.Machine.execContextRestored tag s
  | .contextDead tag => Sys2Proof.Machine.execContextDead tag s
  | .infieldTestStart die => Sys2Proof.Machine.execInfieldTestStart die s
  | .infieldCopyDone die => Sys2Proof.Machine.execInfieldCopyDone die s
  | .infieldTestDone die pass => Sys2Proof.Machine.execInfieldTestDone die pass s
  | .timingWindow core => Sys2Proof.Machine.execTimingWindow core s
  | .powerOverCap die => Sys2Proof.Machine.execPowerOverCap die s
  | .install tag pa => Sys2Proof.Machine.execInstall tag pa s
  | .suspend tag => Sys2Proof.Machine.execSuspend tag s
  | .resume tag => Sys2Proof.Machine.execResume tag s
  | .killCommand tag => Sys2Proof.Machine.execKillCommand tag s
  | .uninstall tag => Sys2Proof.Machine.execUninstall tag s
  | .partitionAdd tag cluster => Sys2Proof.Machine.execPartitionAdd tag cluster s
  | .partitionRemove tag cluster => Sys2Proof.Machine.execPartitionRemove tag cluster s
  | .invalidateRange tag lo hi => Sys2Proof.Machine.execInvalidateRange tag lo hi s
  | .invalidateShapes tag => Sys2Proof.Machine.execInvalidateShapes tag s
  | .migrate tag va pa => Sys2Proof.Machine.execMigrate tag va pa s
  | .framePoolRefill die tier ring count => Sys2Proof.Machine.execFramePoolRefill die tier ring count s
  | .setTrackerThreshold v die => Sys2Proof.Machine.execSetTrackerThreshold v die s
  | .setTestPeriod v => Sys2Proof.Machine.execSetTestPeriod v s
  | .setScrubPeriod v stack => Sys2Proof.Machine.execSetScrubPeriod v stack s
  | .setPowerCap v => Sys2Proof.Machine.execSetPowerCap v s
  | .returnArray core arr => Sys2Proof.Machine.execReturnArray core arr s
  | .linkctlEnable link => Sys2Proof.Machine.execLinkctlEnable link s
  | .linkctlRetrain link => Sys2Proof.Machine.execLinkctlRetrain link s
  | .linkctlSpare link lane => Sys2Proof.Machine.execLinkctlSpare link lane s
  | .linkctlDisable link => Sys2Proof.Machine.execLinkctlDisable link s
  | .dieClockStep die clock supply => Sys2Proof.Machine.execDieClockStep die clock supply s
  | .cletikWindowEntry port entry base size => Sys2Proof.Machine.execCletikWindowEntry port entry base size s
  | .queueInstall tag q => Sys2Proof.Machine.execQueueInstall tag q s
  | .malformedCommand => Sys2Proof.Machine.execMalformedCommand s
  | .evheadWrite v => Sys2Proof.Machine.execEvheadWrite v s
  | .mstatDesignate port => Sys2Proof.Machine.execMstatDesignate port s
  | .mstatEvovfClear => Sys2Proof.Machine.execMstatEvovfClear s
  | .mstatAtomicSizes port sizes => Sys2Proof.Machine.execMstatAtomicSizes port sizes s
  | .linkStatusRead link => Sys2Proof.Machine.execLinkStatusRead link s
  | .eyewordRead => Sys2Proof.Machine.execEyewordRead s
  | .registerWrite port offset v => Sys2Proof.Machine.execRegisterWrite port offset v s
  | .packageReset => Sys2Proof.Machine.execPackageReset s
  | .functionLevelReset port => Sys2Proof.Machine.execFunctionLevelReset port s
  | .linkTrained link width => Sys2Proof.Machine.execLinkTrained link width s
  | .linkLaneFailure link => Sys2Proof.Machine.execLinkLaneFailure link s
  | .linkTrainTimeout link => Sys2Proof.Machine.execLinkTrainTimeout link s
  | .linkRetrained link spares => Sys2Proof.Machine.execLinkRetrained link spares s
  | .linkRetrainFailure link => Sys2Proof.Machine.execLinkRetrainFailure link s
  | .marginAlarm link lane margin => Sys2Proof.Machine.execMarginAlarm link lane margin s
  | .replayThreshold link => Sys2Proof.Machine.execReplayThreshold link s
  | .flitReceive port flit crc => Sys2Proof.Machine.execFlitReceive port flit crc s
  | .cletikRequest port write addr n data => Sys2Proof.Machine.execCletikRequest port write addr n data s
  | .hostMemoryAccess port write addr n data => Sys2Proof.Machine.execHostMemoryAccess port write addr n data s
  | .hostAtomicop port op addr n data => Sys2Proof.Machine.execHostAtomicop port op addr n data s
  | .cxlSnoop port addr write => Sys2Proof.Machine.execCxlSnoop port addr write s
  | .notAnInstruction w => Sys2Proof.Machine.execNotAnInstruction w s
  | .launchKill launch => Sys2Proof.Machine.execLaunchKill launch s
  | .releaseDrainDone op => Sys2Proof.Machine.execReleaseDrainDone op s
  | .tileCopyDone op => Sys2Proof.Machine.execTileCopyDone op s
  | .tileInstructionDone op => Sys2Proof.Machine.execTileInstructionDone op s
  | .boundUpdateDone op => Sys2Proof.Machine.execBoundUpdateDone op s
  | .clusterBarrierArrival op => Sys2Proof.Machine.execClusterBarrierArrival op s
  | .barrierStatusReturn op => Sys2Proof.Machine.execBarrierStatusReturn op s
  | .launchAnswerReturn op => Sys2Proof.Machine.execLaunchAnswerReturn op s
  | .bringUpStepDone => Sys2Proof.Machine.execBringUpStepDone s

end Sys2Proof.Machine
end

