-- ==== Sys2Proof/Machine/Turn.lean ====
section
/-!
DEFINITION. What a step chooses from: the crew each scheduler would issue (R85), the crew's turn (R14, R28, R318), and the steps that the
package takes by itself; and the end of every step: crews whose waits are over (R76), and time (R20).
-/
namespace Sys2Proof.Machine

/-- A step that can be taken. -/
abbrev Action := State → Host.Outcome State Fault Refusal

/-! ### A crew's turn (R14, R28, R318) -/

/-- Crew `c` issues its next instruction: the events of the boundary come first, then the fetch, then what the word decodes to. -/
def crewTurn (c : Nat) (s : State) : Host.Outcome State Fault Refusal :=
  let s := { s with cur := c, turn := none }
  match s.crew? c with
  | none => .next s
  | some x =>
    if x.state ≠ .active then .next s
    else match boundary s c with
      | some t => .next t
      | none =>
        match fetch s x with
        | .walk _ => execInstructionFetchWalk c s
        | .trap t => .next (takeTrap s c t x.ctl.pc)
        | .word w =>
          match decodeWord w with
          | .ok i => exec i s
          | .error _ => execNotAnInstruction w s

/-! ### The order of issue (R85) -/

/-- When a crew last issued; a promotion since then counts as an issue. -/
def Crew.lastIssue (x : Crew) : Nat := if x.stamps.sincePromo then x.stamps.issued else max x.stamps.issued x.stamps.promoted

/-- The rank of a ready crew: first one that has gone 4,096 cycles without issuing, then the class, the least recent issue, the slot. Among crews
that have gone so long R85 names no order: the model takes the one that has gone longest, as R87 has it (log 67). -/
def issueRank (s : State) (x : Crew) : List Nat :=
  if x.cycle s < x.lastIssue + 4096 then [1, crewClass s x, x.lastIssue, x.seat.slot] else [0, x.lastIssue, crewClass s x, x.seat.slot]

/-- The order of lists of numbers, the first that differ deciding. -/
def lexLt : List Nat → List Nat → Bool
  | a :: as, b :: bs => decide (a < b) || (a == b && lexLt as bs)
  | _, _ => false

/-- The fetch of a crew's next instruction waits for a link that trains (R350). -/
def fetchHeld (s : State) (x : Crew) : Bool :=
  let held (va : Nat) : Bool := match translate s x.seat.core x.seat.tag va .exec with
    | .ok pa _ => pathHeld s x.seat.core pa
    | _ => false
  held x.ctl.pc.toNat || held ((x.ctl.pc.toNat + 8) % 2 ^ 64)

/-- The crew a scheduler issues: of its active crews whose word can be fetched and whose unit accepts an instruction now (log 3), the one of lowest
rank. -/
def issuer (s : State) (g t : Nat) : Option Nat :=
  (((s.sched g t).active.filterMap fun c => (s.crew? c).bind fun x =>
    if x.state = .active ∧ Config.unitReady s.tick c ∧ !fetchHeld s x then some (c, issueRank s x) else none).foldl
      (fun (best : Option (Nat × List Nat)) e =>
        match best with
        | none => some e
        | some b => if lexLt e.2 b.2 then some e else best) none).map (·.1)

/-! ### The steps the package takes by itself -/

/-- Steps of one crew outside its instructions. -/
def crewMoves (c : Nat) : List Action :=
  [execStoreQueueLeave c, execAtomicPerform c, execAtomicResultReturn c, execRegcacheFill c, execPreemption c, execKill c, execCrewDrained c,
   execPredisBudgetExpiry c, execHandlerWatchdog c]

/-- Steps of one ladle context. -/
def chainMoves (g k : Nat) : List Action :=
  [execLadleEnd g k, execLinearCopy g k, execTileCopy g k, execGather g k, execScatter g k, execPlanePack g k, execFillRec g k,
   execDecodeRec g k, execNearStackReduce g k, execWaitBarrier g k, execSignalBarrier g k, execLoopRec g k, execConditional g k,
   execJump g k, execLadlePass g k, execLadleWriteAck g k, execStackAdderDone g k]

/-- A vector pipe of a core with an active crew repeats a pass after a timing error, which only the counters show (R206, R316, R328). -/
def vectorReplay (g : Nat) (s : State) : Host.Outcome State Fault Refusal :=
  .next (
    if s.crews.any fun e => e.2.seat.core == g && e.2.state == .active then
      s.updCtr g fun k => { k with tmrep := sat32 (k.tmrep + 1), cur := sat32 (k.cur + 1) }
    else s)

/-- Steps of one core. -/
def coreMoves (s : State) (g : Nat) (k : Core) : List Action :=
  ((List.range 4).flatMap fun t => [execCrewPromotion g t, execForcedDemotion g t]) ++
    k.fills.map (execLineFill g) ++
    (SMap.keys k.locks).map (execRangeLockActivate g) ++
    ((SMap.keys k.arrays).flatMap fun a => [execArraySettled g a true, execArraySettled g a false, execArrayUnreefed g a, execArrayCleared g a]) ++
    ((SMap.keys k.chains).flatMap (chainMoves g)) ++
    (SMap.keys s.ops).map (execDrainDemand g) ++
    (victims s g).map (displaceLine g) ++
    [vectorReplay g, execTimingWindow g]

/-- A matrix result after any number of timing replays (R206; log 2). -/
def matrixMove (o : Nat) (s : State) : Host.Outcome State Fault Refusal :=
  let (f, s) := s.freeValue
  execMatrixResult o f s

/-- Steps of one operation in flight. -/
def opMoves (o : Nat) : List Action :=
  [execTransformResult o, execLoadDataArrive o, execAcquireDrainDone o, execReleaseDrainDone o, execCwaysConverted o, execMetadataReadDone o,
   execMmagLatchFull o, execMatrixSlotTake o, execChainStart o, execTileCopyDone o, execTileInstructionDone o, execBoundUpdateDone o,
   execClusterBarrierArrival o, execBarrierStatusReturn o, execQueueLaunchRequest o, execLaunchAnswerReturn o]

/-- Steps of the queue unit and the dispatcher for one launch. -/
def launchMoves (l : Nat) : List Action :=
  [execLaunchRecordCheck l, execDependenceRead l, execLaunchTimeLimit l, execCompletionRelease l, execCompletionStatusWrite l,
   execCompletionWordWrite l, execCompletionInterrupt l]

/-- Steps of one context. -/
def ctxMoves (t : Nat) : List Action :=
  [execContextSaveStart t, execContextSaved t, execContextRestoreStart t, execContextRestored t, execContextDead t]

/-- Steps of one die. -/
def dieMoves (d : Nat) : List Action :=
  [execConvoyPlacement d, execInfieldTestStart d, execInfieldCopyDone d, execInfieldTestDone d true, execInfieldTestDone d false, execTrackerEpoch d]

/-- What the training of a link can come to (R350). -/
def linkMoves (n : Nat) : List Action :=
  (((linkLanes n).map fun l => [execLinkTrained n l.1]).getD []) ++
    [execLinkTrained n 8, execLinkTrained n 4, execLinkLaneFailure n, execLinkTrainTimeout n, execLinkRetrained n 0, execLinkRetrained n 1,
     execLinkRetrainFailure n]

/-- Every step that might be taken without a crew and without an outside party. -/
def engineMoves (s : State) : List Action :=
  (SMap.keys s.crews).flatMap crewMoves ++
    (s.cores.flatMap fun (e : Nat × Core) => coreMoves s e.1 e.2) ++
    (SMap.keys s.ops).flatMap opMoves ++
    (s.ops.filterMap fun (e : Nat × Op) => match e.2.kind with
      | .matrix m => if m.stage = 3 then some (matrixMove e.1) else none
      | _ => none) ++
    (SMap.keys s.groups).map execGroupFree ++
    (SMap.keys s.convoys).map execConvoyStart ++
    (SMap.keys s.launches).flatMap launchMoves ++
    [execLaunchTakeUp] ++
    (SMap.keys s.ctxs).flatMap ctxMoves ++
    ((List.range 12).flatMap fun d => (dieWalks s d).map execPageWalk) ++
    ((SMap.keys s.migs).flatMap fun m => [execMigrationRecallDone m, execMigrationCopyDone m, execMigrationUnlock m]) ++
    (List.range 12).flatMap dieMoves ++
    (SMap.keys s.banks).map execRefreshWindow ++
    (SMap.keys s.links).flatMap linkMoves ++
    (SMap.keys s.links).map sendFlit ++
    (commandDue s).toList ++
    [execBringUpStepDone]

/-- A step that is enabled: it stops, or it changes the state. -/
def enabled (s : State) (m : Action) : Bool :=
  match m s with
  | .next t => t != s
  | _ => true

/-- A step that stands due leaves the list and is taken. -/
def takeDue (i : Instr) (t : List Instr) (s : State) : Host.Outcome State Fault Refusal := exec i { s with due := t }

/-- The next step of an outside party that stands due and is not held. -/
def dueMoves (s : State) : List Action :=
  match nextDue s s.due with
  | none => []
  | some (i, t) => [takeDue i t]

/-- Every step that could be next. -/
def moves (s : State) : List Action :=
  dueMoves s ++ (engineMoves s).filter (enabled s) ++
    (s.cores.flatMap fun (e : Nat × Core) => (List.range 4).filterMap fun t => (issuer s e.1 t).map crewTurn)

/-- The step that is taken: the turn already given, or one of those that could be next (log 3). With none the package is idle. -/
def choose (s : State) : Host.Outcome State Fault Refusal :=
  match s.turn with
  | some c => crewTurn c s
  | none =>
    match moves s with
    | [] => .next s
    | l@(_ :: _) => (l.getD (Config.pick s.tick % l.length) Host.Outcome.next) s

/-! ### The end of a step -/

/-- What a WAITING crew waits for is over; a register-cache wait ends in REGCACHE_FILL. -/
def waitOver (s : State) (c : Nat) (x : Crew) : Bool :=
  x.state == .waiting &&
    match x.wait with
    | .none | .control | .lines _ => false
    | .ops l => !(l.any (opPending s c))
    | .walks l => !(l.any fun w => (s.walks.find? w).isSome)
    | .queueSpace => !queueFull x
    | .transform => decide (transformsOf s x.seat.core x.seat.sched < 16)
    | .array g a => (s.arr g a).state != .settling
    | .lockSpace g => decide ((s.core g).locks.length < 64)

/-- Every crew whose wait is over stands in its promotion queue; those of one step enter in the order of their slots (R76). -/
def wake (s : State) : State := (bySlot s (SMap.keys (s.crews.filter fun e => waitOver s e.1 e.2))).foldl toReady s

/-- The counts a step takes on the package timebase, which runs from bring-up step 2 (R20, R361; log 1). -/
def stepCounts (s : State) : Nat := if s.mg.step < 2 then 0 else 1 + Config.elapsed s.tick

/-- Counts pass: a die whose clock is stepped down falls behind the timebase by a seventh of a count for each step (R363). -/
def addCounts (n : Nat) (s : State) : State :=
  { s with tick := s.tick + 1, now := s.now + n, dies := s.dies.map fun (e : Nat × Die) => (e.1, { e.2 with lag := e.2.lag + n * e.2.clock }) }

/-- The watchdog of a crew's handler has run out in an earlier cycle. -/
def watchdogPast (s : State) (x : Crew) : Bool :=
  watchdogOver s x && decide (x.stamps.handler + 1750 * ((s.ctx? x.seat.tag).map (·.desc.wdog)).getD 0 < x.cycle s)

/-- A crew that has outstayed its watchdog is killed (R322). -/
def expireWatchdogs (s : State) : State :=
  (SMap.keys (s.crews.filter fun e => watchdogPast s e.2)).foldl (fun s c => stepOr (execHandlerWatchdog c) s) s

/-- Time passes: no launch outlives the count of its limit (R297), no handler its watchdog. -/
def passTime (s : State) : State :=
  match stepCounts s with
  | 0 => addCounts 0 s
  | n + 1 => expireWatchdogs (addCounts (n + 1) (expireLimits s (s.now + n)))

/-- What follows every step. -/
def afterStep : Host.Outcome State Fault Refusal → Host.Outcome State Fault Refusal
  | .next s => .next (passTime (wake s))
  | o => o

end Sys2Proof.Machine
end

