-- ==== Sys2Proof/Machine/Program.lean ====
section
/-!
DEFINITION. A program as a launch leaves it just before its first instruction (log 6): one context, launch, group and crew, the crew chosen to
issue next, its code page in the translation buffer, the link to that page UP and its register lines present.
-/
namespace Sys2Proof.Machine

/-- The code page: its virtual and its physical address. -/
def codeVa : Nat := 0x10000
def codePa : Nat := 0x20000

/-- The leaf that maps the code page: readable and executable, accessed (R333). -/
def codeEntry : TlbEntry := ⟨1, codeVa, 2 ^ 16, BitVec.ofNat 64 (codePa + 0x42B)⟩

/-- The descriptor of the loaded context: no handler, and nothing installed but itself. -/
def loadedContext : Context where
  state := .live
  desc := ⟨0, 0, false, 0, 0, 0, 0, 0, 0, 0, 0, 0⟩
  members := [0]
  retiring := []
  bounds := []
  updates := []
  shapes := []
  logSeq := 0
  why := none
  saved := []
  savedAt := 0
  out := false

/-- One group of one crew, with every register declared. -/
def loadedRecord : LaunchRec :=
  { parseLaunch 0 with entry := codeVa, nconv := 1, rslots := 1, tlim := 0, nv := 320, ns := 128, crews := 1, groups := 1 }

def loadedLaunch : Launch :=
  { Launch.start 1 0 1 with state := .running, info := loadedRecord, next := 1, live := 1, lastCluster := 0, images := [0], cores := [0] }

def loadedGroup (launch convoy crew : Nat) : Group where
  state := .resident
  convoy := convoy
  launch := launch
  tag := 1
  gid := 0
  core := 0
  arr0 := 0
  nsto := 0
  ncomp := 0
  bar0 := 0
  nbar := 0
  crews := [crew]
  slots := [(0, 0)]
  images := [0]
  relaunch := true
  broke := false

def loadedConvoy (launch group : Nat) : Convoy where
  launch := launch
  tag := 1
  cvid := 0
  cluster := 0
  x := 0
  groups := [group]
  attempt := 0
  started := true
  skip := []
  freed := []
  failed := false
  relaunch := true

def loadedCrew (launch group : Nat) : Crew :=
  { Crew.start ⟨0, 0, 0, 0, 0, 0, group, launch, 1, 0, 320, 128⟩ codeVa with state := .active }

/-- The lines of the crew's image that hold its registers and its control. -/
def loadedLines (crew : Nat) : List RcLine := (List.range 372).map fun n => ⟨0, crew, n, false, false, []⟩

/-- A program is loaded and its crew chosen to issue next. -/
def loadProgram (s : State) : State :=
  let n := s.nextId
  let s := { s with
    nextId := n + 4
    turn := some (n + 3)
    ctxs := s.ctxs.insert 1 loadedContext
    launches := s.launches.insert n loadedLaunch
    convoys := s.convoys.insert (n + 1) (loadedConvoy n (n + 2))
    groups := s.groups.insert (n + 2) (loadedGroup n (n + 1) (n + 3))
    crews := s.crews.insert (n + 3) (loadedCrew n (n + 2)) }
  let s := s.updLink (endLink codePa) fun k => { k with state := .up }
  let s := s.updCore 0 fun k => { k with tlb := codeEntry :: k.tlb, rc := k.rc ++ loadedLines (n + 3) }
  s.updSched 0 0 fun d => { d with active := (n + 3) :: d.active }

/-- The bytes of an instruction stand at the loaded program's entry, in a line without poison. -/
def placeCode (s : State) (l : List Byte) : State :=
  { s with mem := { s.mem.writeN codePa l with poison := s.mem.poison.filter fun k => k / 4 != lineOf codePa } }

end Sys2Proof.Machine
end

