-- ==== Sys2Proof/Machine/Step.lean ====
section
/-!
DEFINITION. One step of the package, and where a word is placed so that the next step fetches it.
-/
namespace Sys2Proof.Machine

/-- One step: what is chosen, and what follows every step. -/
def step (s : State) : Host.Outcome State Fault Refusal := afterStep (choose s)

/-- `s` with the word `w` where the next step fetches its instruction: a program loaded at its entry, its crew chosen to issue (log 6). -/
def State.withFetchWord (s : State) (nbits w : Nat) : State := placeCode (loadProgram s) (toBytes 12 (w % 2 ^ nbits))

end Sys2Proof.Machine
end

