-- ==== Sys2Proof/Safety.lean ====
section
/-!
DEFINITION. The terms that statements use: when an instruction of a crew executes its own effect, what a step leaves alone, how results
return, and the invariants of a run.
-/
namespace Sys2Proof.Machine

/-! ### A safe run -/

/-- The invariant of home memory: its one canonical form. -/
def MemoryOk (s : State) : Prop := s.mem.wf = true

/-- A step that does not stop. -/
def Goes (s : State) : Prop := ∃ t, step s = .next t

/-- `n` steps, none of which stops. -/
def Safe : Nat → State → Prop
  | 0, _ => True
  | n + 1, s => ∃ t, step s = .next t ∧ Safe n t

/-! ### When an instruction executes its own effect (R28, R29, R318) -/

/-- Every register-cache line the instruction needs is present, and none of them holds an injected fault (R82). -/
def linesPresent (s : State) (x : Crew) (i : Instr) : Bool :=
  (lineNeed x i).all fun n => hasLine (s.core x.seat.core) s.cur n &&
    (s.core x.seat.core).rc.all fun l => !(l.crew == s.cur && l.line == n) || l.flip.isEmpty

/-- Crew `x`, which is State.cur, can execute `i`: it is ACTIVE, no event of the boundary comes first, no tag is waited for, and the operands
are within its registers and present. -/
abbrev Clear (i : Instr) (s : State) (x : Crew) : Prop :=
  s.crew? s.cur = some x ∧ x.state = .active ∧ boundary s s.cur = none ∧ waitTags x i (dstRegs i) = [] ∧
    withinRegs x.seat i = true ∧ clearOfDeferred x i (dstRegs i) = true ∧ linesPresent s x i = true

/-- Crew `x` reaches the effect of `i`: the guard holds, and no earlier FENCE or acquire holds the instruction back (R145, R177). -/
abbrev Ready (i : Instr) (s : State) (x : Crew) : Prop :=
  Clear i s x ∧ guardHolds x i.hdr = true ∧ (Instr.ordered i = true → orderingOps s s.cur = [])

/-- What the instruction has at issue. -/
def issOf (i : Instr) (s : State) (x : Crew) : Iss := ⟨s.cur, x, i.hdr, x.ctl.pc, dstRegs i⟩

/-- The state in which its effect is computed. -/
def issued (i : Instr) (s : State) (x : Crew) : State := advance (useLines s s.cur x i) s.cur

/-- The scalar, control and mask instructions (R92 to R103). -/
def Instr.guardedPlain : Instr → Bool
  | .sadd .. | .ssub .. | .smul .. | .smulh .. | .sdiv .. | .srem .. | .sand .. | .sor .. | .sxor .. | .sshl .. | .sshr .. | .ssra .. | .smin ..
  | .smax .. | .scmp .. | .ssel .. | .smov .. | .smovi .. | .smovh .. | .sclz .. | .spopc .. | .sbfx .. | .sbfi .. | .slea .. | .bra ..
  | .bru .. | .brx .. | .brv .. | .join .. | .call .. | .ret .. | .exit .. | .yld .. | .nop .. | .waitc .. | .mand .. | .mor .. | .mxor ..
  | .mandn .. | .mnot .. | .mmov .. | .mpopc .. | .mffs .. | .msetem .. | .mgetem .. | .msave .. | .mrest .. => true
  | _ => false

/-! ### Sources and results -/

/-- What a scalar source of crew `x` reads (R20, R97). -/
def srcS (s : State) (x : Crew) (r : Reg) : DWord := Iss.scalar ⟨s.cur, x, ⟨false, 0, 0, 0, none⟩, x.ctl.pc, []⟩ s r

/-- Its value under an integer type (R97). -/
def srcT (s : State) (x : Crew) (ty : Ty) (r : Reg) : Int := tyVal ty (srcS s x r).toNat

/-- Lane `l` of a vector source at a width (R21, R22, R105). -/
def srcL (x : Crew) (w : Nat) (r : Reg) (l : Nat) : Nat := Iss.lane ⟨0, x, ⟨false, 0, 0, 0, none⟩, x.ctl.pc, []⟩ w r l

/-- Its value under an integer type (R105). -/
def srcLT (x : Crew) (ty : Ty) (r : Reg) (l : Nat) : Int := tyVal ty (srcL x (tyWidth ty) r l)

/-- A scalar result; `zero` discards it (R20). -/
def resS (x : Crew) (d : Reg) (v : DWord) : Held := heldScalar x.bank d v

/-- A vector result in the lanes of em (R105), given by lane at a width. -/
def resV (x : Crew) (w : Nat) (d : Reg) (f : Nat → Nat) : Held := lanesHeld x.bank x.ctl.em d (laneRegs w f)

/-! ### Frames -/

/-- An outstanding tag once one more instruction has issued (R88). -/
def counted (r : TagRec) : TagRec := if r.deferred then r else { r with look := r.look - 1 }

/-- A tile entry is as it was, or is a register tile of crew `c` that has become STALE (R216). -/
def tileKept (c : Nat) (a b : Option Tile) : Prop :=
  b = a ∨ ∃ e, a = some e ∧ e.crew = some c ∧ b = some { e with state := .stale }

/-- Nothing but crew `c`, the scheduler's sets and the register cache has changed: every byte of memory, window and scratch, every other
crew, every operation in flight and every other table is as it was. A register tile of the crew may have become STALE. -/
structure Elsewhere (c : Nat) (s t : State) : Prop where
  tables : { t with crews := s.crews, cores := s.cores } = s
  memory : ∀ a, t.mem.read a = s.mem.read a
  crews : ∀ d, d ≠ c → t.crew? d = s.crew? d
  cores : ∀ g, { t.core g with scheds := (s.core g).scheds, rc := (s.core g).rc, tiles := (s.core g).tiles } = s.core g
  tiles : ∀ g n, tileKept c (s.tile? g n) (t.tile? g n)

/-- What an instruction never changes in its crew unless it says so: the trap registers, the store queue, what has been asked, its seat;
the tags but its own only count it; the crew is READY after YIELD and ACTIVE otherwise (R76). -/
structure CrewKept (i : Instr) (x y : Crew) : Prop where
  tr : y.tr = x.tr
  sq : y.sq = x.sq
  req : y.req = x.req
  seat : y.seat = x.seat
  state : y.state = if i.hdr.yield then .ready else .active
  tags : ∀ k, k ≠ i.hdr.tag.toNat → y.tags.find? k = (x.tags.find? k).map counted

/-- `i` answers a next state in which its crew has the registers `rf` and the control `ctl`, the tag it names (if any) holds `tg`, and
nothing else has changed. -/
def Ends (i : Instr) (s : State) (x : Crew) (rf : RegFile) (ctl : Control) (tg : Option TagRec) : Prop :=
  ∃ t y, exec i s = .next t ∧ t.crew? s.cur = some y ∧ y.rf = rf ∧ y.ctl = ctl ∧
    (∀ r, tg = some r → i.hdr.tag ≠ 0 → y.tags.find? i.hdr.tag.toNat = some r) ∧ CrewKept i x y ∧ Elsewhere s.cur s t

/-- The control of a crew that goes on to the next instruction. -/
def nextPc (x : Crew) : Control := { x.ctl with pc := x.ctl.pc + 12 }

/-- A control instruction that moves the divergence stack (R92 to R95, R102): the crew goes on with control `ctl`. Of the stack's entries the top 32
stand in hardware alone; deeper, the entry that leaves or joins them moves to or from the image, so memory and that entry may differ, and
nothing of another crew does. -/
def EndsStack (i : Instr) (s : State) (x : Crew) (ctl : Control) : Prop :=
  (x.ctl.sdepth < 32 → Ends i s x x.rf ctl none) ∧
  ∃ t y, exec i s = .next t ∧ t.crew? s.cur = some y ∧ y.rf = x.rf ∧ { y.ctl with stack := ctl.stack } = ctl ∧ CrewKept i x y ∧
    (∀ k, k ≠ x.ctl.sdepth - 33 → y.ctl.stack.find? k = ctl.stack.find? k) ∧ ∀ d, d ≠ s.cur → t.crew? d = s.crew? d

/-- A source in a uniform position (R96), read at width `w`: a scalar's low bits; a vector or lid in the lanes of em, which must agree. With no
lane active a vector is not read. -/
def Uniform (s : State) (x : Crew) (w : Nat) (r : Reg) (takes : Nat → Prop) (skips : Prop) (traps : Trap → Prop) : Prop :=
  let vec : Prop := r = .lid ∨ ∃ k, r = .v k
  (¬vec → takes ((srcS s x r).toNat % 2 ^ w)) ∧
  (vec → x.ctl.em = 0 → skips) ∧
  ∀ l0 < 128, vec → x.ctl.em.getLsbD l0 = true → (∀ j < l0, x.ctl.em.getLsbD j = false) →
    let bad := (List.range 128).filter fun l => x.ctl.em.getLsbD l && srcL x w r l != srcL x w r l0
    (bad = [] → takes (srcL x w r l0)) ∧ (bad ≠ [] → traps ⟨0x07, lanesMask bad, 0⟩)

/-- The value of a finite FP32 pattern in units of 2^−149, the least subnormal; 0 for the others. -/
def f32Units (x : Nat) : Int :=
  match fmtF32.read x with
  | .fin n m e => negInt n (m * 2 ^ (e + 149).toNat : Nat)
  | _ => 0

/-- A pattern that is neither a NaN nor an infinity. -/
def f32Finite (x : Nat) : Prop := ∃ n m e, fmtF32.read x = .fin n m e

/-- A short-latency result `w` (R89): with TAG 0 it is written at once, with its flags; under a tag it is held until it commits. -/
def Gives (i : Instr) (s : State) (x : Crew) (w : Held) : Prop :=
  if i.hdr.tag = 0 then Ends i s x (w.regs.foldl RegFile.put x.rf) { nextPc x with fpst := x.ctl.fpst ||| w.fp } none
  else Ends i s x x.rf (nextPc x) (some ⟨none, i.hdr.look.toNat, w, dstRegs i, false⟩)

/-- An effect on masks, em or control, complete when the instruction issues (R89): its tag, if any, holds nothing more. -/
def Sets (i : Instr) (s : State) (x : Crew) (rf : RegFile) (ctl : Control) : Prop :=
  Ends i s x rf ctl (some ⟨none, i.hdr.look.toNat, {}, [], false⟩)

/-- A long-latency instruction (R89): one operation of kind `k` is in flight under its tag, the crew's registers are as they were, and so is
everything else but the model's counts of names and free values. With TAG 0 the operation serialises the crew. -/
def Starts (i : Instr) (s : State) (x : Crew) (k : OpKind) : Prop :=
  ∃ t y, exec i s = .next t ∧ t.crew? s.cur = some y ∧ y.rf = x.rf ∧ y.ctl = nextPc x ∧
    t.op? s.nextId = some ⟨s.cur, i.hdr.tag.toNat, x.bank, x.ctl.em, k⟩ ∧
    y.tags.find? i.hdr.tag.toNat = some ⟨some s.nextId, i.hdr.look.toNat, {}, dstRegs i, false⟩ ∧
    (∀ o, o ≠ s.nextId → t.op? o = s.op? o) ∧ CrewKept i x y ∧ Elsewhere s.cur s { t with ops := s.ops, nextId := s.nextId, free := s.free }

/-- A memory instruction that writes (R165): entry `q` takes the last place of the crew's store queue and nothing is written yet; the
operation that its leaving completes is in flight under the tag. -/
def Queues (i : Instr) (s : State) (x : Crew) (dst : Option Reg) (ret : AtomRet) (q : SqKind) : Prop :=
  ∃ t y, exec i s = .next t ∧ t.crew? s.cur = some y ∧ y.rf = x.rf ∧ y.ctl = nextPc x ∧ y.sq = x.sq ++ [⟨q, s.nextId⟩] ∧
    t.op? s.nextId = some ⟨s.cur, i.hdr.tag.toNat, x.bank, x.ctl.em, .queued dst ret⟩ ∧
    y.tags.find? i.hdr.tag.toNat = some ⟨some s.nextId, i.hdr.look.toNat, {}, dstRegs i, false⟩ ∧
    (∀ o, o ≠ s.nextId → t.op? o = s.op? o) ∧ CrewKept i x { y with sq := x.sq } ∧
    Elsewhere s.cur s { t with ops := s.ops, nextId := s.nextId, free := s.free }

/-- A request of the transform pipe (R120): it is in flight with result `w`; a crew that would make its scheduler's seventeenth waits. -/
def AsksTransform (i : Instr) (s : State) (x : Crew) (w : Held) : Prop :=
  if transformsOf s x.seat.core x.seat.sched < 16 then Starts i s x (.transform w)
  else exec i s = .next (toWaiting (useLines s s.cur x i) s.cur .transform)

/-- `i` raises trap `t` before any effect (R12): the next state is trap entry, or what R312 puts in its place, from the state as it was but for
the use of the instruction's lines. -/
def Traps (i : Instr) (s : State) (x : Crew) (t : Trap) : Prop :=
  exec i s = .next (takeTrap (useLines s s.cur x i) s.cur t x.ctl.pc)

/-- A floating result by lane at a width (R66, R107): FP_EXCEPTION with the lanes and the enabled flags they raise, or the result in the lanes
of em with the or of the active lanes' flags. -/
def GivesFloat (i : Instr) (s : State) (x : Crew) (w : Nat) (d : Reg) (f : Nat → FRes) : Prop :=
  let en := bits x.ctl.fpst.toNat 9 5
  let bad := (activeLanes x.ctl.em).filter fun l => (f l).fl &&& en != 0
  if bad = [] then
    Gives i s x { resV x w d (fun l => if x.ctl.em.getLsbD l then (f l).bits else 0) with
      fp := BitVec.ofNat 32 ((activeLanes x.ctl.em).foldl (fun t l => t ||| (f l).fl) 0) }
  else Traps i s x ⟨0x11, lanesMask bad, BitVec.ofNat 64 (bad.foldl (fun t l => t ||| ((f l).fl &&& en)) 0)⟩

/-! ### Memory instructions (R160 to R167) -/

/-- A long-latency instruction whose effect reaches beyond its crew, and the state `t` it leaves: its crew goes on, operation `k` is in flight
under its tag, and only crews, cores, operations and contexts may differ, with the model's counts of names and free values. -/
structure Begins (i : Instr) (s : State) (x : Crew) (k : OpKind) (t : State) : Prop where
  run : exec i s = .next t
  crew : ∃ y, t.crew? s.cur = some y ∧ y.rf = x.rf ∧ y.ctl = nextPc x ∧
    y.tags.find? i.hdr.tag.toNat = some ⟨some s.nextId, i.hdr.look.toNat, {}, dstRegs i, false⟩ ∧ CrewKept i x y
  op : t.op? s.nextId = some ⟨s.cur, i.hdr.tag.toNat, x.bank, x.ctl.em, k⟩
  rest : { t with crews := s.crews, cores := s.cores, ops := s.ops, ctxs := s.ctxs, nextId := s.nextId, free := s.free } = s

/-- Every other crew and every other operation is as it was. -/
def OthersKept (s t : State) : Prop := (∀ d, d ≠ s.cur → t.crew? d = s.crew? d) ∧ ∀ o, o ≠ s.nextId → t.op? o = s.op? o

/-- The bits of an address of a space: 0 global, 1 window, 2 scratch (R160). -/
def spaceBits (sp : Nat) : Nat := if sp = 0 then 64 else 32

/-- The lanes and addresses of a scalar base and a scaled vector offset. -/
def laneEas (s : State) (x : Crew) (w : Nat) (a b : Reg) (sh : Nat) : List (Nat × Nat) :=
  (activeLanes x.ctl.em).map fun l => (l, wrap w ((srcS s x a).toNat + signed 32 (srcL x 32 b l) * 2 ^ sh))

/-- Those of a pointer in each lane and a scalar offset. -/
def pointerEas (s : State) (x : Crew) (w : Nat) (a b : Reg) : List (Nat × Nat) :=
  (activeLanes x.ctl.em).map fun l => (l, wrap w (srcL x 64 a l + signed 64 (srcS s x b).toNat))

/-- The one address of a scalar form. -/
def scalarEas (s : State) (x : Crew) (w : Nat) (a b : Reg) : List (Nat × Nat) :=
  [(0, wrap w ((srcS s x a).toNat + signed 64 (srcS s x b).toNat))]

/-- The access of `n` bytes at each address. -/
def request (sp n : Nat) (write : Bool) (eas : List (Nat × Nat)) : Req :=
  { space := sp, align := n, write := write, pieces := eas.map fun e => ⟨e.1, e.2, n⟩ }

/-- A trap on the lanes of `bad`, with their lowest address. -/
def TrapsLanes (i : Instr) (s : State) (x : Crew) (cause : Nat) (bad : List (Nat × Nat)) : Prop :=
  ∃ p ∈ bad, (∀ q ∈ bad, p.2 ≤ q.2) ∧ Traps i s x ⟨cause, lanesMask (bad.map (·.1)), BitVec.ofNat 64 p.2⟩

/-- What a release at SYSTEM scope needs (R360): an empty queue and no discarded store. -/
def sysFree (x : Crew) (ord scope : Nat) : Prop := ord < 2 ∨ scope ≠ 5 ∨ (x.sq = [] ∧ x.req.discard = none)

/-- A memory instruction without a lane (R161): it makes no access; with an order, a fence of that order and scope begins. -/
def NoLanes (i : Instr) (s : State) (x : Crew) (mm : MemMods) : Prop :=
  (mm.ord = 0 → Sets i s x x.rf (nextPc x)) ∧
  (mm.ord ≠ 0 → sysFree x mm.ord.toNat mm.scope.toNat → ∃ t y, exec i s = .next t ∧ t.crew? s.cur = some y ∧ y.rf = x.rf ∧ y.ctl = nextPc x ∧
    y.sq = x.sq ∧ t.op? s.nextId = some ⟨s.cur, 8, x.bank, x.ctl.em,
      .fence mm.ord.toNat mm.scope.toNat (fenceAfter s s.cur mm.ord.toNat mm.scope.toNat) false []⟩ ∧ t.mem = s.mem ∧ OthersKept s t)

/-- A load `l` is in flight under the instruction's tag and its crew goes on, or waits for it where its data are to be awaited; only crews,
cores, operations and the packets of links may differ, with the model's counts of names and free values. -/
structure BeginsLoad (i : Instr) (s : State) (x : Crew) (l : LoadOp) (t : State) : Prop where
  run : exec i s = .next t
  crew : ∃ y, t.crew? s.cur = some y ∧ y.rf = x.rf ∧ y.ctl = nextPc x ∧
    y.tags.find? i.hdr.tag.toNat = some ⟨some s.nextId, i.hdr.look.toNat, {}, dstRegs i, false⟩ ∧
    if l.watch = true ∧ i.hdr.tag ≠ 0 then y.wait = .ops [s.nextId] ∧ y.state = .waiting ∧
        CrewKept i x { y with state := if i.hdr.yield then .ready else .active }
      else CrewKept i x y
  op : t.op? s.nextId = some ⟨s.cur, i.hdr.tag.toNat, x.bank, x.ctl.em, .load l⟩
  rest : { t with crews := s.crews, cores := s.cores, ops := s.ops, links := s.links, nextId := s.nextId, free := s.free } = s

/-- A load (R140, R141, R144, R164): with an atomic or TSTP of its own queue on one of its bytes it waits; with a byte that cannot be read it
raises DATA_ERROR; else it is in flight with the bytes of its crew's queue, and of every 8 bytes of a lane that its core's queue, L1, banks and
scratch hold whole, but for those an earlier load of the crew has still to take; its missing lines are asked for. A crew goes on unless the
load's data are to be awaited, which is free under a tag (log 14); what a host or peer answers is free (log 2). -/
def Loads (i : Instr) (s : State) (x : Crew) (sp : Nat) (ty : MemTy) (scalar : Bool) (d : Reg) (mm : MemMods) (eas : List (Nat × Nat)) : Prop :=
  ∀ accs, eas ≠ [] → checkAccess s x (request sp ty.bytes false eas) = .ok accs →
    let g := x.seat.core
    let blocks := queueBlocks x (accs.flatMap (·.at_))
    let unread (l : Nat) (p : Place) : Bool := (queueByte? x p).isNone && (placeBad s g p || match p with
      | .glob _ _ m => !m.cached && (Config.freeNat s.free).testBit l
      | _ => false)
    let bad := accs.filter fun a => a.at_.any (unread a.lane)
    let home : Prop := mm.ord = 1 ∧ 2 ≤ mm.scope.toNat
    let own (p : Place) : Option Byte := if home ∨ heldBack s s.cur s.nextId g p = true then none else readyByte? s g p
    let here (p : Place) : Option Byte := (queueByte? x p) <|> own p
    (blocks ≠ [] → exec i s = .next (toWaiting (useLines s s.cur x i) s.cur (.ops blocks))) ∧
    (blocks = [] → bad ≠ [] → TrapsLanes i s x 0x0F (bad.map fun a => (a.lane, a.ea))) ∧
    (blocks = [] → bad = [] → (∀ a, (s.arr g a).flips = []) → ∃ t l, BeginsLoad i s x l t ∧ OthersKept s t ∧
      ((∀ a ∈ accs, ∀ p ∈ a.at_, p.isPeer = false) → t.links = s.links) ∧
      l.ty = ty ∧ l.scalar = scalar ∧ l.dst = some d ∧ l.accs = accs ∧ l.done = false ∧ l.bad = [] ∧ l.zero = [] ∧ l.pc = x.ctl.pc ∧
      l.acq = (if mm.ord = 1 then some mm.scope.toNat else none) ∧ l.parts = partsOf (accs.flatMap (·.at_)) ∧
      (l.watch = true → i.hdr.tag = 0 ∨ l.open ≠ []) ∧
      (∀ e ∈ l.got, ∃ a ∈ accs, a.lane = e.1 ∧ ∃ p, a.at_[e.2.1]? = some p ∧ here p = some e.2.2) ∧
      (∀ a ∈ accs, ∀ j p, a.at_[j]? = some p →
        ((queueByte? x p).isSome ∨ ∀ k p', k / 8 = j / 8 → a.at_[k]? = some p' → (here p').isSome) → l.has a.lane j = true) ∧
      (∀ n ∈ l.lines, n ∈ (t.core g).fills) ∧
      (∀ a ∈ accs, ∀ j pa va m, a.at_[j]? = some (.glob pa va m) → m.cached = true → ¬home → l.has a.lane j = false → lineOf pa ∈ l.lines) ∧
      { t.core g with fills := (s.core g).fills, rc := (s.core g).rc, scheds := (s.core g).scheds } = s.core g ∧
      ∀ h, h ≠ g → t.core h = s.core h)

/-- The bytes of a store: each lane's value at its address, in lane order. -/
def storedBytes (accs : List LaneAcc) (n : Nat) (v : Nat → Nat) : List (Nat × Place × Byte) :=
  accs.flatMap fun a => (a.at_.zip (toBytes n (v a.lane))).map fun e => (a.lane, e.1, e.2)

/-- A store (R165, R166): with the queue full it waits; else its bytes, at the places its addresses name, are the youngest entry of the queue.
A bound entry is checked first: a value outside it traps, is clamped, or only sets the entry's hit flag, as its action says. -/
def Stores (i : Instr) (s : State) (x : Crew) (sp : Nat) (ty : MemTy) (mm : MemMods) (eas : List (Nat × Nat)) (data : Nat → Nat) : Prop :=
  eas ≠ [] →
    (32 ≤ x.sq.length → exec i s = .next (toWaiting (useLines s s.cur x i) s.cur .queueSpace)) ∧
    ∀ accs, x.sq.length < 32 → checkAccess s x (request sp ty.bytes true eas) = .ok accs →
      let entry (v : Nat → Nat) : SqKind := .store (storedBytes accs ty.bytes v) mm.ord.toNat mm.scope.toNat mm.ch.toNat
      (mm.bnd = none → sysFree x mm.ord.toNat mm.scope.toNat → Queues i s x none (.lanes 0) (entry data)) ∧
      ∀ e u, mm.bnd = some e → s.ctx? x.seat.tag = some u → (∀ v ∈ u.updates, v.2.1 ≠ e.toNat) →
        let b := u.bounds.getD e.toNat Bound.cleared
        let bad := eas.filter fun a => b.outside (data a.1)
        (bad = [] → sysFree x mm.ord.toNat mm.scope.toNat → Queues i s x none (.lanes 0) (entry data)) ∧
        (bad ≠ [] → b.act = 2 → TrapsLanes i s x 0x0C bad) ∧
        (bad ≠ [] → b.act ≠ 2 → sysFree x mm.ord.toNat mm.scope.toNat →
          ∃ t y v, exec i s = .next t ∧ t.crew? s.cur = some y ∧ y.rf = x.rf ∧ y.ctl = nextPc x ∧
            y.sq = x.sq ++ [⟨entry fun l => if b.act = 1 ∧ b.outside (data l) = true then b.clamp (data l) else data l, s.nextId⟩] ∧
            t.mem = s.mem ∧ OthersKept s t ∧ t.ctx? x.seat.tag = some v ∧ (v.bounds.getD e.toNat Bound.cleared) = { b with hit := true } ∧
            { v with bounds := u.bounds, updates := u.updates } = u)

/-- An atomic (R165, R178): with the queue full it waits; else it is the youngest entry of the queue, nothing is performed yet, and its lines
have left the core's L1. A crew whose atomic goes to a host or peer waits for it (R186). -/
def Atomics (i : Instr) (s : State) (x : Crew) (win : Bool) (op : RmwOp) (w : Nat) (d : Reg) (ret : AtomRet) (mm : MemMods)
    (eas : List (Nat × Nat)) (data : Nat → Nat) : Prop :=
  let g := x.seat.core
  eas ≠ [] →
    (32 ≤ x.sq.length → exec i s = .next (toWaiting (useLines s s.cur x i) s.cur .queueSpace)) ∧
    ∀ accs, x.sq.length < 32 → sysFree x mm.ord.toNat mm.scope.toNat →
      checkAccess s x { request (if win then 1 else 0) (w / 8) true eas with atomic := fun p => match p with
        | .glob pa _ m => m == .noncoherent && !hostAtomicOk (atomicSizes s pa) op w
        | _ => false } = .ok accs →
      let q : SqKind := .atomic { op := op, width := w, lanes := accs.map fun a => (a, data a.lane), ord := mm.ord.toNat
                                  scope := mm.scope.toNat, pc := x.ctl.pc }
      ((∀ n ∈ atomLines accs, (s.core g).l1.find? n = none) → hostPlaces accs = false →
        Queues i s x (some d) ret q) ∧
      (∃ t y, exec i s = .next t ∧ t.crew? s.cur = some y ∧ y.rf = x.rf ∧ y.ctl = nextPc x ∧
        y.sq = x.sq ++ [⟨q, s.nextId⟩] ∧ t.op? s.nextId = some ⟨s.cur, i.hdr.tag.toNat, x.bank, x.ctl.em, .queued (some d) ret⟩ ∧
        (∀ n ∈ atomLines accs, (t.core g).l1.find? n = none) ∧
        (hostPlaces accs = true → y.state = .waiting ∧ y.wait = .ops [s.nextId]))

/-! ### Lines, paths and directories (R150, R360) -/

/-- No line of a core's L1 is behind a path that is DOWN: what it holds dirty can go home. -/
def L1Up (s : State) (g : Nat) : Prop := ∀ n, ((s.core g).l1.find? n).isSome → pathDown s g (128 * n) = false

/-- The directories above a core have room for `n` more objects, so that none is recalled. -/
def DirsRoom (s : State) (g n : Nat) : Prop := ∀ e ∈ dirPath g, (s.mem.dir e.1).length + n ≤ dirCap e.1

/-- Every byte of a core is in home memory, and none of its lines is dirty. -/
def Drained (s t : State) (g : Nat) : Prop :=
  (∀ a, t.mem.read a = homeByte s g a) ∧ ∀ n l, (t.core g).l1.find? n = some l → l.dirty = []

/-- The result of an operation stays in State alone: its crew has its slot and its tag is not deferred, so no hold slot is written (R83, R91). -/
def InSlot (s : State) (c k : Nat) : Prop := ∀ x, s.crew? c = some x → x.state ≠ .suspended ∧ ∀ r, x.tags.find? k = some r → r.deferred = false

/-- The places of one part of an access, which makes one pass: all outside the window, or all at one core of it (R136, R383). -/
def OnePart (ps : List Place) : Prop :=
  (∀ h a o, .win h a o ∉ ps) ∨ ∃ h, partPasses ps (some h) = 1 ∧ ∀ p ∈ ps, ∃ a o, p = .win h a o

/-! ### Ladle records (R259 to R272) -/

/-- The record at a chain's address is `d`, in an array that serves accesses and holds no injected fault. -/
def RecordAt (s : State) (g : Nat) (c : ChainCtx) (d : List Nat) : Prop :=
  c.addr % 64 = 0 ∧ recordWords s g c = some d ∧ ∀ h a o, ownPlace s g c c.addr = some (.win h a o) → (s.arr h a).flips = []

/-- Context `n` of core `g` stands before the record of words `d` and can take it up. -/
def AtRecord (s : State) (g n : Nat) (c : ChainCtx) (d : List Nat) : Prop :=
  s.chain? g n = some c ∧ c.work = none ∧ c.stop = none ∧ c.paused = false ∧ c.state = .running ∧ c.stopOps = [] ∧
    RecordAt s g c d

/-- The iteration of the chain's innermost loop. -/
def iteration (c : ChainCtx) : Nat := ((c.loops.head?).map (·.i)).getD 0

/-- The byte barrier a record counts on. -/
def recBar (s : State) (c : ChainCtx) (d : List Nat) : Option Nat := if Rec.cnt d && dataKind (Rec.kind d) then chainBar s c (Rec.bar d) else none

/-- A record just taken up. -/
def recWork (s : State) (g : Nat) (c : ChainCtx) (d : List Nat) : RecWork :=
  { kind := Rec.kind d, words := d, iter := iteration c, bar := recBar s c d, total := recTotal s g c d }

/-- Double word 0 of a record with its DONE, STAT and ECODE (R260). -/
def statWord (d : List Nat) (done stat ecode : Nat) : Nat :=
  done % 2 ^ 32 * 2 ^ 32 + bits (d.getD 0 0) 31 12 * 2 ^ 12 + ecode * 2 ^ 8 + stat * 2 ^ 4 + Rec.kind d

/-- The record shows DONE, STAT and ECODE, its other words as they were. -/
def Shows (t : State) (g : Nat) (c : ChainCtx) (d : List Nat) (done stat ecode : Nat) : Prop :=
  recordWords t g c = some (d.set 0 (statWord d done stat ecode))

/-- Of the machine's tables only context `n` of core `g`, its record's bytes, its locks, walks and the staging buffer have changed, with what
loads in flight have captured. -/
structure RecordOnly (g n : Nat) (c : ChainCtx) (s t : State) : Prop where
  rest : { t with cores := s.cores, ops := s.ops, walks := s.walks, nextId := s.nextId } = s
  cores : ∀ h, h ≠ g → t.core h = s.core h
  chains : ∀ m, m ≠ n → t.chain? g m = s.chain? g m
  core : { t.core g with
    arrays := (s.core g).arrays, chains := (s.core g).chains, locks := (s.core g).locks, staging := (s.core g).staging } = s.core g
  arrays : ∀ a, { t.arr g a with cells := (s.arr g a).cells, flips := (s.arr g a).flips } = s.arr g a
  bytes : ∀ a o, o < 0x40000 → (∀ j < 64, ownPlace s g c (c.addr + j) ≠ some (.win g a o)) → (t.arr g a).byte o = (s.arr g a).byte o

/-- What an arrival leaves in a barrier's count: STATE, PHASE, PEND, ECODE and the error noted. -/
def sameCount (a b : Bar) : Prop := (a.state, a.phase, a.pend, a.ecode, a.err) = (b.state, b.phase, b.pend, b.ecode, b.err)

/-- The chain stands at `e` with no record in hand. -/
def GoesTo (t : State) (g n : Nat) (c : ChainCtx) (e : Nat × List LoopLevel) : Prop :=
  t.chain? g n = some { c with addr := e.1, loops := e.2, work := none, wait := none }

/-- A record in hand that may make its next pass. -/
def CanPass (s : State) (g n : Nat) (c : ChainCtx) (w : RecWork) : Prop :=
  s.chain? g n = some c ∧ c.work = some w ∧ w.fail = none ∧ c.stop = none ∧ c.stopOps = [] ∧ c.paused = false ∧ chainWalks s g n c.tag = false ∧ locksLive s g n = true

/-- A byte that reads without a walk, a host, an error or an array that answers under R157. -/
def plainByte (s : State) (g : Nat) (p : Place) : Prop :=
  placeBad s g p = false ∧ match p with
    | .glob _ _ m => m.cached = true
    | .win h a _ => (s.arr h a).flips = [] ∧ (s.arr h a).state.busy = false
    | .scr .. => True

/-! ### Queues and launches (R288 to R306) -/

/-- Queue `q` of a context is now `y`: no other queue, register or core has changed, and where its descriptor can be written it shows `y` in
Feuri's own fields, from bit 368 on (R301). -/
def QueueTo (tag q : Nat) (y : Queue) (s t : State) : Prop :=
  t.queue? tag q = some y ∧ (∀ k, k ≠ 256 * tag + q → t.queues.find? k = s.queues.find? k) ∧
  { t with queues := s.queues, mem := s.mem, free := s.free, links := s.links, trackers := s.trackers, drams := s.drams, banks := s.banks
           migs := s.migs } = s ∧
  ∀ c pa m, s.ctx? tag = some c → unitAt s tag (c.desc.qtab + 64 * q) .write = .ok pa m → region (pa + 46) ≤ 1 → pathDown s 0 (pa + 46) = false →
    (∀ j < 18, lockedPa s (pa + 46 + j) = false) → y.closing = false →
    let w := ofBytes ((List.range 18).map fun j => t.mem.read (pa + 46 + j))
    bits w 3 0 = y.state.code ∧ bits w 7 4 = y.ecode % 2 ^ 4 ∧ bits w 15 8 = y.rcode % 2 ^ 8 ∧ bits w 47 16 = y.eseq % 2 ^ 32 ∧
      bits w 79 48 = y.head % 2 ^ 32 ∧ bits w 111 80 = y.taken % 2 ^ 32 ∧ bits w 143 112 = y.tail % 2 ^ 32

/-- A crew that was neither killed nor DRAINING has been killed (R76, R321): the kill is asked of it; one that has issued nothing or is
SUSPENDED is DRAINING, one that waits is READY, another stays where it is. -/
def CrewKilled (c : Nat) (x : Crew) (t : State) : Prop :=
  x.req.kill = none → x.state ≠ .draining → ∃ y, t.crew? c = some y ∧ y.req.kill.isSome ∧
    y.state = match x.state with
      | .starting | .suspended => .draining
      | .waiting => .ready
      | k => k

/-- A launch has been killed (R294): every group of it that is not CLOSING is DOOMED, every crew of it killed, nothing more is placed. -/
def LaunchKilled (l : Nat) (x : Launch) (out : Nat) (s t : State) : Prop :=
  t.launch? l = some { x with state := if x.live = 0 then .ending else .killing, out := out, again := [], step := 0 } ∧
  (∀ gi g, s.group? gi = some g → g.launch = l → g.state ≠ .closing → ∃ g', t.group? gi = some g' ∧ g'.state = .doomed ∧ g'.relaunch = false) ∧
  ∀ c y, s.crew? c = some y → y.seat.launch = l → CrewKilled c y t

/-! ### Contexts (R310, R321, R324) -/

/-- A context that was neither KILLING, DEAD nor RESTORING has been killed: it is KILLING with its cause, its groups that are not CLOSING are DOOMED, and
every crew of it is killed. -/
def ContextKilled (tag : Nat) (x : Context) (why : KillWhy) (s t : State) : Prop :=
  t.ctx? tag = some { x with state := .killing, why := some why, saved := [] } ∧
  (∀ gi g, s.group? gi = some g → g.tag = tag → g.state ≠ .closing → ∃ g', t.group? gi = some g' ∧ g'.state = .doomed ∧ g'.relaunch = false) ∧
  ∀ c y, s.crew? c = some y → y.seat.tag = tag → CrewKilled c y t

/-! ### Commands (R353) -/

/-- No command is under way and none waits to report. -/
def Idle (s : State) : Prop := s.mg.cmd = none ∧ s.mg.held = none

/-- A command of a code and tag has just begun. -/
def begun (s : State) (code tag : Nat) : State := s.updMg fun m => { m with cmd := some ⟨m.cmdhead + 1, code, tag, [], []⟩ }

/-- The command reports its result with nothing done. -/
def Reports (i : Instr) (s : State) (code tag r : Nat) : Prop := exec i s = .next (finishCmd (begun s code tag) r)

/-- The command reports result 0 in a state that has come from the one in which it began. -/
def Performs (i : Instr) (s : State) (u : State) : Prop := exec i s = .next (finishCmd u 0)

/-- Link `n` is now `k`, and a link event of this number has been written, kept or dropped. -/
def LinkEvents (n ev : Nat) (k : Link) (s t : State) : Prop :=
  ∃ u e, t = emit u e ∧ e.kind = 5 ∧ e.data = ev ∧ e.loc % 256 = n % 256 ∧ { u with free := s.free } = s.updLink n fun _ => k

end Sys2Proof.Machine
end

