-- ==== Sys2Proof/Certificates/Slice0/Obligations.lean ====
section
/-!
DEFINITION. Statements about the model, from the rules of the spec. Each docstring is the statement in words; where one rests on a choice of
the model it names the log entry.
-/
open Sys2Proof Sys2Proof.Machine

/-- For every instruction i that fails no check of R28 on its word alone and has a word w under the encoder (every row of the opcode table
but the event rows has one), decoding w gives i again: no operand, modifier or hint is dropped or moved, at any value the encoding admits.
-/
def Obligations.DecodeInvertsEncode : Prop := ∀ i w, i.wellFormed = true → encode i = some w → decodeWord w = .ok i

/-- For every 96-bit word w, if w decodes to an instruction i then i is well formed and its encoding is w: every reserved or unused bit of
a word that decodes is zero, and no two words decode to one instruction. -/
def Obligations.EncodeInvertsDecode : Prop := ∀ w i, decodeWord w = .ok i → i.wellFormed = true ∧ encode i = some w

/-- For every state in which home memory is in its canonical form (addresses strictly rising, no entry equal to what an unlisted address
reads as, log 4), the state that any step answers has it too: whichever instruction, event or outside access the step is. -/
def Obligations.StepKeepsMemoryCanonical : Prop := ∀ s t, MemoryOk s → step s = .next t → MemoryOk t

/-- After package reset memory lists nothing and is in its canonical form; no crew, context, operation or queue exists; MSTAT shows step 0
with neither READY nor FAULT; and the step after reset does not stop. -/
def Obligations.ResetHoldsCanonicalMemory : Prop :=
  MemoryOk State.reset ∧ State.reset.crews = [] ∧ State.reset.ctxs = [] ∧ State.reset.ops = [] ∧ State.reset.queues = [] ∧
    State.reset.mg.step = 0 ∧ State.reset.mg.ready = false ∧ State.reset.mg.fault = false ∧ Goes State.reset

/-- When crew c is given the turn, is ACTIVE, no event of the boundary comes first, and the twelve bytes at its pc (through the
translation of its context) are the word w: if w decodes to an instruction i, the step is exec of i with c as the current crew, followed
by what ends every step (crews whose waits are over, time); if w decodes to none, it is the step of a word that is no instruction. When a
step of an outside party stands due, is the first that no link and no migration holds, and the choice falls on it, the step is exec of that
step, which leaves the list; one that is not held is the first when it heads the list. A fetch whose page and that of pc + 8 translate, with
no poisoned line and no link down on the way, reads the byte of memory at the frame of each byte's own page as bits 8j + 7 to 8j of the word,
for j from 0 to 11. -/
def Obligations.StepRunsDecodedInstruction : Prop :=
  (∀ s c x w, s.turn = some c → ({ s with cur := c, turn := none } : State).crew? c = some x → x.state = .active →
    boundary { s with cur := c, turn := none } c = none → fetch { s with cur := c, turn := none } x = .word w →
    (∀ i, decodeWord w = .ok i → step s = afterStep (exec i { s with cur := c, turn := none })) ∧
    (∀ r, decodeWord w = .error r → step s = afterStep (exec (.notAnInstruction w) { s with cur := c, turn := none }))) ∧
  (∀ s i t, s.turn = none → nextDue s s.due = some (i, t) → Config.pick s.tick % (moves s).length = 0 →
    step s = afterStep (exec i { s with due := t })) ∧
  (∀ s i t, requestHeld s i = false → nextDue s (i :: t) = some (i, t)) ∧
  ∀ s x pa pb m m', translate s x.seat.core x.seat.tag x.ctl.pc.toNat .exec = .ok pa m →
    translate s x.seat.core x.seat.tag ((x.ctl.pc.toNat + 8) % 2 ^ 64) .exec = .ok pb m' →
    let byte (j : Nat) : Nat := if (x.ctl.pc.toNat + j) / 65536 = x.ctl.pc.toNat / 65536 then pa + j else pb + j - 8
    (∀ j < 12, s.mem.badLine (lineOf (byte j)) = false ∧ pathDown s x.seat.core (byte j) = false) →
    ∃ w, fetch s x = .word w ∧ ∀ j < 12, w.extractLsb' (8 * j) 8 = s.mem.read (byte j)

/-- For an ACTIVE crew with no event at the boundary, the row NOT_AN_INSTRUCTION with a word that decodes to no instruction first waits for the
operations of the tags its WAIT bits name and of those whose LOOK is used up, and commits these tags, whose first fault it raises; then it
answers the next state in which that crew takes the trap (R312) of cause 0x01 with TLANES the em at issue and TADDR the reason, raised at
the word's own address. The reason is the decoder's r, but 3 for a SETSR of TEM0 or TEM1 outside a handler that fails a later check; r lies
between 1 and 7, and it is 1 exactly when no form of the instruction table has the opcode. -/
def Obligations.NotAnInstructionTraps : Prop :=
  ∀ w s x, s.crew? s.cur = some x → x.state = .active → boundary s s.cur = none → ∀ r, decodeWord w = .error r →
    let ws := SMap.keys (x.tags.filter fun e => !e.2.deferred && (e.1 == 0 || (fieldsOf w).wait.getLsbD (e.1 - 1) || e.2.look == 0))
    let ops := (x.tags.filter fun e => ws.contains e.1).filterMap fun e => e.2.op
    let tem : Prop := ∃ h o, (fieldsOf w).instr = .setsr h o ∧ (o.reg = .tem0 ∨ o.reg = .tem1) ∧ x.ctl.hmode = false
    (ops ≠ [] → exec (.notAnInstruction w) s = .next (toWaiting s s.cur (.ops ops))) ∧
    (∀ s1 f, ops = [] → commitTags s s.cur ws = (s1, some f) → exec (.notAnInstruction w) s = .next (takeTrap s1 s.cur f x.ctl.pc)) ∧
    (∀ s1, ops = [] → commitTags s s.cur ws = (s1, none) → ∃ q, (3 < r → tem → q = 3) ∧ (¬(3 < r ∧ tem) → q = r) ∧
      exec (.notAnInstruction w) s = .next (takeTrap s1 s.cur ⟨0x01, x.ctl.em, BitVec.ofNat 64 q⟩ x.ctl.pc)) ∧
    1 ≤ r ∧ r ≤ 7 ∧ (r = 1 ↔ (fieldsOf w).form = none)

/-- When a crew outside its handler takes trap t for the instruction at pc, its context has a handler, and every tag that R91 does not
defer is complete: those tags are committed (R90), the control line and the top of the stack are written to the image, and the crew is
left with TPC = pc, TCAUSE, TLANES and TADDR those of t, TEM its em and TSD its SDEPTH; HMODE is set, em is all ones and the pc is TVEC.
Its registers are those the commits left, every tag still outstanding is deferred, and no other crew changes. With TVEC 0 it is killed
instead, its trap registers taking the trap all the same (log 66, the model's choice) and its control as it was; with HMODE already 1 it is
killed whatever TVEC holds, with KIND 3, its trap registers as they were (log 30, the model's choice). The kill names the trap's cause and
the instruction's address, is logged, and is not relaunchable. -/
def Obligations.TakingATrap : Prop :=
  (∀ s c t pc x x1, s.crew? c = some x → x.ctl.hmode = false → tvec s x.seat.tag ≠ 0 → (entryTags s x).2 = [] →
    (commitTags s c (entryTags s x).1).1.crew? c = some x1 →
    ∃ y, (takeTrap s c t pc).crew? c = some y ∧ y.tr = ⟨pc, BitVec.ofNat 8 t.cause, t.lanes, t.addr, x1.ctl.em, x1.ctl.sdepth⟩ ∧
      y.ctl = { x1.ctl with hmode := true, em := BitVec.allOnes 128, pc := tvec s x.seat.tag } ∧ y.rf = x1.rf ∧ y.state = x1.state ∧
      (∀ k r, y.tags.find? k = some r → r.deferred = true) ∧
      (takeTrap s c t pc).mem = (saveControl (commitTags s c (entryTags s x).1).1 c).mem ∧
      ∀ d, d ≠ c → (takeTrap s c t pc).crew? d = s.crew? d) ∧
  (∀ s c t pc x, s.crew? c = some x →
    (x.ctl.hmode = true → takeTrap s c t pc = killCrew s c ⟨3, t.cause, pc.toNat⟩ false true) ∧
    (x.ctl.hmode = false → tvec s x.seat.tag = 0 →
      takeTrap s c t pc = killCrew (s.updCrew c fun y => y.trapped t pc) c ⟨4, t.cause, pc.toNat⟩ false true) ∧
    (x.ctl.hmode = true ∨ tvec s x.seat.tag = 0 → x.req.kill = none → x.state = .active →
      ∃ y, (takeTrap s c t pc).crew? c = some y ∧ y.ctl = x.ctl ∧ y.rf = x.rf ∧ y.req.relaunch = false ∧
        y.tr = (if x.ctl.hmode then x.tr else ⟨pc, BitVec.ofNat 8 t.cause, t.lanes, t.addr, x.ctl.em, x.ctl.sdepth⟩) ∧
        y.req.kill = some ⟨if x.ctl.hmode then 3 else 4, t.cause, pc.toNat⟩ ∧
        ∀ u, s.ctx? x.seat.tag = some u →
          ((takeTrap s c t pc).ctx? x.seat.tag).map (·.logSeq) = some (u.logSeq + 1)))

/-- A TRAP that reaches its effect is the trap of cause 0x12 with TLANES em and TADDR the immediate zero-extended. A TRET outside a
handler raises PROTECTION with TADDR 0. A TRET in a handler restores em from TEM and SDEPTH from TSD, clears HMODE, continues at TPC
(.retry), TPC + 12 (.skip) or the scalar with bits 1 and 0 cleared (.jump), and puts deferred tags back under the ordinary rule, counting
the instruction that trapped toward their LOOK unless it is retried (log 68, the model's choice); it changes no register, no trap register
and, where the stack is within the 32 entries that hardware holds, nothing else. -/
def Obligations.TrapInstructionTraps : Prop :=
  (∀ h o s x, Ready (.trap h o) s x → Traps (.trap h o) s x ⟨0x12, x.ctl.em, o.imm.setWidth 64⟩) ∧
  (∀ h o s x, Ready (.tret h o) s x → x.ctl.hmode = false → Traps (.tret h o) s x ⟨0x04, x.ctl.em, 0⟩) ∧
  (∀ h o s x, Ready (.tret h o) s x → x.ctl.hmode = true →
    ∃ t y, exec (.tret h o) s = .next t ∧ t.crew? s.cur = some y ∧ y.rf = x.rf ∧ y.tr = x.tr ∧ y.sq = x.sq ∧ y.seat = x.seat ∧
      (let pc := match o with | .retry => x.tr.tpc | .skip => x.tr.tpc + 12 | .jump a => srcS s x a &&& ~~~3#64
       { y.ctl with stack := x.ctl.stack } = { x.ctl with hmode := false, em := x.tr.tem, sdepth := x.tr.tsd, pc := pc } ∧
       ∀ k, y.tags.find? k = (x.tags.find? k).map fun r => { r with
         deferred := false, look := if r.deferred ∧ pc = x.tr.tpc then r.look else r.look - 1 }) ∧
      (∀ d, d ≠ s.cur → t.crew? d = s.crew? d) ∧ (x.ctl.sdepth ≤ 32 → y.ctl.stack = x.ctl.stack ∧ Elsewhere s.cur s t))

/-- For every instruction i, whatever its own effect and provided none of its own reasons of R28 fails: when the crew can execute i but
the guard does not hold, issuing i leaves every register, mask and flag as it was and goes on to pc + 12; a nonzero TAG is allocated and
complete at once with no result; nothing else changes. So does exec of every scalar, control and mask instruction: BRV pushes nothing and
JOIN pops nothing, CALL and RET leave the stack, EXIT leaves the crew running. -/
def Obligations.GuardFalseSkips : Prop :=
  let skips (i : Instr) (s : State) (x : Crew) (t : State) : Prop := ∃ y, t.crew? s.cur = some y ∧ y.rf = x.rf ∧ y.ctl = nextPc x ∧
    (i.hdr.tag ≠ 0 → y.tags.find? i.hdr.tag.toNat = some ⟨none, i.hdr.look.toNat, {}, [], false⟩) ∧ CrewKept i x y ∧ Elsewhere s.cur s t
  (∀ i own eff s x, Clear i s x → own (issOf i s x) = none → guardHolds x i.hdr = false → skips i s x (issue i own eff s)) ∧
  ∀ i s x, Instr.guardedPlain i = true → Clear i s x → guardHolds x i.hdr = false → ∃ t, exec i s = .next t ∧ skips i s x t

/-- For an ACTIVE crew with no event at the boundary and no tag to wait for, an instruction with own reason 3 raises ILLEGAL with TADDR 3;
else with an operand at or beyond the counts of .regs it raises reason 8; else with an own reason r (9 or 10) it raises r; else when it
names a tag or a destination deferred at trap entry it raises reason 11. In each case TLANES is em and TPC the instruction's address, and
the guard is not looked at. -/
def Obligations.IssueChecksReasons : Prop :=
  ∀ i own eff s x, s.crew? s.cur = some x → x.state = .active → boundary s s.cur = none → waitTags x i (dstRegs i) = [] →
    let raises (r : Nat) : Prop := issue i own eff s = takeTrap s s.cur ⟨0x01, x.ctl.em, BitVec.ofNat 64 r⟩ x.ctl.pc
    (own (issOf i s x) = some 3 → raises 3) ∧
    (own (issOf i s x) ≠ some 3 → withinRegs x.seat i = false → raises 8) ∧
    (∀ r, r ≠ 3 → own (issOf i s x) = some r → withinRegs x.seat i = true → raises r) ∧
    (own (issOf i s x) = none → withinRegs x.seat i = true → clearOfDeferred x i (dstRegs i) = false → raises 11)

/-- For an ACTIVE crew with no event at the boundary: while an operation of a tag the instruction waits for (its WAIT bits, an exhausted
LOOK, its own tag, an overlapping destination, every tag for WAITC and TRET) is in flight, issuing it only makes the crew wait for those
operations; when all are complete and commit without a fault, issuing it is issuing it in the state that the commits leave; and a fault
found at a commit is taken at the instruction's address. -/
def Obligations.TagsCommitBeforeIssue : Prop :=
  ∀ i own eff s x, s.crew? s.cur = some x → x.state = .active → boundary s s.cur = none →
    let ws := waitTags x i (dstRegs i)
    let ops := (x.tags.filter fun e => ws.contains e.1).filterMap fun e => e.2.op
    (ops ≠ [] → issue i own eff s = toWaiting s s.cur (.ops ops)) ∧
    (∀ s1 f, ops = [] → commitTags s s.cur ws = (s1, some f) → issue i own eff s = takeTrap s1 s.cur f x.ctl.pc) ∧
    (∀ s1 x1, ops = [] → commitTags s s.cur ws = (s1, none) → s1.crew? s.cur = some x1 → x1.state = .active → boundary s1 s.cur = none →
      waitTags x1 i (dstRegs i) = [] → issue i own eff s = issue i own eff s1)

/-- Committing tag k of a crew frees the tag, writes each held register write in order and ors the held flags into FPST, when no fault was
found; a vector write changes exactly the lanes in its mask and leaves the others, a scalar write replaces one scalar register, and no
other register changes. The commit of a matrix result writes MXST as it is held. A fault found after issue (R239) is then answered, and
neither D, flags, a tile nor memory changes. Without one, DTILE takes its state, and the 80 words of its checksum run the sums, modulo 2^32,
of the 16 rows and 64 columns of the accumulator D as it has been written; the rest of the run's register stays. A register tile whose
checks a TLDM or TFIX made takes the state and the corrections held for it. Every other register tile of the crew that a written register
belongs to becomes STALE, and no other tile entry changes. -/
def Obligations.CommitWritesHeldResult : Prop :=
  (∀ s c k x t, s.crew? c = some x → x.tags.find? k = some t → t.held.mat = none → t.held.tile = none →
    ∃ y, (commitTag s c k).1.crew? c = some y ∧ (commitTag s c k).2 = none ∧ y.rf = t.held.regs.foldl RegFile.put x.rf ∧
      y.ctl = { x.ctl with fpst := x.ctl.fpst ||| t.held.fp } ∧ y.tags.find? k = none ∧
      ∀ j, j ≠ k → y.tags.find? j = x.tags.find? j) ∧
  (∀ (r : RegFile) k b em (v : Lanes) l, l < 128 →
    (((r.put (.v k b em v)).vget b k).get l = if em.getLsbD l then v.get l else (r.vget b k).get l) ∧
    (∀ j, j ≠ k → (r.put (.v k b em v)).vget b j = r.vget b j) ∧ (r.put (.v k b em v)).sget b = r.sget b ∧ (r.put (.v k b em v)).m = r.m) ∧
  (∀ (r : RegFile) k b v, ((r.put (.s k b v)).sget b k = v) ∧ (∀ j, j ≠ k → (r.put (.s k b v)).sget b j = r.sget b j) ∧
    (r.put (.s k b v)).vget b = r.vget b ∧ (r.put (.s k b v)).m = r.m) ∧
  (∀ s c k x t m f, s.crew? c = some x → x.tags.find? k = some t → t.held.mat = some m → m.fault = some f →
    ∃ y, (commitTag s c k).1.crew? c = some y ∧ (commitTag s c k).2 = some f ∧ y.rf = x.rf ∧ y.ctl = { x.ctl with mxst := m.mxst } ∧
      y.tags.find? k = none ∧ (commitTag s c k).1.cores = s.cores ∧ (commitTag s c k).1.mem = s.mem) ∧
  (∀ s c k x t, s.crew? c = some x → x.tags.find? k = some t → (t.held.mat.bind fun m => m.fault) = none →
    let dt := t.held.mat.bind fun m => m.dtile
    let mine := dt.map (·.1) <|> t.held.tile.map (·.1)
    let u := (commitTag s c k).1
    let written (r : Nat) : Bool := t.held.regs.any fun w => match w with
      | .v d b _ _ => d.val == r && !(b && decide (r < 32))
      | _ => false
    ∃ y, u.crew? c = some y ∧ (commitTag s c k).2 = none ∧ y.tags.find? k = none ∧
      y.ctl = { x.ctl with
        mxst := (t.held.mat.map fun m => m.mxst).getD x.ctl.mxst
        fpst := x.ctl.fpst ||| t.held.fp } ∧
      (dt = none → y.rf = t.held.regs.foldl RegFile.put x.rf) ∧
      (∀ g n, mine ≠ some n ∨ g ≠ x.seat.core → u.tile? g n = (s.tile? g n).map fun e =>
        if g = x.seat.core ∧ e.space = 2 ∧ e.crew = some c ∧ (e.state = .valid ∨ e.state = .suspect) ∧ e.runRegs.any written = true then { e with state := .stale } else e) ∧
      (∀ i st n e, dt = none → t.held.tile = some (i, some (st, n)) → s.tile? x.seat.core i = some e →
        u.tile? x.seat.core i = some { e with state := st, ncor := min 255 (e.ncor + n) }) ∧
      (∀ i e, dt = none → t.held.tile = some (i, none) → s.tile? x.seat.core i = some e → u.tile? x.seat.core i = some e) ∧
      ∀ i code e, dt = some (i, code) → s.tile? x.seat.core i = some e → e.rows = 16 → e.cols = 64 → ∀ hd : e.base + 8 ≤ 320, ∀ hc : e.csum < 320,
        (e.csum < e.base ∨ e.base + 8 ≤ e.csum) →
        let v := (t.held.regs.foldl RegFile.put x.rf).v
        let el (r n : Nat) : Nat := ((y.rf.v.getD (e.base + r / 2) Lanes.zero).get (64 * (r % 2) + n)).toNat
        u.tile? x.seat.core i = some { e with state := TileState.ofCode code } ∧ (∀ r, ∀ h : r < 320, r ≠ e.csum → y.rf.v[r] = v[r]) ∧
        (∀ j < 16, (y.rf.v[e.csum]).get j = BitVec.ofNat 32 ((List.range 64).map (el j)).sum) ∧
        (∀ j < 64, (y.rf.v[e.csum]).get (16 + j) = BitVec.ofNat 32 ((List.range 16).map fun r => el r j).sum) ∧
        ∀ j, 80 ≤ j → j < 128 → (y.rf.v[e.csum]).get j = (v[e.csum]).get j)

/-- For SADD, SSUB, SMUL, SMULH, SDIV, SREM, SAND, SOR, SXOR, SMIN and SMAX, with a and b the low w bits of the two sources read as the
type says: the instruction completes, and its result is the operation of R98 taken modulo 2^w and extended to 64 bits by the type, given
to s[D] (zero discards it): at once with TAG 0, under the tag otherwise. The pc goes on by 12; no other register, flag, tag, memory byte
or table changes. In SDIV the quotient is truncated and 0 when b = 0; SREM is a when b = 0. -/
def Obligations.ScalarTwoOperandResults : Prop :=
  ∀ p ∈ ([(Instr.sadd, fun _ a b => a + b), (Instr.ssub, fun _ a b => a - b), (Instr.smul, fun _ a b => a * b),
      (Instr.smulh, fun w a b => a * b / 2 ^ w), (Instr.sdiv, fun _ a b => if b = 0 then 0 else a.tdiv b),
      (Instr.srem, fun _ a b => if b = 0 then a else a - b * a.tdiv b),
      (Instr.sand, fun w a b => (wrap w a &&& wrap w b : Nat)), (Instr.sor, fun w a b => (wrap w a ||| wrap w b : Nat)),
      (Instr.sxor, fun w a b => (wrap w a ^^^ wrap w b : Nat)), (Instr.smin, fun _ a b => if a ≤ b then a else b),
      (Instr.smax, fun _ a b => if a ≤ b then b else a)] : List ((Hdr → Bin → Instr) × (Nat → Int → Int → Int))),
    ∀ h (o : Bin) s x, Ready (p.1 h o) s x →
      Gives (p.1 h o) s x (resS x o.d (extendTy o.ty (p.2 (tyWidth o.ty) (srcT s x o.ty o.a) (srcT s x o.ty o.b))))

/-- With n all 64 bits of s[B] unsigned: SSHL gives a × 2^n and SSHR the w-bit pattern divided by 2^n, both 0 when n ≥ w; SSRA fills with
bit w − 1 of the pattern, and gives that bit everywhere when n ≥ w. SBFX takes len = min(B[14:8], w) bits from pos = B[5:0], sign-extended
under .I; SBFI puts the low len bits of a into s[D] there. Each completes with its result extended by the type, and leaves everything
else. -/
def Obligations.ScalarShiftAndFieldResults : Prop :=
  (∀ p ∈ ([(Instr.sshl, fun w _ a n => if w ≤ n then 0 else a * 2 ^ n),
      (Instr.sshr, fun w _ a n => if w ≤ n then 0 else ((wrap w a / 2 ^ n : Nat) : Int)),
      (Instr.ssra, fun w _ a n => if w ≤ n then (if (wrap w a).testBit (w - 1) then -1 else 0) else signed w (wrap w a) / 2 ^ n),
      (Instr.sbfx, fun w sg a n =>
        let len := min (bits n 14 8) w
        let f := wrap w a / 2 ^ bits n 5 0 % 2 ^ len
        if sg = true ∧ len ≠ 0 then signed len f else (f : Int))] :
        List ((Hdr → Bin → Instr) × (Nat → Bool → Int → Nat → Int))),
    ∀ h (o : Bin) s x, Ready (p.1 h o) s x →
      Gives (p.1 h o) s x (resS x o.d (extendTy o.ty (p.2 (tyWidth o.ty) (tySigned o.ty) (srcT s x o.ty o.a) (srcS s x o.b).toNat)))) ∧
  (∀ h (o : Bin) s x, Ready (.sbfi h o) s x →
    ∃ r : Nat, Gives (.sbfi h o) s x (resS x o.d (extendTy o.ty r)) ∧
      ∀ j < tyWidth o.ty, r.testBit j =
        let c := (srcS s x o.b).toNat
        let len := min (bits c 14 8) (tyWidth o.ty)
        if bits c 5 0 ≤ j ∧ j < bits c 5 0 + len then (srcS s x o.a).toNat.testBit (j - bits c 5 0) else (srcS s x o.d).toNat.testBit j)

/-- SCMP gives 1 or 0 by its condition on a and b; SSEL gives a when all 64 bits of s[C] are not all zero, else b; SMOV gives a; SCLZ and
SPOPC count leading zeros and ones of the w-bit pattern, not extended; SLEA gives s[A] + s[B] × 2^sh modulo 2^64; SMOVI gives the
immediate, sign-extended for .I64 and zero-extended for .N64; SMOVH replaces bits 63 to 32 of s[D]. Each completes and leaves everything
else. -/
def Obligations.ScalarOtherResults : Prop :=
  (∀ h (o : Cmp) s x, Ready (.scmp h o) s x →
    Gives (.scmp h o) s x (resS x o.d (if ccHoldsInt o.cc (srcT s x o.ty o.a) (srcT s x o.ty o.b) then 1 else 0))) ∧
  (∀ h (o : Tern) s x, Ready (.ssel h o) s x →
    Gives (.ssel h o) s x (resS x o.d (extendTy o.ty (if srcS s x o.c ≠ 0 then srcT s x o.ty o.a else srcT s x o.ty o.b)))) ∧
  (∀ h (o : Un) s x, Ready (.smov h o) s x → Gives (.smov h o) s x (resS x o.d (extendTy o.ty (srcT s x o.ty o.a)))) ∧
  (∀ h (o : Un) s x, Ready (.sclz h o) s x →
    ∃ n ≤ tyWidth o.ty, Gives (.sclz h o) s x (resS x o.d (BitVec.ofNat 64 n)) ∧
      (srcS s x o.a).toNat % 2 ^ tyWidth o.ty < 2 ^ (tyWidth o.ty - n) ∧
      (n < tyWidth o.ty → (srcS s x o.a).toNat.testBit (tyWidth o.ty - 1 - n) = true)) ∧
  (∀ h (o : Un) s x, Ready (.spopc h o) s x →
    Gives (.spopc h o) s x (resS x o.d (BitVec.ofNat 64
      ((List.range (tyWidth o.ty)).filter fun j => (srcS s x o.a).toNat.testBit j).length))) ∧
  (∀ h (o : Lea) s x, Ready (.slea h o) s x → Gives (.slea h o) s x (resS x o.d (srcS s x o.a + srcS s x o.b <<< o.sh.toNat))) ∧
  (∀ h (o : MovImm) s x, Ready (.smovi h o) s x →
    Gives (.smovi h o) s x (resS x o.d (if o.sx then o.imm.signExtend 64 else o.imm.setWidth 64))) ∧
  (∀ h (o : DImm) s x, Ready (.smovh h o) s x →
    Gives (.smovh h o) s x (resS x o.d (o.imm ++ (srcS s x o.d).setWidth 32)))

/-- BRA continues at pc + 12 × IMM32 whatever em holds. BRU reads its uniform source at the type's width (the low bits of a scalar, or the value
that the active lanes of a vector or lid have in common), branches there when cc holds for it against 0 and otherwise goes on; with a vector
source and em zero it goes on. BRX continues at the 64-bit value of its source when that is a multiple of 4, and raises MISALIGN with TADDR
the value otherwise; with a vector source and em zero it goes on. A vector source whose active lanes differ raises UNIFORM_VIOLATION in both,
with TLANES the active lanes that differ from the lowest active one and TADDR 0. CALL pushes a call entry with em and the address after it,
and jumps; RET pops a call entry on top and resumes there, em unchanged. NOP and WAITC only go on. No register, mask or table changes, and no
memory byte but those of an entry of a stack deeper than 32. -/
def Obligations.BranchAndCallEffects : Prop :=
  (∀ h o s x, Ready (.bra h o) s x → Ends (.bra h o) s x x.rf { x.ctl with pc := x.ctl.pc + BitVec.ofInt 64 (12 * o.imm.toInt) } none) ∧
  (∀ h o s x, Ready (.bru h o) s x →
    Uniform s x (tyWidth o.ty) o.a
      (fun a => Ends (.bru h o) s x x.rf
        (if ccHoldsInt o.cc (tyVal o.ty a) 0 then { x.ctl with pc := x.ctl.pc + BitVec.ofInt 64 (12 * o.imm.toInt) } else nextPc x) none)
      (Ends (.bru h o) s x x.rf (nextPc x) none) (Traps (.bru h o) s x)) ∧
  (∀ h o s x, Ready (.brx h o) s x →
    Uniform s x 64 o.a
      (fun a => (a % 4 = 0 → Ends (.brx h o) s x x.rf { x.ctl with pc := BitVec.ofNat 64 a } none) ∧
        (a % 4 ≠ 0 → Traps (.brx h o) s x ⟨0x02, x.ctl.em, BitVec.ofNat 64 a⟩))
      (Ends (.brx h o) s x x.rf (nextPc x) none) (Traps (.brx h o) s x)) ∧
  (∀ h o s x, Ready (.call h o) s x → x.ctl.sdepth ≠ 256 → EndsStack (.call h o) s x
    { x.ctl with stack := x.ctl.stack.insert x.ctl.sdepth ⟨x.ctl.em, 0, (x.ctl.pc + 12) >>> 2, true, false⟩
                 sdepth := x.ctl.sdepth + 1
                 pc := x.ctl.pc + BitVec.ofInt 64 (12 * o.imm.toInt) }) ∧
  (∀ h s x e, Ready (.ret h) s x → x.ctl.sdepth ≠ 0 → x.ctl.stack.find? (x.ctl.sdepth - 1) = some e → e.call = true →
    EndsStack (.ret h) s x { x.ctl with sdepth := x.ctl.sdepth - 1, pc := e.pch <<< 2 }) ∧
  (∀ h s x, Ready (.nop h) s x → Ends (.nop h) s x x.rf (nextPc x) none) ∧
  (∀ h s x, Ready (.waitc h) s x → Ends (.waitc h) s x x.rf (nextPc x) none)

/-- Let a crew reach a BRV both of whose sides have lanes. If active lanes have a nesting counter of 255, it raises cause 0x08 with those
lanes and TADDR 0; otherwise, with SDEPTH 256, it raises cause 0x08 with em and TADDR 1. A CALL with SDEPTH 256 raises cause 0x08 with em
and TADDR 1. A RET that finds the stack empty or a divergence entry on top raises cause 0x08 with em and TADDR 2. Each is a trap before
any effect: no state of the instruction changes. -/
def Obligations.NestOverflowReasons : Prop :=
  (∀ h o s x, Ready (.brv h o) s x → x.ctl.em &&& x.mask o.a ≠ 0 → x.ctl.em &&& ~~~(x.mask o.a) ≠ 0 →
    let deep := (activeLanes x.ctl.em).filter fun l => nestOf x.ctl l == 255
    (deep ≠ [] → Traps (.brv h o) s x ⟨0x08, lanesMask deep, 0⟩) ∧
    (deep = [] → x.ctl.sdepth = 256 → Traps (.brv h o) s x ⟨0x08, x.ctl.em, 1⟩)) ∧
  (∀ h o s x, Ready (.call h o) s x → x.ctl.sdepth = 256 → Traps (.call h o) s x ⟨0x08, x.ctl.em, 1⟩) ∧
  (∀ h s x, Ready (.ret h) s x →
    (x.ctl.sdepth = 0 ∨ ∃ e, x.ctl.stack.find? (x.ctl.sdepth - 1) = some e ∧ e.call = false) →
    Traps (.ret h) s x ⟨0x08, x.ctl.em, 2⟩)

/-- With T the active lanes in m[A] and N the others: BRV with T empty goes on; with N empty it jumps to its target; otherwise, with no
counter at 255 and room on the stack, it pushes a divergence entry (N, the reconvergence address, the address after it, phase 0), adds 1
to the nesting counter of every active lane, makes T active and jumps. JOIN goes on when the stack is empty or its top is a call entry or
names another address; with phase 0 it swaps em with the entry's mask, sets phase 1 and resumes the other path; with phase 1 it adds the
entry's lanes to em, takes 1 from the counters of the lanes then active (not below 0), pops, and goes on. Nothing else changes but, with a
stack deeper than 32, the image, in which the entry that leaves the top 32 then stands as R92 lays it out. -/
def Obligations.DivergenceAndReconvergence : Prop :=
  (∀ h o s x, Ready (.brv h o) s x →
    let t := x.ctl.em &&& x.mask o.a
    let n := x.ctl.em &&& ~~~(x.mask o.a)
    let target := x.ctl.pc + BitVec.ofInt 64 (12 * o.tgt.toInt)
    (t = 0 → Ends (.brv h o) s x x.rf (nextPc x) none) ∧
    (t ≠ 0 → n = 0 → Ends (.brv h o) s x x.rf { x.ctl with pc := target } none) ∧
    (t ≠ 0 → n ≠ 0 → (∀ l < 128, x.ctl.em.getLsbD l = true → nestOf x.ctl l ≠ 255) → x.ctl.sdepth ≠ 256 →
      ∃ nest, EndsStack (.brv h o) s x
          { x.ctl with stack := x.ctl.stack.insert x.ctl.sdepth
                         ⟨n, x.ctl.pc + BitVec.ofInt 64 (12 * o.rc.toInt), (x.ctl.pc + 12) >>> 2, false, false⟩
                       sdepth := x.ctl.sdepth + 1, nest := nest, em := t, pc := target } ∧
        ∀ l : Fin 128, nest.get l = if x.ctl.em.getLsbD l.val then x.ctl.nest.get l + 1 else x.ctl.nest.get l)) ∧
  (∀ h s x, Ready (.join h) s x →
    (x.ctl.sdepth = 0 → Ends (.join h) s x x.rf (nextPc x) none) ∧
    ∀ e, x.ctl.sdepth ≠ 0 → x.ctl.stack.find? (x.ctl.sdepth - 1) = some e →
      ((e.call = true ∨ e.rpc ≠ x.ctl.pc) → Ends (.join h) s x x.rf (nextPc x) none) ∧
      (e.call = false → e.rpc = x.ctl.pc → e.phase = false → Ends (.join h) s x x.rf
        { x.ctl with em := e.mask, pc := e.pch <<< 2
                     stack := x.ctl.stack.insert (x.ctl.sdepth - 1) { e with mask := x.ctl.em, phase := true } } none) ∧
      (e.call = false → e.rpc = x.ctl.pc → e.phase = true →
        ∃ nest, EndsStack (.join h) s x { nextPc x with em := x.ctl.em ||| e.mask, sdepth := x.ctl.sdepth - 1, nest := nest } ∧
          ∀ l : Fin 128, nest.get l =
            if (x.ctl.em ||| e.mask).getLsbD l.val ∧ x.ctl.nest.get l ≠ 0 then x.ctl.nest.get l - 1 else x.ctl.nest.get l)) ∧
  ∀ s c n x e pa m, s.crew? c = some x → 32 ≤ n → x.ctl.stack.find? (n - 32) = some e →
    translateNow s x.seat.tag (stackVa s x.seat (n - 32)) .write = some (pa, m) → (∀ j < 32, lockedPa s (pa + j) = false) →
    ∀ j < 32, (stackGrew s c n).mem.read (pa + j) = (toBytes 32 ((if e.phase then 1 else 0) + (if e.call then 2 else 0) + 4 * e.pch.toNat +
      2 ^ 64 * e.rpc.toNat + 2 ^ 128 * e.mask.toNat)).getD j 0

/-- A YLD that reaches its effect leaves the crew READY, off its scheduler's active set and at the tail of the promotion queue; an EXIT
leaves it DRAINING, in neither, with the held results of complete tags discarded. In both the pc has gone on by 12 and every register,
flag, trap register, memory byte and other crew is as it was. -/
def Obligations.YieldAndExitLeaveActiveSet : Prop :=
  (∀ h s x, Ready (.yld h) s x → ∃ t y, exec (.yld h) s = .next t ∧ t.crew? s.cur = some y ∧ y.state = .ready ∧ y.rf = x.rf ∧
    y.ctl = nextPc x ∧ y.tr = x.tr ∧ y.sq = x.sq ∧ Elsewhere s.cur s t ∧ ¬ s.cur ∈ (t.sched x.seat.core x.seat.sched).active ∧
    (t.sched x.seat.core x.seat.sched).queue.getLast? = some s.cur) ∧
  (∀ h s x, Ready (.exit h) s x → ∃ t y, exec (.exit h) s = .next t ∧ t.crew? s.cur = some y ∧ y.state = .draining ∧ y.rf = x.rf ∧
    y.ctl = nextPc x ∧ y.tr = x.tr ∧ y.sq = x.sq ∧ (∀ k r, y.tags.find? k = some r → r.op ≠ none) ∧ Elsewhere s.cur s t ∧
    ¬ s.cur ∈ (t.sched x.seat.core x.seat.sched).active ∧ ¬ s.cur ∈ (t.sched x.seat.core x.seat.sched).queue)

/-- MAND, MOR, MXOR, MANDN, MNOT and MMOV write their Boolean function of whole mask registers, and MGETEM the mask em, to m[D] when they
issue; MSETEM and MREST with em set em. MPOPC gives the number of ones, MFFS the index of the lowest one, or all ones when there is none;
MSAVE gives the two halves of a mask or of em to a scalar pair; MREST builds a mask from a pair. They act on all 128 bits whatever em
holds; zero as destination discards; nothing else changes, the divergence stack included. -/
def Obligations.MaskInstructionResults : Prop :=
  (∀ p ∈ ([(Instr.mand, fun a b => a &&& b), (Instr.mor, fun a b => a ||| b), (Instr.mxor, fun a b => a ^^^ b),
      (Instr.mandn, fun a b => a &&& ~~~b)] : List ((Hdr → DAB → Instr) × (Mask → Mask → Mask))),
    ∀ h (o : DAB) s x, Ready (p.1 h o) s x → Sets (p.1 h o) s x (x.setMask o.d (p.2 (x.mask o.a) (x.mask o.b))).rf (nextPc x)) ∧
  (∀ h (o : DA) s x, Ready (.mnot h o) s x → Sets (.mnot h o) s x (x.setMask o.d (~~~(x.mask o.a))).rf (nextPc x)) ∧
  (∀ h (o : DA) s x, Ready (.mmov h o) s x → Sets (.mmov h o) s x (x.setMask o.d (x.mask o.a)).rf (nextPc x)) ∧
  (∀ h (o : Dst) s x, Ready (.mgetem h o) s x → Sets (.mgetem h o) s x (x.setMask o.d x.ctl.em).rf (nextPc x)) ∧
  (∀ h (o : Src) s x, Ready (.msetem h o) s x → Sets (.msetem h o) s x x.rf { nextPc x with em := x.mask o.a }) ∧
  (∀ h (o : DA) s x, Ready (.mpopc h o) s x →
    Gives (.mpopc h o) s x (resS x o.d (BitVec.ofNat 64 ((List.range 128).filter fun j => (x.mask o.a).getLsbD j).length))) ∧
  (∀ h (o : DA) s x, Ready (.mffs h o) s x →
    (x.mask o.a = 0 → Gives (.mffs h o) s x (resS x o.d (BitVec.allOnes 64))) ∧
    (∀ l < 128, (x.mask o.a).getLsbD l = true → (∀ j < l, (x.mask o.a).getLsbD j = false) →
      Gives (.mffs h o) s x (resS x o.d (BitVec.ofNat 64 l)))) ∧
  (∀ h (o : MSave) s x, Ready (.msave h o) s x →
    let m := match o.a with | some a => x.mask a | none => x.ctl.em
    Gives (.msave h o) s x (scalarsHeld (issOf (.msave h o) s x) o.d [m.extractLsb' 0 64, m.extractLsb' 64 64])) ∧
  (∀ h (o : MRest) s x, Ready (.mrest h o) s x →
    let m : Mask := (Iss.scalarAt (issOf (.mrest h o) s x) s o.a 1) ++ (Iss.scalarAt (issOf (.mrest h o) s x) s o.a 0)
    match o.d with
    | some d => Sets (.mrest h o) s x (x.setMask d m).rf (nextPc x)
    | none => Sets (.mrest h o) s x x.rf { nextPc x with em := m })

/-- For VADD, VSUB, VMUL, VMULH, VMIN, VMAX, VAND, VOR, VXOR, VADDSAT, VSUBSAT (two values of the type), VMAD (three), VSHL, VSHR, VSRA
(the count an unsigned value of the type's width), VABS, VNEG, VCLZ, VPOPC, VMOV, VSEL (by a mask), VBCAST (lane s[B] modulo 128 of A) and
VBFX (its control word read as a source of the type, log 12, the model's choice): the instruction completes; lane l of its result is the operation of R108 on lane l of its sources, taken modulo 2^w, and the result
is given to the lanes of em of the destination's registers only, at once with TAG 0 and under the tag otherwise. No other lane, register,
flag, memory byte or table changes. -/
def Obligations.VectorIntegerResults : Prop :=
  (∀ p ∈ ([(Instr.vadd, fun _ a b => a + b), (Instr.vsub, fun _ a b => a - b), (Instr.vmul, fun _ a b => a * b),
      (Instr.vmulh, fun t a b => a * b / 2 ^ tyWidth t), (Instr.vmin, fun _ a b => if a ≤ b then a else b),
      (Instr.vmax, fun _ a b => if a ≤ b then b else a), (Instr.vand, fun t a b => (wrap (tyWidth t) a &&& wrap (tyWidth t) b : Nat)),
      (Instr.vor, fun t a b => (wrap (tyWidth t) a ||| wrap (tyWidth t) b : Nat)),
      (Instr.vxor, fun t a b => (wrap (tyWidth t) a ^^^ wrap (tyWidth t) b : Nat)),
      (Instr.vaddsat, fun t a b => max (tyLo t) (min (tyHi t) (a + b))),
      (Instr.vsubsat, fun t a b => max (tyLo t) (min (tyHi t) (a - b)))] : List ((Hdr → Bin → Instr) × (Ty → Int → Int → Int))),
    ∀ h (o : Bin) s x, Ready (p.1 h o) s x → Gives (p.1 h o) s x
      (resV x (tyWidth o.ty) o.d fun l => wrap (tyWidth o.ty) (p.2 o.ty (srcLT x o.ty o.a l) (srcLT x o.ty o.b l)))) ∧
  (∀ p ∈ ([(Instr.vshl, fun w a n => if w ≤ n then 0 else a * 2 ^ n),
      (Instr.vshr, fun w a n => if w ≤ n then 0 else ((wrap w a / 2 ^ n : Nat) : Int)),
      (Instr.vsra, fun w a n => if w ≤ n then (if (wrap w a).testBit (w - 1) then -1 else 0) else signed w (wrap w a) / 2 ^ n)] :
        List ((Hdr → Bin → Instr) × (Nat → Int → Nat → Int))),
    ∀ h (o : Bin) s x, Ready (p.1 h o) s x → Gives (p.1 h o) s x
      (resV x (tyWidth o.ty) o.d fun l => wrap (tyWidth o.ty) (p.2 (tyWidth o.ty) (srcLT x o.ty o.a l) (srcL x (tyWidth o.ty) o.b l)))) ∧
  (∀ p ∈ ([(Instr.vabs, fun _ a => (a.natAbs : Int)), (Instr.vneg, fun _ a => -a), (Instr.vmov, fun _ a => a),
      (Instr.vclz, fun w a => clz w (wrap w a)), (Instr.vpopc, fun w a => popc w (wrap w a))] :
        List ((Hdr → Un → Instr) × (Nat → Int → Int))),
    ∀ h (o : Un) s x, Ready (p.1 h o) s x → Gives (p.1 h o) s x
      (resV x (tyWidth o.ty) o.d fun l => wrap (tyWidth o.ty) (p.2 (tyWidth o.ty) (srcLT x o.ty o.a l)))) ∧
  (∀ h (o : Tern) s x, Ready (.vmad h o) s x → Gives (.vmad h o) s x
    (resV x (tyWidth o.ty) o.d fun l => wrap (tyWidth o.ty) (srcLT x o.ty o.a l * srcLT x o.ty o.b l + srcLT x o.ty o.c l))) ∧
  (∀ h (o : Tern) s x, Ready (.vsel h o) s x → Gives (.vsel h o) s x
    (resV x (tyWidth o.ty) o.d fun l => wrap (tyWidth o.ty)
      (if (x.mask o.c).getLsbD l then srcLT x o.ty o.a l else srcLT x o.ty o.b l))) ∧
  (∀ h (o : Bin) s x, Ready (.vbcast h o) s x → Gives (.vbcast h o) s x
    (resV x (tyWidth o.ty) o.d fun _ => wrap (tyWidth o.ty) (srcLT x o.ty o.a ((srcS s x o.b).toNat % 128)))) ∧
  (∀ h (o : Bin) s x, Ready (.vbfx h o) s x → Gives (.vbfx h o) s x
    (resV x (tyWidth o.ty) o.d fun l => wrap (tyWidth o.ty)
      (fieldExtract (tyWidth o.ty) (tySigned o.ty) (srcLT x o.ty o.a l) (srcL x (tyWidth o.ty) o.b l))))

/-- A VCMP that reaches its effect completes: it writes to m[D], when it issues, the mask whose bit l is set exactly when lane l is active
and the condition holds for lane l of its sources under the type, and nothing when no lane is active; zero discards; a TAG is complete at
once; no other register, flag, memory byte or table changes. -/
def Obligations.VectorCompareWritesMask : Prop :=
  ∀ h (o : Cmp) s x, Ready (.vcmp h o) s x → ∃ m : Mask, Sets (.vcmp h o) s x (if x.ctl.em = 0 then x.rf else (x.setMask o.d m).rf) (nextPc x) ∧
    ∀ l < 128, m.getLsbD l = (x.ctl.em.getLsbD l && ccHoldsInt o.cc (srcLT x o.ty o.a l) (srcLT x o.ty o.b l))

/-- For VFADD, VFSUB, VFMUL, VFMIN and VFMAX, VFMA, VFABS and VFNEG: in each value of each active lane (two values under .BF16X2) the
operation is done exactly on the sources, negated first where NA or NB says so, and rounded once to the type; SAT then clamps the pattern
to +0 to 1.0 and NaN to +0, the flags being those before the clamp. If no active lane raises a flag whose enable is set, the instruction
completes and gives the results in the lanes of em with the or of the flags; otherwise it raises FP_EXCEPTION with the lanes concerned and
the enabled flags they raise, and writes nothing. -/
def Obligations.FloatArithmeticResults : Prop :=
  (∀ p ∈ ([(Instr.vfadd, fun m r a b => fadd m r (m.read a) (m.read b)), (Instr.vfsub, fun m r a b => fadd m r (m.read a) (m.read b).neg),
      (Instr.vfmul, fun m r a b => fmul m r (m.read a) (m.read b)), (Instr.vfmin, fun m _ a b => fminmax m false a b),
      (Instr.vfmax, fun m _ a b => fminmax m true a b)] : List ((Hdr → FBin → Instr) × (FFmt → Rnd → Nat → Nat → FRes))),
    ∀ h (o : FBin) s x, Ready (p.1 h o) s x → GivesFloat (p.1 h o) s x (tyWidth o.ty) o.d fun l => byHalves o.ty fun j =>
      let r := p.2 (tyFmt o.ty) o.rnd (negIf (tyFmt o.ty) o.na (floatLane (issOf (p.1 h o) s x) o.ty o.a l j))
        (negIf (tyFmt o.ty) o.nb (floatLane (issOf (p.1 h o) s x) o.ty o.b l j))
      if o.sat then { r with bits := fsat (tyFmt o.ty) r.bits } else r) ∧
  (∀ h (o : FTern) s x, Ready (.vfma h o) s x → GivesFloat (.vfma h o) s x (tyWidth o.ty) o.d fun l => byHalves o.ty fun j =>
      let v (n : Bool) (a : Reg) : FNum := (tyFmt o.ty).read (negIf (tyFmt o.ty) n (floatLane (issOf (.vfma h o) s x) o.ty a l j))
      let r := ffma (tyFmt o.ty) o.rnd (v o.na o.a) (v o.nb o.b) (v false o.c)
      if o.sat then { r with bits := fsat (tyFmt o.ty) r.bits } else r) ∧
  (∀ p ∈ ([(Instr.vfabs, false), (Instr.vfneg, true)] : List ((Hdr → FUn → Instr) × Bool)),
    ∀ h (o : FUn) s x, Ready (p.1 h o) s x → GivesFloat (p.1 h o) s x (tyWidth o.ty) o.d fun l => byHalves o.ty fun j =>
      fsign (tyFmt o.ty) p.2 (negIf (tyFmt o.ty) o.na (floatLane (issOf (p.1 h o) s x) o.ty o.a l j)))

/-- VFCMP compares each active lane (both halves under .BF16X2, and then both must satisfy cc): a signalling NaN raises NV, which traps as
FP_EXCEPTION when enabled; otherwise m[D] takes, when the instruction issues, the active lanes where cc holds, and the flags are written
with TAG 0 or held under the tag; with no lane active no mask is written. VFCLASS gives each active lane of vD the 32-bit class word of its operand and raises no flag; the word
has exactly one of its low ten bits set. -/
def Obligations.FloatCompareAndClass : Prop :=
  (∀ h (o : FCmp) s x, Ready (.vfcmp h o) s x →
    let m := tyFmt o.ty
    let v (l j : Nat) : Nat × Nat := (negIf m o.na (floatLane (issOf (.vfcmp h o) s x) o.ty o.a l j),
      negIf m o.nb (floatLane (issOf (.vfcmp h o) s x) o.ty o.b l j))
    let hold (l j : Nat) : Bool := ccHolds o.cc (fcompare m (v l j).1 (v l j).2)
    let sig (l j : Nat) : Bool := (m.read (v l j).1).isSig || (m.read (v l j).2).isSig
    let two := decide (o.ty = .bf16x2)
    let nv (l : Nat) : Bool := x.ctl.em.getLsbD l && (sig l 0 || (two && sig l 1))
    let bad := (List.range 128).filter nv
    if bad ≠ [] ∧ x.ctl.fpst.getLsbD 9 = true then Traps (.vfcmp h o) s x ⟨0x11, lanesMask bad, 16⟩
    else ∃ mk : Mask, (∀ l < 128, mk.getLsbD l = (x.ctl.em.getLsbD l && hold l 0 && (!two || hold l 1))) ∧
      let fl : Word := if bad = [] then 0 else 16
      let rf := if x.ctl.em = 0 then x.rf else (x.setMask o.d mk).rf
      if h.tag = 0 then Ends (.vfcmp h o) s x rf { nextPc x with fpst := x.ctl.fpst ||| fl } none
      else Ends (.vfcmp h o) s x rf (nextPc x)
        (some ⟨none, h.look.toNat, { fp := fl }, dstRegs (.vfcmp h o), false⟩)) ∧
  (∀ h (o : FUn) s x, Ready (.vfclass h o) s x → Gives (.vfclass h o) s x
    (resV x 32 o.d fun l => fclass (tyFmt o.ty) (negIf (tyFmt o.ty) o.na (floatLane (issOf (.vfclass h o) s x) o.ty o.a l 0)))) ∧
  (∀ f ∈ [fmtF32, fmtF16, fmtBF16], ∀ a, ∃ j < 10, fclass f a = 2 ^ j)

/-- VRCP, VRSQ, VSQRT, VEX2, VLG2, VSIN, VCOS and VTANH give, in each active lane, their function of the FP32 operand (negated first by
NA), with its flags or FP_EXCEPTION as R107 has it; the bits a bound of R68 leaves open are the model's free functions of Config (log 2).
Whatever they are: every NaN gives the canonical NaN, with NV when signalling; every operand below 0 is invalid for VRSQ, VSQRT and VLG2, and
±∞ for VSIN and VCOS, and no other finite operand gives a NaN; the zeros and infinities give what R68 lists. Exact, with no flag: 1/±2^k where
the result is normal, 1/√4^k, 2^k for an integer k where it is representable, log2 2^k; and a result without a flag is one of these cases,
√'s exact roots, or of a zero. VSQRT is the finite value nearest to the root, and sets NX exactly when the root is inexact. A finite 1/x lies
within 1 ulp of the exact value, and 1/√x within 2 ulp: here a value counts units of 2^−149 and the ulp of an exact value is 2^u units, u
being the least with the value below 2^(u + 24) units. The bounds of the other five rest on the enclosures of log 64, and are not stated. -/
def Obligations.SpecialFunctionResults : Prop :=
  (∀ p ∈ ([(Instr.vrcp, specRcp Config.vrcp), (Instr.vrsq, specRsq Config.vrsq), (Instr.vsqrt, specSqrt), (Instr.vex2, specEx2 Config.vex2),
      (Instr.vlg2, specLg2 Config.vlg2), (Instr.vsin, specTrig false Config.vsin), (Instr.vcos, specTrig true Config.vcos),
      (Instr.vtanh, specTanh Config.vtanh)] : List ((Hdr → FUn → Instr) × (Nat → FRes))),
    ∀ h (o : FUn) s x, o.ty = .f32 → Ready (p.1 h o) s x → GivesFloat (p.1 h o) s x 32 o.d fun l =>
      p.2 (negIf fmtF32 o.na (floatLane (issOf (p.1 h o) s x) .f32 o.a l 0))) ∧
  (∀ f : Word → Word,
    (∀ g ∈ [specRcp f, specRsq f, specSqrt, specEx2 f, specLg2 f, specTrig false f, specTrig true f, specTanh f], ∀ x < 2 ^ 32,
      (∀ sig, fmtF32.read x = .nan sig → g x = ⟨0x7FC00000, if sig then 16 else 0⟩) ∧
      (f32Finite x → 0 ≤ f32Units x → (fmtF32.read (g x).bits).isNan = false)) ∧
    (∀ g ∈ [specRsq f, specSqrt, specLg2 f], ∀ x < 2 ^ 32, (f32Finite x ∧ f32Units x < 0) ∨ x = 0xFF800000 → g x = ⟨0x7FC00000, 16⟩) ∧
    (∀ g ∈ [specRcp f, specEx2 f, specTrig false f, specTrig true f, specTanh f], ∀ x < 2 ^ 32, f32Finite x →
      (fmtF32.read (g x).bits).isNan = false) ∧
    specRcp f 0 = ⟨0x7F800000, 8⟩ ∧ specRcp f 0x80000000 = ⟨0xFF800000, 8⟩ ∧ specRcp f 0x7F800000 = ⟨0, 0⟩ ∧
    specRcp f 0xFF800000 = ⟨0x80000000, 0⟩ ∧ specRsq f 0 = ⟨0x7F800000, 8⟩ ∧ specRsq f 0x80000000 = ⟨0xFF800000, 8⟩ ∧
    specRsq f 0x7F800000 = ⟨0, 0⟩ ∧ specSqrt 0 = ⟨0, 0⟩ ∧ specSqrt 0x80000000 = ⟨0x80000000, 0⟩ ∧ specSqrt 0x7F800000 = ⟨0x7F800000, 0⟩ ∧
    specEx2 f 0x7F800000 = ⟨0x7F800000, 0⟩ ∧ specEx2 f 0xFF800000 = ⟨0, 0⟩ ∧ specLg2 f 0 = ⟨0xFF800000, 8⟩ ∧
    specLg2 f 0x80000000 = ⟨0xFF800000, 8⟩ ∧ specLg2 f 0x7F800000 = ⟨0x7F800000, 0⟩ ∧ specTrig false f 0 = ⟨0, 0⟩ ∧
    specTrig false f 0x80000000 = ⟨0x80000000, 0⟩ ∧ specTrig true f 0 = ⟨0x3F800000, 0⟩ ∧ specTrig true f 0x80000000 = ⟨0x3F800000, 0⟩ ∧
    specTrig false f 0x7F800000 = ⟨0x7FC00000, 16⟩ ∧ specTrig false f 0xFF800000 = ⟨0x7FC00000, 16⟩ ∧
    specTrig true f 0x7F800000 = ⟨0x7FC00000, 16⟩ ∧ specTrig true f 0xFF800000 = ⟨0x7FC00000, 16⟩ ∧ specTanh f 0 = ⟨0, 0⟩ ∧
    specTanh f 0x80000000 = ⟨0x80000000, 0⟩ ∧ specTanh f 0x7F800000 = ⟨0x3F800000, 0⟩ ∧ specTanh f 0xFF800000 = ⟨0xBF800000, 0⟩ ∧
    (∀ x < 2 ^ 32, ∀ j, 22 ≤ j → j ≤ 275 →
      (f32Units x = 2 ^ j → (specRcp f x).fl = 0 ∧ f32Units (specRcp f x).bits = 2 ^ (298 - j)) ∧
      (f32Units x = -2 ^ j → (specRcp f x).fl = 0 ∧ f32Units (specRcp f x).bits = -2 ^ (298 - j))) ∧
    (∀ x < 2 ^ 32, ∀ i j, f32Units x = 2 ^ j → 2 * i + j = 447 → (specRsq f x).fl = 0 ∧ f32Units (specRsq f x).bits = 2 ^ i) ∧
    (∀ x < 2 ^ 32, ∀ i : Int, f32Finite x → f32Units x = i * 2 ^ 149 → -149 ≤ i → i ≤ 127 →
      (specEx2 f x).fl = 0 ∧ f32Units (specEx2 f x).bits = 2 ^ (i + 149).toNat) ∧
    (∀ x < 2 ^ 32, ∀ j : Nat, f32Units x = 2 ^ j →
      (specLg2 f x).fl = 0 ∧ f32Finite (specLg2 f x).bits ∧ f32Units (specLg2 f x).bits = ((j : Int) - 149) * 2 ^ 149) ∧
    (∀ x < 2 ^ 32, f32Finite x →
      ((specRcp f x).fl = 0 → ∃ j, (f32Units x).natAbs = 2 ^ j) ∧ ((specRsq f x).fl = 0 → ∃ j, f32Units x = 2 ^ (2 * j + 1)) ∧
      ((specEx2 f x).fl = 0 → f32Units x % 2 ^ 149 = 0) ∧ ((specLg2 f x).fl = 0 → ∃ j, f32Units x = 2 ^ j) ∧
      ∀ g ∈ [specTrig false f, specTrig true f, specTanh f], (g x).fl = 0 → f32Units x = 0) ∧
    (∀ x < 2 ^ 32, ∀ X : Nat, f32Units x = X → 0 < X → let r := f32Units (specSqrt x).bits
      f32Finite (specSqrt x).bits ∧ 0 ≤ r ∧ (specSqrt x).fl = (if r * r = X * 2 ^ 149 then 0 else 1) ∧
      ∀ p < 2 ^ 31, f32Finite p → (f32Units p < r → (f32Units p + r) ^ 2 ≤ 4 * X * 2 ^ 149) ∧
        (r < f32Units p → 4 * X * 2 ^ 149 ≤ (f32Units p + r) ^ 2)) ∧
    (∀ x < 2 ^ 32, ∀ u : Nat, f32Units x ≠ 0 → f32Finite (specRcp f x).bits → 2 ^ 298 < (f32Units x).natAbs * 2 ^ (u + 24) →
      (f32Units (specRcp f x).bits * f32Units x - 2 ^ 298).natAbs ≤ 2 ^ u * (f32Units x).natAbs) ∧
    (∀ x < 2 ^ 32, ∀ u X : Nat, f32Units x = X → 0 < X → 2 ^ 447 < X * 2 ^ (2 * (u + 24)) → let r := f32Units (specRsq f x).bits
      2 ^ 447 ≤ (r + 2 * 2 ^ u) ^ 2 * X ∧ (2 * 2 ^ u ≤ r → (r - 2 * 2 ^ u) ^ 2 * X ≤ 2 ^ 447)))

/-- VCVT completes with each active lane converted between its two types: between integers the value read by the source type is saturated
under SAT or taken modulo the destination's width; a floating value to an integer is rounded by RND and limited to the type's range with
NV when it lies outside; an integer or a floating value to a floating type is rounded once; the .BF16X2 form rounds A into the low and B
into the high half. Flags follow R107. VPACK with two sources gives both saturated halves; its inserting forms replace field pos of vD by
the saturated source; VUNPK gives field pos, sign- or zero-extended. These raise no flag. -/
def Obligations.ConversionAndPackResults : Prop :=
  (∀ h (o : Cvt) s x, Ready (.vcvt h o) s x →
    let from_ (d c : Ty) (a : Nat) : FRes :=
      if d.isInt && c.isInt then
        ⟨wrap (tyWidth d) (if o.sat ∧ o.b = none then max (tyLo d) (min (tyHi d) (tyVal c a)) else tyVal c a), 0⟩
      else if d.isInt then
        let r := fToInt o.rnd (tyLo d) (tyHi d) ((tyFmt c).read a)
        ⟨wrap (tyWidth d) r.1, r.2⟩
      else if c.isInt then intToF (tyFmt d) o.rnd (tyVal c a)
      else (tyFmt d).give o.rnd ((tyFmt c).read a)
    GivesFloat (.vcvt h o) s x (tyWidth o.dst) o.d fun l =>
      match o.b with
      | some b => byHalves o.dst fun j => from_ .bf16 o.src (srcL x 32 (if j = 0 then o.a else b) l)
      | none => from_ o.dst o.src (srcL x (tyWidth o.src) o.a l)) ∧
  (∀ h (o : Pack) s x, Ready (.vpack h o) s x → ∃ f : Nat → Nat, Gives (.vpack h o) s x (resV x 32 o.d f) ∧
    let w := packWidth o.ty
    let lim (a : Nat) : Nat := wrap w (if packSigned o.ty then max (-(2 ^ (w - 1) : Nat)) (min (2 ^ (w - 1) - 1 : Nat) (signed 32 a))
      else max 0 (min (2 ^ w - 1 : Nat) (signed 32 a)))
    ∀ l, match o.b with
      | some b => f l = lim (srcL x 32 o.a l) + 2 ^ 16 * lim (srcL x 32 b l)
      | none => ∀ j, f l / 2 ^ (w * j) % 2 ^ w = if j = o.pos.toNat then lim (srcL x 32 o.a l) else srcL x 32 o.d l / 2 ^ (w * j) % 2 ^ w) ∧
  (∀ h (o : Unpk) s x, Ready (.vunpk h o) s x → Gives (.vunpk h o) s x (resV x 32 o.d fun l =>
    let v := srcL x 32 o.a l / 2 ^ (packWidth o.ty * o.pos.toNat) % 2 ^ packWidth o.ty
    if packSigned o.ty then wrap 32 (signed (packWidth o.ty) v) else v))

/-- VSHFL, VSHFLX and VROT give each active lane l the lane of A that b, l xor b or l + b names modulo 128, active or not. VRED gives the
root of the fixed tree over the 128 lanes, an inactive lane entering as the operation's identity, to every active lane of a vector
destination or, extended, to a scalar one, and writes nothing when em is zero; VSCAN gives the running value of R118, shifted by one lane
under excl. The lane numbers of a 64-bit type come from pairs (log 12, the model's choice). F32 nodes round by RND; a lane has the flags of
the nodes that feed what it receives (log 7, the model's choice), which are ored over the active lanes or raise FP_EXCEPTION. VEXTR gives the
named lane, VINS writes it, whatever em holds. Each completes; nothing else changes. -/
def Obligations.CrossLaneResults : Prop :=
  (∀ p ∈ ([(Instr.vshfl, fun _ b => b), (Instr.vshflx, fun l b => l ^^^ (b % 128)), (Instr.vrot, fun l b => l + b)] :
      List ((Hdr → Shfl → Instr) × (Nat → Nat → Nat))),
    ∀ h (o : Shfl) s x, Ready (p.1 h o) s x →
      Gives (p.1 h o) s x (resV x (tyWidth o.ty) o.d fun l => srcL x (tyWidth o.ty) o.a (p.2 l (srcL x (tyWidth o.ty) o.b l) % 128))) ∧
  (∀ h (o : Red) s x, Ready (.vred h o) s x →
    let r := redTree (redNode o.ty o.rnd o.op) ((List.range 128).map fun l =>
      ⟨if x.ctl.em.getLsbD l then srcL x (tyWidth o.ty) o.a l else redIdentity o.ty o.op, 0⟩)
    let w : Held := match o.d with
      | .s _ => if x.ctl.em = 0 then {} else resS x o.d (BitVec.ofInt 64 (tyVal o.ty r.bits))
      | _ => resV x (tyWidth o.ty) o.d fun _ => r.bits
    let en := r.fl &&& bits x.ctl.fpst.toNat 9 5
    (x.ctl.em = 0 → Gives (.vred h o) s x w) ∧
    (x.ctl.em ≠ 0 → en = 0 → Gives (.vred h o) s x { w with fp := BitVec.ofNat 32 r.fl }) ∧
    (x.ctl.em ≠ 0 → en ≠ 0 → Traps (.vred h o) s x ⟨0x11, lanesMask (activeLanes x.ctl.em), BitVec.ofNat 64 en⟩)) ∧
  (∀ h (o : Scan) s x, Ready (.vscan h o) s x →
    let l := scanAll (redNode o.ty o.rnd o.op) ((List.range 128).map fun l =>
      ⟨if x.ctl.em.getLsbD l then srcL x (tyWidth o.ty) o.a l else redIdentity o.ty o.op, 0⟩)
    let out (j : Nat) : FRes := if o.excl then (if j = 0 then ⟨redIdentity o.ty o.op, 0⟩ else l.getD (j - 1) ⟨0, 0⟩) else l.getD j ⟨0, 0⟩
    let en := bits x.ctl.fpst.toNat 9 5
    let bad := (activeLanes x.ctl.em).filter fun j => (out j).fl &&& en != 0
    (bad = [] → Gives (.vscan h o) s x { resV x (tyWidth o.ty) o.d (fun j => (out j).bits) with
      fp := BitVec.ofNat 32 ((activeLanes x.ctl.em).foldl (fun t j => t ||| (out j).fl) 0) }) ∧
    (bad ≠ [] → Traps (.vscan h o) s x ⟨0x11, lanesMask bad, BitVec.ofNat 64 (bad.foldl (fun t j => t ||| ((out j).fl &&& en)) 0)⟩)) ∧
  (∀ h (o : Bin) s x, Ready (.vextr h o) s x →
    Gives (.vextr h o) s x (resS x o.d (extendTy o.ty (srcLT x o.ty o.a ((srcS s x o.b).toNat % 128))))) ∧
  (∀ h (o : Bin) s x, Ready (.vins h o) s x →
    Gives (.vins h o) s x (lanesHeld x.bank (lanesMask [(srcS s x o.b).toNat % 128]) o.d
      (laneRegs (tyWidth o.ty) fun _ => (srcS s x o.a).toNat)))

/-- XHASH32, XHASH64, XPART, XSTRCMP, XSTRFND, XSTRLEN, XQNT, XCBDEC, XBDIPK and XRNG, and XDQNT and XBDIUP whose words and codes are
sound, read their sources at issue and put one request with their result in flight, or wait when the scheduler has 16; nothing else
changes. XDQNT with a faulty word in a block with an active lane raises SELECTOR_FAULT and XBDIUP with a reserved code in a processed
block DATA_ERROR. TRANSFORM_RESULT ends the request and leaves its result held under the crew's tag (a DRAINING crew discards it, R78).
One active lane's hash, its part number and its comparison are those of the plain functions on the lane's operands. XSTRFND gives the least
(.LAST the greatest) position below min(c, 16) that matches, or 16; XSTRLEN the first zero byte, or 16, and .UTF8 the bytes outside 0x80 to
0xBF. XQNT quantises each block, inactive lanes entering as +0, and gives its codes and, in its first lane, its word: a block with a NaN has
codes 0, the NaN scale and NV; another takes the first member whose error sum is not greater than any other, and QSAT where that member
saturates. The value a code of an integer, natural or level member stands for is nearest to the element, a tie going to the even one.
XDQNT gives each lane the one rounding of its integer × unit × scale, +0 for a zero, and the NaNs, infinities and flags of R128's table
(an FP16 code that is not finite has a free value, log 2). XBDIPK puts the compressed bytes of each whole block of em in vD, and its code
and size in vD + 1; XBDIUP expands a block by its code. -/
def Obligations.TransformRequestsAndResults : Prop :=
  (∀ h (o : Hash32) s x, Ready (.xhash32 h o) s x → AsksTransform (.xhash32 h o) s x (resV x 32 o.d fun l =>
    match o.var with
    | .k32 => hash32 (srcL x 32 o.b l) (srcL x 32 o.a l)
    | .k64 => hash64 (srcL x 32 o.b l) (srcL x 64 o.a l)
    | .abs c => hashChunk (chunkByte (issOf (.xhash32 h o) s x) o.a l) (min (srcL x 32 o.b l) 16) (srcL x 32 c l)
    | .fin => hashFin (srcL x 32 o.a l) (srcL x 32 o.b l))) ∧
  (∀ h (o : Hash64) s x, Ready (.xhash64 h o) s x → AsksTransform (.xhash64 h o) s x (resV x 64 o.d fun l =>
    let f (seed : Nat) : Nat := if o.wide then hash64 seed (srcL x 64 o.a l) else hash32 seed (srcL x 32 o.a l)
    f (srcL x 64 o.b l % 2 ^ 32) + 2 ^ 32 * f ((srcL x 64 o.b l / 2 ^ 32) ^^^ 0x4B1DE739))) ∧
  (∀ h (o : Part) s x, Ready (.xpart h o) s x → AsksTransform (.xpart h o) s x (resV x 64 o.d fun l =>
    let p (j : Nat) : Nat := match o.var with
      | .mul b => srcL x 32 o.a j * srcL x 32 b j / 2 ^ 32
      | .radix sh n => srcL x 32 o.a j / 2 ^ sh.toNat % 2 ^ (n.toNat + 1)
      | .id => srcL x 32 o.a j
    let same := (activeLanes x.ctl.em).filter fun j => p j == p l
    p l + 2 ^ 32 * ((same.filter (· < l)).length + same.length * 2 ^ 16))) ∧
  (∀ h (o : StrCmp) s x, Ready (.xstrcmp h o) s x → AsksTransform (.xstrcmp h o) s x (resV x 32 o.d fun l =>
    let byte (r : Reg) (j : Nat) : Nat :=
      if o.ci then foldCase (chunkByte (issOf (.xstrcmp h o) s x) r l j) else chunkByte (issOf (.xstrcmp h o) s x) r l j
    compareChunks (byte o.a) (byte o.b) (srcL x 32 o.c l))) ∧
  (∀ h (o : StrFnd) s x, Ready (.xstrfnd h o) s x → ∃ f, AsksTransform (.xstrfnd h o) s x (resV x 32 o.d f) ∧ ∀ l,
    let lo := srcL x 32 o.b l % 256
    let byte := chunkByte (issOf (.xstrfnd h o) s x) o.a l
    let hit (j : Nat) : Prop := j < min (srcL x 32 o.c l) 16 ∧
      if o.var = .rng then lo ≤ byte j ∧ byte j ≤ srcL x 32 o.b l / 256 % 256 else byte j = lo
    f l ≤ 16 ∧ (f l = 16 → ∀ j, ¬hit j) ∧ (f l < 16 → hit (f l) ∧ ∀ j, hit j → if o.var = .last then j ≤ f l else f l ≤ j)) ∧
  (∀ h (o : StrLen) s x, Ready (.xstrlen h o) s x → ∃ f, AsksTransform (.xstrlen h o) s x (resV x 32 o.d f) ∧ ∀ l,
    let byte := chunkByte (issOf (.xstrlen h o) s x) o.a l
    (o.utf8 = none → f l ≤ 16 ∧ (f l < 16 → byte (f l) = 0) ∧ ∀ j < f l, byte j ≠ 0) ∧
    ∀ b, o.utf8 = some b → f l = ((List.range (min (srcL x 32 b l) 16)).filter fun j => decide (byte j < 0x80 ∨ 0xBF < byte j)).length) ∧
  (∀ h (o : Qnt) s x, Ready (.xqnt h o) s x →
    let n := blockLen o.bl
    let block (j : Nat) : List Nat × Nat × Nat := quantBlock o.fmt.toNat o.scf.toNat ((List.range n).map fun k =>
      if x.ctl.em.getLsbD (n * j + k) then srcL x 32 o.a (n * j + k) else 0)
    AsksTransform (.xqnt h o) s x { lanesHeld x.bank x.ctl.em o.d
        [Lanes.ofFn fun l => BitVec.ofNat 32 ((block (l / n)).1.getD (l % n) 0),
          Lanes.ofFn fun l => if l % n = 0 then BitVec.ofNat 32 (block (l / n)).2.1 else 0] with
      fp := BitVec.ofNat 32 ((List.range (128 / n)).foldl (fun t j => t ||| (block j).2.2) 0) }) ∧
  (∀ fmt scf xs, scf < 3 →
    ((∃ a ∈ xs, (fmtF32.read a).isNan = true) →
      quantBlock fmt scf xs = (xs.map fun _ => 0, if scf = 0 then 0 else if scf = 1 then 0xFF else 0x47F, 16)) ∧
    ((∀ a ∈ xs, (fmtF32.read a).isNan = false) →
      let try_ (mb : Nat) : QuantTry := quantMember mb scf xs (xs.foldl (fun a b => max a (b % 2 ^ 31)) 0)
      ∃ j mb, (fmtMembers fmt)[j]? = some mb ∧ (∀ k ∈ fmtMembers fmt, sumGreater (try_ mb).sum (try_ k).sum = false) ∧
        (∀ i k, i < j → (fmtMembers fmt)[i]? = some k → ∃ k' ∈ fmtMembers fmt, sumGreater (try_ k).sum (try_ k').sum = true) ∧
        (quantBlock fmt scf xs).1 = xs.map (fun a => (quantElem mb (try_ mb).e a).1) ∧
        (quantBlock fmt scf xs).2.2 = (if xs.any fun a => (quantElem mb (try_ mb).e a).2.1 then 1024 else 0) ∧
        let w := (quantBlock fmt scf xs).2.1
        w % 1024 = j * 256 + scaleCode scf (try_ mb).e ∧ w < 2048 ∧ ((List.range 11).filter fun b => w.testBit b).length % 2 = 0)) ∧
  (∀ mb ∈ [0x01, 0x02, 0x03, 0x04, 0x05, 0x06, 0x07, 0x08, 0x09, 0x0C, 0x0E, 0x12, 0x13, 0x18, 0x19, 0x1C], ∀ neg mag k c sat,
    roundToMember mb neg mag k = (c, sat) → ∃ v, decodeElem mb c = .int v ∧ c < 2 ^ fmtWidth mb ∧
      let den : Nat := 2 ^ (-k).toNat
      let num : Int := negInt neg (mag * 2 ^ k.toNat : Nat)
      ∀ c' v', c' < 2 ^ fmtWidth mb → decodeElem mb c' = .int v' →
        (num - v * den).natAbs ≤ (num - v' * den).natAbs ∧
        ((num - v * den).natAbs = (num - v' * den).natAbs → v ≠ v' → if mb ∈ [0x01, 0x05, 0x07, 0x0C] then c % 2 = 0 else v % 2 = 0) ∧
        (sat = true → (v' * den < num ∧ v' ≤ v) ∨ (num < v' * den ∧ v ≤ v')) ∧
        (sat = false → ∃ c₁ v₁ c₂ v₂, decodeElem mb c₁ = .int v₁ ∧ v₁ * den ≤ num ∧ decodeElem mb c₂ = .int v₂ ∧ num ≤ v₂ * den)) ∧
  (∀ h (o : Qnt) s x, Ready (.xdqnt h o) s x →
    let n := blockLen o.bl
    let word (j : Nat) : Nat := Iss.lane32 (issOf (.xdqnt h o) s x) o.a 1 (n * j) % 2 ^ 16
    let lanesOf (j : Nat) : List Nat := (activeLanes x.ctl.em).filter fun l => l / n == j
    let bad := (List.range (128 / n)).filter fun j => !(lanesOf j).isEmpty && metaFaulty o.fmt.toNat o.scf.toNat (word j)
    (bad = [] → ∃ free : Nat → Nat,
      let res (l : Nat) : FRes := dequant o.fmt.toNat o.scf.toNat (word (l / n)) (srcL x 32 o.a l % 2 ^ fmtWidth o.fmt.toNat) (free l)
      AsksTransform (.xdqnt h o) s x { resV x 32 o.d (fun l => (res l).bits) with
        fp := BitVec.ofNat 32 ((activeLanes x.ctl.em).foldl (fun t l => t ||| (res l).fl) 0) }) ∧
    (∀ j t, bad = j :: t → Traps (.xdqnt h o) s x ⟨0x0A, lanesMask (bad.flatMap lanesOf), BitVec.ofNat 64 (n * j)⟩)) ∧
  (∀ fmt scf w code free, scf < 3 → let mb := fmtMember fmt (bits w 9 8); let r := dequant fmt scf w code free
    let lost : Prop := (scf = 1 ∧ w % 256 = 0xFF) ∨ (scf = 2 ∧ 0x7F ≤ w % 256)
    (lost → r.bits = 0x7FC00000 ∧ (∀ v, decodeElem mb code = .int v → r.fl = 0)) ∧
    (decodeElem mb code = .odd → r.fl = 16 ∧ (¬lost → r.bits = 0)) ∧
    (mb ≠ 0x1A → decodeElem mb code = .nan → r = ⟨0x7FC00000, 16⟩) ∧
    (∀ n, mb ≠ 0x1A → decodeElem mb code = .inf n → r.fl = 0 ∧ (¬lost → r.bits = if n then 0xFF800000 else 0x7F800000)) ∧
    ∀ v, ¬lost → decodeElem mb code = .int v →
      let scale : Nat := if scf = 2 then (decodeElem 0x14 (w % 256)).toInt.toNat else 1
      let e : Int := if scf = 0 then 0 else if scf = 1 then (w % 256 : Nat) - 127 else -9
      r = if v * scale = 0 then ⟨0, 0⟩ else fmtF32.round .rn (decide (v < 0)) (v.natAbs * scale) 1 (unitLog mb + e)) ∧
  (∀ h (o : DA) s x, Ready (.xcbdec h o) s x → AsksTransform (.xcbdec h o) s x (resV x 64 o.d fun l =>
    ofBytes ((cb2l (srcL x 32 o.a l % 2 ^ 16)).map fun w => BitVec.ofInt 8 w))) ∧
  (∀ h (o : DA) s x, Ready (.xbdipk h o) s x → ∃ data code,
    AsksTransform (.xbdipk h o) s x (lanesHeld x.bank (blocksMask (fullBlocks x.ctl.em)) o.d [data, code]) ∧
    ∀ b ∈ fullBlocks x.ctl.em, ∀ l < 32,
      let v := laneBlock (issOf (.xbdipk h o) s x) o.a b
      data.get (32 * b + l) = BitVec.ofNat 32 (bdiPack v (bdiBest v) / 2 ^ (32 * l)) ∧
      code.get (32 * b + l) = if l = 0 then BitVec.ofNat 32 (bdiBest v + 256 * bdiSize (bdiBest v)) else 0) ∧
  (∀ em b, b ∈ fullBlocks em ↔ b < 4 ∧ ∀ l < 32, em.getLsbD (32 * b + l) = true) ∧
  (∀ em l, l < 128 → (blocksMask (fullBlocks em)).getLsbD l = decide (l / 32 ∈ fullBlocks em)) ∧
  (∀ h (o : DA) s x, Ready (.xbdiup h o) s x →
    let code (b : Nat) : Nat := Iss.lane32 (issOf (.xbdiup h o) s x) o.a 1 (32 * b) % 16
    let bad := (fullBlocks x.ctl.em).filter fun b => decide (code b > 10)
    (bad = [] → ∃ data, AsksTransform (.xbdiup h o) s x (lanesHeld x.bank (blocksMask (fullBlocks x.ctl.em)) o.d [data]) ∧
      ∀ b ∈ fullBlocks x.ctl.em, ∀ l < 32, data.get (32 * b + l) =
        BitVec.ofNat 32 (bdiExpand (code b) (laneBlock (issOf (.xbdiup h o) s x) o.a b) / 2 ^ (32 * l))) ∧
    (∀ b t, bad = b :: t → Traps (.xbdiup h o) s x ⟨0x0F, blocksMask bad, BitVec.ofNat 64 b⟩)) ∧
  (∀ h (o : Rng) s x, Ready (.xrng h o) s x → AsksTransform (.xrng h o) s x (resV x 32 o.d fun l =>
    let v := coordGen (srcS s x o.b).toNat (srcL x 32 o.a l) (srcL x 32 o.c l)
    if o.uf then (fmtF32.round .rn false (v / 256) 1 (-24)).bits else v)) ∧
  (∀ s o c k b em w, s.op? o = some ⟨c, k, b, em, .transform w⟩ → exec (.transformResult o) s = .next (finishOp s o w))

/-- For every block x of 1,024 bits: the code chosen is one whose condition holds and no code whose condition holds has a smaller size;
the compressed bytes fit in that size; and expanding them by that code gives x back, whatever bytes follow them. -/
def Obligations.CompressedBlocksExpand : Prop :=
  ∀ x, x < 2 ^ 1024 → bdiOk x (bdiBest x) = true ∧ (∀ c ≤ 10, bdiOk x c = true → bdiSize (bdiBest x) ≤ bdiSize c) ∧
    bdiPack x (bdiBest x) < 2 ^ (8 * bdiSize (bdiBest x)) ∧
    ∀ y, bdiExpand (bdiBest x) (bdiPack x (bdiBest x) + 2 ^ (8 * bdiSize (bdiBest x)) * y) % 2 ^ 1024 = x

/-- When operation o of a crew that is not DRAINING completes with result w, it is in flight no longer, the crew's tag that names it holds
w as complete, and no register, no other crew and, while the crew has its slot and the tag is not deferred, no memory byte changes; a DRAINING
crew's result is discarded. The vector result of a SUSPENDED crew, or of a deferred tag, is then also in the first line of the tag's hold slot in
the crew's image, where its page can be written (where in the slot, the spec does not say: log 34). -/
def Obligations.OperationsFinishUnderTheirTag : Prop :=
  ∀ s o p w x, s.op? o = some p → s.crew? p.crew = some x →
    ∃ y, (finishOp s o w).crew? p.crew = some y ∧ (finishOp s o w).op? o = none ∧ y.rf = x.rf ∧ y.ctl = x.ctl ∧
      (InSlot s p.crew p.tag ∨ w.regs = [] → (finishOp s o w).mem = s.mem) ∧ (∀ d, d ≠ p.crew → (finishOp s o w).crew? d = s.crew? d) ∧
      ∀ r, x.state ≠ .draining → x.tags.find? p.tag = some r → r.op = some o →
        y.tags.find? p.tag = some { r with op := none, held := w } ∧
        ∀ d b em v pa m, x.state = .suspended ∨ r.deferred = true → 1 ≤ p.tag → p.tag ≤ 7 → w.regs = [.v d b em v] →
          320 ≤ x.seat.nv + 52 → translateNow s x.seat.tag (imageLineVa s x.seat (x.seat.nv + 52 + 8 * (p.tag - 1))) .write = some (pa, m) →
          (∀ j < 512, lockedPa s (pa + j) = false) → ∀ j < 512, (finishOp s o w).mem.read (pa + j) = (lanesBytes v).getD j 0

/-- Over all the lanes of a global access: a misaligned address raises MISALIGNED; else an address that is not canonical raises
PROTECTION; else a page that is not in the translation buffer makes the crew wait for walks; else an entry without the right raises
PROTECTION; else a byte in a live range lock (any range for a write, a destination range for a read) raises LOCKED; else the access
reaches, for each byte, the physical address the entry gives (while its page migrates and is not yet unlocked, the address in the old frame).
Each trap names exactly the lanes that fail and their lowest address. -/
def Obligations.AccessChecksInOrder : Prop :=
  (∀ s x n write eas, 0 < n → eas ≠ [] →
    let g := x.seat.core
    let r := request 0 n write eas
    let raises (cause : Nat) (bad : Nat → Bool) : Prop := ∃ p ∈ eas, bad p.2 = true ∧ (∀ q ∈ eas, bad q.2 = true → p.2 ≤ q.2) ∧
      checkAccess s x r = .error (.trap ⟨cause, lanesMask ((eas.filter fun e => bad e.2).map (·.1)), BitVec.ofNat 64 p.2⟩)
    let misaligned (a : Nat) : Bool := decide (a % n ≠ 0)
    let entry (a : Nat) : Option TlbEntry := tlbFind (s.core g) x.seat.tag a write
    let noRight (a : Nat) : Bool := (entry a).any fun t => !(if write then pteW t.entry.toNat else pteRD t.entry.toNat)
    let locked (a : Nat) : Bool := (List.range n).any fun j => (s.core g).locks.any fun k =>
      k.2.live && (write || k.2.dst) && !k.2.win && k.2.tag == x.seat.tag && decide (k.2.lo ≤ a + j) && decide (a + j ≤ k.2.hi)
    let none (bad : Nat → Bool) : Prop := ∀ e ∈ eas, bad e.2 = false
    (¬none misaligned → raises 0x02 misaligned) ∧
    (none misaligned → ¬none (fun a => !canonical a) → raises 0x04 fun a => !canonical a) ∧
    (none misaligned → none (fun a => !canonical a) → ¬none (fun a => (entry a).isNone) →
      ∃ l, checkAccess s x r = .error (.walks l write) ∧ l ≠ [] ∧ ∀ w ∈ l, ∃ e ∈ eas, w.1 = e.2 ∧ (entry e.2).isNone) ∧
    (none misaligned → none (fun a => !canonical a) → none (fun a => (entry a).isNone) →
      (¬none noRight → raises 0x04 noRight) ∧
      (none noRight → ¬none locked → raises 0x05 locked) ∧
      (none noRight → none locked → ∃ accs, checkAccess s x r = .ok accs ∧ accs.map (fun a => (a.lane, a.ea)) = eas ∧
        ∀ a ∈ accs, ∀ t, entry a.ea = some t → a.at_ = (List.range n).map fun j =>
          .glob (oldFrame s (pteAddr t.entry.toNat + (a.ea % 2 ^ 57 - t.va)) + j) (a.ea + j) (entryMap t.entry.toNat)))) ∧
  (∀ s pa, (∀ e ∈ s.migs, e.2.stage = 2 → ¬(e.2.new ≤ pa ∧ pa < e.2.new + e.2.size)) → oldFrame s pa = pa) ∧
  (∀ s pa, ¬(∀ e ∈ s.migs, e.2.stage = 2 → ¬(e.2.new ≤ pa ∧ pa < e.2.new + e.2.size)) →
    ∃ e ∈ s.migs, e.2.stage = 2 ∧ e.2.new ≤ pa ∧ pa < e.2.new + e.2.size ∧ oldFrame s pa = e.2.old + (pa - e.2.new))

/-- An aligned access of a crew whose group is known, with no live range lock on its core or on the core reached. A window address of the
core's own 256 MiB reaches array a = offset / 256 KiB, byte offset mod 256 KiB, when the offset is below 6 MiB and the group holds array
a, and raises PROTECTION otherwise; an address from 0x14000000 on raises PROTECTION; a peer's window through a group of the convoy that is
gone raises PEER_ABSENT. A scratch access reaches its bytes when it ends within the 16 KiB per way that the group holds, and raises
PROTECTION otherwise. -/
def Obligations.WindowAndScratchPlaces : Prop :=
  ∀ s x gr n write lane a, 0 < n → n ≤ 16 → a % n = 0 → 256 * 1024 % n = 0 → s.group? x.seat.group = some gr → (∀ g, (s.core g).locks = []) →
    let g := x.seat.core
    let holds (k : Nat) : Prop := gr.arr0 ≤ k ∧ k < gr.arr0 + gr.nsto + gr.ncomp
    let chk (sp : Nat) : Except Effect (List LaneAcc) := checkAccess s x (request sp n write [(lane, a)])
    let size := if (s.core g).scratch.owner = some x.seat.group then 16384 * (s.core g).scratch.ways else 0
    let denied (sp : Nat) : Prop := chk sp = .error (.trap ⟨0x04, lanesMask [lane], BitVec.ofNat 64 a⟩)
    (a < 0x10000000 → a < 0x600000 → holds (a / 0x40000) →
      chk 1 = .ok [⟨lane, a, (List.range n).map fun j => .win g (a / 0x40000) (a % 0x40000 + j)⟩]) ∧
    (a < 0x10000000 → ¬(a < 0x600000 ∧ holds (a / 0x40000)) → denied 1) ∧
    (0x14000000 ≤ a → denied 1) ∧
    (∀ v hi h, 0x10000000 ≤ a → a < 0x14000000 → a % 0x1000000 < 0x600000 → s.convoy? gr.convoy = some v →
      let k := (a - 0x10000000) / 0x1000000
      k ≠ g % 4 → v.groups[k ^^^ v.x]? = some hi → s.group? hi = some h →
      (v.freed.contains (k ^^^ v.x) = true ∨ h.state = .closing →
        chk 1 = .error (.trap ⟨0x06, lanesMask [lane], BitVec.ofNat 64 a⟩)) ∧
      (v.freed.contains (k ^^^ v.x) = false → h.state ≠ .closing →
        (h.arr0 ≤ a % 0x1000000 / 0x40000 ∧ a % 0x1000000 / 0x40000 < h.arr0 + h.nsto + h.ncomp →
          chk 1 = .ok [⟨lane, a, (List.range n).map fun j =>
            .win (4 * (g / 4) + k) (a % 0x1000000 / 0x40000) (a % 0x1000000 % 0x40000 + j)⟩]))) ∧
    ((a + n ≤ size → chk 2 = .ok [⟨lane, a, (List.range n).map fun j => .scr g (a + j)⟩]) ∧ (size < a + n → denied 2))

/-- A load whose addresses (a scalar base and a scaled lane offset, a pointer per lane and a scalar offset, or one scalar sum, modulo 2^64
for global and 2^32 otherwise) pass every check: with an atomic or TSTP of the crew's own queue on its bytes it waits; with a byte that
would arrive poisoned or refused (and is not in the queue) it raises DATA_ERROR; else it completes its issue: one load is in flight under
its tag, holding for each byte the youngest value of the crew's queue, and every aligned 8 bytes of a lane that the core's queue, L1, banks and
scratch hold whole (an acquire at CLUSTER scope or wider only the queue's; none that an earlier load of the crew has still to take), with each
missing cached line asked for. No register, flag or byte of memory changes. With no active lane it is done at once, or is a fence of its order.
Arrays without injected faults. The model's choices: what is taken at issue, and in units of 8 bytes (log 13); that poison found at issue traps,
and which later loads their crew awaits (log 14); what a host answers (log 2). -/
def Obligations.LoadsBegin : Prop :=
  (∀ h (o : MemVec) s x, Ready (.lds h o) s x → let sp := if o.scr then 2 else 1
    Loads (.lds h o) s x sp o.ty false o.r o.mm (laneEas s x 32 o.a o.b o.sh.toNat) ∧ (x.ctl.em = 0 → NoLanes (.lds h o) s x o.mm)) ∧
  (∀ h (o : MemVec) s x, Ready (.ldg h o) s x →
    Loads (.ldg h o) s x 0 o.ty false o.r o.mm (laneEas s x 64 o.a o.b o.sh.toNat) ∧ (x.ctl.em = 0 → NoLanes (.ldg h o) s x o.mm)) ∧
  (∀ h (o : MemPtr) s x, Ready (.ldx h o) s x → Loads (.ldx h o) s x o.space.toNat o.ty false o.r o.mm
    (pointerEas s x (spaceBits o.space.toNat) o.a o.b) ∧ (x.ctl.em = 0 → NoLanes (.ldx h o) s x o.mm)) ∧
  (∀ h (o : MemPtr) s x, Ready (.ldsc h o) s x →
    Loads (.ldsc h o) s x o.space.toNat o.ty true o.r o.mm (scalarEas s x (spaceBits o.space.toNat) o.a o.b))

/-- A store whose addresses pass every check, and that is no SYSTEM release behind other stores: with 32 entries in the queue it waits;
else it completes its issue: its bytes, little-endian from each lane's address, are the last entry of the crew's queue, and nothing is
written yet. No register, flag or byte of memory changes. Where it names a bound entry that no update is changing: with every value inside
the range the same; with a value outside, it raises BOUND for those lanes (action 2), or stores the clamped value (action 1) or the value
itself (action 0) and sets the entry's hit flag. With no active lane it is done at once, or is a fence of its order. -/
def Obligations.StoresQueue : Prop :=
  (∀ h (o : MemVec) s x, Ready (.sts h o) s x → let i := Instr.sts h o
    Stores i s x (if o.scr then 2 else 1) o.ty o.mm (laneEas s x 32 o.a o.b o.sh.toNat) (laneData (issOf i s x) o.ty.bytes o.r) ∧
    (x.ctl.em = 0 → NoLanes i s x o.mm)) ∧
  (∀ h (o : MemVec) s x, Ready (.stg h o) s x → let i := Instr.stg h o
    Stores i s x 0 o.ty o.mm (laneEas s x 64 o.a o.b o.sh.toNat) (laneData (issOf i s x) o.ty.bytes o.r) ∧
    (x.ctl.em = 0 → NoLanes i s x o.mm)) ∧
  (∀ h (o : MemPtr) s x, Ready (.stx h o) s x → let i := Instr.stx h o
    Stores i s x o.space.toNat o.ty o.mm (pointerEas s x (spaceBits o.space.toNat) o.a o.b) (laneData (issOf i s x) o.ty.bytes o.r) ∧
    (x.ctl.em = 0 → NoLanes i s x o.mm)) ∧
  (∀ h (o : MemPtr) s x, Ready (.stsc h o) s x → let i := Instr.stsc h o
    Stores i s x o.space.toNat o.ty o.mm (scalarEas s x (spaceBits o.space.toNat) o.a o.b)
      (fun _ => scalarData (issOf i s x) s o.ty.bytes o.r))

/-- ATOM, ATOM.CAS, ATOM.FADD, ATOM.FXADD, ATOM.FMAXR and SATOM whose addresses pass every check, an operation that the root complex
cannot complete among them, and that are no SYSTEM release behind other stores: with 32 entries in the queue the crew waits; else the
instruction completes its issue: the operation with its width, its lanes and their operands is the last entry of the queue, nothing is
performed yet, the locations' lines have left the core's L1, and a crew whose atomic goes to a host or peer waits for it. When the L1 held
none of those lines no byte of memory changes; no register changes. With no active lane it is done at once, or is a fence of its order. -/
def Obligations.AtomicsQueue : Prop :=
  let wb (win : Bool) : Nat := if win then 32 else 64
  (∀ h (o : Atom) s x, Ready (.atom h o) s x → let i := Instr.atom h o; let w := tyWidth o.ty
    Atomics i s x o.win (.int o.op (tySigned o.ty)) w o.d (.lanes w) o.mm (laneEas s x (wb o.win) o.a o.b o.sh.toNat)
      (laneData (issOf i s x) (w / 8) o.c) ∧ (x.ctl.em = 0 → NoLanes i s x o.mm)) ∧
  (∀ h (o : AtomCas) s x, Ready (.atomCas h o) s x → let i := Instr.atomCas h o; let n := o.ty.bytes
    Atomics i s x o.win .cas (8 * n) o.d (.lanes (8 * n)) o.mm (laneEas s x (wb o.win) o.a o.b o.sh.toNat)
      (laneData (issOf i s x) (2 * n) o.c) ∧ (x.ctl.em = 0 → NoLanes i s x o.mm)) ∧
  (∀ h (o : AtomF) s x, Ready (.atomFadd h o) s x → let i := Instr.atomFadd h o
    Atomics i s x o.win .fadd 32 o.d (.lanes 32) o.mm (laneEas s x (wb o.win) o.a o.b o.sh.toNat)
      (laneData (issOf i s x) 4 o.c) ∧ (x.ctl.em = 0 → NoLanes i s x o.mm)) ∧
  (∀ h (o : AtomFx) s x, Ready (.atomFxadd h o) s x → let i := Instr.atomFxadd h o
    Atomics i s x o.win (.fxadd o.p.toNat) 64 o.d (.lanes 64) o.mm (laneEas s x (wb o.win) o.a o.b (if o.by8 then 3 else 0))
      (laneData (issOf i s x) 4 o.c) ∧ (x.ctl.em = 0 → NoLanes i s x o.mm)) ∧
  (∀ h (o : AtomMax) s x, Ready (.atomFmaxr h o) s x → let i := Instr.atomFmaxr h o
    (∀ c, o.upd = some c → Atomics i s x o.win .fmax 32 o.d (.lanes 32) o.mm (laneEas s x (wb o.win) o.a o.b o.sh.toNat)
      (laneData (issOf i s x) 4 c)) ∧
    (o.upd = none → Atomics i s x o.win .frst 32 o.d (.lanes 32) o.mm (laneEas s x (wb o.win) o.a o.b o.sh.toNat) fun _ => 0) ∧
    (x.ctl.em = 0 → NoLanes i s x o.mm)) ∧
  (∀ h (o : Satom) s x, Ready (.satom h o) s x → let i := Instr.satom h o; let w := (satomTy o.ty).1
    Atomics i s x o.win (.int o.op (satomTy o.ty).2) w o.d (.scalar w (satomTy o.ty).2) o.mm (scalarEas s x (wb o.win) o.a o.b)
      fun _ => satomData (issOf i s x) s w (o.ty.regs * if o.op = .cas then 2 else 1) o.c)

/-- For a location of w bits with old value m and operand c, both below 2^w: add gives the sum modulo 2^w; min and max choose by the
signed or unsigned order of the type; and, or and xor act on the bits; exch gives c. A compare-and-swap with compare value c and new value
n gives n when m = c, else m. ATOM.FADD gives the FP32 sum rounded to nearest-even; .rst gives 0; the maximum of magnitudes gives the
canonical NaN when either is a NaN, else the greater magnitude with sign 0. ATOM.FXADD with binary point p on 64 bits, MARK being 2^63: a location
that holds MARK keeps it, and a NaN, an infinity or an operand that rounds to a magnitude above 2^63 − 1 leaves MARK; else t is the operand
times 2^p rounded to the nearest integer, ties to even, and the location takes the exact sum of its signed value and t, or MARK where that
exceeds 2^63 − 1 in magnitude. -/
def Obligations.AtomicOperationValues : Prop :=
  ∀ w m c n, 0 < w → m < 2 ^ w → c < 2 ^ w → n < 2 ^ w →
    (∀ sg, (RmwOp.int .add sg).new w m c = (m + c) % 2 ^ w ∧ (RmwOp.int .exch sg).new w m c = c) ∧
    (∀ j sg, ((RmwOp.int .and sg).new w m c).testBit j = (m.testBit j && c.testBit j) ∧
      ((RmwOp.int .or sg).new w m c).testBit j = (m.testBit j || c.testBit j) ∧
      ((RmwOp.int .xor sg).new w m c).testBit j = (m.testBit j != c.testBit j)) ∧
    ((RmwOp.int .min false).new w m c = min m c ∧ (RmwOp.int .max false).new w m c = max m c) ∧
    (signed w ((RmwOp.int .min true).new w m c) = min (signed w m) (signed w c) ∧
      signed w ((RmwOp.int .max true).new w m c) = max (signed w m) (signed w c)) ∧
    (RmwOp.cas.new w m (c + 2 ^ w * n) = if m = c then n else m) ∧
    (RmwOp.fadd.new w m c = (fadd fmtF32 .rn (fmtF32.read m) (fmtF32.read c)).bits ∧ RmwOp.frst.new w m c = 0) ∧
    (w = 32 → m % 2 ^ 31 ≤ 0x7F800000 → c % 2 ^ 31 ≤ 0x7F800000 → RmwOp.fmax.new w m c = max (m % 2 ^ 31) (c % 2 ^ 31)) ∧
    (w = 32 → 0x7F800000 < m % 2 ^ 31 ∨ 0x7F800000 < c % 2 ^ 31 → RmwOp.fmax.new w m c = fmtF32.nan) ∧
    (∀ p, w = 64 → p < 64 → c < 2 ^ 32 →
      let new := (RmwOp.fxadd p).new w m c
      let ex := c / 2 ^ 23 % 256
      let frac := c % 2 ^ 23 + if ex = 0 then 0 else 2 ^ 23
      let sh : Int := (max ex 1 : Nat) - 150 + p
      let nearest (t : Nat) : Prop := if 0 ≤ sh then t = frac * 2 ^ sh.toNat else
        let q := 2 ^ (-sh).toNat
        2 * t * q ≤ 2 * frac + q ∧ 2 * frac ≤ 2 * t * q + q ∧ (2 * t * q = 2 * frac + q ∨ 2 * frac = 2 * t * q + q → t % 2 = 0)
      (m = 2 ^ 63 ∨ ex = 255 → new = 2 ^ 63) ∧
      ∀ t, m ≠ 2 ^ 63 → ex ≠ 255 → nearest t →
        let sum : Int := signed 64 m + if 2 ^ 31 ≤ c then -(t : Int) else t
        (2 ^ 63 - 1 < t → new = 2 ^ 63) ∧ (t ≤ 2 ^ 63 - 1 → sum.natAbs ≤ 2 ^ 63 - 1 → signed 64 new = sum ∧ new < 2 ^ 64) ∧
          (t ≤ 2 ^ 63 - 1 → 2 ^ 63 - 1 < sum.natAbs → new = 2 ^ 63))

/-- PREF with an active lane completes its issue as a load without destination; when every canonical address is in the translation buffer
it asks for the absent lines of readable, cached, unlocked addresses: without .l2 exactly these come to the L1, with .l2 their homes note the
request (R342) and none comes. LINE_FILL of a line on a path that is up, for a load that waits for it, with no packet spoilt: the line is in the L1
as the core sees it at its home (unless each waiting load has CH 2 and the line is absent), every waiting load takes its bytes, and the core sees
every byte as before; a packet with a reserved code is requested once more, and a second one leaves the line poisoned for the loads.
LOAD_DATA_ARRIVE of a load with no line missing and an acquire answered takes one part's bytes as they stand at their homes; with the last, each
lane's value is, little-endian, the bytes taken, a value under 32 bits extended to 32 by its type, a scalar to 64, and it is held under the tag.
A poisoned lane of a load whose crew awaits it raises DATA_ERROR at the load. No register or byte of memory changes. The model's choices: that a
part is one step, whichever can come (logs 2, 59), what was taken before (log 13), and which loads are awaited (log 14). -/
def Obligations.FillsAndLoadsReturn : Prop :=
  (∀ h (o : Pref) s x, Ready (.pref h o) s x → let g := x.seat.core; let eas := laneEas s x 64 o.a o.b o.sh.toNat
    (x.ctl.em = 0 → NoLanes (.pref h o) s x o.mm) ∧
    (x.ctl.em ≠ 0 → ∃ t y l, exec (.pref h o) s = .next t ∧ t.crew? s.cur = some y ∧ y.rf = x.rf ∧ y.ctl = nextPc x ∧ y.sq = x.sq ∧
      t.op? s.nextId = some ⟨s.cur, h.tag.toNat, x.bank, x.ctl.em, .load l⟩ ∧ l.dst = none ∧
      (∀ n ∈ l.lines, n ∈ (t.core g).fills) ∧
      ((∀ e ∈ eas, canonical e.2 = true → (tlbFind (s.core g) x.seat.tag e.2 false).isSome) → t.mem = s.mem ∧ OthersKept s t ∧
        { t.core g with fills := (s.core g).fills, rc := (s.core g).rc, scheds := (s.core g).scheds } = s.core g ∧
        let absent (n : Nat) : Prop := (∀ k, (s.core g).l1.find? n = some k → k.filled = false) ∧ ∃ e ∈ eas, ∃ pa m,
          translate s g x.seat.tag e.2 .read = .ok pa m ∧ m.cached = true ∧ lockedByte s g x.seat.tag false (.glob pa e.2 m) = false ∧
          n = lineOf pa
        (o.l2 = false → ∀ n, n ∈ l.lines ↔ absent n) ∧
        (o.l2 = true → l.lines = [] ∧ ∀ n, absent n → region (128 * n) = 0 → n / 512 ∈ (t.tracker (homeDie (65536 * (n / 512)))).touched)))) ∧
  (∀ s g n, n ∈ (s.core g).fills → pathHeld s g (128 * n) = false →
    let waits (o : Nat) (l : LoadOp) (x : Crew) : Prop := ∃ c tag b em, s.op? o = some ⟨c, tag, b, em, .load l⟩ ∧ s.crew? c = some x ∧
      x.seat.core = g ∧ n ∈ l.lines
    let spoilt : Prop := crossesMesh g (128 * n) = true ∧
      11 ≤ receivedCode (ofBytes (s.mem.readN (128 * n) 128)) (Config.freeNat s.free)
    (spoilt → n ∉ (s.core g).refetch → ∃ t, exec (.lineFill g n) s = .next t ∧ (t.core g).refetch = n :: (s.core g).refetch ∧
      { t.core g with refetch := (s.core g).refetch } = s.core g ∧ { t with cores := s.cores, free := s.free } = s ∧ ∀ k, k ≠ g → t.core k = s.core k) ∧
    ∀ o l x, waits o l x → pathDown s g (128 * n) = false → L1Up s g → DirsRoom s g 1 → (spoilt → n ∈ (s.core g).refetch) →
      ∃ t, exec (.lineFill g n) s = .next t ∧ n ∉ (t.core g).fills ∧ n ∉ (t.core g).refetch ∧ t.crews = s.crews ∧
        (∀ a, homeByte t g a = homeByte s g a) ∧ (∀ k, k ≠ g → t.core k = s.core k) ∧
        ((s.core g).l1.find? n = none → (∀ o' l' x', waits o' l' x' → l'.ch = 2) → (t.core g).l1 = (s.core g).l1) ∧
        (l.ch ≠ 2 ∨ ((s.core g).l1.find? n).isSome → ∀ i < 128, l1Byte? t g (128 * n + i) = some (homeByte s g (128 * n + i))) ∧
        ∃ l' c tag b em, t.op? o = some ⟨c, tag, b, em, .load l'⟩ ∧ l'.lines = l.lines.filter (· ≠ n) ∧
          ∀ k ∈ slotsOf l.accs, ∀ pa va m, k.2.2 = .glob pa va m → m.cached = true → lineOf pa = n → l.has k.1 k.2.1 = false →
            (k.1, k.2.1, homeByte s g pa) ∈ l'.got ∧ (spoilt → (s.core g).l1.find? n = none → k.1 ∈ l'.bad)) ∧
  (∀ s o c tag b em l x, s.op? o = some ⟨c, tag, b, em, .load l⟩ → s.crew? c = some x → l.lines = [] →
    (l.acq.any (· ≥ 2) = true → l.done = true) → l.busy = [] → l.zero = [] →
    (∀ p ∈ l.accs.flatMap (·.at_), placeBad s x.seat.core p = false) →
    (∀ h a n, .win h a n ∈ l.accs.flatMap (·.at_) → (s.arr h a).flips = [] ∧ (s.arr h a).state.busy = false) →
    let come (ks : List (Nat × Nat × Place)) : Bool := bytesCome s c o x.seat.core ks
    (∀ n n' ns, l.parts = n :: n' :: ns → l.parts.Nodup → (∃ k ∈ l.parts, come (l.ofPart k) = true) →
      ∃ t l' k, exec (.loadDataArrive o) s = .next t ∧ k ∈ l.parts ∧ come (l.ofPart k) = true ∧ t.op? o = some ⟨c, tag, b, em, .load l'⟩ ∧
        l' = { l with parts := l.parts.filter (· ≠ k)
                      bad := l.bad.eraseDups
                      got := l.got ++ (l.ofPart k).map fun e => (e.1, e.2.1, placeByte s x.seat.core e.2.2) } ∧
        t.mem = s.mem ∧ ∀ d, (t.crew? d).map (·.rf) = (s.crew? d).map (·.rf)) ∧
    (∀ r, x.state ≠ .draining → x.tags.find? tag = some r → r.op = some o → l.bad = [] → (l.accs.map (·.lane)).Nodup →
      l.parts = [] ∨ (∃ n, l.parts = [n] ∧ ∀ k ∈ l.open, k.2.2.part = some n) → come l.open = true →
      let val (a : LaneAcc) : Nat := ofBytes (a.at_.mapIdx fun j p => if l.has a.lane j then l.get a.lane j else placeByte s x.seat.core p)
      ∃ t y, exec (.loadDataArrive o) s = .next t ∧ t.crew? c = some y ∧ t.op? o = none ∧ y.rf = x.rf ∧ y.ctl = x.ctl ∧
        (InSlot s c tag → t.mem = s.mem) ∧ (∀ d, d ≠ c → t.crew? d = s.crew? d) ∧ y.tags.find? tag = some { r with
          op := none
          held := match l.dst with
            | none => {}
            | some d =>
              if l.scalar then heldScalars b d (loadScalars l.ty (((l.accs.head?).map val).getD 0))
              else lanesHeld b (lanesMask (l.accs.map (·.lane))) d
                (loadRegs l.ty fun i => ((l.accs.find? fun a => a.lane == i).map val).getD 0) }) ∧
    (x.state ≠ .draining → l.parts = [] → l.open = [] → l.watch = true → (∃ a ∈ l.accs, l.bad.contains a.lane = true) →
      ∃ t y, exec (.loadDataArrive o) s = .next t ∧ t.crew? c = some y ∧ y.rf = x.rf ∧ ∃ a ∈ l.accs, l.bad.contains a.lane = true ∧
        (∀ a' ∈ l.accs, l.bad.contains a'.lane = true → a.ea ≤ a'.ea) ∧
        y.req.trap = some (⟨0x0F, lanesMask l.bad.eraseDups, BitVec.ofNat 64 a.ea⟩, l.pc))) ∧
  (∀ ty f i, i < 128 → f i < 2 ^ (8 * ty.bytes) →
    (ty.bytes < 4 → ∃ v, loadRegs ty f = [v] ∧ v.get i = if memSigned ty then BitVec.ofInt 32 (signed (8 * ty.bytes) (f i)) else BitVec.ofNat 32 (f i)) ∧
    (4 ≤ ty.bytes → (loadRegs ty f).length = ty.bytes / 4 ∧ ∀ j v, (loadRegs ty f)[j]? = some v → v.get i = BitVec.ofNat 32 (f i / 2 ^ (32 * j))))

/-- A plain store, or a release that is not eager whose earlier loads are done, at the head of its queue, in one part of one pass, with no byte
held by a migration or a training link, or refused: it leaves the queue and its operation completes without a result. For every byte the last of
its lanes that writes it decides: a byte of an array that serves storage accesses, of the scratch, and of memory as its core sees it then holds
that value, and every other byte is as it was; a release beyond GROUP scope writes home memory itself, and its core enters the release set of
its variable. No register, no other crew changes; without an array that answers under R157 neither does the crew's control. A store that makes
several passes at a core first begins them; one with parts at several cores lands one part a step, which part the model leaves free (logs 2, 59),
and stays at the head until the last. -/
def Obligations.StoresLeaveTheQueue : Prop :=
  ∀ s c x bytes ord scope ch op rest, s.crew? c = some x → x.sq = ⟨.store bytes ord scope ch, op⟩ :: rest →
    let g := x.seat.core
    let ps := bytes.map fun e => e.2.1
    let home := decide (2 ≤ ord) && decide (2 ≤ scope)
    let new (p : Place) : Option Byte := (bytes.reverse.find? fun e => e.2.1.same p).map fun e => e.2.2
    (∀ p ∈ ps, writeWaits s g home ch p = false) → (2 ≤ ord → earlierLoads s c op = false ∧ eagerRelease g scope ps = false) →
    (x.pass = none → OnePart ps → (∀ p, s.op? op = some p → p.crew = c) →
      (∀ e ∈ bytes, writeRefused s g (Config.freeNat s.free) home ch e = false) → L1Up s g → DirsRoom s g bytes.length →
      (∀ pa va m, .glob pa va m ∈ ps → m.cached = true → pathDown s g (128 * lineOf pa) = false) →
      ∃ t y, exec (.storeQueueLeave c) s = .next t ∧ t.crew? c = some y ∧ y.sq = rest ∧ t.op? op = none ∧ y.rf = x.rf ∧ y.tr = x.tr ∧
        y.pass = none ∧ { y.ctl with mbusy := x.ctl.mbusy } = x.ctl ∧ (∀ d, d ≠ c → t.crew? d = s.crew? d) ∧
        ((∀ h a o, .win h a o ∈ ps → (s.arr h a).state.busy = false) → y.ctl = x.ctl) ∧
        (∀ h a o, (s.arr h a).state.busy = false → (t.arr h a).byte o = (new (.win h a o)).getD ((s.arr h a).byte o)) ∧
        (∀ h a o, (s.arr h a).state.busy = true → (t.arr h a).byte o = (s.arr h a).byte o) ∧
        (∀ h a, placeByte t g (.scr h a) = (new (.scr h a)).getD (placeByte s g (.scr h a))) ∧
        (∀ pa va m, homeByte t g pa = (new (.glob pa va m)).getD (homeByte s g pa)) ∧
        (2 ≤ ord → 2 ≤ scope → ∀ pa va m, t.mem.read pa = (new (.glob pa va m)).getD (s.mem.read pa)) ∧
        (2 ≤ ord → 2 ≤ scope → ∀ p ∈ ps, g ∈ t.mem.relSets.getD (varKey p) []) ∧
        (∀ r, x.state ≠ .draining → (∃ p, s.op? op = some p ∧ p.crew = c ∧ x.tags.find? p.tag = some r ∧ r.op = some op) →
          ∃ k, y.tags.find? k = some { r with op := none, held := {} })) ∧
    (mustBegin x ps = true → ∃ t, exec (.storeQueueLeave c) s = .next t ∧ t.crew? c = some { x with pass := some ⟨busyArrays s ps, []⟩ } ∧
      { t with crews := s.crews } = s ∧ ∀ d, d ≠ c → t.crew? d = s.crew? d) ∧
    (mustBegin x ps = false → (∀ p ∈ ps, ∃ h a o, p = .win h a o ∧ (s.arr h a).state.busy = false) → (∀ k, x.pass = some k → k.busy = []) →
      2 ≤ (partsLeft x ps).length → ∃ t y k h, exec (.storeQueueLeave c) s = .next t ∧ h ∈ partsLeft x ps ∧ t.crew? c = some y ∧ y.sq = x.sq ∧
        y.rf = x.rf ∧ y.ctl = x.ctl ∧ y.tags = x.tags ∧ y.pass = some k ∧ k.gone = ((x.pass.map (·.gone)).getD []) ++ [h] ∧
        (∀ a o, (t.arr h a).byte o = (new (.win h a o)).getD ((s.arr h a).byte o)) ∧
        (∀ h' a, h' ≠ h → t.arr h' a = s.arr h' a) ∧ t.mem = s.mem ∧ ∀ d, d ≠ c → t.crew? d = s.crew? d)

/-- An atomic at the head of its queue on cached global locations whose lines the core's L1 does not hold and whose path is up, with none held by a
migration or a training link, as a release with earlier loads done and its drain (if eager) done, and as an acquire with empty release sets: lane
after lane, the old value is what the location holds and the new one replaces it, so that a later lane sees what an earlier one left;
every other byte of memory, every register, flag and other crew is as it was, and the queue is as it was but for the entry, now done. When
it returns, the entry leaves, the VALID and SUSPECT memory tiles it has written in are STALE, and its old values are the result of its operation;
one with a failed request instead has no result and the crew will take UNSUPPORTED_ATOMIC with those lanes at its address. -/
def Obligations.AtomicsPerformAndReturn : Prop :=
  (∀ s c x a op rest (pa : LaneAcc → Nat), s.crew? c = some x → x.sq = ⟨.atomic a, op⟩ :: rest → x.pass = none →
    a.done = false → a.old = [] → a.bad = [] → a.dropped = [] →
    let g := x.seat.core
    let ps := a.lanes.flatMap fun l => l.1.at_
    (∀ p ∈ ps, writeWaits s g true 0 p = false ∧ writeRefused s g 0 true 0 (0, p, 0) = false) →
    (2 ≤ a.ord → earlierLoads s c op = false ∧ (eagerRelease g a.scope ps = false ∨ a.drained = true)) →
    (a.ord = 1 ∨ a.ord = 3 → 2 ≤ a.scope → releasers s ps = []) → (∀ n ∈ atomLines (a.lanes.map (·.1)), (s.core g).l1.find? n = none) →
    (∀ l ∈ a.lanes, ∃ va m, m.cached = true ∧ l.1.at_ = (List.range (a.width / 8)).map fun j => .glob (pa l.1 + j) (va + j) m) →
    0 < a.width / 8 →
    let one (st : (Nat → Byte) × List (Nat × Nat)) (l : LaneAcc × Nat) : (Nat → Byte) × List (Nat × Nat) :=
      let old := ofBytes ((List.range (a.width / 8)).map fun j => st.1 (pa l.1 + j))
      (fun b => if pa l.1 ≤ b ∧ b < pa l.1 + a.width / 8 then (toBytes (a.width / 8) (a.op.new a.width old l.2)).getD (b - pa l.1) 0 else st.1 b,
        st.2 ++ [(l.1.lane, old)])
    let last := a.lanes.foldl one (s.mem.read, [])
    ∃ t y, exec (.atomicPerform c) s = .next t ∧ t.crew? c = some y ∧ y.sq = ⟨.atomic { a with done := true, old := last.2 }, op⟩ :: rest ∧
      (∀ b, t.mem.read b = last.1 b) ∧ y.rf = x.rf ∧ y.ctl = x.ctl ∧ y.tags = x.tags ∧ ∀ d, d ≠ c → t.crew? d = s.crew? d) ∧
  (∀ s c x a op rest tag b em d ret, s.crew? c = some x → x.sq = ⟨.atomic a, op⟩ :: rest → a.done = true →
    s.op? op = some ⟨c, tag, b, em, .queued (some d) ret⟩ → x.state ≠ .draining → L1Up s x.seat.core → InSlot s c tag →
    ∃ t y, exec (.atomicResultReturn c) s = .next t ∧ t.crew? c = some y ∧ y.sq = rest ∧ t.op? op = none ∧ y.rf = x.rf ∧ y.ctl = x.ctl ∧
      (∀ k, homeByte t x.seat.core k = homeByte s x.seat.core k) ∧
      (∀ n e, s.tile? x.seat.core n = some e → t.tile? x.seat.core n = some (if (e.state = .valid ∨ e.state = .suspect) ∧
        a.lanes.any (fun l => !a.dropped.contains l.1.lane && !a.bad.contains l.1.lane && l.1.at_.any (e.covers x.seat.core x.seat.tag)) = true
        then { e with state := .stale } else e)) ∧
      (∀ r, x.tags.find? tag = some r → r.op = some op → y.tags.find? tag = some { r with
        op := none
        held := if a.bad = [] then atomHeld b d ret a.old else {} }) ∧
      (a.bad = [] → y.req = x.req) ∧
      (a.bad ≠ [] → ∃ e, y.req.trap = some (⟨0x0E, lanesMask a.bad, BitVec.ofNat 64 e⟩, a.pc)))

/-- FENCE begins an operation that follows the queue and loads of its order and scope; at SYSTEM scope with a release part it first waits
for an empty queue, and raises DATA_ERROR for a discarded store. When those are done a release part ends: at CREW or CORE scope at once,
else with the core drained: memory then holds every byte as the core sees it and no line of its L1 is dirty. DRAIN_DEMAND drains a core
that a fence, an acquire or a completed barrier wait still has to drain, and takes it off that list. ACQUIRE_DRAIN_DONE with an empty list
ends an acquire fence, or returns an acquire's bytes from their home, a part a step, and with the last invalidates the stale lines. CWAYS above
12 ways, or while another group holds them, raises PROTECTION; lowered, the scratch shrinks at issue, and its tag completes when no access to the
released ways is left; raised, the ways come when no fill is under way, the new bytes zero. A registered range lock becomes active when no queue
of the core holds a store to it. The lines of a drain are on paths that are up. The model's choices: a SYSTEM release that waits with nothing issued
and reports one discarded store, the lowest (log 19); the cores an acquire fence drains (log 21). -/
def Obligations.FencesDrainsAndWays : Prop :=
  (∀ h (o : Fence) s x, Ready (.fence h o) s x → let sys := o.scope = 5 ∧ o.ord ≠ 1
    (¬sys ∨ (x.sq = [] ∧ x.req.discard = none) → Starts (.fence h o) s x
      (.fence o.ord.toNat o.scope.toNat (fenceAfter s s.cur o.ord.toNat o.scope.toNat) false [])) ∧
    (sys → x.sq ≠ [] → exec (.fence h o) s = .next (toWaiting (useLines s s.cur (x) (.fence h o)) s.cur (.ops (x.sq.map (·.op))))) ∧
    (∀ a, sys → x.sq = [] → x.req.discard = some a → exec (.fence h o) s = .next (takeTrap ((useLines s s.cur x (.fence h o)).updCrew s.cur
      fun y => { y with req := { y.req with discard := none } }) s.cur ⟨0x0F, x.ctl.em, BitVec.ofNat 64 a⟩ x.ctl.pc))) ∧
  (∀ s o c tag b em ord scope after dr x, s.op? o = some ⟨c, tag, b, em, .fence ord scope after false dr⟩ → s.crew? c = some x → ord ≠ 1 →
    after.any (opPending s c) = false →
    (scope ≤ 1 → exec (.releaseDrainDone o) s = .next (finishOp s o {})) ∧
    (2 ≤ scope → eagerHeld s x.seat.core scope = false → L1Up s x.seat.core →
      ∃ t, exec (.releaseDrainDone o) s = .next t ∧ Drained s t x.seat.core ∧
        t.op? o = (if ord = 2 then none else some ⟨c, tag, b, em, .fence ord scope after true dr⟩))) ∧
  (∀ s o c tag b em ord scope after rel dr x g, s.op? o = some ⟨c, tag, b, em, .fence ord scope after rel dr⟩ → s.crew? c = some x →
    fenceReady s c ord scope after rel = true →
    (g ∈ fenceDrains s x.seat.core scope dr → drainHeld s g = false → L1Up s g →
      ∃ t, exec (.drainDemand g o) s = .next t ∧ Drained s t g ∧ t.crews = s.crews ∧
        t.op? o = some ⟨c, tag, b, em, .fence ord scope after rel (g :: dr)⟩) ∧
    (ord ≠ 2 → 2 ≤ scope → fenceDrains s x.seat.core scope dr = [] →
      exec (.acquireDrainDone o) s = .next (finishOp (invalidateStale s x.seat.core) o {}))) ∧
  (∀ s o c tag b em r dst acq st dr inv g, s.op? o = some ⟨c, tag, b, em, .barWait r dst acq st dr inv⟩ → g ∈ dr → drainHeld s g = false →
    L1Up s g → ∃ t, exec (.drainDemand g o) s = .next t ∧ Drained s t g ∧ t.crews = s.crews ∧
      t.op? o = some ⟨c, tag, b, em, .barWait r dst acq st (dr.filter (· ≠ g)) inv⟩) ∧
  (∀ s o c tag b em l x, s.op? o = some ⟨c, tag, b, em, .load l⟩ → s.crew? c = some x → l.acq.any (· ≥ 2) = true → l.done = false →
    (∀ h a n, .win h a n ∈ l.accs.flatMap (·.at_) → (s.arr h a).flips = []) →
    let g := x.seat.core
    let ps := l.open.map fun k => k.2.2
    let ready (ks : List (Nat × Nat × Place)) : Prop := releasers s (ks.map fun k => k.2.2) = [] ∧ bytesCome s c o g ks = true
    (∀ k ∈ releasers s ps, drainHeld s k = false → L1Up s k →
      ∃ t, exec (.drainDemand k o) s = .next t ∧ Drained s t k ∧ t.crews = s.crews ∧ k ∉ releasers t ps) ∧
    (∀ n, l.parts = [n] → ready (l.ofPart n) → ∃ t l', exec (.acquireDrainDone o) s = .next t ∧ t.op? o = some ⟨c, tag, b, em, .load l'⟩ ∧
      l'.parts = [] ∧ l'.done = false ∧ ∀ k ∈ l.ofPart n, (k.1, k.2.1, placeByte s g k.2.2) ∈ l'.got) ∧
    (l.parts = [] → ready l.open → (∀ k ∈ l.open, k.2.2.part = none) → ∃ t l', exec (.acquireDrainDone o) s = .next t ∧
      t.op? o = some ⟨c, tag, b, em, .load l'⟩ ∧ l'.done = true ∧ (∀ n ∈ staleLines s g, (t.core g).l1.find? n = none) ∧
      ∀ k ∈ slotsOf l.accs, l.has k.1 k.2.1 = true ∨ (k.1, k.2.1, placeByte s g k.2.2) ∈ l'.got)) ∧
  (∀ h (o : Src) s x, Ready (.cways h o) s x → let n := (srcS s x o.a).toNat; let k := (s.core x.seat.core).scratch
    let free := k.owner = none ∨ k.owner = some x.seat.group
    (12 < n → Traps (.cways h o) s x ⟨0x04, x.ctl.em, BitVec.ofNat 64 n⟩) ∧ (n ≤ 12 → ¬free → Traps (.cways h o) s x ⟨0x04, x.ctl.em, 0⟩) ∧
    (n ≤ 12 → free → (∀ e ∈ s.ops, ∀ m1 m2 gr, e.2.kind ≠ .cways x.seat.core m1 m2 gr) → ∃ t y, exec (.cways h o) s = .next t ∧
      t.crew? s.cur = some y ∧ y.rf = x.rf ∧ y.ctl = nextPc x ∧
      t.op? s.nextId = some ⟨s.cur, h.tag.toNat, x.bank, x.ctl.em, .cways x.seat.core k.ways n x.seat.group⟩ ∧
      (t.core x.seat.core).scratch = { k with owner := if n = 0 then none else some x.seat.group, target := n, ways := min n k.ways } ∧
      (L1Up s x.seat.core → ∀ a, homeByte t x.seat.core a = homeByte s x.seat.core a))) ∧
  (∀ s o c tag b em g n0 n1 gr, s.op? o = some ⟨c, tag, b, em, .cways g n0 n1 gr⟩ → scratchUsed s g (16384 * min n0 n1) = false →
    (n1 ≤ n0 → exec (.cwaysConverted o) s = .next (finishOp s o {})) ∧
    (n0 < n1 → (s.core g).fills = [] → ∃ t, exec (.cwaysConverted o) s = .next t ∧ t.op? o = none ∧ t.mem = s.mem ∧
      (t.core g).scratch.ways = n1 ∧ (∀ a, placeByte t g (.scr g a) = if a < 16384 * n0 then placeByte s g (.scr g a) else 0))) ∧
  (∀ s g n k, (s.core g).locks.find? n = some k → k.live = false → lockWaits s g k = false →
    ∃ t, exec (.rangeLockActivate g n) s = .next t ∧ (t.core g).locks.find? n = some { k with live := true } ∧
      { t with cores := s.cores } = s ∧ (∀ m, m ≠ n → (t.core g).locks.find? m = (s.core g).locks.find? m) ∧ ∀ h, h ≠ g → t.core h = s.core h)

/-- An arrival of count 0 does nothing. On an ARMED barrier a count below PEND is taken from PEND and nothing else changes. A count equal
to PEND, with no error noted, ends the phase: PHASE goes on by one modulo 2^16, the barrier is COMPLETE with PEND 0 or, as an auto
barrier, ARMED with PEND INIT; an array bound to it enters SETTLING and the binding is dropped; every wait that R251 then ends receives
the status word as it stands, and acquires on a cluster barrier. A count above PEND, or a noted error, makes it ERROR, with ECODE 6 for
the excess unless one is recorded (the first code of a phase stays: log 22). On an IDLE or COMPLETE barrier it makes it ERROR, ECODE 6 unless one
is recorded; on an ABANDONED or ERROR one it does nothing. The status word's fields are name, KIND, STATE, ECODE, PEND and PHASE at bits 10:0, 12:11, 15:13, 19:16, 47:20
and 63:48. -/
def Obligations.BarrierPhases : Prop :=
  (∀ s g n c, let b := s.bar g n; let t := arrive s g n c; let b' := t.bar g n
    (c = 0 → t = s) ∧
    (b.state = .armed → 0 < c → c < b.pend → b' = { b with pend := b.pend - c } ∧ { t with cores := s.cores } = s ∧
      (∀ k, k ≠ n → t.bar g k = s.bar g k) ∧ (∀ k, k ≠ g → t.core k = s.core k) ∧ { t.core g with bars := (s.core g).bars } = s.core g) ∧
    (b.state = .armed → 0 < c → c = b.pend → b.err = false →
      b'.phase = (b.phase + 1) % 2 ^ 16 ∧ b'.state = (if b.auto then .armed else .complete) ∧ b'.pend = (if b.auto then b.init else 0) ∧
      b'.ecode = b.ecode ∧ b'.kind = b.kind ∧ b'.init = b.init ∧ b'.arr = none ∧ t.mem = s.mem ∧ t.crews = s.crews ∧
      (∀ a, b.arr = some a → (t.arr g a).state = .settling ∧ (t.arr g a).bar = none ∧ (t.arr g a).cells = (s.arr g a).cells) ∧
      (∀ o p cr tag k em r dst acq dr inv, (o, p) ∈ b.waits → s.op? o = some ⟨cr, tag, k, em, .barWait r dst acq none dr inv⟩ →
        (b'.releases p = true → ∃ acq' dr' inv', t.op? o = some ⟨cr, tag, k, em, .barWait r dst acq' (some (statusWord b' r.name)) dr' inv'⟩ ∧
          (b.kind = 3 → acq' = true) ∧ ∀ q, (o, q) ∉ b'.waits ∨ b'.releases q = false) ∧
        ((∀ q, (o, q) ∈ b.waits → b'.releases q = false) → t.op? o = s.op? o ∧ (o, p) ∈ b'.waits))) ∧
    (b.state = .armed → 0 < c → b.pend < c ∨ (c = b.pend ∧ b.err = true) →
      b'.state = .error ∧ b'.phase = (b.phase + 1) % 2 ^ 16 ∧ b'.pend = 0 ∧ b'.ecode = if b.pend < c ∧ b.ecode = 0 then 6 else b.ecode) ∧
    (b.state = .idle ∨ b.state = .complete → 0 < c →
      b' = { b with state := .error, ecode := if b.ecode = 0 then 6 else b.ecode } ∧ { t with cores := s.cores } = s) ∧
    (b.state = .abandoned ∨ b.state = .error → t = s)) ∧
  (∀ b name, let w := statusWord b name
    bits w 10 0 = name % 2 ^ 11 ∧ bits w 12 11 = b.kind % 4 ∧ bits w 15 13 = b.state.code ∧ bits w 19 16 = b.ecode % 16 ∧
    bits w 47 20 = b.pend % 2 ^ 28 ∧ bits w 63 48 = b.phase % 2 ^ 16)

/-- With name = (s[A] mod 2048 + NAME) mod 2048: a name at or beyond the group's count raises PROTECTION, reason 0. BARI on an ARMED
barrier, or with a count of 2^28 or more, raises PROTECTION, reason 1 or 3; else it arms the barrier with its kind and count, or with
count 0 ends its phase. BARA and BARAW begin an arrival that waits for the crew's queue and loads; with none it takes effect at issue as
BarrierPhases says, BARA keeping the status before it, BARAW waiting on the phase it arrived in. BARW waits on the expected phase: the
barrier's own, or under .ph s[A][63:48]; it is released with the status at once when R251 says so. BART is such a wait then, and otherwise
gives the status at once. BARX gives the status before it and leaves the barrier IDLE; BARQ gives the configuration. CLB does the same as
these on a barrier of its own core, and on a peer group's, where its arrival is left to CLUSTER_BARRIER_ARRIVAL; that step performs an
arrival whose earlier work is done, and BARRIER_STATUS_RETURN finishes an operation whose status is known and whose drains are done. No
register or byte of memory changes. The model's choices: what BARI with count 0 leaves (log 22), and what a late waiter drains (log 21). -/
def Obligations.BarrierInstructions : Prop :=
  -- no waiter and no bound array of the barrier already carries the name o
  let unnamed (s : State) (r : BarRef) (o : Nat) : Prop := (∀ w ∈ (s.bar r.core r.phys).waits, w.1 ≠ o) ∧
    ∀ a, (s.bar r.core r.phys).arr = some a → (s.arr r.core a).op ≠ some o
  let goes (i : Instr) (s : State) (x : Crew) (t : State) (k : OpKind) : Prop := Begins i s x k t ∧ ∀ d, d ≠ s.cur → t.crew? d = s.crew? d
  -- a wait on phase p: released at once with the status, or waiting
  let waits (i : Instr) (s : State) (x : Crew) (r : BarRef) (d : Reg) (p : Nat) : Prop := let b := s.bar r.core r.phys
    (b.releases p = true → ∃ t dr, goes i s x t (.barWait r (some d) (b.kind == 3) (some (statusWord b r.name)) dr b.lastRanges)) ∧
    (b.releases p = false → unnamed s r s.nextId → ∃ t, goes i s x t (.barWait r (some d) false none [] []) ∧ (s.nextId, p) ∈ (t.bar r.core r.phys).waits ∧
      { t.bar r.core r.phys with waits := b.waits } = b)
  let tests (i : Instr) (s : State) (x : Crew) (r : BarRef) (d : Reg) (p : Nat) : Prop := let b := s.bar r.core r.phys
    (b.releases p = true → waits i s x r d p) ∧
    (b.releases p = false → Starts i s x (.barWait r (some d) false (some (statusWord b r.name)) [] []))
  -- an arrival, at issue or left to its step
  let arrives (i : Instr) (s : State) (x : Crew) (r : BarRef) (d : Reg) (c : Nat) (w : Bool) : Prop := let b := s.bar r.core r.phys
    (earlierOps s s.cur ≠ [] ∨ r.core ≠ x.seat.core → Starts i s x (.barArrive r c (some d) w (earlierOps s s.cur))) ∧
    (earlierOps s s.cur = [] → r.core = x.seat.core → unnamed s r s.nextId → ∃ t k, exec i s = .next t ∧
      (∃ y, t.crew? s.cur = some y ∧ y.rf = x.rf ∧ y.ctl = nextPc x ∧ y.sq = x.sq) ∧ t.mem = s.mem ∧
      t.op? s.nextId = some ⟨s.cur, i.hdr.tag.toNat, x.bank, x.ctl.em, k⟩ ∧
      (let b' := t.bar r.core r.phys; let a := (arrive s r.core r.phys c).bar r.core r.phys
        (b'.state, b'.phase, b'.pend, b'.ecode, b'.kind, b'.init, b'.arr) = (a.state, a.phase, a.pend, a.ecode, a.kind, a.init, a.arr) ∧
        (w = false → k = .barWait r (some d) false (some (statusWord b r.name)) [] []) ∧
        (w = true → b'.releases b.phase = true → ∃ q dr inv, k = .barWait r (some d) q (some (statusWord b' r.name)) dr inv) ∧
        (w = true → b'.releases b.phase = false → k = .barWait r (some d) false none [] [])))
  let phase (s : State) (x : Crew) (ph : Bool) (a : Reg) (r : BarRef) : Nat :=
    if ph then bits (srcS s x a).toNat 63 48 else (s.bar r.core r.phys).phase
  let named (s : State) (x : Crew) (i : Instr) (a : Reg) (nm : BitVec 11) (f : BarRef → Prop) : Prop := ∀ gr, s.group? x.seat.group = some gr →
    let n := ((srcS s x a).toNat % 2048 + nm.toNat) % 2048
    (gr.nbar ≤ n → Traps i s x ⟨0x04, x.ctl.em, BitVec.ofNat 64 n⟩) ∧ (n < gr.nbar → gr.core = x.seat.core → f ⟨gr.core, gr.bar0 + n, n⟩)
  (∀ h (o : BarInit) s x, Ready (.bari h o) s x → let i := Instr.bari h o; named s x i o.a o.name fun r =>
    let b := s.bar r.core r.phys; let c := if o.d = .zero then o.count.toNat else (srcS s x o.d).toNat % 2 ^ 32
    (b.state = .armed → Traps i s x ⟨0x04, x.ctl.em, BitVec.ofNat 64 (r.name + 2 ^ 12)⟩) ∧
    (b.state ≠ .armed → 2 ^ 28 ≤ c → Traps i s x ⟨0x04, x.ctl.em, BitVec.ofNat 64 (r.name + 3 * 2 ^ 12)⟩) ∧
    (b.state ≠ .armed → c < 2 ^ 28 → ∃ t, Begins i s x (.barWait r none false (some 0) [] []) t ∧ OthersKept s t ∧
      let b' := t.bar r.core r.phys
      (b'.kind = o.kind.toNat ∧ b'.auto = o.auto ∧ b'.init = c ∧ b'.pend = c ∧ b'.arr = b.arr ∧ b'.waits = b.waits) ∧
      (c ≠ 0 → b'.state = .armed ∧ b'.phase = b.phase ∧ b'.err = false ∧ b'.ecode = 0) ∧
      (c = 0 → b'.phase = (b.phase + 1) % 2 ^ 16 ∧ b'.state = if o.auto then .error else .complete) ∧
      (∀ k, k ≠ r.phys → t.bar r.core k = s.bar r.core k))) ∧
  (∀ h (o : BarCount) s x, Ready (.bara h o) s x → named s x (.bara h o) o.a o.name fun r => arrives (.bara h o) s x r o.d o.count.toNat false) ∧
  (∀ h (o : BarCount) s x, Ready (.baraw h o) s x → named s x (.baraw h o) o.a o.name fun r => arrives (.baraw h o) s x r o.d o.count.toNat true) ∧
  (∀ h (o : BarPh) s x, Ready (.barw h o) s x → named s x (.barw h o) o.a o.name fun r => waits (.barw h o) s x r o.d (phase s x o.ph o.a r)) ∧
  (∀ h (o : BarPh) s x, Ready (.bart h o) s x → named s x (.bart h o) o.a o.name fun r => tests (.bart h o) s x r o.d (phase s x o.ph o.a r)) ∧
  (∀ h (o : BarName) s x, Ready (.barx h o) s x → named s x (.barx h o) o.a o.name fun r => let b := s.bar r.core r.phys
    ∃ t y, exec (.barx h o) s = .next t ∧ t.crew? s.cur = some y ∧ y.rf = x.rf ∧ y.ctl = nextPc x ∧ t.mem = s.mem ∧
      t.op? s.nextId = some ⟨s.cur, h.tag.toNat, x.bank, x.ctl.em, .barWait r (some o.d) false (some (statusWord b r.name)) [] []⟩ ∧
      (t.bar r.core r.phys).state = .idle ∧
      (b.state ≠ .idle → (t.bar r.core r.phys).waits = [] ∧ (∀ a, b.arr = some a → (t.arr r.core a).state = .storage) ∧
        (b.arr = none → ∀ w ∈ b.waits, ∀ cr tag k em d acq dr inv, w.1 ≠ s.nextId →
          s.op? w.1 = some ⟨cr, tag, k, em, .barWait r d acq none dr inv⟩ → ∃ acq' dr' inv',
            t.op? w.1 = some ⟨cr, tag, k, em, .barWait r d acq' (some (endedWord b r.name 3 10)) dr' inv'⟩))) ∧
  (∀ h (o : BarName) s x, Ready (.barq h o) s x → named s x (.barq h o) o.a o.name fun r =>
    Starts (.barq h o) s x (.barWait r (some o.d) false (some (configWord (s.bar r.core r.phys) r.name)) [] [])) ∧
  (∀ h (o : Clb) s x gr, Ready (.clb h o) s x → s.group? x.seat.group = some gr → gr.core = x.seat.core → let i := Instr.clb h o
    let n := ((srcS s x o.a).toNat % 2048 + o.name.toNat) % 2048
    let does (r : BarRef) : Prop := match o.op with
      | .arr => arrives i s x r o.d o.count.toNat false
      | .aw => arrives i s x r o.d o.count.toNat true
      | .wait => waits i s x r o.d (phase s x o.ph o.a r)
      | .test => tests i s x r o.d (phase s x o.ph o.a r)
    let at_ (g : Group) : Prop :=
      (g.nbar ≤ n → Traps i s x ⟨0x04, x.ctl.em, BitVec.ofNat 64 n⟩) ∧
      (n < g.nbar → (s.bar g.core (g.bar0 + n)).state ≠ .idle → (s.bar g.core (g.bar0 + n)).kind ≠ 3 →
        Traps i s x ⟨0x04, x.ctl.em, BitVec.ofNat 64 (n + 2 * 2 ^ 12)⟩) ∧
      (n < g.nbar → (s.bar g.core (g.bar0 + n)).state = .idle ∨ (s.bar g.core (g.bar0 + n)).kind = 3 → does ⟨g.core, g.bar0 + n, n⟩)
    (o.core.toNat = x.seat.core % 4 → at_ gr) ∧
    (∀ v hi g, o.core.toNat ≠ x.seat.core % 4 → s.convoy? gr.convoy = some v → v.groups[o.core.toNat ^^^ v.x]? = some hi →
      s.group? hi = some g →
      (v.freed.contains (o.core.toNat ^^^ v.x) = true ∨ g.state = .closing →
        Traps i s x ⟨0x06, x.ctl.em, BitVec.ofNat 64 (n + o.core.toNat * 2 ^ 16)⟩) ∧
      (v.freed.contains (o.core.toNat ^^^ v.x) = false → g.state ≠ .closing → at_ g))) ∧
  (∀ s o c tag b em r n d w after, s.op? o = some ⟨c, tag, b, em, .barArrive r n d w after⟩ → after.any (opPending s c) = false → unnamed s r o →
    ∃ t k, exec (.clusterBarrierArrival o) s = .next t ∧ t.op? o = some ⟨c, tag, b, em, k⟩ ∧ t.mem = s.mem ∧
      let old := s.bar r.core r.phys; let a := (arrive s r.core r.phys n).bar r.core r.phys; let b' := t.bar r.core r.phys
      (b'.state, b'.phase, b'.pend, b'.ecode, b'.kind, b'.init, b'.arr) = (a.state, a.phase, a.pend, a.ecode, a.kind, a.init, a.arr) ∧
      (w = false → k = .barWait r d false (some (statusWord old r.name)) [] []) ∧
      (w = true → b'.releases old.phase = true → ∃ q dr inv, k = .barWait r d q (some (statusWord b' r.name)) dr inv)) ∧
  (∀ s o c tag b em r d acq w inv, s.op? o = some ⟨c, tag, b, em, .barWait r d acq (some w) [] inv⟩ →
    (acq = false → inv = [] → exec (.barrierStatusReturn o) s = .next (finishOp s o (heldScalar? b d (BitVec.ofNat 64 w)))) ∧
    ∀ x, s.crew? c = some x → L1Up s x.seat.core →
      ∃ t, exec (.barrierStatusReturn o) s = .next (finishOp t o (heldScalar? b d (BitVec.ofNat 64 w))) ∧ t.crews = s.crews ∧ t.ops = s.ops ∧
        (∀ a, homeByte t x.seat.core a = homeByte s x.seat.core a) ∧ (∀ n ∈ inv, (t.core x.seat.core).l1.find? n = none) ∧
        (acq = true → inv = [] → ∀ n ∈ staleLines s x.seat.core, (t.core x.seat.core).l1.find? n = none))

/-- For a = s[A] mod 32: an array the group does not hold, or for ARMODE not reserved for compute, raises PROTECTION. ARMODE.reef needs
STORAGE (OFFLINE: ARRAY_MODE reason 7, else 2) and an ARMED, unbound reef barrier of the group (reason 4; a name at or beyond the count:
PROTECTION); then the array is REEFING with its PB and bound to the barrier, under the tag. ARMODE.unreef makes COMPUTE UNREEFING, returns
REEFING to STORAGE, waits on SETTLING, raises ARRAY_MODE in UNREEFING (3) and OFFLINE (7), and has no effect otherwise. ARQ gives the
state, slot and held words; .clr clears DISC after the read. ARRAY_SETTLED makes SETTLING COMPUTE or OFFLINE, ARRAY_UNREEFED an UNREEFING
array without matrix instruction STORAGE, or CLEARING when its group has gone, each completing the ARMODE; cells keep their contents.
ARRAY_CLEARED makes CLEARING the unheld, zero array. Nothing else changes. The model's choices: ARQ's words are taken at issue (log 8), and the
wait on SETTLING issues nothing (log 56). -/
def Obligations.ArrayModes : Prop :=
  let denied (i : Instr) (s : State) (x : Crew) (a : Nat) : Prop := Traps i s x ⟨0x04, x.ctl.em, BitVec.ofNat 64 a⟩
  let mode (i : Instr) (s : State) (x : Crew) (a reason : Nat) : Prop := Traps i s x ⟨0x0D, x.ctl.em, BitVec.ofNat 64 (a + reason * 2 ^ 8)⟩
  let holds (gr : Group) (a : Nat) : Prop := a ≤ 23 ∧ gr.arr0 ≤ a ∧ a < gr.arr0 + gr.nsto + gr.ncomp
  let only (s t : State) (g a : Nat) : Prop := (∀ k, k ≠ g → t.core k = s.core k) ∧ (∀ k, k ≠ a → t.arr g k = s.arr g k)
  (∀ h (o : Reef) s x gr, Ready (.armodeReef h o) s x → s.group? x.seat.group = some gr → gr.core = x.seat.core →
    let i := Instr.armodeReef h o; let g := x.seat.core; let a := (srcS s x o.a).toNat % 32; let n := (srcS s x o.b).toNat % 2048
    let r := s.arr g a; let b := s.bar g (gr.bar0 + n)
    (¬holds gr a ∨ r.comp = false → denied i s x a) ∧
    (holds gr a → r.comp = true → (gr.nbar ≤ n → denied i s x (n + 2 ^ 16)) ∧
      (n < gr.nbar → (r.state = .offline → mode i s x a 7) ∧ (r.state ≠ .offline → r.state ≠ .storage → mode i s x a 2) ∧
        (r.state = .storage → b.kind ≠ 2 ∨ b.state ≠ .armed ∨ b.arr.isSome = true → mode i s x a 4) ∧
        (r.state = .storage → b.kind = 2 → b.state = .armed → b.arr = none → ∃ t, Begins i s x (.armode g a) t ∧ OthersKept s t ∧
          t.arr g a = { r with state := .reefing, pb := o.pb.toNat, bar := some (gr.bar0 + n), op := some s.nextId } ∧
          t.bar g (gr.bar0 + n) = { b with arr := some a } ∧ (∀ k, k ≠ gr.bar0 + n → t.bar g k = s.bar g k) ∧ only s t g a)))) ∧
  (∀ h (o : Src) s x gr, Ready (.armodeUnreef h o) s x → s.group? x.seat.group = some gr →
    let i := Instr.armodeUnreef h o; let g := x.seat.core; let a := (srcS s x o.a).toNat % 32; let r := s.arr g a
    (¬holds gr a ∨ r.comp = false → denied i s x a) ∧
    (holds gr a → r.comp = true →
      (r.state = .settling → exec i s = .next (toWaiting (useLines s s.cur x i) s.cur (.array g a))) ∧
      (r.state = .unreefing → mode i s x a 3) ∧ (r.state = .offline → mode i s x a 7) ∧
      (r.state = .compute → ∃ t, Begins i s x (.armode g a) t ∧ OthersKept s t ∧ only s t g a ∧
        t.arr g a = { r with state := .unreefing, op := some s.nextId, pass := none }) ∧
      (r.state = .reefing → ∃ t y, exec i s = .next t ∧ t.crew? s.cur = some y ∧ y.rf = x.rf ∧ y.ctl = nextPc x ∧ t.mem = s.mem ∧
        t.arr g a = { r with state := .storage, bar := none, op := none, pb := 0 } ∧ (∀ o, r.op = some o → t.op? o = none)) ∧
      (r.state = .storage ∨ r.state = .unheld ∨ r.state = .clearing → Sets i s x x.rf (nextPc x)))) ∧
  (∀ h (o : DA) s x gr, Ready (.arqState h o) s x → s.group? x.seat.group = some gr →
    let i := Instr.arqState h o; let a := (srcS s x o.a).toNat % 32; let r := s.arr x.seat.core a
    (¬holds gr a → denied i s x a) ∧
    (holds gr a → r.pb < 32 → ∃ w, Gives i s x (resS x o.d (BitVec.ofNat 64 w)) ∧ bits w 4 0 = r.state.code ∧ bits w 10 5 = slotCount r.pb * (if r.state = .storage then 0 else 1) ∧
      bits w 15 11 = (if r.state = .storage then 0 else r.pb) ∧ bits w 35 16 = min r.terep 65535 ∧
      ∀ j < 28, w.testBit (36 + j) = (r.slot j).op.isSome)) ∧
  (∀ h (o : ArqSlot) s x gr, Ready (.arqSlot h o) s x → s.group? x.seat.group = some gr →
    let i := Instr.arqSlot h o; let v := (srcS s x o.a).toNat; let a := v % 32; let n := bits v 12 8; let r := s.arr x.seat.core a
    (¬holds gr a → denied i s x a) ∧
    (holds gr a → ((r.state ≠ .settling ∧ r.state ≠ .compute ∧ r.state ≠ .unreefing) ∨ slotCount r.pb ≤ n → Gives i s x (resS x o.d 0)) ∧
      (r.state = .settling ∨ r.state = .compute ∨ r.state = .unreefing → n < slotCount r.pb → ∃ w : Nat, w.testBit 0 = (r.slot n).op.isSome ∧
        w.testBit 1 = (r.slot n).full ∧ w.testBit 2 = (r.slot n).samp ∧ w.testBit 3 = (r.slot n).disc ∧ bits w 11 8 = (r.slot n).owner % 16 ∧
        w.testBit 12 = (r.latch? n x.seat.cid).isSome ∧ bits w 47 16 = ((r.latch? n x.seat.cid).map (·.dcount)).getD 0 % 2 ^ 32 ∧
        (o.clr = false → Gives i s x (resS x o.d (BitVec.ofNat 64 w))) ∧
        (o.clr = true → ∃ t y, exec i s = .next t ∧ t.crew? s.cur = some y ∧ y.ctl = nextPc x ∧ t.mem = s.mem ∧ only s t x.seat.core a ∧
          (t.arr x.seat.core a).slot n = { r.slot n with disc := false } ∧ { t.arr x.seat.core a with slots := r.slots } = r ∧
          (if h.tag = 0 then y.rf = (resS x o.d (BitVec.ofNat 64 w)).regs.foldl RegFile.put x.rf
            else y.rf = x.rf ∧ y.tags.find? h.tag.toNat = some ⟨none, h.look.toNat, resS x o.d (BitVec.ofNat 64 w), dstRegs i, false⟩))))) ∧
  (∀ h (o : Dst) s x gr, Ready (.arqHeld h o) s x → s.group? x.seat.group = some gr → ∃ w, Gives (.arqHeld h o) s x (resS x o.d (BitVec.ofNat 64 w)) ∧
    w < 2 ^ 48 ∧ ∀ a < 24, (w.testBit a = true ↔ holds gr a ∧ (s.arr x.seat.core a).comp = false) ∧
      (w.testBit (24 + a) = true ↔ holds gr a ∧ (s.arr x.seat.core a).comp = true)) ∧
  (∀ s g a, let r := s.arr g a
    (r.state = .settling → ∃ t, exec (.arraySettled g a true) s = .next t ∧ t.arr g a = { r with state := .compute, op := none } ∧
      (∀ o, r.op = some o → t.op? o = none) ∧ t.mem = s.mem ∧ only s t g a) ∧
    (r.state = .settling → ∃ t, exec (.arraySettled g a false) s = .next t ∧ t.arr g a = { r with state := .offline, op := none } ∧
      (∀ o, r.op = some o → t.op? o = none) ∧ only s t g a) ∧
    (r.state = .unreefing → r.anyBusy = false → matrixOn s g a = false → ∃ t, exec (.arrayUnreefed g a) s = .next t ∧
      t.arr g a = { r with state := if arrayOrphan s r then .clearing else .storage, pb := 0, latches := [], op := none } ∧
      (∀ o, r.op = some o → t.op? o = none) ∧ t.mem = s.mem ∧ only s t g a) ∧
    (r.state = .clearing → ∃ t, exec (.arrayCleared g a) s = .next t ∧ t.arr g a = Arr.unheld ∧ only s t g a ∧ { t with cores := s.cores } = s)) ∧
  (∀ pb, 0 < pb → slotPitch pb % 2 = 0 ∧ 65 * pb + 7 ≤ slotPitch pb ∧ slotPitch pb * slotCount pb ≤ 2048 ∧ 2048 < slotPitch pb * (slotCount pb + 1))

/-- Take at most 16 input rows and a slot whose riser column holds, in each of the K rows, the sum of the 64 weights. In the exact class,
the sums of a pass over it satisfy every row and column check: nothing is found, whatever the planes and the blocks left out. If one block
sum S(m, n, j) of a checked block is wrong by any nonzero d: with correction on (CHECK 2), when d is no multiple of 2^planes the one
correction found restores exactly the true sum and no replay is asked for; otherwise a disagreement is found, so a wrong sum never passes.
-/
def Obligations.AlgebraicChecksAgree : Prop :=
  ∀ (r : Arr) (slot pb blk klen chk : Nat) (sg : Bool) (p : Pass) (nb : Nat) (skip : List Nat), 0 < blk → p.rows.length ≤ 16 →
    (∀ k < klen, r.riser slot pb k = ((List.range 64).map fun n => r.weight slot pb sg k n).sum) →
    let x := exactSums r slot pb sg blk klen p
    (checkSums x chk 0 pb nb skip p = ⟨false, [], false⟩) ∧
    ∀ m n j d, m < 16 → n < 64 → j < nb → p.planes.getD j 0 ≠ 0 → skip.contains j = false → d ≠ 0 →
      let wrong : Sums := { x with S := fun a b c => x.S a b c + if a = m ∧ b = n ∧ c = j then d else 0 }
      (¬((2 ^ p.planes.getD j 0 : Nat) : Int) ∣ d → checkSums wrong 2 0 pb nb skip p = ⟨false, [(m, n, j, -d)], false⟩ ∧
        ∀ a b c, (wrong.fixed (checkSums wrong 2 0 pb nb skip p).fixes).S a b c = x.S a b c) ∧
      (((2 ^ p.planes.getD j 0 : Nat) : Int) ∣ d ∨ chk = 1 → chk ≠ 0 → (checkSums wrong chk 0 pb nb skip p).bad = true)

/-- With a good format block the checks of R232 decide in their order, each naming every lane: em not all ones raises EM_NOT_FULL with the missing
lanes; an array not held or not reserved, or a metadata word or gathered byte outside the held arrays, PROTECTION; an OFFLINE array ARRAY_MODE 7,
one neither COMPUTE nor SETTLING 1, a wrong plane count 5, a slot beyond the last 6, a metadata word whose array does not serve storage 8; an odd
word or a row not at a multiple of 16 MISALIGN; a locked word RANGE_LOCK; a code of A that is not finite, a wrong RTILE or DTILE, a STALE tile without
RECOMP or a BAD one DATA_ERROR with R233's word; a faulty word SELECTOR_FAULT, which makes A's tile BAD if it is A's. Else a SETTLING array is waited
for. On a COMPUTE array the instruction completes its issue, with SUSPECT tiles noted and A's STALE register tile with RECOMP recomputed: one operation
is in flight with its rows, accumulator, residual (from registers or memory) and metadata. With metadata the crew waits for its reads; without, an MMAG
gathers its aligned rows under range locks, its crew waiting while its slot is busy, and the others take their slot, or wait for it.
METADATA_READ_DONE, MMAG_LATCH_FULL and MATRIX_SLOT_TAKE bring an operation from reading to gathering or to its slot, which it takes when it is free
and no earlier instruction waits for it; a waiting crew then goes on. No byte of memory and, but for recomputed checksums, no register changes. That
OFFLINE comes first, that words are read and tiles recomputed at issue, and which crews wait when are the model's choices (log 25). -/
def Obligations.MatrixInstructionsBegin : Prop :=
  let mk (which : Nat) (h : Hdr) (o : Mat) : Instr := if which = 0 then .mma h o else if which = 1 then .mmag h o else .mmad h o
  let takes (s t : State) (op : Nat) (m : MatOp) (c cid : Nat) : Prop := let r := s.arr m.core m.arr
    t.arr m.core m.arr = { r with slots := SMap.setD r.slots m.slot SlotRec.free { r.slot m.slot with op := some op, owner := cid } } ∧
    (∀ tag b em x, s.op? op = some ⟨c, tag, b, em, .matrix m⟩ → s.crew? c = some x → t.op? op = some ⟨c, tag, b, em, .matrix { m with stage := 3 }⟩ ∧
      ∃ y, t.crew? c = some y ∧ y.rf = x.rf ∧ y.ctl = x.ctl ∧ (x.state = .waiting → x.wait = .ops [op] → y.state = .ready))
  (∀ which h o s x gr, which < 3 → Ready (mk which h o) s x → s.group? x.seat.group = some gr →
    let i := mk which h o; let g := x.seat.core; let iss := issOf i s x; let b := formatBlock iss s o.f
    let w := (srcS s x o.b).toNat; let an := w % 32; let slot := bits w 12 8; let r := s.arr g an
    let mets (has : Bool) (base rows : Nat) : List Nat := metaAddrs has base rows (Fb.nb b)
    let mA := mets (Fb.metaA b) (Fb.saddrA b) (Fb.mrows b); let mB := mets (Fb.metaB b) (Fb.saddrB b) 64
    let held (a : Nat) : Prop := a < 0x600000 ∧ gr.holds (a / 0x40000) = true
    let word (a : Nat) : Nat := ofBytes ((s.arr g (a / 0x40000)).readN (a % 0x40000) 2)
    let all : Mask := BitVec.allOnes 128
    let d := match o.d with | .v k => k.val | _ => 0; let a0 := match o.a with | .v k => k.val | _ => 0
    let codes := if which = 1 then [] else (List.range (Fb.mrows b)).map (rowCodes iss b a0)
    let heads := if which = 1 then (List.range (Fb.mrows b)).map fun m => iss.lane32 o.a 0 m else []
    let elems := codes.mapIdx fun m c => decodeRow b (mA.map word) m c
    let len := ceilDiv (Fb.rowBits b) 8
    let reads (a : Nat) : Prop := a ∈ mA ++ mB ∨ ∃ h ∈ heads, ∃ j < len, a = h + j
    let least (P : Nat → Prop) (a : Nat) : Prop := P a ∧ ∀ c, P c → a ≤ c
    let raises (cause a : Nat) : Prop := Traps i s x ⟨cause, all, BitVec.ofNat 64 a⟩
    let finite (m : Nat) : Prop := ∀ e ∈ elems.getD m [], e.finite = true
    let fp32 (t : Option Tile) : Bool := t.any fun u => u.fmt == 0x20 && u.rows == 16 && u.cols == 64
    let tileA := if which = 1 then none else declaredA iss s b a0
    let rtile := if Fb.res b then ownedTile iss s (Fb.rtile b) else none
    let dtile := if Fb.dte b then ownedTile iss s (Fb.dtile b) else none
    let dOk := fp32 dtile && dtile.any fun u => u.space == 2 && u.base == d
    let faulty (a : Nat) : Prop := (a ∈ mA ∧ metaFaulty (Fb.fmtA b) (Fb.scfA b) (word a) = true) ∨
      (a ∈ mB ∧ metaFaulty (Fb.fmtB b) (Fb.scfB b) (word a) = true)
    matrixReason which o iss = none →
    (x.ctl.em ≠ all → Traps i s x ⟨0x09, ~~~x.ctl.em, 0⟩) ∧
    (x.ctl.em = all → ¬(an ≤ 23 ∧ gr.holds an = true ∧ r.comp = true) → Traps i s x ⟨0x04, all, BitVec.ofNat 64 an⟩) ∧
    (x.ctl.em = all → an ≤ 23 → gr.holds an = true → r.comp = true →
      let mode (n : Nat) : Prop := Traps i s x ⟨0x0D, all, BitVec.ofNat 64 (an + n * 2 ^ 8)⟩
      (∀ a, least (fun a => reads a ∧ ¬held a) a → raises 0x04 a) ∧
      ((∀ a, reads a → held a) → (r.state = .offline → mode 7) ∧
        (r.state ≠ .offline → r.state ≠ .compute → r.state ≠ .settling → mode 1) ∧
        (r.state = .compute ∨ r.state = .settling → fmtPlanes (Fb.fmtB b) ≠ r.pb → mode 5) ∧
        (r.state = .compute ∨ r.state = .settling → fmtPlanes (Fb.fmtB b) = r.pb → slotCount r.pb ≤ slot → mode 6)) ∧
      ((∀ a, reads a → held a) → r.state = .compute ∨ r.state = .settling → fmtPlanes (Fb.fmtB b) = r.pb → slot < slotCount r.pb →
        let away (a : Nat) : Prop := a ∈ mA ++ mB ∧ (s.arr g (a / 0x40000)).state ≠ .storage ∧ (s.arr g (a / 0x40000)).state ≠ .reefing
        let odd (a : Nat) : Prop := (a ∈ mA ++ mB ∧ a % 2 ≠ 0) ∨ (a ∈ heads ∧ a % 16 ≠ 0)
        let locked (a : Nat) : Prop := a ∈ mA ++ mB ∧ ∃ j < 2, lockedByte s g x.seat.tag false (.win g ((a + j) / 0x40000) ((a + j) % 0x40000)) = true
        let badR : Prop := Fb.res b = true ∧ fp32 rtile = false
        let badD : Prop := Fb.dte b = true ∧ dOk = false
        (∀ a, least away a → raises 0x0D (a / 0x40000 + 8 * 2 ^ 8)) ∧
        ((∀ a, ¬away a) → ∀ a, least odd a → raises 0x02 a) ∧
        ((∀ a, ¬away a ∧ ¬odd a) → ∀ a, least locked a → raises 0x05 a) ∧
        ((∀ a, ¬away a ∧ ¬odd a ∧ ¬locked a) →
          (∀ m < elems.length, ¬finite m → (∀ k < m, finite k) → raises 0x0F m) ∧
          ((∀ m, finite m) → (badR → raises 0x0F (4096 + Fb.rtile b)) ∧ (¬badR → badD → raises 0x0F (4096 + Fb.dtile b)) ∧
            (¬badR → ¬badD →
              let is (t : Tile) (k : TileState) : Prop := Fb.chk b ≠ 0 ∧ t.state = k ∧ (k = .stale → t.recomp = false)
              let none_ (k : TileState) : Prop := (∀ n t, tileA = some (n, t) → ¬is t k) ∧ ∀ t, rtile = some t → ¬is t k
              (∀ n t, tileA = some (n, t) → is t .stale → raises 0x0F (2 * 4096 + n)) ∧
              (∀ t, (∀ n u, tileA = some (n, u) → ¬is u .stale) → rtile = some t → is t .stale → raises 0x0F (2 * 4096 + Fb.rtile b)) ∧
              (none_ .stale → (∀ n t, tileA = some (n, t) → is t .bad → raises 0x0F (3 * 4096 + n)) ∧
                (∀ t, (∀ n u, tileA = some (n, u) → ¬is u .bad) → rtile = some t → is t .bad → raises 0x0F (3 * 4096 + Fb.rtile b))) ∧
              (none_ .stale → none_ .bad →
                (∀ a, least faulty a → tileA = none ∨ (∀ c ∈ mA, metaFaulty (Fb.fmtA b) (Fb.scfA b) (word c) = false) → raises 0x0A a) ∧
                (∀ a c n t, least faulty a → c ∈ mA → metaFaulty (Fb.fmtA b) (Fb.scfA b) (word c) = true → tileA = some (n, t) →
                  exec i s = .next (takeTrap ((useLines s s.cur x i).updTile g n fun t => { t with state := .bad }) s.cur
                    ⟨0x0A, all, BitVec.ofNat 64 a⟩ x.ctl.pc)) ∧
                ((∀ a, ¬faulty a) → r.state = .settling → exec i s = .next (toWaiting (useLines s s.cur x i) s.cur (.array g an)))))))) ∧
      (∀ rt : Option (Tile × List Byte), r.state = .compute → fmtPlanes (Fb.fmtB b) = r.pb → slot < slotCount r.pb →
        (∀ a ∈ mA ++ mB, a % 2 = 0 ∧ held a ∧ ((s.arr g (a / 0x40000)).state = .storage ∨ (s.arr g (a / 0x40000)).state = .reefing) ∧
          (s.arr g (a / 0x40000)).flips = []) → (s.core g).locks = [] →
        (∀ a, ¬faulty a) → (∀ q ∈ elems, ∀ e ∈ q, e.finite = true) →
        (∀ a ∈ heads, a % 16 = 0 ∧ ∀ j < len, held (a + j)) →
        (∀ e, tileA = some e → Fb.chk b = 0 ∨ e.2.state = .valid ∨ e.2.state = .suspect ∨ (e.2.state = .stale ∧ e.2.recomp = true)) →
        (Fb.res b = true → ∃ t bytes, rt = some (t, bytes) ∧ rtile = some t ∧ fp32 rtile = true ∧
          (Fb.chk b = 0 ∨ t.state = .valid ∨ t.state = .suspect) ∧
          (t.space = 2 ∧ bytes = t.elemOffsets.map (regByte x) ∨ t.space ≠ 2 ∧ ∃ accs,
            checkAccess s x { space := t.space, align := 1, write := false, pieces := t.elemPieces } = .ok accs ∧
            queueBlocks x (accs.flatMap (·.at_)) = [] ∧ (∀ p ∈ accs.flatMap (·.at_), plainByte s g p) ∧
            bytes = (accs.flatMap (·.at_)).map (readByte s x))) → (Fb.res b = false → rt = none) →
        (Fb.dte b = true → dOk = true) →
        let stale := tileA.filter fun e => Fb.chk b != 0 && e.2.state == .stale
        let suspect := Fb.chk b != 0 && ((tileA.any fun e => e.2.state == .suspect) || rt.any fun e => e.1.state == .suspect)
        ∃ t y m, exec i s = .next t ∧ t.crew? s.cur = some y ∧ y.ctl = nextPc x ∧ y.sq = x.sq ∧ t.mem = s.mem ∧ OthersKept s t ∧
          (stale = none → y.rf = x.rf) ∧
          (∀ n u, stale = some (n, u) → y.rf = (putRegChecksums x u.csum (u.sumsOf (u.codes (u.elemOffsets.map (regByte x))))).rf ∧
            (s.tile? g n = some u → t.tile? g n = some { u with state := .valid })) ∧
          m.flags = (if suspect then 2 ^ 41 else 0) + (if stale.isSome then 2 ^ 40 else 0) ∧
          t.op? s.nextId = some ⟨s.cur, h.tag.toNat, x.bank, x.ctl.em, .matrix m⟩ ∧
          y.tags.find? h.tag.toNat = some ⟨some s.nextId, h.look.toNat, {}, dstRegs i, false⟩ ∧
          (m.which, m.core, m.arr, m.slot, m.fb, m.pc, m.d, m.rows, m.metaA, m.metaB, m.gaddr, m.bad) =
            (which, g, an, slot, b, x.ctl.pc, d, codes, mA.map word, mB.map word, heads, none) ∧
          m.acc = (List.range 8).map (fun j => x.vreg (d + j)) ∧
          m.res = (match rt with | some (t, bytes) => ((t.codes bytes).flatten.map fun c => BitVec.ofNat 32 c) | none => []) ∧
          (mA ++ mB ≠ [] → m.stage = 0 ∧ y.state = .waiting ∧ y.wait = .ops [s.nextId]) ∧
          (mA ++ mB = [] → which = 1 → m.stage = 1 ∧ (slotOpen s s.nextId m = true → y.state ≠ .waiting) ∧
            (slotOpen s s.nextId m = false → y.state = .waiting ∧ y.wait = .ops [s.nextId]) ∧ ∀ a ∈ heads, ∃ k ∈ (t.core g).locks,
              k.2 = ⟨.gather s.nextId, x.seat.tag, true, a, a + len - 1, false, false⟩) ∧
          (mA ++ mB = [] → which ≠ 1 → (slotOpen s s.nextId m = true → m.stage = 3 ∧ ((t.arr g an).slot slot).op = some s.nextId ∧ y.state ≠ .waiting) ∧
            (slotOpen s s.nextId m = false → m.stage = 2 ∧ y.state = .waiting ∧ y.wait = .ops [s.nextId] ∧ t.arr g an = r))))) ∧
  (∀ s op c tag b em m x, s.op? op = some ⟨c, tag, b, em, .matrix m⟩ → s.crew? c = some x →
    (m.stage = 0 → m.which = 1 → ∃ t, exec (.metadataReadDone op) s = .next t ∧ t.op? op = some ⟨c, tag, b, em, .matrix { m with stage := 1 }⟩ ∧
      ∃ y, t.crew? c = some y ∧ (slotOpen s op m = true → x.state = .waiting → x.wait = .ops [op] → y.state = .ready) ∧
        (slotOpen s op m = false → y = x)) ∧
    (m.stage = 1 → slotOpen s op m = true → ∃ t y, exec (.matrixSlotTake op) s = .next t ∧ t.op? op = s.op? op ∧ t.crew? c = some y ∧
      (x.state = .waiting → x.wait = .ops [op] → y.state = .ready) ∧ ∀ g a, t.arr g a = s.arr g a) ∧
    (m.stage = 0 → m.which ≠ 1 → slotOpen s op m = true → ∃ t, exec (.metadataReadDone op) s = .next t ∧ takes s t op m c x.seat.cid) ∧
    (m.stage = 2 → slotOpen s op m = true → ∃ t, exec (.matrixSlotTake op) s = .next t ∧ takes s t op m c x.seat.cid) ∧
    (m.stage = 1 → m.which = 1 → (∀ e ∈ (s.core m.core).locks, e.2.owner = .gather op → e.2.live = true) →
      (∀ h ∈ m.gaddr, ∀ j < ceilDiv (Fb.rowBits m.fb) 8, let k := s.arr m.core ((h + j) / 0x40000)
        (k.state = .storage ∨ k.state = .reefing) ∧ k.flips = []) →
      ∃ t m', exec (.mmagLatchFull op) s = .next t ∧ t.op? op = some ⟨c, tag, b, em, .matrix m'⟩ ∧
        m'.rows = m.gaddr.map (fun h => (List.range (Fb.codes m.fb)).map (packedCode (fmtWidth (Fb.fmtA m.fb))
          (ofBytes ((List.range (ceilDiv (Fb.rowBits m.fb) 8)).map fun j => (s.arr m.core ((h + j) / 0x40000)).byte ((h + j) % 0x40000))))) ∧
        { m' with rows := m.rows, bad := m.bad, stage := 1 } = m ∧ (m'.stage = 2 ∨ m'.stage = 3) ∧
        (m'.bad.isSome = true ↔ ∃ q ∈ m'.rows.mapIdx (fun j c => decodeRow m.fb m.metaA j c), ∃ e ∈ q, e.finite = false) ∧
        ∀ e ∈ (t.core m.core).locks, e.2.owner ≠ .gather op))

/-- A matrix instruction that holds its slot, with no fault injected: the operation completes and the slot is free, whatever timing replays are
counted. Its result holds, for each row m below MROWS and each column n, in lane 64 (m mod 2) + n of register D + m / 2, the value of R235
drained by R240, and no other lane: from the accumulator element (or -0), the blocks in K order, each the sum over the block of A(m, k) times the
cell weight (k, n), scaled by both blocks' scales and units, rounded once to FP32 and added. In the exact class (unchecked or with a right riser
column) the sums are exact; in an approximate class each is within R203's bound, the error free (log 2). An MMAD whose latch fits applies the deltas
beyond THETA instead of A, and its latch takes the codes applied; sampled, it compares with a full pass (R211), whose values and rows replace its own
on a discrepancy under REPL. A bound entry traps at the lowest element outside (action 2), or is marked and clamps (action 1). Checks that fail in
every attempt replay twice; then CHECKSUM_MISMATCH is held, or with FAILM 1 the values and DTILE SUSPECT. A gathered code that is not finite gives
DATA_ERROR at the instruction's address (R239; R50 and R233 name the row: log 25). MXST holds what R241 says. Which latch binds is log 23. -/
def Obligations.MatrixResults : Prop :=
  (∀ s op c tag bank em m x replays, s.op? op = some ⟨c, tag, bank, em, .matrix m⟩ → s.crew? c = some x → x.state ≠ .draining → m.stage = 3 →
    m.bad = none → m.d + 7 < 320 →
    let b := m.fb
    let r := s.arr m.core m.arr
    let sg := fmtSigned (Fb.fmtB b)
    let e := countBound (Fb.blk b) (Fb.rep b)
    (∃ i < 2, ∃ j < 2, ∃ k < 2, m.flags = i * 2 ^ 34 + j * 2 ^ 40 + k * 2 ^ 41) →
    0 < Fb.mrows b → Fb.mrows b ≤ 16 → m.rows.length = Fb.mrows b → (∀ q ∈ m.rows, q.length = Fb.codes b) → r.pass = none →
    let elems := m.rows.mapIdx fun j q => decodeRow b m.metaA j q
    let A (i k : Nat) : Int := ((inputRows elems (Fb.klen b)).getD i []).getD k 0
    let span (j : Nat) : List Nat := List.range' (Fb.blk b * j) (min (Fb.klen b) (Fb.blk b * (j + 1)) - Fb.blk b * j)
    let S (R : Nat → Nat → Int) (i n j : Nat) : Int := ((span j).map fun k => R i k * r.weight m.slot r.pb sg k n).sum
    let riserOk : Prop := Fb.chk b ≠ 0 → ∀ k < Fb.klen b, r.riser m.slot r.pb k = ((List.range 64).map fun n => r.weight m.slot r.pb sg k n).sum
    let y0 (i n : Nat) : Nat := if Fb.acc b then accAt m.acc i n else negZero
    let total (T : Nat → Nat → Nat → Int) (y i n : Nat) : FRes := accumulate b m.metaA m.metaB ⟨T, fun _ _ => 0, fun _ _ => 0⟩ y i n
    let drained (v : FRes) (i n : Nat) : Nat := (drainValue b m.res i n v).bits
    let cid := x.seat.cid
    -- the latch fits (R209), its integers, the deltas applied (R208, R210) and their planes
    let fits (l : Latch) : Prop := m.which = 2 ∧ l.fmt = Fb.fmtA b ∧ l.klen = Fb.klen b ∧ l.mrows = Fb.mrows b ∧ l.bl = Fb.blk b ∧
      fmtWidth (Fb.fmtA b) ≤ 8 ∧ l.words = m.metaA
    let old (l : Latch) (i k : Nat) : Int := ((inputRows (l.rows.mapIdx fun j q => decodeRow b l.words j q) (Fb.klen b)).getD i []).getD k 0
    let D (l : Latch) (i k : Nat) : Int := if (A i k - old l i k).natAbs ≤ Fb.theta b then 0 else A i k - old l i k
    let planes (l : Latch) (j : Nat) : Nat := ((List.range 16).flatMap fun i => (span j).map fun k => planesFor (D l i k)).foldl max 0
    let few (l : Latch) : Prop := fits l ∧ (∀ q ∈ l.rows, q.length = Fb.codes b) ∧ l.rows.length = Fb.mrows b ∧
      ((List.range (Fb.nb b)).map (planes l)).sum < fmtPlanes (Fb.fmtA b) * Fb.nb b
    let full : Prop := ∀ l, r.latch? m.slot cid = some l → ¬fits l ∨ ((∀ q ∈ l.rows, q.length = Fb.codes b) ∧ l.rows.length = Fb.mrows b ∧
      fmtPlanes (Fb.fmtA b) * Fb.nb b ≤ ((List.range (Fb.nb b)).map (planes l)).sum)
    -- the operation ends: `h` is held for it with status `z`, and its pass was full, sampled, discrepant
    let ends (t : State) (h : Held) (z : MatEnd) (isFull sampled disc : Bool) : Prop :=
      exec (.matrixResult op replays) s = .next t ∧ t.op? op = none ∧ (t.arr m.core m.arr).cells = r.cells ∧ (InSlot s c tag → t.mem = s.mem) ∧
      (t.arr m.core m.arr).terep = min 65535 (r.terep + replays) ∧
      (∃ k, (t.arr m.core m.arr).slot m.slot = k ∧ k.op = none ∧ k.owner = cid ∧ (m.which = 2 → k.full = isFull ∧ k.samp = sampled) ∧ k.disc = ((r.slot m.slot).disc || disc)) ∧
      (∃ y, t.crew? c = some y ∧ y.rf = x.rf ∧ y.ctl = x.ctl ∧
        ∀ g, x.tags.find? tag = some g → g.op = some op → y.tags.find? tag = some { g with op := none, held := h }) ∧
      h.fp = 0 ∧ h.tile = none ∧ h.mat = some z ∧
      bits z.mxst.toNat 31 0 = m.pc.toNat % 2 ^ 32 ∧ z.mxst.toNat.testBit 32 = (e != 0) ∧
      z.mxst.toNat.testBit 39 = ((elems.any fun q => q.any fun v => v == .odd) || weightsOdd b r m.slot) ∧
      z.mxst.toNat.testBit 43 = disc ∧ z.mxst.toNat.testBit 44 = sampled ∧ z.mxst.toNat.testBit 45 = (m.which == 2 && isFull) ∧
      (∀ k, k = 34 ∨ k = 40 ∨ k = 41 → z.mxst.toNat.testBit k = m.flags.testBit k)
    let writes (h : Held) (v : Nat → Nat → Nat) : Prop :=
      (∀ i < Fb.mrows b, ∀ n < 64, ∃ lanes w, (∃ k, k.val = m.d + i / 2 ∧ RegWrite.v k bank lanes w ∈ h.regs) ∧
        lanes.getLsbD (64 * (i % 2) + n) = true ∧ w.get (64 * (i % 2) + n) = BitVec.ofNat 32 (v i n)) ∧
      ∀ w ∈ h.regs, ∃ k lanes v, w = .v k bank lanes v ∧ ∀ l, lanes.getLsbD l = true → m.d ≤ k.val ∧ 2 * (k.val - m.d) + l / 64 < Fb.mrows b
    let good (z : MatEnd) : Prop := z.fault = none ∧ z.dtile = (if Fb.dte b then some (Fb.dtile b, 1) else none) ∧
      bits z.mxst.toNat 63 46 = 0 ∧ z.mxst.toNat.testBit 42 = false
    let latched (t : State) (rows : Nat → Nat → Nat) (count : Nat) : Prop := fmtWidth (Fb.fmtA b) ≤ 8 → r.state = .compute →
      ∃ l, (t.arr m.core m.arr).latch? m.slot cid = some l ∧ (l.words, l.fmt, l.klen, l.mrows, l.bl, l.dcount) =
        (m.metaA, Fb.fmtA b, Fb.klen b, Fb.mrows b, Fb.blk b, count) ∧ ∀ i < Fb.mrows b, ∀ k < Fb.codes b, codeAt l.rows i k = rows i k
    -- a full pass in the exact class
    (full → e = 0 → riserOk → Fb.bnde b = false → ∃ t h z, ends t h z true false false ∧ good z ∧
      writes h (fun i n => drained (total (S A) (y0 i n) i n) i n) ∧ latched t (codeAt m.rows) 0) ∧
    -- a full pass in an approximate class
    (full → e ≠ 0 → riserOk → Fb.bnde b = false → ∃ t h z T, ends t h z true false false ∧ good z ∧
      (∀ i < 16, ∀ n < 64, ∀ j < Fb.nb b,
        (T i n j - S A i n j).natAbs ≤ e * (2 ^ fmtPlanes (Fb.fmtA b) - 1) * (2 ^ r.pb - 1)) ∧
      writes h (fun i n => drained (total T (y0 i n) i n) i n)) ∧
    -- a delta pass, sampled or not
    (∀ l, r.latch? m.slot cid = some l → few l → e = 0 → riserOk → Fb.bnde b = false →
      let sampled : Bool := decide (Fb.sper b ≠ 0 ∧ l.dcount + 1 = 2 ^ Fb.sper b)
      let dv (i n : Nat) : FRes := total (S (D l)) (y0 i n) i n
      let fv (i n : Nat) : FRes := total (S A) negZero i n
      ∃ t h z disc, ends t h z false sampled disc ∧ good z ∧
        (disc = true → sampled = true) ∧
        (sampled = true → (∀ i < Fb.mrows b, ∀ n < 64, f32Finite (dv i n).bits ∧ f32Finite (fv i n).bits) →
          (disc = true ↔ ∃ i < Fb.mrows b, ∃ n < 64, ∀ n' < 64,
            (f32Units (fv i n').bits).natAbs < 65536 * (f32Units (fv i n).bits - f32Units (dv i n).bits).natAbs)) ∧
        (∀ i n, sampled = true → i < Fb.mrows b → n < 64 → (fmtF32.read (dv i n).bits).isNan ≠ (fmtF32.read (fv i n).bits).isNan → disc = true) ∧
        writes h (fun i n => drained (if disc && Fb.repl b then fv i n else dv i n) i n) ∧
        latched t (fun i k => if (disc && Fb.repl b) = false ∧ D l i k = 0 then codeAt l.rows i k else codeAt m.rows i k)
          (if sampled then 0 else l.dcount + 1)) ∧
    -- a bound entry in the drain
    (∀ u, full → e = 0 → riserOk → Fb.bnde b = true → s.ctx? x.seat.tag = some u → (∀ v ∈ u.updates, v.2.1 ≠ Fb.bidx b) →
      let bd := u.bounds.getD (Fb.bidx b) Bound.cleared
      let v (i n : Nat) : Nat := drained (total (S A) (y0 i n) i n) i n
      let out (i n : Nat) : Prop := i < Fb.mrows b ∧ n < 64 ∧ bd.outside (v i n) = true
      (∀ i n, bd.act = 2 → out i n → (∀ i' n', out i' n' → 256 * i + n ≤ 256 * i' + n') → ∃ t h z, ends t h z true false false ∧
        h.regs = [] ∧ z.dtile = none ∧ z.fault = some ⟨0x0C, BitVec.allOnes 128, BitVec.ofNat 64 (256 * i + n)⟩) ∧
      (bd.act ≠ 2 ∨ (∀ i n, ¬out i n) → ∃ t h z, ends t h z true false false ∧ good z ∧
        writes h (fun i n => if bd.act = 1 ∧ bd.outside (v i n) = true then bd.clamp (v i n) else v i n) ∧
        (z.mxst.toNat.testBit 35 = true ↔ ∃ i n, out i n) ∧
        ∀ i n, out i n → ∃ u', t.ctx? x.seat.tag = some u' ∧ u'.bounds.getD (Fb.bidx b) Bound.cleared = { bd with hit := true })) ∧
    -- checks that fail in every attempt: two rows of a block disagree with the riser column
    (∀ j i i', full → e = 0 → Fb.bnde b = false → Fb.chk b ≠ 0 → 0 < fmtPlanes (Fb.fmtA b) → j < Fb.nb b → i < i' → i' < 16 →
      (∀ k < Fb.mrows b, Fb.metaA b = true → (scaleOf (Fb.scfA b) (metaScale (m.metaA.getD (k * Fb.nb b + j) 0))).isSome) →
      (∀ k < 64, Fb.metaB b = true → (scaleOf (Fb.scfB b) (metaScale (m.metaB.getD (k * Fb.nb b + j) 0))).isSome) →
      let wrong (q : Nat) : Prop := ((span j).map fun k => A q k * r.riser m.slot r.pb k).sum ≠ ((List.range 64).map fun n => S A q n j).sum
      wrong i → wrong i' → ∃ t h z, ends t h z true false false ∧ bits z.mxst.toNat 47 46 = 2 ∧ bits z.mxst.toNat 63 48 = 0 ∧
        z.mxst.toNat.testBit 42 = true ∧ (t.core m.core).ctr.ckrep = sat32 ((s.core m.core).ctr.ckrep + 2) ∧
        (t.core m.core).ctr.ckfail = sat32 ((s.core m.core).ctr.ckfail + 1) ∧
        (Fb.failm b = false → h.regs = [] ∧ z.dtile = none ∧ z.fault = some ⟨0x0B, BitVec.allOnes 128, m.pc⟩) ∧
        (Fb.failm b = true → z.fault = none ∧ z.dtile = (if Fb.dte b then some (Fb.dtile b, 3) else none) ∧
          writes h (fun i n => drained (total (S A) (y0 i n) i n) i n)))) ∧
  (∀ s op c tag bank em m x replays q, s.op? op = some ⟨c, tag, bank, em, .matrix m⟩ → s.crew? c = some x → x.state ≠ .draining → m.stage = 3 →
    m.bad = some q → ∃ t y z, exec (.matrixResult op replays) s = .next t ∧ t.op? op = none ∧ t.mem = s.mem ∧ t.crew? c = some y ∧ y.rf = x.rf ∧
      ((t.arr m.core m.arr).slot m.slot).op = none ∧ z.fault = some ⟨0x0F, BitVec.allOnes 128, m.pc⟩ ∧ z.dtile = none ∧
      ∀ g, x.tags.find? tag = some g → g.op = some op → y.tags.find? tag = some { g with op := none, held := { mat := some z } }) ∧
  (∀ x p, (planesFor x = 0 ↔ x = 0) ∧ (0 < p → (planesFor x ≤ p ↔ -2 ^ (p - 1) ≤ x ∧ x < 2 ^ (p - 1))))

/-- For a tile of R rows and C columns of codes of at most 32 bits, and the checksums computed from them (R74): nothing disagrees, a
checked copy has OUT 0 and gives VALID, and a check finds OUT 0 and VALID. If one code is replaced by any other, exactly its row and its
column disagree and the crossing gives back the old code: a correcting copy (OUT 1) or TFIX (OUT 1) restores every code and leaves VALID,
a copy that may not correct or TCHK has OUT 2 and leaves SUSPECT. If one stored checksum is replaced by another value, OUT is 3, the
checksums are recomputed and the tile is VALID. A check of a STALE tile has OUT 5, the recomputed checksums and VALID, and its word counts the
rows and columns that disagreed. What a check rewrites is the bytes of the corrected element, or the wrong checksum word, or of a STALE
tile every checksum word, whole (R220). -/
def Obligations.TileChecksumsLocateErrors : Prop :=
  ∀ (t : Tile) (rows : List (List Nat)), t.state = .valid → rows.length = t.rows → (∀ r ∈ rows, r.length = t.cols) → 0 < t.rows → 0 < t.cols →
    (∀ r ∈ rows, ∀ c ∈ r, c < 2 ^ t.width) → t.width ≤ 32 → t.rows ≤ 128 → t.cols ≤ 1024 →
    let sums := codeChecksums rows t.cols
    let seen (q : List (List Nat)) (u : List Nat) : TileRead := ⟨[], q, u, false⟩
    (tileDiff t rows sums = ⟨[], [], none⟩ ∧ (∀ cor, copyEnd t (seen rows sums) cor = ⟨0, rows, sums, .valid, 0⟩) ∧
      ∀ fix, (checkEnd t rows sums fix).out = 0 ∧ (checkEnd t rows sums fix).state = .valid ∧ (checkEnd t rows sums fix).rows = rows) ∧
    (∀ r c new, r < t.rows → c < t.cols → new < 2 ^ t.width → new ≠ codeAt rows r c →
      let bad := putCode rows (r, c, new)
      (tileDiff t bad sums).found = some (r, c, codeAt rows r c) ∧ (tileDiff t bad sums).rows.map (·.1) = [r] ∧
      (tileDiff t bad sums).cols.map (·.1) = [c] ∧
      ((copyEnd t (seen bad sums) true).out = 1 ∧ (copyEnd t (seen bad sums) true).rows = rows ∧ (copyEnd t (seen bad sums) true).state = .valid) ∧
      ((copyEnd t (seen bad sums) false).out = 2 ∧ (copyEnd t (seen bad sums) false).state = .suspect) ∧
      ((checkEnd t bad sums true).out = 1 ∧ (checkEnd t bad sums true).rows = rows ∧ (checkEnd t bad sums true).state = .valid ∧
        (checkEnd t bad sums true).words = [] ∧ (checkEnd t bad sums true).elems =
          List.range' (r * t.rowBytes + c * t.width / 8) (ceilDiv (c * t.width % 8 + t.width) 8)) ∧
      ((checkEnd t bad sums false).out = 2 ∧ (checkEnd t bad sums false).state = .suspect)) ∧
    (∀ k v, k < t.rows + t.cols → v < 2 ^ 32 → v ≠ sums.getD k 0 → let wrong := sums.set k v
      (∀ cor, (copyEnd t (seen rows wrong) cor).out = 3 ∧ (copyEnd t (seen rows wrong) cor).sums = sums ∧
        (copyEnd t (seen rows wrong) cor).state = .valid) ∧
      ∀ fix, (checkEnd t rows wrong fix).out = 3 ∧ (checkEnd t rows wrong fix).sums = sums ∧ (checkEnd t rows wrong fix).state = .valid ∧
        (checkEnd t rows wrong fix).words = [k] ∧ (checkEnd t rows wrong fix).elems = []) ∧
    (∀ stored fix, let e := checkEnd { t with state := .stale } rows stored fix; let d := tileDiff t rows stored
      e.out = 5 ∧ e.state = .valid ∧ e.rows = rows ∧ e.sums = sums ∧ e.elems = [] ∧ e.words = List.range (t.rows + t.cols) ∧
      bits e.word 63 53 = d.cols.length ∧ bits e.word 52 45 = d.rows.length ∧ bits e.word 44 28 = 0 ∧ bits e.word 6 4 = 1 ∧ bits e.word 3 0 = 5)

/-- TLDM from a memory tile to a register tile of the same shape and format, both the group's own, with its accesses passing, nothing
poisoned, in the queue as an atomic, injected, refused or waiting: it completes its issue with a copy in flight that holds the status
word, and the codes and checksums of the checked copy for the destination's registers, which take the copy's state. TSTM the other way
takes a place in the queue (else it waits) with the copy's bytes for every element and checksum, the destination entry to take the state
when it completes; where the destination is not bounded. TSTP takes a place in the queue with, for each active lane, the element's bytes,
its bit offset and new code, and the bytes of its row and column checksum; outside the tile it raises PROTECTION. An entry not the group's
own raises DATA_ERROR with its number. A copy's end gives its entry the state, counts a correction and holds the result. No register, flag
or byte of memory changes at issue. The model's choice: the bytes a copy reads are those held at its issue (log 13), a row's pad bits stay
(log 16), and the TLANES of a TSTP with a lane outside the tile name also the lanes that fail step 3 of R163 by their address (log 69). -/
def Obligations.TileCopiesMove : Prop :=
  let own (s : State) (x : Crew) (n : Nat) (t : Tile) : Prop := s.tile? x.seat.core n = some t ∧ t.group = x.seat.group ∧
    (t.space = 2 → t.crew = some s.cur)
  let lacks (s : State) (x : Crew) (n : Nat) : Prop := ∀ t, ¬own s x n t
  let same (a b : Tile) : Prop := a.rows = b.rows ∧ a.cols = b.cols ∧ a.fmt = b.fmt
  let noTag (x : Crew) (l : List Nat) : Prop := ∀ e ∈ x.tags, e.2.deferred = true ∨ ∀ r ∈ e.2.dst, r.1 = true → r.2 ∉ l
  let plain (s : State) (x : Crew) (ps : List Place) : Prop := queueBlocks x ps = [] ∧ (∀ p ∈ ps, placeBad s x.seat.core p = false) ∧
    (∀ pa va m, .glob pa va m ∈ ps → m.cached = true) ∧
    ∀ g a o, .win g a o ∈ ps → (s.arr g a).flips = [] ∧ (s.arr g a).state.busy = false
  (∀ h (o : TileCopy) s x, Ready (.tldm h o) s x → let i := Instr.tldm h o
    let di := (srcS s x o.a).toNat % 256; let si := (srcS s x o.b).toNat % 256
    (lacks s x si → Traps i s x ⟨0x0F, 1, BitVec.ofNat 64 si⟩) ∧
    ∀ src dst accs, own s x si src → src.space ≠ 2 → own s x di dst → dst.space = 2 → same src dst → noTag x dst.runRegs →
      checkTile (issOf i s x) s src false = .ok accs → plain s x (accs.flatMap (·.at_)) →
      let bytes := (accs.flatMap (·.at_)).map (readByte s x)
      let n := src.rows * src.rowBytes
      let e := copyEnd src ⟨bytes.take n, src.codes (bytes.take n), bytesWords (src.rows + src.cols) (bytes.drop n), false⟩ o.cor
      let new := dst.elemOffsets.zip (dst.elemBytes e.rows (dst.elemOffsets.map (regByte x))) ++ dst.sumOffsets.zip (e.sums.flatMap (toBytes 4))
      ∃ t y, exec i s = .next t ∧ t.crew? s.cur = some y ∧ y.rf = x.rf ∧ y.ctl = nextPc x ∧ y.sq = x.sq ∧ t.mem = s.mem ∧ OthersKept s t ∧
        t.op? s.nextId = some ⟨s.cur, h.tag.toNat, x.bank, x.ctl.em, .tileCopy ⟨{ regs := (resS x o.d (BitVec.ofNat 64 e.word)).regs ++ regWrites x new
                                                                                  tile := some (di, some (e.state, 0)) }, [si, di], none, e.out == 1, false⟩⟩ ∧
        y.tags.find? h.tag.toNat = some ⟨some s.nextId, h.look.toNat, {}, dstRegs i ++ dst.runRegs.map fun r => (true, r), false⟩) ∧
  (∀ h (o : TileCopy) s x, Ready (.tstm h o) s x → let i := Instr.tstm h o
    let di := (srcS s x o.a).toNat % 256; let si := (srcS s x o.b).toNat % 256
    (lacks s x si → Traps i s x ⟨0x0F, 1, BitVec.ofNat 64 si⟩) ∧
    ∀ src dst, own s x si src → src.space = 2 → own s x di dst → dst.space ≠ 2 → same src dst →
      (32 ≤ x.sq.length → exec i s = .next (toWaiting (useLines s s.cur x i) s.cur .queueSpace)) ∧
      ∀ accs, x.sq.length < 32 → checkTile (issOf i s x) s dst true = .ok accs → dst.ben = false →
        let elems := src.elemOffsets.map (regByte x)
        let e := copyEnd src ⟨elems, src.codes elems, bytesWords (src.rows + src.cols) (src.sumOffsets.map (regByte x)), false⟩ o.cor
        let old := if dst.cols * dst.width % 8 = 0 then List.replicate (dst.rows * dst.rowBytes) 0
          else ((accs.flatMap (·.at_)).take (dst.rows * dst.rowBytes)).map (readByte s x)
        let bytes := dst.elemBytes e.rows old ++ e.sums.flatMap (toBytes 4)
        (accs.flatMap (·.at_)).zip bytes ≠ [] →
        ∃ t y, exec i s = .next t ∧ t.crew? s.cur = some y ∧ y.rf = x.rf ∧ y.ctl = nextPc x ∧ t.mem = s.mem ∧ OthersKept s t ∧
          y.sq = x.sq ++ [⟨.tile ((accs.flatMap (·.at_)).zip bytes) o.mm.ch.toNat, s.nextId⟩] ∧
          t.op? s.nextId = some ⟨s.cur, h.tag.toNat, x.bank, x.ctl.em,
            .tileCopy ⟨resS x o.d (BitVec.ofNat 64 e.word), [si, di], some (.take di e.state 0), e.out == 1, false⟩⟩) ∧
  (∀ h (o : TilePut) s x, Ready (.tstp h o) s x → let i := Instr.tstp h o; let n := (srcS s x o.a).toNat % 256; let ls := activeLanes x.ctl.em
    let row (l : Nat) : Nat := bits (srcL x 32 o.b l) 22 16; let col (l : Nat) : Nat := bits (srcL x 32 o.b l) 9 0
    let req (t : Tile) : Req := ⟨t.space, 1, true, ls.flatMap (fun l => putPieces t l (row l) (col l)), fun _ => false⟩
    (ls = [] → Sets i s x x.rf (nextPc x)) ∧ (ls ≠ [] → lacks s x n → Traps i s x ⟨0x0F, x.ctl.em, BitVec.ofNat 64 n⟩) ∧
    ∀ t, ls ≠ [] → own s x n t → t.space ≠ 2 →
      (32 ≤ x.sq.length → exec i s = .next (toWaiting (useLines s s.cur x i) s.cur .queueSpace)) ∧
      (x.sq.length < 32 → let out := ls.filter fun l => decide (t.rows ≤ row l) || decide (t.cols ≤ col l)
        (out ≠ [] → ∃ l ∈ out, ∃ m : Mask, (∀ k ∈ out, srcL x 32 o.b l ≤ srcL x 32 o.b k) ∧
          (∀ k < 128, m.getLsbD k = true ↔ k ∈ out ∨ (k ∈ ls ∧ k ∉ out ∧
            ∃ p ∈ putPieces t k (row k) (col k), (pieceEnd s x (req t) p).1 = 3)) ∧
          Traps i s x ⟨0x04, m, BitVec.ofNat 64 (srcL x 32 o.b l)⟩) ∧
        ∀ accs, out = [] → t.ben = false → checkAccess s x (req t) = .ok accs →
          ∃ els, Queues i s x none (.lanes 0) (.put { els := els }) ∧ els.map (·.lane) = ls ∧ ∀ e ∈ els, e.width = t.width ∧
            e.bit = col e.lane * t.width % 8 ∧ e.code = srcL x 32 o.c e.lane % 2 ^ t.width ∧
            (∃ a ∈ accs, a.lane = e.lane ∧ a.ea = (t.csum + 4 * row e.lane) % 2 ^ 64 ∧ e.rowAt = a.at_) ∧
            (∃ a ∈ accs, a.lane = e.lane ∧ a.ea = (t.csum + 4 * (t.rows + col e.lane)) % 2 ^ 64 ∧ e.colAt = a.at_) ∧
            e.at_ = ((accs.filter fun a => a.lane == e.lane).take (ceilDiv (col e.lane * t.width % 8 + t.width) 8)).flatMap (·.at_))) ∧
  (∀ s o c tag b em v x, s.op? o = some ⟨c, tag, b, em, .tileCopy v⟩ → s.crew? c = some x → x.state ≠ .draining →
    ∃ t y, exec (.tileCopyDone o) s = .next t ∧ t.op? o = none ∧ t.crew? c = some y ∧ y.rf = x.rf ∧ y.ctl = x.ctl ∧
      (InSlot s c tag → t.mem = s.mem) ∧
      (∀ r, x.tags.find? tag = some r → r.op = some o → y.tags.find? tag = some { r with op := none, held := v.held }) ∧
      (t.core x.seat.core).ctr = { (s.core x.seat.core).ctr with
        ckcor := if v.corrected then min ((s.core x.seat.core).ctr.ckcor + 1) (2 ^ 32 - 1) else (s.core x.seat.core).ctr.ckcor } ∧
      (∀ n st k e, v.set = some (.take n st k) → s.tile? x.seat.core n = some e →
        t.tile? x.seat.core n = some { e with state := st, ncor := min 255 (e.ncor + k) }) ∧
      (v.set = none → ∀ n, t.tile? x.seat.core n = s.tile? x.seat.core n))

/-- TDECL of a readable descriptor (aligned to 64, else MISALIGN): the lowest status code of R218's table whose condition holds is its result,
0 when none does; with code 0 and no INIT the entry is filled from the record, VALID, the group's own. TFREE frees its own entry when it completes, and an entry not its
own not at all. TCHK and TFIX of an entry not their own give 0; of a register tile that no outstanding tag overlaps they begin a check
whose result is the word, the writes and the state that R220 and R221 give. BNDSET and BNDCLR begin an update of the context's entries,
BNDCLR with the hit flags as they stand (of an entry whose update is under way, those of the old and the new entry); TILE_INSTRUCTION_DONE ends a tile instruction unless it names an entry in use or its writes are
still queued, and BOUND_UPDATE_DONE makes the new entries current. No register or byte of memory changes at issue. The model's choice: the
entry is filled at TDECL's issue (log 20), the bytes are those held at issue (log 13), and the old entry's flag is seen or not while an update
is under way (log 2). -/
def Obligations.TileTableAndBounds : Prop :=
  let own (s : State) (x : Crew) (n : Nat) : Option Tile := ownedTile ⟨s.cur, x, ⟨false, 0, 0, 0, none⟩, x.ctl.pc, []⟩ s n
  let tells (i : Instr) (s : State) (x : Crew) (v : TileEnd) : Prop := Starts i s x (.tileInstr v)
  (∀ h (o : TileDecl) s x, Ready (.tdecl h o) s x → let i := Instr.tdecl h o; let da := (srcS s x o.a).toNat; let n := (srcS s x o.b).toNat % 256
    (da % 64 ≠ 0 → Traps i s x ⟨0x02, 1, BitVec.ofNat 64 da⟩) ∧
    ∀ accs, da % 64 = 0 → checkAccess s x { space := 0, align := 1, write := false, pieces := runPieces da 64 } = .ok accs →
      let ps := accs.flatMap (·.at_)
      queueBlocks x ps = [] → (∀ p ∈ ps, placeBad s x.seat.core p = false) → (∀ pa va m, .glob pa va m ∈ ps → m.cached = true) →
      let d := ofBytes (ps.map (readByte s x))
      let e := tileOfRecord d x.seat s.cur o.rcmp
      let code := declCode (issOf i s x) s n d e
      let sp := bits d 31 30; let R := bits d 23 16; let C := bits d 10 0; let P := bits d 223 192; let B := bits d 127 64; let S := bits d 191 128
      let rb := ceilDiv (C * tileWidth (bits d 29 24)) 8
      let el := List.range' B (ceilDiv (R * P) 512); let cs := List.range' S (ceilDiv (R + C) 128)
      let cond (k : Nat) : Prop := match k with
        | 1 => (s.tile? x.seat.core n).isSome = true
        | 2 => bits d 511 224 ≠ 0 ∨ bits d 63 39 ≠ 0 ∨ bits d 15 11 ≠ 0 ∨ (bits d 38 33 ≠ 0 ∧ d.testBit 32 = false)
        | 3 => tileWidth (bits d 29 24) = 0 ∨ sp = 3
        | 4 => R = 0 ∨ 128 < R ∨ C = 0 ∨ 1024 < C
        | 5 => P < rb ∨ if sp = 2 then 319 < B ∨ 319 < S ∨ (P ∉ [16, 32, 64, 128, 256] ∧ P % 512 ≠ 0)
          else P % 16 ≠ 0 ∨ B % 16 ≠ 0 ∨ S % 16 ≠ 0
        | 6 => sp = 2 ∧ ∃ r ∈ el ++ cs, x.seat.nv ≤ r ∨ (r ∈ el ∧ r ∈ cs) ∨
          ∃ q ∈ (s.core x.seat.core).tiles, q.2.space = 2 ∧ q.2.crew = some s.cur ∧ r ∈ q.2.runRegs
        | 7 => sp = 1 ∧ ∃ p ∈ e.elemPieces ++ e.sumPieces, ∀ a o, windowAt s x.seat.group x.seat.core p.ea ≠ .at_ (.win x.seat.core a o)
        | _ => False
      (code = 0 ∨ cond code) ∧ (∀ k, cond k → code ≠ 0 ∧ code ≤ k) ∧
      (code ≠ 0 → tells i s x ⟨resS x o.d (BitVec.ofNat 64 code), [], none, false, false⟩) ∧
      (code = 0 → o.init = false → ∃ t, Begins i s x (.tileInstr ⟨resS x o.d 0, [], none, false, false⟩) t ∧ OthersKept s t ∧
        t.tile? x.seat.core n = some e ∧ (∀ k, k ≠ n → t.tile? x.seat.core k = s.tile? x.seat.core k) ∧ e.state = .valid ∧
        e.group = x.seat.group ∧ e.rows = bits d 23 16 ∧ e.cols = bits d 10 0 ∧ e.fmt = bits d 29 24 ∧ e.space = bits d 31 30 ∧
        e.base = bits d 127 64 ∧ e.csum = bits d 191 128 ∧ e.pitch = bits d 223 192 ∧ e.ben = d.testBit 32 ∧ e.bidx = bits d 38 33)) ∧
  (∀ h (o : Src) s x, Ready (.tfree h o) s x → let n := (srcS s x o.a).toNat % 256
    (own s x n = none → tells (.tfree h o) s x ⟨{}, [], none, false, false⟩) ∧
    ((own s x n).isSome = true → dtileTags s s.cur n = [] → tells (.tfree h o) s x ⟨{}, [n], some (.free n), false, false⟩)) ∧
  (∀ p ∈ ([(Instr.tchk, false), (Instr.tfix, true)] : List ((Hdr → DA → Instr) × Bool)), ∀ h (o : DA) s x, Ready (p.1 h o) s x →
    let i := p.1 h o; let n := (srcS s x o.a).toNat % 256
    (own s x n = none → tells i s x ⟨resS x o.d 0, [], none, false, false⟩) ∧
    ∀ t, own s x n = some t → t.space = 2 → (∀ e ∈ x.tags, e.2.deferred = true ∨ ∀ r ∈ e.2.dst, r.1 = true → r.2 ∉ t.runRegs) →
      let eb := t.elemOffsets.map (regByte x)
      let sb := t.sumOffsets.map (regByte x)
      let sums := bytesWords (t.rows + t.cols) sb
      let e := checkEnd t (t.codes eb) sums p.2
      let new := e.sums.flatMap (toBytes 4)
      let l := e.elems.map (fun j => (t.elemOffsets.getD j 0, (t.elemBytes e.rows eb).getD j 0)) ++
        (e.words.flatMap fun k => (List.range 4).map fun j => 4 * k + j).map fun j => (t.sumOffsets.getD j 0, new.getD j 0)
      ∃ u y, exec i s = .next u ∧ u.crew? s.cur = some y ∧ y.rf = x.rf ∧ y.ctl = nextPc x ∧ u.mem = s.mem ∧ OthersKept s u ∧
        u.op? s.nextId = some ⟨s.cur, h.tag.toNat, x.bank, x.ctl.em, .tileInstr ⟨{ regs := (resS x o.d (BitVec.ofNat 64 e.word)).regs ++ regWrites x l
                                                                                   tile := some (n, some (e.state, (e.out == 1).toNat)) }, [], none, e.out == 1, false⟩⟩) ∧
  (∀ h (o : BndSet) s x u, Ready (.bndset h o) s x → s.ctx? x.seat.tag = some u → let n := (srcS s x o.a).toNat % 64
    ∃ t, Begins (.bndset h o) s x (.bound x.seat.tag n {}) t ∧ OthersKept s t ∧ t.ctx? x.seat.tag = some { u with updates := u.updates ++
      [(s.nextId, n, ⟨o.kind.toNat, o.act.toNat, (srcS s x o.b).setWidth 32, (srcS s x o.c).setWidth 32, false⟩)] } ∧
      ∀ k, k ≠ x.seat.tag → t.ctx? k = s.ctx? k) ∧
  (∀ h (o : DA) s x u, Ready (.bndclr h o) s x → s.ctx? x.seat.tag = some u → ∃ w t,
    Begins (.bndclr h o) s x (.bound x.seat.tag 64 (resS x o.d (BitVec.ofNat 64 w))) t ∧ OthersKept s t ∧
      (∀ j < 64, (∀ v ∈ u.updates, v.2.1 ≠ j) → w.testBit j = (u.bounds.getD j Bound.cleared).hit) ∧
      (∀ j < 64, (∃ v ∈ u.updates, v.2.1 = j ∧ v.2.2.hit = true) → w.testBit j = true) ∧
      (∀ j < 64, (u.bounds.getD j Bound.cleared).hit = false → (∀ v ∈ u.updates, v.2.1 = j → v.2.2.hit = false) → w.testBit j = false) ∧
      t.ctx? x.seat.tag = some { u with
        updates := u.updates ++ (((List.range 64).filter fun j => (srcS s x o.a).getLsbD j).map fun j => (s.nextId, j, Bound.cleared)) }) ∧
  (∀ s o c tag b em v x, s.op? o = some ⟨c, tag, b, em, .tileInstr v⟩ → s.crew? c = some x → x.state ≠ .draining →
    (∀ n ∈ v.names, tileUsers s x.seat.core n = [] ∧ tileInRecord s x.seat.core n = false) →
    (v.drains = true → ∀ q ∈ x.sq, q.op ≠ o) →
    ∃ t y, exec (.tileInstructionDone o) s = .next t ∧ t.op? o = none ∧ t.crew? c = some y ∧ y.rf = x.rf ∧ y.ctl = x.ctl ∧
      (InSlot s c tag → t.mem = s.mem) ∧
      (∀ r, x.tags.find? tag = some r → r.op = some o → y.tags.find? tag = some { r with op := none, held := v.held }) ∧
      (∀ n, v.set = some (.free n) → t.tile? x.seat.core n = none ∧ ∀ k, k ≠ n → t.tile? x.seat.core k = s.tile? x.seat.core k)) ∧
  (∀ s o c tag b em g n h u, s.op? o = some ⟨c, tag, b, em, .bound g n h⟩ → s.ctx? g = some u →
    (∀ e ∈ u.updates, ∀ e' ∈ u.updates, e.1 = o → e'.1 = o → e.2.1 = e'.2.1 → e = e') →
    ∃ t v, exec (.boundUpdateDone o) s = .next t ∧ t.op? o = none ∧ (InSlot s c tag → t.mem = s.mem) ∧ t.ctx? g = some v ∧
      v.updates = u.updates.filter (fun e => e.1 != o) ∧
      (∀ e ∈ u.updates, e.1 = o → v.bounds.getD e.2.1 Bound.cleared = e.2.2) ∧
      ∀ k, (∀ e ∈ u.updates, e.1 = o → e.2.1 ≠ k) → v.bounds.getD k Bound.cleared = u.bounds.getD k Bound.cleared)

/-- CHAIN with a head that is not a multiple of 64 raises MISALIGN; with one outside the arrays its group holds, or CEN and a barrier
beyond the group's count, PROTECTION; else it is in flight after the crew's queue and loads, with a free context if there is one, and
otherwise the crew waits. CHAIN_START gives a waiting CHAIN a freed context; one with a context, once everything before it is done, drains
the core to home memory, makes the context a running chain at the head, counts its GEN and finishes the CHAIN with the handle GEN × 8 +
CTX under its tag. CHQ gives the status word: window address, GEN, ECODE and STATE of the chain that the handle names for the crew's
group, 0 when it names none. CHSTOP gives 0 for such a handle; else the chain is stopping with ECODE 8 unless a stop is already in
progress, and the instruction holds the word as it stood. No register and no other crew changes. That a CHAIN without a context holds its
crew once it has issued is the model's choice (log 33). -/
def Obligations.ChainInstructions : Prop :=
  let names (s : State) (x : Crew) (h : Nat) (c : ChainCtx) : Prop := h < 2 ^ 19 ∧ (s.core x.seat.core).gens.getD (h % 8) 0 = h / 8 ∧
      s.chain? x.seat.core (h % 8) = some c ∧ c.group = x.seat.group
  let word (h : Nat) (c : ChainCtx) : DWord := BitVec.ofNat 64 (c.addr % 2 ^ 32 * 2 ^ 32 + h / 8 * 2 ^ 16 +
      ((c.work.bind (·.fail)).getD 0) % 16 * 2 ^ 8 + match c.state with
        | .running => 1
        | .waiting => 2
        | .parked => 3
        | .stopping => 4)
  (∀ h (o : DAB) s x gr, Ready (.chain h o) s x → s.group? x.seat.group = some gr →
    let i := Instr.chain h o; let head := (srcS s x o.a).toNat % 2 ^ 32; let b := (srcS s x o.b).toNat; let name := b % 2048; let g := x.seat.core
    let out : Prop := 0x600000 ≤ head ∨ gr.holds (head / 0x40000) = false
    let kind (k : Option Nat) : OpKind := .chainStart head (if b.testBit 11 then some (gr.bar0 + name) else none) k o.d (earlierOps s s.cur)
    (head % 64 ≠ 0 → Traps i s x ⟨0x02, x.ctl.em, BitVec.ofNat 64 head⟩) ∧
    (head % 64 = 0 → out → Traps i s x ⟨0x04, x.ctl.em, BitVec.ofNat 64 head⟩) ∧
    (head % 64 = 0 → ¬out → b.testBit 11 = true → gr.nbar ≤ name → Traps i s x ⟨0x04, x.ctl.em, BitVec.ofNat 64 name⟩) ∧
    (head % 64 = 0 → ¬out → (b.testBit 11 = true → name < gr.nbar) →
      (∀ k, freeCtx s g = some k → k < 8 ∧ s.chain? g k = none ∧ Starts i s x (kind (some k))) ∧
      (freeCtx s g = none → ∃ t y, exec i s = .next t ∧ t.crew? s.cur = some y ∧ y.state = .waiting ∧ y.wait = .ops [s.nextId] ∧ y.rf = x.rf ∧
        y.ctl = nextPc x ∧ t.op? s.nextId = some ⟨s.cur, h.tag.toNat, x.bank, x.ctl.em, kind none⟩ ∧ t.mem = s.mem ∧ OthersKept s t))) ∧
  (∀ s o c tag b em addr cb d after x, s.op? o = some ⟨c, tag, b, em, .chainStart addr cb none d after⟩ → s.crew? c = some x →
    x.req.kill = none → ∀ k, freeCtx s x.seat.core = some k →
      exec (.chainStart o) s = .next (s.setOp o ⟨c, tag, b, em, .chainStart addr cb (some k) d after⟩)) ∧
  (∀ s o c tag b em addr cb k d after x, s.op? o = some ⟨c, tag, b, em, .chainStart addr cb (some k) d after⟩ → s.crew? c = some x →
    x.req.kill = none → k < 8 → after.any (opPending s c) = false → chainsRun s x.seat.tag x.seat.core = true →
    let g := x.seat.core; let gen := ((s.core g).gens.getD k 0 + 1) % 2 ^ 16
    ∃ t y, exec (.chainStart o) s = .next t ∧ t.crew? c = some y ∧ t.op? o = none ∧ y.rf = x.rf ∧ y.ctl = x.ctl ∧
      t.chain? g k = some ⟨.running, x.seat.group, x.seat.tag, addr, cb, [], none, none, none, false, []⟩ ∧
      (t.core g).gens.getD k 0 = gen ∧ (L1Up s g → InSlot s c tag → Drained s t g) ∧
      (∀ m, m ≠ k → t.chain? g m = s.chain? g m) ∧ (∀ e, e ≠ c → t.crew? e = s.crew? e) ∧
      ∀ r, x.state ≠ .draining → x.tags.find? tag = some r → r.op = some o →
        y.tags.find? tag = some { r with op := none, held := heldScalar b d (BitVec.ofNat 64 (gen * 8 + k)) }) ∧
    (∀ h (o : DA) s x, Ready (.chq h o) s x → let n := (srcS s x o.a).toNat
      (∀ c, names s x n c → Gives (.chq h o) s x (resS x o.d (word n c))) ∧
      ((∀ c, ¬names s x n c) → Gives (.chq h o) s x (resS x o.d 0))) ∧
    (∀ h (o : DA) s x, Ready (.chstop h o) s x → let n := (srcS s x o.a).toNat
      ((∀ c, ¬names s x n c) → Gives (.chstop h o) s x (resS x o.d 0)) ∧
      ∀ c, names s x n c → ∃ t y, exec (.chstop h o) s = .next t ∧ t.crew? s.cur = some y ∧ y.rf = x.rf ∧ y.ctl = nextPc x ∧
        t.op? s.nextId = some ⟨s.cur, h.tag.toNat, x.bank, x.ctl.em, .chainStop (resS x o.d (word n c))⟩ ∧
        y.tags.find? h.tag.toNat = some ⟨some s.nextId, h.look.toNat, {}, dstRegs (.chstop h o), false⟩ ∧
        t.chain? x.seat.core (n % 8) = some { c with
          stop := if c.stop = none then some 8 else c.stop
          state := .stopping
          stopOps := c.stopOps ++ [s.nextId] } ∧
        (∀ m, m ≠ n % 8 → t.chain? x.seat.core m = s.chain? x.seat.core m) ∧ t.mem = s.mem ∧ OthersKept s t)

/-- A context that stands before a readable record of a kind takes it up. Refused, the record shows STAT 3 and ECODE 4, its declared bytes
are counted in error and the chain ends with an error arrival. A data record shows STAT 1, registers its ranges and is in hand (a decode
holding the staging buffer). END shows STAT 2, frees the context and makes one completion arrival. A wait waits on its phase, or sees the
STATE at once; a signal arrives with its count and the chain goes on; a loop enters its body, or fails with ECODE 14 beyond four levels or
its outer body; a conditional and a jump inside a body fail so too, and outside go to their address, the conditional as its test says. A
pass copies, gathers, scatters or fills up to the end of a line or pass: the bytes read are under way to their places. An acknowledged
write lands byte by byte and is counted on the byte barrier; after the last the chain goes to the next record: again through a loop's
body, or past it. STACK_ADDER_DONE sends, for a plain MODE 0 reduce, −0 plus each indexed row in order, rounded. A stop with no record in
hand ends the chain on the record that comes next: it shows STAT 5, its declared bytes are counted in error, and the CHSTOPs complete. A record
is refused exactly when R263 says so: a reserved or unused bit is set, CNT or BAR is not a data record's on a barrier the group holds, or a
field breaks the limits of R262 to R270. The model's choice: which bits of its fields a kind uses (log 32), and that a refused record shows its
fields' declared bytes (log 35). -/
def Obligations.LadleRecords : Prop :=
  let ended (g n : Nat) (c : ChainCtx) (d : List Nat) (stat e : Nat) (s t : State) : Prop := t.chain? g n = none ∧
    (recBar s c d = none → c.cbar = none → c.stopOps = [] → RecordOnly g n c s t ∧ Shows t g c d 0 stat e) ∧
    (∀ b, recBar s c d = some b → c.cbar ≠ some b → sameCount (t.bar g b) ((arrive (barError s g b e) g b (recTotal s g c d)).bar g b)) ∧
    ∀ b, c.cbar = some b → recBar s c d ≠ some b → sameCount (t.bar g b) ((arrive (barError s g b e) g b 1).bar g b)
  let shown (g n : Nat) (c : ChainCtx) (d : List Nat) (e : Nat) (s t : State) : Prop := ended g n c d 3 e s t
  let takes (s : State) (g n : Nat) (c : ChainCtx) (d : List Nat) : Prop := AtRecord s g n c d ∧ recRefused s g c d (iteration c) = false ∧
    lockRoom s g (recRanges s g c d (iteration c)) = true
  let next (c : ChainCtx) : Nat × List LoopLevel := nextRecord c.loops (c.addr + 64)
  (∀ s g n c d, AtRecord s g n c d → recRefused s g c d (iteration c) = true →
    ∀ p ∈ [(1, Instr.ladleEnd g n), (2, .linearCopy g n), (3, .tileCopy g n), (4, .gather g n), (5, .scatter g n), (6, .planePack g n),
      (7, .fillRec g n), (8, .decodeRec g n), (9, .nearStackReduce g n), (10, .waitBarrier g n), (11, .signalBarrier g n),
      (12, .loopRec g n), (13, .conditional g n), (14, .jump g n)], Rec.kind d = p.1 →
      ∃ t, exec p.2 s = .next t ∧ shown g n c d 4 s t) ∧
  (∀ s g (c : ChainCtx) d i, d.length = 8 → let k := Rec.kind d; let f := Rec.f d; let held (n : Nat) : Prop := (chainBar s c n).isSome = true
    let names (n : Nat) (t : Tile) : Prop := s.tile? g n = some t ∧ t.group = c.group ∧ t.space ≠ 2
    let all (w : Nat) : Nat × Nat × Nat := (w, 63, 0)
    -- the bits a kind uses: double word, highest and lowest bit
    let used : List (Nat × Nat × Nat) := match k with
      | 2 => [all 1, all 2, (3, 31, 0), all 4, (6, 35, 32)]
      | 3 => [(6, 48, 32), all 7]
      | 4 | 5 => [all 1, all 2, all 3, all 4, all 5, (6, 35, 32), (6, 63, 44)]
      | 6 => [all 1, (2, 31, 0), all 3, (6, 62, 32)]
      | 7 => [all 2, (3, 31, 0), (4, 63, 32), all 5, (6, 35, 34)]
      | 8 => [all 1, all 2, all 3, all 5, (6, 35, 32), (7, 44, 0)]
      | 9 => [all 1, all 2, all 3, all 4, all 5, (6, 39, 32), (6, 56, 44)]
      | 10 => [(6, 43, 32), (6, 63, 48)]
      | 11 => [(3, 31, 0), (6, 42, 32)]
      | 12 => [(3, 31, 0), (6, 35, 32)]
      | 13 => [all 1, (2, 31, 0), (5, 31, 0), (6, 47, 32)]
      | 14 => [(2, 31, 0)]
      | _ => []
    let limits : Prop := match k with
      | 1 => True
      | 2 => 1 ≤ Rec.n d ∧ Rec.spaceA d ≤ 1 ∧ Rec.spaceB d ≤ 1
      | 3 => ∃ t u, names (bits f 7 0) t ∧ names (bits f 15 8) u ∧ t.rows = u.rows ∧ t.cols = u.cols ∧ t.fmt = u.fmt
      | 4 | 5 => 1 ≤ bits f 31 12 ∧ Rec.spaceA d ≤ 1 ∧ Rec.spaceB d ≤ 1 ∧ Rec.a d i % 4 = 0
      | 6 => let m := bits f 4 0; let p := fmtPlanes m
        fmtWidth m ≠ 0 ∧ m ≠ 0x15 ∧ m ≠ 0x1A ∧ bits f 6 5 ≠ 3 ∧ 1 ≤ Rec.n d ∧ Rec.n d ≤ 1024 ∧ (m = 0x1B → Rec.n d % 8 = 0) ∧ bits f 20 19 ≤ 1 ∧
        (fmtIsSel m = true ∨ bits f 6 5 ≠ 0 → d.getD 2 0 % 2 = 0) ∧ bits f 18 14 < slotCount p ∧
        (∃ gr, s.group? c.group = some gr ∧ gr.holds (bits f 13 9) = true) ∧ (s.arr g (bits f 13 9)).comp = true ∧
        (f.testBit 22 = true → ∃ t, names (bits f 30 23) t ∧ t.rows = 64 ∧ t.cols = (if m = 0x1B then Rec.n d / 8 else Rec.n d) ∧ t.fmt = m ∧
          t.base = Rec.a d i ∧ t.pitch = Rec.y d ∧ t.space = bits f 20 19)
      | 7 => Rec.spaceB d ≤ 1
      | 8 => Rec.n d % 128 = 0 ∧ Rec.x2 d % 64 = 0 ∧ Rec.spaceA d ≤ 1 ∧ Rec.spaceB d ≤ 1
      | 9 => let al := if f.testBit 0 then 8 else 4
        1 ≤ bits f 24 12 ∧ bits f 24 12 ≤ 4096 ∧ ¬(f.testBit 0 = true ∧ f.testBit 7 = true) ∧ Rec.a d i % 4 = 0 ∧ Rec.x2 d % 4 = 0 ∧
        Rec.y d % 4 = 0 ∧ Rec.b d i % al = 0 ∧ d.getD 4 0 / 2 ^ 32 % al = 0
      | 10 => held (bits f 10 0)
      | 11 => held (bits f 10 0) ∧ Rec.n d < 2 ^ 28
      | 12 => 1 ≤ Rec.n d ∧ 1 ≤ bits f 3 0
      | 13 => d.getD 2 0 % 64 = 0 ∧ bits f 4 2 ≤ 4 ∧ Rec.spaceA d ≤ 1 ∧
        (bits f 4 2 = 4 → d.getD 1 0 = 0 ∧ Rec.spaceA d = 0 ∧ Rec.x2 d < 8 ∧ held (bits f 15 5))
      | 14 => d.getD 2 0 % 64 = 0
      | _ => False
    let c0 := d.getD 0 0
    recRefused s g c d i = false ↔ bits c0 31 28 = 0 ∧ bits c0 15 12 = 0 ∧
      (∀ w, 1 ≤ w → w ≤ 7 → ∀ b, (d.getD w 0).testBit b = true → ∃ u ∈ used, u.1 = w ∧ u.2.2 ≤ b ∧ b ≤ u.2.1) ∧
      (if c0.testBit 27 then 2 ≤ k ∧ k ≤ 9 ∧ held (bits c0 26 16) else bits c0 26 16 = 0) ∧ limits) ∧
  (∀ s g n c d, takes s g n c d → recTotal s g c d ≠ 0 →
    ∀ p ∈ [(2, 1, Instr.linearCopy g n), (3, 1, .tileCopy g n), (4, 0, .gather g n), (5, 0, .scatter g n),
      (6, (if Rec.schk d then 0 else 1), .planePack g n), (7, 1, .fillRec g n), (8, 1, .decodeRec g n), (9, 0, .nearStackReduce g n)],
      Rec.kind d = p.1 → (p.1 = 8 → (s.core g).staging = none ∨ (s.core g).staging = some n) →
      ∃ t, exec p.2.2 s = .next t ∧ t.chain? g n = some { c with work := some { recWork s g c d with stage := p.2.1 } } ∧ Shows t g c d 0 1 0 ∧
        RecordOnly g n c s t ∧ (p.1 = 8 → (t.core g).staging = some n) ∧
        ∀ r ∈ recRanges s g c d (iteration c), ∃ e ∈ (t.core g).locks, e.2 = ⟨.chain n, c.tag, r.1, r.2.1, r.2.2.1, r.2.2.2, false⟩) ∧
  (∀ s g n c d, takes s g n c d → Rec.kind d = 1 → ∃ u, RecordOnly g n c s u ∧ u.chain? g n = none ∧ Shows u g c d 0 2 0 ∧
    (∀ e ∈ (u.core g).locks, e.2.owner ≠ .chain n) ∧
    exec (.ladleEnd g n) s = .next (match c.cbar with
      | none => u
      | some b => arrive u g b 1)) ∧
  (∀ s g n c d k, takes s g n c d → Rec.kind d = 10 → chainBar s c (Rec.f d % 2048) = some k →
    let b := s.bar g k
    let p := if (Rec.f d).testBit 11 then bits (Rec.f d) 31 16 else b.phase
    ∃ t, exec (.waitBarrier g n) s = .next t ∧ t.crews = s.crews ∧ t.mem = s.mem ∧ Shows t g c d 0 1 0 ∧
      t.chain? g n = some { c with
        work := some (recWork s g c d)
        state := .waiting
        wait := some (if b.releases p then ⟨k, p, some b.state.code, if b.kind = 3 then (b.rel ++ b.lastRel).eraseDups else []⟩
          else ⟨k, p, none, []⟩) }) ∧
  (∀ s g n c w k p st, CanPass s g n c w → w.kind = 10 → c.wait = some ⟨k, p, some st, []⟩ → ∃ t, exec (.ladlePass g n) s = .next t ∧
    t.mem = s.mem ∧ (st = 1 ∨ st = 2 → t.chain? g n = some { c with
      state := .running
      addr := (next c).1
      loops := (next c).2
      work := none
      wait := none }) ∧ (st = 0 ∨ st = 3 ∨ st = 4 → t.chain? g n = none)) ∧
  (∀ s g n c d k, takes s g n c d → Rec.kind d = 11 → chainBar s c (Rec.f d % 2048) = some k →
    ∃ t, exec (.signalBarrier g n) s = .next t ∧ GoesTo t g n c (next c) ∧ sameCount (t.bar g k) ((arrive s g k (Rec.n d)).bar g k) ∧ t.mem = s.mem ∧
      ((s.bar g k).kind = 3 → (s.bar g k).state = .armed → Rec.n d ≠ 0 → g ∈ (t.bar g k).rel ++ (t.bar g k).lastRel)) ∧
  (∀ s g n c d, takes s g n c d → Rec.kind d = 12 → let body := Rec.f d % 16
    let deep : Prop := c.loops.length = 4 ∨ ∃ l, c.loops.head? = some l ∧ l.first + 64 * l.body < c.addr + 64 + 64 * body
    ∃ t, exec (.loopRec g n) s = .next t ∧ (deep → shown g n c d 14 s t) ∧ (¬deep → RecordOnly g n c s t ∧ Shows t g c d 0 2 0 ∧
      GoesTo t g n c ((c.addr + 64) % 2 ^ 32, ⟨c.addr + 64, body, Rec.n d, 0⟩ :: c.loops))) ∧
  (∀ s g n c d, takes s g n c d → Rec.kind d = 14 → ∃ t, exec (.jump g n) s = .next t ∧ (c.loops ≠ [] → shown g n c d 14 s t) ∧
    (c.loops = [] → RecordOnly g n c s t ∧ Shows t g c d 0 2 0 ∧ GoesTo t g n c (d.getD 2 0 % 2 ^ 32, []))) ∧
  (∀ s g n c d, takes s g n c d → Rec.kind d = 13 → let m := bits (Rec.f d) 4 2
    let goes (t : State) (q : Prop) : Prop := (q → GoesTo t g n c (d.getD 2 0 % 2 ^ 32, [])) ∧ (¬q → GoesTo t g n c ((c.addr + 64) % 2 ^ 32, []))
    (c.loops ≠ [] → ∃ t, exec (.conditional g n) s = .next t ∧ shown g n c d 14 s t) ∧
    (∀ k, c.loops = [] → m = 4 → chainBar s c (bits (Rec.f d) 15 5) = some k → ∃ t, exec (.conditional g n) s = .next t ∧ Shows t g c d 0 2 0 ∧
      RecordOnly g n c s t ∧ goes t ((s.bar g k).state.code = Rec.x2 d % 8)) ∧
    (∀ ps, c.loops = [] → m < 4 → ladlePlaces s g c (Rec.spaceA d) false (run_ (d.getD 1 0) 4) = .ok ps → (∀ p ∈ ps, plainByte s g p) →
      releasers s ps = [] → ∃ u t, RecordOnly g n c s u ∧ Shows u g c d 0 1 0 ∧ exec (.conditional g n) s = .next t ∧ t.crews = s.crews ∧
        t.mem = s.mem ∧ let v := ofBytes (ps.map (placeByte u g)); let x := Rec.x2 d % 2 ^ 32
        goes t ((m = 0 ∧ v = x) ∨ (m = 1 ∧ v ≠ x) ∨ (m = 2 ∧ v < x) ∨ (m = 3 ∧ x ≤ v)))) ∧
  (∀ s g n c, s.chain? g n = some c → c.work = none →
    (∀ e, e ≠ 0 → recordWords s g c = none → (c.stop = some e ∨ (c.stop = none ∧ c.paused = false ∧ e = 5)) →
      ∃ t, exec (.ladlePass g n) s = .next t ∧ t.chain? g n = none ∧ (c.stopOps = [] → t.mem = s.mem) ∧
        ∀ b, c.cbar = some b → sameCount (t.bar g b) ((arrive (barError s g b e) g b 1).bar g b)) ∧
    ∀ d, RecordAt s g c d →
      (∀ e, e ≠ 0 → c.stop = some e → ∃ t, exec (.ladlePass g n) s = .next t ∧ ended g n c d 5 e s t ∧
        ∀ o ∈ c.stopOps, ∀ q h, s.op? o = some q → q.kind = .chainStop h → t.op? o = none) ∧
      (c.stop = none → c.paused = false → Rec.kind d = 0 ∨ Rec.kind d = 15 → ∃ t, exec (.ladlePass g n) s = .next t ∧ shown g n c d 4 s t)) ∧
  (∀ s g n c w, CanPass s g n c w → w.sent < w.total → let d := w.words; let a := Rec.a d w.iter + w.sent; let b := (Rec.spaceB d, Rec.b d w.iter + w.sent)
    let len := Rec.rowLen d; let x := w.idx.getD (w.sent / len) 0; let row := (Rec.spaceA d, Rec.x2 d + x * Rec.y d + w.sent % len)
    let sends (dst : Nat × Nat) (k : Nat) (byte : Nat → Byte) : Prop := ∀ qs, ladlePlaces s g c dst.1 true (run_ dst.2 k) = .ok qs →
      ∃ t, exec (.ladlePass g n) s = .next t ∧ t.mem = s.mem ∧ t.crews = s.crews ∧ t.chain? g n = some { c with work := some { w with
        flight := w.flight ++ [⟨wholeBytes (qs.zip ((List.range k).map byte)), w.sent, k⟩]
        sent := w.sent + k } }
    let moves (src dst : Nat × Nat) (k0 : Nat) : Prop := let k := min (min k0 (passRoom dst.1 dst.2)) (passRoom src.1 src.2)
      ∀ ps, ladlePlaces s g c src.1 false (run_ src.2 k) = .ok ps → (∀ p ∈ ps, plainByte s g p) →
        sends dst k fun j => (ps[j]?.map (placeByte s g)).getD 0
    (w.kind = 2 → moves (Rec.spaceA d, a) b (w.total - w.sent)) ∧
    (w.kind = 7 → sends b (min (w.total - w.sent) (passRoom b.1 b.2)) fun j => BitVec.ofNat 8 (Rec.x2 d / 2 ^ (8 * ((w.sent + j) % 8)))) ∧
    (w.kind = 4 → w.stage ≠ 0 → x ≠ 0xFFFFFFFF → moves row b (len - w.sent % len)) ∧
    (w.kind = 5 → w.stage ≠ 0 → x ≠ 0xFFFFFFFF → moves b row (len - w.sent % len))) ∧
  (∀ s g n c w f rest, s.chain? g n = some c → c.work = some w → w.flight = f :: rest → w.kind ≠ 9 →
    let own (p : Place) : Prop := ∃ j < 64, ownPlace s g c (c.addr + j) = some p
    (∀ e ∈ f.bytes, writeWaits s g true 0 e.1 = false ∧ e.2.2 = 255 ∧ (∀ pa va m, e.1 = .glob pa va m → m.cached = true ∧ pathDown s g pa = false) ∧
      (∀ h a o, e.1 = .win h a o → (s.arr h a).state.busy = false ∧ o < 0x40000)) →
    ∃ t, exec (.ladleWriteAck g n) s = .next t ∧
      (∀ e ∈ f.bytes, ¬own e.1 → some (placeByte t g e.1) = (f.bytes.reverse.find? fun q => q.1.same e.1).map fun q => q.2.1) ∧
      (rest ≠ [] → c.wait = none → t.chain? g n = some { c with work := some { w with flight := rest, done := w.done + f.count } }) ∧
      (rest = [] → w.sent = w.total → w.late = false → w.fail = none → c.stop = none → 2 ≤ w.kind → w.kind ≤ 8 → GoesTo t g n c (next c)) ∧
      (∀ b, rest ≠ [] ∨ (w.fail = none ∧ c.stop = none ∧ w.late = false) → w.bar = some b →
        sameCount (t.bar g b) ((arrive s g b f.count).bar g b))) ∧
  (∀ l t a, (a = l.first + 64 * l.body → l.i + 1 < l.n → nextRecord (l :: t) a = (l.first, { l with i := l.i + 1 } :: t)) ∧
    (a = l.first + 64 * l.body → l.n ≤ l.i + 1 → nextRecord (l :: t) a = nextRecord t a) ∧
    (a ≠ l.first + 64 * l.body → nextRecord (l :: t) a = (a % 2 ^ 32, l :: t)) ∧ nextRecord [] a = (a % 2 ^ 32, [])) ∧
  (∀ s g n c w ps, s.chain? g n = some c → c.work = some w → w.kind = 9 → w.stage = 2 → w.fail = none → c.stop = none → c.paused = false →
    chainWalks s g n c.tag = false → ladlePlaces s g c 0 true (run_ (Rec.b w.words w.iter) w.total) = .ok ps →
    (Rec.f w.words).testBit 0 = false → (Rec.f w.words).testBit 7 = false →
    let row (e : Nat) : List Nat := (w.rows.filter fun r => !r.isEmpty).map fun r => r.getD e 0
    ∃ t w', exec (.stackAdderDone g n) s = .next t ∧ t.mem = s.mem ∧ t.crews = s.crews ∧ t.chain? g n = some { c with work := some w' } ∧
      w'.stage = 3 ∧ w'.sent = w.total ∧ w'.done = w.done ∧ w'.flight.flatMap (·.bytes) = wholeBytes (ps.zip
        ((List.range (Rec.elems w.words)).flatMap fun e => toBytes 4 ((row e).foldl (fun y x => (fadd fmtF32 .rn (fmtF32.read y) (fmtF32.read x)).bits)
          negZero))))

/-- A doorbell of a new TAIL up to HEAD + 2^LOGN on a host-fed queue that is ACTIVE or SUSPENDED sets TAIL; one beyond it makes the queue
ERROR with ECODE 1 and ESEQ TAIL + 1; one that is not new, or on a device-fed queue, does nothing. Control 1, 2 and 3 move the queue as
R304's table says; under control 3 the records not taken up are discarded, and it is DISABLED once none is under way. Where the descriptor
can be written it shows the new fields. LAUNCH checks alignment, its read of the record and the queue in that order, and is then in flight
behind the crew's queue and loads. Its request drains the core, and answers RES 2 when the queue is not ACTIVE, RES 1 when it is full,
changing no queue, and otherwise takes TAIL + 1, writes the 128 bytes to that slot and answers that SEQ with RES 0. The answer is the
instruction's result. Take-up serves, of the ready queues, one that none precedes by class, then by (tag, QNUM) after the one served last,
and takes record TAKEN + 1. The model's choice: the corners of LAUNCH (log 35), that the queue unit walks the tables at every access (log 44),
and that a doorbell to a queue neither ACTIVE nor SUSPENDED does nothing (log 55). -/
def Obligations.QueuesAndRequests : Prop :=
  (∀ s tag q x, s.queue? tag q = some x → x.closing = false → x.state = .active ∨ x.state = .suspended →
    let ring (t : Nat) : Host.Outcome State Fault Refusal := exec (.doorbell tag q t) s
    (x.device = true → ∀ t, ring t = .next s) ∧
    (x.device = false → ∀ d, 0 < d → d < 2 ^ 31 →
      (x.tail + d ≤ x.head + 2 ^ x.logn → ∃ t, ring ((x.tail + d) % 2 ^ 32) = .next t ∧ QueueTo tag q { x with tail := x.tail + d } s t) ∧
      (x.head + 2 ^ x.logn < x.tail + d → ∃ t, ring ((x.tail + d) % 2 ^ 32) = .next t ∧
        QueueTo tag q { x with state := .error, ecode := 1, eseq := x.tail + 1 } s t)) ∧
    (x.device = false → ∀ t, (∃ d ≤ 2 ^ 31, (t + d) % 2 ^ 32 = x.tail % 2 ^ 32) → ring t = .next s)) ∧
  (∀ s tag q x, s.queue? tag q = some x → x.closing = false →
    (x.state = .active → ∃ t, exec (.queueSuspend tag q) s = .next t ∧ QueueTo tag q { x with state := .suspended } s t) ∧
    (x.state = .suspended → ∃ t, exec (.queueResume tag q) s = .next t ∧ QueueTo tag q { x with state := .active } s t) ∧
    (x.state = .error → ∃ t, exec (.queueResume tag q) s = .next t ∧ QueueTo tag q { x with state := .active, ecode := 0 } s t) ∧
    (x.state ≠ .disabled → ∃ t, exec (.queueDisable tag q) s = .next t ∧ QueueTo tag q { x with
      state := if x.taken ≤ x.head then .disabled else .suspended
      closing := true
      tail := x.taken } s t)) ∧
  (∀ h (o : DAB) s x, Ready (.launch h o) s x → let i := Instr.launch h o; let a := (srcS s x o.a).toNat; let q := (srcS s x o.b).toNat % 256
    let ea := translate s x.seat.core x.seat.tag a .read
    (a % 128 ≠ 0 → Traps i s x ⟨0x02, x.ctl.em, BitVec.ofNat 64 a⟩) ∧
    (a % 128 = 0 → ea = .nonCanonical ∨ ea = .denied → Traps i s x ⟨0x04, x.ctl.em, BitVec.ofNat 64 a⟩) ∧
    (a % 128 = 0 → ea = .miss → exec i s = .next (toWalks (useLines s s.cur x i) s.cur [(a, x.ctl.em)] false)) ∧
    ∀ pa m, a % 128 = 0 → ea = .ok pa m → let held := ∃ y, s.queue? x.seat.tag q = some y ∧ y.device = true ∧ y.state ≠ .disabled
      (¬held → Traps i s x ⟨0x04, x.ctl.em, BitVec.ofNat 64 q⟩) ∧
      (held → Starts i s x (.launch q ((List.range 128).map fun j => .glob (pa + j) (a + j) m) none o.d (earlierOps s s.cur) none x.ctl.pc))) ∧
  (∀ s o c tag b em q pa va m got d after pc x y l, let at_ := (List.range 128).map fun j => Place.glob (pa + j) (va + j) m
    s.op? o = some ⟨c, tag, b, em, .launch q at_ got d after none pc⟩ → s.crew? c = some x → s.queue? x.seat.tag q = some y →
    after.any (opPending s c) = false → launchBehind s c q o = false → unitWalks s (.ring o) = false → (∀ a, pathHeld s x.seat.core a = false) →
    (∀ p ∈ at_, halfLanded s x.seat.core p = false) → (∀ j < 128, portFree s (pa + j) = true) → L1Up s x.seat.core → DirsRoom s x.seat.core 1 →
    got = some l ∨ (got = none ∧ m.cached = true ∧ pa % 128 = 0 ∧ (s.core x.seat.core).l1.find? (pa / 128) = none ∧
      (∀ p ∈ at_, placeBad (drainCore s x.seat.core) x.seat.core p = false) ∧ l = (List.range 128).map fun j => s.mem.read (pa + j)) →
    l.length = 128 →
    let gives (t : State) (w : Nat) : Prop := exec (.queueLaunchRequest o) s = .next t ∧ t.crews = s.crews ∧
      t.op? o = some ⟨c, tag, b, em, .launch q at_ (some l) d after (some w) pc⟩ ∧ ∀ n k, (t.core x.seat.core).l1.find? n = some k → k.dirty = []
    (y.state ≠ .active ∨ ctxAlive s x.seat.tag = false → ∃ t, gives t 2 ∧ t.queues = s.queues) ∧
    (y.state = .active → ctxAlive s x.seat.tag = true → y.head + 2 ^ y.logn ≤ y.tail → ∃ t, gives t 1 ∧ t.queues = s.queues) ∧
    (y.state = .active → ctxAlive s x.seat.tag = true → y.tail < y.head + 2 ^ y.logn → ∀ ra rm,
      unitAt (drainCore s x.seat.core) x.seat.tag (y.base + 128 * ((y.tail + 1) % 2 ^ y.logn)) .write = .ok ra rm → rm.cached = true →
      pathHeld s 0 ra = false → pathDown s 0 ra = false → portFree s ra = true → region ra ≤ 1 → (∀ j < 128, lockedPa s (ra + j) = false) →
      ∃ t, gives t ((y.tail + 1) % 2 ^ 32 * 2 ^ 32) ∧ t.queue? x.seat.tag q = some { y with tail := y.tail + 1 } ∧
        (∀ k, k ≠ 256 * x.seat.tag + q → t.queues.find? k = s.queues.find? k) ∧ ∀ j < 128, t.mem.read (ra + j) = l.getD j 0)) ∧
  (∀ s o c tag b em q at_ got d after w pc, s.op? o = some ⟨c, tag, b, em, .launch q at_ got d after (some w) pc⟩ →
    exec (.launchAnswerReturn o) s = .next (finishOp s o (heldScalar b d (BitVec.ofNat 64 w)))) ∧
  (∀ s k y, nextQueue s = some k → s.queues.find? k = some y →
    (∃ z, (k, z) ∈ s.queues ∧ queueReady s k z = true) ∧
    (∀ e ∈ s.queues, queueReady s e.1 e.2 = true → orderLt (queueOrder s s.lastQueue e.1) (queueOrder s s.lastQueue k) = false) ∧
    ∃ u, QueueTo (k / 256) (k % 256) { y with taken := y.taken + 1 } s u ∧ exec .launchTakeUp s = .next { u with
      lastQueue := k
      launches := s.launches.insert s.nextId (Launch.start (k / 256) (k % 256) (y.taken + 1))
      nextId := s.nextId + 1 })

/-- The record arrives: with RCODE 0 the launch has its fields and is WAITING, or DISPATCHING when nothing is waited for; else it is
ENDING with OUT 4 and the RCODE, and without a completion word an ACTIVE queue is ERROR with ECODE 2. A dependence read finds the word at
least DVAL: DISPATCHING from now; else it still WAITs. A group fits in a run of unheld arrays, the lowest, a run of barriers that no group
of the core holds, and free slots, crew c on scheduler (t + c) mod 4. A placed convoy takes them on the cluster found: groups RESIDENT,
arrays STORAGE and zero; with none left to place the launch is RUNNING. Its start makes a crew of each slot and image, STARTING at ENTRY
with its registers 0, and zeroes its image. A kill by system software, or the time limit, ends a WAITING launch (the former only), dooms
the groups and kills the crews of one that runs. Completion drains the cores, writes NFAIL, NRL, RCODE and OUT at COMPADDR + 8, then
COMPVAL at COMPADDR, then signals INTV on the context's port; the launch is gone and its record DONE. RCODE is the lowest code of R293's table
whose condition holds; a convoy goes to the first cluster of the partition, from the one after the launch's last on, on which it fits, at the
lowest x (R285, R296). The model's choice: the corners of a refused record (log 35), the lowest run of barriers (log 36), that dispatch
acquires where the launch waits for another (log 37), and that the queue unit walks the tables at every access (log 44). -/
def Obligations.LaunchesRun : Prop :=
  (∀ s l x y pa m, s.launch? l = some x → x.state = .queued → unitWalks s (.queue l) = false → earlierLaunch s x (· == .queued) = false →
    ctxAlive s x.tag = true → s.queue? x.tag x.q = some y → let va := y.base + 128 * (x.seq % 2 ^ y.logn)
    unitAt s x.tag va .read = .ok pa m → m.cached = true → pathHeld s 0 pa = false → pathDown s 0 pa = false → portFree s pa = true →
    let u := markWalk s x.tag va false
    (∀ i < 128, u.mem.badLine (lineOf (pa + i)) = false) →
    let w := ofBytes ((List.range 128).map fun i => frameByte u (pa + i)); let x' := { x with info := parseLaunch w }
    ∃ t, exec (.launchRecordCheck l) s = .next t ∧ t.crews = s.crews ∧ t.cores = s.cores ∧
      (launchRcode s x.tag w = 0 → t.queues = s.queues ∧ t.launch? l = some (
        if x'.info.daddr = [] ∧ serOk s x' = true then { x' with state := .dispatching, started := s.now } else { x' with state := .waiting })) ∧
      (launchRcode s x.tag w ≠ 0 →
        t.launch? l = some { x' with state := .ending, out := 4, rcode := launchRcode s x.tag w, step := 0 } ∧
        t.queue? x.tag x.q = some (if x'.info.hasWord = false ∧ y.state = .active then
          { y with state := .error, ecode := 2, rcode := launchRcode s x.tag w, eseq := x.seq } else y))) ∧
  (∀ s tag w, let crews := bits w 725 721; let groups := bits w 728 726; let shared := bits w 703 672
    let off (a n : Nat) : Prop := a % n ≠ 0 ∨ canonical a = false
    let bad (k : Nat) : Prop := match k with
      | 1 => bits w 1023 763 ≠ 0 ∨ (w.testBit 749 = false ∧ bits w 760 750 ≠ 0) ∨
        (w.testBit 761 = false ∧ (bits w 383 320 ≠ 0 ∨ bits w 447 384 ≠ 0)) ∨ (w.testBit 762 = false ∧ (bits w 511 448 ≠ 0 ∨ bits w 575 512 ≠ 0))
      | 2 => bits w 712 704 < 8 ∨ 320 < bits w 712 704 ∨ bits w 720 713 < 16 ∨ 128 < bits w 720 713 ∨ crews < 1 ∨ 16 < crews ∨ groups < 1 ∨
        4 < groups ∨ 6291456 < shared ∨ shared % 4096 ≠ 0 ∨ 24 < bits w 733 729 ∨ 2048 < bits w 745 734 ∨ bits w 607 576 = 0 ∨
        bits w 639 608 < crews * groups
      | 3 => 24 < ceilDiv shared 262144 + bits w 733 729
      | 4 => off (bits w 63 0) 64 ∨ off (bits w 191 128) 4096 ∨ off (bits w 255 192) 16 ∨ (w.testBit 761 = true ∧ off (bits w 383 320) 8) ∨
        (w.testBit 762 = true ∧ off (bits w 511 448) 8)
      | 5 => ∀ c, s.ctx? tag = some c → c.members = [] ∧ c.retiring = []
      | _ => False
    (launchRcode s tag w = 0 ∨ bad (launchRcode s tag w)) ∧ ∀ k, bad k → launchRcode s tag w ≠ 0 ∧ launchRcode s tag w ≤ k) ∧
  (∀ s l x a v pa m, s.launch? l = some x → x.state = .waiting → unitWalks s (.queue l) = false → ctxAlive s x.tag = true →
    x.info.daddr = [(a, v)] → unitAt s x.tag a .read = .ok pa m → m.cached = true → pathHeld s 0 pa = false → pathDown s 0 pa = false →
    portFree s pa = true → (∀ k ∈ releasers s [.glob pa a m], drainHeld s k = false ∧ L1Up s k) →
    let u := markWalk s x.tag a false
    (∀ i < 8, u.mem.badLine (lineOf (pa + i)) = false) → let word := ofBytes ((List.range 8).map fun i => frameByte u (pa + i))
    ∃ t, exec (.dependenceRead l) s = .next t ∧ t.crews = s.crews ∧
      (v ≤ word ∧ serOk s x = true → t.launch? l = some { x with state := .dispatching, started := s.now }) ∧
      (¬(v ≤ word ∧ serOk s x = true) → t.launch? l = some x)) ∧
  (∀ s l x, s.launch? l = some x → x.state = .waiting → unitWalks s (.queue l) = false → ctxAlive s x.tag = true → x.info.daddr = [] →
    serOk s x = true → exec (.dependenceRead l) s = .next (s.updLaunch l fun x => { x with state := .dispatching, started := s.now })) ∧
  (∀ s g r f, fitCore s g r = some f → let n := r.arraysHeld; let used := (coreGroups s g).flatMap fun x => x.slots
    f.arr0 + n ≤ 24 ∧ (∀ j < n, (s.arr g (f.arr0 + j)).state = .unheld) ∧
    (∀ b < f.arr0, ∃ j < n, (s.arr g (b + j)).state ≠ .unheld) ∧ (f.bar0 + r.nbar ≤ 2048 ∨ r.nbar = 0) ∧
    (∀ gr ∈ coreGroups s g, f.bar0 + r.nbar ≤ gr.bar0 ∨ gr.bar0 + gr.nbar ≤ f.bar0 ∨ r.nbar = 0) ∧
    f.slots.length = r.crews ∧ f.slots.Nodup ∧ (∀ e ∈ f.slots, e.1 < 4 ∧ e.2 < 32 ∧ e ∉ used) ∧
    ∃ t < 4, ∀ c e, f.slots[c]? = some e → e.1 = (t + c) % 4) ∧
  (∀ s cl r xx l, fitCluster s cl r = some (xx, l) → xx < 4 ∧ l.length = r.groups ∧
    (∀ g f, l[g]? = some f → fitCore s (4 * cl + (g ^^^ xx)) r = some f) ∧ ∀ y < xx, ∃ g < r.groups, fitCore s (4 * cl + (g ^^^ y)) r = none) ∧
  (∀ s x c, s.ctx? x.tag = some c → let place (k : Nat) : Nat := (k + 288 - (x.lastCluster + 1) % 288) % 288
    let may (k : Nat) : Prop := k ∈ c.members ∧ k < 288 ∧ quiescing s k = false
    (∀ cl xx fits, findCluster s x = some (cl, xx, fits) → may cl ∧ fitCluster s cl x.info = some (xx, fits) ∧
      ∀ k, may k → place k < place cl → fitCluster s k x.info = none) ∧
    (findCluster s x = none → ∀ k, may k → fitCluster s k x.info = none)) ∧
  (∀ s die l x cl xx fits, placing s die = [(l, x)] → s.launch? l = some x → findCluster s x = some (cl, xx, fits) → cl / 24 = die →
    (s.die die).placed.find? x.tag ≠ some (s.cycle die / 32) →
    let again := match x.again with
      | _ :: _ => true
      | [] => false
    ∃ t v gs, exec (.convoyPlacement die) s = .next t ∧ t.crews = s.crews ∧ t.mem = s.mem ∧ t.convoy? v = some
        ⟨l, x.tag, (x.again.head?).getD x.next, cl, xx, gs, if again then 1 else 0, false, [], [], false, true⟩ ∧ gs.length = fits.length ∧
      (∃ y, t.launch? l = some y ∧ y.live = x.live + 1 ∧ y.lastCluster = cl ∧ y.again = x.again.tail ∧
        y.next = (if again then x.next else x.next + 1) ∧
        y.state = if y.again = [] ∧ x.info.nconv ≤ y.next then .running else .dispatching) ∧
      ∀ j gi f, gs[j]? = some gi → fits[j]? = some f → let c := 4 * cl + (j ^^^ xx)
        (∃ gr, t.group? gi = some gr ∧ gr.state = .resident ∧ gr.convoy = v ∧ gr.launch = l ∧ gr.gid = j ∧ gr.core = c ∧ gr.arr0 = f.arr0 ∧
          gr.bar0 = f.bar0 ∧ gr.nbar = x.info.nbar ∧ gr.slots = f.slots ∧ gr.crews = []) ∧
        ∀ k < x.info.arraysHeld, (t.arr c (f.arr0 + k)).state = .storage ∧ (t.arr c (f.arr0 + k)).cells = [] ∧
          (t.arr c (f.arr0 + k)).group = some gi) ∧
  (∀ s v cv l, s.convoy? v = some cv → s.launch? cv.launch = some l → cv.started = false → unitWalks s (.image v) = false → cv.groups.Nodup →
    (∀ gi ∈ cv.groups, ∃ gr, s.group? gi = some gr ∧ gr.state ≠ .doomed ∧ gr.slots.length = gr.images.length) →
    (∀ p ∈ imageParts s cv, unitAt s cv.tag p.2.1 .write ≠ .fault ∧ partHeld s cv.tag p = false) →
    ∃ t, exec (.convoyStart v) s = .next t ∧ t.convoy? v = some { cv with started := true } ∧
      (∀ gi ∈ cv.groups, ∀ gr, s.group? gi = some gr → ∃ ids, t.group? gi = some { gr with crews := ids } ∧ ids.length = gr.slots.length ∧
        ∀ j c sl im, ids[j]? = some c → gr.slots[j]? = some sl → gr.images[j]? = some im → ∃ y, t.crew? c = some y ∧ y.state = .starting ∧
          y.seat = ⟨gr.core, sl.1, sl.2, j, gr.gid, cv.cvid, gi, gr.launch, gr.tag, im, l.info.nv, l.info.ns⟩ ∧
          y.ctl.pc = BitVec.ofNat 64 l.info.entry ∧ y.ctl.em = BitVec.allOnes 128 ∧ y.ctl.sdepth = 0 ∧ y.ctl.fpst = 0 ∧
          (∀ k : Fin 320, y.rf.v[k] = Lanes.zero) ∧ (∀ k : Fin 128, y.rf.s[k] = 0) ∧ y.tags = [] ∧ y.sq = []) ∧
      ∀ g va n pa m, imageParts s cv = [(g, va, n)] → l.info.daddr = [] → l.info.ser = false → unitAt s cv.tag va .write = .ok pa m →
        pathDown s g pa = false → ∀ j < n, t.mem.read (pa + j) = 0) ∧
  (∀ s l x, s.launch? l = some x →
    (x.state = .waiting → exec (.launchKill l) s = .next (s.updLaunch l fun x => { x with state := .ending, out := 3, rcode := 0, step := 0 })) ∧
    (x.state = .dispatching ∨ x.state = .running → (∃ t, exec (.launchKill l) s = .next t ∧ LaunchKilled l x 3 s t) ∧
      ∀ c, s.ctx? x.tag = some c → c.state = .live ∨ c.state = .suspending → x.info.tlim ≠ 0 → x.started + x.paused + 1750 * x.info.tlim ≤ s.now →
        ∃ t, exec (.launchTimeLimit l) s = .next t ∧ LaunchKilled l x 2 s t)) ∧
  (∀ s l x, s.launch? l = some x → x.state = .ending → ctxAlive s x.tag = true →
    (x.step = 0 → (∀ g ∈ x.cores, drainHeld s g = false ∧ L1Up s g) → (systemScope s x = true → portsClear s = true) →
      ∃ t, exec (.completionRelease l) s = .next t ∧ t.launch? l = some { x with step := 1 } ∧ t.crews = s.crews ∧
      ∀ g ∈ x.cores, ∀ n k, (t.core g).l1.find? n = some k → k.dirty = []) ∧
    (x.info.hasWord = true → unitWalks s (.queue l) = false →
      let writes (i : Instr) (va n : Nat) : Prop := ∀ pa m, unitAt s x.tag va .write = .ok pa m → m.cached = true → pathHeld s 0 pa = false →
        pathDown s 0 pa = false → portFree s pa = true → region pa ≤ 1 → (∀ j < 8, lockedPa s (pa + j) = false) →
        ∃ t, exec i s = .next t ∧ t.crews = s.crews ∧
          t.launch? l = some { x with step := x.step + 1 } ∧ ofBytes ((List.range 8).map fun j => t.mem.read (pa + j)) = n
      (x.step = 1 → writes (.completionStatusWrite l) (x.info.compaddr + 8)
        (min x.nfail (2 ^ 32 - 1) * 2 ^ 32 + min x.nrl 65535 * 2 ^ 16 + x.rcode % 256 * 2 ^ 8 + x.out % 256)) ∧
      (x.step = 2 → writes (.completionWordWrite l) x.info.compaddr (x.info.compval % 2 ^ 64))) ∧
    ∀ c y, s.ctx? x.tag = some c → s.queue? x.tag x.q = some y → x.step = 3 ∨ (x.step = 1 ∧ x.info.hasWord = false) →
      ∃ t, exec (.completionInterrupt l) s = .next t ∧ t.launch? l = none ∧ (t.queue? x.tag x.q).any (·.isDone x.seq) = true ∧
        t.mg.msix = (if x.info.inte = true ∧ ¬(x.out = 4 ∧ x.info.hasWord = false) then (c.desc.hport, x.info.intv) :: s.mg.msix
          else s.mg.msix))

/-- GETSR gives each status register of R316's table. SETSR writes the low 11 bits of FPST, a half of MBUSY, in a handler a half of TEM,
and in a system context a counter's low 32 bits; TEM outside a handler is ILLEGAL, reason 3, and a counter in a user context reason 10.
PREDIS with no budget running and no pre-emption pending starts one of 87,500 cycles of its die at this pc and gives 1, else it gives 0; PREEN gives
whether one was running and ends it. ERRINJ in a user context is ILLEGAL, reason 10. With an array that is not held, or a register beyond
the crew's counts, it raises PROTECTION; else CELL inverts one cell, PASS arms one product, and RCL inverts one bit of a register-cache
line, which it first waits for when absent. Nothing else changes. -/
def Obligations.StatusAndInjection : Prop :=
  let illegal (i : Instr) (s : State) (x : Crew) (r : Nat) : Prop :=
    exec i s = .next (takeTrap s s.cur ⟨0x01, x.ctl.em, BitVec.ofNat 64 r⟩ x.ctl.pc)
  let system (s : State) (x : Crew) : Prop := ∃ c, s.ctx? x.seat.tag = some c ∧ c.desc.system = true
  let half (m : Mask) (k : Nat) : Nat := m.toNat / 2 ^ (64 * k) % 2 ^ 64
  -- the short result w, with a change of the control
  let givesCtl (i : Instr) (s : State) (x : Crew) (w : Held) (ctl : Control) : Prop :=
    if i.hdr.tag = 0 then Ends i s x (w.regs.foldl RegFile.put x.rf) ctl none else Ends i s x x.rf ctl (some ⟨none, i.hdr.look.toNat, w, dstRegs i, false⟩)
  -- the instruction is done, with one change in its core
  let inCore (i : Instr) (s : State) (x : Crew) (p : State → Prop) : Prop := ∃ t y, exec i s = .next t ∧ t.crew? s.cur = some y ∧ y.rf = x.rf ∧
    y.ctl = nextPc x ∧ CrewKept i x y ∧ { t with crews := s.crews, cores := s.cores } = s ∧ (∀ c, c ≠ s.cur → t.crew? c = s.crew? c) ∧
    (∀ g, g ≠ x.seat.core → t.core g = s.core g) ∧ p t
  (∀ h (o : GetSr) s x, Ready (.getsr h o) s x → let k := (s.core x.seat.core).ctr; let d := x.seat.core / 96
    let clmap (n : Nat) : Nat := ((List.range 8).map fun j => (s.die d).clmap.getD (8 * n + j) (8 * n + j) % 32 * 2 ^ (5 * j)).sum
    Gives (.getsr h o) s x (resS x o.d (BitVec.ofNat 64 (match o.reg with
      | .cwid => 128
      | .cpos => x.seat.core % 4 + x.seat.core / 4 % 24 * 2 ^ 2 + d * 2 ^ 7 + x.seat.sched % 4 * 2 ^ 11 + x.seat.slot % 32 * 2 ^ 13
      | .clmap0 => clmap 0
      | .clmap1 => clmap 1
      | .clmap2 => clmap 2
      | .larg => ((s.launch? x.seat.launch).map (·.info.arg.toNat)).getD 0
      | .ctag => x.seat.tag % 256 + (((s.ctx? x.seat.tag).map fun c => c.desc.cls % 4 * 2 ^ 8 + if c.desc.system then 2 ^ 10 else 0).getD 0)
      | .fpst => x.ctl.fpst.toNat
      | .mbusy0 => half x.ctl.mbusy 0
      | .mbusy1 => half x.ctl.mbusy 1
      | .mxst => x.ctl.mxst.toNat
      | .tpc => x.tr.tpc.toNat
      | .tcause => x.tr.tcause.toNat
      | .tlanes0 => half x.tr.tlanes 0
      | .tlanes1 => half x.tr.tlanes 1
      | .taddr => x.tr.taddr.toNat
      | .tem0 => half x.tr.tem 0
      | .tem1 => half x.tr.tem 1
      | .tsd => x.tr.tsd
      | .pdrem => (x.ctl.pdrem.map (· - s.cycle d)).getD 0
      | .ckcor => k.ckcor
      | .ckrep => k.ckrep
      | .ckfail => k.ckfail
      | .rccor => k.rccor
      | .smcor => k.smcor
      | .tmrep => k.tmrep
      | .tmwin => k.tmwin)))) ∧
  (∀ h (o : SetSr) s x, Ready (.setsr h o) s x → let i := Instr.setsr h o; let v := (srcS s x o.a).toNat
    let put (m : Mask) (k : Nat) : Mask := BitVec.ofNat 128 (if k = 0 then half m 1 * 2 ^ 64 + v % 2 ^ 64 else v % 2 ^ 64 * 2 ^ 64 + half m 0)
    let tem (k : Nat) : Prop := (x.ctl.hmode = false → illegal i s x 3) ∧ (x.ctl.hmode = true → ∃ t y, exec i s = .next t ∧
      t.crew? s.cur = some y ∧ y.rf = x.rf ∧ y.ctl = nextPc x ∧ y.tr = { x.tr with tem := put x.tr.tem k } ∧ CrewKept i x { y with tr := x.tr } ∧
      Elsewhere s.cur s t)
    let counter (f : Counters → Counters) : Prop := (¬system s x → illegal i s x 10) ∧
      (system s x → inCore i s x fun t => (t.core x.seat.core).ctr = f (s.core x.seat.core).ctr ∧
        { t.core x.seat.core with
          ctr := (s.core x.seat.core).ctr
          scheds := (s.core x.seat.core).scheds
          rc := (s.core x.seat.core).rc } = s.core x.seat.core)
    (o.reg = .fpst → Sets i s x x.rf { nextPc x with fpst := BitVec.ofNat 32 (v % 2 ^ 11) }) ∧
    (o.reg = .mbusy0 → Sets i s x x.rf { nextPc x with mbusy := put x.ctl.mbusy 0 }) ∧
    (o.reg = .mbusy1 → Sets i s x x.rf { nextPc x with mbusy := put x.ctl.mbusy 1 }) ∧
    (o.reg = .tem0 → tem 0) ∧ (o.reg = .tem1 → tem 1) ∧
    (o.reg = .ckcor → counter fun k => { k with ckcor := v % 2 ^ 32 }) ∧ (o.reg = .ckrep → counter fun k => { k with ckrep := v % 2 ^ 32 }) ∧
    (o.reg = .ckfail → counter fun k => { k with ckfail := v % 2 ^ 32 }) ∧ (o.reg = .rccor → counter fun k => { k with rccor := v % 2 ^ 32 }) ∧
    (o.reg = .smcor → counter fun k => { k with smcor := v % 2 ^ 32 }) ∧ (o.reg = .tmrep → counter fun k => { k with tmrep := v % 2 ^ 32 })) ∧
  (∀ h (o : Dst) s x, Ready (.predis h o) s x → let free := x.ctl.pdrem = none ∧ x.req.pre = false
    (free → givesCtl (.predis h o) s x (resS x o.d 1) { nextPc x with pdrem := some (s.cycle (x.seat.core / 96) + 87500), pdpc := x.ctl.pc }) ∧
    (¬free → Gives (.predis h o) s x (resS x o.d 0))) ∧
  (∀ h (o : Dst) s x, Ready (.preen h o) s x →
    givesCtl (.preen h o) s x (resS x o.d (if x.ctl.pdrem = none then 0 else 1)) { nextPc x with pdrem := none }) ∧
  (∀ h (o : ErrInj) s x, ∀ i ∈ [Instr.errinjCell h o, .errinjPass h o, .errinjRcl h o], Ready i s x → ¬system s x → illegal i s x 10) ∧
  (∀ h (o : ErrInj) s x gr, system s x → s.group? x.seat.group = some gr → let g := x.seat.core; let v := (srcS s x o.a).toNat
    let w := (srcS s x o.b).toNat; let a := v % 32; let f := 2048 * bits v 25 16 + bits v 42 32
    let held := a ≤ 23 ∧ gr.holds a = true
    (∀ i ∈ [Instr.errinjCell h o, .errinjPass h o], Ready i s x → ¬held → Traps i s x ⟨0x04, x.ctl.em, BitVec.ofNat 64 a⟩) ∧
    (held → Ready (.errinjCell h o) s x → inCore (.errinjCell h o) s x fun t => t.arr g a = { s.arr g a with
        flips := if f ∈ (s.arr g a).flips then (s.arr g a).flips.filter (· ≠ f) else f :: (s.arr g a).flips } ∧
      ∀ b, b ≠ a → t.arr g b = s.arr g b) ∧
    (held → Ready (.errinjPass h o) s x → inCore (.errinjPass h o) s x fun t =>
      t.arr g a = { s.arr g a with pass := some (bits v 25 16, bits v 42 32, w % 32, bits w 12 8) } ∧ ∀ b, b ≠ a → t.arr g b = s.arr g b)) ∧
  ∀ h (o : ErrInj) s x, Ready (.errinjRcl h o) s x → system s x → let i := Instr.errinjRcl h o; let g := x.seat.core
    let v := (srcS s x o.a).toNat; let f := v % 512; let bit := bits v 27 16
    let line (n : Nat) : Prop := (hasLine (s.core g) s.cur n = false →
        exec i s = .next (toWaiting (useLines s s.cur x i) s.cur (.lines (n :: lineNeed x i)))) ∧
      (hasLine (s.core g) s.cur n = true → inCore i s x fun t => (t.core g).rc = ((useLines s s.cur x i).core g).rc.map fun l =>
        if l.crew = s.cur ∧ l.line = n then { l with flip := if bit ∈ l.flip then l.flip.filter (· ≠ bit) else bit :: l.flip } else l)
    (f < 320 → f < x.seat.nv → line (vLine x.seat x.bank f)) ∧ (320 ≤ f → f - 320 < 128 → f - 320 < x.seat.ns → line (sLine x.seat x.bank (f - 320))) ∧
    ((f < 320 ∧ x.seat.nv ≤ f) ∨ 448 ≤ f ∨ (320 ≤ f ∧ x.seat.ns ≤ f - 320) → Traps i s x ⟨0x04, x.ctl.em, BitVec.ofNat 64 f⟩)

/-- The lines a STARTING or WAITING crew needs arrive and it is READY at the tail of its queue. A fetch whose page misses starts a walk
and the crew waits. The head of the queue takes a free active slot. After 256 cycles without one, the crew of the highest class, then the
one promoted longest ago, of those that have issued since, is READY again. A pending pre-emption that is not held off makes a crew
SUSPENDED with its control line saved, its lines evictable; a pending kill makes an active one DRAINING. The end of a PREDIS budget, and
of a handler's time, are noted or kill. A drained crew is gone with its lines and register tiles, its image and slot free; its group is
CLOSING with the last. A CLOSING group with nothing outstanding is FREE, its arrays cleared or left from compute; its convoy's end
completes the launch, is counted in NFAIL, or is placed again if every break was relaunchable and it is its first attempt; the convoys to
place again stay in ascending cvid. A scheduler issues, of the active crews whose word and unit are ready, one that has gone 4,096 cycles
without issuing if there is one, else the lowest class, then the least recent issue, then the slot (R85); cycles are those of the crew's die.
The model's choice: of several that have gone so long the longest goes first (log 67), an instruction issues whole or waits (log 52), which
units are ready (log 3), and a killed group's relaunch is counted as log 53 says. -/
def Obligations.CrewsComeAndGo : Prop :=
  let atTail (t : State) (c : Nat) (x : Crew) : Prop := (t.sched x.seat.core x.seat.sched).queue.getLast? = some c
  (∀ s g t c, issuer s g t = some c → ∃ x, c ∈ (s.sched g t).active ∧ s.crew? c = some x ∧ x.state = .active ∧
    let old (y : Crew) : Prop := y.lastIssue + 4096 ≤ s.cycle (y.seat.core / 96)
    ∀ d ∈ (s.sched g t).active, ∀ z, s.crew? d = some z → z.state = .active → Config.unitReady s.tick d = true → fetchHeld s z = false →
      (old z → old x ∧ x.lastIssue ≤ z.lastIssue) ∧ (¬old x → crewClass s x < crewClass s z ∨ (crewClass s x = crewClass s z ∧
        (x.lastIssue < z.lastIssue ∨ (x.lastIssue = z.lastIssue ∧ x.seat.slot ≤ z.seat.slot))))) ∧
  (∀ s c x ls, s.crew? c = some x → (∀ l ∈ (s.core x.seat.core).rc, l.flip = []) →
    ((x.state = .starting ∨ (x.state = .waiting ∧ x.wait = .control)) ∧ ls = [x.seat.nv + 2]) ∨ (x.state = .waiting ∧ x.wait = .lines ls) →
    (∀ n ∈ ls, n < x.seat.nv + 52 ∧ lineWalk s c n = false ∧ unmapped s x.seat.tag (imageLineVa s x.seat n) = false) →
    ∃ t y, exec (.regcacheFill c) s = .next t ∧ t.crew? c = some y ∧ y.state = .ready ∧ y.seat = x.seat ∧ y.tags = x.tags ∧ y.sq = x.sq ∧
      atTail t c x ∧ ∀ n ∈ ls, hasLine (t.core x.seat.core) c n = true) ∧
  (∀ s c x, s.crew? c = some x → x.state = .active → let pc := x.ctl.pc.toNat; let at_ (va : Nat) := translate s x.seat.core x.seat.tag va .exec
    ∀ va, (at_ pc = .miss ∧ va = pc) ∨ ((∃ pa m, at_ pc = .ok pa m) ∧ va = (pc + 8) % 2 ^ 64 ∧ at_ va = .miss) →
    ∃ t y, exec (.instructionFetchWalk c) s = .next t ∧ t.crew? c = some y ∧ y.state = .waiting ∧ y.wait = .walks [s.nextId] ∧ y.rf = x.rf ∧
      y.ctl = x.ctl ∧ t.walks.find? s.nextId = some ⟨.fetch c, x.seat.tag, va, false, x.seat.core, none, false⟩ ∧ t.mem = s.mem ∧
      ∀ d, d ≠ c → t.crew? d = s.crew? d) ∧
  (∀ s g k c tl x, (s.sched g k).queue = c :: tl → (s.sched g k).active.length < 8 → s.crew? c = some x →
    ∃ t, exec (.crewPromotion g k) s = .next t ∧ t.sched g k = ⟨(s.sched g k).active ++ [c], tl, s.cycle (g / 96)⟩ ∧
      t.crew? c = some { x with state := .active, stamps := { x.stamps with promoted := s.cycle (g / 96), sincePromo := false } } ∧
      (∀ d, d ≠ c → t.crew? d = s.crew? d) ∧ t.mem = s.mem) ∧
  (∀ s g k, (s.sched g k).queue ≠ [] → 8 ≤ (s.sched g k).active.length → (s.sched g k).headAt + 256 ≤ s.cycle (g / 96) →
    (∃ d ∈ (s.sched g k).active, ∃ z, s.crew? d = some z ∧ z.stamps.sincePromo = true) →
    ∃ c x, c ∈ (s.sched g k).active ∧ s.crew? c = some x ∧ x.stamps.sincePromo = true ∧ exec (.forcedDemotion g k) s = .next (toReady s c) ∧
      (toReady s c).crew? c = some { x with state := .ready, wait := .none } ∧ atTail (toReady s c) c x ∧
      ∀ d ∈ (s.sched g k).active, ∀ z, s.crew? d = some z → z.stamps.sincePromo = true →
        crewClass s z < crewClass s x ∨ (crewClass s z = crewClass s x ∧ x.stamps.promoted ≤ z.stamps.promoted)) ∧
  (∀ s c x, s.crew? c = some x → x.req.pre = true → x.ctl.pdrem = none → x.req.budget = false → x.req.kill = none →
    x.state = .starting ∨ x.state = .ready ∨ x.state = .active ∨ x.state = .waiting →
    ∃ t y, exec (.preemption c) s = .next t ∧ t.crew? c = some y ∧ y.state = .suspended ∧ y.req.pre = false ∧ y.rf = x.rf ∧ y.ctl = x.ctl ∧
      y.tags = x.tags ∧ y.sq = x.sq ∧ y.wait = (if x.state = .starting then .control else x.wait) ∧ y.stamps.suspended = s.cycle (x.seat.core / 96) ∧
      (∀ l ∈ (t.core x.seat.core).rc, l.crew = c → l.evict = true) ∧ c ∉ (t.sched x.seat.core x.seat.sched).active ∧
      c ∉ (t.sched x.seat.core x.seat.sched).queue) ∧
  (∀ s c x, s.crew? c = some x → x.req.kill.isSome → x.state = .active → ∃ t, exec (.kill c) s = .next t ∧ t.crew? c = some { x with
      state := .draining
      wait := .none
      tags := x.tags.filter fun r => r.2.op.isSome } ∧
    c ∉ (t.sched x.seat.core x.seat.sched).active ∧ t.mem = s.mem ∧ ∀ d, d ≠ c → t.crew? d = s.crew? d) ∧
  (∀ s c x e, s.crew? c = some x → x.ctl.pdrem = some e → e ≤ s.cycle (x.seat.core / 96) → exec (.predisBudgetExpiry c) s = .next (s.updCrew c fun x =>
    { x with ctl := { x.ctl with pdrem := none }, req := { x.req with budget := true } })) ∧
  (∀ s c x u, s.crew? c = some x → s.ctx? x.seat.tag = some u → x.ctl.hmode = true → u.desc.wdog ≠ 0 → x.state ≠ .suspended → x.state ≠ .draining →
    x.stamps.handler + 1750 * u.desc.wdog ≤ s.cycle (x.seat.core / 96) → ∃ t, exec (.handlerWatchdog c) s = .next t ∧ CrewKilled c x t) ∧
  (∀ s c x, s.crew? c = some x → x.state = .draining → x.sq = [] → (∀ e ∈ s.ops, e.2.crew ≠ c) → ∃ t, exec (.crewDrained c) s = .next t ∧
    t.crew? c = none ∧ (∀ d, d ≠ c → t.crew? d = s.crew? d) ∧ t.mem = s.mem ∧ (∀ l ∈ (t.core x.seat.core).rc, l.crew ≠ c) ∧
    (∀ e ∈ (t.core x.seat.core).tiles, e.2.crew ≠ some c) ∧
    (∀ l, s.launch? x.seat.launch = some l →
      t.launch? x.seat.launch = some { l with images := l.images.filter (· ≠ x.seat.image) }) ∧
    ∀ gr, s.group? x.seat.group = some gr → t.group? x.seat.group = some { gr with
      crews := gr.crews.filter (· ≠ c)
      state := if gr.crews.filter (· ≠ c) = [] then .closing else gr.state }) ∧
  (∀ s gi gr v l, s.group? gi = some gr → gr.state = .closing → (∀ e ∈ (s.core gr.core).chains, e.2.group ≠ gi) → peersPending s gr = false →
    s.convoy? gr.convoy = some v → s.launch? v.launch = some l →
    let failed := v.failed || gr.broke; let again := v.relaunch && gr.relaunch && l.info.idem && v.attempt == 0
    ∃ t, exec (.groupFree gi) s = .next t ∧ t.group? gi = none ∧ t.mem = s.mem ∧ (∀ hi, hi ≠ gi → t.group? hi = s.group? hi) ∧
      (∀ a, gr.holds a = true → (s.arr gr.core a).group = some gi → (t.arr gr.core a).group = none ∧
        (t.arr gr.core a).state = match (s.arr gr.core a).state with
          | .storage | .reefing => .clearing
          | .settling | .compute => .unreefing
          | k => k) ∧
      (v.freed.length + 1 ≠ v.groups.length → t.launch? v.launch = some l ∧ t.convoy? gr.convoy = some { v with
        freed := gr.gid :: v.freed
        failed := failed
        relaunch := v.relaunch && gr.relaunch }) ∧
      (v.freed.length + 1 = v.groups.length → t.convoy? gr.convoy = none ∧
        let last := l.live - 1 = 0 ∧ l.again = []
        (l.state = .running → failed = false → t.launch? v.launch = some (if last then
            { l with live := l.live - 1, state := .ending, out := if l.nfail = 0 then 0 else 1 }
          else { l with live := l.live - 1 })) ∧
        (l.state = .running ∨ l.state = .dispatching → failed = true → again = true → ∃ a, a.Perm (v.cvid :: l.again) ∧ a.Pairwise (· ≤ ·) ∧
          t.launch? v.launch = some { l with live := l.live - 1, again := a, nrl := min 65535 (l.nrl + 1), state := .dispatching }) ∧
        (l.state = .running → failed = true → again = false → t.launch? v.launch = some (if last then
            { l with live := l.live - 1, nfail := l.nfail + 1, state := .ending, out := 1 }
          else { l with live := l.live - 1, nfail := l.nfail + 1 })) ∧
        (l.state = .killing → t.launch? v.launch = some (if l.live - 1 = 0 then { l with live := l.live - 1, state := .ending }
          else { l with live := l.live - 1 }))))

/-- A walk that finds its leaf sets A, and D for a write that W allows, in the leaf alone, and enters it in its core's translation buffer.
One that does not joins the outstanding record of its 64 KiB range; else, with the ring full, waits; else writes the record and waits on
it; a ring outside populated memory is a fault. A write of FRHEAD lets the waiting walks go on. ACT 0 makes every waiter walk again; ACT 1
notes the lanes for a crew's PAGE_FAULT, fails a ladle record with ECODE 2, refuses a waiting launch with RCODE 6, or skips a completion
write or an image page. A migration's recall sends the dirty bytes of the frame home; its copy moves every byte and swaps the leaf's
address, dropping translations, or, when the leaf has changed, gives up; at unlock queued accesses go to the new frame and the log takes
its entry. An epoch's candidates are the pages that reach the threshold, by descending count; one that may move, with a free frame and
room in the log, migrates. A walk goes down from a non-leaf entry that the die's walker cache holds without reading it, and the cache holds the
4,096 entries used last; a ladle record whose walk does not succeed parks. The model's choice: ring slots go by number modulo the size, and a
fault ring outside populated memory stops the model (log 43); which pages an epoch promotes (log 41); a die's cycles count its epochs (log 1). -/
def Obligations.PagesAndMigrations : Prop :=
  (∀ m l tag va, (∀ level table, (walkVia m [] tag va level table).1 = walkFrom m va level table) ∧
    (∀ k table e, cachedEntry l tag (k + 1) va = some e →
      (walkVia m l tag va (k + 1) table).1 = (walkVia m l tag va k (pteAddr e)).1) ∧
    (∀ level e, cachedEntry l tag level va = some e → ∃ q ∈ l, q.tag = tag ∧ q.level = level ∧ q.entry = e ∧ q.va ≤ va % 2 ^ 57 ∧
      va % 2 ^ 57 < q.va + levelSize level) ∧
    ∀ us : List WalkEntry, (useEntries l us).length ≤ 4096 ∧ (us.length ≤ 4096 → ∀ q ∈ us, q ∈ useEntries l us) ∧
      ∀ q ∈ useEntries l us, q ∈ us ∨ q ∈ l) ∧
  (∀ s n w c e l ptr us, s.walks.find? n = some w → w.fault = none → s.ctx? w.tag = some c →
    walkVia s.mem (s.die (w.core / 96)).wcache w.tag w.va 4 c.desc.troot = (.leaf e l ptr, us) →
    let e' := e ||| 2 ^ 10 ||| (if w.write = true ∧ e.testBit 4 = true then 2 ^ 11 else 0)
    ∃ t, exec (.pageWalk n) s = .next (match w.who with
        | .line k m => if w.write then saveLine t k m else t
        | _ => t) ∧
      t.walks.find? n = none ∧ (∀ k, k ≠ n → t.walks.find? k = s.walks.find? k) ∧ t.crews = s.crews ∧
      (us ≠ [] → (t.die (w.core / 96)).wcache = useEntries (s.die (w.core / 96)).wcache us) ∧
      (∀ i < 8, t.mem.read (ptr + i) = (toBytes 8 e').getD i 0) ∧ (∀ a, a < ptr ∨ ptr + 8 ≤ a → t.mem.read a = s.mem.read a) ∧
      ∀ k m, w.who = .crew k m ∨ w.who = .fetch k → (t.core w.core).tlb =
        (⟨w.tag, w.va % 2 ^ 57 / levelSize l * levelSize l, levelSize l, BitVec.ofNat 64 e'⟩ :: (s.core w.core).tlb).take 1024) ∧
  (∀ s n w c kind l us, s.walks.find? n = some w → w.fault = none → s.ctx? w.tag = some c →
    walkVia s.mem (s.die (w.core / 96)).wcache w.tag w.va 4 c.desc.troot = (.fault kind l, us) →
    let near (f : FaultRec) : Prop := f.tag = w.tag ∧ f.va / 65536 = w.va / 65536
    let seq := s.mg.frtail + 1; let a := s.mg.frbase + 32 * (seq % 4096)
    let parks (t : State) : Prop := ∀ g k x, w.who = .chain g k → s.chain? g k = some x → x.tag = w.tag →
      t.chain? g k = some { x with state := if x.state = .running then .parked else x.state }
    ((∃ e ∈ s.faults, near e.2) → ∃ t q, exec (.pageWalk n) s = .next t ∧ (∃ f, (q, f) ∈ s.faults ∧ near f) ∧ t.faults = s.faults ∧ t.mg = s.mg ∧
      t.walks.find? n = some { w with fault := some q, full := false } ∧ parks t) ∧
    ((∀ e ∈ s.faults, ¬near e.2) → 4096 ≤ s.mg.frtail - s.mg.frhead → ∃ t, exec (.pageWalk n) s = .next t ∧ t.mem = s.mem ∧ t.mg = s.mg ∧
      t.faults = s.faults ∧ t.walks.find? n = some { w with full := true } ∧ parks t) ∧
    ((∀ e ∈ s.faults, ¬near e.2) → s.mg.frtail - s.mg.frhead < 4096 → populated a 32 = false → exec (.pageWalk n) s = .fault (.unpopulated a)) ∧
    ((∀ e ∈ s.faults, ¬near e.2) → s.mg.frtail - s.mg.frhead < 4096 → populated a 32 = true → ∃ t, exec (.pageWalk n) s = .next t ∧
      t.mg = { s.mg with frtail := seq } ∧ t.faults.find? seq = some ⟨w.tag, w.va⟩ ∧ t.walks.find? n = some { w with fault := some seq, full := false } ∧
      parks t ∧ let r := ofBytes ((List.range 32).map fun i => t.mem.read (a + i))
      bits r 255 192 = w.va % 2 ^ 64 ∧ bits r 191 160 = seq % 2 ^ 32 ∧ bits r 159 152 = w.tag % 256 ∧ bits r 151 148 = kind % 16 ∧
        bits r 147 145 = l % 8 ∧ r.testBit 144 = w.write ∧ bits r 123 0 = 0 ∧ bits r 143 142 = match w.who with
          | .crew .. | .fetch _ | .line .. => 0
          | .chain .. => 1
          | .queue _ | .ring _ | .image _ => 2)) ∧
  (∀ s v, ∃ t, exec (.frheadWrite v) s = .next t ∧ { t with mg := s.mg, walks := s.walks } = s ∧ t.mg = { s.mg with frhead := v } ∧
    ∀ k w, s.walks.find? k = some w → t.walks.find? k = some { w with full := false }) ∧
  (∀ s q, (s.faults.find? q).isSome → ∃ t, exec (.freplyRetry q) s = .next t ∧ t.faults.find? q = none ∧
    { t with faults := s.faults, walks := s.walks } = s ∧ ∀ n w, s.walks.find? n = some w → (∀ e ∈ s.walks, e.1 = n → e.2 = w) →
      t.walks.find? n = some (if w.fault = some q then { w with fault := none } else w)) ∧
  (∀ s q n w, (s.faults.find? q).isSome → waiters s q = [(n, w)] → ∃ t, exec (.freplyDecline q) s = .next t ∧ t.faults.find? q = none ∧
    (∀ k x lanes, s.crew? k = some x → w.who = .crew k lanes ∨ (w.who = .fetch k ∧ lanes = x.ctl.em) → t.walks.find? n = none ∧
      let old := x.req.declined.getD (0, w.va)
      t.crew? k = some { x with req := { x.req with declined := some (old.1 ||| lanes, min old.2 w.va) } }) ∧
    (∀ g k c r, w.who = .chain g k → s.chain? g k = some c → c.tag = w.tag → c.work = some r → r.flight = [] → t.chain? g k = none) ∧
    (∀ l x, w.who = .queue l → s.launch? l = some x → (x.state = .waiting → t.launch? l = some { x with state := .ending, out := 4, rcode := 6, step := 0 }) ∧
      (x.state = .ending → t.launch? l = some { x with step := 3 })) ∧
    ∀ v cv, w.who = .image v → s.convoy? v = some cv → t.convoy? v = some { cv with skip := w.va / 65536 :: cv.skip }) ∧
  (∀ s c x lanes va, s.crew? c = some x → x.req.kill = none → x.req.pre = false → x.tags.find? 0 = none → x.req.trap = none →
    x.req.declined = some (lanes, va) → boundary s c = some (takeTrap (s.updCrew c fun x => { x with req := { x.req with declined := none } }) c
      ⟨0x03, lanes, BitVec.ofNat 64 va⟩ x.ctl.pc)) ∧
  (∀ s k m, s.migs.find? k = some m → m.stage = 0 →
    (∀ g n, m.old / 128 ≤ n → n < (m.old + m.size) / 128 → ((s.core g).l1.find? n).isSome → pathDown s g (128 * n) = false) → ∃ t, exec (.migrationRecallDone k) s = .next t ∧
    t.migs.find? k = some { m with stage := 1 } ∧ t.crews = s.crews ∧
    (∀ g n, m.old / 128 ≤ n → n < (m.old + m.size) / 128 → (t.core g).l1.find? n = none) ∧
    ∀ g pa, m.old / 128 ≤ pa / 128 → pa / 128 < (m.old + m.size) / 128 →
      (∀ h l, h ≠ g → (s.core h).l1.find? (pa / 128) = some l → pa % 128 ∉ l.dirty) → t.mem.read pa = homeByte s g pa) ∧
  (∀ s k m, MemoryOk s → s.migs.find? k = some m → m.stage = 1 → (m.old + m.size ≤ m.new ∨ m.new + m.size ≤ m.old) →
    let u := copyFrame s m.old m.new m.size
    (∀ i < m.size, u.mem.read (m.new + i) = s.mem.read (m.old + i)) ∧
    (∀ a, a < m.new ∨ m.new + m.size ≤ a → u.mem.read a = s.mem.read a) ∧
    (migLeaf u m = none → exec (.migrationCopyDone k) s = .next { u with migs := s.migs.insert k { m with stage := 3 } }) ∧
    ∀ e ptr, migLeaf u m = some (e, ptr) → ∃ t, exec (.migrationCopyDone k) s = .next t ∧ t.migs.find? k = some { m with stage := 2 } ∧
      (∀ i < 8, t.mem.read (ptr + i) = (toBytes 8 (e - pteAddr e + m.new)).getD i 0) ∧
      (∀ a, a < ptr ∨ ptr + 8 ≤ a → t.mem.read a = u.mem.read a) ∧ t.crews = s.crews ∧
      (∀ g, ∀ b ∈ (t.core g).tlb, ¬(b.tag = m.tag ∧ b.va < m.va % 2 ^ 57 + m.size ∧ m.va % 2 ^ 57 < b.va + b.size)) ∧
      ∀ d, ∀ b ∈ (t.die d).wcache, ¬(b.tag = m.tag ∧ b.va < m.va % 2 ^ 57 + m.size ∧ m.va % 2 ^ 57 < b.va + levelSize b.level)) ∧
  (∀ s k m, s.migs.find? k = some m → 2 ≤ m.stage → m.cmd = false → (s.tracker m.die).todo = [] → 0 < m.size → m.order = [] →
    (∀ g n l, m.old / 128 ≤ n → n < (m.old + m.size) / 128 → (s.core g).l1.find? n = some l → l.dirty = []) →
    let tr := s.tracker m.die; let a := s.mg.mlbase + 16384 * m.die + 16 * (tr.tail % 1024)
    ∃ t, exec (.migrationUnlock k) s = .next t ∧ t.migs.find? k = none ∧ t.mg = s.mg ∧ (t.tracker m.die).tail = tr.tail + 1 ∧
      (t.tracker m.die).hbm = tr.hbm ++ (if m.stage = 2 ∧ m.kind = 1 then [m.old] else if m.stage ≠ 2 ∧ m.kind = 0 then [m.new] else []) ∧
      (populated a 16 = true → let w := ofBytes ((List.range 16).map fun i => t.mem.read (a + i))
        bits w 7 0 = (if m.stage = 2 then m.kind else 4) % 256 ∧ bits w 23 16 = m.tag % 256 ∧ bits w 75 24 = m.old % 2 ^ 52 ∧
          bits w 127 76 = m.new % 2 ^ 52) ∧
      ∀ c x, s.crew? c = some x → t.crew? c = some (if m.stage = 2 then
        { x with sq := x.sq.map fun q => { q with kind := q.kind.mapPlaces m.move } } else x)) ∧
  (∀ (m : Migration) pa va k, m.move (.glob pa va k) = .glob (if m.old ≤ pa ∧ pa < m.old + m.size then pa - m.old + m.new else pa) va k) ∧
  (∀ s d, let tr := s.tracker d; tr.since + 1750000 ≤ s.cycle d → logRoom s d = false → ∃ t, ∃ l : List (Nat × Nat), exec (.trackerEpoch d) s = .next t ∧
    t.tracker d = { tr with
      counts := []
      touched := []
      past := tr.touched
      todo := l.map Prod.fst
      left := 64
      since := s.cycle d } ∧
    l.Pairwise (fun a b => b.2 ≤ a.2) ∧ (∀ e, e ∈ l ↔ tr.threshold ≠ 0 ∧ e ∈ tr.counts ∧ tr.threshold ≤ e.2) ∧ t.mem = s.mem) ∧
  ∀ s d v, d < 12 → let tr := s.tracker d; let u := s.updTracker d fun t => { t with head := v }
    (tr.todo = [] → exec (.mlheadWrite d v) s = .next u) ∧
    ∀ p tag va e f fs, tr.todo = [p] → tr.left ≠ 0 → logRoom u d = true → (∀ e ∈ s.migs, ¬(e.2.die = d ∧ e.2.kind = 1)) →
      frameLeaf s (65536 * p) = some (tag, va, e) → migrating s (65536 * p) 65536 = false → ptePin e = false → pteMig e = true → tr.hbm = f :: fs →
      ∃ t, exec (.mlheadWrite d v) s = .next t ∧ t.migs.find? s.nextId = some ⟨tag, va, 65536, 65536 * p, f, 0, 0, d, false, []⟩ ∧
        (t.tracker d).todo = [] ∧ (t.tracker d).hbm = fs ∧ (t.tracker d).left = tr.left - 1 ∧ t.mem = s.mem

/-- With its crews SUSPENDED and its chains at rest a context is SAVING; with its queues empty it is SWAPPED, its arrays, barriers, tiles,
chains and lines off the cores and saved. Once the named resources are free they return as saved; then it is LIVE, its crews READY or
WAITING again, time not counted. A killed context without groups or chains is DEAD, its launches gone and queues DISABLED. A log entry
holds kind, cause, tag, position, sequence and location at LOGA. An uncorrectable error at a clean copy kills nothing; in a crew's own
structure it kills the crew; at a readable tag it kills that context; at an unreadable one every owner; in DRAM it poisons the sector. A
test starts when its period has run out; its copy makes the spare the cluster, its arrays as they were, and a pass or failure makes the old
one the spare or retires it. TIMING_WINDOW closes a window of the die's cycles and alarms above the threshold; POWER_OVER_CAP lowers a
clock. A refresh slot does nothing more, or makes a scrub visit that is due, or swaps a row that has reached 2,048 activations. The model's
choices: latches are copied and OFFLINE arrays a group holds return to STORAGE (log 40), whom an
unreadable tag kills (log 39), what a swap saves and where (log 50), the kinds of log entries (log 30), rows, banks and scrub visits
(logs 29, 42), free values (log 2). -/
def Obligations.ContextsAndReliability : Prop :=
  let alarm (s t : State) (f : State → State) : Prop := ∃ u e, t = emit u e ∧ e.kind = 3 ∧ { u with free := s.free } = f s
  (∀ s tag x, s.ctx? tag = some x → x.state = .suspending → (∀ e ∈ s.crews, e.2.seat.tag = tag → e.2.state = .suspended) →
    matrixOps s (fun c => c.seat.tag == tag) = false → (∀ g ∈ coresOf s tag, ∀ e ∈ (s.core g).chains, e.2.tag = tag → e.2.still = true) →
    (∀ e ∈ s.convoys, e.2.tag = tag → e.2.started = true) →
    exec (.contextSaveStart tag) s = .next (s.updCtx tag fun x => { x with state := .saving, savedAt := s.now })) ∧
  (∀ s tag x, s.ctx? tag = some x → x.state = .saving → swapReady s tag = true → ∃ t, exec (.contextSaved tag) s = .next t ∧ t.crews = s.crews ∧
    t.groups = s.groups ∧ t.ctx? tag = some { x with state := .swapped, saved := (coresOf s tag).map (saveCore s tag), out := true } ∧
    ∀ g ∈ coresOf s tag, (∀ e ∈ (t.core g).chains, e.2.tag ≠ tag) ∧ (∀ e ∈ (t.core g).locks, e.2.tag ≠ tag) ∧
      (∀ l ∈ (t.core g).rc, ∀ y, s.crew? l.crew = some y → y.seat.tag ≠ tag) ∧
      (∀ gi gr, (gi, gr) ∈ s.groups → gr.tag = tag → gr.core = g → (∀ e ∈ (t.core g).tiles, e.2.group ≠ gi) ∧
        (∀ e ∈ (t.core g).bars, ¬(gr.bar0 ≤ e.1 ∧ e.1 < gr.bar0 + gr.nbar)) ∧
        ∀ a, gr.holds a = true → (t.arr g a).state ≠ .storage ∧ (t.arr g a).state ≠ .compute)) ∧
  (∀ s tag x v, s.ctx? tag = some x → x.state = .restoring → x.out = true → x.saved = [v] → coreFree s tag v = true →
    v.arrays.rises = true → v.bars.rises = true → v.chains.rises = true → (∀ l ∈ (s.core v.core).rc ++ v.rc, l.flip = []) →
    ∃ t, exec (.contextRestoreStart tag) s = .next t ∧ t.ctx? tag = some { x with saved := [], out := false } ∧
      (∀ a r, v.arrays.find? a = some r → t.arr v.core a = r) ∧ (∀ n b, v.bars.find? n = some b → t.bar v.core n = b) ∧
      (∀ n c, v.chains.find? n = some c → v.stagingBytes.map (·.1) ≠ some n → t.chain? v.core n = some c) ∧ ∀ g, g ≠ v.core → t.core g = s.core g) ∧
  (∀ s tag x, s.ctx? tag = some x → x.state = .restoring → x.out = false → ∃ t, exec (.contextRestored tag) s = .next t ∧
    t.ctx? tag = some { x with state := .live } ∧
    (∀ c y, s.crew? c = some y → y.seat.tag = tag → y.state = .suspended → ∃ z, t.crew? c = some z ∧ z.rf = y.rf ∧ z.ctl = y.ctl ∧
      z.state = (if y.wait = .none then .ready else .waiting) ∧ z.stamps.handler = y.stamps.handler + (s.cycle (y.seat.core / 96) - y.stamps.suspended)) ∧
    (∀ l y, s.launch? l = some y → y.tag = tag → y.state = .dispatching ∨ y.state = .running →
      t.launch? l = some { y with paused := y.paused + (s.now - max x.savedAt y.started) }) ∧
    ∀ g ∈ coresOf s tag, quiescing s (g / 4) = false → ∀ e ∈ (t.core g).chains, e.2.tag = tag → e.2.paused = false) ∧
  (∀ s tag x, s.ctx? tag = some x → x.state = .killing → (∀ e ∈ s.groups, e.2.tag ≠ tag) → (∀ k ∈ s.cores, ∀ e ∈ k.2.chains, e.2.tag ≠ tag) →
    ∃ t, exec (.contextDead tag) s = .next t ∧ t.ctx? tag = some { x with state := .dead, saved := [], out := false, logSeq := x.logSeq + 1 } ∧
      (∀ e ∈ t.launches, e.2.tag ≠ tag) ∧ (∀ e ∈ t.convoys, e.2.tag ≠ tag) ∧
      ∀ k q, s.queues.find? k = some q → k / 256 = tag → ∃ q', t.queues.find? k = some q' ∧ q'.state = .disabled ∧
        (q.state ≠ .disabled → q'.head = q.taken)) ∧
  (∀ s tag x why pos pa m, s.ctx? tag = some x → translateNow s tag (x.desc.loga + 16 * (x.logSeq % 64)) .write = some (pa, m) → region pa ≤ 1 →
    pathDown s (posCore pos) pa = false → (∀ i < 16, lockedPa s (pa + i) = false) →
    let b := s.mg.evbase + 16 * ((s.mg.evtail + 1) % 4096)
    b + 16 ≤ pa ∨ pa + 16 ≤ b →
    let t := writeLog s tag why pos; let w := ofBytes ((List.range 16).map fun i => t.mem.read (pa + i))
    bits w 63 56 = why.kind % 256 ∧ bits w 55 48 = why.cause % 256 ∧ bits w 47 40 = tag % 256 ∧ bits w 39 22 = pos % 2 ^ 18 ∧
      bits w 21 0 = x.logSeq % 2 ^ 22 ∧ bits w 127 64 = why.loc % 2 ^ 64) ∧
  (∀ s e ok, ∃ t, exec (.uncorrectableError e true ok) s = .next t ∧ t.crews = s.crews ∧ t.ctxs = s.ctxs ∧ ∀ a, t.mem.read a = s.mem.read a) ∧
  (∀ s e, (∃ w, siteCode e = some w) → ∃ t, exec (.uncorrectableError e false false) s = .next t ∧
    ∀ tag ∈ ownerSet s (Config.freeNat s.free) e, ∀ x, s.ctx? tag = some x → x.state ≠ .killing → x.state ≠ .dead → x.state ≠ .restoring → ∃ y, t.ctx? tag = some y ∧ y.state = .killing ∧ (y.why.map (·.kind)) = some 2) ∧
  (∀ s c x, s.crew? c = some x → ∀ e, (∃ n, e = .regLine c n) ∨ (∃ n, e = .holdSlot c n) ∨ (∃ n, e = .stackEntry c n) →
    ∃ t, exec (.uncorrectableError e false true) s = .next t ∧ CrewKilled c x t) ∧
  (∀ s e tag c n x, siteTag s e = some tag → siteCode e = some (c, n) → tag ≠ 0 → s.ctx? tag = some x →
    x.state ≠ .killing → x.state ≠ .dead → x.state ≠ .restoring →
    ∃ t, exec (.uncorrectableError e false true) s = .next t ∧ ContextKilled tag x ⟨1, 0, c * 2 ^ 56 + n⟩ s t) ∧
  (∀ s k, ∃ t, exec (.uncorrectableError (.dram k) false true) s = .next t ∧ t.mem.poisoned (32 * k) = true ∧ (∀ a, t.mem.read a = s.mem.read a) ∧
    { t with mem := s.mem } = s) ∧
  (∀ s d sp, let x := s.die d; s.mg.testPeriod ≠ 0 → x.test = none → x.spare = some sp → x.tested + 1750000 * s.mg.testPeriod ≤ s.now → d < 12 →
    let k := x.next % 24
    ∃ t, exec (.infieldTestStart d) s = .next t ∧ t.die d = { x with test := some (k, 0, x.clmap.getD k k), tested := s.now, next := (k + 1) % 24 } ∧
      t.mem = s.mem ∧
      (∀ c y, s.crew? c = some y → y.seat.core / 4 = 24 * d + k → swappedOut s y.seat.tag = false → y.state ≠ .suspended → y.state ≠ .draining →
        t.crew? c = some { y with req := { y.req with pre := true } }) ∧
      ∀ g, g / 4 = 24 * d + k → ∀ e ∈ (t.core g).chains, e.2.paused = true) ∧
  (∀ s d k b sp, (s.die d).test = some (k, 0, b) → (s.die d).spare = some sp → clusterStill s (24 * d + k) = true →
    ∃ t, exec (.infieldCopyDone d) s = .next t ∧
      t.die d = { s.die d with clmap := (s.die d).clmap.insert k sp, spare := none, test := some (k, 1, b) } ∧
      (∀ g, g / 4 = 24 * d + k → (t.core g).l1 = [] ∧ ∀ a, t.arr g a = s.arr g a) ∧
      ∀ c y u, s.crew? c = some y → y.seat.core / 4 = 24 * d + k → s.ctx? y.seat.tag = some u → u.state = .live → y.state = .suspended →
        ∃ z, t.crew? c = some z ∧ z.rf = y.rf ∧ z.ctl = y.ctl ∧ z.state = if y.wait = .none then .ready else .waiting) ∧
  (∀ s d k b, (s.die d).test = some (k, 1, b) →
    (∃ t, exec (.infieldTestDone d true) s = .next t ∧ t.die d = { s.die d with spare := some b, test := none } ∧ t.crews = s.crews ∧
      ∀ g, g / 4 = 24 * d + k → (s.core g).arrays.rises = true → ∀ a, let r := s.arr g a
        t.arr g a = if r.state ≠ .offline then r else if r.group.isSome then { r with state := .storage } else Arr.unheld) ∧
    exec (.infieldTestDone d false) s = .next (s.updDie d fun x => { x with test := none, retired := b :: x.retired })) ∧
  (∀ s g, (s.core g).ctr.since + 1750000 ≤ s.cycle (g / 96) →
    let u := s.updCtr g fun k => { k with tmwin := k.cur, cur := 0, since := s.cycle (g / 96) }
    ((∀ e ∈ u.cores, e.1 / 96 = g / 96 → e.2.ctr.tmwin ≤ s.mg.tmthr) → exec (.timingWindow g) s = .next u) ∧
    ((∃ e ∈ u.cores, e.1 / 96 = g / 96 ∧ s.mg.tmthr < e.2.ctr.tmwin) → ∃ t, exec (.timingWindow g) s = .next t ∧ alarm s t fun _ => u)) ∧
  (∀ s d, d < 12 → (s.die d).clock < 2 → ∃ t, exec (.powerOverCap d) s = .next t ∧
    alarm s t fun s => s.updDie d fun x => { x with clock := x.clock + 1 }) ∧
  (∀ s b, exec (.refreshSlot b .refresh) s = .next s) ∧
  (∀ s b row l bad, ((s.dram (b / 65536)).atTime s.now).visitDue s.now (rowName b row) = false →
    exec (.refreshSlot b (.scrub row l bad)) s = .next s) ∧
  (∀ s b row l, ((s.dram (b / 65536)).atTime s.now).visitDue s.now (rowName b row) = true →
    ∃ t, exec (.refreshSlot b (.scrub row l [])) s = .next t ∧ { t with drams := s.drams } = s ∧
    (t.dram (b / 65536)).symbols = (s.dram (b / 65536)).symbols + l.length ∧
    (l ≠ [] → (b % 65536 * 2 ^ 32 + row % 2 ^ 32, s.now) ∈ (t.dram (b / 65536)).list)) ∧
  (∀ s b row l x bad, ((s.dram (b / 65536)).atTime s.now).visitDue s.now (rowName b row) = true → ∃ t, exec (.refreshSlot b (.scrub row l (x :: bad))) s = .next t ∧ t.mem.poisoned (32 * x) = true) ∧
  (∀ s b row, (s.bank b).due row = false → exec (.refreshSlot b (.swap row)) s = .next s) ∧
  (∀ s b row, (s.bank b).due row = true → let f := Config.freeNat s.free % Config.bankRows b; let place (r : Nat) : Nat := (s.bank b).map.getD r r
    ∃ t, exec (.refreshSlot b (.swap row)) s = .next t ∧ { t with banks := s.banks, free := s.free } = s ∧
      (t.bank b).map.getD row row = place f ∧ (t.bank b).map.getD f f = place row ∧
      (t.bank b).acts.find? row = none ∧ ∀ r, r ≠ row → r ≠ f → (t.bank b).map.getD r r = place r) ∧
  ∀ s b, let now := s.cycle (stackDie (b / 65536))
    (s.bank b).since + 56000000 ≤ now → exec (.refreshWindow b) s = .next (s.updBank b fun x => { x with acts := [], since := now })

/-- With no command under way and none waiting to report, each command of R353 begins and reports one event of kind 0, CMDHEAD taking its
sequence number: written where the ring has room, kept while fewer than 256 are, else the command waits. Install makes the entry LIVE with
the descriptor's fields and members, and is refused for each reason of R309; suspend, resume, kill and uninstall move their state, and are
refused in any other; partition add and remove move a cluster; invalidate drops the translations of a range and waits for the accesses
under way, or recalls the objects of a tag; migrate locks a 64 KiB or 2 MiB page of regions 0 and 1 that is not pinned; refill lengthens a
pool; control values, array return, LINKCTL, clock steps, windows and queue installation take effect, and arguments out of their range are
malformed (2). The model's choices: a cluster, array or link number out of range is malformed and a poisoned descriptor refused (log 47),
where a command's sequence number and result stand in its event and what an event names beside them (log 2), the banks whose scrub visits
start again (log 29), and an OFFLINE array that a group holds, which is in STORAGE again (log 40). -/
def Obligations.CommandsOfTheRing : Prop :=
  let room (s : State) : Prop := s.mg.kept = [] ∧ s.mg.evtail - s.mg.evhead < 4096
  (∀ s r c, s.mg.cmd = some c → s.mg.held = none →
    let u := finishCmd s r; let a := s.mg.evbase + 16 * ((s.mg.evtail + 1) % 4096)
    (room s → { u with mem := s.mem, mg := s.mg } = s ∧
      u.mg = { s.mg with cmd := none, cmdhead := c.seq, evtail := s.mg.evtail + 1, msix := (s.mg.owner.getD 0, s.mg.evvec % 2 ^ 11) :: s.mg.msix } ∧
      (∀ b, b < a ∨ a + 16 ≤ b → u.mem.read b = s.mem.read b) ∧
      (populated a 16 = true → bits (ofBytes ((List.range 16).map fun j => u.mem.read (a + j))) 63 48 = 0)) ∧
    (¬room s → s.mg.kept.length < 256 → ∃ e, e.kind = 0 ∧
      u = s.updMg fun m => { m with cmd := none, cmdhead := c.seq, kept := m.kept ++ [e] }) ∧
    (256 ≤ s.mg.kept.length → ∃ e, e.kind = 0 ∧ u = s.updMg fun m => { m with held := some e })) ∧
  (∀ s tag pa, Idle s → let x := s.mem.readLE pa 128; let run (r : Nat) : Prop := Reports (.install tag pa) s 1 tag r
    let shadow (die : Nat) : Nat := bits x 466 460 + ((s.ctxs.filter fun e => (e.2.members ++ e.2.retiring).any fun k => k / 24 == die).map
      fun (e : Nat × Context) => e.2.desc.shadow).sum
    let refuse : Prop := bits x 735 467 ≠ 0 ∨ bits x 455 448 = 0 ∨ bits x 455 448 ≠ tag ∨ (s.ctx? tag).isSome ∨ bits x 447 384 % 1024 ≠ 0 ∨
      bits x 383 320 % 65536 ≠ 0 ∨ bits x 319 256 % 64 ≠ 0 ∨ bits x 191 128 % 64 ≠ 0 ∨ bits x 127 64 % 16384 ≠ 0 ∨ bits x 63 0 % 4096 ≠ 0 ∨
      85 < bits x 466 460 ∨ 65536 < bits x 223 192 ∨ ∃ k < 288, x.testBit (736 + k) ∧ 85 < shadow (k / 24)
    let good : Prop := pa % 128 = 0 ∧ populated pa 128 = true ∧ region pa ≤ 3
    (¬good → run 2) ∧ (good → refuse → run 1) ∧
    (good → ¬refuse → (∀ i < 4, s.mem.poisoned (pa + 32 * i) = false) → ∃ u c, Performs (.install tag pa) s u ∧ u.ctx? tag = some c ∧
      c.state = .live ∧ c.bounds = [] ∧ c.desc = ⟨bits x 466 460, bits x 459 459, x.testBit 458, bits x 457 456, bits x 447 384, bits x 383 320,
        BitVec.ofNat 64 (bits x 319 256), bits x 255 224, bits x 223 192, bits x 191 128, bits x 127 64, bits x 63 0⟩ ∧
      (∀ k, k ∈ c.members ↔ k < 288 ∧ x.testBit (736 + k)) ∧ u.crews = s.crews ∧ ∀ k, k ≠ tag → u.ctx? k = s.ctx? k)) ∧
  (∀ s tag, Idle s → (s.ctx? tag = none → Reports (.suspend tag) s 2 tag 1 ∧ Reports (.resume tag) s 3 tag 1 ∧ Reports (.killCommand tag) s 4 tag 1 ∧
      Reports (.uninstall tag) s 5 tag 1 ∧ Reports (.invalidateShapes tag) s 9 tag 1) ∧
    ∀ x, s.ctx? tag = some x →
      (x.state ≠ .live → Reports (.suspend tag) s 2 tag 1) ∧
      (x.state = .live → (x.desc.swapa ≠ 0 ∨ swapExcess s tag x.desc = false) → ∃ t, exec (.suspend tag) s = .next t ∧ t.mg = (begun s 2 tag).mg ∧
        t.ctx? tag = some { x with state := .suspending } ∧
        (∀ c y, s.crew? c = some y → y.seat.tag = tag → y.state ≠ .suspended → y.state ≠ .draining →
          t.crew? c = some { y with req := { y.req with pre := true } }) ∧
        (∀ c, (∀ e ∈ s.crews, e.1 = c → e.2.seat.tag ≠ tag) → t.crew? c = s.crew? c) ∧
        ∀ g ∈ coresOf s tag, ∀ e ∈ (t.core g).chains, e.2.tag = tag → e.2.paused = true) ∧
      (x.state ≠ .swapped → Reports (.resume tag) s 3 tag 1) ∧
      (x.state = .swapped → exec (.resume tag) s = .next ((begun s 3 tag).updCtx tag fun x => { x with state := .restoring })) ∧
      (x.state = .killing ∨ x.state = .dead ∨ x.state = .restoring → Reports (.killCommand tag) s 4 tag 1) ∧
      (x.state ≠ .killing → x.state ≠ .dead → x.state ≠ .restoring → ∃ t, exec (.killCommand tag) s = .next t ∧ ContextKilled tag x ⟨6, 0, 0⟩ s t ∧
        t.mg.cmd = (begun s 4 tag).mg.cmd) ∧
      (x.state ≠ .dead → Reports (.uninstall tag) s 5 tag 1) ∧
      (x.state = .dead → ∃ u, Performs (.uninstall tag) s u ∧ u.ctx? tag = none ∧ u.mg = (begun s 5 tag).mg ∧ (∀ a, u.mem.read a = s.mem.read a) ∧
        u.crews = s.crews ∧
        (∀ k, k ≠ tag → u.ctx? k = s.ctx? k) ∧ (∀ e ∈ u.queues, e.1 / 256 ≠ tag) ∧ (∀ e ∈ u.walks, e.2.tag ≠ tag) ∧ (∀ e ∈ u.faults, e.2.tag ≠ tag) ∧
        ∀ e ∈ u.cores, (∀ b ∈ e.2.tlb, b.tag ≠ tag) ∧ (∀ l ∈ e.2.l1, l.2.tag ≠ tag) ∧ ∀ b ∈ e.2.tiles, b.2.tag ≠ tag) ∧
      (∃ u, Performs (.invalidateShapes tag) s u ∧
        ((∀ g, ∀ l ∈ (s.core g).l1, l.2.tag = tag → l.2.dirty ≠ [] → pathDown s g (128 * l.1) = false) → u.crews = s.crews) ∧ (∀ g, ∀ l ∈ (u.core g).l1, l.2.tag ≠ tag) ∧
        (x.desc.nshape = 0 → u.ctx? tag = some { x with shapes := [] }))) ∧
  (∀ s tag k, Idle s → (288 ≤ k → Reports (.partitionAdd tag k) s 6 tag 2 ∧ Reports (.partitionRemove tag k) s 7 tag 2) ∧
    (k < 288 → s.ctx? tag = none → Reports (.partitionAdd tag k) s 6 tag 1 ∧ Reports (.partitionRemove tag k) s 7 tag 1) ∧
    ∀ x, k < 288 → s.ctx? tag = some x →
      let here := (groupsOf s tag).any fun e => e.2.core / 4 == k
      (∃ u, ∃ y : Context, Performs (.partitionAdd tag k) s u ∧ u.ctx? tag = some { x with members := y.members, retiring := y.retiring } ∧
        { u with ctxs := s.ctxs } = begun s 6 tag ∧
        (∀ j, j ∈ y.members ↔ j = k ∨ j ∈ x.members) ∧ ∀ j, j ∈ y.retiring ↔ j ≠ k ∧ j ∈ x.retiring) ∧
      (x.state = .swapped → here = true → Reports (.partitionRemove tag k) s 7 tag 1) ∧
      (¬(x.state = .swapped ∧ here = true) → (k ∉ x.members → Reports (.partitionRemove tag k) s 7 tag 0) ∧
        (k ∈ x.members → ∃ u, ∃ y : Context, Performs (.partitionRemove tag k) s u ∧ u.ctx? tag = some { x with members := y.members, retiring := y.retiring } ∧
          { u with ctxs := s.ctxs } = begun s 7 tag ∧
          (∀ j, j ∈ y.members ↔ j ≠ k ∧ j ∈ x.members) ∧ ∀ j, j ∈ y.retiring ↔ (j = k ∧ here = true) ∨ j ∈ x.retiring))) ∧
  (∀ s tag lo hi, Idle s → hi < 2 ^ 57 → lo ≤ hi → ∃ u, u.crews = s.crews ∧ u.mem = s.mem ∧
    (∀ g, ∀ b, b ∈ (u.core g).tlb ↔ b ∈ (s.core g).tlb ∧ ¬(b.tag = tag ∧ b.va ≤ hi ∧ lo < b.va + b.size)) ∧
    (rangeOps s tag lo hi = [] → rangeFlight s tag lo hi = false → rangeFills s tag lo hi = [] → Performs (.invalidateRange tag lo hi) s u) ∧
    ((∃ g b n, (g, s.core g) ∈ s.cores ∧ b ∈ (s.core g).tlb ∧ b.tag = tag ∧ b.va ≤ hi ∧ lo < b.va + b.size ∧ n ∈ (s.core g).fills ∧
      pteAddr b.entry.toNat ≤ 128 * n ∧ 128 * n < pteAddr b.entry.toNat + b.size) → exec (.invalidateRange tag lo hi) s = .next u) ∧
    ((∃ c y q pa va m, (c, y) ∈ s.crews ∧ y.seat.tag = tag ∧ q ∈ y.sq ∧ Place.glob pa va m ∈ q.kind.places ∧ lo ≤ va ∧ va ≤ hi) →
      exec (.invalidateRange tag lo hi) s = .next u ∧ ∃ l : List Nat, ∃ f, u.mg.cmd = some ⟨s.mg.cmdhead + 1, 8, tag, l, f⟩ ∧
        ∀ c y q pa va m, (c, y) ∈ s.crews → y.seat.tag = tag → q ∈ y.sq → Place.glob pa va m ∈ q.kind.places → lo ≤ va → va ≤ hi → q.op ∈ l)) ∧
  (∀ s c tag lo hi, s.mg.cmd = some c → s.mg.held = none → c.code = 8 → c.tag = tag →
    ((∀ o ∈ c.ops, accessAlive s o = false) → rangeFlight s tag lo hi = false → (∀ f ∈ c.fills, f.2 ∉ (s.core f.1).fills) →
      Performs (.invalidateRange tag lo hi) s s) ∧
    (∀ f ∈ c.fills, f.2 ∈ (s.core f.1).fills → exec (.invalidateRange tag lo hi) s = .next s) ∧
    (∀ o ∈ c.ops, accessAlive s o = true → exec (.invalidateRange tag lo hi) s = .next s)) ∧
  (∀ s tag va pa x e l ptr, Idle s → s.ctx? tag = some x → canonical va = true → walk s.mem x.desc.troot va = .leaf e l ptr →
    let size := levelSize l; let old := pteAddr e
    (l = 2 ∨ ptePin e = true ∨ 2 ≤ region old ∨ pa % size ≠ 0 ∨ 2 ≤ region pa → Reports (.migrate tag va pa) s 0x0A tag 1) ∧
    (l ≤ 1 → ptePin e = false → region old ≤ 1 → migrating s old size = false → pa % size = 0 → populated pa size = true → region pa ≤ 1 →
      migrating s pa size = false → logRoom s (homeDie pa) = true →
      exec (.migrate tag va pa) s = .next (startMigration (begun s 0x0A tag) tag (va / size * size) size old pa 5 (homeDie pa) true))) ∧
  (∀ s die tier ring n, Idle s → (12 ≤ die ∨ 1 < tier ∨ populated ring (8 * n) = false → Reports (.framePoolRefill die tier ring n) s 0x0B 0 2) ∧
    (die < 12 → tier ≤ 1 → populated ring (8 * n) = true → let l := (List.range n).map fun i => s.mem.readLE (ring + 8 * i) 8
      Performs (.framePoolRefill die tier ring n) s ((begun s 0x0B 0).updTracker die fun t =>
        { t with hbm := t.hbm ++ (if tier = 0 then l else []), lpddr := t.lpddr ++ (if tier = 0 then [] else l) }))) ∧
  (∀ s v d, Idle s →
    ((v = 0 ∨ 2 ^ 32 ≤ v ∨ (12 ≤ d ∧ d ≠ 255)) → Reports (.setTrackerThreshold v d) s 0x0C 0 2) ∧
    ((v = 0 ∨ 2 ^ 32 ≤ v ∨ (24 ≤ d ∧ d ≠ 255)) → Reports (.setScrubPeriod v d) s 0x0C 0 2) ∧
    (0 < v → v < 2 ^ 32 → d < 12 ∨ d = 255 → ∃ u, Performs (.setTrackerThreshold v d) s u ∧ { u with trackers := s.trackers } = begun s 0x0C 0 ∧
      ∀ k < 12, u.tracker k = if d = 255 ∨ k = d then { s.tracker k with threshold := v } else s.tracker k) ∧
    (0 < v → v < 2 ^ 32 → d < 24 ∨ d = 255 → ∃ u, Performs (.setScrubPeriod v d) s u ∧
      (∀ k < 24, (u.dram k) = if d = 255 ∨ k = d then { s.dram k with period := v, visits := [], start := s.now } else s.dram k) ∧
      ∀ k < 24, d = 255 ∨ k = d → u.mg.scrubPeriod.find? k = some v)) ∧
  (∀ s v, Idle s → ((v = 1 ∨ v = 2 ∨ v = 3) → Reports (.setTestPeriod v) s 0x0C 0 2) ∧
    (v = 0 ∨ 4 ≤ v → Performs (.setTestPeriod v) s ((begun s 0x0C 0).updMg fun m => { m with testPeriod := v })) ∧
    (9600 < v → Reports (.setPowerCap v) s 0x0C 0 2) ∧
    (v ≤ 9600 → Performs (.setPowerCap v) s ((begun s 0x0C 0).updMg fun m => { m with powerCap := if v = 0 then 9600 else v }))) ∧
  (∀ s g a, Idle s → (1152 ≤ g ∨ 24 ≤ a → Reports (.returnArray g a) s 0x0D 0 2) ∧
    (g < 1152 → a < 24 → let r := s.arr g a
      (r.state = .offline → (s.core g).arrays.rises = true → ∃ u, Performs (.returnArray g a) s u ∧ { u with cores := s.cores } = begun s 0x0D 0 ∧
        u.arr g a = (if r.group.isSome then { r with state := .storage } else Arr.unheld) ∧
        (∀ b, b ≠ a → u.arr g b = s.arr g b) ∧ ∀ h, h ≠ g → u.core h = s.core h) ∧
      (r.state ≠ .offline → Reports (.returnArray g a) s 0x0D 0 1))) ∧
  (∀ s n lane, Idle s → let k := s.link n
    let ends (i : Instr) (p : Prop) (f : Link → Link) : Prop :=
      (p → Performs i s ((begun s 0x0E 0).updLink n f)) ∧ (¬p → Reports i s 0x0E 0 0)
    (linkLanes n = none → ∀ i ∈ [Instr.linkctlEnable n, .linkctlRetrain n, .linkctlSpare n lane, .linkctlDisable n], Reports i s 0x0E 0 2) ∧
    ∀ data spare, linkLanes n = some (data, spare) →
      ends (.linkctlEnable n) (k.state = .down) (fun k => { k with state := .training }) ∧
      ends (.linkctlRetrain n) (k.state = .up ∨ k.state = .degraded) (fun k => { k with state := .retrain }) ∧
      (data + spare ≤ lane → Reports (.linkctlSpare n lane) s 0x0E 0 2) ∧
      (lane < data + spare → (k.state ≠ .up → k.state ≠ .degraded → Reports (.linkctlSpare n lane) s 0x0E 0 0) ∧
        (k.state = .up ∨ k.state = .degraded → ∃ u, Performs (.linkctlSpare n lane) s u ∧ { u with links := s.links } = begun s 0x0E 0 ∧
          u.link n = { k with state := .retrain, want := if lane ∈ k.want ∨ lane ∈ k.mapped then k.want else k.want ++ [lane] } ∧
          ∀ j, j ≠ n → u.link j = s.link j)) ∧
      ∃ u d, Performs (.linkctlDisable n) s u ∧ d = min (k.lost + (k.buffer.filter (·.request)).length + (k.queue.filter fun p => p.vc != 1).length) 65535 ∧
        u.link n = { k with state := .down, lost := d, buffer := [], queue := [], used := [], credits := [], sent := 0, seq := 0, txSeq := 0 } ∧
        (∀ j, j ≠ n → u.link j = s.link j) ∧ u.mem = s.mem ∧ u.cores = s.cores ∧ (k.buffer = [] → k.queue = [] → u.crews = s.crews)) ∧
  (∀ s d c v, Idle s → (12 ≤ d ∨ 3 ≤ c ∨ 8 ≤ v → Reports (.dieClockStep d c v) s 0x0F 0 2) ∧
    (d < 12 → c < 3 → v < 8 → Performs (.dieClockStep d c v) s ((begun s 0x0F 0).updDie d fun x => { x with clock := c, supply := v }))) ∧
  (∀ s p e base size, Idle s → (16 ≤ p ∨ 16 ≤ e → Reports (.cletikWindowEntry p e base size) s 0x10 0 2) ∧
    (p < 16 → e < 16 → Performs (.cletikWindowEntry p e base size) s
      ((begun s 0x10 0).updLink (80 + p) fun k => { k with windows := k.windows.insert e (base, size) }))) ∧
  (∀ s tag q, Idle s → (256 ≤ q → Reports (.queueInstall tag q) s 0x11 tag 2) ∧
    (q < 256 → ctxAlive s tag = false ∨ (∃ x, s.queue? tag q = some x ∧ x.state ≠ .disabled) → Reports (.queueInstall tag q) s 0x11 tag 1) ∧
    (q < 256 → ctxAlive s tag = true → (∀ x, s.queue? tag q = some x → x.state = .disabled) →
      ∀ x u, readQueue (begun s 0x11 tag) tag q = (some x, u) →
      let bad : Prop := bits x 7 0 ≠ q ∨ bits x 10 8 ≠ 0 ∨ bits x 16 13 = 0 ∨ bits x 23 17 = 0 ∨ 64 < bits x 23 17 ∨ bits x 31 24 ≠ tag ∨
        bits x 63 32 ≠ 0 ∨ bits x 120 64 % 128 ≠ 0 ∨ bits x 367 121 ≠ 0
      (bad → ∃ v e, exec (.queueInstall tag q) s = .next (finishCmd (emit v e) 1) ∧ e.kind = 6 ∧ e.tag = tag ∧ e.loc % 256 = q ∧
        { v with free := u.free } = u) ∧
      (¬bad → ∃ v y, Performs (.queueInstall tag q) s v ∧ QueueTo tag q y u v ∧ y.state = (if x.testBit 11 then .active else .disabled) ∧
        y.device = x.testBit 12 ∧ y.logn = bits x 16 13 ∧ y.depth = bits x 23 17 ∧
        y.base = bits x 120 64 + (if x.testBit 120 then 2 ^ 64 - 2 ^ 57 else 0) ∧ y.closing = false ∧ y.tail = 0 ∧ y.taken = 0 ∧ y.head = 0 ∧
        y.done = [] ∧ y.ecode = 0))) ∧
  ∀ s, Idle s → Reports .malformedCommand s 0 0 2

/-- A write of EVHEAD writes as many kept events as slots are free, and with one free a waiting command completes. The first port to set
MOWN is designated; only its BAR0 takes writes, before that only MSTAT; each register takes its value, a doorbell page rings its queue
through its context's port. Package reset leaves what State.reset has, but memory, spare maps and retired clusters; a function-level reset
kills its port's contexts. A bring-up step ends once its links have trained; in steps 3 and 5 a failed link is FAULT; step 5 zeroes DRAM,
step 4 chooses spares, step 8 is READY. Links move as R350's table says, with their events; a margin below THR alarms and with AUTO
retrains. A good flit in sequence is taken; a peer's read or write within its window is performed at home, as are host accesses and
AtomicOps, each recalling the lines it meets; over a port that runs CXL a snoop sends one half of a line home. A read of a register gives
what R351 to R353 put there, and clears REPLAY or begins MINH again. The model's choices: which event follows a port trained below x16, the
lanes that training spares, what a KIND 3 flit returns and the vertical margin are free (log 2), the eye word before any measure (log 5),
the fields of events that R353 does not place (log 27), the payloads of flits (log 45), offsets and the owners of host and peer memory
(log 49), what comes from outside as a step (log 51), a packet under way when its link falls (log 70), the lane above the link in LOC of
event 4 and zero for what is only written (log 74). -/
def Obligations.ManagementLinksAndHost : Prop :=
  let clean (s : State) (pa : Nat) : Prop := ∀ g l, (s.core g).l1.find? (pa / 128) = some l → pa % 128 ∉ l.dirty
  let sole (s : State) (g pa : Nat) : Prop := ∀ h l, h ≠ g → (s.core h).l1.find? (pa / 128) = some l → pa % 128 ∉ l.dirty
  let open_ (s : State) (n : Nat) : Prop := (s.link n).state = .up ∨ (s.link n).state = .degraded
  let held (s : State) (pa n : Nat) : Prop := ∃ e ∈ s.migs, e.2.old < pa + n ∧ pa < e.2.old + e.2.size
  let near (pa n a : Nat) : Prop := pa ≤ a ∧ a < pa + n
  let stepLink (n k : Nat) : Prop := (n = 3 ∧ k ≤ 16) ∨ (n = 5 ∧ ((32 ≤ k ∧ k ≤ 55) ∨ (64 ≤ k ∧ k ≤ 75))) ∨ (n = 6 ∧ (k = 96 ∨ k = 97)) ∨
    (n = 7 ∧ 80 ≤ k ∧ k ≤ 95)
  let mg (s : State) (f : Manage → Manage) : Host.Outcome State Fault Refusal := .next (s.updMg f)
  let requests (k : Link) : Nat := (k.buffer.filter fun f => f.bits % 16 == 1 && bits f.bits 5 4 != 1).length + (k.queue.filter fun p => p.vc != 1).length
  let fall (k : Link) : Link := { k with state := .down, lost := min (k.lost + requests k) 65535, buffer := [], queue := [], used := [], credits := [],
                                         sent := 0, seq := 0, txSeq := 0 }
  (∀ s v, s.mg.held = none → let k := min s.mg.kept.length (v + 4096 - s.mg.evtail)
    ∃ t, exec (.evheadWrite v) s = .next t ∧ { t with mg := s.mg, mem := s.mem } = s ∧ t.mg.evhead = v ∧ t.mg.evtail = s.mg.evtail + k ∧
      t.mg.kept = s.mg.kept.drop k ∧ t.mg.cmd = s.mg.cmd ∧ t.mg.held = none) ∧
  (∀ s v e c, s.mg.held = some e → s.mg.cmd = some c → s.mg.kept.length = 256 → ∃ t, exec (.evheadWrite v) s = .next t ∧
    (s.mg.evtail < v + 4096 → t.mg.cmd = none ∧ t.mg.held = none ∧ t.mg.cmdhead = c.seq) ∧
    (v + 4096 ≤ s.mg.evtail → t = s.updMg fun m => { m with evhead := v })) ∧
  (∀ s p, exec (.mstatDesignate p) s = if s.mg.owner = none ∧ p < 2 then mg s fun m => { m with owner := some p } else .next s) ∧
  (∀ s, exec .mstatEvovfClear s = mg s fun m => { m with evovf := false }) ∧
  (∀ s n, exec (.mstatAtomicSizes 0 n) s = (mg s fun m => { m with atom0 := n % 16 }) ∧
    exec (.mstatAtomicSizes 1 n) s = mg s fun m => { m with atom1 := n % 16 }) ∧
  (∀ s n, (linkLanes n).isSome → let k := s.link n; ∃ t, exec (.linkStatusRead n) s = .next t ∧
    { t with links := s.links, free := s.free, mg := s.mg } = s ∧ t.link n = { k with replay := 0 } ∧ (∀ j, j ≠ n → t.link j = s.link j) ∧
    let w := t.mg.answer
    t.mg = { s.mg with answer := w } ∧ bits w 2 0 = k.state.code ∧ w.testBit 3 = k.auto ∧ bits w 15 4 = 0 ∧
      (k.width < 256 → bits w 23 16 = k.width) ∧ bits w 31 24 = k.spused % 256 ∧ bits w 47 32 = k.lost % 2 ^ 16 ∧ bits w 63 48 = k.replay % 2 ^ 16) ∧
  (∀ s p off, let r := (registerRead s p off).1
    (0x10000 ≤ off ∨ (∃ o, s.mg.owner = some o ∧ o ≠ p) → registerRead s p off = (0, s)) ∧
    (off < 0x10000 → (∀ o, s.mg.owner = some o → o = p) →
      (off = 0 → r.testBit 0 = s.mg.ready ∧ r.testBit 1 = s.mg.fault ∧ bits r 7 2 = 0 ∧ bits r 15 8 = s.mg.step % 256 ∧ bits r 19 16 = s.mg.atom0 % 16 ∧
        r.testBit 20 = (s.mg.owner == some p) ∧ r.testBit 21 = s.mg.evovf ∧ bits r 23 22 = 0 ∧ bits r 27 24 = s.mg.atom1 % 16) ∧
      (off = 0x18 → r = s.mg.cmdhead) ∧ (off = 0x28 → r = s.mg.evtail) ∧ (off = 0x48 → r = s.mg.frtail % 2 ^ 32) ∧ (off = 0x68 → r = s.mg.evdrop) ∧
      ∀ d < 12, off = 0x100 + 8 * d → r = (s.tracker d).tail)) ∧
  (∀ s data spare, linkLanes (s.mg.eyesel % 256) = some (data, spare) → let n := s.mg.eyesel % 256; let l := bits s.mg.eyesel 27 16
    (data + spare ≤ l → exec .eyewordRead s = mg s fun m => { m with answer := 0 }) ∧
    (l < data + spare → let e := (s.link n).eyes.getD l Eye.reset
      let w := e.v % 256 + e.h % 256 * 2 ^ 8 + e.minh % 256 * 2 ^ 16 + e.thr % 256 * 2 ^ 24
      exec .eyewordRead s = mg (s.updLink n fun k => { k with eyes := k.eyes.insert l { e with minh := e.h } }) fun m => { m with answer := w })) ∧
  (∀ s p off v, let run := exec (.registerWrite p off v) s
    (off < 65536 → ∀ o, s.mg.owner = some o → o ≠ p → run = .next s) ∧
    (off < 65536 → s.mg.owner = none → off ≠ 0 → run = .next s) ∧
    (off = 0 → (s.mg.owner = none ∧ p < 2) ∨ s.mg.owner = some p → run = mg s fun m =>
      { m with atom0 := bits v 19 16, atom1 := bits v 27 24, owner := if m.owner = none ∧ v.testBit 20 = true then some p else m.owner,
               evovf := m.evovf && !v.testBit 21 }) ∧
    (s.mg.owner = some p →
      (off = 0x08 → run = mg s fun m => { m with cmdbase := v }) ∧ (off = 0x10 → run = mg s fun m => { m with cmdtail := v }) ∧
      (off = 0x20 → run = mg s fun m => { m with evbase := v }) ∧ (off = 0x30 → run = mg s fun m => { m with evvec := v }) ∧
      (off = 0x38 → run = exec (.evheadWrite v) s) ∧ (off = 0x40 → run = mg s fun m => { m with frbase := v }) ∧
      (off = 0x60 → run = mg s fun m => { m with tmthr := v }) ∧ (off = 0x80 → run = mg s fun m => { m with mlbase := v }) ∧
      (∀ seq, off = 0x50 → seq % 2 ^ 32 = bits v 63 32 → seq ≤ s.mg.frtail → s.mg.frtail < seq + 2 ^ 32 →
        (v % 4 = 0 → run = exec (.freplyRetry seq) s) ∧ (v % 4 = 1 → run = exec (.freplyDecline seq) s)) ∧
      (∀ seq, off = 0x58 → seq % 2 ^ 32 = v % 2 ^ 32 → seq ≤ s.mg.frtail → s.mg.frtail < seq + 2 ^ 32 → run = exec (.frheadWrite seq) s) ∧
      (off = 0x70 → run = mg s fun m => { m with eyesel := bits v 7 0 + bits v 27 16 * 2 ^ 16 }) ∧
      (∀ data spare, off = 0x78 → let n := s.mg.eyesel % 256; let l := bits s.mg.eyesel 27 16
        linkLanes n = some (data, spare) → l < data + spare →
        run = .next (s.updLink n fun k => { k with eyes := k.eyes.insert l { k.eyes.getD l Eye.reset with thr := bits v 31 24 } })) ∧
      (∀ d < 12, off = 0x180 + 8 * d → run = exec (.mlheadWrite d v) s) ∧
      ∀ n, (linkLanes n).isSome → off = 0x2000 + 64 * n → run = .next (s.updLink n fun k => { k with auto := v.testBit 3 })) ∧
    (∀ tag q c, s.ctx? tag = some c → q < 256 →
      (c.desc.hport ≠ p ∨ 2 ^ 32 ≤ v → off = 0x10000 + 4096 * tag + 16 * q → run = .next s) ∧
      (c.desc.hport = p → v < 2 ^ 32 → (off = 0x10000 + 4096 * tag + 16 * q → run = exec (.doorbell tag q v) s) ∧
        (off = 0x10000 + 4096 * tag + 16 * q + 8 → (v = 1 → run = exec (.queueSuspend tag q) s) ∧ (v = 2 → run = exec (.queueResume tag q) s) ∧
          (v = 3 → run = exec (.queueDisable tag q) s))))) ∧
  (∀ s, ∃ t, exec .packageReset s = .next t ∧
    { t with due := [], tick := 0, free := 0, nextId := 0, mem := State.reset.mem, links := [], dies := [] } = State.reset ∧
    t.mem.cells = s.mem.cells ∧ t.mem.poison = s.mem.poison ∧ (∀ n, t.link n = { Link.down with spused := (s.link n).spused, mapped := (s.link n).mapped }) ∧
    ∀ d, (∀ e ∈ s.dies, e.1 = d → e.2.retired = (s.die d).retired) → t.die d = { Die.reset with retired := (s.die d).retired }) ∧
  (∀ s p, ∃ t, exec (.functionLevelReset p) s = .next t ∧ t.mg.owner = (if s.mg.owner = some p then none else s.mg.owner) ∧
    (∀ tag x, s.ctx? tag = some x → x.desc.hport = p → x.state ≠ .killing → x.state ≠ .dead → x.state ≠ .restoring →
      t.ctx? tag = some { x with state := .killing, why := some ⟨6, 0, 0⟩, saved := [] } ∧
      ∀ c y, s.crew? c = some y → y.seat.tag = tag → CrewKilled c y t) ∧
    ∀ k, (∀ e ∈ s.ctxs, e.1 = k → e.2.desc.hport ≠ p) → t.ctx? k = s.ctx? k) ∧
  (∀ s, let n := s.mg.step
    (s.mg.fault = true ∨ 8 ≤ n ∨ (∃ k, stepLink n k ∧ (s.link k).state = .training) → exec .bringUpStepDone s = .next s) ∧
    (s.mg.fault = false → n < 8 → (∀ k, stepLink n k → (s.link k).state ≠ .training) →
      ((n = 3 ∨ n = 5) → (∃ k, stepLink n k ∧ (s.link k).state = .down) → exec .bringUpStepDone s = mg s fun m => { m with fault := true }) ∧
      (¬((n = 3 ∨ n = 5) ∧ ∃ k, stepLink n k ∧ (s.link k).state = .down) → ∃ t, exec .bringUpStepDone s = .next t ∧
        t.mg = { s.mg with step := n + 1, ready := decide (n = 7) } ∧ t.crews = s.crews ∧
        (∀ k, (stepLink (n + 1) k → (s.link k).state = .down → t.link k = { s.link k with state := .training }) ∧
          (¬stepLink (n + 1) k → t.link k = s.link k)) ∧
        (∀ a, t.mem.read a = if n = 5 ∧ region a ≤ 1 then 0 else s.mem.read a) ∧
        (n ≠ 4 → t.dies = s.dies) ∧
        (n = 4 → ∀ d < 12, ∃ b, t.die d = { s.die d with spare := (t.die d).spare, clmap := (t.die d).clmap } ∧
          (∀ k < 24, (t.die d).clmap.getD k k = if k < b then k else k + 1) ∧
          ((s.die d).retired = [] → b < 25 ∧ (t.die d).spare = some b) ∧ ∀ r l, (s.die d).retired = r :: l → b = r ∧ (t.die d).spare = none)))) ∧
  (∀ s n data spare, linkLanes n = some (data, spare) → let k := s.link n
    (k.state = .training →
      (∃ t c, exec (.linkTrained n data) s = .next t ∧ LinkEvents n 1 { k with state := .up, width := data, cxl := c } s t ∧ (n < 96 → c = false)) ∧
      (96 ≤ n → ∀ w, w = 8 ∨ w = 4 → ∃ t c, exec (.linkTrained n w) s = .next t ∧
        (LinkEvents n 1 { k with state := .degraded, width := w, cxl := c } s t ∨ LinkEvents n 2 { k with state := .degraded, width := w, cxl := c } s t)) ∧
      (k.spused < spare → ∃ t, ∃ j < data, exec (.linkLaneFailure n) s = .next t ∧
        LinkEvents n 2 { k with state := .degraded, spused := k.spused + 1, width := data, mapped := k.mapped ++ [j] } s t) ∧
      (spare ≤ k.spused → ∃ t, exec (.linkLaneFailure n) s = .next t ∧ t.link n = fall k ∧
        (k.buffer = [] → k.queue = [] → LinkEvents n 3 (fall k) s t)) ∧
      ∃ t, exec (.linkTrainTimeout n) s = .next t ∧ t.link n = fall k ∧ (k.buffer = [] → k.queue = [] → LinkEvents n 3 (fall k) s t)) ∧
    (k.state ≠ .training → (∀ w, exec (.linkTrained n w) s = .next s) ∧ exec (.linkLaneFailure n) s = .next s ∧ exec (.linkTrainTimeout n) s = .next s) ∧
    (k.state = .retrain →
      (k.queue = [] → k.spused ≤ spare → k.want = [] ∨ k.spused = spare → exec (.linkRetrained n 0) s = .next (s.updLink n fun k =>
        { k with state := if k.spused = 0 then .up else .degraded, want := [], sent := 0 })) ∧
      (∀ m, k.queue = [] → 0 < m → k.spused + m ≤ spare → min k.want.length (spare - k.spused) ≤ m → ∃ t l, exec (.linkRetrained n m) s = .next t ∧
        l.length = m ∧ k.want.take (spare - k.spused) <+: l ∧
        LinkEvents n 2 { k with state := .degraded, spused := k.spused + m, mapped := k.mapped ++ l, want := [], sent := 0 } s t) ∧
      ∃ t, exec (.linkRetrainFailure n) s = .next t ∧ t.link n = fall k ∧ (k.buffer = [] → k.queue = [] → t = s.updLink n fun _ => fall k)) ∧
    (k.state ≠ .retrain → (∀ m, exec (.linkRetrained n m) s = .next s) ∧ exec (.linkRetrainFailure n) s = .next s) ∧
    (exec (.replayThreshold n) s = .next (if k.state = .up ∨ k.state = .degraded then
      s.updLink n fun k => { k with state := .retrain, replay := min (k.replay + 16) 65535 } else s)) ∧
    ∀ lane h, lane < data + spare → h < 256 → let e := k.eyes.getD lane Eye.reset
      ∃ v < 256, ∃ k', k' = { k with eyes := k.eyes.insert lane { e with h := h, minh := min e.minh h, v := v } } ∧ ∃ t,
      exec (.marginAlarm n lane h) s = .next t ∧ (e.thr ≤ min e.minh h → { t with free := s.free } = s.updLink n fun _ => k') ∧
      (min e.minh h < e.thr → ∃ u w x, u = emit w x ∧ x.kind = 5 ∧ x.data = 4 ∧ x.loc = n + 256 * lane ∧
        { w with free := s.free } = (s.updLink n fun _ => k') ∧
        t = if k.auto = true ∧ (k.state = .up ∨ k.state = .degraded) then u.updLink n fun _ =>
          { k' with state := .retrain, want := if lane ∈ k.want ∨ lane ∈ k.mapped then k.want else k.want ++ [lane] } else u)) ∧
  (∀ s p flit crc, p < 16 → let n := 80 + p; let k := s.link n; let vc := bits flit 5 4
    (¬open_ s n ∨ crc = false ∨ 5 ≤ flit % 16 ∨ bits flit 15 6 ≠ k.seq → exec (.flitReceive p flit crc) s = .next s) ∧
    (open_ s n → crc = true → flit % 16 < 5 → bits flit 15 6 = k.seq → ∃ t, exec (.flitReceive p flit crc) s = .next t ∧
      { t with links := s.links, free := s.free } = s ∧ (∀ m, m ≠ n → t.link m = s.link m) ∧
      let k' := { k with seq := (k.seq + 1) % 1024 }
      (flit % 16 = 0 → t.link n = k') ∧
      (flit % 16 = 1 ∨ flit % 16 = 2 → t.link n = { k' with credits := k.credits.insert vc (min 128 (k.credits.getD vc 0 + 1)) }) ∧
      (flit % 16 = 3 → k.queue = [] → ∃ j u, j ≤ k.sent ∧ t.link n = { k' with buffer := k.buffer.drop j, sent := k.sent - j, used := u } ∧
        ∀ c, SMap.getD u c 0 ≤ k.used.getD c 0) ∧
      (flit % 16 = 4 → t.link n = { k' with replay := min (k.replay + 1) 65535, sent := 0 }))) ∧
  (∀ s p write a n data, p < 16 → let l := 80 + p; let w := (s.link l).windows.getD (bits a 43 40) (0, 0); let pa := w.1 + bits a 39 0
    let run := exec (.cletikRequest p write a n data) s
    let flits := if write = true then 1 else 1 + (n + 59) / 60
    (¬open_ s l → run = .next s) ∧
    (open_ s l → a < 2 ^ 44 → bits a 39 0 + n ≤ w.2 → populated pa n = true → region pa ≤ 1 →
      (write = true → held s pa n → run = .next s) ∧
      (¬(write = true ∧ held s pa n) → ∃ t, run = .next t ∧ t.crews = s.crews ∧
        ((s.link l).queue = [] → (s.link l).buffer.length + flits ≤ 1024 → (t.link l).txSeq = ((s.link l).txSeq + flits) % 1024 ∧
          (t.link l).buffer.take (s.link l).buffer.length = (s.link l).buffer ∧ (t.link l).buffer.length = (s.link l).buffer.length + flits) ∧
        (t.link l).credits.getD 0 0 = (s.link l).credits.getD 0 0 - (1 + (if write = true then (n + 59) / 60 else 0)) ∧
        (∀ i, t.mem.read i = if write = true ∧ near pa n i then (toBytes n data).getD (i - pa) 0 else s.mem.read i))) ∧
    (open_ s l → w.2 < bits a 39 0 + n → ∃ t, run = .next t ∧ t.mem = s.mem ∧
      ((s.link l).queue = [] → (s.link l).buffer.length < 1024 → (t.link l).txSeq = ((s.link l).txSeq + 1) % 1024))) ∧
  (∀ s p write a n data, let run := exec (.hostMemoryAccess p write a n data) s
    (region a ≤ 1 → ¬(p < 2 ∧ open_ s (96 + p)) → run = .next s) ∧ (write = true → held s a n → run = .next s) ∧
    ((region a ≤ 1 → p < 2 ∧ open_ s (96 + p)) → 0 < n → populated a n = true → ¬(write = true ∧ held s a n) →
      (∀ g i l, near a n i → (s.core g).l1.find? (i / 128) = some l → l.dirty ≠ [] → pathDown s g (128 * (i / 128)) = false) →
      ∃ t, run = .next t ∧ t.crews = s.crews ∧
      (∀ i, near a n i → ∀ g, (t.core g).l1.find? (i / 128) = none) ∧
      (write = true → ∀ i, near a n i → t.mem.read i = (toBytes n data).getD (i - a) 0) ∧
      (write = false → ∀ i g, near a n i → sole s g i → t.mem.read i = homeByte s g i) ∧
      ∀ i, ¬near a n i → clean s i → t.mem.read i = s.mem.read i)) ∧
  (∀ s p op a n data, p < 2 → open_ s (96 + p) → populated a n = true → region a ≤ 1 → a % n = 0 →
    (n = 4 ∨ n = 8 ∨ (op = .cas ∧ n = 16)) → ¬held s a n → (∀ g, (s.core g).l1.find? (a / 128) = none) →
    ∃ t, exec (.hostAtomicop p op a n data) s = .next t ∧ t.crews = s.crews ∧ (∀ i, ¬near a n i → t.mem.read i = s.mem.read i) ∧
      ∀ old, old = ofBytes ((List.range n).map fun i => s.mem.read (a + i)) → let w := 2 ^ (8 * n)
        let new := match op with
          | .fetchAdd => old + data
          | .swap => data
          | .cas => if old = data % w then data / w else old
        ∀ i < n, t.mem.read (a + i) = (toBytes n (new % w)).getD i 0) ∧
  (∀ s p a write, (s.link (96 + p)).cxl = false → exec (.cxlSnoop p a write) s = .next s) ∧
  ∀ s p a write, p < 2 → open_ s (96 + p) → (s.link (96 + p)).cxl = true → region a = 2 + p → let half (i : Nat) : Prop := i / 64 = a / 64
    ∃ t, exec (.cxlSnoop p a write) s = .next t ∧ t.crews = s.crews ∧
      (∀ i g, half i → sole s g i → t.mem.read i = homeByte s g i) ∧ (∀ i, ¬half i → t.mem.read i = s.mem.read i) ∧
      ∀ g l, (s.core g).l1.find? (a / 128) = some l → ∃ l', (t.core g).l1.find? (a / 128) = some l' ∧
        (∀ i, i ∈ l'.dirty ↔ i ∈ l.dirty ∧ (128 * (a / 128) + i) / 64 ≠ a / 64) ∧
        (write = false → l'.bytes = l.bytes) ∧
        (write = true → l'.filled = false ∧ ∀ i, l'.bytes.find? i = if (128 * (a / 128) + i) / 64 = a / 64 then none else l.bytes.find? i)

/-- The worked encodings of the manual (its three stored words, the last first) decode to the instruction it says each is: VFMA and SMOVI,
BRV, XPART.ID, LDG, STG, SADD and BRU of the loop, SATOM.cas.B128, ARMODE.reef, MMA, BARAW, LAUNCH, TRET.skip and GETSR; and the all-ones
word is no instruction, for reason 1. -/
def Obligations.WorkedWordsDecode : Prop :=
  let h (wait : BitVec 7) (tag : BitVec 3) (look : BitVec 4) : Hdr := ⟨false, wait, tag, look, none⟩
  let w (a b c : BitVec 32) : BitVec 96 := c ++ b ++ a
  decodeWord (w 0x8080A45B 0x40000001 0x04420000) = .ok (.vfma (h 4 2 1) ⟨.f32, .rn, false, false, false, .v 10, .v 4, .v 6, .v 8⟩) ∧
  decodeWord (w 0x00154312 0x048D159E 0x00018A30) = .ok (.smovi ⟨false, 0, 0, 0, some ⟨true, 5, 3⟩⟩ ⟨false, .s 20, 0x12345678⟩) ∧
  decodeWord (w 0x38200023 0x0000C001 0) = .ok (.brv (h 0 0 0) ⟨.m 1, 3, 4⟩) ∧
  decodeWord (w 0x0101427A 0 0x00260000) = .ok (.xpart (h 0 1 3) ⟨.id, .v 20, .v 8⟩) ∧
  decodeWord (w 0x6880228A 0x00000174 0x00220000) = .ok (.ldg (h 0 1 1) ⟨.n32, 2, false, .v 2, .s 4, .lid, ⟨0, 0, 0, none⟩⟩) ∧
  decodeWord (w 0x68C0028B 0x20000174 0) = .ok (.stg (h 0 0 0) ⟨.n32, 2, false, .v 4, .s 6, .lid, ⟨0, 0, 0, none⟩⟩) ∧
  decodeWord (w 0x28944301 0x00000052 0) = .ok (.sadd (h 0 0 0) ⟨.n64, .s 4, .s 4, .s 8⟩) ∧
  decodeWord (w 0x29200321 0x7FFFFFFE 0) = .ok (.bru (h 0 0 0) ⟨.ne, .n64, .s 9, 0xFFFFFFF8⟩) ∧
  decodeWord (w 0x2BD6849B 0x65C003F4 0x0020000B) =
    .ok (.satom (h 0 1 0) ⟨.b128, .cas, false, .s 40, .s 30, .zero, .s 44, ⟨5, 3, 0, none⟩⟩) ∧
  decodeWord (w 0xE84000A8 0x000005D0 0x00200000) = .ok (.armodeReef (h 0 1 0) ⟨5, .s 2, .s 3⟩) ∧
  decodeWord (w 0x020400AA 0x60000052 0x0048000A) = .ok (.mma (h 0 2 4) ⟨.v 64, .v 16, .s 8, .s 12⟩) ∧
  decodeWord (w 0x68D540A3 0x00000201 0x00200000) = .ok (.baraw (h 0 1 0) ⟨.s 20, .s 6, 5, 1⟩) ∧
  decodeWord (w 0x691540BB 0x00000052 0x00600000) = .ok (.launch (h 0 3 0) ⟨.s 20, .s 8, .s 9⟩) ∧
  decodeWord (w 0x000001C1 0 0) = .ok (.tret (h 0 0 0) .skip) ∧
  decodeWord (w 0x001540C2 0x00001080 0) = .ok (.getsr (h 0 0 0) ⟨.s 20, .tcause⟩) ∧
  decodeWord (BitVec.allOnes 96) = .error 1
end

