-- ==== Sys2Proof/Laws/State.lean ====
section
/-!
SUPPORT. The fields that each update of the state leaves alone, one lemma for each, and what an update of a crew leaves.
-/
namespace Sys2Proof.Machine.State

/-! ### setCrew -/

@[simp] theorem setCrew_cur (s : State) (c : Nat) (x : Crew) : (s.setCrew c x).cur = s.cur := rfl
@[simp] theorem setCrew_turn (s : State) (c : Nat) (x : Crew) : (s.setCrew c x).turn = s.turn := rfl
@[simp] theorem setCrew_due (s : State) (c : Nat) (x : Crew) : (s.setCrew c x).due = s.due := rfl
@[simp] theorem setCrew_tick (s : State) (c : Nat) (x : Crew) : (s.setCrew c x).tick = s.tick := rfl
@[simp] theorem setCrew_free (s : State) (c : Nat) (x : Crew) : (s.setCrew c x).free = s.free := rfl
@[simp] theorem setCrew_nextId (s : State) (c : Nat) (x : Crew) : (s.setCrew c x).nextId = s.nextId := rfl
@[simp] theorem setCrew_now (s : State) (c : Nat) (x : Crew) : (s.setCrew c x).now = s.now := rfl
@[simp] theorem setCrew_mem (s : State) (c : Nat) (x : Crew) : (s.setCrew c x).mem = s.mem := rfl
@[simp] theorem setCrew_cores (s : State) (c : Nat) (x : Crew) : (s.setCrew c x).cores = s.cores := rfl
@[simp] theorem setCrew_ops (s : State) (c : Nat) (x : Crew) : (s.setCrew c x).ops = s.ops := rfl
@[simp] theorem setCrew_groups (s : State) (c : Nat) (x : Crew) : (s.setCrew c x).groups = s.groups := rfl
@[simp] theorem setCrew_convoys (s : State) (c : Nat) (x : Crew) : (s.setCrew c x).convoys = s.convoys := rfl
@[simp] theorem setCrew_launches (s : State) (c : Nat) (x : Crew) : (s.setCrew c x).launches = s.launches := rfl
@[simp] theorem setCrew_queues (s : State) (c : Nat) (x : Crew) : (s.setCrew c x).queues = s.queues := rfl
@[simp] theorem setCrew_lastQueue (s : State) (c : Nat) (x : Crew) : (s.setCrew c x).lastQueue = s.lastQueue := rfl
@[simp] theorem setCrew_ctxs (s : State) (c : Nat) (x : Crew) : (s.setCrew c x).ctxs = s.ctxs := rfl
@[simp] theorem setCrew_walks (s : State) (c : Nat) (x : Crew) : (s.setCrew c x).walks = s.walks := rfl
@[simp] theorem setCrew_faults (s : State) (c : Nat) (x : Crew) : (s.setCrew c x).faults = s.faults := rfl
@[simp] theorem setCrew_migs (s : State) (c : Nat) (x : Crew) : (s.setCrew c x).migs = s.migs := rfl
@[simp] theorem setCrew_trackers (s : State) (c : Nat) (x : Crew) : (s.setCrew c x).trackers = s.trackers := rfl
@[simp] theorem setCrew_drams (s : State) (c : Nat) (x : Crew) : (s.setCrew c x).drams = s.drams := rfl
@[simp] theorem setCrew_banks (s : State) (c : Nat) (x : Crew) : (s.setCrew c x).banks = s.banks := rfl
@[simp] theorem setCrew_links (s : State) (c : Nat) (x : Crew) : (s.setCrew c x).links = s.links := rfl
@[simp] theorem setCrew_mg (s : State) (c : Nat) (x : Crew) : (s.setCrew c x).mg = s.mg := rfl
@[simp] theorem setCrew_dies (s : State) (c : Nat) (x : Crew) : (s.setCrew c x).dies = s.dies := rfl

/-! ### updCore -/

@[simp] theorem updCore_cur (s : State) (g : Nat) (f : Core → Core) : (s.updCore g f).cur = s.cur := rfl
@[simp] theorem updCore_turn (s : State) (g : Nat) (f : Core → Core) : (s.updCore g f).turn = s.turn := rfl
@[simp] theorem updCore_due (s : State) (g : Nat) (f : Core → Core) : (s.updCore g f).due = s.due := rfl
@[simp] theorem updCore_tick (s : State) (g : Nat) (f : Core → Core) : (s.updCore g f).tick = s.tick := rfl
@[simp] theorem updCore_free (s : State) (g : Nat) (f : Core → Core) : (s.updCore g f).free = s.free := rfl
@[simp] theorem updCore_nextId (s : State) (g : Nat) (f : Core → Core) : (s.updCore g f).nextId = s.nextId := rfl
@[simp] theorem updCore_now (s : State) (g : Nat) (f : Core → Core) : (s.updCore g f).now = s.now := rfl
@[simp] theorem updCore_mem (s : State) (g : Nat) (f : Core → Core) : (s.updCore g f).mem = s.mem := rfl
@[simp] theorem updCore_crews (s : State) (g : Nat) (f : Core → Core) : (s.updCore g f).crews = s.crews := rfl
@[simp] theorem updCore_ops (s : State) (g : Nat) (f : Core → Core) : (s.updCore g f).ops = s.ops := rfl
@[simp] theorem updCore_groups (s : State) (g : Nat) (f : Core → Core) : (s.updCore g f).groups = s.groups := rfl
@[simp] theorem updCore_convoys (s : State) (g : Nat) (f : Core → Core) : (s.updCore g f).convoys = s.convoys := rfl
@[simp] theorem updCore_launches (s : State) (g : Nat) (f : Core → Core) : (s.updCore g f).launches = s.launches := rfl
@[simp] theorem updCore_queues (s : State) (g : Nat) (f : Core → Core) : (s.updCore g f).queues = s.queues := rfl
@[simp] theorem updCore_lastQueue (s : State) (g : Nat) (f : Core → Core) : (s.updCore g f).lastQueue = s.lastQueue := rfl
@[simp] theorem updCore_ctxs (s : State) (g : Nat) (f : Core → Core) : (s.updCore g f).ctxs = s.ctxs := rfl
@[simp] theorem updCore_walks (s : State) (g : Nat) (f : Core → Core) : (s.updCore g f).walks = s.walks := rfl
@[simp] theorem updCore_faults (s : State) (g : Nat) (f : Core → Core) : (s.updCore g f).faults = s.faults := rfl
@[simp] theorem updCore_migs (s : State) (g : Nat) (f : Core → Core) : (s.updCore g f).migs = s.migs := rfl
@[simp] theorem updCore_trackers (s : State) (g : Nat) (f : Core → Core) : (s.updCore g f).trackers = s.trackers := rfl
@[simp] theorem updCore_drams (s : State) (g : Nat) (f : Core → Core) : (s.updCore g f).drams = s.drams := rfl
@[simp] theorem updCore_banks (s : State) (g : Nat) (f : Core → Core) : (s.updCore g f).banks = s.banks := rfl
@[simp] theorem updCore_links (s : State) (g : Nat) (f : Core → Core) : (s.updCore g f).links = s.links := rfl
@[simp] theorem updCore_mg (s : State) (g : Nat) (f : Core → Core) : (s.updCore g f).mg = s.mg := rfl
@[simp] theorem updCore_dies (s : State) (g : Nat) (f : Core → Core) : (s.updCore g f).dies = s.dies := rfl

/-! ### updSched -/

@[simp] theorem updSched_cur (s : State) (g t : Nat) (f : Sched → Sched) : (s.updSched g t f).cur = s.cur := rfl
@[simp] theorem updSched_turn (s : State) (g t : Nat) (f : Sched → Sched) : (s.updSched g t f).turn = s.turn := rfl
@[simp] theorem updSched_due (s : State) (g t : Nat) (f : Sched → Sched) : (s.updSched g t f).due = s.due := rfl
@[simp] theorem updSched_tick (s : State) (g t : Nat) (f : Sched → Sched) : (s.updSched g t f).tick = s.tick := rfl
@[simp] theorem updSched_free (s : State) (g t : Nat) (f : Sched → Sched) : (s.updSched g t f).free = s.free := rfl
@[simp] theorem updSched_nextId (s : State) (g t : Nat) (f : Sched → Sched) : (s.updSched g t f).nextId = s.nextId := rfl
@[simp] theorem updSched_now (s : State) (g t : Nat) (f : Sched → Sched) : (s.updSched g t f).now = s.now := rfl
@[simp] theorem updSched_mem (s : State) (g t : Nat) (f : Sched → Sched) : (s.updSched g t f).mem = s.mem := rfl
@[simp] theorem updSched_crews (s : State) (g t : Nat) (f : Sched → Sched) : (s.updSched g t f).crews = s.crews := rfl
@[simp] theorem updSched_ops (s : State) (g t : Nat) (f : Sched → Sched) : (s.updSched g t f).ops = s.ops := rfl
@[simp] theorem updSched_groups (s : State) (g t : Nat) (f : Sched → Sched) : (s.updSched g t f).groups = s.groups := rfl
@[simp] theorem updSched_convoys (s : State) (g t : Nat) (f : Sched → Sched) : (s.updSched g t f).convoys = s.convoys := rfl
@[simp] theorem updSched_launches (s : State) (g t : Nat) (f : Sched → Sched) : (s.updSched g t f).launches = s.launches := rfl
@[simp] theorem updSched_queues (s : State) (g t : Nat) (f : Sched → Sched) : (s.updSched g t f).queues = s.queues := rfl
@[simp] theorem updSched_lastQueue (s : State) (g t : Nat) (f : Sched → Sched) : (s.updSched g t f).lastQueue = s.lastQueue := rfl
@[simp] theorem updSched_ctxs (s : State) (g t : Nat) (f : Sched → Sched) : (s.updSched g t f).ctxs = s.ctxs := rfl
@[simp] theorem updSched_walks (s : State) (g t : Nat) (f : Sched → Sched) : (s.updSched g t f).walks = s.walks := rfl
@[simp] theorem updSched_faults (s : State) (g t : Nat) (f : Sched → Sched) : (s.updSched g t f).faults = s.faults := rfl
@[simp] theorem updSched_migs (s : State) (g t : Nat) (f : Sched → Sched) : (s.updSched g t f).migs = s.migs := rfl
@[simp] theorem updSched_trackers (s : State) (g t : Nat) (f : Sched → Sched) : (s.updSched g t f).trackers = s.trackers := rfl
@[simp] theorem updSched_drams (s : State) (g t : Nat) (f : Sched → Sched) : (s.updSched g t f).drams = s.drams := rfl
@[simp] theorem updSched_banks (s : State) (g t : Nat) (f : Sched → Sched) : (s.updSched g t f).banks = s.banks := rfl
@[simp] theorem updSched_links (s : State) (g t : Nat) (f : Sched → Sched) : (s.updSched g t f).links = s.links := rfl
@[simp] theorem updSched_mg (s : State) (g t : Nat) (f : Sched → Sched) : (s.updSched g t f).mg = s.mg := rfl
@[simp] theorem updSched_dies (s : State) (g t : Nat) (f : Sched → Sched) : (s.updSched g t f).dies = s.dies := rfl

/-! ### updArr -/

@[simp] theorem updArr_cur (s : State) (g a : Nat) (f : Arr → Arr) : (s.updArr g a f).cur = s.cur := rfl
@[simp] theorem updArr_turn (s : State) (g a : Nat) (f : Arr → Arr) : (s.updArr g a f).turn = s.turn := rfl
@[simp] theorem updArr_due (s : State) (g a : Nat) (f : Arr → Arr) : (s.updArr g a f).due = s.due := rfl
@[simp] theorem updArr_tick (s : State) (g a : Nat) (f : Arr → Arr) : (s.updArr g a f).tick = s.tick := rfl
@[simp] theorem updArr_free (s : State) (g a : Nat) (f : Arr → Arr) : (s.updArr g a f).free = s.free := rfl
@[simp] theorem updArr_nextId (s : State) (g a : Nat) (f : Arr → Arr) : (s.updArr g a f).nextId = s.nextId := rfl
@[simp] theorem updArr_now (s : State) (g a : Nat) (f : Arr → Arr) : (s.updArr g a f).now = s.now := rfl
@[simp] theorem updArr_mem (s : State) (g a : Nat) (f : Arr → Arr) : (s.updArr g a f).mem = s.mem := rfl
@[simp] theorem updArr_crews (s : State) (g a : Nat) (f : Arr → Arr) : (s.updArr g a f).crews = s.crews := rfl
@[simp] theorem updArr_ops (s : State) (g a : Nat) (f : Arr → Arr) : (s.updArr g a f).ops = s.ops := rfl
@[simp] theorem updArr_groups (s : State) (g a : Nat) (f : Arr → Arr) : (s.updArr g a f).groups = s.groups := rfl
@[simp] theorem updArr_convoys (s : State) (g a : Nat) (f : Arr → Arr) : (s.updArr g a f).convoys = s.convoys := rfl
@[simp] theorem updArr_launches (s : State) (g a : Nat) (f : Arr → Arr) : (s.updArr g a f).launches = s.launches := rfl
@[simp] theorem updArr_queues (s : State) (g a : Nat) (f : Arr → Arr) : (s.updArr g a f).queues = s.queues := rfl
@[simp] theorem updArr_lastQueue (s : State) (g a : Nat) (f : Arr → Arr) : (s.updArr g a f).lastQueue = s.lastQueue := rfl
@[simp] theorem updArr_ctxs (s : State) (g a : Nat) (f : Arr → Arr) : (s.updArr g a f).ctxs = s.ctxs := rfl
@[simp] theorem updArr_walks (s : State) (g a : Nat) (f : Arr → Arr) : (s.updArr g a f).walks = s.walks := rfl
@[simp] theorem updArr_faults (s : State) (g a : Nat) (f : Arr → Arr) : (s.updArr g a f).faults = s.faults := rfl
@[simp] theorem updArr_migs (s : State) (g a : Nat) (f : Arr → Arr) : (s.updArr g a f).migs = s.migs := rfl
@[simp] theorem updArr_trackers (s : State) (g a : Nat) (f : Arr → Arr) : (s.updArr g a f).trackers = s.trackers := rfl
@[simp] theorem updArr_drams (s : State) (g a : Nat) (f : Arr → Arr) : (s.updArr g a f).drams = s.drams := rfl
@[simp] theorem updArr_banks (s : State) (g a : Nat) (f : Arr → Arr) : (s.updArr g a f).banks = s.banks := rfl
@[simp] theorem updArr_links (s : State) (g a : Nat) (f : Arr → Arr) : (s.updArr g a f).links = s.links := rfl
@[simp] theorem updArr_mg (s : State) (g a : Nat) (f : Arr → Arr) : (s.updArr g a f).mg = s.mg := rfl
@[simp] theorem updArr_dies (s : State) (g a : Nat) (f : Arr → Arr) : (s.updArr g a f).dies = s.dies := rfl

/-! ### updBar -/

@[simp] theorem updBar_cur (s : State) (g b : Nat) (f : Bar → Bar) : (s.updBar g b f).cur = s.cur := rfl
@[simp] theorem updBar_turn (s : State) (g b : Nat) (f : Bar → Bar) : (s.updBar g b f).turn = s.turn := rfl
@[simp] theorem updBar_due (s : State) (g b : Nat) (f : Bar → Bar) : (s.updBar g b f).due = s.due := rfl
@[simp] theorem updBar_tick (s : State) (g b : Nat) (f : Bar → Bar) : (s.updBar g b f).tick = s.tick := rfl
@[simp] theorem updBar_free (s : State) (g b : Nat) (f : Bar → Bar) : (s.updBar g b f).free = s.free := rfl
@[simp] theorem updBar_nextId (s : State) (g b : Nat) (f : Bar → Bar) : (s.updBar g b f).nextId = s.nextId := rfl
@[simp] theorem updBar_now (s : State) (g b : Nat) (f : Bar → Bar) : (s.updBar g b f).now = s.now := rfl
@[simp] theorem updBar_mem (s : State) (g b : Nat) (f : Bar → Bar) : (s.updBar g b f).mem = s.mem := rfl
@[simp] theorem updBar_crews (s : State) (g b : Nat) (f : Bar → Bar) : (s.updBar g b f).crews = s.crews := rfl
@[simp] theorem updBar_ops (s : State) (g b : Nat) (f : Bar → Bar) : (s.updBar g b f).ops = s.ops := rfl
@[simp] theorem updBar_groups (s : State) (g b : Nat) (f : Bar → Bar) : (s.updBar g b f).groups = s.groups := rfl
@[simp] theorem updBar_convoys (s : State) (g b : Nat) (f : Bar → Bar) : (s.updBar g b f).convoys = s.convoys := rfl
@[simp] theorem updBar_launches (s : State) (g b : Nat) (f : Bar → Bar) : (s.updBar g b f).launches = s.launches := rfl
@[simp] theorem updBar_queues (s : State) (g b : Nat) (f : Bar → Bar) : (s.updBar g b f).queues = s.queues := rfl
@[simp] theorem updBar_lastQueue (s : State) (g b : Nat) (f : Bar → Bar) : (s.updBar g b f).lastQueue = s.lastQueue := rfl
@[simp] theorem updBar_ctxs (s : State) (g b : Nat) (f : Bar → Bar) : (s.updBar g b f).ctxs = s.ctxs := rfl
@[simp] theorem updBar_walks (s : State) (g b : Nat) (f : Bar → Bar) : (s.updBar g b f).walks = s.walks := rfl
@[simp] theorem updBar_faults (s : State) (g b : Nat) (f : Bar → Bar) : (s.updBar g b f).faults = s.faults := rfl
@[simp] theorem updBar_migs (s : State) (g b : Nat) (f : Bar → Bar) : (s.updBar g b f).migs = s.migs := rfl
@[simp] theorem updBar_trackers (s : State) (g b : Nat) (f : Bar → Bar) : (s.updBar g b f).trackers = s.trackers := rfl
@[simp] theorem updBar_drams (s : State) (g b : Nat) (f : Bar → Bar) : (s.updBar g b f).drams = s.drams := rfl
@[simp] theorem updBar_banks (s : State) (g b : Nat) (f : Bar → Bar) : (s.updBar g b f).banks = s.banks := rfl
@[simp] theorem updBar_links (s : State) (g b : Nat) (f : Bar → Bar) : (s.updBar g b f).links = s.links := rfl
@[simp] theorem updBar_mg (s : State) (g b : Nat) (f : Bar → Bar) : (s.updBar g b f).mg = s.mg := rfl
@[simp] theorem updBar_dies (s : State) (g b : Nat) (f : Bar → Bar) : (s.updBar g b f).dies = s.dies := rfl

/-! ### updTile -/

@[simp] theorem updTile_cur (s : State) (g i : Nat) (f : Tile → Tile) : (s.updTile g i f).cur = s.cur := rfl
@[simp] theorem updTile_turn (s : State) (g i : Nat) (f : Tile → Tile) : (s.updTile g i f).turn = s.turn := rfl
@[simp] theorem updTile_due (s : State) (g i : Nat) (f : Tile → Tile) : (s.updTile g i f).due = s.due := rfl
@[simp] theorem updTile_tick (s : State) (g i : Nat) (f : Tile → Tile) : (s.updTile g i f).tick = s.tick := rfl
@[simp] theorem updTile_free (s : State) (g i : Nat) (f : Tile → Tile) : (s.updTile g i f).free = s.free := rfl
@[simp] theorem updTile_nextId (s : State) (g i : Nat) (f : Tile → Tile) : (s.updTile g i f).nextId = s.nextId := rfl
@[simp] theorem updTile_now (s : State) (g i : Nat) (f : Tile → Tile) : (s.updTile g i f).now = s.now := rfl
@[simp] theorem updTile_mem (s : State) (g i : Nat) (f : Tile → Tile) : (s.updTile g i f).mem = s.mem := rfl
@[simp] theorem updTile_crews (s : State) (g i : Nat) (f : Tile → Tile) : (s.updTile g i f).crews = s.crews := rfl
@[simp] theorem updTile_ops (s : State) (g i : Nat) (f : Tile → Tile) : (s.updTile g i f).ops = s.ops := rfl
@[simp] theorem updTile_groups (s : State) (g i : Nat) (f : Tile → Tile) : (s.updTile g i f).groups = s.groups := rfl
@[simp] theorem updTile_convoys (s : State) (g i : Nat) (f : Tile → Tile) : (s.updTile g i f).convoys = s.convoys := rfl
@[simp] theorem updTile_launches (s : State) (g i : Nat) (f : Tile → Tile) : (s.updTile g i f).launches = s.launches := rfl
@[simp] theorem updTile_queues (s : State) (g i : Nat) (f : Tile → Tile) : (s.updTile g i f).queues = s.queues := rfl
@[simp] theorem updTile_lastQueue (s : State) (g i : Nat) (f : Tile → Tile) : (s.updTile g i f).lastQueue = s.lastQueue := rfl
@[simp] theorem updTile_ctxs (s : State) (g i : Nat) (f : Tile → Tile) : (s.updTile g i f).ctxs = s.ctxs := rfl
@[simp] theorem updTile_walks (s : State) (g i : Nat) (f : Tile → Tile) : (s.updTile g i f).walks = s.walks := rfl
@[simp] theorem updTile_faults (s : State) (g i : Nat) (f : Tile → Tile) : (s.updTile g i f).faults = s.faults := rfl
@[simp] theorem updTile_migs (s : State) (g i : Nat) (f : Tile → Tile) : (s.updTile g i f).migs = s.migs := rfl
@[simp] theorem updTile_trackers (s : State) (g i : Nat) (f : Tile → Tile) : (s.updTile g i f).trackers = s.trackers := rfl
@[simp] theorem updTile_drams (s : State) (g i : Nat) (f : Tile → Tile) : (s.updTile g i f).drams = s.drams := rfl
@[simp] theorem updTile_banks (s : State) (g i : Nat) (f : Tile → Tile) : (s.updTile g i f).banks = s.banks := rfl
@[simp] theorem updTile_links (s : State) (g i : Nat) (f : Tile → Tile) : (s.updTile g i f).links = s.links := rfl
@[simp] theorem updTile_mg (s : State) (g i : Nat) (f : Tile → Tile) : (s.updTile g i f).mg = s.mg := rfl
@[simp] theorem updTile_dies (s : State) (g i : Nat) (f : Tile → Tile) : (s.updTile g i f).dies = s.dies := rfl

/-! ### updChain -/

@[simp] theorem updChain_cur (s : State) (g i : Nat) (f : ChainCtx → ChainCtx) : (s.updChain g i f).cur = s.cur := rfl
@[simp] theorem updChain_turn (s : State) (g i : Nat) (f : ChainCtx → ChainCtx) : (s.updChain g i f).turn = s.turn := rfl
@[simp] theorem updChain_due (s : State) (g i : Nat) (f : ChainCtx → ChainCtx) : (s.updChain g i f).due = s.due := rfl
@[simp] theorem updChain_tick (s : State) (g i : Nat) (f : ChainCtx → ChainCtx) : (s.updChain g i f).tick = s.tick := rfl
@[simp] theorem updChain_free (s : State) (g i : Nat) (f : ChainCtx → ChainCtx) : (s.updChain g i f).free = s.free := rfl
@[simp] theorem updChain_nextId (s : State) (g i : Nat) (f : ChainCtx → ChainCtx) : (s.updChain g i f).nextId = s.nextId := rfl
@[simp] theorem updChain_now (s : State) (g i : Nat) (f : ChainCtx → ChainCtx) : (s.updChain g i f).now = s.now := rfl
@[simp] theorem updChain_mem (s : State) (g i : Nat) (f : ChainCtx → ChainCtx) : (s.updChain g i f).mem = s.mem := rfl
@[simp] theorem updChain_crews (s : State) (g i : Nat) (f : ChainCtx → ChainCtx) : (s.updChain g i f).crews = s.crews := rfl
@[simp] theorem updChain_ops (s : State) (g i : Nat) (f : ChainCtx → ChainCtx) : (s.updChain g i f).ops = s.ops := rfl
@[simp] theorem updChain_groups (s : State) (g i : Nat) (f : ChainCtx → ChainCtx) : (s.updChain g i f).groups = s.groups := rfl
@[simp] theorem updChain_convoys (s : State) (g i : Nat) (f : ChainCtx → ChainCtx) : (s.updChain g i f).convoys = s.convoys := rfl
@[simp] theorem updChain_launches (s : State) (g i : Nat) (f : ChainCtx → ChainCtx) : (s.updChain g i f).launches = s.launches := rfl
@[simp] theorem updChain_queues (s : State) (g i : Nat) (f : ChainCtx → ChainCtx) : (s.updChain g i f).queues = s.queues := rfl
@[simp] theorem updChain_lastQueue (s : State) (g i : Nat) (f : ChainCtx → ChainCtx) : (s.updChain g i f).lastQueue = s.lastQueue := rfl
@[simp] theorem updChain_ctxs (s : State) (g i : Nat) (f : ChainCtx → ChainCtx) : (s.updChain g i f).ctxs = s.ctxs := rfl
@[simp] theorem updChain_walks (s : State) (g i : Nat) (f : ChainCtx → ChainCtx) : (s.updChain g i f).walks = s.walks := rfl
@[simp] theorem updChain_faults (s : State) (g i : Nat) (f : ChainCtx → ChainCtx) : (s.updChain g i f).faults = s.faults := rfl
@[simp] theorem updChain_migs (s : State) (g i : Nat) (f : ChainCtx → ChainCtx) : (s.updChain g i f).migs = s.migs := rfl
@[simp] theorem updChain_trackers (s : State) (g i : Nat) (f : ChainCtx → ChainCtx) : (s.updChain g i f).trackers = s.trackers := rfl
@[simp] theorem updChain_drams (s : State) (g i : Nat) (f : ChainCtx → ChainCtx) : (s.updChain g i f).drams = s.drams := rfl
@[simp] theorem updChain_banks (s : State) (g i : Nat) (f : ChainCtx → ChainCtx) : (s.updChain g i f).banks = s.banks := rfl
@[simp] theorem updChain_links (s : State) (g i : Nat) (f : ChainCtx → ChainCtx) : (s.updChain g i f).links = s.links := rfl
@[simp] theorem updChain_mg (s : State) (g i : Nat) (f : ChainCtx → ChainCtx) : (s.updChain g i f).mg = s.mg := rfl
@[simp] theorem updChain_dies (s : State) (g i : Nat) (f : ChainCtx → ChainCtx) : (s.updChain g i f).dies = s.dies := rfl

/-! ### updCtr -/

@[simp] theorem updCtr_cur (s : State) (g : Nat) (f : Counters → Counters) : (s.updCtr g f).cur = s.cur := rfl
@[simp] theorem updCtr_turn (s : State) (g : Nat) (f : Counters → Counters) : (s.updCtr g f).turn = s.turn := rfl
@[simp] theorem updCtr_due (s : State) (g : Nat) (f : Counters → Counters) : (s.updCtr g f).due = s.due := rfl
@[simp] theorem updCtr_tick (s : State) (g : Nat) (f : Counters → Counters) : (s.updCtr g f).tick = s.tick := rfl
@[simp] theorem updCtr_free (s : State) (g : Nat) (f : Counters → Counters) : (s.updCtr g f).free = s.free := rfl
@[simp] theorem updCtr_nextId (s : State) (g : Nat) (f : Counters → Counters) : (s.updCtr g f).nextId = s.nextId := rfl
@[simp] theorem updCtr_now (s : State) (g : Nat) (f : Counters → Counters) : (s.updCtr g f).now = s.now := rfl
@[simp] theorem updCtr_mem (s : State) (g : Nat) (f : Counters → Counters) : (s.updCtr g f).mem = s.mem := rfl
@[simp] theorem updCtr_crews (s : State) (g : Nat) (f : Counters → Counters) : (s.updCtr g f).crews = s.crews := rfl
@[simp] theorem updCtr_ops (s : State) (g : Nat) (f : Counters → Counters) : (s.updCtr g f).ops = s.ops := rfl
@[simp] theorem updCtr_groups (s : State) (g : Nat) (f : Counters → Counters) : (s.updCtr g f).groups = s.groups := rfl
@[simp] theorem updCtr_convoys (s : State) (g : Nat) (f : Counters → Counters) : (s.updCtr g f).convoys = s.convoys := rfl
@[simp] theorem updCtr_launches (s : State) (g : Nat) (f : Counters → Counters) : (s.updCtr g f).launches = s.launches := rfl
@[simp] theorem updCtr_queues (s : State) (g : Nat) (f : Counters → Counters) : (s.updCtr g f).queues = s.queues := rfl
@[simp] theorem updCtr_lastQueue (s : State) (g : Nat) (f : Counters → Counters) : (s.updCtr g f).lastQueue = s.lastQueue := rfl
@[simp] theorem updCtr_ctxs (s : State) (g : Nat) (f : Counters → Counters) : (s.updCtr g f).ctxs = s.ctxs := rfl
@[simp] theorem updCtr_walks (s : State) (g : Nat) (f : Counters → Counters) : (s.updCtr g f).walks = s.walks := rfl
@[simp] theorem updCtr_faults (s : State) (g : Nat) (f : Counters → Counters) : (s.updCtr g f).faults = s.faults := rfl
@[simp] theorem updCtr_migs (s : State) (g : Nat) (f : Counters → Counters) : (s.updCtr g f).migs = s.migs := rfl
@[simp] theorem updCtr_trackers (s : State) (g : Nat) (f : Counters → Counters) : (s.updCtr g f).trackers = s.trackers := rfl
@[simp] theorem updCtr_drams (s : State) (g : Nat) (f : Counters → Counters) : (s.updCtr g f).drams = s.drams := rfl
@[simp] theorem updCtr_banks (s : State) (g : Nat) (f : Counters → Counters) : (s.updCtr g f).banks = s.banks := rfl
@[simp] theorem updCtr_links (s : State) (g : Nat) (f : Counters → Counters) : (s.updCtr g f).links = s.links := rfl
@[simp] theorem updCtr_mg (s : State) (g : Nat) (f : Counters → Counters) : (s.updCtr g f).mg = s.mg := rfl
@[simp] theorem updCtr_dies (s : State) (g : Nat) (f : Counters → Counters) : (s.updCtr g f).dies = s.dies := rfl

/-! ### setOp -/

@[simp] theorem setOp_cur (s : State) (o : Nat) (x : Op) : (s.setOp o x).cur = s.cur := rfl
@[simp] theorem setOp_turn (s : State) (o : Nat) (x : Op) : (s.setOp o x).turn = s.turn := rfl
@[simp] theorem setOp_due (s : State) (o : Nat) (x : Op) : (s.setOp o x).due = s.due := rfl
@[simp] theorem setOp_tick (s : State) (o : Nat) (x : Op) : (s.setOp o x).tick = s.tick := rfl
@[simp] theorem setOp_free (s : State) (o : Nat) (x : Op) : (s.setOp o x).free = s.free := rfl
@[simp] theorem setOp_nextId (s : State) (o : Nat) (x : Op) : (s.setOp o x).nextId = s.nextId := rfl
@[simp] theorem setOp_now (s : State) (o : Nat) (x : Op) : (s.setOp o x).now = s.now := rfl
@[simp] theorem setOp_mem (s : State) (o : Nat) (x : Op) : (s.setOp o x).mem = s.mem := rfl
@[simp] theorem setOp_crews (s : State) (o : Nat) (x : Op) : (s.setOp o x).crews = s.crews := rfl
@[simp] theorem setOp_cores (s : State) (o : Nat) (x : Op) : (s.setOp o x).cores = s.cores := rfl
@[simp] theorem setOp_groups (s : State) (o : Nat) (x : Op) : (s.setOp o x).groups = s.groups := rfl
@[simp] theorem setOp_convoys (s : State) (o : Nat) (x : Op) : (s.setOp o x).convoys = s.convoys := rfl
@[simp] theorem setOp_launches (s : State) (o : Nat) (x : Op) : (s.setOp o x).launches = s.launches := rfl
@[simp] theorem setOp_queues (s : State) (o : Nat) (x : Op) : (s.setOp o x).queues = s.queues := rfl
@[simp] theorem setOp_lastQueue (s : State) (o : Nat) (x : Op) : (s.setOp o x).lastQueue = s.lastQueue := rfl
@[simp] theorem setOp_ctxs (s : State) (o : Nat) (x : Op) : (s.setOp o x).ctxs = s.ctxs := rfl
@[simp] theorem setOp_walks (s : State) (o : Nat) (x : Op) : (s.setOp o x).walks = s.walks := rfl
@[simp] theorem setOp_faults (s : State) (o : Nat) (x : Op) : (s.setOp o x).faults = s.faults := rfl
@[simp] theorem setOp_migs (s : State) (o : Nat) (x : Op) : (s.setOp o x).migs = s.migs := rfl
@[simp] theorem setOp_trackers (s : State) (o : Nat) (x : Op) : (s.setOp o x).trackers = s.trackers := rfl
@[simp] theorem setOp_drams (s : State) (o : Nat) (x : Op) : (s.setOp o x).drams = s.drams := rfl
@[simp] theorem setOp_banks (s : State) (o : Nat) (x : Op) : (s.setOp o x).banks = s.banks := rfl
@[simp] theorem setOp_links (s : State) (o : Nat) (x : Op) : (s.setOp o x).links = s.links := rfl
@[simp] theorem setOp_mg (s : State) (o : Nat) (x : Op) : (s.setOp o x).mg = s.mg := rfl
@[simp] theorem setOp_dies (s : State) (o : Nat) (x : Op) : (s.setOp o x).dies = s.dies := rfl

/-! ### dropOp -/

@[simp] theorem dropOp_cur (s : State) (o : Nat) : (s.dropOp o).cur = s.cur := rfl
@[simp] theorem dropOp_turn (s : State) (o : Nat) : (s.dropOp o).turn = s.turn := rfl
@[simp] theorem dropOp_due (s : State) (o : Nat) : (s.dropOp o).due = s.due := rfl
@[simp] theorem dropOp_tick (s : State) (o : Nat) : (s.dropOp o).tick = s.tick := rfl
@[simp] theorem dropOp_free (s : State) (o : Nat) : (s.dropOp o).free = s.free := rfl
@[simp] theorem dropOp_nextId (s : State) (o : Nat) : (s.dropOp o).nextId = s.nextId := rfl
@[simp] theorem dropOp_now (s : State) (o : Nat) : (s.dropOp o).now = s.now := rfl
@[simp] theorem dropOp_mem (s : State) (o : Nat) : (s.dropOp o).mem = s.mem := rfl
@[simp] theorem dropOp_crews (s : State) (o : Nat) : (s.dropOp o).crews = s.crews := rfl
@[simp] theorem dropOp_cores (s : State) (o : Nat) : (s.dropOp o).cores = s.cores := rfl
@[simp] theorem dropOp_groups (s : State) (o : Nat) : (s.dropOp o).groups = s.groups := rfl
@[simp] theorem dropOp_convoys (s : State) (o : Nat) : (s.dropOp o).convoys = s.convoys := rfl
@[simp] theorem dropOp_launches (s : State) (o : Nat) : (s.dropOp o).launches = s.launches := rfl
@[simp] theorem dropOp_queues (s : State) (o : Nat) : (s.dropOp o).queues = s.queues := rfl
@[simp] theorem dropOp_lastQueue (s : State) (o : Nat) : (s.dropOp o).lastQueue = s.lastQueue := rfl
@[simp] theorem dropOp_ctxs (s : State) (o : Nat) : (s.dropOp o).ctxs = s.ctxs := rfl
@[simp] theorem dropOp_walks (s : State) (o : Nat) : (s.dropOp o).walks = s.walks := rfl
@[simp] theorem dropOp_faults (s : State) (o : Nat) : (s.dropOp o).faults = s.faults := rfl
@[simp] theorem dropOp_migs (s : State) (o : Nat) : (s.dropOp o).migs = s.migs := rfl
@[simp] theorem dropOp_trackers (s : State) (o : Nat) : (s.dropOp o).trackers = s.trackers := rfl
@[simp] theorem dropOp_drams (s : State) (o : Nat) : (s.dropOp o).drams = s.drams := rfl
@[simp] theorem dropOp_banks (s : State) (o : Nat) : (s.dropOp o).banks = s.banks := rfl
@[simp] theorem dropOp_links (s : State) (o : Nat) : (s.dropOp o).links = s.links := rfl
@[simp] theorem dropOp_mg (s : State) (o : Nat) : (s.dropOp o).mg = s.mg := rfl
@[simp] theorem dropOp_dies (s : State) (o : Nat) : (s.dropOp o).dies = s.dies := rfl

/-! ### updGroup -/

@[simp] theorem updGroup_cur (s : State) (g : Nat) (f : Group → Group) : (s.updGroup g f).cur = s.cur := rfl
@[simp] theorem updGroup_turn (s : State) (g : Nat) (f : Group → Group) : (s.updGroup g f).turn = s.turn := rfl
@[simp] theorem updGroup_due (s : State) (g : Nat) (f : Group → Group) : (s.updGroup g f).due = s.due := rfl
@[simp] theorem updGroup_tick (s : State) (g : Nat) (f : Group → Group) : (s.updGroup g f).tick = s.tick := rfl
@[simp] theorem updGroup_free (s : State) (g : Nat) (f : Group → Group) : (s.updGroup g f).free = s.free := rfl
@[simp] theorem updGroup_nextId (s : State) (g : Nat) (f : Group → Group) : (s.updGroup g f).nextId = s.nextId := rfl
@[simp] theorem updGroup_now (s : State) (g : Nat) (f : Group → Group) : (s.updGroup g f).now = s.now := rfl
@[simp] theorem updGroup_mem (s : State) (g : Nat) (f : Group → Group) : (s.updGroup g f).mem = s.mem := rfl
@[simp] theorem updGroup_crews (s : State) (g : Nat) (f : Group → Group) : (s.updGroup g f).crews = s.crews := rfl
@[simp] theorem updGroup_cores (s : State) (g : Nat) (f : Group → Group) : (s.updGroup g f).cores = s.cores := rfl
@[simp] theorem updGroup_ops (s : State) (g : Nat) (f : Group → Group) : (s.updGroup g f).ops = s.ops := rfl
@[simp] theorem updGroup_convoys (s : State) (g : Nat) (f : Group → Group) : (s.updGroup g f).convoys = s.convoys := rfl
@[simp] theorem updGroup_launches (s : State) (g : Nat) (f : Group → Group) : (s.updGroup g f).launches = s.launches := rfl
@[simp] theorem updGroup_queues (s : State) (g : Nat) (f : Group → Group) : (s.updGroup g f).queues = s.queues := rfl
@[simp] theorem updGroup_lastQueue (s : State) (g : Nat) (f : Group → Group) : (s.updGroup g f).lastQueue = s.lastQueue := rfl
@[simp] theorem updGroup_ctxs (s : State) (g : Nat) (f : Group → Group) : (s.updGroup g f).ctxs = s.ctxs := rfl
@[simp] theorem updGroup_walks (s : State) (g : Nat) (f : Group → Group) : (s.updGroup g f).walks = s.walks := rfl
@[simp] theorem updGroup_faults (s : State) (g : Nat) (f : Group → Group) : (s.updGroup g f).faults = s.faults := rfl
@[simp] theorem updGroup_migs (s : State) (g : Nat) (f : Group → Group) : (s.updGroup g f).migs = s.migs := rfl
@[simp] theorem updGroup_trackers (s : State) (g : Nat) (f : Group → Group) : (s.updGroup g f).trackers = s.trackers := rfl
@[simp] theorem updGroup_drams (s : State) (g : Nat) (f : Group → Group) : (s.updGroup g f).drams = s.drams := rfl
@[simp] theorem updGroup_banks (s : State) (g : Nat) (f : Group → Group) : (s.updGroup g f).banks = s.banks := rfl
@[simp] theorem updGroup_links (s : State) (g : Nat) (f : Group → Group) : (s.updGroup g f).links = s.links := rfl
@[simp] theorem updGroup_mg (s : State) (g : Nat) (f : Group → Group) : (s.updGroup g f).mg = s.mg := rfl
@[simp] theorem updGroup_dies (s : State) (g : Nat) (f : Group → Group) : (s.updGroup g f).dies = s.dies := rfl

/-! ### updConvoy -/

@[simp] theorem updConvoy_cur (s : State) (g : Nat) (f : Convoy → Convoy) : (s.updConvoy g f).cur = s.cur := rfl
@[simp] theorem updConvoy_turn (s : State) (g : Nat) (f : Convoy → Convoy) : (s.updConvoy g f).turn = s.turn := rfl
@[simp] theorem updConvoy_due (s : State) (g : Nat) (f : Convoy → Convoy) : (s.updConvoy g f).due = s.due := rfl
@[simp] theorem updConvoy_tick (s : State) (g : Nat) (f : Convoy → Convoy) : (s.updConvoy g f).tick = s.tick := rfl
@[simp] theorem updConvoy_free (s : State) (g : Nat) (f : Convoy → Convoy) : (s.updConvoy g f).free = s.free := rfl
@[simp] theorem updConvoy_nextId (s : State) (g : Nat) (f : Convoy → Convoy) : (s.updConvoy g f).nextId = s.nextId := rfl
@[simp] theorem updConvoy_now (s : State) (g : Nat) (f : Convoy → Convoy) : (s.updConvoy g f).now = s.now := rfl
@[simp] theorem updConvoy_mem (s : State) (g : Nat) (f : Convoy → Convoy) : (s.updConvoy g f).mem = s.mem := rfl
@[simp] theorem updConvoy_crews (s : State) (g : Nat) (f : Convoy → Convoy) : (s.updConvoy g f).crews = s.crews := rfl
@[simp] theorem updConvoy_cores (s : State) (g : Nat) (f : Convoy → Convoy) : (s.updConvoy g f).cores = s.cores := rfl
@[simp] theorem updConvoy_ops (s : State) (g : Nat) (f : Convoy → Convoy) : (s.updConvoy g f).ops = s.ops := rfl
@[simp] theorem updConvoy_groups (s : State) (g : Nat) (f : Convoy → Convoy) : (s.updConvoy g f).groups = s.groups := rfl
@[simp] theorem updConvoy_launches (s : State) (g : Nat) (f : Convoy → Convoy) : (s.updConvoy g f).launches = s.launches := rfl
@[simp] theorem updConvoy_queues (s : State) (g : Nat) (f : Convoy → Convoy) : (s.updConvoy g f).queues = s.queues := rfl
@[simp] theorem updConvoy_lastQueue (s : State) (g : Nat) (f : Convoy → Convoy) : (s.updConvoy g f).lastQueue = s.lastQueue := rfl
@[simp] theorem updConvoy_ctxs (s : State) (g : Nat) (f : Convoy → Convoy) : (s.updConvoy g f).ctxs = s.ctxs := rfl
@[simp] theorem updConvoy_walks (s : State) (g : Nat) (f : Convoy → Convoy) : (s.updConvoy g f).walks = s.walks := rfl
@[simp] theorem updConvoy_faults (s : State) (g : Nat) (f : Convoy → Convoy) : (s.updConvoy g f).faults = s.faults := rfl
@[simp] theorem updConvoy_migs (s : State) (g : Nat) (f : Convoy → Convoy) : (s.updConvoy g f).migs = s.migs := rfl
@[simp] theorem updConvoy_trackers (s : State) (g : Nat) (f : Convoy → Convoy) : (s.updConvoy g f).trackers = s.trackers := rfl
@[simp] theorem updConvoy_drams (s : State) (g : Nat) (f : Convoy → Convoy) : (s.updConvoy g f).drams = s.drams := rfl
@[simp] theorem updConvoy_banks (s : State) (g : Nat) (f : Convoy → Convoy) : (s.updConvoy g f).banks = s.banks := rfl
@[simp] theorem updConvoy_links (s : State) (g : Nat) (f : Convoy → Convoy) : (s.updConvoy g f).links = s.links := rfl
@[simp] theorem updConvoy_mg (s : State) (g : Nat) (f : Convoy → Convoy) : (s.updConvoy g f).mg = s.mg := rfl
@[simp] theorem updConvoy_dies (s : State) (g : Nat) (f : Convoy → Convoy) : (s.updConvoy g f).dies = s.dies := rfl

/-! ### updLaunch -/

@[simp] theorem updLaunch_cur (s : State) (g : Nat) (f : Launch → Launch) : (s.updLaunch g f).cur = s.cur := rfl
@[simp] theorem updLaunch_turn (s : State) (g : Nat) (f : Launch → Launch) : (s.updLaunch g f).turn = s.turn := rfl
@[simp] theorem updLaunch_due (s : State) (g : Nat) (f : Launch → Launch) : (s.updLaunch g f).due = s.due := rfl
@[simp] theorem updLaunch_tick (s : State) (g : Nat) (f : Launch → Launch) : (s.updLaunch g f).tick = s.tick := rfl
@[simp] theorem updLaunch_free (s : State) (g : Nat) (f : Launch → Launch) : (s.updLaunch g f).free = s.free := rfl
@[simp] theorem updLaunch_nextId (s : State) (g : Nat) (f : Launch → Launch) : (s.updLaunch g f).nextId = s.nextId := rfl
@[simp] theorem updLaunch_now (s : State) (g : Nat) (f : Launch → Launch) : (s.updLaunch g f).now = s.now := rfl
@[simp] theorem updLaunch_mem (s : State) (g : Nat) (f : Launch → Launch) : (s.updLaunch g f).mem = s.mem := rfl
@[simp] theorem updLaunch_crews (s : State) (g : Nat) (f : Launch → Launch) : (s.updLaunch g f).crews = s.crews := rfl
@[simp] theorem updLaunch_cores (s : State) (g : Nat) (f : Launch → Launch) : (s.updLaunch g f).cores = s.cores := rfl
@[simp] theorem updLaunch_ops (s : State) (g : Nat) (f : Launch → Launch) : (s.updLaunch g f).ops = s.ops := rfl
@[simp] theorem updLaunch_groups (s : State) (g : Nat) (f : Launch → Launch) : (s.updLaunch g f).groups = s.groups := rfl
@[simp] theorem updLaunch_convoys (s : State) (g : Nat) (f : Launch → Launch) : (s.updLaunch g f).convoys = s.convoys := rfl
@[simp] theorem updLaunch_queues (s : State) (g : Nat) (f : Launch → Launch) : (s.updLaunch g f).queues = s.queues := rfl
@[simp] theorem updLaunch_lastQueue (s : State) (g : Nat) (f : Launch → Launch) : (s.updLaunch g f).lastQueue = s.lastQueue := rfl
@[simp] theorem updLaunch_ctxs (s : State) (g : Nat) (f : Launch → Launch) : (s.updLaunch g f).ctxs = s.ctxs := rfl
@[simp] theorem updLaunch_walks (s : State) (g : Nat) (f : Launch → Launch) : (s.updLaunch g f).walks = s.walks := rfl
@[simp] theorem updLaunch_faults (s : State) (g : Nat) (f : Launch → Launch) : (s.updLaunch g f).faults = s.faults := rfl
@[simp] theorem updLaunch_migs (s : State) (g : Nat) (f : Launch → Launch) : (s.updLaunch g f).migs = s.migs := rfl
@[simp] theorem updLaunch_trackers (s : State) (g : Nat) (f : Launch → Launch) : (s.updLaunch g f).trackers = s.trackers := rfl
@[simp] theorem updLaunch_drams (s : State) (g : Nat) (f : Launch → Launch) : (s.updLaunch g f).drams = s.drams := rfl
@[simp] theorem updLaunch_banks (s : State) (g : Nat) (f : Launch → Launch) : (s.updLaunch g f).banks = s.banks := rfl
@[simp] theorem updLaunch_links (s : State) (g : Nat) (f : Launch → Launch) : (s.updLaunch g f).links = s.links := rfl
@[simp] theorem updLaunch_mg (s : State) (g : Nat) (f : Launch → Launch) : (s.updLaunch g f).mg = s.mg := rfl
@[simp] theorem updLaunch_dies (s : State) (g : Nat) (f : Launch → Launch) : (s.updLaunch g f).dies = s.dies := rfl

/-! ### updCtx -/

@[simp] theorem updCtx_cur (s : State) (t : Nat) (f : Context → Context) : (s.updCtx t f).cur = s.cur := rfl
@[simp] theorem updCtx_turn (s : State) (t : Nat) (f : Context → Context) : (s.updCtx t f).turn = s.turn := rfl
@[simp] theorem updCtx_due (s : State) (t : Nat) (f : Context → Context) : (s.updCtx t f).due = s.due := rfl
@[simp] theorem updCtx_tick (s : State) (t : Nat) (f : Context → Context) : (s.updCtx t f).tick = s.tick := rfl
@[simp] theorem updCtx_free (s : State) (t : Nat) (f : Context → Context) : (s.updCtx t f).free = s.free := rfl
@[simp] theorem updCtx_nextId (s : State) (t : Nat) (f : Context → Context) : (s.updCtx t f).nextId = s.nextId := rfl
@[simp] theorem updCtx_now (s : State) (t : Nat) (f : Context → Context) : (s.updCtx t f).now = s.now := rfl
@[simp] theorem updCtx_mem (s : State) (t : Nat) (f : Context → Context) : (s.updCtx t f).mem = s.mem := rfl
@[simp] theorem updCtx_crews (s : State) (t : Nat) (f : Context → Context) : (s.updCtx t f).crews = s.crews := rfl
@[simp] theorem updCtx_cores (s : State) (t : Nat) (f : Context → Context) : (s.updCtx t f).cores = s.cores := rfl
@[simp] theorem updCtx_ops (s : State) (t : Nat) (f : Context → Context) : (s.updCtx t f).ops = s.ops := rfl
@[simp] theorem updCtx_groups (s : State) (t : Nat) (f : Context → Context) : (s.updCtx t f).groups = s.groups := rfl
@[simp] theorem updCtx_convoys (s : State) (t : Nat) (f : Context → Context) : (s.updCtx t f).convoys = s.convoys := rfl
@[simp] theorem updCtx_launches (s : State) (t : Nat) (f : Context → Context) : (s.updCtx t f).launches = s.launches := rfl
@[simp] theorem updCtx_queues (s : State) (t : Nat) (f : Context → Context) : (s.updCtx t f).queues = s.queues := rfl
@[simp] theorem updCtx_lastQueue (s : State) (t : Nat) (f : Context → Context) : (s.updCtx t f).lastQueue = s.lastQueue := rfl
@[simp] theorem updCtx_walks (s : State) (t : Nat) (f : Context → Context) : (s.updCtx t f).walks = s.walks := rfl
@[simp] theorem updCtx_faults (s : State) (t : Nat) (f : Context → Context) : (s.updCtx t f).faults = s.faults := rfl
@[simp] theorem updCtx_migs (s : State) (t : Nat) (f : Context → Context) : (s.updCtx t f).migs = s.migs := rfl
@[simp] theorem updCtx_trackers (s : State) (t : Nat) (f : Context → Context) : (s.updCtx t f).trackers = s.trackers := rfl
@[simp] theorem updCtx_drams (s : State) (t : Nat) (f : Context → Context) : (s.updCtx t f).drams = s.drams := rfl
@[simp] theorem updCtx_banks (s : State) (t : Nat) (f : Context → Context) : (s.updCtx t f).banks = s.banks := rfl
@[simp] theorem updCtx_links (s : State) (t : Nat) (f : Context → Context) : (s.updCtx t f).links = s.links := rfl
@[simp] theorem updCtx_mg (s : State) (t : Nat) (f : Context → Context) : (s.updCtx t f).mg = s.mg := rfl
@[simp] theorem updCtx_dies (s : State) (t : Nat) (f : Context → Context) : (s.updCtx t f).dies = s.dies := rfl

/-! ### updQueue -/

@[simp] theorem updQueue_cur (s : State) (t q : Nat) (f : Queue → Queue) : (s.updQueue t q f).cur = s.cur := rfl
@[simp] theorem updQueue_turn (s : State) (t q : Nat) (f : Queue → Queue) : (s.updQueue t q f).turn = s.turn := rfl
@[simp] theorem updQueue_due (s : State) (t q : Nat) (f : Queue → Queue) : (s.updQueue t q f).due = s.due := rfl
@[simp] theorem updQueue_tick (s : State) (t q : Nat) (f : Queue → Queue) : (s.updQueue t q f).tick = s.tick := rfl
@[simp] theorem updQueue_free (s : State) (t q : Nat) (f : Queue → Queue) : (s.updQueue t q f).free = s.free := rfl
@[simp] theorem updQueue_nextId (s : State) (t q : Nat) (f : Queue → Queue) : (s.updQueue t q f).nextId = s.nextId := rfl
@[simp] theorem updQueue_now (s : State) (t q : Nat) (f : Queue → Queue) : (s.updQueue t q f).now = s.now := rfl
@[simp] theorem updQueue_mem (s : State) (t q : Nat) (f : Queue → Queue) : (s.updQueue t q f).mem = s.mem := rfl
@[simp] theorem updQueue_crews (s : State) (t q : Nat) (f : Queue → Queue) : (s.updQueue t q f).crews = s.crews := rfl
@[simp] theorem updQueue_cores (s : State) (t q : Nat) (f : Queue → Queue) : (s.updQueue t q f).cores = s.cores := rfl
@[simp] theorem updQueue_ops (s : State) (t q : Nat) (f : Queue → Queue) : (s.updQueue t q f).ops = s.ops := rfl
@[simp] theorem updQueue_groups (s : State) (t q : Nat) (f : Queue → Queue) : (s.updQueue t q f).groups = s.groups := rfl
@[simp] theorem updQueue_convoys (s : State) (t q : Nat) (f : Queue → Queue) : (s.updQueue t q f).convoys = s.convoys := rfl
@[simp] theorem updQueue_launches (s : State) (t q : Nat) (f : Queue → Queue) : (s.updQueue t q f).launches = s.launches := rfl
@[simp] theorem updQueue_lastQueue (s : State) (t q : Nat) (f : Queue → Queue) : (s.updQueue t q f).lastQueue = s.lastQueue := rfl
@[simp] theorem updQueue_ctxs (s : State) (t q : Nat) (f : Queue → Queue) : (s.updQueue t q f).ctxs = s.ctxs := rfl
@[simp] theorem updQueue_walks (s : State) (t q : Nat) (f : Queue → Queue) : (s.updQueue t q f).walks = s.walks := rfl
@[simp] theorem updQueue_faults (s : State) (t q : Nat) (f : Queue → Queue) : (s.updQueue t q f).faults = s.faults := rfl
@[simp] theorem updQueue_migs (s : State) (t q : Nat) (f : Queue → Queue) : (s.updQueue t q f).migs = s.migs := rfl
@[simp] theorem updQueue_trackers (s : State) (t q : Nat) (f : Queue → Queue) : (s.updQueue t q f).trackers = s.trackers := rfl
@[simp] theorem updQueue_drams (s : State) (t q : Nat) (f : Queue → Queue) : (s.updQueue t q f).drams = s.drams := rfl
@[simp] theorem updQueue_banks (s : State) (t q : Nat) (f : Queue → Queue) : (s.updQueue t q f).banks = s.banks := rfl
@[simp] theorem updQueue_links (s : State) (t q : Nat) (f : Queue → Queue) : (s.updQueue t q f).links = s.links := rfl
@[simp] theorem updQueue_mg (s : State) (t q : Nat) (f : Queue → Queue) : (s.updQueue t q f).mg = s.mg := rfl
@[simp] theorem updQueue_dies (s : State) (t q : Nat) (f : Queue → Queue) : (s.updQueue t q f).dies = s.dies := rfl

/-! ### updTracker -/

@[simp] theorem updTracker_cur (s : State) (d : Nat) (f : Tracker → Tracker) : (s.updTracker d f).cur = s.cur := rfl
@[simp] theorem updTracker_turn (s : State) (d : Nat) (f : Tracker → Tracker) : (s.updTracker d f).turn = s.turn := rfl
@[simp] theorem updTracker_due (s : State) (d : Nat) (f : Tracker → Tracker) : (s.updTracker d f).due = s.due := rfl
@[simp] theorem updTracker_tick (s : State) (d : Nat) (f : Tracker → Tracker) : (s.updTracker d f).tick = s.tick := rfl
@[simp] theorem updTracker_free (s : State) (d : Nat) (f : Tracker → Tracker) : (s.updTracker d f).free = s.free := rfl
@[simp] theorem updTracker_nextId (s : State) (d : Nat) (f : Tracker → Tracker) : (s.updTracker d f).nextId = s.nextId := rfl
@[simp] theorem updTracker_now (s : State) (d : Nat) (f : Tracker → Tracker) : (s.updTracker d f).now = s.now := rfl
@[simp] theorem updTracker_mem (s : State) (d : Nat) (f : Tracker → Tracker) : (s.updTracker d f).mem = s.mem := rfl
@[simp] theorem updTracker_crews (s : State) (d : Nat) (f : Tracker → Tracker) : (s.updTracker d f).crews = s.crews := rfl
@[simp] theorem updTracker_cores (s : State) (d : Nat) (f : Tracker → Tracker) : (s.updTracker d f).cores = s.cores := rfl
@[simp] theorem updTracker_ops (s : State) (d : Nat) (f : Tracker → Tracker) : (s.updTracker d f).ops = s.ops := rfl
@[simp] theorem updTracker_groups (s : State) (d : Nat) (f : Tracker → Tracker) : (s.updTracker d f).groups = s.groups := rfl
@[simp] theorem updTracker_convoys (s : State) (d : Nat) (f : Tracker → Tracker) : (s.updTracker d f).convoys = s.convoys := rfl
@[simp] theorem updTracker_launches (s : State) (d : Nat) (f : Tracker → Tracker) : (s.updTracker d f).launches = s.launches := rfl
@[simp] theorem updTracker_queues (s : State) (d : Nat) (f : Tracker → Tracker) : (s.updTracker d f).queues = s.queues := rfl
@[simp] theorem updTracker_lastQueue (s : State) (d : Nat) (f : Tracker → Tracker) : (s.updTracker d f).lastQueue = s.lastQueue := rfl
@[simp] theorem updTracker_ctxs (s : State) (d : Nat) (f : Tracker → Tracker) : (s.updTracker d f).ctxs = s.ctxs := rfl
@[simp] theorem updTracker_walks (s : State) (d : Nat) (f : Tracker → Tracker) : (s.updTracker d f).walks = s.walks := rfl
@[simp] theorem updTracker_faults (s : State) (d : Nat) (f : Tracker → Tracker) : (s.updTracker d f).faults = s.faults := rfl
@[simp] theorem updTracker_migs (s : State) (d : Nat) (f : Tracker → Tracker) : (s.updTracker d f).migs = s.migs := rfl
@[simp] theorem updTracker_drams (s : State) (d : Nat) (f : Tracker → Tracker) : (s.updTracker d f).drams = s.drams := rfl
@[simp] theorem updTracker_banks (s : State) (d : Nat) (f : Tracker → Tracker) : (s.updTracker d f).banks = s.banks := rfl
@[simp] theorem updTracker_links (s : State) (d : Nat) (f : Tracker → Tracker) : (s.updTracker d f).links = s.links := rfl
@[simp] theorem updTracker_mg (s : State) (d : Nat) (f : Tracker → Tracker) : (s.updTracker d f).mg = s.mg := rfl
@[simp] theorem updTracker_dies (s : State) (d : Nat) (f : Tracker → Tracker) : (s.updTracker d f).dies = s.dies := rfl

/-! ### updDram -/

@[simp] theorem updDram_cur (s : State) (d : Nat) (f : Dram → Dram) : (s.updDram d f).cur = s.cur := rfl
@[simp] theorem updDram_turn (s : State) (d : Nat) (f : Dram → Dram) : (s.updDram d f).turn = s.turn := rfl
@[simp] theorem updDram_due (s : State) (d : Nat) (f : Dram → Dram) : (s.updDram d f).due = s.due := rfl
@[simp] theorem updDram_tick (s : State) (d : Nat) (f : Dram → Dram) : (s.updDram d f).tick = s.tick := rfl
@[simp] theorem updDram_free (s : State) (d : Nat) (f : Dram → Dram) : (s.updDram d f).free = s.free := rfl
@[simp] theorem updDram_nextId (s : State) (d : Nat) (f : Dram → Dram) : (s.updDram d f).nextId = s.nextId := rfl
@[simp] theorem updDram_now (s : State) (d : Nat) (f : Dram → Dram) : (s.updDram d f).now = s.now := rfl
@[simp] theorem updDram_mem (s : State) (d : Nat) (f : Dram → Dram) : (s.updDram d f).mem = s.mem := rfl
@[simp] theorem updDram_crews (s : State) (d : Nat) (f : Dram → Dram) : (s.updDram d f).crews = s.crews := rfl
@[simp] theorem updDram_cores (s : State) (d : Nat) (f : Dram → Dram) : (s.updDram d f).cores = s.cores := rfl
@[simp] theorem updDram_ops (s : State) (d : Nat) (f : Dram → Dram) : (s.updDram d f).ops = s.ops := rfl
@[simp] theorem updDram_groups (s : State) (d : Nat) (f : Dram → Dram) : (s.updDram d f).groups = s.groups := rfl
@[simp] theorem updDram_convoys (s : State) (d : Nat) (f : Dram → Dram) : (s.updDram d f).convoys = s.convoys := rfl
@[simp] theorem updDram_launches (s : State) (d : Nat) (f : Dram → Dram) : (s.updDram d f).launches = s.launches := rfl
@[simp] theorem updDram_queues (s : State) (d : Nat) (f : Dram → Dram) : (s.updDram d f).queues = s.queues := rfl
@[simp] theorem updDram_lastQueue (s : State) (d : Nat) (f : Dram → Dram) : (s.updDram d f).lastQueue = s.lastQueue := rfl
@[simp] theorem updDram_ctxs (s : State) (d : Nat) (f : Dram → Dram) : (s.updDram d f).ctxs = s.ctxs := rfl
@[simp] theorem updDram_walks (s : State) (d : Nat) (f : Dram → Dram) : (s.updDram d f).walks = s.walks := rfl
@[simp] theorem updDram_faults (s : State) (d : Nat) (f : Dram → Dram) : (s.updDram d f).faults = s.faults := rfl
@[simp] theorem updDram_migs (s : State) (d : Nat) (f : Dram → Dram) : (s.updDram d f).migs = s.migs := rfl
@[simp] theorem updDram_trackers (s : State) (d : Nat) (f : Dram → Dram) : (s.updDram d f).trackers = s.trackers := rfl
@[simp] theorem updDram_banks (s : State) (d : Nat) (f : Dram → Dram) : (s.updDram d f).banks = s.banks := rfl
@[simp] theorem updDram_links (s : State) (d : Nat) (f : Dram → Dram) : (s.updDram d f).links = s.links := rfl
@[simp] theorem updDram_mg (s : State) (d : Nat) (f : Dram → Dram) : (s.updDram d f).mg = s.mg := rfl
@[simp] theorem updDram_dies (s : State) (d : Nat) (f : Dram → Dram) : (s.updDram d f).dies = s.dies := rfl

/-! ### updBank -/

@[simp] theorem updBank_cur (s : State) (b : Nat) (f : Bank → Bank) : (s.updBank b f).cur = s.cur := rfl
@[simp] theorem updBank_turn (s : State) (b : Nat) (f : Bank → Bank) : (s.updBank b f).turn = s.turn := rfl
@[simp] theorem updBank_due (s : State) (b : Nat) (f : Bank → Bank) : (s.updBank b f).due = s.due := rfl
@[simp] theorem updBank_tick (s : State) (b : Nat) (f : Bank → Bank) : (s.updBank b f).tick = s.tick := rfl
@[simp] theorem updBank_free (s : State) (b : Nat) (f : Bank → Bank) : (s.updBank b f).free = s.free := rfl
@[simp] theorem updBank_nextId (s : State) (b : Nat) (f : Bank → Bank) : (s.updBank b f).nextId = s.nextId := rfl
@[simp] theorem updBank_now (s : State) (b : Nat) (f : Bank → Bank) : (s.updBank b f).now = s.now := rfl
@[simp] theorem updBank_mem (s : State) (b : Nat) (f : Bank → Bank) : (s.updBank b f).mem = s.mem := rfl
@[simp] theorem updBank_crews (s : State) (b : Nat) (f : Bank → Bank) : (s.updBank b f).crews = s.crews := rfl
@[simp] theorem updBank_cores (s : State) (b : Nat) (f : Bank → Bank) : (s.updBank b f).cores = s.cores := rfl
@[simp] theorem updBank_ops (s : State) (b : Nat) (f : Bank → Bank) : (s.updBank b f).ops = s.ops := rfl
@[simp] theorem updBank_groups (s : State) (b : Nat) (f : Bank → Bank) : (s.updBank b f).groups = s.groups := rfl
@[simp] theorem updBank_convoys (s : State) (b : Nat) (f : Bank → Bank) : (s.updBank b f).convoys = s.convoys := rfl
@[simp] theorem updBank_launches (s : State) (b : Nat) (f : Bank → Bank) : (s.updBank b f).launches = s.launches := rfl
@[simp] theorem updBank_queues (s : State) (b : Nat) (f : Bank → Bank) : (s.updBank b f).queues = s.queues := rfl
@[simp] theorem updBank_lastQueue (s : State) (b : Nat) (f : Bank → Bank) : (s.updBank b f).lastQueue = s.lastQueue := rfl
@[simp] theorem updBank_ctxs (s : State) (b : Nat) (f : Bank → Bank) : (s.updBank b f).ctxs = s.ctxs := rfl
@[simp] theorem updBank_walks (s : State) (b : Nat) (f : Bank → Bank) : (s.updBank b f).walks = s.walks := rfl
@[simp] theorem updBank_faults (s : State) (b : Nat) (f : Bank → Bank) : (s.updBank b f).faults = s.faults := rfl
@[simp] theorem updBank_migs (s : State) (b : Nat) (f : Bank → Bank) : (s.updBank b f).migs = s.migs := rfl
@[simp] theorem updBank_trackers (s : State) (b : Nat) (f : Bank → Bank) : (s.updBank b f).trackers = s.trackers := rfl
@[simp] theorem updBank_drams (s : State) (b : Nat) (f : Bank → Bank) : (s.updBank b f).drams = s.drams := rfl
@[simp] theorem updBank_links (s : State) (b : Nat) (f : Bank → Bank) : (s.updBank b f).links = s.links := rfl
@[simp] theorem updBank_mg (s : State) (b : Nat) (f : Bank → Bank) : (s.updBank b f).mg = s.mg := rfl
@[simp] theorem updBank_dies (s : State) (b : Nat) (f : Bank → Bank) : (s.updBank b f).dies = s.dies := rfl

/-! ### updLink -/

@[simp] theorem updLink_cur (s : State) (n : Nat) (f : Link → Link) : (s.updLink n f).cur = s.cur := rfl
@[simp] theorem updLink_turn (s : State) (n : Nat) (f : Link → Link) : (s.updLink n f).turn = s.turn := rfl
@[simp] theorem updLink_due (s : State) (n : Nat) (f : Link → Link) : (s.updLink n f).due = s.due := rfl
@[simp] theorem updLink_tick (s : State) (n : Nat) (f : Link → Link) : (s.updLink n f).tick = s.tick := rfl
@[simp] theorem updLink_free (s : State) (n : Nat) (f : Link → Link) : (s.updLink n f).free = s.free := rfl
@[simp] theorem updLink_nextId (s : State) (n : Nat) (f : Link → Link) : (s.updLink n f).nextId = s.nextId := rfl
@[simp] theorem updLink_now (s : State) (n : Nat) (f : Link → Link) : (s.updLink n f).now = s.now := rfl
@[simp] theorem updLink_mem (s : State) (n : Nat) (f : Link → Link) : (s.updLink n f).mem = s.mem := rfl
@[simp] theorem updLink_crews (s : State) (n : Nat) (f : Link → Link) : (s.updLink n f).crews = s.crews := rfl
@[simp] theorem updLink_cores (s : State) (n : Nat) (f : Link → Link) : (s.updLink n f).cores = s.cores := rfl
@[simp] theorem updLink_ops (s : State) (n : Nat) (f : Link → Link) : (s.updLink n f).ops = s.ops := rfl
@[simp] theorem updLink_groups (s : State) (n : Nat) (f : Link → Link) : (s.updLink n f).groups = s.groups := rfl
@[simp] theorem updLink_convoys (s : State) (n : Nat) (f : Link → Link) : (s.updLink n f).convoys = s.convoys := rfl
@[simp] theorem updLink_launches (s : State) (n : Nat) (f : Link → Link) : (s.updLink n f).launches = s.launches := rfl
@[simp] theorem updLink_queues (s : State) (n : Nat) (f : Link → Link) : (s.updLink n f).queues = s.queues := rfl
@[simp] theorem updLink_lastQueue (s : State) (n : Nat) (f : Link → Link) : (s.updLink n f).lastQueue = s.lastQueue := rfl
@[simp] theorem updLink_ctxs (s : State) (n : Nat) (f : Link → Link) : (s.updLink n f).ctxs = s.ctxs := rfl
@[simp] theorem updLink_walks (s : State) (n : Nat) (f : Link → Link) : (s.updLink n f).walks = s.walks := rfl
@[simp] theorem updLink_faults (s : State) (n : Nat) (f : Link → Link) : (s.updLink n f).faults = s.faults := rfl
@[simp] theorem updLink_migs (s : State) (n : Nat) (f : Link → Link) : (s.updLink n f).migs = s.migs := rfl
@[simp] theorem updLink_trackers (s : State) (n : Nat) (f : Link → Link) : (s.updLink n f).trackers = s.trackers := rfl
@[simp] theorem updLink_drams (s : State) (n : Nat) (f : Link → Link) : (s.updLink n f).drams = s.drams := rfl
@[simp] theorem updLink_banks (s : State) (n : Nat) (f : Link → Link) : (s.updLink n f).banks = s.banks := rfl
@[simp] theorem updLink_mg (s : State) (n : Nat) (f : Link → Link) : (s.updLink n f).mg = s.mg := rfl
@[simp] theorem updLink_dies (s : State) (n : Nat) (f : Link → Link) : (s.updLink n f).dies = s.dies := rfl

/-! ### updDie -/

@[simp] theorem updDie_cur (s : State) (d : Nat) (f : Die → Die) : (s.updDie d f).cur = s.cur := rfl
@[simp] theorem updDie_turn (s : State) (d : Nat) (f : Die → Die) : (s.updDie d f).turn = s.turn := rfl
@[simp] theorem updDie_due (s : State) (d : Nat) (f : Die → Die) : (s.updDie d f).due = s.due := rfl
@[simp] theorem updDie_tick (s : State) (d : Nat) (f : Die → Die) : (s.updDie d f).tick = s.tick := rfl
@[simp] theorem updDie_free (s : State) (d : Nat) (f : Die → Die) : (s.updDie d f).free = s.free := rfl
@[simp] theorem updDie_nextId (s : State) (d : Nat) (f : Die → Die) : (s.updDie d f).nextId = s.nextId := rfl
@[simp] theorem updDie_now (s : State) (d : Nat) (f : Die → Die) : (s.updDie d f).now = s.now := rfl
@[simp] theorem updDie_mem (s : State) (d : Nat) (f : Die → Die) : (s.updDie d f).mem = s.mem := rfl
@[simp] theorem updDie_crews (s : State) (d : Nat) (f : Die → Die) : (s.updDie d f).crews = s.crews := rfl
@[simp] theorem updDie_cores (s : State) (d : Nat) (f : Die → Die) : (s.updDie d f).cores = s.cores := rfl
@[simp] theorem updDie_ops (s : State) (d : Nat) (f : Die → Die) : (s.updDie d f).ops = s.ops := rfl
@[simp] theorem updDie_groups (s : State) (d : Nat) (f : Die → Die) : (s.updDie d f).groups = s.groups := rfl
@[simp] theorem updDie_convoys (s : State) (d : Nat) (f : Die → Die) : (s.updDie d f).convoys = s.convoys := rfl
@[simp] theorem updDie_launches (s : State) (d : Nat) (f : Die → Die) : (s.updDie d f).launches = s.launches := rfl
@[simp] theorem updDie_queues (s : State) (d : Nat) (f : Die → Die) : (s.updDie d f).queues = s.queues := rfl
@[simp] theorem updDie_lastQueue (s : State) (d : Nat) (f : Die → Die) : (s.updDie d f).lastQueue = s.lastQueue := rfl
@[simp] theorem updDie_ctxs (s : State) (d : Nat) (f : Die → Die) : (s.updDie d f).ctxs = s.ctxs := rfl
@[simp] theorem updDie_walks (s : State) (d : Nat) (f : Die → Die) : (s.updDie d f).walks = s.walks := rfl
@[simp] theorem updDie_faults (s : State) (d : Nat) (f : Die → Die) : (s.updDie d f).faults = s.faults := rfl
@[simp] theorem updDie_migs (s : State) (d : Nat) (f : Die → Die) : (s.updDie d f).migs = s.migs := rfl
@[simp] theorem updDie_trackers (s : State) (d : Nat) (f : Die → Die) : (s.updDie d f).trackers = s.trackers := rfl
@[simp] theorem updDie_drams (s : State) (d : Nat) (f : Die → Die) : (s.updDie d f).drams = s.drams := rfl
@[simp] theorem updDie_banks (s : State) (d : Nat) (f : Die → Die) : (s.updDie d f).banks = s.banks := rfl
@[simp] theorem updDie_links (s : State) (d : Nat) (f : Die → Die) : (s.updDie d f).links = s.links := rfl
@[simp] theorem updDie_mg (s : State) (d : Nat) (f : Die → Die) : (s.updDie d f).mg = s.mg := rfl

/-! ### updMg -/

@[simp] theorem updMg_cur (s : State) (f : Manage → Manage) : (s.updMg f).cur = s.cur := rfl
@[simp] theorem updMg_turn (s : State) (f : Manage → Manage) : (s.updMg f).turn = s.turn := rfl
@[simp] theorem updMg_due (s : State) (f : Manage → Manage) : (s.updMg f).due = s.due := rfl
@[simp] theorem updMg_tick (s : State) (f : Manage → Manage) : (s.updMg f).tick = s.tick := rfl
@[simp] theorem updMg_free (s : State) (f : Manage → Manage) : (s.updMg f).free = s.free := rfl
@[simp] theorem updMg_nextId (s : State) (f : Manage → Manage) : (s.updMg f).nextId = s.nextId := rfl
@[simp] theorem updMg_now (s : State) (f : Manage → Manage) : (s.updMg f).now = s.now := rfl
@[simp] theorem updMg_mem (s : State) (f : Manage → Manage) : (s.updMg f).mem = s.mem := rfl
@[simp] theorem updMg_crews (s : State) (f : Manage → Manage) : (s.updMg f).crews = s.crews := rfl
@[simp] theorem updMg_cores (s : State) (f : Manage → Manage) : (s.updMg f).cores = s.cores := rfl
@[simp] theorem updMg_ops (s : State) (f : Manage → Manage) : (s.updMg f).ops = s.ops := rfl
@[simp] theorem updMg_groups (s : State) (f : Manage → Manage) : (s.updMg f).groups = s.groups := rfl
@[simp] theorem updMg_convoys (s : State) (f : Manage → Manage) : (s.updMg f).convoys = s.convoys := rfl
@[simp] theorem updMg_launches (s : State) (f : Manage → Manage) : (s.updMg f).launches = s.launches := rfl
@[simp] theorem updMg_queues (s : State) (f : Manage → Manage) : (s.updMg f).queues = s.queues := rfl
@[simp] theorem updMg_lastQueue (s : State) (f : Manage → Manage) : (s.updMg f).lastQueue = s.lastQueue := rfl
@[simp] theorem updMg_ctxs (s : State) (f : Manage → Manage) : (s.updMg f).ctxs = s.ctxs := rfl
@[simp] theorem updMg_walks (s : State) (f : Manage → Manage) : (s.updMg f).walks = s.walks := rfl
@[simp] theorem updMg_faults (s : State) (f : Manage → Manage) : (s.updMg f).faults = s.faults := rfl
@[simp] theorem updMg_migs (s : State) (f : Manage → Manage) : (s.updMg f).migs = s.migs := rfl
@[simp] theorem updMg_trackers (s : State) (f : Manage → Manage) : (s.updMg f).trackers = s.trackers := rfl
@[simp] theorem updMg_drams (s : State) (f : Manage → Manage) : (s.updMg f).drams = s.drams := rfl
@[simp] theorem updMg_banks (s : State) (f : Manage → Manage) : (s.updMg f).banks = s.banks := rfl
@[simp] theorem updMg_links (s : State) (f : Manage → Manage) : (s.updMg f).links = s.links := rfl
@[simp] theorem updMg_dies (s : State) (f : Manage → Manage) : (s.updMg f).dies = s.dies := rfl

/-! ### updCrew: by the two cases of its table -/

@[simp] theorem updCrew_cur (s : State) (c : Nat) (f : Crew → Crew) : (s.updCrew c f).cur = s.cur := by
  unfold updCrew; split <;> rfl
@[simp] theorem updCrew_turn (s : State) (c : Nat) (f : Crew → Crew) : (s.updCrew c f).turn = s.turn := by
  unfold updCrew; split <;> rfl
@[simp] theorem updCrew_due (s : State) (c : Nat) (f : Crew → Crew) : (s.updCrew c f).due = s.due := by
  unfold updCrew; split <;> rfl
@[simp] theorem updCrew_tick (s : State) (c : Nat) (f : Crew → Crew) : (s.updCrew c f).tick = s.tick := by
  unfold updCrew; split <;> rfl
@[simp] theorem updCrew_free (s : State) (c : Nat) (f : Crew → Crew) : (s.updCrew c f).free = s.free := by
  unfold updCrew; split <;> rfl
@[simp] theorem updCrew_nextId (s : State) (c : Nat) (f : Crew → Crew) : (s.updCrew c f).nextId = s.nextId := by
  unfold updCrew; split <;> rfl
@[simp] theorem updCrew_now (s : State) (c : Nat) (f : Crew → Crew) : (s.updCrew c f).now = s.now := by
  unfold updCrew; split <;> rfl
@[simp] theorem updCrew_mem (s : State) (c : Nat) (f : Crew → Crew) : (s.updCrew c f).mem = s.mem := by
  unfold updCrew; split <;> rfl
@[simp] theorem updCrew_cores (s : State) (c : Nat) (f : Crew → Crew) : (s.updCrew c f).cores = s.cores := by
  unfold updCrew; split <;> rfl
@[simp] theorem updCrew_ops (s : State) (c : Nat) (f : Crew → Crew) : (s.updCrew c f).ops = s.ops := by
  unfold updCrew; split <;> rfl
@[simp] theorem updCrew_groups (s : State) (c : Nat) (f : Crew → Crew) : (s.updCrew c f).groups = s.groups := by
  unfold updCrew; split <;> rfl
@[simp] theorem updCrew_convoys (s : State) (c : Nat) (f : Crew → Crew) : (s.updCrew c f).convoys = s.convoys := by
  unfold updCrew; split <;> rfl
@[simp] theorem updCrew_launches (s : State) (c : Nat) (f : Crew → Crew) : (s.updCrew c f).launches = s.launches := by
  unfold updCrew; split <;> rfl
@[simp] theorem updCrew_queues (s : State) (c : Nat) (f : Crew → Crew) : (s.updCrew c f).queues = s.queues := by
  unfold updCrew; split <;> rfl
@[simp] theorem updCrew_lastQueue (s : State) (c : Nat) (f : Crew → Crew) : (s.updCrew c f).lastQueue = s.lastQueue := by
  unfold updCrew; split <;> rfl
@[simp] theorem updCrew_ctxs (s : State) (c : Nat) (f : Crew → Crew) : (s.updCrew c f).ctxs = s.ctxs := by
  unfold updCrew; split <;> rfl
@[simp] theorem updCrew_walks (s : State) (c : Nat) (f : Crew → Crew) : (s.updCrew c f).walks = s.walks := by
  unfold updCrew; split <;> rfl
@[simp] theorem updCrew_faults (s : State) (c : Nat) (f : Crew → Crew) : (s.updCrew c f).faults = s.faults := by
  unfold updCrew; split <;> rfl
@[simp] theorem updCrew_migs (s : State) (c : Nat) (f : Crew → Crew) : (s.updCrew c f).migs = s.migs := by
  unfold updCrew; split <;> rfl
@[simp] theorem updCrew_trackers (s : State) (c : Nat) (f : Crew → Crew) : (s.updCrew c f).trackers = s.trackers := by
  unfold updCrew; split <;> rfl
@[simp] theorem updCrew_drams (s : State) (c : Nat) (f : Crew → Crew) : (s.updCrew c f).drams = s.drams := by
  unfold updCrew; split <;> rfl
@[simp] theorem updCrew_banks (s : State) (c : Nat) (f : Crew → Crew) : (s.updCrew c f).banks = s.banks := by
  unfold updCrew; split <;> rfl
@[simp] theorem updCrew_links (s : State) (c : Nat) (f : Crew → Crew) : (s.updCrew c f).links = s.links := by
  unfold updCrew; split <;> rfl
@[simp] theorem updCrew_mg (s : State) (c : Nat) (f : Crew → Crew) : (s.updCrew c f).mg = s.mg := by
  unfold updCrew; split <;> rfl
@[simp] theorem updCrew_dies (s : State) (c : Nat) (f : Crew → Crew) : (s.updCrew c f).dies = s.dies := by
  unfold updCrew; split <;> rfl

end Sys2Proof.Machine.State
end

