-- ==== Sys2Proof/Laws/Table.lean ====
section
/-!
SUPPORT. Tables and memory: a read after a write, a write leaves every other key alone, and every operation keeps the canonical form.
-/
namespace Sys2Proof.SMap
variable {α : Type}

@[simp] theorem find?_nil (k : Nat) : find? ([] : SMap α) k = none := rfl

@[simp] theorem find?_insert_self (m : SMap α) (k : Nat) (y : α) : (m.insert k y).find? k = some y := by
  induction m with
  | nil => simp [insert, find?]
  | cons e t ih =>
    obtain ⟨j, x⟩ := e
    unfold insert
    split
    · simp [find?]
    · split
      · simp [find?]
      · next h1 h2 => simp only [find?]; rw [if_neg (fun h => h2 h.symm)]; exact ih

@[simp] theorem find?_insert_ne (m : SMap α) {k k' : Nat} (y : α) (h : k' ≠ k) : (m.insert k y).find? k' = m.find? k' := by
  induction m with
  | nil => simp [insert, find?, Ne.symm h]
  | cons e t ih =>
    obtain ⟨j, x⟩ := e
    unfold insert
    split
    · simp [find?, Ne.symm h]
    · split
      · next _ h2 => subst h2; simp [find?, Ne.symm h]
      · simp only [find?]; split
        · rfl
        · exact ih

theorem find?_insert (m : SMap α) (k k' : Nat) (y : α) : (m.insert k y).find? k' = if k' = k then some y else m.find? k' := by
  split
  · next h => subst h; simp
  · next h => simp [h]

@[simp] theorem find?_erase_ne (m : SMap α) {k k' : Nat} (h : k' ≠ k) : (m.erase k).find? k' = m.find? k' := by
  induction m with
  | nil => rfl
  | cons e t ih =>
    obtain ⟨j, x⟩ := e
    unfold erase
    split
    · next h2 => subst h2; simp [find?, Ne.symm h, ih]
    · simp only [find?]; split
      · rfl
      · exact ih

theorem risesFrom_mono {a b : Nat} (h : a ≤ b) {m : SMap α} (hb : risesFrom b m = true) : risesFrom a m = true := by
  cases m with
  | nil => rfl
  | cons e t =>
    simp only [risesFrom, Bool.and_eq_true, decide_eq_true_eq] at hb ⊢
    exact ⟨by omega, hb.2⟩

theorem find?_none_of_risesFrom {lo k : Nat} (h : k < lo) {m : SMap α} (hm : risesFrom lo m = true) : m.find? k = none := by
  induction m generalizing lo with
  | nil => rfl
  | cons e t ih =>
    simp only [risesFrom, Bool.and_eq_true, decide_eq_true_eq] at hm
    simp only [find?]
    rw [if_neg (by omega)]
    exact ih (by omega) hm.2

@[simp] theorem find?_erase_self (m : SMap α) (k : Nat) : (m.erase k).find? k = none := by
  induction m with
  | nil => rfl
  | cons e t ih =>
    unfold erase
    split
    · exact ih
    · next h => simp only [find?]; rw [if_neg h]; exact ih

theorem risesFrom_insert {lo k : Nat} (h : lo ≤ k) {m : SMap α} (hm : risesFrom lo m = true) (y : α) : risesFrom lo (m.insert k y) = true := by
  induction m generalizing lo with
  | nil => simp [insert, risesFrom, h]
  | cons e t ih =>
    simp only [risesFrom, Bool.and_eq_true, decide_eq_true_eq] at hm
    unfold insert
    split
    · simp only [risesFrom, Bool.and_eq_true, decide_eq_true_eq]
      exact ⟨h, by omega, hm.2⟩
    · split
      · simp only [risesFrom, Bool.and_eq_true, decide_eq_true_eq]
        next h2 => subst h2; exact ⟨h, hm.2⟩
      · simp only [risesFrom, Bool.and_eq_true, decide_eq_true_eq]
        exact ⟨hm.1, ih (by omega) hm.2⟩

theorem risesFrom_erase {lo k : Nat} {m : SMap α} (hm : risesFrom lo m = true) : risesFrom lo (m.erase k) = true := by
  induction m generalizing lo with
  | nil => rfl
  | cons e t ih =>
    simp only [risesFrom, Bool.and_eq_true, decide_eq_true_eq] at hm
    unfold erase
    split
    · exact ih (risesFrom_mono (by omega) hm.2)
    · simp only [risesFrom, Bool.and_eq_true, decide_eq_true_eq]
      exact ⟨hm.1, ih hm.2⟩

theorem mem_insert {m : SMap α} {k : Nat} {y : α} {e : Nat × α} (h : e ∈ m.insert k y) : e = (k, y) ∨ e ∈ m := by
  induction m with
  | nil => simpa [insert] using h
  | cons a t ih =>
    unfold insert at h
    split at h
    · simpa using h
    · split at h
      · rcases List.mem_cons.1 h with h | h
        · exact .inl h
        · exact .inr (List.mem_cons_of_mem _ h)
      · rcases List.mem_cons.1 h with h | h
        · exact .inr (h ▸ List.mem_cons_self)
        · rcases ih h with h | h
          · exact .inl h
          · exact .inr (List.mem_cons_of_mem _ h)

theorem mem_erase {m : SMap α} {k : Nat} {e : Nat × α} (h : e ∈ m.erase k) : e ∈ m := by
  induction m with
  | nil => exact h
  | cons a t ih =>
    unfold erase at h
    split at h
    · exact List.mem_cons_of_mem _ (ih h)
    · rcases List.mem_cons.1 h with h | h
      · exact h ▸ List.mem_cons_self
      · exact List.mem_cons_of_mem _ (ih h)

/-- A write in a table with a default keeps its canonical form. -/
theorem wf_setD [DecidableEq α] {d : α} {m : SMap α} (hm : wf d m = true) (k : Nat) (y : α) : wf d (m.setD k d y) = true := by
  simp only [wf, Bool.and_eq_true, List.all_eq_true, decide_eq_true_eq] at hm ⊢
  unfold setD
  split
  · exact ⟨risesFrom_erase hm.1, fun e he => hm.2 e (mem_erase he)⟩
  · next h =>
    refine ⟨risesFrom_insert (Nat.zero_le _) hm.1 _, fun e he => ?_⟩
    rcases mem_insert he with rfl | he
    · exact h
    · exact hm.2 e he

@[simp] theorem getD_insert_self (m : SMap α) (k : Nat) (y d : α) : (m.insert k y).getD k d = y := by simp [getD]

@[simp] theorem getD_insert_ne (m : SMap α) {k k' : Nat} (y d : α) (h : k' ≠ k) : (m.insert k y).getD k' d = m.getD k' d := by
  simp [getD, h]

theorem getD_setD_ne [DecidableEq α] (m : SMap α) {k k' : Nat} (d y : α) (h : k' ≠ k) : (m.setD k d y).getD k' d = m.getD k' d := by
  unfold setD
  split <;> simp [getD, h]

theorem getD_setD_self [DecidableEq α] {m : SMap α} (k : Nat) (d y : α) : (m.setD k d y).getD k d = y := by
  unfold setD
  split
  · next h => simp [getD, h]
  · simp

theorem find?_map (m : SMap α) (f : Nat → α → α) (k : Nat) :
    find? (List.map (fun (e : Nat × α) => (e.1, f e.1 e.2)) m) k = (m.find? k).map (f k) := by
  induction m with
  | nil => rfl
  | cons e t ih =>
    obtain ⟨j, x⟩ := e
    simp only [List.map_cons, find?]
    split
    · next h => subst h; rfl
    · exact ih

theorem find?_modify_self (m : SMap α) (k : Nat) (f : α → α) : (m.modify k f).find? k = (m.find? k).map f := by
  unfold modify
  cases h : m.find? k with
  | none => simp [h]
  | some x => simp

theorem find?_modify_ne (m : SMap α) {k k' : Nat} (f : α → α) (h : k' ≠ k) : (m.modify k f).find? k' = m.find? k' := by
  unfold modify
  split <;> simp [h]

end Sys2Proof.SMap

namespace Sys2Proof.Machine
open Sys2Proof

namespace Memory

/-! ### Memory (R9) -/

theorem read_write_self (m : Memory) (a : Nat) (b : Byte) : (m.write a b).read a = b := SMap.getD_setD_self _ _ _

theorem read_write_ne (m : Memory) {a a' : Nat} (b : Byte) (h : a' ≠ a) : (m.write a b).read a' = m.read a' :=
  SMap.getD_setD_ne _ _ _ h

theorem wf_write {m : Memory} (hm : m.wf = true) (a : Nat) (b : Byte) : (m.write a b).wf = true := SMap.wf_setD hm a b

theorem wf_writeN {m : Memory} (hm : m.wf = true) (a : Nat) (l : List Byte) : (m.writeN a l).wf = true := by
  induction l generalizing m a with
  | nil => exact hm
  | cons b t ih => exact ih (wf_write hm a b) _

theorem wf_writeLE {m : Memory} (hm : m.wf = true) (a n x : Nat) : (m.writeLE a n x).wf = true := wf_writeN hm a _

theorem read_writeN_out (m : Memory) (l : List Byte) {a x : Nat} (h : x < a ∨ a + l.length ≤ x) : (m.writeN a l).read x = m.read x := by
  induction l generalizing m a with
  | nil => rfl
  | cons b t ih =>
    simp only [List.length_cons] at h
    unfold writeN
    rw [ih _ (by omega), read_write_ne _ _ (by omega)]

@[simp] theorem wf_clearPoison (m : Memory) (k : Nat) : (m.clearPoison k).wf = m.wf := rfl
@[simp] theorem wf_addPoison (m : Memory) (a : Nat) : (m.addPoison a).wf = m.wf := by unfold addPoison; split <;> rfl
@[simp] theorem read_clearPoison (m : Memory) (k a : Nat) : (m.clearPoison k).read a = m.read a := rfl
@[simp] theorem read_addPoison (m : Memory) (p a : Nat) : (m.addPoison p).read a = m.read a := by unfold addPoison; split <;> rfl

theorem foldl_write_wf {m : Memory} (hm : m.wf = true) (l : List (Nat × Byte)) : (l.foldl (fun m e => m.write e.1 e.2) m).wf = true := by
  induction l generalizing m with
  | nil => exact hm
  | cons e t ih => exact ih (wf_write hm e.1 e.2)

theorem foldl_write_out (m : Memory) (l : List (Nat × Byte)) {x : Nat} (h : ∀ e ∈ l, e.1 ≠ x) :
    (l.foldl (fun m e => m.write e.1 e.2) m).read x = m.read x := by
  induction l generalizing m with
  | nil => rfl
  | cons e t ih =>
    rw [List.foldl_cons, ih _ (fun e he => h e (List.mem_cons_of_mem _ he)), read_write_ne _ _ (h e List.mem_cons_self).symm]

theorem foldl_clear_wf (m : Memory) (l : List Nat) : (l.foldl (fun m k => m.clearPoison k) m).wf = m.wf := by
  induction l generalizing m with
  | nil => rfl
  | cons e t ih => rw [List.foldl_cons, ih]; rfl

theorem foldl_clear_read (m : Memory) (l : List Nat) (x : Nat) : (l.foldl (fun m k => m.clearPoison k) m).read x = m.read x := by
  induction l generalizing m with
  | nil => rfl
  | cons e t ih => rw [List.foldl_cons, ih]; rfl

end Memory

/-- Writing bytes keeps the canonical form. -/
theorem writePhys_wf {s : State} (hs : s.mem.wf = true) (l : List (Nat × Byte)) : (writePhys s l).mem.wf = true := by
  unfold writePhys
  simp only [Memory.foldl_clear_wf]
  exact Memory.foldl_write_wf hs l

/-- A byte outside those written reads as before. -/
theorem writePhys_out (s : State) (l : List (Nat × Byte)) {x : Nat} (h : ∀ e ∈ l, e.1 ≠ x) : (writePhys s l).mem.read x = s.mem.read x := by
  unfold writePhys
  simp only [Memory.foldl_clear_read]
  exact Memory.foldl_write_out _ l h

/-- Reset memory lists nothing. -/
theorem reset_mem_wf : State.reset.mem.wf = true := rfl

/-! ### Updates of the tables -/

namespace State

@[simp] theorem crew?_setCrew_self (s : State) (c : Nat) (x : Crew) : (s.setCrew c x).crew? c = some x := by simp [setCrew, crew?]

@[simp] theorem crew?_setCrew_ne (s : State) {c d : Nat} (x : Crew) (h : d ≠ c) : (s.setCrew c x).crew? d = s.crew? d := by
  simp [setCrew, crew?, h]

theorem crew?_updCrew_self (s : State) (c : Nat) (f : Crew → Crew) : (s.updCrew c f).crew? c = (s.crew? c).map f := by
  unfold updCrew
  cases h : s.crew? c with
  | none => simpa using h
  | some x => simp

@[simp] theorem crew?_updCrew_ne (s : State) {c d : Nat} (f : Crew → Crew) (h : d ≠ c) : (s.updCrew c f).crew? d = s.crew? d := by
  unfold updCrew
  split <;> simp [h]

@[simp] theorem crew?_updCore (s : State) (g c : Nat) (f : Core → Core) : (s.updCore g f).crew? c = s.crew? c := rfl
@[simp] theorem crew?_updSched (s : State) (g t c : Nat) (f : Sched → Sched) : (s.updSched g t f).crew? c = s.crew? c := rfl
@[simp] theorem core_updCrew (s : State) (c g : Nat) (f : Crew → Crew) : (s.updCrew c f).core g = s.core g := by simp [core]

@[simp] theorem core_updCore_self (s : State) (g : Nat) (f : Core → Core) : (s.updCore g f).core g = f (s.core g) := by
  simp [core, updCore]

@[simp] theorem core_updCore_ne (s : State) {g h : Nat} (f : Core → Core) (n : h ≠ g) : (s.updCore g f).core h = s.core h := by
  simp [core, updCore, n]

theorem core_updCore (s : State) (g h : Nat) (f : Core → Core) : (s.updCore g f).core h = if h = g then f (s.core g) else s.core h := by
  split
  · next e => subst e; simp
  · next e => simp [e]

@[simp] theorem op?_updCrew (s : State) (c o : Nat) (f : Crew → Crew) : (s.updCrew c f).op? o = s.op? o := by simp [op?]
@[simp] theorem op?_setOp_self (s : State) (o : Nat) (x : Op) : (s.setOp o x).op? o = some x := by simp [setOp, op?]
@[simp] theorem op?_setOp_ne (s : State) {o p : Nat} (x : Op) (h : p ≠ o) : (s.setOp o x).op? p = s.op? p := by simp [setOp, op?, h]
@[simp] theorem crew?_setOp (s : State) (o c : Nat) (x : Op) : (s.setOp o x).crew? c = s.crew? c := rfl

end State

end Sys2Proof.Machine
end

