-- ==== Sys2Proof/Laws/Issue.lean ====
section
/-!
SUPPORT. What issue does, once and for all: with every test of R28 and R29 passed an instruction is its effect; what the parts of issue change
and what they leave; and the ways a result returns (R89).
-/
namespace Sys2Proof.Machine

/-! ### The lines an instruction uses -/

/-- With no injected fault in them, the use of lines changes the order and the marks of the register cache, and nothing else. -/
theorem touchLines_clean {s : State} {g c : Nat} {used dirty : List Nat}
    (h : ((s.core g).rc.filter fun l => l.crew == c && used.contains l.line).filter (fun l => !l.flip.isEmpty && !l.dirty) = []) :
    ∃ rc, touchLines s g c used dirty = s.updCore g fun k => { k with rc := rc } := by
  refine ⟨(s.core g).rc.filter (fun l => !(l.crew == c && used.contains l.line)) ++
    ((s.core g).rc.filter fun l => l.crew == c && used.contains l.line).map fun l =>
      { l with flip := if l.dirty then l.flip else [], dirty := l.dirty || dirty.contains l.line, evict := false }, ?_⟩
  unfold touchLines
  simp only [h, List.map_nil, List.foldl_nil, List.isEmpty_nil, if_true]
  rfl

theorem flips_none {s : State} {x : Crew} {i : Instr} (h : linesPresent s x i = true) {l : RcLine}
    (hl : l ∈ (s.core x.seat.core).rc.filter fun l => l.crew == s.cur && (lineNeed x i).contains l.line) : l.flip = [] := by
  simp only [List.mem_filter, Bool.and_eq_true, beq_iff_eq, List.contains_iff_mem] at hl
  simp only [linesPresent, List.all_eq_true, Bool.and_eq_true, Bool.or_eq_true] at h
  rcases (h _ hl.2.2).2 l hl.1 with h | h
  · simp [hl.2.1] at h
  · simpa using h

theorem useLines_clean {s : State} {x : Crew} {i : Instr} (h : linesPresent s x i = true) :
    ∃ rc, useLines s s.cur x i = s.updCore x.seat.core fun k => { k with rc := rc } := by
  refine touchLines_clean (List.filter_eq_nil_iff.2 fun l hl => ?_)
  simp [flips_none h hl]

theorem badLines_clean {s : State} {x : Crew} {i : Instr} (h : linesPresent s x i = true) :
    badLines (s.core x.seat.core) s.cur (lineNeed x i) = [] := by
  unfold badLines
  rw [List.map_eq_nil_iff, List.filter_eq_nil_iff]
  intro l hl hp
  simp only [Bool.and_eq_true, beq_iff_eq] at hp
  have := flips_none h (l := l) (by simp [List.mem_filter, hl, hp.1.1.1]; simpa using hp.1.1.2)
  simp [this] at hp

theorem missing_clean {s : State} {x : Crew} {i : Instr} (h : linesPresent s x i = true) :
    ((lineNeed x i).any fun n => !hasLine (s.core x.seat.core) s.cur n) = false := by
  rw [List.any_eq_false]
  intro n hn
  simp only [linesPresent, List.all_eq_true, Bool.and_eq_true] at h
  simp [(h n hn).1]

theorem orderingOps_updCore (s : State) (g c : Nat) (f : Core → Core) : orderingOps (s.updCore g f) c = orderingOps s c := rfl

theorem Ready.lines {i : Instr} {s : State} {x : Crew} (h : Ready i s x) : linesPresent s x i = true := h.1.2.2.2.2.2.2

/-! ### Issue -/

/-- With every test passed, issue is the effect. -/
theorem issue_ready {i : Instr} {s : State} {x : Crew} (h : Ready i s x) {own : Iss → Option Nat} (ho : own (issOf i s x) = none)
    (eff : Iss → State → Effect) :
    issue i own eff s = match eff (issOf i s x) (issued i s x) with
      | .done t => afterYield t s.cur i.hdr.yield
      | .trap t => takeTrap (useLines s s.cur x i) s.cur t x.ctl.pc
      | .wait w => toWaiting (useLines s s.cur x i) s.cur w
      | .walks l wr => toWalks (useLines s s.cur x i) s.cur l wr
      | .trapAfter f t => takeTrap (f (useLines s s.cur x i)) s.cur t x.ctl.pc := by
  obtain ⟨⟨hc, ha, hb, hw, hr, hd, hl⟩, hg, ho'⟩ := h
  have hrc := useLines_clean hl
  have e1 : dynReason x i (dstRegs i) (own ⟨s.cur, x, i.hdr, x.ctl.pc, dstRegs i⟩) = none := by
    have ho : own ⟨s.cur, x, i.hdr, x.ctl.pc, dstRegs i⟩ = none := ho
    simp [dynReason, ho, hr, hd]
  have e2 : (Instr.ordered i && !(orderingOps (useLines s s.cur x i) s.cur).isEmpty) = false := by
    obtain ⟨rc, hrc⟩ := hrc
    rw [hrc, orderingOps_updCore]
    cases hi : Instr.ordered i with
    | false => rfl
    | true => simp [ho' hi]
  unfold issue
  simp only [hc, ha, hb, hw, ne_eq, not_true_eq_false, if_false, List.contains_nil, List.filter_false, List.filterMap_nil, commitTags, e1,
    missing_clean hl, Bool.not_true, badLines_clean hl, hg, e2, Bool.false_eq_true]
  rfl

/-! ### What is left alone -/

theorem tileKept.refl (c : Nat) (a : Option Tile) : tileKept c a a := .inl rfl

theorem tileKept.trans {c : Nat} {a b d : Option Tile} (h : tileKept c a b) (h' : tileKept c b d) : tileKept c a d := by
  rcases h with rfl | ⟨e, rfl, he, rfl⟩
  · exact h'
  · rcases h' with rfl | ⟨e', h1, h2, rfl⟩
    · exact .inr ⟨e, rfl, he, rfl⟩
    · simp only [Option.some.injEq] at h1
      subst h1
      exact .inr ⟨e, rfl, he, rfl⟩

theorem Elsewhere.refl (c : Nat) (s : State) : Elsewhere c s s :=
  ⟨rfl, fun _ => rfl, fun _ _ => rfl, fun _ => rfl, fun _ _ => tileKept.refl _ _⟩

theorem Elsewhere.trans {c : Nat} {s t u : State} (h : Elsewhere c s t) (h' : Elsewhere c t u) : Elsewhere c s u where
  tables := by
    have e : ({ u with crews := s.crews, cores := s.cores } : State) =
        { ({ u with crews := t.crews, cores := t.cores } : State) with crews := s.crews, cores := s.cores } := rfl
    rw [e, h'.tables, h.tables]
  memory a := (h'.memory a).trans (h.memory a)
  crews d hd := (h'.crews d hd).trans (h.crews d hd)
  cores g := by
    have e : ({ u.core g with scheds := (s.core g).scheds, rc := (s.core g).rc, tiles := (s.core g).tiles } : Core) =
        { ({ u.core g with scheds := (t.core g).scheds, rc := (t.core g).rc, tiles := (t.core g).tiles } : Core) with
          scheds := (s.core g).scheds, rc := (s.core g).rc, tiles := (s.core g).tiles } := rfl
    rw [e, h'.cores, h.cores]
  tiles g n := (h.tiles g n).trans (h'.tiles g n)

/-- The fields that every such change leaves: the timebase, operations, names, memory and the tables of launches and contexts. -/
theorem Elsewhere.fields {c : Nat} {s t : State} (h : Elsewhere c s t) :
    t.now = s.now ∧ t.ops = s.ops ∧ t.nextId = s.nextId ∧ t.mem = s.mem ∧ t.cur = s.cur ∧ t.free = s.free ∧ t.ctxs = s.ctxs ∧
      t.launches = s.launches ∧ t.groups = s.groups ∧ t.convoys = s.convoys ∧ t.queues = s.queues ∧ t.walks = s.walks ∧ t.dies = s.dies := by
  have e := h.tables
  refine ⟨?_, ?_, ?_, ?_, ?_, ?_, ?_, ?_, ?_, ?_, ?_, ?_, ?_⟩ <;> rw [← e]

theorem elsewhere_updCrew (s : State) (c : Nat) (f : Crew → Crew) : Elsewhere c s (s.updCrew c f) where
  tables := by
    unfold State.updCrew
    split <;> rfl
  memory a := by simp
  crews d hd := by simp [hd]
  cores g := by simp
  tiles g n := by simp [State.tile?, tileKept.refl]

/-- A change of one core that keeps everything but its sets, its register cache and the states of tiles. -/
theorem elsewhere_updCore (s : State) (c g : Nat) (f : Core → Core)
    (hf : { f (s.core g) with scheds := (s.core g).scheds, rc := (s.core g).rc, tiles := (s.core g).tiles } = s.core g)
    (ht : ∀ n, tileKept c ((s.core g).tiles.find? n) ((f (s.core g)).tiles.find? n)) : Elsewhere c s (s.updCore g f) where
  tables := rfl
  memory a := rfl
  crews d hd := rfl
  cores h := by
    rw [State.core_updCore]
    split
    · next e => subst e; exact hf
    · rfl
  tiles h n := by
    unfold State.tile?
    rw [State.core_updCore]
    split
    · next e => subst e; exact ht n
    · exact tileKept.refl _ _

theorem elsewhere_updSched (s : State) (c g t : Nat) (f : Sched → Sched) : Elsewhere c s (s.updSched g t f) :=
  elsewhere_updCore s c g _ rfl fun _ => tileKept.refl _ _

theorem elsewhere_stale (s : State) (c : Nat) (l : List Nat) (ex : Option Nat) : Elsewhere c s (staleTiles s c l ex) := by
  unfold staleTiles
  split
  · exact Elsewhere.refl _ _
  · refine elsewhere_updCore s c _ _ rfl fun n => ?_
    have e := SMap.find?_map (s.core ‹Crew›.seat.core).tiles (fun k (t : Tile) =>
      if t.space = 2 ∧ t.crew = some c ∧ ex ≠ some k ∧ (t.state = .valid ∨ t.state = .suspect) ∧ (t.runRegs.any fun r => l.contains r) = true then
        { t with state := .stale } else t) n
    have e2 : ((s.core ‹Crew›.seat.core).tiles.map fun (e : Nat × Tile) =>
        if e.2.space = 2 ∧ e.2.crew = some c ∧ ex ≠ some e.1 ∧ (e.2.state = .valid ∨ e.2.state = .suspect) ∧
          (e.2.runRegs.any fun r => l.contains r) = true then (e.1, { e.2 with state := .stale }) else e) =
        (s.core ‹Crew›.seat.core).tiles.map fun (e : Nat × Tile) => (e.1, (fun k (t : Tile) =>
          if t.space = 2 ∧ t.crew = some c ∧ ex ≠ some k ∧ (t.state = .valid ∨ t.state = .suspect) ∧ (t.runRegs.any fun r => l.contains r) = true
            then { t with state := .stale } else t) e.1 e.2) := by
      refine List.map_congr_left fun e _ => ?_
      dsimp only
      split <;> rfl
    show tileKept c _ (SMap.find? (List.map _ _) n)
    rw [e2, e]
    cases (s.core ‹Crew›.seat.core).tiles.find? n with
    | none => exact tileKept.refl _ _
    | some t =>
      simp only [Option.map_some]
      split
      · next h => exact .inr ⟨t, rfl, h.2.1, rfl⟩
      · exact tileKept.refl _ _

theorem crew?_staleTiles (s : State) (c d : Nat) (l : List Nat) (ex : Option Nat) : (staleTiles s c l ex).crew? d = s.crew? d := by
  unfold staleTiles
  split <;> rfl

theorem elsewhere_leaveSets (s : State) (c d : Nat) : Elsewhere c s (leaveSets s d) := by
  unfold leaveSets
  split
  · exact Elsewhere.refl _ _
  · exact elsewhere_updSched _ _ _ _ _

theorem crew?_leaveSets (s : State) (c d : Nat) : (leaveSets s c).crew? d = s.crew? d := by
  unfold leaveSets
  split <;> rfl

theorem elsewhere_toReady (s : State) (c : Nat) : Elsewhere c s (toReady s c) := by
  unfold toReady
  split
  · exact Elsewhere.refl _ _
  · exact ((elsewhere_leaveSets s c c).trans (elsewhere_updCrew _ c _)).trans (elsewhere_updSched _ _ _ _ _)

theorem crew?_toReady {s : State} {c : Nat} {x : Crew} (h : s.crew? c = some x) :
    (toReady s c).crew? c = some { x with state := .ready, wait := .none } := by
  unfold toReady
  simp [h, State.crew?_updCrew_self, crew?_leaveSets]

theorem elsewhere_afterYield (s : State) (c : Nat) (y : Bool) : Elsewhere c s (afterYield s c y) := by
  unfold afterYield
  split
  · split
    · exact elsewhere_toReady s c
    · exact Elsewhere.refl _ _
  · exact Elsewhere.refl _ _

/-- After issue: READY with YIELD, ACTIVE otherwise. -/
theorem crew?_afterYield {s : State} {c : Nat} {x : Crew} (h : s.crew? c = some x) (ha : x.state = .active) (y : Bool) :
    (afterYield s c y).crew? c = some { x with state := if y then .ready else .active, wait := if y then .none else x.wait } := by
  unfold afterYield
  simp only [h, ha]
  cases y with
  | false => simp [h]; cases x; simp_all
  | true => simp [crew?_toReady h]

theorem elsewhere_useLines {i : Instr} {s : State} {x : Crew} (h : linesPresent s x i = true) : Elsewhere s.cur s (useLines s s.cur x i) := by
  obtain ⟨rc, e⟩ := useLines_clean h
  rw [e]
  exact elsewhere_updCore _ _ _ _ rfl fun _ => tileKept.refl _ _

/-- The crew as the effect finds it. -/
def issuedCrew (s : State) (x : Crew) : Crew := { countIssue (x.cycle s) x with ctl := nextPc x }

theorem issued_crew {i : Instr} {s : State} {x : Crew} (h : Ready i s x) : (issued i s x).crew? s.cur = some (issuedCrew s x) := by
  obtain ⟨rc, e⟩ := useLines_clean (Ready.lines h)
  unfold issued advance
  rw [State.crew?_updCrew_self, e, State.crew?_updCore, h.1.1]
  rfl

theorem issued_else {i : Instr} {s : State} {x : Crew} (h : Ready i s x) : Elsewhere s.cur s (issued i s x) :=
  (elsewhere_useLines (Ready.lines h)).trans (elsewhere_updCrew _ _ _)

theorem issued_cur {i : Instr} {s : State} {x : Crew} (h : Ready i s x) : (issued i s x).cur = s.cur := (issued_else h).fields.2.2.2.2.1

theorem issuedCrew_tags (s : State) (x : Crew) (k : Nat) : (issuedCrew s x).tags.find? k = (x.tags.find? k).map counted := by
  show SMap.find? (List.map _ x.tags) k = _
  exact SMap.find?_map x.tags (fun _ r => counted r) k

/-! ### How a result returns (R89) -/

theorem foldl_put_rf (l : List RegWrite) (x : Crew) : (l.foldl Crew.put x) = { x with rf := l.foldl RegFile.put x.rf } := by
  induction l generalizing x with
  | nil => rfl
  | cons w t ih => rw [List.foldl_cons, List.foldl_cons, ih]; rfl

/-- An instruction whose effect leaves the crew with registers `rf` and control `ctl`, and its tag with `tg`. -/
theorem ends_of_done {i : Instr} {s : State} {x : Crew} (h : Ready i s x) {own : Iss → Option Nat} (ho : own (issOf i s x) = none)
    {eff : Iss → State → Effect} (he : exec i s = .next (issue i own eff s)) {t : State} (hd : eff (issOf i s x) (issued i s x) = .done t)
    (hf : Elsewhere s.cur (issued i s x) t) {y : Crew} (hy : t.crew? s.cur = some y) {rf : RegFile} {ctl : Control} {tg : Option TagRec}
    (h1 : y.rf = rf) (h2 : y.ctl = ctl) (h3 : ∀ r, tg = some r → i.hdr.tag ≠ 0 → y.tags.find? i.hdr.tag.toNat = some r)
    (h4 : y.tr = x.tr ∧ y.sq = x.sq ∧ y.req = x.req ∧ y.seat = x.seat ∧ y.state = .active)
    (h5 : ∀ k, k ≠ i.hdr.tag.toNat → y.tags.find? k = (x.tags.find? k).map counted) : Ends i s x rf ctl tg := by
  refine ⟨_, _, ?_, crew?_afterYield hy h4.2.2.2.2 i.hdr.yield, h1, h2, h3, ⟨h4.1, h4.2.1, h4.2.2.1, h4.2.2.2.1, ?_, h5⟩, ?_⟩
  · rw [he, issue_ready h ho, hd]
  · rfl
  · exact ((issued_else h).trans hf).trans (elsewhere_afterYield _ _ _)

theorem issuedCrew_kept {i : Instr} {s : State} {x : Crew} (h : Ready i s x) :
    (issuedCrew s x).tr = x.tr ∧ (issuedCrew s x).sq = x.sq ∧ (issuedCrew s x).req = x.req ∧ (issuedCrew s x).seat = x.seat ∧
      (issuedCrew s x).state = .active := ⟨rfl, rfl, rfl, rfl, h.1.2.1⟩

theorem allocTag_find_ne (x : Crew) {j k : Nat} (r : TagRec) (h : k ≠ j) : (allocTag x j r).tags.find? k = x.tags.find? k := by
  simp [allocTag, h]

theorem allocTag_find_self (x : Crew) (j : Nat) (r : TagRec) : (allocTag x j r).tags.find? j = some r := by simp [allocTag]

/-- A short-latency result. -/
theorem gives_of {i : Instr} {s : State} {x : Crew} (h : Ready i s x) {own : Iss → Option Nat} (ho : own (issOf i s x) = none)
    {eff : Iss → State → Effect} (he : exec i s = .next (issue i own eff s)) {w : Held}
    (hd : eff (issOf i s x) (issued i s x) = .done (giveShort (issOf i s x) (issued i s x) w)) : Gives i s x w := by
  unfold Gives
  have hk := issuedCrew_kept h
  split
  · next ht =>
    have e : giveShort (issOf i s x) (issued i s x) w =
        staleTiles ((issued i s x).updCrew s.cur fun x => { w.regs.foldl Crew.put x with ctl := { x.ctl with fpst := x.ctl.fpst ||| w.fp } })
          s.cur (ownVregs w.regs) none := by
      unfold giveShort
      simp only [issOf, ht, if_true]
    rw [e] at hd
    refine ends_of_done h ho he hd ((elsewhere_updCrew _ _ _).trans (elsewhere_stale _ _ _ _))
      (y := { w.regs.foldl Crew.put (issuedCrew s x) with
        ctl := { (issuedCrew s x).ctl with fpst := (issuedCrew s x).ctl.fpst ||| w.fp } }) ?_ ?_ ?_ (by simp) ?_ ?_
    · rw [crew?_staleTiles, State.crew?_updCrew_self, issued_crew h]; rfl
    · rw [foldl_put_rf]; rfl
    · rfl
    · rw [foldl_put_rf]; exact hk
    · intro k _
      rw [foldl_put_rf]
      exact issuedCrew_tags s x k
  · next ht =>
    have e : giveShort (issOf i s x) (issued i s x) w = (issued i s x).updCrew s.cur fun x =>
        allocTag x i.hdr.tag.toNat ⟨none, i.hdr.look.toNat, w, dstRegs i, false⟩ := by
      unfold giveShort
      simp only [issOf, ht, if_false]
    rw [e] at hd
    refine ends_of_done h ho he hd (elsewhere_updCrew _ _ _)
      (y := allocTag (issuedCrew s x) i.hdr.tag.toNat ⟨none, i.hdr.look.toNat, w, dstRegs i, false⟩)
      (by rw [State.crew?_updCrew_self, issued_crew h]; rfl) rfl rfl ?_ hk ?_
    · rintro r ⟨⟩ _; exact allocTag_find_self _ _ _
    · intro k hne; rw [allocTag_find_ne _ _ hne]; exact issuedCrew_tags s x k

/-- An effect on the crew's registers and control, with its tag complete. -/
theorem sets_of {i : Instr} {s : State} {x : Crew} (h : Ready i s x) {own : Iss → Option Nat} (ho : own (issOf i s x) = none)
    {eff : Iss → State → Effect} (he : exec i s = .next (issue i own eff s)) {f : Crew → Crew}
    (hd : eff (issOf i s x) (issued i s x) = .done (giveTag (issOf i s x) ((issued i s x).updCrew s.cur f))) {rf : RegFile} {ctl : Control}
    (hf : f (issuedCrew s x) = { issuedCrew s x with rf := rf, ctl := ctl }) : Sets i s x rf ctl := by
  have hk := issuedCrew_kept h
  unfold giveTag at hd
  by_cases ht : i.hdr.tag = 0
  · simp only [issOf, ht, if_true] at hd
    refine ends_of_done h ho he (by simpa only [issOf] using hd) (elsewhere_updCrew _ _ _)
      (by rw [State.crew?_updCrew_self, issued_crew h]; rfl) (by rw [hf]) (by rw [hf]) (fun _ _ hn => absurd ht hn) (by rw [hf]; exact hk) ?_
    intro k _; rw [hf]; exact issuedCrew_tags s x k
  · simp only [issOf, ht, if_false] at hd
    refine ends_of_done h ho he (by simpa only [issOf] using hd) ((elsewhere_updCrew _ _ _).trans (elsewhere_updCrew _ _ _))
      (by rw [State.crew?_updCrew_self, State.crew?_updCrew_self, issued_crew h]; rfl) (by rw [hf]; rfl) (by rw [hf]; rfl) ?_
      (by rw [hf]; exact hk) ?_
    · rintro r ⟨⟩ _; exact allocTag_find_self _ _ _
    · intro k hne; rw [allocTag_find_ne _ _ hne, hf]; exact issuedCrew_tags s x k

/-- An effect on the crew's registers and control by an instruction that carries no tag. -/
theorem ends_of_crew {i : Instr} {s : State} {x : Crew} (h : Ready i s x) {own : Iss → Option Nat} (ho : own (issOf i s x) = none)
    {eff : Iss → State → Effect} (he : exec i s = .next (issue i own eff s)) {f : Crew → Crew}
    (hd : eff (issOf i s x) (issued i s x) = .done ((issued i s x).updCrew s.cur f)) {rf : RegFile} {ctl : Control}
    (hf : f (issuedCrew s x) = { issuedCrew s x with rf := rf, ctl := ctl }) : Ends i s x rf ctl none := by
  have hk := issuedCrew_kept h
  refine ends_of_done h ho he hd (elsewhere_updCrew _ _ _) (y := f (issuedCrew s x))
    (by rw [State.crew?_updCrew_self, issued_crew h]; rfl) (by rw [hf]) (by rw [hf]) (by simp) (by rw [hf]; exact hk) ?_
  intro k _; rw [hf]; exact issuedCrew_tags s x k

/-- An instruction that does nothing but go on. -/
theorem ends_of_same {i : Instr} {s : State} {x : Crew} (h : Ready i s x) {own : Iss → Option Nat} (ho : own (issOf i s x) = none)
    {eff : Iss → State → Effect} (he : exec i s = .next (issue i own eff s)) (hd : eff (issOf i s x) (issued i s x) = .done (issued i s x)) :
    Ends i s x x.rf (nextPc x) none :=
  ends_of_done h ho he hd (Elsewhere.refl _ _) (issued_crew h) rfl rfl (by simp) (issuedCrew_kept h) fun k _ => issuedCrew_tags s x k

/-- A trap before any effect (R12). -/
theorem traps_of {i : Instr} {s : State} {x : Crew} (h : Ready i s x) {own : Iss → Option Nat} (ho : own (issOf i s x) = none)
    {eff : Iss → State → Effect} (he : exec i s = .next (issue i own eff s)) {t : Trap}
    (hd : eff (issOf i s x) (issued i s x) = .trap t) : Traps i s x t := by
  unfold Traps
  rw [he, issue_ready h ho, hd]

/-! ### Operations in flight -/

theorem issued_nextId {i : Instr} {s : State} {x : Crew} (h : Ready i s x) : (issued i s x).nextId = s.nextId := (issued_else h).fields.2.2.1

theorem issued_ops {i : Instr} {s : State} {x : Crew} (h : Ready i s x) : (issued i s x).ops = s.ops := (issued_else h).fields.2.1

/-- What giveOp does: the operation, its tag, a fresh name; nothing else. `a` is the state as the effect finds it, or that with free values
taken. -/
theorem giveOp_spec {i : Instr} {s a : State} {x : Crew} (hn : a.nextId = s.nextId) (ho : a.ops = s.ops)
    (hc : a.crew? s.cur = some (issuedCrew s x)) (hf : Elsewhere s.cur s { a with free := s.free }) (k : OpKind) :
    let t := giveOp (issOf i s x) a k
    t.op? s.nextId = some ⟨s.cur, i.hdr.tag.toNat, x.bank, x.ctl.em, k⟩ ∧
      (∀ o, o ≠ s.nextId → t.op? o = s.op? o) ∧
      t.crew? s.cur = some (allocTag (issuedCrew s x) i.hdr.tag.toNat ⟨some s.nextId, i.hdr.look.toNat, {}, dstRegs i, false⟩) ∧
      Elsewhere s.cur s { t with ops := s.ops, nextId := s.nextId, free := s.free } := by
  unfold giveOp State.fresh
  simp only [issOf, Iss.bank, Iss.em, hn]
  refine ⟨by simp [Crew.bank], fun o ne => ?_, ?_, ?_⟩
  · rw [State.op?_updCrew, State.op?_setOp_ne _ _ ne]
    simp [State.op?, ho]
  · rw [State.crew?_updCrew_self, State.crew?_setOp]
    unfold State.crew? at hc ⊢
    rw [hc]
    rfl
  · have e : ∀ (a : State) (f : Crew → Crew) (m : SMap Op) (n : Nat) (m' : SMap Op) (n' : Nat),
        ({ ({ a with nextId := n', ops := m' } : State).updCrew s.cur f with ops := m, nextId := n, free := s.free } : State) =
          ({ a with ops := m, nextId := n, free := s.free } : State).updCrew s.cur f := by
      intro a f m n m' n'
      unfold State.updCrew State.crew?
      dsimp only
      split <;> rfl
    have e2 := e a (fun x => allocTag x i.hdr.tag.toNat ⟨some s.nextId, i.hdr.look.toNat, {}, dstRegs i, false⟩) s.ops s.nextId
      (a.ops.insert s.nextId ⟨s.cur, i.hdr.tag.toNat, x.ctl.hmode, x.ctl.em, k⟩) (s.nextId + 1)
    have e3 : ({ a with ops := s.ops, nextId := s.nextId, free := s.free } : State) = { a with free := s.free } := by
      rw [← hn, ← ho]
    rw [e3] at e2
    have e4 := hf.trans (elsewhere_updCrew ({ a with free := s.free } : State) s.cur
      (fun x => allocTag x i.hdr.tag.toNat ⟨some s.nextId, i.hdr.look.toNat, {}, dstRegs i, false⟩))
    rw [← e2] at e4
    exact e4

theorem issued_free_else {i : Instr} {s : State} {x : Crew} (h : Ready i s x) : Elsewhere s.cur s { issued i s x with free := s.free } := by
  have e : ({ issued i s x with free := s.free } : State) = issued i s x := by rw [← (issued_else h).fields.2.2.2.2.2.1]
  rw [e]
  exact issued_else h

theorem ops_afterYield (s : State) (c o : Nat) (y : Bool) : (afterYield s c y).op? o = s.op? o := by
  have h := (elsewhere_afterYield s c y).fields.2.1
  simp [State.op?, h]

/-- The fields of the other tables do not see a change of crews and cores. -/
theorem Elsewhere.setOps {c : Nat} {s t u : State} (h : Elsewhere c s { t with ops := s.ops, nextId := s.nextId, free := s.free })
    (h' : Elsewhere c t u) : Elsewhere c s { u with ops := s.ops, nextId := s.nextId, free := s.free } where
  tables := by
    have e : ({ u with ops := s.ops, nextId := s.nextId, free := s.free, crews := s.crews, cores := s.cores } : State) =
        { ({ u with crews := t.crews, cores := t.cores } : State) with
          ops := s.ops, nextId := s.nextId, free := s.free, crews := s.crews, cores := s.cores } := rfl
    rw [e, h'.tables]
    exact h.tables
  memory a := (h'.memory a).trans (h.memory a)
  crews d hd := (h'.crews d hd).trans (h.crews d hd)
  cores g := by
    have e : ({ u.core g with scheds := (s.core g).scheds, rc := (s.core g).rc, tiles := (s.core g).tiles } : Core) =
        { ({ u.core g with scheds := (t.core g).scheds, rc := (t.core g).rc, tiles := (t.core g).tiles } : Core) with
          scheds := (s.core g).scheds, rc := (s.core g).rc, tiles := (s.core g).tiles } := rfl
    have h1 := h'.cores g
    have h2 := h.cores g
    show ({ u.core g with scheds := (s.core g).scheds, rc := (s.core g).rc, tiles := (s.core g).tiles } : Core) = s.core g
    rw [e, h1]
    exact h2
  tiles g n := (h.tiles g n).trans (h'.tiles g n)

/-- A long-latency instruction, some free values perhaps taken. -/
theorem starts_of {i : Instr} {s a : State} {x : Crew} (h : Ready i s x) {own : Iss → Option Nat} (ho : own (issOf i s x) = none)
    {eff : Iss → State → Effect} (he : exec i s = .next (issue i own eff s)) {n : Nat} (ha : a = { issued i s x with free := n }) {k : OpKind}
    (hd : eff (issOf i s x) (issued i s x) = .done (giveOp (issOf i s x) a k)) : Starts i s x k := by
  subst ha
  obtain ⟨h1, h2, h3, h4⟩ := giveOp_spec (i := i) (a := { issued i s x with free := n }) (issued_nextId h) (issued_ops h) (issued_crew h)
    (issued_free_else h) k
  refine ⟨_, _, by rw [he, issue_ready h ho, hd], crew?_afterYield h3 h.1.2.1 _, rfl, rfl, ?_, allocTag_find_self _ _ _, fun o hne => ?_,
    ⟨rfl, rfl, rfl, rfl, rfl, fun k hne => ?_⟩, h4.setOps (elsewhere_afterYield _ _ _)⟩
  · rw [ops_afterYield]; exact h1
  · rw [ops_afterYield]; exact h2 o hne
  · show (allocTag (issuedCrew s x) i.hdr.tag.toNat _).tags.find? k = _
    rw [allocTag_find_ne _ _ hne]
    exact issuedCrew_tags s x k

/-- A memory instruction that takes a place in the store queue. -/
theorem queues_of {i : Instr} {s : State} {x : Crew} (h : Ready i s x) {own : Iss → Option Nat} (ho : own (issOf i s x) = none)
    {eff : Iss → State → Effect} (he : exec i s = .next (issue i own eff s)) {dst : Option Reg} {ret : AtomRet} {q : SqKind}
    (hd : eff (issOf i s x) (issued i s x) = .done (giveEntry (issOf i s x) (issued i s x) dst ret q)) : Queues i s x dst ret q := by
  obtain ⟨h1, h2, h3, h4⟩ := giveOp_spec (i := i) (issued_nextId h) (issued_ops h) (issued_crew h) (issued_free_else h) (.queued dst ret)
  have hq : (giveEntry (issOf i s x) (issued i s x) dst ret q).crew? s.cur =
      some { allocTag (issuedCrew s x) i.hdr.tag.toNat ⟨some s.nextId, i.hdr.look.toNat, {}, dstRegs i, false⟩ with
        sq := x.sq ++ [⟨q, s.nextId⟩] } := by
    unfold giveEntry
    rw [issued_nextId h]
    show (State.updCrew _ s.cur _).crew? s.cur = _
    rw [State.crew?_updCrew_self, h3]
    rfl
  refine ⟨_, _, by rw [he, issue_ready h ho, hd], crew?_afterYield hq h.1.2.1 _, rfl, rfl, rfl, ?_, allocTag_find_self _ _ _, fun o hne => ?_,
    ⟨rfl, rfl, rfl, rfl, rfl, fun k hne => ?_⟩, h4.setOps ((elsewhere_updCrew _ _ _).trans (elsewhere_afterYield _ _ _))⟩
  · rw [ops_afterYield]
    show (State.updCrew _ s.cur _).op? _ = _
    rw [State.op?_updCrew]; exact h1
  · rw [ops_afterYield]
    show (State.updCrew _ s.cur _).op? _ = _
    rw [State.op?_updCrew]; exact h2 o hne
  · show (allocTag (issuedCrew s x) i.hdr.tag.toNat _).tags.find? k = _
    rw [allocTag_find_ne _ _ hne]
    exact issuedCrew_tags s x k

end Sys2Proof.Machine
end

