-- ==== Sys2Proof/Laws/Memory.lean ====
section
/-!
SUPPORT. Every operation that writes home memory keeps its canonical form: the L1's write-backs and drains (R140, R150 to R152), stores at the
home (R147), the queue unit, the walker's bits (R333), outside writers (R355), zero-fills (R292, R361) and a migration's copy (R340).
-/
namespace Sys2Proof.Machine

/-! ### Poison, directory and release sets hold no byte -/

@[simp] theorem noteWriter_wf (m : Memory) (o g t : Nat) : (noteWriter m o g t).wf = m.wf := rfl
@[simp] theorem noteWriter_read (m : Memory) (o g t a : Nat) : (noteWriter m o g t).read a = m.read a := rfl

@[simp] theorem noteHome_mem (s : State) (pa : Nat) : (noteHome s pa).mem = s.mem := by
  unfold noteHome
  split <;> rfl

@[simp] theorem addReleaser_wf (s : State) (g : Nat) (ps : List Place) : (addReleaser s g ps).mem.wf = s.mem.wf := rfl
@[simp] theorem clearReleaser_wf (s : State) (g : Nat) (ps : List Place) : (clearReleaser s g ps).mem.wf = s.mem.wf := rfl

theorem leaveDirs_wf (m : Memory) (obj : Nat) (l : List (Nat × Nat)) : (leaveDirs m obj l).wf = m.wf := by
  induction l generalizing m with
  | nil => rfl
  | cons e t ih =>
    simp only [leaveDirs]
    split
    · rw [ih]; rfl
    · rfl

theorem untrack_wf {s : State} (h : s.mem.wf = true) (g obj : Nat) : (untrack s g obj).mem.wf = true := by
  unfold untrack
  split
  · exact h
  · exact (leaveDirs_wf ..).trans h

/-- A fold of operations that keep the form keeps it. -/
theorem foldl_mem_wf {α : Type} {f : State → α → State} (hf : ∀ s a, s.mem.wf = true → (f s a).mem.wf = true) {s : State} (h : s.mem.wf = true)
    (l : List α) : (l.foldl f s).mem.wf = true := by
  induction l generalizing s with
  | nil => exact h
  | cons a t ih => exact ih (hf s a h)

/-! ### The L1 -/

theorem noteDiscard_wf {s : State} (h : s.mem.wf = true) (c va : Nat) : (noteDiscard s c va).mem.wf = true := by
  rw [noteDiscard, State.updCrew_mem]; exact h

theorem loseLine_wf {s : State} (h : s.mem.wf = true) (g n : Nat) (l : L1Line) : (loseLine s g n l).mem.wf = true :=
  foldl_mem_wf (fun _ e h => noteDiscard_wf h e.1 e.2) (s := countLost s g (128 * n)) h _

theorem writeBack_wf {s : State} (h : s.mem.wf = true) (g n : Nat) : (writeBack s g n).mem.wf = true := by
  unfold writeBack
  split
  · exact h
  · next l _ =>
    split
    · exact h
    · split
      · exact loseLine_wf h g n l
      · have key (u : State) (hu : u.mem.wf = true) := writePhys_wf (s := noteHome u (128 * n)) (by simpa using hu)
          (((List.range 128).filter l.dirty.contains).map fun i => (128 * n + i, l.bytes.getD i 0))
        dsimp only
        split
        · exact key { s with free := s.free + 1 } h
        · exact key s h

theorem evictLine_wf {s : State} (h : s.mem.wf = true) (g n : Nat) : (evictLine s g n).mem.wf = true := by
  unfold evictLine
  split
  · exact h
  · exact untrack_wf (s := (writeBack s g n).updCore g _) (writeBack_wf h g n) g _

theorem drainCore_wf {s : State} (h : s.mem.wf = true) (g : Nat) : (drainCore s g).mem.wf = true :=
  foldl_mem_wf (fun _ n h => writeBack_wf h g n) h _

theorem invalidateLines_wf {s : State} (h : s.mem.wf = true) (g : Nat) (ns : List Nat) : (invalidateLines s g ns).mem.wf = true :=
  foldl_mem_wf (fun _ n h => evictLine_wf h g n) h _

theorem invalidateStale_wf {s : State} (h : s.mem.wf = true) (g : Nat) : (invalidateStale s g).mem.wf = true := invalidateLines_wf h g _

theorem recallObject_wf {s : State} (h : s.mem.wf = true) (key obj : Nat) : (recallObject s key obj).mem.wf = true :=
  foldl_mem_wf (fun _ g h => invalidateLines_wf h g _) h _

theorem dirRoom_wf {s : State} (h : s.mem.wf = true) (key obj : Nat) : (dirRoom s key obj).mem.wf = true := by
  unfold dirRoom
  split
  · exact h
  · split
    · exact recallObject_wf h _ _
    · exact h

theorem trackObject_wf {s : State} (h : s.mem.wf = true) (g obj : Nat) : (trackObject s g obj).mem.wf = true :=
  foldl_mem_wf (fun _ e h => dirRoom_wf h e.1 obj) h _

theorem makeRoom_wf {s : State} (h : s.mem.wf = true) (g : Nat) : (makeRoom s g).mem.wf = true := by
  unfold makeRoom
  simp only [State.freeValue]
  split
  · exact h
  · split
    · exact h
    · exact evictLine_wf (s := { s with free := s.free + 1 }) h g _

theorem allocLine_wf {s : State} (h : s.mem.wf = true) (g n tag obj : Nat) (low : Bool) : (allocLine s g n tag obj low).mem.wf = true :=
  trackObject_wf (makeRoom_wf h g) g obj

theorem l1WriteByte_wf {s : State} (h : s.mem.wf = true) (g tag obj : Nat) (low : Bool) (who : Nat × Nat) (pa : Nat) (b : Byte) :
    (l1WriteByte s g tag obj low who pa b).mem.wf = true := by
  show (noteWriter (if ((s.core g).l1.find? (lineOf pa)).isSome = true then s else _ : State).mem obj g _).wf = true
  rw [noteWriter_wf]
  split
  · exact h
  · exact allocLine_wf h ..

theorem fillLine_wf {s : State} (h : s.mem.wf = true) (g n tag obj : Nat) (low spoilt : Bool) : (fillLine s g n tag obj low spoilt).mem.wf = true := by
  show (if (((noteHome s (128 * n)).core g).l1.find? n).isSome = true then noteHome s (128 * n) else _ : State).mem.wf = true
  have hn : (noteHome s (128 * n)).mem.wf = true := by simpa using h
  split
  · exact hn
  · exact allocLine_wf hn ..

/-! ### Writes at the home -/

theorem homeWrite_wf {s : State} (h : s.mem.wf = true) (g tag pa va : Nat) (b : Byte) : (homeWrite s g tag pa va b).mem.wf = true :=
  writePhys_wf h [(pa, b)]

theorem landByte_wf {s : State} (h : s.mem.wf = true) (c g tag : Nat) (home : Bool) (ch : Nat) (p : Place) (b : Byte) :
    (landByte s c g tag home ch p b).mem.wf = true := by
  unfold landByte
  split
  · split
    · exact homeWrite_wf h g tag _ _ b
    · exact l1WriteByte_wf h ..
  · exact h
  · exact h

theorem markWalk_wf {s : State} (h : s.mem.wf = true) (tag va : Nat) (write : Bool) : (markWalk s tag va write).mem.wf = true := by
  unfold markWalk
  split
  · exact h
  · split
    · exact writePhys_wf h _
    · exact h

theorem frameWrite_wf {s : State} (h : s.mem.wf = true) (l : List (Nat × Byte)) : (frameWrite s l).mem.wf = true := by
  unfold frameWrite
  dsimp only
  split <;> exact writePhys_wf h _

theorem peerRequest_wf {s : State} (h : s.mem.wf = true) (vc pa : Nat) (o : Option (Nat × Nat)) (l : List Byte) :
    (peerRequest s vc pa o l).mem.wf = true := by
  unfold peerRequest
  split <;> exact h

theorem unitStore_wf {s : State} (h : s.mem.wf = true) (g tag va pa : Nat) (l : List Byte) : (unitStore s g tag va pa l).1.mem.wf = true := by
  have key (u : State) (hu : u.mem.wf = true) :
      (frameWrite (noteHome (markWalk (peerRequest u 0 pa none l) tag va true) pa) (l.mapIdx fun i b => (pa + i, b))).mem.wf = true :=
    frameWrite_wf (by rw [noteHome_mem]; exact markWalk_wf (peerRequest_wf hu ..) tag va true) _
  unfold unitStore
  dsimp only
  split
  · split
    · exact h
    · exact key s h
  · split
    · exact h
    · exact key { s with free := s.free + 1 } h

theorem unitWrite_wf {s : State} (h : s.mem.wf = true) (tag va pa : Nat) (l : List Byte) : (unitWrite s tag va pa l).mem.wf = true :=
  unitStore_wf h 0 tag va pa l

theorem outsideWrite_wf {s : State} (h : s.mem.wf = true) (pa : Nat) (l : List Byte) : (outsideWrite s pa l).mem.wf = true := by
  have fold (m : Memory) (objs : List Nat) (t : Nat) : (objs.foldl (fun m o => noteWriter m o outsideWriter t) m).wf = m.wf := by
    induction objs generalizing m with
    | nil => rfl
    | cons o t ih => rw [List.foldl_cons, ih, noteWriter_wf]
  show (List.foldl _ _ _ : Memory).wf = true
  rw [fold]
  exact writePhys_wf h _

/-! ### Whole ranges -/

theorem risesFrom_filter {α : Type} (p : Nat × α → Bool) {m : SMap α} {lo : Nat} (h : SMap.risesFrom lo m = true) :
    SMap.risesFrom lo (m.filter p : SMap α) = true := by
  induction m generalizing lo with
  | nil => rfl
  | cons e t ih =>
    simp only [SMap.risesFrom, Bool.and_eq_true, decide_eq_true_eq] at h
    rw [List.filter_cons]
    split
    · simp only [SMap.risesFrom, Bool.and_eq_true, decide_eq_true_eq]
      exact ⟨h.1, ih h.2⟩
    · exact SMap.risesFrom_mono (by omega) (ih h.2)

theorem wf_filter (p : Nat × Byte → Bool) {m : SMap Byte} (h : SMap.wf unlistedByte m = true) : SMap.wf unlistedByte (m.filter p : SMap Byte) = true := by
  simp only [SMap.wf, Bool.and_eq_true, List.all_eq_true] at h ⊢
  exact ⟨risesFrom_filter p h.1, fun e he => h.2 e (List.mem_filter.1 he).1⟩

theorem zeroBytes_wf {s : State} (h : s.mem.wf = true) (pa n : Nat) : (zeroBytes s pa n).mem.wf = true := wf_filter _ h

theorem zeroDram_wf {s : State} (h : s.mem.wf = true) : (zeroDram s).mem.wf = true := wf_filter _ h

theorem copyFrame_wf {s : State} (h : s.mem.wf = true) (old new size : Nat) : (copyFrame s old new size).mem.wf = true := by
  have fold (l : List (Nat × Byte)) (hl : ∀ e ∈ l, e.2 ≠ unlistedByte) (m : SMap Byte) (hm : SMap.wf unlistedByte m = true) :
      SMap.wf unlistedByte (l.foldl (fun m e => SMap.insert m e.1 e.2) m) = true := by
    induction l generalizing m with
    | nil => exact hm
    | cons e t ih =>
      refine ih (fun e he => hl e (List.mem_cons_of_mem _ he)) _ ?_
      simp only [SMap.wf, Bool.and_eq_true, List.all_eq_true, decide_eq_true_eq] at hm ⊢
      refine ⟨SMap.risesFrom_insert (Nat.zero_le _) hm.1 _, fun x hx => ?_⟩
      rcases SMap.mem_insert hx with rfl | hx
      · exact hl e List.mem_cons_self
      · exact hm.2 x hx
  refine fold _ (fun e he => ?_) _ (wf_filter _ h)
  obtain ⟨x, hx, rfl⟩ := List.mem_map.1 he
  have hw : SMap.wf unlistedByte s.mem.cells = true := h
  simp only [SMap.wf, Bool.and_eq_true, List.all_eq_true, decide_eq_true_eq] at hw
  exact hw.2 x (List.mem_filter.1 hx).1

end Sys2Proof.Machine
end

