-- ==== Sys2Proof/Laws/PerInstr.lean ====
section
/-!
SUPPORT. The encoder's fields: a word's fields are those it was made of, and the word of every instruction carries the instruction's own hints
(YIELD, WAIT, TAG, LOOK and the guard, R13, R24, R25); a row that is a step of the machine, not an instruction, has no word.
-/
namespace Sys2Proof

/-- The fields of a word made of fields (R13). -/
@[simp] theorem fieldsOf_word (f : Fields) : fieldsOf f.word = f := by
  obtain ⟨yl, wt, tg, lk, ge, gn, gr, gb, x, b, a, d, va, op⟩ := f
  simp only [fieldsOf, Fields.word, Fields.mk.injEq]
  refine ⟨?_, ?_, ?_, ?_, ?_, ?_, ?_, ?_, ?_, ?_, ?_, ?_, ?_, ?_⟩ <;>
    (apply BitVec.eq_of_getLsbD_eq; intro i hi
     simp only [BitVec.getLsbD_extractLsb', BitVec.getLsbD_append]
     repeat' (first | (rw [if_neg (by omega)]) | (rw [if_pos (by omega)])))
  all_goals (simp only [hi, decide_true, Bool.true_and]; congr 1; try omega)

/-- The hints a word is made with. -/
@[simp] theorem hdr_encFields (op : Nat) (h : Hdr) (var : Nat) (d a b : BitVec 9) (x : BitVec 29) : (encFields op h var d a b x).hdr = h := by
  obtain ⟨y, w, t, l, g⟩ := h
  have bit (c : Bool) : (BitVec.ofBool c == 1#1) = c := by cases c <;> rfl
  cases g with
  | none => simp [Fields.hdr, encFields, bit]
  | some g => simp [Fields.hdr, encFields, bit]

namespace Laws.Hints

/-- The word of an instruction carries its hints. -/
def Statement (i : Instr) : Prop := ∀ w, encode i = some w → (fieldsOf w).hdr = i.hdr

theorem of_fields {i : Instr} {op var : Nat} {h : Hdr} {d a b : BitVec 9} {x : BitVec 29} (e : i.fields = some (encFields op h var d a b x)) (k : i.hdr = h) :
    Statement i := by
  intro w hw
  simp only [encode, e, Option.map_some, Option.some.injEq] at hw
  rw [← hw, fieldsOf_word, hdr_encFields, k]

theorem of_none {i : Instr} (e : i.fields = none) : Statement i := by
  intro w hw
  simp [encode, e] at hw

theorem sadd (h : Hdr) (o : Bin) : Statement (.sadd h o) := of_fields rfl rfl
theorem ssub (h : Hdr) (o : Bin) : Statement (.ssub h o) := of_fields rfl rfl
theorem smul (h : Hdr) (o : Bin) : Statement (.smul h o) := of_fields rfl rfl
theorem smulh (h : Hdr) (o : Bin) : Statement (.smulh h o) := of_fields rfl rfl
theorem sdiv (h : Hdr) (o : Bin) : Statement (.sdiv h o) := of_fields rfl rfl
theorem srem (h : Hdr) (o : Bin) : Statement (.srem h o) := of_fields rfl rfl
theorem sand (h : Hdr) (o : Bin) : Statement (.sand h o) := of_fields rfl rfl
theorem sor (h : Hdr) (o : Bin) : Statement (.sor h o) := of_fields rfl rfl
theorem sxor (h : Hdr) (o : Bin) : Statement (.sxor h o) := of_fields rfl rfl
theorem sshl (h : Hdr) (o : Bin) : Statement (.sshl h o) := of_fields rfl rfl
theorem sshr (h : Hdr) (o : Bin) : Statement (.sshr h o) := of_fields rfl rfl
theorem ssra (h : Hdr) (o : Bin) : Statement (.ssra h o) := of_fields rfl rfl
theorem smin (h : Hdr) (o : Bin) : Statement (.smin h o) := of_fields rfl rfl
theorem smax (h : Hdr) (o : Bin) : Statement (.smax h o) := of_fields rfl rfl
theorem scmp (h : Hdr) (o : Cmp) : Statement (.scmp h o) := of_fields rfl rfl
theorem ssel (h : Hdr) (o : Tern) : Statement (.ssel h o) := of_fields rfl rfl
theorem smov (h : Hdr) (o : Un) : Statement (.smov h o) := of_fields rfl rfl
theorem smovi (h : Hdr) (o : MovImm) : Statement (.smovi h o) := of_fields rfl rfl
theorem smovh (h : Hdr) (o : DImm) : Statement (.smovh h o) := of_fields rfl rfl
theorem sclz (h : Hdr) (o : Un) : Statement (.sclz h o) := of_fields rfl rfl
theorem spopc (h : Hdr) (o : Un) : Statement (.spopc h o) := of_fields rfl rfl
theorem sbfx (h : Hdr) (o : Bin) : Statement (.sbfx h o) := of_fields rfl rfl
theorem sbfi (h : Hdr) (o : Bin) : Statement (.sbfi h o) := of_fields rfl rfl
theorem slea (h : Hdr) (o : Lea) : Statement (.slea h o) := of_fields rfl rfl
theorem bra (h : Hdr) (o : Imm) : Statement (.bra h o) := of_fields rfl rfl
theorem bru (h : Hdr) (o : BrUni) : Statement (.bru h o) := of_fields rfl rfl
theorem brx (h : Hdr) (o : Src) : Statement (.brx h o) := of_fields rfl rfl
theorem brv (h : Hdr) (o : BrVec) : Statement (.brv h o) := of_fields rfl rfl
theorem join (h : Hdr) : Statement (.join h) := of_fields rfl rfl
theorem call (h : Hdr) (o : Imm) : Statement (.call h o) := of_fields rfl rfl
theorem ret (h : Hdr) : Statement (.ret h) := of_fields rfl rfl
theorem exit (h : Hdr) : Statement (.exit h) := of_fields rfl rfl
theorem yld (h : Hdr) : Statement (.yld h) := of_fields rfl rfl
theorem nop (h : Hdr) : Statement (.nop h) := of_fields rfl rfl
theorem waitc (h : Hdr) : Statement (.waitc h) := of_fields rfl rfl
theorem mand (h : Hdr) (o : DAB) : Statement (.mand h o) := of_fields rfl rfl
theorem mor (h : Hdr) (o : DAB) : Statement (.mor h o) := of_fields rfl rfl
theorem mxor (h : Hdr) (o : DAB) : Statement (.mxor h o) := of_fields rfl rfl
theorem mandn (h : Hdr) (o : DAB) : Statement (.mandn h o) := of_fields rfl rfl
theorem mnot (h : Hdr) (o : DA) : Statement (.mnot h o) := of_fields rfl rfl
theorem mmov (h : Hdr) (o : DA) : Statement (.mmov h o) := of_fields rfl rfl
theorem mpopc (h : Hdr) (o : DA) : Statement (.mpopc h o) := of_fields rfl rfl
theorem mffs (h : Hdr) (o : DA) : Statement (.mffs h o) := of_fields rfl rfl
theorem msetem (h : Hdr) (o : Src) : Statement (.msetem h o) := of_fields rfl rfl
theorem mgetem (h : Hdr) (o : Dst) : Statement (.mgetem h o) := of_fields rfl rfl
theorem msave (h : Hdr) (o : MSave) : Statement (.msave h o) := of_fields rfl rfl
theorem mrest (h : Hdr) (o : MRest) : Statement (.mrest h o) := of_fields rfl rfl
theorem vadd (h : Hdr) (o : Bin) : Statement (.vadd h o) := of_fields rfl rfl
theorem vsub (h : Hdr) (o : Bin) : Statement (.vsub h o) := of_fields rfl rfl
theorem vmul (h : Hdr) (o : Bin) : Statement (.vmul h o) := of_fields rfl rfl
theorem vmulh (h : Hdr) (o : Bin) : Statement (.vmulh h o) := of_fields rfl rfl
theorem vmad (h : Hdr) (o : Tern) : Statement (.vmad h o) := of_fields rfl rfl
theorem vmin (h : Hdr) (o : Bin) : Statement (.vmin h o) := of_fields rfl rfl
theorem vmax (h : Hdr) (o : Bin) : Statement (.vmax h o) := of_fields rfl rfl
theorem vand (h : Hdr) (o : Bin) : Statement (.vand h o) := of_fields rfl rfl
theorem vor (h : Hdr) (o : Bin) : Statement (.vor h o) := of_fields rfl rfl
theorem vxor (h : Hdr) (o : Bin) : Statement (.vxor h o) := of_fields rfl rfl
theorem vshl (h : Hdr) (o : Bin) : Statement (.vshl h o) := of_fields rfl rfl
theorem vshr (h : Hdr) (o : Bin) : Statement (.vshr h o) := of_fields rfl rfl
theorem vsra (h : Hdr) (o : Bin) : Statement (.vsra h o) := of_fields rfl rfl
theorem vabs (h : Hdr) (o : Un) : Statement (.vabs h o) := of_fields rfl rfl
theorem vneg (h : Hdr) (o : Un) : Statement (.vneg h o) := of_fields rfl rfl
theorem vclz (h : Hdr) (o : Un) : Statement (.vclz h o) := of_fields rfl rfl
theorem vpopc (h : Hdr) (o : Un) : Statement (.vpopc h o) := of_fields rfl rfl
theorem vaddsat (h : Hdr) (o : Bin) : Statement (.vaddsat h o) := of_fields rfl rfl
theorem vsubsat (h : Hdr) (o : Bin) : Statement (.vsubsat h o) := of_fields rfl rfl
theorem vsel (h : Hdr) (o : Tern) : Statement (.vsel h o) := of_fields rfl rfl
theorem vmov (h : Hdr) (o : Un) : Statement (.vmov h o) := of_fields rfl rfl
theorem vbcast (h : Hdr) (o : Bin) : Statement (.vbcast h o) := of_fields rfl rfl
theorem vbfx (h : Hdr) (o : Bin) : Statement (.vbfx h o) := of_fields rfl rfl
theorem vcmp (h : Hdr) (o : Cmp) : Statement (.vcmp h o) := of_fields rfl rfl
theorem vfadd (h : Hdr) (o : FBin) : Statement (.vfadd h o) := of_fields rfl rfl
theorem vfsub (h : Hdr) (o : FBin) : Statement (.vfsub h o) := of_fields rfl rfl
theorem vfmul (h : Hdr) (o : FBin) : Statement (.vfmul h o) := of_fields rfl rfl
theorem vfma (h : Hdr) (o : FTern) : Statement (.vfma h o) := of_fields rfl rfl
theorem vfmin (h : Hdr) (o : FBin) : Statement (.vfmin h o) := of_fields rfl rfl
theorem vfmax (h : Hdr) (o : FBin) : Statement (.vfmax h o) := of_fields rfl rfl
theorem vfabs (h : Hdr) (o : FUn) : Statement (.vfabs h o) := of_fields rfl rfl
theorem vfneg (h : Hdr) (o : FUn) : Statement (.vfneg h o) := of_fields rfl rfl
theorem vfcmp (h : Hdr) (o : FCmp) : Statement (.vfcmp h o) := of_fields rfl rfl
theorem vfclass (h : Hdr) (o : FUn) : Statement (.vfclass h o) := of_fields rfl rfl
theorem vrcp (h : Hdr) (o : FUn) : Statement (.vrcp h o) := of_fields rfl rfl
theorem vrsq (h : Hdr) (o : FUn) : Statement (.vrsq h o) := of_fields rfl rfl
theorem vsqrt (h : Hdr) (o : FUn) : Statement (.vsqrt h o) := of_fields rfl rfl
theorem vex2 (h : Hdr) (o : FUn) : Statement (.vex2 h o) := of_fields rfl rfl
theorem vlg2 (h : Hdr) (o : FUn) : Statement (.vlg2 h o) := of_fields rfl rfl
theorem vsin (h : Hdr) (o : FUn) : Statement (.vsin h o) := of_fields rfl rfl
theorem vcos (h : Hdr) (o : FUn) : Statement (.vcos h o) := of_fields rfl rfl
theorem vtanh (h : Hdr) (o : FUn) : Statement (.vtanh h o) := of_fields rfl rfl
theorem vcvt (h : Hdr) (o : Cvt) : Statement (.vcvt h o) := of_fields rfl rfl
theorem vpack (h : Hdr) (o : Pack) : Statement (.vpack h o) := of_fields rfl rfl
theorem vunpk (h : Hdr) (o : Unpk) : Statement (.vunpk h o) := of_fields rfl rfl
theorem vshfl (h : Hdr) (o : Shfl) : Statement (.vshfl h o) := of_fields rfl rfl
theorem vshflx (h : Hdr) (o : Shfl) : Statement (.vshflx h o) := of_fields rfl rfl
theorem vrot (h : Hdr) (o : Shfl) : Statement (.vrot h o) := of_fields rfl rfl
theorem vred (h : Hdr) (o : Red) : Statement (.vred h o) := of_fields rfl rfl
theorem vscan (h : Hdr) (o : Scan) : Statement (.vscan h o) := of_fields rfl rfl
theorem vextr (h : Hdr) (o : Bin) : Statement (.vextr h o) := of_fields rfl rfl
theorem vins (h : Hdr) (o : Bin) : Statement (.vins h o) := of_fields rfl rfl
theorem xhash32 (h : Hdr) (o : Hash32) : Statement (.xhash32 h o) := of_fields rfl rfl
theorem xhash64 (h : Hdr) (o : Hash64) : Statement (.xhash64 h o) := of_fields rfl rfl
theorem xpart (h : Hdr) (o : Part) : Statement (.xpart h o) := by
  obtain ⟨k, d, a⟩ := o
  cases k <;> exact of_fields rfl rfl
theorem xstrcmp (h : Hdr) (o : StrCmp) : Statement (.xstrcmp h o) := of_fields rfl rfl
theorem xstrfnd (h : Hdr) (o : StrFnd) : Statement (.xstrfnd h o) := of_fields rfl rfl
theorem xstrlen (h : Hdr) (o : StrLen) : Statement (.xstrlen h o) := of_fields rfl rfl
theorem xqnt (h : Hdr) (o : Qnt) : Statement (.xqnt h o) := of_fields rfl rfl
theorem xdqnt (h : Hdr) (o : Qnt) : Statement (.xdqnt h o) := of_fields rfl rfl
theorem xcbdec (h : Hdr) (o : DA) : Statement (.xcbdec h o) := of_fields rfl rfl
theorem xbdipk (h : Hdr) (o : DA) : Statement (.xbdipk h o) := of_fields rfl rfl
theorem xbdiup (h : Hdr) (o : DA) : Statement (.xbdiup h o) := of_fields rfl rfl
theorem xrng (h : Hdr) (o : Rng) : Statement (.xrng h o) := of_fields rfl rfl
theorem transformResult (op : Nat) : Statement (.transformResult op) := of_none rfl
theorem lds (h : Hdr) (o : MemVec) : Statement (.lds h o) := of_fields rfl rfl
theorem sts (h : Hdr) (o : MemVec) : Statement (.sts h o) := of_fields rfl rfl
theorem ldg (h : Hdr) (o : MemVec) : Statement (.ldg h o) := of_fields rfl rfl
theorem stg (h : Hdr) (o : MemVec) : Statement (.stg h o) := of_fields rfl rfl
theorem ldx (h : Hdr) (o : MemPtr) : Statement (.ldx h o) := of_fields rfl rfl
theorem stx (h : Hdr) (o : MemPtr) : Statement (.stx h o) := of_fields rfl rfl
theorem ldsc (h : Hdr) (o : MemPtr) : Statement (.ldsc h o) := of_fields rfl rfl
theorem stsc (h : Hdr) (o : MemPtr) : Statement (.stsc h o) := of_fields rfl rfl
theorem tldm (h : Hdr) (o : TileCopy) : Statement (.tldm h o) := of_fields rfl rfl
theorem tstm (h : Hdr) (o : TileCopy) : Statement (.tstm h o) := of_fields rfl rfl
theorem tstp (h : Hdr) (o : TilePut) : Statement (.tstp h o) := of_fields rfl rfl
theorem pref (h : Hdr) (o : Pref) : Statement (.pref h o) := of_fields rfl rfl
theorem cways (h : Hdr) (o : Src) : Statement (.cways h o) := of_fields rfl rfl
theorem fence (h : Hdr) (o : Fence) : Statement (.fence h o) := of_fields rfl rfl
theorem atom (h : Hdr) (o : Atom) : Statement (.atom h o) := of_fields rfl rfl
theorem atomCas (h : Hdr) (o : AtomCas) : Statement (.atomCas h o) := of_fields rfl rfl
theorem atomFadd (h : Hdr) (o : AtomF) : Statement (.atomFadd h o) := of_fields rfl rfl
theorem atomFxadd (h : Hdr) (o : AtomFx) : Statement (.atomFxadd h o) := of_fields rfl rfl
theorem atomFmaxr (h : Hdr) (o : AtomMax) : Statement (.atomFmaxr h o) := of_fields rfl rfl
theorem satom (h : Hdr) (o : Satom) : Statement (.satom h o) := of_fields rfl rfl
theorem lineFill (core : Nat) (line : Nat) : Statement (.lineFill core line) := of_none rfl
theorem loadDataArrive (op : Nat) : Statement (.loadDataArrive op) := of_none rfl
theorem storeQueueLeave (crew : Nat) : Statement (.storeQueueLeave crew) := of_none rfl
theorem atomicPerform (crew : Nat) : Statement (.atomicPerform crew) := of_none rfl
theorem atomicResultReturn (crew : Nat) : Statement (.atomicResultReturn crew) := of_none rfl
theorem drainDemand (core : Nat) (op : Nat) : Statement (.drainDemand core op) := of_none rfl
theorem acquireDrainDone (op : Nat) : Statement (.acquireDrainDone op) := of_none rfl
theorem rangeLockActivate (core : Nat) (lock : Nat) : Statement (.rangeLockActivate core lock) := of_none rfl
theorem cwaysConverted (op : Nat) : Statement (.cwaysConverted op) := of_none rfl
theorem bari (h : Hdr) (o : BarInit) : Statement (.bari h o) := of_fields rfl rfl
theorem bara (h : Hdr) (o : BarCount) : Statement (.bara h o) := of_fields rfl rfl
theorem barw (h : Hdr) (o : BarPh) : Statement (.barw h o) := of_fields rfl rfl
theorem baraw (h : Hdr) (o : BarCount) : Statement (.baraw h o) := of_fields rfl rfl
theorem bart (h : Hdr) (o : BarPh) : Statement (.bart h o) := of_fields rfl rfl
theorem barx (h : Hdr) (o : BarName) : Statement (.barx h o) := of_fields rfl rfl
theorem barq (h : Hdr) (o : BarName) : Statement (.barq h o) := of_fields rfl rfl
theorem clb (h : Hdr) (o : Clb) : Statement (.clb h o) := of_fields rfl rfl
theorem armodeReef (h : Hdr) (o : Reef) : Statement (.armodeReef h o) := of_fields rfl rfl
theorem armodeUnreef (h : Hdr) (o : Src) : Statement (.armodeUnreef h o) := of_fields rfl rfl
theorem arqState (h : Hdr) (o : DA) : Statement (.arqState h o) := of_fields rfl rfl
theorem arqSlot (h : Hdr) (o : ArqSlot) : Statement (.arqSlot h o) := of_fields rfl rfl
theorem arqHeld (h : Hdr) (o : Dst) : Statement (.arqHeld h o) := of_fields rfl rfl
theorem arraySettled (core : Nat) (arr : Nat) (pass : Bool) : Statement (.arraySettled core arr pass) := of_none rfl
theorem arrayUnreefed (core : Nat) (arr : Nat) : Statement (.arrayUnreefed core arr) := of_none rfl
theorem arrayCleared (core : Nat) (arr : Nat) : Statement (.arrayCleared core arr) := of_none rfl
theorem mma (h : Hdr) (o : Mat) : Statement (.mma h o) := of_fields rfl rfl
theorem mmag (h : Hdr) (o : Mat) : Statement (.mmag h o) := of_fields rfl rfl
theorem mmad (h : Hdr) (o : Mat) : Statement (.mmad h o) := of_fields rfl rfl
theorem metadataReadDone (op : Nat) : Statement (.metadataReadDone op) := of_none rfl
theorem mmagLatchFull (op : Nat) : Statement (.mmagLatchFull op) := of_none rfl
theorem matrixSlotTake (op : Nat) : Statement (.matrixSlotTake op) := of_none rfl
theorem matrixResult (op : Nat) (replays : Nat) : Statement (.matrixResult op replays) := of_none rfl
theorem tdecl (h : Hdr) (o : TileDecl) : Statement (.tdecl h o) := of_fields rfl rfl
theorem tfree (h : Hdr) (o : Src) : Statement (.tfree h o) := of_fields rfl rfl
theorem tchk (h : Hdr) (o : DA) : Statement (.tchk h o) := of_fields rfl rfl
theorem tfix (h : Hdr) (o : DA) : Statement (.tfix h o) := of_fields rfl rfl
theorem bndset (h : Hdr) (o : BndSet) : Statement (.bndset h o) := of_fields rfl rfl
theorem bndclr (h : Hdr) (o : DA) : Statement (.bndclr h o) := of_fields rfl rfl
theorem chain (h : Hdr) (o : DAB) : Statement (.chain h o) := of_fields rfl rfl
theorem chainStart (op : Nat) : Statement (.chainStart op) := of_none rfl
theorem chq (h : Hdr) (o : DA) : Statement (.chq h o) := of_fields rfl rfl
theorem chstop (h : Hdr) (o : DA) : Statement (.chstop h o) := of_fields rfl rfl
theorem launch (h : Hdr) (o : DAB) : Statement (.launch h o) := of_fields rfl rfl
theorem trap (h : Hdr) (o : Imm) : Statement (.trap h o) := of_fields rfl rfl
theorem tret (h : Hdr) (o : TretVar) : Statement (.tret h o) := by
  cases o <;> exact of_fields rfl rfl
theorem getsr (h : Hdr) (o : GetSr) : Statement (.getsr h o) := of_fields rfl rfl
theorem setsr (h : Hdr) (o : SetSr) : Statement (.setsr h o) := of_fields rfl rfl
theorem preen (h : Hdr) (o : Dst) : Statement (.preen h o) := of_fields rfl rfl
theorem predis (h : Hdr) (o : Dst) : Statement (.predis h o) := of_fields rfl rfl
theorem errinjCell (h : Hdr) (o : ErrInj) : Statement (.errinjCell h o) := of_fields rfl rfl
theorem errinjPass (h : Hdr) (o : ErrInj) : Statement (.errinjPass h o) := of_fields rfl rfl
theorem errinjRcl (h : Hdr) (o : ErrInj) : Statement (.errinjRcl h o) := of_fields rfl rfl
theorem regcacheFill (crew : Nat) : Statement (.regcacheFill crew) := of_none rfl
theorem instructionFetchWalk (crew : Nat) : Statement (.instructionFetchWalk crew) := of_none rfl
theorem crewPromotion (core : Nat) (sched : Nat) : Statement (.crewPromotion core sched) := of_none rfl
theorem forcedDemotion (core : Nat) (sched : Nat) : Statement (.forcedDemotion core sched) := of_none rfl
theorem preemption (crew : Nat) : Statement (.preemption crew) := of_none rfl
theorem kill (crew : Nat) : Statement (.kill crew) := of_none rfl
theorem crewDrained (crew : Nat) : Statement (.crewDrained crew) := of_none rfl
theorem groupFree (group : Nat) : Statement (.groupFree group) := of_none rfl
theorem predisBudgetExpiry (crew : Nat) : Statement (.predisBudgetExpiry crew) := of_none rfl
theorem handlerWatchdog (crew : Nat) : Statement (.handlerWatchdog crew) := of_none rfl
theorem ladleEnd (core : Nat) (ctx : Nat) : Statement (.ladleEnd core ctx) := of_none rfl
theorem linearCopy (core : Nat) (ctx : Nat) : Statement (.linearCopy core ctx) := of_none rfl
theorem tileCopy (core : Nat) (ctx : Nat) : Statement (.tileCopy core ctx) := of_none rfl
theorem gather (core : Nat) (ctx : Nat) : Statement (.gather core ctx) := of_none rfl
theorem scatter (core : Nat) (ctx : Nat) : Statement (.scatter core ctx) := of_none rfl
theorem planePack (core : Nat) (ctx : Nat) : Statement (.planePack core ctx) := of_none rfl
theorem fillRec (core : Nat) (ctx : Nat) : Statement (.fillRec core ctx) := of_none rfl
theorem decodeRec (core : Nat) (ctx : Nat) : Statement (.decodeRec core ctx) := of_none rfl
theorem nearStackReduce (core : Nat) (ctx : Nat) : Statement (.nearStackReduce core ctx) := of_none rfl
theorem waitBarrier (core : Nat) (ctx : Nat) : Statement (.waitBarrier core ctx) := of_none rfl
theorem signalBarrier (core : Nat) (ctx : Nat) : Statement (.signalBarrier core ctx) := of_none rfl
theorem loopRec (core : Nat) (ctx : Nat) : Statement (.loopRec core ctx) := of_none rfl
theorem conditional (core : Nat) (ctx : Nat) : Statement (.conditional core ctx) := of_none rfl
theorem jump (core : Nat) (ctx : Nat) : Statement (.jump core ctx) := of_none rfl
theorem ladlePass (core : Nat) (ctx : Nat) : Statement (.ladlePass core ctx) := of_none rfl
theorem ladleWriteAck (core : Nat) (ctx : Nat) : Statement (.ladleWriteAck core ctx) := of_none rfl
theorem stackAdderDone (core : Nat) (ctx : Nat) : Statement (.stackAdderDone core ctx) := of_none rfl
theorem uncorrectableError (e : ErrSite) (clean : Bool) (tagOk : Bool) : Statement (.uncorrectableError e clean tagOk) := of_none rfl
theorem pageWalk (walk : Nat) : Statement (.pageWalk walk) := of_none rfl
theorem freplyRetry (seq : Nat) : Statement (.freplyRetry seq) := of_none rfl
theorem freplyDecline (seq : Nat) : Statement (.freplyDecline seq) := of_none rfl
theorem frheadWrite (v : Nat) : Statement (.frheadWrite v) := of_none rfl
theorem migrationRecallDone (mig : Nat) : Statement (.migrationRecallDone mig) := of_none rfl
theorem migrationCopyDone (mig : Nat) : Statement (.migrationCopyDone mig) := of_none rfl
theorem migrationUnlock (mig : Nat) : Statement (.migrationUnlock mig) := of_none rfl
theorem trackerEpoch (die : Nat) : Statement (.trackerEpoch die) := of_none rfl
theorem mlheadWrite (die : Nat) (v : Nat) : Statement (.mlheadWrite die v) := of_none rfl
theorem refreshSlot (bank : Nat) (work : RefreshWork) : Statement (.refreshSlot bank work) := of_none rfl
theorem refreshWindow (bank : Nat) : Statement (.refreshWindow bank) := of_none rfl
theorem doorbell (tag : Nat) (q : Nat) (t : Nat) : Statement (.doorbell tag q t) := of_none rfl
theorem queueSuspend (tag : Nat) (q : Nat) : Statement (.queueSuspend tag q) := of_none rfl
theorem queueResume (tag : Nat) (q : Nat) : Statement (.queueResume tag q) := of_none rfl
theorem queueDisable (tag : Nat) (q : Nat) : Statement (.queueDisable tag q) := of_none rfl
theorem queueLaunchRequest (op : Nat) : Statement (.queueLaunchRequest op) := of_none rfl
theorem launchTakeUp : Statement (.launchTakeUp) := of_none rfl
theorem launchRecordCheck (launch : Nat) : Statement (.launchRecordCheck launch) := of_none rfl
theorem dependenceRead (launch : Nat) : Statement (.dependenceRead launch) := of_none rfl
theorem convoyPlacement (die : Nat) : Statement (.convoyPlacement die) := of_none rfl
theorem convoyStart (convoy : Nat) : Statement (.convoyStart convoy) := of_none rfl
theorem launchTimeLimit (launch : Nat) : Statement (.launchTimeLimit launch) := of_none rfl
theorem completionRelease (launch : Nat) : Statement (.completionRelease launch) := of_none rfl
theorem completionStatusWrite (launch : Nat) : Statement (.completionStatusWrite launch) := of_none rfl
theorem completionWordWrite (launch : Nat) : Statement (.completionWordWrite launch) := of_none rfl
theorem completionInterrupt (launch : Nat) : Statement (.completionInterrupt launch) := of_none rfl
theorem contextSaveStart (tag : Nat) : Statement (.contextSaveStart tag) := of_none rfl
theorem contextSaved (tag : Nat) : Statement (.contextSaved tag) := of_none rfl
theorem contextRestoreStart (tag : Nat) : Statement (.contextRestoreStart tag) := of_none rfl
theorem contextRestored (tag : Nat) : Statement (.contextRestored tag) := of_none rfl
theorem contextDead (tag : Nat) : Statement (.contextDead tag) := of_none rfl
theorem infieldTestStart (die : Nat) : Statement (.infieldTestStart die) := of_none rfl
theorem infieldCopyDone (die : Nat) : Statement (.infieldCopyDone die) := of_none rfl
theorem infieldTestDone (die : Nat) (pass : Bool) : Statement (.infieldTestDone die pass) := of_none rfl
theorem timingWindow (core : Nat) : Statement (.timingWindow core) := of_none rfl
theorem powerOverCap (die : Nat) : Statement (.powerOverCap die) := of_none rfl
theorem install (tag : Nat) (pa : Nat) : Statement (.install tag pa) := of_none rfl
theorem suspend (tag : Nat) : Statement (.suspend tag) := of_none rfl
theorem resume (tag : Nat) : Statement (.resume tag) := of_none rfl
theorem killCommand (tag : Nat) : Statement (.killCommand tag) := of_none rfl
theorem uninstall (tag : Nat) : Statement (.uninstall tag) := of_none rfl
theorem partitionAdd (tag : Nat) (cluster : Nat) : Statement (.partitionAdd tag cluster) := of_none rfl
theorem partitionRemove (tag : Nat) (cluster : Nat) : Statement (.partitionRemove tag cluster) := of_none rfl
theorem invalidateRange (tag : Nat) (lo : Nat) (hi : Nat) : Statement (.invalidateRange tag lo hi) := of_none rfl
theorem invalidateShapes (tag : Nat) : Statement (.invalidateShapes tag) := of_none rfl
theorem migrate (tag : Nat) (va : Nat) (pa : Nat) : Statement (.migrate tag va pa) := of_none rfl
theorem framePoolRefill (die : Nat) (tier : Nat) (ring : Nat) (count : Nat) : Statement (.framePoolRefill die tier ring count) := of_none rfl
theorem setTrackerThreshold (v : Nat) (die : Nat) : Statement (.setTrackerThreshold v die) := of_none rfl
theorem setTestPeriod (v : Nat) : Statement (.setTestPeriod v) := of_none rfl
theorem setScrubPeriod (v : Nat) (stack : Nat) : Statement (.setScrubPeriod v stack) := of_none rfl
theorem setPowerCap (v : Nat) : Statement (.setPowerCap v) := of_none rfl
theorem returnArray (core : Nat) (arr : Nat) : Statement (.returnArray core arr) := of_none rfl
theorem linkctlEnable (link : Nat) : Statement (.linkctlEnable link) := of_none rfl
theorem linkctlRetrain (link : Nat) : Statement (.linkctlRetrain link) := of_none rfl
theorem linkctlSpare (link : Nat) (lane : Nat) : Statement (.linkctlSpare link lane) := of_none rfl
theorem linkctlDisable (link : Nat) : Statement (.linkctlDisable link) := of_none rfl
theorem dieClockStep (die : Nat) (clock : Nat) (supply : Nat) : Statement (.dieClockStep die clock supply) := of_none rfl
theorem cletikWindowEntry (port : Nat) (entry : Nat) (base : Nat) (size : Nat) : Statement (.cletikWindowEntry port entry base size) := of_none rfl
theorem queueInstall (tag : Nat) (q : Nat) : Statement (.queueInstall tag q) := of_none rfl
theorem malformedCommand : Statement (.malformedCommand) := of_none rfl
theorem evheadWrite (v : Nat) : Statement (.evheadWrite v) := of_none rfl
theorem mstatDesignate (port : Nat) : Statement (.mstatDesignate port) := of_none rfl
theorem mstatEvovfClear : Statement (.mstatEvovfClear) := of_none rfl
theorem mstatAtomicSizes (port : Nat) (sizes : Nat) : Statement (.mstatAtomicSizes port sizes) := of_none rfl
theorem linkStatusRead (link : Nat) : Statement (.linkStatusRead link) := of_none rfl
theorem eyewordRead : Statement (.eyewordRead) := of_none rfl
theorem registerWrite (port : Nat) (offset : Nat) (v : Nat) : Statement (.registerWrite port offset v) := of_none rfl
theorem packageReset : Statement (.packageReset) := of_none rfl
theorem functionLevelReset (port : Nat) : Statement (.functionLevelReset port) := of_none rfl
theorem linkTrained (link : Nat) (width : Nat) : Statement (.linkTrained link width) := of_none rfl
theorem linkLaneFailure (link : Nat) : Statement (.linkLaneFailure link) := of_none rfl
theorem linkTrainTimeout (link : Nat) : Statement (.linkTrainTimeout link) := of_none rfl
theorem linkRetrained (link : Nat) (spares : Nat) : Statement (.linkRetrained link spares) := of_none rfl
theorem linkRetrainFailure (link : Nat) : Statement (.linkRetrainFailure link) := of_none rfl
theorem marginAlarm (link : Nat) (lane : Nat) (margin : Nat) : Statement (.marginAlarm link lane margin) := of_none rfl
theorem replayThreshold (link : Nat) : Statement (.replayThreshold link) := of_none rfl
theorem flitReceive (port : Nat) (flit : Nat) (crc : Bool) : Statement (.flitReceive port flit crc) := of_none rfl
theorem cletikRequest (port : Nat) (write : Bool) (addr : Nat) (n : Nat) (data : Nat) : Statement (.cletikRequest port write addr n data) := of_none rfl
theorem hostMemoryAccess (port : Nat) (write : Bool) (addr : Nat) (n : Nat) (data : Nat) : Statement (.hostMemoryAccess port write addr n data) := of_none rfl
theorem hostAtomicop (port : Nat) (op : HostOp) (addr : Nat) (n : Nat) (data : Nat) : Statement (.hostAtomicop port op addr n data) := of_none rfl
theorem cxlSnoop (port : Nat) (addr : Nat) (write : Bool) : Statement (.cxlSnoop port addr write) := of_none rfl
theorem notAnInstruction (w : Word96) : Statement (.notAnInstruction w) := of_none rfl
theorem launchKill (launch : Nat) : Statement (.launchKill launch) := of_none rfl
theorem releaseDrainDone (op : Nat) : Statement (.releaseDrainDone op) := of_none rfl
theorem tileCopyDone (op : Nat) : Statement (.tileCopyDone op) := of_none rfl
theorem tileInstructionDone (op : Nat) : Statement (.tileInstructionDone op) := of_none rfl
theorem boundUpdateDone (op : Nat) : Statement (.boundUpdateDone op) := of_none rfl
theorem clusterBarrierArrival (op : Nat) : Statement (.clusterBarrierArrival op) := of_none rfl
theorem barrierStatusReturn (op : Nat) : Statement (.barrierStatusReturn op) := of_none rfl
theorem launchAnswerReturn (op : Nat) : Statement (.launchAnswerReturn op) := of_none rfl
theorem bringUpStepDone : Statement (.bringUpStepDone) := of_none rfl

end Laws.Hints
end Sys2Proof
end

