-- ==== Sys2Proof/Machine/Object.lean ====
section
/-!
DEFINITION. The object image and its loader (R39 to R44): the bytes of an image, what the loader refuses, relocation, and the placing of
the sections in memory.
-/
namespace Sys2Proof.Machine.Object

/-! ### The tables of an image (R39 to R43) -/

/-- A name, as its bytes. -/
abbrev Name := List Byte

/-- A section (R40): kind 0 is code, kind 1 data. -/
structure Section where
  name : Name
  kind : Nat
  alignLog : Nat
  bytes : List Byte
deriving DecidableEq, Repr

/-- A symbol (R41): `sec` is the index of a section, or 0xFFFF for an absolute value. -/
structure Symbol where
  name : Name
  sec : Nat
  bind : Nat
  value : Nat
  size : Nat
deriving DecidableEq, Repr

/-- An entry (R42). -/
structure Entry where
  name : Name
  sec : Nat
  offset : Nat
  nv : Nat
  ns : Nat
  crews : Nat
  groups : Nat
  idem : Bool
  arrays : Nat
  shared : Nat
deriving DecidableEq, Repr

/-- A relocation (R43). -/
structure Reloc where
  offset : Nat
  sec : Nat
  kind : Nat
  sym : Nat
deriving DecidableEq, Repr

structure Image where
  sections : List Section
  symbols : List Symbol
  entries : List Entry
  relocs : List Reloc
deriving DecidableEq, Repr

/-! ### Writing an image -/

def magic : Nat := 0x47494D54

/-- The string table (R39): names in order, each ended by a zero byte. -/
def stringTable (l : List Name) : List Byte := l.flatMap fun n => n ++ [0]

/-- The offset of the name of number `k` in the string table. -/
def stringOffset (l : List Name) (k : Nat) : Nat := (stringTable (l.take k)).length

def Image.names (m : Image) : List Name := m.sections.map (·.name) ++ m.symbols.map (·.name) ++ m.entries.map (·.name)

/-- The bytes of a section record (R40). -/
def Section.record (x : Section) (name foff : Nat) : List Byte :=
  toBytes 32 (name + x.kind * 2 ^ 32 + foff * 2 ^ 64 + x.bytes.length * 2 ^ 128 + x.alignLog * 2 ^ 192)

/-- The bytes of a symbol record (R41). -/
def Symbol.record (x : Symbol) (name : Nat) : List Byte :=
  toBytes 24 (name + x.sec * 2 ^ 32 + x.bind * 2 ^ 48 + x.value % 2 ^ 64 * 2 ^ 64 + x.size * 2 ^ 128)

/-- The bytes of an entry record (R42). -/
def Entry.record (x : Entry) (name : Nat) : List Byte :=
  toBytes 64 (name + x.sec * 2 ^ 32 + x.offset * 2 ^ 64 + x.nv * 2 ^ 128 + x.ns * 2 ^ 137 + x.crews * 2 ^ 145 + x.groups * 2 ^ 150 +
    x.idem.toNat * 2 ^ 153 + x.arrays * 2 ^ 160 + x.shared * 2 ^ 192)

/-- The bytes of a relocation record (R43). -/
def Reloc.record (x : Reloc) : List Byte := toBytes 16 (x.offset + x.sec * 2 ^ 64 + x.kind * 2 ^ 80 + x.sym * 2 ^ 96)

/-- The offset of the contents of section `k`, where the contents begin at `base`. -/
def Image.contentOffset (m : Image) (base k : Nat) : Nat := base + ((m.sections.take k).map fun x => x.bytes.length).sum

/-- The bytes of an image: the header of R39, the tables in the order of R40 to R43, the string table, the contents. -/
def Image.toBytes (m : Image) : List Byte :=
  let names := m.names
  let nsec := m.sections.length
  let nsym := m.symbols.length
  let symOff := 64 + 32 * nsec
  let entOff := symOff + 24 * nsym
  let relOff := entOff + 64 * m.entries.length
  let strOff := relOff + 16 * m.relocs.length
  let base := strOff + (stringTable names).length
  Sys2Proof.toBytes 64 (magic + 2 ^ 32 + 2 ^ 48 + nsec * 2 ^ 64 + nsym * 2 ^ 96 + m.entries.length * 2 ^ 128 + m.relocs.length * 2 ^ 160 +
      64 * 2 ^ 192 + symOff * 2 ^ 256 + entOff * 2 ^ 320 + relOff * 2 ^ 384 + strOff * 2 ^ 448) ++
    (m.sections.mapIdx fun k x => x.record (stringOffset names k) (m.contentOffset base k)).flatten ++
    (m.symbols.mapIdx fun k x => x.record (stringOffset names (nsec + k))).flatten ++
    (m.entries.mapIdx fun k x => x.record (stringOffset names (nsec + nsym + k))).flatten ++
    m.relocs.flatMap Reloc.record ++ stringTable names ++ m.sections.flatMap (·.bytes)

/-! ### Reading an image (R44) -/

/-- Why the loader refuses an image (R44); `truncated` is an image whose offsets reach past its end (log 61). -/
inductive LoadError where
  | header | reserved | kind | entry | truncated | twice
deriving DecidableEq, Repr

/-- `n` bytes at an offset of the image. -/
def slice (l : List Byte) (off n : Nat) : Except LoadError (List Byte) :=
  if off + n ≤ l.length then .ok ((l.drop off).take n) else .error .truncated

/-- The records of a table, as numbers. -/
def tableAt (l : List Byte) (off size : Nat) : Nat → Except LoadError (List Nat)
  | 0 => .ok []
  | n + 1 => do
    let b ← slice l off size
    let t ← tableAt l (off + size) size n
    return ofBytes b :: t

/-- The name at an offset of the string table. -/
def nameAt (l : List Byte) (strOff k : Nat) : Name := (l.drop (strOff + k)).takeWhile (· != 0)

def readSection (l : List Byte) (str r : Nat) : Except LoadError Section := do
  if bits r 63 36 ≠ 0 ∨ bits r 255 200 ≠ 0 then throw .reserved
  if bits r 35 32 > 1 then throw .kind
  let b ← slice l (bits r 127 64) (bits r 191 128)
  return ⟨nameAt l str (bits r 31 0), bits r 35 32, bits r 199 192, b⟩

def readSymbol (l : List Byte) (str r : Nat) : Except LoadError Symbol := do
  if bits r 63 56 ≠ 0 then throw .reserved
  if bits r 55 48 > 1 then throw .kind
  return ⟨nameAt l str (bits r 31 0), bits r 47 32, bits r 55 48, bits r 127 64, bits r 191 128⟩

/-- The limits of R37 on an entry. -/
def Entry.ok (e : Entry) : Bool :=
  decide (8 ≤ e.nv) && decide (e.nv ≤ 320) && decide (16 ≤ e.ns) && decide (e.ns ≤ 128) && decide (1 ≤ e.crews) && decide (e.crews ≤ 16) &&
    decide (1 ≤ e.groups) && decide (e.groups ≤ 4) && decide (e.arrays ≤ 24) && decide (e.shared ≤ 6291456) &&
    decide (e.shared % 4096 = 0) && decide (e.offset % 64 = 0)

def readEntry (l : List Byte) (str r : Nat) : Except LoadError Entry := do
  if bits r 63 48 ≠ 0 ∨ bits r 159 154 ≠ 0 ∨ bits r 191 165 ≠ 0 ∨ bits r 511 224 ≠ 0 then throw .reserved
  let e : Entry := ⟨nameAt l str (bits r 31 0), bits r 47 32, bits r 127 64, bits r 136 128, bits r 144 137, bits r 149 145, bits r 152 150,
    r.testBit 153, bits r 164 160, bits r 223 192⟩
  if !e.ok then throw .entry
  return e

def readReloc (r : Nat) : Except LoadError Reloc :=
  if bits r 95 80 < 1 ∨ 3 < bits r 95 80 then .error .kind else .ok ⟨bits r 63 0, bits r 79 64, bits r 95 80, bits r 127 96⟩

/-- An image read from its bytes, or refused (R44). -/
def Image.ofBytes (l : List Byte) : Except LoadError Image := do
  let h := Sys2Proof.ofBytes (← slice l 0 64)
  if bits h 31 0 ≠ magic ∨ bits h 47 32 ≠ 1 ∨ bits h 63 48 ≠ 1 then throw .header
  let str := bits h 511 448
  let secs ← (← tableAt l (bits h 255 192) 32 (bits h 95 64)).mapM (readSection l str)
  if ¬ (secs.map (·.kind)).Nodup then throw .twice
  let syms ← (← tableAt l (bits h 319 256) 24 (bits h 127 96)).mapM (readSymbol l str)
  let ents ← (← tableAt l (bits h 383 320) 64 (bits h 159 128)).mapM (readEntry l str)
  let rels ← (← tableAt l (bits h 447 384) 16 (bits h 191 160)).mapM readReloc
  return ⟨secs, syms, ents, rels⟩

/-! ### Relocation and loading (R43, R44) -/

/-- The address of a symbol, where section `k` is loaded at `at_ k` (R43). -/
def Symbol.address (x : Symbol) (at_ : Nat → Nat) : Nat := if x.sec = 0xFFFF then x.value else (at_ x.sec + x.value) % 2 ^ 64

/-- `n` bytes at an offset are replaced by a function of their value. -/
def patch (l : List Byte) (off n : Nat) (f : Nat → Nat) : List Byte :=
  l.take off ++ toBytes n (f (ofBytes ((l.drop off).take n))) ++ l.drop (off + n)

/-- IMM32 of an instruction word, bits [61:30], takes a value (R43). -/
def withImm (v w : Nat) : Nat := w - bits w 61 30 * 2 ^ 30 + v % 2 ^ 32 * 2 ^ 30

/-- One relocation on the bytes of its section (R43). -/
def Reloc.apply (r : Reloc) (a : Nat) (l : List Byte) : List Byte :=
  match r.kind with
  | 1 => patch l r.offset 8 fun _ => a
  | 2 => patch l r.offset 12 (withImm a)
  | _ => patch l r.offset 12 (withImm (a / 2 ^ 32))

/-- The bytes of section `k` with every relocation applied. -/
def Image.loaded (m : Image) (at_ : Nat → Nat) (k : Nat) : List Byte :=
  m.relocs.foldl (fun l r =>
      if r.sec = k then
        match m.symbols[r.sym]? with
        | none => l
        | some x => r.apply (x.address at_) l
      else l)
    ((m.sections[k]?.map (·.bytes)).getD [])

/-- A load address is aligned as the loader aligns: to the section's alignment, and code to 64 bytes (R44). -/
def Section.aligned (x : Section) (va : Nat) : Bool := decide (va % 2 ^ x.alignLog = 0) && (x.kind != 0 || decide (va % 64 = 0))

/-- The rights the loader gives a section's pages: code is executable and not writable, data writable and not executable (R44). -/
def Section.rightsOk (x : Section) (e : Nat) : Bool := if x.kind = 0 then pteX e && !pteW e else pteW e && !pteX e

/-- Every byte of a section is mapped in a context, at the physical addresses from `pa`, with the rights of R44. -/
def mappedAs (s : State) (troot : Nat) (x : Section) (va pa : Nat) : Bool :=
  (List.range x.bytes.length).all fun k =>
    match walk s.mem troot (va + k) with
    | .fault .. => false
    | .leaf e l _ => x.rightsOk e && decide (pteAddr e + (va + k) % levelSize l = pa + k)

/-- System software loads an image (R44): section `k` for the virtual address `va k`, its bytes at the physical address `pa k`. Not where a
section is not mapped as R44 states, or its address is not aligned. -/
def loadImage (s : State) (tag : Nat) (m : Image) (va pa : Nat → Nat) : Option State :=
  match s.ctx? tag with
  | none => none
  | some c =>
    if ((List.range m.sections.length).all fun k =>
        match m.sections[k]? with
        | none => true
        | some x => x.aligned (va k) && mappedAs s c.desc.troot x (va k) (pa k)) then
      some ((List.range m.sections.length).foldl (fun s k => writePhys s ((m.loaded va k).mapIdx fun i b => (pa k + i, b))) s)
    else none

/-- The fields of a launch record that an entry gives (R42, R291). -/
def Entry.launch (e : Entry) (va : Nat → Nat) (r : LaunchRec) : LaunchRec :=
  { r with
    entry := va e.sec + e.offset
    shared := e.shared
    nv := e.nv
    ns := e.ns
    crews := e.crews
    groups := e.groups
    arrays := e.arrays
    idem := e.idem || r.idem }

end Sys2Proof.Machine.Object
end

