-- ==== Sys2Proof/Machine/Tamig.lean ====
section
/-!
DEFINITION. The tamig assembler (R31 to R38): lines, operands, suffixes, hints, expressions and directives, and the image it writes; and the
line a disassembler shows for a word (R33).
A source is a list of lines; an assembly error is answered with its kind.
-/
namespace Sys2Proof.Machine.Tamig

open Object

/-- The kinds of assembly error. -/
inductive AsmError where
  | character      -- a character that no token begins with
  | line           -- a line that R31 does not give
  | name           -- a reserved word, a name defined twice, or a name that nothing defines
  | number         -- a malformed number, a division by zero, or a shift by a negative count
  | range          -- a value that does not fit its field, or breaks a limit
  | form           -- no form of the mnemonic has these suffixes and operands
  | target         -- a branch that R36 does not allow
  | directive      -- a directive where it may not stand
deriving DecidableEq, Repr

abbrev Asm := Except AsmError

/-! ### Tokens (R31, R35) -/

inductive Tok where
  | word (w : List Char)
  | num (w : List Char)
  | shl | shr
  | p (c : Char)
deriving DecidableEq, Repr

def isLetter (c : Char) : Bool := ('a' ≤ c && c ≤ 'z') || ('A' ≤ c && c ≤ 'Z') || c == '_'
def isDigit (c : Char) : Bool := '0' ≤ c && c ≤ '9'
def isWordChar (c : Char) : Bool := isLetter c || isDigit c

/-- Letter case is ignored in mnemonics, suffixes and register names (R31). -/
def lower (c : Char) : Char := if 'A' ≤ c && c ≤ 'Z' then Char.ofNat (c.toNat + 32) else c
def lowers (w : List Char) : List Char := w.map lower

/-- A word equals a name of the spec, letter case ignored. -/
def named (w : List Char) (n : String) : Bool := lowers w == n.toList

/-- The characters of a number from its first digit; the sign of a decimal exponent belongs to it. -/
def numberChars (l : List Char) : List Char × List Char :=
  let w := l.takeWhile fun c => isWordChar c || c == '.'
  let r := l.dropWhile fun c => isWordChar c || c == '.'
  let hex := named (w.take 2) "0x"
  match w.getLast?.map lower, r with
  | some 'e', s :: d :: t =>
    if !hex && (s == '-' || s == '+') && isDigit d then
      (w ++ s :: (d :: t).takeWhile isDigit, (d :: t).dropWhile isDigit)
    else (w, r)
  | _, _ => (w, r)

/-- The tokens of a line, up to its comment (R31). -/
def lex : Nat → List Char → Asm (List Tok)
  | 0, _ => .ok []
  | _, [] => .ok []
  | n + 1, c :: t =>
    if c == ';' then .ok []
    else if c == ' ' || c == '\t' || c == '\r' then lex n t
    else if isLetter c then do
      let r ← lex n ((c :: t).dropWhile isWordChar)
      return .word ((c :: t).takeWhile isWordChar) :: r
    else if isDigit c then do
      let (w, r) := numberChars (c :: t)
      return .num w :: (← lex n r)
    else match c, t with
      | '<', '<' :: u => return .shl :: (← lex n u)
      | '>', '>' :: u => return .shr :: (← lex n u)
      | _, _ => if [',', ':', '.', '?', '!', '(', ')', '+', '-', '*', '/', '&', '|', '='].contains c then return .p c :: (← lex n t) else .error .character

/-- The value of a digit below a base. -/
def digitVal (base : Nat) (c : Char) : Option Nat :=
  let v := if isDigit c then c.toNat - 48 else if 'a' ≤ lower c && lower c ≤ 'z' then (lower c).toNat - 87 else 99
  if v < base then some v else none

def digitsVal (base : Nat) (l : List Char) : Asm Nat :=
  let d := l.filter (· != '_')
  if d.isEmpty then .error .number
  else d.foldlM (fun n c => match digitVal base c with | some v => .ok (n * base + v) | none => .error .number) 0

/-- An integer literal (R35): at most 64 bits. -/
def integer (w : List Char) : Asm Nat := do
  let v ← if named (w.take 2) "0x" then digitsVal 16 (w.drop 2) else if named (w.take 2) "0b" then digitsVal 2 (w.drop 2) else digitsVal 10 w
  if v < 2 ^ 64 then return v else .error .range

/-- A floating literal as FP32, rounded to nearest even (R35). -/
def float (neg : Bool) (w : List Char) : Asm Nat := do
  let m := w.takeWhile fun c => lower c != 'e'
  let e := (w.dropWhile fun c => lower c != 'e').drop 1
  let whole := m.takeWhile (· != '.')
  let frac := ((m.dropWhile (· != '.')).drop 1).filter (· != '_')
  let digits ← digitsVal 10 (whole ++ frac)
  let ex : Int ← match e with
    | [] => pure 0
    | '-' :: d => (digitsVal 10 d).map fun k => -(k : Int)
    | '+' :: d => (digitsVal 10 d).map fun k => (k : Int)
    | d => (digitsVal 10 d).map fun k => (k : Int)
  let k := ex - frac.length
  return (if k ≥ 0 then fmtF32.round .rn neg (digits * 10 ^ k.toNat) 1 0 else fmtF32.round .rn neg digits (10 ^ (-k).toNat) 0).bits

/-! ### Expressions (R35) -/

/-- What a name stands for while a file is assembled: an absolute value, or an offset in a section. -/
inductive Def where
  | abs (v : Int)
  | label (sec off : Nat)
deriving DecidableEq, Repr

/-- 64-bit two's complement (R35). -/
def wrap64s (v : Int) : Int := Sys2Proof.signed 64 (wrap 64 v)

/-- The operators of a level, from the loosest binding (R35). -/
def opAt : Nat → Tok → Bool
  | 0, t => t == .p '|'
  | 1, t => t == .p '&'
  | 2, t => t == .shl || t == .shr
  | 3, t => t == .p '+' || t == .p '-'
  | _, t => t == .p '*' || t == .p '/'

def applyOp (t : Tok) (a b : Int) : Asm Int :=
  match t with
  | .p '|' => .ok (Sys2Proof.signed 64 (wrap 64 a ||| wrap 64 b))
  | .p '&' => .ok (Sys2Proof.signed 64 (wrap 64 a &&& wrap 64 b))
  | .shl => if b < 0 then .error .number else .ok (if b ≥ 64 then 0 else wrap64s (a * 2 ^ b.toNat))
  | .shr => if b < 0 then .error .number else .ok (a / 2 ^ (min b.toNat 64))
  | .p '+' => .ok (wrap64s (a + b))
  | .p '-' => .ok (wrap64s (a - b))
  | .p '*' => .ok (wrap64s (a * b))
  | _ => if b = 0 then .error .number else .ok (wrap64s (a.tdiv b))

/-- An expression at a level of binding, the value read so far given; level 5 is a unary minus, a number, a name or parentheses. A label
stands for its offset in its section (log 61). -/
def expr (env : List Char → Option Def) : Nat → Option Int → Nat → List Tok → Asm (Int × List Tok)
  | 0, _, _, _ => .error .line
  | n + 1, none, 5, toks =>
    match toks with
    | .p '-' :: t => do
      let (v, r) ← expr env n none 5 t
      return (wrap64s (-v), r)
    | .p '(' :: t => do
      match ← expr env n none 0 t with
      | (v, .p ')' :: r) => return (v, r)
      | _ => throw .line
    | .num w :: t => do return (wrap64s ((← integer w : Nat) : Int), t)
    | .word w :: t =>
      match env w with
      | some (.abs v) => .ok (v, t)
      | some (.label _ off) => .ok ((off : Int), t)
      | none => .error .name
    | _ => .error .line
  | n + 1, none, lv, toks => do
    let (v, r) ← expr env n none (lv + 1) toks
    expr env n (some v) lv r
  | n + 1, some v, lv, toks =>
    match toks with
    | [] => .ok (v, [])
    | t :: r =>
      if opAt lv t then do
        let (u, r) ← expr env n none (lv + 1) r
        expr env n (some (← applyOp t v u)) lv r
      else .ok (v, t :: r)

/-- A whole operand or argument as an expression. -/
def value (env : List Char → Option Def) (toks : List Tok) : Asm Int := do
  match ← expr env (16 * toks.length + 16) none 0 toks with
  | (v, []) => return v
  | _ => throw .line

/-- A value in a range (R35). -/
def within (lo hi : Int) (v : Int) : Asm Int := if lo ≤ v ∧ v ≤ hi then .ok v else .error .range

/-! ### Names (R32) -/

def regNumber (w : List Char) : Option Nat :=
  if w.isEmpty || !w.all isDigit then none else some (w.foldl (fun n c => n * 10 + (c.toNat - 48)) 0)

/-- The field value of a numbered register (R20, R32). -/
def numbered (w : List Char) : Option Nat :=
  match lowers w with
  | 'v' :: d => match regNumber d with
    | some k => if k < 320 then some k else none
    | none => none
  | 's' :: d => match regNumber d with
    | some k => if k < 128 then some (320 + k) else none
    | none => none
  | 'm' :: d => match regNumber d with
    | some k => if k < 16 then some (448 + k) else none
    | none => none
  | _ => none

def specials : List String := ["zero", "lid", "cid", "gid", "cvid", "cwid", "clk"]

/-- Every register name. -/
def register (w : List Char) : Option Nat :=
  match specials.findIdx? (named w) with
  | some k => some (464 + k)
  | none => numbered w

/-- The status registers by name (R316). -/
def statusNames : List (String × Nat) :=
  [("cwid", 0x00), ("cpos", 0x01), ("clmap0", 0x02), ("clmap1", 0x03), ("clmap2", 0x04), ("larg", 0x05), ("ctag", 0x06), ("fpst", 0x10),
   ("mbusy0", 0x11), ("mbusy1", 0x12), ("mxst", 0x13), ("tpc", 0x20), ("tcause", 0x21), ("tlanes0", 0x22), ("tlanes1", 0x23),
   ("taddr", 0x24), ("tem0", 0x25), ("tem1", 0x26), ("tsd", 0x27), ("pdrem", 0x30), ("ckcor", 0x40), ("ckrep", 0x41), ("ckfail", 0x42),
   ("rccor", 0x43), ("smcor", 0x44), ("tmrep", 0x45), ("tmwin", 0x46)]

/-! ### The forms of the instructions -/

/-- The operand positions of a form. -/
inductive Slot where
  | reg (lo : Nat)                   -- a register in the field at bit `lo`
  | neg (lo sign : Nat)              -- a register that a minus sign may stand before; the sign goes to bit `sign` (R32)
  | field (lo w : Nat)               -- an integer in `w` bits
  | less1 (lo w : Nat)               -- an integer from 1, less 1, in `w` bits (R123)
  | imm (lo hi : Int)                -- IMM32, from `lo` to `hi`, or lo( ) or hi( ) of a symbol (R32)
  | target (lo w : Nat)              -- a word count to a label (R19, R36)
  | status                           -- a status register, by name or number (R316)
  | em                               -- the word em (R103)
deriving DecidableEq, Repr

/-- Suffixes of which a form takes one, each with its bits of the word. -/
structure Choice where
  alts : List (String × Nat)
  required : Bool
deriving DecidableEq, Repr

structure Form where
  name : String
  bits : Nat                         -- the opcode and the bits the form fixes
  own : List String                  -- suffixes the form is written with
  choices : List Choice
  slots : List Slot
deriving DecidableEq, Repr

/-- Names in code order, in the field at bit `lo`. -/
def codes (lo : Nat) (l : List String) : List (String × Nat) := l.mapIdx fun k n => (n, k * 2 ^ lo)
def must (l : List (String × Nat)) : Choice := ⟨l, true⟩
def may (l : List (String × Nat)) : Choice := ⟨l, false⟩

/-! The suffixes of R26, R27, R33 and R159. -/
def sfxInt : List (String × Nat) := codes 8 ["i32", "i64", "n32", "n64"]
def sfxType : List (String × Nat) := codes 8 ["i32", "i64", "n32", "n64", "f32", "f16", "bf16", "bf16x2"]
def sfxFloat : List (String × Nat) := sfxType.drop 4
def sfxCc : List (String × Nat) := codes 55 ["eq", "ne", "lt", "le", "gt", "ge", "num", "nan", "equ", "neu", "ltu", "leu", "gtu", "geu"]
def sfxRnd : List (String × Nat) := codes 52 ["rn", "rz", "ru", "rd", "ra"]
def sfxSat : List (String × Nat) := [("sat", 2 ^ 51)]
def sfxFrac : List (String × Nat) := [("frac", 2 ^ 39)]
def sfxMem : List (String × Nat) := sfxInt ++ [("i8", 8 * 2 ^ 8), ("n8", 9 * 2 ^ 8), ("i16", 10 * 2 ^ 8), ("n16", 11 * 2 ^ 8), ("b128", 12 * 2 ^ 8)]
def sfxScope : List (String × Nat) := codes 56 ["crew", "core", "cluster", "die", "device", "system"]
def sfxOrd : List (String × Nat) := [("acq", 2 ^ 54), ("rel", 2 * 2 ^ 54), ("ar", 3 * 2 ^ 54)]
def sfxCache : List (String × Nat) := [("st", 2 ^ 52), ("nl1", 2 * 2 ^ 52)]
def sfxBound : List (String × Nat) := (List.range 64).map fun k => ("bnd" ++ toString k, 2 ^ 51 + k * 2 ^ 45)
def sfxShift (lo : Nat) : List (String × Nat) := [("x2", 2 ^ lo), ("x4", 2 * 2 ^ lo), ("x8", 3 * 2 ^ lo)]
def sfxAtom : List String := ["add", "min", "max", "and", "or", "xor", "exch", "cas"]
def sfxWidth : List String := ["b32", "b64", "b128"]

/-- The modifiers of the memory layout (R16, R33). -/
def memory : List Choice := [may sfxScope, may sfxOrd, may sfxCache, may sfxBound]

def rd : Slot := .reg 12
def ra : Slot := .reg 21
def rb : Slot := .reg 30
def rc : Slot := .reg 59
def na : Slot := .neg 21 50
def nb : Slot := .neg 30 49

/-- Instructions of one shape, in opcode order. -/
def shape (op : Nat) (names : List String) (choices : List Choice) (slots : List Slot) : List Form :=
  names.mapIdx fun k n => ⟨n, op + k, [], choices, slots⟩

def scalarForms : List Form :=
  let ty := [must sfxInt]
  shape 0x01 ["sadd", "ssub", "smul", "smulh", "sdiv", "srem", "sand", "sor", "sxor", "sshl", "sshr", "ssra", "smin", "smax"] ty [rd, ra, rb] ++
  [⟨"scmp", 0x0F, [], [must (sfxCc.take 6), must sfxInt], [rd, ra, rb]⟩, ⟨"ssel", 0x10, [], ty, [rd, ra, rb, rc]⟩,
   ⟨"smov", 0x11, [], ty, [rd, ra]⟩,
   ⟨"smovi", 0x112, ["i64"], [], [rd, .imm (-2 ^ 31) (2 ^ 31 - 1)]⟩, ⟨"smovi", 0x312, ["n64"], [], [rd, .imm 0 (2 ^ 32 - 1)]⟩,
   ⟨"smovh", 0x13, [], [], [rd, .imm (-2 ^ 31) (2 ^ 32 - 1)]⟩] ++
  shape 0x14 ["sclz", "spopc"] ty [rd, ra] ++ shape 0x16 ["sbfx", "sbfi"] ty [rd, ra, rb] ++
  [⟨"slea", 0x18, [], [], [rd, ra, rb, .field 39 3]⟩]

def controlForms : List Form :=
  [⟨"bra", 0x20, [], [], [.target 30 32]⟩,
   ⟨"bru", 0x21, [], [must (codes 62 ["eq", "ne", "lt", "le", "gt", "ge"]), must sfxInt], [ra, .target 30 32]⟩,
   ⟨"brx", 0x22, [], [], [ra]⟩, ⟨"brv", 0x23, [], [], [ra, .target 46 16, .target 30 16]⟩, ⟨"join", 0x24, [], [], []⟩,
   ⟨"call", 0x25, [], [], [.target 30 32]⟩] ++ shape 0x26 ["ret", "exit", "yld", "nop", "waitc"] [] []

def maskForms : List Form :=
  shape 0x30 ["mand", "mor", "mxor", "mandn"] [] [rd, ra, rb] ++ shape 0x34 ["mnot", "mmov", "mpopc", "mffs"] [] [rd, ra] ++
  [⟨"msetem", 0x38, [], [], [ra]⟩, ⟨"mgetem", 0x39, [], [], [rd]⟩,
   ⟨"msave", 0x3A + 2 ^ 39, [], [], [rd, .em]⟩, ⟨"msave", 0x3A, [], [], [rd, ra]⟩,
   ⟨"mrest", 0x3B + 2 ^ 39, [], [], [.em, ra]⟩, ⟨"mrest", 0x3B, [], [], [rd, ra]⟩]

def vectorForms : List Form :=
  let ty := [must sfxInt]
  let fl := [must sfxFloat, may sfxRnd, may sfxSat]
  shape 0x40 ["vadd", "vsub", "vmul", "vmulh"] ty [rd, ra, rb] ++ [⟨"vmad", 0x44, [], ty, [rd, ra, rb, rc]⟩] ++
  shape 0x45 ["vmin", "vmax", "vand", "vor", "vxor", "vshl", "vshr", "vsra"] ty [rd, ra, rb] ++
  shape 0x4D ["vabs", "vneg", "vclz", "vpopc"] ty [rd, ra] ++ shape 0x51 ["vaddsat", "vsubsat"] ty [rd, ra, rb] ++
  [⟨"vsel", 0x53, [], ty, [rd, ra, rb, rc]⟩, ⟨"vmov", 0x54, [], ty, [rd, ra]⟩, ⟨"vbcast", 0x55, [], ty, [rd, ra, rb]⟩,
   ⟨"vbfx", 0x56, [], ty, [rd, ra, rb]⟩, ⟨"vcmp", 0x57, [], [must (sfxCc.take 6), must sfxInt], [rd, ra, rb]⟩] ++
  shape 0x58 ["vfadd", "vfsub", "vfmul"] fl [rd, na, nb] ++ [⟨"vfma", 0x5B, [], fl, [rd, na, nb, rc]⟩] ++
  shape 0x5C ["vfmin", "vfmax"] [must sfxFloat, may (sfxRnd.take 1)] [rd, na, nb] ++
  shape 0x5E ["vfabs", "vfneg"] [must sfxFloat, may (sfxRnd.take 1)] [rd, na] ++
  [⟨"vfcmp", 0x60, [], [must sfxCc, must sfxFloat, may (sfxRnd.take 1)], [rd, na, nb]⟩,
   ⟨"vfclass", 0x61, [], [must (sfxFloat.take 3), may (sfxRnd.take 1)], [rd, na]⟩] ++
  shape 0x62 ["vrcp", "vrsq", "vsqrt", "vex2", "vlg2", "vsin", "vcos", "vtanh"] [must (sfxFloat.take 1), may (sfxRnd.take 1)] [rd, na] ++
  [⟨"vcvt", 0x6A, [], [must (sfxType.take 7), must ((codes 39 ["i32", "i64", "n32", "n64", "f32", "f16", "bf16", "bf16x2"])), may sfxRnd, may sfxSat], [rd, ra]⟩,
   ⟨"vcvt", 0x6A + 7 * 2 ^ 8, ["bf16x2"], [must (codes 39 ["i32", "i64", "n32", "n64", "f32", "f16", "bf16", "bf16x2"]), may sfxRnd], [rd, ra, rb]⟩,
   ⟨"vpack", 0x6B, [], [must (codes 8 ["i16", "n16"])], [rd, ra, rb]⟩,
   ⟨"vpack", 0x6B, [], [must ((codes 8 ["i16", "n16", "i8", "n8", "i4", "n4"]).drop 2)], [rd, ra, .field 39 3]⟩,
   ⟨"vunpk", 0x6C, [], [must (codes 8 ["i16", "n16", "i8", "n8", "i4", "n4"])], [rd, ra, .field 39 3]⟩] ++
  shape 0x70 ["vshfl", "vshflx", "vrot"] [must (sfxInt.take 2), may sfxFrac] [rd, ra, rb] ++
  [⟨"vred", 0x73, [], [must (sfxType.take 5), may sfxRnd], [rd, ra, .field 39 3]⟩,
   ⟨"vscan", 0x74, [], [must (sfxType.take 5), may sfxRnd], [rd, ra, .field 39 3, .field 42 1]⟩] ++
  shape 0x75 ["vextr", "vins"] [must (sfxInt.take 2)] [rd, ra, rb]

def transformForms : List Form :=
  let quant := [rd, ra, .field 39 5, .field 44 2, .field 46 2]
  [⟨"xhash32", 0x78, [], [must (codes 8 ["k32", "k64"])], [rd, ra, rb]⟩, ⟨"xhash32", 0x278, ["abs"], [], [rd, ra, rb, rc]⟩,
   ⟨"xhash32", 0x378, ["fin"], [], [rd, ra, rb]⟩, ⟨"xhash64", 0x79, [], [must (codes 8 ["k32", "k64"])], [rd, ra, rb]⟩,
   ⟨"xpart", 0x7A, ["mul"], [], [rd, ra, rb]⟩, ⟨"xpart", 0x17A, ["radix"], [], [rd, ra, .field 39 5, .less1 44 4]⟩,
   ⟨"xpart", 0x27A, ["id"], [], [rd, ra]⟩, ⟨"xstrcmp", 0x7B, [], [must (codes 8 ["b", "ci"])], [rd, ra, rb, rc]⟩,
   ⟨"xstrfnd", 0x7C, [], [must (codes 8 ["eq", "rng", "last"])], [rd, ra, rb, rc]⟩,
   ⟨"xstrlen", 0x7D, ["nul"], [], [rd, ra]⟩, ⟨"xstrlen", 0x17D, ["utf8"], [], [rd, ra, rb]⟩,
   ⟨"xqnt", 0x7E, [], [], quant⟩, ⟨"xdqnt", 0x7F, [], [], quant⟩] ++
  shape 0x80 ["xcbdec", "xbdipk", "xbdiup"] [] [rd, ra] ++ [⟨"xrng", 0x83, [], [must (codes 8 ["n32", "uf"])], [rd, ra, rb, rc]⟩]

def memoryForms : List Form :=
  let win := [must sfxMem, may (sfxShift 39), may [("sh", 0), ("scr", 4 * 2 ^ 39)]] ++ memory
  let glob := [must sfxMem, may (sfxShift 39)] ++ memory
  let ptr := [must sfxMem, may [("sh", 2 ^ 39), ("scr", 2 * 2 ^ 39)]] ++ memory
  let cas := [may (sfxShift 39), may [("sh", 4 * 2 ^ 39)]] ++ memory
  [⟨"lds", 0x88, [], win, [rd, ra, rb]⟩, ⟨"sts", 0x89, [], win, [ra, rb, rc]⟩,
   ⟨"ldg", 0x8A, [], glob, [rd, ra, rb]⟩, ⟨"stg", 0x8B, [], glob, [ra, rb, rc]⟩,
   ⟨"ldx", 0x8C, [], ptr, [rd, ra, rb]⟩, ⟨"stx", 0x8D, [], ptr, [ra, rb, rc]⟩,
   ⟨"ldsc", 0x8E, [], ptr, [rd, ra, rb]⟩, ⟨"stsc", 0x8F, [], ptr, [ra, rb, rc]⟩,
   ⟨"tldm", 0x90, [], may [("cor", 2 ^ 39)] :: memory, [rd, ra, rb]⟩, ⟨"tstm", 0x91, [], may [("cor", 2 ^ 39)] :: memory, [rd, ra, rb]⟩,
   ⟨"tstp", 0x92, [], memory, [ra, rb, rc]⟩,
   ⟨"pref", 0x93, [], [may (sfxShift 39), may [("l2", 4 * 2 ^ 39)]] ++ memory, [ra, rb]⟩,
   ⟨"cways", 0x94, [], [], [ra]⟩, ⟨"fence", 0x95, [], [must sfxScope, may sfxOrd], []⟩,
   ⟨"atom", 0x96, [], [must ((codes 39 sfxAtom).take 7), must sfxInt, may (sfxShift 42), may [("sh", 2 ^ 44)]] ++ memory, [rd, ra, rb, rc]⟩,
   ⟨"atom.cas", 0x97, [], must (codes 8 sfxWidth) :: cas, [rd, ra, rb, rc]⟩, ⟨"atom.fadd", 0x98, [], cas, [rd, ra, rb, rc]⟩,
   ⟨"atom.fxadd", 0x99, [], [may [("x8", 2 * 2 ^ 8)], may [("sh", 2 ^ 8)]] ++ memory, [rd, ra, rb, rc, .field 39 6]⟩,
   ⟨"atom.fmaxr", 0x9A, ["upd"], cas, [rd, ra, rb, rc]⟩, ⟨"atom.fmaxr", 0x19A, ["rst"], cas, [rd, ra, rb]⟩,
   ⟨"satom", 0x9B, [], [must (codes 39 sfxAtom), must (sfxInt ++ [("b128", 4 * 2 ^ 8)]), may [("sh", 8 * 2 ^ 39)]] ++ memory, [rd, ra, rb, rc]⟩]

def barrierForms : List Form :=
  let name := Slot.field 30 11
  let count := Slot.field 41 21
  let one := 2 ^ 41
  let ph := may [("ph", 2 ^ 62)]
  let kinds := [must (codes 62 ["arr", "byt", "reef", "clu"]), may [("auto", 2 ^ 64)]]
  [⟨"bari", 0xA0, [], kinds, [rd, ra, name, count]⟩, ⟨"bari", 0xA0, [], kinds, [rd, ra, name]⟩,
   ⟨"bara", 0xA1, [], [], [rd, ra, name, count]⟩, ⟨"bara", 0xA1 + one, [], [], [rd, ra, name]⟩,
   ⟨"barw", 0xA2, [], [ph], [rd, ra, name]⟩,
   ⟨"baraw", 0xA3, [], [], [rd, ra, name, count]⟩, ⟨"baraw", 0xA3 + one, [], [], [rd, ra, name]⟩,
   ⟨"bart", 0xA4, [], [ph], [rd, ra, name]⟩, ⟨"barx", 0xA5, [], [], [rd, ra, name]⟩, ⟨"barq", 0xA6, [], [], [rd, ra, name]⟩,
   ⟨"clb", 0xA7, ["arr"], [], [rd, ra, name, .field 66 2, count]⟩, ⟨"clb", 0xA7 + one, ["arr"], [], [rd, ra, name, .field 66 2]⟩,
   ⟨"clb", 0xA7 + 2 ^ 62, ["wait"], [may [("ph", 4 * 2 ^ 62)]], [rd, ra, name, .field 66 2]⟩,
   ⟨"clb", 0xA7 + 2 * 2 ^ 62, ["aw"], [], [rd, ra, name, .field 66 2, count]⟩,
   ⟨"clb", 0xA7 + 2 * 2 ^ 62 + one, ["aw"], [], [rd, ra, name, .field 66 2]⟩,
   ⟨"clb", 0xA7 + 3 * 2 ^ 62, ["test"], [may [("ph", 4 * 2 ^ 62)]], [rd, ra, name, .field 66 2]⟩]

def engineForms : List Form :=
  [⟨"armode", 0xA8 + 2 ^ 39, ["reef"], [], [ra, rb, .field 40 5]⟩, ⟨"armode", 0xA8, ["unreef"], [], [ra]⟩,
   ⟨"arq", 0xA9, ["state"], [], [rd, ra]⟩, ⟨"arq", 0xA9 + 2 ^ 39, ["slot"], [may [("clr", 4 * 2 ^ 39)]], [rd, ra]⟩,
   ⟨"arq", 0xA9 + 2 * 2 ^ 39, ["held"], [], [rd]⟩] ++
  shape 0xAA ["mma", "mmag", "mmad"] [] [rd, ra, rb, rc] ++
  [⟨"tdecl", 0xAD, [], [], [rd, ra, rb, .field 39 1, .field 40 1]⟩, ⟨"tfree", 0xAE, [], [], [ra]⟩, ⟨"tchk", 0xAF, [], [], [rd, ra]⟩,
   ⟨"tfix", 0xB0, [], [], [rd, ra]⟩, ⟨"bndset", 0xB1, [], [], [ra, rb, rc, .field 39 2, .field 41 2]⟩, ⟨"bndclr", 0xB2, [], [], [rd, ra]⟩,
   ⟨"chain", 0xB8, [], [], [rd, ra, rb]⟩, ⟨"chq", 0xB9, [], [], [rd, ra]⟩, ⟨"chstop", 0xBA, [], [], [rd, ra]⟩,
   ⟨"launch", 0xBB, [], [], [rd, ra, rb]⟩]

def systemForms : List Form :=
  [⟨"trap", 0xC0, [], [], [.imm 0 (2 ^ 32 - 1)]⟩, ⟨"tret", 0xC1, ["retry"], [], []⟩, ⟨"tret", 0x1C1, ["skip"], [], []⟩,
   ⟨"tret", 0x2C1, ["jump"], [], [ra]⟩, ⟨"getsr", 0xC2, [], [], [rd, .status]⟩, ⟨"setsr", 0xC3, [], [], [.status, ra]⟩,
   ⟨"preen", 0xC4, [], [], [rd]⟩, ⟨"predis", 0xC5, [], [], [rd]⟩, ⟨"errinj", 0xC6, [], [], [ra, rb, .field 39 2]⟩]

/-- Every form of every instruction. -/
def forms : List Form :=
  scalarForms ++ controlForms ++ maskForms ++ vectorForms ++ transformForms ++ memoryForms ++ barrierForms ++ engineForms ++ systemForms

/-! ### Reserved words (R32) -/

def suffixNames : List String :=
  ((sfxType ++ sfxCc ++ sfxRnd ++ sfxSat ++ sfxFrac ++ sfxMem ++ sfxScope ++ sfxOrd ++ sfxCache ++ sfxBound ++ sfxShift 0).map Prod.fst) ++
    sfxAtom ++ sfxWidth ++ ["sh", "scr", "cor", "l2", "upd", "rst"]

def reserved (w : List Char) : Bool :=
  (register w).isSome || named w "lo" || named w "hi" || suffixNames.any (named w) || forms.any fun f => named w f.name

/-! ### Lines (R31, R34) -/

/-- The parts of a line. -/
structure Line where
  label : Option (List Char)
  guard : Nat                        -- the bits of the guard
  dir : Bool                         -- a directive
  name : List Char                   -- a mnemonic or a directive; empty where the line has neither
  suffixes : List (List Char)
  args : List (List Tok)
  hints : Nat                        -- the bits of the hints
deriving DecidableEq, Repr

def splitCommas : List Tok → List (List Tok)
  | [] => [[]]
  | .p ',' :: t => [] :: splitCommas t
  | x :: t => match splitCommas t with
    | a :: r => (x :: a) :: r
    | [] => [[x]]

/-- Operands or arguments separated by commas; none of them is empty. -/
def operands (l : List Tok) : Asm (List (List Tok)) :=
  if l.isEmpty then .ok [] else if (splitCommas l).any (·.isEmpty) then .error .line else .ok (splitCommas l)

/-- Whether hints begin here. -/
def hintsBegin : List Tok → Bool
  | .p '+' :: .word w :: .p '=' :: _ => named w "tag" || named w "look" || named w "wait"
  | .p '+' :: .word w :: _ => named w "yield"
  | _ => false

def splitHints : List Tok → List Tok × List Tok
  | [] => ([], [])
  | x :: t => if hintsBegin (x :: t) then ([], x :: t) else let (a, b) := splitHints t; (x :: a, b)

/-- The tags of `+wait`, and what follows. -/
def waitList : Nat → List Tok → Asm (Nat × List Tok)
  | 0, _ => .error .line
  | n + 1, .num w :: t => do
    let k ← integer w
    if k < 1 ∨ 7 < k then throw .range
    let bit := 2 ^ (87 + k)
    match t with
    | .p ',' :: t => do
      let (m, r) ← waitList n t
      return (m ||| bit, r)
    | _ => return (bit, t)
  | _, _ => .error .line

/-- The hints of a line, each at most once (R34). -/
def hints : Nat → List Tok → Nat → List (List Char) → Asm Nat
  | _, [], acc, _ => .ok acc
  | 0, _, _, _ => .error .line
  | n + 1, .p '+' :: .word w :: t, acc, seen =>
    if seen.contains (lowers w) then .error .line
    else match t with
      | .p '=' :: .num k :: r =>
        if named w "tag" then do
          let v ← integer k
          if v < 1 ∨ 7 < v then throw .range
          hints n r (acc + v * 2 ^ 85) (lowers w :: seen)
        else if named w "look" then do
          let v ← integer k
          if 15 < v then throw .range
          hints n r (acc + v * 2 ^ 81) (lowers w :: seen)
        else if named w "wait" then do
          let (m, r) ← waitList (r.length + 1) (.num k :: r)
          hints n r (acc + m) (lowers w :: seen)
        else .error .line
      | r => if named w "yield" then hints n r (acc + 2 ^ 95) (lowers w :: seen) else .error .line
  | _, _, _, _ => .error .line

/-- The guard before a mnemonic and what follows it (R34). -/
def guardOf (l : List Tok) : Asm (Nat × List Tok) :=
  let prefixed (neg : Nat) (w b : List Char) (r : List Tok) : Asm (Nat × List Tok) :=
    match lowers w with
    | 's' :: d =>
      match regNumber d with
      | some k => do
        let j ← integer b
        if k > 63 ∨ j > 31 then throw .range
        return (2 ^ 80 + neg * 2 ^ 79 + k * 2 ^ 73 + j * 2 ^ 68, r)
      | none => .error .line
    | _ => .error .line
  match l with
  | .p '?' :: .p '!' :: .word w :: .p '.' :: .num b :: r => prefixed 1 w b r
  | .p '?' :: .word w :: .p '.' :: .num b :: r => prefixed 0 w b r
  | .p '?' :: _ => .error .line
  | r => .ok (0, r)

/-- The suffixes after a mnemonic. -/
def suffixes : List Tok → List (List Char) × List Tok
  | .p '.' :: .word w :: t => let (a, b) := suffixes t; (lowers w :: a, b)
  | t => ([], t)

/-- The parts of a line (R31). DEDUCED: a guard or hints on a line that has no mnemonic, or on a directive, are errors (log 61). -/
def parseLine (l : List Char) : Asm Line := do
  let toks ← lex (l.length + 1) l
  let (label, toks) := match toks with
    | .word w :: .p ':' :: t => (some w, t)
    | t => (none, t)
  let (guard, toks) ← guardOf toks
  match toks with
  | [] => if guard = 0 then return ⟨label, 0, false, [], [], [], 0⟩ else throw .line
  | .p '.' :: .word w :: t =>
    if guard ≠ 0 then throw .line
    return ⟨label, 0, true, lowers w, [], ← operands t, 0⟩
  | .word w :: t =>
    let (sfx, t) := suffixes t
    let (ops, h) := splitHints t
    -- the four dotted atomics are whole mnemonics (R25)
    let (name, sfx) := match sfx with
      | x :: r => if named w "atom" && ["cas", "fadd", "fxadd", "fmaxr"].any (named x) then (lowers w ++ '.' :: x, r) else (lowers w, sfx)
      | [] => (lowers w, sfx)
    return ⟨label, guard, false, name, sfx, ← operands ops, ← hints (h.length + 1) h 0 []⟩
  | _ => throw .line

/-! ### One instruction -/

/-- A relocation that an operand asks for: its kind and its symbol. -/
abbrev Fixup := Nat × List Char

/-- The suffixes a form takes: each goes to the first choice that has it and is not yet made. -/
def takeSuffixes : List (List Char) → List Choice → Option Nat
  | [], cs => if cs.any (·.required) then none else some 0
  | x :: t, cs =>
    let rec place (acc : List Choice) : List Choice → Option (Nat × List Choice)
      | [] => none
      | c :: r => match c.alts.find? fun e => named x e.1 with
        | some e => some (e.2, acc.reverse ++ r)
        | none => place (c :: acc) r
    match place [] cs with
    | none => none
    | some (v, cs) => (takeSuffixes t cs).map (v + ·)

/-- Whether a form's word em stands where its operands have it. -/
def emFits : List Slot → List (List Tok) → Bool
  | [], [] => true
  | .em :: r, [.word w] :: t => named w "em" && emFits r t
  | .em :: _, _ => false
  | _ :: r, _ :: t => emFits r t
  | _, _ => false

/-- The bits that a form's suffixes give, where the form has these suffixes and this many operands. -/
def Form.fits (f : Form) (x : Line) : Option Nat :=
  if named x.name f.name && f.own.all (fun o => x.suffixes.any fun s => named s o) && emFits f.slots x.args && x.suffixes.Nodup then
    takeSuffixes (f.own.foldl (fun l o => l.erase o.toList) x.suffixes) f.choices
  else none

/-- A label that a branch may name: in the code section, at a multiple of 4, whole words away (R36). -/
def branchCount (env : List Char → Option Def) (pc w : Nat) : List Tok → Asm Nat
  | [.word n] =>
    match env n with
    | none => .error .name
    | some (.label 0 off) =>
      let d : Int := (off : Int) - pc
      if off % 4 ≠ 0 ∨ d % 12 ≠ 0 then .error .target
      else do
        let _ ← (within (-2 ^ (w - 1)) (2 ^ (w - 1) - 1) (d / 12)).mapError fun _ => .target
        return wrap w (d / 12)
    | _ => .error .target
  | _ => .error .target

/-- The bits of one operand, and the relocation it asks for. -/
def operandBits (env : List Char → Option Def) (pc : Nat) (toks : List Tok) : Slot → Asm (Nat × List Fixup)
  | .reg lo => match toks with
    | [.word w] => match register w with
      | some k => .ok (k * 2 ^ lo, [])
      | none => .error .form
    | _ => .error .form
  | .neg lo sign => match toks with
    | [.word w] => match register w with
      | some k => .ok (k * 2 ^ lo, [])
      | none => .error .form
    | [.p '-', .word w] => match register w with
      | some k => .ok (k * 2 ^ lo + 2 ^ sign, [])
      | none => .error .form
    | _ => .error .form
  | .field lo w => do return ((← within 0 (2 ^ w - 1) (← value env toks)).toNat * 2 ^ lo, [])
  | .less1 lo w => do return ((← within 1 (2 ^ w) (← value env toks)).toNat * 2 ^ lo - 2 ^ lo, [])
  | .imm lo hi =>
    let half (kind sh : Nat) (n : List Char) : Asm (Nat × List Fixup) :=
      match env n with
      | none => .error .name
      | some (.abs v) => .ok (wrap 64 v / 2 ^ sh % 2 ^ 32 * 2 ^ 30, [])
      | some _ => .ok (0, [(kind, n)])
    match toks with
    | [.word f, .p '(', .word n, .p ')'] => if named f "lo" then half 2 0 n else if named f "hi" then half 3 32 n else .error .form
    | _ => do return (wrap 32 (← within lo hi (← value env toks)) * 2 ^ 30, [])
  | .target lo w => do return ((← branchCount env pc w toks) * 2 ^ lo, [])
  | .status => match toks with
    | [.word n] => match statusNames.find? fun e => named n e.1 with
      | some e => .ok (e.2 * 2 ^ 39, [])
      | none => do return ((← within 0 1023 (← value env toks)).toNat * 2 ^ 39, [])
    | _ => do return ((← within 0 1023 (← value env toks)).toNat * 2 ^ 39, [])
  | .em => .ok (0, [])

/-- BARI with a count register leaves IMM32[31:11] 0: a count is written only with zero (R254). -/
def bariCount (x : Line) (w : Nat) : Nat :=
  if named x.name "bari" && bits w 20 12 != 464 then w - bits w 61 41 * 2 ^ 41 else w

/-- The word of an instruction line at an address of the code section, and its relocations. -/
def assembleWord (env : List Char → Option Def) (pc : Nat) (x : Line) : Asm (Nat × List Fixup) :=
  match forms.findSome? fun f => (f.fits x).map fun v => (f, v) with
  | none => .error .form
  | some (f, v) => do
    let parts ← (f.slots.zip x.args).mapM fun e => operandBits env pc e.2 e.1
    return (bariCount x (f.bits + v + x.guard + x.hints + (parts.map Prod.fst).sum), parts.flatMap Prod.snd)

/-! ### Directives (R37, R38) -/

/-- What stands in a section. -/
inductive Item where
  | fill (n : Nat) (b : Byte)        -- `n` equal bytes
  | ins (x : Line)
  | data (w : Nat) (args : List (List Tok))
  | float (args : List (List Tok))
  | tile (args : List (List Tok))
  | fmtBlock (args : List (List Tok))
deriving DecidableEq, Repr

/-- The bytes an item takes. -/
def Item.size : Item → Nat
  | .fill n _ => n
  | .ins _ => 12
  | .data w args => w * args.length
  | .float args => 4 * args.length
  | .tile _ => 64
  | .fmtBlock _ => 32

/-- An entry block under way: the directives it has had (R38). -/
structure Block where
  entry : Entry
  seen : List (List Char)
deriving DecidableEq, Repr

/-- The assembler after some lines: the section at hand (0 code, 1 data), what stands in each, the names defined, and the labels that wait
for the next instruction or datum. -/
structure Assembly where
  sec : Nat
  items : List (Nat × Nat × Item)    -- section, offset, item; the last first
  size0 : Nat
  size1 : Nat
  align0 : Nat
  align1 : Nat
  defs : List (List Char × Def × Bool)   -- name, meaning, global; the last first
  pend : List (Nat × List Char)
  block : Option Block
  entries : List Entry                   -- the last first
deriving DecidableEq, Repr

def Assembly.start : Assembly := ⟨0, [], 0, 0, 2, 2, [], [], none, []⟩

def Assembly.size (a : Assembly) : Nat := if a.sec = 0 then a.size0 else a.size1

def Assembly.env (a : Assembly) (w : List Char) : Option Def := (a.defs.find? fun e => e.1 == w).map fun e => e.2.1

/-- A new name (R32). -/
def Assembly.define (a : Assembly) (w : List Char) (d : Def) (glob : Bool) : Asm Assembly :=
  if reserved w || (a.env w).isSome || a.pend.any (fun e => e.2 == w) then .error .name
  else .ok { a with defs := (w, d, glob) :: a.defs }

/-- The labels that wait in the section at hand name the offset at hand (R36). -/
def Assembly.bind (a : Assembly) : Assembly :=
  let here := a.pend.filter fun e => e.1 == a.sec
  { a with
    defs := here.map (fun e => (e.2, .label a.sec a.size, false)) ++ a.defs
    pend := a.pend.filter fun e => e.1 != a.sec }

/-- Adds an item to the section at hand. -/
def Assembly.put (a : Assembly) (i : Item) : Assembly :=
  let a := { a with items := (a.sec, a.size, i) :: a.items }
  if a.sec = 0 then { a with size0 := a.size0 + i.size } else { a with size1 := a.size1 + i.size }

/-- An instruction or a datum: the labels before it name it. -/
def Assembly.emit (a : Assembly) (i : Item) : Assembly := a.bind.put i

/-- Pads to a multiple of `2 ^ k`: code with all-ones words, data with zeros (R37). -/
def Assembly.pad (a : Assembly) (k : Nat) : Assembly :=
  let n := (2 ^ k - a.size % 2 ^ k) % 2 ^ k
  let a := if a.sec = 0 then { a with align0 := max a.align0 k } else { a with align1 := max a.align1 k }
  if n = 0 then a else a.put (.fill n (if a.sec = 0 then 0xFF else 0))

/-- One argument as a value now. -/
def Assembly.arg (a : Assembly) (lo hi : Int) : List (List Tok) → Asm Nat
  | [t] => do return (← within lo hi (← value a.env t)).toNat
  | _ => .error .line

/-- A directive of an entry block, at most once each (R38). -/
def Assembly.inBlock (a : Assembly) (name : List Char) (f : Entry → Asm Entry) : Asm Assembly :=
  match a.block with
  | none => .error .directive
  | some b =>
    if b.seen.contains name then .error .directive
    else do return { a with block := some ⟨← f b.entry, name :: b.seen⟩ }

def nameBytes (w : List Char) : Name := w.map fun c => BitVec.ofNat 8 c.toNat

/-- A directive (R37). -/
def Assembly.directive (a : Assembly) (x : Line) : Asm Assembly :=
  let none (r : Assembly) : Asm Assembly := if x.args.isEmpty then .ok r else .error .line
  let is (n : String) : Bool := named x.name n
  let data (i : Item) (k : Nat) : Asm Assembly := if a.sec = 1 then .ok ((a.pad k).emit i) else .error .directive
  if is "text" then none { a with sec := 0 }
  else if is "data" then none { a with sec := 1 }
  else if is "entry" then
    match x.args with
    | [[.word w]] =>
      if a.sec ≠ 0 ∨ a.block.isSome then .error .directive
      else do
        let a := (a.pad 6).bind
        let a ← a.define w (.label 0 a.size) true
        return { a with block := some ⟨⟨nameBytes w, 0, a.size, 0, 0, 1, 1, false, 0, 0⟩, []⟩ }
    | _ => .error .line
  else if is "endentry" then
    match a.block with
    | some b => if b.seen.contains "regs".toList then none { a with block := Option.none, entries := b.entry :: a.entries } else .error .directive
    | _ => .error .directive
  else if is "regs" then
    match x.args with
    | [v, s] => do
      let v ← a.arg 8 320 [v]
      let s ← a.arg 16 128 [s]
      a.inBlock x.name fun e => .ok { e with nv := v, ns := s }
    | _ => .error .line
  else if is "shared" then do
    let n ← a.arg 0 6291456 x.args
    a.inBlock x.name fun e => .ok { e with shared := (n + 4095) / 4096 * 4096 }
  else if is "arrays" then do
    let n ← a.arg 0 24 x.args
    a.inBlock x.name fun e => .ok { e with arrays := n }
  else if is "group" then do
    let n ← a.arg 1 16 x.args
    a.inBlock x.name fun e => .ok { e with crews := n }
  else if is "convoy" then do
    let n ← a.arg 1 4 x.args
    a.inBlock x.name fun e => .ok { e with groups := n }
  else if is "idempotent" then do
    let a ← none a
    a.inBlock x.name fun e => .ok { e with idem := true }
  else if is "tile" then data (.tile x.args) 6
  else if is "fmtblock" then data (.fmtBlock x.args) 5
  else if is "align" then do
    let n ← a.arg 4 65536 x.args
    if 2 ^ Nat.log2 n ≠ n then throw .range
    if a.sec = 0 ∧ a.size % 4 ≠ 0 then throw .range
    return a.pad (Nat.log2 n)
  else if is "byte" then if x.args.isEmpty then .error .line else .ok (a.emit (.data 1 x.args))
  else if is "half" then if x.args.isEmpty then .error .line else .ok (a.emit (.data 2 x.args))
  else if is "word" then if x.args.isEmpty then .error .line else .ok (a.emit (.data 4 x.args))
  else if is "dword" then if x.args.isEmpty then .error .line else .ok (a.emit (.data 8 x.args))
  else if is "float" then if x.args.isEmpty then .error .line else .ok (a.emit (.float x.args))
  else if is "space" then do
    let n ← a.arg 0 (2 ^ 32) x.args
    data (.fill n 0) 0
  else if is "equ" then
    match x.args with
    | [[.word w], t] => do a.define w (.abs (← value a.env t)) false
    | _ => .error .line
  else .error .directive

/-- One line: its label, then its instruction or directive. -/
def Assembly.line (a : Assembly) (l : List Char) : Asm Assembly := do
  let x ← parseLine l
  let a ← match x.label with
    | none => pure a
    | some w => if reserved w || (a.env w).isSome || a.pend.any (fun e => e.2 == w) then .error .name else pure { a with pend := (a.sec, w) :: a.pend }
  if x.dir then a.directive x
  else if x.name.isEmpty then return a
  else if a.sec ≠ 0 then throw .directive
  else return a.emit (.ins x)

/-- The labels at the end of a file name the ends of their sections; no block is open (R38). -/
def Assembly.finish (a : Assembly) : Asm Assembly :=
  if a.block.isSome then .error .directive
  else .ok { ({ ({ a with sec := 0 } : Assembly).bind with sec := 1 } : Assembly).bind with sec := 0 }

/-! ### Records of data -/

/-- A value of `w` bytes, which fits as signed or as unsigned (R37). DEDUCED: a bare label stands only in `.dword`; as a value of `.byte`,
`.half` or `.word` it is an error (log 61). -/
def dataBytes (env : List Char → Option Def) (w : Nat) (t : List Tok) : Asm (List Byte × List Fixup) :=
  let plain : Asm (List Byte × List Fixup) := do
    let v ← within (-2 ^ (8 * w - 1)) (2 ^ (8 * w) - 1) (← value env t)
    return (toBytes w (wrap (8 * w) v), [])
  match t with
  | [.word n] =>
    match env n with
    | some (.label ..) => if w = 8 then .ok (toBytes 8 0, [(1, n)]) else .error .range
    | _ => plain
  | _ => plain

def floatBytes : List Tok → Asm (List Byte × List Fixup)
  | [.num w] => do return (toBytes 4 (← float false w), [])
  | [.p '-', .num w] => do return (toBytes 4 (← float true w), [])
  | _ => .error .number

/-- The bits of a tile code (R212). -/
def tileCodeWidth (f : Nat) : Nat := tileWidth f

/-- The least PITCH that the limits of R213 allow. -/
def leastPitch (regs : Bool) (rb : Nat) : Nat :=
  if !regs then ceilDiv rb 16 * 16
  else match [16, 32, 64, 128, 256].find? fun p => decide (rb ≤ p) with
    | some p => p
    | none => ceilDiv rb 512 * 512

/-- BASE or CSUM of a tile: its value, whether it is a register, whether it is in the shared window, and its relocation. -/
def tilePlace (env : List Char → Option Def) (t : List Tok) : Asm (Nat × Bool × Bool × List Fixup) :=
  match t with
  | [.word n] =>
    match register n with
    | some k => if k < 320 then .ok (k, true, false, []) else .error .form
    | none => match env n with
      | some (.label ..) => .ok (0, false, false, [(1, n)])
      | some (.abs v) => .ok (wrap 64 v, false, false, [])
      | none => .error .name
  | .word n :: .p '(' :: r =>
    if named n "shared" && r.getLast? == some (.p ')') then do return (wrap 64 (← value env r.dropLast), false, true, [])
    else .error .form
  | _ => do return (wrap 64 (← value env t), false, false, [])

/-- The record of `.tile` (R213), and its relocations with their offsets. -/
def tileRecord (env : List Char → Option Def) : List (List Tok) → Asm (Nat × List (Nat × Fixup))
  | [rows, cols, fmt, base, csum, bnd] => do
    let rows ← within 1 128 (← value env rows)
    let cols ← within 1 1024 (← value env cols)
    let fmt ← within 0 63 (← value env fmt)
    let w := tileCodeWidth fmt.toNat
    if w = 0 then throw .range
    let (b, breg, bwin, bfix) ← tilePlace env base
    let (c, creg, cwin, cfix) ← tilePlace env csum
    if breg != creg ∨ (cwin ∧ ¬ bwin) then throw .form
    let bnd ← within (-1) 63 (← value env bnd)
    let space := if breg then 2 else if bwin then 1 else 0
    let rb := ceilDiv (cols.toNat * w) 8
    if !breg ∧ (b % 16 ≠ 0 ∨ c % 16 ≠ 0) then throw .range
    return (cols.toNat + rows.toNat * 2 ^ 16 + fmt.toNat * 2 ^ 24 + space * 2 ^ 30 +
        (if bnd < 0 then 0 else 2 ^ 32 + bnd.toNat * 2 ^ 33) + b * 2 ^ 64 + c * 2 ^ 128 + leastPitch breg rb * 2 ^ 192,
      bfix.map (fun f => (8, f)) ++ cfix.map (fun f => (16, f)))
  | _ => .error .line

/-- The keys of `.fmtblock`: the field of that name, its first bit and its width (R225, R227). -/
def blockKeys : List (String × Nat × Nat) :=
  [("fmta", 0, 5), ("fmtb", 5, 5), ("scfa", 12, 2), ("scfb", 14, 2), ("chk", 19, 2), ("failm", 21, 1), ("acc", 22, 1), ("res", 23, 1),
   ("drop", 24, 1), ("bnde", 25, 1), ("bidx", 26, 6), ("klen", 32, 11), ("mrows", 43, 5), ("sper", 48, 4), ("repl", 52, 1), ("dte", 53, 1),
   ("dtile", 54, 8), ("saddra", 64, 32), ("saddrb", 96, 32), ("keep", 128, 16), ("theta", 144, 8), ("rtile", 152, 8), ("drow", 160, 16),
   ("dcol", 176, 16), ("key", 192, 64)]

/-- One key of `.fmtblock`; bl and rep take counts (R227). -/
def blockKey (env : List Char → Option Def) (n : List Char) (t : List Tok) : Asm Nat := do
  let v ← value env t
  let count (l : List Int) (lo : Nat) : Asm Nat := match l.findIdx? (· == v) with
    | some k => .ok (k * 2 ^ lo)
    | none => .error .range
  if named n "bl" then count [16, 32, 64, 128] 10
  else if named n "rep" then count [1, 2, 4, 8, 16] 16
  else match blockKeys.find? fun e => named n e.1 with
    | none => .error .name
    | some (_, lo, w) => do
      let v ← if w = 64 then pure ((wrap 64 v : Nat) : Int) else within 0 (2 ^ w - 1) v
      return v.toNat * 2 ^ lo

/-- The format block of `.fmtblock`: no key twice (R225, R227). -/
def blockRecord (env : List Char → Option Def) (args : List (List Tok)) : Asm Nat := do
  let one : List Tok → Asm (List Char × Nat)
    | .word n :: .p '=' :: t => do return (lowers n, ← blockKey env n t)
    | _ => .error .line
  let l ← args.mapM one
  if ¬ (l.map Prod.fst).Nodup then throw .name
  return (l.map Prod.snd).sum

/-! ### The image -/

/-- The bytes of an item at an offset of its section, and its relocations with their offsets. -/
def Item.bytes (env : List Char → Option Def) (off : Nat) : Item → Asm (List Byte × List (Nat × Fixup))
  | .fill n b => .ok (List.replicate n b, [])
  | .ins x => do
    let (w, fx) ← assembleWord env off x
    return (toBytes 12 w, fx.map fun f => (off, f))
  | .data w args => do
    let parts ← args.mapM (dataBytes env w)
    return (parts.flatMap Prod.fst, (parts.mapIdx fun k e => e.2.map fun f => (off + 8 * k, f)).flatten)
  | .float args => do
    let parts ← args.mapM floatBytes
    return (parts.flatMap Prod.fst, [])
  | .tile args => do
    let (r, fx) ← tileRecord env args
    return (toBytes 64 r, fx.map fun e => (off + e.1, e.2))
  | .fmtBlock args => do return (toBytes 32 (← blockRecord env args), [])

/-- SIZE of a symbol: the bytes to the next symbol of its section, or 0 (R41). -/
def symbolSize (defs : List (List Char × Def × Bool)) : Def → Nat
  | .abs _ => 0
  | .label s off =>
    let later := defs.filterMap fun e => match e.2.1 with
      | .label t o => if t = s ∧ off < o then some (o - off) else none
      | .abs _ => none
    (later.min?).getD 0

def symbolOf (defs : List (List Char × Def × Bool)) (e : List Char × Def × Bool) : Symbol :=
  let size := symbolSize defs e.2.1
  match e.2.1 with
  | .abs v => ⟨nameBytes e.1, 0xFFFF, 0, wrap 64 v, size⟩
  | .label s off => ⟨nameBytes e.1, s, e.2.2.toNat, off, size⟩

/-- A source assembled (R31 to R38): the image of its two sections, code first. -/
def assemble (src : List (List Char)) : Asm Image := do
  let a ← src.foldlM Assembly.line Assembly.start
  let a ← a.finish
  let defs := a.defs.reverse
  let parts ← a.items.reverse.mapM fun e => do return (e.1, ← e.2.2.bytes a.env e.2.1)
  let side (s : Nat) : List Byte := (parts.filter fun e => e.1 == s).flatMap fun e => e.2.1
  let index (w : List Char) : Nat := (defs.findIdx? fun e => e.1 == w).getD 0
  return {
    sections := [⟨nameBytes "text".toList, 0, a.align0, side 0⟩, ⟨nameBytes "data".toList, 1, a.align1, side 1⟩]
    symbols := defs.map (symbolOf defs)
    entries := a.entries.reverse
    relocs := parts.flatMap fun e => e.2.2.map fun r => ⟨r.1, e.1, r.2.1, index r.2.2⟩ }

/-! ### Disassembly (R33, R123, R381) -/

/-- The bits of a word that a choice of suffixes may set. -/
def Choice.mask (c : Choice) : Nat := c.alts.foldl (fun n e => n ||| e.2) 0

/-- The suffix that stands in a word for a choice: none where it is not written, and no answer where no suffix has these bits. -/
def Choice.read (c : Choice) (w : Nat) : Option (Option String) :=
  if !c.required && w &&& c.mask == 0 then some none
  else (c.alts.find? fun e => e.2 == w &&& c.mask).map fun e => some e.1

/-- The register of a field value, if it names one (R20). -/
def registerName (k : Nat) : Option String :=
  if k < 320 then some ("v" ++ toString k)
  else if k < 448 then some ("s" ++ toString (k - 320))
  else if k < 464 then some ("m" ++ toString (k - 448))
  else specials[k - 464]?

/-- An operand as it stands in a word: its text and its bits. -/
def Slot.read (w : Nat) : Slot → Option (String × Nat)
  | .reg lo => (registerName (bits w (lo + 8) lo)).map fun n => (n, bits w (lo + 8) lo * 2 ^ lo)
  | .neg lo sign => (registerName (bits w (lo + 8) lo)).map fun n =>
      (if w.testBit sign then "-" ++ n else n, bits w (lo + 8) lo * 2 ^ lo + (w.testBit sign).toNat * 2 ^ sign)
  | .field lo n => some (toString (bits w (lo + n - 1) lo), bits w (lo + n - 1) lo * 2 ^ lo)
  | .less1 lo n => some (toString (bits w (lo + n - 1) lo + 1), bits w (lo + n - 1) lo * 2 ^ lo)
  | .imm lo hi =>
    let v := bits w 61 30
    some (if lo < 0 ∧ hi < 2 ^ 31 then toString (Sys2Proof.signed 32 v) else toString v, v * 2 ^ 30)
  | .target lo n => some (toString (Sys2Proof.signed n (bits w (lo + n - 1) lo)), bits w (lo + n - 1) lo * 2 ^ lo)
  | .status =>
    let v := bits w 48 39
    some (((statusNames.find? fun e => e.2 == v).map Prod.fst).getD (toString v), v * 2 ^ 39)
  | .em => some ("em", 0)

/-- Where a suffix is written: type, condition, rounding, saturation, scope, order, cache, bound; .frac and the other suffixes of a form stand
directly after its type (R33), an atomic's operation before it, as its form is written. -/
def suffixRank (n : String) : Nat :=
  let is (l : List (String × Nat)) : Bool := l.any fun e => e.1 == n
  if sfxAtom.contains n then 0 else if is sfxMem || is sfxType then 1 else if is sfxCc then 3 else if is sfxRnd then 4 else if is sfxSat then 5
  else if is sfxScope then 6 else if is sfxOrd then 7 else if is sfxCache then 8 else if is sfxBound then 9 else 2

/-- The suffixes of a form in the order of R33, those it is always written with first. -/
def orderedSuffixes (f : Form) (l : List String) : List String :=
  f.own ++ (List.range 10).flatMap fun k => l.filter fun n => suffixRank n == k

/-- The guard and the hints of a word as text (R34). -/
def guardText (w : Nat) : String :=
  if w.testBit 80 then "?" ++ (if w.testBit 79 then "!" else "") ++ "s" ++ toString (bits w 78 73) ++ "." ++ toString (bits w 72 68) ++ " " else ""

def hintText (w : Nat) : String :=
  let waits := (List.range 7).filter fun k => w.testBit (88 + k)
  (if bits w 87 85 = 0 then "" else " +tag=" ++ toString (bits w 87 85)) ++
  (if bits w 84 81 = 0 then "" else " +look=" ++ toString (bits w 84 81)) ++
  (if waits.isEmpty then "" else " +wait=" ++ ",".intercalate (waits.map fun k => toString (k + 1))) ++
  (if w.testBit 95 then " +yield" else "")

/-- A word read as one form. -/
def Form.read (f : Form) (w : Nat) : Option String := do
  let sfx ← f.choices.mapM fun c => c.read w
  let ops ← f.slots.mapM fun s => s.read w
  let made := (f.choices.map fun c => w &&& c.mask).sum + (ops.map Prod.snd).sum
  if f.bits + made = w % 2 ^ 68 ∧ (w.testBit 80 ∨ Sys2Proof.bits w 79 68 = 0) then
    some (guardText w ++ String.join (f.name :: (orderedSuffixes f (sfx.filterMap id)).map fun n => "." ++ n) ++
      (if ops.isEmpty then "" else " " ++ ", ".intercalate (ops.map Prod.fst)) ++ hintText w)
  else none

/-- The line of an instruction word. A branch shows its word count (log 61). -/
def disassemble (w : Nat) : Option String := forms.findSome? fun f => f.read w

end Sys2Proof.Machine.Tamig
end

