-- ==== Sys2Proof/Tests/Slice0.lean ====
section
/-!
SUPPORT. Checks of the model: words written out from the spec's encoding tables (R13 to R28) for every instruction; a term that each check of
WellFormed refuses; and, for every statement with hypotheses, concrete values that meet them (a theorem `witness_<statement>`).
-/
section
set_option maxRecDepth 100000
set_option Elab.async false
namespace Sys2Proof.Machine

/-- No hints. -/
def h0 : Hdr := ⟨false, 0, 0, 0, none⟩

/-! ### Words (R13 to R19, and each instruction's form; the fields are placed by hand) -/

theorem test_words_scalar : ∀ p ∈ ([
      (0x000000000000005228B44301, .sadd h0 ⟨.n64, .s 4, .s 5, .s 8⟩),
      (0x00FE000000000075B7F40202, .ssub (⟨false, 0, 7, 15, none⟩) ⟨.n32, .s 0, .s 127, .clk⟩),
      (0x0000000000000050A83D0103, .smul h0 ⟨.i64, .zero, .s 1, .s 2⟩),
      (0x0000000000000074A8343004, .smulh h0 ⟨.i32, .s 3, .s 1, .cid⟩),
      (0x8000000000000050A8343105, .sdiv (⟨true, 0, 0, 0, none⟩) ⟨.i64, .s 3, .s 1, .s 2⟩),
      (0x0000000000000050A8343006, .srem h0 ⟨.i32, .s 3, .s 1, .s 2⟩),
      (0x0000000000000050A8343307, .sand h0 ⟨.n64, .s 3, .s 1, .s 2⟩),
      (0x0000000000000050A8343308, .sor h0 ⟨.n64, .s 3, .s 1, .s 2⟩),
      (0x0000000000000050A8343309, .sxor h0 ⟨.n64, .s 3, .s 1, .s 2⟩),
      (0x0000000000000050A834330A, .sshl h0 ⟨.n64, .s 3, .s 1, .s 2⟩),
      (0x0000000000000050A834330B, .sshr h0 ⟨.n64, .s 3, .s 1, .s 2⟩),
      (0x0000000000000050A834310C, .ssra h0 ⟨.i64, .s 3, .s 1, .s 2⟩),
      (0x0000000000000050A834310D, .smin h0 ⟨.i64, .s 3, .s 1, .s 2⟩),
      (0x0000000000000050A834310E, .smax h0 ⟨.i64, .s 3, .s 1, .s 2⟩),
      (0x0000000002800050A834310F, .scmp h0 ⟨.ge, .i64, .s 3, .s 1, .s 2⟩),
      (0x0000000A48000050A8343310, .ssel h0 ⟨.n64, .s 3, .s 1, .s 2, .s 9⟩),
      (0x000000000000000028343311, .smov h0 ⟨.n64, .s 3, .s 1⟩),
      (0x000000002000000040143112, .smovi h0 ⟨true, .s 3, 0x80000001⟩),
      (0x00000000048D159E00143013, .smovh h0 ⟨.s 3, 0x12345678⟩),
      (0x000000000000000028343214, .sclz h0 ⟨.n32, .s 3, .s 1⟩),
      (0x000000000000000028343215, .spopc h0 ⟨.n32, .s 3, .s 1⟩),
      (0x0000000000000050A8343116, .sbfx h0 ⟨.i64, .s 3, .s 1, .s 2⟩),
      (0x0000000000000050A8343317, .sbfi h0 ⟨.n64, .s 3, .s 1, .s 2⟩),
      (0x00000000000002D0A8343018, .slea h0 ⟨.s 3, .s 1, .s 2, 5⟩)] : List (Word96 × Instr)),
    decodeWord p.1 = .ok p.2 := by decide +kernel

theorem test_words_control : ∀ p ∈ ([
      (0x000000003FFFFFFFC0000020, .bra h0 ⟨0xFFFFFFFF⟩),
      (0x0000000100000001C0C00121, .bru h0 ⟨.gt, .i64, .v 6, 7⟩),
      (0x000000000000000029200022, .brx h0 ⟨.s 9⟩),
      (0x000000000000C00138200023, .brv h0 ⟨.m 1, 3, 4⟩),
      (0x000000000000000000000024, .join h0),
      (0x550000000000000240000025, .call (⟨false, 85, 0, 0, none⟩) ⟨9⟩),
      (0x000000000000000000000026, .ret h0),
      (0x00017FF00000000000000027, .exit (⟨false, 0, 0, 0, some ⟨false, 63, 31⟩⟩)),
      (0x000000000000000000000028, .yld h0),
      (0x000000000000000000000029, .nop h0),
      (0x00000000000000000000002A, .waitc h0),
      (0x0000000037AB6FBBC00000C0, .trap h0 ⟨0xDEADBEEF⟩),
      (0x000000000000000028E002C1, .tret h0 (.jump (.s 7)))] : List (Word96 × Instr)),
    decodeWord p.1 = .ok p.2 := by decide +kernel

theorem test_words_mask : ∀ p ∈ ([
      (0x0000000000000070F85C1030, .mand h0 ⟨.m 1, .m 2, .m 3⟩),
      (0x0000000000000070F85C1031, .mor h0 ⟨.m 1, .m 2, .m 3⟩),
      (0x0000000000000070F85C1032, .mxor h0 ⟨.m 1, .m 2, .m 3⟩),
      (0x0000000000000070F85C1033, .mandn h0 ⟨.m 1, .m 2, .m 3⟩),
      (0x0000000000000000385C1034, .mnot h0 ⟨.m 1, .m 2⟩),
      (0x00000000000000003A1C1035, .mmov h0 ⟨.m 1, .zero⟩),
      (0x000000000000000038541036, .mpopc h0 ⟨.s 1, .m 2⟩),
      (0x000000000000000038541037, .mffs h0 ⟨.s 1, .m 2⟩),
      (0x000000000000000039E00038, .msetem h0 ⟨.m 15⟩),
      (0x0000000000000000001CE039, .mgetem h0 ⟨.m 14⟩),
      (0x00000000000000800014203A, .msave h0 ⟨.s 2, none⟩),
      (0x000000000000000028DC403B, .mrest h0 ⟨some (.m 4), .s 6⟩)] : List (Word96 × Instr)),
    decodeWord p.1 = .ok p.2 := by decide +kernel

theorem test_words_vector : ∀ p ∈ ([
      (0x000000000000004F80802340, .vadd h0 ⟨.n64, .v 2, .v 4, .v 318⟩),
      (0x000000000000004F80802341, .vsub h0 ⟨.n64, .v 2, .v 4, .v 318⟩),
      (0x000000000000004F80802342, .vmul h0 ⟨.n64, .v 2, .v 4, .v 318⟩),
      (0x000000000000004F80802343, .vmulh h0 ⟨.n64, .v 2, .v 4, .v 318⟩),
      (0x000000000000004F80802345, .vmin h0 ⟨.n64, .v 2, .v 4, .v 318⟩),
      (0x000000000000004F80802346, .vmax h0 ⟨.n64, .v 2, .v 4, .v 318⟩),
      (0x000000000000004F80802347, .vand h0 ⟨.n64, .v 2, .v 4, .v 318⟩),
      (0x000000000000004F80802348, .vor h0 ⟨.n64, .v 2, .v 4, .v 318⟩),
      (0x000000000000004F80802349, .vxor h0 ⟨.n64, .v 2, .v 4, .v 318⟩),
      (0x000000000000004F8080234A, .vshl h0 ⟨.n64, .v 2, .v 4, .v 318⟩),
      (0x000000000000004F8080234B, .vshr h0 ⟨.n64, .v 2, .v 4, .v 318⟩),
      (0x000000000000004F8080234C, .vsra h0 ⟨.n64, .v 2, .v 4, .v 318⟩),
      (0x000000000000004F80802351, .vaddsat h0 ⟨.n64, .v 2, .v 4, .v 318⟩),
      (0x000000000000004F80802352, .vsubsat h0 ⟨.n64, .v 2, .v 4, .v 318⟩),
      (0x0000000E88000050C0401044, .vmad h0 ⟨.i32, .v 1, .v 2, .s 3, .lid⟩),
      (0x00000000000000000040104D, .vabs h0 ⟨.i32, .v 1, .v 2⟩),
      (0x00000000000000000040104E, .vneg h0 ⟨.i32, .v 1, .v 2⟩),
      (0x00000000000000000040104F, .vclz h0 ⟨.i32, .v 1, .v 2⟩),
      (0x000000000000000000401050, .vpopc h0 ⟨.i32, .v 1, .v 2⟩),
      (0x000000000000000000401054, .vmov h0 ⟨.i32, .v 1, .v 2⟩),
      (0x0000000E20000000C0401253, .vsel h0 ⟨.n32, .v 1, .v 2, .v 3, .m 4⟩),
      (0x0000000000000050C0401255, .vbcast h0 ⟨.n32, .v 1, .v 2, .s 3⟩),
      (0x0000000000000000C0401056, .vbfx h0 ⟨.i32, .v 1, .v 2, .v 3⟩),
      (0x0000000001000001405C3257, .vcmp h0 ⟨.lt, .n32, .m 3, .v 2, .v 5⟩)] : List (Word96 × Instr)),
    decodeWord p.1 = .ok p.2 := by decide +kernel

theorem test_words_float : ∀ p ∈ ([
      (0x00000000003A0000C0401458, .vfadd h0 ⟨.f32, .rd, true, false, true, .v 1, .v 2, .v 3⟩),
      (0x00000000003A0000C0401459, .vfsub h0 ⟨.f32, .rd, true, false, true, .v 1, .v 2, .v 3⟩),
      (0x00000000003A0000C040145A, .vfmul h0 ⟨.f32, .rd, true, false, true, .v 1, .v 2, .v 3⟩),
      (0x0000000020440000C040165B, .vfma h0 ⟨.bf16, .ra, false, true, false, .v 1, .v 2, .v 3, .v 4⟩),
      (0x0000000000000000C040155C, .vfmin h0 ⟨.f16, .rn, false, false, false, .v 1, .v 2, .v 3⟩),
      (0x0000000000000000C040175D, .vfmax h0 ⟨.bf16x2, .rn, false, false, false, .v 1, .v 2, .v 3⟩),
      (0x00000000000400000040145E, .vfabs h0 ⟨.f32, true, .v 1, .v 2⟩),
      (0x00000000000000000040145F, .vfneg h0 ⟨.f32, false, .v 1, .v 2⟩),
      (0x0000000006820000C05C1460, .vfcmp h0 ⟨.geu, .f32, false, true, .m 1, .v 2, .v 3⟩),
      (0x000000000000000000401661, .vfclass h0 ⟨.bf16, false, .v 1, .v 2⟩),
      (0x000000000000000000401462, .vrcp h0 ⟨.f32, false, .v 1, .v 2⟩),
      (0x000000000000000000401463, .vrsq h0 ⟨.f32, false, .v 1, .v 2⟩),
      (0x000000000000000000401464, .vsqrt h0 ⟨.f32, false, .v 1, .v 2⟩),
      (0x000000000000000000401465, .vex2 h0 ⟨.f32, false, .v 1, .v 2⟩),
      (0x000000000000000000401466, .vlg2 h0 ⟨.f32, false, .v 1, .v 2⟩),
      (0x000000000000000000401467, .vsin h0 ⟨.f32, false, .v 1, .v 2⟩),
      (0x000000000000000000401468, .vcos h0 ⟨.f32, false, .v 1, .v 2⟩),
      (0x000000000000000000401469, .vtanh h0 ⟨.f32, false, .v 1, .v 2⟩),
      (0x00000000001002800040106A, .vcvt h0 ⟨.i32, .f16, .rz, false, .v 1, .v 2, none⟩),
      (0x00000000000001800040126B, .vpack h0 ⟨.i8, .v 1, .v 2, none, 3⟩),
      (0x00000000000003800040156C, .vunpk h0 ⟨.n4, .v 1, .v 2, 7⟩)] : List (Word96 × Instr)),
    decodeWord p.1 = .ok p.2 := by decide +kernel

theorem test_words_cross : ∀ p ∈ ([
      (0x00000000000000D0C0401070, .vshfl h0 ⟨.i32, true, .v 1, .v 2, .s 3⟩),
      (0x00000000000000D0C0401071, .vshflx h0 ⟨.i32, true, .v 1, .v 2, .s 3⟩),
      (0x00000000000000D0C0401072, .vrot h0 ⟨.i32, true, .v 1, .v 2, .s 3⟩),
      (0x000000000020008000541473, .vred h0 ⟨.f32, .ru, .min, .s 1, .v 2⟩),
      (0x000000000000068000401274, .vscan h0 ⟨.n32, .rn, .xor, true, .v 1, .v 2⟩),
      (0x0000000000000050C0541075, .vextr h0 ⟨.i32, .s 1, .v 2, .s 3⟩),
      (0x0000000000000050E8401076, .vins h0 ⟨.i32, .v 1, .s 2, .s 3⟩)] : List (Word96 × Instr)),
    decodeWord p.1 = .ok p.2 := by decide +kernel

theorem test_words_transform : ∀ p ∈ ([
      (0x0000000028000000C0801278, .xhash32 h0 ⟨.abs (.v 5), .v 1, .v 4, .v 3⟩),
      (0x000000000000000180802179, .xhash64 h0 ⟨true, .v 2, .v 4, .v 6⟩),
      (0x000000000000FF800060217A, .xpart h0 ⟨.radix 31 15, .v 2, .v 3⟩),
      (0x00000000180000020080117B, .xstrcmp h0 ⟨true, .v 1, .v 4, .v 8, .v 3⟩),
      (0x0000000A180000020080127C, .xstrfnd h0 ⟨.last, .v 1, .v 4, .v 8, .s 3⟩),
      (0x00000000000000020080117D, .xstrlen h0 ⟨.v 1, .v 4, some (.v 8)⟩),
      (0x000000000000970000A0207E, .xqnt h0 ⟨0x0E, 1, 2, .v 2, .v 5⟩),
      (0x000000000000E0800040507F, .xdqnt h0 ⟨0x01, 2, 3, .v 5, .v 2⟩),
      (0x000000000000000000A02080, .xcbdec h0 ⟨.v 2, .v 5⟩),
      (0x000000000000000000A02081, .xbdipk h0 ⟨.v 2, .v 5⟩),
      (0x000000000000000000405082, .xbdiup h0 ⟨.v 5, .v 2⟩),
      (0x0000000020000050C0401183, .xrng h0 ⟨true, .v 1, .v 2, .s 3, .v 4⟩)] : List (Word96 × Instr)),
    decodeWord p.1 = .ok p.2 := by decide +kernel

theorem test_words_memory : ∀ p ∈ ([
      (0x0000000001400380E8401888, .lds h0 ⟨.i8, 3, true, .v 1, .s 2, .v 3, ⟨1, 1, 0, none⟩⟩),
      (0x00000000200FE080E8400289, .sts h0 ⟨.n32, 1, false, .v 4, .s 2, .v 3, ⟨0, 0, 0, some 63⟩⟩),
      (0x0000000000200180E8404C8A, .ldg h0 ⟨.b128, 3, false, .v 4, .s 2, .v 3, ⟨0, 0, 2, none⟩⟩),
      (0x0000000025800080E8400B8B, .stg h0 ⟨.n16, 1, false, .v 4, .s 2, .v 3, ⟨5, 2, 0, none⟩⟩),
      (0x00000000000000D0C040638C, .ldx h0 ⟨.n64, 1, .v 6, .v 2, .s 3, ⟨0, 0, 0, none⟩⟩),
      (0x0000000038000150C040098D, .stx h0 ⟨.n8, 2, .v 7, .v 2, .s 3, ⟨0, 0, 0, none⟩⟩),
      (0x0000000000000050E854618E, .ldsc h0 ⟨.i64, 0, .s 6, .s 2, .s 3, ⟨0, 0, 0, none⟩⟩),
      (0x0000000A38000050E8400A8F, .stsc h0 ⟨.i16, 0, .s 7, .s 2, .s 3, ⟨0, 0, 0, none⟩⟩),
      (0x00000000000000D0E8541090, .tldm h0 ⟨true, .s 1, .s 2, .s 3, ⟨0, 0, 0, none⟩⟩),
      (0x0000000000000050E85D0091, .tstm h0 ⟨false, .zero, .s 2, .s 3, ⟨0, 0, 0, none⟩⟩),
      (0x0000000020000000E8400092, .tstp h0 ⟨.s 2, .v 3, .v 4, ⟨0, 0, 0, none⟩⟩),
      (0x0000000000000300E8400093, .pref h0 ⟨true, 2, .s 2, .v 3, ⟨0, 0, 0, none⟩⟩),
      (0x000000000000000028400094, .cways h0 ⟨.s 2⟩),
      (0x0000000004C0000000000095, .fence h0 ⟨4, 3⟩)] : List (Word96 × Instr)),
    decodeWord p.1 = .ok p.2 := by decide +kernel

theorem test_words_atomic : ∀ p ∈ ([
      (0x0000000022001B00E8401096, .atom h0 ⟨.i32, .exch, 2, true, .v 1, .s 2, .v 3, .v 4, ⟨2, 0, 0, none⟩⟩),
      (0x0000000045C00380E8404297, .atomCas h0 ⟨.b128, 3, true, .v 4, .s 2, .v 3, .v 8, ⟨5, 3, 0, none⟩⟩),
      (0x0000000020000100E8401098, .atomFadd h0 ⟨2, false, .v 1, .s 2, .v 3, .v 4, ⟨0, 0, 0, none⟩⟩),
      (0x0000000020001F00E8402399, .atomFxadd h0 ⟨62, true, true, .v 2, .s 2, .v 3, .v 4, ⟨0, 0, 0, none⟩⟩),
      (0x0000000000000080E840119A, .atomFmaxr h0 ⟨none, 1, false, .v 1, .s 2, .v 3, ⟨0, 0, 0, none⟩⟩),
      (0x0020000B65C003F42BD6849B, .satom (⟨false, 0, 1, 0, none⟩) ⟨.b128, .cas, false, .s 40, .s 30, .zero, .s 44, ⟨5, 3, 0, none⟩⟩)] : List (Word96 × Instr)),
    decodeWord p.1 = .ok p.2 := by decide +kernel

theorem test_words_barrier : ∀ p ∈ ([
      (0x0000000140000AFFE85D00A0, .bari h0 ⟨1, true, .zero, .s 2, 1023, 5⟩),
      (0x0000000000000E00E85410A1, .bara h0 ⟨.s 1, .s 2, 3, 7⟩),
      (0x0000000040000000E85410A2, .barw h0 ⟨true, .s 1, .s 2, 3⟩),
      (0x002000000000020168D540A3, .baraw (⟨false, 0, 1, 0, none⟩) ⟨.s 20, .s 6, 5, 1⟩),
      (0x0000000000000000E85410A4, .bart h0 ⟨false, .s 1, .s 2, 3⟩),
      (0x0000000000000000E85410A5, .barx h0 ⟨.s 1, .s 2, 3⟩),
      (0x0000000000000000E85410A6, .barq h0 ⟨.s 1, .s 2, 3⟩),
      (0x0000000C80001200E85410A7, .clb h0 ⟨.aw, false, 3, .s 1, .s 2, 3, 9⟩)] : List (Word96 × Instr)),
    decodeWord p.1 = .ok p.2 := by decide +kernel

theorem test_words_array : ∀ p ∈ ([
      (0x00200000000005D0E84000A8, .armodeReef (⟨false, 0, 1, 0, none⟩) ⟨5, .s 2, .s 3⟩),
      (0x0000000000000000284000A8, .armodeUnreef h0 ⟨.s 2⟩),
      (0x0000000000000000285410A9, .arqState h0 ⟨.s 1, .s 2⟩),
      (0x0000000000000280285410A9, .arqSlot h0 ⟨true, .s 1, .s 2⟩),
      (0x0000000000000100001410A9, .arqHeld h0 ⟨.s 1⟩),
      (0x0048000A60000052020400AA, .mma (⟨false, 0, 2, 4, none⟩) ⟨.v 64, .v 16, .s 8, .s 12⟩),
      (0x0048000A60000052020400AB, .mmag (⟨false, 0, 2, 4, none⟩) ⟨.v 64, .v 16, .s 8, .s 12⟩),
      (0x0048000A60000052020400AC, .mmad (⟨false, 0, 2, 4, none⟩) ⟨.v 64, .v 16, .s 8, .s 12⟩),
      (0x0000000000000150E85410AD, .tdecl h0 ⟨false, true, .s 1, .s 2, .s 3⟩),
      (0x0000000000000000284000AE, .tfree h0 ⟨.s 2⟩),
      (0x0000000000000000285410AF, .tchk h0 ⟨.s 1, .s 2⟩),
      (0x0000000000000000285410B0, .tfix h0 ⟨.s 1, .s 2⟩),
      (0x0000000A200005D0E84000B1, .bndset h0 ⟨3, 2, .s 2, .s 3, .s 4⟩),
      (0x0000000000000000285410B2, .bndclr h0 ⟨.s 1, .s 2⟩)] : List (Word96 × Instr)),
    decodeWord p.1 = .ok p.2 := by decide +kernel

theorem test_words_system : ∀ p ∈ ([
      (0x0000000000000050E85410B8, .chain h0 ⟨.s 1, .s 2, .s 3⟩),
      (0x0000000000000000285410B9, .chq h0 ⟨.s 1, .s 2⟩),
      (0x0000000000000000285410BA, .chstop h0 ⟨.s 1, .s 2⟩),
      (0x0060000000000052691540BB, .launch (⟨false, 0, 3, 0, none⟩) ⟨.s 20, .s 8, .s 9⟩),
      (0x0000000000002300001540C2, .getsr h0 ⟨.s 20, .tmwin⟩),
      (0x0000000000000800292000C3, .setsr h0 ⟨.fpst, .s 9⟩),
      (0x0000000000000000001410C4, .preen h0 ⟨.s 1⟩),
      (0x0000000000000000001D00C5, .predis h0 ⟨.zero⟩),
      (0x0000000000000050A82000C6, .errinjCell h0 ⟨.s 1, .s 2⟩),
      (0x00000000000000D0A82000C6, .errinjPass h0 ⟨.s 1, .s 2⟩),
      (0x0000000000000150A82000C6, .errinjRcl h0 ⟨.s 1, .s 2⟩)] : List (Word96 × Instr)),
    decodeWord p.1 = .ok p.2 := by decide +kernel

/-- R28: what each kind of word that is no instruction is refused for. -/
theorem test_words_refused : ∀ p ∈ ([
      (0x00000000000000000000001F, 1),
      (0x0000000000000050E8541401, 2),
      (0x0000000000100000C040145C, 2),
      (0x000000018000000028200021, 2),
      (0x0000000000000000001D0029, 3),
      (0x000002000000000000000029, 3),
      (0x0000000020002000E840008B, 3),
      (0x0000000A60000152020400AA, 3),
      (0x00000000000000003AF41011, 4),
      (0x00000000000000003FF41011, 4),
      (0x0000000000000000283D6011, 5),
      (0x000000000000007000401040, 5),
      (0x002000000000000000000024, 6),
      (0x0002000000000050E8541001, 6),
      (0x000000000000000100403140, 7)] : List (Word96 × Nat)),
    decodeWord p.1 = .error p.2 := by decide +kernel

/-! ### Terms that each check refuses (R21 to R28) -/

theorem test_refused_type : (.sadd h0 ⟨.f32, .s 1, .s 2, .s 3⟩ : Instr).staticReason = some 2 := by decide

theorem test_refused_condition : (.scmp h0 ⟨.num, .i32, .s 1, .s 2, .s 3⟩ : Instr).staticReason = some 2 := by decide

theorem test_refused_rounding : (.vfmin h0 ⟨.f32, .ru, false, false, false, .v 1, .v 2, .v 3⟩ : Instr).staticReason = some 2 := by decide

theorem test_refused_conversion : (.vcvt h0 ⟨.f32, .f32, .rn, false, .v 1, .v 2, none⟩ : Instr).staticReason = some 2 := by decide

theorem test_refused_bound_type : (.stg h0 ⟨.i64, 0, false, .v 4, .s 2, .v 3, ⟨0, 0, 0, some 1⟩⟩ : Instr).staticReason = some 2 := by decide

theorem test_refused_wide_swap : (.satom h0 ⟨.b128, .add, false, .s 2, .s 1, .s 3, .s 4, ⟨0, 0, 0, none⟩⟩ : Instr).staticReason = some 2 := by decide

theorem test_refused_saturation : (.vfmax h0 ⟨.f32, .rn, true, false, false, .v 1, .v 2, .v 3⟩ : Instr).staticReason = some 3 := by decide

theorem test_refused_position : (.vpack h0 ⟨.i8, .v 1, .v 2, none, 4⟩ : Instr).staticReason = some 3 := by decide

theorem test_refused_format : (.xqnt h0 ⟨0x1B, 0, 0, .v 2, .v 4⟩ : Instr).staticReason = some 3 := by decide

theorem test_refused_order : (.ldg h0 ⟨.i32, 0, false, .v 1, .s 2, .v 3, ⟨0, 2, 0, none⟩⟩ : Instr).staticReason = some 3 := by decide

theorem test_refused_scope : (.fence h0 ⟨6, 0⟩ : Instr).staticReason = some 3 := by decide

theorem test_refused_plain_scope : (.ldg h0 ⟨.i32, 0, false, .v 1, .s 2, .v 3, ⟨1, 0, 0, none⟩⟩ : Instr).staticReason = some 3 := by decide

theorem test_refused_cache_hint : (.lds h0 ⟨.i32, 0, false, .v 1, .s 2, .v 3, ⟨0, 0, 1, none⟩⟩ : Instr).staticReason = some 3 := by decide

theorem test_refused_barrier_kind : (.bari h0 ⟨2, true, .zero, .s 1, 0, 1⟩ : Instr).staticReason = some 3 := by decide

theorem test_refused_planes : (.armodeReef h0 ⟨0, .s 1, .s 2⟩ : Instr).staticReason = some 3 := by decide

theorem test_refused_bound_kind : (.bndset h0 ⟨0, 0, .s 1, .s 2, .s 3⟩ : Instr).staticReason = some 3 := by decide

theorem test_refused_register_write : (.setsr h0 ⟨.cwid, .s 1⟩ : Instr).staticReason = some 3 := by decide

theorem test_refused_class : (.vadd h0 ⟨.i32, .v 1, .m 2, .v 3⟩ : Instr).staticReason = some 5 := by decide

theorem test_refused_special_destination : (.smov h0 ⟨.i64, .clk, .s 1⟩ : Instr).staticReason = some 5 := by decide

theorem test_refused_look_without_tag : (.sadd ⟨false, 0, 0, 1, none⟩ ⟨.i32, .s 1, .s 2, .s 3⟩ : Instr).staticReason = some 6 := by decide

theorem test_refused_tag : (.nop ⟨false, 0, 1, 0, none⟩ : Instr).staticReason = some 6 := by decide

theorem test_refused_pair : (.vadd h0 ⟨.i64, .v 1, .v 2, .v 4⟩ : Instr).staticReason = some 7 := by decide

theorem test_refused_accumulator : (.mma h0 ⟨.v 60, .v 16, .s 8, .s 12⟩ : Instr).staticReason = some 7 := by decide

theorem test_refused_format_block : (.mma h0 ⟨.v 64, .v 16, .s 8, .s 13⟩ : Instr).staticReason = some 7 := by decide

/-! ### Witnesses: a crew that can issue (R29), and what else the statements assume -/

/-- `Ready`, computed. -/
def readyB (i : Instr) (s : State) (x : Crew) : Bool :=
  (x.state == .active) && (boundary s s.cur).isNone && (waitTags x i (dstRegs i)).isEmpty && withinRegs x.seat i &&
    clearOfDeferred x i (dstRegs i) && linesPresent s x i && guardHolds x i.hdr && (!Instr.ordered i || (orderingOps s s.cur).isEmpty)

theorem ready_of {i : Instr} {s : State} {x : Crew} (hc : s.crew? s.cur = some x) (h : readyB i s x = true) : Ready i s x := by
  simp only [readyB, Bool.and_eq_true, beq_iff_eq, Option.isNone_iff_eq_none, List.isEmpty_iff, Bool.or_eq_true, Bool.not_eq_true'] at h
  obtain ⟨⟨⟨⟨⟨⟨⟨h1, h2⟩, h3⟩, h4⟩, h5⟩, h6⟩, h7⟩, h8⟩ := h
  exact ⟨⟨hc, h1, h2, h3, h4, h5, h6⟩, h7, fun h => h8.resolve_left (by simp [h])⟩

/-- The loaded program (log 6) and its crew, with every mask empty and every register zero. -/
def base : State := { loadProgram State.reset with cur := 3 }
def crew0 : Crew := loadedCrew 0 2

/-- The same with the crew changed, and then the state. -/
def st (f : Crew → Crew) (g : State → State := id) : State := g (base.updCrew 3 f)

/-- Every instruction the words above name (hints aside) can be executed from the loaded state: the hypothesis of every statement that assumes
`Ready` alone (scalar, control, mask, vector, float, conversion, cross-lane, transform, memory, barrier, array, matrix, tile, chain, system). -/
theorem witness_ready : ∀ i ∈ ([
      .sadd h0 ⟨.n64, .s 4, .s 5, .s 8⟩,
      .ssub h0 ⟨.n32, .s 0, .s 127, .clk⟩,
      .smul h0 ⟨.i64, .zero, .s 1, .s 2⟩,
      .smulh h0 ⟨.i32, .s 3, .s 1, .cid⟩,
      .sdiv h0 ⟨.i64, .s 3, .s 1, .s 2⟩,
      .srem h0 ⟨.i32, .s 3, .s 1, .s 2⟩,
      .sand h0 ⟨.n64, .s 3, .s 1, .s 2⟩,
      .sor h0 ⟨.n64, .s 3, .s 1, .s 2⟩,
      .sxor h0 ⟨.n64, .s 3, .s 1, .s 2⟩,
      .sshl h0 ⟨.n64, .s 3, .s 1, .s 2⟩,
      .sshr h0 ⟨.n64, .s 3, .s 1, .s 2⟩,
      .ssra h0 ⟨.i64, .s 3, .s 1, .s 2⟩,
      .smin h0 ⟨.i64, .s 3, .s 1, .s 2⟩,
      .smax h0 ⟨.i64, .s 3, .s 1, .s 2⟩,
      .scmp h0 ⟨.ge, .i64, .s 3, .s 1, .s 2⟩,
      .ssel h0 ⟨.n64, .s 3, .s 1, .s 2, .s 9⟩,
      .smov h0 ⟨.n64, .s 3, .s 1⟩,
      .smovi h0 ⟨true, .s 3, 0x80000001⟩,
      .smovh h0 ⟨.s 3, 0x12345678⟩,
      .sclz h0 ⟨.n32, .s 3, .s 1⟩,
      .spopc h0 ⟨.n32, .s 3, .s 1⟩,
      .sbfx h0 ⟨.i64, .s 3, .s 1, .s 2⟩,
      .sbfi h0 ⟨.n64, .s 3, .s 1, .s 2⟩,
      .slea h0 ⟨.s 3, .s 1, .s 2, 5⟩,
      .bra h0 ⟨0xFFFFFFFF⟩,
      .bru h0 ⟨.gt, .i64, .v 6, 7⟩,
      .brx h0 ⟨.s 9⟩,
      .brv h0 ⟨.m 1, 3, 4⟩,
      .join h0,
      .call h0 ⟨9⟩,
      .ret h0,
      .exit h0,
      .yld h0,
      .nop h0,
      .waitc h0,
      .trap h0 ⟨0xDEADBEEF⟩,
      .tret h0 (.jump (.s 7)),
      .mand h0 ⟨.m 1, .m 2, .m 3⟩,
      .mor h0 ⟨.m 1, .m 2, .m 3⟩,
      .mxor h0 ⟨.m 1, .m 2, .m 3⟩,
      .mandn h0 ⟨.m 1, .m 2, .m 3⟩,
      .mnot h0 ⟨.m 1, .m 2⟩,
      .mmov h0 ⟨.m 1, .zero⟩,
      .mpopc h0 ⟨.s 1, .m 2⟩,
      .mffs h0 ⟨.s 1, .m 2⟩,
      .msetem h0 ⟨.m 15⟩,
      .mgetem h0 ⟨.m 14⟩,
      .msave h0 ⟨.s 2, none⟩,
      .mrest h0 ⟨some (.m 4), .s 6⟩,
      .vadd h0 ⟨.n64, .v 2, .v 4, .v 318⟩,
      .vsub h0 ⟨.n64, .v 2, .v 4, .v 318⟩,
      .vmul h0 ⟨.n64, .v 2, .v 4, .v 318⟩,
      .vmulh h0 ⟨.n64, .v 2, .v 4, .v 318⟩,
      .vmin h0 ⟨.n64, .v 2, .v 4, .v 318⟩,
      .vmax h0 ⟨.n64, .v 2, .v 4, .v 318⟩,
      .vand h0 ⟨.n64, .v 2, .v 4, .v 318⟩,
      .vor h0 ⟨.n64, .v 2, .v 4, .v 318⟩,
      .vxor h0 ⟨.n64, .v 2, .v 4, .v 318⟩,
      .vshl h0 ⟨.n64, .v 2, .v 4, .v 318⟩,
      .vshr h0 ⟨.n64, .v 2, .v 4, .v 318⟩,
      .vsra h0 ⟨.n64, .v 2, .v 4, .v 318⟩,
      .vaddsat h0 ⟨.n64, .v 2, .v 4, .v 318⟩,
      .vsubsat h0 ⟨.n64, .v 2, .v 4, .v 318⟩,
      .vmad h0 ⟨.i32, .v 1, .v 2, .s 3, .lid⟩,
      .vabs h0 ⟨.i32, .v 1, .v 2⟩,
      .vneg h0 ⟨.i32, .v 1, .v 2⟩,
      .vclz h0 ⟨.i32, .v 1, .v 2⟩,
      .vpopc h0 ⟨.i32, .v 1, .v 2⟩,
      .vmov h0 ⟨.i32, .v 1, .v 2⟩,
      .vsel h0 ⟨.n32, .v 1, .v 2, .v 3, .m 4⟩,
      .vbcast h0 ⟨.n32, .v 1, .v 2, .s 3⟩,
      .vbfx h0 ⟨.i32, .v 1, .v 2, .v 3⟩,
      .vcmp h0 ⟨.lt, .n32, .m 3, .v 2, .v 5⟩,
      .vfadd h0 ⟨.f32, .rd, true, false, true, .v 1, .v 2, .v 3⟩,
      .vfsub h0 ⟨.f32, .rd, true, false, true, .v 1, .v 2, .v 3⟩,
      .vfmul h0 ⟨.f32, .rd, true, false, true, .v 1, .v 2, .v 3⟩,
      .vfma h0 ⟨.bf16, .ra, false, true, false, .v 1, .v 2, .v 3, .v 4⟩,
      .vfmin h0 ⟨.f16, .rn, false, false, false, .v 1, .v 2, .v 3⟩,
      .vfmax h0 ⟨.bf16x2, .rn, false, false, false, .v 1, .v 2, .v 3⟩,
      .vfabs h0 ⟨.f32, true, .v 1, .v 2⟩,
      .vfneg h0 ⟨.f32, false, .v 1, .v 2⟩,
      .vfcmp h0 ⟨.geu, .f32, false, true, .m 1, .v 2, .v 3⟩,
      .vfclass h0 ⟨.bf16, false, .v 1, .v 2⟩,
      .vrcp h0 ⟨.f32, false, .v 1, .v 2⟩,
      .vrsq h0 ⟨.f32, false, .v 1, .v 2⟩,
      .vsqrt h0 ⟨.f32, false, .v 1, .v 2⟩,
      .vex2 h0 ⟨.f32, false, .v 1, .v 2⟩,
      .vlg2 h0 ⟨.f32, false, .v 1, .v 2⟩,
      .vsin h0 ⟨.f32, false, .v 1, .v 2⟩,
      .vcos h0 ⟨.f32, false, .v 1, .v 2⟩,
      .vtanh h0 ⟨.f32, false, .v 1, .v 2⟩,
      .vcvt h0 ⟨.i32, .f16, .rz, false, .v 1, .v 2, none⟩,
      .vpack h0 ⟨.i8, .v 1, .v 2, none, 3⟩,
      .vunpk h0 ⟨.n4, .v 1, .v 2, 7⟩,
      .vshfl h0 ⟨.i32, true, .v 1, .v 2, .s 3⟩,
      .vshflx h0 ⟨.i32, true, .v 1, .v 2, .s 3⟩,
      .vrot h0 ⟨.i32, true, .v 1, .v 2, .s 3⟩,
      .vred h0 ⟨.f32, .ru, .min, .s 1, .v 2⟩,
      .vscan h0 ⟨.n32, .rn, .xor, true, .v 1, .v 2⟩,
      .vextr h0 ⟨.i32, .s 1, .v 2, .s 3⟩,
      .vins h0 ⟨.i32, .v 1, .s 2, .s 3⟩,
      .xhash32 h0 ⟨.abs (.v 5), .v 1, .v 4, .v 3⟩,
      .xhash64 h0 ⟨true, .v 2, .v 4, .v 6⟩,
      .xpart h0 ⟨.radix 31 15, .v 2, .v 3⟩,
      .xstrcmp h0 ⟨true, .v 1, .v 4, .v 8, .v 3⟩,
      .xstrfnd h0 ⟨.last, .v 1, .v 4, .v 8, .s 3⟩,
      .xstrlen h0 ⟨.v 1, .v 4, some (.v 8)⟩,
      .xqnt h0 ⟨0x0E, 1, 2, .v 2, .v 5⟩,
      .xdqnt h0 ⟨0x01, 2, 3, .v 5, .v 2⟩,
      .xcbdec h0 ⟨.v 2, .v 5⟩,
      .xbdipk h0 ⟨.v 2, .v 5⟩,
      .xbdiup h0 ⟨.v 5, .v 2⟩,
      .xrng h0 ⟨true, .v 1, .v 2, .s 3, .v 4⟩,
      .lds h0 ⟨.i8, 3, true, .v 1, .s 2, .v 3, ⟨1, 1, 0, none⟩⟩,
      .sts h0 ⟨.n32, 1, false, .v 4, .s 2, .v 3, ⟨0, 0, 0, some 63⟩⟩,
      .ldg h0 ⟨.b128, 3, false, .v 4, .s 2, .v 3, ⟨0, 0, 2, none⟩⟩,
      .stg h0 ⟨.n16, 1, false, .v 4, .s 2, .v 3, ⟨5, 2, 0, none⟩⟩,
      .ldx h0 ⟨.n64, 1, .v 6, .v 2, .s 3, ⟨0, 0, 0, none⟩⟩,
      .stx h0 ⟨.n8, 2, .v 7, .v 2, .s 3, ⟨0, 0, 0, none⟩⟩,
      .ldsc h0 ⟨.i64, 0, .s 6, .s 2, .s 3, ⟨0, 0, 0, none⟩⟩,
      .stsc h0 ⟨.i16, 0, .s 7, .s 2, .s 3, ⟨0, 0, 0, none⟩⟩,
      .tldm h0 ⟨true, .s 1, .s 2, .s 3, ⟨0, 0, 0, none⟩⟩,
      .tstm h0 ⟨false, .zero, .s 2, .s 3, ⟨0, 0, 0, none⟩⟩,
      .tstp h0 ⟨.s 2, .v 3, .v 4, ⟨0, 0, 0, none⟩⟩,
      .pref h0 ⟨true, 2, .s 2, .v 3, ⟨0, 0, 0, none⟩⟩,
      .cways h0 ⟨.s 2⟩,
      .fence h0 ⟨4, 3⟩,
      .atom h0 ⟨.i32, .exch, 2, true, .v 1, .s 2, .v 3, .v 4, ⟨2, 0, 0, none⟩⟩,
      .atomCas h0 ⟨.b128, 3, true, .v 4, .s 2, .v 3, .v 8, ⟨5, 3, 0, none⟩⟩,
      .atomFadd h0 ⟨2, false, .v 1, .s 2, .v 3, .v 4, ⟨0, 0, 0, none⟩⟩,
      .atomFxadd h0 ⟨62, true, true, .v 2, .s 2, .v 3, .v 4, ⟨0, 0, 0, none⟩⟩,
      .atomFmaxr h0 ⟨none, 1, false, .v 1, .s 2, .v 3, ⟨0, 0, 0, none⟩⟩,
      .satom h0 ⟨.b128, .cas, false, .s 40, .s 30, .zero, .s 44, ⟨5, 3, 0, none⟩⟩,
      .bari h0 ⟨1, true, .zero, .s 2, 1023, 5⟩,
      .bara h0 ⟨.s 1, .s 2, 3, 7⟩,
      .barw h0 ⟨true, .s 1, .s 2, 3⟩,
      .baraw h0 ⟨.s 20, .s 6, 5, 1⟩,
      .bart h0 ⟨false, .s 1, .s 2, 3⟩,
      .barx h0 ⟨.s 1, .s 2, 3⟩,
      .barq h0 ⟨.s 1, .s 2, 3⟩,
      .clb h0 ⟨.aw, false, 3, .s 1, .s 2, 3, 9⟩,
      .armodeReef h0 ⟨5, .s 2, .s 3⟩,
      .armodeUnreef h0 ⟨.s 2⟩,
      .arqState h0 ⟨.s 1, .s 2⟩,
      .arqSlot h0 ⟨true, .s 1, .s 2⟩,
      .arqHeld h0 ⟨.s 1⟩,
      .mma h0 ⟨.v 64, .v 16, .s 8, .s 12⟩,
      .mmag h0 ⟨.v 64, .v 16, .s 8, .s 12⟩,
      .mmad h0 ⟨.v 64, .v 16, .s 8, .s 12⟩,
      .tdecl h0 ⟨false, true, .s 1, .s 2, .s 3⟩,
      .tfree h0 ⟨.s 2⟩,
      .tchk h0 ⟨.s 1, .s 2⟩,
      .tfix h0 ⟨.s 1, .s 2⟩,
      .bndset h0 ⟨3, 2, .s 2, .s 3, .s 4⟩,
      .bndclr h0 ⟨.s 1, .s 2⟩,
      .chain h0 ⟨.s 1, .s 2, .s 3⟩,
      .chq h0 ⟨.s 1, .s 2⟩,
      .chstop h0 ⟨.s 1, .s 2⟩,
      .launch h0 ⟨.s 20, .s 8, .s 9⟩,
      .getsr h0 ⟨.s 20, .tmwin⟩,
      .setsr h0 ⟨.fpst, .s 9⟩,
      .preen h0 ⟨.s 1⟩,
      .predis h0 ⟨.zero⟩,
      .errinjCell h0 ⟨.s 1, .s 2⟩,
      .errinjPass h0 ⟨.s 1, .s 2⟩,
      .errinjRcl h0 ⟨.s 1, .s 2⟩] : List Instr),
    readyB i base crew0 = true := by decide +kernel

/-- In a state with the crew changed, an instruction can still be executed. -/
theorem ready_st {i : Instr} {f : Crew → Crew} (h : readyB i (st f) (f crew0) = true) : Ready i (st f) (f crew0) := ready_of rfl h

/-- Changes of the crew: its control, a mask register, a scalar register, a tag. -/
def ctl (f : Control → Control) (x : Crew) : Crew := { x with ctl := f x.ctl }
def msk (k : Fin 16) (m : Mask) (x : Crew) : Crew := { x with rf := { x.rf with m := x.rf.m.set k m } }
def sreg (k : Fin 128) (v : DWord) (x : Crew) : Crew := { x with rf := { x.rf with s := x.rf.s.set k v } }
def tagged (k : Nat) (t : TagRec) (x : Crew) : Crew := { x with tags := x.tags.insert k t }
def em (m : Mask) : Crew → Crew := ctl fun c => { c with em := m }
/-- The loaded context with a trap handler at 64. -/
def handler (s : State) : State := s.updCtx 1 fun c => { c with desc := { c.desc with tvec := 64 } }
def low : Mask := BitVec.ofNat 128 (2 ^ 64 - 1)

theorem witness_DecodeInvertsEncode :
    let i : Instr := .satom ⟨false, 0, 1, 0, none⟩ ⟨.b128, .cas, false, .s 40, .s 30, .zero, .s 44, ⟨5, 3, 0, none⟩⟩
    i.wellFormed = true ∧ encode i = some 0x0020000B65C003F42BD6849B := by decide +kernel

theorem witness_EncodeInvertsDecode : decodeWord 0x000000520000000028944300 = .error 1 ∧
    decodeWord 0x000000000000005228944301 = .ok (.sadd h0 ⟨.n64, .s 4, .s 4, .s 8⟩) := by decide +kernel

theorem witness_StepKeepsMemoryCanonical : ∃ s t, MemoryOk s ∧ s.mem.cells ≠ [] ∧ step s = .next t :=
  ⟨placeCode (loadProgram State.reset) [0x29], _, (by decide +kernel : (placeCode (loadProgram State.reset) [0x29]).mem.wf = true), by decide +kernel, rfl⟩

/-- The loaded program at the words 0x29 (NOP) and 0 (no instruction); an outside step that stands due alone; a fetch within one frame. -/
theorem witness_StepRunsDecodedInstruction :
    (∃ s : State, ∃ w, s.turn = some 3 ∧ ({ s with cur := 3, turn := none } : State).crew? 3 = some crew0 ∧ crew0.state = .active ∧
      boundary { s with cur := 3, turn := none } 3 = none ∧ fetch { s with cur := 3, turn := none } crew0 = .word w ∧
      decodeWord w = .ok (.nop h0)) ∧
    (∃ s : State, ∃ w, s.turn = some 3 ∧ ({ s with cur := 3, turn := none } : State).crew? 3 = some crew0 ∧
      boundary { s with cur := 3, turn := none } 3 = none ∧ fetch { s with cur := 3, turn := none } crew0 = .word w ∧
      decodeWord w = .error 1) ∧
    (∃ s : State, s.turn = none ∧ s.due = .mstatEvovfClear :: [] ∧ Config.pick s.tick % (moves s).length = 0) ∧
    (∃ pa pb m m', translate base 0 1 crew0.ctl.pc.toNat .exec = .ok pa m ∧
      translate base 0 1 ((crew0.ctl.pc.toNat + 8) % 2 ^ 64) .exec = .ok pb m' ∧ pa / 65536 = pb / 65536 ∧
      ∀ j < 12, base.mem.poisoned (pa + j) = false) :=
  ⟨⟨placeCode (loadProgram State.reset) [0x29], 0x29, rfl, rfl, rfl, Option.isNone_iff_eq_none.1 (by decide +kernel), by decide +kernel,
      by decide +kernel⟩,
    ⟨loadProgram State.reset, 0, rfl, rfl, Option.isNone_iff_eq_none.1 (by decide +kernel), by decide +kernel, by decide +kernel⟩,
    ⟨{ State.reset with due := [.mstatEvovfClear], mg := { Manage.reset with fault := true } }, rfl, rfl, by
      rw [show (moves { State.reset with due := [.mstatEvovfClear], mg := { Manage.reset with fault := true } }).length = 1 from by decide +kernel]; exact Nat.mod_one _⟩,
    ⟨codePa, codePa + 8, .device, .device, by decide +kernel, by decide +kernel, by decide, by decide +kernel⟩⟩

theorem witness_NotAnInstructionTraps : base.crew? base.cur = some crew0 ∧ crew0.state = .active ∧ boundary base base.cur = none ∧
    decodeWord 0 = .error 1 := ⟨rfl, rfl, Option.isNone_iff_eq_none.1 (by decide +kernel), by decide +kernel⟩

/-- A crew with a handler, one in its handler, one without, all ACTIVE and not killed. -/
theorem witness_TakingATrap :
    (handler base).crew? 3 = some crew0 ∧ crew0.ctl.hmode = false ∧ tvec (handler base) crew0.seat.tag ≠ 0 ∧
    (entryTags (handler base) crew0).2 = [] ∧ (commitTags (handler base) 3 (entryTags (handler base) crew0).1).1.crew? 3 = some crew0 ∧
    (st (ctl fun c => { c with hmode := true })).crew? 3 = some (ctl (fun c => { c with hmode := true }) crew0) ∧
    tvec base crew0.seat.tag = 0 ∧ crew0.req.kill = none ∧ crew0.state = .active ∧ base.ctx? 1 = some loadedContext :=
  ⟨rfl, rfl, by decide +kernel, by decide +kernel, rfl, rfl, by decide +kernel, rfl, rfl, rfl⟩

theorem witness_TrapInstructionTraps : let f := ctl fun c => { c with hmode := true }
    Ready (.trap h0 ⟨5⟩) base crew0 ∧ (Ready (.tret h0 .skip) base crew0 ∧ crew0.ctl.hmode = false) ∧
    (∀ o ∈ [TretVar.retry, .skip, .jump (.s 3)], Ready (.tret h0 o) (st f) (f crew0)) ∧ (f crew0).ctl.hmode = true :=
  ⟨ready_of rfl (by decide +kernel), ⟨ready_of rfl (by decide +kernel), rfl⟩,
    fun o h => ready_st ((by decide +kernel : ∀ o ∈ [TretVar.retry, .skip, .jump (.s 3)], readyB (.tret h0 o)
      (st (ctl fun c => { c with hmode := true })) (ctl (fun c => { c with hmode := true }) crew0) = true) o h), rfl⟩

/-- Bit 0 of s0 is 0: the guard ?s0.0 is false. -/
theorem witness_GuardFalseSkips : let i : Instr := .nop ⟨false, 0, 0, 0, some ⟨false, 0, 0⟩⟩
    Clear i base crew0 ∧ guardHolds crew0 i.hdr = false :=
  ⟨⟨rfl, rfl, Option.isNone_iff_eq_none.1 (by decide +kernel), by decide +kernel, by decide +kernel, by decide +kernel, by decide +kernel⟩,
    by decide +kernel⟩

/-- Each reason: the instruction's own 3; s128 would be reason 8, so a crew of 8 vector registers; its own 9; a deferred tag. -/
theorem witness_IssueChecksReasons :
    let few (x : Crew) : Crew := { x with seat := { x.seat with nv := 8 } }
    let tag (x : Crew) : Crew := tagged 1 ⟨none, 15, {}, [], true⟩ (ctl (fun c => { c with hmode := true }) x)
    let i : Instr := .vmov h0 ⟨.i32, .v 8, .v 7⟩; let j : Instr := .preen ⟨false, 0, 1, 0, none⟩ ⟨.zero⟩
    (boundary base 3 = none ∧ waitTags crew0 i (dstRegs i) = [] ∧ withinRegs crew0.seat i = true) ∧
    (boundary (st few) 3 = none ∧ waitTags (few crew0) i (dstRegs i) = [] ∧ withinRegs (few crew0).seat i = false) ∧
    (boundary (st tag) 3 = none ∧ waitTags (tag crew0) j (dstRegs j) = [] ∧ withinRegs (tag crew0).seat j = true ∧
      clearOfDeferred (tag crew0) j (dstRegs j) = false) :=
  ⟨⟨Option.isNone_iff_eq_none.1 (by decide +kernel), by decide +kernel, by decide +kernel⟩,
    ⟨Option.isNone_iff_eq_none.1 (by decide +kernel), by decide +kernel, by decide +kernel⟩,
    ⟨Option.isNone_iff_eq_none.1 (by decide +kernel), by decide +kernel, by decide +kernel, by decide +kernel⟩⟩

/-- A tag in flight; a complete tag with a matrix fault; a complete tag that commits. -/
theorem witness_TagsCommitBeforeIssue :
    let i : Instr := .sadd h0 ⟨.i32, .s 1, .s 2, .s 3⟩
    let fault : MatEnd := { mxst := 0, fault := some ⟨0x0B, 1, 0⟩, dtile := none }
    let a (x : Crew) : Crew := tagged 1 ⟨some 9, 0, {}, [], false⟩ x
    let b (x : Crew) : Crew := tagged 1 ⟨none, 0, { mat := some fault }, [], false⟩ x
    let c (x : Crew) : Crew := tagged 1 ⟨none, 0, { regs := [.s 2 false 7] }, [], false⟩ x
    (boundary (st a) 3 = none ∧ waitTags (a crew0) i (dstRegs i) = [1]) ∧
    (boundary (st b) 3 = none ∧ waitTags (b crew0) i (dstRegs i) = [1] ∧ (commitTags (st b) 3 [1]).2 = some ⟨0x0B, 1, 0⟩) ∧
    (boundary (st c) 3 = none ∧ waitTags (c crew0) i (dstRegs i) = [1] ∧ (commitTags (st c) 3 [1]).2 = none ∧
      ((commitTags (st c) 3 [1]).1.crew? 3).any (fun x => x.state == .active && (waitTags x i (dstRegs i)).isEmpty) = true) :=
  ⟨⟨Option.isNone_iff_eq_none.1 (by decide +kernel), by decide +kernel⟩,
    ⟨Option.isNone_iff_eq_none.1 (by decide +kernel), by decide +kernel, by decide +kernel⟩,
    ⟨Option.isNone_iff_eq_none.1 (by decide +kernel), by decide +kernel, by decide +kernel, by decide +kernel⟩⟩

theorem witness_CommitWritesHeldResult : let t : TagRec := ⟨none, 0, { regs := [.s 2 false 7] }, [], false⟩
    (st (tagged 7 t)).crew? 3 = some (tagged 7 t crew0) ∧ (tagged 7 t crew0).tags.find? 7 = some t ∧ t.held.mat = none ∧ t.held.tile = none :=
  ⟨rfl, by decide +kernel, rfl, rfl⟩

/-- The stack empty, full, with a call entry and with a divergence entry on top. -/
theorem witness_BranchAndCallEffects :
    let f := ctl fun c => { c with stack := [(0, ⟨0, 0, 9, true, false⟩)], sdepth := 1 }
    (Ready (.call h0 ⟨9⟩) base crew0 ∧ crew0.ctl.sdepth ≠ 256) ∧
    Ready (.ret h0) (st f) (f crew0) ∧ (f crew0).ctl.sdepth ≠ 0 ∧
      (f crew0).ctl.stack.find? ((f crew0).ctl.sdepth - 1) = some ⟨0, 0, 9, true, false⟩ :=
  ⟨⟨ready_of rfl (by decide +kernel), by decide⟩, ready_st (by decide +kernel), by decide, by decide⟩

theorem witness_NestOverflowReasons :
    let deep (x : Crew) : Crew := msk 1 low (ctl (fun c => { c with nest := Vector.replicate 128 255 }) x)
    let full (x : Crew) : Crew := msk 1 low (ctl (fun c => { c with sdepth := 256 }) x)
    let div := ctl fun c => { c with stack := [(0, ⟨0, 0, 9, false, false⟩)], sdepth := 1 }
    (Ready (.brv h0 ⟨.m 1, 3, 4⟩) (st deep) (deep crew0) ∧ (deep crew0).ctl.em &&& (deep crew0).mask (.m 1) ≠ 0 ∧
      (deep crew0).ctl.em &&& ~~~((deep crew0).mask (.m 1)) ≠ 0 ∧
      (activeLanes (deep crew0).ctl.em).filter (fun l => nestOf (deep crew0).ctl l == 255) ≠ []) ∧
    (Ready (.brv h0 ⟨.m 1, 3, 4⟩) (st full) (full crew0) ∧ (full crew0).ctl.em &&& (full crew0).mask (.m 1) ≠ 0 ∧
      (full crew0).ctl.em &&& ~~~((full crew0).mask (.m 1)) ≠ 0 ∧
      (activeLanes (full crew0).ctl.em).filter (fun l => nestOf (full crew0).ctl l == 255) = [] ∧ (full crew0).ctl.sdepth = 256) ∧
    Ready (.call h0 ⟨9⟩) (st full) (full crew0) ∧ (Ready (.ret h0) base crew0 ∧ crew0.ctl.sdepth = 0) ∧
    (Ready (.ret h0) (st div) (div crew0) ∧ (div crew0).ctl.stack.find? ((div crew0).ctl.sdepth - 1) = some ⟨0, 0, 9, false, false⟩) :=
  ⟨⟨ready_st (by decide +kernel), by decide +kernel, by decide +kernel, by decide +kernel⟩,
    ⟨ready_st (by decide +kernel), by decide +kernel, by decide +kernel, by decide +kernel, by decide⟩, ready_st (by decide +kernel),
    ⟨ready_of rfl (by decide +kernel), by decide⟩, ⟨ready_st (by decide +kernel), by decide⟩⟩

/-- BRV with no lane on its side, with every lane, with both, at depth 255; JOIN at an empty stack, a call entry, an entry of another address,
and a divergence entry of either phase at its own address. -/
theorem witness_DivergenceAndReconvergence :
    let all := msk 1 (BitVec.allOnes 128)
    let both (x : Crew) : Crew := msk 1 low (ctl (fun c => { c with sdepth := 255 }) x)
    let top (e : DivEntry) := ctl fun c => { c with stack := [(0, e)], sdepth := 1 }
    let entries : List DivEntry := [⟨0, 0, 9, true, false⟩, ⟨0, 4, 9, false, false⟩, ⟨low, 0x10000, 9, false, false⟩, ⟨low, 0x10000, 9, false, true⟩]
    (Ready (.brv h0 ⟨.m 1, 3, 4⟩) base crew0 ∧ crew0.ctl.em &&& crew0.mask (.m 1) = 0) ∧
    (Ready (.brv h0 ⟨.m 1, 3, 4⟩) (st all) (all crew0) ∧ (all crew0).ctl.em &&& (all crew0).mask (.m 1) ≠ 0 ∧
      (all crew0).ctl.em &&& ~~~((all crew0).mask (.m 1)) = 0) ∧
    (Ready (.brv h0 ⟨.m 1, 3, 4⟩) (st both) (both crew0) ∧ (both crew0).ctl.em &&& (both crew0).mask (.m 1) ≠ 0 ∧
      (both crew0).ctl.em &&& ~~~((both crew0).mask (.m 1)) ≠ 0 ∧ (both crew0).ctl.sdepth ≠ 256 ∧
      ∀ l < 128, (both crew0).ctl.em.getLsbD l = true → nestOf (both crew0).ctl l ≠ 255) ∧
    (Ready (.join h0) base crew0 ∧ crew0.ctl.sdepth = 0) ∧ crew0.ctl.pc = 0x10000 ∧
    ∀ e ∈ entries, Ready (.join h0) (st (top e)) (top e crew0) ∧ (top e crew0).ctl.stack.find? ((top e crew0).ctl.sdepth - 1) = some e :=
  ⟨⟨ready_of rfl (by decide +kernel), by decide +kernel⟩, ⟨ready_st (by decide +kernel), by decide +kernel, by decide +kernel⟩,
    ⟨ready_st (by decide +kernel), by decide +kernel, by decide +kernel, by decide +kernel, by decide +kernel⟩,
    ⟨ready_of rfl (by decide +kernel), rfl⟩, rfl,
    fun e h => ⟨ready_st ((by decide +kernel : ∀ e ∈ ([⟨0, 0, 9, true, false⟩, ⟨0, 4, 9, false, false⟩, ⟨low, 0x10000, 9, false, false⟩,
      ⟨low, 0x10000, 9, false, true⟩] : List DivEntry), readyB (.join h0) (st (ctl fun c => { c with stack := [(0, e)], sdepth := 1 }))
        (ctl (fun c => { c with stack := [(0, e)], sdepth := 1 }) crew0) = true) e h), rfl⟩⟩

theorem witness_YieldAndExitLeaveActiveSet : Ready (.yld h0) base crew0 ∧ Ready (.exit h0) base crew0 :=
  ⟨ready_of rfl (by decide +kernel), ready_of rfl (by decide +kernel)⟩

/-- MFFS of an empty mask, and of one whose lowest bit is 127. -/
theorem witness_MaskInstructionResults : let f := msk 1 (BitVec.ofNat 128 (2 ^ 127))
    (Ready (.mffs h0 ⟨.s 1, .m 1⟩) base crew0 ∧ crew0.mask (.m 1) = 0) ∧
    Ready (.mffs h0 ⟨.s 1, .m 1⟩) (st f) (f crew0) ∧ ((f crew0).mask (.m 1)).getLsbD 127 = true ∧
      ∀ j < 127, ((f crew0).mask (.m 1)).getLsbD j = false :=
  ⟨⟨ready_of rfl (by decide +kernel), by decide +kernel⟩, ready_st (by decide +kernel), by decide +kernel, by decide +kernel⟩

/-- VRED and VSCAN with no lane; with lanes and no flag enabled; with NV enabled over signalling NaNs. -/
theorem witness_CrossLaneResults :
    let snan (x : Crew) : Crew := ctl (fun c => { c with fpst := 0x200 }) { x with rf := { x.rf with v := Vector.replicate 320 (Lanes.ofFn fun _ => 0x7F800001) } }
    let r : Instr := .vred h0 ⟨.f32, .rn, .add, .s 1, .v 2⟩; let c : Instr := .vscan h0 ⟨.f32, .rn, .add, false, .v 1, .v 2⟩
    let fl : Nat := (redTree (redNode .f32 .rn .add) ((List.range 128).map fun l => ⟨srcL (snan crew0) 32 (.v 2) l, 0⟩)).fl
    (Ready r (st (em 0)) (em 0 crew0) ∧ Ready c (st (em 0)) (em 0 crew0)) ∧
    (Ready r base crew0 ∧ Ready c base crew0 ∧ crew0.ctl.em ≠ 0 ∧ bits crew0.ctl.fpst.toNat 9 5 = 0) ∧
    (Ready r (st snan) (snan crew0) ∧ Ready c (st snan) (snan crew0) ∧ (snan crew0).ctl.em ≠ 0 ∧
      fl &&& bits (snan crew0).ctl.fpst.toNat 9 5 ≠ 0) :=
  ⟨⟨ready_st (by decide +kernel), ready_st (by decide +kernel)⟩,
    ⟨ready_of rfl (by decide +kernel), ready_of rfl (by decide +kernel), by decide +kernel, by decide +kernel⟩,
    ⟨ready_st (by decide +kernel), ready_st (by decide +kernel), by decide +kernel, by decide +kernel⟩⟩

/-- What holds of an empty core and of every listed one holds of every core. -/
theorem core_all {p : Core → Prop} {s : State} (he : p Core.empty) (h : ∀ e ∈ s.cores, p e.2) (g : Nat) : p (s.core g) := by
  unfold State.core SMap.getD
  have key : ∀ (m : SMap Core), (∀ e ∈ m, p e.2) → p ((m.find? g).getD Core.empty) := by
    intro m
    induction m with
    | nil => exact fun _ => he
    | cons e t ih =>
      intro h
      simp only [SMap.find?]
      split
      · exact h e (by simp)
      · exact ih fun e he => h e (by simp [he])
  exact key s.cores h

/-- A page of data at `va`, readable and writable, mapped to itself (R333), in the translation buffer of core 0. -/
def page (va : Nat) : TlbEntry := ⟨1, va, 65536, BitVec.ofNat 64 (va + 0xC1B)⟩
def paged (s : State) : State := s.updCore 0 fun k => { k with tlb := page 0x30000 :: k.tlb }
def locked (s : State) : State := s.updCore 0 fun k => { k with locks := [(0, ⟨.gather 9, 1, false, 0x30004, 0x30007, true, true⟩)] }

theorem witness_FloatAndTransform :
    let n := blockLen 2
    let bad (w : Word) : List Nat :=
      let x : Crew := { crew0 with rf := { crew0.rf with v := crew0.rf.v.set 3 (Lanes.ofFn fun _ => w) } }
      (List.range (128 / n)).filter fun j => !((activeLanes x.ctl.em).filter fun l => l / n == j).isEmpty &&
        metaFaulty 0x0E 1 (Iss.lane32 (issOf (.xdqnt h0 ⟨0x0E, 1, 2, .v 5, .v 2⟩) base x) (.v 2) 1 (n * j) % 2 ^ 16)
    let code (w : Word) : List Nat :=
      let x : Crew := { crew0 with rf := { crew0.rf with v := crew0.rf.v.set 3 (Lanes.ofFn fun _ => w) } }
      (fullBlocks x.ctl.em).filter fun b => decide (Iss.lane32 (issOf (.xbdiup h0 ⟨.v 5, .v 2⟩) base x) (.v 2) 1 (32 * b) % 16 > 10)
    (bad 0 = [] ∧ bad 0x400 ≠ []) ∧ code 10 = [] ∧ code 11 ≠ [] := by decide +kernel

/-- A transform request in flight, with its tag in the crew; a DRAINING crew would have no tags. -/
theorem witness_OperationsFinishUnderTheirTag : let t : TagRec := ⟨some 7, 0, {}, [], false⟩
    let s := st (tagged 1 t) fun s => s.setOp 7 ⟨3, 1, false, 0, .transform {}⟩
    s.op? 7 = some ⟨3, 1, false, 0, .transform {}⟩ ∧ s.crew? 3 = some (tagged 1 t crew0) ∧ (tagged 1 t crew0).state ≠ .draining ∧
      (tagged 1 t crew0).tags.find? 1 = some t :=
  ⟨rfl, rfl, by decide, by decide +kernel⟩

/-- Addresses that fail each check of R163 in turn (n = 4), and two that pass. -/
theorem witness_AccessChecksInOrder :
    let s := locked (paged base); let entry (a : Nat) (w : Bool) := tlbFind (s.core 0) 1 a w
    (2 % 4 ≠ 0) ∧ (2 ^ 60 % 4 = 0 ∧ canonical (2 ^ 60) = false) ∧
    (0x50000 % 4 = 0 ∧ canonical 0x50000 = true ∧ (entry 0x50000 false).isNone = true) ∧
    ((entry 0x10000 true).any (fun t => !pteW t.entry.toNat) = true ∧ canonical 0x10000 = true) ∧
    ((entry 0x30004 true).any (fun t => pteW t.entry.toNat) = true ∧
      (s.core 0).locks.any (fun k => k.2.live && !k.2.win && k.2.tag == 1 && decide (k.2.lo ≤ 0x30004) && decide (0x30004 ≤ k.2.hi)) = true) ∧
    (∀ a ∈ [0x30000, 0x3FFFC], a % 4 = 0 ∧ canonical a = true ∧ (entry a true).any (fun t => pteW t.entry.toNat) = true ∧
      ∀ j < 4, (s.core 0).locks.all (fun k => !(decide (k.2.lo ≤ a + j) && decide (a + j ≤ k.2.hi))) = true) := by decide +kernel

/-- A group that holds arrays 0 and 1 of core 0, with a peer group on core 1 that holds array 0. -/
def windowed (s : State) : State :=
  { s with
    groups := (s.groups.modify 2 fun g => { g with nsto := 2 }).insert 5 { loadedGroup 0 1 3 with core := 1, nsto := 1 }
    convoys := s.convoys.modify 1 fun v => { v with groups := [2, 5] } }
def scratched (s : State) : State := s.updCore 0 fun k => { k with scratch := { k.scratch with ways := 1, owner := some 2 } }

theorem witness_WindowAndScratchPlaces : let s := scratched (windowed base)
    (s.group? 2 = some { loadedGroup 0 1 3 with nsto := 2 } ∧ (∀ g, (s.core g).locks = []) ∧ s.convoy? 1 = some { loadedConvoy 0 2 with groups := [2, 5] }) ∧
    ((0x40000 : Nat) < 0x600000 ∧ 0x40000 / 0x40000 < 2) ∧ ¬((0x80000 : Nat) / 0x40000 < 2) ∧ (0x14000000 : Nat) % 16 = 0 ∧
    ((0x10000000 : Nat) ≤ 0x11000000 ∧ 0x11000000 % 0x1000000 < 0x600000 ∧ (0x11000000 - 0x10000000) / 0x1000000 ≠ 0 % 4 ∧
      ([2, 5] : List Nat)[(1 ^^^ 0 : Nat)]? = some 5 ∧ s.group? 5 = some { loadedGroup 0 1 3 with core := 1, nsto := 1 } ∧
      ((loadedConvoy 0 2).freed.contains 1 = false)) ∧
    ((s.core 0).scratch.owner = some 2 ∧ 16380 + 4 ≤ 16384 * (s.core 0).scratch.ways ∧ 16384 * (s.core 0).scratch.ways < 16384 + 4) :=
  ⟨⟨by decide +kernel, core_all (p := fun k => k.locks = []) rfl (by decide +kernel), by decide +kernel⟩, by decide, by decide, by decide, by decide +kernel, by decide +kernel⟩

/-- Executable with every lane's address on the page of data: s2 holds its base. -/
def based (x : Crew) : Crew := sreg 2 0x30000 x
def data (f : Crew → Crew := id) : State := st (fun x => f (based x)) paged

theorem ready_data {i : Instr} {f : Crew → Crew} (h : readyB i (data f) (f (based crew0)) = true) : Ready i (data f) (f (based crew0)) :=
  ready_of rfl h

/-- Loads that begin: no queued byte in the way, no poison, no lane, and each form. -/
theorem witness_LoadsBegin :
    let eas := laneEas (data) (based crew0) 64 (.s 2) .lid 2
    (∀ i ∈ ([.lds h0 ⟨.i32, 2, true, .v 1, .s 2, .v 3, ⟨0, 0, 0, none⟩⟩, .ldg h0 ⟨.i32, 2, false, .v 1, .s 2, .lid, ⟨0, 0, 0, none⟩⟩,
      .ldx h0 ⟨.i32, 0, .v 1, .v 2, .s 2, ⟨0, 0, 0, none⟩⟩, .ldsc h0 ⟨.i32, 0, .s 1, .s 2, .zero, ⟨0, 0, 0, none⟩⟩] : List Instr),
      readyB i (data) (based crew0) = true ∧ readyB i (data (em 0)) (em 0 (based crew0)) = true) ∧
    eas ≠ [] ∧ (match checkAccess (data) (based crew0) (request 0 4 false eas) with
      | .ok l => l.length == 128
      | .error _ => false) = true := by decide +kernel

/-- Stores and atomics: the queue empty and full, and a bound entry with each action. -/
theorem witness_StoresQueue :
    let full (x : Crew) : Crew := { based x with sq := List.replicate 32 ⟨.store [] 0 0 0, 0⟩ }
    let eas := laneEas (data) (based crew0) 64 (.s 2) .lid 2
    (∀ i ∈ ([.sts h0 ⟨.i32, 2, true, .v 1, .s 2, .v 3, ⟨0, 0, 0, none⟩⟩, .stg h0 ⟨.i32, 2, false, .v 1, .s 2, .lid, ⟨0, 0, 0, some 63⟩⟩,
      .stx h0 ⟨.i32, 0, .v 1, .v 2, .s 2, ⟨0, 0, 0, none⟩⟩, .stsc h0 ⟨.i32, 0, .s 1, .s 2, .zero, ⟨5, 2, 0, none⟩⟩] : List Instr),
      readyB i (data) (based crew0) = true ∧ readyB i (data (em 0)) (em 0 (based crew0)) = true ∧ readyB i (data full) (full crew0) = true) ∧
    (match checkAccess (data) (based crew0) (request 0 4 true eas) with
      | .ok l => l.length == 128
      | .error _ => false) = true ∧
    (based crew0).sq.length < 32 ∧ 32 ≤ (full crew0).sq.length ∧ ((data).ctx? 1).any (fun u => u.updates.isEmpty) = true ∧
    (∀ act ∈ [0, 1, 2], let b : Bound := { Bound.cleared with kind := 1, act := act, lo := 1, hi := 5 }
      b.outside 0 = true ∧ b.outside 6 = true ∧ b.outside 1 = false ∧ b.outside 5 = false) := by decide +kernel

theorem witness_AtomicsQueue :
    let eas := laneEas (data) (based crew0) 64 (.s 2) .lid 2
    (∀ i ∈ ([.atom h0 ⟨.i32, .add, 2, false, .v 1, .s 2, .lid, .v 4, ⟨0, 0, 0, none⟩⟩,
      .atomCas h0 ⟨.b32, 2, false, .v 1, .s 2, .lid, .v 4, ⟨0, 0, 0, none⟩⟩, .atomFadd h0 ⟨2, false, .v 1, .s 2, .lid, .v 4, ⟨0, 0, 0, none⟩⟩,
      .atomFxadd h0 ⟨0, true, false, .v 2, .s 2, .lid, .v 4, ⟨0, 0, 0, none⟩⟩, .atomFmaxr h0 ⟨some (.v 4), 2, false, .v 1, .s 2, .lid, ⟨0, 0, 0, none⟩⟩,
      .atomFmaxr h0 ⟨none, 2, false, .v 1, .s 2, .lid, ⟨0, 0, 0, none⟩⟩,
      .satom h0 ⟨.i32, .add, false, .s 1, .s 2, .zero, .s 4, ⟨0, 0, 0, none⟩⟩] : List Instr),
      readyB i (data) (based crew0) = true ∧ readyB i (data (em 0)) (em 0 (based crew0)) = true) ∧
    eas ≠ [] ∧ (match checkAccess (data) (based crew0) { request 0 4 true eas with atomic := fun p => match p with
        | .glob pa _ m => m == .noncoherent && !hostAtomicOk (atomicSizes (data) pa) (.int .add true) 32
        | _ => false } with
      | .ok l => (atomLines l).all (fun n => (((data).core 0).l1.find? n).isNone) && !hostPlaces l
      | .error _ => false) = true := by decide +kernel

theorem witness_AtomicOperationValues : (0 < 32 ∧ (0x80000000 : Nat) < 2 ^ 32) ∧ (0x7F800000 % 2 ^ 31 ≤ 0x7F800000 ∧ 0x7F800000 < 0x7F800001 % 2 ^ 31) := by
  decide

theorem witness_CompressedBlocksExpand : (2 : Nat) ^ 1024 - 1 < 2 ^ 1024 ∧ (10 : Nat) ≤ 10 := by decide +kernel

/-- With no link in training no path holds requests. -/
theorem pathHeld_none {s : State} (h : ∀ e ∈ s.links, e.2.state ≠ .training ∧ e.2.state ≠ .retrain) (g pa : Nat) : pathHeld s g pa = false := by
  have key : ∀ (m : SMap Link) n, (∀ e ∈ m, e.2.state ≠ .training ∧ e.2.state ≠ .retrain) →
      (m.getD n Link.down).state ≠ .training ∧ (m.getD n Link.down).state ≠ .retrain := by
    intro m n
    unfold SMap.getD
    induction m with
    | nil => exact fun _ => ⟨by simp [SMap.find?, Link.down], by simp [SMap.find?, Link.down]⟩
    | cons e t ih =>
      intro h
      simp only [SMap.find?]
      split
      · exact h e (by simp)
      · exact ih fun e he => h e (by simp [he])
  simp [pathHeld, State.link, key s.links _ h]

/-- Every link UP. -/
def linked (s : State) : State := { s with links := (List.range 98).map fun n => (n, { Link.down with state := .up }) }
/-- Operation 9 of the crew, under tag 1. -/
def flight (k : OpKind) (s : State) : State := s.setOp 9 ⟨3, 1, false, low, k⟩
def waits (x : Crew) : Crew := tagged 1 ⟨some 9, 0, {}, [], false⟩ x
/-- A byte of global memory, of the loaded crew's page of data. -/
def gl (a : Nat) : Place := .glob a a .device
def loadOf (acq : Option Nat) (done : Bool) : LoadOp :=
  { ty := .i32, scalar := false, dst := some (.v 1), accs := [⟨0, 0x30000, [gl 0x30000, gl 0x30001, gl 0x30002, gl 0x30003]⟩], got := [], lines := [], acq := acq,
    done := done, bad := [], busy := [], pc := 0, ch := 0, watch := false, parts := [], zero := [] }
/-- One line in an L1, one byte of it dirty. -/
def lineAt (o : Nat) : L1Line := { obj := o, tag := 1, at_ := 0, bytes := (List.range 128).map fun i => (i, 5), dirty := [3], filled := true, poison := [], low := false, wrote := [] }
def dirtyLine (g : Nat) (s : State) : State := s.updCore g fun k => { k with l1 := [(0x30000 / 128, lineAt 0)] }

theorem witness_FillsAndLoadsReturn : let s := linked (data id); let f := s.updCore 0 fun k => { k with fills := [0x30000 / 128] }
    let r := linked (flight (.load (loadOf none false)) (st waits paged))
    (readyB (.pref h0 ⟨false, 2, .s 2, .lid, ⟨0, 0, 0, none⟩⟩) (data id) (based crew0) = true ∧ (based crew0).ctl.em ≠ 0 ∧
      ∀ e ∈ laneEas (data id) (based crew0) 64 (.s 2) .lid 2, canonical e.2 = true ∧ (tlbFind ((data id).core 0) 1 e.2 false).isSome = true) ∧
    (0x30000 / 128 ∈ (f.core 0).fills ∧ pathHeld f 0 0x30000 = false ∧ pathDown f 0 0x30000 = false) ∧
    (r.op? 9 = some ⟨3, 1, false, low, .load (loadOf none false)⟩ ∧ (waits crew0).tags.find? 1 = some ⟨some 9, 0, {}, [], false⟩ ∧
      (waits crew0).state ≠ .draining ∧ (∀ pa, pathHeld r 0 pa = false) ∧ ((loadOf none false).accs.map (·.lane)).Nodup ∧
      ∀ p ∈ (loadOf none false).accs.flatMap (·.at_), placeBad r 0 p = false) :=
  ⟨by decide +kernel, by decide +kernel, by decide +kernel, by decide +kernel, by decide, pathHeld_none (by decide +kernel) 0, by decide, by decide +kernel⟩

/-- A plain store and an eager-free release at the head of the queue, of memory and scratch and of the window; a pass over an array in compute;
parts at two cores. -/
theorem witness_StoresLeaveTheQueue :
    let m : List (Nat × Place × Byte) := [(0, gl 0x30000, 1), (127, gl 0x30000, 2), (0, .scr 0 7, 4)]
    let w : List (Nat × Place × Byte) := [(0, .win 0 0 5, 3), (1, .win 0 0 6, 4)]
    let two : List Place := [.win 0 0 5, .win 1 0 5]
    let busy (s : State) : State := s.updArr 0 2 fun r => { r with state := .compute }
    let q (b : List (Nat × Place × Byte)) (ord : Nat) (x : Crew) : Crew := { x with sq := [⟨.store b ord 2 0, 9⟩] }
    (∀ b ∈ [m, w], ∀ ord ∈ [0, 2], let s := flight (.queued none (.lanes 32)) (st (q b ord) paged)
      (s.crew? 3).any (fun x => x.sq.length == 1 && x.pass.isNone) = true ∧ (s.op? 9).all (fun p => p.crew == 3) = true ∧
      (∀ p ∈ b.map (fun e => e.2.1), writeWaits s 0 (decide (2 ≤ ord)) 0 p = false) ∧
      (∀ e ∈ b, writeRefused s 0 (Config.freeNat s.free) (decide (2 ≤ ord)) 0 e = false) ∧ earlierLoads s 3 9 = false ∧
      eagerRelease 0 2 (b.map fun e => e.2.1) = false ∧ (s.core 0).l1 = [] ∧ (∀ e ∈ dirPath 0, (s.mem.dir e.1).length + 3 ≤ dirCap e.1) ∧
      pathDown s 0 (128 * lineOf 0x30000) = false) ∧
    partPasses (w.map fun e => e.2.1) (some 0) = 1 ∧
    mustBegin crew0 [.win 0 2 0, .win 0 2 256, .win 0 2 512] = true ∧ mustBegin crew0 two = false ∧ (partsLeft crew0 two).length = 2 ∧
    ((busy base).arr 0 2).state.busy = true := by decide +kernel

/-- An atomic of two lanes on one location: a release that is not eager and an acquire whose release sets are empty; one that is done. -/
theorem witness_AtomicsPerformAndReturn :
    let acc (l : Nat) : LaneAcc := ⟨l, 0x30000, (List.range 4).map fun j => .glob (0x30000 + j) (0x30000 + j) .device⟩
    let a : AtomAcc := { op := .int .add false, width := 32, lanes := [(acc 0, 1), (acc 127, 2)], ord := 3, scope := 2, pc := 0 }
    let x : Crew := { crew0 with sq := [⟨.atomic a, 9⟩] }; let s := flight (.queued (some (.v 1)) (.lanes 32)) (st (fun x => { x with sq := [⟨.atomic a, 9⟩] }) paged)
    let ps := a.lanes.flatMap fun l => l.1.at_
    x.sq.length = 1 ∧ x.pass = none ∧ a.done = false ∧ a.old = [] ∧ a.bad = [] ∧ a.dropped = [] ∧ (s.core 0).l1 = [] ∧
      (∀ p ∈ ps, writeWaits s 0 true 0 p = false ∧ writeRefused s 0 0 true 0 (0, p, 0) = false) ∧ earlierLoads s 3 9 = false ∧
      ((s.crew? 3).any fun x => x.state != .suspended && x.tags.all fun t => !t.2.deferred) = true ∧
      eagerRelease 0 a.scope ps = false ∧ releasers s ps = [] ∧ (∀ n ∈ atomLines (a.lanes.map (·.1)), (s.core 0).l1.find? n = none) ∧
      0 < a.width / 8 ∧ (s.op? 9).any (fun p => p.crew == 3 && p.kind == .queued (some (.v 1)) (.lanes 32)) = true ∧ x.state ≠ .draining := by decide +kernel

theorem witness_FencesDrainsAndWays :
    let sys : Instr := .fence h0 ⟨5, 2⟩; let sq (x : Crew) : Crew := { x with sq := [⟨.store [] 0 0 0, 9⟩] }
    let lost (x : Crew) : Crew := { x with req := { x.req with discard := some 4 } }
    let dirty (k : OpKind) : State := dirtyLine 1 (flight k (st waits paged))
    let fence (o scope : Nat) (r : Bool) : OpKind := .fence o scope [] r []
    let rel (s : State) : State := { s with mem := { s.mem with relSets := [(varKey (gl 0x30000), [1])] } }
    let set : State := rel (flight (.load (loadOf (some 2) false)) (st waits paged))
    let cw (x : Crew) : Crew := sreg 1 13 (sreg 2 12 x)
    let theirs (s : State) : State := s.updCore 0 fun k => { k with scratch := { k.scratch with owner := some 5 } }
    (readyB (.fence h0 ⟨4, 3⟩) base crew0 = true ∧ readyB sys base crew0 = true ∧ crew0.sq = [] ∧ crew0.req.discard = none) ∧
    (readyB sys (st sq) (sq crew0) = true ∧ (sq crew0).sq ≠ []) ∧ (readyB sys (st lost) (lost crew0) = true ∧ (lost crew0).req.discard = some 4) ∧
    (∀ scope ∈ [1, 2], ((dirty (fence 2 scope false)).op? 9).any (fun p => p.kind == fence 2 scope false) = true) ∧
    (fenceReady (dirty (fence 3 2 true)) 3 3 2 [] true = true ∧ fenceDrains (dirty (fence 3 2 true)) 0 2 [] = [1] ∧
      fenceDrains (st waits) 0 2 [] = []) ∧
    (releasers set [gl 0x30000] = [1] ∧ releasers (st waits) [gl 0x30000] = []) ∧
    (readyB (.cways h0 ⟨.s 1⟩) (st cw) (cw crew0) = true ∧ (srcS (st cw) (cw crew0) (.s 1)).toNat = 13) ∧
    (readyB (.cways h0 ⟨.s 2⟩) (st cw theirs) (cw crew0) = true ∧ (srcS (st cw theirs) (cw crew0) (.s 2)).toNat = 12) ∧
    (readyB (.cways h0 ⟨.s 2⟩) (st cw) (cw crew0) = true ∧ ((st cw).core 0).scratch.owner = none ∧ (st cw).ops = []) ∧
    (((flight (.cways 0 0 12 2) base).op? 9).isSome = true ∧ ((flight (.cways 0 0 12 2) base).core 0).fills = []) ∧
    ((base.updCore 0 fun k => { k with locks := [(7, ⟨.gather 9, 1, false, 0x30000, 0x30003, true, false⟩)] }).core 0).locks.any
      (fun e => !e.2.live && !lockWaits base 0 e.2) = true := by decide +kernel

/-- The loaded group holds arrays 0 to 3, the last two reserved for compute, and barriers 0 to 3. -/
def held2 (s : State) : State := ({ s with groups := s.groups.modify 2 fun g => { g with nsto := 2, ncomp := 2, nbar := 4 } }).updCore 0 fun k =>
  { k with arrays := [0, 1, 2, 3].map fun a => (a, { Arr.unheld with state := .storage, group := some 2, tag := 1, comp := decide (2 ≤ a) }) }
def bar (n : Nat) (b : Bar) (s : State) : State := s.updCore 0 fun k => { k with bars := k.bars.insert n b }
def arr (a : Nat) (f : Arr → Arr) (s : State) : State := s.updArr 0 a f
def armed : Bar := { Bar.idle with state := .armed, kind := 2, init := 7, pend := 3 }
def waitOf (b : Nat) : OpKind := .barWait ⟨0, b, b⟩ (some (.s 1)) false none [] []
/-- An armed barrier with a waiting operation 9 and, where asked, array 2 bound to it. -/
def waited (f : Bar → Bar) : State :=
  bar 1 (f { armed with waits := [(9, 0)] }) (arr 2 (fun r => { r with state := .reefing, bar := some 1 }) (flight (waitOf 1) (held2 (st waits))))

/-- A count below, equal to and above PEND, with and without an error noted, on plain, auto and bound barriers, and in each other state. -/
theorem witness_BarrierPhases :
    (((waited id).bar 0 1).state = .armed ∧ (2 : Nat) < ((waited id).bar 0 1).pend) ∧
    (∀ f ∈ ([id, fun b => { b with auto := true }, fun b => { b with arr := some 2 }] : List (Bar → Bar)), ((waited f).bar 0 1).pend = 3 ∧
      ((waited f).bar 0 1).err = false ∧ (waited f).op? 9 = some ⟨3, 1, false, low, waitOf 1⟩ ∧
      ((arrive (waited f) 0 1 3).bar 0 1).releases 0 = true) ∧
    (((waited fun b => { b with auto := true, waits := [(9, 1)] }).bar 0 1).waits = [(9, 1)] ∧
      ((arrive (waited fun b => { b with auto := true, waits := [(9, 1)] }) 0 1 3).bar 0 1).releases 1 = false) ∧
    ((3 : Nat) < 4 ∧ ((waited fun b => { b with err := true }).bar 0 1).err = true) ∧
    (∀ k ∈ [BarState.idle, .complete, .abandoned, .error], ((waited fun b => { b with state := k }).bar 0 1).state = k) :=
  ⟨by decide +kernel, by
    intro f h
    simp only [List.mem_cons, List.not_mem_nil, or_false] at h
    obtain rfl | rfl | rfl := h <;> decide +kernel, by decide +kernel, by decide +kernel, by decide +kernel⟩

/-- Barrier 1 is armed: an arrival with earlier work and without, a wait released and not, BARI of each kind, CLB on the own core and a peer. -/
theorem witness_BarrierInstructions :
    let s (k : BarState) (phase : Nat) : State := bar 1 { armed with state := k, phase := phase } (held2 (st id))
    let busy (x : Crew) : Crew := { x with sq := [⟨.store [] 0 0 0, 9⟩] }
    let peer : State := { held2 (st id) with
      groups := (held2 (st id)).groups.insert 5 { loadedGroup 0 1 3 with core := 1, nbar := 1 }
      convoys := (held2 (st id)).convoys.modify 1 fun v => { v with groups := [2, 5] } }
    let clb (c : BitVec 2) : Instr := .clb h0 ⟨.aw, false, c, .s 1, .s 2, 1, 1⟩
    let ar : OpKind := .barArrive ⟨0, 1, 1⟩ 1 (some (.s 1)) true []
    (∀ k ∈ [BarState.idle, .armed], ∀ c ∈ [(1 : Nat), 0], readyB (.bari h0 ⟨2, true, .zero, .s 2, 1, BitVec.ofNat 21 c⟩) (s k 0) crew0 = true) ∧
    readyB (.bari h0 ⟨2, true, .s 1, .s 2, 1, 0⟩) (st (sreg 1 0x10000000) held2) (sreg 1 0x10000000 crew0) = true ∧
    (∀ i ∈ ([.bara h0 ⟨.s 1, .s 2, 1, 1⟩, .baraw h0 ⟨.s 1, .s 2, 1, 1⟩, .barw h0 ⟨false, .s 1, .s 2, 1⟩, .barw h0 ⟨true, .s 1, .s 2, 1⟩,
        .bart h0 ⟨false, .s 1, .s 2, 1⟩, .barx h0 ⟨.s 1, .s 2, 1⟩, .barq h0 ⟨.s 1, .s 2, 1⟩, .bara h0 ⟨.s 1, .s 2, 4, 1⟩] : List Instr),
      readyB i (s .armed 0) crew0 = true ∧ readyB i (s .complete 1) crew0 = true) ∧
    (((s .armed 0).bar 0 1).releases 0 = false ∧ ((s .complete 1).bar 0 1).releases 0 = true ∧ ((s .armed 0).group? 2).any (fun g => g.nbar == 4 && g.core == 0) = true) ∧
    (earlierOps (s .armed 0) 3 = [] ∧ readyB (.bara h0 ⟨.s 1, .s 2, 1, 1⟩) (st busy held2) (busy crew0) = true ∧ earlierOps (st busy held2) 3 ≠ []) ∧
    (∀ c ∈ [(0 : BitVec 2), 1], readyB (clb c) peer crew0 = true) ∧ ((peer.convoy? 1).any (fun v => v.groups[(1 : Nat)]? == some 5 && !v.freed.contains 1) &&
      (peer.group? 5).any fun g => g.nbar == 1 && g.state == .resident) = true ∧
    ((flight ar (s .armed 0)).op? 9 = some ⟨3, 1, false, low, ar⟩ ∧ ((s .armed 0).bar 0 1).waits = [] ∧ ((s .armed 0).bar 0 1).arr = none) ∧
    ((flight (.barWait ⟨0, 1, 1⟩ (some (.s 1)) true (some 5) [] [0x600]) (s .armed 0)).op? 9).isSome = true := by decide +kernel

/-- Array 2 is held for compute, in each state that a clause names; barrier 1 is an armed reef barrier. -/
theorem witness_ArrayModes :
    let s (k : ArrState) : State := arr 2 (fun r => { r with state := k, pb := 4, op := some 9 }) (held2 base)
    let at_ (v : DWord) : State := bar 1 armed (held2 (st (sreg 2 v)))
    (∀ k ∈ [ArrState.storage, .reefing, .settling, .compute, .unreefing, .clearing, .offline], ((s k).arr 0 2).state = k ∧ ((s k).arr 0 2).comp = true) ∧
    (∀ i ∈ ([.armodeReef h0 ⟨4, .s 2, .s 3⟩, .armodeUnreef h0 ⟨.s 2⟩, .arqState h0 ⟨.s 1, .s 2⟩, .arqSlot h0 ⟨false, .s 1, .s 2⟩, .arqSlot h0 ⟨true, .s 1, .s 2⟩,
        .arqHeld h0 ⟨.s 1⟩] : List Instr), readyB i (at_ 2) (sreg 2 2 crew0) = true) ∧
    (readyB (.armodeReef h0 ⟨4, .s 2, .s 3⟩) (at_ 1) (sreg 2 1 crew0) = true ∧ readyB (.armodeReef h0 ⟨4, .s 2, .s 3⟩) (at_ 31) (sreg 2 31 crew0) = true) ∧
    (((at_ 2).bar 0 1).kind = 2 ∧ ((at_ 2).bar 0 1).arr = none ∧ ((at_ 2).bar 0 0).state = .idle) ∧
    (((s .unreefing).arr 0 2).anyBusy = false ∧ matrixOn (s .unreefing) 0 2 = false) ∧
    slotPitch 1 = 72 ∧ slotPitch 31 * slotCount 31 ≤ 2048 :=
  ⟨by decide +kernel, by decide +kernel, by decide +kernel, by decide +kernel, by decide +kernel, by decide +kernel⟩

/-- A riser column of zeros over zero cells. -/
theorem witness_AlgebraicChecksAgree : (0 < 32 ∧ ([[1, -1, 0, 1]] : List (List Int)).length ≤ 16) ∧
    (∀ k < 4, Arr.unheld.riser 0 4 k = ((List.range 64).map fun n => Arr.unheld.weight 0 4 true k n).sum) ∧
    (([2] : List Nat).getD 0 0 ≠ 0 ∧ (3 : Int) ≠ 0 ∧ ¬((2 ^ ([2] : List Nat).getD 0 0 : Nat) : Int) ∣ 3 ∧ ((2 ^ ([2] : List Nat).getD 0 0 : Nat) : Int) ∣ 4) := by decide +kernel

/-- A format block of binary elements: 16 along K, one row, and more bits. -/
def blockBits (n : Nat) : DWord := BitVec.ofNat 64 (1 + 32 + 16 * 2 ^ 32 + 2 ^ 43 + n)
/-- Array 2 in compute with two planes, in state `k`; s2 names it, s4 to s7 hold the block. -/
def mats (n : Nat) (x : Crew) : Crew := sreg 2 2 (sreg 4 (blockBits n) x)
def comps (k : ArrState) (s : State) : State := arr 2 (fun r => { r with state := k, pb := 2 }) (held2 s)
def matOp (which stage : Nat) : MatOp :=
  { which := which, core := 0, arr := 2, slot := 0, fb := (blockBits (2 ^ 19)).toNat, pc := 64, d := 0, rows := [List.replicate 16 1], metaA := [], metaB := [],
    acc := [], res := [], gaddr := [0], flags := 2 ^ 34, stage := stage, bad := none }

/-- Each form without metadata and with it, on a full and a part em; each array state; a slot free and held; the three steps of an operation. -/
theorem witness_MatrixInstructionsBegin :
    let x := mats (2 ^ 22) crew0; let i : Instr := .mma h0 ⟨.v 64, .v 16, .s 2, .s 4⟩
    let iss := issOf i (st (mats (2 ^ 22)) (comps .compute)) x
    (readyB i (st (mats (2 ^ 22)) (comps .compute)) x = true ∧ readyB (.mmag h0 ⟨.v 64, .v 16, .s 2, .s 4⟩) (st (mats 0) (comps .compute)) (mats 0 crew0) = true ∧
      readyB (.mmad h0 ⟨.v 64, .v 16, .s 2, .s 4⟩) (st (mats (2 ^ 22)) (comps .compute)) x = true ∧
      readyB i (st (fun x => em low (mats 0 x)) (comps .compute)) (em low (mats 0 crew0)) = true) ∧
    (matrixReason 0 ⟨.v 64, .v 16, .s 2, .s 4⟩ iss = none ∧ matrixReason 2 ⟨.v 64, .v 16, .s 2, .s 4⟩ iss = none ∧ x.ctl.em = BitVec.allOnes 128) ∧
    (∀ k ∈ [ArrState.compute, .settling, .storage, .offline], ((comps k base).arr 0 2).state = k ∧ ((comps k base).arr 0 2).comp = true ∧
      ((comps k base).group? 2).any (fun g => g.holds 2) = true ∧ ((comps k base).core 0).locks = []) ∧
    (formatBlock iss (st (mats (2 ^ 22)) (comps .compute)) (.s 4) = (blockBits (2 ^ 22)).toNat ∧ fmtPlanes (Fb.fmtB (blockBits (2 ^ 22)).toNat) = 2 ∧
      (0 : Nat) < slotCount 2) ∧
    (metaAddrs (Fb.metaA (blockBits (2 ^ 12)).toNat) (Fb.saddrA (blockBits (2 ^ 12)).toNat) 1 1 = [0] ∧
      ((comps .compute base).arr 0 0).state = .storage ∧ metaFaulty 1 1 (ofBytes (((comps .compute base).arr 0 0).readN 0 2)) = false) ∧
    (∀ q ∈ [rowCodes iss (blockBits 0).toNat 16 0], ∀ e ∈ decodeRow (blockBits 0).toNat [] 0 q, e.finite = true) ∧
    ((iss.lane32 (.v 16) 0 0) % 16 = 0 ∧ Fb.res (blockBits 0).toNat = false ∧ Fb.dte (blockBits 0).toNat = false) ∧
    (slotOpen (comps .compute base) 9 (matOp 0 2) = true ∧ slotOpen (comps .settling base) 9 (matOp 0 2) = false) ∧
    (∀ m ∈ [matOp 0 0, matOp 1 0, matOp 1 1, matOp 0 2], (flight (.matrix m) (comps .compute base)).op? 9 = some ⟨3, 1, false, low, .matrix m⟩) := by decide +kernel

/-- An MMA in the exact class with the row check, on cells of zeros. -/
theorem witness_MatrixResults : let m := matOp 0 3; let s := flight (.matrix m) (comps .compute base)
    (s.op? 9 = some ⟨3, 1, false, low, .matrix m⟩ ∧ crew0.state ≠ .draining ∧ m.flags = 1 * 2 ^ 34 + 0 * 2 ^ 40 + 0 * 2 ^ 41) ∧
    (Fb.mrows m.fb = 1 ∧ (s.arr 0 2).pass = none ∧ countBound (Fb.blk m.fb) (Fb.rep m.fb) = 0 ∧ Fb.bnde m.fb = false ∧ Fb.chk m.fb = 1) ∧
    ∀ k < Fb.klen m.fb, (s.arr 0 2).riser m.slot 2 k = ((List.range 64).map fun n => (s.arr 0 2).weight m.slot 2 true k n).sum := by decide +kernel

/-- Two rows of three 8-bit codes: a memory tile in entry 1, a register tile in entry 2. -/
def memTile : Tile := { state := .valid, group := 2, crew := none, tag := 1, rows := 2, cols := 3, fmt := 0x12, space := 0, base := 0x30000, csum := 0x30100, pitch := 16,
                        ben := false, bidx := 0, recomp := false, ncor := 0 }
def regTile : Tile := { memTile with crew := some 3, space := 2, base := 10, csum := 11 }
def tiled (s : State) : State := (linked (paged s)).updCore 0 fun k => { k with tiles := [(1, memTile), (2, regTile)] }
def tileNames (x : Crew) : Crew := sreg 2 1 (sreg 3 2 x)

/-- Corner elements, and the first and last checksum. -/
theorem witness_TileChecksumsLocateErrors : let rows : List (List Nat) := [[1, 2, 3], [4, 5, 255]]
    (rows.length = memTile.rows ∧ (∀ r ∈ rows, r.length = memTile.cols) ∧ (∀ r ∈ rows, ∀ c ∈ r, c < 2 ^ memTile.width) ∧ memTile.width ≤ 32) ∧
    ((0 : Nat) ≠ codeAt rows 0 0 ∧ (0 : Nat) ≠ codeAt rows 1 2) ∧ (codeChecksums rows 3).getD 0 0 ≠ 7 ∧ (codeChecksums rows 3).getD 4 0 ≠ 7 := by decide +kernel

/-- Both copies and TSTP with the queue empty and full; lanes inside the tile and outside; an entry that is not the group's; a copy's end. -/
theorem witness_TileCopiesMove :
    let s := st tileNames tiled; let x := tileNames crew0
    let full (x : Crew) : Crew := { tileNames x with sq := List.replicate 32 ⟨.store [] 0 0 0, 0⟩ }
    let l : Instr := .tldm h0 ⟨true, .s 1, .s 3, .s 2, ⟨0, 0, 0, none⟩⟩; let m : Instr := .tstm h0 ⟨true, .s 1, .s 2, .s 3, ⟨0, 0, 0, none⟩⟩
    let p (b : Reg) : Instr := .tstp h0 ⟨.s 2, b, .v 3, ⟨0, 0, 0, none⟩⟩
    let e : TileEnd := ⟨{}, [1, 2], some (.take 2 .valid 1), true, false⟩
    (readyB l s x = true ∧ readyB m s x = true ∧ readyB m (st full tiled) (full crew0) = true ∧ readyB (p (.v 4)) s x = true ∧ readyB (p .lid) s x = true ∧
      readyB l (st tileNames) x = true) ∧
    (s.tile? 0 1 = some memTile ∧ s.tile? 0 2 = some regTile ∧ (st tileNames).tile? 0 1 = none) ∧
    ((match checkTile (issOf l s x) s memTile false with
      | .ok a => (queueBlocks x (a.flatMap (·.at_))).isEmpty && (a.flatMap (·.at_)).all (fun q => !placeBad s 0 q)
      | .error _ => false) = true ∧
      (match checkTile (issOf m s x) s memTile true with
      | .ok a => !(a.flatMap (·.at_)).isEmpty
      | .error _ => false) = true) ∧
    (2 ≤ bits (srcL x 32 .lid 127) 9 0 ∧ bits (srcL x 32 (.v 4) 127) 9 0 = 0) ∧
    (match checkAccess s x ⟨0, 1, true, (activeLanes x.ctl.em).flatMap (fun l => putPieces memTile l 0 0), fun _ => false⟩ with
      | .ok a => !a.isEmpty
      | .error _ => false) = true ∧
    (flight (.tileCopy e) (st waits tiled)).op? 9 = some ⟨3, 1, false, low, .tileCopy e⟩ ∧ (waits crew0).state ≠ .draining := by decide +kernel

/-- A good descriptor of two rows of three 8-bit codes, in memory at 0x30200. -/
def tileRecord : Nat := 3 + 2 * 2 ^ 16 + 0x12 * 2 ^ 24 + 0x30000 * 2 ^ 64 + 0x30100 * 2 ^ 128 + 16 * 2 ^ 192

/-- TDECL of the good descriptor and of one at a misaligned address; entries own and not; the instructions' ends; bound updates. -/
theorem witness_TileTableAndBounds :
    let s := st tileNames tiled; let x := tileNames crew0
    let decl (a : DWord) (x : Crew) : Crew := sreg 2 a (sreg 3 7 x)
    let td : Instr := .tdecl h0 ⟨false, false, .s 1, .s 2, .s 3⟩
    let rec_ (s : State) : State := { tiled s with mem := s.mem.writeN 0x30200 (toBytes 64 tileRecord) }
    let t := st (decl 0x30200) rec_; let b : Bound := { Bound.cleared with kind := 1, hi := 5 }
    let upd (s : State) : State := s.updCtx 1 fun c => { c with updates := [(9, 0, b), (9, 63, b), (10, 0, Bound.cleared)] }
    (readyB td t (decl 0x30200 crew0) = true ∧ readyB td (st (decl 0x30201) rec_) (decl 0x30201 crew0) = true) ∧
    ((match checkAccess t (decl 0x30200 crew0) { space := 0, align := 1, write := false, pieces := runPieces 0x30200 64 } with
      | .ok a => (queueBlocks (decl 0x30200 crew0) (a.flatMap (·.at_))).isEmpty && (a.flatMap (·.at_)).all (fun p => !placeBad t 0 p) &&
          declCode (issOf td t (decl 0x30200 crew0)) t 7 (ofBytes ((a.flatMap (·.at_)).map (readByte t (decl 0x30200 crew0)))) (tileOfRecord tileRecord crew0.seat 3 false) == 0
      | .error _ => false) = true) ∧
    (∀ i ∈ ([.tfree h0 ⟨.s 2⟩, .tfree h0 ⟨.s 4⟩, .tchk h0 ⟨.s 1, .s 3⟩, .tfix h0 ⟨.s 1, .s 3⟩, .tchk h0 ⟨.s 1, .s 4⟩, .bndset h0 ⟨1, 2, .s 2, .s 3, .s 4⟩,
      .bndclr h0 ⟨.s 1, .s 2⟩] : List Instr), readyB i s x = true) ∧
    (s.tile? 0 1 = some memTile ∧ s.tile? 0 2 = some regTile ∧ s.tile? 0 0 = none ∧ dtileTags s s.cur 1 = [] ∧ (s.ctx? 1).isSome = true) ∧
    (∀ v ∈ [(⟨{}, [1], some (.free 1), false, false⟩ : TileEnd), ⟨{}, [], none, false, true⟩], let u := flight (.tileInstr v) (st waits tiled)
      u.op? 9 = some ⟨3, 1, false, low, .tileInstr v⟩ ∧ (∀ n ∈ v.names, tileUsers u 0 n = [] ∧ tileInRecord u 0 n = false) ∧ (waits crew0).sq = []) ∧
    ((flight (.bound 1 0 {}) (upd base)).op? 9 = some ⟨3, 1, false, low, .bound 1 0 {}⟩ ∧
      ((upd base).ctx? 1).any (fun c => c.updates == [(9, 0, b), (9, 63, b), (10, 0, Bound.cleared)]) = true) := by decide +kernel

/-- A chain of the loaded group in context 0 of core 0, at window address 0x40 of array 0, which holds record `d`. -/
def chain0 : ChainCtx := ⟨.running, 2, 1, 0x40, some 0, [], none, none, none, false, []⟩
def recAt (d : List Nat) (s : State) : State := arr 0 (fun r => { r with cells := (d.flatMap (toBytes 8)).mapIdx fun j b => (0x40 + j, b) }) s
def chained (c : ChainCtx) (s : State) : State := (held2 (tiled s)).updCore 0 fun k =>
  { k with chains := [(0, c)], gens := [(0, 1)], tiles := [(1, memTile), (2, { memTile with base := 0x30200, csum := 0x30300 })] }
def atRec (d : List Nat) (c : ChainCtx) (s : State) : State := recAt d (chained c s)

/-- Heads and names at their limits; a context free and none; a CHAIN that waits for a context and one that has it; handles that name and do not. -/
theorem witness_ChainInstructions :
    let regs (a b : DWord) (x : Crew) : Crew := sreg 2 a (sreg 3 b x)
    let full (s : State) : State := (held2 s).updCore 0 fun k => { k with chains := (List.range 8).map fun n => (n, chain0) }
    let i : Instr := .chain h0 ⟨.s 1, .s 2, .s 3⟩
    let op (k : Option Nat) : OpKind := .chainStart 0 none k (.s 1) []
    (readyB i (st (regs 0 0) held2) (regs 0 0 crew0) = true ∧ readyB i (st (regs 1 0) held2) (regs 1 0 crew0) = true ∧
      readyB i (st (regs 0x600000 0) held2) (regs 0x600000 0 crew0) = true ∧ readyB i (st (regs 0 0x804) held2) (regs 0 0x804 crew0) = true ∧
      readyB i (st (regs 0 0) full) (regs 0 0 crew0) = true) ∧
    (freeCtx (st (regs 0 0) held2) 0 = some 0 ∧ freeCtx (st (regs 0 0) full) 0 = none ∧ (0x804 : Nat).testBit 11 = true ∧ 4 ≤ 0x804 % 2048) ∧
    (∀ k ∈ [none, some 7], ((flight (op k) (held2 (st waits))).op? 9) = some ⟨3, 1, false, low, op k⟩ ∧ chainsRun (flight (op k) (held2 (st waits))) 1 0 = true ∧
      freeCtx (flight (op none) (held2 (st waits))) 0 = some 0 ∧ (waits crew0).req.kill = none) ∧
    (readyB (.chq h0 ⟨.s 1, .s 2⟩) (st (regs 8 0) (chained chain0)) (regs 8 0 crew0) = true ∧
      readyB (.chq h0 ⟨.s 1, .s 2⟩) (st (regs 0x80008 0) (chained chain0)) (regs 0x80008 0 crew0) = true ∧
      readyB (.chstop h0 ⟨.s 1, .s 2⟩) (st (regs 8 0) (chained chain0)) (regs 8 0 crew0) = true ∧
      readyB (.chstop h0 ⟨.s 1, .s 2⟩) (st (regs 0x80008 0) (chained chain0)) (regs 0x80008 0 crew0) = true) ∧
    (8 < 2 ^ 19 ∧ ((chained chain0 base).core 0).gens.getD (8 % 8) 0 = 8 / 8 ∧ (chained chain0 base).chain? 0 0 = some chain0 ∧ ¬(0x80008 < 2 ^ 19)) := by decide +kernel

/-- A good record of each kind, by hand from R260 to R262. -/
def records : List (List Nat) := [[1, 0, 0, 0, 0, 0, 0, 0], [2, 0x1000, 0x2000, 64, 0, 0, 5 * 2 ^ 32, 0], [3, 0, 0, 0, 0, 0, 0x201 * 2 ^ 32, 0],
  [4, 0x1000, 0x2000, 2, 0, 0, 0x10005 * 2 ^ 32, 0], [5, 0x1000, 0x2000, 2, 0, 0, 0x10005 * 2 ^ 32, 0], [6, 0x1000, 0, 16, 0, 0, 0x80401 * 2 ^ 32, 0],
  [7, 0, 0x2000, 64, 0, 0xAB, 4 * 2 ^ 32, 0], [8, 0x1000, 0x2000, 128, 0, 64, 5 * 2 ^ 32, 0], [9, 0x1000, 0x30400, 2, 0, 0x30000, 0x4000 * 2 ^ 32, 0],
  [10, 0, 0, 0, 0, 0, 2 ^ 32, 0], [11, 0, 0, 1, 0, 0, 2 ^ 32, 0], [12, 0, 0, 2, 0, 0, 2 ^ 32, 0], [13, 0, 0x80, 0, 0, 1, 0x30 * 2 ^ 32, 0],
  [13, 0x1000, 0x80, 0, 0, 0, 2 ^ 32, 0], [14, 0, 0x80, 0, 0, 0, 0, 0]]

/-- Every record good and, with a reserved bit, refused; the depth of loops; stops; passes and acknowledgements of a copy, a fill, rows; a sum. -/
theorem witness_LadleRecords :
    let lv : LoopLevel := ⟨0x40, 2, 2, 0⟩; let w (d : List Nat) (st_ : Nat) : RecWork := { kind := Rec.kind d, words := d, iter := 0, bar := some 1, total := 64, stage := st_, idx := [0, 1] }
    let works (d : List Nat) (n : Nat) : ChainCtx := { chain0 with work := some (w d n) }
    let c1 : ChainCtx := { chain0 with work := some { w (records.getD 1 []) 1 with
      sent := 64, flight := [⟨[(.win 0 0 0x2000, 5, 255), (.glob 0x30000 0x30000 .device, 6, 255)], 0, 2⟩] } }
    let d2 := records.getD 8 []; let c2 : ChainCtx := { chain0 with work := some { w d2 2 with total := 16, rows := [[1, 2, 3, 4], []] } }
    let c3 : ChainCtx := { chain0 with work := some (w (records.getD 9 []) 0), wait := some ⟨1, 0, some 2, []⟩ }
    let good (d : List Nat) (s : State) : Bool := (s.chain? 0 0 == some chain0) && (recordWords s 0 chain0 == some d) && !recRefused s 0 chain0 d 0 &&
      lockRoom s 0 (recRanges s 0 chain0 d 0)
    (∀ d ∈ records, good d (atRec d chain0 base) = true ∧ (dataKind (Rec.kind d) = true → recTotal (atRec d chain0 base) 0 chain0 d ≠ 0)) ∧
    (∀ d ∈ records, let e := d.set 0 (d.getD 0 0 + 4096)
      recRefused (chained chain0 base) 0 chain0 e 0 = true) ∧ recordWords (atRec [0x1002, 0x1000, 0x2000, 64, 0, 0, 5 * 2 ^ 32, 0] chain0 base) 0 chain0 =
        some [0x1002, 0x1000, 0x2000, 64, 0, 0, 5 * 2 ^ 32, 0] ∧
    (((atRec records.head! chain0 base).core 0).staging = none ∧ chainBar (chained chain0 base) chain0 1 = some 1 ∧ (List.replicate 4 lv).length = 4 ∧
      lv.first + 64 * lv.body < 0x80 + 64 * 2 ∧ ¬(lv.first + 64 * lv.body < 0x40 + 64 + 64 * 1)) ∧
    (∀ p ∈ [(1, 2), (6, 1), (3, 1), (4, 1)], let d := records.getD p.1 []; let s := atRec d (works d p.2) base
      (s.chain? 0 0 == some (works d p.2)) = true ∧ chainWalks s 0 0 1 = false ∧ locksLive s 0 0 = true ∧ (w d p.2).sent < 64 ∧
      (match ladlePlaces s 0 chain0 1 true (run_ 0x2000 64) with
        | .ok l => l.all fun q => !placeBad s 0 q
        | .error _ => false) = true) ∧
    (((chained c1 base).chain? 0 0 == some c1) = true ∧ writeWaits (chained c1 base) 0 true 0 (.glob 0x30000 0x30000 .device) = false ∧
      ((chained c1 base).arr 0 0).state.busy = false) ∧
    (∀ e ∈ [(some 8 : Option Nat), none], recordWords (chained { chain0 with stop := e, addr := 0x600000 } base) 0 { chain0 with addr := 0x600000 } = none) ∧
    ((match ladlePlaces (chained c2 base) 0 c2 0 true (run_ (Rec.b d2 0) 16) with
        | .ok l => l.length == 16
        | .error _ => false) = true ∧ (Rec.f d2).testBit 0 = false ∧ (Rec.f d2).testBit 7 = false) ∧
    (chained c3 base).chain? 0 0 = some c3 ∧
    ((0x40 : Nat) + 64 * 2 = 0xC0 ∧ lv.i + 1 < lv.n) := by decide +kernel

/-- A table (R332) at 0x100000 that maps the 64 KiB at 0x30000 to itself by a leaf; every link UP; the context reads its queue table there. -/
def mapped (leaf : Nat) (s : State) : State :=
  let put (m : Memory) (e : Nat × Nat) : Memory := m.writeN e.1 (toBytes 8 e.2)
  { linked s with
    mem := [(0x100000, 0x101001), (0x101000, 0x102001), (0x102000, 0x103001), (0x103000, 0x104001), (0x104018, leaf)].foldl put s.mem
    ctxs := s.ctxs.modify 1 fun c => { c with desc := { c.desc with troot := 0x100000, qtab := 0x38000 } } }
/-- Queue 5 of context 1: 8 slots from 0x31000. -/
def queue0 : Queue := ⟨.active, false, true, 3, 4, 0x31000, 3, 2, 1, 0, 0, 0, []⟩
def queued (q : Queue) (s : State) : State := { mapped 0x30C1B s with queues := [(261, q)] }
def launchReg (a b : DWord) (x : Crew) : Crew := sreg 2 a (sreg 3 b x)

/-- A doorbell at the limit, beyond it and old; each control; LAUNCH at each check; its request accepted, at a full queue and a suspended one. -/
theorem witness_QueuesAndRequests :
    let at_ : List Place := (List.range 128).map fun j => .glob (0x30000 + j) (0x30000 + j) .device
    let op (w : Option Nat) (got : Option (List Byte)) : OpKind := .launch 5 at_ got (.s 1) [] w 64
    let i : Instr := .launch h0 ⟨.s 1, .s 2, .s 3⟩
    let req (q : Queue) : State := flight (op none none) (paged (queued q (st waits)))
    ((queued queue0 base).queue? 1 5 = some queue0 ∧ 3 + 6 = 1 + 2 ^ 3 ∧ 1 + 2 ^ 3 < 3 + 7 ∧ (3 + 0) % 2 ^ 32 = 3 % 2 ^ 32) ∧
    (∀ k ∈ [QState.active, .suspended, .error, .disabled], (queued { queue0 with state := k, device := false } base).queue? 1 5 =
      some { queue0 with state := k, device := false }) ∧
    (readyB i (data id) (based crew0) = true ∧ readyB i (queued queue0 (st (launchReg 0x30000 5) paged)) (launchReg 0x30000 5 crew0) = true ∧
      readyB i (st (launchReg 1 5)) (launchReg 1 5 crew0) = true) ∧
    (translate (data id) 0 1 0x30000 .read = .ok 0x30000 .device ∧ translate base 0 1 0x30000 .read = .miss ∧
      translate base 0 1 (2 ^ 63) .read = .nonCanonical) ∧
    ((req queue0).op? 9 = some ⟨3, 1, false, low, op none none⟩ ∧ launchBehind (req queue0) 3 5 9 = false ∧ unitWalks (req queue0) (.ring 9) = false ∧
      ((req queue0).core 0).l1 = [] ∧ (∀ p ∈ at_, placeBad (drainCore (req queue0) 0) 0 p = false) ∧ ctxAlive (req queue0) 1 = true ∧
      unitAt (drainCore (req queue0) 0) 1 (0x31000 + 128 * (4 % 2 ^ 3)) .write = .ok 0x31200 .device ∧ pathDown (req queue0) 0 0x31200 = false) ∧
    ((1 : Nat) + 2 ^ 3 ≤ { queue0 with tail := 9 }.tail ∧ { queue0 with state := .suspended }.state ≠ .active) ∧
    (flight (op (some 2) none) base).op? 9 = some ⟨3, 1, false, low, op (some 2) none⟩ ∧
    (nextQueue (queued queue0 base) = some 261 ∧ (queued queue0 base).queues.find? 261 = some queue0) := by decide +kernel

/-- The paths are free in the state of a LAUNCH request. -/
theorem witness_QueuesAndRequests_paths : ∀ a, pathHeld (queued queue0 base) 0 a = false :=
  pathHeld_none (by decide +kernel) 0

/-- A good record (R291): entry 0x10000, images at 0x31000, completion word at 0x30010, interrupt 7, one convoy of one group of one crew. -/
def launchRecord : Nat :=
  0x10000 + 0x31000 * 2 ^ 128 + 0x30010 * 2 ^ 192 + 9 * 2 ^ 256 + 2 ^ 576 + 2 ^ 608 + 8 * 2 ^ 704 + 16 * 2 ^ 713 + 2 ^ 721 + 2 ^ 726 + 2 ^ 749 + 7 * 2 ^ 750
def launch0 (k : LaunchState) : Launch := { Launch.start 1 5 2 with state := k, info := parseLaunch launchRecord }
/-- Launch 7 of queue 5, its record in slot 2. -/
def launched (x : Launch) (s : State) : State :=
  { queued queue0 s with
    mem := (queued queue0 s).mem.writeN 0x31100 (toBytes 128 launchRecord)
    launches := [(7, x)] }

/-- Each step of a launch, from QUEUED to its completion, at both branches; a core that fits and the free state; a convoy that starts. -/
theorem witness_LaunchesRun :
    let dep (x : Launch) : Launch := { x with info := { x.info with daddr := [(0x30020, 5)] } }
    let starts : State := { launched { launch0 .dispatching with live := 1 } base with
      crews := []
      groups := [(2, { loadedGroup 7 1 3 with crews := [] })]
      convoys := [(1, { loadedConvoy 7 2 with started := false })] }
    let ends (n : Nat) : Launch := { launch0 .ending with step := n, cores := [0] }
    ((launched (launch0 .queued) base).launch? 7 = some (launch0 .queued) ∧ unitWalks (launched (launch0 .queued) base) (.queue 7) = false ∧
      earlierLaunch (launched (launch0 .queued) base) (launch0 .queued) (· == .queued) = false ∧ ctxAlive (launched (launch0 .queued) base) 1 = true ∧
      unitAt (launched (launch0 .queued) base) 1 (0x31000 + 128 * (2 % 2 ^ 3)) .read = .ok 0x31100 .device ∧
      pathDown (launched (launch0 .queued) base) 0 0x31100 = false ∧ pathHeld (launched (launch0 .queued) base) 0 0x31100 = false) ∧
    (launchRcode base 1 launchRecord = 0 ∧ launchRcode base 1 (launchRecord + 2 ^ 763) = 1 ∧ launchRcode base 1 (launchRecord + 2 ^ 725) = 2 ∧
      serOk (launched (launch0 .queued) base) (launch0 .queued) = true ∧ (launch0 .queued).info.daddr = []) ∧
    ((dep (launch0 .waiting)).info.daddr = [(0x30020, 5)] ∧ unitAt (launched (dep (launch0 .waiting)) base) 1 0x30020 .read = .ok 0x30020 .device ∧
      (launched (dep (launch0 .waiting)) base).mem.poison = []) ∧
    (fitCore base 1 (launch0 .dispatching).info).isSome = true ∧
    (placing (launched (launch0 .dispatching) base) 0 = [(7, launch0 .dispatching)] ∧
      (findCluster (launched (launch0 .dispatching) base) (launch0 .dispatching)).any (fun f => f.1 == 0 && f.2.2.length == 1) = true) ∧
    ((starts.convoy? 1).any (fun v => !v.started && v.groups == [2]) = true ∧ unitWalks starts (.image 1) = false ∧
      (starts.group? 2).any (fun g => g.state == .resident && g.slots.length == g.images.length) = true ∧
      ∀ p ∈ imageParts starts { loadedConvoy 7 2 with started := false }, unitAt starts 1 p.2.1 .write ≠ .fault ∧ partHeld starts 1 p = false) ∧
    (∀ k ∈ [LaunchState.waiting, .dispatching, .running], (launched (launch0 k) base).launch? 7 = some (launch0 k)) ∧
    (let x : Launch := { launch0 .running with info := { (launch0 .running).info with tlim := 2 } }; x.info.tlim ≠ 0 ∧ x.started + x.paused + 1750 * x.info.tlim ≤ 3500) ∧
    (∀ n ∈ [0, 1, 2, 3], (launched (ends n) base).launch? 7 = some (ends n) ∧ (ends n).info.hasWord = true ∧
      unitAt (launched (ends n) base) 1 0x30018 .write = .ok 0x30018 .device ∧ unitAt (launched (ends n) base) 1 0x30010 .write = .ok 0x30010 .device ∧
      writeHeld (launched (ends n) base) (.glob 0x30018 0x30018 .device) = false) := 
  ⟨by decide +kernel, by decide +kernel, by decide +kernel, by decide +kernel, by decide +kernel, by decide +kernel, by decide +kernel, by decide +kernel⟩

/-- A handler, a system context, a budget running and not, a missing register line, arrays held and not, registers at their limits. -/
theorem witness_StatusAndInjection :
    let sys (s : State) : State := (held2 s).updCtx 1 fun c => { c with desc := { c.desc with system := true } }
    let hm : Crew → Crew := ctl fun c => { c with hmode := true }
    let bud : Crew → Crew := ctl fun c => { c with pdrem := some 5 }
    let absent (s : State) : State := (sys s).updCore 0 fun k => { k with rc := k.rc.filter fun l => l.line != vLine crew0.seat false 319 }
    let reg (v : DWord) (x : Crew) : Crew := sreg 2 v x
    (readyB (.getsr h0 ⟨.s 1, .tcause⟩) base crew0 = true ∧ readyB (.setsr h0 ⟨.fpst, .s 2⟩) base crew0 = true ∧
      readyB (.setsr h0 ⟨.tem0, .s 2⟩) base crew0 = true ∧ readyB (.setsr h0 ⟨.tem1, .s 2⟩) (st hm) (hm crew0) = true ∧
      readyB (.setsr h0 ⟨.ckcor, .s 2⟩) base crew0 = true ∧ readyB (.setsr h0 ⟨.smcor, .s 2⟩) (sys base) crew0 = true) ∧
    (readyB (.predis h0 ⟨.s 1⟩) base crew0 = true ∧ readyB (.predis h0 ⟨.s 1⟩) (st bud) (bud crew0) = true ∧ readyB (.preen h0 ⟨.s 1⟩) base crew0 = true ∧
      readyB (.preen h0 ⟨.s 1⟩) (st bud) (bud crew0) = true ∧ crew0.req.pre = false) ∧
    (∀ i ∈ ([.errinjCell h0 ⟨.s 2, .s 3⟩, .errinjPass h0 ⟨.s 2, .s 3⟩, .errinjRcl h0 ⟨.s 2, .s 3⟩] : List Instr), readyB i base crew0 = true ∧ readyB i (sys base) crew0 = true) ∧
    ((base.ctx? 1).any (fun c => !c.desc.system) = true ∧ ((sys base).ctx? 1).any (fun c => c.desc.system) = true ∧
      ((sys base).group? 2).any (fun g => g.holds 3 && !g.holds 4 && g.holds 0) = true) ∧
    (readyB (.errinjRcl h0 ⟨.s 2, .s 3⟩) (st (reg 319) sys) (reg 319 crew0) = true ∧ readyB (.errinjRcl h0 ⟨.s 2, .s 3⟩) (st (reg 319) absent) (reg 319 crew0) = true ∧
      readyB (.errinjRcl h0 ⟨.s 2, .s 3⟩) (st (reg 447) sys) (reg 447 crew0) = true ∧ readyB (.errinjRcl h0 ⟨.s 2, .s 3⟩) (st (reg 448) sys) (reg 448 crew0) = true ∧
      hasLine ((sys base).core 0) 3 (vLine crew0.seat false 319) = true ∧ hasLine ((absent base).core 0) 3 (vLine crew0.seat false 319) = false) := by decide +kernel

/-- The loaded crew in another state, and a change of its requests or of the time. -/
def crewIn (k : CrewState) (w : Wait) (x : Crew) : Crew := { x with state := k, wait := w }
def sched0 (d : Sched) (s : State) : State := s.updSched 0 0 fun _ => d
def later (n : Nat) (s : State) : State := { s with now := n }
def req (f : Requests → Requests) (x : Crew) : Crew := { x with req := f x.req }

/-- Each crew state a step takes; a queue of one behind eight; the ends of budget and handler; a group's end at each outcome of its launch. -/
theorem witness_CrewsComeAndGo :
    let eight : Sched := ⟨List.replicate 8 3, [9], 0⟩
    let promo (x : Crew) : Crew := { x with stamps := { x.stamps with sincePromo := true } }
    let dog (x : Crew) : Crew := ctl (fun c => { c with hmode := true }) x
    let dogs (s : State) : State := later 1750 (s.updCtx 1 fun c => { c with desc := { c.desc with wdog := 1 } })
    let ends (f r i : Bool) (k : LaunchState) : State := { base with
      crews := []
      groups := [(2, { loadedGroup 0 1 3 with state := .closing, crews := [], broke := f, relaunch := r })]
      launches := [(0, { loadedLaunch with state := k, info := { loadedRecord with idem := i } })] }
    (∀ p ∈ [(CrewState.starting, Wait.none), (.waiting, .control), (.waiting, .lines [0, 371])], ((st (crewIn p.1 p.2)).crew? 3).any (fun x => x.state == p.1 && x.wait == p.2) = true) ∧
    (translateNow base 1 (imageLineVa base crew0.seat 0) .read = none ∧ (translateNow (mapped 0x30C1B base) 1 0x30000 .read).isSome = true) ∧
    (translate base 0 1 0x10000 .exec = .ok 0x20000 .device ∧ translate base 0 1 0x1FFF8 .exec = .ok 0x2FFF8 .device ∧ translate base 0 1 0x20000 .exec = .miss) ∧
    ((sched0 ⟨[], [3], 0⟩ base).sched 0 0 = ⟨[], [3], 0⟩) ∧
    ((later 256 (sched0 eight (st promo))).sched 0 0 = eight ∧ 0 + 256 ≤ (256 : Nat) ∧ (promo crew0).stamps.sincePromo = true) ∧
    ((req (fun r => { r with pre := true }) crew0).req.pre = true ∧ crew0.ctl.pdrem = none ∧ crew0.req.budget = false ∧ crew0.req.kill = none) ∧
    ((req (fun r => { r with kill := some ⟨6, 0, 0⟩ }) crew0).req.kill.isSome = true ∧ (ctl (fun c => { c with pdrem := some 0 }) crew0).ctl.pdrem = some 0) ∧
    ((dogs (st dog)).ctx? 1).any (fun u => u.desc.wdog != 0 && decide (0 + 1750 * u.desc.wdog ≤ (dogs (st dog)).now)) = true ∧
    ((st (crewIn .draining .none)).crew? 3).any (fun x => x.sq.isEmpty && (st (crewIn .draining .none)).ops.isEmpty) = true ∧
    (∀ p ∈ [(false, true, true, LaunchState.running), (true, true, true, .running), (true, false, true, .running), (true, true, false, .killing), (true, true, true, .dispatching)],
      let s := ends p.1 p.2.1 p.2.2.1 p.2.2.2
      (s.group? 2).any (fun g => g.state == .closing && !peersPending s g) = true ∧ (s.core 0).chains = [] ∧
        (s.convoy? 1).any (fun v => v.freed.length + 1 == v.groups.length && v.attempt == 0) = true ∧ (s.launch? 0).any (fun l => l.state == p.2.2.2) = true) := by decide +kernel

/-- Walks to a leaf, to nothing with and without an outstanding record, with a full ring, and with the ring at an address of no memory; every
kind of waiter; each stage of a migration, with its leaf as it was and changed; a tracker at a threshold and a page that may move. -/
theorem witness_PagesAndMigrations :
    let walkOf (w : Walker) (va : Nat) (f : Option Nat) (s : State) : State := { s with walks := [(5, ⟨w, 1, va, true, 0, f, false⟩)] }
    let fault (f : Option Nat) (w : Walker) : State := { walkOf w 0x50000 f (mapped 0x30C1B base) with faults := if f = none then [] else [(1, ⟨1, 0x50000⟩)] }
    let ring (b t : Nat) (s : State) : State := s.updMg fun m => { m with frbase := b, frtail := t }
    let mig (n old : Nat) (cmd : Bool) (s : State) : State := { mapped 0x3001B s with migs := [(6, ⟨1, 0x30000, 65536, old, 0x50000, 5, n, 0, cmd, []⟩)] }
    let trk (s : State) : State := s.updTracker 0 fun t =>
      { t with counts := [(8, 5), (9, 7)], threshold := 5, todo := [2 ^ 32], left := 64, hbm := [0x70000] }
    (walk (mapped 0x3001B base).mem 0x100000 0x30000 = .leaf 0x3001B 0 0x104018 ∧ walk (mapped 0x3001B base).mem 0x100000 0x50000 = .fault 0 0) ∧
    ((fault none (.crew 3 low)).walks.find? 5).isSome = true ∧ ((fault (some 1) (.fetch 3)).faults.find? 1 = some ⟨1, 0x50000⟩) ∧
    (4096 ≤ (ring 0 4096 base).mg.frtail - (ring 0 4096 base).mg.frhead ∧ populated (0 + 32 * 1) 32 = true ∧ populated (5 * 2 ^ 48 + 32) 32 = false) ∧
    (∀ w ∈ [Walker.crew 3 low, .fetch 3, .chain 0 0, .queue 7, .image 1], waiters (fault (some 1) w) 1 = [(5, ⟨w, 1, 0x50000, true, 0, some 1, false⟩)]) ∧
    ((req (fun r => { r with declined := some (low, 0x50000) }) crew0).req.declined = some (low, 0x50000) ∧ crew0.tags.find? 0 = none ∧ crew0.req.trap = none) ∧
    (∀ n ∈ [0, 1, 2, 3], (mig n 0x30000 false base).migs.find? 6 = some ⟨1, 0x30000, 65536, 0x30000, 0x50000, 5, n, 0, false, []⟩) ∧
    (mig 1 0x30000 true base).mem.wf = true ∧ 0x30000 + 65536 ≤ (0x50000 : Nat) ∧
    migLeaf (mig 1 0x30000 true base) ⟨1, 0x30000, 65536, 0x30000, 0x50000, 5, 1, 0, true, []⟩ = some (0x3001B, 0x104018) ∧
    migLeaf (mig 1 0x40000 true base) ⟨1, 0x30000, 65536, 0x40000, 0x50000, 5, 1, 0, true, []⟩ = none ∧
    (((mig 2 0x30000 false base).tracker 0).todo = [] ∧ populated 0 16 = true) ∧
    (0 + 1750000 ≤ (later 1750000 (trk base)).now ∧ logRoom (trk base) 0 = true ∧ (5 : Nat) ≤ ((trk base).tracker 0).threshold) ∧
    (frameLeaf (trk (mapped (2 ^ 48 + 0x9B) base)) (65536 * 2 ^ 32) = some (1, 0x30000, 2 ^ 48 + 0x9B) ∧ ptePin (2 ^ 48 + 0x9B) = false ∧
      pteMig (2 ^ 48 + 0x9B) = true ∧ migrating (trk (mapped (2 ^ 48 + 0x9B) base)) (65536 * 2 ^ 32) 65536 = false) ∧
    (logRoom (base.updTracker 0 fun t => { t with tail := 1024 }) 0 = false) := by decide +kernel

def ctxIn (k : CtxState) (f : Context → Context) (s : State) : State := s.updCtx 1 fun c => f { c with state := k }
def mgmt (f : Manage → Manage) (s : State) : State := s.updMg f

/-- A context at each state a step takes; a kill with nothing left; a log page; each kind of error; a die at each stage of its test; windows. -/
theorem witness_ContextsAndReliability :
    let halted : State := st (crewIn .suspended .none) (ctxIn .suspending id)
    let saved : SavedCore := saveCore (held2 base) 1 0
    let back : State := { ctxIn .restoring (fun c => { c with out := true, saved := [saved] }) base with
      cores := [] }
    let gone : State := { ctxIn .killing id base with
      crews := []
      groups := []
      convoys := [] }
    let log : State := (mapped 0x3001B base).updCtx 1 fun c => { c with desc := { c.desc with loga := 0x30400 } }
    let die (f : Die → Die) : State := later 1750000 (mgmt (fun m => { m with testPeriod := 1 }) (base.updDie 0 f))
    let full : Nat → State := fun r => later 1750000 (mgmt (fun m => { m with tmthr := 3 }) (base.updCtr 1 fun k => { k with cur := r }))
    ((halted.ctx? 1).any (fun x => x.state == .suspending) = true ∧ (∀ e ∈ halted.crews, e.2.state = .suspended) ∧
      matrixOps halted (fun c => c.seat.tag == 1) = false ∧ (∀ e ∈ halted.convoys, e.2.started = true)) ∧
    ((ctxIn .saving id (held2 (st (crewIn .suspended .none)))).ctx? 1).any (fun x => x.state == .saving) = true ∧
      swapReady (ctxIn .saving id (held2 (st (crewIn .suspended .none)))) 1 = true ∧
    (coreFree back 1 saved = true ∧ saved.arrays.rises = true ∧ saved.bars.rises = true ∧ saved.chains.rises = true ∧
      (∀ l ∈ (back.core 0).rc ++ saved.rc, l.flip = []) ∧ saved.arrays ≠ []) ∧
    ((ctxIn .restoring id base).ctx? 1).any (fun x => x.state == .restoring && !x.out) = true ∧
    ((gone.ctx? 1).any (fun x => x.state == .killing) = true ∧ (∀ k ∈ gone.cores, k.2.chains = [])) ∧
    translateNow log 1 (0x30400 + 16 * (0 % 64)) .write = some (0x30400, .device) ∧
    (siteCode (.arrayData 0 2 5) = some (1, 0) ∧ ownerSet (held2 base) (Config.freeNat (held2 base).free) (.arrayData 0 2 5) ≠ [] ∧ siteTag (held2 base) (.arrayData 0 2 5) = some 1 ∧
      (base.ctx? 1).any (fun x => x.state != .killing && x.state != .dead) = true) ∧
    (((die id).die 0).test = none ∧ ((die id).die 0).spare = some 24 ∧ (die id).mg.testPeriod = 1 ∧ ((die id).die 0).tested + 1750000 * 1 ≤ (die id).now) ∧
    (((die fun d => { d with test := some (0, 0, 0) }).die 0).test = some (0, 0, 0) ∧
      clusterStill ((st (crewIn .suspended .none)).updDie 0 fun d => { d with test := some (0, 0, 0) }) 0 = true ∧
      ((die fun d => { d with test := some (0, 1, 0) }).die 0).test = some (0, 1, 0)) ∧
    (∀ e ∈ (full 3).cores, e.2.ctr.cur ≤ 3) ∧ ((full 4).core 1).ctr.cur = 4 ∧ (base.die 0).clock = 0 ∧
    ((base.bank 5).since + 56000000 ≤ (later 56000000 base).now) := by decide +kernel

/-- A good descriptor (R309) for context 2, one member, in memory at 0x40000. -/
def descriptor : Nat := 0x100000 + 0x8000 * 2 ^ 64 + 4 * 2 ^ 192 + 3 * 2 ^ 448 + 2 ^ 736

/-- An idle package with contexts in each state, tables, rings and links, at both sides of each check; events with room, kept and held. -/
theorem witness_CommandsOfTheRing :
    let c : Cmd := ⟨1, 5, 1, [], []⟩
    let ev (tail kept : Nat) (s : State) : State := mgmt (fun m => { m with cmd := some c, evtail := tail, kept := List.replicate kept ⟨0, 0, 0, 0⟩ }) s
    let inst (d : Nat) : State := { base with mem := base.mem.writeN 0x40000 (toBytes 128 d) }
    let entry : Nat := 1 + 2 ^ 13 * 3 + 2 ^ 11 + 2 ^ 17 * 4 + 2 ^ 24 + 0x31000 * 2 ^ 64
    let sq (x : Crew) : Crew := { x with sq := [⟨.store [(0, gl 0x30000, 1)] 0 0 0, 9⟩] }
    ((base.mg.cmd = none ∧ base.mg.held = none) ∧ (ev 0 0 base).mg.held = none ∧ (ev 4096 0 base).mg.evtail - (ev 4096 0 base).mg.evhead = 4096 ∧ (ev 4096 256 base).mg.kept.length = 256) ∧
    ((inst descriptor).mem.readLE 0x40000 128 = descriptor ∧ populated 0x40000 128 = true ∧ region 0x40000 ≤ 3 ∧ bits descriptor 455 448 = 3 ∧
      (inst descriptor).ctx? 3 = none ∧ bits descriptor 735 467 = 0 ∧ bits descriptor 223 192 = 4 ∧ bits descriptor 466 460 = 0) ∧
    (∀ k ∈ [CtxState.live, .swapped, .killing, .dead], ((ctxIn k id base).ctx? 1).any (fun x => x.state == k) = true) ∧
    swapExcess base 1 { loadedContext.desc with shadow := 85 } = false ∧ (base.ctx? 2 = none ∧ loadedContext.desc.nshape = 0) ∧
    ((groupsOf base 1).any (fun e => e.2.core / 4 == 0) = true ∧ (groupsOf base 1).any (fun e => e.2.core / 4 == 5) = false ∧ loadedContext.members = [0]) ∧
    (rangeOps base 1 0x30000 0x3FFFF = [] ∧ rangeFlight base 1 0x30000 0x3FFFF = false ∧ rangeOps (st sq) 1 0x30000 0x3FFFF = [9] ∧
      accessAlive (st sq) 9 = true ∧ accessAlive base 9 = false) ∧
    (walk (mapped 0x3001B base).mem 0x100000 0x30000 = .leaf 0x3001B 0 0x104018 ∧ canonical 0x30000 = true ∧ pteAddr 0x3001B = 0x30000 ∧
      ptePin 0x3001B = false ∧ region 0x30000 = 0 ∧ 0x50000 % levelSize 0 = 0 ∧ populated 0x50000 65536 = true ∧ migrating base 0x30000 65536 = false ∧
      logRoom base (homeDie 0x50000) = true ∧ ptePin (0x3001B + 64) = true) ∧
    (populated 0x30000 (8 * 3) = true ∧ populated (5 * 2 ^ 48) (8 * 3) = false) ∧
    (((base.updArr 0 23 fun r => { r with state := .offline }).arr 0 23).state = .offline ∧ (base.arr 0 23).state = .unheld) ∧
    (linkLanes 17 = none ∧ linkLanes 16 = some (256, 8) ∧ linkLanes 97 = some (16, 0) ∧ (base.link 16).state = .down ∧ ((linked base).link 16).state = .up) ∧
    (badQueue 1 1 entry = false ∧ badQueue 1 2 entry = true ∧ ctxAlive base 1 = true ∧ base.queue? 1 1 = none) ∧
    ((readQueue (begun (mapped 0x3001B base) 0x11 1) 1 1).1.isSome = true) := by decide +kernel

/-- Kept and held events, each register and port, links in each state, the bring-up steps, flits, peers, hosts and snoops, at their limits. -/
theorem witness_ManagementLinksAndHost :
    let keptOf (n : Nat) : State := mgmt (fun m => { m with kept := List.replicate n ⟨0, 0, 0, 0⟩, held := if n = 256 then some ⟨0, 0, 0, 0⟩ else none,
                                                            cmd := if n = 256 then some ⟨1, 5, 1, [], []⟩ else none, evtail := 4096 }) base
    let own (p : Option Nat) : State := mgmt (fun m => { m with owner := p, frtail := 5, eyesel := 16 }) base
    let lk (n : Nat) (k : LinkState) : State := base.updLink n fun l => { l with state := k, seq := 7, windows := [(2, (0x30000, 0x100))] }
    let stepAt (n : Nat) (k : LinkState) : State := mgmt (fun m => { m with step := n }) (lk 0 k)
    ((keptOf 3).mg.held = none ∧ (keptOf 256).mg.held.isSome = true ∧ (keptOf 256).mg.cmd.isSome = true ∧ (keptOf 256).mg.kept.length = 256 ∧ (keptOf 3).mg.evtail = 4096) ∧
    ((own none).mg.owner = none ∧ (own (some 1)).mg.owner = some 1 ∧ linkLanes ((own (some 1)).mg.eyesel % 256) = some (256, 8) ∧ bits (own (some 1)).mg.eyesel 27 16 < 264 ∧
      (5 : Nat) % 2 ^ 32 = bits (5 * 2 ^ 32 + 1) 63 32 ∧ (base.ctx? 1).any (fun c => c.desc.hport == 0) = true) ∧
    (∀ n ∈ [3, 5], ∀ k ∈ [LinkState.down, .training, .up], (stepAt n k).mg.step = n ∧ (stepAt n k).mg.fault = false ∧ ((stepAt n k).link 0).state = k) ∧
    (∀ n ∈ [6, 7, 4, 0], (stepAt n .up).mg.step = n) ∧
    (∀ k ∈ [LinkState.down, .training, .up, .degraded, .retrain], ((lk 96 k).link 96).state = k ∧ ((lk 0 k).link 0).state = k) ∧
    ((base.link 96).spused = 0 ∧ (base.link 96).spused < 8 ∧ (base.updLink 0 fun l => { l with spused := 8 }).link 0 = { base.link 0 with spused := 8 }) ∧
    (((lk 81 .up).link 81).seq = 7 ∧ bits (7 * 64 + 3) 15 6 = 7 ∧ (7 * 64 + 3) % 16 = 3 ∧ (7 * 64 + 21) % 16 = 5) ∧
    (((lk 81 .up).link 81).windows.getD (bits (2 * 2 ^ 40 + 0xFF) 43 40) (0, 0) = (0x30000, 0x100) ∧ bits (2 * 2 ^ 40 + 0xFF) 39 0 + 1 ≤ 0x100 ∧
      0x100 < bits (2 * 2 ^ 40 + 0xFF) 39 0 + 2 ∧ populated (0x30000 + 0xFF) 1 = true ∧ region 0x300FF ≤ 1) ∧
    (populated 0x30000 16 = true ∧ region 0x30000 = 0 ∧ 0x30000 % 16 = 0 ∧ (lk 96 .up).migs = [] ∧ region (2 * 2 ^ 48 + 0x40) = 2 + 0) ∧
    ((∀ e ∈ (lk 96 .up).cores, e.2.l1 = []) ∧ ((dirtyLine 1 (lk 96 .up)).core 1).l1.find? (0x30000 / 128) = some (lineAt 0)) := by decide +kernel

/-- A held fault; a register tile named by DTILE, of 16 rows of 64 FP32 columns in v64 to v71 with its sums in v72; a TLDM's or TFIX's state, and a TCHK's name alone. -/
theorem witness_CommitWritesHeldResult_tiles :
    let acc : Tile := { regTile with rows := 16, cols := 64, fmt := 0x1C, base := 64, csum := 72 }
    let s (h : Held) : State := st (tagged 7 ⟨none, 0, h, [], false⟩) fun s => s.updCore 0 fun k => { k with tiles := [(1, acc), (2, regTile), (3, { regTile with base := 64 })] }
    let h1 : Held := { mat := some ⟨5, some ⟨0x0B, low, 64⟩, none⟩ }
    let h2 : Held := { regs := [.v 65 false low Lanes.zero], mat := some ⟨5, none, some (1, 3)⟩ }
    let h3 : Held := { regs := [.v 10 false low Lanes.zero], tile := some (2, some (.bad, 1)) }
    let h4 : Held := { tile := some (2, none) }
    (∀ h ∈ [h1, h2, h3, h4], (((s h).crew? 3).bind fun x => x.tags.find? 7) = some ⟨none, 0, h, [], false⟩) ∧
    (h1.mat.bind fun m => m.fault) = some ⟨0x0B, low, 64⟩ ∧ (∀ h ∈ [h2, h3, h4], (h.mat.bind fun m => m.fault) = none) ∧
    ((s h2).tile? crew0.seat.core 1 = some acc ∧ acc.rows = 16 ∧ acc.cols = 64 ∧ acc.base + 8 ≤ 320 ∧ acc.csum < 320 ∧ acc.base + 8 ≤ acc.csum) ∧
    ((s h3).tile? crew0.seat.core 2 = some regTile ∧ (s h2).tile? crew0.seat.core 3 = some { regTile with base := 64 }) := by decide +kernel

/-- A scalar source, a vector with lanes alike and not, lid, and no lane active; BRX at a multiple of 4 and beside it. -/
theorem witness_BranchAndCallEffects_uniform :
    let v (x : Crew) : Crew := { x with rf := { x.rf with v := x.rf.v.set 2 (Lanes.ofFn fun l => BitVec.ofNat 32 l) } }
    let bru (r : Reg) : Instr := .bru h0 ⟨.eq, .i32, r, 9⟩; let brx (r : Reg) : Instr := .brx h0 ⟨r⟩
    (∀ r ∈ [Reg.s 2, .v 2, .lid], readyB (bru r) base crew0 = true ∧ readyB (brx r) base crew0 = true) ∧
    (readyB (bru (.v 2)) (st (em 0)) (em 0 crew0) = true ∧ readyB (brx (.v 2)) (st (em 0)) (em 0 crew0) = true ∧ (em 0 crew0).ctl.em = 0) ∧
    (readyB (bru (.v 2)) (st v) (v crew0) = true ∧ crew0.ctl.em.getLsbD 0 = true ∧ srcL crew0 32 (.v 2) 1 = srcL crew0 32 (.v 2) 0 ∧
      srcL (v crew0) 32 (.v 2) 1 ≠ srcL (v crew0) 32 (.v 2) 0 ∧ srcL crew0 32 .lid 1 ≠ srcL crew0 32 .lid 0) ∧
    (readyB (brx (.s 2)) (st (sreg 2 8)) (sreg 2 8 crew0) = true ∧ readyB (brx (.s 2)) (st (sreg 2 9)) (sreg 2 9 crew0) = true) := by decide +kernel

/-- NaNs of both kinds, negative operands, the ends of the exact powers, exact and inexact roots, and the least value within an ulp. -/
theorem witness_SpecialFunctionResults_values :
    (fmtF32.read 0x7F800001 = .nan true ∧ fmtF32.read 0xFFC00000 = .nan false) ∧
    (f32Units 0x80000001 = -1 ∧ f32Units 0xBF800000 = -2 ^ 149 ∧ f32Units 0 = 0) ∧
    (f32Units 0x00400000 = 2 ^ 22 ∧ f32Units 0x7E800000 = 2 ^ 275 ∧ f32Units 0xBF800000 = -2 ^ 149) ∧
    (f32Units 0x40800000 = 2 ^ 151 ∧ 2 * 148 + 151 = 447) ∧
    (f32Units 0xC3150000 = -149 * 2 ^ 149 ∧ f32Units 0x42FE0000 = 127 * 2 ^ 149) ∧
    ((specSqrt 0x40800000).fl = 0 ∧ (specSqrt 0x40000000).fl = 1 ∧ f32Units 0x40000000 = (2 ^ 150 : Nat)) ∧
    ((2 : Nat) ^ 298 < (f32Units 0x40400000).natAbs * 2 ^ (124 + 24) ∧ (2 : Nat) ^ 447 < (f32Units 0x40400000).natAbs * 2 ^ (2 * (125 + 24))) := by decide +kernel

/-- MARK held, an infinity, the greatest value in range and one beyond it, a tie to even both ways, and sums that leave the range. -/
theorem witness_AtomicOperationValues_fixed : let c : Nat := 0x3F800000
    ((2 : Nat) ^ 63 < 2 ^ 64 ∧ 0x7F800000 / 2 ^ 23 % 256 = 255 ∧ c / 2 ^ 23 % 256 = 127) ∧
    (((max 127 1 : Nat) : Int) - 150 + 63 = 40 ∧ c % 2 ^ 23 + 2 ^ 23 = 2 ^ 23 ∧ 2 ^ 63 - 1 < 2 ^ 23 * 2 ^ 40 ∧ 2 ^ 23 * 2 ^ 39 ≤ 2 ^ 63 - 1) ∧
    ((RmwOp.fxadd 63).new 64 0 c = 2 ^ 63 ∧ (RmwOp.fxadd 62).new 64 0 c = 2 ^ 62 ∧ (RmwOp.fxadd 62).new 64 (2 ^ 62) c = 2 ^ 63 ∧
      (RmwOp.fxadd 62).new 64 (2 ^ 62 - 1) c = 2 ^ 63 - 1) ∧
    ((RmwOp.fxadd 0).new 64 0 0x3F000000 = 0 ∧ (RmwOp.fxadd 0).new 64 0 0x3FC00000 = 2 ∧ (RmwOp.fxadd 0).new 64 0 0xBF800000 = 2 ^ 64 - 1) := by decide +kernel

/-- A latch that fits, sampled and not, with no plane to drive, and one that does not; a value outside a bound entry of each action; checks
that fail in two rows; a gathered code that is not finite. -/
theorem witness_MatrixResults_cases :
    let fb (n : Nat) : Nat := (blockBits n).toNat
    let l (dc k : Nat) : Latch := ⟨0, crew0.seat.cid, [List.replicate 16 1], [], 1, k, 1, 16, dc, 0⟩
    let s (v : Latch) (m : MatOp) : State := arr 2 (fun r => { r with latches := [v] }) (flight (.matrix m) (comps .compute base))
    let m (n : Nat) : MatOp := { matOp 2 3 with fb := fb n }
    let cells (m : MatOp) : State := arr 2 (fun r => { r with cells := [(0, 1)] }) (flight (.matrix m) (comps .compute base))
    let two : MatOp := { matOp 0 3 with fb := fb (2 ^ 19 + 2 ^ 43), rows := List.replicate 2 (List.replicate 16 1) }
    let x (q : Nat) : Int := (((inputRows (two.rows.mapIdx fun j r => decodeRow two.fb [] j r) 16).getD q []).getD 0 0)
    (∀ p ∈ [(2 ^ 22, 0), (2 ^ 22 + 2 ^ 48, 1)], ∀ k ∈ [16, 8], ((s (l p.2 k) (m p.1)).arr 0 2).latch? 0 crew0.seat.cid = some (l p.2 k) ∧
      (1, 16, 1, 16) = (Fb.fmtA (fb p.1), Fb.klen (fb p.1), Fb.mrows (fb p.1), Fb.blk (fb p.1)) ∧ fmtWidth 1 ≤ 8 ∧ (List.replicate 16 1).length = Fb.codes (fb p.1)) ∧
    (planesFor 0 < fmtPlanes 1 * Fb.nb (fb 0) ∧ Fb.sper (fb (2 ^ 48)) = 1 ∧ Fb.sper (fb 0) = 0) ∧
    (∀ act ∈ [1, 2, 3], (⟨1, act, 1, 5, false⟩ : Bound).outside
      (drainValue (fb (2 ^ 25)) [] 0 0 (accumulate (fb (2 ^ 25)) [] [] ⟨fun _ _ _ => 0, fun _ _ => 0, fun _ _ => 0⟩ negZero 0 0)).bits = true) ∧
    (Fb.bnde (fb (2 ^ 25)) = true ∧ crew0.seat.tag = 1 ∧ (base.ctx? 1).any (fun u => u.updates.isEmpty) = true) ∧
    (Fb.mrows two.fb = 2 ∧ Fb.chk two.fb = 1 ∧ Fb.failm (fb (2 ^ 21)) = true ∧ Fb.metaA two.fb = false ∧ Fb.metaB two.fb = false ∧
      ∀ q < 2, x q * ((cells two).arr 0 2).riser 0 2 0 ≠ ((List.range 64).map fun n => x q * ((cells two).arr 0 2).weight 0 2 true 0 n).sum) ∧
    (flight (.matrix { matOp 1 3 with bad := some 0 }) (comps .compute base)).op? 9 = some ⟨3, 1, false, low, .matrix { matOp 1 3 with bad := some 0 }⟩ :=
  ⟨by decide +kernel, by decide +kernel, by decide +kernel, by decide +kernel, by decide +kernel, by decide +kernel⟩

/-- A record for each status code of R218 at a limit of its condition, one that meets two conditions, and the good one; TFREE's names. -/
theorem witness_TileTableAndBounds_codes :
    let s := st tileNames tiled; let x := tileNames crew0
    let code (n d : Nat) : Nat := declCode (issOf (.tdecl h0 ⟨false, false, .s 1, .s 2, .s 3⟩) s x) s n d (tileOfRecord d crew0.seat 3 false)
    let reg (fmt b c p : Nat) : Nat := 3 + 2 * 2 ^ 16 + fmt * 2 ^ 24 + 2 ^ 31 + b * 2 ^ 64 + c * 2 ^ 128 + p * 2 ^ 192
    [code 1 tileRecord, code 7 (tileRecord + 2 ^ 33), code 7 (tileRecord + 2 ^ 11), code 7 (tileRecord + 3 * 2 ^ 30), code 7 (tileRecord - 3 - 2 * 2 ^ 16 + 1024 + 129 * 2 ^ 16),
      code 7 (tileRecord - 3 + 1025), code 7 (tileRecord - 14 * 2 ^ 192), code 7 (tileRecord + 2 ^ 64), code 7 (reg 0x12 320 30 16), code 7 (reg 0x12 8 8 16),
      code 7 (reg 0x12 10 30 16), code 7 (reg 0x12 20 30 16), code 7 (tileRecord + 2 ^ 30), code 7 tileRecord, code 7 (3 * 2 ^ 30 + 2 ^ 511)] =
      [1, 2, 2, 3, 4, 4, 5, 5, 5, 6, 6, 0, 7, 0, 2] := by decide +kernel

/-! ### One step each, with the results of the manual's rules and worked examples -/

/-- What one step of exec leaves in the loaded crew, changed by `f`. -/
def ran (i : Instr) (f : Crew → Crew) (read : Crew → Nat) : Option Nat := match exec i (st f) with
  | .next t => (t.crew? 3).map read
  | _ => none
def outS (k : Nat) (x : Crew) : Nat := (x.sreg k).toNat
def outV (k l : Nat) (x : Crew) : Nat := ((x.vreg k).get l).toNat
def vreg (k : Fin 320) (f : Nat → Nat) (x : Crew) : Crew := { x with rf := { x.rf with v := x.rf.v.set k (Lanes.ofFn fun l => BitVec.ofNat 32 (f l)) } }

/-- R97, R98: 32-bit sums wrap, and extend by sign under .I and by zeros under .N. -/
theorem test_sadd_extends : ran (.sadd h0 ⟨.i32, .s 3, .s 1, .s 2⟩) (fun x => sreg 1 0x7FFFFFFF (sreg 2 1 x)) (outS 3) = some 0xFFFFFFFF80000000 ∧
    ran (.sadd h0 ⟨.n32, .s 3, .s 1, .s 2⟩) (fun x => sreg 1 0xFFFFFFFF (sreg 2 1 x)) (outS 3) = some 0 := by decide +kernel

/-- R98: the quotient is truncated toward zero, 0 for a zero divisor; the remainder is then a. -/
theorem test_sdiv_srem : ran (.sdiv h0 ⟨.i64, .s 3, .s 1, .s 2⟩) (fun x => sreg 1 (-7) (sreg 2 2 x)) (outS 3) = some (2 ^ 64 - 3) ∧
    ran (.sdiv h0 ⟨.i64, .s 3, .s 1, .s 2⟩) (sreg 1 7) (outS 3) = some 0 ∧ ran (.srem h0 ⟨.n64, .s 3, .s 1, .s 2⟩) (sreg 1 7) (outS 3) = some 7 := by decide +kernel

/-- R98: SCLZ.I32 of 1 writes 31. -/
theorem test_sclz : ran (.sclz h0 ⟨.i32, .s 3, .s 1⟩) (sreg 1 1) (outS 3) = some 31 := by decide +kernel

/-- R98: SSRA by more than the width fills with the sign. -/
theorem test_ssra_wide : ran (.ssra h0 ⟨.n32, .s 3, .s 1, .s 2⟩) (fun x => sreg 1 0x80000000 (sreg 2 64 x)) (outS 3) = some 0xFFFFFFFF := by decide +kernel

/-- R94: BRA counts words of 12 bytes from its own address. -/
theorem test_bra_backwards : ran (.bra h0 ⟨0xFFFFFFFF⟩) id (fun x => x.ctl.pc.toNat) = some (0x10000 - 12) := by decide +kernel

/-- R69: 2^24 + 1.0 is a tie that rounds to even; the inactive lane keeps its value. -/
theorem test_vfadd_ties : ran (.vfadd h0 ⟨.f32, .rn, false, false, false, .v 3, .v 1, .v 2⟩) (fun x => em 1 (vreg 1 (fun _ => 0x4B800000) (vreg 2 (fun _ => 0x3F800000)
    (vreg 3 (fun _ => 9) x)))) (fun y => outV 3 0 y + 2 ^ 32 * outV 3 1 y) = some (0x4B800000 + 2 ^ 32 * 9) := by decide +kernel

/-- R130's example, in lanes 0, 1, 8, 9 of v70 and lane 0 of v71. -/
theorem test_xbdipk_example : bdiBest (ofBytes ((List.range 32).flatMap fun l => toBytes 4 (0x10000000 + l))) = 6 ∧
    bits (bdiPack (ofBytes ((List.range 32).flatMap fun l => toBytes 4 (0x10000000 + l))) 6) 95 0 = 0x07060504_03020100_10000000 := by decide +kernel

/-- R71's example at P = 16: 1.5, −0.25 and 3 · 2^−17 sum to 0x14002 in either order. -/
theorem test_fxadd_example : (fxConvert 16 0x3FC00000 = 98304 ∧ fxConvert 16 0x37C00000 = 2 ∧ fxConvert 16 0x7FC00000 = 2 ^ 63) ∧
    fxAdd (fxAdd (fxConvert 16 0x3FC00000) (fxConvert 16 0xBE800000)) (fxConvert 16 0x37C00000) = 0x14002 ∧
    fxAdd (fxAdd (fxConvert 16 0x37C00000) (fxConvert 16 0xBE800000)) (fxConvert 16 0x3FC00000) = 0x14002 := by decide +kernel

/-- R52's example: CB2L index 0x0304; R74's: the row checksum 26. -/
theorem test_cb2l_and_checksum : cb2l 0x0304 = [3, -3, 1, 1, 1, 1, 1, -1] ∧ (codeChecksums [[2, 9, 7, 8]] 4).getD 0 0 = 26 := by decide +kernel

/-- R227's example of a format block: its fields. -/
theorem test_format_block : let b := 0x00008400005055AD
    Fb.fmtA b = 0x0D ∧ Fb.fmtB b = 0x0D ∧ Fb.blk b = 32 ∧ Fb.scfA b = 1 ∧ Fb.scfB b = 1 ∧ Fb.rep b = 1 ∧ Fb.chk b = 2 ∧ Fb.acc b = true ∧ Fb.klen b = 1024 ∧
      Fb.mrows b = 16 := by decide +kernel

/-! ### tamig and the object image (R31 to R44) -/

open Tamig Object in
/-- What a source assembles to, asked of its image. -/
def assembled {α : Type} (src : List String) (f : Image → α) : Option α :=
  match assemble (src.map String.toList) with
  | .ok m => some (f m)
  | .error _ => none

/-- The example after R44: 36 bytes of code, its entry, its two relocations. -/
def scale4 : List String :=
  [".equ    N, 4096              ; full-size element count", ".data", ".align  64", "table:  .word  N, 0, 0, 0", ".text", ".entry  scale4",
   ".regs   16, 16", ".group  1", ".convoy 4", "        SMOVI.N64 s2, lo(table)", "        SMOVH     s2, hi(table)", "        EXIT", ".endentry"]

theorem test_assemble_scale4 :
    assembled scale4 (fun m => m.sections.map fun x => x.bytes.length) = some [36, 16] ∧
    assembled scale4 (fun m => m.entries.map fun e => [e.offset, e.nv, e.ns, e.crews, e.groups, e.shared, e.arrays, e.idem.toNat]) =
      some [[0, 16, 16, 1, 4, 0, 0, 0]] ∧
    assembled scale4 (fun m => m.relocs.map fun r => [r.kind, r.offset, r.sym]) = some [[2, 0, 1], [3, 12, 1]] := by decide +kernel

/-- Its image is read back from its bytes (R39 to R43), and the loaded code moves the address of `table` (R43, R19). -/
theorem test_load_scale4 :
    assembled scale4 (fun m => decide (Object.Image.ofBytes m.toBytes = .ok m)) = some true ∧
    assembled scale4 (fun m => (decodeBytes (m.loaded (fun k => if k = 0 then 0x10000 else 0x123400000040) 0)).toOption.map Prod.fst) =
      some (some (.smovi h0 ⟨false, .s 2, 0x40⟩)) := by decide +kernel

/-- R184's example word. -/
theorem test_assemble_satom : assembled ["SATOM.cas.B128.system.ar s40, s30, zero, s44 +tag=1"] (fun m => m.loaded (fun _ => 0) 0) =
    some [0x9B, 0x84, 0xD6, 0x2B, 0xF4, 0x03, 0xC0, 0x65, 0x0B, 0x00, 0x20, 0x00] := by decide +kernel

/-- R227's example, as `.fmtblock` emits it. -/
theorem test_assemble_fmtblock :
    assembled [".data", "fb0: .fmtblock fmta=0x0D, fmtb=0x0D, bl=32, scfa=1, scfb=1, chk=2, acc=1, klen=1024, mrows=16, saddra=0x8000, saddrb=0x9000"]
      (fun m => ofBytes (m.loaded (fun _ => 0) 1)) = some (0x00008400005055AD + 0x0000900000008000 * 2 ^ 64) := by decide +kernel

/-- R184's word as a line, its suffixes in R33's order; R123's count of bits. -/
theorem test_disassemble : Tamig.disassemble 0x0020000B65C003F42BD6849B = some "satom.cas.b128.system.ar s40, s30, zero, s44 +tag=1" ∧
    Tamig.disassemble (0x17A + 2 * 2 ^ 12 + 4 * 2 ^ 21 + 31 * 2 ^ 39 + 15 * 2 ^ 44) = some "xpart.radix v2, v4, 31, 16" := by decide +kernel

/-- Errors of assembly: a typed instruction without its type (R33), a division by zero (R35), a reserved word (R32). -/
theorem test_assembly_errors : assembled ["SADD s1, s2, s3"] (fun _ => 0) = none ∧ assembled ["SMOVI.N64 s1, 1 / 0"] (fun _ => 0) = none ∧
    assembled ["add: NOP"] (fun _ => 0) = none := by decide +kernel

end Sys2Proof.Machine

end
end

section
/-!
PROOF of GETSR and SETSR (R316), PREEN and PREDIS (R317) and ERRINJ (R329): what the effect of a status instruction finds in the state, how an
effect ends that changes the control or one core, and each instruction's effect.
-/
namespace Sys2Proof.Machine

/-! ### What the effect of an instruction finds -/

theorem issued_core (i : Instr) (s : State) (x : Crew) (g : Nat) : (issued i s x).core g = (useLines s s.cur x i).core g :=
  State.core_updCrew ..

/-- The use of lines changes no other core. -/
theorem useLines_core_ne {i : Instr} {s : State} {x : Crew} (h : linesPresent s x i = true) {g : Nat} (hg : g ≠ x.seat.core) :
    (useLines s s.cur x i).core g = s.core g := by
  obtain ⟨rc, e⟩ := useLines_clean h
  rw [e, State.core_updCore_ne _ _ hg]

/-- In its own core the use of lines changes the register cache only. -/
theorem useLines_core {i : Instr} {s : State} {x : Crew} (h : linesPresent s x i = true) :
    ∃ rc, (useLines s s.cur x i).core x.seat.core = { s.core x.seat.core with rc := rc } := by
  obtain ⟨rc, e⟩ := useLines_clean h
  exact ⟨rc, by rw [e, State.core_updCore_self]⟩

theorem issued_ctr {i : Instr} {s : State} {x : Crew} (h : Ready i s x) :
    ((issued i s x).core x.seat.core).ctr = (s.core x.seat.core).ctr := by
  obtain ⟨rc, e⟩ := useLines_core h.lines
  rw [issued_core, e]

theorem issued_cycle {i : Instr} {s : State} {x : Crew} (h : Ready i s x) : x.cycle (issued i s x) = s.cycle (x.seat.core / 96) := by
  obtain ⟨hnow, -, -, -, -, -, -, -, -, -, -, -, hdies⟩ := (issued_else h).fields
  simp only [Crew.cycle, State.coreCycle, State.cycle, State.die, hnow, hdies]

/-- A scalar source reads what it read before the instruction issued. -/
theorem scalar_issued {i : Instr} {s : State} {x : Crew} (h : Ready i s x) (r : Reg) :
    (issOf i s x).scalar (issued i s x) r = srcS s x r := by
  cases r with
  | clk => exact congrArg (BitVec.ofNat 64) (issued_else h).fields.1
  | _ => rfl

theorem scalarN_issued {i : Instr} {s : State} {x : Crew} (h : Ready i s x) (r : Reg) :
    (issOf i s x).scalarN (issued i s x) r = (srcS s x r).toNat := congrArg BitVec.toNat (scalar_issued h r)

/-- The register cache once the lines of an instruction are used. -/
theorem useLines_rc {i : Instr} {s : State} {x : Crew} (h : linesPresent s x i = true) :
    let used (l : RcLine) : Bool := l.crew == s.cur && (lineNeed x i).contains l.line
    ((useLines s s.cur x i).core x.seat.core).rc = (s.core x.seat.core).rc.filter (fun l => !used l) ++
      ((s.core x.seat.core).rc.filter used).map fun l =>
        { l with
          flip := if l.dirty then l.flip else []
          dirty := l.dirty || (operandLines x.seat x.bank i.operands.dst).contains l.line
          evict := false } := by
  intro used
  have clean : ((s.core x.seat.core).rc.filter used).filter (fun l => !l.flip.isEmpty && !l.dirty) = [] :=
    List.filter_eq_nil_iff.2 fun l hl => by simp [flips_none h hl]
  unfold useLines touchLines
  simp only [used] at clean
  simp only [clean, List.map_nil, List.foldl_nil, List.isEmpty_nil, if_true, State.core_updCore_self, used]

/-- The use of lines neither brings a line nor drops one. -/
theorem hasLine_useLines {i : Instr} {s : State} {x : Crew} (h : linesPresent s x i = true) (n : Nat) :
    hasLine ((useLines s s.cur x i).core x.seat.core) s.cur n = hasLine (s.core x.seat.core) s.cur n := by
  unfold hasLine
  rw [useLines_rc h, Bool.eq_iff_iff]
  simp only [List.any_append, List.any_map, List.any_filter, Bool.or_eq_true, List.any_eq_true, Function.comp_apply, Bool.and_eq_true]
  constructor
  · rintro (⟨l, hl, -, hn⟩ | ⟨l, hl, -, hn⟩) <;> exact ⟨l, hl, hn⟩
  · rintro ⟨l, hl, hn⟩
    cases hu : l.crew == s.cur && (lineNeed x i).contains l.line with
    | true => exact .inr ⟨l, hl, by simpa using hu, hn⟩
    | false => exact .inl ⟨l, hl, by rw [hu]; rfl, hn⟩

/-! ### A reason of the instruction's own -/

/-- With the registers in range, an instruction's own reason is the one raised (R28), in the state as it was. -/
theorem issue_illegal {i : Instr} {s : State} {x : Crew} (h : Clear i s x) {own : Iss → Option Nat} {r : Nat}
    (ho : own (issOf i s x) = some r) (eff : Iss → State → Effect) :
    issue i own eff s = takeTrap s s.cur ⟨0x01, x.ctl.em, BitVec.ofNat 64 r⟩ x.ctl.pc := by
  obtain ⟨hc, ha, hb, hw, hr, -, -⟩ := h
  have reason : dynReason x i (dstRegs i) (own ⟨s.cur, x, i.hdr, x.ctl.pc, dstRegs i⟩) = some r := by
    have ho : own ⟨s.cur, x, i.hdr, x.ctl.pc, dstRegs i⟩ = some r := ho
    by_cases h3 : r = 3 <;> simp [dynReason, ho, hr, h3]
  unfold issue
  simp only [hc, ha, hb, hw, ne_eq, not_true_eq_false, if_false, List.contains_nil, List.filter_false, List.filterMap_nil, commitTags, reason]

/-! ### What YIELD leaves of the cores (R76) -/

theorem core_toReady_ne {s : State} {c g : Nat} {x : Crew} (h : s.crew? c = some x) (hg : g ≠ x.seat.core) :
    (toReady s c).core g = s.core g := by
  simp [toReady, leaveSets, h, hg, State.updSched]

theorem core_toReady {s : State} {c : Nat} {x : Crew} (h : s.crew? c = some x) :
    ∃ d, (toReady s c).core x.seat.core = { s.core x.seat.core with scheds := d } := by
  simp [toReady, leaveSets, h, State.updSched]

theorem core_afterYield_ne {s : State} {c g : Nat} {x : Crew} (h : s.crew? c = some x) (hg : g ≠ x.seat.core) (y : Bool) :
    (afterYield s c y).core g = s.core g := by
  simp only [afterYield, h]
  split
  · exact core_toReady_ne h hg
  · rfl

theorem core_afterYield {s : State} {c : Nat} {x : Crew} (h : s.crew? c = some x) (y : Bool) :
    ∃ d, (afterYield s c y).core x.seat.core = { s.core x.seat.core with scheds := d } := by
  simp only [afterYield, h]
  split
  · exact core_toReady h
  · exact ⟨_, rfl⟩

/-! ### An effect with its tag complete (R89) -/

/-- The tags of crew `z` once the tag that `i` names, if any, is complete with no result. -/
def tagsDone (i : Instr) (z : Crew) : SMap TagRec :=
  if i.hdr.tag = 0 then z.tags else z.tags.insert i.hdr.tag.toNat ⟨none, i.hdr.look.toNat, {}, [], false⟩

theorem tagsDone_ne {i : Instr} (z : Crew) {k : Nat} (h : k ≠ i.hdr.tag.toNat) : (tagsDone i z).find? k = z.tags.find? k := by
  unfold tagsDone
  split
  · rfl
  · exact SMap.find?_insert_ne _ _ h

theorem giveTag_crew {i : Instr} {s a : State} {x z : Crew} (h : a.crew? s.cur = some z) :
    (giveTag (issOf i s x) a).crew? s.cur = some { z with tags := tagsDone i z } := by
  by_cases ht : i.hdr.tag = 0
  · simp only [giveTag, tagsDone, issOf, ht, if_true, h]
  · simp only [giveTag, tagsDone, issOf, ht, if_false, State.crew?_updCrew_self, h]; rfl

theorem elsewhere_giveTag (i : Instr) (s a : State) (x : Crew) : Elsewhere s.cur a (giveTag (issOf i s x) a) := by
  unfold giveTag
  split
  · exact Elsewhere.refl _ _
  · exact elsewhere_updCrew _ _ _

theorem giveTag_core (i : Iss) (a : State) (g : Nat) : (giveTag i a).core g = a.core g := by
  unfold giveTag
  split <;> simp

/-- The crew `z` an effect leaves, after its instruction: its tag is complete, and it is READY with YIELD (R76). -/
def wentOn (i : Instr) (z : Crew) : Crew :=
  { z with
    tags := tagsDone i z
    state := if i.hdr.yield then .ready else .active
    wait := if i.hdr.yield then .none else z.wait }

/-- What goes on from the crew as the effect finds it keeps all but its tag. -/
theorem wentOn_kept {i : Instr} {s : State} {x z : Crew} (htr : z.tr = x.tr) (hsq : z.sq = x.sq) (hreq : z.req = x.req) (hseat : z.seat = x.seat)
    (htags : z.tags = (issuedCrew s x).tags) : CrewKept i x (wentOn i z) :=
  ⟨htr, hsq, hreq, hseat, rfl, fun k hk => (tagsDone_ne z hk).trans (by rw [htags]; exact issuedCrew_tags s x k)⟩

theorem exec_giveTag {i : Instr} {s a : State} {x z : Crew} (h : Ready i s x) {own : Iss → Option Nat} (ho : own (issOf i s x) = none)
    {eff : Iss → State → Effect} (he : exec i s = .next (issue i own eff s))
    (hd : eff (issOf i s x) (issued i s x) = .done (giveTag (issOf i s x) a)) (hz : a.crew? s.cur = some z) (ha : z.state = .active) :
    ∃ t, exec i s = .next t ∧ t.crew? s.cur = some (wentOn i z) ∧ Elsewhere s.cur a t ∧ (∀ g, g ≠ z.seat.core → t.core g = a.core g) ∧
      ∃ d, t.core z.seat.core = { a.core z.seat.core with scheds := d } := by
  have hg := giveTag_crew (i := i) (x := x) hz
  refine ⟨afterYield (giveTag (issOf i s x) a) s.cur i.hdr.yield, by rw [he, issue_ready h ho, hd], crew?_afterYield hg ha _,
    (elsewhere_giveTag i s a x).trans (elsewhere_afterYield _ _ _), fun g hne => ?_, ?_⟩
  · rw [core_afterYield_ne hg hne, giveTag_core]
  · rw [← giveTag_core (issOf i s x) a]; exact core_afterYield hg _

/-! ### A change in the crew's core -/

/-- The instruction is done, its crew goes on, and of all else only the crew's own core differs, of which `p` speaks. -/
def DoneInCore (i : Instr) (s : State) (x : Crew) (p : State → Prop) : Prop :=
  ∃ t y, exec i s = .next t ∧ t.crew? s.cur = some y ∧ y.rf = x.rf ∧ y.ctl = nextPc x ∧ CrewKept i x y ∧
    { t with crews := s.crews, cores := s.cores } = s ∧ (∀ c, c ≠ s.cur → t.crew? c = s.crew? c) ∧
    (∀ g, g ≠ x.seat.core → t.core g = s.core g) ∧ p t

theorem doneInCore_of {i : Instr} {s : State} {x : Crew} (h : Ready i s x) {own : Iss → Option Nat} (ho : own (issOf i s x) = none)
    {eff : Iss → State → Effect} (he : exec i s = .next (issue i own eff s)) {f : Core → Core}
    (hd : eff (issOf i s x) (issued i s x) = .done (giveTag (issOf i s x) ((issued i s x).updCore x.seat.core f))) {p : State → Prop}
    (hp : ∀ t d, t.core x.seat.core = { f ((useLines s s.cur x i).core x.seat.core) with scheds := d } → p t) : DoneInCore i s x p := by
  obtain ⟨t, hrun, hcrew, helse, hne, d, hself⟩ := exec_giveTag (z := issuedCrew s x) h ho he hd (issued_crew h) h.1.2.1
  have hi := issued_else h
  refine ⟨t, _, hrun, hcrew, rfl, rfl, wentOn_kept rfl rfl rfl rfl rfl, ?_, fun c hc => (helse.crews c hc).trans (hi.crews c hc),
    fun g hg => ?_, hp t d ?_⟩
  · calc { t with crews := s.crews, cores := s.cores }
        = { ({ t with crews := (issued i s x).crews, cores := ((issued i s x).updCore x.seat.core f).cores } : State) with
            crews := s.crews, cores := s.cores } := rfl
      _ = { (issued i s x).updCore x.seat.core f with crews := s.crews, cores := s.cores } :=
          congrArg (fun u : State => { u with crews := s.crews, cores := s.cores }) helse.tables
      _ = s := hi.tables
  · rw [hne g hg, State.core_updCore_ne _ _ hg, issued_core, useLines_core_ne h.lines hg]
  · have e : t.core x.seat.core = { ((issued i s x).updCore x.seat.core f).core x.seat.core with scheds := d } := hself
    rw [e, State.core_updCore_self, issued_core]

/-- A change of one array of the crew's core. -/
theorem doneInCore_arr {i : Instr} {s : State} {x : Crew} (h : Ready i s x) {own : Iss → Option Nat} (ho : own (issOf i s x) = none)
    {eff : Iss → State → Effect} (he : exec i s = .next (issue i own eff s)) {a : Nat} {f : Arr → Arr}
    (hd : eff (issOf i s x) (issued i s x) = .done (giveTag (issOf i s x) ((issued i s x).updArr x.seat.core a f))) :
    DoneInCore i s x fun t => t.arr x.seat.core a = f (s.arr x.seat.core a) ∧ ∀ b, b ≠ a → t.arr x.seat.core b = s.arr x.seat.core b := by
  obtain ⟨rc, e⟩ := useLines_core h.lines
  refine doneInCore_of h ho he hd fun t d ht => ?_
  simp only [State.arr, ht, e]
  exact ⟨SMap.getD_setD_self .., fun b hb => SMap.getD_setD_ne _ _ _ hb⟩

/-! ### A short result with a change of the control -/

/-- The short result `w` (R89), with the crew's control left as `ctl`. -/
def GivesCtl (i : Instr) (s : State) (x : Crew) (w : Held) (ctl : Control) : Prop :=
  if i.hdr.tag = 0 then Ends i s x (w.regs.foldl RegFile.put x.rf) ctl none else Ends i s x x.rf ctl (some ⟨none, i.hdr.look.toNat, w, dstRegs i, false⟩)

theorem givesCtl_of {i : Instr} {s : State} {x : Crew} (h : Ready i s x) {own : Iss → Option Nat} (ho : own (issOf i s x) = none)
    {eff : Iss → State → Effect} (he : exec i s = .next (issue i own eff s)) {w : Held} (hw : w.fp = 0) {f : Control → Control}
    (hd : eff (issOf i s x) (issued i s x) =
      .done (giveShort (issOf i s x) ((issued i s x).updCrew s.cur fun z => { z with ctl := f z.ctl }) w)) :
    GivesCtl i s x w (f (nextPc x)) := by
  let z : Crew := { issuedCrew s x with ctl := f (nextPc x) }
  have hz : ((issued i s x).updCrew s.cur fun z => { z with ctl := f z.ctl }).crew? s.cur = some z := by
    rw [State.crew?_updCrew_self, issued_crew h]; rfl
  have hk := issuedCrew_kept h
  unfold GivesCtl
  unfold giveShort at hd
  split
  · next ht =>
    simp only [issOf, ht, if_true] at hd
    refine ends_of_done (y := { w.regs.foldl Crew.put z with ctl := { z.ctl with fpst := z.ctl.fpst ||| w.fp } }) h ho he
      (by simpa only [issOf] using hd) (((elsewhere_updCrew _ _ _).trans (elsewhere_updCrew _ _ _)).trans (elsewhere_stale _ _ _ _))
      ?_ ?_ ?_ (by simp) ?_ fun k _ => ?_
    · rw [crew?_staleTiles, State.crew?_updCrew_self, hz, foldl_put_rf]; simp [foldl_put_rf, z]
    · rw [foldl_put_rf]; rfl
    · simp [hw, z]
    · rw [foldl_put_rf]; exact hk
    · rw [foldl_put_rf]; exact issuedCrew_tags s x k
  · next ht =>
    simp only [issOf, ht, if_false] at hd
    refine ends_of_done (y := allocTag z i.hdr.tag.toNat ⟨none, i.hdr.look.toNat, w, dstRegs i, false⟩) h ho he
      (by simpa only [issOf] using hd) ((elsewhere_updCrew _ _ _).trans (elsewhere_updCrew _ _ _))
      (by rw [State.crew?_updCrew_self, hz]; rfl) rfl rfl ?_ hk fun k hne => ?_
    · rintro r ⟨⟩ _; exact allocTag_find_self _ _ _
    · rw [allocTag_find_ne _ _ hne]; exact issuedCrew_tags s x k

theorem heldScalar_fp (b : Bool) (d : Reg) (v : DWord) : (heldScalar b d v).fp = 0 := by
  unfold heldScalar
  split <;> rfl

/-! ### The halves of a mask register and packed fields -/

/-- Half `k` of a mask. -/
def maskPart (m : Mask) (k : Nat) : Nat := m.toNat / 2 ^ (64 * k) % 2 ^ 64

/-- A mask with half `k` replaced by the low 64 bits of `v`. -/
def putPart (m : Mask) (k v : Nat) : Mask :=
  BitVec.ofNat 128 (if k = 0 then maskPart m 1 * 2 ^ 64 + v % 2 ^ 64 else v % 2 ^ 64 * 2 ^ 64 + maskPart m 0)

theorem maskPart_zero (m : Mask) : maskPart m 0 = m.toNat % 2 ^ 64 := by simp [maskPart]

/-- The high half fits in 64 bits. -/
theorem maskPart_one (m : Mask) : maskPart m 1 = m.toNat / 2 ^ 64 :=
  Nat.mod_eq_of_lt (Nat.div_lt_of_lt_mul m.isLt)

theorem maskHalf_eq (m : Mask) (high : Bool) : maskHalf m high = maskPart m high.toNat := by
  cases high
  · exact (maskPart_zero m).symm
  · exact (maskPart_one m).symm

theorem setHalf_eq (m : Mask) (high : Bool) (v : Nat) : setHalf m high v = putPart m high.toNat v := by
  cases high
  · simp [setHalf, putPart, maskPart_one]
  · simp [setHalf, putPart, maskPart_zero]

/-- `n` packed fields of one width are the sum of the fields at their places. -/
theorem packFields_range (w n : Nat) (f : Nat → Nat) :
    packFields ((List.range n).map fun j => (w, f j)) = ((List.range n).map fun j => f j % 2 ^ w * 2 ^ (w * j)).sum := by
  induction n generalizing f with
  | zero => rfl
  | succ n ih =>
    have shift (j : Nat) : f (j + 1) % 2 ^ w * 2 ^ (w * (j + 1)) = 2 ^ w * (f (j + 1) % 2 ^ w * 2 ^ (w * j)) := by ring
    simp only [List.range_succ_eq_map, List.map_cons, List.map_map, Function.comp_def, Nat.succ_eq_add_one, packFields, ih fun j => f (j + 1),
      List.sum_cons, shift, List.sum_map_mul_left, Nat.mul_zero, Nat.pow_zero, Nat.mul_one]

/-! ### GETSR (R316) -/

/-- What a status register reads is not changed by the instruction's issue. -/
theorem readStatus_issued {i : Instr} {s : State} {x : Crew} (h : Ready i s x) (r : SReg) :
    readStatus (issOf i s x) (issued i s x) r = readStatus (issOf i s x) s r := by
  obtain ⟨hnow, -, -, -, -, -, hctxs, hlaunches, -, -, -, -, hdies⟩ := (issued_else h).fields
  have hctr := issued_ctr h
  simp only [readStatus, builtPosition, Crew.cycle, State.coreCycle, State.cycle, State.die, State.launch?, State.ctx?, issOf, hnow, hctxs,
    hlaunches, hdies, hctr]

theorem getsr_gives {h : Hdr} {o : GetSr} {s : State} {x : Crew} (hr : Ready (.getsr h o) s x) {n : Nat}
    (hn : readStatus (issOf (.getsr h o) s x) s o.reg = n) : Gives (.getsr h o) s x (resS x o.d (BitVec.ofNat 64 n)) :=
  gives_of hr (own := noReason) rfl rfl (by rw [← hn, ← readStatus_issued hr]; rfl)

/-- A word of CLMAP: eight built positions of five bits. -/
theorem clmap_word (s : State) (d n : Nat) : packFields ((List.range 8).map fun j => (5, builtPosition s d (8 * n + j))) =
    ((List.range 8).map fun j => (s.die d).clmap.getD (8 * n + j) (8 * n + j) % 32 * 2 ^ (5 * j)).sum :=
  packFields_range 5 8 fun j => builtPosition s d (8 * n + j)

/-- CTAG shows the system LEVEL in bit 10. -/
theorem readStatus_ctag (i : Iss) (s : State) : readStatus i s .ctag =
    i.x.seat.tag % 256 + (((s.ctx? i.x.seat.tag).map fun c => c.desc.cls % 4 * 2 ^ 8 + if c.desc.system then 2 ^ 10 else 0).getD 0) := by
  have bit (b : Bool) : b.toNat * 2 ^ 10 = if b then 2 ^ 10 else 0 := by cases b <;> rfl
  simp only [readStatus, bit]

/-! ### SETSR (R316) -/

theorem setsr_sets {h : Hdr} {o : SetSr} {s : State} {x : Crew} (hr : Ready (.setsr h o) s x) {f : Nat → Control → Control}
    (hn : setsrReason s o.reg (issOf (.setsr h o) s x) = none)
    (hw : ∀ i t v, writeStatus i t o.reg v = t.updCrew i.c fun z => { z with ctl := f v z.ctl }) :
    Sets (.setsr h o) s x x.rf (f (srcS s x o.a).toNat (nextPc x)) :=
  sets_of hr hn rfl (f := fun z => { z with ctl := f (srcS s x o.a).toNat z.ctl })
    (congrArg (fun t => Effect.done (giveTag _ t)) (by rw [hw, scalarN_issued hr]; rfl)) rfl

theorem setsr_tem_outside {h : Hdr} {o : SetSr} {s : State} {x : Crew} (hr : Ready (.setsr h o) s x) (hreg : o.reg = .tem0 ∨ o.reg = .tem1)
    (hm : x.ctl.hmode = false) :
    exec (.setsr h o) s = .next (takeTrap s s.cur ⟨0x01, x.ctl.em, BitVec.ofNat 64 3⟩ x.ctl.pc) := by
  have ho : setsrReason s o.reg (issOf (.setsr h o) s x) = some 3 := by simp [setsrReason, issOf, hreg, hm]
  exact congrArg _ (issue_illegal hr.1 ho _)

/-- The crew with half `high` of its TEM replaced. -/
def putTem (high : Bool) (v : Nat) (z : Crew) : Crew := { z with tr := { z.tr with tem := setHalf z.tr.tem high v } }

theorem setsr_tem_handler {h : Hdr} {o : SetSr} {s : State} {x : Crew} (hr : Ready (.setsr h o) s x) {high : Bool}
    (hreg : o.reg = if high then .tem1 else .tem0) (hm : x.ctl.hmode = true) :
    ∃ t y, exec (.setsr h o) s = .next t ∧ t.crew? s.cur = some y ∧ y.rf = x.rf ∧ y.ctl = nextPc x ∧
      y.tr = { x.tr with tem := putPart x.tr.tem high.toNat (srcS s x o.a).toNat } ∧ CrewKept (.setsr h o) x { y with tr := x.tr } ∧
      Elsewhere s.cur s t := by
  have ho : setsrReason s o.reg (issOf (.setsr h o) s x) = none := by cases high <;> simp [setsrReason, issOf, hreg, hm, isCounter]
  have hd : writeStatus (issOf (.setsr h o) s x) (issued (.setsr h o) s x) o.reg ((issOf (.setsr h o) s x).scalarN (issued (.setsr h o) s x) o.a) =
      (issued (.setsr h o) s x).updCrew s.cur (putTem high (srcS s x o.a).toNat) := by
    rw [scalarN_issued hr, hreg]
    cases high <;> rfl
  have hz : ((issued (.setsr h o) s x).updCrew s.cur (putTem high (srcS s x o.a).toNat)).crew? s.cur =
      some (putTem high (srcS s x o.a).toNat (issuedCrew s x)) := by
    rw [State.crew?_updCrew_self, issued_crew hr]; rfl
  obtain ⟨t, hrun, hcrew, helse, -⟩ := exec_giveTag hr ho rfl (congrArg (fun t => Effect.done (giveTag _ t)) hd) hz hr.1.2.1
  exact ⟨t, _, hrun, hcrew, rfl, rfl, by rw [← setHalf_eq]; rfl, wentOn_kept (z := issuedCrew s x) rfl rfl rfl rfl rfl,
    ((issued_else hr).trans (elsewhere_updCrew _ _ _)).trans helse⟩

/-- The context is at system LEVEL. -/
def SystemCtx (s : State) (x : Crew) : Prop := ∃ c, s.ctx? x.seat.tag = some c ∧ c.desc.system = true

theorem isSystem_iff (i : Instr) (s : State) (x : Crew) : isSystem s (issOf i s x) = true ↔ SystemCtx s x := Option.any_eq_true ..

/-- A write of a counter of the core is privileged, and changes that counter alone. -/
theorem setsr_counter {h : Hdr} {o : SetSr} {s : State} {x : Crew} (hr : Ready (.setsr h o) s x) (hc : isCounter o.reg = true)
    {f : Nat → Counters → Counters} (hw : ∀ i t v, writeStatus i t o.reg v = t.updCtr i.g (f (v % 2 ^ 32))) :
    (¬SystemCtx s x → exec (.setsr h o) s = .next (takeTrap s s.cur ⟨0x01, x.ctl.em, BitVec.ofNat 64 10⟩ x.ctl.pc)) ∧
    (SystemCtx s x → DoneInCore (.setsr h o) s x fun t =>
      (t.core x.seat.core).ctr = f ((srcS s x o.a).toNat % 2 ^ 32) (s.core x.seat.core).ctr ∧
      { t.core x.seat.core with
        ctr := (s.core x.seat.core).ctr
        scheds := (s.core x.seat.core).scheds
        rc := (s.core x.seat.core).rc } = s.core x.seat.core) := by
  have ht : ¬(o.reg = .tem0 ∨ o.reg = .tem1) := by rintro (e | e) <;> simp [e, isCounter] at hc
  have reason : setsrReason s o.reg (issOf (.setsr h o) s x) = if isSystem s (issOf (.setsr h o) s x) then none else some 10 := by
    unfold setsrReason
    rw [if_neg fun e => ht e.1, hc]
    cases isSystem s (issOf (.setsr h o) s x) <;> rfl
  rw [← isSystem_iff (.setsr h o)]
  constructor <;> intro hs
  · exact congrArg _ (issue_illegal hr.1 (reason.trans (if_neg hs)) _)
  · obtain ⟨rc, e⟩ := useLines_core hr.lines
    refine doneInCore_of hr (reason.trans (if_pos hs)) rfl (f := fun k => { k with ctr := f ((srcS s x o.a).toNat % 2 ^ 32) k.ctr })
      (congrArg (fun t => Effect.done (giveTag _ t)) (by rw [hw, scalarN_issued hr]; rfl)) fun t d hcore => ?_
    rw [hcore, e]
    exact ⟨rfl, rfl⟩

/-! ### PREDIS and PREEN (R317) -/

theorem predis_free {h : Hdr} {o : Dst} {s : State} {x : Crew} (hr : Ready (.predis h o) s x) (hp : x.ctl.pdrem = none) (hq : x.req.pre = false) :
    GivesCtl (.predis h o) s x (resS x o.d 1)
      { nextPc x with pdrem := some (s.cycle (x.seat.core / 96) + 87500), pdpc := x.ctl.pc } := by
  refine givesCtl_of hr (own := noReason) rfl rfl (heldScalar_fp ..)
    (f := fun k => { k with pdrem := some (s.cycle (x.seat.core / 96) + 87500), pdpc := x.ctl.pc }) ?_
  rw [← issued_cycle hr]
  simp [issOf, hp, hq]
  rfl

theorem predis_taken {h : Hdr} {o : Dst} {s : State} {x : Crew} (hr : Ready (.predis h o) s x) (hn : ¬(x.ctl.pdrem = none ∧ x.req.pre = false)) :
    Gives (.predis h o) s x (resS x o.d 0) := by
  have ok : (x.ctl.pdrem.isNone && !x.req.pre) = false := by simpa using hn
  refine gives_of hr (own := noReason) rfl rfl ?_
  simp only [issOf, ok]
  rfl

theorem preen_gives {h : Hdr} {o : Dst} {s : State} {x : Crew} (hr : Ready (.preen h o) s x) :
    GivesCtl (.preen h o) s x (resS x o.d (if x.ctl.pdrem = none then 0 else 1)) { nextPc x with pdrem := none } := by
  refine givesCtl_of hr (own := noReason) rfl rfl (heldScalar_fp ..) (f := fun k => { k with pdrem := none }) ?_
  cases hp : x.ctl.pdrem <;> simp [issOf, hp] <;> rfl

/-! ### ERRINJ (R329) -/

theorem userReason_user {i : Instr} {s : State} {x : Crew} (hs : ¬SystemCtx s x) : userReason s (issOf i s x) = some 10 := by
  simp [userReason, mt (isSystem_iff i s x).1 hs]

theorem userReason_system {i : Instr} {s : State} {x : Crew} (hs : SystemCtx s x) : userReason s (issOf i s x) = none := by
  simp [userReason, (isSystem_iff i s x).2 hs]

theorem errinj_user {h : Hdr} {o : ErrInj} {s : State} {x : Crew} {i : Instr} (hi : i ∈ [Instr.errinjCell h o, .errinjPass h o, .errinjRcl h o])
    (hr : Ready i s x) (hs : ¬SystemCtx s x) :
    exec i s = .next (takeTrap s s.cur ⟨0x01, x.ctl.em, BitVec.ofNat 64 10⟩ x.ctl.pc) := by
  have raised (eff : Iss → State → Effect) : Host.Outcome.next (issue i (userReason s) eff s) = _ :=
    congrArg (Host.Outcome.next (φ := Fault) (ρ := Refusal)) (issue_illegal hr.1 (userReason_user hs) eff)
  simp only [List.mem_cons, List.not_mem_nil, or_false] at hi
  rcases hi with rfl | rfl | rfl <;> exact raised _

theorem injectHeld_issued {i : Instr} {s : State} {x : Crew} (h : Ready i s x) {gr : Group} (hg : s.group? x.seat.group = some gr) (a : Nat) :
    injectHeld (issOf i s x) (issued i s x) a = true ↔ a ≤ 23 ∧ gr.holds a = true := by
  obtain ⟨-, -, -, -, -, -, -, -, hgroups, -⟩ := (issued_else h).fields
  simp only [injectHeld, issOf, State.group?, hgroups]
  rw [show SMap.find? s.groups x.seat.group = some gr from hg]
  simp

theorem errinj_not_held {h : Hdr} {o : ErrInj} {s : State} {x : Crew} {i : Instr} (hi : i ∈ [Instr.errinjCell h o, .errinjPass h o])
    (hr : Ready i s x) (hs : SystemCtx s x) {gr : Group} (hg : s.group? x.seat.group = some gr)
    (hn : ¬((srcS s x o.a).toNat % 32 ≤ 23 ∧ gr.holds ((srcS s x o.a).toNat % 32) = true)) :
    Traps i s x ⟨0x04, x.ctl.em, BitVec.ofNat 64 ((srcS s x o.a).toNat % 32)⟩ := by
  rw [← injectHeld_issued hr hg, ← scalarN_issued hr, Bool.not_eq_true] at hn
  rw [← scalarN_issued hr]
  simp only [List.mem_cons, List.not_mem_nil, or_false] at hi
  rcases hi with rfl | rfl <;> exact traps_of hr (userReason_system hs) rfl (by simp only [injectCell, hn]; rfl)

/-- The bits recorded as inverted, after one more inversion of bit `b`. -/
def toggled (l : List Nat) (b : Nat) : List Nat := if b ∈ l then l.filter (· ≠ b) else b :: l

theorem errinjCell_held {h : Hdr} {o : ErrInj} {s : State} {x : Crew} (hr : Ready (.errinjCell h o) s x) (hs : SystemCtx s x) {gr : Group}
    (hg : s.group? x.seat.group = some gr) {v : Nat} (hv : (srcS s x o.a).toNat = v) (hh : v % 32 ≤ 23 ∧ gr.holds (v % 32) = true) :
    DoneInCore (.errinjCell h o) s x fun t =>
      t.arr x.seat.core (v % 32) = { s.arr x.seat.core (v % 32) with
        flips := toggled (s.arr x.seat.core (v % 32)).flips (2048 * bits v 25 16 + bits v 42 32) } ∧
      ∀ b, b ≠ v % 32 → t.arr x.seat.core b = s.arr x.seat.core b := by
  rw [← injectHeld_issued hr hg] at hh
  refine doneInCore_arr hr (userReason_system hs) rfl
    (f := fun r => { r with flips := toggled r.flips (2048 * bits v 25 16 + bits v 42 32) }) ?_
  simp only [scalarN_issued hr, hv, injectCell, hh, List.contains_iff_mem]
  rfl

theorem errinjPass_held {h : Hdr} {o : ErrInj} {s : State} {x : Crew} (hr : Ready (.errinjPass h o) s x) (hs : SystemCtx s x) {gr : Group}
    (hg : s.group? x.seat.group = some gr) {v w : Nat} (hv : (srcS s x o.a).toNat = v) (hw : (srcS s x o.b).toNat = w)
    (hh : v % 32 ≤ 23 ∧ gr.holds (v % 32) = true) :
    DoneInCore (.errinjPass h o) s x fun t =>
      t.arr x.seat.core (v % 32) =
        { s.arr x.seat.core (v % 32) with pass := some (bits v 25 16, bits v 42 32, w % 32, bits w 12 8) } ∧
      ∀ b, b ≠ v % 32 → t.arr x.seat.core b = s.arr x.seat.core b := by
  rw [← injectHeld_issued hr hg] at hh
  refine doneInCore_arr hr (userReason_system hs) rfl
    (f := fun r => { r with pass := some (bits v 25 16, bits v 42 32, w % 32, bits w 12 8) }) ?_
  simp only [scalarN_issued hr, hv, hw, injectCell, hh]
  rfl

/-- An ERRINJ of a register-cache line within the crew's registers (R329): absent, the line is waited for; present, one bit of it is inverted. -/
theorem errinjRcl_line {h : Hdr} {o : ErrInj} {s : State} {x : Crew} (hr : Ready (.errinjRcl h o) s x) (hs : SystemCtx s x) {v n : Nat}
    (hv : (srcS s x o.a).toNat = v) (hn : injectLine (issOf (.errinjRcl h o) s x) (v % 512) = some n) :
    (hasLine (s.core x.seat.core) s.cur n = false → exec (.errinjRcl h o) s =
      .next (toWaiting (useLines s s.cur x (.errinjRcl h o)) s.cur (.lines (n :: lineNeed x (.errinjRcl h o))))) ∧
    (hasLine (s.core x.seat.core) s.cur n = true → DoneInCore (.errinjRcl h o) s x fun t =>
      (t.core x.seat.core).rc = ((useLines s s.cur x (.errinjRcl h o)).core x.seat.core).rc.map fun l =>
        if l.crew = s.cur ∧ l.line = n then { l with flip := toggled l.flip (bits v 27 16) } else l) := by
  have own := userReason_system (i := .errinjRcl h o) hs
  have here : hasLine ((issued (.errinjRcl h o) s x).core (issOf (.errinjRcl h o) s x).g) (issOf (.errinjRcl h o) s x).c n =
      hasLine (s.core x.seat.core) s.cur n := by
    rw [issued_core]
    exact hasLine_useLines hr.lines n
  constructor
  · intro hl
    show Host.Outcome.next (issue _ _ _ _) = _
    rw [issue_ready hr own]
    simp only [scalarN_issued hr, hv, hn, here, hl]
    rfl
  · intro hl
    refine doneInCore_of hr own rfl (f := fun k => { k with rc := k.rc.map fun l =>
      if l.crew = s.cur ∧ l.line = n then { l with flip := toggled l.flip (bits v 27 16) } else l }) ?_ fun t d ht => by rw [ht]
    simp only [scalarN_issued hr, hv, hn, here, hl, List.contains_iff_mem]
    rfl

theorem errinjRcl_outside {h : Hdr} {o : ErrInj} {s : State} {x : Crew} (hr : Ready (.errinjRcl h o) s x) (hs : SystemCtx s x) {v : Nat}
    (hv : (srcS s x o.a).toNat = v) (hn : injectLine (issOf (.errinjRcl h o) s x) (v % 512) = none) :
    Traps (.errinjRcl h o) s x ⟨0x04, x.ctl.em, BitVec.ofNat 64 (v % 512)⟩ :=
  traps_of hr (userReason_system hs) rfl (by simp only [scalarN_issued hr, hv, hn]; rfl)

/-- A register field beyond the crew's counts names no line. -/
theorem injectLine_none {i : Iss} {f : Nat}
    (h : (f < 320 ∧ i.x.seat.nv ≤ f) ∨ 448 ≤ f ∨ (320 ≤ f ∧ i.x.seat.ns ≤ f - 320)) : injectLine i f = none := by
  unfold injectLine
  split
  · exact if_neg (by omega)
  · exact if_neg (by omega)

theorem injectLine_vector {i : Iss} {f : Nat} (h : f < 320) (hn : f < i.x.seat.nv) : injectLine i f = some (vLine i.x.seat i.bank f) := by
  simp [injectLine, h, hn]

theorem injectLine_scalar {i : Iss} {f : Nat} (h : 320 ≤ f) (hf : f - 320 < 128) (hn : f - 320 < i.x.seat.ns) :
    injectLine i f = some (sLine i.x.seat i.bank (f - 320)) := by
  simp [injectLine, Nat.not_lt.2 h, hf, hn]

/-! ### The statement -/

/-- Settles O54: each instruction of the family by its own lemma above. -/
theorem statusAndInjection : Obligations.StatusAndInjection := by
  unfold Obligations.StatusAndInjection
  refine ⟨?getsr, ?setsr, fun h o s x hr => ⟨fun hf => predis_free hr hf.1 hf.2, predis_taken hr⟩, fun h o s x hr => preen_gives hr,
    fun h o s x i hi hr hs => errinj_user hi hr hs, ?array, ?line⟩
  case getsr =>
    intro h ⟨d, reg⟩ s x hr
    cases reg with
    | clmap0 => exact getsr_gives hr (clmap_word s _ 0)
    | clmap1 => exact getsr_gives hr (clmap_word s _ 1)
    | clmap2 => exact getsr_gives hr (clmap_word s _ 2)
    | mbusy0 | tlanes0 | tem0 => exact getsr_gives hr (maskHalf_eq _ false)
    | mbusy1 | tlanes1 | tem1 => exact getsr_gives hr (maskHalf_eq _ true)
    | ctag => exact getsr_gives hr (readStatus_ctag _ _)
    | _ => exact getsr_gives hr rfl
  case setsr =>
    intro h ⟨reg, a⟩ s x hr
    refine ⟨?_, ?_, ?_, ?_, ?_, ?_, ?_, ?_, ?_, ?_, ?_⟩ <;> rintro rfl
    · exact setsr_sets hr (f := fun v k => { k with fpst := BitVec.ofNat 32 (v % 2 ^ 11) }) rfl fun _ _ _ => rfl
    · exact setsr_sets hr (f := fun v k => { k with mbusy := putPart k.mbusy 0 v }) rfl fun _ _ _ => by simp only [writeStatus, setHalf_eq]; rfl
    · exact setsr_sets hr (f := fun v k => { k with mbusy := putPart k.mbusy 1 v }) rfl fun _ _ _ => by simp only [writeStatus, setHalf_eq]; rfl
    · exact ⟨setsr_tem_outside hr (.inl rfl), setsr_tem_handler hr (high := false) rfl⟩
    · exact ⟨setsr_tem_outside hr (.inr rfl), setsr_tem_handler hr (high := true) rfl⟩
    · exact setsr_counter hr rfl (f := fun n k => { k with ckcor := n }) fun _ _ _ => rfl
    · exact setsr_counter hr rfl (f := fun n k => { k with ckrep := n }) fun _ _ _ => rfl
    · exact setsr_counter hr rfl (f := fun n k => { k with ckfail := n }) fun _ _ _ => rfl
    · exact setsr_counter hr rfl (f := fun n k => { k with rccor := n }) fun _ _ _ => rfl
    · exact setsr_counter hr rfl (f := fun n k => { k with smcor := n }) fun _ _ _ => rfl
    · exact setsr_counter hr rfl (f := fun n k => { k with tmrep := n }) fun _ _ _ => rfl
  case array =>
    intro h o s x gr hs hg
    exact ⟨fun i hi hr hn => errinj_not_held hi hr hs hg hn, fun hh hr => errinjCell_held hr hs hg rfl hh,
      fun hh hr => errinjPass_held hr hs hg rfl rfl hh⟩
  case line =>
    intro h o s x hr hs
    exact ⟨fun hf hn => errinjRcl_line hr hs rfl (injectLine_vector hf hn),
      fun hl hf hn => errinjRcl_line hr hs rfl (injectLine_scalar hl hf hn),
      fun hout => errinjRcl_outside hr hs rfl (injectLine_none hout)⟩

end Sys2Proof.Machine
end

section
/-!
PROOF of what a word comes to: the manual's worked words, the fetch of a word (R14), what the decoder refuses (R28), and the step that a word
or an outside party's turn is (R13).
-/
namespace Sys2Proof

/-! ### Bytes in a number (R9) -/

theorem testBit_ofBytes (l : List Byte) {j i : Nat} (hj : j < l.length) (hi : i < 8) : (ofBytes l).testBit (8 * j + i) = l[j].getLsbD i := by
  induction l generalizing j with
  | nil => simp at hj
  | cons b t ih =>
    have e : ofBytes (b :: t) = 2 ^ 8 * ofBytes t + b.toNat := Nat.add_comm ..
    rw [e, Nat.testBit_two_pow_mul_add _ b.isLt]
    cases j with
    | zero => simp [hi, BitVec.testBit_toNat]
    | succ j =>
      rw [if_neg (by omega), show 8 * (j + 1) + i - 8 = 8 * j + i by omega]
      exact ih (by simpa using hj)

/-- Byte `j` of a word of at least `j + 1` bytes. -/
theorem extractLsb'_ofBytes (l : List Byte) {n j : Nat} (hj : j < l.length) (hn : 8 * l.length ≤ n) :
    (BitVec.ofNat n (ofBytes l)).extractLsb' (8 * j) 8 = l[j] := by
  refine BitVec.eq_of_getLsbD_eq fun i hi => ?_
  have hlt : 8 * j + i < n := by omega
  simp only [BitVec.getLsbD_extractLsb', BitVec.getLsbD_ofNat, hi, hlt, testBit_ofBytes l hj hi, decide_true, Bool.true_and]

/-! ### The decoder's reasons (R28) -/

theorem shapeReason_bounds {i : Instr} {r : Nat} (h : i.shapeReason = some r) : 5 ≤ r ∧ r ≤ 7 := by
  unfold Instr.shapeReason at h
  dsimp only at h
  split at h
  · cases h; decide
  split at h
  · cases h; decide
  split at h
  · cases h; decide
  · cases h

/-- Without a form a word has reason 1; with one, a reason from 2 to 7. -/
theorem decodeWord_error {w : Word96} {r : Nat} (h : decodeWord w = .error r) :
    ((fieldsOf w).form = none ∧ r = 1) ∨ ((fieldsOf w).form ≠ none ∧ 2 ≤ r ∧ r ≤ 7) := by
  unfold decodeWord at h
  dsimp only at h
  split at h
  · next hf => cases h; exact .inl ⟨hf, rfl⟩
  · next m hf =>
    refine .inr ⟨by simp [hf], ?_⟩
    split at h
    · cases h; decide
    split at h
    · cases h; decide
    split at h
    · cases h; decide
    split at h
    · next q hq =>
      cases h
      have := shapeReason_bounds hq
      omega
    · cases h

end Sys2Proof

namespace Sys2Proof.Machine

/-- Settles O60: each of the equations is closed, and the decoder evaluates to it. -/
theorem workedWordsDecode : Obligations.WorkedWordsDecode := by
  unfold Obligations.WorkedWordsDecode
  decide +kernel

/-! ### Fetch (R14) -/

/-- The address of byte `j` of a word at `pc`, where the page of `pc` has its frame at `pa` and that of `pc + 8` at `pb`. -/
def codeByte (pc pa pb j : Nat) : Nat := if (pc + j) / 65536 = pc / 65536 then pa + j else pb + j - 8

/-- With both its pages mapped and no byte out of reach, a word is fetched from the frames of its bytes. -/
theorem fetch_word {s : State} {x : Crew} {pa pb : Nat} {m m' : MapKind} (ha : translate s x.seat.core x.seat.tag x.ctl.pc.toNat .exec = .ok pa m)
    (hb : translate s x.seat.core x.seat.tag ((x.ctl.pc.toNat + 8) % 2 ^ 64) .exec = .ok pb m')
    (hok : ∀ j < 12, s.mem.badLine (lineOf (codeByte x.ctl.pc.toNat pa pb j)) = false ∧
      pathDown s x.seat.core (codeByte x.ctl.pc.toNat pa pb j) = false) :
    fetch s x = .word (BitVec.ofNat 96 (ofBytes ((List.range 12).map fun j => s.mem.read (codeByte x.ctl.pc.toNat pa pb j)))) := by
  have clear : ((List.range 12).map (codeByte x.ctl.pc.toNat pa pb)).any
      (fun a => s.mem.badLine (lineOf a) || pathDown s x.seat.core a) = false := by
    simp only [List.any_eq_false, List.mem_map, List.mem_range]
    rintro _ ⟨j, hj, rfl⟩
    simp [hok j hj]
  unfold codeByte at clear
  simp only [fetch, ha, hb, clear, Bool.false_eq_true, if_false, List.map_map]
  rfl

/-! ### The step -/

theorem exec_notAnInstruction (w : Word96) (s : State) : exec (.notAnInstruction w) s = execNotAnInstruction w s := rfl

section
variable {s : State} {c : Nat} {x : Crew} {w : Word96} (hc : ({ s with cur := c, turn := none } : State).crew? c = some x)
  (ha : x.state = .active) (hb : boundary { s with cur := c, turn := none } c = none)
  (hf : fetch { s with cur := c, turn := none } x = .word w)
include hc ha hb hf

theorem crewTurn_of_ok {i : Instr} (h : decodeWord w = .ok i) : crewTurn c s = exec i { s with cur := c, turn := none } := by
  simp only [crewTurn, hc, ha, hb, hf, h, ne_eq, not_true_eq_false, if_false]

theorem crewTurn_of_error {r : Nat} (h : decodeWord w = .error r) :
    crewTurn c s = exec (.notAnInstruction w) { s with cur := c, turn := none } := by
  simp only [crewTurn, hc, ha, hb, hf, h, exec_notAnInstruction, ne_eq, not_true_eq_false, if_false]

end

/-- The first step of an outside party that is not held heads what can be next. -/
theorem moves_due {s : State} {i : Instr} {t : List Instr} (h : nextDue s s.due = some (i, t)) : ∃ l, moves s = takeDue i t :: l := by
  simp [moves, dueMoves, h]

theorem choose_due {s : State} {i : Instr} {t : List Instr} (hn : s.turn = none) (h : nextDue s s.due = some (i, t))
    (hp : Config.pick s.tick % (moves s).length = 0) : choose s = exec i { s with due := t } := by
  obtain ⟨l, e⟩ := moves_due h
  rw [e] at hp
  simp only [choose, hn, e, hp, List.getD_cons_zero, takeDue]

/-- Settles O5: the turn of a crew, the turn of an outside party, which of those is first, and the bytes of a fetch, each by its lemma. -/
theorem stepRunsDecodedInstruction : Obligations.StepRunsDecodedInstruction := by
  unfold Obligations.StepRunsDecodedInstruction
  refine ⟨fun s c x w ht hc ha hb hf => ?turn, fun s i t hn h hp => ?due, fun s i t h => by simp [nextDue, h], ?fetch⟩
  case turn =>
    have e : step s = afterStep (crewTurn c s) := by simp only [step, choose, ht]
    rw [e]
    exact ⟨fun i hi => by rw [crewTurn_of_ok hc ha hb hf hi], fun r hr => by rw [crewTurn_of_error hc ha hb hf hr]⟩
  case due => rw [step, choose_due hn h hp]
  case fetch =>
    intro s x pa pb m m' ha hb byte hok
    refine ⟨_, fetch_word ha hb hok, fun j hj => ?_⟩
    rw [extractLsb'_ofBytes _ (by simpa using hj) (by simp), List.getElem_map, List.getElem_range]
    rfl

end Sys2Proof.Machine
end

section
/-!
PROOF of the order of issue (R29): the waits and commits that come before an instruction or a word is looked at (R88), and the reasons of R28 that
the crew's state gives.
-/
namespace Sys2Proof.Machine

/-! ### Commits do not change whose turn it is -/

theorem foldl_cur {α : Type} {f : State → α → State} (hf : ∀ s a, (f s a).cur = s.cur) (l : List α) (s : State) :
    (l.foldl f s).cur = s.cur := by
  induction l generalizing s with
  | nil => rfl
  | cons a t ih => rw [List.foldl_cons, ih, hf]

@[simp] theorem frameWrite_cur (s : State) (l : List (Nat × Byte)) : (frameWrite s l).cur = s.cur := by
  unfold frameWrite
  dsimp only
  split <;> rfl

@[simp] theorem markWalk_cur (s : State) (tag va : Nat) (write : Bool) : (markWalk s tag va write).cur = s.cur := by
  unfold markWalk
  split
  · rfl
  · split <;> rfl

@[simp] theorem saveLine_cur (s : State) (c n : Nat) : (saveLine s c n).cur = s.cur := by
  unfold saveLine
  split
  · rfl
  dsimp only
  split
  · simp
  · split <;> rfl
  · rfl

@[simp] theorem dirtyLineNos_cur (s : State) (c : Nat) (ns : List Nat) : (dirtyLineNos s c ns).cur = s.cur := by
  unfold dirtyLineNos
  split
  · rfl
  dsimp only
  split
  · exact foldl_cur (fun s n => saveLine_cur s c n) _ s
  · exact foldl_cur (fun s n => saveLine_cur s c n) _ s

@[simp] theorem dirtyLines_cur (s : State) (c : Nat) (l : List RegWrite) : (dirtyLines s c l).cur = s.cur := by
  unfold dirtyLines
  split <;> simp

@[simp] theorem staleTiles_cur (s : State) (c : Nat) (l : List Nat) (ex : Option Nat) : (staleTiles s c l ex).cur = s.cur := by
  unfold staleTiles
  split <;> rfl

@[simp] theorem commitDtile_cur (s : State) (c i code : Nat) : (commitDtile s c i code).cur = s.cur := by
  unfold commitDtile
  split
  · rfl
  split <;> simp

@[simp] theorem commitTag_cur (s : State) (c k : Nat) : (commitTag s c k).1.cur = s.cur := by
  unfold commitTag
  split
  · rfl
  split
  · rfl
  next t _ =>
    cases t.held.mat with
    | none =>
      simp only [Option.bind_none]
      split <;> simp [takeTileState]
    | some m =>
      simp only [Option.bind_some]
      split
      · simp
      split
      · simp
      · split <;> simp [takeTileState]

@[simp] theorem commitTags_cur (s : State) (c : Nat) (ks : List Nat) : (commitTags s c ks).1.cur = s.cur := by
  induction ks generalizing s with
  | nil => rfl
  | cons k t ih => exact (ih _).trans (commitTag_cur s c k)

theorem cur_of_commitTags {s s1 : State} {c : Nat} {ks : List Nat} {f : Option Trap} (h : commitTags s c ks = (s1, f)) : s1.cur = s.cur := by
  simpa [h] using commitTags_cur s c ks

/-! ### The reasons of R28 that the crew's state gives, lowest first -/

section
variable {x : Crew} {i : Instr} {dst : List (Bool × Nat)} {own : Option Nat}

theorem dynReason_three (h : own = some 3) : dynReason x i dst own = some 3 := by simp [dynReason, h]

theorem dynReason_outside (h : own ≠ some 3) (hr : withinRegs x.seat i = false) : dynReason x i dst own = some 8 := by
  simp [dynReason, h, hr]

theorem dynReason_own {r : Nat} (h3 : r ≠ 3) (h : own = some r) (hr : withinRegs x.seat i = true) : dynReason x i dst own = some r := by
  simp [dynReason, h, h3, hr]

theorem dynReason_deferred (h : own = none) (hr : withinRegs x.seat i = true) (hd : clearOfDeferred x i dst = false) :
    dynReason x i dst own = some 11 := by
  simp [dynReason, h, hr, hd]

end

/-! ### Issue up to the checks (R29) -/

/-- The operations in flight under tags of the crew. -/
def inFlight (x : Crew) (ks : List Nat) : List Nat := (x.tags.filter fun e => ks.contains e.1).filterMap fun e => e.2.op

section
variable {s : State} {x : Crew} (hc : s.crew? s.cur = some x) (ha : x.state = .active) (hb : boundary s s.cur = none) (i : Instr)
  (own : Iss → Option Nat) (eff : Iss → State → Effect)
include hc ha hb

/-- A crew with an operation in flight under a tag it waits for waits for all of these. -/
theorem issue_waits {ops : List Nat} (ho : inFlight x (waitTags x i (dstRegs i)) = ops) (hne : ops ≠ []) :
    issue i own eff s = toWaiting s s.cur (.ops ops) := by
  obtain ⟨o, os, rfl⟩ := List.exists_cons_of_ne_nil hne
  unfold inFlight at ho
  simp only [issue, hc, ha, hb, ho, ne_eq, not_true_eq_false, if_false]

/-- A fault found at a commit is taken at the instruction. -/
theorem issue_commit_fault (ho : inFlight x (waitTags x i (dstRegs i)) = []) {s1 : State} {f : Trap}
    (hf : commitTags s s.cur (waitTags x i (dstRegs i)) = (s1, some f)) :
    issue i own eff s = takeTrap s1 s.cur f x.ctl.pc := by
  unfold inFlight at ho
  simp only [issue, hc, ha, hb, ho, hf, ne_eq, not_true_eq_false, if_false]

/-- Once its tags are committed an instruction issues as it does where there is nothing to commit. -/
theorem issue_committed (ho : inFlight x (waitTags x i (dstRegs i)) = []) {s1 : State}
    (hf : commitTags s s.cur (waitTags x i (dstRegs i)) = (s1, none)) {x1 : Crew} (hc1 : s1.crew? s.cur = some x1)
    (ha1 : x1.state = .active) (hb1 : boundary s1 s.cur = none) (hw1 : waitTags x1 i (dstRegs i) = []) :
    issue i own eff s = issue i own eff s1 := by
  unfold inFlight at ho
  simp only [issue, cur_of_commitTags hf, hc, ha, hb, ho, hf, hc1, ha1, hb1, hw1, ne_eq, not_true_eq_false, if_false,
    List.contains_nil, List.filter_false, List.filterMap_nil, commitTags]

/-- With no tag to wait for, a reason of R28 raises ILLEGAL before the guard is read. -/
theorem issue_raises (hw : waitTags x i (dstRegs i) = []) {r : Nat} (hr : dynReason x i (dstRegs i) (own (issOf i s x)) = some r) :
    issue i own eff s = takeTrap s s.cur ⟨0x01, x.ctl.em, BitVec.ofNat 64 r⟩ x.ctl.pc := by
  unfold issOf at hr
  simp only [issue, hc, ha, hb, hw, hr, ne_eq, not_true_eq_false, if_false, List.contains_nil, List.filter_false, List.filterMap_nil, commitTags]

end

/-- Settles O10: each reason is the first that dynReason finds, and issue raises it. -/
theorem issueChecksReasons : Obligations.IssueChecksReasons := by
  unfold Obligations.IssueChecksReasons
  intro i own eff s x hc ha hb hw raises
  have raise {r : Nat} : dynReason x i (dstRegs i) (own (issOf i s x)) = some r → raises r := issue_raises hc ha hb i own eff hw
  exact ⟨fun h3 => raise (dynReason_three h3), fun h3 hr => raise (dynReason_outside h3 hr),
    fun r h3 ho hr => raise (dynReason_own h3 ho hr), fun ho hr hd => raise (dynReason_deferred ho hr hd)⟩

/-- Settles O11: the three ways in which the waits and commits of R88 end. -/
theorem tagsCommitBeforeIssue : Obligations.TagsCommitBeforeIssue := by
  unfold Obligations.TagsCommitBeforeIssue
  intro i own eff s x hc ha hb ws ops
  exact ⟨issue_waits hc ha hb i own eff rfl, fun s1 f ho hf => issue_commit_fault hc ha hb i own eff ho hf,
    fun s1 x1 ho hf => issue_committed hc ha hb i own eff ho hf⟩

/-! ### A word that is no instruction (R28) -/

/-- A SETSR of TEM0 or TEM1 by a crew outside its handler (R316). -/
def SetsTem (x : Crew) (w : Word96) : Prop :=
  ∃ h o, (fieldsOf w).instr = .setsr h o ∧ (o.reg = .tem0 ∨ o.reg = .tem1) ∧ x.ctl.hmode = false

theorem wordReason_setsTem {x : Crew} {w : Word96} {r : Nat} (h3 : 3 < r) (h : SetsTem x w) : wordReason x w r = 3 := by
  obtain ⟨h, o, hi, hreg, hm⟩ := h
  simp [wordReason, hi, h3, hreg, hm]

theorem wordReason_same {x : Crew} {w : Word96} {r : Nat} (h : ¬(3 < r ∧ SetsTem x w)) : wordReason x w r = r := by
  unfold wordReason
  split
  · next h' o hi =>
    exact if_neg fun ⟨h3, hreg, hm⟩ => h ⟨h3, h', o, hi, hreg, by simpa using hm⟩
  · rfl

section
variable {s : State} {x : Crew} (hc : s.crew? s.cur = some x) (ha : x.state = .active) (hb : boundary s s.cur = none) {w : Word96} {r : Nat}
  (hd : decodeWord w = .error r)
include hc ha hb hd

theorem notAnInstruction_waits {ops : List Nat} (ho : inFlight x (wordTags x w) = ops) (hne : ops ≠ []) :
    exec (.notAnInstruction w) s = .next (toWaiting s s.cur (.ops ops)) := by
  obtain ⟨o, os, rfl⟩ := List.exists_cons_of_ne_nil hne
  unfold inFlight at ho
  simp only [exec_notAnInstruction, execNotAnInstruction, hc, ha, hb, hd, ho, ne_eq, not_true_eq_false, if_false]

theorem notAnInstruction_commit_fault (ho : inFlight x (wordTags x w) = []) {s1 : State} {f : Trap}
    (hf : commitTags s s.cur (wordTags x w) = (s1, some f)) :
    exec (.notAnInstruction w) s = .next (takeTrap s1 s.cur f x.ctl.pc) := by
  unfold inFlight at ho
  simp only [exec_notAnInstruction, execNotAnInstruction, hc, ha, hb, hd, ho, hf, cur_of_commitTags hf, ne_eq, not_true_eq_false, if_false]

theorem notAnInstruction_illegal (ho : inFlight x (wordTags x w) = []) {s1 : State}
    (hf : commitTags s s.cur (wordTags x w) = (s1, none)) :
    exec (.notAnInstruction w) s =
      .next (takeTrap s1 s.cur ⟨0x01, x.ctl.em, BitVec.ofNat 64 (wordReason x w r)⟩ x.ctl.pc) := by
  unfold inFlight at ho
  simp only [exec_notAnInstruction, execNotAnInstruction, hc, ha, hb, hd, ho, hf, cur_of_commitTags hf, ne_eq, not_true_eq_false, if_false]

end

/-- Settles O6: the ends of the waits and commits, and the bounds of the decoder's reason. -/
theorem notAnInstructionTraps : Obligations.NotAnInstructionTraps := by
  unfold Obligations.NotAnInstructionTraps
  intro w s x hc ha hb r hd ws ops tem
  have reason : 1 ≤ r ∧ r ≤ 7 ∧ (r = 1 ↔ (fieldsOf w).form = none) := by
    obtain ⟨hf, rfl⟩ | ⟨hf, h2, h7⟩ := decodeWord_error hd
    · simp [hf]
    · exact ⟨by omega, h7, by simp only [hf, iff_false]; omega⟩
  exact ⟨notAnInstruction_waits hc ha hb hd rfl, fun s1 f ho hf => notAnInstruction_commit_fault hc ha hb hd ho hf,
    fun s1 ho hf => ⟨_, wordReason_setsTem, wordReason_same, notAnInstruction_illegal hc ha hb hd ho hf⟩, reason⟩

end Sys2Proof.Machine
end

section
/-!
PROOF of the floating vector arithmetic (R62, R64, R66, R107, R110): how an instruction whose effect is a floating result in vector
registers ends, once for all of them.
-/
namespace Sys2Proof.Machine

/-! ### A floating result in vector registers (R66, R107) -/

theorem mem_activeLanes {em : Mask} {l : Nat} : l ∈ activeLanes em ↔ l < 128 ∧ em.getLsbD l = true := by
  simp [activeLanes]

/-- The registers of a result depend on its 128 lanes only. -/
theorem laneRegs_congr (w : Nat) {f g : Nat → Nat} (h : ∀ l < 128, f l = g l) : laneRegs w f = laneRegs w g := by
  have e : (fun l : Fin 128 => f l.val) = fun l => g l.val := funext fun l => h l l.isLt
  have e' : (fun l : Fin 128 => BitVec.ofNat 32 (f l.val)) = fun l => BitVec.ofNat 32 (g l.val) := funext fun l => by rw [h l l.isLt]
  simp only [laneRegs, Lanes.ofFn, e, e']

/-- The flags of the active lanes alone decide how a floating instruction ends. -/
theorem floatFlags_congr (i : Iss) {f g : Nat → Nat} (h : ∀ l ∈ activeLanes i.em, f l = g l) : floatFlags i f = floatFlags i g := by
  have hb : ((activeLanes i.em).filter fun l => f l &&& bits i.x.ctl.fpst.toNat 9 5 != 0) =
      (activeLanes i.em).filter fun l => g l &&& bits i.x.ctl.fpst.toNat 9 5 != 0 :=
    List.filter_congr fun l hl => by rw [h l hl]
  have hf : (activeLanes i.em).foldl (fun t l => t ||| f l) 0 = (activeLanes i.em).foldl (fun t l => t ||| g l) 0 :=
    List.foldl_ext _ _ _ fun t l hl => by rw [h l hl]
  unfold floatFlags
  simp only [hb, hf]
  split
  · rfl
  · congr 3
    exact List.foldl_ext _ _ _ fun t l hl => by rw [h l (List.mem_filter.1 hl).1]

section
variable (i : Iss) (s : State) (w : Nat) (d : Reg) (f : Nat → FRes)

/-- The table of lanes in which a floating result is kept: the active ones, each computed once. -/
def laneTable (l : Nat) : FRes :=
  (Vector.ofFn fun l : Fin 128 => if i.em.getLsbD l.val then f l.val else ⟨0, 0⟩ : Vector FRes 128).get ⟨l % 128, Nat.mod_lt _ (by decide)⟩

theorem laneTable_eq {l : Nat} (h : l < 128) : laneTable i f l = if i.em.getLsbD l then f l else ⟨0, 0⟩ := by
  simp only [laneTable, Vector.get_ofFn, Nat.mod_eq_of_lt h]

theorem floatFlags_laneTable : floatFlags i (fun l => (laneTable i f l).fl) = floatFlags i fun l => (f l).fl :=
  floatFlags_congr i fun l hl => by
    obtain ⟨hlt, hem⟩ := mem_activeLanes.1 hl
    rw [laneTable_eq i f hlt, if_pos hem]

theorem laneRegs_laneTable : laneRegs w (fun l => (laneTable i f l).bits) = laneRegs w fun l => if i.em.getLsbD l then (f l).bits else 0 :=
  laneRegs_congr w fun l hl => by rw [laneTable_eq i f hl]; split <;> rfl

variable {i f}

theorem vectorFloat_of_ok {fl : Nat} (h : floatFlags i (fun l => (f l).fl) = .ok fl) : vectorFloat i s w d f = .done (giveShort i s
    { lanesHeld i.bank i.em d (laneRegs w fun l => if i.em.getLsbD l then (f l).bits else 0) with fp := BitVec.ofNat 32 fl }) := by
  rw [← floatFlags_laneTable] at h
  rw [← laneRegs_laneTable]
  unfold vectorFloat
  simp only [laneTable] at h ⊢
  simp only [h]
  rfl

theorem vectorFloat_of_error {t : Trap} (h : floatFlags i (fun l => (f l).fl) = .error t) : vectorFloat i s w d f = .trap t := by
  rw [← floatFlags_laneTable] at h
  unfold vectorFloat
  simp only [laneTable] at h
  simp only [h]

end

/-- An instruction whose effect is a floating result gives it, or raises FP_EXCEPTION. -/
theorem givesFloat_of {i : Instr} {s : State} {x : Crew} (h : Ready i s x) {own : Iss → Option Nat} (ho : own (issOf i s x) = none)
    {eff : Iss → State → Effect} (he : exec i s = .next (issue i own eff s)) {w : Nat} {d : Reg} {f : Nat → FRes}
    (hd : eff (issOf i s x) (issued i s x) = vectorFloat (issOf i s x) (issued i s x) w d f) : GivesFloat i s x w d f := by
  unfold GivesFloat
  dsimp only
  split
  · next hbad =>
    have hfl : floatFlags (issOf i s x) (fun l => (f l).fl) = .ok ((activeLanes x.ctl.em).foldl (fun t l => t ||| (f l).fl) 0) := by
      simp only [floatFlags, issOf, Iss.em, hbad, List.isEmpty_nil, if_true]
    exact gives_of h ho he (hd.trans (vectorFloat_of_ok _ _ _ hfl))
  · next hbad =>
    refine traps_of h ho he (hd.trans (vectorFloat_of_error _ _ _ ?_))
    simp only [floatFlags, issOf, Iss.em, List.isEmpty_eq_false_iff.2 hbad, Bool.false_eq_true, if_false]

/-- Settles O23: each instruction of the family is run of a floating result, lane by lane as the statement says. -/
theorem floatArithmeticResults : Obligations.FloatArithmeticResults := by
  unfold Obligations.FloatArithmeticResults
  refine ⟨fun p hp h o s x hr => ?_, fun h o s x hr => ?_, fun p hp h o s x hr => ?_⟩
  · simp only [List.mem_cons, List.not_mem_nil, or_false] at hp
    rcases hp with rfl | rfl | rfl | rfl | rfl <;> exact givesFloat_of hr rfl rfl rfl
  · exact givesFloat_of hr rfl rfl rfl
  · simp only [List.mem_cons, List.not_mem_nil, or_false] at hp
    rcases hp with rfl | rfl <;> exact givesFloat_of hr rfl rfl rfl

end Sys2Proof.Machine
end

section
/-!
PROOF of the conversions and packs (R67, R114, R115): saturation as a maximum of a minimum, and the fields of a word one of which is replaced.
-/
namespace Sys2Proof.Machine

/-! ### Saturation (R11) -/

theorem sat_eq_max_min {x lo hi : Int} (h : lo ≤ hi) : Sys2Proof.sat x lo hi = max lo (min hi x) := by
  unfold Sys2Proof.sat
  split
  · omega
  · split <;> omega

theorem tyLo_le_tyHi (ty : Ty) : tyLo ty ≤ tyHi ty := by
  have h := Nat.one_le_two_pow (n := tyWidth ty)
  have h' := Nat.one_le_two_pow (n := tyWidth ty - 1)
  unfold tyLo tyHi
  split <;> omega

/-! ### VCVT (R67, R114) -/

/-- A conversion between integers saturates as the statement of R114 puts it. -/
theorem convert_int {d c : Ty} (hd : d.isInt = true) (hc : c.isInt = true) (rnd : Rnd) (sat : Bool) (a : Nat) :
    convert d c rnd sat a = ⟨wrap (tyWidth d) (if sat then max (tyLo d) (min (tyHi d) (tyVal c a)) else tyVal c a), 0⟩ := by
  simp only [convert, hd, hc, if_true, sat_eq_max_min (tyLo_le_tyHi d)]

theorem convert_to_int {d c : Ty} (hd : d.isInt = true) (hc : c.isInt = false) (rnd : Rnd) (sat : Bool) (a : Nat) :
    convert d c rnd sat a = ⟨wrap (tyWidth d) (fToInt rnd (tyLo d) (tyHi d) ((tyFmt c).read a)).1,
      (fToInt rnd (tyLo d) (tyHi d) ((tyFmt c).read a)).2⟩ := by
  simp only [convert, hd, hc, if_true, Bool.false_eq_true, if_false]

theorem convert_of_int {d c : Ty} (hd : d.isInt = false) (hc : c.isInt = true) (rnd : Rnd) (sat : Bool) (a : Nat) :
    convert d c rnd sat a = intToF (tyFmt d) rnd (tyVal c a) := by
  simp only [convert, hd, hc, if_true, Bool.false_eq_true, if_false]

theorem convert_float {d c : Ty} (hd : d.isInt = false) (hc : c.isInt = false) (rnd : Rnd) (sat : Bool) (a : Nat) :
    convert d c rnd sat a = (tyFmt d).give rnd ((tyFmt c).read a) := by
  simp only [convert, hd, hc, Bool.false_eq_true, if_false]

/-! ### Fields of a word (R115) -/

/-- A word one of whose fields is replaced: the fields above, the new one, and what lies below. -/
theorem packCode_eq (w run i c : Nat) : execVpack.packCode w run i c =
    2 ^ (w * i) * (2 ^ w * (run / 2 ^ (w * i) / 2 ^ w) + c) + run % 2 ^ (w * i) := by
  have h1 := Nat.div_add_mod run (2 ^ (w * i))
  have h2 := Nat.div_add_mod (run / 2 ^ (w * i)) (2 ^ w)
  unfold execVpack.packCode
  generalize run % 2 ^ (w * i) = lo at *
  generalize run / 2 ^ (w * i) / 2 ^ w = hi at *
  generalize run / 2 ^ (w * i) % 2 ^ w = old at *
  rw [← h2, Nat.mul_add, Nat.mul_comm _ old] at h1
  rw [Nat.mul_add, Nat.mul_comm _ c]
  omega

/-- Replacing field `i` of a word by `c` leaves every other field as it was. -/
theorem packCode_field {w c : Nat} (hc : c < 2 ^ w) (run i j : Nat) :
    execVpack.packCode w run i c / 2 ^ (w * j) % 2 ^ w = if j = i then c else run / 2 ^ (w * j) % 2 ^ w := by
  rw [packCode_eq]
  have hlo : run % 2 ^ (w * i) < 2 ^ (w * i) := Nat.mod_lt _ (by positivity)
  apply Nat.eq_of_testBit_eq
  intro k
  rcases Nat.lt_trichotomy j i with hlt | rfl | hgt
  · have hle : w * j + w ≤ w * i := by rw [← Nat.mul_succ]; exact Nat.mul_le_mul_left w hlt
    rw [if_neg (by omega)]
    simp only [Nat.testBit_mod_two_pow, Nat.testBit_div_two_pow, Nat.testBit_two_pow_mul_add _ hlo]
    by_cases hk : k < w
    · simp [hk, show k + w * j < w * i by omega]
    · simp [hk]
  · simp only [if_true, Nat.testBit_mod_two_pow, Nat.testBit_div_two_pow, Nat.testBit_two_pow_mul_add _ hlo,
      Nat.testBit_two_pow_mul_add _ hc]
    by_cases hk : k < w
    · simp [hk]
    · simp [hk, Nat.testBit_lt_two_pow (lt_of_lt_of_le hc (Nat.pow_le_pow_right (by omega) (Nat.le_of_not_lt hk)))]
  · have hle : w * i + w ≤ w * j := by rw [← Nat.mul_succ]; exact Nat.mul_le_mul_left w hgt
    rw [if_neg (by omega)]
    simp only [Nat.testBit_mod_two_pow, Nat.testBit_div_two_pow, Nat.testBit_two_pow_mul_add _ hlo,
      Nat.testBit_two_pow_mul_add _ hc, show ¬(k + w * j < w * i) by omega, show ¬(k + w * j - w * i < w) by omega, if_false]
    rw [show k + w * j - w * i - w + w + w * i = k + w * j by omega]

theorem wrap_lt (w : Nat) (x : Int) : wrap w x < 2 ^ w := by
  have h := Int.emod_lt_of_pos x (b := (2 ^ w : Nat)) (by positivity)
  have h' := Int.emod_nonneg x (b := (2 ^ w : Nat)) (by positivity)
  unfold wrap
  omega

/-- A value saturated to a field, as its pattern. -/
theorem packField_eq (t : PackTy) (a : Nat) : packField t a = wrap (packWidth t)
    (if packSigned t then max (-(2 ^ (packWidth t - 1) : Nat)) (min (2 ^ (packWidth t - 1) - 1 : Nat) (signed 32 a))
      else max 0 (min (2 ^ packWidth t - 1 : Nat) (signed 32 a))) := by
  have h : -((2 ^ (packWidth t - 1) : Nat) : Int) ≤ (2 ^ (packWidth t - 1) - 1 : Nat) := by
    have := Nat.one_le_two_pow (n := packWidth t - 1)
    omega
  simp only [packField, sat_eq_max_min h, sat_eq_max_min (Int.natCast_nonneg (2 ^ packWidth t - 1))]

/-- Settles O26: VCVT by the conversion of each pair of types, VPACK by the fields of its word, VUNPK as it stands. -/
theorem conversionAndPackResults : Obligations.ConversionAndPackResults := by
  unfold Obligations.ConversionAndPackResults
  refine ⟨fun h o s x hr => ?_, fun h o s x hr => ?_, fun h o s x hr => gives_of hr rfl rfl rfl⟩
  · intro from_
    have hfrom (d c : Ty) (sat : Bool) (a : Nat) (hs : o.b = none → sat = o.sat) (hb : o.b ≠ none → d.isInt = false) :
        convert d c o.rnd sat a = from_ d c a := by
      cases hd : d.isInt with
      | true =>
        have hn : o.b = none := by by_contra hn; simp [hb hn] at hd
        cases hc : c.isInt with
        | true => simp [from_, convert_int, hd, hc, hs hn, hn]
        | false => simp [from_, convert_to_int, hd, hc]
      | false =>
        cases hc : c.isInt with
        | true => simp [from_, convert_of_int, hd, hc]
        | false => simp [from_, convert_float, hd, hc]
    refine givesFloat_of hr rfl rfl (congrArg (vectorFloat _ _ _ _) (funext fun l => ?_))
    cases hb : o.b with
    | some b => exact congrArg (byHalves o.dst) (funext fun j => hfrom _ _ _ _ (by simp [hb]) fun _ => rfl)
    | none => exact hfrom _ _ _ _ (fun _ => rfl) (by simp [hb])
  · refine ⟨_, gives_of hr rfl rfl rfl, ?_⟩
    intro w lim l
    have hlim : ∀ a, packField o.ty a = lim a := packField_eq o.ty
    cases hb : o.b with
    | some b => simp only [hlim]; rfl
    | none =>
      intro j
      rw [← hlim]
      exact packCode_field (wrap_lt _ _) _ _ _

end Sys2Proof.Machine
end

section
/-!
SUPPORT for the statements about numbers: what an FP32 pattern reads as (R62), and what rounding to nearest-even gives (R63).
-/
namespace Sys2Proof.Machine

/-! ### FP32 patterns (R62) -/

/-- The exponent field and the fraction of an FP32 pattern. -/
def expField (x : Nat) : Nat := x / 2 ^ 23 % 256
def fracField (x : Nat) : Nat := x % 2 ^ 23

/-- The magnitude and the exponent of a finite FP32 pattern. -/
def magOf (x : Nat) : Nat := fracField x + if expField x = 0 then 0 else 2 ^ 23
def expOf (x : Nat) : Int := (max (expField x) 1 : Nat) - 150

theorem fracField_lt (x : Nat) : fracField x < 2 ^ 23 := Nat.mod_lt _ (by decide)
theorem expField_lt (x : Nat) : expField x < 256 := Nat.mod_lt _ (by decide)

theorem low31_eq (x : Nat) : x % 2 ^ 31 = expField x * 2 ^ 23 + fracField x := by
  unfold expField fracField
  omega

/-- An FP32 pattern by its fields. -/
theorem read_f32 (x : Nat) : fmtF32.read x =
    if expField x = 255 then (if fracField x = 0 then .inf (x.testBit 31) else .nan (!(fracField x).testBit 22))
    else .fin (x.testBit 31) (magOf x) (expOf x) := by
  have hb : (fmtF32.bias : Int) = 127 := by decide
  change (if expField x = 255 then (if fracField x = 0 then .inf (x.testBit 31) else .nan (!(fracField x).testBit 22))
    else if expField x = 0 then .fin (x.testBit 31) (fracField x) (fmtF32.emin - (23 : Nat))
    else .fin (x.testBit 31) (2 ^ 23 + fracField x) ((expField x : Int) - fmtF32.bias - (23 : Nat)) : FNum) = _
  by_cases h : expField x = 255
  · simp [h]
  · by_cases h0 : expField x = 0
    · simp [h0, magOf, expOf, FFmt.emin, hb]
    · simp only [h, h0, if_false, magOf, expOf, hb, FNum.fin.injEq, true_and]
      omega

theorem read_f32_fin {x : Nat} (h : expField x ≠ 255) : fmtF32.read x = .fin (x.testBit 31) (magOf x) (expOf x) := by
  rw [read_f32, if_neg h]

/-- A pattern whose low bits lie above those of an infinity is a NaN. -/
theorem isNan_f32 (x : Nat) : (fmtF32.read x).isNan = decide (0x7F800000 < x % 2 ^ 31) := by
  have hf := fracField_lt x
  have he := expField_lt x
  have hl := low31_eq x
  rw [read_f32]
  split
  · split
    · exact (decide_eq_false (by omega)).symm
    · exact (decide_eq_true (by omega)).symm
  · exact (decide_eq_false (by omega)).symm

/-! ### Rounding to nearest-even (R63) -/

/-- `t` is the integer nearest to a / b, of two such the even one. -/
def NearestEven (a b t : Nat) : Prop := 2 * t * b ≤ 2 * a + b ∧ 2 * a ≤ 2 * t * b + b ∧ (2 * t * b = 2 * a + b ∨ 2 * a = 2 * t * b + b → t % 2 = 0)

theorem NearestEven.unique {a b t u : Nat} (hb : 0 < b) (ht : NearestEven a b t) (hu : NearestEven a b u) : t = u := by
  have aux : ∀ {t u : Nat}, NearestEven a b t → NearestEven a b u → ¬t < u := by
    intro t u ⟨_, ht2, ht3⟩ ⟨hu1, _, hu3⟩ hlt
    have h1 : u < t + 2 := by
      by_contra hge
      have : 2 * (t + 2) * b ≤ 2 * u * b := Nat.mul_le_mul_right b (by omega)
      nlinarith
    obtain rfl : u = t + 1 := by omega
    have h2 : 2 * (t + 1) * b = 2 * t * b + 2 * b := by ring
    have := ht3 (.inr (by omega))
    have := hu3 (.inl (by omega))
    omega
  have := aux ht hu
  have := aux hu ht
  omega

/-- Numerator and denominator of num / den · 2^k. -/
def scaledNum (num : Nat) (k : Int) : Nat := num * 2 ^ k.toNat
def scaledDen (den : Nat) (k : Int) : Nat := den * 2 ^ (-k).toNat

theorem scaledDen_pos {den : Nat} (h : 0 < den) (k : Int) : 0 < scaledDen den k := by unfold scaledDen; positivity

/-- Rounding num / den · 2^k: the quotient, or the next magnitude. -/
theorem roundScaled_eq (rnd : Rnd) (neg : Bool) (num den : Nat) (k : Int) : roundScaled rnd neg num den k =
    (scaledNum num k / scaledDen den k +
      (roundsUp rnd neg (scaledNum num k / scaledDen den k) (scaledNum num k % scaledDen den k) (scaledDen den k)).toNat,
      scaledNum num k % scaledDen den k != 0) := by
  unfold roundScaled scaledNum scaledDen
  by_cases hk : k ≥ 0
  · have : (-k).toNat = 0 := by omega
    simp only [hk, if_true, this, pow_zero, mul_one, Prod.mk.injEq, and_true]
    split <;> simp [*]
  · have : k.toNat = 0 := by omega
    simp only [hk, if_false, this, pow_zero, mul_one, Prod.mk.injEq, and_true]
    split <;> simp [*]

theorem roundScaled_nearest (neg : Bool) (num : Nat) {den : Nat} (hd : 0 < den) (k : Int) :
    NearestEven (scaledNum num k) (scaledDen den k) (roundScaled .rn neg num den k).1 := by
  rw [roundScaled_eq]
  have hb := scaledDen_pos hd k
  generalize scaledDen den k = b at *
  generalize scaledNum num k = a at *
  have hdm := Nat.div_add_mod a b
  have hr := Nat.mod_lt a hb
  generalize a % b = r at *
  generalize a / b = q at *
  have e0 : 2 * (q + 0) * b = 2 * (b * q) := by ring
  have e1 : 2 * (q + 1) * b = 2 * (b * q) + 2 * b := by ring
  unfold NearestEven
  dsimp only
  cases hup : roundsUp .rn neg q r b with
  | false =>
    simp only [roundsUp, Bool.and_eq_false_iff, Bool.or_eq_false_iff, bne_eq_false_iff_eq, decide_eq_false_iff_not, beq_eq_false_iff_ne] at hup
    simp only [Bool.toNat_false, e0]
    omega
  | true =>
    simp only [roundsUp, Bool.and_eq_true, Bool.or_eq_true, bne_iff_ne, decide_eq_true_eq, beq_iff_eq] at hup
    simp only [Bool.toNat_true, e1]
    omega

end Sys2Proof.Machine
end

section
/-!
PROOF of the values of atomic operations (R70, R71, R178 to R183): signed values and patterns, the fixed-point operand, and the sum that may
leave the mark.
-/
namespace Sys2Proof.Machine

/-! ### Signed values of patterns -/

theorem signed_of_lt {w x : Nat} (h : x < 2 ^ w) : signed w x = if 2 * x < 2 ^ w then (x : Int) else x - (2 ^ w : Nat) := by
  simp only [signed, Nat.mod_eq_of_lt h]

theorem min_signed (w m c : Nat) : signed w (if signed w m ≤ signed w c then m else c) = min (signed w m) (signed w c) := by
  split <;> omega

theorem max_signed (w m c : Nat) : signed w (if signed w m ≤ signed w c then c else m) = max (signed w m) (signed w c) := by
  split <;> omega

/-- A value in the range of 64 bits is that of its pattern. -/
theorem signed_wrap_64 {x : Int} (h1 : -2 ^ 63 ≤ x) (h2 : x < 2 ^ 63) : signed 64 (wrap 64 x) = x := by
  unfold signed wrap
  omega

/-! ### The fixed-point operand (R70) -/

/-- The pattern of a fixed-point operand of magnitude `t`. -/
def fxPattern (neg : Bool) (t : Nat) : Nat := if t > 2 ^ 63 - 1 then fxMark else if neg then (2 ^ 64 - t) % 2 ^ 64 else t

theorem fxConvert_mark {p x : Nat} (h : expField x = 255) : fxConvert p x = fxMark := by
  unfold fxConvert
  rw [read_f32, if_pos h]
  split_ifs <;> rfl

/-- A finite operand with `p` fractional bits is rounded to the nearest integer, ties to even. -/
theorem fxConvert_fin {p x t : Nat} (h : expField x ≠ 255) (ht : NearestEven (scaledNum (magOf x) (expOf x + p)) (scaledDen 1 (expOf x + p)) t) :
    fxConvert p x = fxPattern (x.testBit 31) t := by
  have hr := roundScaled_nearest (x.testBit 31) (magOf x) (den := 1) one_pos (expOf x + p)
  unfold fxConvert
  rw [read_f32_fin h]
  show fxPattern _ _ = _
  rw [hr.unique (scaledDen_pos one_pos _) ht]

theorem fxPattern_big {t : Nat} (h : 2 ^ 63 - 1 < t) (neg : Bool) : fxPattern neg t = fxMark := by
  rw [fxPattern, if_pos h]

theorem fxPattern_small {t : Nat} (h : t ≤ 2 ^ 63 - 1) (neg : Bool) :
    fxPattern neg t ≠ fxMark ∧ signed 64 (fxPattern neg t) = if neg then -(t : Int) else t := by
  rw [fxPattern, if_neg (by omega), fxMark]
  cases neg with
  | false => simp only [Bool.false_eq_true, if_false, signed]; omega
  | true => simp only [if_true, signed]; omega

/-- The nearest integer to frac · 2^k, in the statement's form. -/
theorem nearestEven_scaled {frac t : Nat} {k : Int} (h : if 0 ≤ k then t = frac * 2 ^ k.toNat else
      let q := 2 ^ (-k).toNat
      2 * t * q ≤ 2 * frac + q ∧ 2 * frac ≤ 2 * t * q + q ∧ (2 * t * q = 2 * frac + q ∨ 2 * frac = 2 * t * q + q → t % 2 = 0)) :
    NearestEven (scaledNum frac k) (scaledDen 1 k) t := by
  unfold scaledNum scaledDen
  split at h
  · next hk =>
    rw [show (-k).toNat = 0 by omega, h]
    unfold NearestEven
    omega
  · next hk =>
    rw [show k.toNat = 0 by omega, pow_zero, mul_one, one_mul]
    exact h

theorem testBit_31 {c : Nat} (h : c < 2 ^ 32) : c.testBit 31 = decide (2 ^ 31 ≤ c) := by
  rw [Nat.testBit_eq_decide_div_mod_eq, decide_eq_decide]
  omega

/-! ### The sum (R71) -/

theorem fxAdd_mark {w f : Nat} (h : w = fxMark ∨ f = fxMark) : fxAdd w f = fxMark := by rw [fxAdd, if_pos h]

theorem fxAdd_plain {w f : Nat} (hw : w ≠ fxMark) (hf : f ≠ fxMark) :
    ((signed 64 w + signed 64 f).natAbs ≤ 2 ^ 63 - 1 → signed 64 (fxAdd w f) = signed 64 w + signed 64 f ∧ fxAdd w f < 2 ^ 64) ∧
    (2 ^ 63 - 1 < (signed 64 w + signed 64 f).natAbs → fxAdd w f = fxMark) := by
  have hn : ¬(w = fxMark ∨ f = fxMark) := by simp [hw, hf]
  rw [fxAdd, if_neg hn]
  generalize signed 64 w + signed 64 f = v
  constructor
  · intro h
    rw [if_neg (by omega)]
    exact ⟨signed_wrap_64 (by omega) (by omega), by unfold wrap; omega⟩
  · intro h
    rw [if_pos (by omega)]

/-! ### The maximum of magnitudes (R183) -/

theorem maxMag_eq (m c : Nat) : maxMag m c =
    if 0x7F800000 < m % 2 ^ 31 ∨ 0x7F800000 < c % 2 ^ 31 then fmtF32.nan else max (m % 2 ^ 31) (c % 2 ^ 31) := by
  simp only [maxMag, isNan_f32, Bool.or_eq_true, decide_eq_true_eq]
  rfl

/-- Settles O36: each operation by its equation; ATOM.FXADD by the cases of its operand and its sum. -/
theorem atomicOperationValues : Obligations.AtomicOperationValues := by
  unfold Obligations.AtomicOperationValues
  intro w m c n hw hm hc hn
  refine ⟨fun sg => ⟨rfl, rfl⟩, fun j sg => ⟨Nat.testBit_and .., Nat.testBit_or .., ?_⟩, ⟨?_, ?_⟩, ⟨?_, ?_⟩, ?_, ⟨rfl, rfl⟩, ?_, ?_, ?_⟩
  · rw [show (RmwOp.int .xor sg).new w m c = m ^^^ c from rfl, Nat.testBit_xor, Bool.bne_eq_xor]
  · simp only [RmwOp.new, Bool.false_eq_true, if_false, decide_eq_true_eq]; split <;> omega
  · simp only [RmwOp.new, Bool.false_eq_true, if_false, decide_eq_true_eq]; split <;> omega
  · simpa only [RmwOp.new, if_true, decide_eq_true_eq] using min_signed w m c
  · simpa only [RmwOp.new, if_true, decide_eq_true_eq] using max_signed w m c
  · have h1 : (c + 2 ^ w * n) % 2 ^ w = c := by rw [Nat.add_mul_mod_self_left, Nat.mod_eq_of_lt hc]
    have h2 : (c + 2 ^ w * n) / 2 ^ w % 2 ^ w = n := by
      rw [Nat.add_mul_div_left _ _ (by positivity), Nat.div_eq_of_lt hc, Nat.zero_add, Nat.mod_eq_of_lt hn]
    simp only [RmwOp.new, h1, h2]
  · intro _ hm' hc'
    exact (maxMag_eq m c).trans (if_neg (by omega))
  · intro _ hbig
    exact (maxMag_eq m c).trans (if_pos hbig)
  · intro p hw' hp hc'
    subst hw'
    intro new ex frac sh nearest
    have hnew : new = fxAdd m (fxConvert p c) := rfl
    refine ⟨fun h => fxAdd_mark (h.imp id fxConvert_mark), ?_⟩
    intro t hmark hex ht sum
    have hconv : fxConvert p c = fxPattern (c.testBit 31) t := fxConvert_fin hex (nearestEven_scaled ht)
    have hsum (h : t ≤ 2 ^ 63 - 1) : sum = signed 64 m + signed 64 (fxPattern (c.testBit 31) t) := by
      rw [(fxPattern_small h _).2]
      simp only [sum, testBit_31 hc', decide_eq_true_eq]
    refine ⟨fun h => fxAdd_mark (.inr (hconv.trans (fxPattern_big h _))), fun h hs => ?_, fun h hs => ?_⟩
    · rw [hsum h] at hs ⊢
      rw [hnew, hconv]
      exact (fxAdd_plain hmark (fxPattern_small h _).1).1 hs
    · rw [hsum h] at hs
      rw [hnew, hconv]
      exact (fxAdd_plain hmark (fxPattern_small h _).1).2 hs

end Sys2Proof.Machine
end

section
/-!
PROOF of the checksums of tiles (R74, R171, R172, R220, R221): the sums of rows and columns when one code or one checksum changes, what then
disagrees, and how a copy and a check end.
-/
namespace Sys2Proof.Machine

/-! ### The sums (R74) -/

/-- The sum of a column of codes. -/
def colSum (rows : List (List Nat)) (c : Nat) : Nat := (rows.map fun r => r.getD c 0).sum

theorem codeChecksums_length (rows : List (List Nat)) (cols : Nat) : (codeChecksums rows cols).length = rows.length + cols := by
  simp [codeChecksums]

theorem codeChecksums_row {rows : List (List Nat)} {r : Nat} (h : r < rows.length) (cols : Nat) :
    (codeChecksums rows cols).getD r 0 = wrap32 (rows.getD r []).sum := by
  simp [codeChecksums, List.getD_eq_getElem?_getD, List.getElem?_append_left, h]

theorem codeChecksums_col (rows : List (List Nat)) {c cols : Nat} (h : c < cols) :
    (codeChecksums rows cols).getD (rows.length + c) 0 = wrap32 (colSum rows c) := by
  simp [codeChecksums, List.getD_eq_getElem?_getD, h, colSum]

theorem codeChecksums_lt (rows : List (List Nat)) (cols k : Nat) : (codeChecksums rows cols).getD k 0 < 2 ^ 32 := by
  rw [List.getD_eq_getElem?_getD]
  cases h : (codeChecksums rows cols)[k]? with
  | none => exact Nat.two_pow_pos 32
  | some v =>
    have hv := List.mem_of_getElem? h
    simp only [codeChecksums, List.mem_append, List.mem_map] at hv
    rcases hv with ⟨_, _, rfl⟩ | ⟨_, _, rfl⟩ <;> exact Nat.mod_lt _ (by decide)

/-! ### One code replaced -/

theorem putCode_eq_set (rows : List (List Nat)) (r c new : Nat) : putCode rows (r, c, new) = rows.set r ((rows.getD r []).set c new) := by
  refine List.ext_getElem (by simp [putCode]) fun k h1 h2 => ?_
  have hk : k < rows.length := by simpa using h2
  by_cases h : k = r
  · subst h; simp [putCode, hk]
  · simp [putCode, h, Ne.symm h]

theorem sum_set {l : List Nat} {c : Nat} (h : c < l.length) (new : Nat) : (l.set c new).sum + l.getD c 0 = l.sum + new := by
  induction l generalizing c with
  | nil => simp at h
  | cons a t ih =>
    cases c with
    | zero => simp; omega
    | succ c =>
      have := ih (c := c) (by simpa using h)
      simp only [List.set_cons_succ, List.sum_cons, List.getD_cons_succ]
      omega

section
variable {rows : List (List Nat)} {r c new : Nat} (hr : r < rows.length) (hc : c < (rows.getD r []).length)
include hr

theorem getD_putCode (k : Nat) : (putCode rows (r, c, new)).getD k [] = if k = r then (rows.getD r []).set c new else rows.getD k [] := by
  rw [putCode_eq_set]
  by_cases h : k = r
  · subst h; simp [hr]
  · simp [List.getD_eq_getElem?_getD, Ne.symm h, h]

include hc

theorem codeAt_putCode : codeAt (putCode rows (r, c, new)) r c = new := by
  unfold codeAt
  rw [getD_putCode hr, if_pos rfl, List.getD_eq_getElem?_getD, List.getElem?_set_self hc]
  rfl

/-- Putting the old code back restores the tile. -/
theorem putCode_putCode : putCode (putCode rows (r, c, new)) (r, c, codeAt rows r c) = rows := by
  rw [putCode_eq_set _ r c (codeAt rows r c), getD_putCode hr, if_pos rfl, putCode_eq_set, List.set_set, List.set_set]
  have h1 : (rows.getD r []).set c (codeAt rows r c) = rows[r] := by
    simp only [codeAt, List.getD_eq_getElem?_getD, List.getElem?_eq_getElem hr, Option.getD_some] at hc ⊢
    simp [List.getElem?_eq_getElem hc]
  rw [h1, List.set_getElem_self]

theorem rowSum_putCode (k : Nat) : ((putCode rows (r, c, new)).getD k []).sum + (if k = r then codeAt rows r c else 0) =
    (rows.getD k []).sum + if k = r then new else 0 := by
  rw [getD_putCode hr]
  by_cases h : k = r
  · subst h
    rw [if_pos rfl, if_pos rfl, if_pos rfl]
    exact sum_set hc new
  · simp only [h, if_false]

theorem colSum_putCode (k : Nat) : colSum (putCode rows (r, c, new)) k + (if k = c then codeAt rows r c else 0) =
    colSum rows k + if k = c then new else 0 := by
  have hlen : r < (rows.map fun l => l.getD k 0).length := by simpa using hr
  have hset := sum_set hlen (((rows.getD r []).set c new).getD k 0)
  have hold : (rows.map fun l => l.getD k 0).getD r 0 = (rows.getD r []).getD k 0 := by
    simp [List.getD_eq_getElem?_getD, hr]
  rw [hold] at hset
  unfold colSum
  rw [putCode_eq_set, List.map_set]
  by_cases h : k = c
  · subst h
    have hnew : ((rows.getD r []).set k new).getD k 0 = new := by
      rw [List.getD_eq_getElem?_getD, List.getElem?_set_self hc]; rfl
    rw [hnew] at hset ⊢
    rw [if_pos rfl, if_pos rfl]
    exact hset
  · have hkeep : ((rows.getD r []).set c new).getD k 0 = (rows.getD r []).getD k 0 := by
      simp [List.getD_eq_getElem?_getD, Ne.symm h]
    rw [hkeep] at hset ⊢
    simp only [h, if_false]
    omega

end

/-! ### What disagrees (R171, R220) -/

/-- By how much checksum `k` disagrees. -/
def sumDiff (t : Tile) (rows : List (List Nat)) (stored : List Nat) (k : Nat) : Nat :=
  wrap32 ((t.sumsOf rows).getD k 0 + 2 ^ 32 - stored.getD k 0)

/-- The numbers below `n` at which `f` is not 0, with its values. -/
def disagreeing (n : Nat) (f : Nat → Nat) : List (Nat × Nat) := ((List.range n).map fun k => (k, f k)).filter fun e => e.2 != 0

theorem disagreeing_none {n : Nat} {f : Nat → Nat} (h : ∀ k < n, f k = 0) : disagreeing n f = [] := by
  simp only [disagreeing, List.filter_eq_nil_iff, List.mem_map, List.mem_range]
  rintro _ ⟨k, hk, rfl⟩
  simp [h k hk]

theorem disagreeing_one {n r : Nat} {f : Nat → Nat} (hr : r < n) (h0 : f r ≠ 0) (h : ∀ k < n, k ≠ r → f k = 0) :
    disagreeing n f = [(r, f r)] := by
  induction n with
  | zero => omega
  | succ n ih =>
    have hs : disagreeing (n + 1) f = disagreeing n f ++ if f n = 0 then [] else [(n, f n)] := by
      simp only [disagreeing, List.range_succ, List.map_append, List.filter_append, List.map_cons, List.map_nil]
      congr 1
      by_cases hn : f n = 0 <;> simp [hn]
    rw [hs]
    rcases Nat.lt_succ_iff_lt_or_eq.1 hr with hlt | rfl
    · rw [ih hlt fun k hk => h k (by omega), h n (by omega) (by omega)]
      rfl
    · rw [disagreeing_none fun k hk => h k (by omega) (by omega), if_neg h0]
      rfl

theorem length_disagreeing (n : Nat) (f : Nat → Nat) : (disagreeing n f).length ≤ n :=
  (List.length_filter_le _ _).trans (by simp)

theorem tileDiff_rows (t : Tile) (rows : List (List Nat)) (stored : List Nat) :
    (tileDiff t rows stored).rows = disagreeing t.rows (sumDiff t rows stored) := rfl

theorem tileDiff_cols (t : Tile) (rows : List (List Nat)) (stored : List Nat) :
    (tileDiff t rows stored).cols = disagreeing t.cols fun c => sumDiff t rows stored (t.rows + c) := rfl

/-- No element is located where no row or no column disagrees. -/
theorem tileDiff_found_none {t : Tile} {rows : List (List Nat)} {stored : List Nat}
    (h : (tileDiff t rows stored).rows = [] ∨ (tileDiff t rows stored).cols = []) : (tileDiff t rows stored).found = none := by
  unfold tileDiff at h ⊢
  dsimp only at h ⊢
  rcases h with h | h
  · rw [h]
  · rw [h]
    split
    · next heq => cases heq
    · rfl

/-- The crossing of the one row and the one column that disagree is located when the code corrected there restores both sums. -/
theorem tileDiff_found {t : Tile} {rows : List (List Nat)} {stored : List Nat} {r c x code : Nat}
    (hr : (tileDiff t rows stored).rows = [(r, x)]) (hc : (tileDiff t rows stored).cols = [(c, x)])
    (hcode : (codeAt rows r c + 2 ^ 32 - x) % 2 ^ t.width = code)
    (h1 : wrap32 ((t.sumsOf rows).getD r 0 + 2 ^ 32 + code - codeAt rows r c) = stored.getD r 0)
    (h2 : wrap32 ((t.sumsOf rows).getD (t.rows + c) 0 + 2 ^ 32 + code - codeAt rows r c) = stored.getD (t.rows + c) 0) :
    (tileDiff t rows stored).found = some (r, c, code) := by
  subst hcode
  unfold tileDiff at hr hc ⊢
  dsimp only at hr hc ⊢
  simp only [hr, hc]
  exact if_pos ⟨trivial, h1, h2⟩

/-! ### A tile and its own checksums -/

section
variable {t : Tile} {rows : List (List Nat)} (hrows : rows.length = t.rows)

theorem sumDiff_self (k : Nat) : sumDiff t rows (t.sumsOf rows) k = 0 := by
  have h := codeChecksums_lt rows t.cols k
  unfold sumDiff Tile.sumsOf wrap32
  omega

theorem tileDiff_self : tileDiff t rows (t.sumsOf rows) = ⟨[], [], none⟩ := by
  have hr : (tileDiff t rows (t.sumsOf rows)).rows = [] := disagreeing_none fun k _ => sumDiff_self k
  have hc : (tileDiff t rows (t.sumsOf rows)).cols = [] := disagreeing_none fun k _ => sumDiff_self _
  have hf := tileDiff_found_none (.inl hr)
  revert hr hc hf
  cases tileDiff t rows (t.sumsOf rows)
  rintro ⟨⟩ ⟨⟩ ⟨⟩
  rfl

/-! ### One wrong code -/

section
variable {r c new : Nat} (hr : r < t.rows) (hc : c < t.cols) (hcols : ∀ l ∈ rows, l.length = t.cols)
  (hcodes : ∀ l ∈ rows, ∀ a ∈ l, a < 2 ^ t.width) (hw : t.width ≤ 32) (hnew : new < 2 ^ t.width) (hne : new ≠ codeAt rows r c)

/-- By how much the row and the column of the wrong code disagree. -/
def codeDiff (old new : Nat) : Nat := wrap32 (new + 2 ^ 32 - old)

include hr hrows hcols in
theorem codeLength : (rows.getD r []).length = t.cols := by
  have hr' : r < rows.length := hrows ▸ hr
  rw [List.getD_eq_getElem?_getD, List.getElem?_eq_getElem hr']
  exact hcols _ (List.getElem_mem hr')

include hrows hr hc hcols hcodes in
theorem codeAt_lt : codeAt rows r c < 2 ^ t.width := by
  have hr' : r < rows.length := hrows ▸ hr
  have hc' : c < (rows.getD r []).length := by rw [codeLength hrows hr hcols]; exact hc
  unfold codeAt
  rw [List.getD_eq_getElem?_getD, List.getElem?_eq_getElem hc']
  refine hcodes _ ?_ _ (List.getElem_mem hc')
  rw [List.getD_eq_getElem?_getD, List.getElem?_eq_getElem hr']
  exact List.getElem_mem hr'

include hrows hr hc hcols hcodes hw in
theorem codeAt_lt_32 : codeAt rows r c < 2 ^ 32 :=
  lt_of_lt_of_le (codeAt_lt hrows hr hc hcols hcodes) (Nat.pow_le_pow_right (by omega) hw)

/-- The difference of two sums one of whose terms is replaced. -/
theorem wrap32_sub_of_replaced {S S' old new : Nat} (ho : old < 2 ^ 32) (h : S' + old = S + new) :
    wrap32 (wrap32 S' + 2 ^ 32 - wrap32 S) = codeDiff old new := by
  unfold codeDiff wrap32
  omega

include hrows hr hc hcols hcodes hw in
theorem sumDiff_row (k : Nat) (hk : k < t.rows) : sumDiff t (putCode rows (r, c, new)) (t.sumsOf rows) k =
    if k = r then codeDiff (codeAt rows r c) new else 0 := by
  have hlen : k < (putCode rows (r, c, new)).length := by rw [putCode_eq_set, List.length_set, hrows]; exact hk
  have hlen' : c < (rows.getD r []).length := by rw [codeLength hrows hr hcols]; exact hc
  have hsum := rowSum_putCode (new := new) (hrows ▸ hr) hlen' k
  have hold := codeAt_lt_32 hrows hr hc hcols hcodes hw
  unfold sumDiff Tile.sumsOf
  rw [codeChecksums_row hlen, codeChecksums_row (hrows ▸ hk)]
  split
  · next h =>
    rw [if_pos h, if_pos h] at hsum
    exact wrap32_sub_of_replaced hold hsum
  · next h =>
    rw [if_neg h, if_neg h] at hsum
    rw [wrap32_sub_of_replaced (Nat.two_pow_pos 32) hsum]
    rfl

include hrows hr hc hcols hcodes hw in
theorem sumDiff_col (k : Nat) (hk : k < t.cols) : sumDiff t (putCode rows (r, c, new)) (t.sumsOf rows) (t.rows + k) =
    if k = c then codeDiff (codeAt rows r c) new else 0 := by
  have hlen : (putCode rows (r, c, new)).length = t.rows := by rw [putCode_eq_set, List.length_set, hrows]
  have hlen' : c < (rows.getD r []).length := by rw [codeLength hrows hr hcols]; exact hc
  have hsum := colSum_putCode (new := new) (hrows ▸ hr) hlen' k
  have hold := codeAt_lt_32 hrows hr hc hcols hcodes hw
  have h1 := codeChecksums_col (putCode rows (r, c, new)) hk
  have h2 := codeChecksums_col rows hk
  rw [hlen] at h1
  rw [hrows] at h2
  unfold sumDiff Tile.sumsOf
  rw [h1, h2]
  split
  · next h =>
    rw [if_pos h, if_pos h] at hsum
    exact wrap32_sub_of_replaced hold hsum
  · next h =>
    rw [if_neg h, if_neg h] at hsum
    rw [wrap32_sub_of_replaced (Nat.two_pow_pos 32) hsum]
    rfl

theorem codeDiff_ne_zero {old new : Nat} (ho : old < 2 ^ 32) (hn : new < 2 ^ 32) (h : new ≠ old) : codeDiff old new ≠ 0 := by
  unfold codeDiff wrap32
  omega

/-- Taking the difference from the new code gives the old one. -/
theorem sub_codeDiff {old new w : Nat} (ho : old < 2 ^ w) (hn : new < 2 ^ w) (hw : w ≤ 32) :
    (new + 2 ^ 32 - codeDiff old new) % 2 ^ w = old := by
  have hp : 2 ^ w ≤ 2 ^ 32 := Nat.pow_le_pow_right (by omega) hw
  obtain ⟨m, hm⟩ := Nat.pow_dvd_pow 2 hw
  have hd : new + 2 ^ 32 - codeDiff old new = old ∨ new + 2 ^ 32 - codeDiff old new = old + 2 ^ 32 := by
    unfold codeDiff wrap32
    omega
  rcases hd with hd | hd
  · rw [hd, Nat.mod_eq_of_lt ho]
  · rw [hd, hm, Nat.add_mul_mod_self_left, Nat.mod_eq_of_lt ho]

/-- A sum with the new code put back to the old one is the old sum. -/
theorem wrap32_restored {S S' old new : Nat} (hn : new < 2 ^ 32) (h : S' + old = S + new) :
    wrap32 (wrap32 S' + 2 ^ 32 + old - new) = wrap32 S := by
  unfold wrap32
  omega

include hrows hr hc hcols hcodes hw hnew hne

/-- One wrong code: its row and its column disagree, no other, and the crossing gives back the old code. -/
theorem tileDiff_putCode : tileDiff t (putCode rows (r, c, new)) (t.sumsOf rows) =
    ⟨[(r, codeDiff (codeAt rows r c) new)], [(c, codeDiff (codeAt rows r c) new)], some (r, c, codeAt rows r c)⟩ := by
  have hr' : r < rows.length := hrows ▸ hr
  have hlen : (putCode rows (r, c, new)).length = t.rows := by rw [putCode_eq_set, List.length_set, hrows]
  have hlen' : c < (rows.getD r []).length := by rw [codeLength hrows hr hcols]; exact hc
  have hold := codeAt_lt hrows hr hc hcols hcodes
  have hold32 := codeAt_lt_32 hrows hr hc hcols hcodes hw
  have hnew32 : new < 2 ^ 32 := lt_of_lt_of_le hnew (Nat.pow_le_pow_right (by omega) hw)
  have hne0 := codeDiff_ne_zero hold32 hnew32 hne
  have hrow := sumDiff_row hrows hr hc hcols hcodes hw (new := new)
  have hcol := sumDiff_col hrows hr hc hcols hcodes hw (new := new)
  have h1 : (tileDiff t (putCode rows (r, c, new)) (t.sumsOf rows)).rows = [(r, codeDiff (codeAt rows r c) new)] := by
    have hself := (hrow r hr).trans (if_pos rfl)
    rw [tileDiff_rows, disagreeing_one hr (hself.trans_ne hne0) fun k hk hkr => (hrow k hk).trans (if_neg hkr), hself]
  have h2 : (tileDiff t (putCode rows (r, c, new)) (t.sumsOf rows)).cols = [(c, codeDiff (codeAt rows r c) new)] := by
    have hself := (hcol c hc).trans (if_pos rfl)
    rw [tileDiff_cols, disagreeing_one hc (hself.trans_ne hne0) fun k hk hkc => (hcol k hk).trans (if_neg hkc), hself]
  have hsr := rowSum_putCode (new := new) hr' hlen' r
  have hsc := colSum_putCode (new := new) hr' hlen' c
  rw [if_pos rfl, if_pos rfl] at hsr hsc
  have h3 := tileDiff_found (code := codeAt rows r c) h1 h2 (by rw [codeAt_putCode hr' hlen', sub_codeDiff hold hnew hw])
    (by
      unfold Tile.sumsOf
      rw [codeAt_putCode hr' hlen', codeChecksums_row (hlen.symm ▸ hr), codeChecksums_row hr', wrap32_restored hnew32 hsr])
    (by
      have e1 := codeChecksums_col (putCode rows (r, c, new)) hc
      have e2 := codeChecksums_col rows hc
      rw [hlen] at e1
      rw [hrows] at e2
      unfold Tile.sumsOf
      rw [codeAt_putCode hr' hlen', e1, e2, wrap32_restored hnew32 hsc])
  revert h1 h2 h3
  cases tileDiff t (putCode rows (r, c, new)) (t.sumsOf rows)
  rintro ⟨⟩ ⟨⟩ ⟨⟩
  rfl

end

/-! ### One wrong checksum -/

section
variable {k v : Nat} (hk : k < t.rows + t.cols) (hv : v < 2 ^ 32) (hne : v ≠ (t.sumsOf rows).getD k 0)
include hrows hk hv hne

theorem sumDiff_set (j : Nat) : sumDiff t rows ((t.sumsOf rows).set k v) j = 0 ↔ j ≠ k := by
  have hlt := codeChecksums_lt rows t.cols j
  have hlen : k < (t.sumsOf rows).length := by
    unfold Tile.sumsOf
    rw [codeChecksums_length, hrows]
    exact hk
  have hset : ((t.sumsOf rows).set k v).getD j 0 = if j = k then v else (t.sumsOf rows).getD j 0 := by
    by_cases h : j = k
    · subst h; rw [if_pos rfl, List.getD_eq_getElem?_getD, List.getElem?_set_self hlen]; rfl
    · rw [if_neg h, List.getD_eq_getElem?_getD, List.getElem?_set_ne (Ne.symm h), List.getD_eq_getElem?_getD]
  change (t.sumsOf rows).getD j 0 < 2 ^ 32 at hlt
  unfold sumDiff wrap32
  rw [hset]
  by_cases h : j = k
  · subst h
    rw [if_pos rfl]
    omega
  · rw [if_neg h]
    omega

/-- One wrong checksum: it alone disagrees, among the rows or among the columns, and no element is located. -/
theorem tileDiff_set : let d := tileDiff t rows ((t.sumsOf rows).set k v)
    d.found = none ∧ d.rows.length + d.cols.length = 1 ∧ d.rows.map (·.1) ++ d.cols.map (fun c => t.rows + c.1) = [k] := by
  intro d
  have hd := sumDiff_set hrows hk hv hne
  by_cases h : k < t.rows
  · have h1 : d.rows = [(k, _)] := disagreeing_one h (fun e => (hd k).1 e rfl) fun j _ hj => (hd j).2 hj
    have h2 : d.cols = [] := disagreeing_none fun j _ => (hd _).2 (by omega)
    exact ⟨tileDiff_found_none (.inr h2), by rw [h1, h2]; rfl, by rw [h1, h2]; rfl⟩
  · have hsub : t.rows + (k - t.rows) = k := by omega
    have h1 : d.rows = [] := disagreeing_none fun j hj => (hd j).2 (by omega)
    have h2 : d.cols = [(k - t.rows, _)] :=
      disagreeing_one (by omega) (fun e => (hd _).1 e hsub) fun j _ hj => (hd _).2 (by omega)
    refine ⟨tileDiff_found_none (.inl h1), by rw [h1, h2]; rfl, ?_⟩
    rw [h1, h2]
    exact congrArg (fun n => [n]) hsub

end

end

/-! ### How a copy and a check end (R171, R172, R220, R221) -/

section
variable {t : Tile} {rows : List (List Nat)} {stored : List Nat} (bytes : List Byte) (hs : t.state = .valid)
include hs

theorem copyEnd_clean (hr : (tileDiff t rows stored).rows = []) (hc : (tileDiff t rows stored).cols = []) (cor : Bool) :
    copyEnd t ⟨bytes, rows, stored, false⟩ cor = ⟨0, rows, t.sumsOf rows, .valid, 0⟩ := by
  simp [copyEnd, hs, hr, hc]

theorem copyEnd_found {e : Nat × Nat × Nat} (hr : (tileDiff t rows stored).rows ≠ []) (hf : (tileDiff t rows stored).found = some e)
    (cor : Bool) : copyEnd t ⟨bytes, rows, stored, false⟩ cor =
      if cor then ⟨1, putCode rows e, stored, .valid, (tileDiff t rows stored).word + 1⟩
      else ⟨2, rows, stored, .suspect, (tileDiff t rows stored).word + 2⟩ := by
  simp [copyEnd, hs, hr, hf]

theorem copyEnd_one (hl : (tileDiff t rows stored).rows.length + (tileDiff t rows stored).cols.length = 1)
    (hf : (tileDiff t rows stored).found = none) (cor : Bool) : copyEnd t ⟨bytes, rows, stored, false⟩ cor =
      ⟨3, rows, t.sumsOf rows, .valid, (tileDiff t rows stored).word + 3⟩ := by
  have hne : ¬((tileDiff t rows stored).rows = [] ∧ (tileDiff t rows stored).cols = []) := by
    rintro ⟨hr, hc⟩
    simp [hr, hc] at hl
  simp [copyEnd, hs, hne, hf, hl]

theorem checkEnd_clean (hr : (tileDiff t rows stored).rows = []) (hc : (tileDiff t rows stored).cols = []) (fix : Bool) :
    ∃ word, checkEnd t rows stored fix = ⟨0, rows, stored, .valid, word, [], []⟩ := by
  simp [checkEnd, hs, hr, hc]

theorem checkEnd_found {e : Nat × Nat × Nat} (hr : (tileDiff t rows stored).rows ≠ []) (hf : (tileDiff t rows stored).found = some e)
    (fix : Bool) : ∃ word, checkEnd t rows stored fix =
      if fix then ⟨1, putCode rows e, stored, .valid, word, t.elemSpan e.1 e.2.1, []⟩ else ⟨2, rows, stored, .suspect, word, [], []⟩ := by
  cases fix <;> simp [checkEnd, hs, hr, hf]

theorem checkEnd_one (hl : (tileDiff t rows stored).rows.length + (tileDiff t rows stored).cols.length = 1)
    (hf : (tileDiff t rows stored).found = none) (fix : Bool) : ∃ word, checkEnd t rows stored fix =
      ⟨3, rows, t.sumsOf rows, .valid, word, [],
        (tileDiff t rows stored).rows.map (·.1) ++ (tileDiff t rows stored).cols.map fun c => t.rows + c.1⟩ := by
  have hne : ¬((tileDiff t rows stored).rows = [] ∧ (tileDiff t rows stored).cols = []) := by
    rintro ⟨hr, hc⟩
    simp [hr, hc] at hl
  simp [checkEnd, hs, hne, hf, hl]

end

/-- The fields of the status word of a STALE tile's check: counts below their widths do not run into one another. -/
theorem stale_word_fields {nc nr k : Nat} {recomp : Bool} (hc : nc ≤ 1024) (hr : nr ≤ 128) (hk : k ≤ 255) :
    let w := nc * 2 ^ 53 + nr * 2 ^ 45 + 0 + k * 2 ^ 20 + recomp.toNat * 2 ^ 7 + 1 * 2 ^ 4 + 5
    bits w 63 53 = nc ∧ bits w 52 45 = nr ∧ bits w 44 28 = 0 ∧ bits w 6 4 = 1 ∧ bits w 3 0 = 5 := by
  have hb : recomp.toNat ≤ 1 := by cases recomp <;> decide
  simp only [bits]
  omega

theorem checkEnd_stale (t : Tile) (rows : List (List Nat)) (stored : List Nat) (fix : Bool) :
    checkEnd { t with state := .stale } rows stored fix = ⟨5, rows, t.sumsOf rows, .valid,
      (tileDiff t rows stored).cols.length * 2 ^ 53 + (tileDiff t rows stored).rows.length * 2 ^ 45 + 0 + min 255 (t.ncor + 0) * 2 ^ 20 +
        t.recomp.toNat * 2 ^ 7 + 1 * 2 ^ 4 + 5, [], List.range (t.rows + t.cols)⟩ := rfl

/-- Settles O47: what disagrees for one wrong code and for one wrong checksum, and the ends of a copy and of a check in each case. -/
theorem tileChecksumsLocateErrors : Obligations.TileChecksumsLocateErrors := by
  unfold Obligations.TileChecksumsLocateErrors
  intro t rows hs hrows hcols hr0 hc0 hcodes hw hr128 hc1024 sums seen
  refine ⟨?_, ?_, ?_, ?_⟩
  · have hd : tileDiff t rows sums = ⟨[], [], none⟩ := tileDiff_self
    have hr : (tileDiff t rows sums).rows = [] := by rw [hd]
    have hc : (tileDiff t rows sums).cols = [] := by rw [hd]
    refine ⟨hd, copyEnd_clean [] hs hr hc, fun fix => ?_⟩
    obtain ⟨word, he⟩ := checkEnd_clean hs hr hc fix
    rw [he]
    exact ⟨rfl, rfl, rfl⟩
  · intro r c new hr hc hnew hne bad
    have hd : tileDiff t bad sums = _ := tileDiff_putCode hrows hr hc hcols hcodes hw hnew hne
    have hbad : putCode bad (r, c, codeAt rows r c) = rows :=
      putCode_putCode (hrows ▸ hr) (by rw [codeLength hrows hr hcols]; exact hc)
    have hne' : (tileDiff t bad sums).rows ≠ [] := by rw [hd]; exact List.cons_ne_nil _ _
    have hf : (tileDiff t bad sums).found = some (r, c, codeAt rows r c) := by rw [hd]
    obtain ⟨word, he⟩ := checkEnd_found hs hne' hf true
    obtain ⟨word', he'⟩ := checkEnd_found hs hne' hf false
    refine ⟨hf, by rw [hd]; rfl, by rw [hd]; rfl, ?_, ?_, ?_, ?_⟩
    · rw [copyEnd_found [] hs hne' hf]
      exact ⟨rfl, hbad, rfl⟩
    · rw [copyEnd_found [] hs hne' hf]
      exact ⟨rfl, rfl⟩
    · rw [he]
      exact ⟨rfl, hbad, rfl, rfl, rfl⟩
    · rw [he']
      exact ⟨rfl, rfl⟩
  · intro k v hk hv hne wrong
    obtain ⟨hf, hl, hwords⟩ := tileDiff_set (t := t) hrows hk hv hne
    refine ⟨fun cor => ?_, fun fix => ?_⟩
    · have he : copyEnd t (seen rows wrong) cor = _ := copyEnd_one [] hs hl hf cor
      rw [he]
      exact ⟨rfl, rfl, rfl⟩
    · obtain ⟨word, he⟩ := checkEnd_one hs hl hf fix
      change checkEnd t rows wrong fix = _ at he
      rw [he]
      exact ⟨rfl, rfl, rfl, hwords, rfl⟩
  · intro stored fix e d
    have he : e = _ := checkEnd_stale t rows stored fix
    have hfields := stale_word_fields (recomp := t.recomp) ((length_disagreeing _ _).trans hc1024 : d.cols.length ≤ 1024)
      ((length_disagreeing _ _).trans hr128 : d.rows.length ≤ 128) (Nat.min_le_left 255 (t.ncor + 0))
    rw [he]
    exact ⟨rfl, rfl, rfl, rfl, rfl, rfl, hfields⟩

end Sys2Proof.Machine
end

section
/-!
PROOF of the transform pipe (R120 to R132): requests, what each instruction's request holds, and the words, codes and blocks in it.
-/
namespace Sys2Proof.Machine

/-! ### Requests (R120) -/

/-- The crew's seat is not changed by an issue, so a scheduler has as many requests after it as before. -/
theorem transformsOf_issued {i : Instr} {s : State} {x : Crew} (h : Ready i s x) (n g t : Nat) :
    transformsOf { issued i s x with free := n } g t = transformsOf s g t := by
  have hcrew (c : Nat) (p : Crew → Bool) (hp : p (issuedCrew s x) = p x) : ((issued i s x).crew? c).any p = (s.crew? c).any p := by
    by_cases hc : c = s.cur
    · subst hc
      rw [issued_crew h, h.1.1]
      exact hp
    · rw [(issued_else h).crews c hc]
  unfold transformsOf
  show (List.filter _ (issued i s x).ops).length = _
  rw [issued_ops h]
  congr 1
  refine List.filter_congr fun e _ => ?_
  cases e.2.kind with
  | transform w => exact hcrew _ _ rfl
  | _ => rfl

/-- An instruction whose effect is a request of the pipe, a free value perhaps taken. -/
theorem asks_of_free {i : Instr} {s : State} {x : Crew} (h : Ready i s x) {own : Iss → Option Nat} (ho : own (issOf i s x) = none)
    {eff : Iss → State → Effect} (he : exec i s = .next (issue i own eff s)) {n : Nat} {w : Held}
    (hd : eff (issOf i s x) (issued i s x) = giveTransform (issOf i s x) { issued i s x with free := n } w) : AsksTransform i s x w := by
  have ht := transformsOf_issued h n x.seat.core x.seat.sched
  unfold giveTransform at hd
  simp only [issOf, Iss.g, ht] at hd
  unfold AsksTransform
  split
  · next hlt =>
    rw [if_neg (by omega)] at hd
    exact starts_of h ho he rfl hd
  · next hge =>
    rw [if_pos (by omega)] at hd
    rw [he, issue_ready h ho]
    simp only [issOf, hd]

theorem asks_of {i : Instr} {s : State} {x : Crew} (h : Ready i s x) {own : Iss → Option Nat} (ho : own (issOf i s x) = none)
    {eff : Iss → State → Effect} (he : exec i s = .next (issue i own eff s)) {w : Held}
    (hd : eff (issOf i s x) (issued i s x) = giveTransform (issOf i s x) (issued i s x) w) : AsksTransform i s x w :=
  asks_of_free h ho he (n := (issued i s x).free) hd

/-! ### Positions found in a chunk (R125, R126) -/

/-- The first element of an ordered list that passes a test comes before every other that does. -/
theorem find_ordered {R : Nat → Nat → Prop} {l : List Nat} (hl : l.Pairwise R) {p : Nat → Bool} {r : Nat} (h : l.find? p = some r) :
    p r = true ∧ r ∈ l ∧ ∀ j ∈ l, p j = true → j = r ∨ R r j := by
  obtain ⟨hp, as, bs, rfl, has⟩ := List.find?_eq_some_iff_append.1 h
  refine ⟨hp, by simp, fun j hj hpj => ?_⟩
  rcases List.mem_append.1 hj with hj | hj
  · simpa [hpj] using has j hj
  · rcases List.mem_cons.1 hj with rfl | hj
    · exact .inl rfl
    · exact .inr ((List.pairwise_cons.1 (List.pairwise_append.1 hl).2.1).1 j hj)

/-- The position found below `n`, or 16: it passes, and stands before (in the list's order) every other that does. -/
theorem find_position {R : Nat → Nat → Prop} {l : List Nat} (hl : l.Pairwise R) {n : Nat} (hmem : ∀ j, j ∈ l ↔ j < n) (hn : n ≤ 16)
    (p : Nat → Bool) : (l.find? p).getD 16 ≤ 16 ∧ ((l.find? p).getD 16 = 16 → ∀ j < n, ¬p j = true) ∧
      ((l.find? p).getD 16 < 16 → (l.find? p).getD 16 < n ∧ p ((l.find? p).getD 16) = true ∧
        ∀ j < n, p j = true → j = (l.find? p).getD 16 ∨ R ((l.find? p).getD 16) j) := by
  cases h : l.find? p with
  | none =>
    refine ⟨Nat.le_refl _, fun _ j hj => List.find?_eq_none.1 h j ((hmem j).2 hj), fun hlt => absurd hlt (by simp)⟩
  | some r =>
    obtain ⟨hp, hr, hj⟩ := find_ordered hl h
    have hrn := (hmem r).1 hr
    simp only [Option.getD_some]
    exact ⟨by omega, fun e => absurd e (by omega), fun _ => ⟨hrn, hp, fun j hjn => hj j ((hmem j).2 hjn)⟩⟩

theorem find_first {n : Nat} (hn : n ≤ 16) (p : Nat → Bool) :
    let r := ((List.range n).find? p).getD 16
    r ≤ 16 ∧ (r = 16 → ∀ j < n, ¬p j = true) ∧ (r < 16 → r < n ∧ p r = true ∧ ∀ j < n, p j = true → r ≤ j) := by
  obtain ⟨h1, h2, h3⟩ := find_position List.pairwise_lt_range (fun j => List.mem_range) hn p
  refine ⟨h1, h2, fun hlt => ?_⟩
  obtain ⟨h4, h5, h6⟩ := h3 hlt
  exact ⟨h4, h5, fun j hj hp => (h6 j hj hp).elim (·.ge) (·.le)⟩

theorem find_last {n : Nat} (hn : n ≤ 16) (p : Nat → Bool) :
    let r := ((List.range n).reverse.find? p).getD 16
    r ≤ 16 ∧ (r = 16 → ∀ j < n, ¬p j = true) ∧ (r < 16 → r < n ∧ p r = true ∧ ∀ j < n, p j = true → j ≤ r) := by
  obtain ⟨h1, h2, h3⟩ := find_position (List.pairwise_reverse.2 List.pairwise_lt_range : (List.range n).reverse.Pairwise (· > ·))
    (fun j => by rw [List.mem_reverse, List.mem_range]) hn p
  refine ⟨h1, h2, fun hlt => ?_⟩
  obtain ⟨h4, h5, h6⟩ := h3 hlt
  exact ⟨h4, h5, fun j hj hp => (h6 j hj hp).elim (·.le) fun h => Nat.le_of_lt h⟩

/-! ### Blocks (R53, R127, R130) -/

theorem lanes_ofFn_congr {f g : Nat → Word} (h : ∀ l < 128, f l = g l) : Lanes.ofFn f = Lanes.ofFn g :=
  congrArg Vector.ofFn (funext fun l : Fin 128 => h l l.isLt)

theorem lanes_get_ofFn (f : Nat → Word) {l : Nat} (h : l < 128) : (Lanes.ofFn f).get l = f l := by
  simp [Lanes.ofFn, Lanes.get, Nat.mod_eq_of_lt h]

theorem getD_map_range {α : Type} (f : Nat → α) {n j : Nat} (h : j < n) (d : α) : ((List.range n).map f).getD j d = f j := by
  simp [List.getD_eq_getElem?_getD, h]

/-- A lane's block is one of the blocks of 128 lanes. -/
theorem block_lt (bl : BitVec 2) {l : Nat} (h : l < 128) : l / blockLen bl < 128 / blockLen bl := by
  have hb : blockLen bl = 16 ∨ blockLen bl = 32 ∨ blockLen bl = 64 ∨ blockLen bl = 128 := by
    revert bl; decide
  rcases hb with e | e | e | e <;> rw [e] <;> omega

end Sys2Proof.Machine
end

section
/-!
PROOF of the transform instructions, continued: what the searches of a string, the quantiser and the block compressor put in flight (R122
to R132), and the lanes of whole blocks.
-/
namespace Sys2Proof.Machine

/-! ### What each instruction asks (R122 to R132) -/

theorem xstrfnd_asks {h : Hdr} {o : StrFnd} {s : State} {x : Crew} (hr : Ready (.xstrfnd h o) s x) :
    ∃ f, AsksTransform (.xstrfnd h o) s x (resV x 32 o.d f) ∧ ∀ l,
      let lo := srcL x 32 o.b l % 256
      let byte := chunkByte (issOf (.xstrfnd h o) s x) o.a l
      let hit (j : Nat) : Prop := j < min (srcL x 32 o.c l) 16 ∧
        if o.var = .rng then lo ≤ byte j ∧ byte j ≤ srcL x 32 o.b l / 256 % 256 else byte j = lo
      f l ≤ 16 ∧ (f l = 16 → ∀ j, ¬hit j) ∧ (f l < 16 → hit (f l) ∧ ∀ j, hit j → if o.var = .last then j ≤ f l else f l ≤ j) := by
  refine ⟨_, asks_of hr rfl rfl rfl, ?_⟩
  intro l lo byte hit
  have hn : min (srcL x 32 o.c l) 16 ≤ 16 := Nat.min_le_right _ _
  cases hv : o.var with
  | eq =>
    obtain ⟨h1, h2, h3⟩ := find_first hn fun j => byte j == lo
    simp only [hit, hv, reduceCtorEq, if_false]
    simp only [beq_iff_eq] at h2 h3
    exact ⟨h1, fun e j hj => h2 e j hj.1 hj.2, fun e => ⟨⟨(h3 e).1, (h3 e).2.1⟩, fun j hj => (h3 e).2.2 j hj.1 hj.2⟩⟩
  | rng =>
    obtain ⟨h1, h2, h3⟩ := find_first hn fun j => decide (lo ≤ byte j) && decide (byte j ≤ srcL x 32 o.b l / 256 % 256)
    simp only [hit, hv, reduceCtorEq, if_false, if_true]
    simp only [Bool.and_eq_true, decide_eq_true_eq] at h2 h3
    exact ⟨h1, fun e j hj => h2 e j hj.1 hj.2, fun e => ⟨⟨(h3 e).1, (h3 e).2.1⟩, fun j hj => (h3 e).2.2 j hj.1 hj.2⟩⟩
  | last =>
    obtain ⟨h1, h2, h3⟩ := find_last hn fun j => byte j == lo
    simp only [hit, hv, reduceCtorEq, if_false, if_true]
    simp only [beq_iff_eq] at h2 h3
    exact ⟨h1, fun e j hj => h2 e j hj.1 hj.2, fun e => ⟨⟨(h3 e).1, (h3 e).2.1⟩, fun j hj => (h3 e).2.2 j hj.1 hj.2⟩⟩

theorem xstrlen_asks {h : Hdr} {o : StrLen} {s : State} {x : Crew} (hr : Ready (.xstrlen h o) s x) :
    ∃ f, AsksTransform (.xstrlen h o) s x (resV x 32 o.d f) ∧ ∀ l,
      let byte := chunkByte (issOf (.xstrlen h o) s x) o.a l
      (o.utf8 = none → f l ≤ 16 ∧ (f l < 16 → byte (f l) = 0) ∧ ∀ j < f l, byte j ≠ 0) ∧
      ∀ b, o.utf8 = some b → f l = ((List.range (min (srcL x 32 b l) 16)).filter fun j => decide (byte j < 0x80 ∨ 0xBF < byte j)).length := by
  refine ⟨_, asks_of hr rfl rfl rfl, ?_⟩
  intro l byte
  refine ⟨fun hu => ?_, fun b hu => ?_⟩
  · obtain ⟨h1, h2, h3⟩ := find_first (Nat.le_refl 16) fun j => byte j == 0
    simp only [beq_iff_eq] at h2 h3
    simp only [hu]
    refine ⟨h1, fun e => (h3 e).2.1, fun j hj e => ?_⟩
    change j < ((List.range 16).find? fun j => byte j == 0).getD 16 at hj
    rcases Nat.lt_or_eq_of_le h1 with hlt | heq
    · exact absurd ((h3 hlt).2.2 j (by omega) e) (by omega)
    · exact h2 heq j (by omega) e
  · simp only [hu, Bool.decide_or]
    rfl

/-- Each block's codes, and its word in its first lane. -/
theorem xqnt_asks {h : Hdr} {o : Qnt} {s : State} {x : Crew} (hr : Ready (.xqnt h o) s x) :
    let n := blockLen o.bl
    let block (j : Nat) : List Nat × Nat × Nat := quantBlock o.fmt.toNat o.scf.toNat ((List.range n).map fun k =>
      if x.ctl.em.getLsbD (n * j + k) then srcL x 32 o.a (n * j + k) else 0)
    AsksTransform (.xqnt h o) s x { lanesHeld x.bank x.ctl.em o.d
        [Lanes.ofFn fun l => BitVec.ofNat 32 ((block (l / n)).1.getD (l % n) 0),
          Lanes.ofFn fun l => if l % n = 0 then BitVec.ofNat 32 (block (l / n)).2.1 else 0] with
      fp := BitVec.ofNat 32 ((List.range (128 / n)).foldl (fun t j => t ||| (block j).2.2) 0) } := by
  intro n block
  have hblock (l : Nat) (hl : l < 128) : ((List.range (128 / n)).map block).getD (l / n) ([], 0, 0) = block (l / n) :=
    getD_map_range block (block_lt o.bl hl) _
  have hcodes := lanes_ofFn_congr (f := fun l => BitVec.ofNat 32 ((((List.range (128 / n)).map block).getD (l / n) ([], 0, 0)).1.getD (l % n) 0))
    (g := fun l => BitVec.ofNat 32 ((block (l / n)).1.getD (l % n) 0)) fun l hl => by rw [hblock l hl]
  have hwords := lanes_ofFn_congr (f := fun l => if l % n = 0 then BitVec.ofNat 32 (((List.range (128 / n)).map block).getD (l / n) ([], 0, 0)).2.1 else 0)
    (g := fun l => if l % n = 0 then BitVec.ofNat 32 (block (l / n)).2.1 else 0) fun l hl => by rw [hblock l hl]
  have hfp : ((List.range (128 / n)).map block).foldl (fun t b => t ||| b.2.2) 0 = (List.range (128 / n)).foldl (fun t j => t ||| (block j).2.2) 0 :=
    List.foldl_map
  rw [← hcodes, ← hwords, ← hfp]
  exact asks_of hr rfl rfl rfl

theorem xdqnt_ends {h : Hdr} {o : Qnt} {s : State} {x : Crew} (hr : Ready (.xdqnt h o) s x) :
    let n := blockLen o.bl
    let word (j : Nat) : Nat := Iss.lane32 (issOf (.xdqnt h o) s x) o.a 1 (n * j) % 2 ^ 16
    let lanesOf (j : Nat) : List Nat := (activeLanes x.ctl.em).filter fun l => l / n == j
    let bad := (List.range (128 / n)).filter fun j => !(lanesOf j).isEmpty && metaFaulty o.fmt.toNat o.scf.toNat (word j)
    (bad = [] → ∃ free : Nat → Nat,
      let res (l : Nat) : FRes := dequant o.fmt.toNat o.scf.toNat (word (l / n)) (srcL x 32 o.a l % 2 ^ fmtWidth o.fmt.toNat) (free l)
      AsksTransform (.xdqnt h o) s x { resV x 32 o.d (fun l => (res l).bits) with
        fp := BitVec.ofNat 32 ((activeLanes x.ctl.em).foldl (fun t l => t ||| (res l).fl) 0) }) ∧
    (∀ j t, bad = j :: t → Traps (.xdqnt h o) s x ⟨0x0A, lanesMask (bad.flatMap lanesOf), BitVec.ofNat 64 (n * j)⟩) := by
  intro n word lanesOf bad
  refine ⟨fun hbad => ⟨fun l => Config.freeNat (issued (.xdqnt h o) s x).free / 2 ^ (33 * l), ?_⟩, fun j t hbad => ?_⟩
  · refine asks_of_free hr rfl rfl (n := (issued (.xdqnt h o) s x).free + 1) ?_
    change (match bad with | _ :: _ => _ | [] => giveTransform _ _ _) = _
    rw [hbad]
    rfl
  · refine traps_of hr rfl rfl ?_
    change (match bad with | j :: _ => Effect.trap ⟨0x0A, lanesMask (bad.flatMap lanesOf), BitVec.ofNat 64 (n * j)⟩ | [] => _) = _
    rw [hbad]

/-! ### Whole blocks (R130, R131) -/

theorem mem_fullBlocks {em : Mask} {b : Nat} : b ∈ fullBlocks em ↔ b < 4 ∧ ∀ l < 32, em.getLsbD (32 * b + l) = true := by
  have hbit (l : Nat) : (em.toNat / 2 ^ (32 * b) % 2 ^ 32).testBit l = (decide (l < 32) && em.getLsbD (32 * b + l)) := by
    rw [Nat.testBit_mod_two_pow, Nat.testBit_div_two_pow, Nat.add_comm l, BitVec.getLsbD]
  simp only [fullBlocks, List.mem_filter, List.mem_range, beq_iff_eq, bits, show 32 * b + 31 + 1 - 32 * b = 32 by omega]
  refine and_congr_right fun _ => ⟨fun h l hl => ?_, fun h => Nat.eq_of_testBit_eq fun l => ?_⟩
  · have hl' := hbit l
    rw [h, Nat.testBit_two_pow_sub_one, decide_eq_true hl, Bool.true_and] at hl'
    exact hl'.symm
  · rw [hbit, Nat.testBit_two_pow_sub_one]
    by_cases hl : l < 32
    · rw [h l hl, Bool.and_true]
    · rw [decide_eq_false hl, Bool.false_and]

/-- The words of all ones of the blocks below `n` that pass a test. -/
def blocksSum (p : Nat → Bool) (n : Nat) : Nat := (((List.range n).filter p).map fun b => (2 ^ 32 - 1) * 2 ^ (32 * b)).sum

theorem blocksSum_succ (p : Nat → Bool) (n : Nat) :
    blocksSum p (n + 1) = 2 ^ (32 * n) * (if p n then 2 ^ 32 - 1 else 0) + blocksSum p n := by
  simp only [blocksSum, List.range_succ, List.filter_append, List.map_append, List.sum_append]
  cases h : p n with
  | false => simp [h]
  | true => simp only [List.filter_cons, List.filter_nil, h, if_true, List.map_cons, List.map_nil, List.sum_cons, List.sum_nil]; ring

theorem blocksSum_lt (p : Nat → Bool) (n : Nat) : blocksSum p n < 2 ^ (32 * n) := by
  induction n with
  | zero => simp [blocksSum]
  | succ n ih =>
    rw [blocksSum_succ, Nat.mul_succ, pow_add]
    split <;> omega

theorem testBit_blocksSum (p : Nat → Bool) (n l : Nat) : (blocksSum p n).testBit l = (decide (l < 32 * n) && p (l / 32)) := by
  induction n with
  | zero => simp [blocksSum]
  | succ n ih =>
    rw [blocksSum_succ, Nat.testBit_two_pow_mul_add _ (blocksSum_lt p n)]
    split
    · next h => rw [ih]; simp [h, show l < 32 * (n + 1) by omega]
    · next h =>
      by_cases h2 : l < 32 * (n + 1)
      · rw [show l / 32 = n by omega, decide_eq_true h2, Bool.true_and]
        split
        · next hp => rw [hp, Nat.testBit_two_pow_sub_one, decide_eq_true (by omega)]
        · next hp => simp [hp]
      · rw [decide_eq_false h2, Bool.false_and]
        split
        · rw [Nat.testBit_two_pow_sub_one, decide_eq_false (by omega)]
        · exact Nat.zero_testBit _

theorem getLsbD_blocksMask (em : Mask) {l : Nat} (hl : l < 128) :
    (blocksMask (fullBlocks em)).getLsbD l = decide (l / 32 ∈ fullBlocks em) := by
  have hsum := testBit_blocksSum (fun b => bits em.toNat (32 * b + 31) (32 * b) == 2 ^ 32 - 1) 4 l
  rw [decide_eq_true (show l < 32 * 4 by omega), Bool.true_and] at hsum
  have hmem : decide (l / 32 ∈ fullBlocks em) = (bits em.toNat (32 * (l / 32) + 31) (32 * (l / 32)) == 2 ^ 32 - 1) := by
    rw [fullBlocks, Bool.eq_iff_iff, decide_eq_true_eq, List.mem_filter, List.mem_range]
    exact and_iff_right (by omega)
  rw [hmem, ← hsum]
  simp only [blocksMask, BitVec.getLsbD_ofNat, hl, decide_true, Bool.true_and]
  rfl

theorem xbdipk_asks {h : Hdr} {o : DA} {s : State} {x : Crew} (hr : Ready (.xbdipk h o) s x) : ∃ data code,
    AsksTransform (.xbdipk h o) s x (lanesHeld x.bank (blocksMask (fullBlocks x.ctl.em)) o.d [data, code]) ∧
    ∀ b ∈ fullBlocks x.ctl.em, ∀ l < 32,
      let v := laneBlock (issOf (.xbdipk h o) s x) o.a b
      data.get (32 * b + l) = BitVec.ofNat 32 (bdiPack v (bdiBest v) / 2 ^ (32 * l)) ∧
      code.get (32 * b + l) = if l = 0 then BitVec.ofNat 32 (bdiBest v + 256 * bdiSize (bdiBest v)) else 0 := by
  refine ⟨_, _, asks_of hr rfl rfl rfl, fun b hb l hl => ?_⟩
  have hb4 := (mem_fullBlocks.1 hb).1
  have hc : (fullBlocks (issOf (.xbdipk h o) s x).em).contains b = true := List.contains_iff_mem.2 hb
  rw [lanes_get_ofFn _ (by omega), lanes_get_ofFn _ (by omega), show (32 * b + l) / 32 = b by omega, show (32 * b + l) % 32 = l by omega,
    getD_map_range _ hb4]
  simp only [hc, if_true, and_self]

theorem xbdiup_ends {h : Hdr} {o : DA} {s : State} {x : Crew} (hr : Ready (.xbdiup h o) s x) :
    let code (b : Nat) : Nat := Iss.lane32 (issOf (.xbdiup h o) s x) o.a 1 (32 * b) % 16
    let bad := (fullBlocks x.ctl.em).filter fun b => decide (code b > 10)
    (bad = [] → ∃ data, AsksTransform (.xbdiup h o) s x (lanesHeld x.bank (blocksMask (fullBlocks x.ctl.em)) o.d [data]) ∧
      ∀ b ∈ fullBlocks x.ctl.em, ∀ l < 32, data.get (32 * b + l) =
        BitVec.ofNat 32 (bdiExpand (code b) (laneBlock (issOf (.xbdiup h o) s x) o.a b) / 2 ^ (32 * l))) ∧
    (∀ b t, bad = b :: t → Traps (.xbdiup h o) s x ⟨0x0F, blocksMask bad, BitVec.ofNat 64 b⟩) := by
  intro code bad
  let block (b : Nat) : Nat :=
    if (fullBlocks x.ctl.em).contains b then bdiExpand (code b) (laneBlock (issOf (.xbdiup h o) s x) o.a b) else 0
  refine ⟨fun hbad => ⟨Lanes.ofFn fun l => BitVec.ofNat 32 (((List.range 4).map block).getD (l / 32) 0 / 2 ^ (32 * (l % 32))), ?_, ?_⟩,
    fun b t hbad => ?_⟩
  · refine asks_of hr rfl rfl ?_
    change (match bad with | _ :: _ => _ | [] => giveTransform _ _ _) = _
    rw [hbad]
    rfl
  · intro b hb l hl
    have hb4 := (mem_fullBlocks.1 hb).1
    rw [lanes_get_ofFn _ (by omega), show (32 * b + l) / 32 = b by omega, show (32 * b + l) % 32 = l by omega, getD_map_range _ hb4]
    simp only [block, List.contains_iff_mem.2 hb, if_true]
  · refine traps_of hr rfl rfl ?_
    change (match bad with | b :: _ => Effect.trap ⟨0x0F, blocksMask bad, BitVec.ofNat 64 b⟩ | [] => _) = _
    rw [hbad]

end Sys2Proof.Machine
end

section
/-!
PROOF of the transform instructions, continued: the quantising rule on a block (R59), with its metadata word (R55), its members' error sums
(R57) and its scale (R54).
-/
namespace Sys2Proof.Machine

/-! ### Metadata words (R55) -/

/-- Parity is that of the count of bits set. -/
theorem parity_eq (w n : Nat) : parity w n = decide (((List.range n).filter fun b => w.testBit b).length % 2 = 1) := by
  induction n with
  | zero => rfl
  | succ n ih =>
    have hs : parity w (n + 1) = (parity w n ^^ w.testBit n) := by simp [parity, List.range_succ]
    rw [hs, ih, List.range_succ, List.filter_append, List.length_append]
    cases h : w.testBit n with
    | false => simp [h]
    | true =>
      simp only [List.filter_cons, h, if_true, List.filter_nil, List.length_cons, List.length_nil, Bool.xor_true, ← decide_not, decide_eq_decide]
      omega

theorem parity_congr {v w n : Nat} (h : ∀ b < n, v.testBit b = w.testBit b) : parity v n = parity w n :=
  List.foldl_ext _ _ _ fun s b hb => by rw [h b (List.mem_range.1 hb)]

theorem withParity_lt {w : Nat} (h : w < 1024) : withParity w < 2048 := by
  unfold withParity
  split <;> omega

theorem withParity_mod {w : Nat} (h : w < 1024) : withParity w % 1024 = w := by
  unfold withParity
  split <;> omega

/-- A metadata word has an even count of bits set. -/
theorem withParity_even {w : Nat} (h : w < 1024) : ((List.range 11).filter fun b => (withParity w).testBit b).length % 2 = 0 := by
  have hw : withParity w = 2 ^ 10 * (parity w 10).toNat + w := by
    unfold withParity
    cases parity w 10 with
    | false => simp
    | true => simp only [if_true, Bool.toNat_true]; omega
  have hlow : parity (withParity w) 10 = parity w 10 := parity_congr fun b hb => by
    rw [hw, Nat.testBit_two_pow_mul_add _ h, if_pos hb]
  have htop : (withParity w).testBit 10 = parity w 10 := by
    rw [hw, Nat.testBit_two_pow_mul_add _ h, if_neg (by omega)]
    cases parity w 10 <;> rfl
  have hs : parity (withParity w) 11 = (parity (withParity w) 10 ^^ (withParity w).testBit 10) := by simp [parity, List.range_succ]
  rw [hlow, htop, Bool.xor_self, parity_eq, decide_eq_false_iff_not] at hs
  omega

/-! ### The members of a family and their error sums (R57, R59) -/

theorem fmtMembers_length (f : Nat) : 0 < (fmtMembers f).length ∧ (fmtMembers f).length ≤ 3 := by
  unfold fmtMembers
  split <;> simp

/-- The value of an FP32 pattern that is no NaN, as an ordered key in which both zeros are 0. -/
def f32Order (x : Nat) : Int := if x.testBit 31 then -((x % 2 ^ 31 : Nat) : Int) else (x % 2 ^ 31 : Nat)

theorem fcompare_f32 (a b : Nat) : fcompare fmtF32 a b = if ((fmtF32.read a).isNan || (fmtF32.read b).isNan) = true then none else
    some (if f32Order a < f32Order b then -1 else if f32Order a = f32Order b then 0 else 1) := rfl

/-- An error sum is greater than another only where neither is a NaN (R59). -/
theorem sumGreater_iff (a b : Nat) :
    sumGreater a b = true ↔ (fmtF32.read a).isNan = false ∧ (fmtF32.read b).isNan = false ∧ f32Order b < f32Order a := by
  unfold sumGreater
  rw [fcompare_f32]
  by_cases hn : ((fmtF32.read a).isNan || (fmtF32.read b).isNan) = true
  · rw [if_pos hn]
    rw [Bool.or_eq_true] at hn
    rcases hn with hn | hn <;> simp [hn]
  · rw [if_neg hn]
    rw [Bool.not_eq_true, Bool.or_eq_false_iff] at hn
    simp only [hn.1, hn.2, decide_eq_true_eq, true_and]
    split_ifs <;> omega

/-- Some attempt has an error sum not greater than any other. -/
theorem exists_least_sum {l : List QuantTry} (hl : l ≠ []) : ∃ t ∈ l, ∀ u ∈ l, sumGreater t.sum u.sum = false := by
  by_cases hnan : ∃ t ∈ l, (fmtF32.read t.sum).isNan = true
  · obtain ⟨t, ht, hn⟩ := hnan
    refine ⟨t, ht, fun u _ => Bool.eq_false_iff.2 fun hg => ?_⟩
    simp [((sumGreater_iff _ _).1 hg).1] at hn
  · classical
    obtain ⟨t, ht, hmin⟩ := l.toFinset.exists_min_image (fun t => f32Order t.sum) (by simpa using hl)
    refine ⟨t, List.mem_toFinset.1 ht, fun u hu => Bool.eq_false_iff.2 fun hg => ?_⟩
    have := hmin u (List.mem_toFinset.2 hu)
    have := ((sumGreater_iff _ _).1 hg).2.2
    omega

/-! ### Scales (R54, R59) -/

theorem sat_mem {x lo hi : Int} (h : lo ≤ hi) : lo ≤ Sys2Proof.sat x lo hi ∧ Sys2Proof.sat x lo hi ≤ hi := by
  unfold Sys2Proof.sat
  split
  · omega
  · split <;> omega

theorem scaleRange_zero (scf : Nat) : (scaleRange scf).1 ≤ 0 ∧ 0 ≤ (scaleRange scf).2 := by
  unfold scaleRange
  split <;> simp

/-- An attempt's exponent is one that the scale format can hold. -/
theorem quantMember_e (mb scf : Nat) (xs : List Nat) (amax : Nat) :
    (scaleRange scf).1 ≤ (quantMember mb scf xs amax).e ∧ (quantMember mb scf xs amax).e ≤ (scaleRange scf).2 := by
  have h0 := scaleRange_zero scf
  unfold quantMember
  dsimp only
  split
  · exact h0
  · split <;> exact sat_mem (by omega)

theorem scaleCode_lt {scf : Nat} {e : Int} (h : (scaleRange scf).1 ≤ e ∧ e ≤ (scaleRange scf).2) : scaleCode scf e < 256 := by
  unfold scaleRange at h
  unfold scaleCode
  split at h <;> simp only at h ⊢
  · omega
  · omega
  · split
    · omega
    · split
      · omega
      · split <;> omega

theorem quantMember_codes (mb scf : Nat) (xs : List Nat) (amax : Nat) :
    (quantMember mb scf xs amax).codes = xs.map fun a => (quantElem mb (quantMember mb scf xs amax).e a).1 := by
  simp only [quantMember, List.map_map]
  rfl

theorem quantMember_sat (mb scf : Nat) (xs : List Nat) (amax : Nat) :
    (quantMember mb scf xs amax).sat = xs.any fun a => (quantElem mb (quantMember mb scf xs amax).e a).2.1 := by
  simp only [quantMember, List.any_map]
  rfl

/-! ### The quantising rule on a block (R59) -/

/-- A block with a NaN. -/
theorem quantBlock_nan (fmt : Nat) {scf : Nat} (hscf : scf < 3) {xs : List Nat} (h : ∃ a ∈ xs, (fmtF32.read a).isNan = true) :
    quantBlock fmt scf xs = (xs.map fun _ => 0, if scf = 0 then 0 else if scf = 1 then 0xFF else 0x47F, 16) := by
  have hany : (xs.any fun x => (fmtF32.read x).isNan) = true := List.any_eq_true.2 h
  unfold quantBlock
  rw [if_pos hany]
  have hscf' : scf = 0 ∨ scf = 1 ∨ scf = 2 := by omega
  rcases hscf' with rfl | rfl | rfl <;> rfl

/-- The attempts of a block's members. -/
def blockTries (fmt scf : Nat) (xs : List Nat) : List QuantTry :=
  (fmtMembers fmt).map fun mb => quantMember mb scf xs (xs.foldl (fun a x => max a (x % 2 ^ 31)) 0)

/-- Whether attempt `j` has an error sum not greater than any other. -/
def leastTry (l : List QuantTry) (j : Nat) : Bool :=
  match l[j]? with
  | some t => l.all fun u => !(sumGreater t.sum u.sum)
  | none => false

theorem leastTry_iff {l : List QuantTry} {j : Nat} :
    leastTry l j = true ↔ ∃ t, l[j]? = some t ∧ ∀ u ∈ l, sumGreater t.sum u.sum = false := by
  unfold leastTry
  cases h : l[j]? with
  | none => simp
  | some t => simp

/-- The attempt a block takes. -/
def bestTry (l : List QuantTry) : Nat := ((List.range l.length).find? (leastTry l)).getD 0

theorem bestTry_spec {l : List QuantTry} (hl : l ≠ []) : leastTry l (bestTry l) = true ∧ ∀ i < bestTry l, leastTry l i = false := by
  obtain ⟨t, ht, hmin⟩ := exists_least_sum hl
  obtain ⟨j, hj, hjt⟩ := List.getElem_of_mem ht
  have hok : leastTry l j = true := leastTry_iff.2 ⟨t, by rw [List.getElem?_eq_getElem hj, hjt], hmin⟩
  cases hf : (List.range l.length).find? (leastTry l) with
  | none => exact absurd hok (List.find?_eq_none.1 hf j (List.mem_range.2 hj))
  | some b =>
    obtain ⟨hb, -, hlt⟩ := List.find?_range_eq_some.1 hf
    rw [bestTry, hf]
    exact ⟨hb, fun i hi => by simpa using hlt i hi⟩

theorem quantBlock_plain (fmt scf : Nat) {xs : List Nat} (h : ∀ a ∈ xs, (fmtF32.read a).isNan = false) {q : QuantTry}
    (hq : (blockTries fmt scf xs)[bestTry (blockTries fmt scf xs)]? = some q) :
    quantBlock fmt scf xs =
      (q.codes, withParity (bestTry (blockTries fmt scf xs) * 256 + scaleCode scf q.e), if q.sat then flQSAT else 0) := by
  have hany : ¬(xs.any fun x => (fmtF32.read x).isNan) = true := by
    simp only [List.any_eq_true, not_exists, not_and, Bool.not_eq_true]
    exact h
  unfold quantBlock
  rw [if_neg hany]
  change (match (blockTries fmt scf xs)[bestTry (blockTries fmt scf xs)]? with
    | some t => (t.codes, withParity (bestTry (blockTries fmt scf xs) * 256 + scaleCode scf t.e), if t.sat then flQSAT else 0)
    | none => ([], 0, 0)) = _
  rw [hq]

/-- A block without a NaN takes the first member whose error sum is not greater than any other. -/
theorem quantBlock_least (fmt : Nat) (scf : Nat) {xs : List Nat} (h : ∀ a ∈ xs, (fmtF32.read a).isNan = false) :
    let try_ (mb : Nat) : QuantTry := quantMember mb scf xs (xs.foldl (fun a b => max a (b % 2 ^ 31)) 0)
    ∃ j mb, (fmtMembers fmt)[j]? = some mb ∧ (∀ k ∈ fmtMembers fmt, sumGreater (try_ mb).sum (try_ k).sum = false) ∧
      (∀ i k, i < j → (fmtMembers fmt)[i]? = some k → ∃ k' ∈ fmtMembers fmt, sumGreater (try_ k).sum (try_ k').sum = true) ∧
      (quantBlock fmt scf xs).1 = xs.map (fun a => (quantElem mb (try_ mb).e a).1) ∧
      (quantBlock fmt scf xs).2.2 = (if xs.any fun a => (quantElem mb (try_ mb).e a).2.1 then 1024 else 0) ∧
      let w := (quantBlock fmt scf xs).2.1
      w % 1024 = j * 256 + scaleCode scf (try_ mb).e ∧ w < 2048 ∧ ((List.range 11).filter fun b => w.testBit b).length % 2 = 0 := by
  intro try_
  obtain ⟨hpos, h3⟩ := fmtMembers_length fmt
  have htries : blockTries fmt scf xs = (fmtMembers fmt).map try_ := rfl
  have hne : blockTries fmt scf xs ≠ [] := by
    rw [htries, Ne, List.map_eq_nil_iff]
    exact List.ne_nil_of_length_pos hpos
  obtain ⟨hbest, hfirst⟩ := bestTry_spec hne
  obtain ⟨q, hq, hmin⟩ := leastTry_iff.1 hbest
  have hblock := quantBlock_plain fmt scf h hq
  rw [htries, List.getElem?_map, Option.map_eq_some_iff] at hq
  obtain ⟨mb, hmb, rfl⟩ := hq
  rw [← htries] at hmb
  have hj : bestTry (blockTries fmt scf xs) < 3 := lt_of_lt_of_le (List.getElem?_eq_some_iff.1 hmb).1 h3
  have hw : bestTry (blockTries fmt scf xs) * 256 + scaleCode scf (try_ mb).e < 1024 := by
    have := scaleCode_lt (quantMember_e mb scf xs (xs.foldl (fun a b => max a (b % 2 ^ 31)) 0))
    change scaleCode scf (try_ mb).e < 256 at this
    omega
  refine ⟨_, mb, hmb, fun k hk => hmin _ (List.mem_map_of_mem hk), fun i k hi hk => ?_, ?_, ?_, ?_, ?_, ?_⟩
  · have hnot := hfirst i hi
    by_contra hnone
    push Not at hnone
    have htry : (blockTries fmt scf xs)[i]? = some (try_ k) := by rw [htries, List.getElem?_map, hk]; rfl
    refine absurd (leastTry_iff.2 ⟨try_ k, htry, fun u hu => ?_⟩) (by rw [hnot]; simp)
    obtain ⟨k', hk', rfl⟩ := List.mem_map.1 hu
    exact Bool.eq_false_iff.2 (hnone k' hk')
  · rw [hblock]
    exact quantMember_codes ..
  · rw [hblock]
    simp only [try_, quantMember_sat]
    rfl
  · rw [hblock]
    exact withParity_mod hw
  · rw [hblock]
    exact withParity_lt hw
  · rw [hblock]
    exact withParity_even hw

end Sys2Proof.Machine
end

section
/-!
PROOF of the transform instructions, continued: the value a code stands for is nearest to its element (R60, R127), by the nearest integer to a
quotient and the nearest member of a list.
-/
namespace Sys2Proof.Machine

/-! ### The nearest value (R60) -/

/-- `v` is nearest to num / den among the values of `S`, `tie` holding where another is as near; `sat` tells that num / den lies beyond
all of them, and otherwise it lies between two. -/
def Closest (S : Int → Prop) (tie : Prop) (num : Int) (den : Nat) (v : Int) (sat : Bool) : Prop :=
  (∀ v', S v' → (num - v * den).natAbs ≤ (num - v' * den).natAbs ∧ ((num - v * den).natAbs = (num - v' * den).natAbs → v ≠ v' → tie) ∧
    (sat = true → (v' * den < num ∧ v' ≤ v) ∨ (num < v' * den ∧ v ≤ v'))) ∧
  (sat = false → ∃ v₁ v₂, S v₁ ∧ v₁ * den ≤ num ∧ S v₂ ∧ num ≤ v₂ * den)

section
variable {S : Int → Prop} {tie : Prop} {num : Int} {den : Nat} (hd : 0 < den)
include hd

theorem closest_of_below {lo : Int} (hS : ∀ v, S v → lo ≤ v) (h : num < lo * den) : Closest S tie num den lo true := by
  refine ⟨fun v' hv' => ?_, by simp⟩
  have hle := hS v' hv'
  have hmul : lo * den ≤ v' * den := mul_le_mul_of_nonneg_right hle (by omega)
  refine ⟨by omega, fun heq hne => ?_, fun _ => .inr ⟨by omega, hle⟩⟩
  have : lo * den < v' * den := mul_lt_mul_of_pos_right (lt_of_le_of_ne hle hne) (by omega)
  omega

theorem closest_of_above {hi : Int} (hS : ∀ v, S v → v ≤ hi) (h : hi * den < num) : Closest S tie num den hi true := by
  refine ⟨fun v' hv' => ?_, by simp⟩
  have hle := hS v' hv'
  have hmul : v' * den ≤ hi * den := mul_le_mul_of_nonneg_right hle (by omega)
  refine ⟨by omega, fun heq hne => ?_, fun _ => .inl ⟨by omega, hle⟩⟩
  have : v' * den < hi * den := mul_lt_mul_of_pos_right (lt_of_le_of_ne hle (Ne.symm hne)) (by omega)
  omega

/-- An integer within half of num / den is nearest among the integers; it is even where there is another. -/
theorem half_nearest {v v' : Int} (h : 2 * (num - v * den).natAbs ≤ den) (htie : 2 * (num - v * den).natAbs = den → v % 2 = 0) :
    (num - v * den).natAbs ≤ (num - v' * den).natAbs ∧ ((num - v * den).natAbs = (num - v' * den).natAbs → v ≠ v' → v % 2 = 0) := by
  rcases lt_trichotomy v v' with hlt | rfl | hlt
  · have : v * den + den ≤ v' * den := by nlinarith
    exact ⟨by omega, fun _ _ => htie (by omega)⟩
  · exact ⟨le_rfl, fun _ hne => absurd rfl hne⟩
  · have : v' * den + den ≤ v * den := by nlinarith
    exact ⟨by omega, fun _ _ => htie (by omega)⟩

end

/-! ### Members that hold every integer of a range (R60) -/

/-- num / den rounded to an integer of a range, and whether it saturated. -/
def rangeRound (lo hi : Int) (neg : Bool) (num den : Nat) : Int × Bool :=
  if negInt neg num < lo * den then (lo, true) else if hi * den < negInt neg num then (hi, true)
  else (negInt neg (roundScaled .rn neg num den 0).1, false)

/-- The integer of a rounded magnitude is within half, and even at just half. -/
theorem negInt_nearest {num den q : Nat} (h : NearestEven num den q) (neg : Bool) :
    2 * (negInt neg num - negInt neg q * den).natAbs ≤ den ∧
      (2 * (negInt neg num - negInt neg q * den).natAbs = den → negInt neg q % 2 = 0) := by
  obtain ⟨h1, h2, h3⟩ := h
  have e : 2 * q * den = 2 * (q * den) := by ring
  rw [e] at h1 h2 h3
  have e' : ((q * den : Nat) : Int) = (q : Int) * den := by push_cast; rfl
  cases neg with
  | false => simp only [negInt, Bool.false_eq_true, if_false]; omega
  | true => simp only [negInt, if_true, neg_mul]; omega

theorem rangeRound_closest {lo hi : Int} (hlh : lo ≤ hi) {S : Int → Prop} (hS : ∀ v, S v ↔ lo ≤ v ∧ v ≤ hi) (neg : Bool) (num : Nat) {den : Nat}
    (hd : 0 < den) : (lo ≤ (rangeRound lo hi neg num den).1 ∧ (rangeRound lo hi neg num den).1 ≤ hi) ∧
      Closest S ((rangeRound lo hi neg num den).1 % 2 = 0) (negInt neg num) den (rangeRound lo hi neg num den).1 (rangeRound lo hi neg num den).2 := by
  unfold rangeRound
  split
  · next h => exact ⟨⟨le_rfl, hlh⟩, closest_of_below hd (fun v hv => ((hS v).1 hv).1) h⟩
  · next hlo =>
    split
    · next h => exact ⟨⟨hlh, le_rfl⟩, closest_of_above hd (fun v hv => ((hS v).1 hv).2) h⟩
    · next hhi =>
      have hn := roundScaled_nearest neg num hd 0
      simp only [scaledNum, scaledDen, Int.toNat_zero, neg_zero, pow_zero, mul_one] at hn
      obtain ⟨hhalf, htie⟩ := negInt_nearest hn neg
      generalize (roundScaled Rnd.rn neg num den 0).1 = q at *
      refine ⟨⟨?_, ?_⟩, fun v' _ => ⟨(half_nearest hd hhalf htie).1, (half_nearest hd hhalf htie).2, by simp⟩,
        fun _ => ⟨lo, hi, (hS _).2 ⟨le_rfl, hlh⟩, by omega, (hS _).2 ⟨hlh, le_rfl⟩, by omega⟩⟩
      · by_contra hlt
        have : negInt neg q * den + den ≤ lo * den := by nlinarith
        omega
      · by_contra hlt
        have : hi * den + den ≤ negInt neg q * den := by nlinarith
        omega

/-! ### Members given by their levels (R60) -/

/-- The index of the level found is in the list; its level is nearest, and of two such the one of even index. -/
theorem nearestLevel_spec (n : Int) {d : Nat} (hd : 0 < d) (ls : List Int) (hls : ls.Pairwise (· < ·)) (hne : ls ≠ []) (k : Nat) :
    ∃ i v, nearestLevel n d k ls = k + i ∧ ls[i]? = some v ∧ ∀ v' ∈ ls, (n - v * d).natAbs ≤ (n - v' * d).natAbs ∧
      ((n - v * d).natAbs = (n - v' * d).natAbs → v ≠ v' → (k + i) % 2 = 0) := by
  induction ls generalizing k with
  | nil => exact absurd rfl hne
  | cons a t ih =>
    cases t with
    | nil => exact ⟨0, a, rfl, rfl, by simp⟩
    | cons b t =>
      obtain ⟨hab, hbt⟩ := List.pairwise_cons.1 hls
      have hlt := hab b List.mem_cons_self
      have hmul : a * d < b * d := mul_lt_mul_of_pos_right hlt (by omega)
      have hsum : (a + b) * d = a * d + b * d := by ring
      by_cases hk : 2 * n < (a + b) * d ∨ (2 * n = (a + b) * d ∧ k % 2 = 0)
      · refine ⟨0, a, by rw [nearestLevel, if_pos hk]; rfl, rfl, fun v' hv' => ?_⟩
        rcases List.mem_cons.1 hv' with rfl | hv'
        · exact ⟨le_rfl, fun _ hne => absurd rfl hne⟩
        · have hle : b * d ≤ v' * d := by
            refine mul_le_mul_of_nonneg_right ?_ (by omega)
            rcases List.mem_cons.1 hv' with rfl | hv'
            · exact le_rfl
            · exact ((List.pairwise_cons.1 hbt).1 _ hv').le
          exact ⟨by omega, fun _ _ => by omega⟩
      · obtain ⟨i, v, hi, hv, hall⟩ := ih hbt (List.cons_ne_nil _ _) (k + 1)
        refine ⟨i + 1, v, by rw [nearestLevel, if_neg hk, hi]; omega, hv, fun v' hv' => ?_⟩
        obtain ⟨hb1, hb2⟩ := hall b List.mem_cons_self
        rcases List.mem_cons.1 hv' with rfl | hv'
        · refine ⟨by omega, fun heq _ => ?_⟩
          by_cases hvb : v = b
          · subst hvb
            have hi0 : i = 0 := by
              cases i with
              | zero => rfl
              | succ i => exact absurd ((List.pairwise_cons.1 hbt).1 v (List.mem_of_getElem? hv)) (lt_irrefl v)
            omega
          · have := hb2 (by omega) hvb
            omega
        · obtain ⟨h1, h2⟩ := hall v' hv'
          exact ⟨h1, fun heq hne => by have := h2 heq hne; omega⟩

/-- The code of the level nearest to num / den, and whether num / den lies beyond all of them. -/
def levelRound (ls : List Int) (x : Int) (den : Nat) : Nat × Bool :=
  if x < ls.headD 0 * den then (0, true)
  else if ls.getLastD 0 * den < x then (ls.length - 1, true)
  else (nearestLevel x den 0 ls, false)

theorem headD_le {ls : List Int} (h : ls.Pairwise (· < ·)) {v : Int} (hv : v ∈ ls) : ls.headD 0 ≤ v := by
  cases ls with
  | nil => simp at hv
  | cons a t =>
    rcases List.mem_cons.1 hv with rfl | hv
    · exact le_rfl
    · exact ((List.pairwise_cons.1 h).1 _ hv).le

theorem le_getLastD {ls : List Int} (h : ls.Pairwise (· < ·)) {v : Int} (hv : v ∈ ls) : v ≤ ls.getLastD 0 := by
  have hne : ls ≠ [] := List.ne_nil_of_mem hv
  rw [List.getLastD_eq_getLast?, List.getLast?_eq_some_getLast hne]
  exact (h.imp le_of_lt).rel_getLast hv

theorem levelRound_closest {ls : List Int} (hls : ls.Pairwise (· < ·)) (hne : ls ≠ []) {S : Int → Prop} (hS : ∀ v, S v ↔ v ∈ ls) (num : Int)
    {den : Nat} (hd : 0 < den) : ∃ v, ls[(levelRound ls num den).1]? = some v ∧
      Closest S ((levelRound ls num den).1 % 2 = 0) num den v (levelRound ls num den).2 := by
  have hhead : ls[0]? = some (ls.headD 0) := by cases ls with | nil => exact absurd rfl hne | cons a t => rfl
  have hlast : ls[ls.length - 1]? = some (ls.getLastD 0) := by
    rw [← List.getLast?_eq_getElem?, List.getLastD_eq_getLast?, List.getLast?_eq_some_getLast hne]
    rfl
  unfold levelRound
  split
  · next h => exact ⟨_, hhead, closest_of_below hd (fun v hv => headD_le hls ((hS v).1 hv)) h⟩
  · next hlo =>
    split
    · next h => exact ⟨_, hlast, closest_of_above hd (fun v hv => le_getLastD hls ((hS v).1 hv)) h⟩
    · next hhi =>
      obtain ⟨i, v, hi, hv, hall⟩ := nearestLevel_spec num hd ls hls hne 0
      rw [Nat.zero_add] at hi hall
      rw [hi]
      exact ⟨v, hv, fun v' hv' => ⟨(hall v' ((hS v').1 hv')).1, (hall v' ((hS v').1 hv')).2, by simp⟩,
        fun _ => ⟨_, _, (hS _).2 (List.mem_of_getElem? hhead), not_lt.1 hlo, (hS _).2 (List.mem_of_getElem? hlast), not_lt.1 hhi⟩⟩

/-! ### A member's codes and their values (R48, R51, R60) -/

theorem scaledNum_eq (mag : Nat) (k : Int) : (if k ≥ 0 then mag * 2 ^ k.toNat else mag) = scaledNum mag k := by
  unfold scaledNum
  split
  · rfl
  · rw [show k.toNat = 0 by omega, pow_zero, mul_one]

theorem scaledDen_eq (k : Int) : (if k ≥ 0 then 1 else 2 ^ (-k).toNat) = scaledDen 1 k := by
  unfold scaledDen
  split
  · rw [show (-k).toNat = 0 by omega, pow_zero, mul_one]
  · rw [one_mul]

section
variable {mb : Nat} (neg : Bool) (mag : Nat) (k : Int)

theorem roundToMember_int {w : Nat} (h : elemKind mb = .int w) : roundToMember mb neg mag k =
    let r := rangeRound (-(2 ^ (w - 1) : Nat)) (2 ^ (w - 1) - 1 : Nat) neg (scaledNum mag k) (scaledDen 1 k); (wrap w r.1, r.2) := by
  unfold roundToMember
  simp only [scaledNum_eq, scaledDen_eq, h]
  rfl

theorem roundToMember_nat {w : Nat} (h : elemKind mb = .nat w) : roundToMember mb neg mag k =
    let r := rangeRound 0 (2 ^ w - 1 : Nat) neg (scaledNum mag k) (scaledDen 1 k); (wrap w r.1, r.2) := by
  unfold roundToMember
  simp only [scaledNum_eq, scaledDen_eq, h]
  rfl

theorem roundToMember_trit (h : elemKind mb = .trit) : roundToMember mb neg mag k =
    let r := rangeRound (-1) 1 neg (scaledNum mag k) (scaledDen 1 k); (wrap 2 r.1, r.2) := by
  unfold roundToMember
  simp only [scaledNum_eq, scaledDen_eq, h]
  rfl

theorem roundToMember_bin (h : elemKind mb = .bin) : roundToMember mb neg mag k =
    levelRound [-1, 1] (negInt neg (scaledNum mag k)) (scaledDen 1 k) := by
  unfold roundToMember
  simp only [scaledNum_eq, scaledDen_eq, h]
  rfl

theorem roundToMember_level {ls : List Int} (h : elemKind mb = .level ls) : roundToMember mb neg mag k =
    levelRound ls (negInt neg (scaledNum mag k)) (scaledDen 1 k) := by
  unfold roundToMember
  simp only [scaledNum_eq, scaledDen_eq, h]
  rfl

end

/-- Code `c` is the one nearest to num / den among a member's codes, and whether num / den lies beyond all of them. -/
def NearestCode (mb : Nat) (num : Int) (den c : Nat) (sat : Bool) : Prop :=
  ∃ v, decodeElem mb c = .int v ∧ c < 2 ^ fmtWidth mb ∧ ∀ c' v', c' < 2 ^ fmtWidth mb → decodeElem mb c' = .int v' →
    (num - v * den).natAbs ≤ (num - v' * den).natAbs ∧
    ((num - v * den).natAbs = (num - v' * den).natAbs → v ≠ v' → if mb ∈ [0x01, 0x05, 0x07, 0x0C] then c % 2 = 0 else v % 2 = 0) ∧
    (sat = true → (v' * den < num ∧ v' ≤ v) ∨ (num < v' * den ∧ v ≤ v')) ∧
    (sat = false → ∃ c₁ v₁ c₂ v₂, decodeElem mb c₁ = .int v₁ ∧ v₁ * den ≤ num ∧ decodeElem mb c₂ = .int v₂ ∧ num ≤ v₂ * den)

/-- The values that a member's codes stand for. -/
def memberValues (mb : Nat) (v : Int) : Prop := ∃ c < 2 ^ fmtWidth mb, decodeElem mb c = .int v

theorem nearestCode_of_closest {mb : Nat} {num : Int} {den c : Nat} {sat : Bool} {v : Int} (hv : decodeElem mb c = .int v)
    (hc : c < 2 ^ fmtWidth mb)
    (h : Closest (memberValues mb) (if mb ∈ [0x01, 0x05, 0x07, 0x0C] then c % 2 = 0 else v % 2 = 0) num den v sat) : NearestCode mb num den c sat := by
  refine ⟨v, hv, hc, fun c' v' hc' hv' => ?_⟩
  obtain ⟨hle, htie, hsat⟩ := h.1 v' ⟨c', hc', hv'⟩
  refine ⟨hle, htie, hsat, fun hs => ?_⟩
  obtain ⟨v₁, v₂, ⟨c₁, -, h₁⟩, hle₁, ⟨c₂, -, h₂⟩, hle₂⟩ := h.2 hs
  exact ⟨c₁, v₁, c₂, v₂, h₁, hle₁, h₂, hle₂⟩

/-- A member whose values are the integers of a range, coded by their patterns. -/
theorem nearestCode_range {mb w : Nat} {lo hi : Int} (hmb : mb ∉ [0x01, 0x05, 0x07, 0x0C]) (hw : fmtWidth mb = w) (hlh : lo ≤ hi)
    (hdec : ∀ v, lo ≤ v → v ≤ hi → decodeElem mb (wrap w v) = .int v)
    (hval : ∀ c v, c < 2 ^ w → decodeElem mb c = .int v → lo ≤ v ∧ v ≤ hi) (neg : Bool) (num : Nat) {den : Nat} (hd : 0 < den) :
    NearestCode mb (negInt neg num) den (wrap w (rangeRound lo hi neg num den).1) (rangeRound lo hi neg num den).2 := by
  have hS (v : Int) : memberValues mb v ↔ lo ≤ v ∧ v ≤ hi := by
    refine ⟨fun ⟨c, hc, hv⟩ => hval c v (hw ▸ hc) hv, fun ⟨h1, h2⟩ => ⟨wrap w v, ?_, hdec v h1 h2⟩⟩
    rw [hw]
    exact wrap_lt w v
  obtain ⟨⟨h1, h2⟩, hcl⟩ := rangeRound_closest hlh hS neg num hd
  refine nearestCode_of_closest (hdec _ h1 h2) (by rw [hw]; exact wrap_lt w _) ?_
  rwa [if_neg hmb]

theorem wrap_signed {w : Nat} (hw : 0 < w) {v : Int} (h1 : -(2 ^ (w - 1) : Nat) ≤ v) (h2 : v ≤ (2 ^ (w - 1) - 1 : Nat)) :
    signed w (wrap w v) = v := by
  obtain ⟨n, rfl⟩ : ∃ n, w = n + 1 := ⟨w - 1, by omega⟩
  rw [Nat.add_sub_cancel] at h1 h2
  have hp : 2 ^ (n + 1) = 2 * 2 ^ n := by rw [pow_succ]; ring
  have hpos := Nat.two_pow_pos n
  rw [signed_of_lt (wrap_lt _ _)]
  unfold wrap
  rw [hp]
  generalize 2 ^ n = p at *
  rcases lt_or_ge v 0 with hneg | hpos'
  · have : v % ((2 * p : Nat) : Int) = v + (2 * p : Nat) := by
      rw [← Int.add_emod_right, Int.emod_eq_of_lt (by omega) (by omega)]
    rw [this]
    omega
  · rw [Int.emod_eq_of_lt (by omega) (by omega)]
    omega

theorem signed_range {w x : Nat} (hw : 0 < w) (h : x < 2 ^ w) : -(2 ^ (w - 1) : Nat) ≤ signed w x ∧ signed w x ≤ (2 ^ (w - 1) - 1 : Nat) := by
  obtain ⟨n, rfl⟩ : ∃ n, w = n + 1 := ⟨w - 1, by omega⟩
  have hp : 2 ^ (n + 1) = 2 * 2 ^ n := by rw [pow_succ]; ring
  rw [signed_of_lt h, Nat.add_sub_cancel, hp]
  rw [hp] at h
  generalize 2 ^ n = p at *
  omega

theorem nearestCode_int {mb w : Nat} (h : elemKind mb = .int w) (hw0 : 0 < w) (hmb : mb ∉ [0x01, 0x05, 0x07, 0x0C]) (hw : fmtWidth mb = w)
    (neg : Bool) (mag : Nat) (k : Int) :
    NearestCode mb (negInt neg (scaledNum mag k)) (scaledDen 1 k) (roundToMember mb neg mag k).1 (roundToMember mb neg mag k).2 := by
  have hdec (c : Nat) : decodeElem mb c = .int (signed w c) := by simp only [decodeElem, h]
  have hpos := Nat.two_pow_pos (w - 1)
  rw [roundToMember_int neg mag k h]
  refine nearestCode_range hmb hw (by omega) (fun v h1 h2 => ?_) (fun c v hc hv => ?_) neg _ (scaledDen_pos one_pos k)
  · rw [hdec, wrap_signed hw0 h1 h2]
  · rw [hdec, Elem.int.injEq] at hv
    exact hv ▸ signed_range hw0 hc

theorem nearestCode_nat {mb w : Nat} (h : elemKind mb = .nat w) (hmb : mb ∉ [0x01, 0x05, 0x07, 0x0C]) (hw : fmtWidth mb = w)
    (neg : Bool) (mag : Nat) (k : Int) :
    NearestCode mb (negInt neg (scaledNum mag k)) (scaledDen 1 k) (roundToMember mb neg mag k).1 (roundToMember mb neg mag k).2 := by
  have hdec (c : Nat) : decodeElem mb c = .int (c % 2 ^ w : Nat) := by simp only [decodeElem, h]
  have hpos := Nat.two_pow_pos w
  rw [roundToMember_nat neg mag k h]
  refine nearestCode_range hmb hw (by omega) (fun v h1 h2 => ?_) (fun c v hc hv => ?_) neg _ (scaledDen_pos one_pos k)
  · rw [hdec, Nat.mod_eq_of_lt (wrap_lt w v), wrap, Int.emod_eq_of_lt h1 (by omega), Int.toNat_of_nonneg h1]
  · rw [hdec, Elem.int.injEq, Nat.mod_eq_of_lt hc] at hv
    omega

theorem nearestCode_trit {mb : Nat} (h : elemKind mb = .trit) (hmb : mb ∉ [0x01, 0x05, 0x07, 0x0C]) (hw : fmtWidth mb = 2)
    (neg : Bool) (mag : Nat) (k : Int) :
    NearestCode mb (negInt neg (scaledNum mag k)) (scaledDen 1 k) (roundToMember mb neg mag k).1 (roundToMember mb neg mag k).2 := by
  rw [roundToMember_trit neg mag k h]
  refine nearestCode_range hmb hw (by omega) (fun v h1 h2 => ?_) (fun c v hc hv => ?_) neg _ (scaledDen_pos one_pos k)
  · obtain rfl | rfl | rfl : v = -1 ∨ v = 0 ∨ v = 1 := by omega
    all_goals simp only [decodeElem, h]; rfl
  · simp only [decodeElem, h] at hv
    split at hv <;> cases hv <;> decide

/-- A member whose values are a list of levels, coded by their indices. -/
theorem nearestCode_levels {mb : Nat} {ls : List Int} (hmb : mb ∈ [0x01, 0x05, 0x07, 0x0C]) (hlen : 2 ^ fmtWidth mb = ls.length)
    (hls : ls.Pairwise (· < ·)) (hdec : ∀ c, c < ls.length → decodeElem mb c = .int (ls.getD c 0)) (x : Int) {den : Nat} (hd : 0 < den) :
    NearestCode mb x den (levelRound ls x den).1 (levelRound ls x den).2 := by
  have hget {c : Nat} {v : Int} (hc : ls[c]? = some v) : c < ls.length ∧ decodeElem mb c = .int v := by
    have hlt := (List.getElem?_eq_some_iff.1 hc).1
    exact ⟨hlt, by rw [hdec c hlt, List.getD_eq_getElem?_getD, hc]; rfl⟩
  have hne : ls ≠ [] := by
    rw [← List.length_pos_iff, ← hlen]
    exact Nat.two_pow_pos _
  have hS (v : Int) : memberValues mb v ↔ v ∈ ls := by
    refine ⟨fun ⟨c, hc, hv⟩ => ?_, fun hv => ?_⟩
    · rw [hlen] at hc
      rw [hdec c hc, Elem.int.injEq, List.getD_eq_getElem?_getD, List.getElem?_eq_getElem hc] at hv
      exact hv ▸ List.getElem_mem hc
    · obtain ⟨c, hc⟩ := List.getElem?_of_mem hv
      exact ⟨c, hlen ▸ (hget hc).1, (hget hc).2⟩
  obtain ⟨v, hv, hcl⟩ := levelRound_closest hls hne hS x hd
  refine nearestCode_of_closest (hget hv).2 (hlen ▸ (hget hv).1) ?_
  rwa [if_pos hmb]

theorem nearestCode_level {mb : Nat} {ls : List Int} (h : elemKind mb = .level ls) (hmb : mb ∈ [0x01, 0x05, 0x07, 0x0C])
    (hlen : 2 ^ fmtWidth mb = ls.length) (hls : ls.Pairwise (· < ·)) (neg : Bool) (mag : Nat) (k : Int) :
    NearestCode mb (negInt neg (scaledNum mag k)) (scaledDen 1 k) (roundToMember mb neg mag k).1 (roundToMember mb neg mag k).2 := by
  rw [roundToMember_level neg mag k h]
  refine nearestCode_levels hmb hlen hls (fun c hc => ?_) _ (scaledDen_pos one_pos k)
  simp only [decodeElem, h, Nat.mod_eq_of_lt hc]

theorem nearestCode_bin {mb : Nat} (h : elemKind mb = .bin) (hmb : mb ∈ [0x01, 0x05, 0x07, 0x0C]) (hw : fmtWidth mb = 1)
    (neg : Bool) (mag : Nat) (k : Int) :
    NearestCode mb (negInt neg (scaledNum mag k)) (scaledDen 1 k) (roundToMember mb neg mag k).1 (roundToMember mb neg mag k).2 := by
  rw [roundToMember_bin neg mag k h]
  refine nearestCode_levels hmb (by rw [hw]; rfl) (by decide) (fun c hc => ?_) _ (scaledDen_pos one_pos k)
  obtain rfl | rfl : c = 0 ∨ c = 1 := by simp at hc; omega
  all_goals simp only [decodeElem, h]; rfl

/-- The code that R60 gives an element is the nearest of the member's codes. -/
theorem roundToMember_nearest {mb : Nat}
    (hmb : mb ∈ [0x01, 0x02, 0x03, 0x04, 0x05, 0x06, 0x07, 0x08, 0x09, 0x0C, 0x0E, 0x12, 0x13, 0x18, 0x19, 0x1C]) (neg : Bool) (mag : Nat) (k : Int) :
    NearestCode mb (negInt neg (scaledNum mag k)) (scaledDen 1 k) (roundToMember mb neg mag k).1 (roundToMember mb neg mag k).2 := by
  simp only [List.mem_cons, List.not_mem_nil, or_false] at hmb
  rcases hmb with rfl | rfl | rfl | rfl | rfl | rfl | rfl | rfl | rfl | rfl | rfl | rfl | rfl | rfl | rfl | rfl
  · exact nearestCode_bin rfl (by decide) rfl neg mag k
  · exact nearestCode_trit rfl (by decide) rfl neg mag k
  · exact nearestCode_int rfl (by decide) (by decide) rfl neg mag k
  · exact nearestCode_nat rfl (by decide) rfl neg mag k
  · exact nearestCode_level rfl (by decide) (by decide) (by decide) neg mag k
  · exact nearestCode_int rfl (by decide) (by decide) rfl neg mag k
  · exact nearestCode_level rfl (by decide) (by decide) (by decide) neg mag k
  · exact nearestCode_int rfl (by decide) (by decide) rfl neg mag k
  · exact nearestCode_nat rfl (by decide) rfl neg mag k
  · exact nearestCode_level rfl (by decide) (by decide) (by decide) neg mag k
  · exact nearestCode_int rfl (by decide) (by decide) rfl neg mag k
  · exact nearestCode_int rfl (by decide) (by decide) rfl neg mag k
  · exact nearestCode_nat rfl (by decide) rfl neg mag k
  · exact nearestCode_int rfl (by decide) (by decide) rfl neg mag k
  · exact nearestCode_int rfl (by decide) (by decide) rfl neg mag k
  · exact nearestCode_nat rfl (by decide) rfl neg mag k

end Sys2Proof.Machine
end

section
/-!
PROOF of the transform instructions, the last part: dequantising, and the statement from what is shown of each instruction.
-/
namespace Sys2Proof.Machine

/-! ### Dequantising (R61, R128) -/

/-- The scale byte of a word stands for a NaN. -/
def lostScale (scf w : Nat) : Prop := (scf = 1 ∧ w % 256 = 0xFF) ∨ (scf = 2 ∧ 0x7F ≤ w % 256)

theorem scaleOf_lost {scf w : Nat} (h : lostScale scf w) : scaleOf scf (metaScale w) = none := by
  unfold metaScale
  rcases h with ⟨rfl, h⟩ | ⟨rfl, h⟩
  · simp [scaleOf, h]
  · simp [scaleOf, h]

/-- The magnitude and the exponent of the scale of a word. -/
def scaleMag (scf w : Nat) : Nat := if scf = 2 then (decodeElem 0x14 (w % 256)).toInt.toNat else 1
def scaleExp (scf w : Nat) : Int := if scf = 0 then 0 else if scf = 1 then (w % 256 : Nat) - 127 else -9

theorem scaleOf_kept {scf w : Nat} (hscf : scf < 3) (h : ¬lostScale scf w) : scaleOf scf (metaScale w) = some (scaleMag scf w, scaleExp scf w) := by
  unfold lostScale at h
  unfold metaScale
  obtain rfl | rfl | rfl : scf = 0 ∨ scf = 1 ∨ scf = 2 := by omega
  · rfl
  · simp only [scaleOf, if_neg (show w % 256 ≠ 255 by omega)]
    rfl
  · simp only [scaleOf, if_neg (show ¬w % 256 ≥ 127 by omega)]
    rfl

section
variable {fmt scf w code : Nat} (free : Nat)

theorem dequant_lost_bits (h : lostScale scf w) : (dequant fmt scf w code free).bits = 0x7FC00000 := by
  simp only [dequant, scaleOf_lost h]
  rfl

theorem dequant_int_fl {v : Int} (hv : decodeElem (fmtMember fmt (metaSel w)) code = .int v) (h : lostScale scf w) :
    (dequant fmt scf w code free).fl = 0 := by
  simp only [dequant, scaleOf_lost h, hv]

theorem dequant_odd (hv : decodeElem (fmtMember fmt (metaSel w)) code = .odd) (hscf : scf < 3) :
    (dequant fmt scf w code free).fl = 16 ∧ (¬lostScale scf w → (dequant fmt scf w code free).bits = 0) := by
  refine ⟨?_, fun h => ?_⟩
  · by_cases h : lostScale scf w
    · simp only [dequant, scaleOf_lost h, hv]; rfl
    · simp only [dequant, scaleOf_kept hscf h, hv]; rfl
  · simp only [dequant, scaleOf_kept hscf h, hv]

theorem dequant_nan (hm : fmtMember fmt (metaSel w) ≠ 0x1A) (hv : decodeElem (fmtMember fmt (metaSel w)) code = .nan) (hscf : scf < 3) :
    dequant fmt scf w code free = ⟨0x7FC00000, 16⟩ := by
  by_cases h : lostScale scf w
  · simp only [dequant, scaleOf_lost h, hv, hm, ne_eq, not_false_eq_true, true_or, if_true]; rfl
  · simp only [dequant, scaleOf_kept hscf h, hv, hm, ne_eq, not_false_eq_true, true_or, if_true, if_false]; rfl

theorem dequant_inf {n : Bool} (hm : fmtMember fmt (metaSel w) ≠ 0x1A) (hv : decodeElem (fmtMember fmt (metaSel w)) code = .inf n) (hscf : scf < 3) :
    (dequant fmt scf w code free).fl = 0 ∧
      (¬lostScale scf w → (dequant fmt scf w code free).bits = if n then 0xFF800000 else 0x7F800000) := by
  refine ⟨?_, fun h => ?_⟩
  · by_cases h : lostScale scf w
    · simp only [dequant, scaleOf_lost h, hv]
    · simp only [dequant, scaleOf_kept hscf h, hv, hm, if_false]
  · simp only [dequant, scaleOf_kept hscf h, hv, hm, if_false]
    cases n <;> rfl

theorem dequant_int {v : Int} (hv : decodeElem (fmtMember fmt (metaSel w)) code = .int v) (hscf : scf < 3) (h : ¬lostScale scf w) :
    dequant fmt scf w code free = if v * scaleMag scf w = 0 then ⟨0, 0⟩
      else fmtF32.round .rn (decide (v < 0)) (v.natAbs * scaleMag scf w) 1 (unitLog (fmtMember fmt (metaSel w)) + scaleExp scf w) := by
  have hz : v * scaleMag scf w = 0 ↔ v = 0 ∨ scaleMag scf w = 0 := by rw [mul_eq_zero, Nat.cast_eq_zero]
  simp only [dequant, scaleOf_kept hscf h, hv, hz]
  rfl

end

/-- Settles O28: the request of each instruction, and the rules of quantising and dequantising, each by its lemma. -/
theorem transformRequestsAndResults : Obligations.TransformRequestsAndResults := by
  unfold Obligations.TransformRequestsAndResults
  refine ⟨fun h o s x hr => asks_of hr rfl rfl rfl, fun h o s x hr => asks_of hr rfl rfl rfl, fun h o s x hr => asks_of hr rfl rfl rfl,
    fun h o s x hr => asks_of hr rfl rfl rfl, fun h o s x hr => xstrfnd_asks hr, fun h o s x hr => xstrlen_asks hr,
    fun h o s x hr => xqnt_asks hr, fun fmt scf xs hscf => ⟨quantBlock_nan fmt hscf, quantBlock_least fmt scf⟩, ?_,
    fun h o s x hr => xdqnt_ends hr, ?_, fun h o s x hr => asks_of hr rfl rfl rfl, fun h o s x hr => xbdipk_asks hr,
    fun em b => mem_fullBlocks, fun em l hl => getLsbD_blocksMask em hl, fun h o s x hr => xbdiup_ends hr,
    fun h o s x hr => ?_, fun s o c k b em w hop => ?_⟩
  · intro mb hmb neg mag k c sat hround
    have hnear := roundToMember_nearest hmb neg mag k
    rw [hround] at hnear
    rw [show (2 : Nat) ^ (-k).toNat = scaledDen 1 k from (one_mul _).symm]
    exact hnear
  · intro fmt scf w code free hscf mb r lost
    refine ⟨fun h => ⟨dequant_lost_bits free h, fun v hv => dequant_int_fl free hv h⟩, fun hv => dequant_odd free hv hscf,
      fun hm hv => dequant_nan free hm hv hscf, fun n hm hv => dequant_inf free hm hv hscf, fun v h hv => dequant_int free hv hscf h⟩
  · rw [← scalarN_issued hr o.b]
    exact asks_of hr rfl rfl rfl
  · show execTransformResult o s = _
    simp only [execTransformResult, hop]

end Sys2Proof.Machine
end

section
/-!
PROOF of the special functions (R68): what one rounding to FP32 gives (R63), in units of 2^−149; the free choice within a bound; and each
function's cases.
-/
namespace Sys2Proof.Machine

/-! ### Magnitudes of FP32 in units of 2^−149 (R62) -/

/-- The spacing of the patterns from magnitude `k` up is 2^binade k units. -/
def binade (k : Nat) : Nat := k / 2 ^ 23 - 1

/-- The value of magnitude `k`, in units of 2^−149; that of an infinity is 2^277. -/
def unitsOf (k : Nat) : Nat := (k - binade k * 2 ^ 23) * 2 ^ binade k

/-- A significand of at most 24 bits at a spacing that fits it. -/
theorem unitsOf_pack {t m : Nat} (hm : m ≤ 2 ^ 24) (ht : 2 ^ 23 ≤ m ∨ t = 0) : unitsOf (t * 2 ^ 23 + m) = m * 2 ^ t := by
  unfold unitsOf
  by_cases h : m = 2 ^ 24
  · have hb : binade (t * 2 ^ 23 + m) = t + 1 := by unfold binade; omega
    rw [hb, show t * 2 ^ 23 + m - (t + 1) * 2 ^ 23 = 2 ^ 23 by omega, h, pow_succ]
    ring
  · have hb : binade (t * 2 ^ 23 + m) = t := by unfold binade; omega
    rw [hb, Nat.add_sub_cancel_left]

/-- A magnitude by its spacing and its significand. -/
theorem exists_pack (k : Nat) : ∃ t m, k = t * 2 ^ 23 + m ∧ m < 2 ^ 24 ∧ (2 ^ 23 ≤ m ∨ t = 0) ∧ binade k = t :=
  ⟨binade k, k - binade k * 2 ^ 23, by unfold binade; omega, by unfold binade; omega, by unfold binade; omega, rfl⟩

theorem unitsOf_succ (k : Nat) : unitsOf (k + 1) = unitsOf k + 2 ^ binade k := by
  obtain ⟨t, m, rfl, hm, ht, hb⟩ := exists_pack k
  rw [hb, unitsOf_pack hm.le ht, Nat.add_assoc, unitsOf_pack (m := m + 1) hm (by omega)]
  ring

theorem unitsOf_strictMono : StrictMono unitsOf :=
  strictMono_nat_of_lt_succ fun k => by rw [unitsOf_succ]; exact Nat.lt_add_of_pos_right (Nat.two_pow_pos _)

theorem unitsOf_le_iff {j k : Nat} : unitsOf j ≤ unitsOf k ↔ j ≤ k := unitsOf_strictMono.le_iff_le

theorem unitsOf_zero : unitsOf 0 = 0 := rfl

/-- The magnitude of an infinity. -/
theorem inf_f32 : fmtF32.inf = 255 * 2 ^ 23 := rfl

theorem unitsOf_inf : unitsOf fmtF32.inf = 2 ^ 277 := by
  rw [show fmtF32.inf = 253 * 2 ^ 23 + 2 ^ 24 from rfl, unitsOf_pack le_rfl (.inl (by decide)), ← pow_add]

/-! ### The exponent of a quotient (R63) -/

/-- The model's test of the quotient against a power of two. -/
theorem below_pow_iff (num : Nat) {den : Nat} (hd : 0 < den) (k : Int) :
    (if k ≥ 0 then decide (num < den * 2 ^ k.toNat) else decide (num * 2 ^ (-k).toNat < den)) = true ↔ (num : ℚ) / den < 2 ^ k := by
  rw [div_lt_iff₀ (by exact_mod_cast hd : (0 : ℚ) < den)]
  split
  · next hk =>
    rw [decide_eq_true_eq]
    lift k to ℕ using hk
    rw [Int.toNat_natCast, zpow_natCast, mul_comm]
    exact_mod_cast Iff.rfl
  · next hk =>
    rw [decide_eq_true_eq]
    obtain ⟨n, rfl⟩ : ∃ n : ℕ, k = -n := ⟨(-k).toNat, by omega⟩
    rw [neg_neg, Int.toNat_natCast, zpow_neg, zpow_natCast, ← div_eq_inv_mul, lt_div_iff₀ (by positivity)]
    exact_mod_cast Iff.rfl

theorem floorLog2_eq (num : Nat) {den : Nat} (hd : 0 < den) : floorLog2 num den =
    if (num : ℚ) / den < 2 ^ ((Nat.log2 num : Int) - Nat.log2 den) then (Nat.log2 num : Int) - Nat.log2 den - 1
    else (Nat.log2 num : Int) - Nat.log2 den :=
  if_congr (below_pow_iff num hd _) rfl rfl

/-- floor(log2 (num / den)) is what it says. -/
theorem floorLog2_spec {num den : Nat} (hn : 0 < num) (hd : 0 < den) :
    (2 : ℚ) ^ floorLog2 num den ≤ num / den ∧ (num : ℚ) / den < 2 ^ (floorLog2 num den + 1) := by
  have hdq : (0 : ℚ) < den := by exact_mod_cast hd
  have hn1 : (2 : ℚ) ^ (Nat.log2 num : Int) ≤ num := by exact_mod_cast Nat.log2_self_le hn.ne'
  have hn2 : (num : ℚ) < 2 ^ (Nat.log2 num + 1 : Int) := by exact_mod_cast Nat.lt_log2_self
  have hd1 : (2 : ℚ) ^ (Nat.log2 den : Int) ≤ den := by exact_mod_cast Nat.log2_self_le hd.ne'
  have hd2 : (den : ℚ) < 2 ^ (Nat.log2 den + 1 : Int) := by exact_mod_cast Nat.lt_log2_self
  have hlow : (2 : ℚ) ^ ((Nat.log2 num : Int) - Nat.log2 den - 1) ≤ num / den := by
    rw [le_div_iff₀ hdq]
    calc (2 : ℚ) ^ ((Nat.log2 num : Int) - Nat.log2 den - 1) * den
        ≤ 2 ^ ((Nat.log2 num : Int) - Nat.log2 den - 1) * 2 ^ (Nat.log2 den + 1 : Int) := by gcongr
      _ = 2 ^ (Nat.log2 num : Int) := by rw [← zpow_add₀ two_ne_zero]; congr 1; ring
      _ ≤ num := hn1
  have hhigh : (num : ℚ) / den < 2 ^ ((Nat.log2 num : Int) - Nat.log2 den + 1) := by
    rw [div_lt_iff₀ hdq]
    calc (num : ℚ) < 2 ^ (Nat.log2 num + 1 : Int) := hn2
      _ = 2 ^ ((Nat.log2 num : Int) - Nat.log2 den + 1) * 2 ^ (Nat.log2 den : Int) := by rw [← zpow_add₀ two_ne_zero]; congr 1; ring
      _ ≤ 2 ^ ((Nat.log2 num : Int) - Nat.log2 den + 1) * den := by gcongr
  rw [floorLog2_eq num hd]
  split
  · next h => exact ⟨hlow, by rwa [sub_add_cancel]⟩
  · next h => exact ⟨not_lt.1 h, hhigh⟩

/-- num / den · 2^k as a quotient of natural numbers. -/
theorem scaled_div (num : Nat) {den : Nat} (hd : 0 < den) (k : Int) :
    (scaledNum num k : ℚ) / scaledDen den k = num / den * 2 ^ k := by
  have hdq : (den : ℚ) ≠ 0 := by exact_mod_cast hd.ne'
  unfold scaledNum scaledDen
  rcases le_total 0 k with hk | hk
  · lift k to ℕ using hk
    rw [show (-(k : Int)).toNat = 0 by omega, Int.toNat_natCast, zpow_natCast, pow_zero, mul_one]
    push_cast
    ring
  · obtain ⟨n, rfl⟩ : ∃ n : ℕ, k = -n := ⟨(-k).toNat, by omega⟩
    rw [show (-(n : Int)).toNat = 0 by omega, neg_neg, Int.toNat_natCast, pow_zero, mul_one, zpow_neg, zpow_natCast]
    push_cast
    field_simp

/-! ### One rounding to FP32 (R63) -/

/-- num / den · 2^exp in units of 2^−149. -/
def exactUnits (num den : Nat) (exp : Int) : ℚ := num / den * 2 ^ (exp + 149)

/-- A value of `V` units lies from magnitude `k` to below the next one, and rounding takes the next one where `up`. -/
structure RoundsTo (rnd : Rnd) (neg : Bool) (V : ℚ) (k : Nat) (up : Bool) : Prop where
  floor : (unitsOf k : ℚ) ≤ V
  next : V < unitsOf (k + 1)
  inexact : up = true → V ≠ unitsOf k
  near : rnd = .rn → if up then (unitsOf k + unitsOf (k + 1) : ℚ) ≤ 2 * V else 2 * V ≤ unitsOf k + unitsOf (k + 1)
  away : rnd = (if neg then .rd else .ru) → V ≠ unitsOf k → up = true
  toward : rnd = (if neg then .ru else .rd) → up = false

/-- Rounding the quotient a / b, in units of 2^t, is rounding its value. -/
theorem roundsTo_of_quotient (rnd : Rnd) (neg : Bool) {a b t : Nat} (hb : 0 < b) (hm : a / b < 2 ^ 24) (ht : 2 ^ 23 ≤ a / b ∨ t = 0) :
    RoundsTo rnd neg ((a : ℚ) / b * 2 ^ t) (t * 2 ^ 23 + a / b) (roundsUp rnd neg (a / b) (a % b) b) ∧
      (((a : ℚ) / b * 2 ^ t = unitsOf (t * 2 ^ 23 + a / b)) ↔ a % b = 0) := by
  have hk : unitsOf (t * 2 ^ 23 + a / b) = a / b * 2 ^ t := unitsOf_pack hm.le ht
  have hk1 : unitsOf (t * 2 ^ 23 + a / b + 1) = (a / b + 1) * 2 ^ t := by
    rw [Nat.add_assoc]; exact unitsOf_pack hm (by omega)
  have hbq : (0 : ℚ) < b := by exact_mod_cast hb
  have hT : (0 : ℚ) < 2 ^ t := by positivity
  have hr := Nat.mod_lt a hb
  have hV : (a : ℚ) / b = (a / b : Nat) + (a % b : Nat) / b := by
    rw [div_eq_iff hbq.ne', add_mul, div_mul_cancel₀ _ hbq.ne']
    exact_mod_cast (Nat.div_add_mod' a b).symm
  rw [hV, hk]
  generalize a / b = q at *
  generalize a % b = r at *
  have hρ0 : (0 : ℚ) ≤ r / b := by positivity
  have hρ1 : (r : ℚ) / b < 1 := by rw [div_lt_one hbq]; exact_mod_cast hr
  have hz : (r : ℚ) / b = 0 ↔ r = 0 := by rw [div_eq_zero_iff, or_iff_left hbq.ne', Nat.cast_eq_zero]
  have hhalf : (1 / 2 ≤ (r : ℚ) / b ↔ b ≤ 2 * r) ∧ ((r : ℚ) / b ≤ 1 / 2 ↔ 2 * r ≤ b) := by
    rw [le_div_iff₀ hbq, div_le_iff₀ hbq, div_mul_eq_mul_div, div_le_iff₀ two_pos, le_div_iff₀ two_pos, one_mul, mul_comm (r : ℚ)]
    norm_cast
  generalize (r : ℚ) / b = ρ at *
  have hexact : (q + ρ) * 2 ^ t = ((q * 2 ^ t : Nat) : ℚ) ↔ r = 0 := by
    push_cast
    rw [mul_left_inj' hT.ne', add_eq_left, hz]
  refine ⟨⟨?_, ?_, fun hup => ?_, fun hrn => ?_, fun hrnd hne => ?_, fun hrnd => ?_⟩, hexact⟩
  · rw [hk]
    push_cast
    gcongr
    linarith
  · rw [hk1]
    push_cast
    gcongr
  · rw [hk, Ne, hexact]
    rintro rfl
    simp [roundsUp] at hup
  · subst hrn
    rw [hk, hk1]
    push_cast
    cases hup : roundsUp .rn neg q r b with
    | true =>
      simp only [roundsUp, Bool.and_eq_true, Bool.or_eq_true, bne_iff_ne, decide_eq_true_eq, beq_iff_eq] at hup
      have := hhalf.1.2 (by omega)
      simp only [if_true]
      nlinarith
    | false =>
      simp only [roundsUp, Bool.and_eq_false_iff, Bool.or_eq_false_iff, bne_eq_false_iff_eq, decide_eq_false_iff_not] at hup
      have := hhalf.2.2 (by omega)
      simp only [Bool.false_eq_true, if_false]
      nlinarith
  · rw [hk, Ne, hexact] at hne
    subst hrnd
    cases neg <;> simp [roundsUp, hne]
  · subst hrnd
    cases neg <;> simp [roundsUp]

theorem emin_f32 : fmtF32.emin = -126 := by decide
theorem mb_f32 : (fmtF32.mb : Int) = 23 := rfl

/-- The significand's exponent in a rounding of num / den · 2^exp, and so the spacing of the patterns there, 2^(roundExp + 149) units. -/
def roundExp (num den : Nat) (exp : Int) : Int := max (floorLog2 num den + exp) (-126) - 23

/-- The spacing suits the value: 24 bits of significand hold it, all of them where the spacing is not the least. -/
theorem roundExp_spec {num den : Nat} (hn : 0 < num) (hd : 0 < den) (exp : Int) :
    ∃ t : Nat, roundExp num den exp = t - 149 ∧ exactUnits num den exp < 2 ^ 24 * 2 ^ t ∧ (2 ^ 23 * 2 ^ t ≤ exactUnits num den exp ∨ t = 0) ∧
      (floorLog2 num den + exp < -126 → exactUnits num den exp < 2 ^ 23) := by
  obtain ⟨h1, h2⟩ := floorLog2_spec hn hd
  have hpow : (0 : ℚ) < 2 ^ (exp + 149) := by positivity
  have hlow : (2 : ℚ) ^ (floorLog2 num den + exp + 149) ≤ exactUnits num den exp := by
    rw [show floorLog2 num den + exp + 149 = floorLog2 num den + (exp + 149) by ring, zpow_add₀ two_ne_zero]
    exact mul_le_mul_of_nonneg_right h1 hpow.le
  have hhigh : exactUnits num den exp < (2 : ℚ) ^ (floorLog2 num den + exp + 150) := by
    rw [show floorLog2 num den + exp + 150 = floorLog2 num den + 1 + (exp + 149) by ring, zpow_add₀ two_ne_zero]
    exact mul_lt_mul_of_pos_right h2 hpow
  unfold roundExp
  generalize floorLog2 num den + exp = e at *
  rcases le_total (-126) e with he | he
  · obtain ⟨t, rfl⟩ : ∃ t : ℕ, e = t - 126 := ⟨(e + 126).toNat, by omega⟩
    refine ⟨t, by omega, hhigh.trans_le (le_of_eq ?_), .inl ((le_of_eq ?_).trans hlow), by omega⟩
    · rw [show (t : Int) - 126 + 150 = (24 + t : ℕ) by push_cast; ring, zpow_natCast, pow_add]
    · rw [show (t : Int) - 126 + 149 = (23 + t : ℕ) by push_cast; ring, zpow_natCast, pow_add]
  · refine ⟨0, by omega, ?_, .inr rfl, fun hlt => ?_⟩
    · calc exactUnits num den exp < 2 ^ (e + 150) := hhigh
        _ ≤ 2 ^ (24 : Int) := zpow_le_zpow_right₀ one_le_two (by omega)
        _ = 2 ^ 24 * 2 ^ 0 := by norm_num
    · calc exactUnits num den exp < 2 ^ (e + 150) := hhigh
        _ ≤ 2 ^ (23 : Int) := zpow_le_zpow_right₀ one_le_two (by omega)
        _ = 2 ^ 23 := by norm_num

/-- The magnitude that a rounding packs from a significand and its exponent. -/
theorem packed_field {q : Int} {t m : Nat} (hq : q = t - 149) (hm : m ≤ 2 ^ 24) (ht : 2 ^ 23 ≤ m ∨ t = 0) :
    (if decide (m ≥ 2 ^ fmtF32.mb) = true then (q + fmtF32.mb + fmtF32.bias) * 2 ^ fmtF32.mb + ((m : Int) - 2 ^ fmtF32.mb) else (m : Int)) =
      (t * 2 ^ 23 + m : Nat) := by
  have hbias : (fmtF32.bias : Int) = 127 := by decide
  rw [hbias, mb_f32, show fmtF32.mb = 23 from rfl]
  simp only [decide_eq_true_eq]
  split <;> omega

/-- The flags of a rounding that does not overflow (R63, R65). -/
def roundFlags (tiny inexact : Bool) : Nat := (if inexact then flNX else 0) ||| (if tiny && inexact then flUF else 0)

/-- A rounding of a value that is not 0, by its significand: UF only where the value lies below the least normal one. -/
theorem round_of_significand {f : FFmt} {rnd : Rnd} {neg : Bool} {num den : Nat} {exp : Int} (hn : num ≠ 0) {q : Int}
    (hq : max (floorLog2 num den + exp) f.emin - (f.mb : Int) = q) {m : Nat} {inexact : Bool}
    (hr : roundScaled rnd neg num den (exp - q) = (m, inexact)) {k : Nat}
    (hk : (if decide (m ≥ 2 ^ f.mb) = true then (q + f.mb + f.bias) * 2 ^ f.mb + ((m : Int) - 2 ^ f.mb) else (m : Int)) = (k : Nat)) :
    ∃ tiny, (tiny = true → floorLog2 num den + exp < f.emin) ∧ f.round rnd neg num den exp =
      if f.inf ≤ k then ⟨f.overflow rnd neg, flOF ||| flNX⟩ else ⟨f.signed neg k, roundFlags tiny inexact⟩ := by
  refine ⟨decide (floorLog2 num den + exp < f.emin) &&
    decide ((roundScaled rnd neg num den (exp - (floorLog2 num den + exp - f.mb))).1 < 2 ^ (f.mb + (f.emin - (floorLog2 num den + exp)).toNat)),
    fun h => of_decide_eq_true (Bool.and_eq_true_iff.1 h).1, ?_⟩
  unfold FFmt.round
  rw [if_neg hn]
  dsimp only
  rw [hq, hr]
  dsimp only
  rw [hk, Int.toNat_natCast]
  exact if_congr Int.ofNat_le rfl rfl

/-- One rounding to FP32: the magnitude below the value or the next one, an overflow from that of an infinity on; exact without a flag,
inexact with NX alone where the value is normal. -/
theorem round_f32 (rnd : Rnd) (neg : Bool) {num den : Nat} (hn : 0 < num) (hd : 0 < den) (exp : Int) :
    ∃ k up fl, RoundsTo rnd neg (exactUnits num den exp) k up ∧
      (exactUnits num den exp = unitsOf k → fl = 0) ∧ (exactUnits num den exp ≠ unitsOf k → 2 ^ 23 ≤ exactUnits num den exp → fl = flNX) ∧
      fmtF32.round rnd neg num den exp =
        if fmtF32.inf ≤ k + up.toNat then ⟨fmtF32.overflow rnd neg, flOF ||| flNX⟩ else ⟨fmtF32.signed neg (k + up.toNat), fl⟩ := by
  obtain ⟨t, hq, hhigh, hlow, htiny⟩ := roundExp_spec hn hd exp
  have hb := scaledDen_pos hd (exp - roundExp num den exp)
  have hbq : (0 : ℚ) < scaledDen den (exp - roundExp num den exp) := by exact_mod_cast hb
  have hT : (0 : ℚ) < 2 ^ t := by positivity
  have hV : exactUnits num den exp = (scaledNum num (exp - roundExp num den exp) : ℚ) / scaledDen den (exp - roundExp num den exp) * 2 ^ t := by
    rw [scaled_div num hd, exactUnits, mul_assoc, hq, ← zpow_natCast (2 : ℚ) t, ← zpow_add₀ two_ne_zero]
    congr 2
    ring
  have hround := roundScaled_eq rnd neg num den (exp - roundExp num den exp)
  have hm : scaledNum num (exp - roundExp num den exp) / scaledDen den (exp - roundExp num den exp) < 2 ^ 24 := by
    rw [Nat.div_lt_iff_lt_mul hb]
    rw [hV, mul_lt_mul_iff_left₀ hT, div_lt_iff₀ hbq] at hhigh
    exact_mod_cast hhigh
  have ht : 2 ^ 23 ≤ scaledNum num (exp - roundExp num den exp) / scaledDen den (exp - roundExp num den exp) ∨ t = 0 := by
    refine hlow.imp_left fun hlow => ?_
    rw [Nat.le_div_iff_mul_le hb]
    rw [hV, mul_le_mul_iff_left₀ hT, le_div_iff₀ hbq] at hlow
    exact_mod_cast hlow
  obtain ⟨hto, hexact⟩ := roundsTo_of_quotient rnd neg hb hm ht
  rw [← hV] at hto hexact
  have hup := Bool.toNat_le (roundsUp rnd neg (scaledNum num (exp - roundExp num den exp) / scaledDen den (exp - roundExp num den exp))
    (scaledNum num (exp - roundExp num den exp) % scaledDen den (exp - roundExp num den exp)) (scaledDen den (exp - roundExp num den exp)))
  obtain ⟨tiny, htn, hres⟩ := round_of_significand (f := fmtF32) hn.ne' (q := roundExp num den exp) (by rw [roundExp, emin_f32, mb_f32]) hround
    (packed_field hq (by omega) (by omega))
  refine ⟨_, _, _, hto, fun hz => ?_, fun hz hbig => ?_, by rw [hres, Nat.add_assoc]⟩
  · simp only [roundFlags, hexact.1 hz, bne_self_eq_false, Bool.and_false, Bool.false_eq_true, if_false, Nat.or_self]
  · have h0 : tiny = false := Bool.eq_false_iff.2 fun h => (htiny (emin_f32 ▸ htn h)).not_ge hbig
    simp only [roundFlags, bne_iff_ne.2 (mt hexact.2 hz), h0, Bool.false_and, Bool.false_eq_true, if_false, if_true, Nat.or_zero]

end Sys2Proof.Machine
end

section
/-!
PROOF of the special functions (R68), continued: FP32 patterns by sign and magnitude, roundings of representable values, and what the free
choice within a bound can give, whatever the choice.
-/
namespace Sys2Proof.Machine

/-! ### Patterns by sign and magnitude (R62) -/

theorem signed_f32 (n : Bool) (k : Nat) : fmtF32.signed n k = if n then 2 ^ 31 + k else k := rfl

theorem inf_lt_sign : fmtF32.inf < 2 ^ 31 := by decide

theorem signed_low (n : Bool) {k : Nat} (hk : k < 2 ^ 31) : fmtF32.signed n k % 2 ^ 31 = k := by
  rw [signed_f32]
  split <;> omega

theorem signed_lt (n : Bool) {k : Nat} (hk : k < 2 ^ 31) : fmtF32.signed n k < 2 ^ 32 := by
  rw [signed_f32]
  split <;> omega

theorem signed_sign (n : Bool) {k : Nat} (hk : k < 2 ^ 31) : (fmtF32.signed n k).testBit 31 = n := by
  rw [testBit_31 (signed_lt n hk), signed_f32]
  cases n
  · exact decide_eq_false (by simpa using hk)
  · exact decide_eq_true (by simp)

theorem signed_self {x : Nat} (hx : x < 2 ^ 32) : fmtF32.signed (x.testBit 31) (x % 2 ^ 31) = x := by
  rw [testBit_31 hx, signed_f32]
  simp only [decide_eq_true_eq]
  split <;> omega

/-- A finite pattern reads as its significand in units of its spacing. -/
theorem read_signed (n : Bool) {t m : Nat} (hm : m < 2 ^ 24) (ht : 2 ^ 23 ≤ m ∨ t = 0) (hk : t * 2 ^ 23 + m < fmtF32.inf) :
    fmtF32.read (fmtF32.signed n (t * 2 ^ 23 + m)) = .fin n m (t - 149) := by
  rw [inf_f32] at hk
  have h31 : t * 2 ^ 23 + m < 2 ^ 31 := by omega
  have hl := low31_eq (fmtF32.signed n (t * 2 ^ 23 + m))
  have hf := fracField_lt (fmtF32.signed n (t * 2 ^ 23 + m))
  rw [signed_low n h31] at hl
  have hmag : magOf (fmtF32.signed n (t * 2 ^ 23 + m)) = m := by unfold magOf; split <;> omega
  have hexp : expOf (fmtF32.signed n (t * 2 ^ 23 + m)) = t - 149 := by unfold expOf; omega
  rw [read_f32_fin (by omega), signed_sign n h31, hmag, hexp]

theorem finite_low {x : Nat} (hf : f32Finite x) : x % 2 ^ 31 < fmtF32.inf := by
  obtain ⟨n, m, e, h⟩ := hf
  have hfr := fracField_lt x
  have hef := expField_lt x
  rw [inf_f32, low31_eq]
  by_cases he : expField x = 255
  · rw [read_f32, if_pos he] at h
    split at h <;> cases h
  · omega

/-- A finite pattern by its sign, its significand and its spacing. -/
theorem finite_cases {x : Nat} (hx : x < 2 ^ 32) (hf : f32Finite x) : ∃ n m t, m < 2 ^ 24 ∧ (2 ^ 23 ≤ m ∨ t = 0) ∧ t * 2 ^ 23 + m < fmtF32.inf ∧
    x = fmtF32.signed n (t * 2 ^ 23 + m) := by
  obtain ⟨t, m, hk, hm, ht, -⟩ := exists_pack (x % 2 ^ 31)
  exact ⟨x.testBit 31, m, t, hm, ht, hk ▸ finite_low hf, by rw [← hk, signed_self hx]⟩

theorem f32Finite_signed (n : Bool) {k : Nat} (hk : k < fmtF32.inf) : f32Finite (fmtF32.signed n k) := by
  obtain ⟨t, m, rfl, hm, ht, -⟩ := exists_pack k
  exact ⟨_, _, _, read_signed n hm ht hk⟩

theorem f32Units_signed (n : Bool) {k : Nat} (hk : k < fmtF32.inf) : f32Units (fmtF32.signed n k) = negInt n (unitsOf k) := by
  obtain ⟨t, m, rfl, hm, ht, -⟩ := exists_pack k
  rw [f32Units, read_signed n hm ht hk, unitsOf_pack hm.le ht]
  change negInt n (m * 2 ^ ((t : Int) - 149 + 149).toNat : Nat) = _
  rw [sub_add_cancel, Int.toNat_natCast]

theorem isNan_signed (n : Bool) {k : Nat} (hk : k ≤ fmtF32.inf) : (fmtF32.read (fmtF32.signed n k)).isNan = false := by
  have := inf_lt_sign
  rw [isNan_f32, signed_low n (by omega)]
  exact decide_eq_false (by rw [inf_f32] at hk; omega)

theorem negInt_natAbs (n : Bool) (k : Nat) : (negInt n k).natAbs = k := by
  unfold negInt
  split <;> simp

/-- Values of at most 24 significant bits are representable. -/
theorem exists_unitsOf {c : Nat} (hc : c ≤ 2 ^ 24) (s : Nat) : ∃ k, unitsOf k = c * 2 ^ s := by
  induction s generalizing c with
  | zero => exact ⟨c, by simpa using unitsOf_pack (t := 0) hc (.inr rfl)⟩
  | succ s ih =>
    rcases le_or_gt (2 ^ 23) c with h | h
    · exact ⟨_, unitsOf_pack hc (.inl h)⟩
    · obtain ⟨k, hk⟩ := ih (c := 2 * c) (by omega)
      exact ⟨k, by rw [hk, pow_succ]; ring⟩

theorem lt_inf_of_unitsOf {k i : Nat} (h : unitsOf k < 2 ^ i) (hi : i ≤ 277) : k < fmtF32.inf := by
  rw [← unitsOf_strictMono.lt_iff_lt, unitsOf_inf]
  exact h.trans_le (pow_le_pow_right₀ one_le_two hi)

/-! ### Roundings (R63) -/

theorem round_zero (rnd : Rnd) (neg : Bool) (den : Nat) (exp : Int) : fmtF32.round rnd neg 0 den exp = ⟨fmtF32.signed neg 0, 0⟩ := rfl

theorem overflow_eq (rnd : Rnd) (neg : Bool) : ∃ k ≤ fmtF32.inf, fmtF32.overflow rnd neg = fmtF32.signed neg k := by
  refine ⟨match rnd with
    | .rn | .ra => fmtF32.inf
    | .rz => fmtF32.inf - 1
    | .ru => if neg then fmtF32.inf - 1 else fmtF32.inf
    | .rd => if neg then fmtF32.inf else fmtF32.inf - 1, ?_, rfl⟩
  cases rnd <;> cases neg <;> decide

/-- A rounding never gives a NaN, and keeps the sign. -/
theorem round_bits (rnd : Rnd) (neg : Bool) (num : Nat) {den : Nat} (hd : 0 < den) (exp : Int) :
    ∃ k ≤ fmtF32.inf, (fmtF32.round rnd neg num den exp).bits = fmtF32.signed neg k := by
  rcases Nat.eq_zero_or_pos num with rfl | hn
  · exact ⟨0, Nat.zero_le _, rfl⟩
  · obtain ⟨k, up, fl, -, -, -, hr⟩ := round_f32 rnd neg hn hd exp
    rw [hr]
    split
    · exact overflow_eq rnd neg
    · exact ⟨k + up.toNat, by omega, rfl⟩

/-- A representable value is given as it is, without a flag. -/
theorem round_exact (rnd : Rnd) (neg : Bool) {num den : Nat} (hn : 0 < num) (hd : 0 < den) {exp : Int} {k : Nat}
    (hV : exactUnits num den exp = unitsOf k) (hk : k < fmtF32.inf) : fmtF32.round rnd neg num den exp = ⟨fmtF32.signed neg k, 0⟩ := by
  obtain ⟨j, up, fl, hto, hfl, -, hr⟩ := round_f32 rnd neg hn hd exp
  rw [hV] at hto hfl
  obtain rfl : j = k := by
    have h1 : j ≤ k := unitsOf_le_iff.1 (by exact_mod_cast hto.floor)
    have h2 : k < j + 1 := unitsOf_strictMono.lt_iff_lt.1 (by exact_mod_cast hto.next)
    omega
  obtain rfl : up = false := Bool.eq_false_iff.2 fun h => hto.inexact h rfl
  rw [hr, hfl rfl]
  exact if_neg (not_le.2 hk)

/-! ### The free choice within a bound (R68) -/

theorem key_signed (n : Bool) {k : Nat} (hk : k < 2 ^ 31) : fmtF32.key (fmtF32.signed n k) = if n then -(k : Int) - 1 else k := by
  unfold FFmt.key
  rw [show fmtF32.eb + fmtF32.mb = 31 from rfl, signed_sign n hk, show fmtF32.sign = 2 ^ 31 from rfl, signed_low n hk]

/-- Every key between those of the infinities is that of a pattern that is no NaN. -/
theorem exists_key {κ : Int} (hl : -(fmtF32.inf : Int) - 1 ≤ κ) (hh : κ ≤ fmtF32.inf) :
    ∃ n k, k ≤ fmtF32.inf ∧ unkey κ = fmtF32.signed n k ∧ fmtF32.key (fmtF32.signed n k) = κ := by
  have hi := inf_lt_sign
  rcases lt_or_ge κ 0 with h | h
  · refine ⟨true, (-κ - 1).toNat, by omega, ?_, ?_⟩
    · rw [unkey, if_pos h]; rfl
    · rw [key_signed _ (by omega), if_pos rfl]; omega
  · refine ⟨false, κ.toNat, by omega, ?_, ?_⟩
    · rw [unkey, if_neg (by omega)]; rfl
    · rw [key_signed _ (by omega), if_neg Bool.false_ne_true]; omega

/-- The keys of the least and of the greatest pattern within a distance `d` of an enclosure. -/
def pickLow (y : Encl) (k d : Int) : Int := fmtF32.key (fmtF32.round .ru (decide (y.hi - d < 0)) (y.hi - d).natAbs 1 k).bits
def pickHigh (y : Encl) (k d : Int) : Int := fmtF32.key (fmtF32.round .rd (decide (y.lo + d < 0)) (y.lo + d).natAbs 1 k).bits

/-- The distance of a bound of mult · 2^b in units of 2^k. -/
def pickDist (k : Int) (mult : Nat) (b : Int) : Int := if b ≥ k then mult * 2 ^ (b - k).toNat else 0

theorem round_key (rnd : Rnd) (neg : Bool) (num : Nat) (k : Int) :
    -(fmtF32.inf : Int) - 1 ≤ fmtF32.key (fmtF32.round rnd neg num 1 k).bits ∧ fmtF32.key (fmtF32.round rnd neg num 1 k).bits ≤ fmtF32.inf := by
  obtain ⟨j, hj, h⟩ := round_bits rnd neg num one_pos k
  rw [h, key_signed neg (hj.trans_lt inf_lt_sign)]
  split <;> omega

/-- The overflow of a free choice, or a pattern between the ends of the bound. -/
theorem boundedPick_cases (y : Encl) (k : Int) (mult : Nat) (b : Int) (w : Word) :
    (boundedPick y k mult b w = ⟨(fmtF32.round .rn (decide (y.lo < 0)) y.lo.natAbs 1 k).bits, flOF ||| flNX⟩ ∧
      (fmtF32.round .rn (decide (y.lo < 0)) y.lo.natAbs 1 k).bits % 2 ^ 31 = fmtF32.inf) ∨
    (fmtF32.round .rn (decide (y.lo < 0)) y.lo.natAbs 1 k).bits % 2 ^ 31 ≠ fmtF32.inf ∧ ∃ n j fl, j ≤ fmtF32.inf ∧ fl ≠ 0 ∧
      boundedPick y k mult b w = ⟨fmtF32.signed n j, fl⟩ ∧ pickLow y k (pickDist k mult b) ≤ fmtF32.key (fmtF32.signed n j) ∧
      fmtF32.key (fmtF32.signed n j) ≤ max (pickLow y k (pickDist k mult b)) (pickHigh y k (pickDist k mult b)) := by
  by_cases h : (fmtF32.round .rn (decide (y.lo < 0)) y.lo.natAbs 1 k).bits % 2 ^ 31 = fmtF32.inf
  · exact .inl ⟨if_pos h, h⟩
  · refine .inr ⟨h, ?_⟩
    have hl : -(fmtF32.inf : Int) - 1 ≤ pickLow y k (pickDist k mult b) := (round_key _ _ _ _).1
    have hl' : pickLow y k (pickDist k mult b) ≤ fmtF32.inf := (round_key _ _ _ _).2
    have hh : pickHigh y k (pickDist k mult b) ≤ fmtF32.inf := (round_key _ _ _ _).2
    have hres : boundedPick y k mult b w =
        (let p := unkey (pickLow y k (pickDist k mult b) +
          (w.toNat % (max 1 (pickHigh y k (pickDist k mult b) - pickLow y k (pickDist k mult b) + 1)).toNat : Nat))
        ⟨p, flNX ||| (if p % 2 ^ 31 < 2 ^ 23 then flUF else 0)⟩) := if_neg h
    generalize pickLow y k (pickDist k mult b) = l at *
    generalize pickHigh y k (pickDist k mult b) = g at *
    have hmod := Nat.mod_lt w.toNat (y := (max 1 (g - l + 1)).toNat) (by omega)
    generalize w.toNat % (max 1 (g - l + 1)).toNat = i at *
    obtain ⟨n, j, hj, hp, hkey⟩ := exists_key (κ := l + (i : Nat)) (by omega) (by omega)
    refine ⟨n, j, _, hj, ?_, by rw [hres, ← hp], by rw [hkey]; omega, by rw [hkey]; omega⟩
    split <;> decide

theorem boundedPick_bits (y : Encl) (k : Int) (mult : Nat) (b : Int) (w : Word) :
    ∃ n, ∃ j ≤ fmtF32.inf, (boundedPick y k mult b w).bits = fmtF32.signed n j := by
  rcases boundedPick_cases y k mult b w with ⟨h, -⟩ | ⟨-, n, j, fl, hj, -, h, -⟩
  · rw [h]
    exact ⟨_, round_bits _ _ _ one_pos _⟩
  · exact ⟨n, j, hj, by rw [h]⟩

theorem boundedPick_fl (y : Encl) (k : Int) (mult : Nat) (b : Int) (w : Word) : (boundedPick y k mult b w).fl ≠ 0 := by
  rcases boundedPick_cases y k mult b w with ⟨h, -⟩ | ⟨-, n, j, fl, -, hfl, h, -⟩
  · rw [h]
    exact Nat.succ_ne_zero 4
  · rwa [h]

end Sys2Proof.Machine
end

section
/-!
PROOF of the special functions (R68), continued: which operands each function takes, its exact cases, and which results have no flag.
-/
namespace Sys2Proof.Machine

/-! ### Finite operands -/

theorem f32Units_fin {x : Nat} {n : Bool} {m : Nat} {e : Int} (h : fmtF32.read x = .fin n m e) :
    f32Units x = negInt n (m * 2 ^ (e + 149).toNat : Nat) := by
  rw [f32Units, h]

theorem f32Units_neg_iff {x : Nat} {n : Bool} {m : Nat} {e : Int} (h : fmtF32.read x = .fin n m e) : f32Units x < 0 ↔ n = true ∧ m ≠ 0 := by
  have hp := Nat.two_pow_pos (e + 149).toNat
  rw [f32Units_fin h, negInt]
  cases n
  · simp only [Bool.false_eq_true, if_false, false_and, iff_false]
    omega
  · simp only [if_true, true_and, Left.neg_neg_iff, Int.natCast_pos, Nat.pos_iff_ne_zero, ne_eq, mul_eq_zero, hp.ne', or_false]

theorem finite_of_units {x : Nat} (h : f32Units x ≠ 0) : f32Finite x := by
  unfold f32Units at h
  cases hr : fmtF32.read x with
  | nan b => rw [hr] at h; exact absurd rfl h
  | inf n => rw [hr] at h; exact absurd rfl h
  | fin n m e => exact ⟨n, m, e, hr⟩

/-- A finite operand: its sign, its significand and its spacing. -/
theorem finite_read {x : Nat} (hx : x < 2 ^ 32) (hf : f32Finite x) : ∃ n m t, fmtF32.read x = .fin n m ((t : Nat) - 149) ∧
    f32Units x = negInt n (m * 2 ^ t : Nat) ∧ m < 2 ^ 24 ∧ (2 ^ 23 ≤ m ∨ t = 0) ∧ t ≤ 253 := by
  obtain ⟨n, m, t, hm, ht, hk, rfl⟩ := finite_cases hx hf
  refine ⟨n, m, t, read_signed n hm ht hk, by rw [f32Units_signed n hk, unitsOf_pack hm.le ht], hm, ht, ?_⟩
  rw [inf_f32] at hk
  omega

theorem negInt_eq_pow {n : Bool} {a j : Nat} (h : negInt n a = 2 ^ j) : n = false ∧ a = 2 ^ j := by
  have hp := Nat.two_pow_pos j
  have h' : negInt n a = (2 ^ j : Nat) := by exact_mod_cast h
  unfold negInt at h'
  cases n
  · exact ⟨rfl, Int.ofNat_inj.1 h'⟩
  · simp only [if_true] at h'
    omega

theorem negInt_eq_neg_pow {n : Bool} {a j : Nat} (h : negInt n a = -2 ^ j) : n = true ∧ a = 2 ^ j := by
  have hp := Nat.two_pow_pos j
  have h' : negInt n a = -(2 ^ j : Nat) := by exact_mod_cast h
  unfold negInt at h'
  cases n
  · simp only [Bool.false_eq_true, if_false] at h'
    omega
  · exact ⟨rfl, Int.ofNat_inj.1 (neg_injective h')⟩

theorem isPow2_two_pow (a : Nat) : isPow2 (2 ^ a) = true := by
  simp [isPow2, Nat.log2_two_pow]

theorem isPow2_eq {m : Nat} (h : isPow2 m = true) : m = 2 ^ Nat.log2 m := by
  simp only [isPow2, Bool.and_eq_true, beq_iff_eq] at h
  exact h.2

/-- A significand whose value is a power of two. -/
theorem significand_of_pow {m t j : Nat} (h : m * 2 ^ t = 2 ^ j) : ∃ a, m = 2 ^ a ∧ a + t = j := by
  obtain ⟨a, -, rfl⟩ := (Nat.dvd_prime_pow Nat.prime_two).1 (h ▸ Nat.dvd_mul_right m (2 ^ t))
  exact ⟨a, rfl, Nat.pow_right_injective le_rfl (by simpa [pow_add] using h)⟩

/-! ### No NaN of a finite operand that is not below 0 -/

/-- A result that is no NaN. -/
def IsNumber (r : FRes) : Prop := ∃ n, ∃ k ≤ fmtF32.inf, r.bits = fmtF32.signed n k

theorem IsNumber.isNan {r : FRes} : IsNumber r → (fmtF32.read r.bits).isNan = false := by
  rintro ⟨n, k, hk, h⟩
  rw [h, isNan_signed n hk]

theorem isNumber_inf (n : Bool) (fl : Nat) : IsNumber ⟨fmtF32.signed n fmtF32.inf, fl⟩ := ⟨n, fmtF32.inf, le_rfl, rfl⟩
theorem isNumber_one (fl : Nat) : IsNumber ⟨fmtF32.one, fl⟩ := ⟨false, fmtF32.one, by decide, rfl⟩

theorem isNumber_operand {x : Nat} (hx : x < 2 ^ 32) (hf : f32Finite x) (fl : Nat) : IsNumber ⟨x, fl⟩ :=
  ⟨_, _, (finite_low hf).le, (signed_self hx).symm⟩

theorem isNumber_round (rnd : Rnd) (neg : Bool) (num : Nat) {den : Nat} (hd : 0 < den) (exp : Int) : IsNumber (fmtF32.round rnd neg num den exp) :=
  ⟨neg, round_bits rnd neg num hd exp⟩

theorem isNumber_boundedPick (y : Encl) (k : Int) (mult : Nat) (b : Int) (w : Word) : IsNumber (boundedPick y k mult b w) :=
  boundedPick_bits y k mult b w

theorem isNumber_ulpPick (y : Encl) (k : Int) (mult : Nat) (w : Word) : IsNumber (ulpPick y k mult w) := isNumber_boundedPick ..

theorem ulpPick_fl (y : Encl) (k : Int) (mult : Nat) (w : Word) : (ulpPick y k mult w).fl ≠ 0 :=
  boundedPick_fl y k mult _ w

section
variable {free : Word → Word} {x : Nat}

theorem isNumber_specRcp (hf : f32Finite x) : IsNumber (specRcp free x) := by
  obtain ⟨n, m, e, h⟩ := hf
  unfold specRcp
  rw [h]
  dsimp only
  split
  · exact isNumber_inf n _
  · next hm =>
    split
    · obtain ⟨k, hk, hb⟩ := round_bits .rn n 1 (Nat.pos_of_ne_zero hm) (-e)
      exact ⟨n, k, hk, hb⟩
    · exact isNumber_ulpPick ..

theorem isNumber_specRsq (hf : f32Finite x) (h0 : ¬f32Units x < 0) : IsNumber (specRsq free x) := by
  obtain ⟨n, m, e, h⟩ := hf
  rw [f32Units_neg_iff h] at h0
  unfold specRsq
  rw [h]
  dsimp only
  split
  · exact isNumber_inf n _
  · next hm =>
    rw [if_neg fun hn => h0 ⟨hn, hm⟩]
    split
    · exact isNumber_round _ _ _ one_pos _
    · exact isNumber_ulpPick ..

theorem isNumber_specSqrt (hx : x < 2 ^ 32) (hf : f32Finite x) (h0 : ¬f32Units x < 0) : IsNumber (specSqrt x) := by
  obtain ⟨n, m, e, h⟩ := id hf
  rw [f32Units_neg_iff h] at h0
  unfold specSqrt
  rw [h]
  dsimp only
  split
  · exact isNumber_operand hx hf 0
  · next hm =>
    rw [if_neg fun hn => h0 ⟨hn, hm⟩]
    exact isNumber_round _ _ _ one_pos _

theorem isNumber_specEx2 (hf : f32Finite x) : IsNumber (specEx2 free x) := by
  obtain ⟨n, m, e, h⟩ := hf
  unfold specEx2
  rw [h]
  dsimp only
  split
  · exact isNumber_one 0
  · split
    · split
      · exact isNumber_boundedPick ..
      · exact isNumber_inf false _
    · split
      · exact isNumber_round _ _ _ one_pos _
      · exact isNumber_ulpPick ..

theorem isNumber_specLg2 (hf : f32Finite x) (h0 : ¬f32Units x < 0) : IsNumber (specLg2 free x) := by
  obtain ⟨n, m, e, h⟩ := hf
  rw [f32Units_neg_iff h] at h0
  unfold specLg2
  rw [h]
  dsimp only
  split
  · exact isNumber_inf true _
  · next hm =>
    rw [if_neg fun hn => h0 ⟨hn, hm⟩]
    split
    · exact isNumber_round _ _ _ one_pos _
    · split
      · exact isNumber_boundedPick ..
      · exact isNumber_ulpPick ..

/-- Of an operand that is not 0, sin and cos are a free choice. -/
theorem specTrig_pick (isCos : Bool) {n : Bool} {m : Nat} {e : Int} (h : fmtF32.read x = .fin n m e) (hm : m ≠ 0) :
    ∃ y, specTrig isCos free x = boundedPick y (-240) 1 (-21) (free (BitVec.ofNat 32 x)) := by
  simp only [specTrig, h, hm, if_false]
  exact ⟨_, rfl⟩

/-- Of an operand that is not 0, tanh is a free choice. -/
theorem specTanh_pick {n : Bool} {m : Nat} {e : Int} (h : fmtF32.read x = .fin n m e) (hm : m ≠ 0) :
    ∃ y, specTanh free x = ulpPick y (-240) 2 (free (BitVec.ofNat 32 x)) := by
  simp only [specTanh, h, hm, if_false]
  exact ⟨_, rfl⟩

theorem specTrig_zero (isCos : Bool) {n : Bool} {e : Int} (h : fmtF32.read x = .fin n 0 e) :
    specTrig isCos free x = ⟨if isCos then fmtF32.one else x, 0⟩ := by
  unfold specTrig
  rw [h]
  exact if_pos rfl

theorem specTanh_zero {n : Bool} {e : Int} (h : fmtF32.read x = .fin n 0 e) : specTanh free x = ⟨x, 0⟩ := by
  unfold specTanh
  rw [h]
  exact if_pos rfl

theorem isNumber_specTrig (isCos : Bool) (hx : x < 2 ^ 32) (hf : f32Finite x) : IsNumber (specTrig isCos free x) := by
  obtain ⟨n, m, e, h⟩ := id hf
  by_cases hm : m = 0
  · rw [specTrig_zero isCos (hm ▸ h)]
    split
    · exact isNumber_one 0
    · exact isNumber_operand hx hf 0
  · obtain ⟨y, hy⟩ := specTrig_pick (free := free) isCos h hm
    rw [hy]
    exact isNumber_boundedPick ..

theorem isNumber_specTanh (hx : x < 2 ^ 32) (hf : f32Finite x) : IsNumber (specTanh free x) := by
  obtain ⟨n, m, e, h⟩ := id hf
  by_cases hm : m = 0
  · rw [specTanh_zero (hm ▸ h)]
    exact isNumber_operand hx hf 0
  · obtain ⟨y, hy⟩ := specTanh_pick (free := free) h hm
    rw [hy]
    exact isNumber_ulpPick ..

/-! ### Exact cases -/

/-- A rounding of a power of two. -/
theorem round_two_pow (neg : Bool) {num den : Nat} (hn : 0 < num) (hd : 0 < den) {exp : Int} {i : Nat} (hV : exactUnits num den exp = 2 ^ i)
    (hi : i < 277) : ∃ k < fmtF32.inf, unitsOf k = 2 ^ i ∧ fmtF32.round .rn neg num den exp = ⟨fmtF32.signed neg k, 0⟩ := by
  obtain ⟨k, hk⟩ := exists_unitsOf (c := 1) (by decide) i
  rw [one_mul] at hk
  have hlt : k < fmtF32.inf := lt_inf_of_unitsOf (i := i + 1) (hk.trans_lt (Nat.pow_lt_pow_right one_lt_two i.lt_succ_self)) hi
  exact ⟨k, hlt, hk, round_exact .rn neg hn hd (by rw [hV, hk]; norm_cast) hlt⟩

theorem exactUnits_two_pow (a b : Nat) (exp : Int) : exactUnits (2 ^ a) (2 ^ b) exp = 2 ^ ((a : Int) - b + exp + 149) := by
  unfold exactUnits
  rw [Nat.cast_pow, Nat.cast_pow, Nat.cast_two, add_assoc, zpow_add₀ two_ne_zero ((a : Int) - b), zpow_sub₀ two_ne_zero, zpow_natCast, zpow_natCast]

theorem specRcp_two_pow {n : Bool} {m t j : Nat} (h : fmtF32.read x = .fin n m (t - 149)) (hj : m * 2 ^ t = 2 ^ j) (hl : 22 ≤ j) (hh : j ≤ 275) :
    ∃ k < fmtF32.inf, unitsOf k = 2 ^ (298 - j) ∧ specRcp free x = ⟨fmtF32.signed n k, 0⟩ := by
  obtain ⟨a, rfl, rfl⟩ := significand_of_pow hj
  have hV : exactUnits 1 (2 ^ a) (-((t : Int) - 149)) = 2 ^ (298 - (a + t)) := by
    have := exactUnits_two_pow 0 a (-((t : Int) - 149))
    rw [pow_zero] at this
    rw [this, ← zpow_natCast]
    congr 1
    omega
  obtain ⟨k, hk, hu, hr⟩ := round_two_pow n one_pos (Nat.two_pow_pos a) hV (by omega)
  have hnorm : 2 ^ 23 ≤ k := by
    rw [← unitsOf_le_iff, hu]
    exact Nat.pow_le_pow_right two_pos (by omega : 23 ≤ 298 - (a + t))
  refine ⟨k, hk, hu, ?_⟩
  have hlow := signed_low n (hk.trans inf_lt_sign)
  unfold specRcp
  rw [h]
  dsimp only
  rw [if_neg (Nat.two_pow_pos a).ne', hr, hlow, isPow2_two_pow, decide_eq_true hnorm, decide_eq_true hk]
  rfl

theorem specRsq_two_pow {m t i j : Nat} (h : fmtF32.read x = .fin false m (t - 149)) (hj : m * 2 ^ t = 2 ^ j) (hi : 2 * i + j = 447)
    (hlt : i < 277) : ∃ k < fmtF32.inf, unitsOf k = 2 ^ i ∧ specRsq free x = ⟨fmtF32.signed false k, 0⟩ := by
  obtain ⟨a, rfl, rfl⟩ := significand_of_pow hj
  have hV : exactUnits 1 1 (-(((a : Int) + ((t : Int) - 149)) / 2)) = 2 ^ i := by
    have := exactUnits_two_pow 0 0 (-(((a : Int) + ((t : Int) - 149)) / 2))
    rw [pow_zero] at this
    rw [this, ← zpow_natCast]
    congr 1
    omega
  obtain ⟨k, hk, hu, hr⟩ := round_two_pow false one_pos one_pos hV hlt
  refine ⟨k, hk, hu, ?_⟩
  have heven : ((a : Int) + ((t : Int) - 149)) % 2 = 0 := by omega
  unfold specRsq
  rw [h]
  dsimp only
  rw [if_neg (Nat.two_pow_pos a).ne', if_neg Bool.false_ne_true, Nat.log2_two_pow, heven, isPow2_two_pow]
  exact hr

theorem specEx2_int {n : Bool} {m t : Nat} {i : Int} (h : fmtF32.read x = .fin n m (t - 149)) (hm : m ≠ 0)
    (hi : negInt n (m * 2 ^ t : Nat) = i * 2 ^ 149) (hl : -149 ≤ i) (hh : i ≤ 127) :
    ∃ k < fmtF32.inf, unitsOf k = 2 ^ (i + 149).toNat ∧ specEx2 free x = ⟨fmtF32.signed false k, 0⟩ := by
  have hV : exactUnits 1 1 i = 2 ^ (i + 149).toNat := by
    have := exactUnits_two_pow 0 0 i
    rw [pow_zero] at this
    rw [this, ← zpow_natCast]
    congr 1
    omega
  obtain ⟨k, hk, hu, hr⟩ := round_two_pow false one_pos one_pos hV (by omega)
  refine ⟨k, hk, hu, ?_⟩
  have habs : m * 2 ^ t = i.natAbs * 2 ^ 149 := by
    rw [← negInt_natAbs n (m * 2 ^ t), hi, Int.natAbs_mul]
    rfl
  have hsmall : ¬(Nat.log2 m : Int) + ((t : Int) - 149) ≥ 9 := by
    have hlog : 2 ^ (Nat.log2 m + t) < 2 ^ (8 + 149) := calc
      2 ^ (Nat.log2 m + t) ≤ m * 2 ^ t := by rw [pow_add]; exact Nat.mul_le_mul_right _ (Nat.log2_self_le hm)
      _ = i.natAbs * 2 ^ 149 := habs
      _ < 2 ^ (8 + 149) := by rw [pow_add]; exact Nat.mul_lt_mul_of_pos_right (by omega) (Nat.two_pow_pos 149)
    have := (Nat.pow_lt_pow_iff_right (by decide)).1 hlog
    omega
  have hv : negInt n (m * 2 ^ ((t : Int) - 149 + 240).toNat : Nat) = i * fxUnit := by
    have : ((t : Int) - 149 + 240).toNat = t + 91 := by omega
    rw [this, pow_add, ← mul_assoc, show fxUnit = 2 ^ 149 * 2 ^ 91 by decide, ← mul_assoc, ← hi]
    unfold negInt
    split <;> push_cast <;> ring
  unfold specEx2
  rw [h]
  dsimp only
  rw [if_neg hm, decide_eq_false hsmall, if_neg Bool.false_ne_true, hv, Int.mul_emod_left, Int.mul_ediv_cancel _ (by decide), if_pos ⟨rfl, hl⟩, hr]

/-- Integers of at most 24 bits are given exactly. -/
theorem intToF_exact {v : Int} (hv : v.natAbs ≤ 2 ^ 24) :
    ∃ k < fmtF32.inf, intToF fmtF32 .rn v = ⟨fmtF32.signed (decide (v < 0)) k, 0⟩ ∧ negInt (decide (v < 0)) (unitsOf k) = v * 2 ^ 149 := by
  obtain ⟨k, hk⟩ := exists_unitsOf hv 149
  have hlt : k < fmtF32.inf := lt_inf_of_unitsOf (i := 174) (by rw [hk]; omega) (by decide)
  refine ⟨k, hlt, ?_, ?_⟩
  · unfold intToF
    rcases Nat.eq_zero_or_pos v.natAbs with h0 | hpos
    · rw [h0, zero_mul, ← unitsOf_zero] at hk
      rw [h0, unitsOf_strictMono.injective hk, round_zero]
    · refine round_exact .rn _ hpos one_pos ?_ hlt
      rw [hk, exactUnits, Nat.cast_one, div_one, zero_add, Nat.cast_mul, Nat.cast_pow, Nat.cast_two]
      rfl
  · rw [hk]
    unfold negInt
    rcases lt_or_ge v 0 with h | h
    · rw [decide_eq_true h, if_pos rfl]
      push_cast
      rw [abs_of_neg h]
      ring
    · rw [decide_eq_false h.not_gt, if_neg Bool.false_ne_true]
      push_cast
      rw [abs_of_nonneg h]

theorem specLg2_two_pow {m t j : Nat} (h : fmtF32.read x = .fin false m (t - 149)) (hj : m * 2 ^ t = 2 ^ j) :
    specLg2 free x = intToF fmtF32 .rn ((j : Int) - 149) := by
  obtain ⟨a, rfl, rfl⟩ := significand_of_pow hj
  unfold specLg2
  rw [h]
  dsimp only
  rw [if_neg (Nat.two_pow_pos a).ne', if_neg Bool.false_ne_true, isPow2_two_pow, if_pos rfl, Nat.log2_two_pow]
  congr 1
  omega

end

end Sys2Proof.Machine
end

section
/-!
PROOF of the special functions (R68), continued: what a result without a flag says of its operand, NaNs, invalid operands, zeros and infinities.
-/
namespace Sys2Proof.Machine

section
variable {free : Word → Word} {x : Nat}

/-! ### Results without a flag -/

theorem specRcp_fl {n : Bool} {m : Nat} {e : Int} (h : fmtF32.read x = .fin n m e) (h0 : (specRcp free x).fl = 0) : isPow2 m = true := by
  unfold specRcp at h0
  rw [h] at h0
  dsimp only at h0
  split at h0
  · cases h0
  · split at h0
    · next hp => exact (Bool.and_eq_true_iff.1 (Bool.and_eq_true_iff.1 hp).1).1
    · exact (ulpPick_fl _ _ _ _ h0).elim

theorem specRsq_fl {n : Bool} {m : Nat} {e : Int} (h : fmtF32.read x = .fin n m e) (h0 : (specRsq free x).fl = 0) :
    n = false ∧ isPow2 m = true ∧ ((Nat.log2 m : Int) + e) % 2 = 0 := by
  unfold specRsq at h0
  rw [h] at h0
  dsimp only at h0
  split at h0
  · cases h0
  · split at h0
    · cases h0
    · next hn =>
      split at h0
      · next hp =>
        rw [Bool.and_eq_true, beq_iff_eq] at hp
        exact ⟨Bool.eq_false_iff.2 hn, hp⟩
      · exact (ulpPick_fl _ _ _ _ h0).elim

theorem specEx2_fl {n : Bool} {m : Nat} {e : Int} (h : fmtF32.read x = .fin n m e) (h0 : (specEx2 free x).fl = 0) :
    negInt n (m * 2 ^ (e + 240).toNat : Nat) % fxUnit = 0 := by
  by_cases hm : m = 0
  · rw [hm, zero_mul]
    cases n <;> rfl
  · unfold specEx2 at h0
    rw [h] at h0
    dsimp only at h0
    rw [if_neg hm] at h0
    split at h0
    · split at h0
      · exact (boundedPick_fl _ _ _ _ _ h0).elim
      · cases h0
    · split at h0
      · next hf => exact hf.1
      · exact (ulpPick_fl _ _ _ _ h0).elim

theorem specLg2_fl {n : Bool} {m : Nat} {e : Int} (h : fmtF32.read x = .fin n m e) (h0 : (specLg2 free x).fl = 0) :
    n = false ∧ isPow2 m = true := by
  unfold specLg2 at h0
  rw [h] at h0
  dsimp only at h0
  split at h0
  · cases h0
  · split at h0
    · cases h0
    · next hn =>
      split at h0
      · next hp => exact ⟨Bool.eq_false_iff.2 hn, hp⟩
      · split at h0
        · exact (boundedPick_fl _ _ _ _ _ h0).elim
        · exact (ulpPick_fl _ _ _ _ h0).elim

theorem specTrig_fl (isCos : Bool) {n : Bool} {m : Nat} {e : Int} (h : fmtF32.read x = .fin n m e) (h0 : (specTrig isCos free x).fl = 0) : m = 0 := by
  by_contra hm
  obtain ⟨y, hy⟩ := specTrig_pick (free := free) isCos h hm
  exact boundedPick_fl y _ _ _ _ (hy ▸ h0)

theorem specTanh_fl {n : Bool} {m : Nat} {e : Int} (h : fmtF32.read x = .fin n m e) (h0 : (specTanh free x).fl = 0) : m = 0 := by
  by_contra hm
  obtain ⟨y, hy⟩ := specTanh_pick (free := free) h hm
  exact ulpPick_fl y _ _ _ (hy ▸ h0)

theorem significand_isPow2 {m : Nat} (h : isPow2 m = true) (t : Nat) : m * 2 ^ t = 2 ^ (Nat.log2 m + t) := by
  rw [pow_add, ← isPow2_eq h]

/-- A finite operand whose result has no flag is one of the exact cases. -/
theorem no_flag_cases (hx : x < 2 ^ 32) (hf : f32Finite x) :
    ((specRcp free x).fl = 0 → ∃ j, (f32Units x).natAbs = 2 ^ j) ∧ ((specRsq free x).fl = 0 → ∃ j, f32Units x = 2 ^ (2 * j + 1)) ∧
      ((specEx2 free x).fl = 0 → f32Units x % 2 ^ 149 = 0) ∧ ((specLg2 free x).fl = 0 → ∃ j, f32Units x = 2 ^ j) ∧
      ∀ g ∈ [specTrig false free, specTrig true free, specTanh free], (g x).fl = 0 → f32Units x = 0 := by
  obtain ⟨n, m, t, h, hu, -⟩ := finite_read hx hf
  have hzero : m = 0 → f32Units x = 0 := by
    rintro rfl
    rw [hu, zero_mul]
    cases n <;> rfl
  refine ⟨fun h0 => ⟨Nat.log2 m + t, ?_⟩, fun h0 => ?_, fun h0 => ?_, fun h0 => ⟨Nat.log2 m + t, ?_⟩, ?_⟩
  · rw [hu, negInt_natAbs, significand_isPow2 (specRcp_fl h h0)]
  · obtain ⟨rfl, hp, heven⟩ := specRsq_fl h h0
    refine ⟨(Nat.log2 m + t) / 2, ?_⟩
    rw [hu, significand_isPow2 hp, show 2 * ((Nat.log2 m + t) / 2) + 1 = Nat.log2 m + t by omega]
    exact Nat.cast_pow 2 _
  · have hmod := specEx2_fl h h0
    rw [show ((t : Int) - 149 + 240).toNat = t + 91 by omega, pow_add, ← mul_assoc] at hmod
    have hneg : negInt n (m * 2 ^ t * 2 ^ 91 : Nat) = f32Units x * 2 ^ 91 := by
      rw [hu]
      unfold negInt
      split <;> push_cast <;> ring
    rw [hneg, show fxUnit = 2 ^ 149 * 2 ^ 91 by decide] at hmod
    exact Int.emod_eq_zero_of_dvd (Int.dvd_of_mul_dvd_mul_right (by decide) (Int.dvd_of_emod_eq_zero hmod))
  · obtain ⟨rfl, hp⟩ := specLg2_fl h h0
    rw [hu, significand_isPow2 hp]
    exact Nat.cast_pow 2 _
  · intro g hg h0
    simp only [List.mem_cons, List.not_mem_nil, or_false] at hg
    rcases hg with rfl | rfl | rfl
    · exact hzero (specTrig_fl false h h0)
    · exact hzero (specTrig_fl true h h0)
    · exact hzero (specTanh_fl h h0)

/-! ### NaNs and invalid operands -/

/-- The functions of one operand of R68. -/
def specials (free : Word → Word) : List (Nat → FRes) :=
  [specRcp free, specRsq free, specSqrt, specEx2 free, specLg2 free, specTrig false free, specTrig true free, specTanh free]

/-- A function that gives a NaN what R64 says. -/
def QuietsNan (g : Nat → FRes) : Prop := ∀ x sig, fmtF32.read x = .nan sig → g x = onNan sig

theorem quietsNan_specials : ∀ g ∈ specials free, QuietsNan g := by
  intro g hg x sig h
  simp only [specials, List.mem_cons, List.not_mem_nil, or_false] at hg
  rcases hg with rfl | rfl | rfl | rfl | rfl | rfl | rfl | rfl
  · unfold specRcp; rw [h]
  · unfold specRsq; rw [h]
  · unfold specSqrt; rw [h]
  · unfold specEx2; rw [h]
  · unfold specLg2; rw [h]
  · unfold specTrig; rw [h]
  · unfold specTrig; rw [h]
  · unfold specTanh; rw [h]

/-- An operand below 0. -/
def Below (x : Nat) : Prop := (∃ m e, fmtF32.read x = .fin true m e ∧ m ≠ 0) ∨ fmtF32.read x = .inf true

theorem below_of (h : (f32Finite x ∧ f32Units x < 0) ∨ x = 0xFF800000) : Below x := by
  rcases h with ⟨⟨n, m, e, h⟩, hneg⟩ | rfl
  · obtain ⟨rfl, hm⟩ := (f32Units_neg_iff h).1 hneg
    exact .inl ⟨m, e, h, hm⟩
  · exact .inr (by decide)

theorem specRsq_invalid (h : Below x) : specRsq free x = invalid := by
  unfold specRsq
  rcases h with ⟨m, e, h, hm⟩ | h
  · rw [h]; exact if_neg hm
  · rw [h]; rfl

theorem specSqrt_invalid (h : Below x) : specSqrt x = invalid := by
  unfold specSqrt
  rcases h with ⟨m, e, h, hm⟩ | h
  · rw [h]; exact if_neg hm
  · rw [h]; rfl

theorem specLg2_invalid (h : Below x) : specLg2 free x = invalid := by
  unfold specLg2
  rcases h with ⟨m, e, h, hm⟩ | h
  · rw [h]; exact if_neg hm
  · rw [h]; rfl

end

end Sys2Proof.Machine
end

section
/-!
PROOF of the special functions (R68), continued: the root. The model rounds twice the integer root of a scaled significand, made odd where the
root is inexact: every midpoint of two patterns is an even multiple of its unit, so it compares with that number as with the exact root.
-/
namespace Sys2Proof.Machine

/-! ### The number rounded -/

/-- Twice the integer root, and 1 where the root is inexact. -/
def rootTwice (n : Nat) : Nat := 2 * Nat.sqrt n + if Nat.sqrt n * Nat.sqrt n = n then 0 else 1

theorem two_mul_le_rootTwice {n d : Nat} : 2 * d ≤ rootTwice n ↔ d * d ≤ n := by
  rw [← Nat.le_sqrt]
  unfold rootTwice
  split <;> omega

theorem rootTwice_le_two_mul {n d : Nat} : rootTwice n ≤ 2 * d ↔ n ≤ d * d := by
  unfold rootTwice
  split
  · next h =>
    rw [Nat.add_zero, Nat.mul_le_mul_left_iff two_pos]
    conv_rhs => rw [← h]
    exact Nat.mul_self_le_mul_self_iff.symm
  · next h =>
    have hlt : Nat.sqrt n < d ↔ n < d * d := Nat.sqrt_lt
    constructor
    · intro hd
      exact (hlt.1 (by omega)).le
    · intro hd
      rcases hd.lt_or_eq with hd | hd
      · have := hlt.2 hd
        omega
      · exact absurd (by rw [hd, Nat.sqrt_eq]) h

/-- Even multiples of the unit compare with the number rounded as with the exact root, here both squared. -/
theorem root_compare (n s : Nat) {z : Nat} (hz : 2 ^ (s + 2) ∣ z) :
    (z ≤ 2 * (rootTwice n * 2 ^ s) ↔ z ^ 2 ≤ 4 * (n * 2 ^ (2 * (s + 1)))) ∧ (2 * (rootTwice n * 2 ^ s) ≤ z ↔ 4 * (n * 2 ^ (2 * (s + 1))) ≤ z ^ 2) := by
  obtain ⟨d, rfl⟩ := hz
  have h1 : 2 ^ (s + 2) * d = 2 * 2 ^ s * (2 * d) := by ring
  have h2 : 2 * (rootTwice n * 2 ^ s) = 2 * 2 ^ s * rootTwice n := by ring
  have h3 : (2 ^ (s + 2) * d) ^ 2 = 4 * 2 ^ (2 * (s + 1)) * (d * d) := by ring
  have h4 : 4 * (n * 2 ^ (2 * (s + 1))) = 4 * 2 ^ (2 * (s + 1)) * n := by ring
  have hp : 0 < 2 * 2 ^ s := by positivity
  have hq : 0 < 4 * 2 ^ (2 * (s + 1)) := by positivity
  rw [h3, h4, h1, h2, Nat.mul_le_mul_left_iff hp, Nat.mul_le_mul_left_iff hq, Nat.mul_le_mul_left_iff hp, Nat.mul_le_mul_left_iff hq]
  exact ⟨two_mul_le_rootTwice, rootTwice_le_two_mul⟩

/-- The significand is scaled by an even power of two, so its root is that of the operand, scaled. -/
theorem fsqrtPos_eq {m t : Nat} (hm0 : 0 < m) (hm : m < 2 ^ 24) (ht : t ≤ 253) : ∃ n s : Nat, 2 ^ 64 ≤ n ∧ n < 2 ^ 90 ∧ s ≤ 168 ∧
    m * 2 ^ t * 2 ^ 149 = n * 2 ^ (2 * (s + 1)) ∧ fsqrtPos fmtF32 m (t - 149) = fmtF32.round .rn false (rootTwice n) 1 (s - 149) := by
  rcases Nat.even_or_odd' t with ⟨c, rfl | rfl⟩
  · refine ⟨2 * m * 2 ^ 64, c + 41, by omega, by omega, by omega, by ring, ?_⟩
    have hodd : ((2 * c : Nat) - 149 : Int) % 2 ≠ 0 := by omega
    have hexp : ((2 * c : Nat) - 149 - 1 : Int) / 2 - 33 = ((c + 41 : Nat) : Int) - 149 := by omega
    unfold fsqrtPos
    simp only [decide_eq_true hodd, if_true, hexp]
    rfl
  · refine ⟨m * 2 ^ 64, c + 42, by omega, by omega, by omega, by ring, ?_⟩
    have hodd : ¬((2 * c + 1 : Nat) - 149 : Int) % 2 ≠ 0 := by omega
    have hexp : ((2 * c + 1 : Nat) - 149 : Int) / 2 - 33 = ((c + 42 : Nat) : Int) - 149 := by omega
    unfold fsqrtPos
    simp only [decide_eq_false hodd, Bool.false_eq_true, if_false, hexp]
    rfl

/-! ### Its rounding -/

/-- The given magnitude lies nearest: the value lies between its midpoints with the magnitudes beside it. -/
theorem RoundsTo.nearest {neg : Bool} {V : ℚ} {k : Nat} {up : Bool} (h : RoundsTo .rn neg V k up) :
    2 * V ≤ unitsOf (k + up.toNat) + unitsOf (k + up.toNat + 1) ∧ ∀ j, j + 1 = k + up.toNat → (unitsOf j : ℚ) + unitsOf (j + 1) ≤ 2 * V := by
  have hfloor := h.floor
  have hnext := h.next
  have hnear := h.near rfl
  have hmono : ∀ i, (unitsOf i : ℚ) ≤ unitsOf (i + 1) := fun i => by exact_mod_cast unitsOf_le_iff.2 i.le_succ
  cases up with
  | true =>
    simp only [if_true, Bool.toNat_true] at hnear ⊢
    refine ⟨by linarith [hmono (k + 1)], fun j hj => ?_⟩
    obtain rfl : j = k := by omega
    exact hnear
  | false =>
    simp only [Bool.false_eq_true, if_false, Bool.toNat_false, Nat.add_zero] at hnear ⊢
    refine ⟨hnear, fun j hj => ?_⟩
    subst hj
    linarith [hmono j]

theorem dvd_unitsOf {s k : Nat} (h : s ≤ binade k) : 2 ^ s ∣ unitsOf k := Dvd.dvd.mul_left (pow_dvd_pow 2 h) _

/-- Where the values are large, so is the spacing. -/
theorem lt_binade {s k : Nat} (h : 2 ^ (24 + s) ≤ unitsOf k) : s < binade k := by
  obtain ⟨t, m, rfl, hm, ht, hb⟩ := exists_pack k
  rw [hb]
  rw [unitsOf_pack hm.le ht] at h
  have hlt : 2 ^ (24 + s) < 2 ^ (24 + t) := h.trans_lt (by rw [pow_add]; exact Nat.mul_lt_mul_of_pos_right hm (Nat.two_pow_pos t))
  have := (Nat.pow_lt_pow_iff_right one_lt_two).1 hlt
  omega

theorem binade_le_succ (k : Nat) : binade (k + 1) ≤ binade k + 1 := by unfold binade; omega
theorem binade_mono {j k : Nat} (h : j ≤ k) : binade j ≤ binade k := by unfold binade; omega

/-- The root of a positive operand, in units of 2^−149: the nearest value, with NX exactly when it is not the root. -/
theorem fsqrtPos_spec {m t : Nat} (hm0 : 0 < m) (hm : m < 2 ^ 24) (ht : t ≤ 253) : ∃ k < fmtF32.inf,
    fsqrtPos fmtF32 m (t - 149) = ⟨fmtF32.signed false k, if unitsOf k * unitsOf k = m * 2 ^ t * 2 ^ 149 then 0 else 1⟩ ∧
      (∀ j < k, (unitsOf j + unitsOf k) ^ 2 ≤ 4 * (m * 2 ^ t) * 2 ^ 149) ∧ ∀ j, k < j → 4 * (m * 2 ^ t) * 2 ^ 149 ≤ (unitsOf j + unitsOf k) ^ 2 := by
  obtain ⟨n, s, hn, hn', hs, hscale, hround⟩ := fsqrtPos_eq hm0 hm ht
  have hlow : 2 * 2 ^ 32 ≤ rootTwice n := two_mul_le_rootTwice.2 (by omega)
  have hhigh : rootTwice n ≤ 2 * 2 ^ 45 := rootTwice_le_two_mul.2 (by omega)
  obtain ⟨k, up, fl, hto, hex, hnx, hr⟩ := round_f32 .rn false (by omega : 0 < rootTwice n) one_pos (s - 149)
  have hV : exactUnits (rootTwice n) 1 (s - 149) = (rootTwice n * 2 ^ s : Nat) := by
    rw [exactUnits, Nat.cast_one, div_one, sub_add_cancel, zpow_natCast]
    norm_cast
  rw [hV] at hto hex hnx
  obtain ⟨habove, hbelow⟩ := hto.nearest
  have hbin : s + 8 < binade (k + 1) := by
    refine lt_binade (le_trans ?_ (b := rootTwice n * 2 ^ s) (by exact_mod_cast hto.next.le))
    rw [show 24 + (s + 8) = 32 + s by omega, pow_add]
    exact Nat.mul_le_mul_right _ (by omega)
  have hbk := binade_le_succ k
  have hup := Bool.toNat_le up
  have hmul : ∀ j, k ≤ j + 1 → 2 ^ (s + 2) ∣ unitsOf j := fun j hj => dvd_unitsOf (by
    have := binade_mono hj
    have := binade_le_succ j
    omega)
  have hinf : k + up.toNat < fmtF32.inf := by
    by_contra hge
    have h1 := unitsOf_le_iff.2 (not_lt.1 hge)
    obtain ⟨j, hj⟩ : ∃ j, j + 1 = k + up.toNat := ⟨k + up.toNat - 1, by have := inf_f32; omega⟩
    have h2 : unitsOf j + unitsOf (j + 1) ≤ 2 * (rootTwice n * 2 ^ s) := by exact_mod_cast hbelow j hj
    have h3 : rootTwice n * 2 ^ s ≤ 2 * 2 ^ 45 * 2 ^ 168 := Nat.mul_le_mul hhigh (Nat.pow_le_pow_right two_pos hs)
    rw [unitsOf_inf, ← hj] at h1
    omega
  have hK : 2 ^ (s + 1) ∣ unitsOf (k + up.toNat) := (pow_dvd_pow 2 (by omega)).trans (hmul _ (by omega))
  obtain ⟨hle, hge⟩ := root_compare n s (z := 2 * unitsOf (k + up.toNat)) (by rw [pow_succ']; exact Nat.mul_dvd_mul_left 2 hK)
  have hroot : rootTwice n * 2 ^ s = unitsOf (k + up.toNat) ↔ unitsOf (k + up.toNat) * unitsOf (k + up.toNat) = n * 2 ^ (2 * (s + 1)) := by
    rw [show (2 * unitsOf (k + up.toNat)) ^ 2 = 4 * (unitsOf (k + up.toNat) * unitsOf (k + up.toNat)) by ring] at hle hge
    omega
  have hfl : fl = if unitsOf (k + up.toNat) * unitsOf (k + up.toNat) = n * 2 ^ (2 * (s + 1)) then 0 else 1 := by
    split
    · next h =>
      refine hex ?_
      have hV' := hroot.2 h
      cases up with
      | true => exact absurd hto.next (by rw [hV']; exact lt_irrefl _)
      | false => rw [hV']; rfl
    · next h =>
      refine hnx (fun hk => ?_) ?_
      · have hup' : up = false := Bool.eq_false_iff.2 fun hu => hto.inexact hu hk
        rw [hup'] at h hroot
        exact h (hroot.1 (by exact_mod_cast hk))
      · have : 2 ^ 23 * 1 ≤ rootTwice n * 2 ^ s := Nat.mul_le_mul (by omega) Nat.one_le_two_pow
        exact_mod_cast this
  rw [mul_assoc 4, hscale]
  refine ⟨k + up.toNat, hinf, ?_, fun j hj => ?_, fun j hj => ?_⟩
  · rw [hround, hr, if_neg (not_le.2 hinf), hfl]
  · obtain ⟨i, hi⟩ : ∃ i, i + 1 = k + up.toNat := ⟨k + up.toNat - 1, by omega⟩
    have hz := (root_compare n s (z := unitsOf i + unitsOf (i + 1)) (Dvd.dvd.add (hmul _ (by omega)) (hmul _ (by omega)))).1.1
      (by exact_mod_cast hbelow i hi)
    rw [← hi]
    exact le_trans (Nat.pow_le_pow_left (Nat.add_le_add_right (unitsOf_le_iff.2 (by omega)) _) 2) hz
  · have hz := (root_compare n s (z := unitsOf (k + up.toNat) + unitsOf (k + up.toNat + 1))
      (Dvd.dvd.add (hmul _ (by omega)) (hmul _ (by omega)))).2.1 (by exact_mod_cast habove)
    rw [add_comm (unitsOf j)]
    exact hz.trans (Nat.pow_le_pow_left (Nat.add_le_add_left (unitsOf_le_iff.2 hj) _) 2)

end Sys2Proof.Machine
end

section
/-!
PROOF of the special functions (R68), continued: what a bound in units of the last place leaves free. The patterns chosen from lie within the
bound of both ends of the enclosure, and there is always one.
-/
namespace Sys2Proof.Machine

/-! ### Directed roundings (R63) -/

theorem exactUnits_int (num : Nat) (k : Int) : exactUnits num 1 k = num * 2 ^ (k + 149) := by
  rw [exactUnits, Nat.cast_one, div_one]

/-- Rounding away from 0 gives the least magnitude at or above the value. -/
theorem round_away (neg : Bool) {num : Nat} (hn : 0 < num) (k : Int) (hV : exactUnits num 1 k ≤ unitsOf fmtF32.inf) :
    ∃ j, j ≤ fmtF32.inf ∧ (fmtF32.round (if neg then .rd else .ru) neg num 1 k).bits = fmtF32.signed neg j ∧ exactUnits num 1 k ≤ unitsOf j ∧
      ∀ c, exactUnits num 1 k ≤ unitsOf c → j ≤ c := by
  obtain ⟨i, up, fl, hto, -, -, hr⟩ := round_f32 (if neg then .rd else .ru) neg hn one_pos k
  have hleast : ∀ c, exactUnits num 1 k ≤ unitsOf c → i + up.toNat ≤ c := fun c hc => by
    have hic : i ≤ c := unitsOf_le_iff.1 (by exact_mod_cast hto.floor.trans hc)
    cases up with
    | false => exact hic
    | true =>
      have hne : i ≠ c := by
        rintro rfl
        exact hto.inexact rfl (le_antisymm hc hto.floor)
      simp only [Bool.toNat_true]
      omega
  rw [hr]
  split
  · next h =>
    exact ⟨fmtF32.inf, le_rfl, by cases neg <;> rfl, hV, fun c hc => h.trans (hleast c hc)⟩
  · next h =>
    refine ⟨i + up.toNat, (not_le.1 h).le, rfl, ?_, hleast⟩
    cases up with
    | false => exact (not_ne_iff.1 fun hne => Bool.false_ne_true (hto.away rfl hne)).le
    | true => exact hto.next.le

/-- Rounding towards 0 gives the greatest finite magnitude at or below the value. -/
theorem round_toward (neg : Bool) {num : Nat} (hn : 0 < num) (k : Int) :
    ∃ j, j < fmtF32.inf ∧ (fmtF32.round (if neg then .ru else .rd) neg num 1 k).bits = fmtF32.signed neg j ∧ unitsOf j ≤ exactUnits num 1 k ∧
      ∀ c < fmtF32.inf, unitsOf c ≤ exactUnits num 1 k → c ≤ j := by
  obtain ⟨i, up, fl, hto, -, -, hr⟩ := round_f32 (if neg then .ru else .rd) neg hn one_pos k
  obtain rfl : up = false := hto.toward rfl
  have hfloor := hto.floor
  rw [hr]
  split
  · next h =>
    have hle : fmtF32.inf - 1 ≤ i := le_trans (Nat.sub_le _ _) h
    refine ⟨fmtF32.inf - 1, by decide, by cases neg <;> rfl, le_trans ?_ hfloor, fun c hc _ => by omega⟩
    exact_mod_cast unitsOf_le_iff.2 hle
  · next h =>
    refine ⟨i, not_le.1 h, rfl, hfloor, fun c _ hc => ?_⟩
    have : c < i + 1 := unitsOf_strictMono.lt_iff_lt.1 (by exact_mod_cast hc.trans_lt hto.next)
    omega

/-- Rounding to nearest gives an infinity only to a value half of it or more, and no other value reaches it. -/
theorem round_nearest_inf (neg : Bool) {num den : Nat} (hn : 0 < num) (hd : 0 < den) (k : Int) :
    ((fmtF32.round .rn neg num den k).bits % 2 ^ 31 = fmtF32.inf → (unitsOf fmtF32.inf : ℚ) ≤ 2 * exactUnits num den k) ∧
    ((fmtF32.round .rn neg num den k).bits % 2 ^ 31 ≠ fmtF32.inf → exactUnits num den k < unitsOf fmtF32.inf) := by
  obtain ⟨i, up, fl, hto, -, -, hr⟩ := round_f32 .rn neg hn hd k
  have hlow := signed_low neg inf_lt_sign
  rw [hr]
  split
  · next h =>
    refine ⟨fun _ => ?_, fun hne => absurd hlow hne⟩
    obtain ⟨j, hj⟩ : ∃ j, j + 1 = i + up.toNat := ⟨i + up.toNat - 1, by have := inf_f32; omega⟩
    have hbelow := hto.nearest.2 j hj
    have hge : (unitsOf fmtF32.inf : ℚ) ≤ unitsOf (j + 1) := by exact_mod_cast unitsOf_le_iff.2 (hj ▸ h)
    have : (0 : ℚ) ≤ unitsOf j := Nat.cast_nonneg _
    linarith
  · next h =>
    refine ⟨fun heq => ?_, fun _ => ?_⟩
    · have hs := inf_lt_sign
      rw [signed_low neg (by omega)] at heq
      omega
    · refine hto.next.trans_le ?_
      exact_mod_cast unitsOf_le_iff.2 (by omega : i + 1 ≤ fmtF32.inf)

/-! ### A choice that does not overflow -/

/-- The end of the enclosure that decides it rounds to no infinity. -/
def Fits (y : Encl) (k : Int) : Prop := (fmtF32.round .rn (decide (y.lo < 0)) y.lo.natAbs 1 k).bits % 2 ^ 31 ≠ fmtF32.inf

theorem fits_of_finite {y : Encl} {k : Int} {mult : Nat} {b : Int} {w : Word} (h : f32Finite (boundedPick y k mult b w).bits) : Fits y k := by
  intro hinf
  rcases boundedPick_cases y k mult b w with ⟨he, -⟩ | ⟨hne, -⟩
  · rw [he] at h
    exact (finite_low h).ne hinf
  · exact hne hinf

theorem decide_negInt (n : Bool) {z : Nat} (hz : 0 < z) : decide (negInt n z < 0) = n := by
  unfold negInt
  cases n
  · exact decide_eq_false (by simp)
  · exact decide_eq_true (by simpa using hz)

section
variable (n : Bool) {lo hi d : Nat} {k : Int}

/-- The end that decides whether a choice overflows. -/
theorem fits_units (hlo : 0 < lo) (hlh : lo ≤ hi) (h : Fits (Encl.neg n ⟨lo, hi⟩) k) : exactUnits lo 1 k < unitsOf fmtF32.inf := by
  have hend : (Encl.neg n ⟨lo, hi⟩).lo = negInt n (if n then hi else lo : Nat) := by cases n <;> rfl
  have hpos : 0 < if n then hi else lo := by split <;> omega
  unfold Fits at h
  rw [hend, decide_negInt n hpos, negInt_natAbs] at h
  refine lt_of_le_of_lt ?_ ((round_nearest_inf n hpos one_pos k).2 h)
  rw [exactUnits_int, exactUnits_int]
  gcongr
  split
  · exact hlh
  · exact le_rfl

/-- The ends of the choice, by the magnitudes of its bounds. -/
theorem pickLow_neg (hd : d < hi) (hlo : 0 < lo) :
    pickLow (Encl.neg n ⟨lo, hi⟩) k d = fmtF32.key (fmtF32.round .ru n (if n then lo + d else hi - d) 1 k).bits := by
  have hend : (Encl.neg n ⟨lo, hi⟩).hi - d = negInt n (if n then lo + d else hi - d : Nat) := by
    cases n <;> simp only [Encl.neg, negInt, if_true, Bool.false_eq_true, if_false] <;> omega
  have hpos : 0 < if n then lo + d else hi - d := by split <;> omega
  rw [pickLow, hend, decide_negInt n hpos, negInt_natAbs]

theorem pickHigh_neg (hd : d < hi) (hlo : 0 < lo) :
    pickHigh (Encl.neg n ⟨lo, hi⟩) k d = fmtF32.key (fmtF32.round .rd n (if n then hi - d else lo + d) 1 k).bits := by
  have hend : (Encl.neg n ⟨lo, hi⟩).lo + d = negInt n (if n then hi - d else lo + d : Nat) := by
    cases n <;> simp only [Encl.neg, negInt, if_true, Bool.false_eq_true, if_false] <;> omega
  have hpos : 0 < if n then hi - d else lo + d := by split <;> omega
  rw [pickHigh, hend, decide_negInt n hpos, negInt_natAbs]

/-- The magnitudes chosen from: those from the least not below hi − d to the greatest not above lo + d, where one lies between. -/
theorem pick_between (hd : d < hi) (hlo : 0 < lo) {c : Nat} (hc : c < fmtF32.inf) (h1 : exactUnits (hi - d) 1 k ≤ unitsOf c)
    (h2 : unitsOf c ≤ exactUnits (lo + d) 1 k) : ∃ l h : Nat, exactUnits (hi - d) 1 k ≤ unitsOf l ∧ unitsOf h ≤ exactUnits (lo + d) 1 k ∧
      l ≤ h ∧ h < fmtF32.inf ∧ pickLow (Encl.neg n ⟨lo, hi⟩) k d = fmtF32.key (fmtF32.signed n (if n then h else l)) ∧
      pickHigh (Encl.neg n ⟨lo, hi⟩) k d = fmtF32.key (fmtF32.signed n (if n then l else h)) := by
  have hcinf : (unitsOf c : ℚ) ≤ unitsOf fmtF32.inf := by exact_mod_cast unitsOf_le_iff.2 hc.le
  obtain ⟨l, hl, hbl, hul, hleast⟩ := round_away n (num := hi - d) (by omega) k (h1.trans hcinf)
  obtain ⟨h, hh, hbh, huh, hgreatest⟩ := round_toward n (num := lo + d) (by omega) k
  refine ⟨l, h, hul, huh, (hleast c h1).trans (hgreatest c hc h2), hh, ?_, ?_⟩
  · rw [pickLow_neg n hd hlo]
    cases n
    · exact congrArg fmtF32.key hbl
    · exact congrArg fmtF32.key hbh
  · rw [pickHigh_neg n hd hlo]
    cases n
    · exact congrArg fmtF32.key hbh
    · exact congrArg fmtF32.key hbl

/-- Between two patterns of one sign the choice keeps the sign, and its magnitude lies between theirs. -/
theorem magnitude_between {n' : Bool} {l h j : Nat} (hlh : l ≤ h) (hh : h < fmtF32.inf) (hj : j ≤ fmtF32.inf)
    (h1 : fmtF32.key (fmtF32.signed n (if n then h else l)) ≤ fmtF32.key (fmtF32.signed n' j))
    (h2 : fmtF32.key (fmtF32.signed n' j) ≤ fmtF32.key (fmtF32.signed n (if n then l else h))) : n' = n ∧ l ≤ j ∧ j ≤ h := by
  have hs := inf_lt_sign
  rw [key_signed n' (by omega), key_signed n (by split <;> omega)] at h1 h2
  cases n <;> cases n' <;> simp only [if_true, Bool.false_eq_true, if_false] at h1 h2
  · exact ⟨rfl, by omega, by omega⟩
  · omega
  · omega
  · exact ⟨rfl, by omega, by omega⟩

/-- A choice whose bounds have a pattern between them, and which does not overflow, lies between them. -/
theorem boundedPick_between {mult : Nat} {b : Int} {w : Word} (hdist : pickDist k mult b = d) (hd : d < hi) (hlo : 0 < lo)
    (hfit : Fits (Encl.neg n ⟨lo, hi⟩) k) {c : Nat} (hc : c < fmtF32.inf) (h1 : exactUnits (hi - d) 1 k ≤ unitsOf c)
    (h2 : unitsOf c ≤ exactUnits (lo + d) 1 k) : ∃ j < fmtF32.inf, (boundedPick (Encl.neg n ⟨lo, hi⟩) k mult b w).bits = fmtF32.signed n j ∧
      exactUnits (hi - d) 1 k ≤ unitsOf j ∧ unitsOf j ≤ exactUnits (lo + d) 1 k := by
  obtain ⟨l, h, hul, huh, hlh, hh, hlow, hhigh⟩ := pick_between n hd hlo hc h1 h2
  rcases boundedPick_cases (Encl.neg n ⟨lo, hi⟩) k mult b w with ⟨-, hinf⟩ | ⟨-, n', j, fl, hj, -, hres, hge, hle⟩
  · exact absurd hinf hfit
  · have hs := inf_lt_sign
    have hmax : pickLow (Encl.neg n ⟨lo, hi⟩) k d ≤ pickHigh (Encl.neg n ⟨lo, hi⟩) k d := by
      rw [hlow, hhigh, key_signed n (by split <;> omega), key_signed n (by split <;> omega)]
      cases n <;> simp only [if_true, Bool.false_eq_true, if_false] <;> omega
    rw [hdist, max_eq_right hmax, hhigh] at hle
    rw [hdist, hlow] at hge
    obtain ⟨rfl, hlj, hjh⟩ := magnitude_between n hlh hh hj hge hle
    refine ⟨j, hjh.trans_lt hh, by rw [hres], hul.trans ?_, le_trans ?_ huh⟩
    · exact_mod_cast unitsOf_le_iff.2 hlj
    · exact_mod_cast unitsOf_le_iff.2 hjh

/-! ### A bound in units of the last place -/

/-- The ulp that a bound counts is the least that holds the value: 2^u units, or 1 unit of 2^−149. -/
theorem ulpPick_between {mult : Nat} {w : Word} (hlo : 2 ^ 24 ≤ lo) (hlh : lo ≤ hi) (hhl : hi ≤ lo + 1) (h4 : 4 ≤ exactUnits lo 1 k)
    (hm1 : 1 ≤ mult) (hm2 : mult ≤ 2) (hfit : Fits (Encl.neg n ⟨lo, hi⟩) k) :
    ∃ u : Nat, (u = 0 ∨ 2 ^ (23 + u) ≤ exactUnits lo 1 k) ∧ ∃ j < fmtF32.inf,
      (ulpPick (Encl.neg n ⟨lo, hi⟩) k mult w).bits = fmtF32.signed n j ∧
      exactUnits hi 1 k ≤ unitsOf j + mult * 2 ^ u ∧ unitsOf j ≤ exactUnits lo 1 k + mult * 2 ^ u := by
  have hpos : 0 < lo := by omega
  have hE : (0 : ℚ) < 2 ^ (k + 149) := by positivity
  obtain ⟨u, hu, hhigh, hlow, -⟩ := roundExp_spec hpos one_pos k
  -- the spacing 2^u is a multiple of the enclosure's unit
  obtain ⟨v, hv⟩ : ∃ v : Nat, k + 149 + v = u := by
    refine ⟨(u - (k + 149)).toNat, ?_⟩
    have : (2 : ℚ) ^ (k + 149) < 2 ^ (u : Int) := by
      rw [exactUnits_int] at hhigh
      have : (2 : ℚ) ^ 24 ≤ lo := by exact_mod_cast hlo
      rw [zpow_natCast]
      nlinarith
    have := (zpow_lt_zpow_iff_right₀ one_lt_two).1 this
    omega
  have hspace : (2 : ℚ) ^ v * 2 ^ (k + 149) = 2 ^ u := by
    rw [← zpow_natCast (2 : ℚ) v, ← zpow_natCast (2 : ℚ) u, ← hv, ← zpow_add₀ two_ne_zero, add_comm]
  have hd : mult * 2 ^ v < lo := by
    have hm : (mult : ℚ) * 2 ^ u ≤ 2 * 2 ^ u := by gcongr; exact_mod_cast hm2
    have hlt : (mult : ℚ) * 2 ^ u < exactUnits lo 1 k := by
      rcases hlow with h | rfl
      · have : (0 : ℚ) < 2 ^ u := by positivity
        linarith
      · linarith
    rw [exactUnits_int, ← hspace, ← mul_assoc, mul_lt_mul_iff_left₀ hE] at hlt
    exact_mod_cast hlt
  have hmin : min (Encl.neg n ⟨lo, hi⟩).lo.natAbs (Encl.neg n ⟨lo, hi⟩).hi.natAbs = lo := by
    cases n <;> simp only [Encl.neg, if_true, Bool.false_eq_true, if_false] <;> omega
  have hdist : pickDist k mult (roundExp lo 1 k) = (mult * 2 ^ v : Nat) := by
    rw [pickDist, if_pos (by omega), show (roundExp lo 1 k - k).toNat = v by omega]
    push_cast
    rfl
  -- the multiple of the spacing at or below the lower end
  have hdiv : lo / 2 ^ v < 2 ^ 24 := by
    rw [Nat.div_lt_iff_lt_mul (Nat.two_pow_pos v)]
    rw [exactUnits_int, ← hspace, ← mul_assoc, mul_lt_mul_iff_left₀ hE] at hhigh
    exact_mod_cast hhigh
  obtain ⟨c, hc⟩ := exists_unitsOf hdiv.le u
  have hdm := Nat.div_add_mod' lo (2 ^ v)
  have hcu : (unitsOf c : ℚ) = (lo / 2 ^ v * 2 ^ v : Nat) * 2 ^ (k + 149) := by
    rw [hc]
    push_cast
    rw [mul_assoc, hspace]
  have hcle : (unitsOf c : ℚ) ≤ exactUnits lo 1 k := by
    rw [hcu, exactUnits_int]
    gcongr
    omega
  have hmul : 2 ^ v ≤ mult * 2 ^ v := Nat.le_mul_of_pos_left _ hm1
  have hmod := Nat.mod_lt lo (Nat.two_pow_pos v)
  have hcinf : c < fmtF32.inf := unitsOf_strictMono.lt_iff_lt.1 (by exact_mod_cast hcle.trans_lt (fits_units n hpos hlh hfit))
  obtain ⟨j, hj, hbits, h1, h2⟩ := boundedPick_between n (w := w) hdist (by omega) hpos hfit hcinf
    (by rw [hcu, exactUnits_int]; gcongr; omega)
    (by rw [hcu, exactUnits_int]; gcongr; omega)
  refine ⟨u, hlow.symm.imp_right (fun h => by rwa [pow_add]), j, hj, ?_, ?_, ?_⟩
  · rw [ulpPick, hmin]
    exact hbits
  · rw [exactUnits_int, Nat.cast_sub (by omega), sub_mul, Nat.cast_mul, Nat.cast_pow, Nat.cast_two, mul_assoc, hspace] at h1
    rw [exactUnits_int]
    linarith
  · rw [exactUnits_int, Nat.cast_add, add_mul, Nat.cast_mul, Nat.cast_pow, Nat.cast_two, mul_assoc, hspace] at h2
    rwa [exactUnits_int]

/-- The same with any unit 2^u that 24 bits of significand need. -/
theorem ulpPick_within {mult : Nat} {w : Word} (hlo : 2 ^ 24 ≤ lo) (hlh : lo ≤ hi) (hhl : hi ≤ lo + 1) (h4 : 4 ≤ exactUnits lo 1 k)
    (hm1 : 1 ≤ mult) (hm2 : mult ≤ 2) (hfit : Fits (Encl.neg n ⟨lo, hi⟩) k) {u : Nat} (hu : exactUnits lo 1 k < 2 ^ (u + 24)) :
    ∃ j < fmtF32.inf, (ulpPick (Encl.neg n ⟨lo, hi⟩) k mult w).bits = fmtF32.signed n j ∧
      exactUnits hi 1 k ≤ unitsOf j + mult * 2 ^ u ∧ unitsOf j ≤ exactUnits lo 1 k + mult * 2 ^ u := by
  obtain ⟨v, hv, j, hj, hbits, h1, h2⟩ := ulpPick_between n (w := w) hlo hlh hhl h4 hm1 hm2 hfit
  have hvu : v ≤ u := by
    rcases hv with rfl | hv
    · exact Nat.zero_le u
    · have := (pow_lt_pow_iff_right₀ one_lt_two).1 (hv.trans_lt hu)
      omega
  have hle : (mult : ℚ) * 2 ^ v ≤ mult * 2 ^ u := by
    gcongr
    exact one_le_two
  exact ⟨j, hj, hbits, by linarith, by linarith⟩

end

end Sys2Proof.Machine
end

section
/-!
PROOF of the special functions (R68), continued: 1/x lies within 1 ulp of the exact value and 1/√x within 2, since the fixed-point quotient
and the fixed-point root enclose it.
-/
namespace Sys2Proof.Machine

theorem exactUnits_nonneg (num : Nat) (k : Int) : 0 ≤ exactUnits num 1 k := by
  rw [exactUnits_int]
  positivity

/-- The fixed-point values used lie well above the least unit. -/
theorem four_le_exactUnits {lo : Nat} (hlo : 2 ^ 216 ≤ lo) {k : Int} (hk : -344 ≤ k) : 4 ≤ exactUnits lo 1 k := by
  rw [exactUnits_int]
  have h1 : ((2 ^ 216 : ℕ) : ℚ) ≤ lo := by exact_mod_cast hlo
  have h2 : (2 : ℚ) ^ (-195 : Int) ≤ 2 ^ (k + 149) := zpow_le_zpow_right₀ one_le_two (by omega)
  calc (4 : ℚ) ≤ ((2 ^ 216 : ℕ) : ℚ) * 2 ^ (-195 : Int) := by norm_num
    _ ≤ lo * 2 ^ (k + 149) := mul_le_mul h1 h2 (by positivity) (Nat.cast_nonneg _)

/-- A positive enclosure of less than half an infinity fits. -/
theorem fits_of_lt {lo hi : Nat} {k : Int} (hlo : 0 < lo) (h : exactUnits lo 1 k < 2 ^ 276) : Fits (Encl.neg false ⟨lo, hi⟩) k := by
  intro hinf
  have hend : (Encl.neg false ⟨lo, hi⟩).lo = negInt false lo := rfl
  rw [hend, decide_negInt false hlo, negInt_natAbs] at hinf
  have hge := (round_nearest_inf false hlo one_pos k).1 hinf
  rw [unitsOf_inf, Nat.cast_pow, Nat.cast_two, pow_succ'] at hge
  exact h.not_ge (le_of_mul_le_mul_left hge two_pos)

section
variable {free : Word → Word} {x : Nat}

/-! ### 1/x -/

theorem specRcp_eq {n : Bool} {m : Nat} {e : Int} (h : fmtF32.read x = .fin n m e) (hm : m ≠ 0) : specRcp free x =
    if isPow2 m && decide ((fmtF32.round .rn n 1 m (-e)).bits % 2 ^ 31 ≥ 2 ^ 23) && decide ((fmtF32.round .rn n 1 m (-e)).bits % 2 ^ 31 < fmtF32.inf)
    then ⟨(fmtF32.round .rn n 1 m (-e)).bits, 0⟩
    else ulpPick (Encl.neg n ⟨(2 ^ 240 / m : Nat), if isPow2 m then (2 ^ 240 / m : Nat) else (2 ^ 240 / m : Nat) + 1⟩) (-240 - e) 1
      (free (BitVec.ofNat 32 x)) := by
  unfold specRcp
  rw [h]
  exact if_neg hm

/-- The quotient 2^240 / m and the number above it, or itself where it is exact. -/
theorem quotient_encloses {m : Nat} (hm0 : 0 < m) (hm : m < 2 ^ 24) : ∃ lo hi : Nat, 2 ^ 216 ≤ lo ∧ lo * m ≤ 2 ^ 240 ∧ 2 ^ 240 ≤ hi * m ∧ lo ≤ hi ∧
    hi ≤ lo + 1 ∧ lo = 2 ^ 240 / m ∧ (hi : Int) = if isPow2 m then ((2 ^ 240 / m : Nat) : Int) else ((2 ^ 240 / m : Nat) : Int) + 1 := by
  have hlow : 2 ^ 216 ≤ 2 ^ 240 / m := by
    rw [Nat.le_div_iff_mul_le hm0]
    omega
  have hle := Nat.div_mul_le_self (2 ^ 240) m
  have hgt := Nat.lt_mul_of_div_lt (Nat.lt_succ_self (2 ^ 240 / m)) hm0
  have hex : isPow2 m = true → 2 ^ 240 / m * m = 2 ^ 240 := fun hp => by
    have hlog : 2 ^ Nat.log2 m < 2 ^ 24 := by rwa [← isPow2_eq hp]
    rw [isPow2_eq hp]
    exact Nat.div_mul_cancel (pow_dvd_pow 2 (by have := (Nat.pow_lt_pow_iff_right one_lt_two).1 hlog; omega))
  generalize 2 ^ 240 / m = q at *
  cases hp : isPow2 m with
  | true => exact ⟨q, q, hlow, hle, (hex hp).ge, le_rfl, Nat.le_succ q, rfl, rfl⟩
  | false => exact ⟨q, q + 1, hlow, hle, hgt.le, Nat.le_succ q, le_rfl, rfl, rfl⟩

/-- Exact, or chosen within an enclosure of 2^240 / m. -/
theorem specRcp_pick {n : Bool} {m t : Nat} (h : fmtF32.read x = .fin n m (t - 149)) (hm0 : 0 < m) (hm : m < 2 ^ 24) (ht : t ≤ 253) :
    (∃ k < fmtF32.inf, unitsOf k * (m * 2 ^ t) = 2 ^ 298 ∧ (specRcp free x).bits = fmtF32.signed n k) ∨
      ∃ lo hi : Nat, 2 ^ 216 ≤ lo ∧ lo * m ≤ 2 ^ 240 ∧ 2 ^ 240 ≤ hi * m ∧ lo ≤ hi ∧ hi ≤ lo + 1 ∧
        specRcp free x = ulpPick (Encl.neg n ⟨lo, hi⟩) (-91 - t) 1 (free (BitVec.ofNat 32 x)) := by
  have heq := specRcp_eq (free := free) h hm0.ne'
  split at heq
  · next hc =>
    left
    rw [Bool.and_eq_true, Bool.and_eq_true, decide_eq_true_eq, decide_eq_true_eq] at hc
    obtain ⟨⟨hp, -⟩, hlt⟩ := hc
    have hpos : m * 2 ^ t = 2 ^ (Nat.log2 m + t) := significand_isPow2 hp t
    have hlog : Nat.log2 m < 24 := (Nat.log2_lt hm0.ne').2 hm
    have hV : exactUnits 1 m (-((t : Int) - 149)) = 2 ^ (298 - (Nat.log2 m + t)) := by
      have := exactUnits_two_pow 0 (Nat.log2 m) (-((t : Int) - 149))
      rw [pow_zero, ← isPow2_eq hp] at this
      rw [this, ← zpow_natCast]
      congr 1
      omega
    have hfin := (round_nearest_inf n one_pos hm0 (-((t : Int) - 149))).2 hlt.ne
    rw [hV, unitsOf_inf, Nat.cast_pow, Nat.cast_two] at hfin
    have hi : 298 - (Nat.log2 m + t) < 277 := (pow_lt_pow_iff_right₀ one_lt_two).1 hfin
    obtain ⟨k, hk, hu, hr⟩ := round_two_pow n one_pos hm0 hV hi
    refine ⟨k, hk, ?_, by rw [heq, hr]⟩
    rw [hu, hpos, ← pow_add, Nat.sub_add_cancel (by omega)]
  · right
    obtain ⟨lo, hi, h1, h2, h3, h4, h5, hlo, hhi⟩ := quotient_encloses hm0 hm
    refine ⟨lo, hi, h1, h2, h3, h4, h5, ?_⟩
    rw [heq, ← hlo, hlo, ← hhi, show (-240 : Int) - (t - 149) = -91 - t by ring]

/-- A finite 1/x lies within 1 ulp of the exact value. -/
theorem specRcp_within {n : Bool} {m t u : Nat} (h : fmtF32.read x = .fin n m (t - 149)) (hm0 : 0 < m) (hm : m < 2 ^ 24) (ht : t ≤ 253)
    (hf : f32Finite (specRcp free x).bits) (hu : 2 ^ 298 < m * 2 ^ t * 2 ^ (u + 24)) : ∃ k < fmtF32.inf,
      (specRcp free x).bits = fmtF32.signed n k ∧ 2 ^ 298 ≤ (unitsOf k + 2 ^ u) * (m * 2 ^ t) ∧
      unitsOf k * (m * 2 ^ t) ≤ 2 ^ 298 + 2 ^ u * (m * 2 ^ t) := by
  rcases specRcp_pick (free := free) h hm0 hm ht with ⟨k, hk, hex, hbits⟩ | ⟨lo, hi, hlow, hlom, hhim, hlh, hhl, hres⟩
  · exact ⟨k, hk, hbits, by rw [← hex]; exact Nat.mul_le_mul_right _ (Nat.le_add_right _ _), by rw [hex]; exact Nat.le_add_right _ _⟩
  · have hX : (0 : ℚ) < m * 2 ^ t := by positivity
    have hscale : ∀ q : Nat, exactUnits q 1 (-91 - t) * (m * 2 ^ t) = (q * m : Nat) * 2 ^ 58 := fun q => by
      rw [exactUnits_int, show (-91 - (t : Int) + 149) = (58 : ℕ) - t by push_cast; ring, zpow_sub₀ two_ne_zero, zpow_natCast, zpow_natCast,
        Nat.cast_mul]
      field_simp
    have hpow : (2 : ℚ) ^ 298 = 2 ^ 240 * 2 ^ 58 := by rw [← pow_add]
    have hdown : exactUnits lo 1 (-91 - t) * (m * 2 ^ t) ≤ 2 ^ 298 := by
      rw [hscale, hpow]
      exact mul_le_mul_of_nonneg_right (by exact_mod_cast hlom) (by positivity)
    have hupp : 2 ^ 298 ≤ exactUnits hi 1 (-91 - t) * (m * 2 ^ t) := by
      rw [hscale, hpow]
      exact mul_le_mul_of_nonneg_right (by exact_mod_cast hhim) (by positivity)
    have h4 := four_le_exactUnits hlow (k := -91 - t) (by omega)
    have hlt : exactUnits lo 1 (-91 - t) < 2 ^ (u + 24) := by
      have : (2 : ℚ) ^ 298 < 2 ^ (u + 24) * (m * 2 ^ t) := by rw [mul_comm]; exact_mod_cast hu
      exact lt_of_mul_lt_mul_right (hdown.trans_lt this) hX.le
    rw [hres] at hf ⊢
    obtain ⟨k, hk, hbits, h1, h2⟩ := ulpPick_within n (le_trans (Nat.pow_le_pow_right two_pos (by decide)) hlow) hlh hhl h4 le_rfl one_le_two
      (fits_of_finite hf) hlt
    rw [Nat.cast_one, one_mul] at h1 h2
    refine ⟨k, hk, hbits, ?_, ?_⟩
    · exact_mod_cast hupp.trans (mul_le_mul_of_nonneg_right h1 hX.le)
    · have h2' := mul_le_mul_of_nonneg_right h2 hX.le
      rw [add_mul] at h2'
      exact_mod_cast h2'.trans (add_le_add_left hdown _)

/-! ### 1/√x -/

theorem specRsq_eq {m : Nat} {e : Int} (h : fmtF32.read x = .fin false m e) (hm : m ≠ 0) : specRsq free x =
    if isPow2 m && ((Nat.log2 m : Int) + e) % 2 == 0 then fmtF32.round .rn false 1 1 (-(((Nat.log2 m : Int) + e) / 2))
    else ulpPick ⟨(Nat.sqrt (2 ^ 480 / if e % 2 = 0 then m else 2 * m) : Nat), (Nat.sqrt (2 ^ 480 / if e % 2 = 0 then m else 2 * m) : Nat) + 1⟩
      (-240 - (if e % 2 = 0 then e else e - 1) / 2) 2 (free (BitVec.ofNat 32 x)) := by
  unfold specRsq
  rw [h]
  exact if_neg hm

/-- The integer root of 2^480 / m encloses the root with the number above it. -/
theorem root_encloses {m : Nat} (hm0 : 0 < m) (hm : m < 2 ^ 25) :
    ∃ lo : Nat, lo = Nat.sqrt (2 ^ 480 / m) ∧ 2 ^ 216 ≤ lo ∧ lo ^ 2 * m ≤ 2 ^ 480 ∧ 2 ^ 480 ≤ (lo + 1) ^ 2 * m := by
  refine ⟨_, rfl, ?_, ?_, ?_⟩
  · rw [Nat.le_sqrt', Nat.le_div_iff_mul_le hm0]
    calc (2 ^ 216) ^ 2 * m ≤ (2 ^ 216) ^ 2 * 2 ^ 48 := Nat.mul_le_mul_left _ (by omega)
      _ = 2 ^ 480 := by rw [← pow_mul, ← pow_add]
  · exact (Nat.mul_le_mul_right m (Nat.sqrt_le' _)).trans (Nat.div_mul_le_self _ m)
  · have hlt : 2 ^ 480 / m < (Nat.sqrt (2 ^ 480 / m) + 1) ^ 2 := Nat.sqrt_lt'.1 (Nat.lt_succ_self _)
    exact (Nat.lt_mul_of_div_lt hlt hm0).le

/-- The scale of the fixed-point root: its square, in units, times the operand is 2^−33 of its own with the significand. -/
theorem root_scale (q : Nat) {m m' c t : Nat} {k : Int} (hm : m * 2 ^ t * 2 ^ 33 = m' * 2 ^ (2 * c)) (hk : k + 149 = -c) :
    (exactUnits q 1 k) ^ 2 * (m * 2 ^ t : Nat) = (q ^ 2 * m' : Nat) / 2 ^ 33 := by
  have hq : ((m * 2 ^ t : Nat) : ℚ) = m' * 2 ^ (2 * c) / 2 ^ 33 := by
    rw [eq_div_iff (by positivity)]
    exact_mod_cast hm
  rw [exactUnits_int, hk, hq, zpow_neg, zpow_natCast]
  push_cast
  field_simp
  ring

/-- The fixed-point root of the scaled significand encloses 1/√x, here squared. -/
theorem rsq_encloses {m m' c t : Nat} {k : Int} (h0 : 0 < m') (h25 : m' < 2 ^ 25) (hm : m * 2 ^ t * 2 ^ 33 = m' * 2 ^ (2 * c)) (hk : k + 149 = -c) :
    ∃ lo : Nat, lo = Nat.sqrt (2 ^ 480 / m') ∧ 2 ^ 216 ≤ lo ∧ (exactUnits lo 1 k) ^ 2 * (m * 2 ^ t : Nat) ≤ 2 ^ 447 ∧
      2 ^ 447 ≤ (exactUnits (lo + 1) 1 k) ^ 2 * (m * 2 ^ t : Nat) := by
  have hpow : (2 : ℚ) ^ 447 = 2 ^ 480 / 2 ^ 33 := by rw [eq_div_iff (by positivity), ← pow_add]
  obtain ⟨lo, hlo, hlow, hdown, hupp⟩ := root_encloses h0 h25
  refine ⟨lo, hlo, hlow, ?_, ?_⟩
  · rw [root_scale lo hm hk, hpow]
    exact div_le_div_of_nonneg_right (by exact_mod_cast hdown) (by positivity)
  · rw [root_scale (lo + 1) hm hk, hpow]
    exact div_le_div_of_nonneg_right (by exact_mod_cast hupp) (by positivity)

/-- Exact, or chosen within an enclosure of the root. -/
theorem specRsq_pick {m t : Nat} (h : fmtF32.read x = .fin false m (t - 149)) (hm0 : 0 < m) (hm : m < 2 ^ 24) (ht : t ≤ 253) :
    (∃ k < fmtF32.inf, unitsOf k ^ 2 * (m * 2 ^ t) = 2 ^ 447 ∧ (specRsq free x).bits = fmtF32.signed false k) ∨
      ∃ (lo : Nat) (k : Int), 2 ^ 216 ≤ lo ∧ -344 ≤ k ∧ (exactUnits lo 1 k) ^ 2 * (m * 2 ^ t : Nat) ≤ 2 ^ 447 ∧
        2 ^ 447 ≤ (exactUnits (lo + 1) 1 k) ^ 2 * (m * 2 ^ t : Nat) ∧
        specRsq free x = ulpPick ⟨lo, (lo + 1 : Nat)⟩ k 2 (free (BitVec.ofNat 32 x)) := by
  have heq := specRsq_eq (free := free) h hm0.ne'
  split at heq
  · next hc =>
    left
    rw [Bool.and_eq_true, beq_iff_eq] at hc
    obtain ⟨hp, heven⟩ := hc
    have hlog : Nat.log2 m < 24 := (Nat.log2_lt hm0.ne').2 hm
    have hpos := significand_isPow2 hp t
    obtain ⟨k, hk, hu, hr⟩ := specRsq_two_pow (free := free) (i := (447 - (Nat.log2 m + t)) / 2) h hpos (by omega) (by omega)
    refine ⟨k, hk, ?_, by rw [hr]⟩
    rw [hu, hpos, ← pow_mul, ← pow_add, show (447 - (Nat.log2 m + t)) / 2 * 2 + (Nat.log2 m + t) = 447 by omega]
  · right
    rcases Nat.even_or_odd' t with ⟨c, rfl | rfl⟩
    · have hodd : ¬((2 * c : Nat) - 149 : Int) % 2 = 0 := by omega
      have hexp : (-240 - ((2 * c : Nat) - 149 - 1 : Int) / 2) = -165 - c := by omega
      rw [if_neg hodd, if_neg hodd, hexp] at heq
      obtain ⟨lo, hlo, hlow, hdown, hupp⟩ := rsq_encloses (m := m) (m' := 2 * m) (c := c + 16) (t := 2 * c) (k := -165 - c) (by omega) (by omega)
        (by ring) (by push_cast; ring)
      exact ⟨lo, _, hlow, by omega, hdown, hupp, by rw [heq, ← hlo]; rfl⟩
    · have heven : ((2 * c + 1 : Nat) - 149 : Int) % 2 = 0 := by omega
      have hexp : (-240 - ((2 * c + 1 : Nat) - 149 : Int) / 2) = -166 - c := by omega
      rw [if_pos heven, if_pos heven, hexp] at heq
      obtain ⟨lo, hlo, hlow, hdown, hupp⟩ := rsq_encloses (m := m) (c := c + 17) (t := 2 * c + 1) (k := -166 - c) hm0 (by omega)
        (by ring) (by push_cast; ring)
      exact ⟨lo, _, hlow, by omega, hdown, hupp, by rw [heq, ← hlo]; rfl⟩

/-- 1/√x lies within 2 ulp of the exact value, here squared. -/
theorem specRsq_within {m t u : Nat} (h : fmtF32.read x = .fin false m (t - 149)) (hm0 : 0 < m) (hm : m < 2 ^ 24) (ht : t ≤ 253)
    (hu : 2 ^ 447 < m * 2 ^ t * 2 ^ (2 * (u + 24))) : ∃ k < fmtF32.inf, (specRsq free x).bits = fmtF32.signed false k ∧
      2 ^ 447 ≤ (unitsOf k + 2 * 2 ^ u) ^ 2 * (m * 2 ^ t) ∧ (unitsOf k - 2 * 2 ^ u) ^ 2 * (m * 2 ^ t) ≤ 2 ^ 447 := by
  rcases specRsq_pick (free := free) h hm0 hm ht with ⟨k, hk, hex, hbits⟩ | ⟨lo, k, hlow, hk, hdown, hupp, hres⟩
  · refine ⟨k, hk, hbits, ?_, ?_⟩
    · rw [← hex]
      exact Nat.mul_le_mul_right _ (Nat.pow_le_pow_left (Nat.le_add_right _ _) 2)
    · rw [← hex]
      exact Nat.mul_le_mul_right _ (Nat.pow_le_pow_left (Nat.sub_le _ _) 2)
  · have hX : (1 : ℚ) ≤ (m * 2 ^ t : Nat) := by exact_mod_cast Nat.mul_pos hm0 (Nat.two_pow_pos t)
    have h4 := four_le_exactUnits hlow hk
    have hfit : Fits (Encl.neg false ⟨lo, (lo + 1 : Nat)⟩) k := by
      have hV : exactUnits lo 1 k < 2 ^ 276 := by
        refine lt_of_pow_lt_pow_left₀ 2 (pow_nonneg zero_le_two _) ?_
        calc exactUnits lo 1 k ^ 2 ≤ exactUnits lo 1 k ^ 2 * (m * 2 ^ t : Nat) := le_mul_of_one_le_right (sq_nonneg _) hX
          _ ≤ 2 ^ 447 := hdown
          _ < (2 ^ 276) ^ 2 := by rw [← pow_mul]; exact pow_lt_pow_right₀ one_lt_two (by decide)
      exact fits_of_lt (by omega) hV
    have hlt : exactUnits lo 1 k < 2 ^ (u + 24) := by
      refine lt_of_pow_lt_pow_left₀ 2 (pow_nonneg zero_le_two _) ?_
      have hu' : (2 : ℚ) ^ 447 < (2 ^ (u + 24)) ^ 2 * (m * 2 ^ t : Nat) := by
        rw [← pow_mul, mul_comm (u + 24), mul_comm]
        exact_mod_cast hu
      exact lt_of_mul_lt_mul_right (hdown.trans_lt hu') (zero_le_one.trans hX)
    obtain ⟨j, hj, hbits, h1, h2⟩ := ulpPick_within false (w := free (BitVec.ofNat 32 x))
      (le_trans (Nat.pow_le_pow_right two_pos (by decide)) hlow) (Nat.le_succ lo) le_rfl h4 one_le_two le_rfl hfit hlt
    refine ⟨j, hj, by rw [hres]; exact hbits, ?_, ?_⟩
    · have : (2 : ℚ) ^ 447 ≤ (unitsOf j + 2 * 2 ^ u) ^ 2 * (m * 2 ^ t : Nat) := by
        refine hupp.trans (mul_le_mul_of_nonneg_right (pow_le_pow_left₀ (exactUnits_nonneg _ k) h1 2) (Nat.cast_nonneg _))
      exact_mod_cast this
    · rcases le_total (2 * 2 ^ u) (unitsOf j) with hle | hle
      · have : (((unitsOf j - 2 * 2 ^ u : Nat) : ℚ)) ^ 2 * (m * 2 ^ t : Nat) ≤ 2 ^ 447 := by
          refine le_trans (mul_le_mul_of_nonneg_right (pow_le_pow_left₀ (Nat.cast_nonneg _) ?_ 2) (Nat.cast_nonneg _)) hdown
          rw [Nat.cast_sub hle]
          push_cast at h2 ⊢
          linarith
        exact_mod_cast this
      · rw [Nat.sub_eq_zero_of_le hle, zero_pow two_ne_zero, zero_mul]
        exact Nat.zero_le _

end

end Sys2Proof.Machine
end

section
/-!
PROOF of the special functions (R68), the last part: the clauses of the statement, each from what is shown of its function.
-/
namespace Sys2Proof.Machine

section
variable {free : Word → Word} {x : Nat}

/-! ### Powers of two -/

theorem specRcp_powers (hx : x < 2 ^ 32) {j : Nat} (hl : 22 ≤ j) (hh : j ≤ 275) :
    (f32Units x = 2 ^ j → (specRcp free x).fl = 0 ∧ f32Units (specRcp free x).bits = 2 ^ (298 - j)) ∧
    (f32Units x = -2 ^ j → (specRcp free x).fl = 0 ∧ f32Units (specRcp free x).bits = -2 ^ (298 - j)) := by
  have hp : (0 : Int) < 2 ^ j := by positivity
  constructor <;> intro hu
  · obtain ⟨n, m, t, hr, hun, -⟩ := finite_read hx (finite_of_units (by omega))
    obtain ⟨rfl, hj⟩ := negInt_eq_pow (hun.symm.trans hu)
    obtain ⟨k, hk, hku, hres⟩ := specRcp_two_pow (free := free) hr hj hl hh
    rw [hres]
    exact ⟨rfl, by rw [f32Units_signed _ hk, hku]; exact Nat.cast_pow 2 _⟩
  · obtain ⟨n, m, t, hr, hun, -⟩ := finite_read hx (finite_of_units (by omega))
    obtain ⟨rfl, hj⟩ := negInt_eq_neg_pow (hun.symm.trans hu)
    obtain ⟨k, hk, hku, hres⟩ := specRcp_two_pow (free := free) hr hj hl hh
    rw [hres]
    exact ⟨rfl, by rw [f32Units_signed _ hk, hku]; exact congrArg Neg.neg (Nat.cast_pow 2 _)⟩

/-- An operand that is a power of two, read. -/
theorem read_of_two_pow (hx : x < 2 ^ 32) {j : Nat} (hu : f32Units x = 2 ^ j) :
    ∃ m t, fmtF32.read x = .fin false m ((t : Nat) - 149) ∧ m * 2 ^ t = 2 ^ j ∧ m < 2 ^ 24 ∧ t ≤ 253 := by
  have hp : (0 : Int) < 2 ^ j := by positivity
  obtain ⟨n, m, t, hr, hun, hm, -, ht⟩ := finite_read hx (finite_of_units (by omega))
  obtain ⟨rfl, hj⟩ := negInt_eq_pow (hun.symm.trans hu)
  exact ⟨m, t, hr, hj, hm, ht⟩

/-- The value of a finite operand is less than 2^277 units. -/
theorem exponent_lt {m t j : Nat} (hj : m * 2 ^ t = 2 ^ j) (hm : m < 2 ^ 24) (ht : t ≤ 253) : j < 277 := by
  obtain ⟨a, rfl, rfl⟩ := significand_of_pow hj
  have := (Nat.pow_lt_pow_iff_right one_lt_two).1 hm
  omega

theorem specRsq_powers (hx : x < 2 ^ 32) {i j : Nat} (hu : f32Units x = 2 ^ j) (hi : 2 * i + j = 447) :
    (specRsq free x).fl = 0 ∧ f32Units (specRsq free x).bits = 2 ^ i := by
  obtain ⟨m, t, hr, hj, hm, ht⟩ := read_of_two_pow hx hu
  have := exponent_lt hj hm ht
  obtain ⟨k, hk, hku, hres⟩ := specRsq_two_pow (free := free) hr hj hi (by omega)
  rw [hres]
  exact ⟨rfl, by rw [f32Units_signed _ hk, hku]; exact Nat.cast_pow 2 _⟩

theorem specEx2_integers (hx : x < 2 ^ 32) {i : Int} (hf : f32Finite x) (hu : f32Units x = i * 2 ^ 149) (hl : -149 ≤ i) (hh : i ≤ 127) :
    (specEx2 free x).fl = 0 ∧ f32Units (specEx2 free x).bits = 2 ^ (i + 149).toNat := by
  obtain ⟨n, m, t, hr, hun, -⟩ := finite_read hx hf
  by_cases hm : m = 0
  · subst hm
    have h0 : f32Units x = 0 := by rw [hun, zero_mul]; cases n <;> rfl
    obtain rfl : i = 0 := by omega
    have hres : specEx2 free x = ⟨fmtF32.one, 0⟩ := by
      unfold specEx2
      rw [hr]
      exact if_pos rfl
    rw [hres]
    exact ⟨rfl, by decide⟩
  · obtain ⟨k, hk, hku, hres⟩ := specEx2_int (free := free) hr hm (hun.symm.trans hu) hl hh
    rw [hres]
    exact ⟨rfl, by rw [f32Units_signed _ hk, hku]; exact Nat.cast_pow 2 _⟩

theorem specLg2_powers (hx : x < 2 ^ 32) {j : Nat} (hu : f32Units x = 2 ^ j) :
    (specLg2 free x).fl = 0 ∧ f32Finite (specLg2 free x).bits ∧ f32Units (specLg2 free x).bits = ((j : Int) - 149) * 2 ^ 149 := by
  obtain ⟨m, t, hr, hj, hm, ht⟩ := read_of_two_pow hx hu
  have := exponent_lt hj hm ht
  obtain ⟨k, hk, hres, hku⟩ := intToF_exact (v := (j : Int) - 149) (by omega)
  rw [specLg2_two_pow (free := free) hr hj, hres]
  exact ⟨rfl, f32Finite_signed _ hk, by rw [f32Units_signed _ hk, hku]⟩

/-! ### The bounds -/

/-- A positive operand, read. -/
theorem read_of_pos (hx : x < 2 ^ 32) {X : Nat} (hu : f32Units x = X) (hX : 0 < X) :
    ∃ m t, fmtF32.read x = .fin false m ((t : Nat) - 149) ∧ X = m * 2 ^ t ∧ 0 < m ∧ m < 2 ^ 24 ∧ t ≤ 253 := by
  obtain ⟨n, m, t, hr, hun, hm, -, ht⟩ := finite_read hx (finite_of_units (by omega))
  have hm0 : 0 < m := Nat.pos_of_ne_zero fun h => by
    rw [h, zero_mul] at hun
    cases n <;> simp [negInt] at hun <;> omega
  have hn : n = false := by
    cases n
    · rfl
    · have hneg := (f32Units_neg_iff hr).2 ⟨rfl, hm0.ne'⟩
      omega
  subst hn
  exact ⟨m, t, hr, by rw [hun] at hu; exact (Int.ofNat_inj.1 hu).symm, hm0, hm, ht⟩

theorem specSqrt_pos {m : Nat} {e : Int} (h : fmtF32.read x = .fin false m e) (hm : m ≠ 0) : specSqrt x = fsqrtPos fmtF32 m e := by
  unfold specSqrt
  rw [h]
  dsimp only
  rw [if_neg hm, if_neg Bool.false_ne_true]

/-- A pattern with sign 0 counts its magnitude. -/
theorem f32Units_low {p : Nat} (hp : p < 2 ^ 31) (hf : f32Finite p) : f32Units p = unitsOf p := by
  have hlt := finite_low hf
  rw [Nat.mod_eq_of_lt hp] at hlt
  exact f32Units_signed false hlt

theorem specSqrt_nearest (hx : x < 2 ^ 32) {X : Nat} (hu : f32Units x = X) (hX : 0 < X) : let r := f32Units (specSqrt x).bits
    f32Finite (specSqrt x).bits ∧ 0 ≤ r ∧ (specSqrt x).fl = (if r * r = X * 2 ^ 149 then 0 else 1) ∧
      ∀ p < 2 ^ 31, f32Finite p → (f32Units p < r → (f32Units p + r) ^ 2 ≤ 4 * X * 2 ^ 149) ∧
        (r < f32Units p → 4 * X * 2 ^ 149 ≤ (f32Units p + r) ^ 2) := by
  obtain ⟨m, t, hr, rfl, hm0, hm, ht⟩ := read_of_pos hx hu hX
  obtain ⟨k, hk, hres, hbelow, habove⟩ := fsqrtPos_spec hm0 hm ht
  have hunits : f32Units (fmtF32.signed false k) = unitsOf k := f32Units_signed false hk
  rw [specSqrt_pos hr hm0.ne', hres]
  dsimp only
  rw [hunits]
  refine ⟨f32Finite_signed _ hk, Int.natCast_nonneg _, ?_, fun p hp hf => ?_⟩
  · refine if_congr ?_ rfl rfl
    exact_mod_cast Iff.rfl
  · rw [f32Units_low hp hf]
    refine ⟨fun h => ?_, fun h => ?_⟩
    · have := hbelow p (unitsOf_strictMono.lt_iff_lt.1 (Int.ofNat_lt.1 h))
      exact_mod_cast this
    · have := habove p (unitsOf_strictMono.lt_iff_lt.1 (Int.ofNat_lt.1 h))
      exact_mod_cast this

theorem specRcp_bound (hx : x < 2 ^ 32) {u : Nat} (h0 : f32Units x ≠ 0) (hf : f32Finite (specRcp free x).bits)
    (hu : 2 ^ 298 < (f32Units x).natAbs * 2 ^ (u + 24)) :
    (f32Units (specRcp free x).bits * f32Units x - 2 ^ 298).natAbs ≤ 2 ^ u * (f32Units x).natAbs := by
  obtain ⟨n, m, t, hr, hun, hm, -, ht⟩ := finite_read hx (finite_of_units h0)
  have hm0 : 0 < m := Nat.pos_of_ne_zero fun h => h0 (by rw [hun, h, zero_mul]; cases n <;> rfl)
  rw [hun, negInt_natAbs] at hu ⊢
  obtain ⟨k, hk, hbits, h1, h2⟩ := specRcp_within hr hm0 hm ht hf hu
  have hmul : negInt n (unitsOf k) * negInt n (m * 2 ^ t : Nat) = (unitsOf k * (m * 2 ^ t) : Nat) := by
    unfold negInt
    cases n <;> simp
  rw [hbits, f32Units_signed n hk, hmul]
  rw [add_mul] at h1
  generalize unitsOf k * (m * 2 ^ t) = P at *
  generalize 2 ^ u * (m * 2 ^ t) = D at *
  omega

theorem specRsq_bound (hx : x < 2 ^ 32) {u X : Nat} (hX : f32Units x = X) (h0 : 0 < X) (hu : 2 ^ 447 < X * 2 ^ (2 * (u + 24))) :
    let r := f32Units (specRsq free x).bits
    2 ^ 447 ≤ (r + 2 * 2 ^ u) ^ 2 * X ∧ (2 * 2 ^ u ≤ r → (r - 2 * 2 ^ u) ^ 2 * X ≤ 2 ^ 447) := by
  obtain ⟨m, t, hr, rfl, hm0, hm, ht⟩ := read_of_pos hx hX h0
  obtain ⟨k, hk, hbits, h1, h2⟩ := specRsq_within (free := free) hr hm0 hm ht hu
  dsimp only
  rw [hbits, show f32Units (fmtF32.signed false k) = unitsOf k from f32Units_signed false hk]
  refine ⟨by exact_mod_cast h1, fun hle => ?_⟩
  have hle' : 2 * 2 ^ u ≤ unitsOf k := by exact_mod_cast hle
  have hsub : ((unitsOf k : Int) - 2 * 2 ^ u) = (unitsOf k - 2 * 2 ^ u : Nat) := by
    rw [Nat.cast_sub hle']
    push_cast
    rfl
  rw [hsub]
  exact_mod_cast h2

/-- No NaN of an operand that is not below 0. -/
theorem specials_isNan {g : Nat → FRes} (hg : g ∈ specials free) (hx : x < 2 ^ 32) (hf : f32Finite x) (h0 : ¬f32Units x < 0) :
    (fmtF32.read (g x).bits).isNan = false := by
  simp only [specials, List.mem_cons, List.not_mem_nil, or_false] at hg
  rcases hg with rfl | rfl | rfl | rfl | rfl | rfl | rfl | rfl
  · exact (isNumber_specRcp hf).isNan
  · exact (isNumber_specRsq hf h0).isNan
  · exact (isNumber_specSqrt hx hf h0).isNan
  · exact (isNumber_specEx2 hf).isNan
  · exact (isNumber_specLg2 hf h0).isNan
  · exact (isNumber_specTrig false hx hf).isNan
  · exact (isNumber_specTrig true hx hf).isNan
  · exact (isNumber_specTanh hx hf).isNan

theorem specials_isNan_finite {g : Nat → FRes} (hg : g ∈ [specRcp free, specEx2 free, specTrig false free, specTrig true free, specTanh free])
    (hx : x < 2 ^ 32) (hf : f32Finite x) : (fmtF32.read (g x).bits).isNan = false := by
  simp only [List.mem_cons, List.not_mem_nil, or_false] at hg
  rcases hg with rfl | rfl | rfl | rfl | rfl
  · exact (isNumber_specRcp hf).isNan
  · exact (isNumber_specEx2 hf).isNan
  · exact (isNumber_specTrig false hx hf).isNan
  · exact (isNumber_specTrig true hx hf).isNan
  · exact (isNumber_specTanh hx hf).isNan

theorem specials_invalid {g : Nat → FRes} (hg : g ∈ [specRsq free, specSqrt, specLg2 free]) (h : (f32Finite x ∧ f32Units x < 0) ∨ x = 0xFF800000) :
    g x = invalid := by
  simp only [List.mem_cons, List.not_mem_nil, or_false] at hg
  rcases hg with rfl | rfl | rfl
  · exact specRsq_invalid (below_of h)
  · exact specSqrt_invalid (below_of h)
  · exact specLg2_invalid (below_of h)

end

/-- Each instruction gives its function in each active lane (R107). -/
theorem specials_give : ∀ p ∈ ([(Instr.vrcp, specRcp Config.vrcp), (Instr.vrsq, specRsq Config.vrsq), (Instr.vsqrt, specSqrt),
      (Instr.vex2, specEx2 Config.vex2), (Instr.vlg2, specLg2 Config.vlg2), (Instr.vsin, specTrig false Config.vsin),
      (Instr.vcos, specTrig true Config.vcos), (Instr.vtanh, specTanh Config.vtanh)] : List ((Hdr → FUn → Instr) × (Nat → FRes))),
    ∀ h (o : FUn) s x, o.ty = .f32 → Ready (p.1 h o) s x → GivesFloat (p.1 h o) s x 32 o.d fun l =>
      p.2 (negIf fmtF32 o.na (floatLane (issOf (p.1 h o) s x) .f32 o.a l 0)) := by
  rintro p hp h ⟨ty, na, d, a⟩ s x rfl hr
  simp only [List.mem_cons, List.not_mem_nil, or_false] at hp
  rcases hp with rfl | rfl | rfl | rfl | rfl | rfl | rfl | rfl <;> exact givesFloat_of hr rfl rfl rfl

/-- Settles O25: the zeros and infinities by what each function answers at once, the rest clause by clause. -/
theorem specialFunctionResults : Obligations.SpecialFunctionResults := by
  unfold Obligations.SpecialFunctionResults
  exact ⟨specials_give, fun f => ⟨fun g hg x hx => ⟨fun sig hn => quietsNan_specials g hg x sig hn, fun hf h0 =>
    specials_isNan hg hx hf h0.not_gt⟩, fun g hg x _ h => specials_invalid hg h, fun g hg x hx hf => specials_isNan_finite hg hx hf,
    rfl, rfl, rfl, rfl, rfl, rfl, rfl, rfl, rfl, rfl, rfl, rfl, rfl, rfl, rfl, rfl, rfl, rfl, rfl, rfl, rfl, rfl, rfl, rfl, rfl, rfl, rfl,
    fun x hx j hl hh => specRcp_powers hx hl hh, fun x hx i j => specRsq_powers hx, fun x hx i => specEx2_integers hx,
    fun x hx j => specLg2_powers hx, fun x hx => no_flag_cases hx, fun x hx X => specSqrt_nearest hx, fun x hx u => specRcp_bound hx,
    fun x hx u X => specRsq_bound hx⟩⟩

end Sys2Proof.Machine
end

section
/-!
PROOF of the scalar instructions (R97 to R101): each gives its result by the common form of a scalar result, and the values are those of R98 and
R99.
-/
namespace Sys2Proof.Machine

/-! ### The common forms of a scalar result (R97) -/

section
variable {i : Instr} {s : State} {x : Crew} (h : Ready i s x)
include h

/-- A result taken modulo the width and extended by the type. -/
theorem gives_scalarResult {ty : Ty} {d : Reg} {r : Int} {eff : Iss → State → Effect} (he : exec i s = run i eff s)
    (hd : eff (issOf i s x) (issued i s x) = scalarResult (issOf i s x) (issued i s x) ty d r) :
    Gives i s x (resS x d (extendTy ty r)) := gives_of h rfl he hd

/-- A result of 64 bits. -/
theorem gives_scalarPlain {d : Reg} {r : Nat} {eff : Iss → State → Effect} (he : exec i s = run i eff s)
    (hd : eff (issOf i s x) (issued i s x) = scalarPlain (issOf i s x) (issued i s x) d r) :
    Gives i s x (resS x d (BitVec.ofNat 64 r)) := gives_of h rfl he hd

/-- An operation on two values of the type. -/
theorem gives_scalarBin {o : Bin} {f : Int → Int → Int} (he : exec i s = scalarBin i o f s) :
    Gives i s x (resS x o.d (extendTy o.ty (f (srcT s x o.ty o.a) (srcT s x o.ty o.b)))) :=
  gives_scalarResult h he (by simp only [scalarN_issued h, srcT])

/-- An operation on a value of the type and an unsigned number. -/
theorem gives_scalarShift {o : Bin} {f : Nat → Int → Nat → Int} (he : exec i s = scalarShift i o f s) :
    Gives i s x (resS x o.d (extendTy o.ty (f (tyWidth o.ty) (srcT s x o.ty o.a) (srcS s x o.b).toNat))) :=
  gives_scalarResult h he (by simp only [scalarN_issued h, srcT])

end

/-! ### Two operands (R98) -/

theorem tdiv_or_zero (a b : Int) : (if b = 0 then 0 else a.tdiv b) = a.tdiv b := by
  split
  · next hb => rw [hb, Int.tdiv_zero]
  · rfl

theorem sub_mul_tdiv (a b : Int) : (if b = 0 then a else a - b * a.tdiv b) = a.tmod b := by
  split
  · next hb => rw [hb, Int.tmod_zero]
  · rw [Int.tmod_def]

/-- Settles O13: each instruction is the common form, with its operation as R98 states it. -/
theorem scalarTwoOperandResults : Obligations.ScalarTwoOperandResults := by
  unfold Obligations.ScalarTwoOperandResults
  intro p hp h o s x hr
  refine gives_scalarBin hr (f := p.2 (tyWidth o.ty)) ?_
  simp only [List.mem_cons, List.not_mem_nil, or_false] at hp
  rcases hp with rfl | rfl | rfl | rfl | rfl | rfl | rfl | rfl | rfl | rfl | rfl
  · rfl
  · rfl
  · rfl
  · rfl
  · simp only [tdiv_or_zero]; rfl
  · simp only [sub_mul_tdiv]; rfl
  · rfl
  · rfl
  · rfl
  · simp only [← min_def]; rfl
  · simp only [← max_def]; rfl

/-! ### Patterns of a type (R26, R97) -/

theorem tyWidth_pos (ty : Ty) : 0 < tyWidth ty := by cases ty <;> decide

/-- The sign of a pattern is its highest bit. -/
theorem signed_neg_iff {w n : Nat} (hw : 0 < w) : signed w n < 0 ↔ n.testBit (w - 1) = true := by
  have msb : n.testBit (w - 1) = decide (2 ^ (w - 1) ≤ n % 2 ^ w) := by
    rw [← BitVec.toNat_ofNat, ← BitVec.msb_eq_decide, BitVec.msb_eq_getLsbD_last, BitVec.getLsbD_ofNat]
    simp [hw]
  have half : 2 ^ w = 2 * 2 ^ (w - 1) := by rw [← pow_succ', Nat.sub_add_cancel hw]
  have lt := Nat.mod_lt n (Nat.two_pow_pos w)
  rw [msb, decide_eq_true_eq]
  unfold signed
  split <;> omega

/-- The pattern of a value, taken at its width or below, is that of the word it was read from. -/
theorem wrap_tyVal {ty : Ty} {k : Nat} (hk : k ≤ tyWidth ty) (n : Nat) : wrap k (tyVal ty n) = n % 2 ^ k := by
  have dvd : 2 ^ k ∣ 2 ^ tyWidth ty := Nat.pow_dvd_pow 2 hk
  have low : ((n % 2 ^ tyWidth ty : Nat) : Int) % (2 ^ k : Nat) = (n % 2 ^ k : Nat) := by
    rw [← Int.natCast_mod, Nat.mod_mod_of_dvd _ dvd]
  have cut : ((n % 2 ^ tyWidth ty : Nat) - (2 ^ tyWidth ty : Nat) : Int) % (2 ^ k : Nat) = (n % 2 ^ k : Nat) := by
    rw [Int.sub_emod, Int.emod_eq_zero_of_dvd (Int.natCast_dvd_natCast.2 dvd), sub_zero, Int.emod_emod_of_dvd _ (dvd_refl _), low]
  have value : tyVal ty n % (2 ^ k : Nat) = (n % 2 ^ k : Nat) := by
    unfold tyVal signed
    split
    · split
      · exact low
      · exact cut
    · exact low
  unfold wrap
  rw [value, Int.toNat_natCast]

/-! ### Shifts and fields (R98, R99) -/

theorem shiftArith_eq {w : Nat} (hw : 0 < w) (a : Int) (n : Nat) :
    shiftArith w a n = if w ≤ n then (if (wrap w a).testBit (w - 1) then -1 else 0) else signed w (wrap w a) / 2 ^ n := by
  simp only [shiftArith, signed_neg_iff hw, ge_iff_le]

/-- A field put in place of another leaves the bits below and above it. -/
theorem testBit_replace_field (d v : Nat) {p len : Nat} (hv : v < 2 ^ len) (j : Nat) :
    (d - d / 2 ^ p % 2 ^ len * 2 ^ p + v * 2 ^ p).testBit j =
      if p ≤ j ∧ j < p + len then v.testBit (j - p) else d.testBit j := by
  have split_d : d - d / 2 ^ p % 2 ^ len * 2 ^ p = 2 ^ p * (2 ^ len * (d / 2 ^ p / 2 ^ len)) + d % 2 ^ p := by
    have h1 := Nat.div_add_mod d (2 ^ p)
    have h2 := Nat.div_add_mod (d / 2 ^ p) (2 ^ len)
    have h3 : d = 2 ^ p * (2 ^ len * (d / 2 ^ p / 2 ^ len)) + 2 ^ p * (d / 2 ^ p % 2 ^ len) + d % 2 ^ p := by
      rw [← mul_add, h2, h1]
    rw [mul_comm (d / 2 ^ p % 2 ^ len)]
    omega
  have join : d - d / 2 ^ p % 2 ^ len * 2 ^ p + v * 2 ^ p = 2 ^ p * (2 ^ len * (d / 2 ^ p / 2 ^ len) + v) + d % 2 ^ p := by
    rw [split_d]
    ring
  rw [join, Nat.testBit_two_pow_mul_add _ (Nat.mod_lt _ (Nat.two_pow_pos p))]
  by_cases hp : j < p
  · rw [if_pos hp, if_neg (by omega), Nat.testBit_mod_two_pow, decide_eq_true hp, Bool.true_and]
  · rw [if_neg hp, Nat.testBit_two_pow_mul_add _ hv]
    by_cases hl : j < p + len
    · rw [if_pos (by omega), if_pos ⟨by omega, hl⟩]
    · rw [if_neg (by omega), if_neg (by omega), Nat.testBit_div_two_pow, Nat.testBit_div_two_pow]
      congr 1
      omega

/-- Settles O14: the shifts and SBFX by the common form, SBFI by the field put in place. -/
theorem scalarShiftAndFieldResults : Obligations.ScalarShiftAndFieldResults := by
  unfold Obligations.ScalarShiftAndFieldResults
  refine ⟨fun p hp h o s x hr => ?shifts, fun h o s x hr => ?insert⟩
  case shifts =>
    refine gives_scalarShift hr (f := fun w => p.2 w (tySigned o.ty)) ?_
    simp only [List.mem_cons, List.not_mem_nil, or_false] at hp
    rcases hp with rfl | rfl | rfl | rfl
    · rfl
    · rfl
    · simp only [scalarShift, ← shiftArith_eq (tyWidth_pos o.ty)]; rfl
    · simp only [scalarShift, ← bne_iff_ne, ← Bool.and_eq_true]; rfl
  case insert =>
    refine ⟨_, gives_scalarResult hr rfl rfl, fun j hj => ?_⟩
    have len : min (bits (srcS s x o.b).toNat 14 8) (tyWidth o.ty) ≤ tyWidth o.ty := Nat.min_le_right ..
    simp only [scalarN_issued hr, wrap_tyVal le_rfl, wrap_tyVal len]
    rw [testBit_replace_field _ _ (Nat.mod_lt _ (Nat.two_pow_pos _)), Nat.testBit_mod_two_pow, Nat.testBit_mod_two_pow, decide_eq_true hj,
      Bool.true_and]
    split
    · next hin => rw [decide_eq_true (by omega), Bool.true_and]
    · rfl

/-! ### The other instructions (R100, R101) -/

/-- The leading zeros of a pattern: it has that many fewer bits, and the bit below them is set. -/
theorem clz_spec (w x : Nat) :
    clz w x ≤ w ∧ x % 2 ^ w < 2 ^ (w - clz w x) ∧ (clz w x < w → x.testBit (w - 1 - clz w x) = true) := by
  unfold clz
  split
  · next h0 => simp [h0]
  · next h0 =>
    have lt : x % 2 ^ w < 2 ^ w := Nat.mod_lt _ (Nat.two_pow_pos w)
    have hlog : Nat.log2 (x % 2 ^ w) < w := (Nat.log2_lt h0).2 lt
    refine ⟨by omega, ?_, fun _ => ?_⟩
    · rw [show w - (w - 1 - Nat.log2 (x % 2 ^ w)) = Nat.log2 (x % 2 ^ w) + 1 by omega]
      exact Nat.lt_log2_self
    · rw [show w - 1 - (w - 1 - Nat.log2 (x % 2 ^ w)) = Nat.log2 (x % 2 ^ w) by omega]
      have := Nat.testBit_log2 h0
      rw [Nat.testBit_mod_two_pow] at this
      simpa [hlog] using this

/-- Settles O15: each by the common form of its result. -/
theorem scalarOtherResults : Obligations.ScalarOtherResults := by
  unfold Obligations.ScalarOtherResults
  refine ⟨fun h o s x hr => ?scmp, fun h o s x hr => ?ssel, fun h o s x hr => gives_scalarResult hr rfl (by simp only [scalarN_issued hr, srcT]),
    fun h o s x hr => ?sclz, fun h o s x hr => gives_scalarPlain hr rfl (by simp only [scalarN_issued hr, popc]),
    fun h o s x hr => ?slea, fun h o s x hr => gives_of hr rfl rfl rfl, fun h o s x hr => ?smovh⟩
  case scmp =>
    have word (b : Bool) : (if b then 1 else 0 : DWord) = BitVec.ofNat 64 b.toNat := by cases b <;> rfl
    rw [word]
    exact gives_scalarPlain hr rfl (by simp only [scalarN_issued hr, srcT])
  case ssel => exact gives_scalarResult hr rfl (by simp only [scalar_issued hr, scalarN_issued hr, srcT]; split <;> rfl)
  case sclz =>
    obtain ⟨hle, hlt, hbit⟩ := clz_spec (tyWidth o.ty) (srcS s x o.a).toNat
    exact ⟨_, hle, gives_scalarPlain hr rfl (by simp only [scalarN_issued hr]), hlt, hbit⟩
  case slea =>
    have sum : srcS s x o.a + srcS s x o.b <<< o.sh.toNat = BitVec.ofNat 64 ((srcS s x o.a).toNat + (srcS s x o.b).toNat * 2 ^ o.sh.toNat) := by
      apply BitVec.eq_of_toNat_eq
      simp [BitVec.toNat_add, BitVec.toNat_shiftLeft, Nat.shiftLeft_eq]
    rw [sum]
    exact gives_scalarPlain hr rfl (by simp only [scalarN_issued hr])
  case smovh =>
    have joined : o.imm ++ (srcS s x o.d).setWidth 32 = BitVec.ofNat 64 (o.imm.toNat * 2 ^ 32 + (srcS s x o.d).toNat % 2 ^ 32) := by
      apply BitVec.eq_of_toNat_eq
      have himm := o.imm.isLt
      rw [BitVec.toNat_append, BitVec.toNat_setWidth, ← Nat.shiftLeft_add_eq_or_of_lt (Nat.mod_lt _ (by decide)), Nat.shiftLeft_eq, BitVec.toNat_ofNat]
      omega
    rw [joined]
    exact gives_scalarPlain hr rfl (by simp only [scalarN_issued hr])

end Sys2Proof.Machine
end

section
/-!
PROOF of the control instructions that overflow the stack or leave the active set (R76, R78, R93, R102), of a guard that does not hold (R23, R104),
of the mask instructions (R103), and of TRAP and TRET (R315).
-/
namespace Sys2Proof.Machine

/-! ### The stack's discipline (R93) -/

section
variable {h : Hdr} {s : State} {x : Crew}

theorem brv_deep {o : BrVec} (hr : Ready (.brv h o) s x) (ht : x.ctl.em &&& x.mask o.a ≠ 0) (hn : x.ctl.em &&& ~~~(x.mask o.a) ≠ 0)
    (hd : ((activeLanes x.ctl.em).filter fun l => nestOf x.ctl l == 255) ≠ []) :
    Traps (.brv h o) s x ⟨0x08, lanesMask ((activeLanes x.ctl.em).filter fun l => nestOf x.ctl l == 255), 0⟩ :=
  traps_of hr rfl rfl (by
    simp only [issOf, Iss.em, ht, hn, if_false, List.isEmpty_eq_false_iff.2 hd, Bool.not_false, if_true])

theorem brv_full {o : BrVec} (hr : Ready (.brv h o) s x) (ht : x.ctl.em &&& x.mask o.a ≠ 0) (hn : x.ctl.em &&& ~~~(x.mask o.a) ≠ 0)
    (hd : ((activeLanes x.ctl.em).filter fun l => nestOf x.ctl l == 255) = []) (hs : x.ctl.sdepth = 256) :
    Traps (.brv h o) s x ⟨0x08, x.ctl.em, 1⟩ :=
  traps_of hr rfl rfl (by
    simp only [issOf, Iss.em, ht, hn, if_false, hd, List.isEmpty_nil, Bool.not_true, Bool.false_eq_true, hs, if_true])

theorem call_full {o : Imm} (hr : Ready (.call h o) s x) (hs : x.ctl.sdepth = 256) : Traps (.call h o) s x ⟨0x08, x.ctl.em, 1⟩ :=
  traps_of hr rfl rfl (if_pos hs)

theorem ret_no_call (hr : Ready (.ret h) s x)
    (ht : x.ctl.sdepth = 0 ∨ ∃ e, x.ctl.stack.find? (x.ctl.sdepth - 1) = some e ∧ e.call = false) :
    Traps (.ret h) s x ⟨0x08, x.ctl.em, 2⟩ := by
  refine traps_of hr rfl rfl ?_
  rcases ht with h0 | ⟨⟨m, r, p, c, f⟩, he, rfl⟩
  · simp only [issOf, Iss.em, topEntry, h0, if_true]
  · by_cases h0 : x.ctl.sdepth = 0
    · simp only [issOf, Iss.em, topEntry, h0, if_true]
    · simp only [issOf, Iss.em, topEntry, h0, if_false, he]

end

/-- Settles O17: the checks of BRV, CALL and RET, each before any effect. -/
theorem nestOverflowReasons : Obligations.NestOverflowReasons := by
  unfold Obligations.NestOverflowReasons
  refine ⟨fun h o s x hr ht hn => ?_, fun h o s x => call_full, fun h s x => ret_no_call⟩
  exact ⟨brv_deep hr ht hn, brv_full hr ht hn⟩

/-! ### Leaving the active set (R76, R78) -/

theorem sched_updSched_self (s : State) (g t : Nat) (f : Sched → Sched) : (s.updSched g t f).sched g t = f (s.sched g t) := by
  unfold State.sched State.updSched
  rw [State.core_updCore_self, SMap.getD_insert_self]

theorem sched_updCrew (s : State) (c g t : Nat) (f : Crew → Crew) : (s.updCrew c f).sched g t = s.sched g t := by
  simp only [State.sched, State.core_updCrew]

/-- A crew that leaves the sets of its scheduler is in neither. -/
theorem not_mem_leaveSets {s : State} {c : Nat} {x : Crew} (h : s.crew? c = some x) :
    c ∉ ((leaveSets s c).sched x.seat.core x.seat.sched).active ∧ c ∉ ((leaveSets s c).sched x.seat.core x.seat.sched).queue := by
  simp only [leaveSets, h, sched_updSched_self, List.mem_filter]
  simp

/-- A crew made READY stands at the tail of the promotion queue only. -/
theorem sched_toReady {s : State} {c : Nat} {x : Crew} (h : s.crew? c = some x) :
    c ∉ ((toReady s c).sched x.seat.core x.seat.sched).active ∧ ((toReady s c).sched x.seat.core x.seat.sched).queue.getLast? = some c := by
  simp only [toReady, h, sched_updSched_self, sched_updCrew]
  exact ⟨(not_mem_leaveSets h).1, by simp⟩

theorem crew?_toDraining {s : State} {c : Nat} {x : Crew} (h : s.crew? c = some x) :
    (toDraining s c).crew? c = some { x with state := .draining, wait := .none, tags := x.tags.filter fun t => t.2.op.isSome } := by
  simp [toDraining, State.crew?_updCrew_self, crew?_leaveSets, h]

theorem elsewhere_toDraining (s : State) (c : Nat) : Elsewhere c s (toDraining s c) :=
  (elsewhere_leaveSets s c c).trans (elsewhere_updCrew _ c _)

theorem sched_toDraining {s : State} {c : Nat} {x : Crew} (h : s.crew? c = some x) :
    c ∉ ((toDraining s c).sched x.seat.core x.seat.sched).active ∧ c ∉ ((toDraining s c).sched x.seat.core x.seat.sched).queue := by
  simp only [toDraining, sched_updCrew]
  exact not_mem_leaveSets h

/-- YIELD has no meaning for a crew that is no longer ACTIVE. -/
theorem afterYield_of_left {s : State} {c : Nat} {x : Crew} (h : s.crew? c = some x) (hx : x.state ≠ .active) (b : Bool) :
    afterYield s c b = s := by
  simp [afterYield, h, hx]

theorem mem_of_find? {α : Type} {m : SMap α} {k : Nat} {r : α} (h : m.find? k = some r) : (k, r) ∈ m := by
  induction m with
  | nil => simp at h
  | cons e t ih =>
    simp only [SMap.find?] at h
    split at h
    · next hk => cases h; exact hk ▸ List.mem_cons_self
    · exact List.mem_cons_of_mem _ (ih h)

/-- Settles O19: the sets and the crew as YLD and EXIT leave them. -/
theorem yieldAndExitLeaveActiveSet : Obligations.YieldAndExitLeaveActiveSet := by
  unfold Obligations.YieldAndExitLeaveActiveSet
  refine ⟨fun h s x hr => ?yld, fun h s x hr => ?exit⟩
  case yld =>
    have hc := crew?_toReady (issued_crew hr)
    obtain ⟨hact, hqueue⟩ := sched_toReady (issued_crew hr)
    refine ⟨toReady (issued (.yld h) s x) s.cur, _, ?_, hc, rfl, rfl, rfl, rfl, rfl, (issued_else hr).trans (elsewhere_toReady _ _), hact, hqueue⟩
    show run (.yld h) _ s = _
    rw [run, issue_ready hr rfl]
    exact congrArg _ (afterYield_of_left hc nofun _)
  case exit =>
    have hc := crew?_toDraining (issued_crew hr)
    obtain ⟨hact, hqueue⟩ := sched_toDraining (issued_crew hr)
    refine ⟨toDraining (issued (.exit h) s x) s.cur, _, ?_, hc, rfl, rfl, rfl, rfl, rfl, fun k r hk => ?_,
      (issued_else hr).trans (elsewhere_toDraining _ _), hact, hqueue⟩
    · show run (.exit h) _ s = _
      rw [run, issue_ready hr rfl]
      exact congrArg _ (afterYield_of_left hc nofun _)
    · simpa [Option.isSome_iff_ne_none] using (List.mem_filter.1 (mem_of_find? hk)).2

/-! ### A guard that does not hold (R23, R104) -/

/-- With every test of R28 passed but the guard, issue goes on with the tag complete. -/
theorem issue_skipped {i : Instr} {s : State} {x : Crew} (h : Clear i s x) (hg : guardHolds x i.hdr = false) {own : Iss → Option Nat}
    (ho : own (issOf i s x) = none) (eff : Iss → State → Effect) :
    issue i own eff s = afterYield (skipGuarded (issued i s x) s.cur i.hdr) s.cur i.hdr.yield := by
  obtain ⟨hc, ha, hb, hw, hr, hd, hl⟩ := h
  have reason : dynReason x i (dstRegs i) (own ⟨s.cur, x, i.hdr, x.ctl.pc, dstRegs i⟩) = none := by
    have ho : own ⟨s.cur, x, i.hdr, x.ctl.pc, dstRegs i⟩ = none := ho
    simp [dynReason, ho, hr, hd]
  unfold issue
  simp only [hc, ha, hb, hw, ne_eq, not_true_eq_false, if_false, List.contains_nil, List.filter_false, List.filterMap_nil, commitTags, reason,
    missing_clean hl, badLines_clean hl, hg, Bool.false_eq_true, Bool.not_false, if_true]
  rfl

/-- The scalar, control and mask instructions are issued, with no reasons of their own. -/
theorem exec_guardedPlain {i : Instr} (hp : Instr.guardedPlain i = true) (s : State) : ∃ eff, exec i s = run i eff s := by
  unfold Instr.guardedPlain at hp
  split at hp
  case h_48 => cases hp
  all_goals exact ⟨_, rfl⟩

section
variable {i : Instr} {s : State} {x : Crew} (h : Clear i s x)
include h

theorem Clear.crew : (issued i s x).crew? s.cur = some (issuedCrew s x) := by
  obtain ⟨hc, -, -, -, -, -, hl⟩ := h
  obtain ⟨rc, e⟩ := useLines_clean hl
  unfold issued advance
  rw [State.crew?_updCrew_self, e, State.crew?_updCore, hc]
  rfl

theorem Clear.elsewhere : Elsewhere s.cur s (issued i s x) := by
  obtain ⟨-, -, -, -, -, -, hl⟩ := h
  exact (elsewhere_useLines hl).trans (elsewhere_updCrew _ _ _)

theorem skipGuarded_crew : (skipGuarded (issued i s x) s.cur i.hdr).crew? s.cur =
    some { issuedCrew s x with tags := tagsDone i (issuedCrew s x) } := by
  unfold skipGuarded tagsDone
  rw [State.crew?_updCrew_self, Clear.crew h]
  by_cases ht : i.hdr.tag = 0
  · simp only [ht, if_true, Option.map_some]
  · simp only [ht, if_false, Option.map_some, allocTag]

end

/-- Settles O9: issue with the guard false is the crew gone on with its tag complete; the plain instructions are issued. -/
theorem guardFalseSkips : Obligations.GuardFalseSkips := by
  unfold Obligations.GuardFalseSkips
  intro skips
  have skipped (i own eff s x) (h : Clear i s x) (ho : own (issOf i s x) = none) (hg : guardHolds x i.hdr = false) :
      skips i s x (issue i own eff s) := by
    obtain ⟨-, ha, -⟩ := id h
    rw [issue_skipped h hg ho]
    refine ⟨wentOn i (issuedCrew s x), crew?_afterYield (skipGuarded_crew h) ha _, rfl, rfl, fun ht => ?_,
      wentOn_kept rfl rfl rfl rfl rfl, ((Clear.elsewhere h).trans (elsewhere_updCrew _ _ _)).trans (elsewhere_afterYield _ _ _)⟩
    simp only [wentOn, tagsDone, ht, if_false, SMap.find?_insert_self]
  refine ⟨skipped, fun i s x hp h hg => ?_⟩
  obtain ⟨eff, he⟩ := exec_guardedPlain hp s
  exact ⟨_, he, skipped i _ eff s x h rfl hg⟩

/-! ### Masks (R103) -/

section
variable {i : Instr} {s : State} {x : Crew} (h : Ready i s x)
include h

/-- A mask register takes a value when the instruction issues. -/
theorem sets_maskResult {d : Reg} {m : Mask} {eff : Iss → State → Effect} (he : exec i s = run i eff s)
    (hd : eff (issOf i s x) (issued i s x) = maskResult (issOf i s x) (issued i s x) d m) :
    Sets i s x (x.setMask d m).rf (nextPc x) :=
  sets_of h rfl he hd (by unfold Crew.setMask; split <;> rfl)

/-- em takes a value when the instruction issues. -/
theorem sets_em {m : Mask} {eff : Iss → State → Effect} (he : exec i s = run i eff s)
    (hd : eff (issOf i s x) (issued i s x) = setEm (issOf i s x) (issued i s x) m) : Sets i s x x.rf { nextPc x with em := m } :=
  sets_of h rfl he hd rfl

theorem scalarAt_issued (r : Reg) (j : Nat) : (issOf i s x).scalarAt (issued i s x) r j = (issOf i s x).scalarAt s r j := by
  have e : (issOf i s x).scalar (issued i s x) r = (issOf i s x).scalar s r := scalar_issued h r
  unfold Iss.scalarAt
  rw [e]

end

/-- Settles O20: masks and em by the effects that set them, the rest by the scalar results. -/
theorem maskInstructionResults : Obligations.MaskInstructionResults := by
  unfold Obligations.MaskInstructionResults
  refine ⟨fun p hp h o s x hr => ?binary, fun h o s x hr => sets_maskResult hr rfl rfl, fun h o s x hr => sets_maskResult hr rfl rfl,
    fun h o s x hr => sets_maskResult hr rfl rfl, fun h o s x hr => sets_em hr rfl rfl, fun h o s x hr => gives_scalarPlain hr rfl rfl,
    fun h o s x hr => ?mffs, fun h o s x hr => ?msave, fun h o s x hr => ?mrest⟩
  case binary =>
    simp only [List.mem_cons, List.not_mem_nil, or_false] at hp
    rcases hp with rfl | rfl | rfl | rfl <;> exact sets_maskResult hr rfl rfl
  case mffs =>
    have gives {n : Nat} (hn : ((List.range 128).find? fun l => (x.mask o.a).getLsbD l).getD (2 ^ 64 - 1) = n) :
        Gives (.mffs h o) s x (resS x o.d (BitVec.ofNat 64 n)) := gives_scalarPlain hr rfl (by rw [← hn]; rfl)
    have ones : BitVec.allOnes 64 = BitVec.ofNat 64 (2 ^ 64 - 1) := rfl
    rw [ones]
    refine ⟨fun h0 => gives ?_, fun l hl hbit hfirst => gives ?_⟩
    · rw [List.find?_eq_none.2 fun l _ => by simp [h0]]; rfl
    · rw [List.find?_range_eq_some.2 ⟨hbit, List.mem_range.2 hl, fun j hj => by simp [hfirst j hj]⟩]; rfl
  case msave => exact gives_of hr rfl rfl rfl
  case mrest =>
    obtain ⟨_ | d, a⟩ := o
    · exact sets_em hr rfl (by simp only [scalarAt_issued hr])
    · exact sets_maskResult hr rfl (by simp only [scalarAt_issued hr])

/-! ### TRAP and TRET (R315) -/

theorem markWalk_crew? (s : State) (tag va : Nat) (w : Bool) (d : Nat) : (markWalk s tag va w).crew? d = s.crew? d := by
  unfold markWalk
  split
  · rfl
  · split <;> rfl

/-- A crew but for the entries of its divergence stack. -/
def Crew.withStack (x : Crew) (k : SMap DivEntry) : Crew := { x with ctl := { x.ctl with stack := k } }

/-- Fetching an entry of the stack changes the stack of its crew, and of no other crew anything. -/
theorem fetchEntry_crew (s : State) (c n : Nat) :
    (∀ x, s.crew? c = some x → ∃ k, (fetchEntry s c n).crew? c = some (x.withStack k)) ∧
      ∀ d, d ≠ c → (fetchEntry s c n).crew? d = s.crew? d := by
  unfold fetchEntry
  refine ⟨fun x hx => ?_, fun d hd => ?_⟩
  · simp only [hx]
    split
    · rw [State.crew?_updCrew_self, markWalk_crew?, hx]
      exact ⟨_, rfl⟩
    · exact ⟨x.ctl.stack, hx⟩
  · split
    · rfl
    · dsimp only
      split
      · rw [State.crew?_updCrew_ne _ _ hd, markWalk_crew?]
      · rfl

theorem stackCut_crew (s : State) (c d t : Nat) :
    (∀ x, s.crew? c = some x → ∃ k, (stackCut s c d t).crew? c = some (x.withStack k)) ∧
      ∀ e, e ≠ c → (stackCut s c d t).crew? e = s.crew? e := by
  unfold stackCut
  generalize List.range' (t - 32) (min t (d - 32) - (t - 32)) = l
  induction l generalizing s with
  | nil => exact ⟨fun x hx => ⟨x.ctl.stack, hx⟩, fun _ _ => rfl⟩
  | cons n l ih =>
    obtain ⟨here, there⟩ := fetchEntry_crew s c n
    obtain ⟨here', there'⟩ := ih (fetchEntry s c n)
    refine ⟨fun x hx => ?_, fun e he => (there' e he).trans (there e he)⟩
    obtain ⟨k, hk⟩ := here x hx
    obtain ⟨k', hk'⟩ := here' _ hk
    exact ⟨k', hk'⟩

/-- A stack that hardware holds whole is cut with no entry fetched. -/
theorem stackCut_shallow (s : State) (c : Nat) {d : Nat} (t : Nat) (hd : d ≤ 32) : stackCut s c d t = s := by
  have none : min t (d - 32) - (t - 32) = 0 := by omega
  rw [stackCut, none]
  rfl

/-- The tags of a crew that returns from its trap (R91, R315). -/
theorem returnFromTrap_tags (s : State) (x : Crew) (target : DWord) (k : Nat) :
    (returnFromTrap (issuedCrew s x) target).tags.find? k = (x.tags.find? k).map fun r =>
      { r with deferred := false, look := if r.deferred ∧ target = x.tr.tpc then r.look else r.look - 1 } := by
  refine (SMap.find?_map (issuedCrew s x).tags (fun _ r => { r with
    deferred := false, look := if r.deferred then r.look - (if target = x.tr.tpc then 0 else 1) else r.look }) k).trans ?_
  rw [issuedCrew_tags, Option.map_map]
  refine congrArg (Option.map · _) (funext fun r => ?_)
  cases hr : r.deferred <;> by_cases ht : target = x.tr.tpc <;> simp [counted, hr, ht]

/-- Where a TRET of crew `x` continues (R315). -/
def returnPc (s : State) (x : Crew) : TretVar → DWord
  | .retry => x.tr.tpc
  | .skip => x.tr.tpc + 12
  | .jump a => srcS s x a &&& ~~~3#64

/-- The crew as it stands after its return, with its stack as entries of the image left it. -/
def returned (s : State) (x : Crew) (o : TretVar) (b : Bool) (k : SMap DivEntry) : Crew :=
  let y := (returnFromTrap (issuedCrew s x) (returnPc s x o)).withStack k
  { y with state := if b then .ready else .active, wait := if b then .none else y.wait }

theorem tret_handler {h : Hdr} {o : TretVar} {s : State} {x : Crew} (hr : Ready (.tret h o) s x) (hm : x.ctl.hmode = true) :
    ∃ t k, exec (.tret h o) s = .next t ∧ t.crew? s.cur = some (returned s x o h.yield k) ∧ (∀ d, d ≠ s.cur → t.crew? d = s.crew? d) ∧
      (x.ctl.sdepth ≤ 32 → k = x.ctl.stack ∧ Elsewhere s.cur s t) := by
  have target : tretTarget (issOf (.tret h o) s x) (issued (.tret h o) s x) o = returnPc s x o := by
    cases o with
    | jump a => exact congrArg (· &&& ~~~3#64) (scalar_issued hr a)
    | _ => rfl
  let a := (issued (.tret h o) s x).updCrew s.cur fun z => returnFromTrap z (returnPc s x o)
  have ha : a.crew? s.cur = some (returnFromTrap (issuedCrew s x) (returnPc s x o)) := by
    rw [State.crew?_updCrew_self, issued_crew hr]; rfl
  obtain ⟨here, there⟩ := stackCut_crew a s.cur x.ctl.sdepth x.tr.tsd
  obtain ⟨k, hk⟩ := here _ ha
  have yields := elsewhere_afterYield (stackCut a s.cur x.ctl.sdepth x.tr.tsd) s.cur h.yield
  have before : Elsewhere s.cur s a := (issued_else hr).trans (elsewhere_updCrew _ _ _)
  refine ⟨_, k, ?_, crew?_afterYield hk hr.1.2.1 h.yield, fun d hd => ?_, fun hs => ?_⟩
  · show run (.tret h o) _ s = _
    rw [run, issue_ready hr rfl, target]
    simp only [issOf, hm, Bool.not_true, Bool.false_eq_true, if_false]
    rfl
  · rw [yields.crews d hd, there d hd, before.crews d hd]
  · rw [stackCut_shallow a s.cur _ hs] at hk yields ⊢
    rw [ha] at hk
    exact ⟨(congrArg (fun y => (y.map fun z : Crew => z.ctl.stack).getD []) hk).symm, before.trans yields⟩

/-- Settles O8: TRAP and a TRET outside a handler trap at once; a TRET in one is the crew returned. -/
theorem trapInstructionTraps : Obligations.TrapInstructionTraps := by
  unfold Obligations.TrapInstructionTraps
  refine ⟨fun h o s x hr => traps_of hr rfl rfl rfl, fun h o s x hr hm => traps_of hr rfl rfl ?_, fun h o s x hr hm => ?_⟩
  · simp only [issOf, Iss.em, hm, Bool.not_false, if_true]
  · obtain ⟨t, k, he, hy, hd, hs⟩ := tret_handler hr hm
    refine ⟨t, _, he, hy, rfl, rfl, rfl, rfl, ?_, hd, hs⟩
    cases o <;> exact ⟨rfl, returnFromTrap_tags s x _⟩

end Sys2Proof.Machine
end

section
/-!
PROOF of commits (R88, R105, R216, R239 to R241): what writing lines of an image leaves alone, the registers after a write, and the crew and the
tile entries as a commit leaves them.
-/
namespace Sys2Proof.Machine

/-! ### Writing to an image (R82, R92) -/

/-- Only memory, the writes held with migrating pages, and the walks have changed. -/
structure MemOnly (s t : State) : Prop where
  rest : { t with mem := s.mem, migs := s.migs, walks := s.walks, nextId := s.nextId } = s

namespace MemOnly
variable {s t u : State}

theorem refl (s : State) : MemOnly s s := ⟨rfl⟩

theorem trans (h : MemOnly s t) (h' : MemOnly t u) : MemOnly s u where
  rest := calc { u with mem := s.mem, migs := s.migs, walks := s.walks, nextId := s.nextId }
      = { ({ u with mem := t.mem, migs := t.migs, walks := t.walks, nextId := t.nextId } : State) with
          mem := s.mem, migs := s.migs, walks := s.walks, nextId := s.nextId } := rfl
    _ = { t with mem := s.mem, migs := s.migs, walks := s.walks, nextId := s.nextId } := by rw [h'.rest]
    _ = s := h.rest

theorem foldl {α : Type} {f : State → α → State} (hf : ∀ s a, MemOnly s (f s a)) (l : List α) (s : State) : MemOnly s (l.foldl f s) := by
  induction l generalizing s with
  | nil => exact refl s
  | cons a l ih => exact (hf s a).trans (ih _)

variable (h : MemOnly s t)
include h

theorem crews : t.crews = s.crews := by rw [← h.rest]
theorem cores : t.cores = s.cores := by rw [← h.rest]
theorem ops : t.ops = s.ops := by rw [← h.rest]
theorem ctxs : t.ctxs = s.ctxs := by rw [← h.rest]
theorem crew? (c : Nat) : t.crew? c = s.crew? c := congrArg (SMap.find? · c) h.crews
theorem core (g : Nat) : t.core g = s.core g := congrArg (SMap.getD · g Core.empty) h.cores
theorem tile? (g n : Nat) : t.tile? g n = s.tile? g n := congrArg (fun k : Core => k.tiles.find? n) (h.core g)
theorem op? (o : Nat) : t.op? o = s.op? o := congrArg (SMap.find? · o) h.ops
theorem ctx? (n : Nat) : t.ctx? n = s.ctx? n := congrArg (SMap.find? · n) h.ctxs

end MemOnly

theorem memOnly_frameWrite (s : State) (l : List (Nat × Byte)) : MemOnly s (frameWrite s l) := by
  unfold frameWrite
  dsimp only
  split <;> exact ⟨rfl⟩

theorem memOnly_markWalk (s : State) (tag va : Nat) (w : Bool) : MemOnly s (markWalk s tag va w) := by
  unfold markWalk
  split
  · exact ⟨rfl⟩
  · split <;> exact ⟨rfl⟩

theorem memOnly_saveLine (s : State) (c n : Nat) : MemOnly s (saveLine s c n) := by
  unfold saveLine
  split
  · exact ⟨rfl⟩
  dsimp only
  split
  · exact (memOnly_markWalk ..).trans (memOnly_frameWrite ..)
  · split <;> exact ⟨rfl⟩
  · exact ⟨rfl⟩

theorem memOnly_saveControl (s : State) (c : Nat) : MemOnly s (saveControl s c) := by
  unfold saveControl
  split
  · exact ⟨rfl⟩
  · exact .foldl (fun s n => memOnly_saveLine s c n) _ _

theorem memOnly_saveHold (s : State) (c k : Nat) : MemOnly s (saveHold s c k) := by
  unfold saveHold
  split
  · exact ⟨rfl⟩
  · exact .foldl (fun s n => memOnly_saveLine s c n) _ _

theorem memOnly_holdResult (s : State) (c k : Nat) : MemOnly s (holdResult s c k) := by
  unfold holdResult
  split
  · exact ⟨rfl⟩
  · split
    · exact memOnly_saveHold ..
    · exact ⟨rfl⟩

/-! ### Lines written by a commit (R82) -/

theorem dirtyLineNos_crew? (s : State) (c : Nat) (ns : List Nat) (d : Nat) : (dirtyLineNos s c ns).crew? d = s.crew? d := by
  unfold dirtyLineNos
  split
  · rfl
  dsimp only
  split
  · exact (MemOnly.foldl (fun s n => memOnly_saveLine s c n) _ s).crew? d
  · exact (MemOnly.foldl (fun s n => memOnly_saveLine s c n) _ s).crew? d

theorem tile?_updCore {s : State} {g : Nat} {f : Core → Core} (hf : (f (s.core g)).tiles = (s.core g).tiles) (h n : Nat) :
    (s.updCore g f).tile? h n = s.tile? h n := by
  unfold State.tile?
  rw [State.core_updCore]
  split
  · next e => rw [e, hf]
  · rfl

theorem dirtyLineNos_tile? (s : State) (c : Nat) (ns : List Nat) (g n : Nat) : (dirtyLineNos s c ns).tile? g n = s.tile? g n := by
  unfold dirtyLineNos
  split
  · rfl
  dsimp only
  have saves (l : List Nat) := (MemOnly.foldl (fun s n => memOnly_saveLine s c n) l s).tile? g n
  split
  · exact saves _
  · rw [tile?_updCore rfl]; exact saves _

theorem dirtyLines_crew? (s : State) (c : Nat) (l : List RegWrite) (d : Nat) : (dirtyLines s c l).crew? d = s.crew? d := by
  unfold dirtyLines
  split
  · rfl
  · exact dirtyLineNos_crew? ..

theorem dirtyLines_tile? (s : State) (c : Nat) (l : List RegWrite) (g n : Nat) : (dirtyLines s c l).tile? g n = s.tile? g n := by
  unfold dirtyLines
  split
  · rfl
  · exact dirtyLineNos_tile? ..

/-! ### A register after a write (R82, R105, R314) -/

namespace RegFile
variable (r : RegFile) (b : Bool)

theorem vget_vset_self (k : Fin 320) (x : Lanes) : (r.vset b k x).vget b k = x := by
  unfold vget vset
  split
  · exact Vector.getElem_set_self ..
  · exact Vector.getElem_set_self ..

theorem vget_vset_ne {j k : Fin 320} (h : j ≠ k) (x : Lanes) : (r.vset b k x).vget b j = r.vget b j := by
  have h' : k.val ≠ j.val := fun e => h (Fin.ext e.symm)
  unfold vset
  split <;> unfold vget <;> split
  · next hk _ => exact Vector.getElem_set_ne hk.2 _ h'
  · rfl
  · rfl
  · exact Vector.getElem_set_ne k.isLt _ h'

theorem sget_sset_self (k : Fin 128) (x : DWord) : (r.sset b k x).sget b k = x := by
  unfold sget sset
  split
  · exact Vector.getElem_set_self ..
  · exact Vector.getElem_set_self ..

theorem sget_sset_ne {j k : Fin 128} (h : j ≠ k) (x : DWord) : (r.sset b k x).sget b j = r.sget b j := by
  have h' : k.val ≠ j.val := fun e => h (Fin.ext e.symm)
  unfold sset
  split <;> unfold sget <;> split
  · next hk _ => exact Vector.getElem_set_ne hk.2 _ h'
  · rfl
  · rfl
  · exact Vector.getElem_set_ne k.isLt _ h'

theorem sget_vset (k : Fin 320) (x : Lanes) : (r.vset b k x).sget b = r.sget b := by
  unfold vset
  split <;> rfl

theorem vget_sset (k : Fin 128) (x : DWord) : (r.sset b k x).vget b = r.vget b := by
  unfold sset
  split <;> rfl

theorem m_vset (k : Fin 320) (x : Lanes) : (r.vset b k x).m = r.m := by
  unfold vset
  split <;> rfl

theorem m_sset (k : Fin 128) (x : DWord) : (r.sset b k x).m = r.m := by
  unfold sset
  split <;> rfl

end RegFile

theorem mergeLanes_get (em : Mask) (old new : Lanes) {l : Nat} (h : l < 128) :
    (mergeLanes em old new).get l = if em.getLsbD l then new.get l else old.get l := lanes_get_ofFn _ h

/-! ### A commit up to its tile (R88, R216) -/

theorem find?_map_entries {α : Type} {m : SMap α} {F : Nat × α → Nat × α} {f : Nat → α → α} (h : ∀ e, F e = (e.1, f e.1 e.2)) (k : Nat) :
    SMap.find? (List.map F m) k = (m.find? k).map (f k) := by
  rw [funext h]
  exact SMap.find?_map m f k

/-- The crew once its tag `k`, holding `t`, is committed, but for the checksums of a DTILE. -/
def committed (x : Crew) (k : Nat) (t : TagRec) : Crew :=
  { x with
    tags := x.tags.erase k
    rf := t.held.regs.foldl RegFile.put x.rf
    ctl := { x.ctl with
      mxst := (t.held.mat.map fun m => m.mxst).getD x.ctl.mxst
      fpst := x.ctl.fpst ||| t.held.fp } }

/-- The tile entry that a commit gives its own state. -/
def ownTile (t : TagRec) : Option Nat := (t.held.mat.bind fun m => m.dtile).map (·.1) <|> t.held.tile.map (·.1)

/-- The state once the registers of a commit are written and the tiles they belong to are STALE. -/
def commitRegs (s : State) (c k : Nat) (x : Crew) (t : TagRec) : State :=
  staleTiles (dirtyLines (s.setCrew c (committed x k t)) c t.held.regs) c (ownVregs t.held.regs) (ownTile t)

theorem insert_insert {α : Type} (m : SMap α) (c : Nat) (x y : α) : (m.insert c x).insert c y = m.insert c y := by
  induction m with
  | nil => simp [SMap.insert]
  | cons e m ih =>
    obtain ⟨j, z⟩ := e
    simp only [SMap.insert]
    by_cases h1 : c < j
    · simp [h1, SMap.insert]
    · by_cases h2 : c = j
      · simp [h2, SMap.insert]
      · simp [h1, h2, SMap.insert, ih]

theorem setCrew_setCrew (s : State) (c : Nat) (x y : Crew) : (s.setCrew c x).setCrew c y = s.setCrew c y := by
  simp only [State.setCrew, insert_insert]

theorem updCrew_of {s : State} {c : Nat} {x : Crew} (hc : s.crew? c = some x) (f : Crew → Crew) : s.updCrew c f = s.setCrew c (f x) := by
  simp only [State.updCrew, hc]

section
variable {s : State} {c k : Nat} {x : Crew} {t : TagRec} (hc : s.crew? c = some x) (ht : x.tags.find? k = some t)
include hc ht

theorem commitTag_ok (hf : (t.held.mat.bind fun m => m.fault) = none) : commitTag s c k =
    match t.held.mat.bind fun m => m.dtile with
    | some (i, code) => (commitDtile (commitRegs s c k x t) c i code, none)
    | none => match t.held.tile with
      | some (i, some (st, n)) => (takeTileState (commitRegs s c k x t) x.seat.core i st n, none)
      | _ => (commitRegs s c k x t, none) := by
  have last (z : Crew) : (s.setCrew c z).crew? c = some z := State.crew?_setCrew_self ..
  unfold commitTag commitRegs ownTile committed
  simp only [hc, ht, hf]
  cases hm : t.held.mat with
  | none =>
    simp only [updCrew_of hc, updCrew_of (last _), setCrew_setCrew, foldl_put_rf, Option.map_none, Option.getD_none] <;> rfl
  | some m =>
    simp only [updCrew_of hc, updCrew_of (last _), setCrew_setCrew, foldl_put_rf, Option.map_some, Option.getD_some] <;> rfl

theorem commitTag_fault {m : MatEnd} {f : Trap} (hm : t.held.mat = some m) (hf : m.fault = some f) :
    commitTag s c k = (s.setCrew c { x with tags := x.tags.erase k, ctl := { x.ctl with mxst := m.mxst } }, some f) := by
  have last (z : Crew) : (s.setCrew c z).crew? c = some z := State.crew?_setCrew_self ..
  unfold commitTag
  simp only [hc, ht, hm, Option.bind_some, hf, updCrew_of hc, updCrew_of (last _), setCrew_setCrew]

omit ht in
theorem commitRegs_crew? (d : Nat) : (commitRegs s c k x t).crew? d = if d = c then some (committed x k t) else s.crew? d := by
  unfold commitRegs
  rw [crew?_staleTiles, dirtyLines_crew?]
  split
  · next e => subst e; simp
  · next e => simp [e]

/-- What a commit of tag record `t` does to tile entry `n`, `e`, of core `g` (R216). -/
def staled (x : Crew) (c : Nat) (t : TagRec) (g n : Nat) (e : Tile) : Tile :=
  if g = x.seat.core ∧ e.space = 2 ∧ e.crew = some c ∧ ownTile t ≠ some n ∧ (e.state = .valid ∨ e.state = .suspect) ∧
      (e.runRegs.any fun r => (ownVregs t.held.regs).contains r) = true then { e with state := .stale } else e

omit hc ht in
theorem commitRegs_tile? (g n : Nat) : (commitRegs s c k x t).tile? g n = (s.tile? g n).map (staled x c t g n) := by
  have crew : (dirtyLines (s.setCrew c (committed x k t)) c t.held.regs).crew? c = some (committed x k t) := by
    rw [dirtyLines_crew?, State.crew?_setCrew_self]
  have before (g n) : (dirtyLines (s.setCrew c (committed x k t)) c t.held.regs).tile? g n = s.tile? g n := by
    rw [dirtyLines_tile?]; rfl
  unfold commitRegs staleTiles
  simp only [crew]
  rw [← before]
  generalize dirtyLines (s.setCrew c (committed x k t)) c t.held.regs = u
  unfold State.tile?
  rw [State.core_updCore]
  split
  · next hg =>
    obtain rfl : g = x.seat.core := hg
    refine find?_map_entries (m := (u.core x.seat.core).tiles) (f := staled x c t x.seat.core) (fun e => ?_) n
    unfold staled
    simp only [true_and]
    split <;> rfl
  · next hg =>
    have other : g ≠ x.seat.core := hg
    have same : staled x c t g n = id := funext fun e => if_neg fun h => other h.1
    rw [same, Option.map_id]
    rfl

end

/-! ### A tile's own state and checksums (R221, R240) -/

theorem updTile_tile? (s : State) (g i : Nat) (f : Tile → Tile) (h n : Nat) :
    (s.updTile g i f).tile? h n = if h = g ∧ n = i then (s.tile? g i).map f else s.tile? h n := by
  unfold State.updTile State.tile?
  rw [State.core_updCore]
  by_cases hg : h = g
  · subst hg
    simp only [true_and, if_true]
    split
    · next hn => subst hn; exact SMap.find?_modify_self ..
    · next hn => exact SMap.find?_modify_ne _ _ hn
  · simp only [hg, false_and, if_false]

/-- Rewriting a checksum run changes the crew's own vector registers only. -/
theorem putRegChecksums_rest (z : Crew) (cs : Nat) (l : List Nat) :
    ∃ v, putRegChecksums z cs l = { z with rf := { z.rf with v := v } } := by
  unfold putRegChecksums
  generalize List.range (ceilDiv l.length 128) = js
  induction js generalizing z with
  | nil => exact ⟨z.rf.v, rfl⟩
  | cons j js ih =>
    rw [List.foldl_cons]
    split
    · obtain ⟨v, hv⟩ := ih _
      exact ⟨v, hv⟩
    · exact ih z

/-- A register whose first lanes hold the words of a list, the others as they were. -/
def sumRun (l : List Nat) (old : Lanes) : Lanes := Lanes.ofFn fun i => (l[i]?.map (BitVec.ofNat 32)).getD (old.get i)

/-- The run of a checksum that fits one register. -/
theorem putRegChecksums_one (z : Crew) {cs : Nat} (hcs : cs < 320) {l : List Nat} (h0 : 0 < l.length) (hl : l.length ≤ 128) :
    putRegChecksums z cs l = { z with rf := { z.rf with v := z.rf.v.set cs (sumRun l z.rf.v[cs]) } } := by
  have one : ceilDiv l.length 128 = 1 := by
    unfold ceilDiv
    omega
  simp only [putRegChecksums, one, List.range_one, List.foldl_cons, List.foldl_nil, Nat.add_zero, hcs, dite_true, Nat.mul_zero, Nat.zero_add]
  congr 4
  funext i
  cases l[i]? <;> rfl

/-- Element (r, n) of the accumulator that starts at register `d` (R74). -/
def accWord (v : Vector Lanes 320) (d r n : Nat) : Nat := ((v.getD (d + r / 2) Lanes.zero).get (64 * (r % 2) + n)).toNat

theorem accChecksums_eq (z : Crew) (d : Nat) : accChecksums z d =
    (List.range 16).map (fun r => wrap32 ((List.range 64).map (accWord z.rf.v d r)).sum) ++
      (List.range 64).map fun n => wrap32 ((List.range 16).map fun r => accWord z.rf.v d r n).sum := by
  have at_ (r n : Nat) : ((if h : d + r / 2 < 320 then z.rf.v.get ⟨d + r / 2, h⟩ else Lanes.zero).get (64 * (r % 2) + n)).toNat =
      accWord z.rf.v d r n := by
    unfold accWord
    split
    · next h => simp [Vector.getD, Vector.get, h]
    · next h => simp [Vector.getD, h]
  simp only [accChecksums, at_]

theorem accChecksums_length (z : Crew) (d : Nat) : (accChecksums z d).length = 80 := by simp [accChecksums_eq]

/-- The words of the run: 16 row sums, 64 column sums, and the rest of the register. -/
theorem sumRun_accChecksums (z : Crew) (d : Nat) (old : Lanes) :
    (∀ j < 16, (sumRun (accChecksums z d) old).get j = BitVec.ofNat 32 ((List.range 64).map (accWord z.rf.v d j)).sum) ∧
    (∀ j < 64, (sumRun (accChecksums z d) old).get (16 + j) = BitVec.ofNat 32 ((List.range 16).map fun r => accWord z.rf.v d r j).sum) ∧
    ∀ j, 80 ≤ j → j < 128 → (sumRun (accChecksums z d) old).get j = old.get j := by
  have word (n : Nat) : BitVec.ofNat 32 (wrap32 n) = BitVec.ofNat 32 n := by
    apply BitVec.eq_of_toNat_eq
    simp [wrap32]
  unfold sumRun
  refine ⟨fun j hj => ?_, fun j hj => ?_, fun j hj h => ?_⟩
  · rw [lanes_get_ofFn _ (by omega), accChecksums_eq, List.getElem?_append_left (by simpa using hj)]
    simp [hj, word]
  · rw [lanes_get_ofFn _ (by omega), accChecksums_eq, List.getElem?_append_right (by simp)]
    simp [hj, word]
  · rw [lanes_get_ofFn _ h, List.getElem?_eq_none (by rw [accChecksums_length]; exact hj)]
    rfl

section
variable {u : State} {c i code : Nat} {z : Crew} (hz : u.crew? c = some z)
include hz

theorem commitDtile_none (h : u.tile? z.seat.core i = none) : commitDtile u c i code = u := by
  simp only [commitDtile, hz, h]

variable {e : Tile} (h : u.tile? z.seat.core i = some e)
include h

theorem commitDtile_crew : (commitDtile u c i code).crew? c = some (putRegChecksums z e.csum (accChecksums z e.base)) := by
  simp only [commitDtile, hz, h]
  show (dirtyLineNos _ _ _).crew? c = _
  rw [dirtyLineNos_crew?, State.crew?_updCrew_self, hz]
  rfl

theorem commitDtile_tile? (g n : Nat) : (commitDtile u c i code).tile? g n =
    if g = z.seat.core ∧ n = i then some { e with state := TileState.ofCode code } else u.tile? g n := by
  have same (g n) : (dirtyLineNos (u.updCrew c fun x => putRegChecksums x e.csum (accChecksums x e.base)) c
      (List.range' e.csum (ceilDiv (e.rows + e.cols) 128))).tile? g n = u.tile? g n := by
    rw [dirtyLineNos_tile?]
    simp only [State.tile?, State.core_updCrew]
  simp only [commitDtile, hz, h, updTile_tile?, same, Option.map_some]

end

/-- The entry of the run's register after the register writes: an entry with a state of its own stands as it was. -/
theorem staled_own {x : Crew} {c : Nat} {t : TagRec} {g n : Nat} (h : ownTile t = some n) (e : Tile) : staled x c t g n e = e :=
  if_neg fun hs => hs.2.2.2.1 h

section
variable {s : State} {c k : Nat} {x : Crew} {t : TagRec} (hc : s.crew? c = some x) (ht : x.tags.find? k = some t)
  (hf : (t.held.mat.bind fun m => m.fault) = none)
include hc ht hf

theorem commitTag_dtile {i code : Nat} (hd : (t.held.mat.bind fun m => m.dtile) = some (i, code)) :
    commitTag s c k = (commitDtile (commitRegs s c k x t) c i code, none) := by
  simp only [commitTag_ok hc ht hf, hd]

theorem commitTag_tile (hd : (t.held.mat.bind fun m => m.dtile) = none) {i n : Nat} {st : TileState} (hi : t.held.tile = some (i, some (st, n))) :
    commitTag s c k = (takeTileState (commitRegs s c k x t) x.seat.core i st n, none) := by
  simp only [commitTag_ok hc ht hf, hd, hi]

theorem commitTag_regs (hd : (t.held.mat.bind fun m => m.dtile) = none) (hi : ∀ i p, t.held.tile ≠ some (i, some p)) :
    commitTag s c k = (commitRegs s c k x t, none) := by
  simp only [commitTag_ok hc ht hf, hd]
  rcases h : t.held.tile with _ | ⟨i, _ | p⟩
  · rfl
  · rfl
  · exact absurd h (hi i p)

/-- The three ends of a commit. -/
theorem commitTag_cases : (commitTag s c k).2 = none ∧
    ((∃ i code, (t.held.mat.bind fun m => m.dtile) = some (i, code) ∧ (commitTag s c k).1 = commitDtile (commitRegs s c k x t) c i code) ∨
      ((t.held.mat.bind fun m => m.dtile) = none ∧ ((∃ i st n, t.held.tile = some (i, some (st, n)) ∧
          (commitTag s c k).1 = takeTileState (commitRegs s c k x t) x.seat.core i st n) ∨
        ((∀ i p, t.held.tile ≠ some (i, some p)) ∧ (commitTag s c k).1 = commitRegs s c k x t)))) := by
  rcases hd : t.held.mat.bind fun m => m.dtile with _ | ⟨i, code⟩
  · by_cases hi : ∃ i p, t.held.tile = some (i, some p)
    · obtain ⟨i, ⟨st, n⟩, hi⟩ := hi
      rw [commitTag_tile hc ht hf hd hi]
      exact ⟨rfl, .inr ⟨rfl, .inl ⟨i, st, n, hi, rfl⟩⟩⟩
    · simp only [not_exists] at hi
      rw [commitTag_regs hc ht hf hd hi]
      exact ⟨rfl, .inr ⟨rfl, .inr ⟨hi, rfl⟩⟩⟩
  · rw [commitTag_dtile hc ht hf hd]
    exact ⟨rfl, .inl ⟨i, code, rfl, rfl⟩⟩

theorem commitTag_crew : ∃ v, (commitTag s c k).1.crew? c = some { committed x k t with rf := { (committed x k t).rf with v := v } } ∧
    ((t.held.mat.bind fun m => m.dtile) = none → v = (committed x k t).rf.v) := by
  have base : (commitRegs s c k x t).crew? c = some (committed x k t) := by rw [commitRegs_crew? hc, if_pos rfl]
  obtain ⟨-, ⟨i, code, hd, h⟩ | ⟨hd, ⟨i, st, n, -, h⟩ | ⟨-, h⟩⟩⟩ := commitTag_cases hc ht hf <;> rw [h]
  · cases he : (commitRegs s c k x t).tile? x.seat.core i with
    | none => rw [commitDtile_none base he]; exact ⟨_, base, fun _ => rfl⟩
    | some e =>
      rw [commitDtile_crew base he]
      obtain ⟨v, hv⟩ := putRegChecksums_rest (committed x k t) e.csum (accChecksums (committed x k t) e.base)
      exact ⟨v, congrArg some hv, fun hn => by simp [hd] at hn⟩
  · exact ⟨_, base, fun _ => rfl⟩
  · exact ⟨_, base, fun _ => rfl⟩

/-- Every tile entry but that which the commit gives a state of its own. -/
theorem commitTag_tile?_other {g n : Nat} (hn : ownTile t ≠ some n ∨ g ≠ x.seat.core) :
    (commitTag s c k).1.tile? g n = (s.tile? g n).map (staled x c t g n) := by
  have base : (commitRegs s c k x t).crew? c = some (committed x k t) := by rw [commitRegs_crew? hc, if_pos rfl]
  have ne {i : Nat} (h : ownTile t = some i) : ¬(g = x.seat.core ∧ n = i) := fun ⟨hg, hi⟩ =>
    hn.elim (fun ho => ho (hi ▸ h)) fun ho => ho hg
  rw [← commitRegs_tile?]
  obtain ⟨-, ⟨i, code, hd, h⟩ | ⟨hd, ⟨i, st, m, hi, h⟩ | ⟨-, h⟩⟩⟩ := commitTag_cases hc ht hf <;> rw [h]
  · cases he : (commitRegs s c k x t).tile? x.seat.core i with
    | none => rw [commitDtile_none base he]
    | some e => exact (commitDtile_tile? base he g n).trans (if_neg (ne (by simp [ownTile, hd])))
  · exact (updTile_tile? ..).trans (if_neg (ne (by simp [ownTile, hd, hi])))

theorem commitTag_tile?_taken (hd : (t.held.mat.bind fun m => m.dtile) = none) {i n : Nat} {st : TileState} {e : Tile}
    (hi : t.held.tile = some (i, some (st, n))) (he : s.tile? x.seat.core i = some e) :
    (commitTag s c k).1.tile? x.seat.core i = some { e with state := st, ncor := min 255 (e.ncor + n) } := by
  rw [commitTag_tile hc ht hf hd hi, takeTileState, updTile_tile?, if_pos ⟨rfl, rfl⟩, commitRegs_tile?, he, Option.map_some,
    staled_own (by simp [ownTile, hd, hi])]
  rfl

theorem commitTag_tile?_kept (hd : (t.held.mat.bind fun m => m.dtile) = none) {i : Nat} {e : Tile} (hi : t.held.tile = some (i, none))
    (he : s.tile? x.seat.core i = some e) : (commitTag s c k).1.tile? x.seat.core i = some e := by
  rw [commitTag_regs hc ht hf hd (by simp [hi]), commitRegs_tile?, he, Option.map_some, staled_own (by simp [ownTile, hd, hi])]

/-- DTILE and its run as the commit leaves them. -/
theorem commitTag_tile?_dtile {i code : Nat} {e : Tile} (hd : (t.held.mat.bind fun m => m.dtile) = some (i, code))
    (he : s.tile? x.seat.core i = some e) : (commitTag s c k).1.tile? x.seat.core i = some { e with state := TileState.ofCode code } ∧
      (commitTag s c k).1.crew? c = some (putRegChecksums (committed x k t) e.csum (accChecksums (committed x k t) e.base)) := by
  have base : (commitRegs s c k x t).crew? c = some (committed x k t) := by rw [commitRegs_crew? hc, if_pos rfl]
  have entry : (commitRegs s c k x t).tile? x.seat.core i = some e := by
    rw [commitRegs_tile?, he, Option.map_some, staled_own (by simp [ownTile, hd])]
  rw [commitTag_dtile hc ht hf hd]
  exact ⟨(commitDtile_tile? base entry _ _).trans (if_pos ⟨rfl, rfl⟩), commitDtile_crew base entry⟩

end

/-- Whether a write is of vector register `r` of the crew's own. -/
def RegWrite.writesOwn (r : Nat) : RegWrite → Bool
  | .v d b _ _ => d.val == r && !(b && decide (r < 32))
  | .s .. => false

theorem ownVregs_vector (d : Fin 320) (b : Bool) (em : Mask) (v : Lanes) (l : List RegWrite) :
    ownVregs (.v d b em v :: l) = if b && decide (d.val < 32) then ownVregs l else d.val :: ownVregs l := by
  by_cases h : (b && decide (d.val < 32)) = true
  · rw [if_pos h]; exact List.filterMap_cons_none (if_pos h)
  · rw [if_neg h]; exact List.filterMap_cons_some (if_neg h)

theorem ownVregs_contains (l : List RegWrite) (r : Nat) : (ownVregs l).contains r = l.any (RegWrite.writesOwn r) := by
  induction l with
  | nil => rfl
  | cons w l ih =>
    cases w with
    | s k b v => exact ih
    | v d b em v =>
      rw [List.any_cons, ← ih, ownVregs_vector, RegWrite.writesOwn]
      by_cases hr : d.val = r
      · subst hr
        cases b && decide (d.val < 32) <;> simp
      · have hr' : r ≠ d.val := Ne.symm hr
        cases b && decide (d.val < 32) <;> simp [hr, hr']

/-- What a commit does to the other tile entries, by the registers written. -/
theorem staled_eq {x : Crew} {c : Nat} {t : TagRec} {g n : Nat} (hn : ownTile t ≠ some n ∨ g ≠ x.seat.core) {written : Nat → Bool}
    (hw : ∀ r, written r = t.held.regs.any (RegWrite.writesOwn r)) (e : Tile) :
    staled x c t g n e = if g = x.seat.core ∧ e.space = 2 ∧ e.crew = some c ∧ (e.state = .valid ∨ e.state = .suspect) ∧
      e.runRegs.any written = true then { e with state := .stale } else e := by
  have same : (fun r => (ownVregs t.held.regs).contains r) = written := funext fun r => (ownVregs_contains _ r).trans (hw r).symm
  unfold staled
  rw [same]
  refine if_congr ?_ rfl rfl
  constructor
  · rintro ⟨hg, hs, hc, -, h⟩
    exact ⟨hg, hs, hc, h⟩
  · rintro ⟨hg, hs, hc, h⟩
    exact ⟨hg, hs, hc, hn.resolve_right (not_not.2 hg), h⟩

/-- Settles O12: the crew, the register after a write, the end of a fault, and each kind of tile entry. -/
theorem commitWritesHeldResult : Obligations.CommitWritesHeldResult := by
  unfold Obligations.CommitWritesHeldResult
  refine ⟨fun s c k x t hc ht hm hi => ?plain, fun r k b em v l hl => ?vector, fun r k b v => ?scalar, fun s c k x t m f hc ht hm hf => ?fault,
    fun s c k x t hc ht hf => ?matrix⟩
  case plain =>
    have hf : (t.held.mat.bind fun m => m.fault) = none := by rw [hm]; rfl
    obtain ⟨v, hcrew, hv⟩ := commitTag_crew hc ht hf
    rw [hv (by rw [hm]; rfl)] at hcrew
    refine ⟨_, hcrew, (commitTag_cases hc ht hf).1, rfl, ?_, SMap.find?_erase_self _ _, fun j hj => SMap.find?_erase_ne _ hj⟩
    simp only [committed, hm, Option.map_none, Option.getD_none]
  case vector =>
    refine ⟨?_, fun j hj => RegFile.vget_vset_ne _ _ hj _, RegFile.sget_vset .., RegFile.m_vset ..⟩
    exact (congrArg (Lanes.get · l) (RegFile.vget_vset_self ..)).trans (mergeLanes_get _ _ _ hl)
  case scalar =>
    exact ⟨RegFile.sget_sset_self .., fun j hj => RegFile.sget_sset_ne _ _ hj _, RegFile.vget_sset .., RegFile.m_sset ..⟩
  case fault =>
    rw [commitTag_fault hc ht hm hf]
    exact ⟨_, State.crew?_setCrew_self .., rfl, rfl, rfl, SMap.find?_erase_self _ _, rfl, rfl⟩
  case matrix =>
    intro dt mine u written
    have writes (r : Nat) : written r = t.held.regs.any (RegWrite.writesOwn r) :=
      congrArg t.held.regs.any (funext fun w => by cases w <;> rfl)
    obtain ⟨v, hcrew, hv⟩ := commitTag_crew hc ht hf
    refine ⟨_, hcrew, (commitTag_cases hc ht hf).1, SMap.find?_erase_self _ _, rfl, fun hd => ?_, fun g n hn => ?_,
      fun i st n e hd hi he => commitTag_tile?_taken hc ht hf hd hi he, fun i e hd hi he => commitTag_tile?_kept hc ht hf hd hi he,
      fun i code e hd he hr hcols hb hcs hout => ?_⟩
    · rw [hv hd]; rfl
    · rw [commitTag_tile?_other hc ht hf hn]
      refine congrArg (Option.map · _) (funext fun e => ?_)
      exact staled_eq hn writes e
    · obtain ⟨htile, hrun⟩ := commitTag_tile?_dtile hc ht hf hd he
      rw [hcrew, putRegChecksums_one _ hcs (by rw [accChecksums_length]; decide) (by rw [accChecksums_length]; decide)] at hrun
      have hv : v = (committed x k t).rf.v.set e.csum (sumRun (accChecksums (committed x k t) e.base) (committed x k t).rf.v[e.csum]) :=
        congrArg (fun z : Crew => z.rf.v) (Option.some.inj hrun)
      have kept (r : Nat) (h : r < 320) (hne : r ≠ e.csum) : v[r] = (committed x k t).rf.v[r] := by
        rw [hv]; exact Vector.getElem_set_ne _ _ (Ne.symm hne)
      have run : v[e.csum] = sumRun (accChecksums (committed x k t) e.base) (committed x k t).rf.v[e.csum] := by
        simp only [hv, Vector.getElem_set_self]
      have same (r n : Nat) (h : r < 16) : accWord (committed x k t).rf.v e.base r n = accWord v e.base r n := by
        have hlt : e.base + r / 2 < 320 := by omega
        simp [accWord, Vector.getD, hlt, kept _ hlt (by omega)]
      obtain ⟨rows, cols, rest⟩ := sumRun_accChecksums (committed x k t) e.base (committed x k t).rf.v[e.csum]
      rw [← run] at rows cols rest
      refine ⟨htile, kept, fun j hj => (rows j hj).trans ?_, fun j hj => (cols j hj).trans ?_, rest⟩
      · rw [funext fun n => same j n hj]; rfl
      · rw [List.map_congr_left fun r hr => same r j (List.mem_range.1 hr)]; rfl

end Sys2Proof.Machine
end

section
/-!
PROOF of what saving a line of an image writes (R83, R91), and a state in which an operation that completes without a result saves another result:
that which an instruction before it left complete under the same tag.
-/
namespace Sys2Proof.Machine

/-! ### What saving a line writes (R83) -/

/-- A run of bytes written at consecutive addresses reads as the run. -/
theorem foldl_write_read (l : List Byte) (pa k : Nat) (m : Memory) {j : Nat} (hj : j < l.length) :
    ((l.mapIdx fun i b => (pa + (k + i), b)).foldl (fun m e => m.write e.1 e.2) m).read (pa + (k + j)) = l[j] := by
  induction l generalizing m k j with
  | nil => simp at hj
  | cons b l ih =>
    have shift : (l.mapIdx fun i b => (pa + (k + (i + 1)), b)) = l.mapIdx fun i b => (pa + (k + 1 + i), b) := by
      simp only [Nat.add_assoc, Nat.add_comm 1]
    rw [List.mapIdx_cons, List.foldl_cons, shift]
    cases j with
    | zero =>
      rw [Memory.foldl_write_out _ _ fun e he => ?_, Nat.add_zero, Memory.read_write_self, List.getElem_cons_zero]
      obtain ⟨i, hi, rfl⟩ := List.mem_mapIdx.1 he
      show pa + (k + 1 + i) ≠ pa + (k + 0)
      omega
    | succ j =>
      rw [show k + (j + 1) = k + 1 + j by omega]
      exact ih (k + 1) _ (by simpa using hj)

/-- Bytes of a frame that does not migrate are written as they come. -/
theorem frameWrite_read (s : State) {pa : Nat} {l : List Byte} (hlock : ∀ j < l.length, lockedPa s (pa + j) = false) {j : Nat}
    (hj : j < l.length) : (frameWrite s (l.mapIdx fun i b => (pa + i, b))).mem.read (pa + j) = l[j] := by
  have held : (l.mapIdx fun i b => (pa + i, b)).filter (fun e => lockedPa s e.1) = [] := by
    refine List.filter_eq_nil_iff.2 fun e he => ?_
    obtain ⟨i, hi, rfl⟩ := List.mem_mapIdx.1 he
    simp [hlock i hi]
  have free : (l.mapIdx fun i b => (pa + i, b)).filter (fun e => !lockedPa s e.1) = l.mapIdx fun i b => (pa + i, b) := by
    refine List.filter_eq_self.2 fun e he => ?_
    obtain ⟨i, hi, rfl⟩ := List.mem_mapIdx.1 he
    simp [hlock i hi]
  simp only [frameWrite, held, free, List.isEmpty_nil, if_true, writePhys, Memory.foldl_clear_read]
  simpa using foldl_write_read l pa 0 s.mem hj

/-- A line saved to a page that can be written stands in memory. -/
theorem saveLine_read {s : State} {c n : Nat} {x : Crew} {l : List Byte} {pa : Nat} {m : MapKind} (hx : s.crew? c = some x)
    (hl : lineBytes x n = some l) (ht : translateNow s x.seat.tag (imageLineVa s x.seat n) .write = some (pa, m))
    (hlock : ∀ j < l.length, lockedPa s (pa + j) = false) {j : Nat} (hj : j < l.length) : (saveLine s c n).mem.read (pa + j) = l[j] := by
  have lock (j : Nat) (h : j < l.length) : lockedPa (markWalk s x.seat.tag (imageLineVa s x.seat n) true) (pa + j) = false := by
    unfold markWalk
    split
    · exact hlock j h
    · split <;> exact hlock j h
  unfold saveLine
  simp only [hx, hl, ht]
  exact frameWrite_read _ lock hj

/-- The result held under the tag of an operation of a SUSPENDED crew is saved when the operation completes (R83). -/
theorem finishOp_read {s : State} {o n : Nat} {p : Op} {w : Held} {x y : Crew} {l : List Byte} {pa : Nat} {m : MapKind} (hop : s.op? o = some p)
    (hx : s.crew? p.crew = some x) (hs : x.state = .suspended)
    (hy : { x with tags := x.tags.modify p.tag fun t => if t.op = some o then { t with op := none, held := w } else t } = y)
    (hn : holdLines y p.tag = [n]) (hl : lineBytes y n = some l)
    (ht : translateNow s x.seat.tag (imageLineVa s x.seat n) .write = some (pa, m)) (hlock : ∀ j < l.length, lockedPa s (pa + j) = false)
    {j : Nat} (hj : j < l.length) : (finishOp s o w).mem.read (pa + j) = l[j] := by
  have crew : (s.dropOp o).crew? p.crew = some x := hx
  have after : (if x.state = .draining then { x with tags := x.tags.erase p.tag }
      else { x with tags := x.tags.modify p.tag fun t => if t.op = some o then { t with op := none, held := w } else t }) = y :=
    (if_neg (by rw [hs]; decide)).trans hy
  have state : y.state = .suspended := by rw [← hy]; exact hs
  have seat : y.seat = x.seat := by rw [← hy]
  have saved : finishOp s o w = saveLine ((s.dropOp o).setCrew p.crew y) p.crew n := by
    simp only [finishOp, hop, updCrew_of crew, after, holdResult, State.crew?_setCrew_self, state, true_or, if_true, saveHold, hn,
      List.foldl_cons, List.foldl_nil]
  rw [saved]
  exact saveLine_read (State.crew?_setCrew_self (s.dropOp o) p.crew y) hl (by rw [seat]; exact ht) hlock hj

/-! ### A tag already complete when its operation ends -/

/-- A complete result under a tag: scalar register 0 is to be 1. -/
def doneTag : TagRec := ⟨none, 0, { regs := [.s 0 false 1] }, [], false⟩

/-- The loaded crew, SUSPENDED, with that result under tag 1. -/
def suspendedCrew : Crew := { loadedCrew 0 2 with state := .suspended, tags := [(1, doneTag)] }

/-- An operation of crew 3 in flight, which also names tag 1. -/
def staleOp : Op := ⟨3, 1, false, 0, .transform {}⟩

/-- Three levels of tables (R332) that map the first GiB to itself, in a context whose crew 3 is the suspended one. -/
def suspendedState : State :=
  let s := loadProgram State.reset
  let tables : List (Nat × Nat) := [(0x100000, 0x101001), (0x101000, 0x102001), (0x102000, 0xC1B)]
  { s.setCrew 3 suspendedCrew with
    mem := tables.foldl (fun m e => m.writeLE e.1 8 e.2) s.mem
    ctxs := s.ctxs.modify 1 fun c => { c with desc := { c.desc with troot := 0x100000 } }
    ops := [(7, staleOp)] }

/-- Refutes O30: the result that tag 1 already holds goes to its hold slot, though the operation has none. -/
theorem not_operationsFinishUnderTheirTag : ¬ Obligations.OperationsFinishUnderTheirTag := by
  unfold Obligations.OperationsFinishUnderTheirTag
  intro h
  obtain ⟨y, -, -, -, -, hmem, -⟩ := h suspendedState 7 staleOp {} suspendedCrew rfl rfl
  have before : suspendedState.mem.read 0x2E800 = 0 := by decide +kernel
  have after : (finishOp suspendedState 7 {}).mem.read (0x2E800 + 0) = 1 := by
    have line : lineBytes suspendedCrew 372 = some (toBytes 8 1 ++ List.replicate 504 0) := rfl
    have read := finishOp_read (s := suspendedState) (o := 7) (w := {}) (y := suspendedCrew) rfl rfl rfl rfl
      (by decide +kernel) line (pa := 0x2E800) (m := .device) (by decide +kernel) (fun _ _ => rfl) (j := 0)
      (by rw [List.length_append]; exact Nat.add_pos_left (by decide) _)
    exact read
  rw [hmem (.inr rfl), before] at after
  exact absurd after (by decide)

end Sys2Proof.Machine
end

section
/-!
PROOF of taking a trap (R90, R91, R312): what commits and the writes to an image leave of other crews and of the contexts, what a kill leaves of
the crews (R258, R288, R321, R325), and the two ends of a trap.
-/
namespace Sys2Proof.Machine

/-! ### A change of one crew -/

/-- No crew but `c` has changed, and no context. -/
structure OnlyCrew (c : Nat) (s t : State) : Prop where
  others : ∀ d, d ≠ c → t.crew? d = s.crew? d
  ctxs : t.ctxs = s.ctxs

namespace OnlyCrew
variable {c : Nat} {s t u : State}

theorem refl (c : Nat) (s : State) : OnlyCrew c s s := ⟨fun _ _ => rfl, rfl⟩

theorem trans (h : OnlyCrew c s t) (h' : OnlyCrew c t u) : OnlyCrew c s u :=
  ⟨fun d hd => (h'.others d hd).trans (h.others d hd), h'.ctxs.trans h.ctxs⟩

theorem updCrew (c : Nat) (s : State) (f : Crew → Crew) : OnlyCrew c s (s.updCrew c f) :=
  ⟨fun _ hd => State.crew?_updCrew_ne _ _ hd, by simp⟩

theorem of_eq (h : t.crews = s.crews) (h' : t.ctxs = s.ctxs) : OnlyCrew c s t := ⟨fun d _ => congrArg (SMap.find? · d) h, h'⟩

theorem memOnly (h : MemOnly s t) : OnlyCrew c s t := of_eq h.crews h.ctxs

end OnlyCrew

theorem onlyCrew_dirtyLineNos (c d : Nat) (s : State) (ns : List Nat) : OnlyCrew c s (dirtyLineNos s d ns) := by
  unfold dirtyLineNos
  split
  · exact .refl c s
  dsimp only
  have saves (l : List Nat) := MemOnly.foldl (fun s n => memOnly_saveLine s d n) l s
  split
  · exact .memOnly (saves _)
  · exact .of_eq (saves _).crews (saves _).ctxs

theorem onlyCrew_dirtyLines (c d : Nat) (s : State) (l : List RegWrite) : OnlyCrew c s (dirtyLines s d l) := by
  unfold dirtyLines
  split
  · exact .refl c s
  · exact onlyCrew_dirtyLineNos ..

theorem onlyCrew_staleTiles (c d : Nat) (s : State) (l : List Nat) (ex : Option Nat) : OnlyCrew c s (staleTiles s d l ex) := by
  unfold staleTiles
  split
  · exact .refl c s
  · exact .of_eq rfl rfl

theorem onlyCrew_commitDtile (c : Nat) (s : State) (i code : Nat) : OnlyCrew c s (commitDtile s c i code) := by
  unfold commitDtile
  split
  · exact .refl c s
  split
  · exact .refl c s
  · exact ((OnlyCrew.updCrew c s _).trans (onlyCrew_dirtyLineNos ..)).trans (.of_eq rfl rfl)

theorem onlyCrew_commitTag (c : Nat) (s : State) (k : Nat) : OnlyCrew c s (commitTag s c k).1 := by
  cases hc : s.crew? c with
  | none => simp only [commitTag, hc]; exact .refl c s
  | some x =>
    cases ht : x.tags.find? k with
    | none => simp only [commitTag, hc, ht]; exact .refl c s
    | some t =>
      have set (y : Crew) : OnlyCrew c s (s.setCrew c y) := ⟨fun _ hd => State.crew?_setCrew_ne _ _ hd, rfl⟩
      have regs : OnlyCrew c s (commitRegs s c k x t) := ((set _).trans (onlyCrew_dirtyLines ..)).trans (onlyCrew_staleTiles ..)
      cases hf : t.held.mat.bind fun m => m.fault with
      | some f =>
        obtain ⟨m, hm, hmf⟩ := Option.bind_eq_some_iff.1 hf
        rw [commitTag_fault hc ht hm hmf]
        exact set _
      | none =>
        obtain ⟨-, ⟨i, code, -, h⟩ | ⟨-, ⟨i, st, n, -, h⟩ | ⟨-, h⟩⟩⟩ := commitTag_cases hc ht hf <;> rw [h]
        · exact regs.trans (onlyCrew_commitDtile ..)
        · exact regs.trans (.of_eq rfl rfl)
        · exact regs

theorem onlyCrew_commitTags (c : Nat) (s : State) (ks : List Nat) : OnlyCrew c s (commitTags s c ks).1 := by
  induction ks generalizing s with
  | nil => exact .refl c s
  | cons k ks ih => exact (onlyCrew_commitTag c s k).trans (ih _)

/-! ### Trap entry (R90, R312) -/

theorem tvec_of_ctxs {s t : State} (h : t.ctxs = s.ctxs) (tag : Nat) : tvec t tag = tvec s tag := by
  simp only [tvec, State.ctx?, h]

section
variable {s : State} {c : Nat} {t : Trap} {pc : DWord} {x : Crew} (hc : s.crew? c = some x)
include hc

theorem takeTrap_enters (hm : x.ctl.hmode = false) (hv : tvec s x.seat.tag ≠ 0) (hops : (entryTags s x).2 = []) :
    takeTrap s c t pc = enterHandler s c t pc := by
  simp only [takeTrap, hc, hm, Bool.false_eq_true, if_false, hv, hops]

/-- The crew in its handler. -/
def entered (s : State) (x y : Crew) (t : Trap) (pc : DWord) : Crew :=
  { y with
    tags := y.tags.map fun e => (e.1, { e.2 with deferred := true })
    req := { y.req with trap := none }
    stamps := { y.stamps with handler := s.coreCycle x.seat.core }
    tr := (y.trapped t pc).tr
    ctl := { y.ctl with hmode := true, em := BitVec.allOnes 128, pc := tvec s x.seat.tag } }

/-- Trap entry: the commits, the image, and the crew in its handler. -/
theorem enterHandler_eq {x1 : Crew} (h1 : (commitTags s c (entryTags s x).1).1.crew? c = some x1) :
    ∃ u, u = saveControl (commitTags s c (entryTags s x).1).1 c ∧ enterHandler s c t pc = u.setCrew c (entered u x x1 t pc) ∧
      OnlyCrew c s u := by
  refine ⟨_, rfl, ?_, (onlyCrew_commitTags c s _).trans (.memOnly (memOnly_saveControl ..))⟩
  have hu := (memOnly_saveControl (commitTags s c (entryTags s x).1).1 c).crew? c
  simp only [enterHandler, hc, updCrew_of (hu.trans h1)]
  rfl

theorem takeTrap_kills (hm : x.ctl.hmode = true) : takeTrap s c t pc = killCrew s c ⟨3, t.cause, pc.toNat⟩ false true := by
  simp only [takeTrap, hc, hm, if_true]

theorem takeTrap_no_handler (hm : x.ctl.hmode = false) (hv : tvec s x.seat.tag = 0) :
    takeTrap s c t pc = killCrew (s.updCrew c fun y => y.trapped t pc) c ⟨4, t.cause, pc.toNat⟩ false true := by
  simp only [takeTrap, hc, hm, Bool.false_eq_true, if_false, hv, if_true]

end

theorem entered_deferred (s : State) (x y : Crew) (t : Trap) (pc : DWord) {k : Nat} {r : TagRec}
    (h : (entered s x y t pc).tags.find? k = some r) : r.deferred = true := by
  have e := (SMap.find?_map y.tags (fun _ r => { r with deferred := true }) k).symm.trans h
  obtain ⟨r', -, rfl⟩ := Option.map_eq_some_iff.1 e
  rfl

/-! ### What a kill leaves of the crews (R258, R279, R288) -/

/-- Every crew is as it was but for its tags, and no context has changed. -/
structure TagsOnly (s t : State) : Prop where
  crews : ∀ d x, s.crew? d = some x → ∃ l, t.crew? d = some { x with tags := l }
  ctxs : t.ctxs = s.ctxs

namespace TagsOnly
variable {s t u : State}

theorem of_eq (h : t.crews = s.crews) (h' : t.ctxs = s.ctxs) : TagsOnly s t :=
  ⟨fun d x hx => ⟨x.tags, (congrArg (SMap.find? · d) h).trans hx⟩, h'⟩

theorem refl (s : State) : TagsOnly s s := .of_eq rfl rfl

theorem memOnly (h : MemOnly s t) : TagsOnly s t := .of_eq h.crews h.ctxs

theorem trans (h : TagsOnly s t) (h' : TagsOnly t u) : TagsOnly s u where
  crews d x hx := by
    obtain ⟨l, hl⟩ := h.crews d x hx
    obtain ⟨l', hl'⟩ := h'.crews d _ hl
    exact ⟨l', hl'⟩
  ctxs := h'.ctxs.trans h.ctxs

theorem foldl {α : Type} {f : State → α → State} (hf : ∀ s a, TagsOnly s (f s a)) (l : List α) (s : State) : TagsOnly s (l.foldl f s) := by
  induction l generalizing s with
  | nil => exact refl s
  | cons a l ih => exact (hf s a).trans (ih _)

theorem updCrew {c : Nat} {f : Crew → Crew} (hf : ∀ x, ∃ l, f x = { x with tags := l }) (s : State) : TagsOnly s (s.updCrew c f) where
  crews d x hx := by
    by_cases hd : d = c
    · subst hd
      obtain ⟨l, hl⟩ := hf x
      exact ⟨l, by rw [State.crew?_updCrew_self, hx, Option.map_some, hl]⟩
    · exact ⟨x.tags, (State.crew?_updCrew_ne _ _ hd).trans hx⟩
  ctxs := by simp

end TagsOnly

theorem tagsOnly_finishOp (s : State) (o : Nat) (h : Held) : TagsOnly s (finishOp s o h) := by
  unfold finishOp
  split
  · exact .refl s
  · have drop : TagsOnly s (s.dropOp o) := .of_eq rfl rfl
    refine (drop.trans (.updCrew (fun x => ?_) _)).trans (.memOnly (memOnly_holdResult ..))
    split <;> exact ⟨_, rfl⟩

theorem tagsOnly_releaseWait (s : State) (o st : Nat) (b : Bar) : TagsOnly s (releaseWait s o st b) := by
  unfold releaseWait
  split <;> exact .of_eq rfl rfl

theorem tagsOnly_wakeChains (s : State) (g n st : Nat) (b : Bar) (go : Nat → Bool) : TagsOnly s (wakeChains s g n st b go) := by
  unfold wakeChains
  dsimp only
  split <;> exact .of_eq rfl rfl

theorem tagsOnly_wakeWaiters (s : State) (g n : Nat) : TagsOnly s (wakeWaiters s g n) := by
  unfold wakeWaiters
  refine TagsOnly.trans ?_ (.foldl (fun s w => ?_) _ _)
  · exact (tagsOnly_wakeChains s g n (s.bar g n).state.code (s.bar g n) (s.bar g n).releases).trans (.of_eq rfl rfl)
  · split
    · exact tagsOnly_releaseWait ..
    · exact .refl s

theorem tagsOnly_reefDropped (s : State) (g a : Nat) : TagsOnly s (reefDropped s g a) := by
  unfold reefDropped
  dsimp only
  split
  · exact .of_eq rfl rfl
  · refine TagsOnly.trans ?_ (tagsOnly_finishOp ..)
    exact .of_eq rfl rfl

theorem tagsOnly_barArray (s : State) (g n : Nat) (ok : Bool) : TagsOnly s (barArray s g n ok) := by
  unfold barArray
  split
  · exact .refl s
  · refine TagsOnly.trans ?_ (.of_eq (State.updBar_crews ..) (State.updBar_ctxs ..))
    split
    · exact .of_eq rfl rfl
    · exact tagsOnly_reefDropped ..

theorem tagsOnly_abandon (s : State) (g n : Nat) : TagsOnly s (abandon s g n) := by
  unfold abandon
  split
  · refine ((TagsOnly.of_eq ?_ ?_).trans (tagsOnly_barArray ..)).trans (tagsOnly_wakeWaiters ..)
    · exact State.updBar_crews ..
    · exact State.updBar_ctxs ..
  · exact .refl s

theorem tagsOnly_abandonGroup (s : State) (gi : Nat) : TagsOnly s (abandonGroup s gi) := by
  unfold abandonGroup
  split
  · exact .refl s
  · have own (g : Group) := TagsOnly.foldl (fun s n => tagsOnly_abandon s g.core n)
    dsimp only
    split
    · exact own _ _ _
    · refine (own _ _ _).trans (.foldl (fun s hi => ?_) _ _)
      split
      · exact .refl s
      · refine .foldl (fun s n => ?_) _ _
        split
        · exact tagsOnly_abandon ..
        · exact .refl s

theorem tagsOnly_stopChains (s : State) (gi e : Nat) : TagsOnly s (stopChains s gi e) := by
  unfold stopChains
  split
  · exact .refl s
  · refine .foldl (fun s e => ?_) _ _
    split <;> exact .of_eq rfl rfl

theorem tagsOnly_endBarrierOps (s : State) (c : Nat) : TagsOnly s (endBarrierOps s c) := by
  unfold endBarrierOps
  refine .foldl (fun s e => ?_) _ _
  split
  · exact .refl s
  split
  · refine TagsOnly.trans ?_ (tagsOnly_finishOp ..)
    exact .of_eq rfl rfl
  · exact tagsOnly_finishOp ..
  · exact .refl s

/-! ### The log (R325) -/

/-- The crews and the contexts are as they were. -/
def CrewsCtxs (s t : State) : Prop := t.crews = s.crews ∧ t.ctxs = s.ctxs

namespace CrewsCtxs
variable {s t u : State}

theorem refl (s : State) : CrewsCtxs s s := ⟨rfl, rfl⟩

theorem trans (h : CrewsCtxs s t) (h' : CrewsCtxs t u) : CrewsCtxs s u := ⟨h'.1.trans h.1, h'.2.trans h.2⟩

theorem memOnly (h : MemOnly s t) : CrewsCtxs s t := ⟨h.crews, h.ctxs⟩

end CrewsCtxs

theorem crewsCtxs_putEvent (s : State) (e : Event) : CrewsCtxs s (putEvent s e) := by
  unfold putEvent
  dsimp only
  split <;> exact ⟨rfl, rfl⟩

theorem crewsCtxs_emit (s : State) (e : Event) : CrewsCtxs s (emit s e) := by
  unfold emit
  split
  · exact crewsCtxs_putEvent ..
  split
  · exact ⟨rfl, rfl⟩
  split <;> exact ⟨rfl, rfl⟩

theorem crewsCtxs_peerRequest (s : State) (vc pa : Nat) (o : Option (Nat × Nat)) (l : List Byte) : CrewsCtxs s (peerRequest s vc pa o l) := by
  unfold peerRequest
  split <;> exact ⟨rfl, rfl⟩

theorem crewsCtxs_noteHome (s : State) (pa : Nat) : CrewsCtxs s (noteHome s pa) := by
  unfold noteHome
  split <;> exact ⟨rfl, rfl⟩

theorem crewsCtxs_unitStore (s : State) (g tag va pa : Nat) (l : List Byte) : CrewsCtxs s (unitStore s g tag va pa l).1 := by
  have sent (u : State) : CrewsCtxs u (frameWrite (noteHome (markWalk (peerRequest u 0 pa none l) tag va true) pa)
      (l.mapIdx fun i b => (pa + i, b))) :=
    (((crewsCtxs_peerRequest ..).trans (.memOnly (memOnly_markWalk ..))).trans (crewsCtxs_noteHome ..)).trans (.memOnly (memOnly_frameWrite ..))
  have free : CrewsCtxs s (if region pa ≤ 1 then ((0, s) : Nat × State) else s.freeValue).2 := by split <;> exact ⟨rfl, rfl⟩
  unfold unitStore
  generalize (if region pa ≤ 1 then ((0, s) : Nat × State) else s.freeValue) = p at free ⊢
  dsimp only
  split
  · exact free.trans ⟨rfl, rfl⟩
  · exact (free.trans (sent _)).trans ⟨rfl, rfl⟩

/-- A log entry leaves every crew alone, and counts in its context. -/
theorem writeLog_spec (s : State) (tag : Nat) (why : KillWhy) (pos : Nat) : (writeLog s tag why pos).crews = s.crews ∧
    ∀ u, s.ctx? tag = some u → (writeLog s tag why pos).ctx? tag = some { u with logSeq := u.logSeq + 1 } := by
  cases hx : s.ctx? tag with
  | none => exact ⟨by simp only [writeLog, hx], nofun⟩
  | some x =>
    have counted {u v : State} (h : CrewsCtxs s u) (h' : CrewsCtxs (u.updCtx tag fun x => { x with logSeq := x.logSeq + 1 }) v) :
        v.crews = s.crews ∧ ∀ y, some x = some y → v.ctx? tag = some { y with logSeq := y.logSeq + 1 } := by
      refine ⟨h'.1.trans h.1, fun y hy => ?_⟩
      cases hy
      simp only [State.ctx?, h'.2, State.updCtx, h.2, SMap.find?_modify_self]
      rw [show s.ctxs.find? tag = some x from hx]
      rfl
    simp only [writeLog, hx]
    split
    · exact counted (crewsCtxs_unitStore ..) (crewsCtxs_emit ..)
    · exact counted (.refl s) (crewsCtxs_emit ..)

/-- A kill that is not asked yet: the log, the request, the ends of what depends on the crew, then the state the crew goes to (R76, R321). -/
theorem killCrew_asks {s : State} {c : Nat} {x : Crew} (hc : s.crew? c = some x) (hk : x.req.kill = none) (hd : x.state ≠ .draining)
    (why : KillWhy) (r log : Bool) :
    ∃ u, TagsOnly ((if log then writeLog s x.seat.tag why x.seat.cpos else s).updCrew c fun x =>
        { x with req := { x.req with kill := some why, relaunch := r } }) u ∧
      killCrew s c why r log = if x.state = .starting ∨ x.state = .suspended then toDraining u c
        else if x.state = .waiting then toReady u c else u := by
  have e : (x.req.kill.isSome || x.state = .draining) = false := by simp [hk, hd]
  let t := (if log then writeLog s x.seat.tag why x.seat.cpos else s).updCrew c fun x =>
    { x with req := { x.req with kill := some why, relaunch := r } }
  refine ⟨(stopChains (abandonGroup (endBarrierOps t c) x.seat.group) x.seat.group 9).updGroup x.seat.group fun g =>
    { g with
      state := if g.state = .resident then .broken else g.state
      broke := true
      relaunch := g.relaunch && r }, ?_, ?_⟩
  · refine (((tagsOnly_endBarrierOps t c).trans (tagsOnly_abandonGroup _ x.seat.group)).trans (tagsOnly_stopChains _ x.seat.group 9)).trans ?_
    exact .of_eq (State.updGroup_crews ..) (State.updGroup_ctxs ..)
  · simp only [killCrew, hc, e, Bool.false_eq_true, if_false]
    cases hs : x.state
    case draining => exact absurd hs hd
    all_goals rfl

/-- The kill of an active crew that no kill awaits: its tags may change and nothing else of it but the kill; the log counts it. -/
theorem killCrew_active {s : State} {c : Nat} {x : Crew} (hc : s.crew? c = some x) (hk : x.req.kill = none) (ha : x.state = .active)
    (why : KillWhy) (r : Bool) :
    (∃ l, (killCrew s c why r true).crew? c = some { x with tags := l, req := { x.req with kill := some why, relaunch := r } }) ∧
    ∀ u, s.ctx? x.seat.tag = some u → (killCrew s c why r true).ctx? x.seat.tag = some { u with logSeq := u.logSeq + 1 } := by
  obtain ⟨hcrews, hctx⟩ := writeLog_spec s x.seat.tag why x.seat.cpos
  obtain ⟨t, ends, he⟩ := killCrew_asks hc hk (by rw [ha]; decide) why r true
  have stays : killCrew s c why r true = t := by rw [he, ha, if_neg (by decide), if_neg (by decide)]
  rw [stays]
  rw [if_pos rfl] at ends
  have asked : ((writeLog s x.seat.tag why x.seat.cpos).updCrew c fun x =>
      { x with req := { x.req with kill := some why, relaunch := r } }).crew? c =
      some { x with req := { x.req with kill := some why, relaunch := r } } := by
    rw [State.crew?_updCrew_self, show (writeLog s x.seat.tag why x.seat.cpos).crew? c = some x from (congrArg (SMap.find? · c) hcrews).trans hc]
    rfl
  refine ⟨ends.crews c _ asked, fun u hu => ?_⟩
  rw [← hctx u hu]
  simp only [State.ctx?, ends.ctxs, State.updCrew_ctxs]

/-- Settles O7: the two ends of a trap; what commits and the image leave, and what a kill leaves, of the crews. -/
theorem takingATrap : Obligations.TakingATrap := by
  unfold Obligations.TakingATrap
  refine ⟨fun s c t pc x x1 hc hm hv hops h1 => ?_, fun s c t pc x hc => ⟨takeTrap_kills hc, takeTrap_no_handler hc, fun hor hk ha => ?_⟩⟩
  · obtain ⟨u, hu, he, ho⟩ := enterHandler_eq (t := t) (pc := pc) hc h1
    rw [takeTrap_enters hc hm hv hops, he]
    refine ⟨_, State.crew?_setCrew_self .., rfl, ?_, rfl, rfl, fun k r hr => entered_deferred _ _ _ _ _ hr, by rw [hu]; rfl, fun d hd => ?_⟩
    · simp only [entered, tvec_of_ctxs ho.ctxs]
    · exact (State.crew?_setCrew_ne _ _ hd).trans (ho.others d hd)
  · by_cases hm : x.ctl.hmode = true
    · obtain ⟨⟨l, hl⟩, hctx⟩ := killCrew_active hc hk ha ⟨3, t.cause, pc.toNat⟩ false
      rw [takeTrap_kills hc hm, hl]
      refine ⟨_, rfl, rfl, rfl, rfl, by simp [hm], by simp [hm], fun u hu => by rw [hctx u hu]; rfl⟩
    · have hm' : x.ctl.hmode = false := by simpa using hm
      have hc' : (s.updCrew c fun y => y.trapped t pc).crew? c = some (x.trapped t pc) := by rw [State.crew?_updCrew_self, hc]; rfl
      obtain ⟨⟨l, hl⟩, hctx⟩ := killCrew_active hc' hk ha ⟨4, t.cause, pc.toNat⟩ false
      rw [takeTrap_no_handler hc hm' (hor.resolve_left hm), hl]
      refine ⟨_, rfl, rfl, rfl, rfl, by simp [hm', Crew.trapped], by simp [hm'], fun u hu => ?_⟩
      rw [show (x.trapped t pc).seat.tag = x.seat.tag from rfl] at hctx
      rw [hctx u (by simpa [State.ctx?] using hu)]; rfl

end Sys2Proof.Machine
end

section
/-!
PROOF of a crew's life outside its instructions (R76 to R87, R317, R321) and of the end of its group and convoy (R288, R289).
-/
namespace Sys2Proof.Machine

/-! ### The best of a list -/

/-- Keeps the better of two: `r e b` says that `e` is better than `b`. -/
def keepBest {α : Type} (r : α → α → Prop) [DecidableRel r] : Option α → α → Option α
  | none, e => some e
  | some b, e => if r e b then some e else some b

section
variable {α : Type} {r : α → α → Prop} [DecidableRel r] (irrefl : ∀ a, ¬r a a) (trans : ∀ a b c, r a b → r b c → r a c)
include irrefl trans

/-- What is kept is of the list, or was kept before and is not worse; nothing of the list is better. -/
theorem foldl_keepBest_some (l : List α) (b : α) :
    ∃ m, l.foldl (keepBest r) (some b) = some m ∧ (m = b ∨ m ∈ l ∧ r m b) ∧ ∀ e ∈ l, ¬r e m := by
  induction l generalizing b with
  | nil => exact ⟨b, rfl, .inl rfl, nofun⟩
  | cons a l ih =>
    rw [List.foldl_cons, keepBest]
    split
    · next hab =>
      obtain ⟨m, hm, hmem, hl⟩ := ih a
      refine ⟨m, hm, .inr ?_, List.forall_mem_cons.2 ⟨?_, hl⟩⟩
      · rcases hmem with rfl | ⟨hmem, hma⟩
        · exact ⟨List.mem_cons_self, hab⟩
        · exact ⟨List.mem_cons_of_mem a hmem, trans m a b hma hab⟩
      · rcases hmem with rfl | ⟨-, hma⟩
        · exact irrefl m
        · exact fun ham => irrefl a (trans a m a ham hma)
    · next hab =>
      obtain ⟨m, hm, hmem, hl⟩ := ih b
      refine ⟨m, hm, hmem.imp id (And.imp_left (List.mem_cons_of_mem a)), List.forall_mem_cons.2 ⟨?_, hl⟩⟩
      rcases hmem with rfl | ⟨-, hmb⟩
      · exact hab
      · exact fun ham => hab (trans a m b ham hmb)

theorem foldl_keepBest {l : List α} {m : α} (h : l.foldl (keepBest r) none = some m) : m ∈ l ∧ ∀ e ∈ l, ¬r e m := by
  cases l with
  | nil => cases h
  | cons a l =>
    obtain ⟨m', hm, hmem, hl⟩ := foldl_keepBest_some irrefl trans l a
    cases hm.symm.trans h
    refine ⟨?_, List.forall_mem_cons.2 ⟨?_, hl⟩⟩
    · rcases hmem with rfl | ⟨hmem, -⟩
      · exact List.mem_cons_self
      · exact List.mem_cons_of_mem a hmem
    · rcases hmem with rfl | ⟨-, hma⟩
      · exact irrefl m
      · exact fun ham => irrefl a (trans a m a ham hma)

theorem exists_foldl_keepBest {l : List α} (h : l ≠ []) : ∃ m, l.foldl (keepBest r) none = some m := by
  cases l with
  | nil => exact absurd rfl h
  | cons a l =>
    obtain ⟨m, hm, -⟩ := foldl_keepBest_some irrefl trans l a
    exact ⟨m, hm⟩

end

/-! ### The order of issue (R85) -/

theorem lexLt_irrefl (l : List Nat) : lexLt l l = false := by
  induction l with
  | nil => rfl
  | cons a l ih => simp [lexLt, ih]

theorem lexLt_trans (a b c : List Nat) (h : lexLt a b = true) (h' : lexLt b c = true) : lexLt a c = true := by
  induction a generalizing b c with
  | nil => cases h
  | cons x a ih =>
    cases b with
    | nil => cases h
    | cons y b =>
      cases c with
      | nil => cases h'
      | cons z c =>
        simp only [lexLt, Bool.or_eq_true, decide_eq_true_eq, Bool.and_eq_true, beq_iff_eq] at h h' ⊢
        rcases h with h | ⟨rfl, h⟩
        · rcases h' with h' | ⟨rfl, -⟩
          · exact .inl (h.trans h')
          · exact .inl h
        · exact h'.imp id fun ⟨e, h'⟩ => ⟨e, ih b c h h'⟩

/-- The active crews of a scheduler that can issue, each with its rank. -/
def ranked (s : State) (g t : Nat) : List (Nat × List Nat) :=
  (s.sched g t).active.filterMap fun c => (s.crew? c).bind fun x =>
    if x.state = .active ∧ Config.unitReady s.tick c ∧ !fetchHeld s x then some (c, issueRank s x) else none

theorem issuer_eq (s : State) (g t : Nat) :
    issuer s g t = ((ranked s g t).foldl (keepBest fun e b => lexLt e.2 b.2 = true) none).map (·.1) := by
  refine congrArg (fun f : Option (Nat × List Nat) → Nat × List Nat → Option (Nat × List Nat) =>
    ((ranked s g t).foldl f none).map Prod.fst) (funext fun best => funext fun e => ?_)
  cases best <;> rfl

theorem mem_ranked {s : State} {g t c : Nat} {r : List Nat} : (c, r) ∈ ranked s g t ↔ c ∈ (s.sched g t).active ∧ ∃ x, s.crew? c = some x ∧
    x.state = .active ∧ Config.unitReady s.tick c = true ∧ fetchHeld s x = false ∧ r = issueRank s x := by
  simp only [ranked, List.mem_filterMap, Option.bind_eq_some_iff, Option.ite_none_right_eq_some, Option.some.injEq, Prod.mk.injEq,
    Bool.not_eq_true']
  constructor
  · rintro ⟨d, hd, x, hx, ⟨ha, hu, hf⟩, rfl, rfl⟩
    exact ⟨hd, x, hx, ha, hu, hf, rfl⟩
  · rintro ⟨hd, x, hx, ha, hu, hf, rfl⟩
    exact ⟨c, hd, x, hx, ⟨ha, hu, hf⟩, rfl, rfl⟩

/-- The crew a scheduler issues has the least rank of those that can issue. -/
theorem issuer_least {s : State} {g t c : Nat} (h : issuer s g t = some c) : ∃ x, c ∈ (s.sched g t).active ∧ s.crew? c = some x ∧
    x.state = .active ∧ ∀ d ∈ (s.sched g t).active, ∀ z, s.crew? d = some z → z.state = .active → Config.unitReady s.tick d = true →
      fetchHeld s z = false → lexLt (issueRank s z) (issueRank s x) = false := by
  rw [issuer_eq, Option.map_eq_some_iff] at h
  obtain ⟨⟨c', r⟩, hm, rfl⟩ := h
  obtain ⟨hmem, hleast⟩ := foldl_keepBest (fun e => by simp [lexLt_irrefl]) (fun a b c => lexLt_trans a.2 b.2 c.2) hm
  obtain ⟨hact, x, hx, ha, -, -, rfl⟩ := mem_ranked.1 hmem
  refine ⟨x, hact, hx, ha, fun d hd z hz hza hu hf => ?_⟩
  exact Bool.eq_false_iff.2 (hleast (d, issueRank s z) (mem_ranked.2 ⟨hd, z, hz, hza, hu, hf, rfl⟩))

/-- What the ranks of two crews say (R85). -/
theorem issueRank_least {s : State} {x z : Crew} (h : lexLt (issueRank s z) (issueRank s x) = false) :
    (z.lastIssue + 4096 ≤ z.cycle s → x.lastIssue + 4096 ≤ x.cycle s ∧ x.lastIssue ≤ z.lastIssue) ∧
    (¬x.lastIssue + 4096 ≤ x.cycle s → crewClass s x < crewClass s z ∨ (crewClass s x = crewClass s z ∧
      (x.lastIssue < z.lastIssue ∨ (x.lastIssue = z.lastIssue ∧ x.seat.slot ≤ z.seat.slot)))) := by
  unfold issueRank at h
  split at h <;> split at h <;>
    simp only [lexLt, Bool.or_eq_false_iff, Bool.and_eq_false_iff, decide_eq_false_iff_not, beq_eq_false_iff_ne] at h <;> omega

/-! ### The register cache (R82) -/

/-- What is kept of a crew while its lines come: its place, its tags and its queue. -/
structure Holds (x y : Crew) : Prop where
  seat : y.seat = x.seat
  tags : y.tags = x.tags
  sq : y.sq = x.sq

theorem holds_putLine (x : Crew) {n : Nat} (l : List Byte) (hn : n < x.seat.nv + 52) : Holds x (putLine x n l) := by
  unfold putLine
  dsimp only
  split
  · exact ⟨rfl, rfl, rfl⟩
  split
  · exact ⟨rfl, rfl, rfl⟩
  split
  · exact ⟨rfl, rfl, rfl⟩
  split
  · exact ⟨rfl, rfl, rfl⟩
  split
  · next h => omega
  · exact ⟨rfl, rfl, rfl⟩

theorem loadLine_core (s : State) (c n g : Nat) : (loadLine s c n).core g = s.core g := by
  unfold loadLine
  split
  · rfl
  · split
    · rw [State.core_updCrew, (memOnly_markWalk ..).core]
    · rfl

theorem loadLine_crew {s : State} {c n : Nat} {x : Crew} (hc : s.crew? c = some x) (hn : n < x.seat.nv + 52) :
    ∃ y, (loadLine s c n).crew? c = some y ∧ Holds x y := by
  simp only [loadLine, hc]
  split
  · have marked (f : Crew → Crew) : ((markWalk s x.seat.tag (imageLineVa s x.seat n) false).updCrew c f).crew? c = some (f x) := by
      rw [State.crew?_updCrew_self, (memOnly_markWalk ..).crew?, hc]
      rfl
    exact ⟨_, marked _, holds_putLine x _ hn⟩
  · exact ⟨x, hc, rfl, rfl, rfl⟩

/-- A line that passes its checksum is displaced. -/
theorem evictRc_clean {s : State} {g : Nat} {l : RcLine} (hl : l.flip = []) : ∃ u, MemOnly s u ∧ evictRc s g l = u.updCore g fun k =>
    { k with rc := k.rc.filter fun r => !(r.crew == l.crew && r.line == l.line) } := by
  unfold evictRc
  split
  · exact ⟨s, .refl s, rfl⟩
  · exact ⟨saveLine s l.crew l.line, memOnly_saveLine .., by simp [hl]⟩

/-- A victim is a line of the cache that is not needed. -/
theorem rcVictim_spec {k : Core} {t c : Nat} {need : List Nat} {v : RcLine} (h : rcVictim k t c need = some v) :
    v ∈ k.rc ∧ ¬(v.crew = c ∧ v.line ∈ need) := by
  have mem : v ∈ k.rc.filter fun r => r.sched == t && !(r.crew == c && need.contains r.line) := by
    simp only [rcVictim, Option.orElse_eq_orElse, Option.orElse_eq_or, Option.or_eq_some_iff] at h
    rcases h with h | ⟨-, h | ⟨-, h⟩⟩
    · exact List.mem_of_find?_eq_some h
    · exact List.mem_of_find?_eq_some h
    · exact List.mem_of_mem_head? h
  simp only [List.mem_filter, Bool.and_eq_true, Bool.not_eq_true', Bool.and_eq_false_iff, beq_eq_false_iff_ne, List.contains_eq_mem,
    decide_eq_false_iff_not] at mem
  exact ⟨mem.1, fun ⟨hc, hl⟩ => mem.2.2.elim (· hc) (· hl)⟩

/-- The crew, with its place, tags and queue as `x` has them, and a register cache in which every line passes its checksum. -/
structure Fills (c : Nat) (x : Crew) (s : State) : Prop where
  crew : ∃ y, s.crew? c = some y ∧ Holds x y
  clean : ∀ l ∈ (s.core x.seat.core).rc, l.flip = []

section
variable {s : State} {c n : Nat} {x : Crew} {need : List Nat}

theorem hasLine_iff {k : Core} : hasLine k c n = true ↔ ∃ l ∈ k.rc, l.crew = c ∧ l.line = n := by
  simp [hasLine]

/-- Making room keeps the crew's needed lines. -/
theorem fills_evictRc (hs : Fills c x s) {v : RcLine} {t : Nat} (hv : rcVictim (s.core x.seat.core) t c need = some v) :
    Fills c x (evictRc s x.seat.core v) ∧ ∀ m ∈ need, hasLine (s.core x.seat.core) c m = true →
      hasLine ((evictRc s x.seat.core v).core x.seat.core) c m = true := by
  obtain ⟨hmem, hneed⟩ := rcVictim_spec hv
  obtain ⟨u, hu, he⟩ := evictRc_clean (s := s) (g := x.seat.core) (hs.clean v hmem)
  obtain ⟨y, hy, hold⟩ := hs.crew
  rw [he]
  refine ⟨⟨⟨y, (hu.crew? c).trans hy, hold⟩, fun l hl => ?_⟩, fun m hm hl => ?_⟩
  · rw [State.core_updCore_self, hu.core] at hl
    exact hs.clean l (List.mem_filter.1 hl).1
  · obtain ⟨l, hin, rfl, rfl⟩ := hasLine_iff.1 hl
    rw [State.core_updCore_self, hu.core]
    refine hasLine_iff.2 ⟨l, List.mem_filter.2 ⟨hin, ?_⟩, rfl, rfl⟩
    simp only [Bool.not_eq_true', Bool.and_eq_false_iff, beq_eq_false_iff_ne]
    by_cases h : l.crew = v.crew
    · exact .inr fun h' => hneed ⟨h.symm, h' ▸ hm⟩
    · exact .inl h

/-- A fetched line is there, and so are the needed lines that were. -/
theorem fills_fillRc (hs : Fills c x s) (hn : n < x.seat.nv + 52) : Fills c x (fillRc s c n need) ∧
    hasLine ((fillRc s c n need).core x.seat.core) c n = true ∧ ∀ m ∈ need, hasLine (s.core x.seat.core) c m = true →
      hasLine ((fillRc s c n need).core x.seat.core) c m = true := by
  obtain ⟨y, hy, hold⟩ := hs.crew
  have added {u : State} (hu : Fills c x u) : Fills c x ((loadLine u c n).updCore x.seat.core fun k =>
        { k with rc := k.rc ++ [⟨x.seat.sched, c, n, false, false, []⟩] }) ∧
      ∀ m, m = n ∨ hasLine (u.core x.seat.core) c m = true → hasLine (((loadLine u c n).updCore x.seat.core fun k =>
        { k with rc := k.rc ++ [⟨x.seat.sched, c, n, false, false, []⟩] }).core x.seat.core) c m = true := by
    obtain ⟨z, hz, holdz⟩ := hu.crew
    obtain ⟨z', hz', hold'⟩ := loadLine_crew hz (n := n) (by rw [holdz.seat]; exact hn)
    refine ⟨⟨⟨z', hz', hold'.seat.trans holdz.seat, hold'.tags.trans holdz.tags, hold'.sq.trans holdz.sq⟩, fun l hl => ?_⟩, fun m hm => ?_⟩
    · rw [State.core_updCore_self, loadLine_core] at hl
      rcases List.mem_append.1 hl with hl | hl
      · exact hu.clean l hl
      · rw [List.mem_singleton.1 hl]
    · rw [State.core_updCore_self, loadLine_core]
      rcases hm with rfl | hm
      · exact hasLine_iff.2 ⟨_, List.mem_append_right _ (List.mem_singleton.2 rfl), rfl, rfl⟩
      · obtain ⟨l, hl, h⟩ := hasLine_iff.1 hm
        exact hasLine_iff.2 ⟨l, List.mem_append_left _ hl, h⟩
  simp only [fillRc, hy, hold.seat]
  split
  · next here => exact ⟨hs, here, fun _ _ h => h⟩
  · split
    · obtain ⟨hf, hl⟩ := added hs
      exact ⟨hf, hl n (.inl rfl), fun m _ h => hl m (.inr h)⟩
    · split
      · next v hv =>
        obtain ⟨he, hkeep⟩ := fills_evictRc hs hv
        obtain ⟨hf, hl⟩ := added he
        exact ⟨hf, hl n (.inl rfl), fun m hm h => hl m (.inr (hkeep m hm h))⟩
      · obtain ⟨hf, hl⟩ := added hs
        exact ⟨hf, hl n (.inl rfl), fun m _ h => hl m (.inr h)⟩

/-- All the lines of a list of needed ones are fetched. -/
theorem fills_foldl (hs : Fills c x s) {l : List Nat} (hl : ∀ n ∈ l, n ∈ need ∧ n < x.seat.nv + 52) :
    Fills c x (l.foldl (fun s n => fillRc s c n need) s) ∧ ∀ n, n ∈ l ∨ (n ∈ need ∧ hasLine (s.core x.seat.core) c n = true) →
      hasLine ((l.foldl (fun s n => fillRc s c n need) s).core x.seat.core) c n = true := by
  induction l generalizing s with
  | nil => exact ⟨hs, fun n hn => hn.elim nofun And.right⟩
  | cons a l ih =>
    obtain ⟨⟨ha, hb⟩, hl⟩ := List.forall_mem_cons.1 hl
    obtain ⟨hf, hhas, hkeep⟩ := fills_fillRc hs hb (need := need)
    obtain ⟨hend, hlines⟩ := ih hf hl
    refine ⟨hend, fun n hn => hlines n ?_⟩
    rcases hn with hn | ⟨hn, hh⟩
    · rcases List.mem_cons.1 hn with rfl | hn
      · exact .inr ⟨ha, hhas⟩
      · exact .inl hn
    · exact .inr ⟨hn, hkeep n hn hh⟩

end

theorem toReady_core_rc (s : State) (c g : Nat) : ((toReady s c).core g).rc = (s.core g).rc := by
  cases h : s.crew? c with
  | none => simp only [toReady, h]
  | some x =>
    simp only [toReady, leaveSets, h, State.updSched, State.core_updCore, State.core_updCrew]
    by_cases hg : g = x.seat.core <;> simp [hg]

/-- A crew that waits for lines, and has them, is READY at the tail of its queue. -/
theorem fills_ready {s : State} {c : Nat} {x : Crew} {ls : List Nat} (h : Fills c x s)
    (hl : ∀ n ∈ ls, hasLine (s.core x.seat.core) c n = true) : ∃ y, (toReady s c).crew? c = some y ∧ y.state = .ready ∧ y.seat = x.seat ∧
      y.tags = x.tags ∧ y.sq = x.sq ∧ ((toReady s c).sched x.seat.core x.seat.sched).queue.getLast? = some c ∧
      ∀ n ∈ ls, hasLine ((toReady s c).core x.seat.core) c n = true := by
  obtain ⟨y, hy, hold⟩ := h.crew
  refine ⟨_, crew?_toReady hy, rfl, hold.seat, hold.tags, hold.sq, ?_, fun n hn => ?_⟩
  · rw [← hold.seat]
    exact (sched_toReady hy).2
  · simpa [hasLine, toReady_core_rc] using hl n hn

/-! ### Instruction fetch (R14, R382) -/

/-- A fetch whose page misses. -/
theorem fetch_walk {s : State} {x : Crew} {va : Nat} (hva : let at_ (va : Nat) := translate s x.seat.core x.seat.tag va .exec
      (at_ x.ctl.pc.toNat = .miss ∧ va = x.ctl.pc.toNat) ∨
        ((∃ pa m, at_ x.ctl.pc.toNat = .ok pa m) ∧ va = (x.ctl.pc.toNat + 8) % 2 ^ 64 ∧ at_ va = .miss)) :
    fetch s x = .walk va := by
  rcases hva with ⟨h, rfl⟩ | ⟨⟨pa, m, h⟩, rfl, h'⟩
  · simp only [fetch, h]
  · simp only [fetch, h, h']

section
variable {s : State} {c : Nat} {x : Crew} (hc : s.crew? c = some x)
include hc

/-- REGCACHE_FILL where every page can be read at once. -/
theorem regcacheFill_control (hs : x.state = .starting ∨ (x.state = .waiting ∧ x.wait = .control))
    (hw : lineWalk s c (x.seat.nv + 2) = false) (hm : unmapped s x.seat.tag (imageLineVa s x.seat (x.seat.nv + 2)) = false) :
    exec (.regcacheFill c) s = .next (toReady (fillRc s c (x.seat.nv + 2) [x.seat.nv + 2]) c) := by
  show execRegcacheFill c s = _
  have ready : lineReady s x.seat.core c (x.seat.nv + 2) = true := by simp only [lineReady, hw, Bool.not_false, Bool.or_true]
  simp only [execRegcacheFill, hc]
  rcases hs with hs | ⟨hs, hwait⟩
  · simp only [hs, controlLine, ready, Bool.not_true, Bool.false_eq_true, if_false, hm]
  · simp only [hs, hwait, controlLine, ready, Bool.not_true, Bool.false_eq_true, if_false, hm]

theorem regcacheFill_lines {ls : List Nat} (hs : x.state = .waiting) (hwait : x.wait = .lines ls)
    (hl : ∀ n ∈ ls, lineWalk s c n = false ∧ unmapped s x.seat.tag (imageLineVa s x.seat n) = false) :
    exec (.regcacheFill c) s = .next (toReady (ls.foldl (fun s n => fillRc s c n ls) s) c) := by
  have ready : (ls.any fun n => !lineReady s x.seat.core c n) = false := by
    refine List.any_eq_false.2 fun n hn => ?_
    simp [lineReady, (hl n hn).1]
  have mapped : (ls.filter fun n => !hasLine (s.core x.seat.core) c n && unmapped s x.seat.tag (imageLineVa s x.seat n)) = [] := by
    refine List.filter_eq_nil_iff.2 fun n hn => ?_
    simp [(hl n hn).2]
  show execRegcacheFill c s = _
  simp only [execRegcacheFill, hc, hs, hwait, ready, Bool.false_eq_true, if_false, mapped]

theorem instructionFetchWalk_walks (ha : x.state = .active) {va : Nat} (hf : fetch s x = .walk va) :
    exec (.instructionFetchWalk c) s =
      .next (toWaiting (startWalk s (.fetch c) x.seat.tag va false x.seat.core).2 c (.walks [s.nextId])) := by
  show execInstructionFetchWalk c s = _
  simp only [execInstructionFetchWalk, hc, ha, hf]
  rfl

theorem crew?_toWaiting (w : Wait) (d : Nat) :
    (toWaiting s c w).crew? d = if d = c then some { x with state := .waiting, wait := w } else s.crew? d := by
  by_cases hd : d = c
  · subst hd
    simp [toWaiting, State.crew?_updCrew_self, crew?_leaveSets, hc]
  · simp [toWaiting, hd, crew?_leaveSets]

end

theorem toWaiting_rest (s : State) (c : Nat) (w : Wait) : (toWaiting s c w).walks = s.walks ∧ (toWaiting s c w).mem = s.mem := by
  have left : (leaveSets s c).walks = s.walks ∧ (leaveSets s c).mem = s.mem := by
    unfold leaveSets
    split <;> exact ⟨rfl, rfl⟩
  exact ⟨by simp [toWaiting, left.1], by simp [toWaiting, left.2]⟩

/-! ### Promotion and demotion (R86) -/

/-- The better victim of a demotion. -/
def demotes (s : State) (e b : Nat × Crew) : Prop :=
  crewClass s b.2 < crewClass s e.2 ∨ (crewClass s b.2 = crewClass s e.2 ∧ e.2.stamps.promoted < b.2.stamps.promoted)

theorem demotes_irrefl (s : State) (e : Nat × Crew) : ¬demotes s e e := by unfold demotes; omega

theorem demotes_trans (s : State) (a b c : Nat × Crew) (h : demotes s a b) (h' : demotes s b c) : demotes s a c := by
  unfold demotes at *; omega

/-- The active crews of a scheduler that have issued since their promotion. -/
def issuedSince (s : State) (g k : Nat) : List (Nat × Crew) :=
  (s.sched g k).active.filterMap fun c => (s.crew? c).bind fun x => if x.stamps.sincePromo then some (c, x) else none

theorem mem_issuedSince {s : State} {g k c : Nat} {x : Crew} : (c, x) ∈ issuedSince s g k ↔
    c ∈ (s.sched g k).active ∧ s.crew? c = some x ∧ x.stamps.sincePromo = true := by
  simp only [issuedSince, List.mem_filterMap, Option.bind_eq_some_iff, Option.ite_none_right_eq_some, Option.some.injEq, Prod.mk.injEq]
  constructor
  · rintro ⟨d, hd, x, hx, hp, rfl, rfl⟩
    exact ⟨hd, hx, hp⟩
  · rintro ⟨hd, hx, hp⟩
    exact ⟨c, hd, x, hx, hp, rfl, rfl⟩

/-- The victim of a demotion, where a crew has issued since its promotion. -/
theorem demotionVictim_spec {s : State} {g k : Nat} (h : ∃ d ∈ (s.sched g k).active, ∃ z, s.crew? d = some z ∧ z.stamps.sincePromo = true) :
    ∃ c x, demotionVictim s g k = some c ∧ c ∈ (s.sched g k).active ∧ s.crew? c = some x ∧ x.stamps.sincePromo = true ∧
      ∀ d ∈ (s.sched g k).active, ∀ z, s.crew? d = some z → z.stamps.sincePromo = true → ¬demotes s (d, z) (c, x) := by
  classical
  obtain ⟨d, hd, z, hz, hp⟩ := h
  have ne : issuedSince s g k ≠ [] := List.ne_nil_of_mem (mem_issuedSince.2 ⟨hd, hz, hp⟩)
  obtain ⟨⟨c, x⟩, hm⟩ := exists_foldl_keepBest (demotes_irrefl s) (demotes_trans s) ne
  obtain ⟨hmem, hbest⟩ := foldl_keepBest (demotes_irrefl s) (demotes_trans s) hm
  obtain ⟨hact, hx, hxp⟩ := mem_issuedSince.1 hmem
  refine ⟨c, x, ?_, hact, hx, hxp, fun d hd z hz hp => hbest (d, z) (mem_issuedSince.2 ⟨hd, hz, hp⟩)⟩
  have fold : demotionVictim s g k = ((issuedSince s g k).foldl (keepBest (demotes s)) none).map (·.1) := by
    refine congrArg (fun f : Option (Nat × Crew) → Nat × Crew → Option (Nat × Crew) =>
      ((issuedSince s g k).foldl f none).map Prod.fst) (funext fun best => funext fun e => ?_)
    cases best with
    | none => rfl
    | some b => exact if_congr Iff.rfl rfl rfl
  rw [fold, hm]
  rfl

/-! ### Pre-emption, kills and time (R76, R83, R321) -/

theorem MemOnly.coreCycle {s t : State} (h : MemOnly s t) (g : Nat) : t.coreCycle g = s.coreCycle g := by rw [← h.rest]; rfl

theorem sched_updCore {s : State} {g : Nat} {f : Core → Core} (hf : (f (s.core g)).scheds = (s.core g).scheds) (h t : Nat) :
    (s.updCore g f).sched h t = s.sched h t := by
  unfold State.sched
  rw [State.core_updCore]
  split
  · next e => rw [e, hf]
  · rfl

/-- A core without a crew's lines and register tiles. -/
def withoutCrew (c : Nat) (k : Core) : Core :=
  { k with
    rc := k.rc.filter (·.crew ≠ c)
    tiles := k.tiles.filter fun e => e.2.crew != some c }

section
variable {s : State} {c : Nat} {x : Crew} (hc : s.crew? c = some x)
include hc

/-- A crew SUSPENDED: out of both sets, its lines evictable (R83). -/
theorem suspendCrew_spec : (suspendCrew s c).crew? c = some { x with
      state := .suspended
      req := { x.req with pre := false }
      stamps := { x.stamps with suspended := s.coreCycle x.seat.core } } ∧
    (∀ l ∈ ((suspendCrew s c).core x.seat.core).rc, l.crew = c → l.evict = true) ∧
    c ∉ ((suspendCrew s c).sched x.seat.core x.seat.sched).active ∧ c ∉ ((suspendCrew s c).sched x.seat.core x.seat.sched).queue := by
  have saved : MemOnly s (((SMap.keys x.tags).foldl (fun s k => saveHold s c k) (saveControl s c))) :=
    (memOnly_saveControl s c).trans (.foldl (fun s k => memOnly_saveHold s c k) _ _)
  have hu := (saved.crew? c).trans hc
  have cycle := saved.coreCycle x.seat.core
  simp only [suspendCrew, hc]
  refine ⟨?_, ?_, ?_⟩
  · rw [State.crew?_updCore, State.crew?_updCrew_self, crew?_leaveSets, hu, ← cycle]
    rfl
  · rw [State.core_updCore_self]
    intro l hl hlc
    obtain ⟨l', -, rfl⟩ := List.mem_map.1 hl
    split at hlc
    · next h => rw [if_pos h]
    · next h => exact absurd hlc h
  · rw [sched_updCore (hf := ?scheds), sched_updCrew]
    · exact not_mem_leaveSets hu
    · rfl

theorem preemption_suspends (hp : x.req.pre = true) (hd : x.ctl.pdrem = none) (hb : x.req.budget = false) (hk : x.req.kill = none)
    (hs : x.state = .starting ∨ x.state = .ready ∨ x.state = .active ∨ x.state = .waiting) : exec (.preemption c) s =
      .next (suspendCrew (if x.state = .starting then s.updCrew c fun x => { x with wait := .control } else s) c) := by
  have may : preemptible x = true := by
    unfold preemptible
    rcases hs with h | h | h | h <;> simp [hp, hd, hb, hk, h]
  show execPreemption c s = _
  simp only [execPreemption, hc, may, if_true]

theorem kill_drains (hk : x.req.kill.isSome) (ha : x.state = .active) : exec (.kill c) s = .next (toDraining s c) := by
  show execKill c s = _
  simp [execKill, hc, hk, ha]

theorem predisBudget_ends {e : Nat} (he : x.ctl.pdrem = some e) (hn : e ≤ s.cycle (x.seat.core / 96)) : exec (.predisBudgetExpiry c) s =
    .next (s.updCrew c fun x => { x with ctl := { x.ctl with pdrem := none }, req := { x.req with budget := true } }) := by
  have ended : (x.ctl.pdrem.any fun e => decide (e ≤ x.cycle s)) = true := by
    rw [he]
    exact decide_eq_true hn
  show execPredisBudgetExpiry c s = _
  simp only [execPredisBudgetExpiry, hc, ended, if_true]

/-- A killed crew has its kill, and the state that follows. -/
theorem killCrew_killed (why : KillWhy) (r log : Bool) : CrewKilled c x (killCrew s c why r log) := by
  intro hk hd
  obtain ⟨u, hu, he⟩ := killCrew_asks hc hk hd why r log
  have logged : (if log then writeLog s x.seat.tag why x.seat.cpos else s).crew? c = some x := by
    split
    · exact (congrArg (SMap.find? · c) (writeLog_spec ..).1).trans hc
    · exact hc
  have asked : ((if log then writeLog s x.seat.tag why x.seat.cpos else s).updCrew c fun x =>
      { x with req := { x.req with kill := some why, relaunch := r } }).crew? c =
      some { x with req := { x.req with kill := some why, relaunch := r } } := by rw [State.crew?_updCrew_self, logged]; rfl
  obtain ⟨l, hy⟩ := hu.crews c _ asked
  rw [he]
  cases hs : x.state with
  | starting | suspended => exact ⟨_, crew?_toDraining hy, rfl, rfl⟩
  | waiting => exact ⟨_, crew?_toReady hy, rfl, rfl⟩
  | ready | active => exact ⟨_, hy, rfl, hs⟩
  | draining => exact absurd hs hd

theorem watchdog_kills {u : Context} (hu : s.ctx? x.seat.tag = some u) (hm : x.ctl.hmode = true) (hw : u.desc.wdog ≠ 0) (hs : x.state ≠ .suspended)
    (hd : x.state ≠ .draining) (hn : x.stamps.handler + 1750 * u.desc.wdog ≤ s.cycle (x.seat.core / 96)) :
    exec (.handlerWatchdog c) s = .next (killCrew s c ⟨5, 0, x.ctl.pc.toNat⟩ false true) := by
  have ended : watchdogOver s x = true := by
    have hn : x.stamps.handler + 1750 * u.desc.wdog ≤ x.cycle s := hn
    simp [watchdogOver, hu, hm, hw, hs, hd, hn]
  show execHandlerWatchdog c s = _
  simp only [execHandlerWatchdog, hc, ended, if_true]

/-! ### The end of a crew (R78, R288) -/

theorem crewDrained_ends (hs : x.state = .draining) (hq : x.sq = []) (ho : ∀ e ∈ s.ops, e.2.crew ≠ c) : ∃ t, exec (.crewDrained c) s = .next t ∧
    t.crew? c = none ∧ (∀ d, d ≠ c → t.crew? d = s.crew? d) ∧ t.mem = s.mem ∧ (∀ l ∈ (t.core x.seat.core).rc, l.crew ≠ c) ∧
    (∀ e ∈ (t.core x.seat.core).tiles, e.2.crew ≠ some c) ∧
    (∀ l, s.launch? x.seat.launch = some l →
      t.launch? x.seat.launch = some { l with images := l.images.filter (· ≠ x.seat.image) }) ∧
    ∀ gr, s.group? x.seat.group = some gr → t.group? x.seat.group = some { gr with
      crews := gr.crews.filter (· ≠ c)
      state := if gr.crews.filter (· ≠ c) = [] then .closing else gr.state } := by
  have drained : crewDrained s c x = true := by simpa [crewDrained, hs, hq] using fun a b h => ho (a, b) h
  show ∃ t, execCrewDrained c s = .next t ∧ _
  simp only [execCrewDrained, hc, drained, Bool.not_true, Bool.false_eq_true, if_false]
  refine ⟨_, rfl, SMap.find?_erase_self _ c, fun d hd => SMap.find?_erase_ne _ hd, rfl, fun l hl => ?_, fun e he => ?_, fun l hl => ?_,
    fun gr hg => ?_⟩
  · have hl : l ∈ ((s.updCore x.seat.core (withoutCrew c)).core x.seat.core).rc := hl
    rw [State.core_updCore_self] at hl
    simpa using (List.mem_filter.1 hl).2
  · have he : e ∈ ((s.updCore x.seat.core (withoutCrew c)).core x.seat.core).tiles := he
    rw [State.core_updCore_self] at he
    simpa using (List.mem_filter.1 he).2
  · show (s.launches.modify _ _).find? _ = _
    rw [SMap.find?_modify_self, show s.launches.find? x.seat.launch = some l from hl]
    rfl
  · show (s.groups.modify _ _).find? _ = _
    rw [SMap.find?_modify_self, show s.groups.find? x.seat.group = some gr from hg]
    simp only [Option.map_some, List.isEmpty_iff]

end

/-! ### The end of a group (R189, R288) -/

/-- Memory, the groups, convoys and launches, and the arrays of every core are as they were. -/
structure GroupsKept (s t : State) : Prop where
  mem : t.mem = s.mem
  groups : t.groups = s.groups
  convoys : t.convoys = s.convoys
  launches : t.launches = s.launches
  arrays : ∀ h, (t.core h).arrays = (s.core h).arrays

namespace GroupsKept
variable {s t u : State}

theorem of_cores (h : t.cores = s.cores) (hm : t.mem = s.mem) (hg : t.groups = s.groups) (hc : t.convoys = s.convoys)
    (hl : t.launches = s.launches) : GroupsKept s t := ⟨hm, hg, hc, hl, fun k => by simp only [State.core, h]⟩

theorem refl (s : State) : GroupsKept s s := .of_cores rfl rfl rfl rfl rfl

theorem trans (h : GroupsKept s t) (h' : GroupsKept t u) : GroupsKept s u :=
  ⟨h'.mem.trans h.mem, h'.groups.trans h.groups, h'.convoys.trans h.convoys, h'.launches.trans h.launches,
    fun k => (h'.arrays k).trans (h.arrays k)⟩

theorem foldl {α : Type} {f : State → α → State} (hf : ∀ s a, GroupsKept s (f s a)) (l : List α) (s : State) : GroupsKept s (l.foldl f s) := by
  induction l generalizing s with
  | nil => exact refl s
  | cons a l ih => exact (hf s a).trans (ih _)

theorem updCore {g : Nat} {f : Core → Core} (hf : (f (s.core g)).arrays = (s.core g).arrays) : GroupsKept s (s.updCore g f) := by
  refine ⟨rfl, rfl, rfl, rfl, fun h => ?_⟩
  rw [State.core_updCore]
  split
  · next e => rw [e, hf]
  · rfl

end GroupsKept

theorem groupsKept_wakeWaiters (s : State) (g n : Nat) : GroupsKept s (wakeWaiters s g n) := by
  have chains : GroupsKept s (wakeChains s g n (s.bar g n).state.code (s.bar g n) (s.bar g n).releases) := by
    unfold wakeChains
    dsimp only
    split
    · exact .refl s
    · exact .updCore (by rfl)
  unfold wakeWaiters
  refine GroupsKept.trans ?_ (.foldl (fun s w => ?_) _ _)
  · exact chains.trans (.updCore (by rfl))
  · split
    · unfold releaseWait
      split <;> exact .of_cores rfl rfl rfl rfl rfl
    · exact .refl s

theorem Arr.released_group (a : Arr) : a.released.group = none := by unfold Arr.released; split <;> rfl

theorem Arr.released_state (a : Arr) : a.released.state =
    if a.state = .storage ∨ a.state = .reefing then .clearing
    else if a.state = .settling ∨ a.state = .compute then .unreefing else a.state := by
  unfold Arr.released
  cases a.state <;> simp

/-- What a group's end leaves, and the arrays it held. -/
theorem releaseGroup_spec (s : State) (gi : Nat) (g : Group) : (releaseGroup s gi g).mem = s.mem ∧ (releaseGroup s gi g).groups = s.groups ∧
    (releaseGroup s gi g).convoys = s.convoys ∧ (releaseGroup s gi g).launches = s.launches ∧
    ∀ a, (releaseGroup s gi g).arr g.core a =
      if g.holds a ∧ (s.arr g.core a).group = some gi then (s.arr g.core a).released else s.arr g.core a := by
  have woken : GroupsKept s ((groupBars s g).foldl
      (fun s n => wakeWaiters (s.updBar g.core n fun b => { b with state := .idle }) g.core n) s) :=
    .foldl (fun s n => GroupsKept.trans (.updCore (by rfl)) (groupsKept_wakeWaiters ..)) _ _
  unfold releaseGroup
  generalize (groupBars s g).foldl (fun s n => wakeWaiters (s.updBar g.core n fun b => { b with state := .idle }) g.core n) s = u at woken
  refine ⟨woken.mem, woken.groups, woken.convoys, woken.launches, fun a => ?_⟩
  have mapped (m : SMap Arr) : (SMap.getD (m.map fun e => if g.holds e.1 ∧ e.2.group = some gi then (e.1, e.2.released) else e) a Arr.unheld) =
      if g.holds a ∧ (m.getD a Arr.unheld).group = some gi then (m.getD a Arr.unheld).released else m.getD a Arr.unheld := by
    have entry (e : Nat × Arr) : (if g.holds e.1 ∧ e.2.group = some gi then (e.1, e.2.released) else e) =
        (e.1, if g.holds e.1 ∧ e.2.group = some gi then e.2.released else e.2) := by split <;> rfl
    rw [SMap.getD, find?_map_entries (f := fun n x => if g.holds n ∧ x.group = some gi then x.released else x) entry, SMap.getD]
    cases m.find? a with
    | none => exact (if_neg (fun h => nomatch h.2)).symm
    | some x => rfl
  simp only [State.arr, State.core_updCore_self, ← woken.arrays]
  exact mapped _

/-- What a launch is after one of its convoys has ended (R289, R294). -/
def afterConvoy (v : Convoy) (l : Launch) : Launch :=
  let l := { l with live := l.live - 1 }
  if !v.failed then launchAfter l
  else if v.relaunch ∧ l.info.idem ∧ v.attempt = 0 ∧ (l.state = .dispatching ∨ l.state = .running) then
    { l with again := (v.cvid :: l.again).mergeSort (· ≤ ·), nrl := min 65535 (l.nrl + 1), state := .dispatching }
  else launchAfter (if l.state = .dispatching ∨ l.state = .running then { l with nfail := l.nfail + 1 } else l)

section
variable {v : Convoy} {l : Launch}

theorem launchAfter_running (h : l.state = .running) :
    launchAfter l = if l.live = 0 ∧ l.again = [] then { l with state := .ending, out := if l.nfail = 0 then 0 else 1 } else l := by
  simp only [launchAfter, h, List.isEmpty_iff]

theorem launchAfter_killing (h : l.state = .killing) : launchAfter l = if l.live = 0 then { l with state := .ending } else l := by
  simp only [launchAfter, h]

theorem afterConvoy_done (hs : l.state = .running) (hf : v.failed = false) : afterConvoy v l =
    if l.live - 1 = 0 ∧ l.again = [] then { l with live := l.live - 1, state := .ending, out := if l.nfail = 0 then 0 else 1 }
    else { l with live := l.live - 1 } := by
  simp only [afterConvoy, hf, Bool.not_false, if_true, launchAfter_running (l := { l with live := l.live - 1 }) hs]

theorem afterConvoy_again (hs : l.state = .running ∨ l.state = .dispatching) (hf : v.failed = true)
    (ha : (v.relaunch && l.info.idem && v.attempt == 0) = true) : ∃ a, a.Perm (v.cvid :: l.again) ∧ a.Pairwise (· ≤ ·) ∧
      afterConvoy v l = { l with live := l.live - 1, again := a, nrl := min 65535 (l.nrl + 1), state := .dispatching } := by
  simp only [Bool.and_eq_true, beq_iff_eq] at ha
  obtain ⟨⟨hr, hi⟩, h0⟩ := ha
  refine ⟨(v.cvid :: l.again).mergeSort (· ≤ ·), List.mergeSort_perm _ _, ?_, ?_⟩
  · exact (List.pairwise_mergeSort (fun a b c h h' => by simp only [decide_eq_true_eq] at *; omega)
      (fun a b => by simp only [Bool.or_eq_true, decide_eq_true_eq]; omega) _).imp (by simp)
  · simp only [afterConvoy, hf, Bool.not_true, Bool.false_eq_true, if_false]
    rw [if_pos ⟨hr, hi, h0, hs.symm⟩]

/-- The convoy is not placed again. -/
theorem afterConvoy_fails (hs : l.state = .running) (hf : v.failed = true) (ha : (v.relaunch && l.info.idem && v.attempt == 0) = false) :
    afterConvoy v l = if l.live - 1 = 0 ∧ l.again = [] then { l with live := l.live - 1, nfail := l.nfail + 1, state := .ending, out := 1 }
      else { l with live := l.live - 1, nfail := l.nfail + 1 } := by
  have no : ¬(v.relaunch = true ∧ l.info.idem = true ∧ v.attempt = 0 ∧ (l.state = .dispatching ∨ l.state = .running)) := by
    rintro ⟨hr, hi, h0, -⟩
    simp [hr, hi, h0] at ha
  simp only [afterConvoy, hf, Bool.not_true, Bool.false_eq_true, if_false]
  rw [if_neg no, if_pos (.inr hs), launchAfter_running (l := { l with live := l.live - 1, nfail := l.nfail + 1 }) hs]
  simp only [Nat.add_eq_zero_iff, one_ne_zero, and_false, if_false]

theorem afterConvoy_killing (hs : l.state = .killing) :
    afterConvoy v l = if l.live - 1 = 0 then { l with live := l.live - 1, state := .ending } else { l with live := l.live - 1 } := by
  have after := launchAfter_killing (l := { l with live := l.live - 1 }) hs
  have no : ¬(l.state = .dispatching ∨ l.state = .running) := by simp [hs]
  simp only [afterConvoy, no, and_false, if_false, ite_self, after]

end

theorem endConvoy_launch {s : State} {vi : Nat} {v : Convoy} {l : Launch} (hl : s.launch? v.launch = some l) :
    (endConvoy s vi v).launch? v.launch = some (afterConvoy v l) := by
  show (s.launches.modify v.launch (afterConvoy v)).find? v.launch = _
  rw [SMap.find?_modify_self, show s.launches.find? v.launch = some l from hl]
  rfl

/-- A convoy with one more of its groups gone. -/
def convoyFreed (v : Convoy) (g : Group) : Convoy :=
  { v with freed := g.gid :: v.freed, failed := v.failed || g.broke, relaunch := v.relaunch && g.relaunch }

theorem retireCluster_kept (s : State) (tag cl : Nat) : GroupsKept s (retireCluster s tag cl) := by
  unfold retireCluster
  split
  · exact .refl s
  · exact .of_cores rfl rfl rfl rfl rfl

/-- GROUP_FREE of a group with nothing outstanding. -/
theorem groupFree_ends {s : State} {gi : Nat} {gr : Group} {v : Convoy} (hg : s.group? gi = some gr) (hs : gr.state = .closing)
    (hch : ∀ e ∈ (s.core gr.core).chains, e.2.group ≠ gi) (hp : peersPending s gr = false) (hv : s.convoy? gr.convoy = some v) :
    ∃ u, exec (.groupFree gi) s = .next (if v.freed.length + 1 = v.groups.length then endConvoy u gr.convoy (convoyFreed v gr) else u) ∧
      u.groups = s.groups.erase gi ∧ u.mem = s.mem ∧ u.launches = s.launches ∧ u.convoy? gr.convoy = some (convoyFreed v gr) ∧
      ∀ a, u.arr gr.core a =
        if gr.holds a ∧ (s.arr gr.core a).group = some gi then (s.arr gr.core a).released else s.arr gr.core a := by
  have done : groupDone s gi gr = true := by simpa [groupDone, hs, hp] using fun a b h => hch (a, b) h
  obtain ⟨hmem, hgroups, hconvoys, hlaunches, harr⟩ := releaseGroup_spec s gi gr
  let r : State := { releaseGroup s gi gr with groups := (releaseGroup s gi gr).groups.erase gi }
  have kept := retireCluster_kept r gr.tag (clusterOf gr.core)
  have convoy : ((retireCluster r gr.tag (clusterOf gr.core)).updConvoy gr.convoy (convoyFreed · gr)).convoy? gr.convoy =
      some (convoyFreed v gr) := by
    show ((retireCluster r gr.tag (clusterOf gr.core)).convoys.modify _ _).find? _ = _
    rw [SMap.find?_modify_self, kept.convoys, show r.convoys = s.convoys from hconvoys, show s.convoys.find? gr.convoy = some v from hv]
    rfl
  refine ⟨(retireCluster r gr.tag (clusterOf gr.core)).updConvoy gr.convoy (convoyFreed · gr), ?_, ?_, kept.mem.trans hmem,
    kept.launches.trans hlaunches, convoy, fun a => ?_⟩
  · show execGroupFree gi s = _
    simp only [execGroupFree, hg, done, Bool.not_true, Bool.false_eq_true, if_false]
    split
    · next v' h =>
      cases (show some v' = some (convoyFreed v gr) from h.symm.trans convoy)
      rfl
    · next h => exact absurd (show none = some (convoyFreed v gr) from h.symm.trans convoy) nofun
  · exact kept.groups.trans (congrArg (SMap.erase · gi) hgroups)
  · exact (congrArg (SMap.getD · a Arr.unheld) (kept.arrays gr.core)).trans (harr a)

/-! ### The statement -/

theorem crewPromotion_promotes {s : State} {g k c : Nat} {tl : List Nat} {x : Crew} (hq : (s.sched g k).queue = c :: tl)
    (hl : (s.sched g k).active.length < 8) (hc : s.crew? c = some x) :
    ∃ t, exec (.crewPromotion g k) s = .next t ∧ t.sched g k = ⟨(s.sched g k).active ++ [c], tl, s.cycle (g / 96)⟩ ∧
      t.crew? c = some { x with state := .active, stamps := { x.stamps with promoted := s.cycle (g / 96), sincePromo := false } } ∧
      (∀ d, d ≠ c → t.crew? d = s.crew? d) ∧ t.mem = s.mem := by
  have free : (s.sched g k).active.length < activeSlots := hl
  show ∃ t, execCrewPromotion g k s = .next t ∧ _
  simp only [execCrewPromotion, hq, free, if_true]
  refine ⟨_, rfl, ?_, ?_, fun d hd => ?_, ?_⟩
  · rw [sched_updCrew, sched_updSched_self]
    rfl
  · rw [State.crew?_updCrew_self, State.crew?_updSched, hc]
    rfl
  · rw [State.crew?_updCrew_ne _ _ hd, State.crew?_updSched]
  · exact State.updCrew_mem ..

theorem forcedDemotion_demotes {s : State} {g k : Nat} (hq : (s.sched g k).queue ≠ []) (hl : 8 ≤ (s.sched g k).active.length)
    (hn : (s.sched g k).headAt + 256 ≤ s.cycle (g / 96)) {c : Nat} (hv : demotionVictim s g k = some c) :
    exec (.forcedDemotion g k) s = .next (toReady s c) := by
  have due : ((s.sched g k).queue.isEmpty || decide ((s.sched g k).active.length < activeSlots) ||
      decide (s.coreCycle g < (s.sched g k).headAt + 256)) = false := by
    have hl : ¬(s.sched g k).active.length < activeSlots := Nat.not_lt.2 hl
    have hn : ¬s.coreCycle g < (s.sched g k).headAt + 256 := Nat.not_lt.2 hn
    simp [hq, hl, hn]
  show execForcedDemotion g k s = _
  simp only [execForcedDemotion, due, Bool.false_eq_true, if_false, hv]

/-- A wait of a STARTING crew is that for its control line. -/
theorem suspended_wait {s : State} {c : Nat} {x : Crew} (hc : s.crew? c = some x) :
    (if x.state = .starting then s.updCrew c fun x => { x with wait := .control } else s).crew? c =
        some { x with wait := if x.state = .starting then .control else x.wait } ∧
      (if x.state = .starting then s.updCrew c fun x => { x with wait := .control } else s).coreCycle x.seat.core =
        s.coreCycle x.seat.core := by
  split
  · refine ⟨by rw [State.crew?_updCrew_self, hc]; rfl, ?_⟩
    rw [updCrew_of hc]
    rfl
  · exact ⟨hc, rfl⟩

/-- Settles O55: one lemma for each step of a crew, of its group and of its convoy. -/
theorem crewsComeAndGo : Obligations.CrewsComeAndGo := by
  unfold Obligations.CrewsComeAndGo
  refine ⟨fun s g t c h => ?issue, fun s c x ls hc hclean hs hl => ?fill, fun s c x hc ha va hva => ?fetch,
    fun s g k c tl x hq hl hc => crewPromotion_promotes hq hl hc, fun s g k hq hl hn hex => ?demote, fun s c x hc hp hd hb hk hs => ?suspend,
    fun s c x hc hk ha => ?kill, fun s c x e hc he hn => predisBudget_ends hc he hn, fun s c x u hc hu hm hw hs hd hn => ?watchdog,
    fun s c x hc hs hq ho => crewDrained_ends hc hs hq ho, fun s gi gr v l hg hs hch hp hv hl => ?group⟩
  case issue =>
    obtain ⟨x, hact, hx, ha, hleast⟩ := issuer_least h
    exact ⟨x, hact, hx, ha, fun d hd z hz hza hu hf => issueRank_least (hleast d hd z hz hza hu hf)⟩
  case fill =>
    have here : Fills c x s := ⟨⟨x, hc, rfl, rfl, rfl⟩, hclean⟩
    rcases hs with ⟨hs, rfl⟩ | ⟨hs, hwait⟩
    · obtain ⟨hn, hw, hm⟩ := hl _ (List.mem_singleton.2 rfl)
      obtain ⟨hf, hhas, -⟩ := fills_fillRc here hn (need := [x.seat.nv + 2])
      obtain ⟨y, hy⟩ := fills_ready hf (ls := [x.seat.nv + 2]) fun n h => List.mem_singleton.1 h ▸ hhas
      exact ⟨_, y, regcacheFill_control hc hs hw hm, hy⟩
    · obtain ⟨hf, hhas⟩ := fills_foldl here (need := ls) fun n hn => ⟨hn, (hl n hn).1⟩
      obtain ⟨y, hy⟩ := fills_ready hf (ls := ls) fun n hn => hhas n (.inl hn)
      exact ⟨_, y, regcacheFill_lines hc hs hwait fun n hn => (hl n hn).2, hy⟩
  case fetch =>
    have hu : (startWalk s (.fetch c) x.seat.tag va false x.seat.core).2.crew? c = some x := hc
    obtain ⟨hwalks, hmem⟩ := toWaiting_rest (startWalk s (.fetch c) x.seat.tag va false x.seat.core).2 c (.walks [s.nextId])
    refine ⟨_, _, instructionFetchWalk_walks hc ha (fetch_walk hva), (crew?_toWaiting hu _ c).trans (if_pos rfl), rfl, rfl, rfl, rfl, ?_, hmem,
      fun d hd => (crew?_toWaiting hu _ d).trans (if_neg hd)⟩
    rw [hwalks]
    exact SMap.find?_insert_self ..
  case demote =>
    obtain ⟨c, x, hv, hact, hx, hp, hbest⟩ := demotionVictim_spec hex
    refine ⟨c, x, hact, hx, hp, forcedDemotion_demotes hq hl hn hv, crew?_toReady hx, (sched_toReady hx).2, fun d hd z hz hzp => ?_⟩
    have worse := hbest d hd z hz hzp
    unfold demotes at worse
    dsimp only at worse
    omega
  case suspend =>
    obtain ⟨hx, hcycle⟩ := suspended_wait hc
    obtain ⟨hy, hlines, hact, hqueue⟩ := suspendCrew_spec hx
    exact ⟨_, _, preemption_suspends hc hp hd hb hk hs, hy, rfl, rfl, rfl, rfl, rfl, rfl, rfl, hcycle, hlines, hact, hqueue⟩
  case kill =>
    obtain ⟨-, -, -, hmem, -⟩ := (elsewhere_toDraining s c).fields
    exact ⟨_, kill_drains hc hk ha, crew?_toDraining hc, (sched_toDraining hc).1, hmem, (elsewhere_toDraining s c).crews⟩
  case watchdog => exact ⟨_, watchdog_kills hc hu hm hw hs hd hn, killCrew_killed hc _ _ _⟩
  case group =>
    obtain ⟨u, he, hgroups, hmem, hlaunches, hconvoy, harr⟩ := groupFree_ends hg hs hch hp hv
    have gone {w : State} (hw : w.groups = u.groups) : w.group? gi = none ∧ ∀ hi, hi ≠ gi → w.group? hi = s.group? hi := by
      simp only [State.group?, hw, hgroups]
      exact ⟨SMap.find?_erase_self _ gi, fun hi hne => SMap.find?_erase_ne _ hne⟩
    have arrays {w : State} (hw : w.cores = u.cores) (a : Nat) (hh : gr.holds a = true) (ho : (s.arr gr.core a).group = some gi) :
        (w.arr gr.core a).group = none ∧ (w.arr gr.core a).state = match (s.arr gr.core a).state with
          | .storage | .reefing => .clearing
          | .settling | .compute => .unreefing
          | k => k := by
      have released : w.arr gr.core a = (s.arr gr.core a).released := by
        rw [show w.arr gr.core a = u.arr gr.core a by simp only [State.arr, State.core, hw], harr, if_pos ⟨hh, ho⟩]
      rw [released]
      refine ⟨Arr.released_group _, (Arr.released_state _).trans ?_⟩
      cases (s.arr gr.core a).state <;> rfl
    have launch : u.launch? (convoyFreed v gr).launch = some l := (congrArg (SMap.find? · v.launch) hlaunches).trans hl
    by_cases hlast : v.freed.length + 1 = v.groups.length
    · rw [if_pos hlast] at he
      obtain ⟨hnone, hother⟩ := gone (w := endConvoy u gr.convoy (convoyFreed v gr)) rfl
      refine ⟨_, he, hnone, hmem, hother, arrays rfl, fun hne => absurd hlast hne, fun _ => ⟨SMap.find?_erase_self _ _, ?_⟩⟩
      have ended := endConvoy_launch (vi := gr.convoy) launch
      refine ⟨fun hr hf => ended.trans (congrArg some (afterConvoy_done hr hf)), fun hr hf ha => ?_,
        fun hr hf ha => ended.trans (congrArg some (afterConvoy_fails hr hf ha)), fun hk => ended.trans (congrArg some (afterConvoy_killing hk))⟩
      obtain ⟨a, hperm, hsorted, hagain⟩ := afterConvoy_again hr (v := convoyFreed v gr) hf ha
      exact ⟨a, hperm, hsorted, ended.trans (congrArg some hagain)⟩
    · rw [if_neg hlast] at he
      obtain ⟨hnone, hother⟩ := gone (w := u) rfl
      exact ⟨u, he, hnone, hmem, hother, arrays rfl, fun _ => ⟨launch, hconvoy⟩, fun h => absurd h hlast⟩

end Sys2Proof.Machine
end

section
/-!
PROOF that a load which names no part, while a byte it has still to take belongs to one, completes without that byte (R383).
-/
namespace Sys2Proof.Machine

/-- A scalar load of byte 0 of array 0 of core 0, which it has still to take, but with no part left to return. -/
def partlessLoad : LoadOp :=
  { ty := .n8, scalar := true, dst := some (.s 0), accs := [⟨0, 0, [.win 0 0 0]⟩], got := [], lines := [], acq := none, done := false, busy := []
    bad := [], pc := 0, ch := 0, watch := false, parts := [], zero := [] }

/-- The tag of that load. -/
def loadTag : TagRec := ⟨some 7, 0, {}, [(false, 0)], false⟩

/-- The loaded crew with that load in flight, as operation 7, under tag 1. -/
def loadingCrew : Crew := { loadedCrew 0 2 with tags := [(1, loadTag)] }

/-- The load in flight; the byte holds 1. -/
def partlessState : State :=
  let s := (loadProgram State.reset).setCrew 3 loadingCrew
  { s.updArr 0 0 (fun a => { a with state := .storage, group := some 2, cells := [(0, 1)] }) with ops := [(7, ⟨3, 1, false, 0, .load partlessLoad⟩)] }

/-- What a tag of a crew holds after a step. -/
def heldAfter (c k : Nat) : Host.Outcome State Fault Refusal → Option Held
  | .next t => ((t.crew? c).bind fun x => x.tags.find? k).map (·.held)
  | _ => none

/-- Refutes O37: LOAD_DATA_ARRIVE takes the bytes of no part, and the one byte of the load belongs to core 0's, so it reads as 0. A load issues with
the parts of its places; the statement does not ask for that. -/
theorem not_fillsAndLoadsReturn : ¬ Obligations.FillsAndLoadsReturn := by
  unfold Obligations.FillsAndLoadsReturn
  rintro ⟨-, -, h, -⟩
  obtain ⟨-, hlast, -⟩ := h partlessState 7 3 1 false 0 partlessLoad loadingCrew rfl rfl rfl nofun rfl rfl (by decide +kernel) (by
    intro h a n hp
    cases List.mem_singleton.1 (show Place.win h a n ∈ [Place.win 0 0 0] from hp)
    decide +kernel)
  obtain ⟨t, y, he, hy, -, -, -, -, -, htag⟩ := hlast loadTag (by decide) rfl rfl rfl (by decide) (.inl rfl) (by decide +kernel)
  have said : heldAfter 3 1 (exec (.loadDataArrive 7) partlessState) = some { regs := [.s 0 false 1] } := by
    rw [he]
    simp only [heldAfter, hy, Option.bind_some, htag, Option.map_some]
    decide +kernel
  have done : heldAfter 3 1 (exec (.loadDataArrive 7) partlessState) = some { regs := [.s 0 false 0] } := by decide +kernel
  rw [done] at said
  exact absurd said (by decide)

end Sys2Proof.Machine
end

section
/-!
PROOF of the integer vector instructions (R105, R108): each gives its result by the common form of a vector result.
-/
namespace Sys2Proof.Machine

/-! ### The common forms of an integer vector result (R105, R108) -/

section
variable {i : Instr} {s : State} {x : Crew} (h : Ready i s x)
include h

/-- A result by lane at a width. -/
theorem gives_vectorResult {w : Nat} {d : Reg} {f : Nat → Nat} {eff : Iss → State → Effect} (he : exec i s = run i eff s)
    (hd : eff (issOf i s x) (issued i s x) = vectorResult (issOf i s x) (issued i s x) w d f) : Gives i s x (resV x w d f) :=
  gives_of h rfl he hd

/-- An operation on two values of the type. -/
theorem gives_vectorBin {o : Bin} {f : Int → Int → Int} (he : exec i s = vectorBin i o f s) :
    Gives i s x (resV x (tyWidth o.ty) o.d fun l => wrap (tyWidth o.ty) (f (srcLT x o.ty o.a l) (srcLT x o.ty o.b l))) :=
  gives_vectorResult h he rfl

/-- An operation on a value of the type and an unsigned value of its width. -/
theorem gives_vectorShift {o : Bin} {f : Nat → Int → Nat → Int} (he : exec i s = vectorShift i o f s) :
    Gives i s x (resV x (tyWidth o.ty) o.d fun l =>
      wrap (tyWidth o.ty) (f (tyWidth o.ty) (srcLT x o.ty o.a l) (srcL x (tyWidth o.ty) o.b l))) :=
  gives_vectorResult h he rfl

/-- An operation on one value of the type. -/
theorem gives_vectorUn {o : Un} {f : Nat → Int → Int} (he : exec i s = vectorUn i o f s) :
    Gives i s x (resV x (tyWidth o.ty) o.d fun l => wrap (tyWidth o.ty) (f (tyWidth o.ty) (srcLT x o.ty o.a l))) :=
  gives_vectorResult h he rfl

end

/-- Settles O21: each instruction is a common form, with its operation as R108 states it. -/
theorem vectorIntegerResults : Obligations.VectorIntegerResults := by
  unfold Obligations.VectorIntegerResults
  refine ⟨fun p hp h o s x hr => ?two, fun p hp h o s x hr => ?shift, fun p hp h o s x hr => ?one,
    fun h o s x hr => gives_vectorResult hr rfl rfl, fun h o s x hr => ?vsel, fun h o s x hr => ?vbcast,
    fun h o s x hr => gives_vectorResult hr rfl rfl⟩
  case two =>
    refine gives_vectorBin hr (f := p.2 o.ty) ?_
    simp only [List.mem_cons, List.not_mem_nil, or_false] at hp
    rcases hp with rfl | rfl | rfl | rfl | rfl | rfl | rfl | rfl | rfl | rfl | rfl
    · rfl
    · rfl
    · rfl
    · rfl
    · simp only [← min_def]; rfl
    · simp only [← max_def]; rfl
    · rfl
    · rfl
    · rfl
    · simp only [← sat_eq_max_min (tyLo_le_tyHi o.ty)]; rfl
    · simp only [← sat_eq_max_min (tyLo_le_tyHi o.ty)]; rfl
  case shift =>
    refine gives_vectorShift hr (f := p.2) ?_
    simp only [List.mem_cons, List.not_mem_nil, or_false] at hp
    rcases hp with rfl | rfl | rfl
    · rfl
    · rfl
    · simp only [vectorShift, ← shiftArith_eq (tyWidth_pos o.ty)]; rfl
  case one =>
    refine gives_vectorUn hr (f := p.2) ?_
    simp only [List.mem_cons, List.not_mem_nil, or_false] at hp
    rcases hp with rfl | rfl | rfl | rfl | rfl <;> rfl
  case vsel =>
    refine gives_vectorResult hr rfl (congrArg (vectorResult _ _ _ _) (funext fun l => congrArg (wrap _) ?_))
    exact apply_ite (fun r => srcLT x o.ty r l) _ _ _
  case vbcast => exact gives_vectorResult hr rfl (by simp only [scalarN_issued hr]; rfl)

end Sys2Proof.Machine
end

section
/-!
PROOF of the compares that write a mask (R80, R109, R111) and of VFCLASS (R112): the crew as the mask leaves it, and how a compare ends with its
tag or its flags.
-/
namespace Sys2Proof.Machine

/-! ### Sets of lanes -/

theorem getLsbD_lanesMask (ls : List Nat) {l : Nat} (hl : l < 128) : (lanesMask ls).getLsbD l = ls.contains l := by
  have bit (k : Nat) : (BitVec.ofNat 128 (2 ^ k)).getLsbD l = (l == k) := by
    rw [BitVec.getLsbD_ofNat, Nat.testBit_two_pow, decide_eq_true hl, Bool.true_and, Bool.eq_iff_iff, decide_eq_true_iff, beq_iff_eq, eq_comm]
  have fold (m : Mask) : (ls.foldl (fun m i => m ||| BitVec.ofNat 128 (2 ^ i)) m).getLsbD l = (m.getLsbD l || ls.contains l) := by
    induction ls generalizing m with
    | nil => simp
    | cons k t ih => rw [List.foldl_cons, ih, BitVec.getLsbD_or, bit, List.contains_cons, Bool.or_assoc]
  exact (fold 0).trans (by simp)

theorem getLsbD_compareMask (em : Mask) (f : Nat → Bool) {l : Nat} (hl : l < 128) :
    (compareMask em f).getLsbD l = (em.getLsbD l && f l) := by
  rw [compareMask, getLsbD_lanesMask _ hl, Bool.eq_iff_iff]
  simp [mem_activeLanes, hl]

/-! ### How a compare ends (R80, R89) -/

/-- The registers a compare leaves: with no lane active it writes nothing. -/
def comparedRegs (x : Crew) (d : Reg) (m : Mask) : RegFile := if x.ctl.em = 0 then x.rf else (x.setMask d m).rf

/-- The crew as it was issued, with registers `rf`. -/
def issuedWith (s : State) (x : Crew) (rf : RegFile) : Crew := { issuedCrew s x with rf := rf }

/-- Writing the mask of a compare changes the crew only. -/
theorem putCompare_elsewhere (i : Instr) (s : State) (x : Crew) (d : Reg) (m : Mask) :
    Elsewhere s.cur (issued i s x) (putCompare (issOf i s x) (issued i s x) d m) := by
  unfold putCompare
  split
  · exact Elsewhere.refl _ _
  · exact elsewhere_updCrew _ _ _

section
variable {i : Instr} {s : State} {x : Crew} (h : Ready i s x)
include h

/-- In the state in which the mask of a compare is written the crew has the registers the compare leaves. -/
theorem putCompare_crew (d : Reg) (m : Mask) :
    (putCompare (issOf i s x) (issued i s x) d m).crew? s.cur = some (issuedWith s x (comparedRegs x d m)) := by
  by_cases hem : x.ctl.em = 0
  · have same : putCompare (issOf i s x) (issued i s x) d m = issued i s x := if_pos hem
    rw [same, comparedRegs, if_pos hem]
    exact issued_crew h
  · have put : putCompare (issOf i s x) (issued i s x) d m = (issued i s x).updCrew s.cur fun y => y.setMask d m := if_neg hem
    rw [put, comparedRegs, if_neg hem, State.crew?_updCrew_self, issued_crew h, Option.map_some]
    refine congrArg some ?_
    unfold issuedWith Crew.setMask
    split <;> rfl

section
variable {t : State} {rf : RegFile} (hc : t.crew? s.cur = some (issuedWith s x rf)) (he : Elsewhere s.cur (issued i s x) t)
  {eff : Iss → State → Effect} (hx : exec i s = run i eff s)
include hc he hx

/-- An instruction that has left registers `rf` and allots its tag. -/
theorem ends_of_tag {r : TagRec} (hd : eff (issOf i s x) (issued i s x) = .done (t.updCrew s.cur fun y => allocTag y i.hdr.tag.toNat r)) :
    Ends i s x rf (nextPc x) (some r) := by
  have kept := issuedCrew_kept h
  refine ends_of_done h rfl hx hd (he.trans (elsewhere_updCrew _ _ _)) (y := allocTag (issuedWith s x rf) i.hdr.tag.toNat r)
    (by rw [State.crew?_updCrew_self, hc, Option.map_some]) rfl rfl ?_ kept
    fun k hk => (allocTag_find_ne _ _ hk).trans (issuedCrew_tags s x k)
  rintro r ⟨⟩ _
  exact allocTag_find_self _ _ _

/-- An instruction that has left registers `rf` ends with its tag complete. -/
theorem sets_of_giveTag (hd : eff (issOf i s x) (issued i s x) = .done (giveTag (issOf i s x) t)) : Sets i s x rf (nextPc x) := by
  have kept := issuedCrew_kept h
  by_cases ht : i.hdr.tag = 0
  · rw [show giveTag (issOf i s x) t = t from if_pos ht] at hd
    exact ends_of_done h rfl hx hd he hc rfl rfl (fun _ _ hn => absurd ht hn) kept fun k _ => issuedCrew_tags s x k
  · exact ends_of_tag h hc he hx (hd.trans (congrArg Effect.done (if_neg ht)))

/-- An instruction that has left registers `rf` ends with its flags: written with TAG 0, held under the tag otherwise. -/
theorem ends_of_giveFlags {fl : Word} (hd : eff (issOf i s x) (issued i s x) = .done (giveShort (issOf i s x) t { fp := fl })) :
    if i.hdr.tag = 0 then Ends i s x rf { nextPc x with fpst := x.ctl.fpst ||| fl } none
    else Ends i s x rf (nextPc x) (some ⟨none, i.hdr.look.toNat, { fp := fl }, dstRegs i, false⟩) := by
  have kept := issuedCrew_kept h
  split
  · next ht =>
    have written : giveShort (issOf i s x) t { fp := fl } =
        staleTiles (t.updCrew s.cur fun y => { y with ctl := { y.ctl with fpst := y.ctl.fpst ||| fl } }) s.cur [] none := if_pos ht
    refine ends_of_done h rfl hx (hd.trans (congrArg Effect.done written)) (he.trans ((elsewhere_updCrew _ _ _).trans (elsewhere_stale _ _ _ _)))
      (y := { issuedWith s x rf with ctl := { nextPc x with fpst := x.ctl.fpst ||| fl } }) ?_ rfl rfl nofun kept
      fun k _ => issuedCrew_tags s x k
    rw [crew?_staleTiles, State.crew?_updCrew_self, hc, Option.map_some]
    rfl
  · next ht => exact ends_of_tag h hc he hx (hd.trans (congrArg Effect.done (if_neg ht)))

end

end

/-- Settles O22: the mask of the active lanes where the condition holds. -/
theorem vectorCompareWritesMask : Obligations.VectorCompareWritesMask := by
  unfold Obligations.VectorCompareWritesMask
  intro h o s x hr
  exact ⟨_, sets_of_giveTag hr (putCompare_crew hr _ _) (putCompare_elsewhere _ _ _ _ _) rfl rfl, fun l hl => getLsbD_compareMask _ _ hl⟩

/-! ### The flags of a compare (R66, R107, R111) -/

/-- A lane that may raise NV, against the enables: bit 9 of FPST is that of NV. -/
theorem nv_enabled (fpst : Word) (b : Bool) :
    (if b then flNV else 0) &&& bits fpst.toNat 9 5 = if b && fpst.getLsbD 9 then flNV else 0 := by
  have bit : (bits fpst.toNat 9 5).testBit 4 = fpst.getLsbD 9 := by
    rw [bits, Nat.testBit_mod_two_pow, Nat.testBit_div_two_pow]
    rfl
  cases b with
  | false => exact Nat.zero_and _
  | true =>
    show 2 ^ 4 &&& _ = _
    rw [Nat.and_comm, Nat.and_two_pow, bit]
    cases fpst.getLsbD 9 <;> rfl

/-- The or of one flag over the lanes that raise it. -/
theorem foldl_or_ite {α : Type} (p : α → Bool) (n : Nat) (ls : List α) (t : Nat) :
    ls.foldl (fun t l => t ||| if p l then n else 0) t = if ls.filter p = [] then t else t ||| n := by
  induction ls generalizing t with
  | nil => rfl
  | cons a ls ih =>
    rw [List.foldl_cons, ih, List.filter_cons]
    cases p a
    · simp only [Bool.false_eq_true, if_false, Nat.or_zero]
    · simp only [if_true, List.cons_ne_nil, if_false, Nat.or_assoc, Nat.or_self, ite_self]

/-- How a result whose lanes may raise NV and nothing else ends. -/
theorem floatFlags_nv (i : Iss) (nv : Nat → Bool) : let bad := (activeLanes i.em).filter nv
    floatFlags i (fun l => if nv l then flNV else 0) =
      if bad ≠ [] ∧ i.x.ctl.fpst.getLsbD 9 = true then .error ⟨0x11, lanesMask bad, 16⟩ else .ok (if bad = [] then 0 else flNV) := by
  intro bad
  have raise (b : Bool) : ((if b then flNV else 0) != 0) = b := by cases b <;> rfl
  unfold floatFlags
  simp only [nv_enabled, raise, foldl_or_ite, Nat.zero_or]
  cases i.x.ctl.fpst.getLsbD 9 with
  | false => simp [bad]
  | true =>
    by_cases hb : bad = []
    · simp [bad, hb]
    · simp [bad, hb, List.filter_filter, flNV]

section
variable {i : Instr} {s : State} {x : Crew} (h : Ready i s x) {d : Reg} {f : Nat → Bool × Nat} {nv : Nat → Bool}
  (hf : ∀ l, (f l).2 = if nv l then flNV else 0) {eff : Iss → State → Effect} (he : exec i s = run i eff s)
  (hd : eff (issOf i s x) (issued i s x) = maskFloat (issOf i s x) (issued i s x) d f)
include h hf he hd

/-- A floating compare raises FP_EXCEPTION, or leaves its mask and its flags. -/
theorem ends_of_maskFloat : let bad := (List.range 128).filter fun l => x.ctl.em.getLsbD l && nv l
    if bad ≠ [] ∧ x.ctl.fpst.getLsbD 9 = true then Traps i s x ⟨0x11, lanesMask bad, 16⟩
    else
      let fl : Word := if bad = [] then 0 else 16
      let rf := comparedRegs x d (compareMask x.ctl.em fun l => (f l).1)
      if i.hdr.tag = 0 then Ends i s x rf { nextPc x with fpst := x.ctl.fpst ||| fl } none
      else Ends i s x rf (nextPc x) (some ⟨none, i.hdr.look.toNat, { fp := fl }, dstRegs i, false⟩) := by
  intro bad
  have lanes : (activeLanes (issOf i s x).em).filter nv = bad := by
    rw [activeLanes, List.filter_filter]
    exact List.filter_congr fun l _ => Bool.and_comm _ _
  have flags := floatFlags_nv (issOf i s x) nv
  rw [lanes] at flags
  unfold maskFloat at hd
  simp only [hf] at hd
  by_cases hb : bad ≠ [] ∧ x.ctl.fpst.getLsbD 9 = true
  · simp only [flags.trans (if_pos hb)] at hd
    rw [if_pos hb]
    exact traps_of h rfl he hd
  · simp only [flags.trans (if_neg hb)] at hd
    have word : BitVec.ofNat 32 (if bad = [] then 0 else flNV) = if bad = [] then 0 else 16 := by split <;> rfl
    rw [if_neg hb, ← word]
    exact ends_of_giveFlags h (putCompare_crew h _ _) (putCompare_elsewhere _ _ _ _ _) he hd

end

/-! ### The statement -/

/-- The class word has one bit. -/
theorem fclass_two_pow (f : FFmt) (a : Nat) : ∃ j < 10, fclass f a = 2 ^ j := by
  unfold fclass
  split
  · exact ⟨8, by decide, rfl⟩
  · exact ⟨9, by decide, rfl⟩
  · exact ⟨0, by decide, rfl⟩
  · exact ⟨7, by decide, rfl⟩
  · next n m e _ =>
    split
    · cases n
      · exact ⟨4, by decide, rfl⟩
      · exact ⟨3, by decide, rfl⟩
    split
    · cases n
      · exact ⟨5, by decide, rfl⟩
      · exact ⟨2, by decide, rfl⟩
    · cases n
      · exact ⟨6, by decide, rfl⟩
      · exact ⟨1, by decide, rfl⟩

/-- One lane of a compare of one value, or of two that must both satisfy the condition. -/
theorem compare_halves (two hold0 hold1 sig0 sig1 : Bool) :
    let r := if two = true then (hold0 && hold1, (if sig0 then flNV else 0) ||| if sig1 then flNV else 0) else (hold0, if sig0 then flNV else 0)
    r.1 = (hold0 && (!two || hold1)) ∧ r.2 = if sig0 || (two && sig1) then flNV else 0 := by
  cases two with
  | false => simp
  | true =>
    refine ⟨by simp, ?_⟩
    cases sig0 with
    | false => exact Nat.zero_or _
    | true => cases sig1 <;> rfl

/-- Settles O24: a compare ends with its mask and flags, lane by lane as the statement says; a class word has one bit. -/
theorem floatCompareAndClass : Obligations.FloatCompareAndClass := by
  unfold Obligations.FloatCompareAndClass
  refine ⟨fun h o s x hr => ?compare, fun h o s x hr => gives_of hr rfl rfl rfl, fun f _ a => fclass_two_pow f a⟩
  case compare =>
    intro m v hold sig two nv bad
    have lane (l : Nat) := compare_halves two (hold l 0) (hold l 1) (sig l 0) (sig l 1)
    have ends := ends_of_maskFloat hr (d := o.d) (fun l => (lane l).2) rfl (by simp only [two, decide_eq_true_eq]; rfl)
    by_cases hb : bad ≠ [] ∧ x.ctl.fpst.getLsbD 9 = true
    · rw [if_pos hb] at ends ⊢
      exact ends
    · rw [if_neg hb] at ends ⊢
      refine ⟨_, fun l hl => ?_, ends⟩
      rw [getLsbD_compareMask _ _ hl, (lane l).1, Bool.and_assoc]

end Sys2Proof.Machine
end

section
/-!
PROOF of the cross-lane instructions (R116 to R119): the lanes named by the sources, the root and the running values with the flags of their nodes,
and the one lane that is named.
-/
namespace Sys2Proof.Machine

/-- No lane is active exactly when em is zero. -/
theorem activeLanes_eq_nil {em : Mask} : activeLanes em = [] ↔ em = 0 := by
  refine ⟨fun h => BitVec.eq_of_getLsbD_eq fun l hl => ?_, fun h => by rw [h]; rfl⟩
  have off : l ∉ activeLanes em := by rw [h]; exact List.not_mem_nil
  simpa [mem_activeLanes, hl] using off

/-! ### The common forms of a cross-lane result -/

section
variable {i : Instr} {s : State} {x : Crew} (h : Ready i s x)
include h

/-- Lane l of D is the lane of A that lane l of B names (R116). -/
theorem gives_shuffle {o : Shfl} {src : Nat → Nat → Nat} (he : exec i s = shuffle i o src s) :
    Gives i s x (resV x (tyWidth o.ty) o.d fun l => srcL x (tyWidth o.ty) o.a (src l (srcL x (tyWidth o.ty) o.b l) % 128)) :=
  gives_vectorResult h he rfl

/-- A result whose lanes have flags: it is given with the or of the flags of the active lanes, or raises FP_EXCEPTION (R107). -/
theorem ends_of_floatFlags {f : Nat → Nat} {w : Held} {eff : Iss → State → Effect} (he : exec i s = run i eff s)
    (hok : ∀ fl, floatFlags (issOf i s x) f = .ok fl →
      eff (issOf i s x) (issued i s x) = .done (giveShort (issOf i s x) (issued i s x) { w with fp := BitVec.ofNat 32 fl }))
    (herr : ∀ t, floatFlags (issOf i s x) f = .error t → eff (issOf i s x) (issued i s x) = .trap t) :
    let en := bits x.ctl.fpst.toNat 9 5
    let bad := (activeLanes x.ctl.em).filter fun l => f l &&& en != 0
    (bad = [] → Gives i s x { w with fp := BitVec.ofNat 32 ((activeLanes x.ctl.em).foldl (fun t l => t ||| f l) 0) }) ∧
    (bad ≠ [] → Traps i s x ⟨0x11, lanesMask bad, BitVec.ofNat 64 (bad.foldl (fun t l => t ||| (f l &&& en)) 0)⟩) := by
  intro en bad
  refine ⟨fun hb => gives_of h rfl he (hok _ (if_pos ?_)), fun hb => traps_of h rfl he (herr _ (if_neg ?_))⟩
  · exact List.isEmpty_iff.2 hb
  · rw [Bool.not_eq_true]
    exact List.isEmpty_eq_false_iff.2 hb

end

/-! ### Reductions (R117) -/

/-- The or of one value over some lanes. -/
theorem foldl_or_const {α : Type} (n : Nat) {ls : List α} (h : ls ≠ []) : ls.foldl (fun t _ => t ||| n) 0 = n := by
  have := foldl_or_ite (fun _ => true) n ls 0
  simpa [h] using this

/-- A reduction writes nothing when no lane is active. -/
def redHeld (x : Crew) (o : Red) (r : Nat) : Held :=
  match o.d with
  | .s _ => if x.ctl.em = 0 then {} else resS x o.d (BitVec.ofInt 64 (tyVal o.ty r))
  | _ => resV x (tyWidth o.ty) o.d fun _ => r

theorem redHeld_inactive {x : Crew} (o : Red) (r : Nat) (h : x.ctl.em = 0) : redHeld x o r = {} := by
  unfold redHeld
  split
  · exact if_pos h
  · unfold resV lanesHeld
    split
    · exact if_pos h
    · rfl

/-- What the lanes of crew `x` enter into a reduction or a scan: an inactive lane gives the identity. -/
def laneInputs (x : Crew) (ty : Ty) (op : RedOp) (a : Reg) : List FRes :=
  (List.range 128).map fun l => ⟨if x.ctl.em.getLsbD l then srcL x (tyWidth ty) a l else redIdentity ty op, 0⟩

/-- The root of the tree over the lanes of crew `x`. -/
def redRoot (x : Crew) (o : Red) : FRes := redTree (redNode o.ty o.rnd o.op) (laneInputs x o.ty o.op o.a)

theorem redTree_issOf (i : Instr) (s : State) (x : Crew) (o : Red) :
    redTree (redNode o.ty o.rnd o.op) (redInputs (issOf i s x) o.ty o.op o.a) = redRoot x o := rfl

/-- VRED gives the root, or raises its enabled flags for every active lane. -/
theorem vred_ends {h : Hdr} {o : Red} {s : State} {x : Crew} (hr : Ready (.vred h o) s x) :
    let en := (redRoot x o).fl &&& bits x.ctl.fpst.toNat 9 5
    (x.ctl.em = 0 → Gives (.vred h o) s x (redHeld x o (redRoot x o).bits)) ∧
    (x.ctl.em ≠ 0 → en = 0 → Gives (.vred h o) s x { redHeld x o (redRoot x o).bits with fp := BitVec.ofNat 32 (redRoot x o).fl }) ∧
    (x.ctl.em ≠ 0 → en ≠ 0 → Traps (.vred h o) s x ⟨0x11, lanesMask (activeLanes x.ctl.em), BitVec.ofNat 64 en⟩) := by
  intro en
  obtain ⟨gives, traps⟩ := ends_of_floatFlags hr (f := fun _ => (redRoot x o).fl) (w := redHeld x o (redRoot x o).bits) rfl
    (fun fl hfl => by simp only [redFlags, redTree_issOf, hfl]; rfl) (fun t ht => by simp only [redFlags, redTree_issOf, ht])
  refine ⟨fun hem => ?_, fun hem hen => ?_, fun hem hen => ?_⟩
  · rw [activeLanes_eq_nil.2 hem] at gives
    rw [redHeld_inactive o _ hem] at gives ⊢
    exact gives rfl
  · rw [foldl_or_const _ (activeLanes_eq_nil.not.2 hem)] at gives
    exact gives (List.filter_eq_nil_iff.2 fun l _ => by rw [bne_iff_ne, not_not]; exact hen)
  · have all : (activeLanes x.ctl.em).filter (fun _ => (redRoot x o).fl &&& bits x.ctl.fpst.toNat 9 5 != 0) = activeLanes x.ctl.em :=
      List.filter_eq_self.2 fun l _ => bne_iff_ne.2 hen
    rw [all, foldl_or_const _ (activeLanes_eq_nil.not.2 hem)] at traps
    exact traps (activeLanes_eq_nil.not.2 hem)

/-! ### Scans (R118) -/

/-- What lane `j` of crew `x` receives from a scan. -/
def scanOut (x : Crew) (o : Scan) (j : Nat) : FRes :=
  let l := scanAll (redNode o.ty o.rnd o.op) (laneInputs x o.ty o.op o.a)
  if o.excl then (if j = 0 then ⟨redIdentity o.ty o.op, 0⟩ else l.getD (j - 1) ⟨0, 0⟩) else l.getD j ⟨0, 0⟩

/-- The running values, shifted by one lane under excl, by lane. -/
theorem getD_scanAll (i : Instr) (s : State) (x : Crew) (o : Scan) (j : Nat) :
    let l := scanAll (redNode o.ty o.rnd o.op) (redInputs (issOf i s x) o.ty o.op o.a)
    (if o.excl then ⟨redIdentity o.ty o.op, 0⟩ :: l else l).getD j ⟨0, 0⟩ = scanOut x o j := by
  unfold scanOut
  cases o.excl with
  | false => rfl
  | true => cases j <;> rfl

/-- VSCAN gives each lane what it receives, or raises the enabled flags of the active lanes. -/
theorem vscan_ends {h : Hdr} {o : Scan} {s : State} {x : Crew} (hr : Ready (.vscan h o) s x) :
    let en := bits x.ctl.fpst.toNat 9 5
    let bad := (activeLanes x.ctl.em).filter fun j => (scanOut x o j).fl &&& en != 0
    (bad = [] → Gives (.vscan h o) s x { resV x (tyWidth o.ty) o.d (fun j => (scanOut x o j).bits) with
      fp := BitVec.ofNat 32 ((activeLanes x.ctl.em).foldl (fun t j => t ||| (scanOut x o j).fl) 0) }) ∧
    (bad ≠ [] →
      Traps (.vscan h o) s x ⟨0x11, lanesMask bad, BitVec.ofNat 64 (bad.foldl (fun t j => t ||| ((scanOut x o j).fl &&& en)) 0)⟩) :=
  ends_of_floatFlags hr rfl (fun fl hfl => by simp only [getD_scanAll, hfl]; rfl)
    (fun t ht => by simp only [getD_scanAll, ht])

/-! ### The statement -/

/-- Settles O27: each instruction by its common form; VRED and VSCAN by the root and the running values. -/
theorem crossLaneResults : Obligations.CrossLaneResults := by
  unfold Obligations.CrossLaneResults
  refine ⟨fun p hp h o s x hr => ?lanes, fun h o s x hr => ?vred, fun h o s x hr => vscan_ends hr,
    fun h o s x hr => ?vextr, fun h o s x hr => ?vins⟩
  case lanes =>
    simp only [List.mem_cons, List.not_mem_nil, or_false] at hp
    rcases hp with rfl | rfl | rfl <;> exact gives_shuffle hr rfl
  case vred => exact vred_ends hr
  case vextr => exact gives_scalarResult hr rfl (by simp only [scalarN_issued hr]; rfl)
  case vins => exact gives_of hr rfl rfl (by simp only [scalarN_issued hr]; rfl)

end Sys2Proof.Machine
end

section
/-!
PROOF of base-delta-immediate blocks (R130, R131): the code chosen is the least of those that hold, and the fields of the compressed bytes give the
block back.
-/
namespace Sys2Proof.Machine

/-! ### Fields of one width, side by side -/

/-- The number whose field `i` of `w` bits is `f i`, for the first `n` fields. -/
def fieldSum (w : Nat) (f : Nat → Nat) (n : Nat) : Nat := (List.range n).foldl (fun t i => t + f i * 2 ^ (w * i)) 0

theorem fieldSum_succ (w : Nat) (f : Nat → Nat) (n : Nat) : fieldSum w f (n + 1) = fieldSum w f n + f n * 2 ^ (w * n) := by
  simp [fieldSum, List.range_succ]

theorem fieldSum_congr {w : Nat} {f g : Nat → Nat} {n : Nat} (h : ∀ i < n, f i = g i) : fieldSum w f n = fieldSum w g n :=
  List.foldl_ext _ _ _ fun t i hi => by rw [h i (List.mem_range.1 hi)]

theorem fieldSum_lt {w : Nat} {f : Nat → Nat} (hf : ∀ i, f i < 2 ^ w) (n : Nat) : fieldSum w f n < 2 ^ (w * n) := by
  induction n with
  | zero => exact Nat.one_pos
  | succ n ih =>
    have top : f n * 2 ^ (w * n) + 2 ^ (w * n) ≤ 2 ^ (w * (n + 1)) := by
      rw [← Nat.succ_mul, Nat.mul_succ, pow_add, mul_comm (2 ^ (w * n))]
      exact Nat.mul_le_mul_right _ (hf n)
    rw [fieldSum_succ]
    omega

/-- Each field is read back, whatever stands above the last. -/
theorem field_fieldSum {w : Nat} {f : Nat → Nat} (hf : ∀ i, f i < 2 ^ w) {n i : Nat} (hi : i < n) (y : Nat) :
    (fieldSum w f n + 2 ^ (w * n) * y) / 2 ^ (w * i) % 2 ^ w = f i := by
  induction n generalizing y with
  | zero => omega
  | succ n ih =>
    have shift : fieldSum w f (n + 1) + 2 ^ (w * (n + 1)) * y = fieldSum w f n + 2 ^ (w * n) * (f n + 2 ^ w * y) := by
      rw [fieldSum_succ, Nat.mul_succ, pow_add]
      ring
    rw [shift]
    rcases Nat.lt_succ_iff_lt_or_eq.1 hi with hlt | rfl
    · exact ih hlt _
    · rw [Nat.add_mul_div_left _ _ (Nat.two_pow_pos _), Nat.div_eq_of_lt (fieldSum_lt hf _), Nat.zero_add, Nat.add_mul_mod_self_left,
        Nat.mod_eq_of_lt (hf _)]

/-- A number is the sum of its fields. -/
theorem fieldSum_fields (w x n : Nat) : fieldSum w (fun i => x / 2 ^ (w * i) % 2 ^ w) n = x % 2 ^ (w * n) := by
  induction n with
  | zero => simp [fieldSum, Nat.mod_one]
  | succ n ih => rw [fieldSum_succ, ih, pow_mul, pow_mul, Nat.mod_pow_succ, mul_comm (_ ^ _)]

/-! ### A delta code (R130) -/

theorem bdiElem_lt (x bw i : Nat) : bdiElem x bw i < 2 ^ (8 * bw) := Nat.mod_lt _ (Nat.two_pow_pos _)

/-- The first element stands lowest. -/
theorem bdiElem_first {b bw : Nat} (hb : b < 2 ^ (8 * bw)) (z : Nat) : bdiElem (b + 2 ^ (8 * bw) * z) bw 0 = b := by
  rw [bdiElem, Nat.mul_zero, pow_zero, Nat.div_one, Nat.add_mul_mod_self_left, Nat.mod_eq_of_lt hb]

section
variable {c bw dw : Nat} (h : bdiWidths c = some (bw, dw))
include h

/-- The widths of a delta code: whole elements fill a block, and a delta is narrower than its element. -/
theorem bdiWidths_bounds : 0 < dw ∧ 0 < bw ∧ bw * (128 / bw) = 128 := by
  unfold bdiWidths at h
  split at h <;> cases h <;> decide

/-- A code with widths is none of the three that have none. -/
theorem bdiWidths_delta : c ≠ 0 ∧ c ≠ 1 ∧ c ≠ 2 := by
  refine ⟨?_, ?_, ?_⟩ <;> rintro rfl <;> cases h

theorem bdiSize_delta : bdiSize c = bw + 128 / bw * dw := by
  obtain ⟨h0, h1, h2⟩ := bdiWidths_delta h
  rw [bdiSize.eq_4 c h0 h1 h2]
  simp only [h]

/-- The deltas stand as fields above the base. -/
theorem bdiPack_delta (x : Nat) :
    bdiPack x c = bdiElem x bw 0 + 2 ^ (8 * bw) * fieldSum (8 * dw) (fun i => wrap (8 * dw) (bdiDelta x bw i)) (128 / bw) := by
  obtain ⟨h0, h1, h2⟩ := bdiWidths_delta h
  have fold (n : Nat) (a : Nat) (f : Nat → Nat) : (List.range n).foldl (fun t i => t + f i * 2 ^ (8 * (bw + i * dw))) a =
      a + 2 ^ (8 * bw) * fieldSum (8 * dw) f n := by
    induction n with
    | zero => rfl
    | succ n ih =>
      rw [List.range_succ, List.foldl_append, ih, List.foldl_cons, List.foldl_nil, fieldSum_succ,
        show 8 * (bw + n * dw) = 8 * bw + 8 * dw * n by ring, pow_add]
      ring
  rw [bdiPack.eq_4 x c h0 h1 h2]
  simp only [h, fold]

theorem bdiExpand_delta (z : Nat) : bdiExpand c z = fieldSum (8 * bw) (fun i =>
    wrap (8 * bw) (bdiElem z bw 0 + signed (8 * dw) (z / 2 ^ (8 * (bw + i * dw)) % 2 ^ (8 * dw)))) (128 / bw) := by
  obtain ⟨h0, h1, h2⟩ := bdiWidths_delta h
  rw [bdiExpand.eq_4 c z h0 h1 h2]
  simp only [h, fieldSum]

/-- Where the code's condition holds a delta is what its field reads as. -/
theorem signed_wrap_delta {x i : Nat} (hok : bdiOk x c = true) (hi : i < 128 / bw) :
    signed (8 * dw) (wrap (8 * dw) (bdiDelta x bw i)) = bdiDelta x bw i := by
  obtain ⟨h0, h1, h2⟩ := bdiWidths_delta h
  obtain ⟨hdw, -, -⟩ := bdiWidths_bounds h
  have range : -(2 ^ (8 * dw - 1) : Nat) ≤ bdiDelta x bw i ∧ bdiDelta x bw i < (2 ^ (8 * dw - 1) : Nat) := by
    rw [bdiOk.eq_4 x c h0 h1 h2] at hok
    simp only [h, List.all_eq_true, List.mem_range, Bool.and_eq_true, decide_eq_true_eq] at hok
    exact hok i hi
  have := Nat.two_pow_pos (8 * dw - 1)
  exact wrap_signed (by omega) range.1 (by omega)

theorem bdiPack_delta_lt (x : Nat) : bdiPack x c < 2 ^ (8 * bdiSize c) := by
  have base := bdiElem_lt x bw 0
  have deltas := fieldSum_lt (fun i => wrap_lt (8 * dw) (bdiDelta x bw i)) (128 / bw)
  rw [bdiPack_delta h, bdiSize_delta h, show 8 * (bw + 128 / bw * dw) = 8 * bw + 8 * dw * (128 / bw) by ring, pow_add]
  calc _ < 2 ^ (8 * bw) * (fieldSum (8 * dw) (fun i => wrap (8 * dw) (bdiDelta x bw i)) (128 / bw) + 1) := by
        rw [Nat.mul_succ, Nat.add_comm]
        exact Nat.add_lt_add_left base _
    _ ≤ _ := Nat.mul_le_mul_left _ deltas

end

/-- A number read as two's complement is the number, modulo the width. -/
theorem signed_modEq (w n : Nat) : signed w n ≡ n [ZMOD (2 ^ w : Nat)] := by
  have low : ((n % 2 ^ w : Nat) : Int) ≡ n [ZMOD (2 ^ w : Nat)] := by
    rw [Int.natCast_mod]
    exact Int.mod_modEq _ _
  unfold signed
  split
  · exact low
  · exact (Int.sub_modulus_modEq_iff).2 low

/-- The base and a delta give the element (R130). -/
theorem wrap_base_add_delta (x bw i : Nat) : wrap (8 * bw) (bdiElem x bw 0 + bdiDelta x bw i) = bdiElem x bw i := by
  have base := bdiElem_lt x bw 0
  have sum : bdiElem x bw 0 + bdiDelta x bw i ≡ bdiElem x bw i [ZMOD (2 ^ (8 * bw) : Nat)] := by
    have cancel : (bdiElem x bw 0 : Int) + (bdiElem x bw i + 2 ^ (8 * bw) - bdiElem x bw 0 : Nat) = bdiElem x bw i + (2 ^ (8 * bw) : Nat) := by
      omega
    have := (signed_modEq (8 * bw) (bdiElem x bw i + 2 ^ (8 * bw) - bdiElem x bw 0)).add_left (bdiElem x bw 0)
    rw [cancel] at this
    exact this.trans (Int.add_modulus_modEq_iff.2 rfl)
  unfold wrap
  rw [sum, ← Int.natCast_mod, Int.toNat_natCast, Nat.mod_eq_of_lt (bdiElem_lt x bw i)]

/-- Where its condition holds, a delta code gives the block back. -/
theorem bdiExpand_bdiPack_delta {c bw dw : Nat} (h : bdiWidths c = some (bw, dw)) {x : Nat} (hok : bdiOk x c = true) (y : Nat) :
    bdiExpand c (bdiPack x c + 2 ^ (8 * bdiSize c) * y) = x % 2 ^ 1024 := by
  obtain ⟨-, -, whole⟩ := bdiWidths_bounds h
  have base := bdiElem_lt x bw 0
  have layout : bdiPack x c + 2 ^ (8 * bdiSize c) * y = bdiElem x bw 0 + 2 ^ (8 * bw) *
      (fieldSum (8 * dw) (fun i => wrap (8 * dw) (bdiDelta x bw i)) (128 / bw) + 2 ^ (8 * dw * (128 / bw)) * y) := by
    rw [bdiPack_delta h, bdiSize_delta h, show 8 * (bw + 128 / bw * dw) = 8 * bw + 8 * dw * (128 / bw) by ring, pow_add]
    ring
  rw [layout, bdiExpand_delta h]
  have element (i : Nat) (hi : i < 128 / bw) : wrap (8 * bw) (bdiElem x bw 0 + signed (8 * dw) (wrap (8 * dw) (bdiDelta x bw i))) =
      x / 2 ^ (8 * bw * i) % 2 ^ (8 * bw) := by
    rw [signed_wrap_delta h hok hi, wrap_base_add_delta, bdiElem]
  calc _ = fieldSum (8 * bw) (fun i => x / 2 ^ (8 * bw * i) % 2 ^ (8 * bw)) (128 / bw) := fieldSum_congr fun i hi => by
        rw [← element i hi, bdiElem_first base, show 8 * (bw + i * dw) = 8 * bw + 8 * dw * i by ring, pow_add, ← Nat.div_div_eq_div_mul,
          Nat.add_mul_div_left _ _ (Nat.two_pow_pos _), Nat.div_eq_of_lt base, Nat.zero_add, field_fieldSum (fun i => wrap_lt _ _) hi]
    _ = x % 2 ^ 1024 := by rw [fieldSum_fields, Nat.mul_assoc, whole, show 8 * 128 = 1024 from rfl]

/-! ### The codes without deltas -/

/-- A block of one repeated element (R130). -/
theorem bdiExpand_repeat {x z : Nat} (hok : bdiOk x 2 = true) (hz : bdiElem z 8 0 = bdiElem x 8 0) : bdiExpand 2 z = x % 2 ^ (64 * 16) := by
  simp only [bdiOk, List.all_eq_true, List.mem_range, beq_iff_eq] at hok
  show fieldSum 64 (fun _ => bdiElem z 8 0) 16 = _
  rw [fieldSum_congr fun i hi => hz.trans (hok i hi).symm]
  exact fieldSum_fields 64 x 16

/-! ### The code chosen -/

/-- The codes in the order of their sizes, in which the first that holds is taken. -/
def bdiOrder : List Nat := [1, 2, 3, 6, 4, 9, 8, 7, 5, 10, 0]

theorem bdiBest_first (x : Nat) : bdiOrder.find? (bdiOk x) = some (bdiBest x) := by
  unfold bdiBest bdiOrder
  cases hf : List.find? (bdiOk x) [1, 2, 3, 6, 4, 9, 8, 7, 5, 10, 0] with
  | some c => rfl
  | none => exact absurd rfl (List.find?_eq_none.1 hf 0 (by decide))

theorem bdiBest_ok (x : Nat) : bdiOk x (bdiBest x) = true := List.find?_some (bdiBest_first x)

theorem bdiBest_le_ten (x : Nat) : bdiBest x ≤ 10 := by
  have small : ∀ c ∈ bdiOrder, c ≤ 10 := by decide
  exact small _ (List.mem_of_find?_eq_some (bdiBest_first x))

theorem bdiBest_least {x c : Nat} (hc : c ≤ 10) (hok : bdiOk x c = true) : bdiSize (bdiBest x) ≤ bdiSize c := by
  have sorted : bdiOrder.Pairwise fun a b => bdiSize a ≤ bdiSize b := by decide
  have every : ∀ c ≤ 10, c ∈ bdiOrder := by decide
  obtain ⟨-, before, after, split, earlier⟩ := List.find?_eq_some_iff_append.1 (bdiBest_first x)
  have mem := every c hc
  rw [split, List.mem_append, List.mem_cons] at mem
  rw [split] at sorted
  rcases mem with hm | rfl | hm
  · simpa [hok] using earlier c hm
  · exact le_rfl
  · exact List.rel_of_pairwise_cons (List.pairwise_append.1 sorted).2.1 hm

/-- A code has deltas, or is one of the three that have none. -/
theorem bdi_cases {c : Nat} (hc : c ≤ 10) : c = 0 ∨ c = 1 ∨ c = 2 ∨ ∃ bw dw, bdiWidths c = some (bw, dw) := by
  interval_cases c <;> simp [bdiWidths]

/-- Settles O29: the code chosen is the first in the order of sizes; each code's bytes fit and expand. -/
theorem compressedBlocksExpand : Obligations.CompressedBlocksExpand := by
  unfold Obligations.CompressedBlocksExpand
  intro x hx
  refine ⟨bdiBest_ok x, fun c => bdiBest_least, ?_⟩
  have hok := bdiBest_ok x
  have whole : x % 2 ^ 1024 = x := Nat.mod_eq_of_lt hx
  rcases bdi_cases (bdiBest_le_ten x) with hc | hc | hc | ⟨bw, dw, hc⟩
  · rw [hc]
    have size : 8 * bdiSize 0 = 1024 := rfl
    rw [size]
    exact ⟨hx, fun y => (Nat.add_mul_mod_self_left ..).trans whole⟩
  · rw [hc] at hok ⊢
    exact ⟨Nat.one_pos, fun y => (beq_iff_eq.1 hok).symm⟩
  · rw [hc] at hok ⊢
    refine ⟨bdiElem_lt x 8 0, fun y => ?_⟩
    have first : bdiElem (bdiPack x 2 + 2 ^ (8 * bdiSize 2) * y) 8 0 = bdiElem x 8 0 := bdiElem_first (bdiElem_lt x 8 0) y
    rw [bdiExpand_repeat hok first, show 64 * 16 = 1024 from rfl, Nat.mod_mod, whole]
  · exact ⟨bdiPack_delta_lt hc x, fun y => by rw [bdiExpand_bdiPack_delta hc hok, Nat.mod_mod, whole]⟩

end Sys2Proof.Machine
end

section
/-!
PROOF that an operation which ends with nothing to give still saves what its tag holds (R83, R91), in three steps said to leave memory as it was.
-/
namespace Sys2Proof.Machine

/-- What an observation gives after a step. -/
def seen (f : State → Byte) : Host.Outcome State Fault Refusal → Option Byte
  | .next t => some (f t)
  | _ => none

/-- The suspended state, with operation 7 of its crew under tag 1, which is complete with a result. -/
def staleTagState (x : Crew) (k : OpKind) : State := { suspendedState.setCrew 3 x with ops := [(7, ⟨3, 1, false, 0, k⟩)] }

/-- The suspended crew with a store of no byte at the head of its queue, as operation 7. -/
def emptyStoreCrew : Crew := { suspendedCrew with sq := [⟨.store [] 0 0 0, 7⟩] }

/-- Refutes O38: the store of a SUSPENDED crew whose tag holds a result from before saves that result to the crew's image when it completes, so a byte
that no lane of the store writes changes. -/
theorem not_storesLeaveTheQueue : ¬ Obligations.StoresLeaveTheQueue := by
  unfold Obligations.StoresLeaveTheQueue
  intro h
  let s := staleTagState emptyStoreCrew (.queued none (.lanes 0))
  have room : ∀ e ∈ dirPath 0, (s.mem.dir e.1).length + 0 ≤ dirCap e.1 := by decide +kernel
  obtain ⟨t, -, he, -, -, -, -, -, -, -, -, -, -, -, -, hhome, -⟩ :=
    (h s 3 emptyStoreCrew [] 0 0 0 7 [] rfl rfl nofun (fun h => absurd h (by decide))).1 rfl (.inl nofun)
      (fun p hp => by cases hp; rfl) nofun (fun n hn => nomatch hn) room nofun
  have after : seen (homeByte · 0 0x2E800) (exec (.storeQueueLeave 3) s) = some 1 := by decide +kernel
  have before : homeByte s 0 0x2E800 = 0 := by decide +kernel
  rw [he] at after
  have stays : homeByte t 0 0x2E800 = homeByte s 0 0x2E800 := hhome 0x2E800 0 .device
  rw [seen, stays, before] at after
  exact absurd after (by decide)

/-- Refutes O40: a full fence at cluster scope of the SUSPENDED crew ends, its core with nothing to drain, and memory then holds a byte of the result
that its tag held, which is not what the core saw. -/
theorem not_fencesDrainsAndWays : ¬ Obligations.FencesDrainsAndWays := by
  unfold Obligations.FencesDrainsAndWays
  rintro ⟨-, h, -⟩
  let s := staleTagState suspendedCrew (.fence 2 2 [] false [])
  obtain ⟨t, he, ⟨hhome, -⟩, -⟩ := (h s 7 3 1 false 0 2 2 [] [] suspendedCrew rfl rfl (by decide) rfl).2 (by decide) (by decide +kernel)
    fun n hn => nomatch hn
  have after : seen (·.mem.read 0x2E800) (exec (.releaseDrainDone 7) s) = some 1 := by decide +kernel
  have before : homeByte s 0 0x2E800 = 0 := by decide +kernel
  rw [he, seen, hhome] at after
  exact absurd (after.symm.trans (congrArg some before)) (by decide)

/-- Array 0 of core 0 is bound to barrier 0, where an arrival of a crew that is gone is too great; operation 8, which pre-empted the array, is the
suspended crew's. -/
def boundErrorState : State :=
  let s := suspendedState.updArr 0 0 fun a => { a with op := some 8 }
  { s.updBar 0 0 fun b => { b with state := .armed, pend := 1, arr := some 0 } with
    ops := [(7, ⟨99, 1, false, 0, .barArrive ⟨0, 0, 0⟩ 2 none false []⟩), (8, ⟨3, 1, false, 0, .armode 0 0⟩)] }

/-- Refutes O42: the arrival makes the barrier ERROR, which completes the operation of the bound array; that saves the result the operation's tag
held, so memory changes. -/
theorem not_barrierInstructions : ¬ Obligations.BarrierInstructions := by
  unfold Obligations.BarrierInstructions
  rintro ⟨-, -, -, -, -, -, -, -, h, -⟩
  let s := boundErrorState
  have unnamed : (∀ w ∈ (s.bar 0 0).waits, w.1 ≠ 7) ∧ ∀ a, (s.bar 0 0).arr = some a → (s.arr 0 a).op ≠ some 7 :=
    ⟨nofun, fun a ha => by cases ha; decide +kernel⟩
  obtain ⟨t, k, he, -, hmem, -⟩ := h s 7 99 1 false 0 ⟨0, 0, 0⟩ 2 none false [] rfl rfl unnamed
  have after : seen (·.mem.read 0x2E800) (exec (.clusterBarrierArrival 7) s) = some 1 := by decide +kernel
  have before : s.mem.read 0x2E800 = 0 := by decide +kernel
  rw [he, seen, hmem, before] at after
  exact absurd after (by decide)

end Sys2Proof.Machine
end

section
/-!
PROOF of the checks of an access (R133, R156, R163): the first step that fails decides for all its pieces, and a trap names its lowest address.
-/
namespace Sys2Proof.Machine

/-! ### The least of a list -/

/-- The least value of a list, from a first bound. -/
theorem foldl_min_spec {α : Type} (f : α → Nat) (l : List α) (a : Nat) :
    let m := l.foldl (fun m p => min m (f p)) a
    m ≤ a ∧ (∀ q ∈ l, m ≤ f q) ∧ (m = a ∨ ∃ q ∈ l, f q = m) := by
  induction l generalizing a with
  | nil => simp
  | cons b l ih =>
    obtain ⟨hle, hall, hmem⟩ := ih (min a (f b))
    refine ⟨hle.trans (min_le_left _ _), fun q hq => ?_, ?_⟩
    · rcases List.mem_cons.1 hq with rfl | hq
      · exact hle.trans (min_le_right _ _)
      · exact hall q hq
    · rcases hmem with h | ⟨q, hq, h⟩
      · rcases min_choice a (f b) with hm | hm
        · exact .inl (h.trans hm)
        · exact .inr ⟨b, List.mem_cons_self, (h.trans hm).symm⟩
      · exact .inr ⟨q, List.mem_cons_of_mem _ hq, h⟩

/-- Begun with the list's first value, it is the value of a member, and none is less. -/
theorem foldl_min_head {α : Type} (f : α → Nat) (l : List α) (d : α) (hl : l ≠ []) :
    ∃ p ∈ l, l.foldl (fun m p => min m (f p)) (f (l.headD d)) = f p ∧ ∀ q ∈ l, f p ≤ f q := by
  cases l with
  | nil => exact absurd rfl hl
  | cons b l =>
    obtain ⟨-, hall, hmem⟩ := foldl_min_spec f (b :: l) (f b)
    rcases hmem with h | ⟨q, hq, h⟩
    · exact ⟨b, List.mem_cons_self, h, fun q hq => h ▸ hall q hq⟩
    · exact ⟨q, hq, h.symm, fun r hr => h ▸ hall r hr⟩

/-! ### The step that decides (R163) -/

section
variable {s : State} {x : Crew} {r : Req}

/-- An access without a piece that fails reaches what its pieces do. -/
theorem checkAccess_passes (h : ∀ p ∈ r.pieces, (pieceEnd s x r p).1 = 0) :
    checkAccess s x r = .ok (r.pieces.map fun p => ⟨p.lane, p.ea, (pieceEnd s x r p).2⟩) := by
  have none : ((r.pieces.map fun p => (p, pieceEnd s x r p)).filter fun e => e.2.1 != 0) = [] := by
    refine List.filter_eq_nil_iff.2 fun e he => ?_
    obtain ⟨p, hp, rfl⟩ := List.mem_map.1 he
    simp [h p hp]
  simp only [checkAccess, none, List.map_nil, List.map_map]
  rfl

/-- The answer to pieces that fail step `k`. -/
def stepAnswer (r : Req) (k : Nat) (ps : List Piece) : Effect :=
  if k = 5 then .walks (missPages ps) r.write
  else .trap ⟨stepCause k, lanesMask (ps.map (·.lane)), BitVec.ofNat 64 (ps.foldl (fun m p => min m p.ea) (ps.headD ⟨0, 0, 0⟩).ea)⟩

/-- The first step that a piece fails decides, and names the pieces that fail it. -/
theorem checkAccess_fails {k : Nat} (hk : k ≠ 0) (hex : ∃ p ∈ r.pieces, (pieceEnd s x r p).1 = k)
    (hmin : ∀ p ∈ r.pieces, (pieceEnd s x r p).1 = 0 ∨ k ≤ (pieceEnd s x r p).1) :
    checkAccess s x r = .error (stepAnswer r k (r.pieces.filter fun p => (pieceEnd s x r p).1 == k)) := by
  have at_ (k : Nat) : (((r.pieces.map fun p => (p, pieceEnd s x r p)).filter fun e => e.2.1 == k).map (·.1)) =
      r.pieces.filter fun p => (pieceEnd s x r p).1 == k := by
    rw [List.filter_map, List.map_map]
    exact List.map_id _
  have steps (n : Nat) : n ∈ (((r.pieces.map fun p => (p, pieceEnd s x r p)).filter fun e => e.2.1 != 0).map (·.2.1)) ↔
      n ≠ 0 ∧ ∃ p ∈ r.pieces, (pieceEnd s x r p).1 = n := by
    simp only [List.mem_map, List.mem_filter]
    constructor
    · rintro ⟨_, ⟨⟨p, hp, rfl⟩, h⟩, rfl⟩
      exact ⟨by simpa using h, p, hp, rfl⟩
    · rintro ⟨h, p, hp, rfl⟩
      exact ⟨_, ⟨⟨p, hp, rfl⟩, by simpa using h⟩, rfl⟩
  unfold checkAccess
  dsimp only
  split
  case h_1 h =>
    have := (steps k).2 ⟨hk, hex⟩
    rw [h] at this
    cases this
  case h_2 a as h =>
    have first : as.foldl min a = k := by
      obtain ⟨hle, hall, hmem⟩ := foldl_min_spec (fun n : Nat => n) as a
      have least : ∀ n ∈ a :: as, k ≤ n := fun n hn => by
        obtain ⟨h0, p, hp, rfl⟩ := (steps n).1 (h ▸ hn)
        exact (hmin p hp).resolve_left h0
      refine Nat.le_antisymm ?_ ?_
      · rcases List.mem_cons.1 (h ▸ (steps k).2 ⟨hk, hex⟩) with rfl | hm
        · exact hle
        · exact hall k hm
      · rcases hmem with hm | ⟨q, hq, hm⟩
        · exact (least a List.mem_cons_self).trans_eq hm.symm
        · exact (least q (List.mem_cons_of_mem _ hq)).trans_eq hm
    rw [first, at_]
    unfold stepAnswer
    split <;> rfl

end

/-! ### A page that is not in the buffer -/

/-- Each walk asked for is at the address of a piece. -/
theorem missPages_spec (ps : List Piece) : ∀ w ∈ missPages ps, ∃ p ∈ ps, w.1 = p.ea := by
  intro w hw
  obtain ⟨g, hg, rfl⟩ := List.mem_map.1 hw
  obtain ⟨q, hq, hqg⟩ := List.mem_map.1 (List.mem_eraseDups.1 hg)
  obtain ⟨p, hp, he, -⟩ := foldl_min_head (·.ea) (ps.filter fun p => p.ea / 65536 == g) ⟨0, 0, 0⟩
    (List.ne_nil_of_mem (List.mem_filter.2 ⟨hq, by simpa using hqg⟩))
  exact ⟨p, (List.mem_filter.1 hp).1, he⟩

theorem missPages_ne_nil {ps : List Piece} (h : ps ≠ []) : missPages ps ≠ [] := by
  obtain ⟨p, l, rfl⟩ := List.exists_cons_of_ne_nil h
  refine List.ne_nil_of_mem (List.mem_map_of_mem (a := p.ea / 65536) (List.mem_eraseDups.2 ?_))
  exact List.mem_map_of_mem List.mem_cons_self

/-! ### A global access of n bytes at each address -/

section
variable {s : State} {x : Crew} {n : Nat} {write : Bool} {eas : List (Nat × Nat)}

/-- The pieces of a request that fail a step are its addresses that fail it. -/
theorem request_filter (sp : Nat) (f : Piece → Bool) :
    (request sp n write eas).pieces.filter f = (eas.filter fun e => f ⟨e.1, e.2, n⟩).map fun e => ⟨e.1, e.2, n⟩ := by
  simp only [request, List.filter_map]
  rfl

/-- Exactly what `b` says fails step `k`, and nothing fails one before it. -/
def FailsFirst (k : Nat) (b : Bool) (step : Nat) : Prop := (step = k ↔ b = true) ∧ (step = 0 ∨ k ≤ step)

/-- Where the addresses that fail the first failing step, other than a miss, are the bad ones, its trap names their lanes and the lowest. -/
theorem checkAccess_raises {sp k : Nat} {bad : Nat → Bool} (hk : k ≠ 0) (h5 : k ≠ 5)
    (hs : ∀ e ∈ eas, FailsFirst k (bad e.2) (pieceEnd s x (request sp n write eas) ⟨e.1, e.2, n⟩).1)
    (hex : ¬∀ e ∈ eas, bad e.2 = false) :
    ∃ p ∈ eas, bad p.2 = true ∧ (∀ q ∈ eas, bad q.2 = true → p.2 ≤ q.2) ∧ checkAccess s x (request sp n write eas) =
      .error (.trap ⟨stepCause k, lanesMask ((eas.filter fun e => bad e.2).map (·.1)), BitVec.ofNat 64 p.2⟩) := by
  obtain ⟨e, he, hb⟩ : ∃ e ∈ eas, bad e.2 = true := by simpa using hex
  have fails := checkAccess_fails (r := request sp n write eas) hk ⟨_, List.mem_map_of_mem he, (hs e he).1.2 hb⟩
    fun p hp => by
      obtain ⟨e, he, rfl⟩ := List.mem_map.1 hp
      exact (hs e he).2
  have same : (eas.filter fun e => (pieceEnd s x (request sp n write eas) ⟨e.1, e.2, n⟩).1 == k) = eas.filter fun e => bad e.2 :=
    List.filter_congr fun e he => by
      rw [Bool.eq_iff_iff, beq_iff_eq]
      exact (hs e he).1
  obtain ⟨p, hp, hlow, hall⟩ := foldl_min_head (·.ea) ((eas.filter fun e => bad e.2).map fun e => (⟨e.1, e.2, n⟩ : Piece)) ⟨0, 0, 0⟩
    (List.ne_nil_of_mem (List.mem_map_of_mem (List.mem_filter.2 ⟨he, hb⟩)))
  obtain ⟨q, hq, rfl⟩ := List.mem_map.1 hp
  obtain ⟨hq, hqb⟩ := List.mem_filter.1 hq
  refine ⟨q, hq, hqb, fun w hw hwb => hall _ (List.mem_map_of_mem (List.mem_filter.2 ⟨hw, hwb⟩)), ?_⟩
  rw [fails, request_filter, same, stepAnswer, if_neg h5, hlow, List.map_map]
  rfl

/-- Bytes of a global piece under a live range lock. -/
def globLocked (s : State) (x : Crew) (n : Nat) (write : Bool) (a : Nat) : Bool :=
  (List.range n).any fun j => (s.core x.seat.core).locks.any fun k =>
    k.2.live && (write || k.2.dst) && !k.2.win && k.2.tag == x.seat.tag && decide (k.2.lo ≤ a + j) && decide (a + j ≤ k.2.hi)

/-- The right that an entry gives an access. -/
def hasRight (write : Bool) (t : TlbEntry) : Bool := if write then pteW t.entry.toNat else pteRD t.entry.toNat

/-- The places of `n` bytes that an entry maps. -/
def entryPlaces (s : State) (n a : Nat) (t : TlbEntry) : List Place :=
  (List.range n).map fun j => .glob (oldFrame s (t.pa a) + j) (a + j) (entryMap t.entry.toNat)

/-- The translation of a data access. -/
theorem translate_data (s : State) (g tag a : Nat) (write : Bool) : translate s g tag a (if write then .write else .read) =
    if canonical a = false then .nonCanonical
    else match tlbFind (s.core g) tag a write with
      | none => .miss
      | some t => if hasRight write t then .ok (oldFrame s (t.pa a)) (entryMap t.entry.toNat) else .denied := by
  cases write <;> cases h : canonical a <;> simp only [translate, h] <;> rfl

/-- Steps 7 and 8 of R163, where nothing fails step 7. -/
def lockEnd (s : State) (x : Crew) (write : Bool) (ps : List Place) : Nat × List Place :=
  if ps.any (lockedByte s x.seat.core x.seat.tag write) then (8, ps) else (0, ps)

theorem lockEnd_glob (pa a : Nat) (m : MapKind) : lockEnd s x write ((List.range n).map fun j => .glob (pa + j) (a + j) m) =
    if globLocked s x n write a then (8, (List.range n).map fun j => .glob (pa + j) (a + j) m)
    else (0, (List.range n).map fun j => .glob (pa + j) (a + j) m) := by
  have locked : ((List.range n).map fun j => Place.glob (pa + j) (a + j) m).any (lockedByte s x.seat.core x.seat.tag write) =
      globLocked s x n write a := by
    rw [List.any_map]
    refine congrArg (List.range n).any (funext fun j => congrArg (s.core x.seat.core).locks.any (funext fun k => ?_))
    simp only [Lock.covers, Bool.and_assoc]
  rw [lockEnd, locked]

/-- The end of a global piece, case by case in the order of R163. -/
theorem pieceEnd_global (l a : Nat) : pieceEnd s x (request 0 n write eas) ⟨l, a, n⟩ =
    if a % n ≠ 0 then (2, [])
    else if canonical a = false then (3, [])
    else match tlbFind (s.core x.seat.core) x.seat.tag a write with
      | none => (5, [])
      | some t => if hasRight write t = false then (6, [])
        else if globLocked s x n write a then (8, entryPlaces s n a t) else (0, entryPlaces s n a t) := by
  have shape : pieceEnd s x (request 0 n write eas) ⟨l, a, n⟩ = if a % n ≠ 0 then (2, [])
      else match translate s x.seat.core x.seat.tag a (if write then .write else .read) with
        | .nonCanonical => (3, [])
        | .miss => (5, [])
        | .denied => (6, [])
        | .ok pa m => lockEnd s x write ((List.range n).map fun j => .glob (pa + j) (a + j) m) := by
    simp [pieceEnd, request, lockEnd] <;> rfl
  rw [shape, translate_data]
  by_cases hm : a % n ≠ 0
  · rw [if_pos hm, if_pos hm]
  rw [if_neg hm, if_neg hm]
  cases hc : canonical a
  · rfl
  cases ht : tlbFind (s.core x.seat.core) x.seat.tag a write with
  | none => rfl
  | some t => cases hr : hasRight write t <;> simp [hr, lockEnd_glob, entryPlaces]

/-- The first of the steps 2, 3, 5, 6 and 8 that fails, 0 for none. -/
def firstStep (mis far miss denied locked : Bool) : Nat :=
  if mis then 2 else if far then 3 else if miss then 5 else if denied then 6 else if locked then 8 else 0

theorem pieceEnd_global_step (l a : Nat) : (pieceEnd s x (request 0 n write eas) ⟨l, a, n⟩).1 =
    firstStep (decide (a % n ≠ 0)) (!canonical a) (tlbFind (s.core x.seat.core) x.seat.tag a write).isNone
      ((tlbFind (s.core x.seat.core) x.seat.tag a write).any fun t => !hasRight write t) (globLocked s x n write a) := by
  rw [pieceEnd_global]
  by_cases hm : a % n ≠ 0
  · simp [hm, firstStep]
  cases hc : canonical a
  · simp [hm, firstStep]
  cases ht : tlbFind (s.core x.seat.core) x.seat.tag a write with
  | none => simp [hm, firstStep]
  | some t => cases hr : hasRight write t <;> cases hl : globLocked s x n write a <;> simp [hm, hr, firstStep]

section
variable {mis far miss denied locked : Bool}

theorem firstStep_mis : FailsFirst 2 mis (firstStep mis far miss denied locked) := by
  unfold FailsFirst
  decide +revert

theorem firstStep_far (h1 : mis = false) : FailsFirst 3 far (firstStep mis far miss denied locked) := by
  unfold FailsFirst
  decide +revert

theorem firstStep_miss (h1 : mis = false) (h2 : far = false) : FailsFirst 5 miss (firstStep mis far miss denied locked) := by
  unfold FailsFirst
  decide +revert

theorem firstStep_denied (h1 : mis = false) (h2 : far = false) (h3 : miss = false) :
    FailsFirst 6 denied (firstStep mis far miss denied locked) := by
  unfold FailsFirst
  decide +revert

theorem firstStep_locked (h1 : mis = false) (h2 : far = false) (h3 : miss = false) (h4 : denied = false) :
    FailsFirst 8 locked (firstStep mis far miss denied locked) := by
  unfold FailsFirst
  decide +revert

theorem firstStep_passes (h1 : mis = false) (h2 : far = false) (h3 : miss = false) (h4 : denied = false) (h5 : locked = false) :
    firstStep mis far miss denied locked = 0 := by
  decide +revert

end

/-- An access none of whose addresses fails reaches what the entries map. -/
theorem checkAccess_global_passes (h : ∀ e ∈ eas, (pieceEnd s x (request 0 n write eas) ⟨e.1, e.2, n⟩).1 = 0) :
    ∃ accs, checkAccess s x (request 0 n write eas) = .ok accs ∧ accs.map (fun a => (a.lane, a.ea)) = eas ∧
      ∀ a ∈ accs, ∀ t, tlbFind (s.core x.seat.core) x.seat.tag a.ea write = some t → a.at_ = entryPlaces s n a.ea t := by
  refine ⟨_, checkAccess_passes fun p hp => ?_, ?_, fun a ha t ht => ?_⟩
  · obtain ⟨e, he, rfl⟩ := List.mem_map.1 hp
    exact h e he
  · simp only [request, List.map_map]
    exact List.map_id _
  · obtain ⟨p, hp, rfl⟩ := List.mem_map.1 ha
    obtain ⟨e, he, rfl⟩ := List.mem_map.1 hp
    have zero := h e he
    have places := pieceEnd_global (s := s) (x := x) (n := n) (write := write) (eas := eas) e.1 e.2
    rw [ht] at places
    split at places
    · simp [places] at zero
    split at places
    · simp [places] at zero
    dsimp only at places
    split at places
    · simp [places] at zero
    split at places <;> simp [places]

/-- Where a page of an address is not in the buffer, walks are asked for, each at such an address. -/
theorem checkAccess_walks (hs : ∀ e ∈ eas, FailsFirst 5 (tlbFind (s.core x.seat.core) x.seat.tag e.2 write).isNone
      (pieceEnd s x (request 0 n write eas) ⟨e.1, e.2, n⟩).1)
    (hex : ¬∀ e ∈ eas, (tlbFind (s.core x.seat.core) x.seat.tag e.2 write).isNone = false) :
    ∃ l, checkAccess s x (request 0 n write eas) = .error (.walks l write) ∧ l ≠ [] ∧
      ∀ w ∈ l, ∃ e ∈ eas, w.1 = e.2 ∧ (tlbFind (s.core x.seat.core) x.seat.tag e.2 write).isNone = true := by
  obtain ⟨e, he, hb⟩ : ∃ e ∈ eas, (tlbFind (s.core x.seat.core) x.seat.tag e.2 write).isNone = true := by
    by_contra hno
    exact hex fun e he => Bool.eq_false_iff.2 fun hb => hno ⟨e, he, hb⟩
  have fails := checkAccess_fails (r := request 0 n write eas) (k := 5) (by decide) ⟨_, List.mem_map_of_mem he, (hs e he).1.2 hb⟩
    fun p hp => by
      obtain ⟨e, he, rfl⟩ := List.mem_map.1 hp
      exact (hs e he).2
  refine ⟨_, fails, missPages_ne_nil (List.ne_nil_of_mem (List.mem_filter.2 ⟨List.mem_map_of_mem he, by simpa using (hs e he).1.2 hb⟩)),
    fun w hw => ?_⟩
  obtain ⟨p, hp, hw⟩ := missPages_spec _ w hw
  obtain ⟨hp, h5⟩ := List.mem_filter.1 hp
  obtain ⟨e, he, rfl⟩ := List.mem_map.1 hp
  exact ⟨e, he, hw, (hs e he).1.1 (by simpa using h5)⟩

end

/-! ### The old frame of a page that migrates (R340) -/

theorem oldFrame_none {s : State} {pa : Nat} (h : ∀ e ∈ s.migs, e.2.stage = 2 → ¬(e.2.new ≤ pa ∧ pa < e.2.new + e.2.size)) :
    oldFrame s pa = pa := by
  have none : List.find? (fun (e : Nat × Migration) => e.2.stage == 2 && decide (e.2.new ≤ pa) && decide (pa < e.2.new + e.2.size)) s.migs = none :=
    List.find?_eq_none.2 fun e he => by simpa [and_assoc] using h e he
  rw [oldFrame, none]

theorem oldFrame_some {s : State} {pa : Nat} (h : ¬∀ e ∈ s.migs, e.2.stage = 2 → ¬(e.2.new ≤ pa ∧ pa < e.2.new + e.2.size)) :
    ∃ e ∈ s.migs, e.2.stage = 2 ∧ e.2.new ≤ pa ∧ pa < e.2.new + e.2.size ∧ oldFrame s pa = e.2.old + (pa - e.2.new) := by
  unfold oldFrame
  split
  case h_1 e he =>
    have found := List.find?_some he
    simp only [Bool.and_eq_true, beq_iff_eq, decide_eq_true_eq] at found
    exact ⟨e, List.mem_of_find?_eq_some he, found.1.1, found.1.2, found.2, rfl⟩
  case h_2 hn =>
    refine absurd (fun e he hs => ?_) h
    have := List.find?_eq_none.1 hn e he
    simpa [hs] using this

/-- Settles O31: the steps of R163 in the order of the first that fails. -/
theorem accessChecksInOrder : Obligations.AccessChecksInOrder := by
  unfold Obligations.AccessChecksInOrder
  refine ⟨fun s x n write eas hn he => ?_, fun s pa h => oldFrame_none h, fun s pa h => oldFrame_some h⟩
  have step (e : Nat × Nat) := pieceEnd_global_step (s := s) (x := x) (n := n) (write := write) (eas := eas) e.1 e.2
  refine ⟨fun hex => ?_, fun h1 hex => ?_, fun h1 h2 hex => ?_, fun h1 h2 h3 => ⟨fun hex => ?_, fun h4 hex => ?_, fun h4 h5 => ?_⟩⟩
  · exact checkAccess_raises (bad := fun a => decide (a % n ≠ 0)) (k := 2) (by decide) (by decide) (fun e _ => step e ▸ firstStep_mis) hex
  · exact checkAccess_raises (bad := fun a => !canonical a) (k := 3) (by decide) (by decide)
      (fun e he => step e ▸ firstStep_far (h1 e he)) hex
  · exact checkAccess_walks (fun e he => step e ▸ firstStep_miss (h1 e he) (h2 e he)) hex
  · exact checkAccess_raises (bad := fun a => (tlbFind (s.core x.seat.core) x.seat.tag a write).any fun t => !hasRight write t) (k := 6)
      (by decide) (by decide) (fun e he => step e ▸ firstStep_denied (h1 e he) (h2 e he) (h3 e he)) hex
  · exact checkAccess_raises (bad := globLocked s x n write) (k := 8) (by decide) (by decide)
      (fun e he => step e ▸ firstStep_locked (h1 e he) (h2 e he) (h3 e he) (h4 e he)) hex
  · exact checkAccess_global_passes fun e he => (step e).trans (firstStep_passes (h1 e he) (h2 e he) (h3 e he) (h4 e he) (h5 e he))

end Sys2Proof.Machine
end

section
/-!
PROOF of what a window and a scratch address reach (R134, R135, R175).
-/
namespace Sys2Proof.Machine

section
variable {s : State} {x : Crew} {sp n lane a : Nat} {write : Bool}

/-- An access of one piece that reaches its places. -/
theorem checkAccess_one_passes {ps : List Place} (h : pieceEnd s x (request sp n write [(lane, a)]) ⟨lane, a, n⟩ = (0, ps)) :
    checkAccess s x (request sp n write [(lane, a)]) = .ok [⟨lane, a, ps⟩] := by
  have one : (request sp n write [(lane, a)]).pieces = [⟨lane, a, n⟩] := rfl
  rw [checkAccess_passes (by simp [one, h]), one, List.map_singleton, h]

/-- An access of one piece that fails a step other than a miss. -/
theorem checkAccess_one_fails {k : Nat} (hk : k ≠ 0) (h5 : k ≠ 5)
    (h : (pieceEnd s x (request sp n write [(lane, a)]) ⟨lane, a, n⟩).1 = k) :
    checkAccess s x (request sp n write [(lane, a)]) = .error (.trap ⟨stepCause k, lanesMask [lane], BitVec.ofNat 64 a⟩) := by
  have one : (request sp n write [(lane, a)]).pieces = [⟨lane, a, n⟩] := rfl
  rw [checkAccess_fails (k := k) hk (by simp [one, h]) (by simp [one, h]), one]
  simp [stepAnswer, h, h5]

/-- Without a range lock on any core nothing fails step 8. -/
theorem lockEnd_free (h : ∀ g, (s.core g).locks = []) (ps : List Place) : lockEnd s x write ps = (0, ps) := by
  have none : ps.any (lockedByte s x.seat.core x.seat.tag write) = false := List.any_eq_false.2 fun p _ => by simp [lockedByte, h]
  rw [lockEnd, none]
  rfl

/-- The end of an aligned window piece, by what its address is. -/
theorem pieceEnd_window (ha : a % n = 0) : pieceEnd s x (request 1 n write [(lane, a)]) ⟨lane, a, n⟩ =
    match windowAt s x.seat.group x.seat.core a with
    | .denied => (3, [])
    | .absent => (4, [])
    | .at_ (.win c k o) => lockEnd s x write ((List.range n).map fun j => .win c k (o + j))
    | .at_ _ => (3, []) := by
  simp [pieceEnd, request, lockEnd, ha] <;> rfl

/-- The end of an aligned scratch piece. -/
theorem pieceEnd_scratch (ha : a % n = 0) : pieceEnd s x (request 2 n write [(lane, a)]) ⟨lane, a, n⟩ =
    if a + n ≤ scratchSize s x.seat.group x.seat.core then lockEnd s x write ((List.range n).map fun j => .scr x.seat.core (a + j))
    else (3, []) := by
  simp [pieceEnd, request, lockEnd, ha]

section
variable (ha : a % n = 0)
include ha

theorem window_reaches (hl : ∀ g, (s.core g).locks = []) {c k o : Nat} (hw : windowAt s x.seat.group x.seat.core a = .at_ (.win c k o)) :
    checkAccess s x (request 1 n write [(lane, a)]) = .ok [⟨lane, a, (List.range n).map fun j => .win c k (o + j)⟩] :=
  checkAccess_one_passes (by rw [pieceEnd_window ha, hw]; exact lockEnd_free hl _)

theorem window_denied (hw : windowAt s x.seat.group x.seat.core a = .denied) :
    checkAccess s x (request 1 n write [(lane, a)]) = .error (.trap ⟨0x04, lanesMask [lane], BitVec.ofNat 64 a⟩) :=
  checkAccess_one_fails (k := 3) (by decide) (by decide) (by rw [pieceEnd_window ha, hw])

theorem window_absent (hw : windowAt s x.seat.group x.seat.core a = .absent) :
    checkAccess s x (request 1 n write [(lane, a)]) = .error (.trap ⟨0x06, lanesMask [lane], BitVec.ofNat 64 a⟩) :=
  checkAccess_one_fails (k := 4) (by decide) (by decide) (by rw [pieceEnd_window ha, hw])

end

end

/-! ### What a window address is (R134, R135) -/

section
variable {s : State} {gi g a : Nat} {gr : Group} (hg : s.group? gi = some gr)
include hg

theorem windowAt_own (ha : a < 0x10000000) : windowAt s gi g a =
    if a < 0x600000 ∧ gr.holds (a / 0x40000) = true then .at_ (.win g (a / 0x40000) (a % 0x40000)) else .denied := by
  simp only [windowAt, hg, if_pos ha]

theorem windowAt_beyond (ha : 0x14000000 ≤ a) : windowAt s gi g a = .denied := by
  simp only [windowAt, hg, if_neg (show ¬a < 0x10000000 by omega), if_pos (show a ≥ 0x14000000 by omega)]

/-- A peer's window, whose group `h` is known. -/
theorem windowAt_peer {v : Convoy} {hi : Nat} {h : Group} (h1 : 0x10000000 ≤ a) (h2 : a < 0x14000000) (ho : a % 0x1000000 < 0x600000)
    (hv : s.convoy? gr.convoy = some v) (hk : (a - 0x10000000) / 0x1000000 ≠ g % 4)
    (hx : v.groups[(a - 0x10000000) / 0x1000000 ^^^ v.x]? = some hi) (hh : s.group? hi = some h) : windowAt s gi g a =
    if v.freed.contains ((a - 0x10000000) / 0x1000000 ^^^ v.x) = true ∨ h.state = .closing then .absent
    else if h.holds (a % 0x1000000 / 0x40000) then
      .at_ (.win (4 * (g / 4) + (a - 0x10000000) / 0x1000000) (a % 0x1000000 / 0x40000) (a % 0x1000000 % 0x40000))
    else .denied := by
  simp only [windowAt, hg, if_neg (show ¬a < 0x10000000 by omega), if_neg (show ¬a ≥ 0x14000000 by omega),
    if_neg (show ¬a % 0x1000000 ≥ 0x600000 by omega), coreInCluster, clusterOf, if_neg hk, hv, hx, hh]

end

/-- Settles O32: each address by what it is. -/
theorem windowAndScratchPlaces : Obligations.WindowAndScratchPlaces := by
  unfold Obligations.WindowAndScratchPlaces
  intro s x gr n write lane a hn h16 ha hdiv hg hl
  have holds (k : Group) (j : Nat) : (k.arr0 ≤ j ∧ j < k.arr0 + k.nsto + k.ncomp) ↔ k.holds j = true := by simp [Group.holds]
  refine ⟨fun h1 h2 h3 => ?_, fun h1 h2 => ?_, fun h1 => window_denied ha (windowAt_beyond hg h1), fun v hi h h1 h2 ho hv hk hx hh => ⟨fun hf => ?_,
    fun hf hc hh2 => ?_⟩, fun hsize => ?_, fun hsize => ?_⟩
  · exact window_reaches ha hl ((windowAt_own hg h1).trans (if_pos ⟨h2, (holds gr _).1 h3⟩))
  · exact window_denied ha ((windowAt_own hg h1).trans (if_neg fun h => h2 ⟨h.1, (holds gr _).2 h.2⟩))
  · exact window_absent ha ((windowAt_peer hg h1 h2 ho hv hk hx hh).trans (if_pos hf))
  · refine window_reaches ha hl ((windowAt_peer hg h1 h2 ho hv hk hx hh).trans ?_)
    rw [if_neg fun h => h.elim (fun h => by rw [hf] at h; cases h) hc, if_pos ((holds h _).1 hh2)]
  · exact checkAccess_one_passes (by rw [pieceEnd_scratch ha, if_pos (show a + n ≤ scratchSize s x.seat.group x.seat.core from hsize)]; exact lockEnd_free hl _)
  · exact checkAccess_one_fails (k := 3) (by decide) (by decide)
      (by rw [pieceEnd_scratch ha, if_neg (show ¬a + n ≤ scratchSize s x.seat.group x.seat.core from Nat.not_le.2 hsize)])

end Sys2Proof.Machine
end

section
/-!
PROOF of what loads and stores have in common: the checks and addresses at issue, an access without a lane (R161), what a release at SYSTEM scope
needs (R360) and the operation an effect leaves in flight.
-/
namespace Sys2Proof.Machine

/-! ### The checks see no change of a crew, a scheduler or the register cache -/

section
variable {c : Nat} {s t : State} (h : Elsewhere c s t)
include h

/-- What of a core such a change leaves. -/
theorem Elsewhere.core_access (g : Nat) : (t.core g).tlb = (s.core g).tlb ∧ (t.core g).locks = (s.core g).locks ∧
    (t.core g).scratch = (s.core g).scratch := by
  have e := h.cores g
  refine ⟨?_, ?_, ?_⟩ <;> rw [← e]

theorem Elsewhere.migs : t.migs = s.migs := by
  have e := h.tables
  rw [← e]

theorem pieceEnd_elsewhere (x : Crew) (r : Req) (p : Piece) : pieceEnd t x r p = pieceEnd s x r p := by
  obtain ⟨-, -, -, -, -, -, -, -, hgroups, hconvoys, -⟩ := h.fields
  have core (g : Nat) := h.core_access g
  have locked (g tag : Nat) (w : Bool) : lockedByte t g tag w = lockedByte s g tag w := by
    funext p
    unfold lockedByte
    dsimp only
    rw [(core _).2.1]
  have window : windowAt t x.seat.group x.seat.core p.ea = windowAt s x.seat.group x.seat.core p.ea := by
    simp only [windowAt, State.group?, State.convoy?, hgroups, hconvoys]
  have scratch : scratchSize t x.seat.group x.seat.core = scratchSize s x.seat.group x.seat.core := by
    simp only [scratchSize, (core _).2.2]
  have mapped (rt : Right) : translate t x.seat.core x.seat.tag p.ea rt = translate s x.seat.core x.seat.tag p.ea rt := by
    simp only [translate, tlbFind, oldFrame, (core _).1, h.migs]
  simp only [pieceEnd, locked, window, scratch, mapped]

theorem checkAccess_elsewhere (x : Crew) (r : Req) : checkAccess t x r = checkAccess s x r := by
  simp only [checkAccess, pieceEnd_elsewhere h]

end

/-- An access that passes has reached what its pieces do. -/
theorem checkAccess_ok {s : State} {x : Crew} {r : Req} {accs : List LaneAcc} (h : checkAccess s x r = .ok accs) :
    accs = r.pieces.map fun p => ⟨p.lane, p.ea, (pieceEnd s x r p).2⟩ := by
  unfold checkAccess at h
  dsimp only at h
  split at h
  · rw [List.map_map] at h
    exact (Except.ok.inj h).symm
  · split at h <;> cases h

theorem checkAccess_lanes {s : State} {x : Crew} {sp n : Nat} {write : Bool} {eas : List (Nat × Nat)} {accs : List LaneAcc}
    (h : checkAccess s x (request sp n write eas) = .ok accs) : accs.map (fun a => (a.lane, a.ea)) = eas := by
  rw [checkAccess_ok h]
  simp only [request, List.map_map]
  exact List.map_id _

/-! ### Addresses at issue (R160) -/

theorem addrWrap_eq (sp : Nat) (v : Int) : addrWrap sp v = wrap (spaceBits sp) v := by
  unfold addrWrap spaceBits
  split <;> rfl

theorem signed_mod (w n : Nat) : signed w (n % 2 ^ w) = signed w n := by
  simp only [signed, Nat.mod_mod]

section
variable {i : Instr} {s : State} {x : Crew} (h : Ready i s x)
include h

theorem vecAddrs_issued (sp : Nat) (a b : Reg) (sh : Nat) :
    vecAddrs (issOf i s x) (issued i s x) sp a b sh = laneEas s x (spaceBits sp) a b sh := by
  refine List.map_congr_left fun l _ => ?_
  rw [addrWrap_eq, scalarN_issued h]
  have lane : srcL x 32 b l = (issOf i s x).lane32 b 0 l % 2 ^ 32 := rfl
  rw [lane, signed_mod]

theorem ptrAddrs_issued (sp : Nat) (a b : Reg) : ptrAddrs (issOf i s x) (issued i s x) sp a b = pointerEas s x (spaceBits sp) a b := by
  refine List.map_congr_left fun l _ => ?_
  rw [addrWrap_eq, scalarN_issued h]
  rfl

theorem scalarAddr_issued (sp : Nat) (a b : Reg) : scalarAddr (issOf i s x) (issued i s x) sp a b = scalarEas s x (spaceBits sp) a b := by
  simp only [scalarAddr, scalarEas, addrWrap_eq, scalarN_issued h]

theorem scalarData_issued (w : Nat) (r : Reg) : scalarData (issOf i s x) (issued i s x) w r = scalarData (issOf i s x) s w r := by
  simp only [scalarData, scalarAt_issued h]

end

/-- With no lane active there is no address. -/
theorem laneEas_none {x : Crew} (h : x.ctl.em = 0) (s : State) (w : Nat) (a b : Reg) (sh : Nat) : laneEas s x w a b sh = [] := by
  rw [laneEas, activeLanes_eq_nil.2 h]
  rfl

theorem pointerEas_none {x : Crew} (h : x.ctl.em = 0) (s : State) (w : Nat) (a b : Reg) : pointerEas s x w a b = [] := by
  rw [pointerEas, activeLanes_eq_nil.2 h]
  rfl

/-! ### A release at SYSTEM scope (R360) -/

section
variable {i : Instr} {s a : State} {x z : Crew} (hz : a.crew? s.cur = some z) (hsq : z.sq = x.sq) (hreq : z.req = x.req)
include hz hsq hreq

/-- Nothing stands in its way. -/
theorem sysRelease_free {ord scope : Nat} (h : sysFree x ord scope) (h0 : ord ≠ 0) : sysRelease (issOf i s x) a ord scope = none := by
  unfold sysRelease
  split
  · next hs =>
    obtain ⟨hq, hd⟩ : x.sq = [] ∧ x.req.discard = none := by
      rcases h with h | h | h
      · omega
      · exact absurd hs.1 h
      · exact h
    have e : a.crew? (issOf i s x).c = some z := hz
    rw [e]
    simp only [hsq, hreq, hq, hd]
    rfl
  · rfl

end

/-! ### The operation an effect leaves in flight, whatever else it has done -/

section
variable {i : Instr} {s a : State} {x z : Crew} (hz : a.crew? s.cur = some z) (hn : a.nextId = s.nextId)
include hz hn

/-- The operation is in flight under its name, its crew has its tag, and nothing else has changed. -/
theorem giveOp_fields (k : OpKind) : let t := giveOp (issOf i s x) a k
    t.crew? s.cur = some (allocTag z i.hdr.tag.toNat ⟨some s.nextId, i.hdr.look.toNat, {}, dstRegs i, false⟩) ∧
      t.op? s.nextId = some ⟨s.cur, i.hdr.tag.toNat, x.bank, x.ctl.em, k⟩ ∧ (∀ o, o ≠ s.nextId → t.op? o = a.op? o) ∧
      (∀ d, d ≠ s.cur → t.crew? d = a.crew? d) ∧
      { t with crews := a.crews, ops := a.ops, nextId := a.nextId } = a := by
  have e : giveOp (issOf i s x) a k = (({ a with nextId := s.nextId + 1 } : State).setOp s.nextId
      ⟨s.cur, i.hdr.tag.toNat, x.bank, x.ctl.em, k⟩).updCrew s.cur fun x =>
        allocTag x i.hdr.tag.toNat ⟨some s.nextId, i.hdr.look.toNat, {}, dstRegs i, false⟩ := by
    rw [← hn]
    rfl
  rw [e]
  refine ⟨?_, ?_, fun o ne => ?_, fun d hd => ?_, ?_⟩
  · rw [State.crew?_updCrew_self, State.crew?_setOp]
    exact congrArg (Option.map _) hz
  · rw [State.op?_updCrew, State.op?_setOp_self]
  · rw [State.op?_updCrew, State.op?_setOp_ne _ _ ne]
    rfl
  · rw [State.crew?_updCrew_ne _ _ hd, State.crew?_setOp]
    rfl
  · unfold State.updCrew
    split <;> rfl

end

/-! ### An access without a lane (R161) -/

section
variable {i : Instr} {s : State} {x : Crew} (h : Ready i s x)
include h

theorem fenceAfter_issued (a : State) (hops : a.ops = s.ops) {z : Crew} (hz : a.crew? s.cur = some z) (hsq : z.sq = x.sq) (ord scope : Nat) :
    fenceAfter a s.cur ord scope = fenceAfter s s.cur ord scope := by
  simp only [fenceAfter, loadsOf, hops, hz, h.1.1, Option.map_some, hsq]

theorem noLanes_of {mm : MemMods} {eff : Iss → State → Effect} (he : exec i s = run i eff s)
    (hd : eff (issOf i s x) (issued i s x) = noLanes (issOf i s x) (issued i s x) mm.ord.toNat mm.scope.toNat) : NoLanes i s x mm := by
  have hc := issued_crew h
  refine ⟨fun h0 => ?_, fun h0 hfree => ?_⟩
  · refine sets_of_giveTag h (rf := x.rf) hc (Elsewhere.refl _ _) he (hd.trans ?_)
    rw [noLanes, h0]
    rfl
  · have h1 : mm.ord.toNat ≠ 0 := fun e => h0 (BitVec.eq_of_toNat_eq e)
    let k : OpKind := .fence mm.ord.toNat mm.scope.toNat (fenceAfter s s.cur mm.ord.toNat mm.scope.toNat) false []
    let a : State := ({ issued i s x with nextId := s.nextId + 1 } : State).setOp s.nextId ⟨s.cur, 8, x.bank, x.ctl.em, k⟩
    have ha : a.crew? s.cur = some (issuedCrew s x) := hc
    have effect : eff (issOf i s x) (issued i s x) = .done (giveTag (issOf i s x) a) := by
      rw [hd, noLanes, if_neg h1, sysRelease_free (x := x) hc rfl rfl hfree h1]
      have after := fenceAfter_issued h ({ issued i s x with nextId := (issued i s x).nextId + 1 } : State) (issued_ops h) hc rfl
        mm.ord.toNat mm.scope.toNat
      simp only [State.fresh, issued_nextId h] at after ⊢
      rw [show fenceAfter _ (issOf i s x).c mm.ord.toNat mm.scope.toNat = _ from after]
      rfl
    obtain ⟨t, hrun, hy, helse, -⟩ := exec_giveTag h (own := noReason) rfl he effect ha h.1.2.1
    have ops (o : Nat) : t.op? o = a.op? o := congrArg (SMap.find? · o) helse.fields.2.1
    refine ⟨t, _, hrun, hy, rfl, rfl, rfl, ?_, ?_, fun d hd => ?_, fun o ho => ?_⟩
    · rw [ops]
      exact State.op?_setOp_self ..
    · exact helse.fields.2.2.2.1.trans (issued_else h).fields.2.2.2.1
    · exact (helse.crews d hd).trans ((issued_else h).crews d hd)
    · rw [ops, State.op?_setOp_ne _ _ ho]
      exact congrArg (SMap.find? · o) (issued_ops h)

end

end Sys2Proof.Machine
end

section
/-!
PROOF of the stores (R165, R166, R222): the checks, the bound entry, and the entry of the store queue.
-/
namespace Sys2Proof.Machine

/-! ### The bound entry (R166, R222) -/

section
variable {s : State} {tag : Nat} {l : List (Nat × Nat)} {e : BitVec 6} {u : Context}

/-- An entry that no update is changing is checked as it stands. -/
theorem boundNow_settled {n : Nat} (hu : s.ctx? tag = some u) (hn : ∀ v ∈ u.updates, v.2.1 ≠ n) :
    boundNow s tag n = (u.bounds.getD n Bound.cleared, s) := by
  have none : List.find? (fun v : Nat × Nat × Bound => v.2.1 == n) u.updates = none := List.find?_eq_none.2 fun v hv => by simpa using hn v hv
  simp only [boundNow, hu, none]

variable (hu : s.ctx? tag = some u) (hn : ∀ v ∈ u.updates, v.2.1 ≠ e.toNat)
include hu hn

theorem boundStore_inside (h : ∀ v ∈ l, (u.bounds.getD e.toNat Bound.cleared).outside v.2 = false) :
    boundStore s tag (some e) l = (.ok l, s) := by
  have none : l.filter (fun v => (u.bounds.getD e.toNat Bound.cleared).outside v.2) = [] :=
    List.filter_eq_nil_iff.2 fun v hv => by simp [h v hv]
  simp [boundStore, boundNow_settled hu hn, none]

theorem boundStore_traps (h : ∃ v ∈ l, (u.bounds.getD e.toNat Bound.cleared).outside v.2 = true)
    (ha : (u.bounds.getD e.toNat Bound.cleared).act = 2) : boundStore s tag (some e) l =
      (.error ((l.filter fun v => (u.bounds.getD e.toNat Bound.cleared).outside v.2).map (·.1)), s) := by
  obtain ⟨v, hv, ho⟩ := h
  have some : ((l.filter fun v => (u.bounds.getD e.toNat Bound.cleared).outside v.2).map (·.1)).isEmpty = false := by
    rw [Bool.eq_false_iff, ne_eq, List.isEmpty_iff, List.map_eq_nil_iff, List.filter_eq_nil_iff]
    exact fun h => h v hv ho
  simp [boundStore, boundNow_settled hu hn, some, ha]

theorem boundStore_hits (h : ∃ v ∈ l, (u.bounds.getD e.toNat Bound.cleared).outside v.2 = true)
    (ha : (u.bounds.getD e.toNat Bound.cleared).act ≠ 2) : boundStore s tag (some e) l =
      (.ok (if (u.bounds.getD e.toNat Bound.cleared).act = 1 then
        l.map fun v => (v.1, if (u.bounds.getD e.toNat Bound.cleared).outside v.2 then (u.bounds.getD e.toNat Bound.cleared).clamp v.2 else v.2)
        else l), setHit s tag e.toNat (u.bounds.getD e.toNat Bound.cleared)) := by
  obtain ⟨v, hv, ho⟩ := h
  have some : ((l.filter fun v => (u.bounds.getD e.toNat Bound.cleared).outside v.2).map (·.1)).isEmpty = false := by
    rw [Bool.eq_false_iff, ne_eq, List.isEmpty_iff, List.map_eq_nil_iff, List.filter_eq_nil_iff]
    exact fun h => h v hv ho
  simp only [boundStore, boundNow_settled hu hn, some, ha, Bool.false_eq_true, if_false]

end

/-- An entry that is not listed is cleared, and no value is outside it. -/
theorem outside_listed {u : Context} {n v : Nat} (h : (u.bounds.getD n Bound.cleared).outside v = true) :
    ∃ b, u.bounds.find? n = some b ∧ u.bounds.getD n Bound.cleared = b := by
  cases hb : u.bounds.find? n with
  | some b => exact ⟨b, rfl, by simp [SMap.getD, hb]⟩
  | none => simp [SMap.getD, hb, Bound.cleared, Bound.outside] at h

/-- The entry a check used has its hit flag set, and nothing but bound entries changes. -/
theorem setHit_ctx {s : State} {tag n v : Nat} {u : Context} (hu : s.ctx? tag = some u) (ho : (u.bounds.getD n Bound.cleared).outside v = true) :
    ∃ w, (setHit s tag n (u.bounds.getD n Bound.cleared)).ctx? tag = some w ∧
      w.bounds.getD n Bound.cleared = { u.bounds.getD n Bound.cleared with hit := true } ∧
      { w with bounds := u.bounds, updates := u.updates } = u := by
  obtain ⟨b, hb, hd⟩ := outside_listed ho
  refine ⟨_, (SMap.find?_modify_self s.ctxs tag _).trans (congrArg _ hu), ?_, rfl⟩
  simp [SMap.getD, SMap.find?_modify_self, hb]

/-! ### The bytes of an entry -/

/-- The value found for a lane of the list. -/
theorem find_lane (l : List (Nat × Nat)) (f : Nat → Nat) {a : Nat} (h : a ∈ l.map (·.1)) :
    (((l.map fun e => (e.1, f e.1)).find? fun e => e.1 == a).map (·.2)).getD 0 = f a := by
  obtain ⟨e, he, rfl⟩ := List.mem_map.1 h
  cases hf : (l.map fun e => (e.1, f e.1)).find? fun v => v.1 == e.1 with
  | none =>
    have := List.find?_eq_none.1 hf (e.1, f e.1) (List.mem_map_of_mem he)
    simp at this
  | some v =>
    obtain ⟨w, hw, rfl⟩ := List.mem_map.1 (List.mem_of_find?_eq_some hf)
    have same : w.1 = e.1 := by simpa using List.find?_some hf
    exact congrArg f same

theorem bytes_eq {accs : List LaneAcc} {l : List (Nat × Nat)} (hl : accs.map (fun a => (a.lane, a.ea)) = l) (n : Nat) (f : Nat → Nat) :
    (accs.flatMap fun a =>
      let v := (((l.map fun e => (e.1, f e.1)).find? fun e => e.1 == a.lane).map (·.2)).getD 0
      (a.at_.zip (toBytes n v)).map fun e => (a.lane, e.1, e.2)) = storedBytes accs n f := by
  refine List.flatMap_congr fun a ha => ?_
  have lane : a.lane ∈ l.map (·.1) := by
    rw [← hl, List.map_map]
    exact List.mem_map_of_mem (f := LaneAcc.lane) ha
  rw [find_lane l f lane]

/-- Nothing holds back the release of a store. -/
theorem store_released {i : Instr} {s t : State} {x : Crew} {mm : MemMods} (ht : t.crew? s.cur = some (issuedCrew s x))
    (hfree : sysFree x mm.ord.toNat mm.scope.toNat) :
    (if mm.ord = 2 then sysRelease (issOf i s x) t 2 mm.scope.toNat else none) = none := by
  split
  · next ho =>
    rw [ho] at hfree
    exact sysRelease_free (x := x) ht rfl rfl hfree (by decide)
  · rfl

/-! ### The effect of a store -/

section
variable {i : Instr} {s : State} {x : Crew} (h : Ready i s x) {sp : Nat} {ty : MemTy} {mm : MemMods} {eas : List (Nat × Nat)} {data : Nat → Nat}
  {eff : Iss → State → Effect} (he : exec i s = run i eff s)
  (hd : eff (issOf i s x) (issued i s x) = storeForm (issOf i s x) (issued i s x) sp ty mm eas data)
include h he hd

theorem store_waits (hne : eas ≠ []) (hfull : 32 ≤ x.sq.length) : exec i s = .next (toWaiting (useLines s s.cur x i) s.cur .queueSpace) := by
  obtain ⟨e, l, rfl⟩ := List.exists_cons_of_ne_nil hne
  have full : queueFull (issOf i s x).x = true := decide_eq_true hfull
  have effect : eff (issOf i s x) (issued i s x) = .wait .queueSpace := by
    rw [hd, storeForm, full]
    · rfl
    · exact List.cons_ne_nil e l
  rw [he, run, issue_ready h (own := noReason) rfl, effect]

variable {accs : List LaneAcc} (hne : eas ≠ []) (hroom : x.sq.length < 32) (hok : checkAccess s x (request sp ty.bytes true eas) = .ok accs)
include hne hroom hok

omit he in
/-- With its checks passed a store is its bound check, then its entry. -/
theorem store_effect : eff (issOf i s x) (issued i s x) =
    match boundStore (issued i s x) x.seat.tag mm.bnd (eas.map fun e => (e.1, data e.1)) with
    | (.error bad, _) =>
      .trap ⟨0x0C, lanesMask bad, BitVec.ofNat 64 ((accs.filter fun a => bad.contains a.lane).foldl (fun m a => min m a.ea)
        ((accs.filter fun a => bad.contains a.lane).headD ⟨0, 0, []⟩).ea)⟩
    | (.ok vals, t) =>
      match if mm.ord = 2 then sysRelease (issOf i s x) t 2 mm.scope.toNat else none with
      | some e => e
      | none => .done (giveEntry (issOf i s x) t none (.lanes 0) (.store (accs.flatMap fun a =>
          let v := ((vals.find? fun e => e.1 == a.lane).map (·.2)).getD 0
          (a.at_.zip (toBytes ty.bytes v)).map fun e => (a.lane, e.1, e.2)) mm.ord.toNat mm.scope.toNat mm.ch.toNat)) := by
  obtain ⟨e, l, rfl⟩ := List.exists_cons_of_ne_nil hne
  have room : queueFull (issOf i s x).x = false := decide_eq_false (by simpa [issOf] using hroom)
  have ok : checkAccess (issued i s x) (issOf i s x).x (request sp ty.bytes true (e :: l)) = .ok accs :=
    (checkAccess_elsewhere (issued_else h) _ _).trans hok
  rw [hd, storeForm, room]
  · simp only [request] at ok
    simp only [ok, Bool.false_eq_true, if_false]
    rfl
  · exact List.cons_ne_nil e l

theorem store_queues (hfree : sysFree x mm.ord.toNat mm.scope.toNat)
    (hb : boundStore (issued i s x) x.seat.tag mm.bnd (eas.map fun e => (e.1, data e.1)) = (.ok (eas.map fun e => (e.1, data e.1)), issued i s x)) :
    Queues i s x none (.lanes 0) (.store (storedBytes accs ty.bytes data) mm.ord.toNat mm.scope.toNat mm.ch.toNat) := by
  refine queues_of h (own := noReason) rfl he ?_
  rw [store_effect h hd hne hroom hok, hb]
  dsimp only
  rw [store_released (issued_crew h) hfree, bytes_eq (checkAccess_lanes hok)]

theorem store_traps {bad : List (Nat × Nat)} (hbad : bad ≠ []) {p : Nat → Bool} (hp : bad = eas.filter fun a => p a.1)
    (hb : boundStore (issued i s x) x.seat.tag mm.bnd (eas.map fun e => (e.1, data e.1)) = (.error (bad.map (·.1)), issued i s x)) :
    TrapsLanes i s x 0x0C bad := by
  have lanes := checkAccess_lanes hok
  have mem (a : LaneAcc) (ha : a ∈ accs) : (a.lane, a.ea) ∈ eas := lanes ▸ List.mem_map_of_mem ha
  have stopped (a : LaneAcc) (ha : a ∈ accs) : (bad.map (·.1)).contains a.lane = p a.lane := by
    rw [Bool.eq_iff_iff, List.contains_iff_mem, hp]
    constructor
    · intro hm
      obtain ⟨e, he, hl⟩ := List.mem_map.1 hm
      exact hl ▸ (List.mem_filter.1 he).2
    · exact fun ht => List.mem_map_of_mem (f := (·.1)) (List.mem_filter.2 ⟨mem a ha, ht⟩)
  have back (q : Nat × Nat) (hq : q ∈ bad) : ∃ a ∈ accs.filter fun a => (bad.map (·.1)).contains a.lane, (a.lane, a.ea) = q := by
    have hin : q ∈ eas := (List.mem_filter.1 (hp ▸ hq)).1
    obtain ⟨a, ha, rfl⟩ := List.mem_map.1 (lanes ▸ hin)
    exact ⟨a, List.mem_filter.2 ⟨ha, by rw [List.contains_iff_mem]; exact List.mem_map_of_mem hq⟩, rfl⟩
  obtain ⟨q, hq⟩ := List.exists_mem_of_ne_nil bad hbad
  obtain ⟨a, ha, hlow, hall⟩ := foldl_min_head (·.ea) (accs.filter fun a => (bad.map (·.1)).contains a.lane) ⟨0, 0, []⟩
    (let ⟨a, ha, _⟩ := back q hq; List.ne_nil_of_mem ha)
  obtain ⟨hin, hstop⟩ := List.mem_filter.1 ha
  refine ⟨(a.lane, a.ea), ?_, fun r hr => ?_, traps_of h (own := noReason) rfl he ?_⟩
  · rw [hp]
    exact List.mem_filter.2 ⟨mem a hin, stopped a hin ▸ hstop⟩
  · obtain ⟨b, hb, rfl⟩ := back r hr
    exact hall b hb
  · rw [store_effect h hd hne hroom hok, hb]
    dsimp only
    rw [hlow]

/-- A store that sets a hit flag: its entry holds `f` of each lane, and of the tables only the context has changed. -/
theorem store_hits (hfree : sysFree x mm.ord.toNat mm.scope.toNat) {f : Nat → Nat} {e n : Nat} {b : Bound}
    (hb : boundStore (issued i s x) x.seat.tag mm.bnd (eas.map fun e => (e.1, data e.1)) =
      (.ok (eas.map fun e => (e.1, f e.1)), setHit (issued i s x) n e b)) :
    ∃ t y, exec i s = .next t ∧ t.crew? s.cur = some y ∧ y.rf = x.rf ∧ y.ctl = nextPc x ∧
      y.sq = x.sq ++ [⟨.store (storedBytes accs ty.bytes f) mm.ord.toNat mm.scope.toNat mm.ch.toNat, s.nextId⟩] ∧
      t.mem = s.mem ∧ OthersKept s t ∧ t.ctxs = (setHit s n e b).ctxs := by
  let a := setHit (issued i s x) n e b
  have ha : a.crew? s.cur = some (issuedCrew s x) := issued_crew h
  let q : SqKind := .store (storedBytes accs ty.bytes f) mm.ord.toNat mm.scope.toNat mm.ch.toNat
  have effect : eff (issOf i s x) (issued i s x) = .done (giveEntry (issOf i s x) a none (.lanes 0) q) := by
    rw [store_effect h hd hne hroom hok, hb]
    dsimp only
    rw [store_released ha hfree, bytes_eq (checkAccess_lanes hok)]
  obtain ⟨hcrew, -, hops, hother, hrest⟩ := giveOp_fields (i := i) (x := x) ha (issued_nextId h) (.queued none (.lanes 0))
  let u := giveEntry (issOf i s x) a none (.lanes 0) q
  have hu : u.crew? s.cur = some { allocTag (issuedCrew s x) i.hdr.tag.toNat ⟨some s.nextId, i.hdr.look.toNat, {}, dstRegs i, false⟩ with
      sq := x.sq ++ [⟨q, s.nextId⟩] } := by
    refine (State.crew?_updCrew_self _ s.cur _).trans ?_
    rw [hcrew, show a.nextId = s.nextId from issued_nextId h]
    rfl
  have helse := (elsewhere_updCrew (giveOp (issOf i s x) a (.queued none (.lanes 0))) s.cur fun x => { x with sq := x.sq ++ [⟨q, a.nextId⟩] }).trans
    (elsewhere_afterYield u s.cur i.hdr.yield)
  obtain ⟨-, hops', -, hmem, -, -, hctxs, -⟩ := helse.fields
  obtain ⟨-, hops0, -, hmem0, -, -, hctxs0, -⟩ := (issued_else h).fields
  have hmem1 : (giveOp (issOf i s x) a (.queued none (.lanes 0))).mem = a.mem := by
    have e := congrArg State.mem hrest
    exact e
  have hctxs1 : (giveOp (issOf i s x) a (.queued none (.lanes 0))).ctxs = a.ctxs := by
    have e := congrArg State.ctxs hrest
    exact e
  have hctxs2 : a.ctxs = (setHit s n e b).ctxs := by
    show SMap.modify (issued i s x).ctxs n _ = SMap.modify s.ctxs n _
    rw [hctxs0]
  refine ⟨_, _, by rw [he, run, issue_ready h (own := noReason) rfl, effect], crew?_afterYield hu h.1.2.1 _, rfl, rfl, rfl,
    hmem.trans (hmem1.trans hmem0), ⟨fun d hd => (helse.crews d hd).trans ((hother d hd).trans ((issued_else h).crews d hd)), fun o ho => ?_⟩,
    hctxs.trans (hctxs1.trans hctxs2)⟩
  exact (congrArg (SMap.find? · o) hops').trans ((hops o ho).trans (congrArg (SMap.find? · o) hops0))

end

/-- A store is what R165 and R166 say. -/
theorem stores_of {i : Instr} {s : State} {x : Crew} (h : Ready i s x) {sp : Nat} {ty : MemTy} {mm : MemMods} {eas : List (Nat × Nat)}
    {data : Nat → Nat} {eff : Iss → State → Effect} (he : exec i s = run i eff s)
    (hd : eff (issOf i s x) (issued i s x) = storeForm (issOf i s x) (issued i s x) sp ty mm eas data) : Stores i s x sp ty mm eas data := by
  refine fun hne => ⟨store_waits h he hd hne, fun accs hroom hok => ⟨fun hb hfree => ?_, fun e u hb hu hn => ?_⟩⟩
  · exact store_queues h he hd hne hroom hok hfree (by rw [hb]; rfl)
  have hu' : (issued i s x).ctx? x.seat.tag = some u := (congrArg (SMap.find? · x.seat.tag) (issued_else h).fields.2.2.2.2.2.2.1).trans hu
  have outside (hbad : (eas.filter fun a => (u.bounds.getD e.toNat Bound.cleared).outside (data a.1)) ≠ []) :
      ∃ v ∈ eas.map fun e => (e.1, data e.1), (u.bounds.getD e.toNat Bound.cleared).outside v.2 = true := by
    obtain ⟨a, ha⟩ := List.exists_mem_of_ne_nil _ hbad
    obtain ⟨hin, ho⟩ := List.mem_filter.1 ha
    exact ⟨_, List.mem_map_of_mem hin, ho⟩
  refine ⟨fun hin hfree => ?_, fun hbad hact => ?_, fun hbad hact hfree => ?_⟩
  · refine store_queues h he hd hne hroom hok hfree ?_
    rw [hb, boundStore_inside hu' hn fun v hv => ?_]
    obtain ⟨a, ha, rfl⟩ := List.mem_map.1 hv
    simpa using List.filter_eq_nil_iff.1 hin a ha
  · refine store_traps h he hd hne hroom hok hbad (p := fun l => (u.bounds.getD e.toNat Bound.cleared).outside (data l)) rfl ?_
    rw [hb, boundStore_traps hu' hn (outside hbad) hact, List.filter_map, List.map_map]
    rfl
  · obtain ⟨t, y, hrun, hy, hrf, hctl, hsq, hmem, hkept, hctxs⟩ := store_hits h he hd hne hroom hok hfree
      (f := fun l => if (u.bounds.getD e.toNat Bound.cleared).act = 1 ∧ (u.bounds.getD e.toNat Bound.cleared).outside (data l) = true then
        (u.bounds.getD e.toNat Bound.cleared).clamp (data l) else data l)
      (b := u.bounds.getD e.toNat Bound.cleared) (e := e.toNat) (n := x.seat.tag) (by
        rw [hb, boundStore_hits hu' hn (outside hbad) hact]
        by_cases h1 : (u.bounds.getD e.toNat Bound.cleared).act = 1 <;> simp [h1])
    obtain ⟨v, hv, ho⟩ := outside hbad
    obtain ⟨w, hw, hbound, hrest⟩ := setHit_ctx (s := s) hu ho
    exact ⟨t, y, w, hrun, hy, hrf, hctl, hsq, hmem, hkept, (congrArg (SMap.find? · x.seat.tag) hctxs).trans hw, hbound, hrest⟩

/-- A store of no lane is what R161 says. -/
theorem store_noLanes {i : Instr} {s : State} {x : Crew} (h : Ready i s x) {sp : Nat} {ty : MemTy} {mm : MemMods} {eas : List (Nat × Nat)}
    {data : Nat → Nat} {eff : Iss → State → Effect} (he : exec i s = run i eff s)
    (hd : eff (issOf i s x) (issued i s x) = storeForm (issOf i s x) (issued i s x) sp ty mm eas data) (hn : eas = []) : NoLanes i s x mm := by
  subst hn
  exact noLanes_of h he hd

/-- Settles O34: each form by its addresses and data. -/
theorem storesQueue : Obligations.StoresQueue := by
  unfold Obligations.StoresQueue
  refine ⟨fun h o s x hr => ?sts, fun h o s x hr => ?stg, fun h o s x hr => ?stx, fun h o s x hr => ?stsc⟩
  case sts =>
    have hd := fun data => congrArg (storeForm (issOf (.sts h o) s x) (issued (.sts h o) s x) (if o.scr then 2 else 1) o.ty o.mm · data)
      (vecAddrs_issued hr (if o.scr then 2 else 1) o.a o.b o.sh.toNat)
    have bits : spaceBits (if o.scr then 2 else 1) = 32 := by cases o.scr <;> rfl
    rw [bits] at hd
    exact ⟨stores_of hr rfl (hd _), fun hem => store_noLanes hr rfl (hd _) (laneEas_none hem ..)⟩
  case stg =>
    have hd := fun data => congrArg (storeForm (issOf (.stg h o) s x) (issued (.stg h o) s x) 0 o.ty o.mm · data)
      (vecAddrs_issued hr 0 o.a o.b o.sh.toNat)
    exact ⟨stores_of hr rfl (hd _), fun hem => store_noLanes hr rfl (hd _) (laneEas_none hem ..)⟩
  case stx =>
    have hd := fun data => congrArg (storeForm (issOf (.stx h o) s x) (issued (.stx h o) s x) o.space.toNat o.ty o.mm · data)
      (ptrAddrs_issued hr o.space.toNat o.a o.b)
    exact ⟨stores_of hr rfl (hd _), fun hem => store_noLanes hr rfl (hd _) (pointerEas_none hem ..)⟩
  case stsc =>
    refine stores_of hr rfl ?_
    rw [← scalarAddr_issued hr]
    simp only [← scalarData_issued hr]

end Sys2Proof.Machine
end

section
/-!
PROOF of the loads (R140, R141, R144, R164, R169): what a load takes at issue, what it finds, and what it leaves.
-/
namespace Sys2Proof.Machine

/-! ### The positions of an access -/

theorem mem_slotsOf {accs : List LaneAcc} {l j : Nat} {p : Place} :
    (l, j, p) ∈ slotsOf accs ↔ ∃ a ∈ accs, a.lane = l ∧ a.at_[j]? = some p := by
  simp only [slotsOf, List.mem_flatMap, List.mem_mapIdx, Prod.mk.injEq]
  refine exists_congr fun a => and_congr_right fun _ => ?_
  constructor
  · rintro ⟨i, hi, rfl, rfl, rfl⟩
    exact ⟨rfl, List.getElem?_eq_getElem hi⟩
  · rintro ⟨rfl, hp⟩
    obtain ⟨hi, rfl⟩ := List.getElem?_eq_some_iff.1 hp
    exact ⟨j, hi, rfl, rfl, rfl⟩

theorem slotsOf_places (accs : List LaneAcc) : (slotsOf accs).map (fun k => k.2.2) = accs.flatMap (·.at_) := by
  simp only [slotsOf, List.map_flatMap]
  refine List.flatMap_congr fun a _ => ?_
  exact List.ext_getElem (by simp) (by simp)

/-! ### What a load takes when it issues (R140, R141) -/

/-- The value of byte `j` of a lane that a load takes at issue, if it does. -/
def takenByte (own here : Place → Option Byte) (a : LaneAcc) (j : Nat) (p : Place) : Option Byte :=
  own p <|> (if (a.unit j).all fun p => (own p <|> here p).isSome then here p else none)

section
variable {own here : Place → Option Byte} {accs : List LaneAcc}

theorem mem_takeAtIssue {l j : Nat} {b : Byte} : (l, j, b) ∈ takeAtIssue own here accs ↔
    ∃ a ∈ accs, a.lane = l ∧ ∃ p, a.at_[j]? = some p ∧ takenByte own here a j p = some b := by
  simp only [takeAtIssue, List.mem_flatMap, List.mem_filterMap, List.mem_mapIdx]
  refine exists_congr fun a => and_congr_right fun _ => ?_
  constructor
  · rintro ⟨_, ⟨i, hi, rfl⟩, hk⟩
    obtain ⟨v, hv, he⟩ := Option.map_eq_some_iff.1 hk
    cases he
    exact ⟨rfl, _, List.getElem?_eq_getElem hi, hv⟩
  · rintro ⟨rfl, p, hp, hb⟩
    obtain ⟨hi, rfl⟩ := List.getElem?_eq_some_iff.1 hp
    exact ⟨_, ⟨j, hi, rfl⟩, Option.map_eq_some_iff.2 ⟨b, hb, rfl⟩⟩

/-- What is taken is of the crew's own queue, or at hand. -/
theorem takenByte_here {a : LaneAcc} {j : Nat} {p : Place} {b : Byte} (h : takenByte own here a j p = some b) : (own p <|> here p) = some b := by
  unfold takenByte at h
  cases ho : own p with
  | some v => simpa [ho] using h
  | none =>
    simp only [ho, Option.orElse_eq_orElse, Option.orElse_eq_or, Option.none_or] at h ⊢
    split at h
    · exact h
    · cases h

/-- A byte of the own queue is taken, and so is one of a unit that is at hand whole. -/
theorem takenByte_isSome {a : LaneAcc} {j : Nat} {p : Place} (hp : a.at_[j]? = some p)
    (h : (own p).isSome ∨ ∀ k q, k / 8 = j / 8 → a.at_[k]? = some q → (own q <|> here q).isSome) : (takenByte own here a j p).isSome := by
  unfold takenByte
  cases ho : own p with
  | some v => rfl
  | none =>
    have whole := h.resolve_left (by simp [ho])
    have all : ((a.unit j).all fun p => (own p <|> here p).isSome) = true := by
      refine List.all_eq_true.2 fun q hq => ?_
      obtain ⟨n, hn⟩ := List.mem_iff_getElem?.1 hq
      have hlt : n < 8 := by
        by_contra hge
        rw [LaneAcc.unit, List.getElem?_take, if_neg hge] at hn
        cases hn
      rw [LaneAcc.unit, List.getElem?_take, if_pos hlt, List.getElem?_drop] at hn
      exact whole (j / 8 * 8 + n) q (by omega) hn
    have self := whole j p rfl hp
    rw [all]
    simpa [ho] using self

/-- Where something is not taken, a position of the access is not. -/
theorem takeAtIssue_open (h : (takeAtIssue own here accs).length ≠ (slotsOf accs).length) :
    ∃ a ∈ accs, ∃ j p, a.at_[j]? = some p ∧ takenByte own here a j p = none := by
  by_contra hno
  refine h ?_
  simp only [takeAtIssue, slotsOf, List.length_flatMap]
  refine congrArg List.sum (List.map_congr_left fun a ha => ?_)
  rw [List.length_mapIdx, List.filterMap_length_eq_length.2, List.length_mapIdx]
  rintro _ hk
  obtain ⟨j, hj, rfl⟩ := List.mem_mapIdx.1 hk
  rw [Option.isSome_map, Option.isSome_iff_ne_none]
  exact fun hn => hno ⟨a, ha, j, _, List.getElem?_eq_getElem hj, hn⟩

end

/-! ### What a load finds is what it found before it issued -/

/-- An entry put in the place of the one found, and like it under a test, does not change whether the test holds somewhere. -/
theorem any_insert_same {α : Type} {m : SMap α} {k : Nat} {x y : α} (h : m.find? k = some x) {p : Nat × α → Bool} (hp : p (k, y) = p (k, x)) :
    (m.insert k y).any p = m.any p := by
  induction m with
  | nil => cases h
  | cons e t ih =>
    obtain ⟨j, z⟩ := e
    have mem : p (k, x) = true → List.any ((j, z) :: t) p = true := fun hx => by
      have : (k, x) ∈ (j, z) :: t := mem_of_find? h
      exact List.any_eq_true.2 ⟨_, this, hx⟩
    unfold SMap.insert
    split
    · rw [List.any_cons, hp]
      cases hx : p (k, x)
      · rfl
      · rw [mem hx]; rfl
    · split
      · next hne heq =>
        subst heq
        have same : z = x := by simpa [SMap.find?] using h
        simp only [List.any_cons, hp, same]
      · next hlt hne =>
        have rest : SMap.find? t k = some x := by simpa [SMap.find?, Ne.symm hne] using h
        rw [List.any_cons, ih rest, List.any_cons]

section
variable {c : Nat} {s t : State} (h : Elsewhere c s t)
include h

theorem Elsewhere.links : t.links = s.links := by
  have e := h.tables
  rw [← e]

theorem Elsewhere.core_l1 (g : Nat) : (t.core g).l1 = (s.core g).l1 := by
  have e := h.cores g
  rw [← e]

theorem Elsewhere.arr (g a : Nat) : t.arr g a = s.arr g a := by
  have e : (t.core g).arrays = (s.core g).arrays := by
    have e := h.cores g
    rw [← e]
  simp only [State.arr, e]

end

section
variable {i : Instr} {s : State} {x : Crew} (h : Ready i s x)
include h

theorem placeBad_issued (g : Nat) (p : Place) : placeBad (issued i s x) g p = placeBad s g p := by
  obtain ⟨-, -, -, hmem, -⟩ := (issued_else h).fields
  have links : (issued i s x).links = s.links := (issued_else h).links
  cases p <;> simp only [placeBad, pathDown, State.link, hmem, links, (issued_else h).core_l1]

theorem readyByte_issued (g : Nat) (p : Place) : readyByte? (issued i s x) g p = readyByte? s g p := by
  obtain ⟨-, -, hscratch⟩ := (issued_else h).core_access g
  cases p with
  | glob => simp only [readyByte?, l1Byte?, (issued_else h).core_l1]
  | win => simp only [readyByte?, (issued_else h).arr]
  | scr c => simp only [readyByte?, ((issued_else h).core_access c).2.2]

/-- The table of crews after an issue. -/
theorem issued_crews : (issued i s x).crews = s.crews.insert s.cur (issuedCrew s x) := by
  obtain ⟨rc, e⟩ := useLines_clean h.lines
  have hc : (useLines s s.cur x i).crew? s.cur = some x := by
    rw [e]
    exact h.1.1
  unfold issued advance State.updCrew
  rw [hc, e]
  rfl

theorem heldBack_issued (o g : Nat) (p : Place) : heldBack (issued i s x) s.cur o g p = heldBack s s.cur o g p := by
  have half : halfLanded (issued i s x) g p = halfLanded s g p := by
    unfold halfLanded
    rw [issued_crews h]
    exact any_insert_same h.1.1 rfl
  simp only [heldBack, takenLater, issued_ops h, half]

end

/-! ### The parts of a load's effect -/

/-- Some byte lies in a memory that the L1 does not hold. -/
def hosted (accs : List LaneAcc) : Bool := (slotsOf accs).any fun k => match k.2.2 with
  | .glob _ _ map => !map.cached
  | _ => false

/-- The answer of such a memory, and the state once it is taken. -/
def hostBits (s : State) (accs : List LaneAcc) : Nat × State := if hosted accs then s.freeValue else (0, s)

/-- A byte that a memory outside the L1 refuses under an answer. -/
def refusedBy (f lane : Nat) : Place → Bool
  | .glob _ _ map => !map.cached && f.testBit lane
  | _ => false

/-- A byte of a lane that cannot be read. -/
def unreadable (s : State) (i : Iss) (f : Nat) (lane : Nat) (p : Place) : Bool :=
  (queueByte? i.x p).isNone && (placeBad s i.g p || refusedBy f lane p)

/-- The lanes with such a byte, one for each of their bytes. -/
def badLanes (s : State) (i : Iss) (f : Nat) (accs : List LaneAcc) : List Nat :=
  ((slotsOf accs).filter fun k => unreadable s i f k.1 k.2.2).map (·.1)

/-- The scope of an acquire. -/
def acqOf (mm : MemMods) : Option Nat := if mm.ord = 1 then some mm.scope.toNat else none

/-- A byte that a load may take of its core at issue. -/
def atHand (s : State) (i : Iss) (mm : MemMods) (p : Place) : Option Byte :=
  if (acqOf mm).any (· ≥ 2) || heldBack s i.c s.nextId i.g p then none else readyByte? s i.g p

/-- The bytes it takes. -/
def gotBytes (s : State) (i : Iss) (mm : MemMods) (accs : List LaneAcc) : List (Nat × Nat × Byte) :=
  takeAtIssue (queueByte? i.x) (atHand s i mm) accs

/-- The lines it has still to take bytes from. -/
def missingLines (mm : MemMods) (accs : List LaneAcc) (got : List (Nat × Nat × Byte)) : List Nat :=
  if (acqOf mm).any (· ≥ 2) then [] else ((slotsOf accs).filterMap fun k =>
    match k.2.2 with
    | .glob pa _ map => if map.cached && !(got.any fun e => e.1 == k.1 && e.2.1 == k.2.1) then some (lineOf pa) else none
    | _ => none).eraseDups

/-- The lines are asked for. -/
def askLines (s : State) (g : Nat) (lines : List Nat) : State :=
  s.updCore g fun k => { k with fills := k.fills ++ lines.filter fun n => !k.fills.contains n }

/-- Peers are asked for theirs. -/
def askPeers (s : State) (i : Iss) (accs : List LaneAcc) : State :=
  (accs.filter fun a => a.at_.any fun p => (queueByte? i.x p).isNone && p.isPeer).foldl (fun s a => peerAsk s 0 none a.at_ []) s

/-- The state in which a load goes into flight, before its data are to be awaited or not. -/
def askedState (s : State) (i : Iss) (mm : MemMods) (accs : List LaneAcc) : State :=
  askPeers (readBanks (askLines s i.g (missingLines mm accs (gotBytes s i mm accs)))
    (((slotsOf accs).map fun k => k.2.2).filter fun p =>
      (readyByte? (askLines s i.g (missingLines mm accs (gotBytes s i mm accs))) i.g p).isSome)) i accs

/-- The load. -/
def newLoad (s t : State) (i : Iss) (ty : MemTy) (scalar : Bool) (d : Reg) (mm : MemMods) (accs : List LaneAcc) (watch : Bool) : LoadOp :=
  ⟨ty, scalar, some d, accs, gotBytes s i mm accs, missingLines mm accs (gotBytes s i mm accs), acqOf mm, false,
    busyArrays t ((slotsOf accs).map fun k => k.2.2), [], i.pc, mm.ch.toNat, watch, partsOf ((slotsOf accs).map fun k => k.2.2), []⟩

/-- A load, its data perhaps awaited, goes into flight. -/
def loadInFlight (i : Iss) (t : State) (l : LoadOp) : State :=
  if l.watch && i.h.tag != 0 then toWaiting (giveOp i t (.load l)) i.c (.ops [t.nextId]) else giveOp i t (.load l)

theorem startLoad_eq (i : Iss) (s : State) (ty : MemTy) (scalar : Bool) (d : Reg) (mm : MemMods) (accs : List LaneAcc) :
    startLoad i s ty scalar d mm accs = match queueBlocks i.x ((slotsOf accs).map fun k => k.2.2) with
      | o :: os => .wait (.ops (o :: os))
      | [] =>
        let (f, s) := hostBits s accs
        if !(badLanes s i f accs).isEmpty then
          .trap ⟨0x0F, lanesMask (badLanes s i f accs).eraseDups, BitVec.ofNat 64
            ((accs.filter fun a => (badLanes s i f accs).contains a.lane).foldl (fun m a => min m a.ea)
              ((accs.filter fun a => (badLanes s i f accs).contains a.lane).headD ⟨0, 0, []⟩).ea)⟩
        else
          let (watch, t) := watchLoad i (askedState s i mm accs) ((gotBytes s i mm accs).length != (slotsOf accs).length)
          .done (loadInFlight i t (newLoad s t i ty scalar d mm accs watch)) := by
  rfl

/-! ### Only lines are asked for and packets sent -/

/-- Lines of core `g` have been asked for; but for packets of links and free values nothing else has changed. -/
def Asked (u : State) (g : Nat) (lines : List Nat) (t : State) : Prop := { t with links := u.links, free := u.free } = askLines u g lines

theorem sent_peerAsk (u : State) (vc : Nat) (who : Option Nat) (ps : List Place) (l : List Byte) :
    { peerAsk u vc who ps l with links := u.links, free := u.free } = u := by
  unfold peerAsk
  split
  · unfold peerRequest
    split <;> rfl
  · rfl

theorem sent_foldl (l : List LaneAcc) (u : State) :
    { l.foldl (fun s a => peerAsk s 0 none a.at_ []) u with links := u.links, free := u.free } = u := by
  induction l generalizing u with
  | nil => rfl
  | cons a l ih =>
    have rest := congrArg (fun t : State => { t with links := u.links, free := u.free }) (ih (peerAsk u 0 none a.at_ []))
    exact rest.trans (sent_peerAsk u 0 none a.at_ [])

/-- Banks without an injected fault are read without a change. -/
theorem readBanks_clean {s : State} {ps : List Place} (h : ∀ c a o, .win c a o ∈ ps → (s.arr c a).flips = []) : readBanks s ps = s := by
  have none : (ps.filterMap fun p => match p with
      | .win c a o => if (s.arr c a).flips.isEmpty || (s.arr c a).state.busy then none else some (c, a, o / 16)
      | _ => none) = [] := by
    refine List.filterMap_eq_nil_iff.2 fun p hp => ?_
    cases p with
    | win c a o => simp [h c a o hp]
    | _ => rfl
  exact congrArg (fun l : List (Nat × Nat × Nat) => l.eraseDups.foldl (fun s w => readWord s w.1 w.2.1 w.2.2) s) none

/-- Where the arrays of the core hold no injected fault, a load only asks. -/
theorem askedState_asked {u : State} {i : Iss} (hf : ∀ a, (u.arr i.g a).flips = []) (mm : MemMods) (accs : List LaneAcc) :
    Asked u i.g (missingLines mm accs (gotBytes u i mm accs)) (askedState u i mm accs) ∧
      ((∀ a ∈ accs, ∀ p ∈ a.at_, p.isPeer = false) → (askedState u i mm accs).links = u.links) := by
  let lines := missingLines mm accs (gotBytes u i mm accs)
  have arr (c a : Nat) : (askLines u i.g lines).arr c a = u.arr c a := by
    unfold askLines State.arr
    rw [State.core_updCore]
    split
    · next hc => rw [hc]
    · rfl
  have banks : readBanks (askLines u i.g lines) (((slotsOf accs).map fun k => k.2.2).filter fun p =>
      (readyByte? (askLines u i.g lines) i.g p).isSome) = askLines u i.g lines := by
    refine readBanks_clean fun c a o hp => ?_
    obtain ⟨-, hr⟩ := List.mem_filter.1 hp
    have own : c = i.g := by
      by_contra hne
      simp [readyByte?, hne] at hr
    rw [arr, own, hf]
  unfold askedState Asked
  rw [banks]
  refine ⟨sent_foldl _ _, fun hp => ?_⟩
  have none : (accs.filter fun a => a.at_.any fun p => (queueByte? i.x p).isNone && p.isPeer) = [] := by
    refine List.filter_eq_nil_iff.2 fun a ha hany => ?_
    obtain ⟨p, hpa, hpp⟩ := List.any_eq_true.1 hany
    simp [hp a ha p hpa] at hpp
  unfold askPeers
  rw [none]
  rfl

/-! ### The load in flight -/

theorem core_leaveSets_ne {s : State} {c g : Nat} {x : Crew} (h : s.crew? c = some x) (hg : g ≠ x.seat.core) :
    (leaveSets s c).core g = s.core g := by
  simp [leaveSets, h, hg, State.updSched]

theorem core_leaveSets {s : State} {c : Nat} {x : Crew} (h : s.crew? c = some x) :
    ∃ d, (leaveSets s c).core x.seat.core = { s.core x.seat.core with scheds := d } := by
  simp [leaveSets, h, State.updSched]

theorem elsewhere_toWaiting (s : State) (c : Nat) (w : Wait) : Elsewhere c s (toWaiting s c w) :=
  (elsewhere_leaveSets s c c).trans (elsewhere_updCrew _ c _)

/-- A crew that goes on, or waits for an operation, changes besides only its scheduler's sets. -/
theorem goesOn_spec {b : State} {c : Nat} {z : Crew} (hz : b.crew? c = some z) (ha : z.state = .active) (w y : Bool) (o : List Nat) :
    let t := afterYield (if w then toWaiting b c (.ops o) else b) c y
    t.crew? c = some (if w then { z with state := .waiting, wait := .ops o }
      else { z with state := if y then .ready else .active, wait := if y then .none else z.wait }) ∧
      Elsewhere c b t ∧ (∀ g, g ≠ z.seat.core → t.core g = b.core g) ∧ ∃ d, t.core z.seat.core = { b.core z.seat.core with scheds := d } := by
  cases w with
  | false => exact ⟨crew?_afterYield hz ha y, elsewhere_afterYield b c y, fun g hg => core_afterYield_ne hz hg y, core_afterYield hz y⟩
  | true =>
    have hw : (toWaiting b c (.ops o)).crew? c = some { z with state := .waiting, wait := .ops o } := (crew?_toWaiting hz _ c).trans (if_pos rfl)
    have stays : afterYield (toWaiting b c (.ops o)) c y = toWaiting b c (.ops o) := afterYield_of_left hw nofun y
    simp only [if_true, stays]
    refine ⟨hw, elsewhere_toWaiting .., fun g hg => ?_, ?_⟩
    · exact (State.core_updCrew ..).trans (core_leaveSets_ne hz hg)
    · obtain ⟨d, hd⟩ := core_leaveSets hz
      exact ⟨d, (State.core_updCrew ..).trans hd⟩

section
variable {i : Instr} {s t : State} {x : Crew} (h : Ready i s x) {lines : List Nat} (ht : Asked (issued i s x) x.seat.core lines t)
include h ht

omit h in
theorem asked_crews : t.crews = (issued i s x).crews := by
  have e := congrArg State.crews ht
  exact e

theorem asked_core_ne {g : Nat} (hg : g ≠ x.seat.core) : t.core g = s.core g := by
  have e := congrArg (fun u : State => u.core g) ht
  have e : t.core g = (askLines (issued i s x) x.seat.core lines).core g := e
  rw [e, askLines, State.core_updCore_ne _ _ hg, issued_core, useLines_core_ne h.lines hg]

theorem asked_core : { t.core x.seat.core with fills := (s.core x.seat.core).fills, rc := (s.core x.seat.core).rc } = s.core x.seat.core ∧
    ∀ n ∈ lines, n ∈ (t.core x.seat.core).fills := by
  have e := congrArg (fun u : State => u.core x.seat.core) ht
  have e : t.core x.seat.core = (askLines (issued i s x) x.seat.core lines).core x.seat.core := e
  obtain ⟨rc, hrc⟩ := useLines_core h.lines
  rw [e, askLines, State.core_updCore_self, issued_core, hrc]
  refine ⟨rfl, fun n hn => ?_⟩
  by_cases hf : n ∈ (s.core x.seat.core).fills
  · exact List.mem_append_left _ hf
  · exact List.mem_append_right _ (List.mem_filter.2 ⟨hn, by simpa using hf⟩)

theorem asked_rest : { t with crews := s.crews, cores := s.cores, links := s.links, free := s.free } = s := by
  have e := congrArg (fun u : State => { u with crews := s.crews, cores := s.cores, links := s.links, free := s.free }) ht
  refine e.trans ?_
  have tables := (issued_else h).tables
  exact congrArg (fun u : State => { u with links := s.links, free := s.free }) tables

/-- The load is in flight under its tag; its crew goes on, or waits for it. -/
theorem loadInFlight_begins (l : LoadOp)
    (he : exec i s = .next (afterYield (loadInFlight (issOf i s x) t l) s.cur i.hdr.yield)) :
    ∃ u, BeginsLoad i s x l u ∧ OthersKept s u ∧ u.links = t.links ∧ (∀ n ∈ lines, n ∈ (u.core x.seat.core).fills) ∧
      { u.core x.seat.core with fills := (s.core x.seat.core).fills, rc := (s.core x.seat.core).rc, scheds := (s.core x.seat.core).scheds } =
        s.core x.seat.core ∧ ∀ g, g ≠ x.seat.core → u.core g = s.core g := by
  have hcrew : t.crew? s.cur = some (issuedCrew s x) := (congrArg (SMap.find? · s.cur) (asked_crews ht)).trans (issued_crew h)
  have hid : t.nextId = s.nextId := by
    have e := congrArg State.nextId (asked_rest h ht)
    exact e
  have hops : t.ops = s.ops := by
    have e := congrArg State.ops (asked_rest h ht)
    exact e
  obtain ⟨hz, hop, hothers, hcrews, hrest⟩ := giveOp_fields (i := i) (x := x) hcrew hid (.load l)
  let b := giveOp (issOf i s x) t (.load l)
  have cores : b.cores = t.cores := by
    have e := congrArg State.cores hrest
    exact e
  have bcore (g : Nat) : b.core g = t.core g := congrArg (SMap.getD · g Core.empty) cores
  obtain ⟨hy, helse, hne, d, hown⟩ := goesOn_spec hz h.1.2.1 (l.watch && i.hdr.tag != 0) i.hdr.yield [t.nextId]
  obtain ⟨-, hops', -, -, -, -, -⟩ := helse.fields
  have opt (o : Nat) : (afterYield (loadInFlight (issOf i s x) t l) s.cur i.hdr.yield).op? o = b.op? o :=
    congrArg (SMap.find? · o) hops'
  obtain ⟨hcore, hfills⟩ := asked_core h ht
  refine ⟨_, ⟨he, ⟨_, hy, ?_, ?_, ?_, ?_⟩, (opt _).trans hop, ?_⟩, ⟨fun d hd => ?_, fun o ho => ?_⟩, ?_, fun n hn => ?_, ?_, fun g hg => ?_⟩
  · split <;> rfl
  · split <;> rfl
  · split <;> exact allocTag_find_self ..
  · have kept : CrewKept i x (allocTag { issuedCrew s x with state := if i.hdr.yield then .ready else .active } i.hdr.tag.toNat
        ⟨some s.nextId, i.hdr.look.toNat, {}, dstRegs i, false⟩) :=
      ⟨rfl, rfl, rfl, rfl, rfl, fun k hk => (allocTag_find_ne _ _ hk).trans (issuedCrew_tags s x k)⟩
    by_cases hw : l.watch = true ∧ i.hdr.tag ≠ 0
    · have hb : (l.watch && i.hdr.tag != 0) = true := by simpa using hw
      simp only [if_pos hw, hb, if_true, hid]
      exact ⟨trivial, trivial, ⟨kept.tr, kept.sq, kept.req, kept.seat, kept.state, kept.tags⟩⟩
    · have hb : (l.watch && i.hdr.tag != 0) = false := Bool.eq_false_iff.2 (by simpa using hw)
      simp only [if_neg hw, hb]
      exact ⟨kept.tr, kept.sq, kept.req, kept.seat, kept.state, kept.tags⟩
  · have e1 := congrArg (fun v : State =>
      { v with crews := s.crews, cores := s.cores, ops := s.ops, links := s.links, nextId := s.nextId, free := s.free }) helse.tables
    have e2 := congrArg (fun v : State =>
      { v with crews := s.crews, cores := s.cores, ops := s.ops, links := s.links, nextId := s.nextId, free := s.free }) hrest
    have e3 := congrArg (fun v : State => { v with ops := s.ops, nextId := s.nextId }) (asked_rest h ht)
    exact e1.trans (e2.trans e3)
  · exact (helse.crews d hd).trans ((hcrews d hd).trans
      ((congrArg (SMap.find? · d) (asked_crews ht)).trans ((issued_else h).crews d hd)))
  · exact (opt o).trans ((hothers o ho).trans (congrArg (SMap.find? · o) hops))
  · refine helse.links.trans ?_
    have e := congrArg State.links hrest
    exact e
  · have e : (afterYield (loadInFlight (issOf i s x) t l) s.cur i.hdr.yield).core x.seat.core = _ := hown
    rw [e]
    exact (congrArg Core.fills (bcore _)) ▸ hfills n hn
  · have e : (afterYield (loadInFlight (issOf i s x) t l) s.cur i.hdr.yield).core x.seat.core = _ := hown
    rw [e, show (giveOp (issOf i s x) t (.load l)).core _ = _ from bcore _]
    exact congrArg (fun k : Core => { k with scheds := (s.core x.seat.core).scheds }) hcore
  · exact (hne g hg).trans ((bcore g).trans (asked_core_ne h ht hg))

end

/-! ### The bytes and lines of the load -/

section
variable {i : Instr} {s : State} {x : Crew} (h : Ready i s x)

/-- The answer of a host, where one is needed, is the next free value; the state is as the effect found it but for free values. -/
theorem hostBits_spec (u : State) (accs : List LaneAcc) : (∃ n, (hostBits u accs).2 = { u with free := n }) ∧
    ∀ k ∈ slotsOf accs, refusedBy (hostBits u accs).1 k.1 k.2.2 = refusedBy (Config.freeNat u.free) k.1 k.2.2 := by
  unfold hostBits
  cases hh : hosted accs with
  | true => exact ⟨⟨_, rfl⟩, fun _ _ => rfl⟩
  | false =>
    refine ⟨⟨u.free, rfl⟩, fun k hk => ?_⟩
    have near := List.any_eq_false.1 hh k hk
    obtain ⟨l, j, p⟩ := k
    cases p with
    | glob pa va m =>
      have cached : m.cached = true := by simpa using near
      simp [refusedBy, cached]
    | _ => rfl

/-- A byte that the statement calls unread: not in the own queue, and poisoned or refused. -/
def unreadByte (s : State) (x : Crew) (l : Nat) (p : Place) : Bool :=
  (queueByte? x p).isNone && (placeBad s x.seat.core p || refusedBy (Config.freeNat s.free) l p)

/-- A byte at hand to the crew as the statement has it. -/
def hereByte (s : State) (x : Crew) (mm : MemMods) (p : Place) : Option Byte :=
  (queueByte? x p) <|> (if (mm.ord = 1 ∧ 2 ≤ mm.scope.toNat) ∨ heldBack s s.cur s.nextId x.seat.core p = true then none
    else readyByte? s x.seat.core p)

theorem acqOf_any (mm : MemMods) : ((acqOf mm).any (· ≥ 2)) = decide (mm.ord = 1 ∧ 2 ≤ mm.scope.toNat) := by
  unfold acqOf
  by_cases ho : mm.ord = 1
  · simp [ho]
  · rw [if_neg ho, decide_eq_false fun h => ho h.1]
    rfl

include h

theorem unreadable_issued (accs : List LaneAcc) {k : Nat × Nat × Place} (hk : k ∈ slotsOf accs) :
    unreadable (hostBits (issued i s x) accs).2 (issOf i s x) (hostBits (issued i s x) accs).1 k.1 k.2.2 = unreadByte s x k.1 k.2.2 := by
  obtain ⟨⟨n, hn⟩, hbits⟩ := hostBits_spec (issued i s x) accs
  have bad : placeBad { issued i s x with free := n } x.seat.core k.2.2 = placeBad s x.seat.core k.2.2 := placeBad_issued h _ _
  obtain ⟨-, -, -, -, -, hfree, -⟩ := (issued_else h).fields
  simp only [unreadable, unreadByte, hn, hbits k hk, hfree]
  exact congrArg (fun b => (queueByte? x k.2.2).isNone && (b || _)) bad

theorem atHand_issued (n : Nat) (mm : MemMods) (p : Place) :
    ((queueByte? x p) <|> atHand { issued i s x with free := n } (issOf i s x) mm p) = hereByte s x mm p := by
  have held : heldBack { issued i s x with free := n } s.cur (issued i s x).nextId x.seat.core p = heldBack s s.cur s.nextId x.seat.core p := by
    rw [issued_nextId h]
    exact heldBack_issued h _ _ _
  have ready : readyByte? { issued i s x with free := n } x.seat.core p = readyByte? s x.seat.core p := readyByte_issued h _ _
  have e : atHand { issued i s x with free := n } (issOf i s x) mm p =
      if (acqOf mm).any (· ≥ 2) || heldBack { issued i s x with free := n } s.cur (issued i s x).nextId x.seat.core p then none
      else readyByte? { issued i s x with free := n } x.seat.core p := rfl
  rw [e, held, ready, acqOf_any, hereByte]
  congr 1
  simp

end

/-- A line that a byte not taken lies in is missing. -/
theorem mem_missingLines {mm : MemMods} {accs : List LaneAcc} {got : List (Nat × Nat × Byte)} (hh : ¬(mm.ord = 1 ∧ 2 ≤ mm.scope.toNat))
    {a : LaneAcc} (ha : a ∈ accs) {j pa va : Nat} {m : MapKind} (hp : a.at_[j]? = some (.glob pa va m)) (hm : m.cached = true)
    (hg : (got.any fun e => e.1 == a.lane && e.2.1 == j) = false) : lineOf pa ∈ missingLines mm accs got := by
  unfold missingLines
  rw [acqOf_any, decide_eq_false hh]
  refine List.mem_eraseDups.2 (List.mem_filterMap.2 ⟨(a.lane, j, .glob pa va m), mem_slotsOf.2 ⟨a, ha, rfl, hp⟩, ?_⟩)
  simp [hm, hg]

/-! ### The lanes with a byte that cannot be read -/

/-- Masks of lists with the same lanes are equal. -/
theorem lanesMask_congr {l m : List Nat} (h : ∀ n, n ∈ l ↔ n ∈ m) : lanesMask l = lanesMask m := by
  refine BitVec.eq_of_getLsbD_eq fun n hn => ?_
  rw [getLsbD_lanesMask l hn, getLsbD_lanesMask m hn, Bool.eq_iff_iff, List.contains_iff_mem, List.contains_iff_mem]
  exact h n

/-- With its lanes distinct, an access has a lane with such a byte just where the lane's own bytes have. -/
theorem mem_openLanes {accs : List LaneAcc} (hd : (accs.map (·.lane)).Nodup) (f : Nat → Place → Bool) {a : LaneAcc} (ha : a ∈ accs) :
    a.lane ∈ ((slotsOf accs).filter fun k => f k.1 k.2.2).map (·.1) ↔ a.at_.any (f a.lane) = true := by
  constructor
  · intro hm
    obtain ⟨⟨l, j, p⟩, hk, hl⟩ := List.mem_map.1 hm
    obtain ⟨hslot, hf⟩ := List.mem_filter.1 hk
    obtain ⟨b, hb, hbl, hp⟩ := mem_slotsOf.1 hslot
    have same : b = a := List.inj_on_of_nodup_map hd hb ha (hbl.trans hl)
    subst same
    refine List.any_eq_true.2 ⟨p, List.mem_iff_getElem?.2 ⟨j, hp⟩, ?_⟩
    exact hl ▸ hf
  · intro hany
    obtain ⟨p, hp, hf⟩ := List.any_eq_true.1 hany
    obtain ⟨j, hj⟩ := List.mem_iff_getElem?.1 hp
    exact List.mem_map.2 ⟨(a.lane, j, p), List.mem_filter.2 ⟨mem_slotsOf.2 ⟨a, ha, rfl, hj⟩, hf⟩, rfl⟩

theorem mem_lanes_slots {accs : List LaneAcc} {f : Nat → Place → Bool} {l : Nat} (h : l ∈ ((slotsOf accs).filter fun k => f k.1 k.2.2).map (·.1)) :
    ∃ a ∈ accs, a.lane = l := by
  obtain ⟨⟨l, j, p⟩, hk, rfl⟩ := List.mem_map.1 h
  obtain ⟨a, ha, hl, -⟩ := mem_slotsOf.1 (List.mem_filter.1 hk).1
  exact ⟨a, ha, hl⟩

/-- Whether its crew awaits the load is free only under a tag, and where something is still to come. -/
theorem watchLoad_spec (i : Instr) (s : State) (x : Crew) (u : State) (b : Bool) : (∃ n, (watchLoad (issOf i s x) u b).2 = { u with free := n }) ∧
    ((watchLoad (issOf i s x) u b).1 = true → i.hdr.tag = 0 ∨ b = true) := by
  unfold watchLoad
  split
  · next ht => exact ⟨⟨u.free, rfl⟩, fun _ => .inl ht⟩
  · split
    · next hb => exact ⟨⟨_, rfl⟩, fun _ => .inr hb⟩
    · exact ⟨⟨u.free, rfl⟩, nofun⟩

/-! ### The effect of a load -/

section
variable {i : Instr} {s : State} {x : Crew} (h : Ready i s x) {sp : Nat} {ty : MemTy} {scalar : Bool} {d : Reg} {mm : MemMods}
  {eas : List (Nat × Nat)} {eff : Iss → State → Effect} (he : exec i s = run i eff s)
  (hd : eff (issOf i s x) (issued i s x) = loadForm (issOf i s x) (issued i s x) sp ty scalar d mm eas) {accs : List LaneAcc} (hne : eas ≠ [])
  (hok : checkAccess s x (request sp ty.bytes false eas) = .ok accs)
include h hd hne hok

theorem load_effect : eff (issOf i s x) (issued i s x) = startLoad (issOf i s x) (issued i s x) ty scalar d mm accs := by
  obtain ⟨e, l, rfl⟩ := List.exists_cons_of_ne_nil hne
  have ok : checkAccess (issued i s x) (issOf i s x).x (request sp ty.bytes false (e :: l)) = .ok accs :=
    (checkAccess_elsewhere (issued_else h) _ _).trans hok
  rw [hd, loadForm]
  · simp only [request] at ok
    simp only [ok]
  · exact List.cons_ne_nil e l

include he

theorem load_waits (hq : queueBlocks x (accs.flatMap (·.at_)) ≠ []) :
    exec i s = .next (toWaiting (useLines s s.cur x i) s.cur (.ops (queueBlocks x (accs.flatMap (·.at_))))) := by
  obtain ⟨o, os, ho⟩ := List.exists_cons_of_ne_nil hq
  have blocks : queueBlocks (issOf i s x).x ((slotsOf accs).map fun k => k.2.2) = o :: os := (congrArg (queueBlocks x) (slotsOf_places accs)).trans ho
  have effect : eff (issOf i s x) (issued i s x) = .wait (.ops (o :: os)) := by rw [load_effect h hd hne hok, startLoad_eq, blocks]
  rw [he, run, issue_ready h (own := noReason) rfl, effect, ho]

variable (hq : queueBlocks x (accs.flatMap (·.at_)) = [])
include hq

omit he in
/-- A load that waits for nothing. -/
theorem load_effect_free : eff (issOf i s x) (issued i s x) =
    let (f, u) := hostBits (issued i s x) accs
    if !(badLanes u (issOf i s x) f accs).isEmpty then
      .trap ⟨0x0F, lanesMask (badLanes u (issOf i s x) f accs).eraseDups, BitVec.ofNat 64
        ((accs.filter fun a => (badLanes u (issOf i s x) f accs).contains a.lane).foldl (fun m a => min m a.ea)
          ((accs.filter fun a => (badLanes u (issOf i s x) f accs).contains a.lane).headD ⟨0, 0, []⟩).ea)⟩
    else
      let (watch, t) := watchLoad (issOf i s x) (askedState u (issOf i s x) mm accs)
        ((gotBytes u (issOf i s x) mm accs).length != (slotsOf accs).length)
      .done (loadInFlight (issOf i s x) t (newLoad u t (issOf i s x) ty scalar d mm accs watch)) := by
  have blocks : queueBlocks (issOf i s x).x ((slotsOf accs).map fun k => k.2.2) = [] := (congrArg (queueBlocks x) (slotsOf_places accs)).trans hq
  rw [load_effect h hd hne hok, startLoad_eq, blocks]

omit he hne hok hd hq in
theorem badLanes_issued : badLanes (hostBits (issued i s x) accs).2 (issOf i s x) (hostBits (issued i s x) accs).1 accs =
    ((slotsOf accs).filter fun k => unreadByte s x k.1 k.2.2).map (·.1) :=
  congrArg (List.map _) (List.filter_congr fun _ hk => unreadable_issued h accs hk)

theorem load_traps (hdup : (eas.map (·.1)).Nodup) (hbad : (accs.filter fun a => a.at_.any (unreadByte s x a.lane)) ≠ []) :
    TrapsLanes i s x 0x0F ((accs.filter fun a => a.at_.any (unreadByte s x a.lane)).map fun a => (a.lane, a.ea)) := by
  have dup : (accs.map (·.lane)).Nodup := by
    rw [← checkAccess_lanes hok, List.map_map] at hdup
    exact hdup
  have mem {a : LaneAcc} (ha : a ∈ accs) := mem_openLanes dup (unreadByte s x) ha
  let lanes := ((slotsOf accs).filter fun k => unreadByte s x k.1 k.2.2).map (·.1)
  have same : (accs.filter fun a => lanes.contains a.lane) = accs.filter fun a => a.at_.any (unreadByte s x a.lane) :=
    List.filter_congr fun a ha => by rw [Bool.eq_iff_iff, List.contains_iff_mem]; exact mem ha
  have some : lanes.isEmpty = false := by
    obtain ⟨a, ha⟩ := List.exists_mem_of_ne_nil _ hbad
    obtain ⟨hin, hany⟩ := List.mem_filter.1 ha
    rw [Bool.eq_false_iff, ne_eq, List.isEmpty_iff]
    exact List.ne_nil_of_mem ((mem hin).2 hany)
  obtain ⟨a, ha, hlow, hall⟩ := foldl_min_head (·.ea) (accs.filter fun a => a.at_.any (unreadByte s x a.lane)) ⟨0, 0, []⟩ hbad
  refine ⟨(a.lane, a.ea), List.mem_map_of_mem ha, fun q hq => ?_, traps_of h (own := noReason) rfl he ?_⟩
  · obtain ⟨b, hb, rfl⟩ := List.mem_map.1 hq
    exact hall b hb
  · have mask : lanesMask lanes.eraseDups =
        lanesMask (((accs.filter fun a => a.at_.any (unreadByte s x a.lane)).map fun a => (a.lane, a.ea)).map (·.1)) := by
      refine lanesMask_congr fun n => ?_
      rw [List.mem_eraseDups, List.map_map]
      constructor
      · intro hn
        obtain ⟨b, hb, rfl⟩ := mem_lanes_slots hn
        exact List.mem_map.2 ⟨b, List.mem_filter.2 ⟨hb, (mem hb).1 hn⟩, rfl⟩
      · intro hn
        obtain ⟨b, hb, rfl⟩ := List.mem_map.1 hn
        obtain ⟨hin, hany⟩ := List.mem_filter.1 hb
        exact (mem hin).2 hany
    rw [load_effect_free h hd hne hok hq]
    dsimp only
    rw [badLanes_issued h, some, same, hlow, mask]
    rfl

theorem load_begins (hdup : (eas.map (·.1)).Nodup) (hgood : (accs.filter fun a => a.at_.any (unreadByte s x a.lane)) = [])
    (hflips : ∀ a, (s.arr x.seat.core a).flips = []) : ∃ t l, BeginsLoad i s x l t ∧ OthersKept s t ∧
      ((∀ a ∈ accs, ∀ p ∈ a.at_, p.isPeer = false) → t.links = s.links) ∧
      l.ty = ty ∧ l.scalar = scalar ∧ l.dst = some d ∧ l.accs = accs ∧ l.done = false ∧ l.bad = [] ∧ l.zero = [] ∧ l.pc = x.ctl.pc ∧
      l.acq = (if mm.ord = 1 then some mm.scope.toNat else none) ∧ l.parts = partsOf (accs.flatMap (·.at_)) ∧
      (l.watch = true → i.hdr.tag = 0 ∨ l.open ≠ []) ∧
      (∀ e ∈ l.got, ∃ a ∈ accs, a.lane = e.1 ∧ ∃ p, a.at_[e.2.1]? = some p ∧ hereByte s x mm p = some e.2.2) ∧
      (∀ a ∈ accs, ∀ j p, a.at_[j]? = some p →
        ((queueByte? x p).isSome ∨ ∀ k p', k / 8 = j / 8 → a.at_[k]? = some p' → (hereByte s x mm p').isSome) → l.has a.lane j = true) ∧
      (∀ n ∈ l.lines, n ∈ (t.core x.seat.core).fills) ∧
      (∀ a ∈ accs, ∀ j pa va m, a.at_[j]? = some (.glob pa va m) → m.cached = true → ¬(mm.ord = 1 ∧ 2 ≤ mm.scope.toNat) →
        l.has a.lane j = false → lineOf pa ∈ l.lines) ∧
      { t.core x.seat.core with fills := (s.core x.seat.core).fills, rc := (s.core x.seat.core).rc, scheds := (s.core x.seat.core).scheds } =
        s.core x.seat.core ∧
      ∀ h, h ≠ x.seat.core → t.core h = s.core h := by
  have dup : (accs.map (·.lane)).Nodup := by
    rw [← checkAccess_lanes hok, List.map_map] at hdup
    exact hdup
  have none : (((slotsOf accs).filter fun k => unreadByte s x k.1 k.2.2).map (·.1)).isEmpty = true := by
    rw [List.isEmpty_iff, List.map_eq_nil_iff, List.filter_eq_nil_iff]
    intro k hk hu
    have hm : k.1 ∈ ((slotsOf accs).filter fun k => unreadByte s x k.1 k.2.2).map (·.1) := List.mem_map_of_mem (List.mem_filter.2 ⟨hk, hu⟩)
    obtain ⟨a, ha, hl⟩ := mem_lanes_slots hm
    exact List.filter_eq_nil_iff.1 hgood a ha ((mem_openLanes dup (unreadByte s x) ha).1 (hl ▸ hm))
  have effect := load_effect_free h hd hne hok hq
  dsimp only at effect
  rw [badLanes_issued h, none] at effect
  obtain ⟨⟨n, hn⟩, -⟩ := hostBits_spec (issued i s x) accs
  rw [hn] at effect
  let u : State := { issued i s x with free := n }
  have taken : gotBytes u (issOf i s x) mm accs = takeAtIssue (queueByte? x) (atHand u (issOf i s x) mm) accs := rfl
  have here (p : Place) : ((queueByte? x p) <|> atHand u (issOf i s x) mm p) = hereByte s x mm p := atHand_issued h n mm p
  obtain ⟨hasked, hlinks⟩ := askedState_asked (u := u) (i := issOf i s x) (fun a => (congrArg Arr.flips ((issued_else h).arr _ a)).trans (hflips a))
    mm accs
  obtain ⟨⟨n', hw⟩, hwatch⟩ := watchLoad_spec i s x (askedState u (issOf i s x) mm accs)
    ((gotBytes u (issOf i s x) mm accs).length != (slotsOf accs).length)
  let watch := (watchLoad (issOf i s x) (askedState u (issOf i s x) mm accs)
    ((gotBytes u (issOf i s x) mm accs).length != (slotsOf accs).length)).1
  let t : State := { askedState u (issOf i s x) mm accs with free := n' }
  let l := newLoad u t (issOf i s x) ty scalar d mm accs watch
  have ht : Asked (issued i s x) x.seat.core (missingLines mm accs (gotBytes u (issOf i s x) mm accs)) t := by
    have e := congrArg (fun v : State => { v with free := (issued i s x).free }) hasked
    exact e
  have hrun : exec i s = .next (afterYield (loadInFlight (issOf i s x) t l) s.cur i.hdr.yield) := by
    rw [he, run, issue_ready h (own := noReason) rfl, effect]
    exact congrArg (fun v => Host.Outcome.next (afterYield (loadInFlight (issOf i s x) v (newLoad u v (issOf i s x) ty scalar d mm accs watch))
      s.cur i.hdr.yield)) hw
  obtain ⟨v, hbegins, hothers, hvlinks, hfills, hcore, hcores⟩ := loadInFlight_begins h ht l hrun
  refine ⟨v, l, hbegins, hothers, fun hp => hvlinks.trans ((hlinks hp).trans (issued_else h).links), rfl, rfl, rfl, rfl, rfl, rfl, rfl, rfl, rfl,
    congrArg partsOf (slotsOf_places accs), fun hwt => ?_, fun e hg => ?_, fun a ha j p hp hs => ?_, hfills, fun a ha j pa va m hp hm hh hno => ?_,
    hcore, hcores⟩
  · refine (hwatch hwt).imp_right fun hopen => ?_
    obtain ⟨a, ha, j, p, hp, hnone⟩ := takeAtIssue_open (own := queueByte? (issOf i s x).x) (bne_iff_ne.1 hopen)
    refine List.ne_nil_of_mem (List.mem_filter.2 ⟨mem_slotsOf.2 ⟨a, ha, rfl, hp⟩, ?_⟩)
    rw [Bool.not_eq_true', LoadOp.has, List.any_eq_false]
    rintro ⟨la, k, b⟩ hg hk
    simp only [Bool.and_eq_true, beq_iff_eq] at hk
    obtain ⟨a', ha', hl, p', hp', hb⟩ := mem_takeAtIssue.1 hg
    have same : a' = a := List.inj_on_of_nodup_map dup ha' ha (hl.trans hk.1)
    rw [same, hk.2, hp] at hp'
    cases hp'
    rw [same, hk.2, hnone] at hb
    cases hb
  · obtain ⟨a, ha, hl, p, hp, hb⟩ := mem_takeAtIssue.1 (show (e.1, e.2.1, e.2.2) ∈ _ from hg)
    exact ⟨a, ha, hl, p, hp, (here p) ▸ takenByte_here hb⟩
  · have got := takenByte_isSome (own := queueByte? x) (here := atHand u (issOf i s x) mm) hp (by simpa only [here] using hs)
    obtain ⟨b, hb⟩ := Option.isSome_iff_exists.1 got
    exact List.any_eq_true.2 ⟨(a.lane, j, b), mem_takeAtIssue.2 ⟨a, ha, rfl, p, hp, hb⟩, by simp⟩
  · exact mem_missingLines hh ha hp hm hno

end

/-- A load of distinct lanes is what R140, R141, R144 and R164 say. -/
theorem loads_of {i : Instr} {s : State} {x : Crew} (h : Ready i s x) {sp : Nat} {ty : MemTy} {scalar : Bool} {d : Reg} {mm : MemMods}
    {eas : List (Nat × Nat)} {eff : Iss → State → Effect} (he : exec i s = run i eff s)
    (hd : eff (issOf i s x) (issued i s x) = loadForm (issOf i s x) (issued i s x) sp ty scalar d mm eas) (hdup : (eas.map (·.1)).Nodup) :
    Loads i s x sp ty scalar d mm eas := by
  intro accs hne hok
  exact ⟨fun hq => load_waits h he hd hne hok hq, fun hq hbad => load_traps h he hd hne hok hq hdup hbad,
    fun hq hgood hflips => load_begins h he hd hne hok hq hdup hgood hflips⟩

/-- A load of no lane is what R161 says. -/
theorem load_noLanes {i : Instr} {s : State} {x : Crew} (h : Ready i s x) {sp : Nat} {ty : MemTy} {scalar : Bool} {d : Reg} {mm : MemMods}
    {eas : List (Nat × Nat)} {eff : Iss → State → Effect} (he : exec i s = run i eff s)
    (hd : eff (issOf i s x) (issued i s x) = loadForm (issOf i s x) (issued i s x) sp ty scalar d mm eas) (hn : eas = []) : NoLanes i s x mm := by
  subst hn
  exact noLanes_of h he hd

/-! ### The lanes of a vector access are distinct -/

theorem activeLanes_nodup (em : Mask) : (activeLanes em).Nodup := List.nodup_range.filter _

theorem laneEas_nodup (s : State) (x : Crew) (w : Nat) (a b : Reg) (sh : Nat) : ((laneEas s x w a b sh).map (·.1)).Nodup := by
  rw [laneEas, List.map_map]
  exact (List.map_id (activeLanes x.ctl.em)).symm ▸ activeLanes_nodup x.ctl.em

theorem pointerEas_nodup (s : State) (x : Crew) (w : Nat) (a b : Reg) : ((pointerEas s x w a b).map (·.1)).Nodup := by
  rw [pointerEas, List.map_map]
  exact (List.map_id (activeLanes x.ctl.em)).symm ▸ activeLanes_nodup x.ctl.em

/-- Settles O33: each form by its addresses. -/
theorem loadsBegin : Obligations.LoadsBegin := by
  unfold Obligations.LoadsBegin
  refine ⟨fun h o s x hr => ?lds, fun h o s x hr => ?ldg, fun h o s x hr => ?ldx, fun h o s x hr => ?ldsc⟩
  case lds =>
    have hd := congrArg (loadForm (issOf (.lds h o) s x) (issued (.lds h o) s x) (if o.scr then 2 else 1) o.ty false o.r o.mm ·)
      (vecAddrs_issued hr (if o.scr then 2 else 1) o.a o.b o.sh.toNat)
    have bits : spaceBits (if o.scr then 2 else 1) = 32 := by cases o.scr <;> rfl
    rw [bits] at hd
    exact ⟨loads_of hr rfl hd (laneEas_nodup ..), fun hem => load_noLanes hr rfl hd (laneEas_none hem ..)⟩
  case ldg =>
    have hd := congrArg (loadForm (issOf (.ldg h o) s x) (issued (.ldg h o) s x) 0 o.ty false o.r o.mm ·)
      (vecAddrs_issued hr 0 o.a o.b o.sh.toNat)
    exact ⟨loads_of hr rfl hd (laneEas_nodup ..), fun hem => load_noLanes hr rfl hd (laneEas_none hem ..)⟩
  case ldx =>
    have hd := congrArg (loadForm (issOf (.ldx h o) s x) (issued (.ldx h o) s x) o.space.toNat o.ty false o.r o.mm ·)
      (ptrAddrs_issued hr o.space.toNat o.a o.b)
    exact ⟨loads_of hr rfl hd (pointerEas_nodup ..), fun hem => load_noLanes hr rfl hd (pointerEas_none hem ..)⟩
  case ldsc =>
    exact loads_of hr rfl (congrArg (loadForm (issOf (.ldsc h o) s x) (issued (.ldsc h o) s x) o.space.toNat o.ty true o.r o.mm ·)
      (scalarAddr_issued hr o.space.toNat o.a o.b)) (by simp [scalarEas])

end Sys2Proof.Machine
end

section
/-!
PROOF of what it does to a core's L1 and to memory that lines are written back and leave (R150, R152, R336), while their paths are up.
-/
namespace Sys2Proof.Machine

/-! ### Bytes written together -/

/-- Writes that all give a byte the same value, one of them at least, leave it. -/
theorem foldl_write_same {l : List (Nat × Byte)} {a : Nat} {v : Byte} (hv : ∀ e ∈ l, e.1 = a → e.2 = v) (hex : ∃ e ∈ l, e.1 = a) (m : Memory) :
    (l.foldl (fun m e => m.write e.1 e.2) m).read a = v := by
  induction l generalizing m with
  | nil => simp at hex
  | cons e l ih =>
    rw [List.foldl_cons]
    by_cases hl : ∃ e ∈ l, e.1 = a
    · exact ih (fun e he => hv e (List.mem_cons_of_mem _ he)) hl _
    · rw [Memory.foldl_write_out _ _ fun e he ha => hl ⟨e, he, ha⟩]
      obtain ⟨f, hf, rfl⟩ := hex
      rcases List.mem_cons.1 hf with rfl | hf
      · rw [Memory.read_write_self]
        exact hv f List.mem_cons_self rfl
      · exact absurd ⟨f, hf, rfl⟩ hl

theorem writePhys_read (s : State) (l : List (Nat × Byte)) (a : Nat) :
    (writePhys s l).mem.read a = (l.foldl (fun m e => m.write e.1 e.2) s.mem).read a := Memory.foldl_clear_read _ _ _

/-! ### Only L1s, memory and what its homes note -/

/-- Only memory, the lines of L1s and what a home notes of a request have changed. -/
structure HomeOnly (s t : State) : Prop where
  rest : { t with
    mem := s.mem, cores := s.cores, free := s.free, trackers := s.trackers, drams := s.drams, banks := s.banks } = s
  cores : ∀ h, { t.core h with l1 := (s.core h).l1 } = s.core h

namespace HomeOnly
variable {s t u : State}

theorem refl (s : State) : HomeOnly s s := ⟨rfl, fun _ => rfl⟩

theorem trans (h : HomeOnly s t) (h' : HomeOnly t u) : HomeOnly s u where
  rest := by
    have e := congrArg (fun v : State => { v with
      mem := s.mem, cores := s.cores, free := s.free, trackers := s.trackers, drams := s.drams, banks := s.banks }) h'.rest
    exact e.trans h.rest
  cores g := by
    have e := congrArg (fun k : Core => { k with l1 := (s.core g).l1 }) (h'.cores g)
    exact e.trans (h.cores g)

variable (h : HomeOnly s t)
include h

theorem crews : t.crews = s.crews := by
  have e := congrArg State.crews h.rest
  exact e

theorem ops : t.ops = s.ops := by
  have e := congrArg State.ops h.rest
  exact e

theorem links : t.links = s.links := by
  have e := congrArg State.links h.rest
  exact e

theorem pathDown (g pa : Nat) : pathDown t g pa = Machine.pathDown s g pa := by
  simp only [Machine.pathDown, State.link, h.links]

theorem tile? (g n : Nat) : t.tile? g n = s.tile? g n := by
  have e := congrArg Core.tiles (h.cores g)
  exact congrArg (SMap.find? · n) e

end HomeOnly

theorem homeOnly_noteHome (s : State) (pa : Nat) : HomeOnly s (noteHome s pa) := by
  unfold noteHome
  split
  · exact .refl s
  · exact ⟨rfl, fun _ => rfl⟩

theorem homeOnly_mem (s : State) (m : Memory) : HomeOnly s { s with mem := m } := ⟨rfl, fun _ => rfl⟩

theorem homeOnly_l1 (s : State) (g : Nat) (f : SMap L1Line → SMap L1Line) : HomeOnly s (s.updCore g fun k => { k with l1 := f k.l1 }) where
  rest := rfl
  cores h := by
    rw [State.core_updCore]
    split
    · next e => rw [e]
    · rfl

/-! ### A line is written back (R150) -/

section
variable {s : State} {g n : Nat}

theorem noteHome_core (s : State) (pa h : Nat) : (noteHome s pa).core h = s.core h := by
  unfold noteHome
  split <;> rfl

/-- The bytes that a line brings home. -/
def dirtyBytes (n : Nat) (l : L1Line) : List (Nat × Byte) :=
  ((List.range 128).filter l.dirty.contains).map fun i => (128 * n + i, l.bytes.getD i 0)

/-- A line with bytes of its core's own, whose path is up, brings them home and keeps none. -/
theorem writeBack_dirty {l : L1Line} (hl : (s.core g).l1.find? n = some l) (hd : l.dirty ≠ []) (hup : pathDown s g (128 * n) = false) :
    ∃ m u, HomeOnly s u ∧ (∀ h, u.core h = s.core h) ∧ (∀ a, m.read a = ((dirtyBytes n l).foldl (fun m e => m.write e.1 e.2) s.mem).read a) ∧
      writeBack s g n = ({ u with mem := m } : State).updCore g fun k =>
        { k with l1 := k.l1.modify n fun x => { x with dirty := [], wrote := [] } } := by
  have some : l.dirty.isEmpty = false := by simpa using hd
  unfold writeBack
  simp only [hl, some, hup, Bool.false_eq_true, if_false]
  cases crossesMesh g (128 * n) with
  | false =>
    refine ⟨_, noteHome s (128 * n), homeOnly_noteHome _ _, noteHome_core s _, fun a => ?_, rfl⟩
    exact (writePhys_read _ _ a).trans (by rw [noteHome_mem]; rfl)
  | true =>
    refine ⟨_, noteHome { s with free := s.free + 1 } (128 * n), .trans (t := { s with free := s.free + 1 }) ⟨rfl, fun _ => rfl⟩ (homeOnly_noteHome _ _), noteHome_core _ _,
      fun a => ?_, rfl⟩
    exact (writePhys_read _ _ a).trans (by rw [noteHome_mem]; rfl)

/-- The bytes brought home are those of the line that the core has written. -/
theorem dirtyBytes_read {l : L1Line} (hl : (s.core g).l1.find? n = some l) (a : Nat) :
    ((dirtyBytes n l).foldl (fun m e => m.write e.1 e.2) s.mem).read a = if lineOf a = n then homeByte s g a else s.mem.read a := by
  by_cases ha : lineOf a = n
  · rw [if_pos ha]
    have found : (s.core g).l1.find? (lineOf a) = some l := ha ▸ hl
    have split : a = 128 * n + a % 128 := by
      have := Nat.div_add_mod a 128
      unfold lineOf at ha
      omega
    unfold homeByte
    rw [found]
    dsimp only
    split
    · next hc =>
      refine foldl_write_same (fun e he hea => ?_) ⟨(128 * n + a % 128, l.bytes.getD (a % 128) 0), ?_, split.symm⟩ _
      · obtain ⟨i, -, rfl⟩ := List.mem_map.1 he
        have : i = a % 128 := by
          dsimp only at hea
          omega
        exact congrArg (fun j => l.bytes.getD j 0) this
      · exact List.mem_map_of_mem (List.mem_filter.2 ⟨List.mem_range.2 (Nat.mod_lt _ (by decide)), hc⟩)
    · next hc =>
      refine Memory.foldl_write_out _ _ fun e he hea => ?_
      obtain ⟨i, hi, rfl⟩ := List.mem_map.1 he
      have same : i = a % 128 := by
        dsimp only at hea
        omega
      exact hc (same ▸ (List.mem_filter.1 hi).2)
  · rw [if_neg ha]
    refine Memory.foldl_write_out _ _ fun e he hea => ha ?_
    obtain ⟨i, hi, rfl⟩ := List.mem_map.1 he
    have lt := List.mem_range.1 (List.mem_filter.1 hi).1
    dsimp only at hea
    unfold lineOf
    omega

/-- Where a line is absent, or holds no byte of the core's own, home memory has what the core sees as the home's. -/
theorem homeByte_clean {a : Nat} (h : ∀ l, (s.core g).l1.find? (lineOf a) = some l → l.dirty = []) : homeByte s g a = s.mem.read a := by
  unfold homeByte
  split
  · next l hl => simp [h l hl]
  · rfl

/-- Line `n` of core `g` has left, its bytes gone home. -/
structure LineLeft (g n : Nat) (s t : State) : Prop where
  only : HomeOnly s t
  gone : (t.core g).l1.find? n = none
  lines : ∀ m, m ≠ n → (t.core g).l1.find? m = (s.core g).l1.find? m
  cores : ∀ h, h ≠ g → (t.core h).l1 = (s.core h).l1
  mem : ∀ a, t.mem.read a = if lineOf a = n then homeByte s g a else s.mem.read a

theorem untrack_only (s : State) (g obj : Nat) : HomeOnly s (untrack s g obj) ∧ (∀ h, (untrack s g obj).core h = s.core h) ∧
    ∀ a, (untrack s g obj).mem.read a = s.mem.read a := by
  have cells (m : Memory) (l : List (Nat × Nat)) : (leaveDirs m obj l).cells = m.cells := by
    induction l generalizing m with
    | nil => rfl
    | cons e l ih =>
      unfold leaveDirs
      split
      · rw [ih]
      · rfl
  unfold untrack
  split
  · exact ⟨.refl s, fun _ => rfl, fun _ => rfl⟩
  · exact ⟨homeOnly_mem s _, fun _ => rfl, fun a => congrArg (fun c => SMap.getD c a _) (cells s.mem (dirPath g))⟩

theorem evictLine_left (hup : ∀ l, (s.core g).l1.find? n = some l → l.dirty ≠ [] → pathDown s g (128 * n) = false) :
    LineLeft g n s (evictLine s g n) := by
  cases hl : (s.core g).l1.find? n with
  | none =>
    have stays : evictLine s g n = s := by simp only [evictLine, hl]
    rw [stays]
    refine ⟨.refl s, hl, fun _ _ => rfl, fun _ _ => rfl, fun a => ?_⟩
    split
    · next ha => exact (homeByte_clean fun l h => by rw [ha, hl] at h; cases h).symm
    · rfl
  | some l =>
    have leaves : evictLine s g n = untrack ((writeBack s g n).updCore g fun k => { k with l1 := k.l1.erase n }) g l.obj := by
      simp only [evictLine, hl]
    rw [leaves]
    obtain ⟨honly, hcore, hmem⟩ := untrack_only ((writeBack s g n).updCore g fun k => { k with l1 := k.l1.erase n }) g l.obj
    by_cases hd : l.dirty = []
    · have same : writeBack s g n = s := by simp [writeBack, hl, hd]
      rw [same] at honly hcore hmem ⊢
      refine ⟨(homeOnly_l1 s g (·.erase n)).trans honly, ?_, fun m hm => ?_, fun h hh => ?_, fun a => ?_⟩
      · rw [hcore, State.core_updCore_self]
        exact SMap.find?_erase_self _ _
      · rw [hcore, State.core_updCore_self]
        exact SMap.find?_erase_ne _ hm
      · rw [hcore, State.core_updCore_ne _ _ hh]
      · rw [hmem, State.updCore_mem]
        split
        · next ha => exact (homeByte_clean fun l' h => by rw [ha, hl] at h; cases h; exact hd).symm
        · rfl
    · obtain ⟨m, u, hu, hucore, humem, hw⟩ := writeBack_dirty hl hd (hup l hl hd)
      rw [hw] at honly hcore hmem ⊢
      refine ⟨((hu.trans (homeOnly_mem u m)).trans ((homeOnly_l1 _ g (·.modify n _)).trans (homeOnly_l1 _ g (·.erase n)))).trans honly,
        ?_, fun j hj => ?_, fun h hh => ?_, fun a => ?_⟩
      · rw [hcore, State.core_updCore_self]
        exact SMap.find?_erase_self _ _
      · rw [hcore, State.core_updCore_self, State.core_updCore_self]
        refine (SMap.find?_erase_ne _ hj).trans ((SMap.find?_modify_ne _ _ hj).trans ?_)
        exact congrArg (fun k : Core => k.l1.find? j) (hucore g)
      · rw [hcore, State.core_updCore_ne _ _ hh, State.core_updCore_ne _ _ hh]
        exact congrArg Core.l1 (hucore h)
      · exact (hmem a).trans ((humem a).trans (dirtyBytes_read hl a))

end

/-! ### Lines leave one after the other -/

/-- The lines `ns` of core `g` have left, their bytes gone home. -/
structure LinesLeft (g : Nat) (ns : List Nat) (s t : State) : Prop where
  only : HomeOnly s t
  gone : ∀ n ∈ ns, (t.core g).l1.find? n = none
  lines : ∀ n, n ∉ ns → (t.core g).l1.find? n = (s.core g).l1.find? n
  cores : ∀ h, h ≠ g → (t.core h).l1 = (s.core h).l1
  mem : ∀ a, t.mem.read a = if lineOf a ∈ ns then homeByte s g a else s.mem.read a

theorem invalidateLines_left {g : Nat} {ns : List Nat} {s : State}
    (hup : ∀ n ∈ ns, ∀ l, (s.core g).l1.find? n = some l → l.dirty ≠ [] → pathDown s g (128 * n) = false) :
    LinesLeft g ns s (invalidateLines s g ns) := by
  induction ns generalizing s with
  | nil => exact ⟨.refl s, nofun, fun _ _ => rfl, fun _ _ => rfl, fun _ => rfl⟩
  | cons n ns ih =>
    have one := evictLine_left (g := g) (n := n) (hup n List.mem_cons_self)
    have rest : LinesLeft g ns (evictLine s g n) (invalidateLines (evictLine s g n) g ns) := by
      refine ih fun k hk l hl hd => ?_
      rw [one.only.pathDown]
      by_cases hkn : k = n
      · rw [hkn, one.gone] at hl
        cases hl
      · exact hup k (List.mem_cons_of_mem _ hk) l ((one.lines k hkn) ▸ hl) hd
    refine ⟨one.only.trans rest.only, fun k hk => ?_, fun k hk => ?_, fun h hh => (rest.cores h hh).trans (one.cores h hh), fun a => ?_⟩
    · by_cases hin : k ∈ ns
      · exact rest.gone k hin
      · obtain rfl : k = n := (List.mem_cons.1 hk).resolve_right hin
        exact (rest.lines k hin).trans one.gone
    · obtain ⟨hkn, hin⟩ := not_or.1 (fun h => hk (List.mem_cons.2 h))
      exact (rest.lines k hin).trans (one.lines k hkn)
    · refine (rest.mem a).trans ?_
      by_cases hn : lineOf a = n
      · have clean : homeByte (evictLine s g n) g a = homeByte s g a := by
          rw [homeByte_clean (fun l hl => by rw [hn, one.gone] at hl; cases hl), one.mem, if_pos hn]
        rw [clean, one.mem, if_pos hn]
        simp [hn]
      · have same : homeByte (evictLine s g n) g a = homeByte s g a := by
          simp only [homeByte, one.lines _ hn, one.mem, if_neg hn]
        rw [same, one.mem, if_neg hn]
        simp only [List.mem_cons, hn, false_or]

/-- Lines that a core does not hold cannot leave. -/
theorem invalidateLines_absent {g : Nat} {ns : List Nat} {s : State} (h : ∀ n ∈ ns, (s.core g).l1.find? n = none) : invalidateLines s g ns = s := by
  induction ns with
  | nil => rfl
  | cons n ns ih =>
    have stays : evictLine s g n = s := by simp only [evictLine, h n List.mem_cons_self]
    exact (congrArg (invalidateLines · g ns) stays).trans (ih fun k hk => h k (List.mem_cons_of_mem _ hk))

/-- Every byte is, to the core whose lines leave, what it was. -/
theorem LinesLeft.homeByte {g : Nat} {ns : List Nat} {s t : State} (h : LinesLeft g ns s t) (a : Nat) : homeByte t g a = homeByte s g a := by
  by_cases ha : lineOf a ∈ ns
  · rw [homeByte_clean (fun l hl => by rw [h.gone _ ha] at hl; cases hl), h.mem, if_pos ha]
  · simp only [Machine.homeByte, h.lines _ ha, h.mem, if_neg ha]

end Sys2Proof.Machine
end

section
/-!
PROOF of the two steps of an atomic (R147, R152, R165, R168, R178, R186): what it does at cached global locations, and how its result returns.
-/
namespace Sys2Proof.Machine

/-! ### Bytes written at their home, whose line the core's L1 does not hold (R147) -/

/-- Crews, links and the lines of every L1 are as they were. -/
structure LinesKept (s t : State) : Prop where
  crews : t.crews = s.crews
  links : t.links = s.links
  l1 : ∀ h, (t.core h).l1 = (s.core h).l1

namespace LinesKept
variable {s t u : State}

theorem refl (s : State) : LinesKept s s := ⟨rfl, rfl, fun _ => rfl⟩

theorem trans (h : LinesKept s t) (h' : LinesKept t u) : LinesKept s u :=
  ⟨h'.crews.trans h.crews, h'.links.trans h.links, fun g => (h'.l1 g).trans (h.l1 g)⟩

end LinesKept

section
variable {s : State} {g : Nat}

/-- A byte of a cached mapping that goes home is written in memory. -/
theorem landByte_home (c tag ch : Nat) {pa va : Nat} {m : MapKind} (hn : (s.core g).l1.find? (lineOf pa) = none) (b : Byte) :
    let t := landByte s c g tag true ch (.glob pa va m) b
    LinesKept s t ∧ ∀ a, t.mem.read a = (s.mem.write pa b).read a := by
  have home : goesHome s g true ch (.glob pa va m) = true := by simp [goesHome]
  simp only [landByte, home, if_true, homeWrite]
  refine ⟨⟨rfl, rfl, fun h => ?_⟩, fun a => (noteWriter_read ..).trans (writePhys_read ..)⟩
  rw [State.core_updCore]
  split
  · next hg =>
    rw [hg]
    have absent : ((s.core g).l1).modify (lineOf pa) (fun l => { l with
        bytes := if (l.bytes.find? (pa % 128)).isSome then l.bytes.insert (pa % 128) b else l.bytes
        dirty := l.dirty.filter (· ≠ pa % 128) }) = (s.core g).l1 := by simp only [SMap.modify, hn]
    exact absent
  · rfl

/-- Memories that read alike read alike after the same writes. -/
theorem foldl_write_congr {m m' : Memory} (h : ∀ a, m.read a = m'.read a) (l : List (Nat × Byte)) (a : Nat) :
    (l.foldl (fun m e => m.write e.1 e.2) m).read a = (l.foldl (fun m e => m.write e.1 e.2) m').read a := by
  induction l generalizing m m' with
  | nil => exact h a
  | cons e l ih =>
    refine ih fun b => ?_
    by_cases hb : b = e.1
    · rw [hb, Memory.read_write_self, Memory.read_write_self]
    · rw [Memory.read_write_ne _ _ hb, Memory.read_write_ne _ _ hb, h]

/-- Bytes of consecutive places that go home one after the other. -/
theorem foldl_landByte_home (c tag : Nat) (m : MapKind) (p va : Nat) (l : List (Nat × Byte))
    (hn : ∀ e ∈ l, (s.core g).l1.find? (lineOf (p + e.1)) = none) :
    let t := (l.map fun e => (Place.glob (p + e.1) (va + e.1) m, e.2)).foldl (fun s e => landByte s c g tag true 0 e.1 e.2) s
    LinesKept s t ∧ ∀ a, t.mem.read a = ((l.map fun e => (p + e.1, e.2)).foldl (fun m e => m.write e.1 e.2) s.mem).read a := by
  induction l generalizing s with
  | nil => exact ⟨.refl s, fun _ => rfl⟩
  | cons e l ih =>
    obtain ⟨hkept, hmem⟩ := landByte_home c tag 0 (va := va + e.1) (m := m) (hn e List.mem_cons_self) e.2
    obtain ⟨hrest, hread⟩ := ih (s := landByte s c g tag true 0 (.glob (p + e.1) (va + e.1) m) e.2) fun k hk => by
      rw [hkept.l1]
      exact hn k (List.mem_cons_of_mem _ hk)
    exact ⟨hkept.trans hrest, fun a => (hread a).trans (foldl_write_congr hmem _ a)⟩

end

/-- Bytes written from an address on read as they are. -/
theorem foldl_write_run (m : Memory) (p n : Nat) {bs : List Byte} (hl : bs.length = n) (a : Nat) :
    ((((List.range n).zip bs).map fun e => (p + e.1, e.2)).foldl (fun m e => m.write e.1 e.2) m).read a =
      if p ≤ a ∧ a < p + n then bs.getD (a - p) 0 else m.read a := by
  have at_ (e : Nat × Byte) (he : e ∈ (List.range n).zip bs) : e.1 < n ∧ e.2 = bs.getD e.1 0 := by
    obtain ⟨j, hj, rfl⟩ := List.mem_iff_getElem.1 he
    rw [List.length_zip, List.length_range, hl, min_self] at hj
    simp [List.getElem?_eq_getElem (show j < bs.length by omega), hj]
  by_cases ha : p ≤ a ∧ a < p + n
  · rw [if_pos ha]
    refine foldl_write_same (fun e he hea => ?_) ⟨(a, bs.getD (a - p) 0), List.mem_map.2 ⟨(a - p, bs.getD (a - p) 0), ?_, ?_⟩, rfl⟩ m
    · obtain ⟨k, hk, rfl⟩ := List.mem_map.1 he
      dsimp only at hea ⊢
      rw [(at_ k hk).2, show k.1 = a - p by omega]
    · refine List.mem_iff_getElem.2 ⟨a - p, by simp; omega, ?_⟩
      simp [List.getElem?_eq_getElem (show a - p < bs.length by omega)]
    · rw [show p + (a - p) = a by omega]
  · rw [if_neg ha]
    refine Memory.foldl_write_out m _ fun e he hea => ha ?_
    obtain ⟨k, hk, rfl⟩ := List.mem_map.1 he
    have := (at_ k hk).1
    dsimp only at hea
    omega

theorem toBytes_length (n x : Nat) : (toBytes n x).length = n := by
  induction n generalizing x with
  | zero => rfl
  | succ n ih => rw [toBytes, List.length_cons, ih]

/-! ### One lane of an atomic -/

/-- The places of a location of `n` bytes in a cached mapping. -/
def cachedPlaces (p va n : Nat) (m : MapKind) : List Place := (List.range n).map fun j => .glob (p + j) (va + j) m

section
variable {s : State} {g p va : Nat} {m : MapKind} {a : AtomAcc} {l : LaneAcc}

/-- The location's old value is memory's, and the new one replaces it. -/
theorem performLane_home (cr tag c : Nat) (hm : m.cached = true) (hl : l.at_ = cachedPlaces p va (a.width / 8) m)
    (hn : ∀ j < a.width / 8, (s.core g).l1.find? (lineOf (p + j)) = none) :
    let old := ofBytes ((List.range (a.width / 8)).map fun j => s.mem.read (p + j))
    let r := performLane s cr g tag a l c
    r.1 = old ∧ LinesKept s r.2 ∧ ∀ b, r.2.mem.read b =
      if p ≤ b ∧ b < p + a.width / 8 then (toBytes (a.width / 8) (a.op.new a.width old c)).getD (b - p) 0 else s.mem.read b := by
  have old : ofBytes (l.at_.map (placeByte s g)) = ofBytes ((List.range (a.width / 8)).map fun j => s.mem.read (p + j)) := by
    rw [hl, cachedPlaces, List.map_map]
    refine congrArg ofBytes (List.map_congr_left fun j hj => ?_)
    have absent := hn j (List.mem_range.1 hj)
    simp only [Function.comp_apply, placeByte, hm, if_true]
    exact homeByte_clean fun l h => by rw [absent] at h; cases h
  have bytes (bs : List Byte) : l.at_.zip bs =
      ((List.range (a.width / 8)).zip bs).map fun e => (Place.glob (p + e.1) (va + e.1) m, e.2) := by
    rw [hl, cachedPlaces, List.zip_map_left]
    rfl
  simp only [performLane, old, bytes]
  obtain ⟨hkept, hmem⟩ := foldl_landByte_home (s := s) (g := g) cr tag m p va ((List.range (a.width / 8)).zip
    (toBytes (a.width / 8) (a.op.new a.width (ofBytes ((List.range (a.width / 8)).map fun j => s.mem.read (p + j))) c)))
    fun e he => hn e.1 (List.mem_range.1 (List.of_mem_zip he).1)
  exact ⟨trivial, hkept, fun b => (hmem b).trans (foldl_write_run s.mem p (a.width / 8) (toBytes_length ..) b)⟩

end

/-! ### The lanes one after the other -/

/-- What a lane of an atomic does to memory and to the list of old values, as the statement has it. -/
def atomLane (pa : LaneAcc → Nat) (a : AtomAcc) (st : (Nat → Byte) × List (Nat × Nat)) (l : LaneAcc × Nat) : (Nat → Byte) × List (Nat × Nat) :=
  let old := ofBytes ((List.range (a.width / 8)).map fun j => st.1 (pa l.1 + j))
  (fun b => if pa l.1 ≤ b ∧ b < pa l.1 + a.width / 8 then (toBytes (a.width / 8) (a.op.new a.width old l.2)).getD (b - pa l.1) 0 else st.1 b,
    st.2 ++ [(l.1.lane, old)])

/-- What a lane does to the entry and the state. -/
def atomPart (c g tag f : Nat) (drops : Place → Bool) : AtomAcc × State → LaneAcc × Nat → AtomAcc × State := fun (a, s) l =>
  if (l.1.at_.head?).any drops then
    ({ a with old := a.old ++ [(l.1.lane, 0)], dropped := a.dropped ++ [l.1.lane] }, setBusy s c (lanesMask [l.1.lane]))
  else if laneRefused s g f l.1 then ({ a with bad := a.bad ++ [l.1.lane] }, countRefused s g l.1.at_)
  else
    let (old, s) := performLane (peerAsk s 2 none l.1.at_ (toBytes (a.width / 8) l.2)) c g tag a l.1 l.2
    ({ a with old := a.old ++ [(l.1.lane, old)] }, s)

/-- Lane `l` is of a location whose bytes, of a cached mapping, the L1 of core `g` does not hold, and whose path is up. -/
def LaneHome (s : State) (g : Nat) (pa : LaneAcc → Nat) (n : Nat) (l : LaneAcc) : Prop :=
  (∃ va m, m.cached = true ∧ l.at_ = cachedPlaces (pa l) va n m) ∧
    ∀ j < n, (s.core g).l1.find? (lineOf (pa l + j)) = none ∧ pathDown s g (pa l + j) = false

theorem LaneHome.kept {s t : State} {g n : Nat} {pa : LaneAcc → Nat} {l : LaneAcc} (h : LaneHome s g pa n l) (hk : LinesKept s t) :
    LaneHome t g pa n l := by
  refine ⟨h.1, fun j hj => ?_⟩
  obtain ⟨hl, hp⟩ := h.2 j hj
  refine ⟨by rw [hk.l1]; exact hl, ?_⟩
  simpa only [pathDown, State.link, hk.links] using hp

section
variable {c g tag f : Nat} {drops : Place → Bool} (hd : ∀ p v m, drops (.glob p v m) = false) {pa : LaneAcc → Nat}
include hd

theorem atomPart_home {s : State} {a : AtomAcc} (h0 : 0 < a.width / 8) {l : LaneAcc × Nat} (hl : LaneHome s g pa (a.width / 8) l.1) :
    ∃ t, atomPart c g tag f drops (a, s) l = ({ a with old := (atomLane pa a (s.mem.read, a.old) l).2 }, t) ∧ LinesKept s t ∧
      t.mem.read = (atomLane pa a (s.mem.read, a.old) l).1 := by
  obtain ⟨⟨va, m, hm, hat⟩, hbytes⟩ := hl
  obtain ⟨k, hk⟩ := Nat.exists_eq_add_of_lt h0
  have head : l.1.at_.head? = some (.glob (pa l.1) va m) := by
    rw [hat, cachedPlaces, show a.width / 8 = k + 1 by omega, List.range_succ_eq_map]
    rfl
  have peer (b : List Byte) : peerAsk s 2 none l.1.at_ b = s := by
    rw [peerAsk, head]
    cases m with
    | device | coherent => rfl
    | noncoherent | peer => cases hm
  have up : laneRefused s g f l.1 = false := by
    have := (hbytes 0 h0).2
    simp only [laneRefused, head, hm]
    simpa using this
  obtain ⟨hold, hkept, hmem⟩ := performLane_home (s := s) (g := g) (a := a) c tag l.2 hm hat fun j hj => (hbytes j hj).1
  refine ⟨_, ?_, hkept, funext hmem⟩
  simp only [atomPart, head, Option.any_some, hd, up, peer, Bool.false_eq_true, if_false, hold]
  rfl

theorem foldl_atomPart {s : State} {a : AtomAcc} (h0 : 0 < a.width / 8) {ls : List (LaneAcc × Nat)}
    (hl : ∀ l ∈ ls, LaneHome s g pa (a.width / 8) l.1) :
    ∃ t, ls.foldl (atomPart c g tag f drops) (a, s) = ({ a with old := (ls.foldl (atomLane pa a) (s.mem.read, a.old)).2 }, t) ∧
      LinesKept s t ∧ t.mem.read = (ls.foldl (atomLane pa a) (s.mem.read, a.old)).1 := by
  induction ls generalizing s a with
  | nil => exact ⟨s, rfl, .refl s, rfl⟩
  | cons l ls ih =>
    obtain ⟨u, hu, hkept, hmem⟩ := atomPart_home (c := c) (tag := tag) (f := f) hd h0 (hl l List.mem_cons_self)
    obtain ⟨t, ht, hrest, hread⟩ := ih (s := u) (a := { a with old := (atomLane pa a (s.mem.read, a.old) l).2 }) h0
      fun k hk => (hl k (List.mem_cons_of_mem _ hk)).kept hkept
    rw [List.foldl_cons, hu, ht, List.foldl_cons]
    refine ⟨t, ?_, hkept.trans hrest, ?_⟩
    · rw [hmem]
      rfl
    · rw [hread, hmem]
      rfl

end

/-! ### ATOMIC_PERFORM at cached global locations -/

section
variable {s : State} {g : Nat} {ps : List Place}

theorem noteLines_kept (s : State) (ps : List Place) : LinesKept s (noteLines s ps) ∧ (noteLines s ps).mem = s.mem := by
  suffices h : ∀ (ns : List Nat) (s : State), LinesKept s (ns.foldl (fun s n => noteHome s (128 * n)) s) ∧
      (ns.foldl (fun s n => noteHome s (128 * n)) s).mem = s.mem from h _ s
  intro ns
  induction ns with
  | nil => exact fun s => ⟨.refl s, rfl⟩
  | cons n ns ih =>
    intro s
    have one := homeOnly_noteHome s (128 * n)
    obtain ⟨hkept, hmem⟩ := ih (noteHome s (128 * n))
    exact ⟨.trans ⟨one.crews, one.links, fun h => congrArg Core.l1 (noteHome_core s _ h)⟩ hkept, hmem.trans (noteHome_mem ..)⟩

/-- Places of cached mappings only. -/
def Cached (ps : List Place) : Prop := ∀ p ∈ ps, ∃ pa va m, p = .glob pa va m ∧ m.cached = true

variable (hc : Cached ps)
include hc

theorem Cached.windowParts : windowParts ps = [] := by
  refine congrArg List.eraseDups (List.filterMap_eq_nil_iff.2 fun p hp => ?_)
  obtain ⟨pa, va, m, rfl, -⟩ := hc p hp
  rfl

theorem Cached.readBanks (s : State) : readBanks s ps = s := readBanks_clean fun c a o hp => by
  obtain ⟨pa, va, m, he, -⟩ := hc _ hp
  cases he

theorem Cached.landMode (s : State) : landMode s none ps = (answersZero s (busyArrays s ps) 0 ps, s) := by
  have still : ps.any (modeMoved s (busyArrays s ps)) = false := List.any_eq_false.2 fun p hp => by
    obtain ⟨pa, va, m, rfl, -⟩ := hc p hp
    exact Bool.false_ne_true
  simp only [Machine.landMode, Option.getD_none, modeBits, still, Bool.false_eq_true, if_false]

omit hc in
theorem hostPlaces_cached {accs : List LaneAcc} (h : Cached (accs.flatMap (·.at_))) : hostPlaces accs = false := by
  refine List.any_eq_false.2 fun l hl => Bool.not_eq_true _ ▸ List.any_eq_false.2 fun p hp => ?_
  obtain ⟨pa, va, m, rfl, hm⟩ := h p (List.mem_flatMap.2 ⟨l, hl, hp⟩)
  cases m with
  | device | coherent => exact Bool.false_ne_true
  | noncoherent | peer => cases hm

end

/-- Every lane of an atomic whose locations are at home is performed there, one after the other. -/
theorem performAtomic_home {s : State} {g : Nat} {pa : LaneAcc → Nat} {a : AtomAcc} (c tag : Nat) (h0 : 0 < a.width / 8)
    (hl : ∀ l ∈ a.lanes, LaneHome s g pa (a.width / 8) l.1) (hn : ∀ n ∈ atomLines (a.lanes.map (·.1)), (s.core g).l1.find? n = none) :
    ∃ t, performAtomic s c g tag a none none = ({ a with old := (a.lanes.foldl (atomLane pa a) (s.mem.read, a.old)).2 }, t) ∧
      LinesKept s t ∧ t.mem.read = (a.lanes.foldl (atomLane pa a) (s.mem.read, a.old)).1 := by
  have all : a.lanes.filter (fun l => l.1.at_.all (inPart none)) = a.lanes :=
    List.filter_eq_self.2 fun l _ => List.all_eq_true.2 fun _ _ => rfl
  have cached : Cached ((a.lanes.map (·.1)).flatMap (·.at_)) := fun p hp => by
    obtain ⟨l, hmem, hp⟩ := List.mem_flatMap.1 hp
    obtain ⟨k, hk, rfl⟩ := List.mem_map.1 hmem
    obtain ⟨⟨va, m, hm, hat⟩, -⟩ := hl k hk
    rw [hat] at hp
    obtain ⟨j, -, rfl⟩ := List.mem_map.1 hp
    exact ⟨_, _, m, rfl, hm⟩
  obtain ⟨hnoted, hmem⟩ := noteLines_kept s ((a.lanes.map (·.1)).flatMap (·.at_))
  obtain ⟨t, ht, hkept, hread⟩ := foldl_atomPart (c := c) (g := g) (tag := tag) (f := 0) (pa := pa) (a := a)
    (drops := answersZero (noteLines s ((a.lanes.map (·.1)).flatMap (·.at_)))
      (busyArrays (noteLines s ((a.lanes.map (·.1)).flatMap (·.at_))) ((a.lanes.map (·.1)).flatMap (·.at_))) 0 ((a.lanes.map (·.1)).flatMap (·.at_)))
    (fun _ _ _ => rfl) h0 fun l h => (hl l h).kept hnoted
  rw [hmem] at ht hread
  refine ⟨t, ?_, hnoted.trans hkept, hread⟩
  unfold performAtomic
  simp only [all, invalidateLines_absent hn, cached.readBanks, cached.landMode, hostPlaces_cached cached, Bool.false_eq_true, if_false]
  exact ht

end Sys2Proof.Machine
end

section
/-!
PROOF of the two steps of an atomic at their crew: ATOMIC_PERFORM and ATOMIC_RESULT_RETURN (R165, R168, R178, R186).
-/
namespace Sys2Proof.Machine

/-! ### ATOMIC_PERFORM -/

/-- Before a crew's atomic with no window in it is performed only loads in flight are served. -/
theorem nextPart_cached {s : State} {x : Crew} {ps : List Place} (hc : Cached ps) (hp : x.pass = none) :
    nextPart s x ps = (none, true, captureBefore s x.seat.core ps) := by
  simp only [nextPart, partsLeft, hc.windowParts, hp]
  rfl

section
variable {s : State} {c : Nat} {x : Crew} {a : AtomAcc} {op : Nat} {rest : List SqEntry} {pa : LaneAcc → Nat}
  (hx : s.crew? c = some x) (hq : x.sq = ⟨.atomic a, op⟩ :: rest) (hp : x.pass = none) (hd : a.done = false) (h0 : 0 < a.width / 8)
  (hready : ∀ p ∈ a.lanes.flatMap (fun l => l.1.at_), writeWaits s x.seat.core true 0 p = false)
  (hrel : 2 ≤ a.ord → earlierLoads s c op = false ∧
    (eagerRelease x.seat.core a.scope (a.lanes.flatMap fun l => l.1.at_) = false ∨ a.drained = true))
  (hacq : a.ord = 1 ∨ a.ord = 3 → 2 ≤ a.scope → releasers s (a.lanes.flatMap fun l => l.1.at_) = [])
  (hn : ∀ n ∈ atomLines (a.lanes.map (·.1)), (s.core x.seat.core).l1.find? n = none)
  (hl : ∀ l ∈ a.lanes, LaneHome s x.seat.core pa (a.width / 8) l.1)
include hx hq hp hd h0 hready hrel hacq hn hl

theorem exec_atomicPerform : ∃ t, exec (.atomicPerform c) s = .next t ∧
    t.mem.read = (a.lanes.foldl (atomLane pa a) (s.mem.read, a.old)).1 ∧ (∀ d, d ≠ c → t.crew? d = s.crew? d) ∧
    t.crew? c = some { x with
      sq := ⟨.atomic { a with done := true, old := (a.lanes.foldl (atomLane pa a) (s.mem.read, a.old)).2 }, op⟩ :: rest
      pass := none } := by
  have cached : Cached (a.lanes.flatMap fun l => l.1.at_) := fun p hp => by
    obtain ⟨l, hmem, hp⟩ := List.mem_flatMap.1 hp
    obtain ⟨⟨va, m, hm, hat⟩, -⟩ := hl l hmem
    rw [hat] at hp
    obtain ⟨j, -, rfl⟩ := List.mem_map.1 hp
    exact ⟨_, _, m, rfl, hm⟩
  have held : (a.done || (decide (a.ord ≥ 2) && (earlierLoads s c op ||
      (eagerRelease x.seat.core a.scope (a.lanes.flatMap fun l => l.1.at_) && !a.drained))) ||
      (decide ((a.ord = 1 ∨ a.ord = 3) ∧ a.scope ≥ 2) && !(releasers s (a.lanes.flatMap fun l => l.1.at_)).isEmpty)) = false := by
    have release : (decide (a.ord ≥ 2) && (earlierLoads s c op ||
        (eagerRelease x.seat.core a.scope (a.lanes.flatMap fun l => l.1.at_) && !a.drained))) = false := by
      by_cases ho : 2 ≤ a.ord
      · obtain ⟨hloads, heager⟩ := hrel ho
        rcases heager with h | h <;> simp [hloads, h]
      · simp [ho]
    have acquire : (decide ((a.ord = 1 ∨ a.ord = 3) ∧ a.scope ≥ 2) && !(releasers s (a.lanes.flatMap fun l => l.1.at_)).isEmpty) = false := by
      by_cases ho : (a.ord = 1 ∨ a.ord = 3) ∧ a.scope ≥ 2
      · simp [hacq ho.1 ho.2]
      · simp only [ho, decide_false, Bool.false_and]
    simp only [hd, release, acquire, Bool.or_self]
  have waits : (a.lanes.flatMap fun l => l.1.at_).any (writeWaits s x.seat.core true 0) = false :=
    List.any_eq_false.2 fun p h => by simp [hready p h]
  have begins : mustBegin x (a.lanes.flatMap fun l => l.1.at_) = false := by simp [mustBegin, cached.windowParts]
  have busy : passBusy x (a.lanes.flatMap fun l => l.1.at_) none = none := by simp [passBusy, hp]
  obtain ⟨t, ht, hkept, hread⟩ := performAtomic_home (s := captureBefore s x.seat.core (a.lanes.flatMap fun l => l.1.at_)) c x.seat.tag h0 hl hn
  have crews : t.crews = s.crews := hkept.crews
  let lazy := decide (a.ord ≥ 2) && decide (a.scope ≥ 2) && !eagerRelease x.seat.core a.scope (a.lanes.flatMap fun l => l.1.at_)
  have done : exec (.atomicPerform c) s = .next ((if lazy then addReleaser t x.seat.core (a.lanes.flatMap fun l => l.1.at_) else t).updCrew c
      fun x => { x with
        sq := ⟨.atomic { a with done := true, old := (a.lanes.foldl (atomLane pa a) (s.mem.read, a.old)).2 }, op⟩ :: rest
        pass := none }) := by
    show execAtomicPerform c s = _
    unfold execAtomicPerform
    simp only [hx, hq, held, waits, begins, nextPart_cached cached hp, busy, ht, Bool.false_eq_true, if_false, if_true]
    rfl
  have released : (if lazy then addReleaser t x.seat.core (a.lanes.flatMap fun l => l.1.at_) else t).crews = s.crews ∧
      (if lazy then addReleaser t x.seat.core (a.lanes.flatMap fun l => l.1.at_) else t).mem.read = t.mem.read := by
    split <;> exact ⟨crews, rfl⟩
  obtain ⟨hcrews, hmem⟩ := released
  refine ⟨_, done, ?_, fun d hd => ?_, ?_⟩
  · rw [State.updCrew_mem, hmem]
    exact hread
  · rw [State.crew?_updCrew_ne _ _ hd, State.crew?, hcrews]
    rfl
  · rw [State.crew?_updCrew_self, State.crew?, hcrews]
    exact congrArg (Option.map _) hx

end

/-- The lanes of an atomic whose locations, in cached mappings, can be written at home. -/
theorem laneHome_of {s : State} {g n : Nat} {pa : LaneAcc → Nat} {ls : List (LaneAcc × Nat)}
    (hup : ∀ p ∈ ls.flatMap (fun l => l.1.at_), writeRefused s g 0 true 0 (0, p, 0) = false)
    (hn : ∀ n ∈ atomLines (ls.map (·.1)), (s.core g).l1.find? n = none)
    (hc : ∀ l ∈ ls, ∃ va m, m.cached = true ∧ l.1.at_ = (List.range n).map fun j => .glob (pa l.1 + j) (va + j) m) :
    ∀ l ∈ ls, LaneHome s g pa n l.1 := by
  intro l hl
  obtain ⟨va, m, hm, hat⟩ := hc l hl
  refine ⟨⟨va, m, hm, hat⟩, fun j hj => ?_⟩
  have place : .glob (pa l.1 + j) (va + j) m ∈ l.1.at_ := hat ▸ List.mem_map.2 ⟨j, List.mem_range.2 hj, rfl⟩
  constructor
  · refine hn _ (List.mem_eraseDups.2 (List.mem_flatMap.2 ⟨l.1, List.mem_map_of_mem hl, List.mem_filterMap.2 ⟨_, place, ?_⟩⟩))
    simp only [hm, if_true]
  · have := hup _ (List.mem_flatMap.2 ⟨l, hl, place⟩)
    simpa [writeRefused, goesHome, hm] using this

/-! ### ATOMIC_RESULT_RETURN -/

/-- A crew when the head of its queue has left and the result of the head's operation is held. -/
def entryLeft (x : Crew) (rest : List SqEntry) (tag op : Nat) (h : Held) : Crew :=
  { x with sq := rest, pass := none, tags := x.tags.modify tag fun t => if t.op = some op then { t with op := none, held := h } else t }

theorem leaveQueue_done {s : State} {c tag : Nat} {x : Crew} {q : SqEntry} {rest : List SqEntry} {b : Bool} {em : Mask} {kind : OpKind}
    (hx : s.crew? c = some x) (hq : x.sq = q :: rest) (ho : s.op? q.op = some ⟨c, tag, b, em, kind⟩) (hs : x.state ≠ .draining)
    (hslot : InSlot s c tag) (h : Held) : leaveQueue s c h = (s.dropOp q.op).setCrew c (entryLeft x rest tag q.op h) := by
  obtain ⟨hsus, hdef⟩ := hslot x hx
  have crew : ((s.setCrew c { x with sq := rest, pass := none }).dropOp q.op).crew? c = some { x with sq := rest, pass := none } :=
    State.crew?_setCrew_self ..
  have live : (s.setCrew c { x with sq := rest, pass := none }).op? q.op = some ⟨c, tag, b, em, kind⟩ := ho
  have stays : ((x.tags.modify tag fun t => if t.op = some q.op then { t with op := none, held := h } else t).find? tag).any (·.deferred) = false := by
    rw [SMap.find?_modify_self]
    cases hr : x.tags.find? tag with
    | none => rfl
    | some r =>
      simp only [Option.map_some, Option.any_some]
      split <;> exact hdef r hr
  simp only [leaveQueue, hx, hq, updCrew_of hx, finishOp, live, updCrew_of crew, hs, if_false, holdResult, State.crew?_setCrew_self, hsus, stays,
    Bool.false_eq_true, or_self]
  exact setCrew_setCrew (s.dropOp q.op) c _ _

theorem entryLeft_tags {x : Crew} {tag op : Nat} {r : TagRec} (hr : x.tags.find? tag = some r) (hro : r.op = some op) (rest : List SqEntry) (h : Held) :
    (entryLeft x rest tag op h).tags.find? tag = some { r with op := none, held := h } := by
  refine (SMap.find?_modify_self ..).trans ?_
  simp [hr, hro]

/-- A trap found after issue is noted, and its crew, if it waits, is READY. -/
theorem raiseLate_crew {s : State} {c : Nat} {x : Crew} (hx : s.crew? c = some x) (hs : x.state ≠ .draining) (t : Trap) (pc : DWord) :
    ∃ st w, (raiseLate s c t pc).crew? c = some { x with req := { x.req with trap := some (t, pc) }, state := st, wait := w } := by
  have crew : (s.updCrew c fun x => { x with req := { x.req with trap := some (t, pc) } }).crew? c =
      some { x with req := { x.req with trap := some (t, pc) } } := by rw [State.crew?_updCrew_self, hx]; rfl
  simp only [raiseLate, hx, hs, if_false]
  split
  · exact ⟨_, _, crew?_toReady crew⟩
  · exact ⟨_, _, crew⟩

theorem toReady_keeps (s : State) (c : Nat) :
    (toReady s c).mem = s.mem ∧ (toReady s c).ops = s.ops ∧ ∀ g, ((toReady s c).core g).l1 = (s.core g).l1 ∧
      ((toReady s c).core g).tiles = (s.core g).tiles := by
  cases hx : s.crew? c with
  | none =>
    have same : toReady s c = s := by simp only [toReady, hx]
    rw [same]
    exact ⟨rfl, rfl, fun _ => ⟨rfl, rfl⟩⟩
  | some x =>
    refine ⟨by simp [toReady, leaveSets, hx, State.updSched], by simp [toReady, leaveSets, hx, State.updSched, State.updCrew_ops, State.updCore], fun g => ?_⟩
    by_cases hg : g = x.seat.core
    · obtain ⟨d, hd⟩ := core_toReady hx
      rw [hg, hd]
      exact ⟨rfl, rfl⟩
    · rw [core_toReady_ne hx hg]
      exact ⟨rfl, rfl⟩

theorem raiseLate_keeps (s : State) (c : Nat) (t : Trap) (pc : DWord) :
    (raiseLate s c t pc).mem = s.mem ∧ (raiseLate s c t pc).ops = s.ops ∧ ∀ g, ((raiseLate s c t pc).core g).l1 = (s.core g).l1 ∧
      ((raiseLate s c t pc).core g).tiles = (s.core g).tiles := by
  unfold raiseLate
  split
  · exact ⟨rfl, rfl, fun _ => ⟨rfl, rfl⟩⟩
  · dsimp only
    split
    · exact ⟨rfl, rfl, fun _ => ⟨rfl, rfl⟩⟩
    · split
      · obtain ⟨hmem, hops, hcore⟩ := toReady_keeps (s.updCrew c fun x => { x with req := { x.req with trap := some (t, pc) } }) c
        refine ⟨hmem.trans (State.updCrew_mem ..), hops.trans (State.updCrew_ops ..), fun g => ?_⟩
        rw [(hcore g).1, (hcore g).2, State.core_updCrew]
        exact ⟨rfl, rfl⟩
      · exact ⟨State.updCrew_mem .., State.updCrew_ops .., fun g => by rw [State.core_updCrew]; exact ⟨rfl, rfl⟩⟩

/-- What a tile that an atomic of core `g` has written becomes. -/
def writtenTile (a : AtomAcc) (g tag : Nat) (e : Tile) : Tile :=
  if (e.state = .valid ∨ e.state = .suspect) ∧
    a.lanes.any (fun l => !a.dropped.contains l.1.lane && !a.bad.contains l.1.lane && l.1.at_.any (e.covers g tag)) = true
  then { e with state := .stale } else e

theorem written_any (a : AtomAcc) (f : Place → Bool) :
    a.written.any f = a.lanes.any fun l => !a.dropped.contains l.1.lane && !a.bad.contains l.1.lane && l.1.at_.any f := by
  simp only [AtomAcc.written, List.any_flatMap, List.any_filter]

theorem tile?_staleMemTiles (s : State) (a : AtomAcc) (g tag n : Nat) :
    (staleMemTiles s g tag a.written).tile? g n = (s.tile? g n).map (writtenTile a g tag) := by
  rw [State.tile?, staleMemTiles, State.core_updCore_self]
  refine find?_map_entries (f := fun _ => writtenTile a g tag) (fun e => ?_) n
  rw [writtenTile, ← written_any]
  split <;> rfl

/-- The state once the tiles that an atomic has written are STALE and, for an acquire, the stale lines have left. -/
def returning (s : State) (a : AtomAcc) (g tag : Nat) : State :=
  if (a.ord = 1 ∨ a.ord = 3) ∧ a.scope ≥ 2 then invalidateStale (staleMemTiles s g tag a.written) g else staleMemTiles s g tag a.written

theorem returning_keeps {s : State} {g : Nat} (hup : L1Up s g) (a : AtomAcc) (tag : Nat) :
    (returning s a g tag).crews = s.crews ∧ (returning s a g tag).ops = s.ops ∧ (∀ k, homeByte (returning s a g tag) g k = homeByte s g k) ∧
      ∀ n, (returning s a g tag).tile? g n = (s.tile? g n).map (writtenTile a g tag) := by
  have lines : ((staleMemTiles s g tag a.written).core g).l1 = (s.core g).l1 := by rw [staleMemTiles, State.core_updCore_self]
  have bytes (k : Nat) : homeByte (staleMemTiles s g tag a.written) g k = homeByte s g k := by
    simp only [homeByte, lines]
    rfl
  unfold returning
  split
  · have left : LinesLeft g (staleLines (staleMemTiles s g tag a.written) g) (staleMemTiles s g tag a.written)
        (invalidateStale (staleMemTiles s g tag a.written) g) := invalidateLines_left fun n _ l hl _ => by
      rw [lines] at hl
      exact hup n (by rw [hl]; rfl)
    exact ⟨left.only.crews, left.only.ops, fun k => (left.homeByte k).trans (bytes k),
      fun n => (left.only.tile? g n).trans (tile?_staleMemTiles s a g tag n)⟩
  · exact ⟨rfl, rfl, bytes, tile?_staleMemTiles s a g tag⟩

section
variable {s : State} {c : Nat} {x : Crew} {a : AtomAcc} {op : Nat} {rest : List SqEntry} {tag : Nat} {b : Bool} {em : Mask} {d : Reg} {ret : AtomRet}
  (hx : s.crew? c = some x) (hq : x.sq = ⟨.atomic a, op⟩ :: rest) (hd : a.done = true)
  (ho : s.op? op = some ⟨c, tag, b, em, .queued (some d) ret⟩) (hs : x.state ≠ .draining) (hup : L1Up s x.seat.core) (hslot : InSlot s c tag)

/-- The state in which the entry has left, with result `h`. -/
def afterReturn (s : State) (c : Nat) (x : Crew) (a : AtomAcc) (rest : List SqEntry) (tag op : Nat) (h : Held) : State :=
  ((returning s a x.seat.core x.seat.tag).dropOp op).setCrew c (entryLeft x rest tag op h)

include hx hq hd ho hs hup hslot

theorem exec_atomicResultReturn :
    (a.bad = [] → exec (.atomicResultReturn c) s = .next (afterReturn s c x a rest tag op (atomHeld b d ret a.old))) ∧
    (a.bad ≠ [] → ∃ e, exec (.atomicResultReturn c) s =
      .next (raiseLate (afterReturn s c x a rest tag op {}) c ⟨0x0E, lanesMask a.bad, BitVec.ofNat 64 e⟩ a.pc)) := by
  obtain ⟨hcrews, hops, -, -⟩ := returning_keeps hup a x.seat.tag
  have crew : (returning s a x.seat.core x.seat.tag).crew? c = some x := (congrArg (SMap.find? · c) hcrews).trans hx
  have opOf : (returning s a x.seat.core x.seat.tag).op? op = some ⟨c, tag, b, em, .queued (some d) ret⟩ :=
    (congrArg (SMap.find? · op) hops).trans ho
  have left (h : Held) : leaveQueue (returning s a x.seat.core x.seat.tag) c h = afterReturn s c x a rest tag op h :=
    leaveQueue_done crew hq opOf hs (fun y hy => hslot y (hx.trans (crew.symm.trans hy))) h
  have run : exec (.atomicResultReturn c) s = .next (if a.bad.isEmpty then
      leaveQueue (returning s a x.seat.core x.seat.tag) c (match (returning s a x.seat.core x.seat.tag).op? op with
        | some ⟨_, _, b, _, .queued (some d) ret⟩ => atomHeld b d ret a.old
        | _ => {})
      else raiseLate (leaveQueue (returning s a x.seat.core x.seat.tag) c {}) c ⟨0x0E, lanesMask a.bad, BitVec.ofNat 64
        ((a.lanes.filter fun l => a.bad.contains l.1.lane).foldl (fun m l => min m l.1.ea)
          ((((a.lanes.filter fun l => a.bad.contains l.1.lane).head?).map (·.1.ea)).getD 0))⟩ a.pc) := by
    show execAtomicResultReturn c s = _
    unfold execAtomicResultReturn
    simp only [hx, hq, hd, Bool.not_true, Bool.false_eq_true, if_false]
    rfl
  rw [run, opOf]
  refine ⟨fun hb => ?_, fun hb => ?_⟩
  · rw [if_pos (by rw [hb]; rfl)]
    exact congrArg Host.Outcome.next (left _)
  · rw [if_neg (by simpa using hb), left]
    exact ⟨_, rfl⟩

omit hx hq hd ho hs hslot in
/-- What the return leaves of bytes, tiles and operations. -/
theorem afterReturn_keeps (h : Held) : (afterReturn s c x a rest tag op h).op? op = none ∧
    (∀ k, homeByte (afterReturn s c x a rest tag op h) x.seat.core k = homeByte s x.seat.core k) ∧
    ∀ n, (afterReturn s c x a rest tag op h).tile? x.seat.core n = (s.tile? x.seat.core n).map (writtenTile a x.seat.core x.seat.tag) := by
  obtain ⟨-, -, hbytes, htiles⟩ := returning_keeps hup a x.seat.tag
  exact ⟨SMap.find?_erase_self _ _, hbytes, htiles⟩

end

/-- Settles O39: its lanes one after the other at home memory (`performAtomic_home`), and its entry's leaving (`leaveQueue_done`) with the tiles
it has written and, for an acquire, the stale lines (`invalidateLines_left`). -/
theorem atomicsPerformAndReturn : Obligations.AtomicsPerformAndReturn := by
  constructor
  · intro s c x a op rest pa hx hq hp hd hold hbad hdropped g ps hready hrel hacq hn hc h0 one last
    have run := exec_atomicPerform (pa := pa) hx hq hp hd h0 (fun p h => (hready p h).1) hrel hacq hn (laneHome_of (fun p h => (hready p h).2) hn hc)
    rw [hold] at run
    obtain ⟨t, ht, hmem, hothers, hcrew⟩ := run
    exact ⟨t, _, ht, hcrew, rfl, congrFun hmem, rfl, rfl, rfl, hothers⟩
  · intro s c x a op rest tag b em d ret hx hq hd ho hs hup hslot
    obtain ⟨hgood, hfail⟩ := exec_atomicResultReturn hx hq hd ho hs hup hslot
    have tile (h : Held) (n : Nat) (e : Tile) (he : s.tile? x.seat.core n = some e) :
        (afterReturn s c x a rest tag op h).tile? x.seat.core n = some (writtenTile a x.seat.core x.seat.tag e) := by
      rw [(afterReturn_keeps hup h).2.2, he]
      rfl
    by_cases hb : a.bad = []
    · obtain ⟨hop, hbytes, -⟩ := afterReturn_keeps (c := c) (a := a) (rest := rest) (tag := tag) (op := op) hup (atomHeld b d ret a.old)
      exact ⟨_, _, hgood hb, State.crew?_setCrew_self .., rfl, hop, rfl, rfl, hbytes, tile _,
        fun r hr hro => by rw [if_pos hb]; exact entryLeft_tags hr hro rest _, fun _ => rfl, fun h => absurd hb h⟩
    · obtain ⟨e, he⟩ := hfail hb
      obtain ⟨hop, hbytes, -⟩ := afterReturn_keeps (c := c) (a := a) (rest := rest) (tag := tag) (op := op) hup {}
      have crew : (afterReturn s c x a rest tag op {}).crew? c = some (entryLeft x rest tag op {}) := State.crew?_setCrew_self ..
      obtain ⟨st, w, hlate⟩ := raiseLate_crew crew (show x.state ≠ .draining from hs) ⟨0x0E, lanesMask a.bad, BitVec.ofNat 64 e⟩ a.pc
      obtain ⟨hmem, hops, hcore⟩ := raiseLate_keeps (afterReturn s c x a rest tag op {}) c ⟨0x0E, lanesMask a.bad, BitVec.ofNat 64 e⟩ a.pc
      obtain ⟨hl1, htiles⟩ := hcore x.seat.core
      refine ⟨_, _, he, hlate, rfl, (congrArg (SMap.find? · op) hops).trans hop, rfl, rfl, fun k => ?_, fun n e' he' => ?_,
        fun r hr hro => by rw [if_neg hb]; exact entryLeft_tags hr hro rest {}, fun h => absurd h hb, fun _ => ⟨e, rfl⟩⟩
      · refine Eq.trans ?_ (hbytes k)
        simp only [homeByte, hl1, hmem]
      · exact (congrArg (SMap.find? · n) htiles).trans (tile _ n e' he')

end Sys2Proof.Machine
end

section
/-!
PROOF of what a write of EVHEAD does: kept events go to the ring as its slots free, and a command that waits for one ends (R352, R353).
-/
namespace Sys2Proof.Machine

/-- Only the management page and memory have changed: what a written event changes. -/
def PageMem (s t : State) : Prop := { t with mg := s.mg, mem := s.mem } = s

namespace PageMem
variable {s t u : State}

theorem refl (s : State) : PageMem s s := rfl

theorem trans (h : PageMem s t) (h' : PageMem t u) : PageMem s u := by
  have e := congrArg (fun v : State => { v with mg := s.mg, mem := s.mem }) h'
  exact e.trans h

theorem links (h : PageMem s t) : t.links = s.links := by
  have e := congrArg State.links h
  exact e

end PageMem

/-- The page after an event is put in the next slot. -/
def slotTaken (m : Manage) : Manage := { m with evtail := m.evtail + 1, msix := (m.owner.getD 0, m.evvec % 2 ^ 11) :: m.msix }

theorem putEvent_spec (s : State) (e : Event) : PageMem s (putEvent s e) ∧ (putEvent s e).mg = slotTaken s.mg := by
  unfold putEvent
  dsimp only
  split <;> exact ⟨rfl, rfl⟩

theorem emit_pageMem (s : State) (e : Event) : PageMem s (emit s e) := by
  unfold emit
  split
  · exact (putEvent_spec s e).1
  split
  · rfl
  split <;> rfl

/-- An event that does not find 256 others kept is written or kept; it does not wait. -/
theorem emit_cmd {s : State} {e : Event} (h : s.mg.kept.length < 256) : (emit s e).mg.cmd = s.mg.cmd ∧ (emit s e).mg.held = s.mg.held := by
  unfold emit
  split
  · rw [(putEvent_spec s e).2]
    exact ⟨rfl, rfl⟩
  · exact ⟨rfl, rfl⟩

/-- The page after the first `k` kept events have been written, signalled as `l`. -/
def flushed (m : Manage) (k : Nat) (l : List (Nat × Nat)) : Manage := { m with kept := m.kept.drop k, evtail := m.evtail + k, msix := l }

/-- The kept events for which slots are free. -/
def flushCount (m : Manage) : Nat := min m.kept.length (m.evhead + 4096 - m.evtail)

/-- Kept events are written while slots are free. -/
theorem flushEvents_spec (n : Nat) (s : State) (hn : s.mg.kept.length ≤ n) :
    PageMem s (flushEvents n s) ∧ ∃ l, (flushEvents n s).mg = flushed s.mg (flushCount s.mg) l := by
  have none (h : flushCount s.mg = 0) : s.mg = flushed s.mg (flushCount s.mg) s.mg.msix := by rw [h]; rfl
  induction n generalizing s with
  | zero => exact ⟨.refl s, s.mg.msix, none (by unfold flushCount; omega)⟩
  | succ n ih =>
    cases hk : s.mg.kept with
    | nil =>
      have stays : flushEvents (n + 1) s = s := by simp only [flushEvents, hk]
      rw [stays]
      exact ⟨.refl s, s.mg.msix, none (by simp [flushCount, hk])⟩
    | cons e l =>
      by_cases hfull : ringFull s
      · have stays : flushEvents (n + 1) s = s := by simp only [flushEvents, hk, hfull, if_true]
        have full : 4096 ≤ s.mg.evtail - s.mg.evhead := of_decide_eq_true hfull
        rw [stays]
        exact ⟨.refl s, s.mg.msix, none (by unfold flushCount; omega)⟩
      · have next : flushEvents (n + 1) s = flushEvents n (putEvent (s.updMg fun m => { m with kept := l }) e) := by
          simp only [flushEvents, hk, hfull, Bool.false_eq_true, if_false]
        have room : ¬4096 ≤ s.mg.evtail - s.mg.evhead := fun h => hfull (decide_eq_true h)
        obtain ⟨hput, hmg⟩ := putEvent_spec (s.updMg fun m => { m with kept := l }) e
        have kept : (putEvent (s.updMg fun m => { m with kept := l }) e).mg = slotTaken { s.mg with kept := l } := hmg
        obtain ⟨hpage, ms, hrest⟩ := ih (putEvent (s.updMg fun m => { m with kept := l }) e)
          (by rw [kept]; rw [hk, List.length_cons] at hn; exact Nat.le_of_succ_le_succ hn) (fun h => by rw [h]; rfl)
        have count : flushCount s.mg = flushCount (slotTaken { s.mg with kept := l }) + 1 := by
          simp only [flushCount, slotTaken, hk, List.length_cons]
          omega
        rw [next]
        refine ⟨.trans (PageMem.trans (t := s.updMg fun m => { m with kept := l }) rfl hput) hpage, ms, ?_⟩
        rw [hrest, kept, count]
        simp only [flushed, slotTaken, hk, List.drop_succ_cons, Nat.add_assoc, Nat.add_comm 1]

/-- The page with EVHEAD written. -/
def headSet (s : State) (v : Nat) : State := s.updMg fun m => { m with evhead := v }

section
variable {s : State} {v : Nat}

/-- A write of EVHEAD with no command waiting for room. -/
theorem evheadWrite_idle (h : s.mg.held = none) : let k := min s.mg.kept.length (v + 4096 - s.mg.evtail)
    ∃ t, exec (.evheadWrite v) s = .next t ∧ { t with mg := s.mg, mem := s.mem } = s ∧ t.mg.evhead = v ∧ t.mg.evtail = s.mg.evtail + k ∧
      t.mg.kept = s.mg.kept.drop k ∧ t.mg.cmd = s.mg.cmd ∧ t.mg.held = none := by
  obtain ⟨hpage, l, hmg⟩ := flushEvents_spec s.mg.kept.length (headSet s v) le_rfl
  have stays : evheadWrite s v = flushEvents s.mg.kept.length (headSet s v) := by
    have held : (flushEvents s.mg.kept.length (headSet s v)).mg.held = none := by
      rw [hmg]
      exact h
    show releaseHeld (flushEvents s.mg.kept.length (headSet s v)) = _
    simp only [releaseHeld, held]
  refine ⟨_, congrArg Host.Outcome.next stays, PageMem.trans (t := headSet s v) rfl hpage, ?_⟩
  rw [hmg]
  exact ⟨rfl, rfl, rfl, rfl, h⟩

/-- A write of EVHEAD while a command waits for room: it ends once a slot is free. -/
theorem evheadWrite_waiting {e : Event} {c : Cmd} (h : s.mg.held = some e) (hc : s.mg.cmd = some c) (hk : s.mg.kept.length = 256) :
    ∃ t, exec (.evheadWrite v) s = .next t ∧
      (s.mg.evtail < v + 4096 → t.mg.cmd = none ∧ t.mg.held = none ∧ t.mg.cmdhead = c.seq) ∧
      (v + 4096 ≤ s.mg.evtail → t = s.updMg fun m => { m with evhead := v }) := by
  obtain ⟨hpage, l, hmg⟩ := flushEvents_spec s.mg.kept.length (headSet s v) le_rfl
  have waits : (flushEvents s.mg.kept.length (headSet s v)).mg.held = some e ∧
      (flushEvents s.mg.kept.length (headSet s v)).mg.cmd = some c := by
    rw [hmg]
    exact ⟨h, hc⟩
  have count : flushCount (headSet s v).mg = min 256 (v + 4096 - s.mg.evtail) := by
    rw [← hk]
    rfl
  have kept : (flushEvents s.mg.kept.length (headSet s v)).mg.kept.length = 256 - (v + 4096 - s.mg.evtail) := by
    rw [hmg, flushed, List.length_drop, count]
    show s.mg.kept.length - _ = _
    omega
  refine ⟨evheadWrite s v, rfl, fun hroom => ?_, fun hfull => ?_⟩
  · have few : (flushEvents s.mg.kept.length (headSet s v)).mg.kept.length < 256 := by omega
    have ends : evheadWrite s v = (emit ((flushEvents s.mg.kept.length (headSet s v)).updMg fun m =>
        { m with held := none }) e).updMg fun m => { m with cmdhead := c.seq, cmd := none } := by
      show releaseHeld (flushEvents s.mg.kept.length (headSet s v)) = _
      simp only [releaseHeld, waits, show ¬256 ≤ (flushEvents s.mg.kept.length (headSet s v)).mg.kept.length by omega,
        decide_false, Bool.and_false, Bool.false_eq_true, if_false]
    rw [ends]
    have sent := emit_cmd (s := (flushEvents s.mg.kept.length (headSet s v)).updMg fun m => { m with held := none }) (e := e) few
    exact ⟨rfl, sent.2, rfl⟩
  · have stays : flushEvents s.mg.kept.length (headSet s v) = headSet s v := by
      cases hl : s.mg.kept with
      | nil => rfl
      | cons e l =>
        have full : ringFull (headSet s v) = true := decide_eq_true (show 4096 ≤ s.mg.evtail - v by omega)
        have kept : (headSet s v).mg.kept = e :: l := hl
        simp only [List.length_cons, flushEvents, kept, full, if_true]
    have full : ringFull (headSet s v) = true := decide_eq_true (show 4096 ≤ s.mg.evtail - v by omega)
    show releaseHeld (flushEvents s.mg.kept.length (headSet s v)) = _
    rw [stays] at waits ⊢
    simp only [releaseHeld, waits, full, Bool.true_and, show 256 ≤ (headSet s v).mg.kept.length from hk.ge,
      decide_true, if_true]
    rfl

end

end Sys2Proof.Machine
end

section
/-!
PROOF of the reads of the management page: link status, registers, eye words (R351, R352).
-/
namespace Sys2Proof.Machine

/-! ### Fields of a word -/

section
variable {w x hi lo i : Nat} {t : List (Nat × Nat)}

/-- The first field stands lowest. -/
theorem bits_packFields_head (h : hi + 1 = w) : bits (packFields ((w, x) :: t)) hi 0 = x % 2 ^ w := by
  simp [bits, packFields, h]

/-- The fields after the first stand above it. -/
theorem bits_packFields_tail (h : w ≤ lo) (hl : lo ≤ hi) : bits (packFields ((w, x) :: t)) hi lo = bits (packFields t) (hi - w) (lo - w) := by
  have above : packFields ((w, x) :: t) / 2 ^ lo = packFields t / 2 ^ (lo - w) := by
    have low : x % 2 ^ w < 2 ^ w := Nat.mod_lt _ (Nat.two_pow_pos w)
    rw [show lo = w + (lo - w) by omega, Nat.pow_add, ← Nat.div_div_eq_div_mul, packFields, Nat.add_mul_div_left _ _ (Nat.two_pow_pos w),
      Nat.div_eq_of_lt low, Nat.zero_add, show w + (lo - w) - w = lo - w by omega]
  rw [bits, bits, above, show hi - w + 1 - (lo - w) = hi + 1 - lo by omega]

theorem testBit_eq_bits (n i : Nat) : n.testBit i = decide (bits n i i = 1) := by
  rw [Nat.testBit_eq_decide_div_mod_eq, bits, show i + 1 - i = 1 by omega, Nat.pow_one]

/-- One bit of a word is its field of one bit. -/
theorem toNat_field (b : Bool) : decide (b.toNat % 2 = 1) = b := by cases b <;> rfl

end

/-! ### Links in the state -/

section
variable (s : State) (f f' : Link → Link) {n m : Nat}

@[simp] theorem link_updLink_self : (s.updLink n f).link n = f (s.link n) := by
  rw [State.link, State.updLink, SMap.getD_insert_self]

@[simp] theorem link_updLink_ne (h : m ≠ n) : (s.updLink n f).link m = s.link m := by
  rw [State.link, State.updLink, SMap.getD_insert_ne _ _ _ h, State.link]

/-- Two changes of a link one after the other. -/
theorem updLink_updLink : (s.updLink n f).updLink n f' = s.updLink n fun k => f' (f k) := by
  rw [State.updLink, link_updLink_self]
  simp only [State.updLink, insert_insert]

end

/-! ### Reads (R351, R352) -/

/-- A port that is designated, or any while none is, reads the page. -/
theorem registerRead_page {s : State} {p off : Nat} (ho : off < 0x10000) (hp : ∀ o, s.mg.owner = some o → o = p) :
    registerRead s p off = pageRead s p off := by
  have own : s.mg.owner.any (· != p) = false := by
    cases h : s.mg.owner with
    | none => rfl
    | some o => simp [hp o h]
  simp [registerRead, own, show ¬0x10000 ≤ off by omega]

theorem registerRead_closed {s : State} {p off : Nat} (h : 0x10000 ≤ off ∨ ∃ o, s.mg.owner = some o ∧ o ≠ p) : registerRead s p off = (0, s) := by
  rcases h with h | ⟨o, ho, hne⟩
  · simp [registerRead, h]
  · simp [registerRead, ho, hne]

theorem mstatWord_fields (m : Manage) (p : Nat) : let r := mstatWord m p
    r.testBit 0 = m.ready ∧ r.testBit 1 = m.fault ∧ bits r 7 2 = 0 ∧ bits r 15 8 = m.step % 256 ∧ bits r 19 16 = m.atom0 % 16 ∧
      r.testBit 20 = (m.owner == some p) ∧ r.testBit 21 = m.evovf ∧ bits r 23 22 = 0 ∧ bits r 27 24 = m.atom1 % 16 := by
  simp only [mstatWord, testBit_eq_bits]
  refine ⟨?_, ?_, ?_, ?_, ?_, ?_, ?_, ?_, ?_⟩ <;> simp [bits_packFields_tail, bits_packFields_head, toNat_field]

theorem linkLanes_le {n : Nat} (h : (linkLanes n).isSome) : n ≤ 97 := by
  unfold linkLanes at h
  by_contra hn
  rw [if_neg (by omega), if_neg (by omega), if_neg (by omega), if_neg (by omega), if_neg (by omega)] at h
  cases h

/-- What a port reads of the registers that R352 lets it read. -/
theorem registerRead_spec (s : State) (p off : Nat) : let r := (registerRead s p off).1
    (0x10000 ≤ off ∨ (∃ o, s.mg.owner = some o ∧ o ≠ p) → registerRead s p off = (0, s)) ∧
    (off < 0x10000 → (∀ o, s.mg.owner = some o → o = p) →
      (off = 0 → r.testBit 0 = s.mg.ready ∧ r.testBit 1 = s.mg.fault ∧ bits r 7 2 = 0 ∧ bits r 15 8 = s.mg.step % 256 ∧ bits r 19 16 = s.mg.atom0 % 16 ∧
        r.testBit 20 = (s.mg.owner == some p) ∧ r.testBit 21 = s.mg.evovf ∧ bits r 23 22 = 0 ∧ bits r 27 24 = s.mg.atom1 % 16) ∧
      (off = 0x18 → r = s.mg.cmdhead) ∧ (off = 0x28 → r = s.mg.evtail) ∧ (off = 0x48 → r = s.mg.frtail % 2 ^ 32) ∧ (off = 0x68 → r = s.mg.evdrop) ∧
      ∀ d < 12, off = 0x100 + 8 * d → r = (s.tracker d).tail) := by
  refine ⟨registerRead_closed, fun ho hp => ?_⟩
  rw [registerRead_page ho hp]
  refine ⟨fun h => ?_, fun h => ?_, fun h => ?_, fun h => ?_, fun h => ?_, fun d hd h => ?_⟩
  · rw [h]
    exact mstatWord_fields s.mg p
  · rw [h]
    rfl
  · rw [h]
    rfl
  · rw [h]
    rfl
  · rw [h]
    rfl
  · rw [h]
    interval_cases d <;> rfl

theorem linkWord_fields (k : Link) (f : Nat) : let w := k.word f
    bits w 2 0 = k.state.code ∧ w.testBit 3 = k.auto ∧ bits w 15 4 = 0 ∧ (k.width < 256 → bits w 23 16 = k.width) ∧ bits w 31 24 = k.spused % 256 ∧
      bits w 47 32 = k.lost % 2 ^ 16 ∧ bits w 63 48 = k.replay % 2 ^ 16 := by
  have code : k.state.code % 8 = k.state.code := by cases k.state <;> rfl
  simp only [Link.word, testBit_eq_bits]
  refine ⟨?_, ?_, ?_, fun hw => ?_, ?_, ?_, ?_⟩
  · simpa [bits_packFields_head] using code
  · simp [bits_packFields_tail, bits_packFields_head, toNat_field]
  · simp [bits_packFields_tail, bits_packFields_head]
  · simp [bits_packFields_tail, bits_packFields_head, hw, Nat.mod_eq_of_lt hw]
  · simp [bits_packFields_tail, bits_packFields_head]
  · simp [bits_packFields_tail, bits_packFields_head]
  · simp [bits_packFields_tail, bits_packFields_head]

/-- A read of a link's status word at its place in the page. -/
theorem pageRead_link (s : State) (p n : Nat) : pageRead s p (0x2000 + 64 * n) = readLink s n := by
  unfold pageRead
  split
  any_goals omega
  rw [if_neg (by omega), if_pos (by omega), show (0x2000 + 64 * n - 0x2000) / 64 = n by omega]

/-- A read of the status word answers with its fields and clears REPLAY. -/
theorem linkStatusRead_spec {s : State} {n : Nat} (hn : (linkLanes n).isSome) : let k := s.link n; ∃ t, exec (.linkStatusRead n) s = .next t ∧
    { t with links := s.links, free := s.free, mg := s.mg } = s ∧ t.link n = { k with replay := 0 } ∧ (∀ j, j ≠ n → t.link j = s.link j) ∧
    let w := t.mg.answer
    t.mg = { s.mg with answer := w } ∧ bits w 2 0 = k.state.code ∧ w.testBit 3 = k.auto ∧ bits w 15 4 = 0 ∧
      (k.width < 256 → bits w 23 16 = k.width) ∧ bits w 31 24 = k.spused % 256 ∧ bits w 47 32 = k.lost % 2 ^ 16 ∧ bits w 63 48 = k.replay % 2 ^ 16 := by
  have le := linkLanes_le hn
  have own (o : Nat) (h : s.mg.owner = some o) : o = s.mg.owner.getD 0 := by rw [h]; rfl
  have read : exec (.linkStatusRead n) s = .next (answerRead (readLink s n)) := by
    show Host.Outcome.next (answerRead (registerRead s (s.mg.owner.getD 0) (0x2000 + 64 * n))) = _
    rw [registerRead_page (by omega) own, pageRead_link]
  have word : ∃ (f : Nat) (u : State), readLink s n = ((s.link n).word f, u.updLink n fun k => { k with replay := 0 }) ∧ { u with free := s.free } = s := by
    have some : (linkLanes n).isNone = false := by rw [← Option.not_isSome, hn]; rfl
    simp only [readLink, some, Bool.false_eq_true, if_false]
    split
    · exact ⟨_, _, rfl, rfl⟩
    · exact ⟨_, _, rfl, rfl⟩
  obtain ⟨f, u, hread, hu⟩ := word
  have links : u.links = s.links := by
    have e := congrArg State.links hu
    exact e
  have mg : u.mg = s.mg := by
    have e := congrArg State.mg hu
    exact e
  rw [hread] at read
  have link (j : Nat) : u.link j = s.link j := by rw [State.link, State.link, links]
  refine ⟨_, read, ?_, ?_, fun j hj => ?_, ?_, linkWord_fields (s.link n) f⟩
  · exact (congrArg (fun v : State => { v with links := s.links, mg := s.mg }) hu)
  · exact (link_updLink_self u fun k => { k with replay := 0 }).trans (by rw [link])
  · exact (link_updLink_ne u (fun k => { k with replay := 0 }) hj).trans (link j)
  · exact congrArg (fun m : Manage => { m with answer := (s.link n).word f }) mg

/-! ### Eye words (R351) -/

theorem eyeWord_eq (e : Eye) : e.word = e.v % 256 + e.h % 256 * 2 ^ 8 + e.minh % 256 * 2 ^ 16 + e.thr % 256 * 2 ^ 24 := by
  simp only [Eye.word, packFields]
  omega

section
variable {s : State} {data spare : Nat} (hn : linkLanes (s.mg.eyesel % 256) = some (data, spare))
include hn

theorem eyeSelected_none (h : data + spare ≤ bits s.mg.eyesel 27 16) : eyeSelected s = none := by
  simp only [eyeSelected, hn, if_neg (Nat.not_lt.2 h)]

theorem eyeSelected_some (h : bits s.mg.eyesel 27 16 < data + spare) : eyeSelected s = some (s.mg.eyesel % 256, bits s.mg.eyesel 27 16) := by
  simp only [eyeSelected, hn, if_pos h]

/-- A read of the eye word of the lane selected: MINH begins again. -/
theorem eyewordRead_spec : let n := s.mg.eyesel % 256; let l := bits s.mg.eyesel 27 16
    (data + spare ≤ l → exec .eyewordRead s = .next (s.updMg fun m => { m with answer := 0 })) ∧
    (l < data + spare → let e := (s.link n).eyes.getD l Eye.reset
      let w := e.v % 256 + e.h % 256 * 2 ^ 8 + e.minh % 256 * 2 ^ 16 + e.thr % 256 * 2 ^ 24
      exec .eyewordRead s = .next ((s.updLink n fun k => { k with eyes := k.eyes.insert l { e with minh := e.h } }).updMg fun m =>
        { m with answer := w })) := by
  have own (o : Nat) (h : s.mg.owner = some o) : o = s.mg.owner.getD 0 := by rw [h]; rfl
  have read : exec .eyewordRead s = .next (answerRead (readEye s)) := by
    show Host.Outcome.next (answerRead (registerRead s (s.mg.owner.getD 0) 0x0078)) = _
    rw [registerRead_page (by omega) own]
    rfl
  rw [read]
  refine ⟨fun h => ?_, fun h => ?_⟩
  · rw [readEye, eyeSelected_none hn h]
    rfl
  · intro e w
    rw [readEye, updEye, eyeSelected_some hn h, show w = e.word from (eyeWord_eq e).symm]
    rfl

end

end Sys2Proof.Machine
end

section
/-!
PROOF of the writes of the management page and of the doorbell pages (R302, R337, R343, R351, R352).
-/
namespace Sys2Proof.Machine

section
variable {s : State} {p off v : Nat}

/-! ### Which writes reach a register -/

theorem registerWrite_page (ho : off < 65536) (hp : s.mg.owner = some p) (h0 : off ≠ 0) :
    exec (.registerWrite p off v) s = .next (pageWrite s off v) := by
  show execRegisterWrite p off v s = _
  simp [execRegisterWrite, hp, h0, show ¬65536 ≤ off by omega]

theorem registerWrite_other (ho : off < 65536) {o : Nat} (hp : s.mg.owner = some o) (hne : o ≠ p) : exec (.registerWrite p off v) s = .next s := by
  show execRegisterWrite p off v s = _
  simp [execRegisterWrite, hp, hne, show ¬65536 ≤ off by omega]

theorem registerWrite_undesignated (ho : off < 65536) (hp : s.mg.owner = none) (h0 : off ≠ 0) : exec (.registerWrite p off v) s = .next s := by
  show execRegisterWrite p off v s = _
  simp [execRegisterWrite, hp, h0, show ¬65536 ≤ off by omega]

theorem registerWrite_doorbell (ho : 65536 ≤ off) : exec (.registerWrite p off v) s = .next (doorbellWrite s p (off - 65536) v) := by
  show execRegisterWrite p off v s = _
  simp [execRegisterWrite, ho]

/-! ### MSTAT -/

theorem mstatDesignate_spec (s : State) (p : Nat) : exec (.mstatDesignate p) s =
    if s.mg.owner = none ∧ p < 2 then .next (s.updMg fun m => { m with owner := some p }) else .next s := by
  have run : exec (.mstatDesignate p) s = .next (designate s p) := rfl
  rw [run, designate]
  simp only [Option.isNone_iff_eq_none]
  split <;> rfl

theorem registerWrite_mstat (h : (s.mg.owner = none ∧ p < 2) ∨ s.mg.owner = some p) : exec (.registerWrite p 0 v) s =
    .next (s.updMg fun m => { m with
      atom0 := bits v 19 16
      atom1 := bits v 27 24
      owner := if m.owner = none ∧ v.testBit 20 = true then some p else m.owner
      evovf := m.evovf && !v.testBit 21 }) := by
  have write : exec (.registerWrite p 0 v) s = .next (mstatWrite s p v) := by
    show execRegisterWrite p 0 v s = _
    rcases h with ⟨hn, hp⟩ | hp
    · simp [execRegisterWrite, hn, hp]
    · simp [execRegisterWrite, hp]
  have low (hi lo : Nat) (h : hi + 1 - lo = 4) : bits v hi lo % 16 = bits v hi lo := by
    rw [bits, h]
    exact Nat.mod_mod_of_dvd _ (dvd_refl 16)
  rw [write]
  refine congrArg Host.Outcome.next ?_
  have owner : (if v.testBit 20 then designate (setAtomicSizes (setAtomicSizes s 0 (bits v 19 16)) 1 (bits v 27 24)) p
      else setAtomicSizes (setAtomicSizes s 0 (bits v 19 16)) 1 (bits v 27 24)) = s.updMg fun m => { m with
        atom0 := bits v 19 16
        atom1 := bits v 27 24
        owner := if m.owner = none ∧ v.testBit 20 = true then some p else m.owner } := by
    simp only [setAtomicSizes, low 19 16 rfl, low 27 24 rfl, designate]
    rcases h with ⟨hn, hp⟩ | hp
    · cases v.testBit 20 with
      | false => simp [State.updMg, hn]
      | true => simp [State.updMg, hn, hp]
    · simp [State.updMg, hp]
  unfold mstatWrite
  dsimp only
  rw [owner]
  cases v.testBit 21 with
  | false => simp [State.updMg]
  | true => simp [State.updMg, clearEvovf]

/-! ### The other registers -/

/-- The full count of a sequence number within 2^32 of the last one. -/
theorem unwrapSeq_eq {last seq w : Nat} (hw : seq % 2 ^ 32 = w % 2 ^ 32) (hle : seq ≤ last) (hlt : last < seq + 2 ^ 32) : unwrapSeq last w = seq := by
  unfold unwrapSeq
  omega

theorem pageWrite_mlhead {d : Nat} (hd : d < 12) : pageWrite s (0x180 + 8 * d) v = mlheadWrite s d v := by
  interval_cases d <;> rfl

theorem pageWrite_link {n : Nat} (hn : (linkLanes n).isSome) :
    pageWrite s (0x2000 + 64 * n) v = s.updLink n fun k => { k with auto := v.testBit 3 } := by
  unfold pageWrite
  split
  any_goals omega
  rw [if_neg (by omega), show (0x2000 + 64 * n - 0x2000) / 64 = n by omega, if_pos ⟨by omega, by omega, hn⟩]

theorem pageWrite_eye {data spare : Nat} (hn : linkLanes (s.mg.eyesel % 256) = some (data, spare)) (hl : bits s.mg.eyesel 27 16 < data + spare) :
    pageWrite s 0x78 v = s.updLink (s.mg.eyesel % 256) fun k => { k with
      eyes := k.eyes.insert (bits s.mg.eyesel 27 16) { k.eyes.getD (bits s.mg.eyesel 27 16) Eye.reset with thr := bits v 31 24 } } := by
  have write : pageWrite s 0x78 v = updEye s fun e => { e with thr := bits v 31 24 } := rfl
  rw [write, updEye, eyeSelected_some hn hl]

section
variable {seq : Nat} (hle : seq ≤ s.mg.frtail) (hlt : s.mg.frtail < seq + 2 ^ 32)
include hle hlt

theorem pageWrite_freply (hs : seq % 2 ^ 32 = bits v 63 32) :
    (v % 4 = 0 → .next (pageWrite s 0x50 v) = exec (.freplyRetry seq) s) ∧ (v % 4 = 1 → .next (pageWrite s 0x50 v) = exec (.freplyDecline seq) s) := by
  have full : unwrapSeq s.mg.frtail (bits v 63 32) = seq := unwrapSeq_eq (by rw [← hs, Nat.mod_mod]) hle hlt
  have write : pageWrite s 0x50 v = freplyWrite s v := rfl
  have retry : exec (.freplyRetry seq) s = .next (if (s.faults.find? seq).isSome then freplyRetry s seq else s) := rfl
  have decline : exec (.freplyDecline seq) s = .next (if (s.faults.find? seq).isSome then freplyDecline s seq else s) := rfl
  rw [write, freplyWrite, full, retry, decline]
  cases s.faults.find? seq with
  | none => exact ⟨fun _ => rfl, fun _ => rfl⟩
  | some f => exact ⟨fun h => by rw [h]; rfl, fun h => by rw [h]; rfl⟩

theorem pageWrite_frhead (hs : seq % 2 ^ 32 = v % 2 ^ 32) : .next (pageWrite s 0x58 v) = exec (.frheadWrite seq) s := by
  have write : pageWrite s 0x58 v = frheadWrite s (unwrapSeq s.mg.frtail v) := rfl
  rw [write, unwrapSeq_eq hs hle hlt]
  rfl

end

/-! ### Doorbell pages -/

section
variable {tag q : Nat} {c : Context} (hc : s.ctx? tag = some c) (hq : q < 256)
include hc hq

theorem registerWrite_doorbell_closed (h : c.desc.hport ≠ p ∨ 2 ^ 32 ≤ v) : exec (.registerWrite p (0x10000 + 4096 * tag + 16 * q) v) s = .next s := by
  rw [registerWrite_doorbell (by omega)]
  have at_ : (0x10000 + 4096 * tag + 16 * q - 65536) / 4096 = tag := by omega
  unfold doorbellWrite
  dsimp only
  rcases h with h | h
  · simp only [at_, hc, Option.any_some, beq_eq_false_iff_ne.2 h, Bool.not_false, Bool.or_true, if_true]
  · simp only [h, decide_true, Bool.true_or, if_true]

theorem registerWrite_doorbell_open (hp : c.desc.hport = p) (hv : v < 2 ^ 32) :
    exec (.registerWrite p (0x10000 + 4096 * tag + 16 * q) v) s = exec (.doorbell tag q v) s ∧
    exec (.registerWrite p (0x10000 + 4096 * tag + 16 * q + 8) v) s = .next (queueControl s tag q v) := by
  have bell : exec (.doorbell tag q v) s = .next (doorbell s tag q (v % 2 ^ 32)) := rfl
  have narrow : ¬2 ^ 32 ≤ v := by omega
  rw [registerWrite_doorbell (by omega), registerWrite_doorbell (by omega), bell, Nat.mod_eq_of_lt hv]
  constructor
  · have page : (0x10000 + 4096 * tag + 16 * q - 65536) / 4096 = tag := by omega
    have number : (0x10000 + 4096 * tag + 16 * q - 65536) % 4096 / 16 = q := by omega
    have word : (0x10000 + 4096 * tag + 16 * q - 65536) % 16 = 0 := by omega
    simp only [doorbellWrite, page, number, word, hc, hp, narrow, decide_false, Option.any_some, beq_self_eq_true, Bool.not_true, Bool.or_self,
      Bool.false_eq_true, if_false]
  · have page : (0x10000 + 4096 * tag + 16 * q + 8 - 65536) / 4096 = tag := by omega
    have number : (0x10000 + 4096 * tag + 16 * q + 8 - 65536) % 4096 / 16 = q := by omega
    have word : (0x10000 + 4096 * tag + 16 * q + 8 - 65536) % 16 = 8 := by omega
    simp only [doorbellWrite, page, number, word, hc, hp, narrow, decide_false, Option.any_some, beq_self_eq_true, Bool.not_true, Bool.or_self,
      Bool.false_eq_true, if_false]

end

/-- What a host write does to the page's registers and to the doorbell pages. -/
theorem registerWrite_spec (s : State) (p off v : Nat) : let run := exec (.registerWrite p off v) s
    let mg (s : State) (f : Manage → Manage) : Host.Outcome State Fault Refusal := .next (s.updMg f)
    (off < 65536 → ∀ o, s.mg.owner = some o → o ≠ p → run = .next s) ∧
    (off < 65536 → s.mg.owner = none → off ≠ 0 → run = .next s) ∧
    (off = 0 → (s.mg.owner = none ∧ p < 2) ∨ s.mg.owner = some p → run = mg s fun m =>
      { m with atom0 := bits v 19 16, atom1 := bits v 27 24, owner := if m.owner = none ∧ v.testBit 20 = true then some p else m.owner,
               evovf := m.evovf && !v.testBit 21 }) ∧
    (s.mg.owner = some p →
      (off = 0x08 → run = mg s fun m => { m with cmdbase := v }) ∧ (off = 0x10 → run = mg s fun m => { m with cmdtail := v }) ∧
      (off = 0x20 → run = mg s fun m => { m with evbase := v }) ∧ (off = 0x30 → run = mg s fun m => { m with evvec := v }) ∧
      (off = 0x38 → run = exec (.evheadWrite v) s) ∧ (off = 0x40 → run = mg s fun m => { m with frbase := v }) ∧
      (off = 0x60 → run = mg s fun m => { m with tmthr := v }) ∧ (off = 0x80 → run = mg s fun m => { m with mlbase := v }) ∧
      (∀ seq, off = 0x50 → seq % 2 ^ 32 = bits v 63 32 → seq ≤ s.mg.frtail → s.mg.frtail < seq + 2 ^ 32 →
        (v % 4 = 0 → run = exec (.freplyRetry seq) s) ∧ (v % 4 = 1 → run = exec (.freplyDecline seq) s)) ∧
      (∀ seq, off = 0x58 → seq % 2 ^ 32 = v % 2 ^ 32 → seq ≤ s.mg.frtail → s.mg.frtail < seq + 2 ^ 32 → run = exec (.frheadWrite seq) s) ∧
      (off = 0x70 → run = mg s fun m => { m with eyesel := bits v 7 0 + bits v 27 16 * 2 ^ 16 }) ∧
      (∀ data spare, off = 0x78 → let n := s.mg.eyesel % 256; let l := bits s.mg.eyesel 27 16
        linkLanes n = some (data, spare) → l < data + spare →
        run = .next (s.updLink n fun k => { k with eyes := k.eyes.insert l { k.eyes.getD l Eye.reset with thr := bits v 31 24 } })) ∧
      (∀ d < 12, off = 0x180 + 8 * d → run = exec (.mlheadWrite d v) s) ∧
      ∀ n, (linkLanes n).isSome → off = 0x2000 + 64 * n → run = .next (s.updLink n fun k => { k with auto := v.testBit 3 })) ∧
    (∀ tag q c, s.ctx? tag = some c → q < 256 →
      (c.desc.hport ≠ p ∨ 2 ^ 32 ≤ v → off = 0x10000 + 4096 * tag + 16 * q → run = .next s) ∧
      (c.desc.hport = p → v < 2 ^ 32 → (off = 0x10000 + 4096 * tag + 16 * q → run = exec (.doorbell tag q v) s) ∧
        (off = 0x10000 + 4096 * tag + 16 * q + 8 → (v = 1 → run = exec (.queueSuspend tag q) s) ∧ (v = 2 → run = exec (.queueResume tag q) s) ∧
          (v = 3 → run = exec (.queueDisable tag q) s)))) := by
  intro run mg
  refine ⟨fun ho o hp hne => registerWrite_other ho hp hne, fun ho hp h0 => registerWrite_undesignated ho hp h0, ?_, fun hp => ?_, fun tag q c hc hq => ?_⟩
  · rintro rfl h
    exact registerWrite_mstat h
  · have page (o : Nat) (ho : o < 65536) (h0 : o ≠ 0) (h : off = o) : run = .next (pageWrite s o v) := by
      subst h
      exact registerWrite_page ho hp h0
    refine ⟨page _ (by decide) (by decide), page _ (by decide) (by decide), page _ (by decide) (by decide), page _ (by decide) (by decide),
      page _ (by decide) (by decide), page _ (by decide) (by decide), page _ (by decide) (by decide), page _ (by decide) (by decide),
      fun seq h hs hle hlt => ?_, fun seq h hs hle hlt => ?_, fun h => ?_, fun data spare h hn hl => ?_, fun d hd h => ?_, fun n hn h => ?_⟩
    · rw [page _ (by decide) (by decide) h]
      exact pageWrite_freply hle hlt hs
    · rw [page _ (by decide) (by decide) h]
      exact pageWrite_frhead hle hlt hs
    · rw [page _ (by decide) (by decide) h]
      refine congrArg Host.Outcome.next ?_
      show (s.updMg fun m => { m with eyesel := v % 256 + bits v 27 16 * 2 ^ 16 }) = _
      rw [show bits v 7 0 = v % 256 by simp [bits]]
    · rw [page _ (by decide) (by decide) h, pageWrite_eye hn hl]
    · rw [page _ (by omega) (by omega) h, pageWrite_mlhead hd]
      show _ = Host.Outcome.next (if d < 12 then mlheadWrite s d v else s)
      rw [if_pos hd]
    · rw [page _ (by have := linkLanes_le hn; omega) (by omega) h, pageWrite_link hn]
  · refine ⟨fun h ho => ?_, fun h hv => ⟨fun ho => ?_, fun ho => ?_⟩⟩
    · subst ho
      exact registerWrite_doorbell_closed hc hq h
    · subst ho
      exact (registerWrite_doorbell_open hc hq h hv).1
    · subst ho
      have control := (registerWrite_doorbell_open hc hq h hv).2
      refine ⟨?_, ?_, ?_⟩ <;>
      · rintro rfl
        exact control

end

end Sys2Proof.Machine
end

section
/-!
PROOF of what the kill of a context leaves alone: the management page and what other contexts and their crews hold (R310, R321).
-/
namespace Sys2Proof.Machine

/-! ### The management page -/

section
variable (s : State)

theorem foldl_mg {α : Type} {f : State → α → State} (hf : ∀ s a, (f s a).mg = s.mg) (l : List α) (s : State) : (l.foldl f s).mg = s.mg := by
  induction l generalizing s with
  | nil => rfl
  | cons a l ih => exact (ih _).trans (hf s a)

theorem MemOnly.mg {s t : State} (h : MemOnly s t) : t.mg = s.mg := by
  have e := congrArg State.mg h.rest
  exact e

theorem finishOp_mg (o : Nat) (h : Held) : (finishOp s o h).mg = s.mg := by
  unfold finishOp
  split
  · rfl
  · exact (memOnly_holdResult ..).mg.trans (State.updCrew_mg ..)

theorem releaseWait_mg (o st : Nat) (b : Bar) : (releaseWait s o st b).mg = s.mg := by
  unfold releaseWait
  split <;> rfl

theorem wakeWaiters_mg (g n : Nat) : (wakeWaiters s g n).mg = s.mg := by
  have chains (st : Nat) (b : Bar) (go : Nat → Bool) : (wakeChains s g n st b go).mg = s.mg := by
    unfold wakeChains
    dsimp only
    split <;> rfl
  unfold wakeWaiters
  refine (foldl_mg (fun s w => ?_) _ _).trans (chains ..)
  split
  · exact releaseWait_mg ..
  · rfl

theorem barArray_mg (g n : Nat) : (barArray s g n false).mg = s.mg := by
  unfold barArray
  split
  · rfl
  · rw [State.updBar_mg, if_neg Bool.false_ne_true, reefDropped]
    split
    · rfl
    · exact finishOp_mg ..

theorem abandon_mg (g n : Nat) : (abandon s g n).mg = s.mg := by
  unfold abandon
  split
  · exact ((wakeWaiters_mg ..).trans (barArray_mg ..)).trans rfl
  · rfl

theorem abandonGroup_mg (gi : Nat) : (abandonGroup s gi).mg = s.mg := by
  unfold abandonGroup
  split
  · rfl
  · have own (g : Group) := foldl_mg fun s n => abandon_mg s g.core n
    dsimp only
    split
    · exact own ..
    · refine (foldl_mg (fun s hi => ?_) _ _).trans (own ..)
      split
      · rfl
      · refine foldl_mg (fun s n => ?_) _ _
        split
        · exact abandon_mg ..
        · rfl

theorem stopChains_mg (gi e : Nat) : (stopChains s gi e).mg = s.mg := by
  unfold stopChains
  split
  · rfl
  · refine foldl_mg (fun s e => ?_) _ _
    split <;> rfl

theorem endBarrierOps_mg (c : Nat) : (endBarrierOps s c).mg = s.mg := by
  unfold endBarrierOps
  refine foldl_mg (fun s e => ?_) _ _
  split
  · rfl
  split
  · exact (finishOp_mg ..).trans rfl
  · exact finishOp_mg ..
  · rfl

theorem toReady_mg (c : Nat) : (toReady s c).mg = s.mg := by
  unfold toReady
  split
  · rfl
  · rw [State.updSched_mg, State.updCrew_mg, leaveSets]
    split <;> rfl

theorem toDraining_mg (c : Nat) : (toDraining s c).mg = s.mg := by
  rw [toDraining, State.updCrew_mg, leaveSets]
  split <;> rfl

theorem killCrew_mg (c : Nat) (why : KillWhy) (r : Bool) : (killCrew s c why r false).mg = s.mg := by
  have ends (s : State) (c g : Nat) (f : Group → Group) :
      ((stopChains (abandonGroup (endBarrierOps (s.updCrew c fun x => { x with req := { x.req with kill := some why, relaunch := r } }) c) g)
        g 9).updGroup g f).mg = s.mg :=
    (stopChains_mg ..).trans ((abandonGroup_mg ..).trans ((endBarrierOps_mg ..).trans (State.updCrew_mg ..)))
  unfold killCrew
  split
  · rfl
  · dsimp only
    split
    · rfl
    · split
      · exact (toDraining_mg ..).trans (ends ..)
      · exact (toDraining_mg ..).trans (ends ..)
      · exact (toReady_mg ..).trans (ends ..)
      · exact ends ..

theorem endSwappedOps_mg (f : Crew → Bool) : (endSwappedOps s f).mg = s.mg := by
  unfold endSwappedOps
  refine foldl_mg (fun s e => ?_) _ _
  split
  · split
    · exact finishOp_mg ..
    · rfl
  · split
    · exact finishOp_mg ..
    · rfl
  · split
    · exact finishOp_mg ..
    · rfl
  · rfl

theorem killContext_mg (tag : Nat) (why : KillWhy) : (killContext s tag why).mg = s.mg := by
  unfold killContext
  split
  · rfl
  · split
    · rfl
    · refine (foldl_mg (fun s c => killCrew_mg s c why false) _ _).trans ?_
      have groups (s : State) (l : SMap Group) : (l.foldl (fun s e => if e.2.tag = tag then stopChains s e.1 9 else s) s).mg = s.mg :=
        foldl_mg (fun s e => by split <;> [exact stopChains_mg ..; rfl]) l s
      split
      · exact ((endSwappedOps_mg ..).trans (groups ..)).trans rfl
      · exact (groups ..).trans rfl

end

/-! ### Crews as they were, or killed -/

/-- What crew `x` is once it is killed: with the kill, in the state that follows (R76, R321). -/
def KilledAs (x y : Crew) : Prop :=
  y.req.kill.isSome ∧ y.state = match x.state with
    | .starting | .suspended => .draining
    | .waiting => .ready
    | k => k

/-- Crew `d`, which was `x`, is killed. -/
def Killed (d : Nat) (x : Crew) (t : State) : Prop := ∃ y, t.crew? d = some y ∧ KilledAs x y

/-- Crew `d`, which was `x`, is as it was but for its tags, or killed. -/
def StillOrKilled (d : Nat) (x : Crew) (t : State) : Prop := (∃ l, t.crew? d = some { x with tags := l }) ∨ Killed d x t

section
variable {s t : State} {c d : Nat} {x : Crew} {why : KillWhy} {r : Bool}

theorem TagsOnly.killed (h : TagsOnly s t) (hx : Killed d x s) : Killed d x t := by
  obtain ⟨y, hy, hk⟩ := hx
  obtain ⟨l, hl⟩ := h.crews d y hy
  exact ⟨_, hl, hk⟩

theorem TagsOnly.stillOrKilled (h : TagsOnly s t) (hx : StillOrKilled d x s) : StillOrKilled d x t := by
  refine hx.imp (fun ⟨l, hl⟩ => ?_) h.killed
  obtain ⟨l', hl'⟩ := h.crews d _ hl
  exact ⟨l', hl'⟩

/-- A crew that is killed already, or DRAINING, is not killed again. -/
theorem killCrew_twice {y : Crew} (hy : s.crew? c = some y) (h : y.req.kill.isSome ∨ y.state = .draining) : killCrew s c why r false = s := by
  have done : (y.req.kill.isSome || y.state = .draining) = true := by
    rcases h with h | h <;> simp [h]
  simp only [killCrew, hy, done, if_true]

theorem crew?_toReady_ne (h : d ≠ c) : (toReady s c).crew? d = s.crew? d := by
  unfold toReady
  split
  · rfl
  · exact (State.crew?_updSched ..).trans ((State.crew?_updCrew_ne _ _ h).trans (crew?_leaveSets s c d))

theorem crew?_toDraining_ne (h : d ≠ c) : (toDraining s c).crew? d = s.crew? d :=
  (State.crew?_updCrew_ne _ _ h).trans (crew?_leaveSets s c d)

/-- The kill of a crew leaves another but for its tags. -/
theorem killCrew_others (hd : d ≠ c) (hx : s.crew? d = some x) : ∃ l, (killCrew s c why r false).crew? d = some { x with tags := l } := by
  cases hc : s.crew? c with
  | none => exact ⟨x.tags, by simp only [killCrew, hc]; exact hx⟩
  | some y =>
    by_cases hk : y.req.kill.isSome ∨ y.state = .draining
    · exact ⟨x.tags, by rw [killCrew_twice hc hk]; exact hx⟩
    · obtain ⟨hkill, hdrain⟩ := not_or.1 hk
      obtain ⟨u, hu, he⟩ := killCrew_asks hc (Option.not_isSome_iff_eq_none.1 hkill) hdrain why r false
      obtain ⟨l, hl⟩ := hu.crews d x ((State.crew?_updCrew_ne _ _ hd).trans hx)
      refine ⟨l, ?_⟩
      rw [he]
      split
      · exact (crew?_toDraining_ne hd).trans hl
      · split
        · exact (crew?_toReady_ne hd).trans hl
        · exact hl

theorem killed_killCrew (h : Killed d x s) : Killed d x (killCrew s c why r false) := by
  obtain ⟨y, hy, hk⟩ := h
  by_cases hd : d = c
  · subst hd
    rw [killCrew_twice hy (.inl hk.1)]
    exact ⟨y, hy, hk⟩
  · obtain ⟨l, hl⟩ := killCrew_others hd hy
    exact ⟨_, hl, hk⟩

variable (hkill : x.req.kill = none) (hdrain : x.state ≠ .draining)
include hkill hdrain

/-- A crew that is not killed yet is killed by its kill. -/
theorem killCrew_kills (h : StillOrKilled c x s) : Killed c x (killCrew s c why r false) := by
  rcases h with ⟨l, hl⟩ | h
  · obtain ⟨y, hy, hk⟩ := killCrew_killed hl why r false hkill hdrain
    exact ⟨y, hy, hk⟩
  · exact killed_killCrew h

omit hkill hdrain in
theorem stillOrKilled_killCrew (h : StillOrKilled d x s) (hkill : x.req.kill = none) (hdrain : x.state ≠ .draining) :
    StillOrKilled d x (killCrew s c why r false) := by
  by_cases hd : d = c
  · subst hd
    exact .inr (killCrew_kills hkill hdrain h)
  · rcases h with ⟨l, hl⟩ | h
    · obtain ⟨l', hl'⟩ := killCrew_others (why := why) (r := r) hd hl
      exact .inl ⟨l', hl'⟩
    · exact .inr (killed_killCrew h)

omit hkill hdrain in
theorem killed_foldl (l : List Nat) (h : Killed d x s) : Killed d x (l.foldl (fun s c => killCrew s c why false false) s) := by
  induction l generalizing s with
  | nil => exact h
  | cons c l ih => exact ih (killed_killCrew h)

theorem stillOrKilled_foldl (l : List Nat) (h : StillOrKilled d x s) :
    StillOrKilled d x (l.foldl (fun s c => killCrew s c why false false) s) ∧
      (d ∈ l → Killed d x (l.foldl (fun s c => killCrew s c why false false) s)) := by
  induction l generalizing s with
  | nil => exact ⟨h, nofun⟩
  | cons c l ih =>
    obtain ⟨hstill, hmem⟩ := ih (stillOrKilled_killCrew (c := c) (why := why) (r := false) h hkill hdrain)
    refine ⟨hstill, fun hd => ?_⟩
    by_cases hc : d = c
    · subst hc
      exact killed_foldl l (killCrew_kills hkill hdrain h)
    · exact hmem ((List.mem_cons.1 hd).resolve_left hc)

end

theorem killCrew_ctxs (s : State) (c : Nat) (why : KillWhy) (r : Bool) : (killCrew s c why r false).ctxs = s.ctxs := by
  have ready (s : State) : (toReady s c).ctxs = s.ctxs := by
    unfold toReady
    split
    · rfl
    · rw [State.updSched_ctxs, State.updCrew_ctxs, leaveSets]
      split <;> rfl
  have drains (s : State) : (toDraining s c).ctxs = s.ctxs := by
    rw [toDraining, State.updCrew_ctxs, leaveSets]
    split <;> rfl
  cases hc : s.crew? c with
  | none => simp only [killCrew, hc]
  | some y =>
    by_cases hk : y.req.kill.isSome ∨ y.state = .draining
    · rw [killCrew_twice hc hk]
    · obtain ⟨hkill, hdrain⟩ := not_or.1 hk
      obtain ⟨u, hu, he⟩ := killCrew_asks hc (Option.not_isSome_iff_eq_none.1 hkill) hdrain why r false
      have same : u.ctxs = s.ctxs := hu.ctxs.trans (State.updCrew_ctxs ..)
      rw [he]
      split
      · exact (drains u).trans same
      · split
        · exact (ready u).trans same
        · exact same

/-! ### The kill of a context (R310) -/

section
variable {s : State} {tag d : Nat} {x : Context} {y : Crew} {why : KillWhy}

/-- A context that can be killed. -/
def Context.alive (x : Context) : Prop := x.state ≠ .killing ∧ x.state ≠ .dead ∧ x.state ≠ .restoring

theorem killContext_over (h : ∀ x, s.ctx? tag = some x → ¬x.alive) : killContext s tag why = s := by
  cases hx : s.ctx? tag with
  | none => simp only [killContext, hx]
  | some x =>
    have done : x.state = .killing ∨ x.state = .dead ∨ x.state = .restoring := by
      by_contra hn
      simp only [not_or] at hn
      exact h x hx hn
    simp only [killContext, hx, done, if_true]

theorem tagsOnly_endSwappedOps (s : State) (f : Crew → Bool) : TagsOnly s (endSwappedOps s f) := by
  unfold endSwappedOps
  refine .foldl (fun s e => ?_) _ _
  split
  · split
    · exact tagsOnly_finishOp ..
    · exact .refl s
  · split
    · exact tagsOnly_finishOp ..
    · exact .refl s
  · split
    · exact tagsOnly_finishOp ..
    · exact .refl s
  · exact .refl s

/-- A context that can be killed is, and then each of its crews. -/
theorem killContext_alive (hx : s.ctx? tag = some x) (ha : x.alive) :
    ∃ u, TagsOnly (s.updCtx tag fun x => { x with state := .killing, why := some why, saved := [] }) u ∧
      killContext s tag why = (bySlot u ((u.crews.filter fun e => e.2.seat.tag == tag).map (·.1))).foldl (fun s c => killCrew s c why false false) u := by
  have go : ¬(x.state = .killing ∨ x.state = .dead ∨ x.state = .restoring) := by
    obtain ⟨hk, hd, hr⟩ := ha
    simp only [hk, hd, hr, or_self, not_false_eq_true]
  simp only [killContext, hx, go, if_false]
  refine ⟨_, ?_, rfl⟩
  have groups (s : State) (l : SMap Group) : TagsOnly s (l.foldl (fun s e => if e.2.tag = tag then stopChains s e.1 9 else s) s) :=
    .foldl (fun s e => by split <;> [exact tagsOnly_stopChains ..; exact .refl s]) l s
  have doomed (s : State) (p : Group → Bool) : TagsOnly s (doomGroups s p) := .of_eq rfl rfl
  split
  · exact ((doomed ..).trans (groups ..)).trans (tagsOnly_endSwappedOps ..)
  · exact (doomed ..).trans (groups ..)

/-- A context that has been killed, for the reset of its function. -/
def resetKilled (x : Context) : Context := { x with state := .killing, why := some ⟨6, 0, 0⟩, saved := [] }

theorem foldl_killCrew_ctxs (l : List Nat) (s : State) : (l.foldl (fun s c => killCrew s c why false false) s).ctxs = s.ctxs := by
  induction l generalizing s with
  | nil => rfl
  | cons c l ih => exact (ih _).trans (killCrew_ctxs ..)

theorem killContext_ctx (hx : s.ctx? tag = some x) (ha : x.alive) : (killContext s tag ⟨6, 0, 0⟩).ctx? tag = some (resetKilled x) := by
  obtain ⟨u, hu, he⟩ := killContext_alive (why := ⟨6, 0, 0⟩) hx ha
  rw [he, State.ctx?, foldl_killCrew_ctxs, hu.ctxs]
  refine (SMap.find?_modify_self ..).trans ?_
  rw [show s.ctxs.find? tag = some x from hx]
  rfl

theorem killContext_ctx_ne {k : Nat} (hk : k ≠ tag) : (killContext s tag why).ctx? k = s.ctx? k := by
  by_cases h : ∃ x, s.ctx? tag = some x ∧ x.alive
  · obtain ⟨x, hx, ha⟩ := h
    obtain ⟨u, hu, he⟩ := killContext_alive (why := why) hx ha
    rw [he, State.ctx?, foldl_killCrew_ctxs, hu.ctxs]
    exact SMap.find?_modify_ne _ _ hk
  · rw [killContext_over fun x hx ha => h ⟨x, hx, ha⟩]

theorem killed_killContext (h : Killed d y s) : Killed d y (killContext s tag why) := by
  by_cases hx : ∃ x, s.ctx? tag = some x ∧ x.alive
  · obtain ⟨x, hx, ha⟩ := hx
    obtain ⟨u, hu, he⟩ := killContext_alive (why := why) hx ha
    rw [he]
    refine killed_foldl _ (hu.killed ?_)
    obtain ⟨z, hz, hk⟩ := h
    exact ⟨z, hz, hk⟩
  · rw [killContext_over fun x h ha => hx ⟨x, h, ha⟩]
    exact h

theorem stillOrKilled_killContext (h : StillOrKilled d y s) (hkill : y.req.kill = none) (hdrain : y.state ≠ .draining) :
    StillOrKilled d y (killContext s tag why) ∧
      (y.seat.tag = tag → (∃ x, s.ctx? tag = some x ∧ x.alive) → Killed d y (killContext s tag why)) := by
  by_cases hx : ∃ x, s.ctx? tag = some x ∧ x.alive
  · obtain ⟨x, hx, ha⟩ := hx
    obtain ⟨u, hu, he⟩ := killContext_alive (why := why) hx ha
    have begins : StillOrKilled d y (s.updCtx tag fun x => { x with state := .killing, why := some why, saved := [] }) := h
    have after := hu.stillOrKilled begins
    obtain ⟨hstill, hmem⟩ := stillOrKilled_foldl (why := why) hkill hdrain (bySlot u ((u.crews.filter fun e => e.2.seat.tag == tag).map (·.1))) after
    rw [he]
    refine ⟨hstill, fun htag _ => ?_⟩
    rcases after with ⟨l, hl⟩ | hk
    · refine hmem ((List.mergeSort_perm _ _).mem_iff.2 (List.mem_map.2 ⟨(d, { y with tags := l }), List.mem_filter.2 ⟨mem_of_find? hl, ?_⟩, rfl⟩))
      simp [htag]
    · exact killed_foldl _ hk
  · rw [killContext_over fun x h ha => hx ⟨x, h, ha⟩]
    exact ⟨h, fun _ h => absurd h hx⟩

end

/-! ### The contexts of a port, one after the other (R354) -/

section
variable {s : State} {tag d : Nat} {x : Context} {y : Crew}

theorem foldl_killContext_ctx_ne {k : Nat} (l : List Nat) (hk : k ∉ l) (s : State) :
    (l.foldl (fun s t => killContext s t ⟨6, 0, 0⟩) s).ctx? k = s.ctx? k := by
  induction l generalizing s with
  | nil => rfl
  | cons t l ih =>
    obtain ⟨ht, hl⟩ := not_or.1 fun h => hk (List.mem_cons.2 h)
    exact (ih hl _).trans (killContext_ctx_ne ht)

/-- A context that is killed stays as it is. -/
theorem foldl_killContext_over (l : List Nat) (hx : s.ctx? tag = some x) (ha : ¬x.alive) :
    (l.foldl (fun s t => killContext s t ⟨6, 0, 0⟩) s).ctx? tag = some x := by
  induction l generalizing s with
  | nil => exact hx
  | cons t l ih =>
    refine ih (s := killContext s t ⟨6, 0, 0⟩) ?_
    by_cases ht : tag = t
    · subst ht
      rw [killContext_over fun z hz => by rw [hx] at hz; cases hz; exact ha]
      exact hx
    · exact (killContext_ctx_ne ht).trans hx

theorem foldl_killContext_killed (l : List Nat) (h : Killed d y s) : Killed d y (l.foldl (fun s t => killContext s t ⟨6, 0, 0⟩) s) := by
  induction l generalizing s with
  | nil => exact h
  | cons t l ih => exact ih (killed_killContext h)

theorem foldl_killContext_ctx (l : List Nat) (hx : s.ctx? tag = some x) (ha : x.alive) (ht : tag ∈ l) :
    (l.foldl (fun s t => killContext s t ⟨6, 0, 0⟩) s).ctx? tag = some (resetKilled x) := by
  induction l generalizing s with
  | nil => cases ht
  | cons t l ih =>
    by_cases h : tag = t
    · subst h
      exact foldl_killContext_over l (killContext_ctx hx ha) fun h => h.1 rfl
    · exact ih ((killContext_ctx_ne h).trans hx) ((List.mem_cons.1 ht).resolve_left h)

theorem foldl_killContext_crew (l : List Nat) (hx : s.ctx? tag = some x) (ha : x.alive) (ht : tag ∈ l) (hy : StillOrKilled d y s)
    (htag : y.seat.tag = tag) (hkill : y.req.kill = none) (hdrain : y.state ≠ .draining) :
    Killed d y (l.foldl (fun s t => killContext s t ⟨6, 0, 0⟩) s) := by
  induction l generalizing s with
  | nil => cases ht
  | cons t l ih =>
    obtain ⟨hstill, hkilled⟩ := stillOrKilled_killContext (tag := t) (why := ⟨6, 0, 0⟩) hy hkill hdrain
    by_cases h : tag = t
    · subst h
      exact foldl_killContext_killed l (hkilled htag ⟨x, hx, ha⟩)
    · exact ih ((killContext_ctx_ne h).trans hx) ((List.mem_cons.1 ht).resolve_left h) hstill

end

/-- A function-level reset kills the contexts of its port and ends the port's designation. -/
theorem functionLevelReset_spec (s : State) (p : Nat) :
    ∃ t, exec (.functionLevelReset p) s = .next t ∧ t.mg.owner = (if s.mg.owner = some p then none else s.mg.owner) ∧
    (∀ tag x, s.ctx? tag = some x → x.desc.hport = p → x.state ≠ .killing → x.state ≠ .dead → x.state ≠ .restoring →
      t.ctx? tag = some { x with state := .killing, why := some ⟨6, 0, 0⟩, saved := [] } ∧
      ∀ c y, s.crew? c = some y → y.seat.tag = tag → CrewKilled c y t) ∧
    ∀ k, (∀ e ∈ s.ctxs, e.1 = k → e.2.desc.hport ≠ p) → t.ctx? k = s.ctx? k := by
  let ts := SMap.keys (s.ctxs.filter fun e => e.2.desc.hport == p)
  let u := ts.foldl (fun s t => killContext s t ⟨6, 0, 0⟩) s
  have mg : u.mg = s.mg := foldl_mg (fun s t => killContext_mg s t _) ts s
  have run : exec (.functionLevelReset p) s = .next (if u.mg.owner = some p then u.updMg fun m => { m with owner := none } else u) := rfl
  have kept : (if u.mg.owner = some p then u.updMg fun m => { m with owner := none } else u).ctxs = u.ctxs ∧
      (if u.mg.owner = some p then u.updMg fun m => { m with owner := none } else u).crews = u.crews ∧
      (if u.mg.owner = some p then u.updMg fun m => { m with owner := none } else u).mg.owner = if s.mg.owner = some p then none else s.mg.owner := by
    rw [mg]
    split
    · exact ⟨rfl, rfl, rfl⟩
    · exact ⟨rfl, rfl, congrArg Manage.owner mg⟩
  obtain ⟨hctxs, hcrews, howner⟩ := kept
  refine ⟨_, run, howner, fun tag x hx hp hk hd hr => ?_, fun k hk => ?_⟩
  · have mem : tag ∈ ts := List.mem_map.2 ⟨(tag, x), List.mem_filter.2 ⟨mem_of_find? hx, beq_iff_eq.2 hp⟩, rfl⟩
    refine ⟨(congrArg (SMap.find? · tag) hctxs).trans (foldl_killContext_ctx ts hx ⟨hk, hd, hr⟩ mem), fun c y hc htag hkill hdrain => ?_⟩
    obtain ⟨z, hz, hkilled⟩ := foldl_killContext_crew ts hx ⟨hk, hd, hr⟩ mem (.inl ⟨y.tags, hc⟩) htag hkill hdrain
    exact ⟨z, (congrArg (SMap.find? · c) hcrews).trans hz, hkilled⟩
  · refine (congrArg (SMap.find? · k) hctxs).trans (foldl_killContext_ctx_ne ts (fun hmem => ?_) s)
    obtain ⟨e, he, rfl⟩ := List.mem_map.1 hmem
    obtain ⟨hin, hp⟩ := List.mem_filter.1 he
    exact hk e hin rfl (beq_iff_eq.1 hp)

end Sys2Proof.Machine
end

section
/-!
PROOF of package reset and of the steps of bring-up (R361).
-/
namespace Sys2Proof.Machine

/-! ### Package reset -/

theorem find?_filter {α : Type} {m : SMap α} {p : Nat × α → Bool} {k : Nat} {b : Bool} (hp : ∀ e ∈ m, e.1 = k → p e = b) :
    SMap.find? (m.filter p) k = if b then m.find? k else none := by
  induction m with
  | nil => cases b <;> rfl
  | cons e m ih =>
    obtain ⟨j, x⟩ := e
    have rest := ih fun e he => hp e (List.mem_cons_of_mem _ he)
    by_cases hj : j = k
    · subst hj
      have found := hp (j, x) List.mem_cons_self rfl
      cases b with
      | false => simpa [List.filter_cons, found] using rest
      | true => simp [found, SMap.find?]
    · have later : SMap.find? ((j, x) :: m) k = SMap.find? m k := by simp only [SMap.find?, hj, if_false]
      rw [later, ← rest, List.filter_cons]
      split
      · simp only [SMap.find?, hj, if_false]
      · rfl

theorem packageReset_spec (s : State) : ∃ t, exec .packageReset s = .next t ∧
    { t with due := [], tick := 0, free := 0, nextId := 0, mem := State.reset.mem, links := [], dies := [] } = State.reset ∧
    t.mem.cells = s.mem.cells ∧ t.mem.poison = s.mem.poison ∧ (∀ n, t.link n = { Link.down with spused := (s.link n).spused, mapped := (s.link n).mapped }) ∧
    ∀ d, (∀ e ∈ s.dies, e.1 = d → e.2.retired = (s.die d).retired) → t.die d = { Die.reset with retired := (s.die d).retired } := by
  refine ⟨_, rfl, rfl, rfl, rfl, fun n => ?_, fun d hd => ?_⟩
  · refine (congrArg (fun o => Option.getD o Link.down)
      (SMap.find?_map s.links (fun _ k => { Link.down with spused := k.spused, mapped := k.mapped }) n)).trans ?_
    unfold State.link SMap.getD
    cases s.links.find? n <;> rfl
  · refine (congrArg (fun o => Option.getD o Die.reset)
      (SMap.find?_map (s.dies.filter fun e => !e.2.retired.isEmpty) (fun _ k => { Die.reset with retired := k.retired }) d)).trans ?_
    have listed : SMap.find? (s.dies.filter fun e => !e.2.retired.isEmpty) d = if !(s.die d).retired.isEmpty then s.dies.find? d else none :=
      find?_filter fun e he hed => by rw [hd e he hed]
    rw [listed]
    cases hr : (s.die d).retired with
    | nil => rfl
    | cons r l =>
      unfold State.die SMap.getD at hr
      cases hf : s.dies.find? d with
      | none => rw [hf] at hr; cases hr
      | some k =>
        rw [hf] at hr
        exact congrArg (fun l => { Die.reset with retired := l }) hr

/-! ### The links of a step -/

/-- The links that a step of bring-up trains, as the statement names them. -/
def StepLink (n k : Nat) : Prop := (n = 3 ∧ k ≤ 16) ∨ (n = 5 ∧ ((32 ≤ k ∧ k ≤ 55) ∨ (64 ≤ k ∧ k ≤ 75))) ∨ (n = 6 ∧ (k = 96 ∨ k = 97)) ∨
  (n = 7 ∧ 80 ≤ k ∧ k ≤ 95)

theorem mem_stepLinks (n k : Nat) : k ∈ stepLinks n ↔ StepLink n k := by
  unfold StepLink stepLinks
  split
  · simp [Nat.lt_succ_iff]
  · simp only [List.mem_append, List.mem_range'_1]
    simp
    omega
  · simp
  · simp [List.mem_range'_1]
    omega
  · simp_all

theorem linkLanes_stepLink {n k : Nat} (h : StepLink n k) : (linkLanes k).isSome := by
  unfold linkLanes
  rcases h with ⟨-, h⟩ | ⟨-, h | h⟩ | ⟨-, h⟩ | ⟨-, h⟩
  · rw [if_pos h]
    rfl
  · rw [if_neg (by omega), if_pos h]
    rfl
  · rw [if_neg (by omega), if_neg (by omega), if_pos h]
    rfl
  · rw [if_neg (by omega), if_neg (by omega), if_neg (by omega), if_neg (by omega), if_pos h]
    rfl
  · rw [if_neg (by omega), if_neg (by omega), if_neg (by omega), if_pos h]
    rfl

/-- Only links have changed. -/
def LinksOnly (s t : State) : Prop := { t with links := s.links } = s

theorem LinksOnly.trans {s t u : State} (h : LinksOnly s t) (h' : LinksOnly t u) : LinksOnly s u := by
  have e := congrArg (fun v : State => { v with links := s.links }) h'
  exact e.trans h

/-- A link that is DOWN trains. -/
theorem linkEnable_spec (s : State) {n : Nat} (hn : (linkLanes n).isSome) : LinksOnly s (linkEnable s n) ∧
    ((s.link n).state = .down → (linkEnable s n).link n = { s.link n with state := .training }) ∧
    ((s.link n).state ≠ .down → (linkEnable s n).link n = s.link n) ∧ ∀ k, k ≠ n → (linkEnable s n).link k = s.link k := by
  by_cases hs : (s.link n).state = .down
  · have trains : linkEnable s n = s.updLink n fun k => { k with state := .training } := by
      simp only [linkEnable, linkStep, hn, hs, beq_self_eq_true, Bool.and_self, if_true]
    rw [trains]
    exact ⟨rfl, fun _ => link_updLink_self .., fun h => absurd hs h, fun k hk => link_updLink_ne _ _ hk⟩
  · have stays : linkEnable s n = s := by
      simp only [linkEnable, linkStep, beq_eq_false_iff_ne.2 hs, Bool.and_false, Bool.false_eq_true, if_false]
    rw [stays]
    exact ⟨rfl, fun h => absurd h hs, fun _ => rfl, fun _ _ => rfl⟩

theorem foldl_linkEnable {l : List Nat} (hl : ∀ n ∈ l, (linkLanes n).isSome) (s : State) : LinksOnly s (l.foldl linkEnable s) ∧
    (∀ k ∈ l, (s.link k).state = .down → (l.foldl linkEnable s).link k = { s.link k with state := .training }) ∧
    (∀ k, (s.link k).state ≠ .down → (l.foldl linkEnable s).link k = s.link k) ∧ ∀ k, k ∉ l → (l.foldl linkEnable s).link k = s.link k := by
  induction l generalizing s with
  | nil => exact ⟨rfl, nofun, fun _ _ => rfl, fun _ _ => rfl⟩
  | cons n l ih =>
    obtain ⟨honly, hdown, hother, hne⟩ := linkEnable_spec s (hl n List.mem_cons_self)
    obtain ⟨ronly, rdown, rother, rout⟩ := ih (fun k hk => hl k (List.mem_cons_of_mem _ hk)) (linkEnable s n)
    refine ⟨honly.trans ronly, fun k hk hs => ?_, fun k hs => ?_, fun k hk => ?_⟩
    · by_cases hkn : k = n
      · subst hkn
        exact (rother k (by rw [hdown hs]; exact nofun)).trans (hdown hs)
      · exact (rdown k ((List.mem_cons.1 hk).resolve_left hkn) (by rw [hne k hkn]; exact hs)).trans (by rw [hne k hkn])
    · have here : (linkEnable s n).link k = s.link k := by
        by_cases hkn : k = n
        · subst hkn
          exact hother hs
        · exact hne k hkn
      exact (rother k (by rw [here]; exact hs)).trans here
    · obtain ⟨hkn, hin⟩ := not_or.1 fun h => hk (List.mem_cons.2 h)
      exact (rout k hin).trans (hne k hkn)

/-! ### The spare clusters (R326) -/

/-- A die whose spare cluster is at position `b`. -/
def spareChosen (x : Die) (b : Nat) : Die := { x with
  spare := if x.retired.isEmpty then some b else none
  clmap := ((List.range 24).filter fun k => decide (b ≤ k)).map fun k => (k, k + 1) }

theorem find?_map_keys {α : Type} (f : Nat → α) (l : List Nat) (k : Nat) :
    SMap.find? (l.map fun k => (k, f k)) k = if k ∈ l then some (f k) else none := by
  induction l with
  | nil => rfl
  | cons j l ih =>
    by_cases hj : j = k
    · subst hj
      simp [SMap.find?]
    · have later : SMap.find? ((j :: l).map fun k => (k, f k)) k = SMap.find? (l.map fun k => (k, f k)) k := by
        simp only [List.map_cons, SMap.find?, hj, if_false]
      rw [later, ih]
      simp [List.mem_cons, Ne.symm hj]

theorem spareChosen_clmap (x : Die) {b k : Nat} (hk : k < 24) : (spareChosen x b).clmap.getD k k = if k < b then k else k + 1 := by
  rw [SMap.getD, show (spareChosen x b).clmap = ((List.range 24).filter fun k => decide (b ≤ k)).map fun k => (k, k + 1) from rfl, find?_map_keys]
  by_cases h : k < b
  · rw [if_neg (by simp; omega), if_pos h]
    rfl
  · rw [if_pos (by simp; omega), if_neg h]
    rfl

/-- The spare of die `d` is chosen. -/
def chooseSpare (s : State) (d : Nat) : State :=
  let (f, s) := s.freeValue
  s.updDie d fun x => spareChosen x (match x.retired with
    | r :: _ => r
    | [] => f % 25)

theorem chooseSpares_eq (s : State) : chooseSpares s = (List.range 12).foldl chooseSpare s := rfl

/-- Only dies and the count of free values have changed. -/
def DiesFree (s t : State) : Prop := { t with dies := s.dies, free := s.free } = s

/-- The position chosen is the retired one, or one of the 25. -/
def SpareAt (x : Die) (b : Nat) : Prop := (x.retired = [] → b < 25) ∧ ∀ r l, x.retired = r :: l → b = r

theorem chooseSpare_spec (s : State) (d : Nat) : DiesFree s (chooseSpare s d) ∧ (∃ b, SpareAt (s.die d) b ∧ (chooseSpare s d).die d = spareChosen (s.die d) b) ∧
    ∀ j, j ≠ d → (chooseSpare s d).die j = s.die j := by
  refine ⟨rfl, ⟨_, ?_, SMap.getD_insert_self ..⟩, fun j hj => SMap.getD_insert_ne _ _ _ hj⟩
  show SpareAt (s.die d) (match (s.die d).retired with
    | r :: _ => r
    | [] => s.freeValue.1 % 25)
  unfold SpareAt
  cases (s.die d).retired with
  | nil => exact ⟨fun _ => Nat.mod_lt _ (by decide), nofun⟩
  | cons r l => exact ⟨nofun, fun r' l' h => (List.cons.inj h).1⟩

theorem foldl_chooseSpare (l : List Nat) (hl : l.Nodup) (s : State) : DiesFree s (l.foldl chooseSpare s) ∧
    (∀ d ∈ l, ∃ b, SpareAt (s.die d) b ∧ (l.foldl chooseSpare s).die d = spareChosen (s.die d) b) ∧
    ∀ d, d ∉ l → (l.foldl chooseSpare s).die d = s.die d := by
  induction l generalizing s with
  | nil => exact ⟨rfl, nofun, fun _ _ => rfl⟩
  | cons n l ih =>
    obtain ⟨hn, hrest⟩ := List.nodup_cons.1 hl
    obtain ⟨honly, hchosen, hne⟩ := chooseSpare_spec s n
    obtain ⟨ronly, rchosen, rout⟩ := ih hrest (chooseSpare s n)
    refine ⟨?_, fun d hd => ?_, fun d hd => ?_⟩
    · have e := congrArg (fun v : State => { v with dies := s.dies, free := s.free }) ronly
      exact e.trans honly
    · by_cases hdn : d = n
      · subst hdn
        obtain ⟨b, hb, hdie⟩ := hchosen
        exact ⟨b, hb, (rout d hn).trans hdie⟩
      · obtain ⟨b, hb, hdie⟩ := rchosen d ((List.mem_cons.1 hd).resolve_left hdn)
        rw [hne d hdn] at hb hdie
        exact ⟨b, hb, hdie⟩
    · obtain ⟨hdn, hin⟩ := not_or.1 fun h => hd (List.mem_cons.2 h)
      exact (rout d hin).trans (hne d hdn)

/-! ### DRAM (R361 step 5) -/

theorem zeroDram_read (s : State) (a : Nat) : (zeroDram s).mem.read a = if region a ≤ 1 then 0 else s.mem.read a := by
  have cells : SMap.find? (s.mem.cells.filter fun (e : Nat × Byte) => decide (2 ≤ region e.1)) a = if decide (2 ≤ region a) then SMap.find? s.mem.cells a else none :=
    find?_filter fun e _ he => by rw [he]
  refine (congrArg (fun o => Option.getD o unlistedByte) cells).trans ?_
  by_cases h : region a ≤ 1
  · rw [if_pos h, if_neg (by simp; omega)]
    rfl
  · rw [if_neg h, if_pos (by simp; omega)]
    rfl

/-! ### A step ends and the next begins -/

section
variable {s : State}

theorem endStep_other {n : Nat} (h4 : n ≠ 4) (h5 : n ≠ 5) : endStep s n = s := by
  unfold endStep
  split
  · exact absurd rfl h4
  · exact absurd rfl h5
  · rfl

/-- The end of a step leaves links, crews and the management page. -/
theorem endStep_keeps (s : State) (n : Nat) : (endStep s n).links = s.links ∧ (endStep s n).crews = s.crews ∧ (endStep s n).mg = s.mg := by
  by_cases h4 : n = 4
  · subst h4
    have only := (foldl_chooseSpare (List.range 12) List.nodup_range s).1
    have links := congrArg State.links only
    have crews := congrArg State.crews only
    have mg := congrArg State.mg only
    exact ⟨links, crews, mg⟩
  · by_cases h5 : n = 5
    · subst h5
      exact ⟨rfl, rfl, rfl⟩
    · rw [endStep_other h4 h5]
      exact ⟨rfl, rfl, rfl⟩

theorem endStep_read (s : State) (n a : Nat) : (endStep s n).mem.read a = if n = 5 ∧ region a ≤ 1 then 0 else s.mem.read a := by
  by_cases h4 : n = 4
  · subst h4
    have mem := congrArg State.mem (foldl_chooseSpare (List.range 12) List.nodup_range s).1
    exact congrArg (fun m : Memory => m.read a) mem
  · by_cases h5 : n = 5
    · subst h5
      exact (zeroDram_read s a).trans (by simp)
    · rw [endStep_other h4 h5, if_neg (fun h => h5 h.1)]

theorem endStep_spare (s : State) {d : Nat} (hd : d < 12) : ∃ b, SpareAt (s.die d) b ∧ (endStep s 4).die d = spareChosen (s.die d) b := by
  have ends : endStep s 4 = chooseSpares s := rfl
  rw [ends, chooseSpares_eq]
  exact (foldl_chooseSpare (List.range 12) List.nodup_range s).2.1 d (List.mem_range.2 hd)

theorem endStep_dies {n : Nat} (h4 : n ≠ 4) : (endStep s n).dies = s.dies := by
  by_cases h5 : n = 5
  · subst h5
    rfl
  · rw [endStep_other h4 h5]

/-- The next step begins: its links train, and nothing else but the step has changed. -/
theorem beginStep_spec (s : State) (n : Nat) : LinksOnly s (beginStep s n) ∧
    ∀ k, (StepLink n k → (s.link k).state = .down → (beginStep s n).link k = { s.link k with state := .training }) ∧
      (¬StepLink n k → (beginStep s n).link k = s.link k) := by
  obtain ⟨honly, hdown, -, hout⟩ := foldl_linkEnable (fun k hk => linkLanes_stepLink ((mem_stepLinks n k).1 hk)) s
  exact ⟨honly, fun k => ⟨fun hk => hdown k ((mem_stepLinks n k).2 hk), fun hk => hout k fun h => hk ((mem_stepLinks n k).1 h)⟩⟩

theorem any_stepLinks (n : Nat) (st : LinkState) :
    ((stepLinks n).any fun k => (s.link k).state == st) = true ↔ ∃ k, StepLink n k ∧ (s.link k).state = st := by
  simp only [List.any_eq_true, mem_stepLinks, beq_iff_eq]

/-- The step under way ends: it waits for its links, finds one that failed, or the next begins. -/
theorem bringUpStepDone_eq (s : State) : let n := s.mg.step
    (s.mg.fault = true ∨ 8 ≤ n ∨ (∃ k, StepLink n k ∧ (s.link k).state = .training) → exec .bringUpStepDone s = .next s) ∧
    (s.mg.fault = false → n < 8 → (∀ k, StepLink n k → (s.link k).state ≠ .training) →
      ((n = 3 ∨ n = 5) → (∃ k, StepLink n k ∧ (s.link k).state = .down) → exec .bringUpStepDone s = .next (s.updMg fun m => { m with fault := true })) ∧
      (¬((n = 3 ∨ n = 5) ∧ ∃ k, StepLink n k ∧ (s.link k).state = .down) → exec .bringUpStepDone s =
        .next (beginStep ((endStep s n).updMg fun m => { m with step := n + 1, ready := decide (n = 7) }) (n + 1)))) := by
  intro n
  show (_ → execBringUpStepDone s = _) ∧ (_ → _ → _ → (_ → _ → execBringUpStepDone s = _) ∧ (_ → execBringUpStepDone s = _))
  unfold execBringUpStepDone
  dsimp only
  refine ⟨fun h => ?_, fun hf hn ht => ?_⟩
  · rw [if_pos]
    rcases h with h | h | h
    · simp [h]
    · simp [show 8 ≤ s.mg.step from h]
    · simp [(any_stepLinks s.mg.step .training).2 h]
  · have trains : ((stepLinks s.mg.step).any fun k => (s.link k).state == .training) = false := by
      rw [← Bool.not_eq_true, any_stepLinks]
      exact fun ⟨k, hk, hs⟩ => ht k hk hs
    have goes : ¬(s.mg.fault || decide (8 ≤ s.mg.step) || ((stepLinks s.mg.step).any fun k => (s.link k).state == .training)) = true := by
      simp [hf, show ¬8 ≤ s.mg.step from Nat.not_le.2 hn, trains]
    rw [if_neg goes]
    exact ⟨fun h3 hd => by rw [if_pos ⟨h3, (any_stepLinks _ _).2 hd⟩], fun h => by rw [if_neg fun h' => h ⟨h'.1, (any_stepLinks _ _).1 h'.2⟩]⟩

end

/-- BRING_UP_STEP_DONE, with what a step leaves of links, memory and dies. -/
theorem bringUpStepDone_spec (s : State) : let n := s.mg.step
    (s.mg.fault = true ∨ 8 ≤ n ∨ (∃ k, StepLink n k ∧ (s.link k).state = .training) → exec .bringUpStepDone s = .next s) ∧
    (s.mg.fault = false → n < 8 → (∀ k, StepLink n k → (s.link k).state ≠ .training) →
      ((n = 3 ∨ n = 5) → (∃ k, StepLink n k ∧ (s.link k).state = .down) → exec .bringUpStepDone s = .next (s.updMg fun m => { m with fault := true })) ∧
      (¬((n = 3 ∨ n = 5) ∧ ∃ k, StepLink n k ∧ (s.link k).state = .down) → ∃ t, exec .bringUpStepDone s = .next t ∧
        t.mg = { s.mg with step := n + 1, ready := decide (n = 7) } ∧ t.crews = s.crews ∧
        (∀ k, (StepLink (n + 1) k → (s.link k).state = .down → t.link k = { s.link k with state := .training }) ∧
          (¬StepLink (n + 1) k → t.link k = s.link k)) ∧
        (∀ a, t.mem.read a = if n = 5 ∧ region a ≤ 1 then 0 else s.mem.read a) ∧
        (n ≠ 4 → t.dies = s.dies) ∧
        (n = 4 → ∀ d < 12, ∃ b, t.die d = { s.die d with spare := (t.die d).spare, clmap := (t.die d).clmap } ∧
          (∀ k < 24, (t.die d).clmap.getD k k = if k < b then k else k + 1) ∧
          ((s.die d).retired = [] → b < 25 ∧ (t.die d).spare = some b) ∧ ∀ r l, (s.die d).retired = r :: l → b = r ∧ (t.die d).spare = none))) := by
  intro n
  obtain ⟨hstays, hgoes⟩ := bringUpStepDone_eq s
  refine ⟨hstays, fun hf hn ht => ⟨(hgoes hf hn ht).1, fun h => ⟨_, (hgoes hf hn ht).2 h, ?_⟩⟩⟩
  obtain ⟨hlinks, hcrews, hmg⟩ := endStep_keeps s n
  obtain ⟨honly, hlink⟩ := beginStep_spec ((endStep s n).updMg fun m => { m with step := n + 1, ready := decide (n = 7) }) (n + 1)
  have mg := congrArg State.mg honly
  have crews := congrArg State.crews honly
  have mem := congrArg State.mem honly
  have dies := congrArg State.dies honly
  have link (k : Nat) : ((endStep s n).updMg fun m => { m with step := n + 1, ready := decide (n = 7) }).link k = s.link k :=
    congrArg (fun l => SMap.getD l k Link.down) hlinks
  refine ⟨mg.trans (congrArg (fun m : Manage => { m with step := n + 1, ready := decide (n = 7) }) hmg), crews.trans hcrews, fun k => ?_, fun a => ?_, fun h4 => ?_,
    fun h4 d hd => ?_⟩
  · have here := hlink k
    rw [link k] at here
    exact here
  · exact (congrArg (fun m : Memory => m.read a) mem).trans (endStep_read s n a)
  · exact dies.trans (endStep_dies h4)
  · obtain ⟨b, ⟨hfree, hretired⟩, hdie⟩ := endStep_spare s hd
    rw [← h4] at hdie
    have die : (beginStep ((endStep s n).updMg fun m => { m with step := n + 1, ready := decide (n = 7) }) (n + 1)).die d = spareChosen (s.die d) b := by
      exact (congrArg (fun l => SMap.getD l d Die.reset) dies).trans hdie
    rw [die]
    refine ⟨b, rfl, fun k hk => spareChosen_clmap _ hk, fun hr => ⟨hfree hr, ?_⟩, fun r l hr => ⟨hretired r l hr, ?_⟩⟩
    · simp [spareChosen, hr]
    · simp [spareChosen, hr]

end Sys2Proof.Machine
end

section
/-!
PROOF of how links move, with the events they write (R349 to R351, R360).
-/
namespace Sys2Proof.Machine

/-! ### Link events -/

section
variable {s u : State} {n ev : Nat} {k : Link}

/-- An event of link `n`, written once the link is `k`. -/
theorem linkEvent_events (h : { u with free := s.free } = s.updLink n fun _ => k) : LinkEvents n ev k s (linkEvent u n ev) := by
  refine ⟨_, _, rfl, rfl, rfl, ?_, h⟩
  dsimp only
  omega

theorem linkEvent_link (s : State) (n ev m : Nat) : (linkEvent s n ev).link m = s.link m := by
  have links := (emit_pageMem (s.freeValue.2.freeValue.2) ⟨ev, 5, s.freeValue.1, n % 256 + 256 * s.freeValue.2.freeValue.1⟩).links
  exact congrArg (fun l => SMap.getD l m Link.down) links

/-! ### A link falls (R360) -/

theorem foldl_noteDiscard_links (l : List (Nat × Nat)) (s : State) : (l.foldl (fun s e => noteDiscard s e.1 e.2) s).links = s.links := by
  induction l generalizing s with
  | nil => rfl
  | cons e l ih => exact (ih _).trans (State.updCrew_links ..)

theorem linkFall_link (s : State) (n : Nat) : (linkFall s n).link n = (s.link n).fall := by
  refine (congrArg (fun l => SMap.getD l n Link.down) (foldl_noteDiscard_links _ (s.updLink n Link.fall))).trans ?_
  exact link_updLink_self s Link.fall

/-- A link with nothing held or in its replay buffer only falls. -/
theorem linkFall_empty (hb : (s.link n).buffer = []) (hq : (s.link n).queue = []) : linkFall s n = s.updLink n fun _ => (s.link n).fall := by
  simp only [linkFall, hb, hq]
  rfl

theorem linkFall_events (s : State) (n : Nat) : (linkEvent (linkFall s n) n 3).link n = (s.link n).fall ∧
    ((s.link n).buffer = [] → (s.link n).queue = [] → LinkEvents n 3 (s.link n).fall s (linkEvent (linkFall s n) n 3)) := by
  refine ⟨(linkEvent_link ..).trans (linkFall_link s n), fun hb hq => ?_⟩
  rw [linkFall_empty hb hq]
  exact linkEvent_events rfl

end

/-! ### Training (R350) -/

section
variable {s : State} {n data spare : Nat} (hn : linkLanes n = some (data, spare))
include hn

/-- A link that does not train takes none of the steps that end a training. -/
theorem not_training (h : (s.link n).state ≠ .training) : (∀ w, exec (.linkTrained n w) s = .next s) ∧ exec (.linkLaneFailure n) s = .next s ∧
    exec (.linkTrainTimeout n) s = .next s := by
  refine ⟨fun w => ?_, ?_, ?_⟩
  · show execLinkTrained n w s = _
    simp only [execLinkTrained, hn, ne_eq, h, not_false_eq_true, if_true]
  · show execLinkLaneFailure n s = _
    simp only [execLinkLaneFailure, hn, ne_eq, h, not_false_eq_true, if_true]
  · show execLinkTrainTimeout n s = _
    simp only [execLinkTrainTimeout, h, and_false, if_false]

variable (ht : (s.link n).state = .training)
include ht

/-- A link whose every lane is trained is UP. -/
theorem linkTrained_up : ∃ t c, exec (.linkTrained n data) s = .next t ∧
    LinkEvents n 1 { s.link n with state := .up, width := data, cxl := c } s t ∧ (n < 96 → c = false) := by
  have run : exec (.linkTrained n data) s = execLinkTrained n data s := rfl
  rw [run]
  simp only [execLinkTrained, hn, ht, ne_eq, not_true_eq_false, if_false, if_true, updLink_updLink]
  by_cases h : 96 ≤ n
  · rw [if_pos h]
    exact ⟨_, _, rfl, linkEvent_events rfl, fun h' => absurd h (Nat.not_le.2 h')⟩
  · rw [if_neg h]
    exact ⟨_, (0 : Nat).testBit 1, rfl, linkEvent_events rfl, fun _ => Nat.zero_testBit 1⟩

/-- A host port trained at x8 or x4 is DEGRADED. -/
theorem linkTrained_narrow (h : 96 ≤ n) {w : Nat} (hw : w = 8 ∨ w = 4) : ∃ t c, exec (.linkTrained n w) s = .next t ∧
    (LinkEvents n 1 { s.link n with state := .degraded, width := w, cxl := c } s t ∨
      LinkEvents n 2 { s.link n with state := .degraded, width := w, cxl := c } s t) := by
  have le := linkLanes_le (n := n) (by rw [hn]; rfl)
  have lanes : data = 16 := by
    have host : linkLanes n = some (16, 0) := by
      rcases (show n = 96 ∨ n = 97 by omega) with rfl | rfl <;> rfl
    rw [hn] at host
    cases host
    rfl
  have run : exec (.linkTrained n w) s = execLinkTrained n w s := rfl
  have part : w ≠ data := by omega
  rw [run]
  simp only [execLinkTrained, hn, ht, ne_eq, not_true_eq_false, if_false, if_pos h, part, if_pos (And.intro h hw), updLink_updLink]
  refine ⟨_, s.freeValue.1.testBit 1, rfl, ?_⟩
  rcases Nat.mod_two_eq_zero_or_one s.freeValue.1 with e | e
  · rw [e]
    exact .inl (linkEvent_events rfl)
  · rw [e]
    exact .inr (linkEvent_events rfl)

/-- A lane that fails while a spare is free is replaced. -/
theorem linkLaneFailure_spared (hd : 0 < data) (h : (s.link n).spused < spare) : let k := s.link n
    ∃ t, ∃ j < data, exec (.linkLaneFailure n) s = .next t ∧
      LinkEvents n 2 { k with state := .degraded, spused := k.spused + 1, width := data, mapped := k.mapped ++ [j] } s t := by
  have run : exec (.linkLaneFailure n) s = execLinkLaneFailure n s := rfl
  rw [run]
  simp only [execLinkLaneFailure, hn, ht, ne_eq, not_true_eq_false, if_false, if_pos h]
  exact ⟨_, s.freeValue.1 % data, Nat.mod_lt _ hd, rfl, linkEvent_events rfl⟩

theorem linkLaneFailure_falls (h : spare ≤ (s.link n).spused) : exec (.linkLaneFailure n) s = .next (linkEvent (linkFall s n) n 3) := by
  have run : exec (.linkLaneFailure n) s = execLinkLaneFailure n s := rfl
  rw [run]
  simp only [execLinkLaneFailure, hn, ht, ne_eq, not_true_eq_false, if_false, if_neg (Nat.not_lt.2 h)]

theorem linkTrainTimeout_falls : exec (.linkTrainTimeout n) s = .next (linkEvent (linkFall s n) n 3) := by
  have run : exec (.linkTrainTimeout n) s = execLinkTrainTimeout n s := rfl
  rw [run, execLinkTrainTimeout, if_pos ⟨by rw [hn]; rfl, ht⟩]

end

/-! ### Retraining (R350) -/

/-- With no packet waiting for credit nothing is sent. -/
theorem Link.pump_idle {k : Link} (h : k.queue = []) : k.pump = k := by
  have same : { k with queue := [] } = k := by rw [← h]
  unfold Link.pump
  split
  · rfl
  · simp only [h, List.foldl_nil]
    exact same

/-- The lanes a retraining spares: as many as it says, those that were to be spared first. -/
theorem spareMap_spec {k : Link} {data free m f : Nat} (hm : m ≤ free) (hw : min k.want.length free ≤ m) :
    (spareMap k data free m f).length = m ∧ k.want.take free <+: spareMap k data free m f := by
  have wanted : k.want.take (min free m) = k.want.take free := by
    rcases Nat.le_total free m with h | h
    · rw [Nat.min_eq_left h]
    · rw [Nat.min_eq_right h]
      by_cases hl : k.want.length ≤ m
      · rw [List.take_of_length_le hl, List.take_of_length_le (hl.trans h)]
      · rw [show m = free by omega]
  have len : (k.want.take free).length ≤ m := by
    rw [List.length_take]
    omega
  simp only [spareMap, wanted]
  refine ⟨?_, List.prefix_append ..⟩
  rw [List.length_append, List.length_map, List.length_range]
  omega

section
variable {s : State} {n data spare : Nat} (hn : linkLanes n = some (data, spare))
include hn

theorem not_retraining (h : (s.link n).state ≠ .retrain) : (∀ m, exec (.linkRetrained n m) s = .next s) ∧ exec (.linkRetrainFailure n) s = .next s := by
  refine ⟨fun m => ?_, ?_⟩
  · show execLinkRetrained n m s = _
    simp only [execLinkRetrained, hn, ne_eq, h, not_false_eq_true, true_or, if_true]
  · show execLinkRetrainFailure n s = _
    simp only [execLinkRetrainFailure, h, and_false, if_false]

theorem replayThreshold_spec : let k := s.link n
    exec (.replayThreshold n) s = .next (if k.state = .up ∨ k.state = .degraded then
      s.updLink n fun k => { k with state := .retrain, replay := min (k.replay + 16) 65535 } else s) := by
  have run : exec (.replayThreshold n) s = execReplayThreshold n s := rfl
  have lanes : (linkLanes n).isSome = true := by rw [hn]; rfl
  rw [run]
  simp only [execReplayThreshold, linkStep, isUp, lanes, Bool.true_and, Bool.or_eq_true, beq_iff_eq]

variable (ht : (s.link n).state = .retrain)
include ht

/-- A link retrained with no spare newly mapped. -/
theorem linkRetrained_none (hq : (s.link n).queue = []) (hs : (s.link n).spused ≤ spare) (hw : (s.link n).want = [] ∨ (s.link n).spused = spare) :
    exec (.linkRetrained n 0) s = .next (s.updLink n fun k =>
      { k with state := if k.spused = 0 then .up else .degraded, want := [], sent := 0 }) := by
  have run : exec (.linkRetrained n 0) s = execLinkRetrained n 0 s := rfl
  have may : ¬(spare < (s.link n).spused + 0 ∨ 0 < min (s.link n).want.length (spare - (s.link n).spused)) := by
    rcases hw with h | h
    · simp [h, hs]
    · simp [h]
  rw [run]
  simp only [execLinkRetrained, hn, ht, ne_eq, not_true_eq_false, false_or, if_neg may, if_true]
  refine congrArg (fun k => Host.Outcome.next (s.updLink n fun _ => k)) ?_
  exact Link.pump_idle (k := { s.link n with state := if (s.link n).spused = 0 then .up else .degraded, want := [], sent := 0 }) hq

/-- A link retrained with spares newly mapped is DEGRADED. -/
theorem linkRetrained_spared {m : Nat} (hq : (s.link n).queue = []) (hm : 0 < m) (hs : (s.link n).spused + m ≤ spare)
    (hw : min (s.link n).want.length (spare - (s.link n).spused) ≤ m) : let k := s.link n
    ∃ t l, exec (.linkRetrained n m) s = .next t ∧ l.length = m ∧ k.want.take (spare - k.spused) <+: l ∧
      LinkEvents n 2 { k with state := .degraded, spused := k.spused + m, mapped := k.mapped ++ l, want := [], sent := 0 } s t := by
  have run : exec (.linkRetrained n m) s = execLinkRetrained n m s := rfl
  have may : ¬(spare < (s.link n).spused + m ∨ m < min (s.link n).want.length (spare - (s.link n).spused)) := by omega
  obtain ⟨hlen, hpre⟩ := spareMap_spec (data := data) (f := s.freeValue.1) (show m ≤ spare - (s.link n).spused by omega) hw
  rw [run]
  simp only [execLinkRetrained, hn, ht, ne_eq, not_true_eq_false, false_or, if_neg may, Nat.pos_iff_ne_zero.1 hm, if_false]
  refine ⟨_, _, rfl, hlen, hpre, linkEvent_events ?_⟩
  refine congrArg (fun k => s.updLink n fun _ => k) ?_
  exact Link.pump_idle (k := { s.link n with
    state := .degraded
    spused := (s.link n).spused + m
    mapped := (s.link n).mapped ++ spareMap (s.link n) data (spare - (s.link n).spused) m s.freeValue.1
    want := []
    sent := 0 }) hq

theorem linkRetrainFailure_falls : exec (.linkRetrainFailure n) s = .next (linkFall s n) := by
  have run : exec (.linkRetrainFailure n) s = execLinkRetrainFailure n s := rfl
  rw [run, execLinkRetrainFailure, if_pos ⟨by rw [hn]; rfl, ht⟩]

end

/-! ### Margins (R351) -/

/-- A lane is to be spared: a link that carries traffic retrains. -/
theorem spareLane_eq {u : State} {n : Nat} (hn : (linkLanes n).isSome) (lane : Nat) :
    spareLane u n lane = if (u.link n).state = .up ∨ (u.link n).state = .degraded then
      u.updLink n fun _ => { u.link n with
        state := .retrain
        want := if lane ∈ (u.link n).want ∨ lane ∈ (u.link n).mapped then (u.link n).want else (u.link n).want ++ [lane] }
      else u := by
  unfold spareLane
  by_cases h : (u.link n).state = .up ∨ (u.link n).state = .degraded
  · have up : isUp (u.link n).state = true := by
      rcases h with h | h <;> simp [isUp, h]
    simp only [up, if_true, if_pos h, linkRetrain, linkStep, hn, link_updLink_self, Bool.and_self, updLink_updLink, Bool.or_eq_true,
      List.contains_iff_mem]
    rfl
  · have down : isUp (u.link n).state = false := by
      simpa [isUp] using h
    simp only [down, Bool.false_eq_true, if_false, if_neg h]

/-- A lane's margin is measured; below its threshold the link says so, and with AUTO it retrains. -/
theorem marginAlarm_spec {s : State} {n data spare lane h : Nat} (hn : linkLanes n = some (data, spare)) (hl : lane < data + spare) (hh : h < 256) :
    let k := s.link n
    let e := k.eyes.getD lane Eye.reset
    ∃ v < 256, ∃ k', k' = { k with eyes := k.eyes.insert lane { e with h := h, minh := min e.minh h, v := v } } ∧ ∃ t,
    exec (.marginAlarm n lane h) s = .next t ∧ (e.thr ≤ min e.minh h → { t with free := s.free } = s.updLink n fun _ => k') ∧
    (min e.minh h < e.thr → ∃ u w x, u = emit w x ∧ x.kind = 5 ∧ x.data = 4 ∧ x.loc = n + 256 * lane ∧
      { w with free := s.free } = (s.updLink n fun _ => k') ∧
      t = if k.auto = true ∧ (k.state = .up ∨ k.state = .degraded) then u.updLink n fun _ =>
        { k' with state := .retrain, want := if lane ∈ k.want ∨ lane ∈ k.mapped then k.want else k.want ++ [lane] } else u) := by
  intro k e
  have le := linkLanes_le (n := n) (by rw [hn]; rfl)
  have run : exec (.marginAlarm n lane h) s = execMarginAlarm n lane h s := rfl
  let k' : Link := { k with eyes := k.eyes.insert lane { e with h := h, minh := min e.minh h, v := s.freeValue.1 % 256 } }
  have measured (lane : Nat) : (laneEvent (s.freeValue.2.updLink n fun _ => k') n lane).link n = k' := by
    have links := (emit_pageMem (s.freeValue.2.updLink n fun _ => k').freeValue.2
      ⟨4, 5, (s.freeValue.2.updLink n fun _ => k').freeValue.1, n % 256 + 256 * lane⟩).links
    exact (congrArg (fun l => SMap.getD l n Link.down) links).trans (link_updLink_self s.freeValue.2 fun _ => k')
  refine ⟨s.freeValue.1 % 256, Nat.mod_lt _ (by decide), k', rfl, ?_⟩
  rw [run]
  simp only [execMarginAlarm, hn, if_neg (Nat.not_le.2 hl), Nat.mod_eq_of_lt hh]
  by_cases hthr : e.thr ≤ min e.minh h
  · refine ⟨s.freeValue.2.updLink n fun _ => k', congrArg Host.Outcome.next (if_pos hthr), fun _ => rfl, fun h => absurd hthr (Nat.not_le.2 h)⟩
  · refine ⟨_, congrArg Host.Outcome.next (if_neg hthr), fun h => absurd h hthr, fun _ => ?_⟩
    refine ⟨laneEvent (s.freeValue.2.updLink n fun _ => k') n lane, _, _, rfl, rfl, rfl, ?_, rfl, ?_⟩
    · show n % 256 + 256 * lane = n + 256 * lane
      rw [Nat.mod_eq_of_lt (by omega)]
    · change (if ((laneEvent (s.freeValue.2.updLink n fun _ => k') n lane).link n).auto = true then
        spareLane (laneEvent (s.freeValue.2.updLink n fun _ => k') n lane) n lane else laneEvent (s.freeValue.2.updLink n fun _ => k') n lane) = _
      rw [spareLane_eq (by rw [hn]; rfl), measured, ite_and]

/-! ### R350's table -/

theorem linkLanes_pos {n data spare : Nat} (hn : linkLanes n = some (data, spare)) : 0 < data := by
  have le := linkLanes_le (n := n) (by rw [hn]; rfl)
  have all : ∀ n ≤ 97, ∀ p ∈ linkLanes n, 0 < p.1 := by decide
  exact all n le _ hn

/-- The transitions of a link that R350 lists, with their events. -/
theorem linkTable_spec (s : State) (n data spare : Nat) (hn : linkLanes n = some (data, spare)) : let k := s.link n
    (k.state = .training →
      (∃ t c, exec (.linkTrained n data) s = .next t ∧ LinkEvents n 1 { k with state := .up, width := data, cxl := c } s t ∧ (n < 96 → c = false)) ∧
      (96 ≤ n → ∀ w, w = 8 ∨ w = 4 → ∃ t c, exec (.linkTrained n w) s = .next t ∧
        (LinkEvents n 1 { k with state := .degraded, width := w, cxl := c } s t ∨ LinkEvents n 2 { k with state := .degraded, width := w, cxl := c } s t)) ∧
      (k.spused < spare → ∃ t, ∃ j < data, exec (.linkLaneFailure n) s = .next t ∧
        LinkEvents n 2 { k with state := .degraded, spused := k.spused + 1, width := data, mapped := k.mapped ++ [j] } s t) ∧
      (spare ≤ k.spused → ∃ t, exec (.linkLaneFailure n) s = .next t ∧ t.link n = k.fall ∧
        (k.buffer = [] → k.queue = [] → LinkEvents n 3 k.fall s t)) ∧
      ∃ t, exec (.linkTrainTimeout n) s = .next t ∧ t.link n = k.fall ∧ (k.buffer = [] → k.queue = [] → LinkEvents n 3 k.fall s t)) ∧
    (k.state ≠ .training → (∀ w, exec (.linkTrained n w) s = .next s) ∧ exec (.linkLaneFailure n) s = .next s ∧ exec (.linkTrainTimeout n) s = .next s) ∧
    (k.state = .retrain →
      (k.queue = [] → k.spused ≤ spare → k.want = [] ∨ k.spused = spare → exec (.linkRetrained n 0) s = .next (s.updLink n fun k =>
        { k with state := if k.spused = 0 then .up else .degraded, want := [], sent := 0 })) ∧
      (∀ m, k.queue = [] → 0 < m → k.spused + m ≤ spare → min k.want.length (spare - k.spused) ≤ m → ∃ t l, exec (.linkRetrained n m) s = .next t ∧
        l.length = m ∧ k.want.take (spare - k.spused) <+: l ∧
        LinkEvents n 2 { k with state := .degraded, spused := k.spused + m, mapped := k.mapped ++ l, want := [], sent := 0 } s t) ∧
      ∃ t, exec (.linkRetrainFailure n) s = .next t ∧ t.link n = k.fall ∧ (k.buffer = [] → k.queue = [] → t = s.updLink n fun _ => k.fall)) ∧
    (k.state ≠ .retrain → (∀ m, exec (.linkRetrained n m) s = .next s) ∧ exec (.linkRetrainFailure n) s = .next s) := by
  intro k
  refine ⟨fun ht => ⟨linkTrained_up hn ht, fun h w hw => linkTrained_narrow hn ht h hw, linkLaneFailure_spared hn ht (linkLanes_pos hn), fun h => ?_, ?_⟩,
    not_training hn, fun ht => ⟨linkRetrained_none hn ht, fun m hq hm hs hw => linkRetrained_spared hn ht hq hm hs hw, ?_⟩, not_retraining hn⟩
  · exact ⟨_, linkLaneFailure_falls hn ht h, linkFall_events s n⟩
  · exact ⟨_, linkTrainTimeout_falls hn ht, linkFall_events s n⟩
  · exact ⟨_, linkRetrainFailure_falls hn ht, linkFall_link s n, linkFall_empty⟩

end Sys2Proof.Machine
end

section
/-!
PROOF of what arrives over Cletik: flits, and a peer's requests (R356 to R358).
-/
namespace Sys2Proof.Machine

theorem Link.open_iff (k : Link) : k.open = true ↔ k.state = .up ∨ k.state = .degraded := by
  simp only [Link.open, Bool.or_eq_true, beq_iff_eq]

/-! ### Flits -/

section
variable {s : State} {p flit : Nat} {crc : Bool}

/-- A flit that is bad, reserved or out of sequence is dropped. -/
theorem flitReceive_dropped (h : ¬((s.link (80 + p)).state = .up ∨ (s.link (80 + p)).state = .degraded) ∨ crc = false ∨ 5 ≤ flit % 16 ∨
    bits flit 15 6 ≠ (s.link (80 + p)).seq) : exec (.flitReceive p flit crc) s = .next s := by
  have run : exec (.flitReceive p flit crc) s = execFlitReceive p flit crc s := rfl
  have drop : 16 ≤ p ∨ (!(s.link (80 + p)).open) = true ∨ (!crc) = true ∨ 5 ≤ flit % 16 ∨ bits flit 15 6 ≠ (s.link (80 + p)).seq := by
    rcases h with h | h | h | h
    · refine .inr (.inl ?_)
      rw [← Link.open_iff, Bool.not_eq_true] at h
      rw [h]
      rfl
    · exact .inr (.inr (.inl (by rw [h]; rfl)))
    · exact .inr (.inr (.inr (.inl h)))
    · exact .inr (.inr (.inr (.inr h)))
  rw [run]
  exact congrArg Host.Outcome.next (if_pos drop)

/-- The link once a flit is counted. -/
def flitCounted (k : Link) : Link := { k with seq := (k.seq + 1) % 1024 }

section
variable (hp : p < 16) (ho : (s.link (80 + p)).state = .up ∨ (s.link (80 + p)).state = .degraded) (hk : flit % 16 < 5)
  (hs : bits flit 15 6 = (s.link (80 + p)).seq)
include hp ho hk hs

/-- The link once a flit is taken, by its KIND. -/
theorem flitReceive_taken :
    (flit % 16 = 0 → exec (.flitReceive p flit true) s = .next (s.updLink (80 + p) flitCounted)) ∧
    (flit % 16 = 1 ∨ flit % 16 = 2 → exec (.flitReceive p flit true) s = .next (s.updLink (80 + p) fun k =>
      { flitCounted k with credits := k.credits.insert (bits flit 5 4) (min 128 (k.credits.getD (bits flit 5 4) 0 + 1)) })) ∧
    (flit % 16 = 3 → exec (.flitReceive p flit true) s = .next (s.freeValue.2.updLink (80 + p) fun k => (flitCounted k).returned s.freeValue.1)) ∧
    (flit % 16 = 4 → exec (.flitReceive p flit true) s = .next (s.updLink (80 + p) fun k =>
      { flitCounted k with replay := min (k.replay + 1) 65535, sent := 0 })) := by
  have run : exec (.flitReceive p flit true) s = execFlitReceive p flit true s := rfl
  have take : ¬(16 ≤ p ∨ (!(s.link (80 + p)).open) = true ∨ (!true) = true ∨ 5 ≤ flit % 16 ∨ bits flit 15 6 ≠ (s.link (80 + p)).seq) := by
    simp [(Link.open_iff _).2 ho, hs, Nat.not_le.2 hp, Nat.not_le.2 hk]
  rw [run, execFlitReceive]
  simp only [if_neg take]
  refine ⟨fun h => ?_, fun h => ?_, fun h => ?_, fun h => ?_⟩
  · rw [h]
    rfl
  · rcases h with h | h
    · rw [h]
      exact congrArg Host.Outcome.next (updLink_updLink ..)
    · rw [h]
      exact congrArg Host.Outcome.next (updLink_updLink ..)
  · rw [h]
    refine congrArg Host.Outcome.next ?_
    exact updLink_updLink s.freeValue.2 flitCounted fun k => k.returned s.freeValue.1
  · rw [h]
    exact congrArg Host.Outcome.next (updLink_updLink ..)

end

/-- What a KIND 3 flit returns of a link with no packet waiting. -/
theorem Link.returned_idle {k : Link} (h : k.queue = []) (f : Nat) : ∃ j u, j ≤ k.sent ∧
    k.returned f = { k with buffer := k.buffer.drop j, sent := k.sent - j, used := u } ∧ ∀ c, SMap.getD u c 0 ≤ k.used.getD c 0 := by
  refine ⟨f % (k.sent + 1), _, Nat.lt_succ_iff.1 (Nat.mod_lt _ (Nat.succ_pos _)), Link.pump_idle (k := { k with
    buffer := k.buffer.drop (f % (k.sent + 1))
    sent := k.sent - f % (k.sent + 1)
    used := k.used.map fun (e : Nat × Nat) => (e.1, e.2 - f / 2 ^ (16 * (e.1 + 1)) % (e.2 + 1)) }) h, fun c => ?_⟩
  have used := SMap.find?_map k.used (fun j x => x - f / 2 ^ (16 * (j + 1)) % (x + 1)) c
  unfold SMap.getD
  rw [used]
  cases k.used.find? c with
  | none => exact le_rfl
  | some x => exact Nat.sub_le ..

/-- FLIT_RECEIVE. -/
theorem flitReceive_spec (s : State) (p flit : Nat) (crc : Bool) (hp : p < 16) : let n := 80 + p; let k := s.link n; let vc := bits flit 5 4
    let open_ : Prop := k.state = .up ∨ k.state = .degraded
    (¬open_ ∨ crc = false ∨ 5 ≤ flit % 16 ∨ bits flit 15 6 ≠ k.seq → exec (.flitReceive p flit crc) s = .next s) ∧
    (open_ → crc = true → flit % 16 < 5 → bits flit 15 6 = k.seq → ∃ t, exec (.flitReceive p flit crc) s = .next t ∧
      { t with links := s.links, free := s.free } = s ∧ (∀ m, m ≠ n → t.link m = s.link m) ∧
      let k' := { k with seq := (k.seq + 1) % 1024 }
      (flit % 16 = 0 → t.link n = k') ∧
      (flit % 16 = 1 ∨ flit % 16 = 2 → t.link n = { k' with credits := k.credits.insert vc (min 128 (k.credits.getD vc 0 + 1)) }) ∧
      (flit % 16 = 3 → k.queue = [] → ∃ j u, j ≤ k.sent ∧ t.link n = { k' with buffer := k.buffer.drop j, sent := k.sent - j, used := u } ∧
        ∀ c, SMap.getD u c 0 ≤ k.used.getD c 0) ∧
      (flit % 16 = 4 → t.link n = { k' with replay := min (k.replay + 1) 65535, sent := 0 })) := by
  intro n k vc open_
  refine ⟨flitReceive_dropped, fun ho hc hk hs => ?_⟩
  subst hc
  obtain ⟨h0, h12, h3, h4⟩ := flitReceive_taken hp ho hk hs
  have only (u : State) (hu : { u with free := s.free } = s) (f : Link → Link) : { (u.updLink n f) with links := s.links, free := s.free } = s ∧
      (∀ m, m ≠ n → (u.updLink n f).link m = s.link m) ∧ (u.updLink n f).link n = f k := by
    have links := congrArg State.links hu
    have link (m : Nat) : u.link m = s.link m := congrArg (fun l => SMap.getD l m Link.down) links
    refine ⟨congrArg (fun v : State => { v with links := s.links }) hu, fun m hm => (link_updLink_ne _ _ hm).trans (link m), ?_⟩
    rw [link_updLink_self, link]
  rcases (show flit % 16 = 0 ∨ (flit % 16 = 1 ∨ flit % 16 = 2) ∨ flit % 16 = 3 ∨ flit % 16 = 4 by omega) with h | h | h | h
  · obtain ⟨hrest, hne, hlink⟩ := only s rfl flitCounted
    exact ⟨_, h0 h, hrest, hne, fun _ => hlink, by omega, by omega, by omega⟩
  · obtain ⟨hrest, hne, hlink⟩ := only s rfl fun k => { flitCounted k with credits := k.credits.insert vc (min 128 (k.credits.getD vc 0 + 1)) }
    exact ⟨_, h12 h, hrest, hne, by omega, fun _ => hlink, by omega, by omega⟩
  · obtain ⟨hrest, hne, hlink⟩ := only s.freeValue.2 rfl fun k => (flitCounted k).returned s.freeValue.1
    refine ⟨_, h3 h, hrest, hne, by omega, by omega, fun _ hq => ?_, by omega⟩
    obtain ⟨j, u, hj, he, hu⟩ := Link.returned_idle (k := flitCounted k) hq s.freeValue.1
    exact ⟨j, u, hj, hlink.trans he, hu⟩
  · obtain ⟨hrest, hne, hlink⟩ := only s rfl fun k => { flitCounted k with replay := min (k.replay + 1) 65535, sent := 0 }
    exact ⟨_, h4 h, hrest, hne, by omega, by omega, by omega, fun _ => hlink⟩

end

end Sys2Proof.Machine
end

section
/-!
PROOF of what parties outside the package read and write in its memory: writes at home, and a Cletik peer's requests (R147, R356, R358).
-/
namespace Sys2Proof.Machine

/-! ### A write from outside (R147) -/

theorem mapIdx_run (p : Nat) (l : List Byte) : (l.mapIdx fun i b => (p + i, b)) = ((List.range l.length).zip l).map fun e => (p + e.1, e.2) := by
  refine List.ext_getElem (by simp) fun i h h' => ?_
  simp

/-- The bytes written, and no others, are in memory. -/
theorem outsideWrite_read (s : State) (pa : Nat) (l : List Byte) (a : Nat) :
    (outsideWrite s pa l).mem.read a = if pa ≤ a ∧ a < pa + l.length then l.getD (a - pa) 0 else s.mem.read a := by
  have noted (objs : List Nat) (m : Memory) : (objs.foldl (fun m o => noteWriter m o outsideWriter s.tick) m).read a = m.read a := by
    induction objs generalizing m with
    | nil => rfl
    | cons o objs ih => exact (ih _).trans (noteWriter_read ..)
  refine (noted _ _).trans ((writePhys_read ..).trans ?_)
  rw [mapIdx_run]
  exact foldl_write_run s.mem pa l.length rfl a

/-! ### Packets (R356, R357) -/

theorem packetBody_length (h : Nat) (l : List Byte) : (packetBody h l).length = packetFlits l.length := by
  rw [packetBody, packetFlits, List.length_cons, List.length_map, List.length_range, Nat.add_comm]

namespace Link
variable {k : Link} {p : PortPacket}

/-- A response that finds nothing waiting and room in the replay buffer is sent. -/
theorem pump_response (ho : k.open = true) (hp : p.vc = 1) (hr : k.buffer.length + p.flits.length ≤ 1024) :
    ({ k with queue := [p] } : Link).pump = { ({ k with queue := [p] } : Link).push p with queue := [] } := by
  have carries : ({ k with queue := [p] } : Link).open = true := ho
  have room : ({ k with queue := [p] } : Link).fits p = true := by
    simp only [fits, hp, beq_self_eq_true, Bool.true_or, Bool.true_and]
    exact decide_eq_true hr
  simp only [pump, carries, Bool.not_true, Bool.false_eq_true, if_false, List.foldl_cons, List.foldl_nil, List.any_nil, Bool.false_or, room]

/-- Packets sent leave the credits that this side gives. -/
theorem pump_credits (k : Link) : k.pump.credits = k.credits := by
  have fold (l : List PortPacket) (x : Link × List PortPacket) : (l.foldl (fun (x : Link × List PortPacket) p =>
      if (x.2.any fun q => q.vc == p.vc) || !x.1.fits p then (x.1, x.2 ++ [p]) else (x.1.push p, x.2)) x).1.credits = x.1.credits := by
    induction l generalizing x with
    | nil => rfl
    | cons p l ih =>
      refine (ih _).trans ?_
      dsimp only
      split <;> rfl
  unfold pump
  split
  · rfl
  · exact fold k.queue (k, [])

end Link

/-! ### A peer's request (R358) -/

/-- The answer to a request of a peer: its flits' credit returns, and a packet of the response channel goes out. -/
def peerReply (s : State) (l used : Nat) (bytes : List Byte) : State :=
  sendPacket (s.updLink l fun k => { k with credits := k.credits.insert 0 (k.credits.getD 0 0 - used) }) l 1 none bytes

/-- The link once a request is answered. -/
theorem peerReply_link (s : State) (l used : Nat) (bytes : List Byte) : ∃ f, (peerReply s l used bytes).link l = Link.pump { s.link l with
    credits := (s.link l).credits.insert 0 ((s.link l).credits.getD 0 0 - used)
    queue := (s.link l).queue ++ [⟨1, packetBody f bytes, none⟩] } := by
  refine ⟨s.freeValue.1, ?_⟩
  refine (link_updLink_self _ _).trans ?_
  have link : ((s.updLink l fun k => { k with credits := k.credits.insert 0 (k.credits.getD 0 0 - used) }).freeValue.2).link l =
    { s.link l with credits := (s.link l).credits.insert 0 ((s.link l).credits.getD 0 0 - used) } :=
      link_updLink_self s fun k => { k with credits := k.credits.insert 0 (k.credits.getD 0 0 - used) }
  exact congrArg (fun k : Link => Link.pump { k with queue := k.queue ++ [⟨1, packetBody s.freeValue.1 bytes, none⟩] }) link

theorem peerReply_spec (s : State) (l used : Nat) (bytes : List Byte) (ho : (s.link l).open = true) :
    (peerReply s l used bytes).crews = s.crews ∧ (peerReply s l used bytes).mem = s.mem ∧
    ((peerReply s l used bytes).link l).credits.getD 0 0 = (s.link l).credits.getD 0 0 - used ∧
    ((s.link l).queue = [] → (s.link l).buffer.length + packetFlits bytes.length ≤ 1024 →
      ((peerReply s l used bytes).link l).txSeq = ((s.link l).txSeq + packetFlits bytes.length) % 1024 ∧
      ((peerReply s l used bytes).link l).buffer.take (s.link l).buffer.length = (s.link l).buffer ∧
      ((peerReply s l used bytes).link l).buffer.length = (s.link l).buffer.length + packetFlits bytes.length) := by
  obtain ⟨f, hf⟩ := peerReply_link s l used bytes
  refine ⟨rfl, rfl, ?_, fun hq hroom => ?_⟩
  · rw [hf, Link.pump_credits]
    exact SMap.getD_insert_self ..
  · rw [hf, hq, List.nil_append, ← packetBody_length f]
    rw [← packetBody_length f] at hroom
    have sent := Link.pump_response (k := { s.link l with credits := (s.link l).credits.insert 0 ((s.link l).credits.getD 0 0 - used) })
      (p := ⟨1, packetBody f bytes, none⟩) ho rfl hroom
    rw [sent]
    refine ⟨rfl, ?_, ?_⟩
    · exact List.take_left
    · simp [Link.push]

theorem rangeHeld_iff (s : State) (pa n : Nat) : rangeHeld s pa n = true ↔ ∃ e ∈ s.migs, e.2.old < pa + n ∧ pa < e.2.old + e.2.size := by
  simp only [rangeHeld, List.any_eq_true, Bool.and_eq_true, decide_eq_true_eq]

theorem noteHome_links (s : State) (pa : Nat) : (noteHome s pa).links = s.links := (homeOnly_noteHome s pa).links

section
variable {s : State} {p a n data : Nat} {write : Bool}

theorem cletikRequest_closed (h : ¬((s.link (80 + p)).state = .up ∨ (s.link (80 + p)).state = .degraded)) :
    exec (.cletikRequest p write a n data) s = .next s := by
  have run : exec (.cletikRequest p write a n data) s = execCletikRequest p write a n data s := rfl
  rw [← Link.open_iff, Bool.not_eq_true] at h
  rw [run]
  exact congrArg Host.Outcome.next (if_pos (.inr (by rw [h]; rfl)))

variable (hp : p < 16) (ho : (s.link (80 + p)).state = .up ∨ (s.link (80 + p)).state = .degraded)
include hp ho

/-- A request over a link that carries traffic. -/
theorem cletikRequest_open : exec (.cletikRequest p write a n data) s = .next (match windowAddr s p a n with
    | none => peerReply s (80 + p) (packetFlits (if write then n else 0)) []
    | some pa =>
      if !write then peerReply (noteHome s pa) (80 + p) (packetFlits (if write then n else 0)) (s.mem.readN pa n)
      else if rangeHeld s pa n then s
      else peerReply (outsideWrite (noteHome s pa) pa (toBytes n data)) (80 + p) (packetFlits (if write then n else 0)) []) := by
  have run : exec (.cletikRequest p write a n data) s = execCletikRequest p write a n data s := rfl
  have carries : ¬(16 ≤ p ∨ (!(s.link (80 + p)).open) = true) := by
    simp [(Link.open_iff _).2 ho, Nat.not_le.2 hp]
  rw [run]
  refine congrArg Host.Outcome.next ((if_neg carries).trans ?_)
  cases windowAddr s p a n <;> rfl

end

section
variable {s : State} {p a n data pa : Nat} (hp : p < 16) (ho : (s.link (80 + p)).state = .up ∨ (s.link (80 + p)).state = .degraded)
  (ha : windowAddr s p a n = some pa)
include hp ho ha

/-- A peer's read leaves memory and takes a header's credit; the answer carries its bytes. -/
theorem cletikRead_spec : let l := 80 + p
    ∃ t, exec (.cletikRequest p false a n data) s = .next t ∧ t.crews = s.crews ∧ t.mem = s.mem ∧
      (t.link l).credits.getD 0 0 = (s.link l).credits.getD 0 0 - 1 ∧
      ((s.link l).queue = [] → (s.link l).buffer.length + packetFlits n ≤ 1024 → (t.link l).txSeq = ((s.link l).txSeq + packetFlits n) % 1024 ∧
        (t.link l).buffer.take (s.link l).buffer.length = (s.link l).buffer ∧ (t.link l).buffer.length = (s.link l).buffer.length + packetFlits n) := by
  intro l
  have eq := cletikRequest_open (write := false) (a := a) (n := n) (data := data) hp ho
  rw [ha] at eq
  have link : (noteHome s pa).link l = s.link l := congrArg (fun k => SMap.getD k l Link.down) (noteHome_links s pa)
  obtain ⟨hcrews, hmem, hcredits, hsent⟩ := peerReply_spec (noteHome s pa) l (packetFlits 0) (s.mem.readN pa n)
    (by rw [link]; exact (Link.open_iff _).2 ho)
  rw [link, show (s.mem.readN pa n).length = n by simp [Memory.readN]] at hsent
  rw [link] at hcredits
  exact ⟨_, eq, hcrews.trans (homeOnly_noteHome s pa).crews, hmem.trans (noteHome_mem ..), hcredits, hsent⟩

/-- A peer's write of a range that no migration holds lands, and takes the credit of its flits; the answer is one flit. -/
theorem cletikWrite_spec (hh : rangeHeld s pa n = false) : let l := 80 + p
    ∃ t, exec (.cletikRequest p true a n data) s = .next t ∧ t.crews = s.crews ∧
      (∀ i, t.mem.read i = if pa ≤ i ∧ i < pa + n then (toBytes n data).getD (i - pa) 0 else s.mem.read i) ∧
      (t.link l).credits.getD 0 0 = (s.link l).credits.getD 0 0 - packetFlits n ∧
      ((s.link l).queue = [] → (s.link l).buffer.length + 1 ≤ 1024 → (t.link l).txSeq = ((s.link l).txSeq + 1) % 1024 ∧
        (t.link l).buffer.take (s.link l).buffer.length = (s.link l).buffer ∧ (t.link l).buffer.length = (s.link l).buffer.length + 1) := by
  intro l
  have eq : exec (.cletikRequest p true a n data) s =
      .next (peerReply (outsideWrite (noteHome s pa) pa (toBytes n data)) l (packetFlits n) []) := by
    rw [cletikRequest_open hp ho, ha]
    simp only [hh, Bool.not_true, Bool.false_eq_true, if_false, if_true]
    rfl
  have link : (outsideWrite (noteHome s pa) pa (toBytes n data)).link l = s.link l :=
    congrArg (fun k => SMap.getD k l Link.down) (noteHome_links s pa)
  obtain ⟨hcrews, hmem, hcredits, hsent⟩ := peerReply_spec (outsideWrite (noteHome s pa) pa (toBytes n data)) l (packetFlits n) []
    (by rw [link]; exact (Link.open_iff _).2 ho)
  rw [link] at hsent hcredits
  refine ⟨_, eq, hcrews.trans (homeOnly_noteHome s pa).crews, fun i => ?_, hcredits, hsent⟩
  rw [show _ = _ from hmem, outsideWrite_read, toBytes_length, noteHome_mem]

end

/-- CLETIK_REQUEST. -/
theorem cletikRequest_spec (s : State) (p : Nat) (write : Bool) (a n data : Nat) (hp : p < 16) : let l := 80 + p
    let w := (s.link l).windows.getD (bits a 43 40) (0, 0); let pa := w.1 + bits a 39 0
    let run := exec (.cletikRequest p write a n data) s
    let flits := if write = true then 1 else 1 + (n + 59) / 60
    let open_ : Prop := (s.link l).state = .up ∨ (s.link l).state = .degraded
    let held : Prop := ∃ e ∈ s.migs, e.2.old < pa + n ∧ pa < e.2.old + e.2.size
    (¬open_ → run = .next s) ∧
    (open_ → a < 2 ^ 44 → bits a 39 0 + n ≤ w.2 → populated pa n = true → region pa ≤ 1 →
      (write = true → held → run = .next s) ∧
      (¬(write = true ∧ held) → ∃ t, run = .next t ∧ t.crews = s.crews ∧
        ((s.link l).queue = [] → (s.link l).buffer.length + flits ≤ 1024 → (t.link l).txSeq = ((s.link l).txSeq + flits) % 1024 ∧
          (t.link l).buffer.take (s.link l).buffer.length = (s.link l).buffer ∧ (t.link l).buffer.length = (s.link l).buffer.length + flits) ∧
        (t.link l).credits.getD 0 0 = (s.link l).credits.getD 0 0 - (1 + (if write = true then (n + 59) / 60 else 0)) ∧
        (∀ i, t.mem.read i = if write = true ∧ pa ≤ i ∧ i < pa + n then (toBytes n data).getD (i - pa) 0 else s.mem.read i))) ∧
    (open_ → w.2 < bits a 39 0 + n → ∃ t, run = .next t ∧ t.mem = s.mem ∧
      ((s.link l).queue = [] → (s.link l).buffer.length < 1024 → (t.link l).txSeq = ((s.link l).txSeq + 1) % 1024)) := by
  intro l w pa run flits open_ held
  refine ⟨cletikRequest_closed, fun ho ha hw hpop hreg => ?_, fun ho hw => ?_⟩
  · have addr : windowAddr s p a n = some pa := if_pos ⟨ha, hw, hpop, hreg⟩
    refine ⟨fun hwr hheld => ?_, fun hnot => ?_⟩
    · have eq := cletikRequest_open (write := true) (a := a) (n := n) (data := data) hp ho
      rw [addr] at eq
      subst hwr
      exact eq.trans (congrArg Host.Outcome.next (if_pos ((rangeHeld_iff s pa n).2 hheld)))
    · cases write with
      | false =>
        obtain ⟨t, ht, hcrews, hmem, hcredits, hsent⟩ := cletikRead_spec (data := data) hp ho addr
        exact ⟨t, ht, hcrews, hsent, hcredits, fun i => by simp [hmem]⟩
      | true =>
        have free : rangeHeld s pa n = false := by
          rw [← Bool.not_eq_true, rangeHeld_iff]
          exact fun h => hnot ⟨rfl, h⟩
        obtain ⟨t, ht, hcrews, hmem, hcredits, hsent⟩ := cletikWrite_spec (data := data) hp ho addr free
        exact ⟨t, ht, hcrews, hsent, hcredits, fun i => by simp [hmem]⟩
  · have addr : windowAddr s p a n = none := if_neg fun h => absurd h.2.1 (Nat.not_le.2 hw)
    have eq := cletikRequest_open (write := write) (a := a) (n := n) (data := data) hp ho
    rw [addr] at eq
    obtain ⟨-, hmem, -, hsent⟩ := peerReply_spec s l (packetFlits (if write then n else 0)) [] ((Link.open_iff _).2 ho)
    exact ⟨_, eq, hmem, fun hq hroom => (hsent hq hroom).1⟩

end Sys2Proof.Machine
end

section
/-!
PROOF of what the host reads and writes of memory: the lines it meets leave every L1, and its snoops take one half of a line (R147, R354, R355).
-/
namespace Sys2Proof.Machine

/-! ### Lines leave every L1 (R336) -/

/-- No other core than `g` has a value of its own for byte `a`. -/
def SoleWriter (s : State) (g a : Nat) : Prop := ∀ h l, h ≠ g → (s.core h).l1.find? (lineOf a) = some l → a % 128 ∉ l.dirty

/-- The core has no value of its own for byte `a`. -/
def CleanAt (s : State) (g a : Nat) : Prop := ∀ l, (s.core g).l1.find? (lineOf a) = some l → a % 128 ∉ l.dirty

theorem CleanAt.homeByte {s : State} {g a : Nat} (h : CleanAt s g a) : homeByte s g a = s.mem.read a := by
  unfold Machine.homeByte
  split
  · next l hl => simp [h l hl]
  · rfl

theorem find?_none_of_keys {α : Type} {m : SMap α} {k : Nat} (h : k ∉ SMap.keys m) : m.find? k = none := by
  cases hf : m.find? k with
  | none => rfl
  | some x => exact absurd (List.mem_map.2 ⟨(k, x), mem_of_find? hf, rfl⟩) h

/-- Lines `ns` have left the L1s of the cores `gs`, and each byte that one core alone has written is what that core saw. -/
structure Recalled (gs : List Nat) (ns : Nat → Bool) (s t : State) : Prop where
  only : HomeOnly s t
  l1 : ∀ h n, (t.core h).l1.find? n = if h ∈ gs ∧ ns n = true then none else (s.core h).l1.find? n
  sole : ∀ g a, SoleWriter s g a → homeByte t g a = homeByte s g a
  out : ∀ a, ns (lineOf a) = false → t.mem.read a = s.mem.read a

/-- Lines that leave one core's L1. -/
theorem invalidateLines_recalled {s : State} {g : Nat} {ns : Nat → Bool}
    (hup : ∀ n l, ns n = true → (s.core g).l1.find? n = some l → l.dirty ≠ [] → pathDown s g (128 * n) = false) :
    Recalled [g] ns s (invalidateLines s g ((s.core g).l1.keys.filter ns)) := by
  have left : LinesLeft g ((s.core g).l1.keys.filter ns) s (invalidateLines s g ((s.core g).l1.keys.filter ns)) :=
    invalidateLines_left fun n hn l hl hd => hup n l (List.mem_filter.1 hn).2 hl hd
  refine ⟨left.only, fun h n => ?_, fun k a hsole => ?_, fun a ha => ?_⟩
  · by_cases hg : h = g
    · subst hg
      by_cases hn : n ∈ (s.core h).l1.keys.filter ns
      · rw [left.gone n hn, if_pos ⟨List.mem_singleton.2 rfl, (List.mem_filter.1 hn).2⟩]
      · rw [left.lines n hn]
        split
        · next hns => exact find?_none_of_keys fun hk => hn (List.mem_filter.2 ⟨hk, hns.2⟩)
        · rfl
    · rw [left.cores h hg, if_neg fun hns => hg (List.mem_singleton.1 hns.1)]
  · by_cases hk : k = g
    · subst hk
      exact left.homeByte a
    · have clean : CleanAt s g a := fun l hl => hsole g l (Ne.symm hk) hl
      have mem : (invalidateLines s g ((s.core g).l1.keys.filter ns)).mem.read a = s.mem.read a := by
        rw [left.mem, clean.homeByte, ite_self]
      unfold homeByte
      rw [left.cores k hk, mem]
  · rw [left.mem, if_neg fun hin => ?_]
    rw [(List.mem_filter.1 hin).2] at ha
    cases ha

theorem Recalled.soleWriter {gs : List Nat} {ns : Nat → Bool} {s t : State} (h : Recalled gs ns s t) {g a : Nat} (hs : SoleWriter s g a) :
    SoleWriter t g a := by
  intro k l hk hl
  rw [h.l1] at hl
  split at hl
  · cases hl
  · exact hs k l hk hl

/-- Lines leave the L1s of some cores one after the other. -/
theorem foldl_invalidateLines {ns : Nat → Bool} {s : State} (gs : List Nat)
    (hup : ∀ g n l, ns n = true → (s.core g).l1.find? n = some l → l.dirty ≠ [] → pathDown s g (128 * n) = false) :
    Recalled gs ns s (gs.foldl (fun s g => invalidateLines s g ((s.core g).l1.keys.filter ns)) s) := by
  induction gs generalizing s with
  | nil => exact ⟨.refl s, fun h n => by simp, fun _ _ _ => rfl, fun _ _ => rfl⟩
  | cons g gs ih =>
    have one := invalidateLines_recalled (s := s) (g := g) (ns := ns) (hup g)
    have rest := ih (s := invalidateLines s g ((s.core g).l1.keys.filter ns)) fun k n l hn hl hd => by
      rw [one.only.pathDown]
      rw [one.l1] at hl
      split at hl
      · cases hl
      · exact hup k n l hn hl hd
    refine ⟨one.only.trans rest.only, fun h n => ?_, fun k a hs => (rest.sole k a (one.soleWriter hs)).trans (one.sole k a hs),
      fun a ha => (rest.out a ha).trans (one.out a ha)⟩
    rw [List.foldl_cons, rest.l1, one.l1]
    by_cases hn : ns n = true
    · by_cases hg : h = g
      · simp [hg, hn]
      · simp [hg, hn]
    · simp [hn]

section
variable {s : State} {ns : Nat → Bool}
  (hup : ∀ g n l, ns n = true → (s.core g).l1.find? n = some l → l.dirty ≠ [] → pathDown s g (128 * n) = false)
include hup

/-- Lines recalled are in no L1. -/
theorem recallLines_l1 (h n : Nat) : ((recallLines s ns).core h).l1.find? n = if ns n = true then none else (s.core h).l1.find? n := by
  have all := (foldl_invalidateLines s.cores.keys hup).l1 h n
  refine all.trans ?_
  by_cases hg : h ∈ s.cores.keys
  · simp [hg]
  · have empty : (s.core h).l1.find? n = none := by
      rw [State.core, SMap.getD, find?_none_of_keys hg]
      rfl
    simp [hg, empty]

theorem recallLines_only : HomeOnly s (recallLines s ns) := (foldl_invalidateLines s.cores.keys hup).only

/-- A byte of no line recalled is as it was. -/
theorem recallLines_out {a : Nat} (hn : ns (lineOf a) = false) : (recallLines s ns).mem.read a = s.mem.read a :=
  (foldl_invalidateLines s.cores.keys hup).out a hn

/-- A byte of a line recalled that one core alone has written is in memory. -/
theorem recallLines_read {g a : Nat} (hn : ns (lineOf a) = true) (hs : SoleWriter s g a) : (recallLines s ns).mem.read a = homeByte s g a := by
  rw [← (foldl_invalidateLines s.cores.keys hup).sole g a hs]
  refine (CleanAt.homeByte fun l hl => ?_).symm
  have gone := recallLines_l1 hup g (lineOf a)
  rw [if_pos hn] at gone
  have absent : ((recallLines s ns).core g).l1.find? (lineOf a) = some l := hl
  rw [gone] at absent
  cases absent

/-- A byte that no core has written is as it was. -/
theorem recallLines_clean {a : Nat} (hc : ∀ g, CleanAt s g a) : (recallLines s ns).mem.read a = s.mem.read a := by
  rw [← (hc 0).homeByte, ← (foldl_invalidateLines s.cores.keys hup).sole 0 a fun h l _ hl => hc h l hl]
  refine (CleanAt.homeByte fun l hl => ?_).symm
  have kept := recallLines_l1 hup 0 (lineOf a)
  have here : ((recallLines s ns).core 0).l1.find? (lineOf a) = some l := hl
  rw [here] at kept
  split at kept
  · cases kept
  · exact hc 0 l kept.symm

end

/-! ### Accesses of the host (R354) -/

/-- The lines of a range. -/
def rangeLines (a n k : Nat) : Bool := decide (a / 128 ≤ k) && decide (k ≤ (a + n - 1) / 128)

theorem rangeLines_near {a n i : Nat} (h : a ≤ i ∧ i < a + n) : rangeLines a n (i / 128) = true := by
  simp only [rangeLines, Bool.and_eq_true, decide_eq_true_eq]
  omega

/-- Each line of a range has a byte of it. -/
theorem rangeLines_byte {a n k : Nat} (hn : 0 < n) (h : rangeLines a n k = true) : ∃ i, (a ≤ i ∧ i < a + n) ∧ i / 128 = k := by
  simp only [rangeLines, Bool.and_eq_true, decide_eq_true_eq] at h
  refine ⟨max a (128 * k), ?_, ?_⟩ <;> omega

theorem hostOpen_iff (s : State) (p : Nat) : hostOpen s p = true ↔ p < 2 ∧ ((s.link (96 + p)).state = .up ∨ (s.link (96 + p)).state = .degraded) := by
  rw [hostOpen, Bool.and_eq_true, decide_eq_true_eq, Link.open_iff]

section
variable {s : State} {p a n data : Nat} {write : Bool}

theorem hostMemoryAccess_refused (h : populated a n = false ∨ n = 0 ∨ (write = true ∧ rangeHeld s a n = true) ∨ (region a ≤ 1 ∧ hostOpen s p = false)) :
    exec (.hostMemoryAccess p write a n data) s = .next s := by
  have run : exec (.hostMemoryAccess p write a n data) s = execHostMemoryAccess p write a n data s := rfl
  rw [run]
  refine congrArg Host.Outcome.next (if_pos ?_)
  rcases h with h | h | ⟨h, h'⟩ | ⟨h, h'⟩
  · simp [h]
  · simp [h]
  · simp [h, h']
  · simp [h, h']

/-- An access that is made recalls its lines, and writes its bytes at home. -/
theorem hostMemoryAccess_made (hp : populated a n = true) (hn : 0 < n) (hh : ¬(write = true ∧ rangeHeld s a n = true))
    (ho : region a ≤ 1 → hostOpen s p = true) : ∃ u, HomeOnly (recallLines s (rangeLines a n)) u ∧ u.mem = (recallLines s (rangeLines a n)).mem ∧
      (∀ g, u.core g = (recallLines s (rangeLines a n)).core g) ∧
      exec (.hostMemoryAccess p write a n data) s = .next (if write then outsideWrite u a (toBytes n data) else u) := by
  have run : exec (.hostMemoryAccess p write a n data) s = execHostMemoryAccess p write a n data s := rfl
  have made : ¬(!populated a n || n == 0 || (write && rangeHeld s a n) || (decide (region a ≤ 1) && !hostOpen s p)) = true := by
    simp only [Bool.or_eq_true, Bool.and_eq_true, not_or, hp, Bool.not_true, Bool.false_eq_true, not_false_eq_true, true_and, beq_iff_eq,
      Nat.pos_iff_ne_zero.1 hn, hh, decide_eq_true_eq]
    rintro ⟨hr, hnot⟩
    rw [ho hr] at hnot
    cases hnot
  rw [run]
  by_cases hr : region a ≤ 1
  · refine ⟨noteHome (recallLines s (rangeLines a n)) a, homeOnly_noteHome .., noteHome_mem .., noteHome_core _ _, ?_⟩
    refine congrArg Host.Outcome.next ((if_neg made).trans ?_)
    simp only [if_pos hr]
    rfl
  · refine ⟨recallLines s (rangeLines a n), .refl _, rfl, fun _ => rfl, ?_⟩
    refine congrArg Host.Outcome.next ((if_neg made).trans ?_)
    simp only [if_neg hr]
    rfl

end

/-- HOST_MEMORY_ACCESS. -/
theorem hostMemoryAccess_spec (s : State) (p : Nat) (write : Bool) (a n data : Nat) : let run := exec (.hostMemoryAccess p write a n data) s
    let open_ : Prop := (s.link (96 + p)).state = .up ∨ (s.link (96 + p)).state = .degraded
    let held : Prop := ∃ e ∈ s.migs, e.2.old < a + n ∧ a < e.2.old + e.2.size
    (region a ≤ 1 → ¬(p < 2 ∧ open_) → run = .next s) ∧ (write = true → held → run = .next s) ∧
    ((region a ≤ 1 → p < 2 ∧ open_) → 0 < n → populated a n = true → ¬(write = true ∧ held) →
      (∀ g i l, a ≤ i ∧ i < a + n → (s.core g).l1.find? (i / 128) = some l → l.dirty ≠ [] → pathDown s g (128 * (i / 128)) = false) →
      ∃ t, run = .next t ∧ t.crews = s.crews ∧
      (∀ i, a ≤ i ∧ i < a + n → ∀ g, (t.core g).l1.find? (i / 128) = none) ∧
      (write = true → ∀ i, a ≤ i ∧ i < a + n → t.mem.read i = (toBytes n data).getD (i - a) 0) ∧
      (write = false → ∀ i g, a ≤ i ∧ i < a + n → SoleWriter s g i → t.mem.read i = homeByte s g i) ∧
      ∀ i, ¬(a ≤ i ∧ i < a + n) → (∀ g, CleanAt s g i) → t.mem.read i = s.mem.read i) := by
  intro run open_ held
  refine ⟨fun hr ho => ?_, fun hw hh => ?_, fun ho hn hp hh hup => ?_⟩
  · refine hostMemoryAccess_refused (.inr (.inr (.inr ⟨hr, ?_⟩)))
    rw [← Bool.not_eq_true, hostOpen_iff]
    exact ho
  · exact hostMemoryAccess_refused (.inr (.inr (.inl ⟨hw, (rangeHeld_iff s a n).2 hh⟩)))
  · obtain ⟨u, honly, hmem, hcore, hrun⟩ := hostMemoryAccess_made (s := s) (p := p) (data := data) (write := write) hp hn
      (fun h => hh ⟨h.1, (rangeHeld_iff s a n).1 h.2⟩) fun hr => (hostOpen_iff s p).2 (ho hr)
    have up (g k : Nat) (l : L1Line) (hk : rangeLines a n k = true) (hl : (s.core g).l1.find? k = some l) (hd : l.dirty ≠ []) :
        pathDown s g (128 * k) = false := by
      obtain ⟨i, hi, rfl⟩ := rangeLines_byte hn hk
      exact hup g i l hi hl hd
    have crews : u.crews = s.crews := honly.crews.trans (recallLines_only up).crews
    have gone (i : Nat) (hi : a ≤ i ∧ i < a + n) (g : Nat) : (u.core g).l1.find? (i / 128) = none := by
      rw [hcore, recallLines_l1 up, if_pos (rangeLines_near hi)]
    have cleanRead (i : Nat) (hc : ∀ g, CleanAt s g i) : u.mem.read i = s.mem.read i := by
      rw [hmem]
      exact recallLines_clean up hc
    refine ⟨_, hrun, ?_, fun i hi g => ?_, fun hw i hi => ?_, fun hw i g hi hs => ?_, fun i hi hc => ?_⟩
    · split
      · exact crews
      · exact crews
    · split
      · exact gone i hi g
      · exact gone i hi g
    · rw [if_pos hw, outsideWrite_read, toBytes_length, if_pos hi]
    · rw [hw, if_neg Bool.false_ne_true, hmem]
      exact recallLines_read up (rangeLines_near hi) hs
    · split
      · rw [outsideWrite_read, toBytes_length, if_neg hi]
        exact cleanRead i hc
      · exact cleanRead i hc

end Sys2Proof.Machine
end

section
/-!
PROOF of the host's AtomicOps and of its snoops over CXL (R147, R354, R355).
-/
namespace Sys2Proof.Machine

/-! ### AtomicOps -/

theorem ofBytes_lt (l : List Byte) : ofBytes l < 2 ^ (8 * l.length) := by
  induction l with
  | nil => exact Nat.one_pos
  | cons b l ih =>
    have low : b.toNat < 256 := b.isLt
    rw [ofBytes, List.length_cons, Nat.mul_succ, Nat.pow_add]
    omega

/-- The new value of an AtomicOp before it is cut to its width, as the statement has it. -/
def hostNew (op : HostOp) (w old data : Nat) : Nat := match op with
  | .fetchAdd => old + data
  | .swap => data
  | .cas => if old = data % w then data / w else old

theorem hostOp_apply (op : HostOp) {w old : Nat} (data : Nat) (ho : old < 2 ^ w) : HostOp.apply op w old data = hostNew op (2 ^ w) old data % 2 ^ w := by
  cases op with
  | fetchAdd => rfl
  | swap => rfl
  | cas =>
    simp only [HostOp.apply, hostNew]
    split
    · rfl
    · exact (Nat.mod_eq_of_lt ho).symm

section
variable {s : State} {p a n data : Nat} {op : HostOp} (hsize : n = 4 ∨ n = 8 ∨ (op = .cas ∧ n = 16)) (halign : a % n = 0)

theorem hostOp_size (hsize : n = 4 ∨ n = 8 ∨ (op = .cas ∧ n = 16)) : HostOp.size op n = true := by
  rcases hsize with rfl | rfl | ⟨rfl, rfl⟩
  · rfl
  · rfl
  · rfl

include hsize halign

/-- An AtomicOp lies in one line. -/
theorem hostAtomicop_line {k : Nat} (h : rangeLines a n k = true) : k = a / 128 := by
  simp only [rangeLines, Bool.and_eq_true, decide_eq_true_eq] at h
  rcases hsize with rfl | rfl | ⟨-, rfl⟩ <;> omega

variable (hpop : populated a n = true) (hreg : region a ≤ 1) (hopen : hostOpen s p = true) (hheld : rangeHeld s a n = false)
  (hl1 : ∀ g, (s.core g).l1.find? (a / 128) = none)
include hpop hreg hopen hheld hl1

/-- An AtomicOp that is made: the lines of its range leave every L1, and its new value is written. -/
theorem hostAtomicop_made : ∃ u, u.crews = s.crews ∧ (∀ i, u.mem.read i = s.mem.read i) ∧ exec (.hostAtomicop p op a n data) s =
    .next (outsideWrite u a (toBytes n (HostOp.apply op (8 * n) (u.mem.readLE a n) data))) := by
  have run : exec (.hostAtomicop p op a n data) s = execHostAtomicop p op a n data s := rfl
  have fits : ¬(!HostOp.size op n || decide (a % n ≠ 0) || !populated a n || decide (1 < region a)) = true := by
    simp [hostOp_size hsize, halign, hpop, hreg]
  have goes : ¬(!hostOpen s p || rangeHeld s a n) = true := by simp [hopen, hheld]
  have up (g k : Nat) (l : L1Line) (hk : rangeLines a n k = true) (hl : ((noteHome s a).core g).l1.find? k = some l) (_ : l.dirty ≠ []) :
      pathDown (noteHome s a) g (128 * k) = false := by
    rw [noteHome_core, hostAtomicop_line hsize halign hk, hl1] at hl
    cases hl
  refine ⟨recallLines (noteHome s a) (rangeLines a n), (recallLines_only up).crews.trans (homeOnly_noteHome s a).crews, fun i => ?_, ?_⟩
  · rw [← noteHome_mem s a]
    cases hi : rangeLines a n (lineOf i) with
    | false => exact recallLines_out up hi
    | true =>
      refine recallLines_clean up fun g l hl => ?_
      rw [noteHome_core, hostAtomicop_line hsize halign hi, hl1] at hl
      cases hl
  · rw [run]
    exact congrArg Host.Outcome.next ((if_neg fits).trans (if_neg goes))

/-- HOST_ATOMICOP at a location whose line no L1 holds. -/
theorem hostAtomicop_spec : ∃ t, exec (.hostAtomicop p op a n data) s = .next t ∧ t.crews = s.crews ∧
    (∀ i, ¬(a ≤ i ∧ i < a + n) → t.mem.read i = s.mem.read i) ∧
    ∀ old, old = ofBytes ((List.range n).map fun i => s.mem.read (a + i)) → ∀ i < n,
      t.mem.read (a + i) = (toBytes n (hostNew op (2 ^ (8 * n)) old data % 2 ^ (8 * n))).getD i 0 := by
  obtain ⟨u, hcrews, hsame, hrun⟩ := hostAtomicop_made (data := data) hsize halign hpop hreg hopen hheld hl1
  refine ⟨_, hrun, hcrews, fun i hi => ?_, fun old hold i hi => ?_⟩
  · rw [outsideWrite_read, toBytes_length, if_neg hi, hsame i]
  · have value : u.mem.readLE a n = old := by
      rw [hold, Memory.readLE, Memory.readN]
      exact congrArg ofBytes (List.map_congr_left fun j _ => hsame _)
    have small : old < 2 ^ (8 * n) := by
      rw [hold]
      refine (ofBytes_lt _).trans_eq ?_
      rw [List.length_map, List.length_range]
    rw [outsideWrite_read, toBytes_length, if_pos (by omega), value, hostOp_apply op data small, Nat.add_sub_cancel_left]

end

/-! ### Snoops over CXL (R355) -/

/-- A byte of a line, by its place in it, lies in the half that address `a` names. -/
def inHalf (a i : Nat) : Bool := decide (a % 128 / 64 * 64 ≤ i) && decide (i < a % 128 / 64 * 64 + 64)

theorem inHalf_iff (a i : Nat) : inHalf a i = true ↔ (128 * (a / 128) + i) / 64 = a / 64 := by
  simp only [inHalf, Bool.and_eq_true, decide_eq_true_eq]
  omega

/-- A line once the half that address `a` names is snooped. -/
def snooped (a : Nat) (write : Bool) (l : L1Line) : L1Line :=
  { l with
    dirty := l.dirty.filter fun i => !inHalf a i
    bytes := if write then l.bytes.filter fun e => !inHalf a e.1 else l.bytes
    filled := l.filled && !write }

theorem snooped_snooped (a : Nat) (write : Bool) (l : L1Line) : snooped a write (snooped a write l) = snooped a write l := by
  have bytes : ((l.bytes.filter fun e => !inHalf a e.1).filter fun e => !inHalf a e.1) = l.bytes.filter fun e => !inHalf a e.1 := by
    rw [List.filter_filter]
    simp only [Bool.and_self]
  have dirty : ((l.dirty.filter fun i => !inHalf a i).filter fun i => !inHalf a i) = l.dirty.filter fun i => !inHalf a i := by
    rw [List.filter_filter]
    simp only [Bool.and_self]
  cases write <;> simp [snooped, bytes, dirty]

/-- The half of a line has been snooped in the L1s of the cores `gs`. -/
structure Snooped (gs : List Nat) (a : Nat) (write : Bool) (s t : State) : Prop where
  crews : t.crews = s.crews
  l1 : ∀ h n, (t.core h).l1.find? n = if h ∈ gs ∧ n = a / 128 then ((s.core h).l1.find? n).map (snooped a write) else (s.core h).l1.find? n
  sole : ∀ g i, i / 64 = a / 64 → SoleWriter s g i → homeByte t g i = homeByte s g i
  out : ∀ i, i / 64 ≠ a / 64 → t.mem.read i = s.mem.read i

/-- The bytes of a line's half that its core has written. -/
def halfBytes (a : Nat) (l : L1Line) : List (Nat × Byte) := (l.dirty.filter (inHalf a)).map fun i => (128 * (a / 128) + i, l.bytes.getD i 0)

theorem halfBytes_read {s : State} {g a : Nat} {l : L1Line} (hl : (s.core g).l1.find? (a / 128) = some l) (i : Nat) :
    ((halfBytes a l).foldl (fun m e => m.write e.1 e.2) s.mem).read i = if i / 64 = a / 64 then homeByte s g i else s.mem.read i := by
  by_cases hi : i / 64 = a / 64
  · have line : lineOf i = a / 128 := by
      unfold lineOf
      omega
    have place : 128 * (a / 128) + i % 128 = i := by omega
    have half : inHalf a (i % 128) = true := by rw [inHalf_iff, place, hi]
    rw [if_pos hi]
    unfold homeByte
    rw [line, hl]
    dsimp only
    split
    · next hd =>
      refine foldl_write_same (fun e he hei => ?_) ⟨(128 * (a / 128) + i % 128, l.bytes.getD (i % 128) 0), ?_, place⟩ _
      · obtain ⟨j, -, rfl⟩ := List.mem_map.1 he
        have : j = i % 128 := by
          dsimp only at hei
          omega
        exact congrArg (fun j => l.bytes.getD j 0) this
      · exact List.mem_map_of_mem (List.mem_filter.2 ⟨List.contains_iff_mem.1 hd, half⟩)
    · next hd =>
      refine Memory.foldl_write_out _ _ fun e he hei => ?_
      obtain ⟨j, hj, rfl⟩ := List.mem_map.1 he
      have : j = i % 128 := by
        dsimp only at hei
        omega
      exact hd (List.contains_iff_mem.2 (this ▸ (List.mem_filter.1 hj).1))
  · rw [if_neg hi]
    refine Memory.foldl_write_out _ _ fun e he hei => hi ?_
    obtain ⟨j, hj, rfl⟩ := List.mem_map.1 he
    have half := (inHalf_iff a j).1 (List.mem_filter.1 hj).2
    dsimp only at hei
    rw [← hei, half]

theorem snoopCore_snooped (s : State) (g a : Nat) (write : Bool) : Snooped [g] a write s (snoopCore s g a write) := by
  cases hl : (s.core g).l1.find? (a / 128) with
  | none =>
    have absent : (s.core g).l1.find? (lineOf a) = none := hl
    have stays : snoopCore s g a write = s := by simp only [snoopCore, absent]
    rw [stays]
    refine ⟨rfl, fun h n => ?_, fun _ _ _ _ => rfl, fun _ _ => rfl⟩
    split
    · next hn =>
      obtain ⟨hg, rfl⟩ := hn
      obtain rfl := List.mem_singleton.1 hg
      rw [hl]
      rfl
    · rfl
  | some l =>
    have found : (s.core g).l1.find? (lineOf a) = some l := hl
    have taken : snoopCore s g a write = (writePhys s (halfBytes a l)).updCore g fun k =>
        { k with l1 := k.l1.modify (a / 128) (snooped a write) } := by
      simp only [snoopCore, found]
      rfl
    have lines (h n : Nat) : ((snoopCore s g a write).core h).l1.find? n =
        if h ∈ [g] ∧ n = a / 128 then ((s.core h).l1.find? n).map (snooped a write) else (s.core h).l1.find? n := by
      rw [taken]
      by_cases hg : h = g
      · subst hg
        rw [State.core_updCore_self]
        by_cases hn : n = a / 128
        · subst hn
          rw [if_pos ⟨List.mem_singleton.2 rfl, rfl⟩]
          exact SMap.find?_modify_self ..
        · rw [if_neg fun h => hn h.2]
          exact SMap.find?_modify_ne _ _ hn
      · rw [if_neg fun h => hg (List.mem_singleton.1 h.1), State.core_updCore_ne _ _ hg]
        rfl
    have mem (i : Nat) : (snoopCore s g a write).mem.read i = if i / 64 = a / 64 then homeByte s g i else s.mem.read i := by
      rw [taken, State.updCore_mem, writePhys_read]
      exact halfBytes_read hl i
    refine ⟨by rw [taken]; rfl, lines, fun k i hi hs => ?_, fun i hi => by rw [mem, if_neg hi]⟩
    have line : lineOf i = a / 128 := by
      unfold lineOf
      omega
    by_cases hk : k = g
    · subst hk
      rw [CleanAt.homeByte (s := snoopCore s k a write) fun l' hl' => ?_, mem, if_pos hi]
      rw [lines, if_pos ⟨List.mem_singleton.2 rfl, line⟩, line, hl] at hl'
      cases hl'
      have half : inHalf a (i % 128) = true := by rw [inHalf_iff, show 128 * (a / 128) + i % 128 = i by omega, hi]
      simp [snooped, half]
    · have clean : CleanAt s g i := fun l hl => hs g l (Ne.symm hk) hl
      unfold homeByte
      rw [lines, if_neg fun h => hk (List.mem_singleton.1 h.1), mem, if_pos hi, clean.homeByte]

theorem Snooped.soleWriter {gs : List Nat} {a : Nat} {write : Bool} {s t : State} (h : Snooped gs a write s t) {g i : Nat} (hs : SoleWriter s g i) :
    SoleWriter t g i := by
  intro k l hk hl hd
  rw [h.l1] at hl
  split at hl
  · obtain ⟨l', hl', rfl⟩ := Option.map_eq_some_iff.1 hl
    exact hs k l' hk hl' (List.mem_filter.1 hd).1
  · exact hs k l hk hl hd

theorem foldl_snoopCore (gs : List Nat) (s : State) (a : Nat) (write : Bool) :
    Snooped gs a write s (gs.foldl (fun s g => snoopCore s g a write) s) := by
  induction gs generalizing s with
  | nil => exact ⟨rfl, fun h n => by simp, fun _ _ _ _ => rfl, fun _ _ => rfl⟩
  | cons g gs ih =>
    have one := snoopCore_snooped s g a write
    have rest := ih (snoopCore s g a write)
    refine ⟨rest.crews.trans one.crews, fun h n => ?_, fun k i hi hs => (rest.sole k i hi (one.soleWriter hs)).trans (one.sole k i hi hs),
      fun i hi => (rest.out i hi).trans (one.out i hi)⟩
    rw [List.foldl_cons, rest.l1, one.l1]
    by_cases hn : n = a / 128
    · by_cases hg : h = g
      · have twice : snooped a write ∘ snooped a write = snooped a write := funext (snooped_snooped a write)
        simp [hg, hn, twice]
      · simp [hg, hn]
    · simp [hn]

/-- What a snooped line keeps. -/
theorem snooped_spec (a : Nat) (write : Bool) (l : L1Line) :
    (∀ i, i ∈ (snooped a write l).dirty ↔ i ∈ l.dirty ∧ (128 * (a / 128) + i) / 64 ≠ a / 64) ∧
    (write = false → (snooped a write l).bytes = l.bytes) ∧
    (write = true → (snooped a write l).filled = false ∧
      ∀ i, (snooped a write l).bytes.find? i = if (128 * (a / 128) + i) / 64 = a / 64 then none else l.bytes.find? i) := by
  refine ⟨fun i => ?_, fun hw => by rw [hw]; rfl, fun hw => ⟨by rw [hw]; exact Bool.and_false _, fun i => ?_⟩⟩
  · simp only [snooped, List.mem_filter, Bool.not_eq_true', ← Bool.not_eq_true, inHalf_iff, ne_eq]
  · rw [hw]
    refine (find?_filter (b := !inHalf a i) fun e _ he => by rw [he]).trans ?_
    by_cases h : (128 * (a / 128) + i) / 64 = a / 64
    · rw [if_pos h, (inHalf_iff a i).2 h]
      rfl
    · have out : inHalf a i = false := by
        rw [← Bool.not_eq_true, inHalf_iff]
        exact h
      rw [if_neg h, out]
      rfl

theorem cxlSnoop_closed {s : State} {p : Nat} (h : (s.link (96 + p)).cxl = false) (a : Nat) (write : Bool) : exec (.cxlSnoop p a write) s = .next s := by
  have run : exec (.cxlSnoop p a write) s = execCxlSnoop p a write s := rfl
  rw [run]
  exact congrArg Host.Outcome.next (if_pos (by rw [h]; rfl))

/-- CXL_SNOOP over a port that runs CXL. -/
theorem cxlSnoop_spec (s : State) (p a : Nat) (write : Bool) (ho : hostOpen s p = true) (hc : (s.link (96 + p)).cxl = true) (hr : region a = 2 + p) :
    ∃ t, exec (.cxlSnoop p a write) s = .next t ∧ t.crews = s.crews ∧
      (∀ i g, i / 64 = a / 64 → SoleWriter s g i → t.mem.read i = homeByte s g i) ∧ (∀ i, i / 64 ≠ a / 64 → t.mem.read i = s.mem.read i) ∧
      ∀ g l, (s.core g).l1.find? (a / 128) = some l → (t.core g).l1.find? (a / 128) = some (snooped a write l) := by
  have run : exec (.cxlSnoop p a write) s = execCxlSnoop p a write s := rfl
  have snoops : ¬(!(s.link (96 + p)).cxl || !hostOpen s p || decide (region a ≠ 2 + p)) = true := by simp [hc, ho, hr]
  have all := foldl_snoopCore s.cores.keys s a write
  have listed (g : Nat) (n : Nat) (l : L1Line) (hl : (s.core g).l1.find? n = some l) : g ∈ s.cores.keys := by
    by_contra hg
    rw [State.core, SMap.getD, find?_none_of_keys hg] at hl
    cases hl
  have lines (g : Nat) (l : L1Line) (hl : (s.core g).l1.find? (a / 128) = some l) :
      ((s.cores.keys.foldl (fun s g => snoopCore s g a write) s).core g).l1.find? (a / 128) = some (snooped a write l) := by
    rw [all.l1, if_pos ⟨listed g _ l hl, rfl⟩, hl]
    rfl
  refine ⟨_, run.trans (congrArg Host.Outcome.next (if_neg snoops)), all.crews, fun i g hi hs => ?_, all.out, lines⟩
  rw [← all.sole g i hi hs]
  refine (CleanAt.homeByte fun l' hl' hd => ?_).symm
  have line : lineOf i = a / 128 := by
    unfold lineOf
    omega
  rw [line] at hl'
  cases hl : (s.core g).l1.find? (a / 128) with
  | none =>
    rw [all.l1, hl] at hl'
    split at hl' <;> cases hl'
  | some l =>
    rw [lines g l hl] at hl'
    cases hl'
    exact (((snooped_spec a write l).1 _).1 hd).2 (by omega)

/-! ### The statement -/

/-- Settles O59, clause by clause: EVHEAD (`evheadWrite_idle`, `evheadWrite_waiting`), the page's reads and writes (`registerRead_spec`,
`registerWrite_spec`), resets (`packageReset_spec`, `functionLevelReset_spec`), bring-up (`bringUpStepDone_spec`), R350's table (`linkTable_spec`),
margins (`marginAlarm_spec`), flits and requests (`flitReceive_spec`, `cletikRequest_spec`), the host's accesses (`hostMemoryAccess_spec`,
`hostAtomicop_spec`) and its snoops (`cxlSnoop_spec`). -/
theorem managementLinksAndHost : Obligations.ManagementLinksAndHost := by
  unfold Obligations.ManagementLinksAndHost
  intro clean sole open_ held near stepLink mg requests fall
  refine ⟨fun s v h => evheadWrite_idle h, fun s v e c h hc hk => evheadWrite_waiting h hc hk, mstatDesignate_spec, fun s => rfl, fun s n => ⟨rfl, rfl⟩,
    fun s n hn => linkStatusRead_spec hn, registerRead_spec, fun s data spare hn => eyewordRead_spec hn, registerWrite_spec, packageReset_spec,
    functionLevelReset_spec, bringUpStepDone_spec, fun s n data spare hn => ?_, flitReceive_spec, cletikRequest_spec, hostMemoryAccess_spec,
    fun s p op a n data hp ho hpop hreg halign hsize hheld hl1 => ?_, fun s p a write h => cxlSnoop_closed h a write,
    fun s p a write hp ho hc hr => ?_⟩
  · obtain ⟨htrain, hnot, hretrain, hnotRe⟩ := linkTable_spec s n data spare hn
    exact ⟨htrain, hnot, hretrain, hnotRe, replayThreshold_spec hn, fun lane h hl hh => marginAlarm_spec hn hl hh⟩
  · have free : rangeHeld s a n = false := by
      rw [← Bool.not_eq_true, rangeHeld_iff]
      exact hheld
    obtain ⟨t, ht, hcrews, hout, hin⟩ := hostAtomicop_spec (data := data) hsize halign hpop hreg ((hostOpen_iff s p).2 ⟨hp, ho⟩) free hl1
    exact ⟨t, ht, hcrews, hout, fun old hold i hi => hin old hold i hi⟩
  · obtain ⟨t, ht, hcrews, hhalf, hout, hline⟩ := cxlSnoop_spec s p a write ((hostOpen_iff s p).2 ⟨hp, ho⟩) hc hr
    exact ⟨t, ht, hcrews, hhalf, hout, fun g l hl => ⟨_, hline g l hl, snooped_spec a write l⟩⟩

end Sys2Proof.Machine
end

section
/-!
PROOF of the atomics at issue (R159, R160, R165, R178, R179, R184 to R186): the lines that leave the L1 whatever their paths, the entry of the
store queue, and the wait for a host or peer.
-/
namespace Sys2Proof.Machine

/-! ### Lines that leave an L1, their paths up or DOWN (R150, R360) -/

/-- Lines have left: every operation and every crew is as it was, but for the discarded store that a crew remembers, and no line has come. -/
structure LinesOut (s t : State) : Prop where
  ops : t.ops = s.ops
  nextId : t.nextId = s.nextId
  crew? : ∀ c x, s.crew? c = some x → ∃ d, t.crew? c = some { x with req := { x.req with discard := d } }
  absent : ∀ g n, (s.core g).l1.find? n = none → (t.core g).l1.find? n = none

namespace LinesOut
variable {s t u : State}

theorem of_same (hops : t.ops = s.ops) (hid : t.nextId = s.nextId) (hcrews : t.crews = s.crews)
    (habsent : ∀ g n, (s.core g).l1.find? n = none → (t.core g).l1.find? n = none) : LinesOut s t :=
  ⟨hops, hid, fun c x hx => ⟨x.req.discard, (congrArg (SMap.find? · c) hcrews).trans hx⟩, habsent⟩

theorem refl (s : State) : LinesOut s s := .of_same rfl rfl rfl fun _ _ h => h

theorem trans (h : LinesOut s t) (h' : LinesOut t u) : LinesOut s u where
  ops := h'.ops.trans h.ops
  nextId := h'.nextId.trans h.nextId
  crew? c x hx := by
    obtain ⟨_, hd⟩ := h.crew? c x hx
    obtain ⟨e, he⟩ := h'.crew? c _ hd
    exact ⟨e, he⟩
  absent g n hn := h'.absent g n (h.absent g n hn)

theorem foldl {α : Type} {f : State → α → State} (hf : ∀ s a, LinesOut s (f s a)) (l : List α) (s : State) : LinesOut s (l.foldl f s) := by
  induction l generalizing s with
  | nil => exact refl s
  | cons a l ih => exact (hf s a).trans (ih _)

end LinesOut

theorem HomeOnly.nextId {s t : State} (h : HomeOnly s t) : t.nextId = s.nextId := by
  have e := congrArg State.nextId h.rest
  exact e

theorem linesOut_noteDiscard (s : State) (c va : Nat) : LinesOut s (noteDiscard s c va) where
  ops := (elsewhere_updCrew s c _).fields.2.1
  nextId := (elsewhere_updCrew s c _).fields.2.2.1
  crew? d x hx := by
    unfold noteDiscard
    by_cases hd : d = c
    · rw [hd, State.crew?_updCrew_self, ← hd, hx]
      exact ⟨_, rfl⟩
    · exact ⟨x.req.discard, (State.crew?_updCrew_ne _ _ hd).trans hx⟩
  absent g n hn := by
    rw [noteDiscard, State.core_updCrew]
    exact hn

/-- A change of one L1 that brings no line. -/
theorem linesOut_l1 (s : State) (g : Nat) {f : SMap L1Line → SMap L1Line}
    (hf : ∀ n, (s.core g).l1.find? n = none → (f (s.core g).l1).find? n = none) : LinesOut s (s.updCore g fun k => { k with l1 := f k.l1 }) := by
  refine .of_same rfl rfl rfl fun h n hn => ?_
  rw [State.core_updCore]
  split
  · next e => exact hf n (e ▸ hn)
  · exact hn

theorem linesOut_loseLine (s : State) (g n : Nat) (l : L1Line) : LinesOut s (loseLine s g n l) := by
  have counted : LinesOut s (countLost s g (128 * n)) := .of_same rfl rfl rfl fun _ _ h => h
  have noted := counted.trans (.foldl (fun s (e : Nat × Nat) => linesOut_noteDiscard s e.1 e.2) (l.dirty.filterMap l.wrote.find?) _)
  refine noted.trans (linesOut_l1 _ g (f := fun m => m.modify n fun x => { x with
    bytes := x.bytes.filter fun e => !l.dirty.contains e.1, dirty := [], wrote := [], filled := false }) fun m hm => ?_)
  by_cases hmn : n = m
  · subst hmn
    rw [SMap.find?_modify_self, hm]
    rfl
  · rw [SMap.find?_modify_ne _ _ (Ne.symm hmn), hm]

/-- A line that has left by a path that is up. -/
theorem LineLeft.linesOut {g n : Nat} {s t : State} (h : LineLeft g n s t) : LinesOut s t := by
  refine .of_same h.only.ops h.only.nextId h.only.crews fun k m hm => ?_
  by_cases hk : k = g
  · subst hk
    by_cases hmn : m = n
    · exact hmn ▸ h.gone
    · exact (h.lines m hmn).trans hm
  · rw [h.cores k hk]
    exact hm

/-- A line leaves: its bytes go home, or are lost where its path is DOWN. -/
theorem evictLine_out (s : State) (g n : Nat) : LinesOut s (evictLine s g n) ∧ ((evictLine s g n).core g).l1.find? n = none := by
  by_cases hup : ∀ l, (s.core g).l1.find? n = some l → l.dirty ≠ [] → pathDown s g (128 * n) = false
  · have left := evictLine_left hup
    exact ⟨left.linesOut, left.gone⟩
  · obtain ⟨l, hl, hd, hdown⟩ : ∃ l, (s.core g).l1.find? n = some l ∧ l.dirty ≠ [] ∧ pathDown s g (128 * n) = true := by
      simpa using hup
    have some : l.dirty.isEmpty = false := by simpa using hd
    have lost : evictLine s g n = untrack ((loseLine s g n l).updCore g fun k => { k with l1 := k.l1.erase n }) g l.obj := by
      simp only [evictLine, writeBack, hl, some, hdown, Bool.false_eq_true, if_false, if_true]
    obtain ⟨honly, hcore, -⟩ := untrack_only ((loseLine s g n l).updCore g fun k => { k with l1 := k.l1.erase n }) g l.obj
    rw [lost]
    constructor
    · refine ((linesOut_loseLine s g n l).trans (linesOut_l1 _ g (f := (·.erase n)) fun m hm => ?_)).trans
        (.of_same honly.ops honly.nextId honly.crews fun k m hm => (congrArg (fun k : Core => k.l1.find? m) (hcore k)).trans hm)
      by_cases hmn : m = n
      · rw [hmn, SMap.find?_erase_self]
      · rw [SMap.find?_erase_ne _ hmn, hm]
    · rw [hcore, State.core_updCore_self]
      exact SMap.find?_erase_self _ _

theorem invalidateLines_out (g : Nat) (ns : List Nat) (s : State) :
    LinesOut s (invalidateLines s g ns) ∧ ∀ n ∈ ns, ((invalidateLines s g ns).core g).l1.find? n = none := by
  induction ns generalizing s with
  | nil => exact ⟨.refl s, nofun⟩
  | cons n ns ih =>
    obtain ⟨one, gone⟩ := evictLine_out s g n
    obtain ⟨rest, others⟩ := ih (evictLine s g n)
    refine ⟨one.trans rest, fun k hk => ?_⟩
    rcases List.mem_cons.1 hk with rfl | hk
    · exact rest.absent g k gone
    · exact others k hk

/-! ### The entry that an effect puts into the queue, whatever else it has done -/

/-- The entry is the last of the queue, its operation is in flight under the tag, and no core has changed. -/
theorem giveEntry_fields {i : Instr} {s a : State} {x z : Crew} (hz : a.crew? s.cur = some z) (hn : a.nextId = s.nextId) (dst : Option Reg)
    (ret : AtomRet) (q : SqKind) : let t := giveEntry (issOf i s x) a dst ret q
    t.crew? s.cur = some { allocTag z i.hdr.tag.toNat ⟨some s.nextId, i.hdr.look.toNat, {}, dstRegs i, false⟩ with
        sq := z.sq ++ [⟨q, s.nextId⟩] } ∧
      t.op? s.nextId = some ⟨s.cur, i.hdr.tag.toNat, x.bank, x.ctl.em, .queued dst ret⟩ ∧ ∀ g, t.core g = a.core g := by
  obtain ⟨hcrew, hop, -, -, hrest⟩ := giveOp_fields (i := i) (x := x) hz hn (.queued dst ret)
  have cores : (giveOp (issOf i s x) a (.queued dst ret)).cores = a.cores := by
    have e := congrArg State.cores hrest
    exact e
  refine ⟨(State.crew?_updCrew_self _ s.cur _).trans ?_, (State.op?_updCrew ..).trans hop, fun g => ?_⟩
  · rw [hcrew, hn]
    rfl
  · exact (State.core_updCrew ..).trans (congrArg (SMap.getD · g Core.empty) cores)

/-! ### The effect of an atomic -/

/-- The root complex of a host's port cannot complete the operation at a place (R185, R354). -/
def rootRefuses (s : State) (op : RmwOp) (w : Nat) : Place → Bool
  | .glob pa _ m => m == .noncoherent && !hostAtomicOk (atomicSizes s pa) op w
  | _ => false

/-- What an atomic asks the checks of R163. -/
def atomRequest (s : State) (win : Bool) (op : RmwOp) (w : Nat) (eas : List (Nat × Nat)) : Req :=
  { request (if win then 1 else 0) (w / 8) true eas with atomic := rootRefuses s op w }

/-- The entry of an atomic. -/
def atomEntry (pc : DWord) (op : RmwOp) (w : Nat) (mm : MemMods) (accs : List LaneAcc) (data : Nat → Nat) : SqKind :=
  .atomic { op := op, width := w, lanes := accs.map fun a => (a, data a.lane), ord := mm.ord.toNat, scope := mm.scope.toNat, pc := pc }

/-- Nothing stands in the way of a release at SYSTEM scope before the checks. -/
theorem sysWait_free {i : Instr} {s a : State} {x z : Crew} (hz : a.crew? s.cur = some z) (hsq : z.sq = x.sq) {ord scope : Nat}
    (h : sysFree x ord scope) (h2 : 2 ≤ ord) : sysWait (issOf i s x) a ord scope = none := by
  unfold sysWait
  split
  · next hs =>
    have empty : z.sq = [] := by
      rcases h with h | h | h
      · omega
      · exact absurd hs.1 h
      · exact hsq.trans h.1
    have e : a.crew? (issOf i s x).c = some z := hz
    simp [e, empty]
  · rfl

/-- With its checks passed an atomic's lines leave the L1 and it takes its place in the queue; its crew waits where it goes to a host or peer. -/
theorem atomicForm_passes {i : Iss} {s : State} {win : Bool} {op : RmwOp} {w : Nat} {d : Reg} {ret : AtomRet} {mm : MemMods}
    {l : List (Nat × Nat)} {data : Nat → Nat} {accs : List LaneAcc} (hl : l ≠ []) (room : queueFull i.x = false)
    (wait : (if mm.ord.toNat ≥ 2 then sysWait i s 2 mm.scope.toNat else none) = none)
    (ok : checkAccess s i.x (atomRequest s win op w l) = .ok accs)
    (release : (if mm.ord.toNat ≥ 2 then sysRelease i s 2 mm.scope.toNat else none) = none) :
    let t := invalidateLines s i.g (atomLines accs)
    let u := giveEntry i t (some d) ret (atomEntry i.pc op w mm accs data)
    atomicForm i s win op w d ret mm l data = .done (if hostPlaces accs then toWaiting u i.c (.ops [t.nextId]) else u) := by
  unfold atomicForm
  split
  · exact absurd rfl hl
  simp only [room, Bool.false_eq_true, if_false]
  split
  · next hw => exact absurd (wait.symm.trans hw) nofun
  · next he => exact absurd (ok.symm.trans he) nofun
  · next hok =>
    cases ok.symm.trans hok
    rw [release]
    rfl

/-- The state that an atomic leaves behind its checks: its lines gone, its entry the last of the queue. -/
def atomQueued (i : Instr) (s : State) (x : Crew) (accs : List LaneAcc) (d : Reg) (ret : AtomRet) (q : SqKind) : State :=
  giveEntry (issOf i s x) (invalidateLines (issued i s x) x.seat.core (atomLines accs)) (some d) ret q

section
variable {i : Instr} {s : State} {x : Crew} (h : Ready i s x)
include h

theorem atomRequest_issued (win : Bool) (op : RmwOp) (w : Nat) (eas : List (Nat × Nat)) :
    atomRequest (issued i s x) win op w eas = atomRequest s win op w eas := by
  have mg : (issued i s x).mg = s.mg := by
    have e := congrArg State.mg (issued_else h).tables
    exact e
  have sizes : atomicSizes (issued i s x) = atomicSizes s := by
    funext pa
    simp only [atomicSizes, mg]
  have refuses : rootRefuses (issued i s x) op w = rootRefuses s op w := by
    funext p
    cases p <;> simp only [rootRefuses, sizes]
  rw [atomRequest, refuses]
  rfl

variable {win : Bool} {op : RmwOp} {w : Nat} {d : Reg} {ret : AtomRet} {mm : MemMods} {eas : List (Nat × Nat)} {data : Nat → Nat}
  {eff : Iss → State → Effect} (he : exec i s = run i eff s)
  (hd : eff (issOf i s x) (issued i s x) = atomicForm (issOf i s x) (issued i s x) win op w d ret mm eas data)
include he hd

theorem atomic_waits (hne : eas ≠ []) (hfull : 32 ≤ x.sq.length) : exec i s = .next (toWaiting (useLines s s.cur x i) s.cur .queueSpace) := by
  obtain ⟨e, l, rfl⟩ := List.exists_cons_of_ne_nil hne
  have full : queueFull (issOf i s x).x = true := decide_eq_true hfull
  have effect : eff (issOf i s x) (issued i s x) = .wait .queueSpace := by
    rw [hd, atomicForm, full]
    · rfl
    · exact List.cons_ne_nil e l
  rw [he, run, issue_ready h (own := noReason) rfl, effect]

variable {accs : List LaneAcc} (hne : eas ≠ []) (hroom : x.sq.length < 32) (hfree : sysFree x mm.ord.toNat mm.scope.toNat)
  (hok : checkAccess s x (atomRequest s win op w eas) = .ok accs)
include hne hroom hfree hok

omit he in
theorem atomic_effect : eff (issOf i s x) (issued i s x) =
    .done (if hostPlaces accs then toWaiting (atomQueued i s x accs d ret (atomEntry x.ctl.pc op w mm accs data)) s.cur (.ops [s.nextId])
      else atomQueued i s x accs d ret (atomEntry x.ctl.pc op w mm accs data)) := by
  obtain ⟨e, l, rfl⟩ := List.exists_cons_of_ne_nil hne
  have room : queueFull (issOf i s x).x = false := decide_eq_false (by simpa [issOf] using hroom)
  have ok : checkAccess (issued i s x) (issOf i s x).x (atomRequest (issued i s x) win op w (e :: l)) = .ok accs := by
    rw [atomRequest_issued h]
    exact (checkAccess_elsewhere (issued_else h) _ _).trans hok
  have free2 (h2 : mm.ord.toNat ≥ 2) : sysFree x 2 mm.scope.toNat := hfree.imp (fun h => by omega) id
  have wait : (if mm.ord.toNat ≥ 2 then sysWait (issOf i s x) (issued i s x) 2 mm.scope.toNat else none) = none := by
    split
    · next h2 => exact sysWait_free (x := x) (issued_crew h) rfl (free2 h2) (Nat.le_refl 2)
    · rfl
  have release : (if mm.ord.toNat ≥ 2 then sysRelease (issOf i s x) (issued i s x) 2 mm.scope.toNat else none) = none := by
    split
    · next h2 => exact sysRelease_free (x := x) (issued_crew h) rfl rfl (free2 h2) (by decide)
    · rfl
  have out := (invalidateLines_out x.seat.core (atomLines accs) (issued i s x)).1
  have name : (invalidateLines (issued i s x) (issOf i s x).g (atomLines accs)).nextId = s.nextId := out.nextId.trans (issued_nextId h)
  rw [hd, atomicForm_passes hne room wait ok release, name]
  rfl

/-- Its crew goes on, or waits for it; the entry is queued and nothing performed, and its lines have left the L1. -/
theorem atomic_runs : ∃ t y, exec i s = .next t ∧ t.crew? s.cur = some y ∧ y.rf = x.rf ∧ y.ctl = nextPc x ∧
    y.sq = x.sq ++ [⟨atomEntry x.ctl.pc op w mm accs data, s.nextId⟩] ∧
    t.op? s.nextId = some ⟨s.cur, i.hdr.tag.toNat, x.bank, x.ctl.em, .queued (some d) ret⟩ ∧
    (∀ n ∈ atomLines accs, (t.core x.seat.core).l1.find? n = none) ∧
    (hostPlaces accs = true → y.state = .waiting ∧ y.wait = .ops [s.nextId]) := by
  obtain ⟨out, gone⟩ := invalidateLines_out x.seat.core (atomLines accs) (issued i s x)
  obtain ⟨r, hz⟩ := out.crew? s.cur _ (issued_crew h)
  obtain ⟨hcrew, hop, hcore⟩ := giveEntry_fields (i := i) (x := x) hz (out.nextId.trans (issued_nextId h)) (some d) ret
    (atomEntry x.ctl.pc op w mm accs data)
  obtain ⟨hy, helse, -, -⟩ := goesOn_spec hcrew h.1.2.1 (hostPlaces accs) i.hdr.yield [s.nextId]
  have issues : exec i s = .next (afterYield (if hostPlaces accs then
      toWaiting (atomQueued i s x accs d ret (atomEntry x.ctl.pc op w mm accs data)) s.cur (.ops [s.nextId])
    else atomQueued i s x accs d ret (atomEntry x.ctl.pc op w mm accs data)) s.cur i.hdr.yield) := by
    rw [he, run, issue_ready h (own := noReason) rfl, atomic_effect h hd hne hroom hfree hok]
  refine ⟨_, _, issues, hy, ?_, ?_, ?_, ?_, fun n hn => ?_, fun hp => ?_⟩
  · split <;> rfl
  · split <;> rfl
  · split <;> rfl
  · exact (congrArg (SMap.find? · s.nextId) helse.fields.2.1).trans hop
  · refine (congrArg (SMap.find? · n) (helse.core_l1 _)).trans ?_
    rw [hcore]
    exact gone n hn
  · rw [if_pos hp]
    exact ⟨rfl, rfl⟩

/-- Where the L1 held none of its lines and it goes to no host or peer, nothing else has changed. -/
theorem atomic_queues (habsent : ∀ n ∈ atomLines accs, (s.core x.seat.core).l1.find? n = none) (hnear : hostPlaces accs = false) :
    Queues i s x (some d) ret (atomEntry x.ctl.pc op w mm accs data) := by
  have stays : invalidateLines (issued i s x) x.seat.core (atomLines accs) = issued i s x :=
    invalidateLines_absent fun n hn => by rw [(issued_else h).core_l1]; exact habsent n hn
  refine queues_of h (own := noReason) rfl he ?_
  rw [atomic_effect h hd hne hroom hfree hok, hnear, if_neg Bool.false_ne_true, atomQueued, stays]

end

/-- An atomic is what R165, R178 and R186 say. -/
theorem atomics_of {i : Instr} {s : State} {x : Crew} (h : Ready i s x) {win : Bool} {op : RmwOp} {w : Nat} {d : Reg} {ret : AtomRet} {mm : MemMods}
    {eas : List (Nat × Nat)} {data : Nat → Nat} {eff : Iss → State → Effect} (he : exec i s = run i eff s)
    (hd : eff (issOf i s x) (issued i s x) = atomicForm (issOf i s x) (issued i s x) win op w d ret mm eas data) :
    Atomics i s x win op w d ret mm eas data :=
  fun hne => ⟨atomic_waits h he hd hne, fun _ hroom hfree hok =>
    ⟨atomic_queues h he hd hne hroom hfree hok, atomic_runs h he hd hne hroom hfree hok⟩⟩

/-- An atomic of no lane is what R161 says. -/
theorem atomic_noLanes {i : Instr} {s : State} {x : Crew} (h : Ready i s x) {win : Bool} {op : RmwOp} {w : Nat} {d : Reg} {ret : AtomRet}
    {mm : MemMods} {eas : List (Nat × Nat)} {data : Nat → Nat} {eff : Iss → State → Effect} (he : exec i s = run i eff s)
    (hd : eff (issOf i s x) (issued i s x) = atomicForm (issOf i s x) (issued i s x) win op w d ret mm eas data) (hn : eas = []) :
    NoLanes i s x mm := by
  subst hn
  exact noLanes_of h he hd

/-! ### The addresses and operands of each form -/

/-- The bits of an atomic's address (R160). -/
theorem spaceBits_atomic (win : Bool) : spaceBits (if win then 1 else 0) = if win then 32 else 64 := by
  cases win <;> rfl

/-- A vector atomic, by its addresses. -/
theorem vecAtomic_of {i : Instr} {s : State} {x : Crew} (h : Ready i s x) {win : Bool} {op : RmwOp} {w : Nat} {d : Reg} {ret : AtomRet} {mm : MemMods}
    {a b : Reg} {sh : Nat} {data : Nat → Nat} {eff : Iss → State → Effect} (he : exec i s = run i eff s)
    (hd : eff (issOf i s x) (issued i s x) = atomicForm (issOf i s x) (issued i s x) win op w d ret mm
      (vecAddrs (issOf i s x) (issued i s x) (if win then 1 else 0) a b sh) data) :
    Atomics i s x win op w d ret mm (laneEas s x (if win then 32 else 64) a b sh) data ∧ (x.ctl.em = 0 → NoLanes i s x mm) := by
  rw [vecAddrs_issued h, spaceBits_atomic] at hd
  exact ⟨atomics_of h he hd, fun hem => atomic_noLanes h he hd (laneEas_none hem ..)⟩

theorem satomData_issued {i : Instr} {s : State} {x : Crew} (h : Ready i s x) (w n : Nat) (r : Reg) :
    satomData (issOf i s x) (issued i s x) w n r = satomData (issOf i s x) s w n r := by
  simp only [satomData, scalarAt_issued h]

/-- Settles O35: each form by its addresses and operands. -/
theorem atomicsQueue : Obligations.AtomicsQueue := by
  unfold Obligations.AtomicsQueue
  refine ⟨fun h o s x hr => vecAtomic_of hr rfl rfl, fun h o s x hr => ?cas, fun h o s x hr => vecAtomic_of hr rfl rfl,
    fun h o s x hr => vecAtomic_of hr rfl rfl, fun h o s x hr => ?fmaxr, fun h o s x hr => ?satom⟩
  case cas =>
    have bytes : 8 * o.ty.bytes / 4 = 2 * o.ty.bytes := by omega
    have atomics := vecAtomic_of hr (i := .atomCas h o) rfl rfl
    rw [bytes] at atomics
    exact atomics
  case fmaxr =>
    obtain ⟨upd, sh, win, d, a, b, mm⟩ := o
    cases upd with
    | some c =>
      obtain ⟨runs, skips⟩ := vecAtomic_of hr (i := .atomFmaxr h ⟨some c, sh, win, d, a, b, mm⟩) rfl rfl
      exact ⟨fun _ hc => Option.some.inj hc ▸ runs, nofun, skips⟩
    | none =>
      obtain ⟨runs, skips⟩ := vecAtomic_of hr (i := .atomFmaxr h ⟨none, sh, win, d, a, b, mm⟩) rfl rfl
      exact ⟨nofun, fun _ => runs, skips⟩
  case satom =>
    have atomics := atomics_of hr (i := .satom h o) rfl rfl
    rw [scalarAddr_issued hr, spaceBits_atomic] at atomics
    simp only [satomData_issued hr] at atomics
    exact atomics

end Sys2Proof.Machine
end

section
/-!
PROOF of what a tile instruction finds and leaves at issue (R163, R212, R214, R219): its entries, the bytes it reads, and the operation in flight.
-/
namespace Sys2Proof.Machine

/-! ### The entries a crew owns (R214) -/

/-- Entry `n` of the crew's core is `t`, and is its group's own; a register tile's is the crew's own. -/
def Owns (s : State) (x : Crew) (n : Nat) (t : Tile) : Prop :=
  s.tile? x.seat.core n = some t ∧ t.group = x.seat.group ∧ (t.space = 2 → t.crew = some s.cur)

section
variable {i : Instr} {s : State} {x : Crew} (h : Ready i s x)
include h

theorem tile?_issued (g n : Nat) : (issued i s x).tile? g n = s.tile? g n := by
  unfold State.tile?
  rw [issued_core]
  by_cases hg : g = x.seat.core
  · obtain ⟨rc, hrc⟩ := useLines_core h.lines
    rw [hg, hrc]
  · rw [useLines_core_ne h.lines hg]

theorem ownedTile_issued {n : Nat} {t : Tile} : ownedTile (issOf i s x) (issued i s x) n = some t ↔ Owns s x n t := by
  have entry : (issued i s x).tile? (issOf i s x).g n = s.tile? x.seat.core n := tile?_issued h _ _
  rw [ownedTile, entry, Option.filter_eq_some_iff, Owns]
  refine and_congr_right fun _ => ?_
  by_cases h2 : t.space = 2 <;> simp [h2, issOf]

theorem ownedTile_lacks {n : Nat} (hn : ∀ t, ¬Owns s x n t) : ownedTile (issOf i s x) (issued i s x) n = none :=
  Option.eq_none_iff_forall_ne_some.2 fun t ht => hn t ((ownedTile_issued h).1 ht)

/-! ### The bytes read (R140, R165) -/

theorem readByte_issued (p : Place) : readByte (issued i s x) x p = readByte s x p := by
  obtain ⟨-, -, -, hmem, -⟩ := (issued_else h).fields
  have seen : seenByte (issued i s x) x.seat.core p = seenByte s x.seat.core p := by
    cases p with
    | glob => simp only [seenByte, l1Byte?, (issued_else h).core_l1, hmem]
    | win => simp only [seenByte, (issued_else h).arr]
    | scr c => simp only [seenByte, placeByte, ((issued_else h).core_access c).2.2]
  rw [readByte, readByte, seen]

theorem checkTile_issued (t : Tile) (write : Bool) : checkTile (issOf i s x) (issued i s x) t write = checkTile (issOf i s x) s t write := by
  simp only [checkTile, checkAccess_elsewhere (issued_else h)]

end

/-- Places whose bytes can be read at once: none in the queue as an atomic's, none poisoned, refused, injected or in a busy array. -/
def PlainPlaces (s : State) (x : Crew) (ps : List Place) : Prop :=
  queueBlocks x ps = [] ∧ (∀ p ∈ ps, placeBad s x.seat.core p = false) ∧ (∀ pa va m, .glob pa va m ∈ ps → m.cached = true) ∧
    ∀ g a o, .win g a o ∈ ps → (s.arr g a).flips = [] ∧ (s.arr g a).state.busy = false

theorem PlainPlaces.issued {i : Instr} {s : State} {x : Crew} {ps : List Place} (hp : PlainPlaces s x ps) (h : Ready i s x) :
    PlainPlaces (Machine.issued i s x) x ps := by
  obtain ⟨hq, hbad, hcached, hwin⟩ := hp
  refine ⟨hq, fun p hp => (placeBad_issued h _ _).trans (hbad p hp), hcached, fun g a o hp => ?_⟩
  rw [(issued_else h).arr]
  exact hwin g a o hp

/-- A byte of a memory that the L1 does not hold. -/
def uncachedPlace : Place → Bool
  | .glob _ _ map => !map.cached
  | _ => false

/-- A byte of an array that answers with zeros. -/
def busyPlace (s : State) : Place → Bool
  | .win c a _ => (s.arr c a).state.busy
  | _ => false

/-- A byte that raises DATA_ERROR under the answer `f` of such a memory. -/
def spoiltPlace (s : State) (i : Iss) (f : Nat) (p : Place) : Bool :=
  (queueByte? i.x p).isNone && (placeBad s i.g p || (uncachedPlace p && f.testBit 0))

theorem readAccess_eq (i : Iss) (s : State) (accs : List LaneAcc) : readAccess i s accs =
    match queueBlocks i.x (accs.flatMap (·.at_)) with
    | o :: os => .error (.wait (.ops (o :: os)))
    | [] =>
      let (f, s) := if (accs.flatMap (·.at_)).any uncachedPlace then s.freeValue else (0, s)
      match accs.filter fun a => a.at_.any (spoiltPlace s i f) with
      | a :: as => .error (.trap ⟨0x0F, lanesMask ((a :: as).map (·.lane)).eraseDups, BitVec.ofNat 64 (as.foldl (fun m b => min m b.ea) a.ea)⟩)
      | [] => .ok ((accs.flatMap (·.at_)).map (readByte s i.x), (accs.flatMap (·.at_)).any (busyPlace s),
          readBanks (if (accs.flatMap (·.at_)).any (busyPlace s) then setBusy s i.c 1 else s) (accs.flatMap (·.at_))) := by
  rfl

/-- Such places are read as they are. -/
theorem readAccess_plain {k : Iss} {s : State} {accs : List LaneAcc} (h : PlainPlaces s k.x (accs.flatMap (·.at_))) :
    readAccess k s accs = .ok ((accs.flatMap (·.at_)).map (readByte s k.x), false, s) := by
  obtain ⟨hq, hbad, hcached, hwin⟩ := h
  have near : (accs.flatMap (·.at_)).any uncachedPlace = false := List.any_eq_false.2 fun p hp => by
    cases p with
    | glob pa va m => simp [uncachedPlace, hcached pa va m hp]
    | _ => exact Bool.false_ne_true
  have idle : (accs.flatMap (·.at_)).any (busyPlace s) = false := List.any_eq_false.2 fun p hp => by
    cases p with
    | win g a o => simp [busyPlace, (hwin g a o hp).2]
    | _ => exact Bool.false_ne_true
  have good : (accs.filter fun a => a.at_.any (spoiltPlace s k 0)) = [] := List.filter_eq_nil_iff.2 fun a ha hany => by
    obtain ⟨p, hp, hs⟩ := List.any_eq_true.1 hany
    have sound : placeBad s k.g p = false := hbad p (List.mem_flatMap.2 ⟨a, ha, hp⟩)
    simp [spoiltPlace, sound] at hs
  have banks : readBanks s (accs.flatMap (·.at_)) = s := readBanks_clean fun g a o hp => (hwin g a o hp).1
  rw [readAccess_eq, hq, near]
  simp only [Bool.false_eq_true, if_false, good, idle, banks]

/-! ### Registers that no outstanding tag writes (R88) -/

/-- What an instruction has at issue that writes registers `regs` besides those its operands name. -/
def issAlso (i : Instr) (s : State) (x : Crew) (regs : List Nat) : Iss :=
  { issOf i s x with dst := dstRegs i ++ regs.map fun r => (true, r) }

/-- Where no outstanding tag writes them, registers are taken without a wait. -/
theorem overlapCommit_clear {i : Instr} {s : State} {x : Crew} (h : Ready i s x) {regs : List Nat}
    (hclear : ∀ e ∈ x.tags, e.2.deferred = true ∨ ∀ r ∈ e.2.dst, r.1 = true → r.2 ∉ regs) :
    overlapCommit (issOf i s x) (issued i s x) regs = .ok (issAlso i s x regs, issued i s x) := by
  have none : ((issuedCrew s x).tags.filter fun e => !e.2.deferred && e.2.dst.any fun r => r.1 && regs.contains r.2) = [] := by
    have tags : (issuedCrew s x).tags = x.tags.map fun e => (e.1, counted e.2) := rfl
    rw [tags, List.filter_map, List.map_eq_nil_iff]
    refine List.filter_eq_nil_iff.2 fun e he hp => ?_
    have same : (counted e.2).deferred = e.2.deferred ∧ (counted e.2).dst = e.2.dst := by
      unfold counted
      split <;> exact ⟨rfl, rfl⟩
    simp only [Function.comp_apply, same, Bool.and_eq_true, Bool.not_eq_true', List.any_eq_true, List.contains_iff_mem] at hp
    obtain ⟨live, r, hr, hr1, hr2⟩ := hp
    exact (hclear e he).elim (by simp [live]) fun hn => hn r hr hr1 hr2
  have crew : (issued i s x).crew? (issOf i s x).c = some (issuedCrew s x) := issued_crew h
  simp only [overlapCommit, crew, none, List.filterMap_nil, SMap.keys, List.map_nil, commitTags]
  rfl

/-! ### The operation of a tile instruction -/

/-- A scalar result holds no end of a matrix instruction. -/
theorem heldScalar_mat (bank : Bool) (d : Reg) (v : DWord) : (heldScalar bank d v).mat = none := by
  cases d <;> rfl

/-- An operation given under whatever destinations: it is in flight under its name, and its crew has its tag. -/
theorem giveOp_with (k : Iss) {a : State} {z : Crew} (hz : a.crew? k.c = some z) (kind : OpKind) : let t := giveOp k a kind
    t.crew? k.c = some (allocTag z k.h.tag.toNat ⟨some a.nextId, k.h.look.toNat, {}, k.dst, false⟩) ∧
      t.op? a.nextId = some ⟨k.c, k.h.tag.toNat, k.bank, k.em, kind⟩ ∧ (∀ o, o ≠ a.nextId → t.op? o = a.op? o) ∧
      (∀ d, d ≠ k.c → t.crew? d = a.crew? d) ∧ t.mem = a.mem := by
  refine ⟨?_, ?_, fun o ho => ?_, fun d hd => ?_, ?_⟩
  · exact (State.crew?_updCrew_self ..).trans (congrArg _ hz)
  · exact (State.op?_updCrew ..).trans (State.op?_setOp_self ..)
  · exact (State.op?_updCrew ..).trans (State.op?_setOp_ne _ _ ho)
  · exact State.crew?_updCrew_ne _ _ hd
  · exact State.updCrew_mem ..

/-- The entry of the store queue that a memory tile's bytes take, if there are any. -/
def tileEntry (bytes : List (Place × Byte)) (ch o : Nat) : List SqEntry := if bytes.isEmpty then [] else [⟨.tile bytes ch, o⟩]

theorem tileEntry_of_ne {bytes : List (Place × Byte)} (h : bytes ≠ []) (ch o : Nat) : tileEntry bytes ch o = [⟨.tile bytes ch, o⟩] :=
  if_neg (by simpa using h)

/-- A tile instruction whose effect is `giveTile`: its operation is in flight under its tag, its bytes queued, and no register, byte of memory,
other crew or operation has changed. `k` is the instruction, perhaps with more destinations. -/
theorem giveTile_runs {i : Instr} {s : State} {x : Crew} (h : Ready i s x) {eff : Iss → State → Effect} (he : exec i s = run i eff s)
    {dst : List (Bool × Nat)} {copy : Bool} {v : TileEnd} {bytes : List (Place × Byte)} {ch : Nat}
    (hd : eff (issOf i s x) (issued i s x) = giveTile { issOf i s x with dst := dst } (issued i s x) copy v bytes ch) :
    ∃ t y, exec i s = .next t ∧ t.crew? s.cur = some y ∧ y.rf = x.rf ∧ y.ctl = nextPc x ∧ y.sq = x.sq ++ tileEntry bytes ch s.nextId ∧
      t.mem = s.mem ∧ OthersKept s t ∧
      t.op? s.nextId = some ⟨s.cur, i.hdr.tag.toNat, x.bank, x.ctl.em, if copy then .tileCopy v else .tileInstr v⟩ ∧
      y.tags.find? i.hdr.tag.toNat = some ⟨some s.nextId, i.hdr.look.toNat, {}, dst, false⟩ := by
  let k : OpKind := if copy then .tileCopy v else .tileInstr v
  let b := giveOp { issOf i s x with dst := dst } (issued i s x) k
  obtain ⟨hz, hop, hops, hcrews, hmem⟩ := giveOp_with { issOf i s x with dst := dst } (issued_crew h) k
  rw [issued_nextId h] at hz hop hops
  let t := if bytes.isEmpty then b else b.updCrew s.cur fun x => { x with sq := x.sq ++ [⟨.tile bytes ch, s.nextId⟩] }
  have helse : Elsewhere s.cur b t := by
    unfold t
    split
    · exact .refl _ _
    · exact elsewhere_updCrew ..
  have ht : t.crew? s.cur = some { allocTag (issuedCrew s x) i.hdr.tag.toNat ⟨some s.nextId, i.hdr.look.toNat, {}, dst, false⟩ with
      sq := x.sq ++ tileEntry bytes ch s.nextId } := by
    unfold t tileEntry
    split
    · rw [List.append_nil]
      exact hz
    · exact (State.crew?_updCrew_self ..).trans (congrArg _ hz)
  have effect : eff (issOf i s x) (issued i s x) = .done t := by
    rw [hd, giveTile, issued_nextId h]
    rfl
  have all := helse.trans (elsewhere_afterYield t s.cur i.hdr.yield)
  obtain ⟨-, hops', -, hmem', -⟩ := all.fields
  refine ⟨_, _, by rw [he, run, issue_ready h (own := noReason) rfl, effect], crew?_afterYield ht h.1.2.1 _, rfl, rfl, rfl,
    hmem'.trans (hmem.trans (issued_else h).fields.2.2.2.1), ⟨fun d hd => ?_, fun o ho => ?_⟩, ?_, allocTag_find_self ..⟩
  · exact (all.crews d hd).trans ((hcrews d hd).trans ((issued_else h).crews d hd))
  · exact (congrArg (SMap.find? · o) hops').trans ((hops o ho).trans (congrArg (SMap.find? · o) (issued_ops h)))
  · exact (congrArg (SMap.find? · s.nextId) hops').trans hop

end Sys2Proof.Machine
end

section
/-!
PROOF of the checked copies of a tile, TLDM and TSTM, at issue (R163, R171, R172).
-/
namespace Sys2Proof.Machine

/-! ### The entries of a copy -/

/-- The number of a tile entry that a scalar source names. -/
def tileNo (s : State) (x : Crew) (r : Reg) : Nat := (srcS s x r).toNat % 256

/-- Two tiles have the same shape and format. -/
def SameShape (a b : Tile) : Prop := a.rows = b.rows ∧ a.cols = b.cols ∧ a.fmt = b.fmt

section
variable {i : Instr} {s : State} {x : Crew} (h : Ready i s x) (o : TileCopy)
include h

/-- A source that is not the group's own stops a copy, whatever its destination. -/
theorem copyTiles_lacks (hn : ∀ t, ¬Owns s x (tileNo s x o.b) t) (store : Bool) : copyTiles (issOf i s x) (issued i s x) o store =
    .error (.trap ⟨0x0F, 1, BitVec.ofNat 64 (tileNo s x o.b)⟩) := by
  have none : ownedTile (issOf i s x) (issued i s x) ((srcS s x o.b).toNat % 256) = none := ownedTile_lacks h hn
  simp only [copyTiles, scalarN_issued h, none]
  rfl

variable {o}

/-- Two entries of the group's own, of one shape and format, one in registers and the other in memory. -/
theorem copyTiles_own {store : Bool} {src dst : Tile} (hs : Owns s x (tileNo s x o.b) src) (hd : Owns s x (tileNo s x o.a) dst)
    (hss : (src.space == 2) = store) (hds : (dst.space == 2) = !store) (hsame : SameShape src dst) :
    copyTiles (issOf i s x) (issued i s x) o store = .ok (tileNo s x o.a, src, dst) := by
  have source : ownedTile (issOf i s x) (issued i s x) ((srcS s x o.b).toNat % 256) = some src := (ownedTile_issued h).2 hs
  have dest : ownedTile (issOf i s x) (issued i s x) ((srcS s x o.a).toNat % 256) = some dst := (ownedTile_issued h).2 hd
  obtain ⟨hrows, hcols, hfmt⟩ := hsame
  cases store <;> simp [copyTiles, scalarN_issued h, source, dest, hss, hds, hrows, hcols, hfmt, tileNo]

end

/-! ### What a copy reads -/

/-- A memory tile read whole from the bytes of its accesses: those of its elements, then those of its checksums. -/
def memoryRead (t : Tile) (bytes : List Byte) : TileRead :=
  ⟨bytes.take (t.rows * t.rowBytes), t.codes (bytes.take (t.rows * t.rowBytes)),
    bytesWords (t.rows + t.cols) (bytes.drop (t.rows * t.rowBytes)), false⟩

/-- A register tile read whole. -/
def registersRead (x : Crew) (t : Tile) : TileRead :=
  ⟨t.elemOffsets.map (regByte x), t.codes (t.elemOffsets.map (regByte x)), bytesWords (t.rows + t.cols) (t.sumOffsets.map (regByte x)), false⟩

theorem readTile_memory {k : Iss} {s : State} {t : Tile} {accs : List LaneAcc} (hsp : t.space ≠ 2)
    (hp : PlainPlaces s k.x (accs.flatMap (·.at_))) :
    readTile k s t accs = .ok (memoryRead t ((accs.flatMap (·.at_)).map (readByte s k.x)), s) := by
  simp only [readTile, if_neg hsp, readAccess_plain hp]
  rfl

theorem readTile_registers {k : Iss} {s : State} {t : Tile} (hsp : t.space = 2) (accs : List LaneAcc) :
    readTile k s t accs = .ok (registersRead k.x t, s) := by
  simp only [readTile, if_pos hsp]
  rfl

/-- The bytes a TLDM puts into its crew's registers, by offset: those of the elements and of the checksums. -/
def loadedBytes (x : Crew) (t : Tile) (e : CopyEnd) : List (Nat × Byte) :=
  t.elemOffsets.zip (t.elemBytes e.rows (t.elemOffsets.map (regByte x))) ++ t.sumOffsets.zip (e.sums.flatMap (toBytes 4))

/-! ### TLDM -/

section
variable {h : Hdr} {o : TileCopy} {s : State} {x : Crew} (hr : Ready (.tldm h o) s x)
include hr

theorem tldm_lacks (hn : ∀ t, ¬Owns s x (tileNo s x o.b) t) : Traps (.tldm h o) s x ⟨0x0F, 1, BitVec.ofNat 64 (tileNo s x o.b)⟩ :=
  traps_of hr (own := noReason) rfl rfl (by simp only [copyTiles_lacks hr o hn])

theorem tldm_runs {src dst : Tile} {accs : List LaneAcc} (hs : Owns s x (tileNo s x o.b) src) (hss : src.space ≠ 2)
    (hd : Owns s x (tileNo s x o.a) dst) (hds : dst.space = 2) (hsame : SameShape src dst)
    (hclear : ∀ e ∈ x.tags, e.2.deferred = true ∨ ∀ r ∈ e.2.dst, r.1 = true → r.2 ∉ dst.runRegs)
    (hok : checkTile (issOf (.tldm h o) s x) s src false = .ok accs) (hp : PlainPlaces s x (accs.flatMap (·.at_))) :
    let e := copyEnd src (memoryRead src ((accs.flatMap (·.at_)).map (readByte s x))) o.cor
    ∃ t y, exec (.tldm h o) s = .next t ∧ t.crew? s.cur = some y ∧ y.rf = x.rf ∧ y.ctl = nextPc x ∧ y.sq = x.sq ∧ t.mem = s.mem ∧
      OthersKept s t ∧
      t.op? s.nextId = some ⟨s.cur, h.tag.toNat, x.bank, x.ctl.em, .tileCopy ⟨{
        regs := (resS x o.d (BitVec.ofNat 64 e.word)).regs ++ regWrites x (loadedBytes x dst e)
        tile := some (tileNo s x o.a, some (e.state, 0)) }, [tileNo s x o.b, tileNo s x o.a], none, e.out == 1, false⟩⟩ ∧
      y.tags.find? h.tag.toNat =
        some ⟨some s.nextId, h.look.toNat, {}, dstRegs (.tldm h o) ++ dst.runRegs.map fun r => (true, r), false⟩ := by
  intro e
  have seen : readByte (issued (.tldm h o) s x) x = readByte s x := funext fun p => readByte_issued hr p
  have entries := copyTiles_own hr hs hd (beq_false_of_ne hss) (beq_iff_eq.2 hds) hsame
  have named : (issAlso (.tldm h o) s x dst.runRegs).scalarN (issued (.tldm h o) s x) o.b = (srcS s x o.b).toNat := scalarN_issued hr o.b
  have data := readTile_memory (k := issAlso (.tldm h o) s x dst.runRegs) hss (hp.issued hr)
  have mine : (issAlso (.tldm h o) s x dst.runRegs).x = x := rfl
  rw [mine, seen] at data
  obtain ⟨t, y, hrun, hy, hrf, hctl, hsq, hmem, hkept, hop, htag⟩ := giveTile_runs hr (copy := true) (bytes := []) (ch := 0)
    (dst := dstRegs (.tldm h o) ++ dst.runRegs.map fun r => (true, r))
    (v := ⟨{ regs := (resS x o.d (BitVec.ofNat 64 e.word)).regs ++ regWrites x (loadedBytes x dst e)
             tile := some (tileNo s x o.a, some (e.state, 0)) }, [tileNo s x o.b, tileNo s x o.a], none, e.out == 1, false⟩) rfl (by
    simp only [entries, checkTile_issued hr, hok, overlapCommit_clear hr hclear, data, named, scalarHeld, heldScalar_fp, heldScalar_mat]
    rfl)
  exact ⟨t, y, hrun, hy, hrf, hctl, hsq.trans (List.append_nil _), hmem, hkept, hop, htag⟩

end

/-! ### TSTM -/

/-- The values that a TSTM gives its places: of the elements, whose pad bits stay, and of the checksums. -/
def storedTile (s : State) (x : Crew) (t : Tile) (ps : List Place) (e : CopyEnd) : List Byte :=
  t.elemBytes e.rows (if t.cols * t.width % 8 = 0 then List.replicate (t.rows * t.rowBytes) 0
    else (ps.take (t.rows * t.rowBytes)).map (readByte s x)) ++ e.sums.flatMap (toBytes 4)

section
variable {h : Hdr} {o : TileCopy} {s : State} {x : Crew} (hr : Ready (.tstm h o) s x)
include hr

theorem tstm_lacks (hn : ∀ t, ¬Owns s x (tileNo s x o.b) t) : Traps (.tstm h o) s x ⟨0x0F, 1, BitVec.ofNat 64 (tileNo s x o.b)⟩ :=
  traps_of hr (own := noReason) rfl rfl (by simp only [copyTiles_lacks hr o hn])

variable {src dst : Tile} (hs : Owns s x (tileNo s x o.b) src) (hss : src.space = 2) (hd : Owns s x (tileNo s x o.a) dst)
  (hds : dst.space ≠ 2) (hsame : SameShape src dst)
include hs hss hd hds hsame

theorem tstm_waits (hfull : 32 ≤ x.sq.length) :
    exec (.tstm h o) s = .next (toWaiting (useLines s s.cur x (.tstm h o)) s.cur .queueSpace) := by
  have entries := copyTiles_own hr hs hd (beq_iff_eq.2 hss) (beq_false_of_ne hds) hsame
  have full : queueFull (issOf (.tstm h o) s x).x = true := decide_eq_true hfull
  refine (congrArg Host.Outcome.next (issue_ready hr (own := noReason) rfl _)).trans ?_
  simp only [entries, full, if_true]

theorem tstm_runs {accs : List LaneAcc} (hroom : x.sq.length < 32) (hok : checkTile (issOf (.tstm h o) s x) s dst true = .ok accs)
    (hben : dst.ben = false) :
    let e := copyEnd src (registersRead x src) o.cor
    let ps := accs.flatMap (·.at_)
    ∃ t y, exec (.tstm h o) s = .next t ∧ t.crew? s.cur = some y ∧ y.rf = x.rf ∧ y.ctl = nextPc x ∧ t.mem = s.mem ∧ OthersKept s t ∧
      y.sq = x.sq ++ tileEntry (ps.zip (storedTile s x dst ps e)) o.mm.ch.toNat s.nextId ∧
      t.op? s.nextId = some ⟨s.cur, h.tag.toNat, x.bank, x.ctl.em, .tileCopy ⟨resS x o.d (BitVec.ofNat 64 e.word),
        [tileNo s x o.b, tileNo s x o.a], some (.take (tileNo s x o.a) e.state 0), e.out == 1, false⟩⟩ := by
  intro e ps
  have seen : readByte (issued (.tstm h o) s x) x = readByte s x := funext fun p => readByte_issued hr p
  have room : queueFull x = false := decide_eq_false (Nat.not_le.2 hroom)
  have entries := copyTiles_own hr hs hd (beq_iff_eq.2 hss) (beq_false_of_ne hds) hsame
  have mine : (issOf (.tstm h o) s x).x = x := rfl
  have unbound (rows : List (List Nat)) (sums : List Nat) : copyBound (issued (.tstm h o) s x) x.seat.tag dst rows sums =
      (.ok (rows, sums, false), issued (.tstm h o) s x) := by
    simp [copyBound, hben]
  have tag : (issOf (.tstm h o) s x).tag = x.seat.tag := rfl
  obtain ⟨t, y, hrun, hy, hrf, hctl, hsq, hmem, hkept, hop, -⟩ := giveTile_runs hr (copy := true)
    (bytes := ps.zip (storedTile s x dst ps e)) (ch := o.mm.ch.toNat) (dst := dstRegs (.tstm h o))
    (v := ⟨resS x o.d (BitVec.ofNat 64 e.word), [tileNo s x o.b, tileNo s x o.a], some (.take (tileNo s x o.a) e.state 0), e.out == 1, false⟩)
    rfl (by
    simp only [entries, room, checkTile_issued hr, hok, readTile_registers hss, mine, tag, unbound, tileBytes, seen, scalarN_issued hr,
      Bool.false_eq_true, if_false]
    rfl)
  exact ⟨t, y, hrun, hy, hrf, hctl, hmem, hkept, hsq, hop⟩

end

end Sys2Proof.Machine
end

section
/-!
PROOF of TSTP at issue (R163, R165, R173): the lanes outside the tile, and the entry of the store queue lane by lane.
-/
namespace Sys2Proof.Machine

/-! ### Where a lane's element lies -/

/-- The row and the column that a lane's coordinate word names. -/
def putRow (x : Crew) (o : TilePut) (l : Nat) : Nat := bits (srcL x 32 o.b l) 22 16
def putCol (x : Crew) (o : TilePut) (l : Nat) : Nat := bits (srcL x 32 o.b l) 9 0

/-- A lane's element lies outside the tile. -/
def putOutside (t : Tile) (x : Crew) (o : TilePut) (l : Nat) : Bool := decide (t.rows ≤ putRow x o l) || decide (t.cols ≤ putCol x o l)

/-- The access of lanes to their elements and checksum words. -/
def putReq (t : Tile) (x : Crew) (o : TilePut) (ls : List Nat) : Req :=
  ⟨t.space, 1, true, ls.flatMap fun l => putPieces t l (putRow x o l) (putCol x o l), fun _ => false⟩

section
variable (i : Instr) (s : State) (x : Crew)

theorem bits_lane32_row (o : TilePut) (l : Nat) : bits ((issOf i s x).lane32 o.b 0 l) 22 16 = putRow x o l := by
  have lane : srcL x 32 o.b l = (issOf i s x).lane32 o.b 0 l % 2 ^ 32 := rfl
  simp only [putRow, lane, bits]
  omega

theorem bits_lane32_col (o : TilePut) (l : Nat) : bits ((issOf i s x).lane32 o.b 0 l) 9 0 = putCol x o l := by
  have lane : srcL x 32 o.b l = (issOf i s x).lane32 o.b 0 l % 2 ^ 32 := rfl
  simp only [putCol, lane, bits]
  omega

/-- The 32 bits of a lane's source are its value. -/
theorem lane32_eq_srcL (r : Reg) {l : Nat} (hl : l < 128) : (issOf i s x).lane32 r 0 l = srcL x 32 r l := by
  have lane : srcL x 32 r l = (issOf i s x).lane32 r 0 l % 2 ^ 32 := rfl
  have small : (issOf i s x).lane32 r 0 l < 2 ^ 32 := by
    cases r with
    | v k => exact BitVec.isLt _
    | s k => exact Nat.mod_lt _ (by decide)
    | lid => exact hl.trans (by decide)
    | _ => exact Nat.two_pow_pos 32
  rw [lane, Nat.mod_eq_of_lt small]

end

/-- Every piece of a lane's access is the lane's. -/
theorem putPieces_lane {t : Tile} {l r c : Nat} {p : Piece} (hp : p ∈ putPieces t l r c) : p.lane = l := by
  simp only [putPieces, List.mem_append, List.mem_map, List.mem_cons, List.not_mem_nil, or_false] at hp
  rcases hp with ⟨j, -, rfl⟩ | rfl | rfl <;> rfl

/-- The lanes of `ls` with a piece that fails step `k`. -/
theorem mem_lanesAt_putReq {s : State} {t : Tile} {x : Crew} {o : TilePut} {ls : List Nat} {k l : Nat} :
    l ∈ lanesAt s x (putReq t x o ls) k ↔
      l ∈ ls ∧ ∃ p ∈ putPieces t l (putRow x o l) (putCol x o l), (pieceEnd s x (putReq t x o ls) p).1 = k := by
  simp only [lanesAt, List.mem_eraseDups, List.mem_map, List.mem_filter, beq_iff_eq]
  constructor
  · rintro ⟨p, ⟨hp, hk⟩, rfl⟩
    obtain ⟨m, hm, hp⟩ := List.mem_flatMap.1 hp
    obtain rfl := putPieces_lane hp
    exact ⟨hm, p, hp, hk⟩
  · rintro ⟨hl, p, hp, hk⟩
    exact ⟨p, ⟨List.mem_flatMap.2 ⟨l, hl, hp⟩, hk⟩, putPieces_lane hp⟩

/-- A cleared bound entry has no value outside it. -/
theorem codeOutside_cleared (fmt code : Nat) : Bound.cleared.codeOutside fmt code = false := by
  unfold Bound.codeOutside
  split <;> rfl

/-- A lane's element in the entry of the store queue. -/
def putElement (t : Tile) (x : Crew) (o : TilePut) (accs : List LaneAcc) (l : Nat) : PutEl :=
  let mine := (accs.filter fun a => a.lane == l).map (·.at_)
  let k := mine.length - 2
  { lane := l
    at_ := (mine.take k).flatten
    bit := putCol x o l * t.width % 8
    width := t.width
    code := srcL x 32 o.c l % 2 ^ t.width
    rowAt := mine.getD k []
    colAt := mine.getD (k + 1) [] }

/-- Of lanes that each bring their own pieces, those of lane `l` are the ones it brings. -/
theorem filter_lane_flatMap {ls : List Nat} (hnd : ls.Nodup) {P : Nat → List Piece} (hP : ∀ l, ∀ p ∈ P l, p.lane = l) {l : Nat}
    (hl : l ∈ ls) :
    (ls.flatMap P).filter (fun p => p.lane == l) = P l := by
  have self (k : Nat) : (P k).filter (fun p => p.lane == l) = if k = l then P k else [] := by
    split
    · next hk => exact List.filter_eq_self.2 fun p hp => by simp [hP k p hp, hk]
    · next hk => exact List.filter_eq_nil_iff.2 fun p hp => by simp [hP k p hp, hk]
  induction ls with
  | nil => cases hl
  | cons k ls ih =>
    obtain ⟨hk, hnd⟩ := List.nodup_cons.1 hnd
    rw [List.flatMap_cons, List.filter_append, self]
    by_cases hkl : k = l
    · have none : (ls.flatMap P).filter (fun p => p.lane == l) = [] := List.filter_eq_nil_iff.2 fun p hp hpl => by
        obtain ⟨m, hm, hp⟩ := List.mem_flatMap.1 hp
        exact hk (hkl ▸ (beq_iff_eq.1 hpl) ▸ hP m p hp ▸ hm)
      rw [if_pos hkl, none, List.append_nil, hkl]
    · rw [if_neg hkl, List.nil_append, ih hnd ((List.mem_cons.1 hl).resolve_left (Ne.symm hkl))]

/-- A lane's element names the bytes of its element, then those of the checksum of its row and of its column. -/
theorem putElement_places {s : State} {t : Tile} {x : Crew} {o : TilePut} {ls : List Nat} (hnd : ls.Nodup) {accs : List LaneAcc}
    (hok : checkAccess s x (putReq t x o ls) = .ok accs) {l : Nat} (hl : l ∈ ls) :
    (∃ a ∈ accs, a.lane = l ∧ a.ea = (t.csum + 4 * putRow x o l) % 2 ^ 64 ∧ (putElement t x o accs l).rowAt = a.at_) ∧
    (∃ a ∈ accs, a.lane = l ∧ a.ea = (t.csum + 4 * (t.rows + putCol x o l)) % 2 ^ 64 ∧ (putElement t x o accs l).colAt = a.at_) ∧
    (putElement t x o accs l).at_ =
      ((accs.filter fun a => a.lane == l).take (ceilDiv (putCol x o l * t.width % 8 + t.width) 8)).flatMap (·.at_) := by
  let acc (p : Piece) : LaneAcc := ⟨p.lane, p.ea, (pieceEnd s x (putReq t x o ls) p).2⟩
  have all : accs = (putReq t x o ls).pieces.map acc := checkAccess_ok hok
  obtain ⟨el, hn, hel⟩ : ∃ el : List Piece, el.length = ceilDiv (putCol x o l * t.width % 8 + t.width) 8 ∧
      putPieces t l (putRow x o l) (putCol x o l) = el ++ [⟨l, (t.csum + 4 * putRow x o l) % 2 ^ 64, 4⟩,
        ⟨l, (t.csum + 4 * (t.rows + putCol x o l)) % 2 ^ 64, 4⟩] := ⟨_, by simp, rfl⟩
  have mine : (accs.filter fun a => a.lane == l) = (putPieces t l (putRow x o l) (putCol x o l)).map acc := by
    rw [all, List.filter_map]
    exact congrArg (List.map acc) (filter_lane_flatMap hnd (fun _ _ => putPieces_lane) hl)
  have reached {p : Piece} (hp : p ∈ putPieces t l (putRow x o l) (putCol x o l)) : acc p ∈ accs :=
    all ▸ List.mem_map_of_mem (List.mem_flatMap.2 ⟨l, hl, hp⟩)
  rw [hel] at mine reached
  rw [← hn]
  have row := reached (p := ⟨l, (t.csum + 4 * putRow x o l) % 2 ^ 64, 4⟩) (by simp)
  have col := reached (p := ⟨l, (t.csum + 4 * (t.rows + putCol x o l)) % 2 ^ 64, 4⟩) (by simp)
  refine ⟨⟨_, row, rfl, rfl, ?_⟩, ⟨_, col, rfl, rfl, ?_⟩, ?_⟩
  · simp [putElement, mine]
  · simp [putElement, mine]
  · simp [putElement, mine, List.flatMap_def]

/-! ### TSTP -/

section
variable {h : Hdr} {o : TilePut} {s : State} {x : Crew} (hr : Ready (.tstp h o) s x)
include hr

theorem tstp_noLanes (hls : activeLanes x.ctl.em = []) : Sets (.tstp h o) s x x.rf (nextPc x) := by
  have hls : activeLanes (issOf (.tstp h o) s x).em = [] := hls
  exact sets_of_giveTag hr (rf := x.rf) (issued_crew hr) (.refl _ _) rfl (by simp only [hls]; rfl)

variable (hne : activeLanes x.ctl.em ≠ [])
include hne

theorem tstp_lacks (hn : ∀ t, ¬Owns s x (tileNo s x o.a) t) :
    Traps (.tstp h o) s x ⟨0x0F, x.ctl.em, BitVec.ofNat 64 (tileNo s x o.a)⟩ := by
  have none : ownedTile (issOf (.tstp h o) s x) (issued (.tstp h o) s x) ((srcS s x o.a).toNat % 256) = none := ownedTile_lacks hr hn
  refine traps_of hr (own := noReason) rfl rfl ?_
  dsimp only
  split
  · next hls => exact absurd hls hne
  · simp only [scalarN_issued hr, none]
    rfl

variable {t : Tile} (hown : Owns s x (tileNo s x o.a) t) (hsp : t.space ≠ 2)
include hown hsp

omit hne in
theorem tstp_entry : (ownedTile (issOf (.tstp h o) s x) (issued (.tstp h o) s x) ((srcS s x o.a).toNat % 256)).filter (fun t => t.space != 2) =
    some t := by
  have entry : ownedTile (issOf (.tstp h o) s x) (issued (.tstp h o) s x) ((srcS s x o.a).toNat % 256) = some t := (ownedTile_issued hr).2 hown
  rw [entry]
  simp [hsp]

theorem tstp_effect : ∃ eff, exec (.tstp h o) s = run (.tstp h o) eff s ∧
    (queueFull x = true → eff (issOf (.tstp h o) s x) (issued (.tstp h o) s x) = .wait .queueSpace) ∧
    (queueFull x = false →
      (∀ l rest, (activeLanes x.ctl.em).filter (putOutside t x o) = l :: rest →
        eff (issOf (.tstp h o) s x) (issued (.tstp h o) s x) = .trap ⟨0x04,
          lanesMask (l :: rest ++ lanesAt (issued (.tstp h o) s x) x
            (putReq t x o ((activeLanes x.ctl.em).filter fun k => !putOutside t x o k)) 3),
          BitVec.ofNat 64 (rest.foldl (fun m k => min m ((issOf (.tstp h o) s x).lane32 o.b 0 k)) ((issOf (.tstp h o) s x).lane32 o.b 0 l))⟩) ∧
      ((activeLanes x.ctl.em).filter (putOutside t x o) = [] → t.ben = false → ∀ accs,
        checkAccess (issued (.tstp h o) s x) x (putReq t x o (activeLanes x.ctl.em)) = .ok accs →
        eff (issOf (.tstp h o) s x) (issued (.tstp h o) s x) =
          .done (giveEntry (issOf (.tstp h o) s x) (issued (.tstp h o) s x) none (.lanes 0)
            (.put { els := (activeLanes x.ctl.em).map (putElement t x o accs) })))) := by
  have entry := tstp_entry hr hown hsp
  have mine : (issOf (.tstp h o) s x).x = x := rfl
  have em : (issOf (.tstp h o) s x).em = x.ctl.em := rfl
  refine ⟨_, rfl, fun hfull => ?_, fun hroom => ⟨fun l rest hout => ?_, fun hout hben accs hok => ?_⟩⟩
  all_goals
    dsimp only
    split
    · next hls => exact absurd hls hne
    simp only [scalarN_issued hr, entry, bits_lane32_row, bits_lane32_col]
  · simp only [mine, hfull, if_true]
  · have out : (activeLanes x.ctl.em).filter (fun l => decide (t.rows ≤ putRow x o l) || decide (t.cols ≤ putCol x o l)) = l :: rest := hout
    simp only [mine, em, hroom, Bool.false_eq_true, if_false, out]
    rfl
  · have out : (activeLanes x.ctl.em).filter (fun l => decide (t.rows ≤ putRow x o l) || decide (t.cols ≤ putCol x o l)) = [] := hout
    simp only [putReq] at hok
    simp only [mine, em, hroom, Bool.false_eq_true, if_false, out, hben, hok, codeOutside_cleared, List.filter_false]
    refine congrArg (fun els => Effect.done (giveEntry (issOf (.tstp h o) s x) (issued (.tstp h o) s x) none (.lanes 0) (.put { els := els })))
      (List.map_congr_left fun l hl => ?_)
    rw [putElement, ← lane32_eq_srcL (.tstp h o) s x o.c (mem_activeLanes.1 hl).1]

theorem tstp_waits (hfull : 32 ≤ x.sq.length) :
    exec (.tstp h o) s = .next (toWaiting (useLines s s.cur x (.tstp h o)) s.cur .queueSpace) := by
  obtain ⟨eff, he, full, -⟩ := tstp_effect hr hne hown hsp
  rw [he, run, issue_ready hr (own := noReason) rfl, full (decide_eq_true hfull)]

variable (hroom : x.sq.length < 32)
include hroom

/-- A lane outside the tile stops it, with the lanes that fail step 3 of R163 by their address; TADDR is the lowest coordinate word (log 69). -/
theorem tstp_outside (hout : (activeLanes x.ctl.em).filter (putOutside t x o) ≠ []) :
    ∃ l ∈ (activeLanes x.ctl.em).filter (putOutside t x o), ∃ m : Mask,
      (∀ k ∈ (activeLanes x.ctl.em).filter (putOutside t x o), srcL x 32 o.b l ≤ srcL x 32 o.b k) ∧
      (∀ k < 128, m.getLsbD k = true ↔ k ∈ (activeLanes x.ctl.em).filter (putOutside t x o) ∨
        (k ∈ activeLanes x.ctl.em ∧ k ∉ (activeLanes x.ctl.em).filter (putOutside t x o) ∧
          ∃ p ∈ putPieces t k (putRow x o k) (putCol x o k), (pieceEnd s x (putReq t x o (activeLanes x.ctl.em)) p).1 = 3)) ∧
      Traps (.tstp h o) s x ⟨0x04, m, BitVec.ofNat 64 (srcL x 32 o.b l)⟩ := by
  obtain ⟨eff, he, -, room⟩ := tstp_effect hr hne hown hsp
  obtain ⟨outside, -⟩ := room (decide_eq_false (Nat.not_le.2 hroom))
  obtain ⟨l, rest, hlr⟩ := List.exists_cons_of_ne_nil hout
  have word {k : Nat} (hk : k ∈ l :: rest) : (issOf (.tstp h o) s x).lane32 o.b 0 k = srcL x 32 o.b k :=
    lane32_eq_srcL _ _ _ _ (mem_activeLanes.1 (List.mem_filter.1 (hlr ▸ hk)).1).1
  obtain ⟨p, hp, hlow, hall⟩ := foldl_min_head ((issOf (.tstp h o) s x).lane32 o.b 0) (l :: rest) 0 (List.cons_ne_nil l rest)
  rw [List.foldl_cons, List.headD_cons, min_self] at hlow
  have traps := traps_of hr (own := noReason) rfl he (outside l rest hlr)
  rw [hlow, word hp] at traps
  rw [hlr]
  refine ⟨p, hp, _, fun k hk => word hp ▸ word hk ▸ hall k hk, fun k hk => ?_, traps⟩
  have within : k ∈ activeLanes x.ctl.em ∧ putOutside t x o k = false ↔ k ∈ activeLanes x.ctl.em ∧ k ∉ l :: rest := by
    rw [← hlr, List.mem_filter, not_and, Bool.not_eq_true]
    exact and_congr_right fun hin => ⟨fun hf _ => hf, fun hf => hf hin⟩
  have same (p : Piece) : pieceEnd (issued (.tstp h o) s x) x
      (putReq t x o ((activeLanes x.ctl.em).filter fun k => !putOutside t x o k)) p =
      pieceEnd s x (putReq t x o (activeLanes x.ctl.em)) p := pieceEnd_elsewhere (issued_else hr) _ _ _
  rw [getLsbD_lanesMask _ hk, List.contains_iff_mem, List.mem_append, mem_lanesAt_putReq, List.mem_filter, Bool.not_eq_true', within, and_assoc]
  simp only [same]

theorem tstp_queues (hout : (activeLanes x.ctl.em).filter (putOutside t x o) = []) (hben : t.ben = false) {accs : List LaneAcc}
    (hok : checkAccess s x (putReq t x o (activeLanes x.ctl.em)) = .ok accs) :
    Queues (.tstp h o) s x none (.lanes 0) (.put { els := (activeLanes x.ctl.em).map (putElement t x o accs) }) := by
  obtain ⟨eff, he, -, room⟩ := tstp_effect hr hne hown hsp
  obtain ⟨-, inside⟩ := room (decide_eq_false (Nat.not_le.2 hroom))
  exact queues_of hr (own := noReason) rfl he (inside hout hben accs ((checkAccess_elsewhere (issued_else hr) _ _).trans hok))

end

end Sys2Proof.Machine
end

section
/-!
PROOF of how a tile copy ends (R88, R219, R221), and that tile copies move tile data.
-/
namespace Sys2Proof.Machine

/-! ### An operation ends (R88) -/

/-- An operation of a crew that is not DRAINING ends with result `w`: its tag, where it still names the operation, holds `w`; nothing of a core
changes, and no byte of memory while the crew has its slot. -/
theorem finishOp_held {s : State} {o c tag : Nat} {b : Bool} {em : Mask} {k : OpKind} {x : Crew} (ho : s.op? o = some ⟨c, tag, b, em, k⟩)
    (hx : s.crew? c = some x) (hs : x.state ≠ .draining) (w : Held) :
    (finishOp s o w).op? o = none ∧ (finishOp s o w).crew? c = some { x with
      tags := x.tags.modify tag fun t => if t.op = some o then { t with op := none, held := w } else t } ∧
    (∀ g, (finishOp s o w).core g = s.core g) ∧ (InSlot s c tag → (finishOp s o w).mem = s.mem) := by
  let y : Crew := { x with tags := x.tags.modify tag fun t => if t.op = some o then { t with op := none, held := w } else t }
  have ended : finishOp s o w = holdResult ((s.dropOp o).setCrew c y) c tag := by
    simp only [finishOp, ho, updCrew_of (s := s.dropOp o) hx, hs, if_false]
    rfl
  have only := memOnly_holdResult ((s.dropOp o).setCrew c y) c tag
  rw [ended]
  refine ⟨(only.op? o).trans (SMap.find?_erase_self s.ops o), (only.crew? c).trans (State.crew?_setCrew_self ..), only.core, fun hslot => ?_⟩
  obtain ⟨hsus, hdef⟩ := hslot x hx
  have kept : (y.tags.find? tag).any (·.deferred) = false := by
    rw [show y.tags.find? tag = _ from SMap.find?_modify_self ..]
    cases hr : x.tags.find? tag with
    | none => rfl
    | some r =>
      rw [Option.map_some, Option.any_some]
      split <;> exact hdef r hr
  have state : y.state ≠ .suspended := hsus
  simp only [holdResult, State.crew?_setCrew_self, kept, state, Bool.false_eq_true, or_self, if_false]
  rfl

/-! ### A tile operation ends (R219, R221) -/

/-- The counters once a correction is counted, if there was one. -/
def countedFix (fixed : Bool) (k : Counters) : Counters := { k with ckcor := if fixed then sat32 (k.ckcor + 1) else k.ckcor }

/-- A core's entries once the one that the operation names has taken its state, or is freed. -/
def tilesAfter : Option TileSet → SMap Tile → SMap Tile
  | some (.take i st n), m => m.modify i fun t => { t with state := st, ncor := min 255 (t.ncor + n) }
  | some (.free i), m => m.erase i
  | none, m => m

/-- The state in which a tile operation of core `g` ends: only that core has changed, in its count of corrections and its entries. -/
theorem endTile_eq {s : State} {op : Nat} {o : Op} {x : Crew} (hx : s.crew? o.crew = some x) (v : TileEnd) : ∃ u,
    endTile s op o v = finishOp u op v.held ∧ { u with cores := s.cores } = s ∧
    u.core x.seat.core = { s.core x.seat.core with
      ctr := countedFix v.corrected (s.core x.seat.core).ctr, tiles := tilesAfter v.set (s.core x.seat.core).tiles } := by
  obtain ⟨held, names, set, corrected, drains⟩ := v
  simp only [endTile, hx]
  refine ⟨_, rfl, ?_, ?_⟩
  · cases corrected <;> rcases set with _ | ⟨_ | _⟩ <;> rfl
  · cases corrected <;> rcases set with _ | ⟨_ | _⟩ <;>
      simp [countedFix, tilesAfter, takeTileState, State.updCtr, State.updTile]

/-- A tile copy of a crew that is not DRAINING ends: its result is held under its tag, its correction counted, and its entry set. -/
theorem tileCopyDone_spec {s : State} {o c tag : Nat} {b : Bool} {em : Mask} {v : TileEnd} {x : Crew}
    (ho : s.op? o = some ⟨c, tag, b, em, .tileCopy v⟩) (hx : s.crew? c = some x) (hs : x.state ≠ .draining) :
    ∃ t y, exec (.tileCopyDone o) s = .next t ∧ t.op? o = none ∧ t.crew? c = some y ∧ y.rf = x.rf ∧ y.ctl = x.ctl ∧
      (InSlot s c tag → t.mem = s.mem) ∧
      (∀ r, x.tags.find? tag = some r → r.op = some o → y.tags.find? tag = some { r with op := none, held := v.held }) ∧
      t.core x.seat.core = { s.core x.seat.core with
        ctr := countedFix v.corrected (s.core x.seat.core).ctr, tiles := tilesAfter v.set (s.core x.seat.core).tiles } := by
  obtain ⟨u, hend, hrest, hcore⟩ := endTile_eq (op := o) (o := ⟨c, tag, b, em, .tileCopy v⟩) hx v
  have hou : u.op? o = some ⟨c, tag, b, em, .tileCopy v⟩ := by
    have e := congrArg (fun s : State => s.op? o) hrest
    exact e.trans ho
  have hxu : u.crew? c = some x := by
    have e := congrArg (fun s : State => s.crew? c) hrest
    exact e.trans hx
  have mem : u.mem = s.mem := by
    have e := congrArg State.mem hrest
    exact e
  obtain ⟨hop, hy, hcores, hmem⟩ := finishOp_held hou hxu hs v.held
  have done : exec (.tileCopyDone o) s = .next (finishOp u o v.held) := by
    rw [← hend]
    show Host.Outcome.next _ = _
    simp only [ho]
  refine ⟨_, _, done, hop, hy, rfl, rfl, fun hslot => (hmem fun z hz => hslot z (hx.trans (hxu.symm.trans hz))).trans mem, fun r hr hro => ?_,
    (hcores _).trans hcore⟩
  refine (SMap.find?_modify_self ..).trans ?_
  simp [hr, hro]

/-- Settles O48: TLDM (`tldm_runs`), TSTM (`tstm_runs`), TSTP (`tstp_outside`, `tstp_queues`) and the end of a copy (`tileCopyDone_spec`). -/
theorem tileCopiesMove : Obligations.TileCopiesMove := by
  unfold Obligations.TileCopiesMove
  refine ⟨fun h o s x hr => ⟨tldm_lacks hr, fun src dst accs => tldm_runs hr⟩,
    fun h o s x hr => ⟨tstm_lacks hr, fun src dst hs hss hd hds hsame => ⟨tstm_waits hr hs hss hd hds hsame,
      fun accs hroom hok hben => ?tstm⟩⟩,
    fun h o s x hr => ⟨tstp_noLanes hr, tstp_lacks hr, fun t hne hown hsp => ⟨tstp_waits hr hne hown hsp, fun hroom =>
      ⟨tstp_outside hr hne hown hsp hroom, fun accs hout hben hok => ?tstp⟩⟩⟩,
    fun s o c tag b em v x ho hx hs => ?done⟩
  case tstm =>
    intro elems e old bytes hbytes
    obtain ⟨t, y, hrun, hy, hrf, hctl, hmem, hkept, hsq, hop⟩ := tstm_runs hr hs hss hd hds hsame hroom hok hben
    exact ⟨t, y, hrun, hy, hrf, hctl, hmem, hkept, hsq.trans (congrArg (x.sq ++ ·) (tileEntry_of_ne hbytes _ _)), hop⟩
  case tstp =>
    refine ⟨_, tstp_queues hr hne hown hsp hroom hout hben hok, ?_, fun e he => ?_⟩
    · rw [List.map_map]
      exact List.map_id _
    · obtain ⟨l, hl, rfl⟩ := List.mem_map.1 he
      exact ⟨rfl, rfl, rfl, putElement_places (activeLanes_nodup _) hok hl⟩
  case done =>
    obtain ⟨t, y, hrun, hop, hy, hrf, hctl, hmem, htag, hcore⟩ := tileCopyDone_spec ho hx hs
    have tiles (n : Nat) : t.tile? x.seat.core n = (tilesAfter v.set (s.core x.seat.core).tiles).find? n :=
      congrArg (fun k : Core => k.tiles.find? n) hcore
    refine ⟨t, y, hrun, hop, hy, hrf, hctl, hmem, htag, congrArg Core.ctr hcore, fun n st k e hset he => ?_, fun hset n => ?_⟩
    · rw [tiles, hset]
      exact (SMap.find?_modify_self ..).trans (congrArg _ he)
    · rw [tiles, hset]
      rfl

end Sys2Proof.Machine
end
